-- ==== Sys2Proof/Word.lean ====
section
/-! DEFINITION. The word types of the machine and their plainest arithmetic (R5, R6). -/

namespace Sys2Proof

/-- A 32-bit word: s-registers, lanes, CSRs, scratchpad words. -/
abbrev Word := BitVec 32
/-- A byte, the smallest addressable unit of every memory (R6). -/
abbrev Byte := BitVec 8
/-- A heap virtual address (R29), and the content of an a-register (R101). -/
abbrev VAddr := BitVec 48
/-- The 32 lanes of a vector register (R134). -/
abbrev Vec := Vector Word 32
/-- The 128 columns of an ACM row or scale register (R81, R182). -/
abbrev Row := Vector Word 128

/-- A logical tile: `x * 512 + y`, the bits [33:16] of its comb address (R11, R196). -/
abbrev TileId := Nat

end Sys2Proof
end

