-- ==== Sys2Proof/Syntax.lean ====
section
/-! DEFINITION. The instructions of the Comb-1: one constructor of `Instr` for every row of
spec/opcode_table.json. Tile slot instructions and Puren-S instructions carry the fields of their
encodings; the table's event rows carry the party they happen to and, for events that come from outside,
what they bring. Register operands are indices inside their files (R39). -/

namespace Sys2Proof

/-- Conditions of CMP and CMPI (R67, R125). -/
inductive Cond where
  | eq | ne | lt | ge | ltu | geu | gt | gtu
  deriving DecidableEq, Repr

/-- Conditions of BRS (R40). -/
inductive SignCond where
  | eqz | nez | ltz | gez | gtz | lez
  deriving DecidableEq, Repr

/-- Conditions of SBR (R73). -/
inductive ScoutCond where
  | eqz | nez | ltz | gez
  deriving DecidableEq, Repr

/-- Vector lane types (R34). -/
inductive VType where
  | i32 | u32 | f32 | bf16p
  deriving DecidableEq, Repr

/-- Conditions of VCMP (R139). -/
inductive VCond where
  | eq | ne | lt | le | gt | ge | uo
  deriving DecidableEq, Repr

/-- The reductions of VRED (R142). -/
inductive VRedOp where
  | sum | min | max
  deriving DecidableEq, Repr

/-- The operations of AMO (R70, R226). -/
inductive AmoOp where
  | add | min | max | minu | maxu | and | or | xor | swap
  deriving DecidableEq, Repr

/-- Accumulate controls of MMA (R36). -/
inductive AccCtl where
  | ow | acc | dacc
  deriving DecidableEq, Repr

/-- Drained formats of ADRN (R71). -/
inductive DrainFmt where
  | f32 | bf16 | fp16 | i32 | s16 | s8
  deriving DecidableEq, Repr

/-- Reduce opcodes of SENDR, COLL and SREDUCE (R72). -/
inductive ReduceOp where
  | addF32 | addI32 | maxF32 | minF32 | maxI32 | minI32 | addBf16p | addFx128
  deriving DecidableEq, Repr

/-- Buffer states as WAITB names them (R165, R190). -/
inductive BufState where
  | empty | filling | full | draining
  deriving DecidableEq, Repr

/-- Fence scopes (R40, R170). -/
inductive Scope where
  | slot | context | tile | channel | swarm | stack | comb | hive | host | system
  deriving DecidableEq, Repr

/-- The CSRs of R109. The 64-bit and 48-bit items have a low and a high half. -/
inductive Csr where
  | status | round | cause | finfo | fpcl | fpch | epcl | epch | trapvl | trapvh | rundecl | ovrcnt
  | ttickl | ttickh | hbasel | hbaseh | hlimitl | hlimith | hoffsetl | hoffseth | walker | launch
  | lorg | lext | rank
  | txy | mxown | decay | precv | rowpl | rowph | colp (i : Fin 4) | ctimel | ctimeh
  | grid | cfg | stkmapl | stkmaph | portmap
  | err (i : Fin 10) | pmc (i : Fin 8) | pmsel (i : Fin 8)
  deriving DecidableEq, Repr

/-- Operands of the Copy layout (R37). -/
structure CopyOps where
  buf : Fin 32
  ab : Fin 8
  f : Bool
  cn : Fin 16
  t : Bool
  st : Bool
  rs : Fin 32
  deriving DecidableEq, Repr

/-- Operands of the Message layout (R37), less the reduce opcode. -/
structure MsgOps where
  ch : Fin 256
  buf : Fin 32
  cn : Fin 16
  t : Bool
  deriving DecidableEq, Repr

/-- The kinds of packet an optical port carries (R344, R347, R353). -/
inductive PacketKind where
  | data | atomicReq | atomicResp
  deriving DecidableEq, Repr

/-- An optical packet as it crosses the fibres (R344, R347, R353). -/
structure Packet where
  kind : PacketKind
  /-- sending wafer -/
  src : BitVec 16
  /-- destination wafer -/
  dst : BitVec 16
  /-- link sequence number of the direction (R344) -/
  seq : BitVec 32
  /-- the packet carries a swarm and its view tag (R353) -/
  sv : Bool
  swn : Fin 256
  vt : BitVec 16
  sh : BitVec 16
  payload : List Byte
  /-- word address and operand of a remote atomic request; request number, and old word of a response (R347) -/
  addr : Nat
  arg : Word
  reqno : Nat
  deriving DecidableEq, Repr

/-- The fate a COMMIT gives one instance of one collective channel (R337). -/
structure Fate where
  ch : Fin 256
  inst : BitVec 16
  finish : Bool
  /-- roster position of the lowest member of the new view that reported the instance completed -/
  src : Nat
  deriving DecidableEq, Repr

/-- What a COMMIT frame carries (R335, R337, R341). -/
structure CommitFrame where
  tag : BitVec 16
  /-- roster positions present in the new view -/
  members : List Nat
  fates : List Fate
  /-- next instance of each collective channel, for joiners (R341) -/
  nexts : List (Nat × BitVec 16)
  deriving DecidableEq, Repr

/-- The 64-byte records of the host, decoded (R394 to R397). `va`, `hbase`, `hlimit`, `hoffset`, `walker`
and `root` are the heap descriptor. -/
structure HeapDesc where
  hbase : VAddr
  hlimit : VAddr
  hoffset : BitVec 42
  walker : Word
  root : BitVec 22
  deriving DecidableEq, Repr

/-- Every row of spec/opcode_table.json. -/
inductive Instr where
  -- control slot (R62)
  | br (off : BitVec 24)
  | brp (inv : Bool) (p : Fin 16) (off : BitVec 20)
  | brs (rs : Fin 32) (cond : SignCond) (off : BitVec 17)
  | bru (off : BitVec 24)
  | call (off : BitVec 24)
  | loop (count : BitVec 12) (len : BitVec 12)
  | loopReg (rs : Fin 32) (len : BitVec 12)
  | trap (code : BitVec 16)
  | yield (run : BitVec 20)
  | waitc (c : Fin 16) (thr : BitVec 9)
  | waits (sem : Fin 16) (val : BitVec 16)
  | waitsD (sem : Fin 16) (val : BitVec 16)
  | waitt (tl : Fin 1024) (rsl rsh : Fin 32)
  | waitcr (ch : Fin 256) (n : BitVec 8)
  | waitrg (rg : Fin 8) (n : BitVec 8)
  | waitrgFree (rg : Fin 8) (n : BitVec 8)
  | waitb (buf : Fin 32) (st : BufState)
  | waitbTag (buf : Fin 32) (st : BufState) (tag : BitVec 8)
  | phase (eq : BitVec 3)
  | fence (scope : Scope)
  | csrr (rs : Fin 32) (csr : Csr)
  | csrw (rs : Fin 32) (csr : Csr)
  | csrset (rs : Fin 32) (csr : Csr)
  | csrclr (rs : Fin 32) (csr : Csr)
  | mxownRelease (t : TileId)
  | blk (grp : BitVec 8) (n : BitVec 4)
  | pref (lvl : Bool) (ab : Fin 8) (lines : BitVec 8)
  | pin (lvl : Bool) (ab : Fin 8) (lines : BitVec 8)
  | unpin (lvl : Bool) (ab : Fin 8) (lines : BitVec 8)
  -- scalar slots (R65, R66)
  | add (rd a b : Fin 32)
  | sub (rd a b : Fin 32)
  | and (rd a b : Fin 32)
  | or (rd a b : Fin 32)
  | xor (rd a b : Fin 32)
  | andn (rd a b : Fin 32)
  | shl (rd a b : Fin 32)
  | shr (rd a b : Fin 32)
  | sra (rd a b : Fin 32)
  | min (rd a b : Fin 32)
  | max (rd a b : Fin 32)
  | minu (rd a b : Fin 32)
  | maxu (rd a b : Fin 32)
  | mov (rd a : Fin 32)
  | clz (rd a : Fin 32)
  | popc (rd a : Fin 32)
  | mul (rd a b : Fin 32)
  | mulh (rd a b : Fin 32)
  | mulhu (rd a b : Fin 32)
  | sel (rd a b : Fin 32) (p : Fin 16)
  | cmp (cond : Cond) (pd : Fin 16) (a b : Fin 32)
  | cmpi (cond : Cond) (pd : Fin 16) (a : Fin 32) (imm : BitVec 11)
  | plog (tt : BitVec 4) (pd pa pb : Fin 16)
  | addi (rd a : Fin 32) (imm : BitVec 11)
  | andi (rd a : Fin 32) (imm : BitVec 11)
  | ori (rd a : Fin 32) (imm : BitVec 11)
  | xori (rd a : Fin 32) (imm : BitVec 11)
  | shli (rd a : Fin 32) (n : Fin 32)
  | shri (rd a : Fin 32) (n : Fin 32)
  | srai (rd a : Fin 32) (n : Fin 32)
  | movi (rd : Fin 32) (imm : BitVec 16)
  | movhi (rd : Fin 32) (imm : BitVec 16)
  | aadd (ad aa : Fin 8) (sb : Fin 32)
  | aaddi (ad aa : Fin 8) (imm : BitVec 11)
  | amov (ad aa : Fin 8)
  | amovFromPair (ad : Fin 8) (sa : Fin 32)
  | amovToScalar (sd : Fin 32) (aa : Fin 8)
  | amovHi (sd : Fin 32) (aa : Fin 8)
  | acmb (ad : Fin 8) (sa sb : Fin 32)
  | ldq (qd : Fin 8) (base : Fin 32) (off : BitVec 11)
  -- vector slot (R68)
  | vadd (vd va vb : Fin 16) (mk : Fin 8) (ty : VType)
  | vsub (vd va vb : Fin 16) (mk : Fin 8) (ty : VType)
  | vmul (vd va vb : Fin 16) (mk : Fin 8) (ty : VType)
  | vfma (vd va vb : Fin 16) (mk : Fin 8) (ty : VType)
  | vmin (vd va vb : Fin 16) (mk : Fin 8) (ty : VType)
  | vmax (vd va vb : Fin 16) (mk : Fin 8) (ty : VType)
  | vabs (vd va : Fin 16) (mk : Fin 8) (ty : VType)
  | vneg (vd va : Fin 16) (mk : Fin 8) (ty : VType)
  | vand (vd va vb : Fin 16) (mk : Fin 8) (ty : VType)
  | vor (vd va vb : Fin 16) (mk : Fin 8) (ty : VType)
  | vxor (vd va vb : Fin 16) (mk : Fin 8) (ty : VType)
  | vshl (vd va vb : Fin 16) (mk : Fin 8) (ty : VType)
  | vshr (vd va vb : Fin 16) (mk : Fin 8) (ty : VType)
  | vsra (vd va vb : Fin 16) (mk : Fin 8) (ty : VType)
  | vshlImm (vd va : Fin 16) (n : Fin 32) (ty : VType)
  | vshrImm (vd va : Fin 16) (n : Fin 32) (ty : VType)
  | vsraImm (vd va : Fin 16) (n : Fin 32) (ty : VType)
  | vcmp (cond : VCond) (md : Fin 8) (va vb : Fin 16) (mk : Fin 8) (ty : VType)
  | vsel (vd va vb : Fin 16) (mk : Fin 8) (ty : VType)
  | vcvt (vd va : Fin 16) (mk : Fin 8) (src dst : VType) (rtz : Bool)
  | vred (op : VRedOp) (vd va : Fin 16) (mk : Fin 8) (ty : VType)
  | vperm (vd va vb : Fin 16) (mk : Fin 8) (ty : VType)
  | vmov (vd va : Fin 16) (mk : Fin 8) (ty : VType)
  | vext (vd va : Fin 16) (k : Fin 32) (ty : VType)
  | vins (vd va : Fin 16) (sk : Fin 32) (ty : VType)
  | vbcast (vd : Fin 16) (sk : Fin 32) (ty : VType)
  | vmovi (vd : Fin 16) (imm : BitVec 17)
  | vexp2 (vd va : Fin 16) (mk : Fin 8) (ty : VType)
  | vlog2 (vd va : Fin 16) (mk : Fin 8) (ty : VType)
  | vrcp (vd va : Fin 16) (mk : Fin 8) (ty : VType)
  | vrsqrt (vd va : Fin 16) (mk : Fin 8) (ty : VType)
  | vmsk (tt : BitVec 4) (md ma mb : Fin 8)
  | vmpush (mk : Fin 8)
  -- load slot (R70)
  | ldb (rd base : Fin 32) (off : BitVec 11)
  | ldbu (rd base : Fin 32) (off : BitVec 11)
  | ldh (rd base : Fin 32) (off : BitVec 11)
  | ldhu (rd base : Fin 32) (off : BitVec 11)
  | ldw (rd base : Fin 32) (off : BitVec 11)
  | ldv (vd : Fin 16) (base : Fin 32) (off : BitVec 11)
  | ldvs (vd : Fin 16) (base stride : Fin 32) (off : BitVec 6)
  | ldvx (vd : Fin 16) (base : Fin 32) (vi : Fin 16) (off : BitVec 6)
  | ldm (md : Fin 8) (base : Fin 32) (off : BitVec 11)
  | ldacc (row : Fin 64) (base : Fin 32) (off : BitVec 10)
  -- store slot (R70)
  | stb (rs base : Fin 32) (off : BitVec 11)
  | sth (rs base : Fin 32) (off : BitVec 11)
  | stw (rs base : Fin 32) (off : BitVec 11)
  | stv (vs : Fin 16) (base : Fin 32) (off : BitVec 11)
  | stvm (vs : Fin 16) (base : Fin 32) (mk : Fin 8) (off : BitVec 6)
  | stvs (vs : Fin 16) (base stride : Fin 32) (off : BitVec 6)
  | stvx (vs : Fin 16) (base : Fin 32) (vi : Fin 16) (off : BitVec 6)
  | stacc (row : Fin 64) (base : Fin 32) (off : BitVec 10)
  | amo (op : AmoOp) (rd base rx : Fin 32)
  | cas (rd base rx : Fin 32)
  -- matrix slot (R71)
  | prec (rs : Fin 32)
  | pmaskRow (vs : Fin 16)
  | pmaskCol (vs : Fin 16)
  | wld (delay : BitVec 8) (ring : Fin 8) (wp : Fin 2) (ta : Bool)
  | mma (delay : BitVec 8) (ring : Fin 8) (h : Fin 2) (ctl : AccCtl) (wp : Fin 2) (ta : Bool)
  | aclr (first cnt : Fin 64)
  | ascl (first cnt : Fin 64) (q : Fin 8)
  | adrn (first cnt : Fin 64) (dst : Fin 32) (k : Bool) (fmt : DrainFmt)
  -- transfer slot (R72)
  | cpy (c : CopyOps)
  | cpyg (c : CopyOps)
  | cpyx (c : CopyOps)
  | cpyo (c : CopyOps)
  | bdcl (buf rs : Fin 32)
  | brel (buf : Fin 32)
  | publish (buf : Fin 32) (mk : Fin 8)
  | reqpg (ab : Fin 8) (rs : Fin 32) (cn : Fin 16) (t : Bool)
  | send (m : MsgOps)
  | sendr (m : MsgOps) (op : ReduceOp)
  | recv (m : MsgOps)
  | coll (m : MsgOps)
  | rgadv (rg : Fin 8) (n : BitVec 8)
  | rgpop (rg : Fin 8) (n : BitVec 8)
  | sig (ch : Fin 256) (sem : Fin 16) (inc : BitVec 8)
  | tlsig (tl : Fin 1024) (rs : Fin 32)
  | vwjoin (sw : Fin 256)
  | vwleave (sw : Fin 256)
  -- events of a tile (spec/opcode_table.json rows 156 to 185)
  | guardResolution (t : TileId) (c : Fin 4)
  | arbiterChoice (t : TileId)
  | rankAgeing (t : TileId) (c : Fin 4)
  | instructionCacheFill (t : TileId)
  | codeRegionFill (t : TileId)
  | copyQueueStart (t : TileId)
  | pageWalk (t : TileId)
  | copyRetire (t : TileId) (id : Nat)
  | heapWriteAcknowledgement (t : TileId) (id : Nat)
  | eccWriteback (t : TileId)
  | scrub (t : TileId)
  | mxuCommandHead (t : TileId)
  | mxuStart (t : TileId)
  | adrnStart (t : TileId)
  | mxuRetire (t : TileId)
  | phaseFlagSet (t : TileId) (c : Fin 4)
  | channelQueueStart (t : TileId)
  | messageTransmitted (t : TileId) (id : Nat)
  | headerForward (t : TileId) (inp : Fin 6) (laneR : Bool)
  | sendArrival (t : TileId) (inp : Fin 6)
  | sendrArrival (t : TileId) (inp : Fin 6)
  | sigArrival (t : TileId) (inp : Fin 6)
  | portSigArrival (t : TileId) (inp : Fin 6)
  | creditReturn (t : TileId) (ch : Fin 256)
  | writeData (t : TileId) (inp : Fin 6)
  | readRequest (t : TileId) (inp : Fin 6)
  | readData (t : TileId) (inp : Fin 6)
  | writeAcknowledgement (t : TileId) (inp : Fin 6)
  | chunkArrival (t : TileId) (inp : Fin 6)
  | collectiveComplete (t : TileId) (ch : Fin 256) (inst : BitVec 16)
  -- events of the optical ports and swarm views (rows 187 to 201)
  | heartbeat (p : Fin 16)
  | suspicion (p : Fin 16) (peer : BitVec 16)
  | waggleRound (sw : Fin 256)
  | commit (sw : Fin 256) (src : BitVec 16) (f : CommitFrame)
  | retransmission (p : Fin 16)
  | remoteAtomic (p : Fin 16)
  | remoteAtomicTimeout (p : Fin 16)
  -- Puren-S (R53, R73)
  | smov (xd xa : Fin 16)
  | sadd (xd xa xb : Fin 16)
  | saddi (xd xa : Fin 16) (imm : BitVec 18)
  | sbr (xa : Fin 16) (cond : ScoutCond) (off : BitVec 20)
  | sjmp (off : BitVec 26)
  | swaitsem (ps : Fin 64) (xa : Fin 16)
  | ssigsem (ps : Fin 64) (xa : Fin 16)
  | sxmitData (xd xa xb : Fin 16)
  | sxmitAtomic (xd xa xb : Fin 16)
  | srecvWait (xd xa xb : Fin 16)
  | srecvPoll (xd xa xb : Fin 16)
  | sreduce (xd xa xb : Fin 16) (fn : BitVec 6)
  | sfwdIn (xd xa xb : Fin 16)
  | sfwdOut (xd xa xb : Fin 16)
  | splaneDrain (xd xa xb : Fin 16)
  | splaneRestore (xd xa xb : Fin 16)
  | splaneStatus (xd xa xb : Fin 16)
  | sviewRead (xd xa xb : Fin 16)
  | sviewWait (xd xa xb : Fin 16)
  | sviewJoin (xd xa xb : Fin 16)
  | sviewLeave (xd xa xb : Fin 16)
  -- faults, pre-emption, migration, pages (rows 224 to 241)
  | faultDelivery (t : TileId) (c : Fin 4)
  | faultRecord (t : TileId) (c : Fin 4)
  | preemptionRequest (t : TileId) (c : Fin 4)
  | preemption (t : TileId) (c : Fin 4)
  | contextSave (t : TileId) (c : Fin 4)
  | preemptionFreeze (t : TileId) (c : Fin 4)
  | contextRestore (t : TileId) (c : Fin 4)
  | migrationFreeze (t : TileId)
  | migrationMove (t : TileId)
  | migrationApprovalTimeout (t : TileId)
  | tileLost (t : TileId)
  | tileMapBroadcast (t : TileId)
  | tileMapCacheFill (t : TileId)
  | tlbInvalidation (t : TileId) (launch : Option (BitVec 16)) (page : Option VAddr)
  | pageService (launch : BitVec 16) (va : VAddr)
  -- host link, firmware, power (rows 242 to 275)
  | doorbell (q : Fin 256) (tail : Word)
  | slotMap (slot : Fin 32)
  | idleUnmap (slot : Fin 32)
  | blockedUnmap (slot : Fin 32)
  | load (slot : Fin 32)
  | launch (slot : Fin 32)
  | launchStart (lid : Nat)
  | launchRetire (lid : Nat)
  | wait (slot : Fin 32)
  | signal (slot : Fin 32)
  | copyh (slot : Fin 32)
  | fenceRecord (slot : Fin 32)
  | queueEnable (q : Fin 256)
  | queueDisable (q : Fin 256)
  | bar2Read (addr len : Nat)
  | bar2Write (addr : Nat) (data : List Byte)
  | assistReply (req : Word)
  | stagingWrite (off : Nat) (data : List Byte)
  | firmwareSwitch (nurse : Bool)
  | securityVersionRaise (nurse : Bool)
  | timelineDelivery (t : TileId)
  | scoutIllegalEncoding (p : Fin 16)
  -- what arrives from outside the part (rows 188, 191, 192, 194 to 196, 200, 201, 231, 240, 268)
  | heartbeatFrame (p : Fin 16) (plane : Fin 4) (src : BitVec 16)
  | propose (sw : Fin 256) (src : BitVec 16) (tag : BitVec 16) (members : List Nat) (ni : BitVec 16)
  | ack (sw : Fin 256) (src : BitVec 16) (tag : BitVec 16) (done : List (Nat × BitVec 16))
  | join (sw : Fin 256) (src : BitVec 16)
  | packetArrival (p : Fin 16) (plane : Fin 4) (wave : Fin 64) (pk : Packet)
  | packetAcknowledgement (p : Fin 16) (peer : BitVec 16) (seq : BitVec 32)
  | linkLoss (p : Fin 16) (plane : Fin 4) (wave : Fin 64)
  | portReset (p : Fin 16)
  | migrationStart (t : TileId)
  | pageMigration (launch : BitVec 16) (va : VAddr) (stack : Fin 64) (frame : BitVec 17) (lc : BitVec 3)
  | registerWrite (link : Fin 4) (off : Nat) (data : List Byte)
  -- forms and events with no operand
  | nop
  | ret
  | halt
  | eret
  | waitph
  | vminv
  | vmpop
  | wswap
  | timelineAdvance
  | shalt
  | pageMigrationCopy
  | blockedReevaluation
  | launchAdmission
  | completionTimelineAdvance
  | assistTimeout
  | handoverHeartbeat
  | watchdogExpiry
  | boot
  | partReset
  | throttleEvaluation
  | thermalHold
  | thermalRelease
  deriving DecidableEq, Repr

end Sys2Proof
end

