-- ==== Sys2Proof/WellFormed.lean ====
section
/-! DEFINITION. Which instructions have an encoding, in which unit's slot they stand, and which operand values
their rows exclude (R33 to R41, R62 to R73). Each check has a name and is a Bool. -/

namespace Sys2Proof

/-- The unit whose slot, or the scout whose SRAM word, holds an instruction; events have no encoding. -/
inductive Home where
  | ctl | scalar | sb | ld | st | vec | mxu | xfr | scout | event
  deriving DecidableEq, Repr

/-- The unit of an instruction (R28, R62 to R73). -/
def Instr.home : Instr → Home
  | .nop | .br _ | .brp _ _ _ | .brs _ _ _ | .bru _ | .call _ | .ret | .loop _ _ | .loopReg _ _ | .halt | .trap _ | .eret
  | .yield _ | .waitc _ _ | .waits _ _ | .waitsD _ _ | .waitt _ _ _ | .waitcr _ _ | .waitrg _ _ | .waitrgFree _ _
  | .waitb _ _ | .waitbTag _ _ _ | .waitph | .phase _ | .fence _ | .csrr _ _ | .csrw _ _ | .csrset _ _ | .csrclr _ _
  | .blk _ _ | .pref _ _ _ | .pin _ _ _ | .unpin _ _ _ => .ctl
  | .add _ _ _ | .sub _ _ _ | .and _ _ _ | .or _ _ _ | .xor _ _ _ | .andn _ _ _ | .shl _ _ _ | .shr _ _ _ | .sra _ _ _
  | .min _ _ _ | .max _ _ _ | .minu _ _ _ | .maxu _ _ _ | .mov _ _ | .clz _ _ | .popc _ _ | .mul _ _ _ | .mulh _ _ _
  | .mulhu _ _ _ | .sel _ _ _ _ | .cmp _ _ _ _ | .cmpi _ _ _ _ | .plog _ _ _ _ | .addi _ _ _ | .andi _ _ _ | .ori _ _ _
  | .xori _ _ _ | .shli _ _ _ | .shri _ _ _ | .srai _ _ _ | .movi _ _ | .movhi _ _ => .scalar
  | .aadd _ _ _ | .aaddi _ _ _ | .amov _ _ | .amovFromPair _ _ | .amovToScalar _ _ | .amovHi _ _ | .acmb _ _ _
  | .ldq _ _ _ => .sb
  | .vadd _ _ _ _ _ | .vsub _ _ _ _ _ | .vmul _ _ _ _ _ | .vfma _ _ _ _ _ | .vmin _ _ _ _ _ | .vmax _ _ _ _ _
  | .vabs _ _ _ _ | .vneg _ _ _ _ | .vand _ _ _ _ _ | .vor _ _ _ _ _ | .vxor _ _ _ _ _ | .vshl _ _ _ _ _
  | .vshr _ _ _ _ _ | .vsra _ _ _ _ _ | .vshlImm _ _ _ _ | .vshrImm _ _ _ _ | .vsraImm _ _ _ _ | .vcmp _ _ _ _ _ _
  | .vsel _ _ _ _ _ | .vcvt _ _ _ _ _ _ | .vred _ _ _ _ _ | .vperm _ _ _ _ _ | .vmov _ _ _ _ | .vext _ _ _ _
  | .vins _ _ _ _ | .vbcast _ _ _ | .vmovi _ _ | .vexp2 _ _ _ _ | .vlog2 _ _ _ _ | .vrcp _ _ _ _ | .vrsqrt _ _ _ _
  | .vmsk _ _ _ _ | .vmpush _ | .vminv | .vmpop => .vec
  | .ldb _ _ _ | .ldbu _ _ _ | .ldh _ _ _ | .ldhu _ _ _ | .ldw _ _ _ | .ldv _ _ _ | .ldvs _ _ _ _ | .ldvx _ _ _ _
  | .ldm _ _ _ | .ldacc _ _ _ => .ld
  | .stb _ _ _ | .sth _ _ _ | .stw _ _ _ | .stv _ _ _ | .stvm _ _ _ _ | .stvs _ _ _ _ | .stvx _ _ _ _ | .stacc _ _ _
  | .amo _ _ _ _ | .cas _ _ _ => .st
  | .prec _ | .pmaskRow _ | .pmaskCol _ | .wswap | .wld _ _ _ _ | .mma _ _ _ _ _ _ | .aclr _ _ | .ascl _ _ _
  | .adrn _ _ _ _ _ => .mxu
  | .cpy _ | .cpyg _ | .cpyx _ | .cpyo _ | .bdcl _ _ | .brel _ | .publish _ _ | .reqpg _ _ _ _ | .send _ | .sendr _ _
  | .recv _ | .coll _ | .rgadv _ _ | .rgpop _ _ | .sig _ _ _ | .tlsig _ _ | .vwjoin _ | .vwleave _ => .xfr
  | .shalt | .smov _ _ | .sadd _ _ _ | .saddi _ _ _ | .sbr _ _ _ | .sjmp _ | .swaitsem _ _ | .ssigsem _ _
  | .sxmitData _ _ _ | .sxmitAtomic _ _ _ | .srecvWait _ _ _ | .srecvPoll _ _ _ | .sreduce _ _ _ _ | .sfwdIn _ _ _
  | .sfwdOut _ _ _ | .splaneDrain _ _ _ | .splaneRestore _ _ _ | .splaneStatus _ _ _ | .sviewRead _ _ _
  | .sviewWait _ _ _ | .sviewJoin _ _ _ | .sviewLeave _ _ _ => .scout
  | .mxownRelease _ | .guardResolution _ _ | .arbiterChoice _ | .rankAgeing _ _ | .instructionCacheFill _
  | .codeRegionFill _ | .copyQueueStart _ | .pageWalk _ | .copyRetire _ _ | .heapWriteAcknowledgement _ _
  | .eccWriteback _ | .scrub _ | .mxuCommandHead _ | .mxuStart _ | .adrnStart _ | .mxuRetire _ | .phaseFlagSet _ _
  | .channelQueueStart _ | .messageTransmitted _ _ | .headerForward _ _ _ | .sendArrival _ _ | .sendrArrival _ _
  | .sigArrival _ _ | .portSigArrival _ _ | .creditReturn _ _ | .writeData _ _ | .readRequest _ _ | .readData _ _
  | .writeAcknowledgement _ _ | .chunkArrival _ _ | .collectiveComplete _ _ _ | .timelineAdvance | .heartbeat _
  | .heartbeatFrame _ _ _ | .suspicion _ _ | .waggleRound _ | .propose _ _ _ _ _ | .ack _ _ _ _ | .commit _ _ _
  | .join _ _ | .packetArrival _ _ _ _ | .packetAcknowledgement _ _ _ | .retransmission _ | .remoteAtomic _
  | .remoteAtomicTimeout _ | .linkLoss _ _ _ | .portReset _ | .faultDelivery _ _ | .faultRecord _ _
  | .preemptionRequest _ _ | .preemption _ _ | .contextSave _ _ | .preemptionFreeze _ _ | .contextRestore _ _
  | .migrationStart _ | .migrationFreeze _ | .migrationMove _ | .migrationApprovalTimeout _ | .tileLost _
  | .tileMapBroadcast _ | .tileMapCacheFill _ | .tlbInvalidation _ _ _ | .pageService _ _ | .pageMigration _ _ _ _ _
  | .pageMigrationCopy | .doorbell _ _ | .slotMap _ | .idleUnmap _ | .blockedUnmap _ | .blockedReevaluation | .load _
  | .launch _ | .launchAdmission | .launchStart _ | .launchRetire _ | .completionTimelineAdvance | .wait _ | .signal _
  | .copyh _ | .fenceRecord _ | .queueEnable _ | .queueDisable _ | .bar2Read _ _ | .bar2Write _ _ | .assistReply _
  | .assistTimeout | .stagingWrite _ _ | .firmwareSwitch _ | .securityVersionRaise _ | .handoverHeartbeat
  | .watchdogExpiry | .registerWrite _ _ _ | .boot | .partReset | .throttleEvaluation | .thermalHold | .thermalRelease
  | .timelineDelivery _ | .scoutIllegalEncoding _ => .event

/-- The CSRs that the catalogue marks read-only (R63, R109). -/
def Csr.readOnly : Csr → Bool
  | .cause | .finfo | .fpcl | .fpch | .rundecl | .ttickl | .ttickh | .hbasel | .hbaseh | .hlimitl | .hlimith
  | .hoffsetl | .hoffseth | .walker | .launch | .lorg | .lext | .rank | .txy | .precv | .rowpl | .rowph | .colp _
  | .ctimel | .ctimeh | .grid | .cfg | .stkmapl | .stkmaph | .portmap => true
  | .status | .round | .epcl | .epch | .trapvl | .trapvh | .ovrcnt | .mxown | .decay | .err _ | .pmc _
  | .pmsel _ => false

/-- A LOOP body has at least one bundle (R40, R41). -/
def lenOk (len : BitVec 12) : Bool := len != 0
/-- A WAITC threshold is 1 to 256 (R40). -/
def thrOk (thr : BitVec 9) : Bool := thr != 0 && thr.toNat ≤ 256
/-- A PHASE names an engine queue (R41). -/
def eqOk (eq : BitVec 3) : Bool := eq != 0
/-- A BLK names a group (R63). -/
def grpOk (grp : BitVec 8) : Bool := grp != 0
/-- A CSR write names a CSR that is not read-only (R63). -/
def csrOk (c : Csr) : Bool := !c.readOnly
/-- A row range ends at row 63 (R36). -/
def rangeOk (first cnt : Fin 64) : Bool := first.val + cnt.val ≤ 63
/-- An ADRN to a ring names rg0 to rg7 (R36). -/
def adrnOk (dst : Fin 32) (k : Bool) : Bool := k || decide (dst.val ≤ 7)
/-- A CPYO captures no MMA (R38, R72). -/
def cpyoOk (c : CopyOps) : Bool := !c.f
/-- A floating-point type (R68). -/
def VType.isFloat : VType → Bool
  | .f32 | .bf16p => true
  | .i32 | .u32 => false
/-- A type whose negation and absolute value exist (R68). -/
def VType.isSigned : VType → Bool
  | .u32 => false
  | .i32 | .f32 | .bf16p => true
/-- VCMP.UO compares floating-point lanes (R68). -/
def vcmpOk (c : VCond) (ty : VType) : Bool := c != .uo || ty.isFloat
/-- VCVT's types differ (R68). -/
def vcvtOk (src dst : VType) : Bool := src != dst

/-- An instruction with an encoding whose operands its row does not exclude (R41). -/
def Instr.wellFormed : Instr → Bool
  | .loop _ len | .loopReg _ len => lenOk len
  | .waitc _ thr => thrOk thr
  | .phase eq => eqOk eq
  | .blk grp _ => grpOk grp
  | .csrw _ c | .csrset _ c | .csrclr _ c => csrOk c
  | .aclr first cnt | .ascl first cnt _ => rangeOk first cnt
  | .adrn first cnt dst k _ => rangeOk first cnt && adrnOk dst k
  | .cpyo c => cpyoOk c
  | .vfma _ _ _ _ ty | .vexp2 _ _ _ ty | .vlog2 _ _ _ ty | .vrcp _ _ _ ty | .vrsqrt _ _ _ ty => ty.isFloat
  | .vabs _ _ _ ty | .vneg _ _ _ ty => ty.isSigned
  | .vshl _ _ _ _ ty | .vshr _ _ _ _ ty | .vsra _ _ _ _ ty | .vshlImm _ _ _ ty | .vshrImm _ _ _ ty
  | .vsraImm _ _ _ ty => !ty.isFloat
  | .vcmp c _ _ _ _ ty => vcmpOk c ty
  | .vcvt _ _ _ src dst _ => vcvtOk src dst
  | i => i.home != .event

/-- Well-formedness as a proposition. -/
abbrev Instr.WellFormed (i : Instr) : Prop := i.wellFormed = true

end Sys2Proof
end

