-- ==== Sys2Proof/Decode.lean ====
section
/-! DEFINITION. Decoding of slot words (R32 to R41, R61 to R72) and of Puren-S words (R53, R73), total on every word:
`none` is the spec's illegal-encoding fault. Below it the encoder, from the same tables. Words are natural numbers below
2^32; a slot instruction occupies the bits below the guard (slots 1 to 7) or below `S` (CTL). -/

namespace Sys2Proof

/-! ### Operand codes -/

/-- An instruction if a check of its row holds. -/
def req (ok : Bool) (i : Instr) : Option Instr := if ok then some i else none

def Cond.code : Cond → Nat
  | .eq => 0 | .ne => 1 | .lt => 2 | .ge => 3 | .ltu => 4 | .geu => 5 | .gt => 6 | .gtu => 7

/-- R67. -/
def Cond.ofCode : Nat → Cond
  | 0 => .eq | 1 => .ne | 2 => .lt | 3 => .ge | 4 => .ltu | 5 => .geu | 6 => .gt | _ => .gtu

def SignCond.code : SignCond → Nat
  | .eqz => 0 | .nez => 1 | .ltz => 2 | .gez => 3 | .gtz => 4 | .lez => 5

/-- R40; codes 6 and 7 are excluded. -/
def SignCond.ofCode : Nat → Option SignCond
  | 0 => some .eqz | 1 => some .nez | 2 => some .ltz | 3 => some .gez | 4 => some .gtz | 5 => some .lez | _ => none

def ScoutCond.code : ScoutCond → Nat
  | .eqz => 0 | .nez => 1 | .ltz => 2 | .gez => 3

/-- R73. -/
def ScoutCond.ofCode : Nat → ScoutCond
  | 0 => .eqz | 1 => .nez | 2 => .ltz | _ => .gez

def VType.code : VType → Nat
  | .i32 => 0 | .u32 => 1 | .f32 => 2 | .bf16p => 3

/-- R34. -/
def VType.ofCode : Nat → VType
  | 0 => .i32 | 1 => .u32 | 2 => .f32 | _ => .bf16p

def VCond.code : VCond → Nat
  | .eq => 0 | .ne => 1 | .lt => 2 | .le => 3 | .gt => 4 | .ge => 5 | .uo => 6

/-- R68. -/
def VCond.ofCode : Nat → Option VCond
  | 0 => some .eq | 1 => some .ne | 2 => some .lt | 3 => some .le | 4 => some .gt | 5 => some .ge | 6 => some .uo | _ => none

def VRedOp.code : VRedOp → Nat
  | .sum => 0 | .min => 1 | .max => 2

/-- R68. -/
def VRedOp.ofCode : Nat → Option VRedOp
  | 0 => some .sum | 1 => some .min | 2 => some .max | _ => none

def AmoOp.code : AmoOp → Nat
  | .add => 0 | .min => 1 | .max => 2 | .minu => 3 | .maxu => 4 | .and => 5 | .or => 6 | .xor => 7 | .swap => 8

/-- R70. -/
def AmoOp.ofCode : Nat → Option AmoOp
  | 0 => some .add | 1 => some .min | 2 => some .max | 3 => some .minu | 4 => some .maxu | 5 => some .and | 6 => some .or
  | 7 => some .xor | 8 => some .swap | _ => none

def AccCtl.code : AccCtl → Nat
  | .ow => 0 | .acc => 1 | .dacc => 2

/-- R36; code 3 is excluded. -/
def AccCtl.ofCode : Nat → Option AccCtl
  | 0 => some .ow | 1 => some .acc | 2 => some .dacc | _ => none

def DrainFmt.code : DrainFmt → Nat
  | .f32 => 0 | .bf16 => 1 | .fp16 => 2 | .i32 => 3 | .s16 => 4 | .s8 => 5

/-- R71. -/
def DrainFmt.ofCode : Nat → Option DrainFmt
  | 0 => some .f32 | 1 => some .bf16 | 2 => some .fp16 | 3 => some .i32 | 4 => some .s16 | 5 => some .s8 | _ => none

def ReduceOp.code : ReduceOp → Nat
  | .addF32 => 0 | .addI32 => 1 | .maxF32 => 2 | .minF32 => 3 | .maxI32 => 4 | .minI32 => 5 | .addBf16p => 6
  | .addFx128 => 7

/-- R72; all eight codes are assigned. -/
def ReduceOp.ofCode : Nat → ReduceOp
  | 0 => .addF32 | 1 => .addI32 | 2 => .maxF32 | 3 => .minF32 | 4 => .maxI32 | 5 => .minI32 | 6 => .addBf16p
  | _ => .addFx128

def BufState.code : BufState → Nat
  | .empty => 0 | .filling => 1 | .full => 2 | .draining => 3

/-- R189. -/
def BufState.ofCode : Nat → BufState
  | 0 => .empty | 1 => .filling | 2 => .full | _ => .draining

def Scope.code : Scope → Nat
  | .slot => 0 | .context => 1 | .tile => 2 | .channel => 3 | .swarm => 4 | .stack => 5 | .comb => 6 | .hive => 7
  | .host => 8 | .system => 9

/-- R40. -/
def Scope.ofCode : Nat → Option Scope
  | 0 => some .slot | 1 => some .context | 2 => some .tile | 3 => some .channel | 4 => some .swarm | 5 => some .stack
  | 6 => some .comb | 7 => some .hive | 8 => some .host | 9 => some .system | _ => none

/-- CSR numbers (R109). -/
def Csr.code : Csr → Nat
  | .status => 0x000 | .round => 0x001 | .cause => 0x002 | .finfo => 0x003 | .fpcl => 0x004 | .fpch => 0x005
  | .epcl => 0x006 | .epch => 0x007 | .trapvl => 0x008 | .trapvh => 0x009 | .rundecl => 0x00A | .ovrcnt => 0x00B
  | .ttickl => 0x00C | .ttickh => 0x00D | .hbasel => 0x00E | .hbaseh => 0x00F | .hlimitl => 0x010 | .hlimith => 0x011
  | .hoffsetl => 0x012 | .hoffseth => 0x013 | .walker => 0x014 | .launch => 0x015 | .lorg => 0x016 | .lext => 0x017
  | .rank => 0x018 | .txy => 0x100 | .mxown => 0x101 | .decay => 0x102 | .precv => 0x103 | .rowpl => 0x104
  | .rowph => 0x105 | .colp i => 0x106 + i.val | .ctimel => 0x10A | .ctimeh => 0x10B | .grid => 0x200 | .cfg => 0x201
  | .stkmapl => 0x202 | .stkmaph => 0x203 | .portmap => 0x204 | .err i => 0x300 + i.val | .pmc i => 0x380 + i.val
  | .pmsel i => 0x388 + i.val

/-- R109; a number not listed is unassigned. -/
def Csr.ofCode : Nat → Option Csr
  | 0x000 => some .status | 0x001 => some .round | 0x002 => some .cause | 0x003 => some .finfo | 0x004 => some .fpcl
  | 0x005 => some .fpch | 0x006 => some .epcl | 0x007 => some .epch | 0x008 => some .trapvl | 0x009 => some .trapvh
  | 0x00A => some .rundecl | 0x00B => some .ovrcnt | 0x00C => some .ttickl | 0x00D => some .ttickh
  | 0x00E => some .hbasel | 0x00F => some .hbaseh | 0x010 => some .hlimitl | 0x011 => some .hlimith
  | 0x012 => some .hoffsetl | 0x013 => some .hoffseth | 0x014 => some .walker | 0x015 => some .launch
  | 0x016 => some .lorg | 0x017 => some .lext | 0x018 => some .rank | 0x100 => some .txy | 0x101 => some .mxown
  | 0x102 => some .decay | 0x103 => some .precv | 0x104 => some .rowpl | 0x105 => some .rowph | 0x106 => some (.colp 0)
  | 0x107 => some (.colp 1) | 0x108 => some (.colp 2) | 0x109 => some (.colp 3) | 0x10A => some .ctimel
  | 0x10B => some .ctimeh | 0x200 => some .grid | 0x201 => some .cfg | 0x202 => some .stkmapl | 0x203 => some .stkmaph
  | 0x204 => some .portmap | 0x300 => some (.err 0) | 0x301 => some (.err 1) | 0x302 => some (.err 2)
  | 0x303 => some (.err 3) | 0x304 => some (.err 4) | 0x305 => some (.err 5) | 0x306 => some (.err 6)
  | 0x307 => some (.err 7) | 0x308 => some (.err 8) | 0x309 => some (.err 9) | 0x380 => some (.pmc 0)
  | 0x381 => some (.pmc 1) | 0x382 => some (.pmc 2) | 0x383 => some (.pmc 3) | 0x384 => some (.pmc 4)
  | 0x385 => some (.pmc 5) | 0x386 => some (.pmc 6) | 0x387 => some (.pmc 7) | 0x388 => some (.pmsel 0)
  | 0x389 => some (.pmsel 1) | 0x38A => some (.pmsel 2) | 0x38B => some (.pmsel 3) | 0x38C => some (.pmsel 4)
  | 0x38D => some (.pmsel 5) | 0x38E => some (.pmsel 6) | 0x38F => some (.pmsel 7) | _ => none

/-! ### Fields

`fld w lo width` is the field of a word; `reg w lo n` names a register of a file of `n` registers (n a power of two). -/

def fld (w lo width : Nat) : Nat := w / 2 ^ lo % 2 ^ width

def reg (n : Nat) [NeZero n] (w lo : Nat) : Fin n := Fin.ofNat n (w / 2 ^ lo)

def imm (n : Nat) (w lo : Nat) : BitVec n := BitVec.ofNat n (w / 2 ^ lo)

def flag (w lo : Nat) : Bool := w / 2 ^ lo % 2 == 1

/-- The guard field of slots 1 to 7 (R31). -/
def slotGuard (w : Nat) : Nat := fld w 27 5

/-- The safe-point bit of the CTL word (R32, R43). -/
def safeBit (w : Nat) : Bool := flag w 31

/-! ### Slot decoders -/

/-- The CTL slot (R40, R62, R63); `S` is not looked at, nor is the tag of a WAITB whose `TC` is 0 (log 67). -/
def decodeCtl (w : Nat) : Option Instr :=
  match fld w 25 6 with
  | 0x00 => req (fld w 0 25 == 0) .nop
  | 0x01 => req (fld w 24 1 == 0) (.br (imm 24 w 0))
  | 0x02 => some (.brp (flag w 24) (reg 16 w 20) (imm 20 w 0))
  | 0x03 => (SignCond.ofCode (fld w 17 3)).map fun c => .brs (reg 32 w 20) c (imm 17 w 0)
  | 0x04 => req (fld w 24 1 == 0) (.bru (imm 24 w 0))
  | 0x05 => req (fld w 24 1 == 0) (.call (imm 24 w 0))
  | 0x06 => req (fld w 0 25 == 0) .ret
  | 0x07 =>
    if flag w 24 then req (lenOk (imm 12 w 0)) (.loop (imm 12 w 12) (imm 12 w 0))
    else req (fld w 17 7 == 0 && lenOk (imm 12 w 0)) (.loopReg (reg 32 w 12) (imm 12 w 0))
  | 0x08 => req (fld w 0 25 == 0) .halt
  | 0x09 => req (fld w 16 9 == 0) (.trap (imm 16 w 0))
  | 0x0A => req (fld w 0 25 == 0) .eret
  | 0x0B => req (fld w 20 5 == 0) (.yield (imm 20 w 0))
  | 0x0C => req (fld w 9 12 == 0 && thrOk (imm 9 w 0)) (.waitc (reg 16 w 21) (imm 9 w 0))
  | 0x0D => req (fld w 16 4 == 0)
      (if flag w 20 then .waitsD (reg 16 w 21) (imm 16 w 0) else .waits (reg 16 w 21) (imm 16 w 0))
  | 0x0E => req (fld w 0 5 == 0) (.waitt (reg 1024 w 15) (reg 32 w 10) (reg 32 w 5))
  | 0x0F => req (fld w 8 9 == 0) (.waitcr (reg 256 w 17) (imm 8 w 0))
  | 0x10 => req (fld w 8 13 == 0)
      (if flag w 21 then .waitrgFree (reg 8 w 22) (imm 8 w 0) else .waitrg (reg 8 w 22) (imm 8 w 0))
  | 0x11 =>
    if flag w 17 then
      req (fld w 8 9 == 0) (.waitbTag (reg 32 w 20) (BufState.ofCode (fld w 18 2)) (imm 8 w 0))
    else req (fld w 8 9 == 0) (.waitb (reg 32 w 20) (BufState.ofCode (fld w 18 2)))
  | 0x12 => req (fld w 0 25 == 0) .waitph
  | 0x13 => req (fld w 3 22 == 0 && eqOk (imm 3 w 0)) (.phase (imm 3 w 0))
  | 0x14 => if fld w 4 21 = 0 then (Scope.ofCode (fld w 0 4)).map .fence else none
  | 0x15 => if fld w 12 8 = 0 then (Csr.ofCode (fld w 0 12)).map fun c => .csrr (reg 32 w 20) c else none
  | 0x16 => if fld w 12 8 = 0 then (Csr.ofCode (fld w 0 12)).bind fun c => req (csrOk c) (.csrw (reg 32 w 20) c) else none
  | 0x17 => if fld w 12 8 = 0 then (Csr.ofCode (fld w 0 12)).bind fun c => req (csrOk c) (.csrset (reg 32 w 20) c) else none
  | 0x18 => if fld w 12 8 = 0 then (Csr.ofCode (fld w 0 12)).bind fun c => req (csrOk c) (.csrclr (reg 32 w 20) c) else none
  | 0x19 => req (fld w 4 13 == 0 && grpOk (imm 8 w 17)) (.blk (imm 8 w 17) (imm 4 w 0))
  | 0x1A => req (fld w 8 13 == 0) (.pref (flag w 24) (reg 8 w 21) (imm 8 w 0))
  | 0x1B => req (fld w 8 13 == 0) (.pin (flag w 24) (reg 8 w 21) (imm 8 w 0))
  | 0x1C => req (fld w 8 13 == 0) (.unpin (flag w 24) (reg 8 w 21) (imm 8 w 0))
  | _ => none

/-- The slot NOP of slots 1 to 7 (R64). -/
def decodeSlotNop (w : Nat) : Option Instr := req (fld w 0 21 == 0) .nop

/-- The ALU group by `FN` (R66). -/
def decodeAlu (w : Nat) : Option Instr :=
  match fld w 0 6 with
  | 0x00 => some (.add (reg 32 w 16) (reg 32 w 11) (reg 32 w 6))
  | 0x01 => some (.sub (reg 32 w 16) (reg 32 w 11) (reg 32 w 6))
  | 0x02 => some (.and (reg 32 w 16) (reg 32 w 11) (reg 32 w 6))
  | 0x03 => some (.or (reg 32 w 16) (reg 32 w 11) (reg 32 w 6))
  | 0x04 => some (.xor (reg 32 w 16) (reg 32 w 11) (reg 32 w 6))
  | 0x05 => some (.andn (reg 32 w 16) (reg 32 w 11) (reg 32 w 6))
  | 0x06 => some (.shl (reg 32 w 16) (reg 32 w 11) (reg 32 w 6))
  | 0x07 => some (.shr (reg 32 w 16) (reg 32 w 11) (reg 32 w 6))
  | 0x08 => some (.sra (reg 32 w 16) (reg 32 w 11) (reg 32 w 6))
  | 0x09 => some (.min (reg 32 w 16) (reg 32 w 11) (reg 32 w 6))
  | 0x0A => some (.max (reg 32 w 16) (reg 32 w 11) (reg 32 w 6))
  | 0x0B => some (.minu (reg 32 w 16) (reg 32 w 11) (reg 32 w 6))
  | 0x0C => some (.maxu (reg 32 w 16) (reg 32 w 11) (reg 32 w 6))
  | 0x0D => req (fld w 6 5 == 0) (.mov (reg 32 w 16) (reg 32 w 11))
  | 0x0E => req (fld w 6 5 == 0) (.clz (reg 32 w 16) (reg 32 w 11))
  | 0x0F => req (fld w 6 5 == 0) (.popc (reg 32 w 16) (reg 32 w 11))
  | _ => none

/-- The opcodes that stand in slot 2 alone (R65). -/
def decodeSbOnly (w : Nat) : Option Instr :=
  match fld w 21 6 with
  | 0x20 => req (fld w 19 2 == 0 && fld w 14 2 == 0 && fld w 0 6 == 0) (.aadd (reg 8 w 16) (reg 8 w 11) (reg 32 w 6))
  | 0x21 => req (fld w 19 2 == 0 && fld w 14 2 == 0) (.aaddi (reg 8 w 16) (reg 8 w 11) (imm 11 w 0))
  | 0x22 =>
    match fld w 0 11 with
    | 0 => req (fld w 19 2 == 0 && fld w 14 2 == 0) (.amov (reg 8 w 16) (reg 8 w 11))
    | 1 => req (fld w 19 2 == 0) (.amovFromPair (reg 8 w 16) (reg 32 w 11))
    | 2 => req (fld w 14 2 == 0) (.amovToScalar (reg 32 w 16) (reg 8 w 11))
    | 3 => req (fld w 14 2 == 0) (.amovHi (reg 32 w 16) (reg 8 w 11))
    | _ => none
  | 0x23 => req (fld w 19 2 == 0 && fld w 0 6 == 0) (.acmb (reg 8 w 16) (reg 32 w 11) (reg 32 w 6))
  | 0x24 => req (fld w 19 2 == 0) (.ldq (reg 8 w 16) (reg 32 w 11) (imm 11 w 0))
  | _ => none

/-- The scalar slots (R65): `sb` for slot 2. -/
def decodeScalar (sb : Bool) (w : Nat) : Option Instr :=
  match fld w 21 6 with
  | 0x00 => decodeSlotNop w
  | 0x01 => decodeAlu w
  | 0x02 =>
    match fld w 0 6 with
    | 0 => some (.mul (reg 32 w 16) (reg 32 w 11) (reg 32 w 6))
    | 1 => some (.mulh (reg 32 w 16) (reg 32 w 11) (reg 32 w 6))
    | 2 => some (.mulhu (reg 32 w 16) (reg 32 w 11) (reg 32 w 6))
    | _ => none
  | 0x03 => req (fld w 4 2 == 0) (.sel (reg 32 w 16) (reg 32 w 11) (reg 32 w 6) (reg 16 w 0))
  | 0x04 => req (fld w 20 1 == 0 && fld w 3 3 == 0)
      (.cmp (Cond.ofCode (fld w 0 3)) (reg 16 w 16) (reg 32 w 11) (reg 32 w 6))
  | 0x05 => req (fld w 20 1 == 0 && fld w 15 1 == 0 && fld w 10 1 == 0 && fld w 4 2 == 0)
      (.plog (imm 4 w 0) (reg 16 w 16) (reg 16 w 11) (reg 16 w 6))
  | 0x08 => some (.addi (reg 32 w 16) (reg 32 w 11) (imm 11 w 0))
  | 0x09 => some (.andi (reg 32 w 16) (reg 32 w 11) (imm 11 w 0))
  | 0x0A => some (.ori (reg 32 w 16) (reg 32 w 11) (imm 11 w 0))
  | 0x0B => some (.xori (reg 32 w 16) (reg 32 w 11) (imm 11 w 0))
  | 0x0C => req (fld w 5 6 == 0) (.shli (reg 32 w 16) (reg 32 w 11) (reg 32 w 0))
  | 0x0D => req (fld w 5 6 == 0) (.shri (reg 32 w 16) (reg 32 w 11) (reg 32 w 0))
  | 0x0E => req (fld w 5 6 == 0) (.srai (reg 32 w 16) (reg 32 w 11) (reg 32 w 0))
  | 0x10 | 0x11 | 0x12 | 0x13 | 0x14 | 0x15 | 0x16 | 0x17 => req (fld w 20 1 == 0)
      (.cmpi (Cond.ofCode (fld w 21 3)) (reg 16 w 16) (reg 32 w 11) (imm 11 w 0))
  | 0x18 => req (true) (.movi (reg 32 w 16) (imm 16 w 0))
  | 0x19 => req (true) (.movhi (reg 32 w 16) (imm 16 w 0))
  | _ => if sb then decodeSbOnly w else none

/-- `VS2` zero (R68). -/
def vs2Zero (w : Nat) : Bool := fld w 9 4 == 0

/-- The vector slot (R34, R68). -/
def decodeVec (w : Nat) : Option Instr :=
  let vd := reg 16 w 17
  let va := reg 16 w 13
  let vb := reg 16 w 9
  let mk := reg 8 w 6
  let ty := VType.ofCode (fld w 4 2)
  let fn := fld w 0 4
  match fld w 21 6 with
  | 0x00 => decodeSlotNop w
  | 0x01 =>
    match fn with
    | 0 => some (.vadd vd va vb mk ty)
    | 1 => some (.vsub vd va vb mk ty)
    | 2 => some (.vmul vd va vb mk ty)
    | 3 => req ty.isFloat (.vfma vd va vb mk ty)
    | 4 => some (.vmin vd va vb mk ty)
    | 5 => some (.vmax vd va vb mk ty)
    | 6 => req (ty.isSigned && vs2Zero w) (.vabs vd va mk ty)
    | 7 => req (ty.isSigned && vs2Zero w) (.vneg vd va mk ty)
    | _ => none
  | 0x02 =>
    match fn with
    | 0 => some (.vand vd va vb mk ty)
    | 1 => some (.vor vd va vb mk ty)
    | 2 => some (.vxor vd va vb mk ty)
    | 3 => req (!ty.isFloat) (.vshl vd va vb mk ty)
    | 4 => req (!ty.isFloat) (.vshr vd va vb mk ty)
    | 5 => req (!ty.isFloat) (.vsra vd va vb mk ty)
    | _ => none
  | 0x03 =>
    match fn with
    | 3 => req (!ty.isFloat && fld w 11 2 == 0) (.vshlImm vd va (reg 32 w 6) ty)
    | 4 => req (!ty.isFloat && fld w 11 2 == 0) (.vshrImm vd va (reg 32 w 6) ty)
    | 5 => req (!ty.isFloat && fld w 11 2 == 0) (.vsraImm vd va (reg 32 w 6) ty)
    | _ => none
  | 0x04 => (VCond.ofCode fn).bind fun c =>
      req (fld w 20 1 == 0 && vcmpOk c ty) (.vcmp c (reg 8 w 17) va vb mk ty)
  | 0x05 => req (fn == 0) (.vsel vd va vb mk ty)
  | 0x06 => req (fld w 3 1 == 0 && vs2Zero w && vcvtOk ty (VType.ofCode (fld w 0 2)))
      (.vcvt vd va mk ty (VType.ofCode (fld w 0 2)) (flag w 2))
  | 0x07 => (VRedOp.ofCode fn).bind fun o => req (vs2Zero w) (.vred o vd va mk ty)
  | 0x08 => req (fn == 0) (.vperm vd va vb mk ty)
  | 0x09 =>
    match fn with
    | 0 => req (ty.isFloat && vs2Zero w) (.vexp2 vd va mk ty)
    | 1 => req (ty.isFloat && vs2Zero w) (.vlog2 vd va mk ty)
    | 2 => req (ty.isFloat && vs2Zero w) (.vrcp vd va mk ty)
    | 3 => req (ty.isFloat && vs2Zero w) (.vrsqrt vd va mk ty)
    | _ => none
  | 0x0A => req (fn == 0 && vs2Zero w) (.vmov vd va mk ty)
  | 0x0B => req (fn == 0 && fld w 13 4 == 0 && fld w 6 2 == 0) (.vbcast vd (reg 32 w 8) ty)
  | 0x0C => req (fn == 0 && fld w 11 2 == 0) (.vext vd va (reg 32 w 6) ty)
  | 0x0D => req (fn == 0 && fld w 6 2 == 0) (.vins vd va (reg 32 w 8) ty)
  | 0x0E => some (.vmovi vd (imm 17 w 0))
  | 0x10 => req (fld w 4 2 == 0 && fld w 20 1 == 0 && fld w 16 1 == 0 && fld w 12 1 == 0 && fld w 6 3 == 0)
      (.vmsk (imm 4 w 0) (reg 8 w 17) (reg 8 w 13) (reg 8 w 9))
  | 0x11 =>
    match fld w 0 6 with
    | 0 => req (fld w 16 5 == 0 && fld w 6 7 == 0) (.vmpush (reg 8 w 13))
    | 1 => req (fld w 6 15 == 0) .vminv
    | 2 => req (fld w 6 15 == 0) .vmpop
    | _ => none
  | _ => none

/-- `REG` names a v-register in [3:0] (R70). -/
def regV (w : Nat) : Bool := fld w 20 1 == 0
/-- `AUX` names a v-register in [3:0] (R70). -/
def auxV (w : Nat) : Bool := fld w 10 1 == 0

/-- The LD slot (R35, R70). -/
def decodeLd (w : Nat) : Option Instr :=
  match fld w 21 6 with
  | 0x00 => decodeSlotNop w
  | 0x01 => some (.ldb (reg 32 w 16) (reg 32 w 11) (imm 11 w 0))
  | 0x02 => some (.ldbu (reg 32 w 16) (reg 32 w 11) (imm 11 w 0))
  | 0x03 => some (.ldh (reg 32 w 16) (reg 32 w 11) (imm 11 w 0))
  | 0x04 => some (.ldhu (reg 32 w 16) (reg 32 w 11) (imm 11 w 0))
  | 0x05 => some (.ldw (reg 32 w 16) (reg 32 w 11) (imm 11 w 0))
  | 0x06 => req (regV w) (.ldv (reg 16 w 16) (reg 32 w 11) (imm 11 w 0))
  | 0x07 => req (regV w) (.ldvs (reg 16 w 16) (reg 32 w 11) (reg 32 w 6) (imm 6 w 0))
  | 0x08 => req (regV w && auxV w) (.ldvx (reg 16 w 16) (reg 32 w 11) (reg 16 w 6) (imm 6 w 0))
  | 0x09 => req (fld w 19 2 == 0) (.ldm (reg 8 w 16) (reg 32 w 11) (imm 11 w 0))
  | 0x0A => some (.ldacc (reg 64 w 15) (reg 32 w 10) (imm 10 w 0))
  | _ => none

/-- The ST slot (R35, R70). -/
def decodeSt (w : Nat) : Option Instr :=
  match fld w 21 6 with
  | 0x00 => decodeSlotNop w
  | 0x01 => some (.stb (reg 32 w 16) (reg 32 w 11) (imm 11 w 0))
  | 0x02 => some (.sth (reg 32 w 16) (reg 32 w 11) (imm 11 w 0))
  | 0x03 => some (.stw (reg 32 w 16) (reg 32 w 11) (imm 11 w 0))
  | 0x04 => req (regV w) (.stv (reg 16 w 16) (reg 32 w 11) (imm 11 w 0))
  | 0x05 => req (regV w && fld w 9 2 == 0) (.stvm (reg 16 w 16) (reg 32 w 11) (reg 8 w 6) (imm 6 w 0))
  | 0x06 => req (regV w) (.stvs (reg 16 w 16) (reg 32 w 11) (reg 32 w 6) (imm 6 w 0))
  | 0x07 => req (regV w && auxV w) (.stvx (reg 16 w 16) (reg 32 w 11) (reg 16 w 6) (imm 6 w 0))
  | 0x08 => some (.stacc (reg 64 w 15) (reg 32 w 10) (imm 10 w 0))
  | 0x09 => if fld w 0 2 = 0 then
      (AmoOp.ofCode (fld w 2 4)).map fun o => .amo o (reg 32 w 16) (reg 32 w 11) (reg 32 w 6) else none
  | 0x0A => req (fld w 0 6 == 0) (.cas (reg 32 w 16) (reg 32 w 11) (reg 32 w 6))
  | _ => none

/-- The MXU slot (R36, R71). -/
def decodeMxu (w : Nat) : Option Instr :=
  match fld w 21 6 with
  | 0x00 => decodeSlotNop w
  | 0x01 => req (fld w 16 5 == 0 && fld w 0 11 == 0) (.prec (reg 32 w 11))
  | 0x02 => req (fld w 7 3 == 0 && fld w 0 5 == 0) (.wld (imm 8 w 13) (reg 8 w 10) (reg 2 w 6) (flag w 5))
  | 0x03 => req (fld w 0 21 == 0) .wswap
  | 0x04 => (AccCtl.ofCode (fld w 7 2)).bind fun c =>
      req (fld w 0 5 == 0) (.mma (imm 8 w 13) (reg 8 w 10) (reg 2 w 9) c (reg 2 w 6) (flag w 5))
  | 0x05 => req (fld w 0 9 == 0 && rangeOk (reg 64 w 15) (reg 64 w 9)) (.aclr (reg 64 w 15) (reg 64 w 9))
  | 0x06 => req (fld w 0 6 == 0 && rangeOk (reg 64 w 15) (reg 64 w 9)) (.ascl (reg 64 w 15) (reg 64 w 9) (reg 8 w 6))
  | 0x07 => (DrainFmt.ofCode (fld w 0 3)).bind fun f =>
      req (rangeOk (reg 64 w 15) (reg 64 w 9) && adrnOk (reg 32 w 4) (flag w 3))
        (.adrn (reg 64 w 15) (reg 64 w 9) (reg 32 w 4) (flag w 3) f)
  | 0x08 => req (fld w 0 16 == 0) (if flag w 20 then .pmaskCol (reg 16 w 16) else .pmaskRow (reg 16 w 16))
  | _ => none

/-- The Copy layout (R37). -/
def copyOps (w : Nat) : CopyOps :=
  ⟨reg 32 w 16, reg 8 w 13, flag w 12, reg 16 w 8, flag w 7, flag w 6, reg 32 w 1⟩

/-- The Message layout (R37). -/
def msgOps (w : Nat) : MsgOps := ⟨reg 256 w 13, reg 32 w 8, reg 16 w 4, flag w 3⟩

/-- The XFR slot (R37, R72). -/
def decodeXfr (w : Nat) : Option Instr :=
  match fld w 21 6 with
  | 0x00 => decodeSlotNop w
  | 0x01 => req (fld w 0 1 == 0) (.cpy (copyOps w))
  | 0x02 => req (fld w 0 1 == 0) (.cpyg (copyOps w))
  | 0x03 => req (fld w 0 1 == 0) (.cpyx (copyOps w))
  | 0x04 => req (fld w 0 1 == 0 && cpyoOk (copyOps w)) (.cpyo (copyOps w))
  | 0x05 => req (fld w 13 3 == 0 && fld w 0 8 == 0) (.bdcl (reg 32 w 16) (reg 32 w 8))
  | 0x06 => req (fld w 0 16 == 0) (.brel (reg 32 w 16))
  | 0x07 => req (fld w 0 13 == 0) (.publish (reg 32 w 16) (reg 8 w 13))
  | 0x08 => req (fld w 16 5 == 0 && fld w 0 3 == 0) (.reqpg (reg 8 w 13) (reg 32 w 8) (reg 16 w 4) (flag w 3))
  | 0x09 => req (fld w 0 3 == 0) (.send (msgOps w))
  | 0x0A => some (.sendr (msgOps w) (ReduceOp.ofCode (fld w 0 3)))
  | 0x0B => req (fld w 0 3 == 0) (.recv (msgOps w))
  | 0x0C => req (fld w 0 3 == 0) (.coll (msgOps w))
  | 0x0D => req (fld w 8 10 == 0) (.rgadv (reg 8 w 18) (imm 8 w 0))
  | 0x0E => req (fld w 8 10 == 0) (.rgpop (reg 8 w 18) (imm 8 w 0))
  | 0x0F => req (fld w 8 1 == 0) (.sig (reg 256 w 13) (reg 16 w 9) (imm 8 w 0))
  | 0x10 => req (fld w 0 6 == 0) (.tlsig (reg 1024 w 11) (reg 32 w 6))
  | 0x11 => req (fld w 0 13 == 0) (.vwjoin (reg 256 w 13))
  | 0x12 => req (fld w 0 13 == 0) (.vwleave (reg 256 w 13))
  | _ => none

/-- The slot of a bundle that decodes on its own (R61): slot 0 CTL to slot 7 XFR. -/
def decodeSlot (k w : Nat) : Option Instr :=
  match k with
  | 0 => decodeCtl w
  | 1 => decodeScalar false w
  | 2 => decodeScalar true w
  | 3 => decodeLd w
  | 4 => decodeSt w
  | 5 => decodeVec w
  | 6 => decodeMxu w
  | 7 => decodeXfr w
  | _ => none

/-- The forms of the SX layout by opcode and `FN` (R353 to R357). -/
def decodeSx (w : Nat) : Option Instr :=
  let d := reg 16 w 22
  let a := reg 16 w 18
  let b := reg 16 w 14
  match fld w 26 6 with
  | 0x08 => match fld w 8 6 with
    | 0 => some (.sxmitData d a b)
    | 1 => some (.sxmitAtomic d a b)
    | _ => none
  | 0x09 => match fld w 8 6 with
    | 0 => some (.srecvWait d a b)
    | 1 => some (.srecvPoll d a b)
    | _ => none
  | 0x0A => some (.sreduce d a b (imm 6 w 8))
  | 0x0B => match fld w 8 6 with
    | 0 => some (.sfwdIn d a b)
    | 1 => some (.sfwdOut d a b)
    | _ => none
  | 0x0C => match fld w 8 6 with
    | 0 => some (.splaneDrain d a b)
    | 1 => some (.splaneRestore d a b)
    | 2 => some (.splaneStatus d a b)
    | _ => none
  | 0x0D => match fld w 8 6 with
    | 0 => some (.sviewRead d a b)
    | 1 => some (.sviewWait d a b)
    | 2 => some (.sviewJoin d a b)
    | 3 => some (.sviewLeave d a b)
    | _ => none
  | _ => none

/-- A Puren-S word (R53, R73); `none` halts the scout with the illegal-encoding cause. -/
def decodeScout (w : Nat) : Option Instr :=
  match fld w 26 6 with
  | 0x00 => req (fld w 0 26 == 0) .shalt
  | 0x01 => req (fld w 0 18 == 0) (.smov (reg 16 w 22) (reg 16 w 18))
  | 0x02 => req (fld w 0 14 == 0) (.sadd (reg 16 w 22) (reg 16 w 18) (reg 16 w 14))
  | 0x03 => some (.saddi (reg 16 w 22) (reg 16 w 18) (imm 18 w 0))
  | 0x04 => some (.sbr (reg 16 w 22) (ScoutCond.ofCode (fld w 20 2)) (imm 20 w 0))
  | 0x05 => some (.sjmp (imm 26 w 0))
  | 0x06 => req (fld w 0 16 == 0) (.swaitsem (reg 64 w 20) (reg 16 w 16))
  | 0x07 => req (fld w 0 16 == 0) (.ssigsem (reg 64 w 20) (reg 16 w 16))
  | _ => if fld w 0 8 = 0 then decodeSx w else none

/-- A little-endian number from its bytes. -/
def leNat : List Byte → Nat
  | [] => 0
  | b :: bs => b.toNat + 256 * leNat bs

/-- The `n` little-endian bytes of a number. -/
def leBytes : Nat → Nat → List Byte
  | 0, _ => []
  | n + 1, v => BitVec.ofNat 8 v :: leBytes n (v / 256)

/-- A Puren-S instruction from its four bytes as SRAM stores them. -/
def decodeScoutBytes (bs : List Byte) : Option Instr := decodeScout (leNat bs)

/-- The host's question: the rows of spec/opcode_table.json with bits are the Puren-S words, 32 bits each. -/
def decodeTableWord (nbits w : Nat) : Option Instr :=
  if nbits ≤ 32 then decodeScoutBytes (leBytes 4 w) else none

/-! ### The encoder -/

/-- Layouts R and I (R33). -/
def layR (op rd a b fn : Nat) : Nat := op * 2 ^ 21 + rd * 2 ^ 16 + a * 2 ^ 11 + b * 2 ^ 6 + fn
def layI (op rd a v : Nat) : Nat := op * 2 ^ 21 + rd * 2 ^ 16 + a * 2 ^ 11 + v
/-- Layout V (R34). -/
def layV (op vd va vb mk ty fn : Nat) : Nat :=
  op * 2 ^ 21 + vd * 2 ^ 17 + va * 2 ^ 13 + vb * 2 ^ 9 + mk * 2 ^ 6 + ty * 2 ^ 4 + fn
/-- Layout VX (R34). -/
def layVX (op vd va x ty fn : Nat) : Nat := op * 2 ^ 21 + vd * 2 ^ 17 + va * 2 ^ 13 + x * 2 ^ 6 + ty * 2 ^ 4 + fn
/-- Layout X (R35). -/
def layX (op r base aux off : Nat) : Nat := op * 2 ^ 21 + r * 2 ^ 16 + base * 2 ^ 11 + aux * 2 ^ 6 + off
/-- Layout C (R35). -/
def layC (op row base off : Nat) : Nat := op * 2 ^ 21 + row * 2 ^ 15 + base * 2 ^ 10 + off
/-- Layout SX of Puren-S (R53). -/
def laySX (op d a b fn : Nat) : Nat := op * 2 ^ 26 + d * 2 ^ 22 + a * 2 ^ 18 + b * 2 ^ 14 + fn * 2 ^ 8
/-- The Copy layout (R37). -/
def layCopy (op : Nat) (c : CopyOps) : Nat :=
  op * 2 ^ 21 + c.buf.val * 2 ^ 16 + c.ab.val * 2 ^ 13 + c.f.toNat * 2 ^ 12 + c.cn.val * 2 ^ 8 + c.t.toNat * 2 ^ 7
    + c.st.toNat * 2 ^ 6 + c.rs.val * 2
/-- The Message layout (R37). -/
def layMsg (op : Nat) (m : MsgOps) (o : Nat) : Nat :=
  op * 2 ^ 21 + m.ch.val * 2 ^ 13 + m.buf.val * 2 ^ 8 + m.cn.val * 2 ^ 4 + m.t.toNat * 2 ^ 3 + o
/-- A control word with its operands (R32). -/
def layCtl (op v : Nat) : Nat := op * 2 ^ 25 + v
/-- A word of slots 6 and 7 with its operands (R32). -/
def layOp (op v : Nat) : Nat := op * 2 ^ 21 + v

/-- The word of an instruction, less its guard and `S` (R32 to R40, R62 to R73); events have none and answer 0. -/
def encode : Instr → Nat
  | .nop => 0
  | .br off => layCtl 0x01 off.toNat
  | .brp inv p off => layCtl 0x02 (inv.toNat * 2 ^ 24 + p.val * 2 ^ 20 + off.toNat)
  | .brs rs c off => layCtl 0x03 (rs.val * 2 ^ 20 + c.code * 2 ^ 17 + off.toNat)
  | .bru off => layCtl 0x04 off.toNat
  | .call off => layCtl 0x05 off.toNat
  | .ret => layCtl 0x06 0
  | .loop count len => layCtl 0x07 (2 ^ 24 + count.toNat * 2 ^ 12 + len.toNat)
  | .loopReg rs len => layCtl 0x07 (rs.val * 2 ^ 12 + len.toNat)
  | .halt => layCtl 0x08 0
  | .trap code => layCtl 0x09 code.toNat
  | .eret => layCtl 0x0A 0
  | .yield run => layCtl 0x0B run.toNat
  | .waitc c thr => layCtl 0x0C (c.val * 2 ^ 21 + thr.toNat)
  | .waits sem v => layCtl 0x0D (sem.val * 2 ^ 21 + v.toNat)
  | .waitsD sem v => layCtl 0x0D (sem.val * 2 ^ 21 + 2 ^ 20 + v.toNat)
  | .waitt tl rsl rsh => layCtl 0x0E (tl.val * 2 ^ 15 + rsl.val * 2 ^ 10 + rsh.val * 2 ^ 5)
  | .waitcr ch n => layCtl 0x0F (ch.val * 2 ^ 17 + n.toNat)
  | .waitrg rg n => layCtl 0x10 (rg.val * 2 ^ 22 + n.toNat)
  | .waitrgFree rg n => layCtl 0x10 (rg.val * 2 ^ 22 + 2 ^ 21 + n.toNat)
  | .waitb b st => layCtl 0x11 (b.val * 2 ^ 20 + st.code * 2 ^ 18)
  | .waitbTag b st tag => layCtl 0x11 (b.val * 2 ^ 20 + st.code * 2 ^ 18 + 2 ^ 17 + tag.toNat)
  | .waitph => layCtl 0x12 0
  | .phase eq => layCtl 0x13 eq.toNat
  | .fence sc => layCtl 0x14 sc.code
  | .csrr rs c => layCtl 0x15 (rs.val * 2 ^ 20 + c.code)
  | .csrw rs c => layCtl 0x16 (rs.val * 2 ^ 20 + c.code)
  | .csrset rs c => layCtl 0x17 (rs.val * 2 ^ 20 + c.code)
  | .csrclr rs c => layCtl 0x18 (rs.val * 2 ^ 20 + c.code)
  | .blk grp n => layCtl 0x19 (grp.toNat * 2 ^ 17 + n.toNat)
  | .pref lvl ab n => layCtl 0x1A (lvl.toNat * 2 ^ 24 + ab.val * 2 ^ 21 + n.toNat)
  | .pin lvl ab n => layCtl 0x1B (lvl.toNat * 2 ^ 24 + ab.val * 2 ^ 21 + n.toNat)
  | .unpin lvl ab n => layCtl 0x1C (lvl.toNat * 2 ^ 24 + ab.val * 2 ^ 21 + n.toNat)
  | .add rd a b => layR 0x01 rd.val a.val b.val 0x00
  | .sub rd a b => layR 0x01 rd.val a.val b.val 0x01
  | .and rd a b => layR 0x01 rd.val a.val b.val 0x02
  | .or rd a b => layR 0x01 rd.val a.val b.val 0x03
  | .xor rd a b => layR 0x01 rd.val a.val b.val 0x04
  | .andn rd a b => layR 0x01 rd.val a.val b.val 0x05
  | .shl rd a b => layR 0x01 rd.val a.val b.val 0x06
  | .shr rd a b => layR 0x01 rd.val a.val b.val 0x07
  | .sra rd a b => layR 0x01 rd.val a.val b.val 0x08
  | .min rd a b => layR 0x01 rd.val a.val b.val 0x09
  | .max rd a b => layR 0x01 rd.val a.val b.val 0x0A
  | .minu rd a b => layR 0x01 rd.val a.val b.val 0x0B
  | .maxu rd a b => layR 0x01 rd.val a.val b.val 0x0C
  | .mov rd a => layR 0x01 rd.val a.val 0 0x0D
  | .clz rd a => layR 0x01 rd.val a.val 0 0x0E
  | .popc rd a => layR 0x01 rd.val a.val 0 0x0F
  | .mul rd a b => layR 0x02 rd.val a.val b.val 0
  | .mulh rd a b => layR 0x02 rd.val a.val b.val 1
  | .mulhu rd a b => layR 0x02 rd.val a.val b.val 2
  | .sel rd a b p => layR 0x03 rd.val a.val b.val p.val
  | .cmp c pd a b => layR 0x04 pd.val a.val b.val c.code
  | .plog tt pd pa pb => layR 0x05 pd.val pa.val pb.val tt.toNat
  | .addi rd a v => layI 0x08 rd.val a.val v.toNat
  | .andi rd a v => layI 0x09 rd.val a.val v.toNat
  | .ori rd a v => layI 0x0A rd.val a.val v.toNat
  | .xori rd a v => layI 0x0B rd.val a.val v.toNat
  | .shli rd a n => layI 0x0C rd.val a.val n.val
  | .shri rd a n => layI 0x0D rd.val a.val n.val
  | .srai rd a n => layI 0x0E rd.val a.val n.val
  | .cmpi c pd a v => layI (0x10 + c.code) pd.val a.val v.toNat
  | .movi rd v => layOp 0x18 (rd.val * 2 ^ 16 + v.toNat)
  | .movhi rd v => layOp 0x19 (rd.val * 2 ^ 16 + v.toNat)
  | .aadd ad aa sb => layR 0x20 ad.val aa.val sb.val 0
  | .aaddi ad aa v => layI 0x21 ad.val aa.val v.toNat
  | .amov ad aa => layR 0x22 ad.val aa.val 0 0
  | .amovFromPair ad sa => layR 0x22 ad.val sa.val 0 1
  | .amovToScalar sd aa => layR 0x22 sd.val aa.val 0 2
  | .amovHi sd aa => layR 0x22 sd.val aa.val 0 3
  | .acmb ad sa sb => layR 0x23 ad.val sa.val sb.val 0
  | .ldq qd base off => layI 0x24 qd.val base.val off.toNat
  | .vadd vd va vb mk ty => layV 0x01 vd.val va.val vb.val mk.val ty.code 0
  | .vsub vd va vb mk ty => layV 0x01 vd.val va.val vb.val mk.val ty.code 1
  | .vmul vd va vb mk ty => layV 0x01 vd.val va.val vb.val mk.val ty.code 2
  | .vfma vd va vb mk ty => layV 0x01 vd.val va.val vb.val mk.val ty.code 3
  | .vmin vd va vb mk ty => layV 0x01 vd.val va.val vb.val mk.val ty.code 4
  | .vmax vd va vb mk ty => layV 0x01 vd.val va.val vb.val mk.val ty.code 5
  | .vabs vd va mk ty => layV 0x01 vd.val va.val 0 mk.val ty.code 6
  | .vneg vd va mk ty => layV 0x01 vd.val va.val 0 mk.val ty.code 7
  | .vand vd va vb mk ty => layV 0x02 vd.val va.val vb.val mk.val ty.code 0
  | .vor vd va vb mk ty => layV 0x02 vd.val va.val vb.val mk.val ty.code 1
  | .vxor vd va vb mk ty => layV 0x02 vd.val va.val vb.val mk.val ty.code 2
  | .vshl vd va vb mk ty => layV 0x02 vd.val va.val vb.val mk.val ty.code 3
  | .vshr vd va vb mk ty => layV 0x02 vd.val va.val vb.val mk.val ty.code 4
  | .vsra vd va vb mk ty => layV 0x02 vd.val va.val vb.val mk.val ty.code 5
  | .vshlImm vd va n ty => layVX 0x03 vd.val va.val n.val ty.code 3
  | .vshrImm vd va n ty => layVX 0x03 vd.val va.val n.val ty.code 4
  | .vsraImm vd va n ty => layVX 0x03 vd.val va.val n.val ty.code 5
  | .vcmp c md va vb mk ty => layV 0x04 md.val va.val vb.val mk.val ty.code c.code
  | .vsel vd va vb mk ty => layV 0x05 vd.val va.val vb.val mk.val ty.code 0
  | .vcvt vd va mk src dst rtz => layV 0x06 vd.val va.val 0 mk.val src.code (dst.code + 4 * rtz.toNat)
  | .vred o vd va mk ty => layV 0x07 vd.val va.val 0 mk.val ty.code o.code
  | .vperm vd va vb mk ty => layV 0x08 vd.val va.val vb.val mk.val ty.code 0
  | .vmov vd va mk ty => layV 0x0A vd.val va.val 0 mk.val ty.code 0
  | .vext vd va k ty => layVX 0x0C vd.val va.val k.val ty.code 0
  | .vins vd va sk ty => layVX 0x0D vd.val va.val (sk.val * 4) ty.code 0
  | .vbcast vd sk ty => layVX 0x0B vd.val 0 (sk.val * 4) ty.code 0
  | .vmovi vd v => layOp 0x0E (vd.val * 2 ^ 17 + v.toNat)
  | .vexp2 vd va mk ty => layV 0x09 vd.val va.val 0 mk.val ty.code 0
  | .vlog2 vd va mk ty => layV 0x09 vd.val va.val 0 mk.val ty.code 1
  | .vrcp vd va mk ty => layV 0x09 vd.val va.val 0 mk.val ty.code 2
  | .vrsqrt vd va mk ty => layV 0x09 vd.val va.val 0 mk.val ty.code 3
  | .vmsk tt md ma mb => layV 0x10 md.val ma.val mb.val 0 0 tt.toNat
  | .vmpush mk => layV 0x11 0 mk.val 0 0 0 0
  | .vminv => layV 0x11 0 0 0 0 0 1
  | .vmpop => layV 0x11 0 0 0 0 0 2
  | .ldb rd base off => layI 0x01 rd.val base.val off.toNat
  | .ldbu rd base off => layI 0x02 rd.val base.val off.toNat
  | .ldh rd base off => layI 0x03 rd.val base.val off.toNat
  | .ldhu rd base off => layI 0x04 rd.val base.val off.toNat
  | .ldw rd base off => layI 0x05 rd.val base.val off.toNat
  | .ldv vd base off => layI 0x06 vd.val base.val off.toNat
  | .ldvs vd base stride off => layX 0x07 vd.val base.val stride.val off.toNat
  | .ldvx vd base vi off => layX 0x08 vd.val base.val vi.val off.toNat
  | .ldm md base off => layI 0x09 md.val base.val off.toNat
  | .ldacc row base off => layC 0x0A row.val base.val off.toNat
  | .stb rs base off => layI 0x01 rs.val base.val off.toNat
  | .sth rs base off => layI 0x02 rs.val base.val off.toNat
  | .stw rs base off => layI 0x03 rs.val base.val off.toNat
  | .stv vs base off => layI 0x04 vs.val base.val off.toNat
  | .stvm vs base mk off => layX 0x05 vs.val base.val mk.val off.toNat
  | .stvs vs base stride off => layX 0x06 vs.val base.val stride.val off.toNat
  | .stvx vs base vi off => layX 0x07 vs.val base.val vi.val off.toNat
  | .stacc row base off => layC 0x08 row.val base.val off.toNat
  | .amo o rd base rx => layX 0x09 rd.val base.val rx.val (o.code * 4)
  | .cas rd base rx => layX 0x0A rd.val base.val rx.val 0
  | .prec rs => layOp 0x01 (rs.val * 2 ^ 11)
  | .pmaskRow vs => layOp 0x08 (vs.val * 2 ^ 16)
  | .pmaskCol vs => layOp 0x08 (2 ^ 20 + vs.val * 2 ^ 16)
  | .wswap => layOp 0x03 0
  | .wld delay ring wp ta => layOp 0x02 (delay.toNat * 2 ^ 13 + ring.val * 2 ^ 10 + wp.val * 2 ^ 6 + ta.toNat * 2 ^ 5)
  | .mma delay ring h ctl wp ta =>
      layOp 0x04 (delay.toNat * 2 ^ 13 + ring.val * 2 ^ 10 + h.val * 2 ^ 9 + ctl.code * 2 ^ 7 + wp.val * 2 ^ 6 + ta.toNat * 2 ^ 5)
  | .aclr first cnt => layOp 0x05 (first.val * 2 ^ 15 + cnt.val * 2 ^ 9)
  | .ascl first cnt q => layOp 0x06 (first.val * 2 ^ 15 + cnt.val * 2 ^ 9 + q.val * 2 ^ 6)
  | .adrn first cnt dst k f =>
      layOp 0x07 (first.val * 2 ^ 15 + cnt.val * 2 ^ 9 + dst.val * 2 ^ 4 + k.toNat * 2 ^ 3 + f.code)
  | .cpy c => layCopy 0x01 c
  | .cpyg c => layCopy 0x02 c
  | .cpyx c => layCopy 0x03 c
  | .cpyo c => layCopy 0x04 c
  | .bdcl b rs => layOp 0x05 (b.val * 2 ^ 16 + rs.val * 2 ^ 8)
  | .brel b => layOp 0x06 (b.val * 2 ^ 16)
  | .publish b mk => layOp 0x07 (b.val * 2 ^ 16 + mk.val * 2 ^ 13)
  | .reqpg ab rs cn t => layOp 0x08 (ab.val * 2 ^ 13 + rs.val * 2 ^ 8 + cn.val * 2 ^ 4 + t.toNat * 2 ^ 3)
  | .send m => layMsg 0x09 m 0
  | .sendr m o => layMsg 0x0A m o.code
  | .recv m => layMsg 0x0B m 0
  | .coll m => layMsg 0x0C m 0
  | .rgadv rg n => layOp 0x0D (rg.val * 2 ^ 18 + n.toNat)
  | .rgpop rg n => layOp 0x0E (rg.val * 2 ^ 18 + n.toNat)
  | .sig ch sem inc => layOp 0x0F (ch.val * 2 ^ 13 + sem.val * 2 ^ 9 + inc.toNat)
  | .tlsig tl rs => layOp 0x10 (tl.val * 2 ^ 11 + rs.val * 2 ^ 6)
  | .vwjoin sw => layOp 0x11 (sw.val * 2 ^ 13)
  | .vwleave sw => layOp 0x12 (sw.val * 2 ^ 13)
  | .shalt => 0
  | .smov d a => laySX 0x01 d.val a.val 0 0
  | .sadd d a b => laySX 0x02 d.val a.val b.val 0
  | .saddi d a v => laySX 0x03 d.val a.val 0 0 + v.toNat
  | .sbr a c off => 0x04 * 2 ^ 26 + a.val * 2 ^ 22 + c.code * 2 ^ 20 + off.toNat
  | .sjmp off => 0x05 * 2 ^ 26 + off.toNat
  | .swaitsem ps a => 0x06 * 2 ^ 26 + ps.val * 2 ^ 20 + a.val * 2 ^ 16
  | .ssigsem ps a => 0x07 * 2 ^ 26 + ps.val * 2 ^ 20 + a.val * 2 ^ 16
  | .sxmitData d a b => laySX 0x08 d.val a.val b.val 0
  | .sxmitAtomic d a b => laySX 0x08 d.val a.val b.val 1
  | .srecvWait d a b => laySX 0x09 d.val a.val b.val 0
  | .srecvPoll d a b => laySX 0x09 d.val a.val b.val 1
  | .sreduce d a b fn => laySX 0x0A d.val a.val b.val fn.toNat
  | .sfwdIn d a b => laySX 0x0B d.val a.val b.val 0
  | .sfwdOut d a b => laySX 0x0B d.val a.val b.val 1
  | .splaneDrain d a b => laySX 0x0C d.val a.val b.val 0
  | .splaneRestore d a b => laySX 0x0C d.val a.val b.val 1
  | .splaneStatus d a b => laySX 0x0C d.val a.val b.val 2
  | .sviewRead d a b => laySX 0x0D d.val a.val b.val 0
  | .sviewWait d a b => laySX 0x0D d.val a.val b.val 1
  | .sviewJoin d a b => laySX 0x0D d.val a.val b.val 2
  | .sviewLeave d a b => laySX 0x0D d.val a.val b.val 3
  | _ => 0

/-- The decoder of an instruction's home; events are not decoded. -/
def decodeHome (h : Home) (w : Nat) : Option Instr :=
  match h with
  | .ctl => decodeCtl w
  | .scalar => decodeScalar false w
  | .sb => decodeScalar true w
  | .ld => decodeLd w
  | .st => decodeSt w
  | .vec => decodeVec w
  | .mxu => decodeMxu w
  | .xfr => decodeXfr w
  | .scout => decodeScout w
  | .event => none

end Sys2Proof
end

