-- ==== Sys2Proof/Machine/Num.lean ====
section
/-! DEFINITION. Number formats and the arithmetic of R74 to R99: exact values, one rounding, the special values of R89,
the flags of R92. A format's code is read into an `FVal`; exact results are dyadic numbers; `roundRat` rounds once. -/

namespace Sys2Proof.Machine

/-- Rounding modes (R82, R90). -/
inductive RMode where
  | rne | rtz | rdn | rup
  deriving DecidableEq, Repr

/-- Codes 00 RNE, 01 RTZ, 10 RDN, 11 RUP (R82, R90). -/
def RMode.ofCode : Nat → RMode
  | 0 => .rne | 1 => .rtz | 2 => .rdn | _ => .rup

/-- Which codes of a format are infinities and NaNs (R77). -/
inductive Specials where
  /-- exponent all ones: infinity and NaN -/
  | ieee
  /-- E4M3: the all-ones magnitude is NaN, no infinity -/
  | top
  /-- none -/
  | none
  deriving DecidableEq, Repr

/-- A floating-point format: exponent bits, fraction bits, bias (R77). -/
structure FFmt where
  eb : Nat
  fb : Nat
  bias : Nat
  sp : Specials
  deriving DecidableEq, Repr

def fF32 : FFmt := ⟨8, 23, 127, .ieee⟩
def fBf16 : FFmt := ⟨8, 7, 127, .ieee⟩
def fFp16 : FFmt := ⟨5, 10, 15, .ieee⟩
def fE4m3 : FFmt := ⟨4, 3, 7, .top⟩
def fE5m2 : FFmt := ⟨5, 2, 15, .ieee⟩
def fE3m2 : FFmt := ⟨3, 2, 3, .none⟩
def fE2m3 : FFmt := ⟨2, 3, 1, .none⟩
def fE2m1 : FFmt := ⟨2, 1, 1, .none⟩

def FFmt.width (f : FFmt) : Nat := 1 + f.eb + f.fb

/-- The value of a code: a NaN (signalling or not), an infinity, or (−1)^neg × m × 2^e. -/
inductive FVal where
  | nan (sig : Bool)
  | inf (neg : Bool)
  | fin (neg : Bool) (m : Nat) (e : Int)
  deriving DecidableEq, Repr

def FVal.isNan : FVal → Bool
  | .nan _ => true
  | _ => false

def FVal.isSig : FVal → Bool
  | .nan s => s
  | _ => false

def FVal.isZero : FVal → Bool
  | .fin _ m _ => m == 0
  | _ => false

def FVal.neg? : FVal → Bool
  | .nan _ => false
  | .inf n => n
  | .fin n _ _ => n

/-- Reading a code (R77, R78): only FP32, BF16 and FP16 have signalling NaNs, with top fraction bit 0. -/
def FFmt.read (f : FFmt) (x : Nat) : FVal :=
  let s := x / 2 ^ (f.eb + f.fb) % 2 == 1
  let e := x / 2 ^ f.fb % 2 ^ f.eb
  let m := x % 2 ^ f.fb
  let fin : FVal :=
    if e = 0 then .fin s m (1 - (f.bias : Int) - f.fb)
    else .fin s (2 ^ f.fb + m) ((e : Int) - f.bias - f.fb)
  match f.sp with
  | .ieee =>
    if e = 2 ^ f.eb - 1 then
      if m = 0 then .inf s else .nan (decide (f.width ≥ 16) && m / 2 ^ (f.fb - 1) % 2 == 0)
    else fin
  | .top => if x % 2 ^ (f.eb + f.fb) = 2 ^ (f.eb + f.fb) - 1 then .nan false else fin
  | .none => fin

/-- Exception flags in `STATUS` order: `NV` 1, `DZ` 2, `OF` 4, `UF` 8, `NX` 16 (R110). -/
structure Flags where
  nv : Bool
  dz : Bool
  of_ : Bool
  uf : Bool
  nx : Bool
  deriving DecidableEq, Repr

def Flags.none : Flags := ⟨false, false, false, false, false⟩
def Flags.invalid : Flags := ⟨true, false, false, false, false⟩
def Flags.divZero : Flags := ⟨false, true, false, false, false⟩
def Flags.inexact : Flags := ⟨false, false, false, false, true⟩

def Flags.or (a b : Flags) : Flags :=
  ⟨a.nv || b.nv, a.dz || b.dz, a.of_ || b.of_, a.uf || b.uf, a.nx || b.nx⟩

/-- `NV` of a signalling operand (R91). -/
def Flags.sig (b : Bool) : Flags := ⟨b, false, false, false, false⟩

def Flags.bits (a : Flags) : BitVec 5 :=
  BitVec.ofNat 5 (a.nv.toNat + 2 * a.dz.toNat + 4 * a.of_.toNat + 8 * a.uf.toNat + 16 * a.nx.toNat)

/-- A rounded result: its code and the flags it raises. -/
structure FRes where
  bits : Nat
  flags : Flags
  deriving DecidableEq, Repr

/-- Canonical NaN (R78). -/
def FFmt.nan (f : FFmt) : Nat := (2 ^ f.eb - 1) * 2 ^ f.fb + 2 ^ (f.fb - 1)
def FFmt.sign (f : FFmt) (neg : Bool) : Nat := if neg then 2 ^ (f.eb + f.fb) else 0
def FFmt.inf (f : FFmt) (neg : Bool) : Nat := f.sign neg + (2 ^ f.eb - 1) * 2 ^ f.fb
def FFmt.max (f : FFmt) (neg : Bool) : Nat := f.sign neg + (2 ^ f.eb - 1) * 2 ^ f.fb - 1
def FFmt.zero (f : FFmt) (neg : Bool) : Nat := f.sign neg

/-- Whether a magnitude `q + r/den` (0 ≤ r < den) rounds up to `q + 1`. -/
def roundsUp (rm : RMode) (neg : Bool) (q r den : Nat) : Bool :=
  match rm with
  | .rne => decide (2 * r > den) || (decide (2 * r = den) && q % 2 == 1)
  | .rtz => false
  | .rdn => neg && r != 0
  | .rup => !neg && r != 0

/-- Numerator and denominator of `num / den × 2^k`. -/
def shiftRat (num den : Nat) (k : Int) : Nat × Nat :=
  if k ≥ 0 then (num * 2 ^ k.toNat, den) else (num, den * 2 ^ (-k).toNat)

/-- floor(log2 (num / den)) for positive numbers. -/
def log2Rat (num den : Nat) : Int :=
  let k : Int := (Nat.log2 num : Int) - Nat.log2 den
  let (n, d) := shiftRat num den (-k)
  if d ≤ n then k else k - 1

/-- What an overflow gives (R89). -/
def FFmt.overflow (f : FFmt) (neg : Bool) (rm : RMode) : Nat :=
  match rm with
  | .rne => f.inf neg
  | .rtz => f.max neg
  | .rdn => if neg then f.inf neg else f.max neg
  | .rup => if neg then f.max neg else f.inf neg

/-- round((−1)^neg × num/den × 2^e, f, rm), num > 0, rounded once to an IEEE format, with the flags of R92; underflow
is detected after rounding (R90). -/
def FFmt.roundRat (f : FFmt) (rm : RMode) (neg : Bool) (num den : Nat) (e : Int) : FRes :=
  let emin : Int := 1 - (f.bias : Int)
  let l := log2Rat num den + e
  let ex := if l < emin then emin else l
  let qe := ex - f.fb
  let (n, d) := shiftRat num den (e - qe)
  let q := n / d
  let r := n % d
  let q' := if roundsUp rm neg q r d then q + 1 else q
  let code := (ex - emin).toNat * 2 ^ f.fb + q'
  if code ≥ (2 ^ f.eb - 1) * 2 ^ f.fb then ⟨f.overflow neg rm, ⟨false, false, true, false, true⟩⟩
  else
    let (n2, d2) := shiftRat num den (e - (l - f.fb))
    let q2 := if roundsUp rm neg (n2 / d2) (n2 % d2) d2 then n2 / d2 + 1 else n2 / d2
    let tiny := decide (l < emin) && !(decide (l = emin - 1) && q2 == 2 ^ (f.fb + 1))
    ⟨f.sign neg + code, ⟨false, false, false, tiny && r != 0, r != 0⟩⟩

/-- An exact dyadic number n × 2^e. -/
structure Dyad where
  n : Int
  e : Int
  deriving DecidableEq, Repr

def Dyad.zero : Dyad := ⟨0, 0⟩

def Dyad.add (a b : Dyad) : Dyad :=
  if a.e ≤ b.e then ⟨a.n + b.n * 2 ^ (b.e - a.e).toNat, a.e⟩
  else ⟨a.n * 2 ^ (a.e - b.e).toNat + b.n, b.e⟩

def Dyad.mul (a b : Dyad) : Dyad := ⟨a.n * b.n, a.e + b.e⟩

def Dyad.ofSM (neg : Bool) (m : Nat) (e : Int) : Dyad := ⟨if neg then -(m : Int) else m, e⟩

/-- round(a non-zero dyadic, f, rm). -/
def FFmt.roundDyad (f : FFmt) (rm : RMode) (d : Dyad) : FRes := f.roundRat rm (decide (d.n < 0)) d.n.natAbs 1 d.e

/-- round(x, integer, rm) of a dyadic: the integer and whether it is inexact. -/
def Dyad.toInt (rm : RMode) (d : Dyad) : Int × Bool :=
  if d.e ≥ 0 then (d.n * 2 ^ d.e.toNat, false)
  else
    let neg := decide (d.n < 0)
    let den := 2 ^ (-d.e).toNat
    let q := d.n.natAbs / den
    let r := d.n.natAbs % den
    let m : Int := if roundsUp rm neg q r den then q + 1 else q
    (if neg then -m else m, r != 0)

/-- Product of two values (R89): NaN, or 0 × ∞, gives NaN; `sig` records a signalling operand. -/
def FVal.mul (a b : FVal) : FVal :=
  match a, b with
  | .nan s, .nan t => .nan (s || t)
  | .nan s, _ => .nan s
  | _, .nan s => .nan s
  | .inf x, .inf y => .inf (x != y)
  | .inf x, .fin y m _ => if m = 0 then .nan false else .inf (x != y)
  | .fin y m _, .inf x => if m = 0 then .nan false else .inf (x != y)
  | .fin x m e, .fin y n k => .fin (x != y) (m * n) (e + k)

def FVal.neg : FVal → FVal
  | .nan s => .nan s
  | .inf n => .inf (!n)
  | .fin n m e => .fin (!n) m e

/-- How the sign of an exact zero sum is found: R89's rule, or IEEE addition's (equal signs keep the sign). -/
inductive ZeroRule where
  | r89 | ieee
  deriving DecidableEq, Repr

/-- The exact sum of finite values. -/
def exactSum (ts : List FVal) : Dyad :=
  ts.foldl (fun acc t => match t with
    | .fin n m e => acc.add (Dyad.ofSM n m e)
    | _ => acc) Dyad.zero

/-- Sign of an exact zero sum (R89; R137, R142). -/
def zeroSign (z : ZeroRule) (rm : RMode) (ts : List FVal) : Bool :=
  let allNeg := ts.all fun t => t.isZero && t.neg?
  match z with
  | .r89 => (allNeg && !ts.isEmpty) || rm == .rdn
  | .ieee => allNeg || (rm == .rdn && !(ts.all fun t => t.isZero && !t.neg?))

/-- The rounded exact sum of values (R86, R89, R142): special values on the whole sum at once. `NV` is raised by a signalling
NaN and by infinities of both signs, beside a quiet NaN too. -/
def FFmt.sum (f : FFmt) (z : ZeroRule) (rm : RMode) (ts : List FVal) : FRes :=
  let pos := ts.any fun t => t == .inf false
  let neg := ts.any fun t => t == .inf true
  if ts.any FVal.isNan || (pos && neg) then ⟨f.nan, Flags.sig (ts.any FVal.isSig || (pos && neg))⟩
  else
    if pos then ⟨f.inf false, Flags.none⟩
    else if neg then ⟨f.inf true, Flags.none⟩
    else
      let d := exactSum ts
      if d.n = 0 then ⟨f.zero (zeroSign z rm ts), Flags.none⟩ else f.roundDyad rm d

/-- a + b (R90, R137). -/
def FFmt.add (f : FFmt) (rm : RMode) (a b : Nat) : FRes := f.sum .ieee rm [f.read a, f.read b]
/-- a − b. -/
def FFmt.sub (f : FFmt) (rm : RMode) (a b : Nat) : FRes := f.sum .ieee rm [f.read a, (f.read b).neg]

/-- a × b + c with one rounding; `NV` for 0 × ∞ whatever c (R92). -/
def FFmt.fma (f : FFmt) (rm : RMode) (a b c : Nat) : FRes :=
  let x := f.read a
  let y := f.read b
  let p := x.mul y
  let bad := p.isNan && !x.isNan && !y.isNan
  let r := f.sum .ieee rm [p, f.read c]
  ⟨r.bits, r.flags.or (Flags.sig bad)⟩

/-- a × b. -/
def FFmt.mul (f : FFmt) (rm : RMode) (a b : Nat) : FRes :=
  let x := f.read a
  let y := f.read b
  match x.mul y with
  | .nan s => ⟨f.nan, Flags.sig (s || (!x.isNan && !y.isNan))⟩
  | .inf n => ⟨f.inf n, Flags.none⟩
  | .fin n m e => if m = 0 then ⟨f.zero n, Flags.none⟩ else f.roundRat rm n m 1 e

/-- a < b for values that are not NaN; −0 = +0. -/
def FVal.lt (a b : FVal) : Bool :=
  match a, b with
  | .inf true, .inf true => false
  | .inf true, _ => true
  | _, .inf false => a != .inf false
  | .inf false, _ => false
  | _, .inf true => false
  | .fin x m e, .fin y n k =>
    decide (((Dyad.ofSM x m e).add (Dyad.ofSM (!y) n k)).n < 0)
  | _, _ => false

/-- a = b for values that are not NaN; −0 = +0. -/
def FVal.eqv (a b : FVal) : Bool := !a.isNan && !b.isNan && !a.lt b && !b.lt a

/-- a is the smaller in VMIN's order, with −0 below +0 (R91). -/
def FVal.below (a b : FVal) : Bool := a.lt b || (a.eqv b && a.neg? && !b.neg?)

/-- VMIN and VMAX (R91). -/
def FFmt.minMax (f : FFmt) (isMax : Bool) (a b : Nat) : FRes :=
  let x := f.read a
  let y := f.read b
  let fl := Flags.sig (x.isSig || y.isSig)
  if x.isNan && y.isNan then ⟨f.nan, fl⟩
  else if x.isNan then ⟨b, fl⟩
  else if y.isNan then ⟨a, fl⟩
  else if isMax then ⟨if x.below y then b else a, fl⟩
  else ⟨if y.below x then b else a, fl⟩

/-- The extreme of a list of codes under R91; the canonical NaN if every value is NaN. -/
def FFmt.extreme (f : FFmt) (isMax : Bool) : List Nat → FRes
  | [] => ⟨f.nan, Flags.none⟩
  | [a] => if (f.read a).isNan then ⟨f.nan, Flags.sig (f.read a).isSig⟩ else ⟨a, Flags.none⟩
  | a :: as =>
    let r := f.extreme isMax as
    let q := f.minMax isMax a r.bits
    ⟨q.bits, q.flags.or r.flags⟩

/-- VABS and VNEG (R137). -/
def FFmt.abs (f : FFmt) (a : Nat) : FRes :=
  if (f.read a).isNan then ⟨f.nan, Flags.sig (f.read a).isSig⟩ else ⟨a % 2 ^ (f.eb + f.fb), Flags.none⟩
def FFmt.negate (f : FFmt) (a : Nat) : FRes :=
  if (f.read a).isNan then ⟨f.nan, Flags.sig (f.read a).isSig⟩
  else ⟨(a + 2 ^ (f.eb + f.fb)) % 2 ^ f.width, Flags.none⟩

/-! ### Transcendental functions (R144)

2^x and log2 x are irrational where they are not exact, so a fixed-point value with 256 fraction bits and a sticky bit
below it rounds as the exact value does (log 12). -/

/-- Fraction bits of the fixed-point evaluation. -/
def fixBits : Nat := 256

/-- Σ z^(2k+1)/(2k+1) over `n` terms from term `k`, in fixed point: artanh z. -/
def atanhSeries : Nat → Nat → Nat → Nat → Nat
  | 0, _, _, _ => 0
  | n + 1, k, t, z2 => t / (2 * k + 1) + atanhSeries n (k + 1) (t * z2 / 2 ^ fixBits) z2

/-- ln(num/den) for 1 ≤ num/den ≤ 2, in fixed point: 2 artanh((x − 1)/(x + 1)). -/
def lnFix (num den : Nat) : Nat :=
  let z := (num - den) * 2 ^ fixBits / (num + den)
  2 * atanhSeries 90 0 z (z * z / 2 ^ fixBits)

/-- Σ x^k/k! over `n` terms from term k, in fixed point. -/
def expSeries : Nat → Nat → Nat → Nat → Nat
  | 0, _, _, _ => 0
  | n + 1, k, t, x => t + expSeries n (k + 1) (t * x / 2 ^ fixBits / (k + 1)) x

/-- 2^a with |a| clamped to 2000, beyond every format's range. -/
def FFmt.exp2 (f : FFmt) (rm : RMode) (a : Nat) : FRes :=
  match f.read a with
  | .nan s => ⟨f.nan, Flags.sig s⟩
  | .inf n => if n then ⟨f.zero false, Flags.none⟩ else ⟨f.inf false, Flags.none⟩
  | .fin neg m e =>
    let d := Dyad.ofSM neg m e
    -- integer part toward −∞, and fraction in fixed point
    let (n, r, den) : Int × Nat × Nat :=
      if e ≥ 0 then (if m = 0 then 0 else if e > 12 then (if neg then -2000 else 2000) else d.n * 2 ^ e.toNat, 0, 1)
      else
        let den : Nat := 2 ^ (-e).toNat
        (d.n / (den : Int), (d.n % (den : Int)).toNat, den)
    let n := if n > 2000 then 2000 else if n < -2000 then -2000 else n
    if r = 0 then f.roundRat rm false 1 1 n
    else
      let x := r * lnFix 2 1 / den
      f.roundRat rm false (2 * expSeries 70 0 (2 ^ fixBits) x + 1) 1 (n - (fixBits + 1 : Nat))

/-- log2 a. -/
def FFmt.log2 (f : FFmt) (rm : RMode) (a : Nat) : FRes :=
  match f.read a with
  | .nan s => ⟨f.nan, Flags.sig s⟩
  | .inf n => if n then ⟨f.nan, Flags.invalid⟩ else ⟨f.inf false, Flags.none⟩
  | .fin neg m e =>
    if m = 0 then ⟨f.inf true, Flags.divZero⟩
    else if neg then ⟨f.nan, Flags.invalid⟩
    else
      let k := Nat.log2 m
      let ex := e + k
      if m = 2 ^ k then
        if ex = 0 then ⟨f.zero false, Flags.none⟩ else f.roundRat rm (decide (ex < 0)) ex.natAbs 1 0
      else
        let l := lnFix m (2 ^ k) * 2 ^ fixBits / lnFix 2 1
        let tot := ex * 2 ^ fixBits + l
        f.roundRat rm (decide (tot < 0)) (2 * tot.natAbs + 1) 1 (-((fixBits + 1 : Nat) : Int))

/-- 1/a. -/
def FFmt.rcp (f : FFmt) (rm : RMode) (a : Nat) : FRes :=
  match f.read a with
  | .nan s => ⟨f.nan, Flags.sig s⟩
  | .inf n => ⟨f.zero n, Flags.none⟩
  | .fin neg m e =>
    if m = 0 then ⟨f.inf neg, Flags.divZero⟩ else f.roundRat rm neg 1 m (-e)

/-- 1/√a. -/
def FFmt.rsqrt (f : FFmt) (rm : RMode) (a : Nat) : FRes :=
  match f.read a with
  | .nan s => ⟨f.nan, Flags.sig s⟩
  | .inf n => if n then ⟨f.nan, Flags.invalid⟩ else ⟨f.zero false, Flags.none⟩
  | .fin neg m e =>
    if m = 0 then ⟨f.inf neg, Flags.divZero⟩
    else if neg then ⟨f.nan, Flags.invalid⟩
    else
      let (m, e) := if e % 2 = 0 then (m, e) else (2 * m, e - 1)
      let q := Nat.sqrt (2 ^ 128 / m)
      let sticky := if q * q * m = 2 ^ 128 then 0 else 1
      f.roundRat rm false (2 * q + sticky) 1 (-(e / 2) - 65)

/-! ### Integers and conversions -/

/-- sext(x, w) of the low `w` bits. -/
def sext (x w : Nat) : Int :=
  let x := x % 2 ^ w
  if w ≥ 1 && x ≥ 2 ^ (w - 1) then (x : Int) - 2 ^ w else x

/-- Two's-complement word of an integer. -/
def wrap32 (i : Int) : Word := BitVec.ofInt 32 i

/-- sat(i, lo, hi) and whether it clamped. -/
def clamp (lo hi i : Int) : Int × Bool :=
  if i < lo then (lo, true) else if i > hi then (hi, true) else (i, false)

/-- sat(i, w) as two's complement and whether it clamped. -/
def satS (w : Nat) (i : Int) : Int × Bool := clamp (-(2 ^ (w - 1))) (2 ^ (w - 1) - 1) i

/-- VCVT from an integer to a float type (R93). -/
def FFmt.ofInt (f : FFmt) (rm : RMode) (i : Int) : FRes :=
  if i = 0 then ⟨0, Flags.none⟩ else f.roundRat rm (decide (i < 0)) i.natAbs 1 0

/-- VCVT from a float to an integer range (R93): saturation sets `NV` and not `NX`; NaN gives 0 with `NV`. -/
def FFmt.toIntRange (f : FFmt) (rm : RMode) (lo hi : Int) (a : Nat) : Int × Flags :=
  match f.read a with
  | .nan _ => (0, Flags.invalid)
  | .inf n => (if n then lo else hi, Flags.invalid)
  | .fin neg m e =>
    let (i, nx) := (Dyad.ofSM neg m e).toInt rm
    let (j, s) := clamp lo hi i
    if s then (j, Flags.invalid) else (j, if nx then Flags.inexact else Flags.none)

/-- A float of one format rounded to another (R93, R94). -/
def FFmt.convert (src dst : FFmt) (rm : RMode) (a : Nat) : FRes :=
  match src.read a with
  | .nan s => ⟨dst.nan, Flags.sig s⟩
  | .inf n => ⟨dst.inf n, Flags.none⟩
  | .fin neg m e => if m = 0 then ⟨dst.zero neg, Flags.none⟩ else dst.roundRat rm neg m 1 e

/-! ### FX128 (R97, R98) -/

/-- An FX128 integer kept in range: the value and whether it was counted in `FX_SAT`. -/
def fxClamp (i : Int) : Int × Bool := satS 128 i

/-- An FX128 sum (R98). -/
def fxAdd (a b : BitVec 128) : BitVec 128 × Bool :=
  let (i, s) := fxClamp (a.toInt + b.toInt)
  (BitVec.ofInt 128 i, s)

/-- A value entering FX128 with window exponent `w` (R98). -/
def fxOfVal (w : Int) (v : FVal) : BitVec 128 × Bool :=
  match v with
  | .nan _ => (0, true)
  | .inf n => (BitVec.ofInt 128 (if n then -(2 ^ 127) else 2 ^ 127 - 1), true)
  | .fin neg m e =>
    let (i, _) := (Dyad.ofSM neg m (e + 127 - w)).toInt .rne
    let (j, s) := fxClamp i
    (BitVec.ofInt 128 j, s)

/-! ### Array operands (R74 to R81) -/

/-- Element i of width w in a byte string read as one little-endian bit string (R74). -/
def bitField (bytes : List Byte) (lo w : Nat) : Nat :=
  let first := lo / 8
  let chunk := (bytes.drop first).take (w / 8 + 2)
  let v := chunk.foldr (fun b acc => b.toNat + 256 * acc) 0
  v / 2 ^ (lo % 8) % 2 ^ w

/-- The float format of a code of R77. -/
def floatFmt : Nat → FFmt
  | 6 => fBf16 | 7 => fFp16 | 8 => fE4m3 | 9 => fE5m2 | 10 => fE3m2 | 11 => fE2m3 | _ => fE2m1

/-- Width of an element of a format code with width field `wd` (R75, R77, R79, R80). -/
def elemWidth (fmt wd : Nat) : Nat :=
  match fmt with
  | 0 | 1 | 13 => wd + 1
  | 2 => 1
  | 3 => 2
  | 4 => 4
  | 5 => 8
  | 6 | 7 => 16
  | 8 | 9 => 8
  | 10 | 11 => 6
  | _ => 4

/-- The integer value of a code of the integer family (R75, R76). -/
def intValue (fmt w x : Nat) : Int :=
  match fmt with
  | 0 => x
  | 1 => sext x w
  | 2 => if x = 0 then -1 else 1
  | _ => if x = 1 then 1 else if x = 3 then -1 else 0

/-- The value of a code of the float family; `ex` is the BFP block exponent (R77, R79). -/
def floatValue (fmt w x ex : Nat) : FVal :=
  if fmt = 13 then
    let i := sext x w
    .fin (decide (i < 0)) i.natAbs ((ex : Int) - 127 - ((w : Int) - 2))
  else (floatFmt fmt).read x

/-! ### Block-scaled storage (R95, R96) -/

/-- An element of a block times its scale, as BF16 (R96). -/
def blockScaled (fmt : FFmt) (e4m3 : Bool) (scale x : Nat) : Nat :=
  let v := fmt.read x
  if e4m3 then
    match fE4m3.read scale with
    | .nan _ => fBf16.nan
    | s =>
      if s.isZero then
        match v with
        | .fin n _ _ => fBf16.zero n
        | _ => fBf16.nan
      else
        match v.mul s with
        | .nan _ => fBf16.nan
        | .inf n => fBf16.inf n
        | .fin n m e => if m = 0 then fBf16.zero n else (fBf16.roundRat .rne n m 1 e).bits
  else if scale = 255 then fBf16.nan
  else
    match v.mul (.fin false 1 ((scale : Int) - 127)) with
    | .nan _ => fBf16.nan
    | .inf n => fBf16.inf n
    | .fin n m e => if m = 0 then fBf16.zero n else (fBf16.roundRat .rne n m 1 e).bits

/-- The block is counted in `BS_SCALE` (R96). -/
def blockCounted (e4m3 : Bool) (scale : Nat) : Bool :=
  if e4m3 then (fE4m3.read scale).isNan || (fE4m3.read scale).isZero else scale == 255

end Sys2Proof.Machine
end

