-- ==== Sys2Proof/Machine/State.lean ====
section
/-! DEFINITION. The state of one Comb-1 wafer: every piece of state the spec gives the part, as plain data.
Structures come from the small to the large: context, tile, port, front end, part. Each field's docstring names
the rule that gives it and its reset value. Ticks are counts of comb time or of the reference clock, as Nat. -/

namespace Sys2Proof.Machine

/-- A memory in canonical form: addresses strictly rising, no entry equal to 0, which an unlisted address reads as. -/
abbrev Memory := List Host.Cell

/-! ### Pending results and context items -/

/-- What a pending result writes when it commits (R4, R48, R49). -/
inductive Dst where
  /-- an s-register -/
  | s (r : Fin 32) (v : Word)
  /-- an a-register -/
  | a (r : Fin 8) (v : VAddr)
  /-- the enabled lanes of a v-register (R136) -/
  | v (r : Fin 16) (lanes : Word) (val : Vec)
  /-- a lane mask -/
  | m (r : Fin 8) (v : Word)
  /-- a predicate (R102) -/
  | p (r : Fin 16) (v : Bool)
  /-- the whole mask stack, top first (R146) -/
  | stack (v : List Word)
  /-- STATUS flags set, ERR in bit 5 (R92, R110, R117) -/
  | flags (v : BitVec 6)
  deriving DecidableEq, Repr

/-- A pending result: due tick and issue tick in task ticks, slot of issue (R4, R49). -/
structure Commit where
  due : Nat
  tt : Nat
  slot : Nat
  dst : Dst
  deriving DecidableEq, Repr

/-- A byte of the store-history buffer (R51): physical offset, the byte before the write, the writing bundle's
task tick and the write's latency (2; 4 for LDACC, R224). -/
structure HistByte where
  addr : Nat
  old : Byte
  tt : Nat
  lat : Nat
  deriving DecidableEq, Repr

/-- One open loop level (R101, R152). -/
structure LoopLevel where
  rem : Word
  start : VAddr
  len : BitVec 12
  deriving DecidableEq, Repr

/-- A transfer of R50 over its delay bundles, or PXFR (R156): target, bundles still to issue before it, whether it is
taken, whether it is an ERET (R157), and the transferring bundle (R47). -/
structure Xfer where
  target : VAddr
  count : Nat
  taken : Bool
  eret : Bool
  src : VAddr
  deriving DecidableEq, Repr

/-- A fault or trap as CAUSE and FINFO record it (R111, R375), with FPC. -/
structure FaultRec where
  cause : Word
  finfo : Word
  fpc : VAddr
  deriving DecidableEq, Repr

/-- A pending-fault place in use (R377). -/
structure PendFault where
  flt : FaultRec
  /-- real tick of the report -/
  tick : Nat
  deriving DecidableEq, Repr

/-- A collective a VIEWCHANGE trap touched: its counter, destination buffer and command id (R164, R340). -/
structure VcWait where
  cn : Option (Fin 16)
  dst : Fin 32
  id : Nat
  deriving DecidableEq, Repr

/-- A pending VIEWCHANGE trap (R340), one per view slot. -/
structure VcTrap where
  sw : Fin 256
  ovt : BitVec 16
  newTag : BitVec 16
  fin : Bool
  exp : Bool
  md : Bool
  can : Bool
  waits : List VcWait
  deriving DecidableEq, Repr

/-- A PHASE marker in one engine queue (R169): 0 MXU, 1 copy, 2 channel; commands ahead have ids below `upto`;
`wait` lists those of the context not yet retired. -/
structure Marker where
  queue : Fin 3
  upto : Nat
  wait : List Nat
  deriving DecidableEq, Repr

/-- A PUBLISH that owes a mask register its FMAP (R239). -/
structure MaskPub where
  id : Nat
  buf : Fin 32
  mreg : Fin 8
  /-- the tag and FMAP the publish produced, once it has taken effect -/
  val : Option (BitVec 8 × Word)
  tt : Nat
  deriving DecidableEq, Repr

/-- Where a context stands (R159, R379 to R382). -/
inductive CtxState where
  /-- no task -/
  | free
  /-- it has a task that may issue or be held at a wait -/
  | active
  /-- stopped by R158, not yet ended by the queen core -/
  | stopped
  /-- its task has ended (R155) -/
  | halted
  /-- pre-emption taken, draining (R381) -/
  | draining
  /-- saved and out (R383) -/
  | out
  /-- held by a migration (R322) -/
  | frozen
  deriving DecidableEq, Repr

/-- The three 64-bit halves captures of R108: the item's L-half CSR and its whole value. -/
structure Capture where
  low : Csr
  val : BitVec 64
  deriving DecidableEq, Repr

/-- A context (R101, R104, R109, R359, R377). -/
structure Context where
  /-- s0 to s31 — 32 bits each — R101 — 0 at task start -/
  s : Vector Word 32
  /-- a0 to a7 — 48 bits each — R101 — 0 -/
  a : Vector VAddr 8
  /-- v0 to v15 — 32 lanes of 32 bits — R101 — 0 -/
  v : Vector Vec 16
  /-- m0 to m7 — 32 bits each — R101 — 0; m0 reads all ones -/
  m : Vector Word 8
  /-- p0 to p15 — 1 bit each — R101, R102 — 0; p0 reads 1 -/
  p : Vector Bool 16
  /-- mask stack, top first — up to 8 of 32 bits — R103 — empty -/
  stack : List Word
  /-- pending results in due order — R4, R48, R49 — none -/
  pend : List Commit
  /-- store-history buffer — R51 — empty -/
  hist : List HistByte
  /-- PC — 48 bits — R29 — 0 until a launch sets the entry point (R23) -/
  pc : VAddr
  /-- task tick — 64 bits, a count — R3, R359 — 0 -/
  tt : Nat
  /-- loop state, innermost level first — two levels — R101, R152 — idle -/
  loops : List LoopLevel
  /-- ERET has transferred: IT falls as the bundle at EPC issues — R157 — no -/
  itClear : Bool
  /-- the transfer whose delay bundles are issuing — R50 — none -/
  xfer : Option Xfer
  /-- PXFR — R156 — invalid -/
  pxfr : Option Xfer
  /-- the LIVE bundle fetch must consume before the next bundle — R44, R45 — none -/
  liveDue : Option VAddr
  /-- LIVE mask of the latest safe-point bundle — 256 bits — R44 — 0 -/
  live : BitVec 256
  /-- STATUS — 32 bits — R110 — 0 -/
  status : Word
  /-- ROUND — 32 bits — R90, R109 — 0 -/
  round : Word
  /-- CAUSE — 32 bits — R111 — 0 -/
  cause : Word
  /-- FINFO — 32 bits — R375 — 0 -/
  finfo : Word
  /-- FPC — 48 bits — R109 — 0 -/
  fpc : VAddr
  /-- EPC — 48 bits — R109, R156 — 0 -/
  epc : VAddr
  /-- TRAPV — 48 bits — R109 — 0 -/
  trapv : VAddr
  /-- RUNDECL — 32 bits — R113 — 0 -/
  rundecl : Word
  /-- OVRCNT — 16 bits used — R109, R163 — 0 -/
  ovrcnt : Word
  /-- task tick of the latest YIELD with a run, and whether its overrun and double overrun were taken — R163 — none -/
  declAt : Option Nat
  overrun : Bool
  overPre : Bool
  /-- heap window base — 48 bits — R109, R198 — launch; 0 before -/
  hbase : VAddr
  /-- heap window limit — 48 bits — R109, R198 — launch; 0 before -/
  hlimit : VAddr
  /-- heap window offset — 42 bits — R109, R397 — launch; 0 before -/
  hoffset : BitVec 42
  /-- WALKER — 32 bits — R112 — launch; 0 before -/
  walker : Word
  /-- LAUNCH — 32 bits — R113 — launch; 0 before -/
  launch : Word
  /-- LORG — 32 bits — R112 — launch; 0 before -/
  lorg : Word
  /-- LEXT — 32 bits — R112 — launch; 0 before -/
  lext : Word
  /-- RANK — 32 bits — R113, R162 — launch; 0 before -/
  rank : Word
  /-- captures of 64-bit items by their L half — R108 — none -/
  caps : List Capture
  /-- c0 to c15 — 8 bits each — R359, R360 — 0 -/
  cnt : Vector (BitVec 8) 16
  /-- WACK — 16 bits — R361 — 0 -/
  wack : BitVec 16
  /-- phase flag — 1 bit — R362 — 1 -/
  phase : Bool
  /-- the phase flag rises on the next tick — R169, R362 — no -/
  phaseDue : Bool
  /-- PHASE markers not yet retired — R169 — none -/
  markers : List Marker
  /-- id bounds of the latest PHASE's MXU and copy markers — R239, R254 — none -/
  phaseMxu : Option Nat
  phaseCopy : Option Nat
  /-- PUBLISHes that owe a mask register — R239 — none -/
  mpubs : List MaskPub
  /-- TLSIGs not acknowledged by the queen core — R451 — 0 -/
  tlOut : Nat
  /-- pending-fault places for the MXU, copy and channel queue — R377 — empty -/
  faults : Vector (Option PendFault) 3
  /-- faults reported after the task had ended, on their way to the launch's fault record — R379 — none -/
  late : List FaultRec
  /-- pending VIEWCHANGE traps — R340 — none -/
  vcTraps : List VcTrap
  /-- a VIEWCHANGE trap was dropped at halt — R340 — no -/
  vcDropped : Bool
  /-- where the context stands — R159 — free -/
  st : CtxState
  /-- it is held at a wait whose condition was false — R52 — no -/
  held : Bool
  /-- its last issued bundle was a safe point — R380 — no -/
  safe : Bool
  /-- pending pre-emption: request tick, and whether its reason is a run overrun — R380, R163 — none -/
  preReq : Option (Nat × Bool)
  /-- comb tick since which it is ready and has not issued — R161, R162 — none -/
  readySince : Option Nat
  /-- the launch (an index of State.launches) it runs for — R21 — none -/
  lid : Option Nat
  deriving DecidableEq, Repr

/-! ### Memories of the tile -/

/-- Modes of an ACM row (R84). -/
inductive AccMode where
  | clear | i32sat | i32wrap | fp32
  deriving DecidableEq, Repr

/-- A pending commit of an ACM row (R182, R183, R253). -/
structure AccPend where
  due : Nat
  cols : BitVec 128
  entries : Row
  mode : AccMode
  ft : BitVec 6
  /-- the MXU command that placed it -/
  id : Nat
  /-- real tick on which the pass has formed it -/
  formed : Nat
  deriving DecidableEq, Repr

/-- An ACM row (R84, R182): visible entries, mode, fraction tag, pending commits in due order. -/
structure AccRow where
  entries : Row
  mode : AccMode
  ft : BitVec 6
  pend : List AccPend
  deriving DecidableEq, Repr

/-- A weight plane (R185, R245): K-rows of 16-bit entries, and the exponent bytes of BFP blocks. -/
structure Plane where
  e : Vector (Vector (BitVec 16) 128) 64
  x : Vector (Vector Byte 128) 4
  deriving DecidableEq, Repr

/-- A ring's state (R194), with the number of its entries the MXU queue has claimed (R249) and the fills whose
entries end out of order (R195): one flag per entry in flight, oldest first, true when it has ended. -/
structure Ring where
  base : BitVec 11
  esz : Byte
  nent : Byte
  head : Byte
  tail : Byte
  cnt : BitVec 9
  infl : BitVec 9
  v : Bool
  claimed : Nat
  ended : List (Nat × Bool)
  deriving DecidableEq, Repr

/-- A buffer-table entry (R189). -/
structure Buffer where
  base : BitVec 9
  size : Byte
  v : Bool
  fh : Bool
  tag : Byte
  sd : Bool
  wr : BitVec 4
  rd : BitVec 4
  fmap : Word
  smap : Word
  deriving DecidableEq, Repr

/-- A pending LDQ, seen by its context from task tick `due` and by others from real tick `real`; with none, by others too from
the tick on which its context reaches `due` (R133, log 61). -/
structure QPend where
  ctx : Fin 4
  due : Nat
  real : Option Nat
  reg : Fin 8
  val : Row
  deriving DecidableEq, Repr

/-- What a slot read does with its bytes when it performs on issue + 1 (R222 to R226, R132). -/
inductive ReadKind where
  /-- scalar load of 1, 2 or 4 bytes into s, sign-extended or not -/
  | scalar (rd : Fin 32) (bytes : Nat) (signed : Bool)
  /-- 32 words into a v-register -/
  | vec (vd : Fin 16)
  /-- a word into a mask register -/
  | mask (md : Fin 8)
  /-- 128 words into a scale register (R132) -/
  | scale (qd : Fin 8)
  /-- 512 bytes into an ACM row on issue + 2 (R225) -/
  | stacc (row : Fin 64)
  /-- an atomic on issue + 2 (R226): result register, operation, operand, and for CAS the new word -/
  | amo (rd : Fin 32) (op : AmoOp) (x : Word)
  | cas (rd : Fin 32) (x new : Word)
  deriving DecidableEq, Repr

/-- A slot byte address and the buffer it belongs to, decided on the issue tick (R220): its address while half 0 is
the front, and while half 1 is. -/
structure SlotByte where
  addr : Nat
  h1 : Nat
  buf : Option (Fin 32)
  deriving DecidableEq, Repr

/-- A slot access waiting for its perform tick (R51). -/
structure PendRead where
  tick : Nat
  ctx : Fin 4
  tt : Nat
  slot : Nat
  due : Nat
  bytes : List SlotByte
  kind : ReadKind
  deriving DecidableEq, Repr

/-- A slot write waiting for its perform tick (R51): ST-slot stores, the write of LDACC. -/
structure PendWrite where
  tick : Nat
  ctx : Fin 4
  tt : Nat
  lat : Nat
  data : List (SlotByte × Byte)
  deriving DecidableEq, Repr

/-- A STACC whose bytes have been read and whose row write performs on the next tick (R225). -/
structure PendStacc where
  tick : Nat
  ctx : Fin 4
  row : Fin 64
  entries : Row
  deriving DecidableEq, Repr

/-- An LDACC waiting to read its row on issue + 1 (R224). A read by the owner was taken on issue. -/
structure PendLdacc where
  tick : Nat
  ctx : Fin 4
  tt : Nat
  row : Fin 64
  img : Option Row
  bytes : List SlotByte
  deriving DecidableEq, Repr

/-- A line of the instruction cache (R186): line address / 256 of its heap physical address, its bytes, pin, last use. -/
structure ILine where
  tag : Nat
  data : List Byte
  pinned : Bool
  used : Nat
  deriving DecidableEq, Repr

/-- A slot of the code region (R187). -/
structure RegionSlot where
  tag : Nat
  pinned : Bool
  valid : Bool
  deriving DecidableEq, Repr

/-- An outstanding code-line request (R174, R175): level, physical line, pin mark, arrival tick, fetch miss of a context,
whether the first bank row of a fill of the code region has been written (R179), and whether the page was not resident as it was
translated, so that the line reads as zeros (R202). -/
structure CodeReq where
  region : Bool
  line : Nat
  pin : Bool
  ready : Nat
  miss : Option (Fin 4)
  half : Bool
  zero : Bool
  deriving DecidableEq, Repr

/-- A request of PREF or PIN whose page is on its way between stacks: it is outstanding, and its translation is held (R203). -/
structure HeldLine where
  ctx : Fin 4
  va : VAddr
  region : Bool
  pin : Bool
  deriving DecidableEq, Repr

/-- The bank-lock window (R172): groups, bundles still covered, context, and the tick after which it closes. -/
structure Lock where
  grp : BitVec 8
  left : Nat
  ctx : Fin 4
  openAt : Nat
  close : Option Nat
  deriving DecidableEq, Repr

/-! ### Engine queues -/

/-- How a queued command's guard stands (R31, R176). -/
inductive QGuard where
  | yes
  /-- bound to a predicate write of its own bundle: the predicate's bound value, and the guard's inversion -/
  | unresolved (val inv : Bool)
  /-- resolved true with a counter full: the overflow of R375 `Q`, `QI` is raised at the head -/
  | full (q qi : Nat)
  deriving DecidableEq, Repr

/-- The operation of an MXU command with the values it captured at issue (R252). -/
inductive MxOp where
  | prec (v : Word)
  | pmaskRow (v : BitVec 64)
  | pmaskCol (v : BitVec 128)
  | wswap
  | wld (delay : Byte) (ring : Fin 8) (wp : Fin 2) (ta : Bool)
  | mma (delay : Byte) (ring : Fin 8) (h : Fin 2) (ctl : AccCtl) (wp : Fin 2) (ta : Bool) (decay : Word) (q0 q1 : Row)
  | aclr (first cnt : Fin 64)
  | ascl (first cnt : Fin 64) (q : Row)
  | adrn (first cnt : Fin 64) (dst : Fin 32) (k : Bool) (fmt : DrainFmt)
  deriving DecidableEq, Repr

/-- A command in the MXU queue (R248 to R253). -/
structure MxCmd where
  id : Nat
  ctx : Fin 4
  fpc : VAddr
  tt : Nat
  tick : Nat
  guard : QGuard
  op : MxOp
  /-- the copy whose last byte a held command awaits (R38) -/
  held : Bool
  heldBy : Option Nat
  landed : Option Nat
  /-- tick on which it reached the head (R248) -/
  headAt : Option Nat
  deriving DecidableEq, Repr

/-- The array command that is running, with the inputs it took when it started (R252, R261). -/
structure MxRun where
  id : Nat
  start : Nat
  /-- tick on which it leaves the head and retires -/
  leave : Nat
  prec : Word
  colp : BitVec 128
  /-- bytes of the claimed ring entries (R252), and how many it claimed -/
  bytes : List Byte
  entries : Nat
  /-- ticks of one row: c of R246, d of R247 -/
  c : Nat
  /-- rows still to process: the tick, the index of the row, the ACM row -/
  todo : List (Nat × Nat × Fin 64)
  /-- owner's task tick at the start of the tick S of a held command (R253) -/
  tau : Nat
  /-- rows computed by ACLR and ASCL, committed when the command retires -/
  rows : List (Fin 64 × AccRow)
  /-- ring entry reserved by ADRN -/
  fill : Nat
  deriving DecidableEq, Repr

/-- 128 bytes that an ADRN has still to write (R266): tick, destination, offset in the ring entry or the shadow half. -/
structure Drain where
  tick : Nat
  id : Nat
  k : Bool
  dst : Fin 32
  entry : Nat
  off : Nat
  data : List Byte
  first : Bool
  last : Bool
  deriving DecidableEq, Repr

/-- The copy forms (R231). -/
inductive CopyForm where
  | cpy | cpyg | cpyx | cpyo
  deriving DecidableEq, Repr

/-- A TLB entry (R199): launch, page base and size, physical base, leaf attributes, last use. -/
structure TlbEntry where
  launch : Nat
  vbase : Nat
  size : Nat
  pbase : Nat
  res : Bool
  r : Bool
  w : Bool
  x : Bool
  lc : BitVec 3
  used : Nat
  deriving DecidableEq, Repr

/-- The outcome of a translation: the physical address with its page and attributes, or the refusal's reason and walk
level (R198, R375). -/
inductive Xlate where
  | ok (pa : Nat) (vbase size pbase : Nat) (res r w x : Bool) (lc : BitVec 3) (window mig : Bool)
  | fail (rsn lvl : Nat)
  deriving DecidableEq, Repr

/-- The operation of a copy-queue command with the values it read on issue (R227, R228, R238 to R240). -/
inductive CopyOp where
  /-- form, BUF, D0, D1, a[AB], ST -/
  | copy (form : CopyForm) (buf : Fin 32) (d0 d1 : Word) (addr : VAddr) (st : Bool)
  | bdcl (buf : Fin 32) (v : Word)
  | brel (buf : Fin 32)
  | publish (buf : Fin 32) (mk : Fin 8)
  | reqpg (addr : VAddr) (len : Word)
  deriving DecidableEq, Repr

/-- A command in the copy queue (R227). -/
structure CopyCmd where
  id : Nat
  ctx : Fin 4
  fpc : VAddr
  tick : Nat
  guard : QGuard
  op : CopyOp
  /-- it holds an MMA as its follow-on (R38) -/
  follow : Bool
  /-- the STATIC check waits for the head, because the guard was unresolved at issue (R176) -/
  late : Bool
  /-- translations made so far (R198, R229) -/
  xl : List TlbEntry
  deriving DecidableEq, Repr

/-- A copy in flight (R227, R232 to R237). -/
structure Flight where
  id : Nat
  ctx : Fin 4
  fpc : VAddr
  form : CopyForm
  follow : Bool
  /-- STATIC (R229) -/
  st : Bool
  /-- target of a comb-address transfer (R236) -/
  remote : Option TileId
  /-- destination ring, or the buffer -/
  ring : Option (Fin 8)
  buf : Fin 32
  /-- index of the first reserved ring entry -/
  entry : Nat
  /-- byte offset in the buffer half, byte count at the destination (CPYO: source) -/
  off : Nat
  len : Nat
  /-- heap or comb address, its translations, and a gather's index list -/
  addr : VAddr
  xl : List TlbEntry
  idx : List Word
  /-- D1 -/
  d1 : Word
  /-- bytes moved, the next tick on which a unit may move, the tick H of its start, the ticks that bank locks have held it (R230) -/
  done : Nat
  next : Nat
  start : Nat
  slip : Nat
  /-- a write to its buffer has started, or a read of it -/
  open_ : Bool
  /-- its command has retired and it only awaits the release of its MMA (R237) -/
  retired : Bool
  deriving DecidableEq, Repr

/-- A write-acknowledged command whose acknowledgement is outstanding (R212, R361): its id, context and tick; no tick
for a comb-address write, which counts the messages that its target has still to acknowledge. -/
structure AckDue where
  id : Nat
  peer : Option TileId
  ctx : Fin 4
  tick : Option Nat
  msgs : Nat
  deriving DecidableEq, Repr

/-- A REQPG that has left the head and awaits residency (R240). -/
structure PageReq where
  id : Nat
  ctx : Fin 4
  fpc : VAddr
  launch : Nat
  pages : List VAddr
  deriving DecidableEq, Repr

/-- A page walk of a copy command, or of a STATIC copy at issue (no command), or of a fetch (R198, R200, R229): its result
stands once it has completed. -/
structure Walk where
  ctx : Fin 4
  cmd : Option Nat
  va : Nat
  ready : Nat
  res : Option Xlate
  deriving DecidableEq, Repr

/-- The operation of a channel-queue command with the values it read on issue (R271). -/
inductive ChOp where
  | send (m : MsgOps)
  | sendr (m : MsgOps) (op : ReduceOp)
  | recv (m : MsgOps)
  | coll (m : MsgOps)
  | rgadv (rg : Fin 8) (n : Byte)
  | rgpop (rg : Fin 8) (n : Byte)
  | sig (ch : Fin 256) (sem : Fin 16) (inc : Byte)
  | tlsig (tl : Fin 1024) (amount : Word)
  | vwjoin (sw : Fin 256)
  | vwleave (sw : Fin 256)
  deriving DecidableEq, Repr

/-- A command in the channel queue (R271, R273). -/
structure ChCmd where
  id : Nat
  ctx : Fin 4
  fpc : VAddr
  tick : Nat
  guard : QGuard
  op : ChOp
  /-- it holds a credit (R273), given on tick `credAt` -/
  has : Bool
  credAt : Nat
  deriving DecidableEq, Repr

/-- An unretired engine command of a context: queue, tagged counter, whether it is a COLL (R169, R170, R360). -/
structure LiveCmd where
  id : Nat
  ctx : Fin 4
  queue : Fin 3
  tag : Option (Fin 16)
  coll : Bool
  wack : Bool
  deriving DecidableEq, Repr

/-! ### Links -/

/-- The lanes of a link (R275). -/
inductive Lane where
  | c | r
  deriving DecidableEq, Repr

/-- What a message belongs to: the tile, the context and the id of its command, the tile it goes to and the steering word with which it
started. The headers of R288 name no command; the model's flits carry it beside their 128 bits, so that answers find their command
and comb-address messages keep their order over a rewritten route (R110, R215, R218; log 86). -/
structure Origin where
  tile : TileId
  ctx : Fin 4
  id : Nat
  goal : TileId
  path : BitVec 64
  deriving DecidableEq, Repr

/-- A flit (R12, R287): lane, first and last marks, the 128-bit payload, and for a header its steering word (R310)
with the optical port it ends at, if any (R348), and what its message belongs to. -/
structure Flit where
  lane : Lane
  ff : Bool
  lf : Bool
  data : BitVec 128
  steer : BitVec 64
  port : Option (Fin 16)
  org : Option Origin
  deriving DecidableEq, Repr

/-- A message that an input lane is delivering to this tile (R190, R288, R290): its header, the target chosen for it,
payload bytes done, and whether it is dropped. -/
structure RxMsg where
  head : BitVec 128
  port : Option (Fin 16)
  /-- target: a ring entry or a buffer and offset; none when dropped -/
  ring : Option (Fin 8 × Nat)
  buf : Option (Fin 32 × Nat)
  /-- buffers that a comb-address write has open (R196) -/
  opened : List (Fin 32)
  started : Bool
  drop : Bool
  arm : Option Nat
  done : Nat
  /-- name of its fill in the ring (R195) -/
  fill : Nat
  org : Option Origin
  deriving DecidableEq, Repr

/-- A chunk of a collective (R302): the fields of its header and its payload flits. -/
structure Chunk where
  ch : Fin 256
  ph : Bool
  xf : Bool
  vt : BitVec 16
  inst : BitVec 16
  sh : BitVec 16
  fr : BitVec 16
  ne : BitVec 16
  eo : BitVec 16
  data : List (BitVec 128)
  deriving DecidableEq, Repr

/-- What becomes of an arriving chunk (R305). -/
inductive ChunkUse where
  | used | held | discarded
  deriving DecidableEq, Repr

/-- A chunk that an input delivers to a sequencer, with the payload flits done; of a chunk to be held, the flits kept. -/
structure ChunkRx where
  c : Chunk
  use : ChunkUse
  done : Nat
  deriving DecidableEq, Repr

/-- One lane of one input: flits on the link with their arrival ticks, the receive FIFO of 16 flits (R275), and the
message being delivered or passed on. Inputs are east, west, north, south, the tile's own and the edge port. -/
structure Input where
  wire : List (Nat × Flit)
  fifo : List Flit
  /-- lane C: the message being delivered; lane R: the chunk -/
  rx : Option RxMsg
  chunk : Option ChunkRx
  /-- output that the message passing through has bound (R310) -/
  out : Option (Fin 4)
  deriving DecidableEq, Repr

/-- One lane of one output (R310): the input bound to it, and the input it served last. -/
structure Output where
  bound : Option (Fin 6)
  /-- the message that has bound it has sent its header -/
  begun : Bool
  last : Fin 6
  /-- the lane sent the last flit of the link: lanes alternate (R275) -/
  sentLast : Bool
  deriving DecidableEq, Repr

/-- A message in transmission on lane C (R236, R271, R288, R289). -/
structure TxMsg where
  /-- its command; 0 with no context for an answer of the channel engine -/
  id : Nat
  ctx : Option (Fin 4)
  /-- channel whose INF it counts in -/
  ch : Option (Fin 256)
  steer : BitVec 64
  port : Option (Fin 16)
  head : BitVec 128
  /-- source: a buffer's front, or the scratchpad by comb address; first byte, source bytes, source bytes read -/
  buf : Option (Fin 32)
  src : Nat
  len : Nat
  rd : Nat
  /-- FX128 window of a SENDR that converts its elements (R293) -/
  fx : Option Byte
  /-- payload bytes read and not yet sent, payload bytes in all, flits sent -/
  data : List Byte
  size : Nat
  sent : Nat
  start : Nat
  /-- the command it belongs to; of an answer by comb address, the one that it answers (R110) -/
  org : Option Origin
  /-- it waits for the messages on the route that was rewritten (R218) -/
  held : Bool
  /-- the engine read of its source has begun (R190) -/
  open_ : Bool
  /-- the last message of its command -/
  final : Bool
  deriving DecidableEq, Repr

/-- A credit on its way back to this tile (R274): arrival tick and channel. -/
structure CreditWire where
  tick : Nat
  ch : Fin 256
  deriving DecidableEq, Repr

/-- A channel-table entry (R314) with its send window (R272). -/
structure Chan where
  v : Bool
  coll : Bool
  rt : Fin 256
  /-- MSZ: bytes / 4 − 1 -/
  msz : BitVec 13
  /-- TK: the target is a buffer -/
  tk : Bool
  tgt : BitVec 5
  toff : BitVec 14
  px : BitVec 9
  py : BitVec 9
  d : Byte
  win : Byte
  /-- ARM: armed receives, oldest first, each with its buffer, command id and context (R291, R450) -/
  arm : List (Fin 32 × Nat × Fin 4)
  sw : Fin 256
  rop : BitVec 3
  ck : BitVec 3
  om : BitVec 2
  root : BitVec 16
  inst : BitVec 16
  /-- send window CR, RSV, INF, DEF (R272) -/
  cr : Byte
  rsv : Byte
  inf : Byte
  df : BitVec 4
  /-- issuing contexts of the messages whose credits are out, oldest first (R451) -/
  out : List (Fin 4)
  /-- its route has been rewritten under messages on their way: the next one waits for them (R210, R218) -/
  hold : Bool
  deriving DecidableEq, Repr

/-- A tile-map cache entry (R317). -/
structure TmEntry where
  lx : BitVec 9
  ly : BitVec 9
  ver : Word
  legs : BitVec 64
  st : BitVec 2
  used : Nat
  /-- its place of the 24 (R308) -/
  slot : Nat
  deriving DecidableEq, Repr

/-- A view slot of a tile (R331). -/
structure ViewSlot where
  v : Bool
  lvl : Bool
  mode : Bool
  vc : Bool
  mb : Bool
  jp : Bool
  sw : Fin 256
  vt : BitVec 16
  rank : BitVec 16
  nm : BitVec 16
  win : Byte
  deriving DecidableEq, Repr

/-! ### Collectives -/

/-- A chunk that a member starts itself (R301, R303): travelling on or reducing, shard, first element, elements. -/
structure OwnChunk where
  ph : Bool
  sh : Nat
  eo : Nat
  ne : Nat
  deriving DecidableEq, Repr

/-- How an instance runs: by its own rules; FINISHed by a view change, receiving its result (R337); or sending the result
of a completed instance, which stands at an address, to a survivor that lacks it. -/
inductive RunMode where
  | normal
  | finishing
  | sending (base : Nat)
  deriving DecidableEq, Repr

/-- A collective instance that a ring sequencer runs (R299 to R306), with the entry and the view as they stood when it
started. -/
structure CollRun where
  id : Nat
  ctx : Fin 4
  ch : Fin 256
  inst : BitVec 16
  sw : Fin 256
  vt : BitVec 16
  src : Fin 32
  dst : Fin 32
  /-- byte offset in the destination half -/
  toff : Nat
  kind : Nat
  rop : Nat
  om : Nat
  root : Nat
  /-- elements, members, own rank -/
  m : Nat
  n : Nat
  rank : Nat
  win : Byte
  /-- the result is divided by `n` (R339) -/
  div : Bool
  /-- the successor is the optical port (R349) -/
  hive : Bool
  mode : RunMode
  /-- route number of the entry, and the route its chunk in progress took when it started (R310) -/
  rt : Fin 256
  steer : BitVec 64
  /-- it has passed its checks and waits at the queue head for its sequencer (R299) -/
  queued : Bool
  accepted : Nat
  /-- chunks to start; chunks still to arrive; flits of it in the sequencer's output -/
  own : List OwnChunk
  need : Nat
  outn : Nat
  /-- its engine read and write are open; result bytes still to write; where its writes go -/
  rdOpen : Bool
  wrOpen : Bool
  wrLeft : Nat
  wrBase : Nat
  /-- bytes of the contribution still to hand to the port -/
  portLeft : Nat
  /-- tick of its latest read, write or departing flit -/
  last : Nat
  deriving DecidableEq, Repr

/-- Who writes a chunk into a sequencer's output. -/
inductive SeqSrc where
  | own | held
  | input (i : Fin 6)
  deriving DecidableEq, Repr

/-- A flit in a sequencer's output: the first tick on which it may leave, its collective, the flit. -/
structure SeqFlit where
  ready : Nat
  run : Nat
  flit : Flit
  deriving DecidableEq, Repr

/-- A ring sequencer (R303, R305): collectives accepted, chunks held, the held chunk in use, the own chunk in progress
(its collective, the chunk, payload flits formed), the writer of its output, the output. -/
structure Seq where
  runs : List CollRun
  held : List Chunk
  act : Option ChunkRx
  own : Option (Nat × OwnChunk × Nat)
  writer : Option SeqSrc
  out : List SeqFlit
  deriving DecidableEq, Repr

/-- A collective that completed here: where its result stands and for which layout (R337). -/
structure CollDone where
  ch : Fin 256
  inst : BitVec 16
  sw : Fin 256
  vt : BitVec 16
  addr : Nat
  run : CollRun
  deriving DecidableEq, Repr

/-! ### The tile -/

/-- The arbiter's position (R159). -/
inductive Arb where
  /-- no context holds the issue width -/
  | idle
  /-- a context holds it, attempting from tick `go` -/
  | run (c : Fin 4) (go : Nat)
  /-- the wait attempt of the last tick failed; this tick retries -/
  | retry (c : Fin 4)
  /-- the arbiter chooses on tick `at_` -/
  | choose (at_ : Nat)
  deriving DecidableEq, Repr

/-- A soft error (R204): a word of scratchpad (0), ACM (1), table memory (2) or a plane entry (3), correctable or not. -/
structure Upset where
  mem : Fin 4
  addr : Nat
  ue : Bool
  deriving DecidableEq, Repr

/-- Users of the engine port (R179), in round-robin order. -/
inductive PortUser where
  | copy | channel | seq (i : Fin 4) | code | scrub
  deriving DecidableEq, Repr

/-- A logical tile (R18, R105, R308, R359). -/
structure Tile where
  /-- scratchpad — 65,536 bytes — R178 — DESIGN CHOICE 0 (log 2) -/
  spm : Memory
  /-- the scratchpad at the end of the previous tick — R180 — as spm -/
  spmPrev : Memory
  /-- slot accesses before their perform ticks — R51 — none -/
  reads : List PendRead
  writes : List PendWrite
  staccs : List PendStacc
  ldaccs : List PendLdacc
  /-- acc0 to acc63 — 128 × 32 bits, mode, FT, pending commits — R182 — clear -/
  acm : Vector AccRow 64
  /-- wp0, wp1 — 64 × 128 × 16 bits and exponent bytes — R185 — 0 -/
  wp : Vector Plane 2
  /-- q0 to q7 — 128 × 32 bits — R81, R105 — 0 -/
  q : Vector Row 8
  qpend : List QPend
  /-- precision register — 32 bits — R82 — 0 -/
  prec : Word
  /-- DECAY — 32 bits — R87, R105 — 0 -/
  decay : Word
  /-- rowp — 64 bits — R105 — all ones -/
  rowp : BitVec 64
  /-- colp — 128 bits — R105 — all ones -/
  colp : BitVec 128
  /-- MXOWN.OWN and MXOWN.V — 3 bits — R114 — 0 -/
  own : Fin 4
  ownV : Bool
  /-- the owner has halted or asked for release — R114 — no -/
  ownRel : Bool
  /-- rg0 to rg7 — 64 bits each — R194 — 0 -/
  rings : Vector Ring 8
  /-- b0 to b31 — 128 bits each — R189 — 0 -/
  bufs : Vector Buffer 32
  /-- sem0 to sem15 — 16 bits each — R363 — 0 -/
  sems : Vector (BitVec 16) 16
  /-- semaphores whose saturation has been counted on this tick — R364 — none -/
  semClip : BitVec 16
  /-- error counters 0x300 to 0x309 — 32 bits each — R116 — 0 -/
  err : Vector Word 10
  /-- PMC0 to PMC7 — 32 bits each — R370 — 0 -/
  pmc : Vector Word 8
  /-- PMSEL0 to PMSEL7 — 8 bits used — R371 — 0 -/
  pmsel : Vector Word 8
  /-- the three as they stood at the end of the previous tick, and the counters a CSR write of this tick fixes —
  R171, R369, R370 — as the registers, none -/
  errPrev : Vector Word 10
  pmcPrev : Vector Word 8
  pmselPrev : Vector Word 8
  /-- MXOWN at the end of the last tick, which a CSRR reads — 3 bits — R114, R171 — 0 -/
  mxownPrev : BitVec 3
  errLock : BitVec 10
  pmcLock : BitVec 8
  /-- instruction cache — 32 lines of 256 bytes — R186 — empty -/
  icache : List ILine
  /-- code region slots — 32 — R187 — none valid -/
  region : Vector RegionSlot 32
  /-- outstanding code requests, up to 4 with those held — R174, R175 — none -/
  code : List CodeReq
  /-- outstanding code requests held at the translation of a migrating page — R174, R203 — none -/
  codeHeld : List HeldLine
  /-- lines that the fetch unit is to fetch again once it has a free place, each with the latency of its request — R186, R323 — none -/
  refetch : List CodeReq
  /-- bank-lock window — R172 — closed -/
  lock : Option Lock
  /-- routes — 256 × 64 bits — R309 — 0 -/
  routes : List (Nat × BitVec 64)
  /-- channel table and send windows — 256 × (128 + 32) bits — R272, R314 — 0 -/
  chans : List (Nat × Chan)
  /-- tile-map cache — 24 × 128 bits — R317 — empty -/
  tmc : List TmEntry
  /-- a tile-map cache miss: target and answer tick — R317 — none -/
  tmMiss : Option (TileId × Nat)
  /-- latest tile-map version broadcast to the tile — 32 bits — R317 — 0 -/
  tmVer : Word
  /-- view slots — 4 × 128 bits — R331 — 0 -/
  views : List ViewSlot
  /-- TLB of the copy engine — 16 entries — R199 — empty -/
  tlb : List TlbEntry
  walks : List Walk
  /-- MXU queue — 8 places — R248 — empty -/
  mxq : List MxCmd
  mxRun : Option MxRun
  /-- bytes of a drain in progress — R266 — none -/
  drains : List Drain
  /-- buffers whose PUBLISH takes effect on this tick — R192 — none -/
  publishing : List (Fin 32)
  /-- copy queue — 8 — R227 — empty -/
  cpq : List CopyCmd
  /-- copies in flight — 8 — R227 — none -/
  flights : List Flight
  acks : List AckDue
  pages : List PageReq
  /-- channel queue — 8 — R271 — empty -/
  chq : List ChCmd
  /-- messages in transmission — 8 — R271 — none -/
  tx : List TxMsg
  /-- views asked for by VWJOIN and VWLEAVE, not yet retired: command id, context, swarm, join (R342) -/
  vwWait : List (Nat × Fin 4 × Fin 256 × Bool)
  /-- unretired engine commands — R169, R170, R360 — none -/
  live : List LiveCmd
  /-- next engine-command id -/
  nextId : Nat
  /-- input lanes C and R — R275 — empty -/
  inC : Vector Input 6
  inR : Vector Input 6
  /-- output lanes C and R by direction — R310 — unbound, last served the tile's own input -/
  outC : Vector Output 4
  outR : Vector Output 4
  /-- credits on their way to this tile — R274 — none -/
  credits : List CreditWire
  /-- credits this tile owes while MIGRATING — R274, R322 — none -/
  owed : List (TileId × Fin 256)
  /-- ring sequencers east, west, north, south — R299 — idle -/
  seqs : Vector Seq 4
  /-- collectives completed here that a view change may still FINISH elsewhere — R337 — none -/
  colls : List CollDone
  /-- the engine port is taken on this tick, and its last user — R179 — free -/
  portBusy : Bool
  portLast : PortUser
  /-- launches that own table entries: kind and number of the entry, launch — R397 — none -/
  owners : List ((Nat × Nat) × Nat)
  /-- soft errors present in the tile's memories — R204 — none -/
  upsets : List Upset
  /-- corrected words awaiting write-back — R204 — none -/
  fixes : List Upset
  /-- next word the scrubber reads — R204 — 0 -/
  scrubAt : Nat
  /-- four contexts — R18 -/
  ctxs : Vector Context 4
  /-- arbiter — R159 — idle -/
  arb : Arb
  /-- context and tick of the tile's last bundle — R159 — none -/
  lastIssue : Option (Fin 4 × Nat)
  /-- context that the arbiter last gave the issue width — R159, R371 — none -/
  holder : Option (Fin 4)
  /-- bank hold of the bundle about to issue: tick on which it issues — R221 — none -/
  hold : Option Nat
  /-- timeline values delivered to this tile — R366 — 0 -/
  tls : List (Nat × BitVec 64)
  /-- MIGRATING since comb tick M — R322 — no -/
  mig : Option Nat
  /-- the tile is ABSENT — R326 — no -/
  absent : Bool
  deriving DecidableEq, Repr

/-! ### Optical ports and scouts -/

/-- A plane-table entry (R343). -/
structure PlaneEntry where
  wid : BitVec 16
  v : Bool
  up : Bool
  deriving DecidableEq, Repr

/-- A transmit descriptor (R283, R344): its peer; the planes of the route it was last sent on; where in SRAM its payload was read,
and how many bytes; the packet with its tag and sequence number; the plane and tick of its last transmission. -/
structure TxDesc where
  peer : BitVec 16
  mask : BitVec 4
  addr : Nat
  len : Nat
  pk : Packet
  plane : Option (Fin 4)
  sentAt : Option Nat
  deriving DecidableEq, Repr

/-- The link to one peer wafer (R334, R344, R346). -/
structure Peer where
  wid : BitVec 16
  txSeq : BitVec 32
  rxNext : BitVec 32
  /-- packets received out of order, within the window of 256 -/
  window : List Packet
  /-- reference tick of the latest frame of any kind from it -/
  lastFrame : Nat
  suspected : Bool
  /-- cached route: its planes; none when invalidated (R346) -/
  route : Option (List (Fin 4))
  rot : Nat
  /-- reference tick from which each plane takes the next packet for the peer (R16, R343) -/
  busy : Vector Nat 4
  /-- latest remote-atomic response kept for the peer: request number and old word (R347) -/
  resp : Option (Nat × Word)
  deriving DecidableEq, Repr

/-- An outstanding remote atomic (R347): peer, request number, first transmission, answer: timed out, old word. -/
structure Atomic where
  peer : BitVec 16
  reqno : Nat
  sentAt : Option Nat
  answer : Option (Bool × Word)
  deriving DecidableEq, Repr

/-- The anchor's contribution as the port receives it (R349, R355): swarm, channel, tag, instance, bytes, whole. -/
structure Contribution where
  sw : Fin 256
  ch : Fin 256
  vt : BitVec 16
  inst : BitVec 16
  size : Nat
  data : List Byte
  deriving DecidableEq, Repr

/-- A scout (R350). -/
structure Scout where
  /-- x0 to x15 — 64 bits each — R350 — 0 when LOAD starts it -/
  x : Vector (BitVec 64) 16
  /-- word address of the next instruction — 18 bits — R350 — 0 -/
  pc : Nat
  /-- halted with a cause, or running — R350 — DESIGN CHOICE halted with cause 0 until LOAD starts it (log 3) -/
  halted : Option Nat
  /-- SRAM — 1 MiB — R350 — 0 ("cleared SRAM", R73) -/
  sram : Memory
  /-- SRAM words / 4 that hold an uncorrectable error — R350 — none -/
  bad : List Nat
  /-- tag of the view when the waiting instruction began to wait (R353 to R356) -/
  waitVt : Option (BitVec 16)
  /-- tick from which the instruction in place may end: a data transfer of 64 B per tick, or plane training -/
  busy : Option Nat
  deriving DecidableEq, Repr

/-- Bytes of an instance's result on the way to a wafer that lacks them (R337): channel, instance, the new tag, first
element, bytes. -/
structure ResultPart where
  ch : Fin 256
  inst : BitVec 16
  vt : BitVec 16
  start : Nat
  data : List Byte
  deriving DecidableEq, Repr

/-- What a port puts on its fibres: heartbeats, control frames of the waggle, packets, acknowledgements (R334, R335, R344). -/
inductive PortFrame where
  | heartbeat (peer : BitVec 16) (plane : Fin 4)
  | propose (sw : Fin 256) (tag : BitVec 16) (members : List Nat) (ni : BitVec 16)
  | ack (sw : Fin 256) (dst tag : BitVec 16) (done : List (Nat × BitVec 16))
  | commit (sw : Fin 256) (f : CommitFrame)
  | join (sw : Fin 256)
  /-- a wafer's request to leave a swarm of wafers (R333, R356); the spec names no frame for it (log 44) -/
  | leave (sw : Fin 256)
  /-- bytes of a result that other wafers lack (R337); the spec names no frame for them (log 45) -/
  | result (sw : Fin 256) (r : ResultPart)
  | packet (plane : Fin 4) (pk : Packet)
  | packetAck (peer : BitVec 16) (seq : BitVec 32)
  deriving DecidableEq, Repr

/-- An optical port (R16, R343 to R350). -/
structure Port where
  /-- frames put on the fibres on this tick — R334, R344 — none -/
  sent : List PortFrame
  /-- psem0 to psem63 — 16 bits each — R348 — 0 at port reset -/
  psem : Vector (BitVec 16) 64
  /-- plane table — 4 × 64 × 32 bits — R343 — 0 -/
  planes : Vector (Vector PlaneEntry 64) 4
  /-- planes in rotation — 4 bits — R345, R357 — all -/
  rot : Vector Bool 4
  /-- plane being drained — R345 — none -/
  drain : Option (Fin 4)
  /-- host writes to plane entries in rotation, effective at SPLANE RESTORE — R393 — none -/
  shadowPlanes : List (Nat × Word)
  /-- P_STALE, P_DUP, P_RETX, P_RATMO, P_BAD, P_FXSAT — 32 bits each — R359 — 0; those that a host write of this tick
  fixes — R369 — none -/
  cnt : Vector Word 6
  cntLock : BitVec 6
  peers : List Peer
  /-- transmit queue — 64 descriptors — R283 — empty -/
  txq : List TxDesc
  /-- receive queue — 64 descriptors — R283 — empty -/
  rxq : List Packet
  /-- packets with a newer tag, held until installation — R353 — none -/
  early : List Packet
  atomic : Option Atomic
  nextReq : Nat
  /-- SIGs to tiles whose credit has not returned — 0 to 64 — R348, R352 — 0 -/
  sigsOut : Nat
  /-- ticks on which credits of such SIGs return -/
  sigCredits : List Nat
  /-- remote atomic requests to apply (R347) -/
  atomIn : List Packet
  /-- anchor contributions arriving (R349, R355) -/
  contrib : List Contribution
  /-- elements of an instance's result that SFWD.OUT has sent (R355): swarm, channel, instance, elements -/
  fwdOut : List (Fin 256 × Fin 256 × BitVec 16 × Nat)
  scout : Scout
  deriving DecidableEq, Repr

/-! ### Swarms -/

/-- A round under way (R335): tag proposed, roster position of its proposer, set S, acknowledgements with completed instances,
start time. -/
structure Round where
  tag : BitVec 16
  by_ : Nat
  set : List Nat
  acks : List (Nat × List (Nat × BitVec 16))
  start : Nat
  deriving DecidableEq, Repr

/-- A swarm-table entry with its roster (R329, R330). -/
structure Swarm where
  v : Bool
  lvl : Bool
  mode : Bool
  vc : Bool
  vt : BitVec 16
  win : Byte
  port : Fin 16
  ni : BitVec 16
  ax : BitVec 9
  ay : BitVec 9
  /-- roster words: member in [15:0] or x, y; JR in bit 30, PR in bit 31 (R330) -/
  roster : List Word
  /-- leavers asked for by VWLEAVE or SVIEW.LEAVE (R333, R342, R356) -/
  leave : List Nat
  /-- the round under way, the highest tag seen in a PROPOSE, and the tag acknowledged (R335) -/
  round : Option Round
  seen : BitVec 16
  acked : BitVec 16
  /-- the host relays the frames of the round under way (R320, R333) -/
  relay : Bool
  /-- a COMMIT that waits for a MIGRATING anchor (R324): its sender and what it says -/
  held : Option (BitVec 16 × CommitFrame)
  /-- RADDR: address of the roster in queen-core SRAM (R329) -/
  raddr : Word
  lid : Option Nat
  deriving DecidableEq, Repr

/-! ### Front end, images, launches -/

/-- A section of an image for one tile group (R59). -/
structure Section where
  kind : Nat
  gx : Nat
  gy : Nat
  gw : Nat
  gh : Nat
  addr : Nat
  data : List Byte
  deriving DecidableEq, Repr

/-- A loaded image (R59, R395), and the tick from which its LOAD is complete. -/
structure Image where
  handle : Nat
  ready : Nat
  occ : Nat
  sections : List Section
  deriving DecidableEq, Repr

/-- How far a launch has come (R22, R24). -/
inductive LaunchState where
  | admitted | running | retired
  deriving DecidableEq, Repr

/-- A launch from its admission on (R21 to R24, R280, R397 to R400). -/
structure Launch where
  lid : Nat
  queue : Fin 256
  slot : Fin 32
  recIdx : Nat
  tag : BitVec 16
  handle : Nat
  ox : Nat
  oy : Nat
  ex : Nat
  ey : Nat
  ctx : Fin 4
  rank : Byte
  timeline : Option (Fin 1024)
  start : Nat
  desc : HeapDesc
  occ : Nat
  st : LaunchState
  /-- first tick on which every tile is ready, and the start tick used (R22) -/
  readyAt : Nat
  used : Nat
  /-- tiles of the rectangle with their entry points; no entry for a tile that runs no task (R23, R58) -/
  tasks : List (TileId × VAddr)
  /-- the host has parsed its record, and where its answer begins among the free values (R401) -/
  host : Option Nat
  /-- array occupancy its MMAs reserved (A of R280) -/
  actual : Nat
  nfault : Nat
  fcnt0 : Option Word
  dropped : Bool
  vcDropped : Bool
  deriving DecidableEq, Repr

/-- States of a user queue (R278). -/
inductive QState where
  | idle | pending | mapped | blocked | error
  deriving DecidableEq, Repr

/-- A user queue: its BAR0 block (R392) and its shadow (R278), with the records that have completed out of order. -/
structure UserQueue where
  qbase : BitVec 64
  cqbase : BitVec 64
  fbase : BitVec 64
  lsz : BitVec 5
  flsz : BitVec 5
  en : Bool
  irq : Bool
  qst : QState
  qslot : BitVec 16
  qhead : Word
  qtail : Word
  quse : BitVec 64
  qblk : BitVec 64
  /-- QWAIT: kind and operand copied from the blocked record -/
  qwait : List Byte
  fcnt : Word
  /-- fault-ring read count written by the host (R400) -/
  fread : Word
  /-- records started, and those completed beyond the head (R395) -/
  started : Word
  done : List Nat
  deriving DecidableEq, Repr

/-- A hardware queue slot (R279, R280). -/
structure HwSlot where
  queue : Option (Fin 256)
  /-- first tick on which its head record may start -/
  ready : Nat
  /-- account U -/
  u : Nat
  blockedAt : Option Nat
  emptyAt : Option Nat
  deriving DecidableEq, Repr

/-- A record that has started and completes on a tick (R395): queue, index, op, tag, status, detail. -/
structure RecordDue where
  queue : Fin 256
  idx : Nat
  op : Byte
  tag : BitVec 16
  status : Byte
  detail : Word
  tick : Nat
  deriving DecidableEq, Repr

/-- How far a saved context has come back (R384): not begun; its tile items are being written, with the scratchpad bytes still to
write; they are written, and the context items and the removed commands follow. -/
inductive Restore where
  | saved
  | writing (todo : List Host.Cell)
  | written
  deriving DecidableEq, Repr

/-- A saved context (R383): the tile and context, the mask applied, the copies of its items, as the area's bytes hold them. -/
structure SaveArea where
  tile : TileId
  ctx : Fin 4
  /-- physical address of the area in the heap; none while a freeze has found no space (log 39) -/
  place : Option Nat
  frozen : Bool
  overrun : Bool
  mask : BitVec 256
  saved : Context
  qs : List (Fin 8 × Row)
  accs : List (Fin 64 × AccRow)
  planes : List (Fin 2 × Plane)
  rings : List (Fin 8 × Ring × List Byte)
  bufs : List (Fin 32 × Buffer × List Byte)
  prec : Option Word
  decay : Option Word
  rowcol : Option (BitVec 64 × BitVec 128)
  qpend : List QPend
  mxq : List MxCmd
  cpq : List CopyCmd
  chq : List ChCmd
  removed : List LiveCmd
  /-- the queen core's restore of it (R384) -/
  restore : Restore
  /-- bytes of the area (R383) -/
  len : Nat
  deriving DecidableEq, Repr

/-- A page that the queen core is moving between stacks (R203). -/
structure PageMove where
  launch : BitVec 16
  va : VAddr
  leafPa : Nat
  oldBase : Nat
  size : Nat
  stack : Fin 64
  frame : BitVec 17
  lc : BitVec 3
  /-- commands translated to the old frame before the move: tile and command id -/
  wait : List (TileId × Nat)
  deriving DecidableEq, Repr

/-- A segment of a physical row or column that a relay path uses (R312). -/
structure TrackSeg where
  row : Bool
  line : Nat
  lo : Nat
  hi : Nat
  deriving DecidableEq, Repr

/-- A tile being migrated (R320 to R322): the tick it was asked for, whether host approval is still awaited, the brood tile
the host named, the tick on which its engines froze, the tick on which its image has moved. -/
structure Migration where
  tile : TileId
  asked : Nat
  awaiting : Bool
  brood : Option (Nat × Nat)
  frozenAt : Option Nat
  moveAt : Option Nat
  /-- the brood tile it moves to and the relay path assigned for the move, with its tracks (R322 step 5) -/
  goal : Option (Nat × Nat)
  path : List (TrackSeg × Nat)
  /-- the tick of step 6: the tile resumes on the next -/
  placed : Option Nat
  deriving DecidableEq, Repr

/-- The edge ports of an HBM stack or an optical port (R15): the physical tiles that carry its traffic, those that stand by. -/
structure EdgeUnit where
  stack : Bool
  num : Nat
  active : List (Nat × Nat)
  standby : List (Nat × Nat)
  deriving DecidableEq, Repr

/-- A logical or brood entry of the tile map that differs from boot (R316). -/
structure MapEntry where
  px : BitVec 9
  py : BitVec 9
  st : BitVec 2
  ep : Bool
  deriving DecidableEq, Repr

/-- An advance on its way to the queen core or a timeline on its way to tiles (R365, R366). -/
structure Advance where
  tl : Fin 1024
  amount : BitVec 64
  due : Nat
  src : Option (TileId × Fin 4)
  deriving DecidableEq, Repr

/-- A timeline value on its way to one tile (R366). -/
structure Delivery where
  tile : TileId
  tl : Fin 1024
  val : BitVec 64
  due : Nat
  deriving DecidableEq, Repr

/-- An assist request (R393): function, number, operands, the tick it was made, whether the ring holds it, and the reply that
accepted it while its function has yet to act on it. -/
structure AssistReq where
  fn : Byte
  num : Word
  body : List Byte
  tick : Nat
  posted : Bool
  answer : Option (List Byte)
  deriving DecidableEq, Repr

/-- Firmware state (R403 to R408). -/
structure Firmware where
  /-- banks A and B of the queen, then of the nurse image, as the host has written them; none: the image the part came with —
  R405 — none (log 7) -/
  banks : Vector (Option Memory) 4
  /-- active bank: queen, nurse — FWST[0], FWST[1] -/
  queenBank : Bool
  nurseBank : Bool
  updating : Bool
  rolledBack : Bool
  /-- fused minimum security versions raised by the host: queen, nurse; the fuses as the part came are Config's — R403 — 0 -/
  minver : Vector Word 2
  /-- MEAS — 48 bytes — R403 — 0 -/
  meas : List Byte
  mlog : List (List Byte)
  hbeat : Word
  updstat : Word
  updoff : Word
  /-- watchdog: expiry on the reference clock, and whether it guards a nurse core — R407 -/
  watchdog : Option (Nat × Option (Fin 6))
  handover : Word
  /-- the handover record in reserved queen SRAM, as the old image wrote it at the last switch — R406 — none -/
  record : List Byte
  /-- the input queue of the gap: advances and retirements in order of arrival — R408 — empty -/
  inq : List (Option Advance × Option Nat)
  deriving DecidableEq, Repr

/-- Fuses of the part (R9, R27, R109, R115). -/
structure Fuses where
  gx : Nat
  gy : Nat
  bin : BitVec 2
  stkmap : BitVec 64
  portmap : BitVec 16
  /-- dead physical tiles as the defect map names them (R318) -/
  dead : List (Nat × Nat)
  deriving DecidableEq, Repr

/-- The control block's host-written state (R393), less what has a field of its own. -/
structure Control where
  assist : Word
  arbase : BitVec 64
  arctl : Word
  artail : Word
  arhead : Word
  rpldata : List Byte
  evbase : BitVec 64
  evctl : Word
  evtail : Word
  evhead : Word
  evlost : Word
  wafid : Word
  deriving DecidableEq, Repr

/-- What the part reports over SMBus when its boot stops (R318, R404): no valid firmware image, or a field that cannot be
repaired, by its column and row. -/
inductive BootFailure where
  | image
  | field (fx fy : Nat)
  deriving DecidableEq, Repr

/-- Stages of the part (R404). -/
inductive Stage where
  /-- power-good; the boot sequence has not run -/
  | power
  /-- booted: the comb is released and its first tick, comb time 0, is the next -/
  | released
  /-- the comb runs -/
  | up
  /-- the boot sequence stopped at a failure -/
  | failed
  deriving DecidableEq, Repr

/-- The issuing bundle (R28, R52): what an instruction of a slot acts on. -/
structure Cur where
  tile : TileId
  ctx : Fin 4
  slot : Nat
  /-- address of the bundle -/
  pc : VAddr
  /-- task tick of the bundle -/
  tt : Nat
  /-- its safe-point bit (R43) -/
  safe : Bool
  /-- it is a delay bundle of a transfer (R50): 0 no, 1 first, 2 second -/
  delay : Nat
  /-- guard of the slot as an engine command takes it (R176) -/
  guard : QGuard
  /-- slot 6 holds an MMA that slot 7's copy captures (R38): the MMA as decoded -/
  follow : Option Instr
  /-- the transfer that landed as this bundle issued, by its own bundle (R150) -/
  landed : Option VAddr
  deriving DecidableEq, Repr

/-- A stimulus from outside the machine, or a decision of firmware policy or physics that the spec leaves open. -/
inductive Stimulus where
  | event (i : Instr)
  /-- another wafer's request to leave a swarm reaches this one (R333, R356, log 44) -/
  | leave (sw : Fin 256) (src : BitVec 16)
  /-- bytes of a result that this wafer lacks arrive from another (R337, log 45) -/
  | result (sw : Fin 256) (src : BitVec 16) (r : ResultPart)
  /-- a soft error in a tile (R204) -/
  | upset (t : TileId) (u : Upset)
  /-- an uncorrectable error in a heap word, or in an SRAM word of a scout, by address / 4 (R204, R350) -/
  | heapUpset (word : Nat)
  | sramUpset (p : Fin 16) (word : Nat)
  /-- a parity error in a line of an instruction cache (R186) -/
  | parity (t : TileId) (line : Nat)
  /-- the flit that reaches an input of a tile on this tick fails its check (R287); the lane is R or not -/
  | flitError (t : TileId) (laneR : Bool) (i : Fin 6)
  /-- a sensor or power reading (R409): field temperatures, stack temperatures, watts -/
  | sensors (tf th : List Int) (watts : Nat)
  /-- a host write to host memory -/
  | hostWrite (addr : Nat) (data : List Byte)
  deriving DecidableEq, Repr

/-- What moves next inside the machine, in the order of one tick. -/
inductive Move where
  /-- an event that is due -/
  | ev (i : Instr)
  /-- what comes before the issue of a comb tick -/
  | early
  /-- the tiles of the comb on this tick, in the order of its parts -/
  | comb
  /-- an issue attempt of a tile (R19, R159, R378) -/
  | issue (t : TileId)
  /-- the copy queue's head on this tick -/
  | copy (t : TileId)
  /-- the matrix array of a tile on this tick -/
  | array (t : TileId)
  /-- the slot accesses and array writes of a tile that perform on this tick (R51, R180) -/
  | perform (t : TileId)
  /-- arrivals and queue heads of the engines of a tile -/
  | engines (t : TileId)
  /-- the host's accesses to tiles -/
  | host
  /-- the engine port of a tile (R179) -/
  | enginePort (t : TileId)
  /-- retirements after the port has served -/
  | settle (t : TileId)
  /-- flits that reach a tile; headers that take an output (R310) -/
  | links (t : TileId)
  /-- flits that leave a tile (R275) -/
  | transmit (t : TileId)
  /-- one instruction of a scout (R350), and the link layer of its port (R344) -/
  | scout (p : Fin 16)
  /-- the front end, the queen core and the view units on a reference tick; whether the comb clock ticked too -/
  | front (comb : Bool)
  deriving DecidableEq, Repr

/-- The part. -/
structure State where
  /-- comb time — 64 bits, a count — R2, R359 — 0 -/
  now : Nat
  /-- reference-clock ticks — R334, R407 — 0 -/
  ref : Nat
  /-- stage of the boot sequence — R404 — power -/
  stage : Stage
  /-- what stopped the boot, reported through the management sideband — R318, R404 — none -/
  failure : Option BootFailure
  /-- throttle k, 16 to 64, and the phase of the throttled clock — R409 — 64, 0 -/
  thr : Nat
  thrPhase : Nat
  /-- thermal hold in force — R410 — no -/
  hold : Bool
  /-- die and stack temperatures, package power — R393, R409 — DESIGN CHOICE 25, 0 (log 3) -/
  tsensf : List Int
  tsensh : List Int
  power : Nat
  /-- GRID, CFG, STKMAP, PORTMAP, defect map — R109, R115, R318 — DESIGN CHOICE a full Comb-1 with no dead tile (log 4) -/
  fuses : Fuses
  /-- PCIe links that have trained in flit mode, and carry traffic — R390 — none before boot -/
  links : Vector Bool 4
  /-- tiles written so far, by rising id; every other tile is as Tile.reset — R18 -/
  tiles : List (TileId × Tile)
  /-- HBM heap — 42-bit physical addresses — R197 — DESIGN CHOICE 0 (log 2) -/
  heap : Memory
  /-- uncorrectable words of the heap, by physical address / 4 — R204 — none -/
  heapBad : List Nat
  /-- bytes that the forager ports of each stack have moved out of it and into it on this tick — R14 — none -/
  hbm : List (Nat × Nat × Nat)
  /-- host memory as the device reads and writes it — R395 — DESIGN CHOICE 0 (log 2) -/
  host : Memory
  /-- optical ports — 16 — R16, R343 -/
  ports : Vector Port 16
  /-- tl0 to tl1023 — 64 bits each — R365 — 0 -/
  tls : List (Nat × BitVec 64)
  advances : List Advance
  deliveries : List Delivery
  /-- swarm table — 256 entries — R329 — 0 -/
  swarms : List (Nat × Swarm)
  /-- tile-map entries that differ from boot, by tile, brood entries taken, version — R316 — none, none, 0 -/
  tmap : List (TileId × MapEntry)
  broodTaken : List (Nat × Nat)
  tmVer : Word
  broadcasts : List (TileId × Nat × Word)
  migrations : List Migration
  /-- missing logical links: tile and direction — R312, R313 — none -/
  missing : List (TileId × Fin 4)
  /-- relay tracks in use: the link by its western or southern tile and direction, the segment, the track — R312 — none -/
  relays : List (TileId × Fin 4 × TrackSeg × Nat)
  /-- edge ports of every stack and optical port of the part, chosen at boot — R15, R318 — none -/
  edges : List EdgeUnit
  /-- 256 user queues — R277, R392 — disabled -/
  queues : List (Nat × UserQueue)
  /-- 32 hardware queue slots — R279 — FREE -/
  slots : Vector HwSlot 32
  /-- pending list, first in first out — R279 — empty -/
  pendingQ : List (Fin 256)
  /-- queues unmapped on the last tick — R282 — none -/
  unmapped : List (Fin 256)
  recs : List RecordDue
  images : List Image
  launches : List Launch
  nextLid : Nat
  /-- timeline advances that wait for the link's acknowledgement of a completion record: timeline, tick, user queue — R367 — none -/
  tlAfter : List (Fin 1024 × Nat × Fin 256)
  /-- page-table roots held by walker foragers: launch and physical address — R200 — none -/
  roots : List (Nat × Nat)
  moves : List PageMove
  /-- pages asked of firmware: launch, page, request tick — R202, R240 — none -/
  pageReqs : List (Nat × VAddr × Nat)
  saves : List SaveArea
  ctl : Control
  fw : Firmware
  assists : List AssistReq
  nextAssist : Word
  /-- last BAR2 read answered: bytes, or an Unsupported Request — R391 — none -/
  bar2 : Option (Option (List Byte))
  /-- bytes of the BAR2 read in progress — R391 — none -/
  bar2Got : List Byte
  /-- BAR2 accesses that wait, in order: for the engine port, a lock, a migration, a thermal hold — R172, R179, R322, R410 — none -/
  hostHeld : List Instr
  /-- user queues whose MSI-X vector has been sent on this tick: vector q mod 64 of link q / 64 — R390, R392 — none -/
  msix : List (Fin 256)
  /-- counter of free values drawn (the model's own, log 1) — DESIGN CHOICE 0 -/
  free : Nat
  /-- the bundle or scout that acts (the model's own) -/
  cur : Cur
  curPort : Fin 16
  /-- stimuli that have arrived and not yet acted (the model's own) -/
  inputs : List Stimulus
  /-- what is still to move on this tick (the model's own) -/
  agenda : List Move
  deriving DecidableEq, Repr

/-- Why a step ends with no next state. The spec names no such behaviour: what it calls a fault is a trap of a context, a record
of the host or a status of the part, and the part goes on. So there is no constructor, and no step of the model ends in a fault. -/
inductive Fault where
  deriving DecidableEq, Repr

/-- Why an instruction has no meaning. -/
inductive Refusal where
  /-- The instruction's meaning is not written yet. Raised by no instruction of this model. Safe. -/
  | notModelled (mnemonic : String)
  deriving DecidableEq, Repr

/-! ### Reset values -/

/-- A context with no task: every item at its value at task start (R101). -/
def Context.reset : Context where
  s := Vector.replicate 32 0
  a := Vector.replicate 8 0
  v := Vector.replicate 16 (Vector.replicate 32 0)
  m := Vector.replicate 8 0
  p := Vector.replicate 16 false
  stack := []
  pend := []
  hist := []
  pc := 0
  tt := 0
  loops := []
  itClear := false
  xfer := none
  pxfr := none
  liveDue := none
  live := 0
  status := 0
  round := 0
  cause := 0
  finfo := 0
  fpc := 0
  epc := 0
  trapv := 0
  rundecl := 0
  ovrcnt := 0
  declAt := none
  overrun := false
  overPre := false
  hbase := 0
  hlimit := 0
  hoffset := 0
  walker := 0
  launch := 0
  lorg := 0
  lext := 0
  rank := 0
  caps := []
  cnt := Vector.replicate 16 0
  wack := 0
  phase := true
  phaseDue := false
  markers := []
  phaseMxu := none
  phaseCopy := none
  mpubs := []
  tlOut := 0
  faults := Vector.replicate 3 none
  late := []
  vcTraps := []
  vcDropped := false
  st := .free
  held := false
  safe := false
  preReq := none
  readySince := none
  lid := none

/-- A clear ACM row (R84). -/
def AccRow.reset : AccRow where
  entries := Vector.replicate 128 0
  mode := .clear
  ft := 0
  pend := []

def Plane.reset : Plane where
  e := Vector.replicate 64 (Vector.replicate 128 0)
  x := Vector.replicate 4 (Vector.replicate 128 0)

def Ring.reset : Ring where
  base := 0
  esz := 0
  nent := 0
  head := 0
  tail := 0
  cnt := 0
  infl := 0
  v := false
  claimed := 0
  ended := []

def Buffer.reset : Buffer where
  base := 0
  size := 0
  v := false
  fh := false
  tag := 0
  sd := false
  wr := 0
  rd := 0
  fmap := 0
  smap := 0

def Chan.reset : Chan where
  v := false
  coll := false
  rt := 0
  msz := 0
  tk := false
  tgt := 0
  toff := 0
  px := 0
  py := 0
  d := 0
  win := 0
  arm := []
  sw := 0
  rop := 0
  ck := 0
  om := 0
  root := 0
  inst := 0
  cr := 0
  rsv := 0
  inf := 0
  df := 0
  out := []
  hold := false

def Input.reset : Input where
  wire := []
  fifo := []
  rx := none
  chunk := none
  out := none

/-- After reset the last input served counts as the tile's own input, so east comes first (R310). -/
def Output.reset : Output where
  bound := none
  begun := false
  last := 4
  sentLast := false

def Tile.reset : Tile where
  spm := []
  spmPrev := []
  reads := []
  writes := []
  staccs := []
  ldaccs := []
  acm := Vector.replicate 64 AccRow.reset
  wp := Vector.replicate 2 Plane.reset
  q := Vector.replicate 8 (Vector.replicate 128 0)
  qpend := []
  prec := 0
  decay := 0
  rowp := BitVec.allOnes 64
  colp := BitVec.allOnes 128
  own := 0
  ownV := false
  ownRel := false
  rings := Vector.replicate 8 Ring.reset
  bufs := Vector.replicate 32 Buffer.reset
  sems := Vector.replicate 16 0
  semClip := 0
  err := Vector.replicate 10 0
  pmc := Vector.replicate 8 0
  pmsel := Vector.replicate 8 0
  errPrev := Vector.replicate 10 0
  pmcPrev := Vector.replicate 8 0
  pmselPrev := Vector.replicate 8 0
  mxownPrev := 0
  errLock := 0
  pmcLock := 0
  icache := []
  region := Vector.replicate 32 ⟨0, false, false⟩
  code := []
  codeHeld := []
  refetch := []
  lock := none
  routes := []
  chans := []
  tmc := []
  tmMiss := none
  tmVer := 0
  views := []
  tlb := []
  walks := []
  mxq := []
  mxRun := none
  drains := []
  publishing := []
  cpq := []
  flights := []
  acks := []
  pages := []
  chq := []
  tx := []
  vwWait := []
  live := []
  nextId := 0
  inC := Vector.replicate 6 Input.reset
  inR := Vector.replicate 6 Input.reset
  outC := Vector.replicate 4 Output.reset
  outR := Vector.replicate 4 Output.reset
  credits := []
  owed := []
  seqs := Vector.replicate 4 ⟨[], [], none, none, none, []⟩
  colls := []
  portBusy := false
  portLast := .scrub
  owners := []
  upsets := []
  fixes := []
  scrubAt := 0
  ctxs := Vector.replicate 4 Context.reset
  arb := .idle
  lastIssue := none
  holder := none
  hold := none
  tls := []
  mig := none
  absent := false

def Scout.reset : Scout where
  x := Vector.replicate 16 0
  pc := 0
  halted := some 0
  sram := []
  bad := []
  waitVt := none
  busy := none

def Port.reset : Port where
  sent := []
  psem := Vector.replicate 64 0
  planes := Vector.replicate 4 (Vector.replicate 64 ⟨0, false, false⟩)
  rot := Vector.replicate 4 true
  drain := none
  shadowPlanes := []
  cnt := Vector.replicate 6 0
  cntLock := 0
  peers := []
  txq := []
  rxq := []
  early := []
  atomic := none
  nextReq := 0
  sigsOut := 0
  sigCredits := []
  atomIn := []
  fwdOut := []
  contrib := []
  scout := Scout.reset

/-- The fuses of a full Comb-1 with no dead tile (R27; log 4). -/
def Fuses.comb1 : Fuses where
  gx := 400
  gy := 400
  bin := 0
  stkmap := 0x0000FFFFFFFFFFFF
  portmap := 0xFFFF
  dead := []

def Control.reset : Control where
  assist := 0
  arbase := 0
  arctl := 0
  artail := 0
  arhead := 0
  rpldata := List.replicate 16 0
  evbase := 0
  evctl := 0
  evtail := 0
  evhead := 0
  evlost := 0
  wafid := 0

def Firmware.reset : Firmware where
  banks := Vector.replicate 4 none
  queenBank := false
  nurseBank := false
  updating := false
  rolledBack := false
  minver := Vector.replicate 2 0
  meas := List.replicate 48 0
  mlog := []
  hbeat := 0
  updstat := 0
  updoff := 0
  watchdog := none
  handover := 0
  record := []
  inq := []

def Cur.reset : Cur where
  tile := 0
  ctx := 0
  slot := 0
  pc := 0
  tt := 0
  safe := false
  delay := 0
  guard := .yes
  follow := none
  landed := none

/-- A user queue before its block is written (R392). -/
def UserQueue.reset : UserQueue where
  qbase := 0
  cqbase := 0
  fbase := 0
  lsz := 0
  flsz := 0
  en := false
  irq := false
  qst := .idle
  qslot := 0xFFFF
  qhead := 0
  qtail := 0
  quse := 0
  qblk := 0
  qwait := List.replicate 16 0
  fcnt := 0
  fread := 0
  started := 0
  done := []

/-- The part at power-good (R404): the boot sequence is what moves first. -/
def State.reset : State where
  now := 0
  ref := 0
  stage := .power
  failure := none
  thr := 64
  thrPhase := 0
  hold := false
  tsensf := List.replicate 64 25
  tsensh := List.replicate 48 25
  power := 0
  fuses := Fuses.comb1
  links := Vector.replicate 4 false
  tiles := []
  heap := []
  heapBad := []
  hbm := []
  host := []
  ports := Vector.replicate 16 Port.reset
  tls := []
  advances := []
  deliveries := []
  swarms := []
  tmap := []
  broodTaken := []
  tmVer := 0
  broadcasts := []
  migrations := []
  missing := []
  relays := []
  edges := []
  queues := []
  slots := Vector.replicate 32 ⟨none, 0, 0, none, none⟩
  pendingQ := []
  unmapped := []
  recs := []
  images := []
  launches := []
  nextLid := 0
  tlAfter := []
  roots := []
  moves := []
  pageReqs := []
  saves := []
  ctl := Control.reset
  fw := Firmware.reset
  assists := []
  nextAssist := 0
  bar2 := none
  bar2Got := []
  hostHeld := []
  msix := []
  free := 0
  cur := Cur.reset
  curPort := 0
  inputs := []
  agenda := [.ev .boot]

end Sys2Proof.Machine
end

