-- ==== Sys2Proof/Machine/Ops.lean ====
section
/-! DEFINITION. The named operations over memory, tiles, contexts and registers; the completion of engine commands; and
the delivery of faults and traps (R156, R158, R373 to R379). -/

namespace Sys2Proof.Machine

/-- The outcome of every meaning. -/
abbrev Out := Host.Outcome State Fault Refusal

/-! ### Vectors and keyed lists -/

/-- A vector with one element replaced. -/
def vset {α : Type} {n : Nat} (v : Vector α n) (i : Fin n) (x : α) : Vector α n := v.set i.val x i.isLt

/-- Value at a key of a list kept by rising keys; `d` where there is none. -/
def alGet {α : Type} : List (Nat × α) → Nat → α → α
  | [], _, d => d
  | (j, x) :: l, k, d => if j = k then x else alGet l k d

/-- The list with the key's value set. -/
def alSet {α : Type} : List (Nat × α) → Nat → α → List (Nat × α)
  | [], k, x => [(k, x)]
  | (j, y) :: l, k, x =>
    if k < j then (k, x) :: (j, y) :: l else if k = j then (k, x) :: l else (j, y) :: alSet l k x

/-- The list without a key. -/
def alDel {α : Type} (l : List (Nat × α)) (k : Nat) : List (Nat × α) := l.filter fun e => e.1 != k

/-- A value put in its place in an ordered list, after its equals. -/
def insertBy {α : Type} (le : α → α → Bool) (x : α) : List α → List α
  | [] => [x]
  | y :: l => if le y x then y :: insertBy le x l else x :: y :: l

/-- A list in order; equals keep their order. -/
def sortBy {α : Type} (le : α → α → Bool) (l : List α) : List α := l.foldl (fun acc x => insertBy le x acc) []

/-! ### Memory (log 2: a byte that nothing has written reads 0) -/

/-- What an unlisted address reads as. -/
def Memory.blank : Byte := 0

def Memory.read : Memory → Nat → Byte
  | [], _ => Memory.blank
  | (k, b) :: m, a => if k = a then b else Memory.read m a

/-- One byte written, keeping the canonical form. -/
def Memory.write : Memory → Nat → Byte → Memory
  | [], a, b => if b = Memory.blank then [] else [(a, b)]
  | (k, c) :: m, a, b =>
    if a < k then (if b = Memory.blank then (k, c) :: m else (a, b) :: (k, c) :: m)
    else if a = k then (if b = Memory.blank then m else (a, b) :: m)
    else (k, c) :: Memory.write m a b

/-- Canonical form: rising addresses, no entry at the unlisted value. -/
def Memory.wf : Memory → Bool
  | [] => true
  | [(_, b)] => b != Memory.blank
  | (k, b) :: (l, c) :: m => b != Memory.blank && decide (k < l) && Memory.wf ((l, c) :: m)

/-- Consecutive bytes. -/
def Memory.readN (m : Memory) (a : Nat) : Nat → List Byte
  | 0 => []
  | n + 1 => m.read a :: Memory.readN m (a + 1) n

/-- Bytes written in order. -/
def Memory.writeAll (m : Memory) : List (Nat × Byte) → Memory
  | [] => m
  | (a, b) :: l => Memory.writeAll (m.write a b) l

/-- Addresses a, a + 1, … paired with bytes. -/
def numbered (a : Nat) : List Byte → List (Nat × Byte)
  | [] => []
  | b :: l => (a, b) :: numbered (a + 1) l

def Memory.writeN (m : Memory) (a : Nat) (bs : List Byte) : Memory := m.writeAll (numbered a bs)

/-- The little-endian word of four bytes. -/
def leWord (bs : List Byte) : Word := BitVec.ofNat 32 (leNat bs)

/-! ### Tiles and contexts -/

def State.tile (s : State) (t : TileId) : Tile := alGet s.tiles t Tile.reset
def State.setTile (s : State) (t : TileId) (x : Tile) : State := { s with tiles := alSet s.tiles t x }
def State.modTile (s : State) (t : TileId) (f : Tile → Tile) : State := s.setTile t (f (s.tile t))

def Tile.ctx (t : Tile) (c : Fin 4) : Context := t.ctxs[c]
def Tile.modCtx (t : Tile) (c : Fin 4) (f : Context → Context) : Tile := { t with ctxs := vset t.ctxs c (f t.ctxs[c]) }

def State.ctx (s : State) (t : TileId) (c : Fin 4) : Context := (s.tile t).ctx c
def State.modCtx (s : State) (t : TileId) (c : Fin 4) (f : Context → Context) : State := s.modTile t fun x => x.modCtx c f

def State.curTile (s : State) : Tile := s.tile s.cur.tile
def State.curCtx (s : State) : Context := s.ctx s.cur.tile s.cur.ctx
def State.modCurTile (s : State) (f : Tile → Tile) : State := s.modTile s.cur.tile f
def State.modCur (s : State) (f : Context → Context) : State := s.modCtx s.cur.tile s.cur.ctx f

def State.port (s : State) (p : Fin 16) : Port := s.ports[p]
def State.modPort (s : State) (p : Fin 16) (f : Port → Port) : State := { s with ports := vset s.ports p (f s.ports[p]) }

/-- The part has the optical port: the fuses of the other ones are blown, and nothing of them runs (R9, R27). -/
def State.portOn (s : State) (p : Fin 16) : Bool := s.fuses.portmap.getLsbD p.val

/-- A frame leaves the port of a hive swarm. -/
def State.emit (s : State) (p : Fin 16) (f : PortFrame) : State :=
  if s.portOn p then s.modPort p fun x => { x with sent := x.sent ++ [f] } else s

/-- Column x and row y of a logical tile. -/
def tileX (t : TileId) : Nat := t / 512
def tileY (t : TileId) : Nat := t % 512
def mkTile (x y : Nat) : TileId := x * 512 + y

/-- A logical tile of the grid (R9, R11). -/
def State.inGrid (s : State) (x y : Nat) : Bool := decide (x < s.fuses.gx) && decide (y < s.fuses.gy)

/-- What moves at once, before the rest of the agenda. -/
def State.first (s : State) (m : Move) : State := { s with agenda := m :: s.agenda }

/-- Every context of a migrating tile has stopped: its engines start nothing (R251, R322 step 4). -/
def Tile.frozen (t : Tile) : Bool := t.mig.isSome && t.ctxs.toList.all fun c => c.st != .active && c.st != .draining

/-- Comb time at a tick counted since the comb's release: 64 bits, wrapping (R2, R359; log 15). -/
def combTime (tick : Nat) : BitVec 64 := BitVec.ofNat 64 tick

/-- A fresh index into the free values (log 1). -/
def State.bump (s : State) : State := { s with free := s.free + 1 }

/-! ### Register files of a context (R101 to R103) -/

/-- p0 reads as 1. -/
def Context.readP (c : Context) (p : Fin 16) : Bool := if p = 0 then true else c.p[p]
/-- m0 reads as all ones. -/
def Context.readM (c : Context) (m : Fin 8) : Word := if m = 0 then BitVec.allOnes 32 else c.m[m]
/-- The top of the mask stack; all ones at depth 0. -/
def Context.top (c : Context) : Word := c.stack.headD (BitVec.allOnes 32)

/-- Lanes where a mask is 1 take the new value. -/
def laneMerge (lanes : Word) (old new : Vec) : Vec :=
  Vector.ofFn fun i : Fin 32 => if lanes.getLsbD i.val then new[i] else old[i]

/-- A result takes its place; writes to m0 and p0 are discarded (R33, R101). -/
def Context.put (c : Context) : Dst → Context
  | .s r v => { c with s := vset c.s r v }
  | .a r v => { c with a := vset c.a r v }
  | .v r lanes val => { c with v := vset c.v r (laneMerge lanes c.v[r] val) }
  | .m r v => if r = 0 then c else { c with m := vset c.m r v }
  | .p r v => if r = 0 then c else { c with p := vset c.p r v }
  | .stack v => { c with stack := v }
  | .flags v => { c with status := c.status ||| v.setWidth 32 }

/-- Commit order: due tick, then the later bundle, then the higher slot last (R49). -/
def Commit.before (a b : Commit) : Bool :=
  decide (a.due < b.due) || (decide (a.due = b.due) &&
    (decide (a.tt < b.tt) || (decide (a.tt = b.tt) && decide (a.slot ≤ b.slot))))

/-- A pending result takes its place in due order. -/
def insertCommit (x : Commit) : List Commit → List Commit
  | [] => [x]
  | y :: l => if y.before x then y :: insertCommit x l else x :: y :: l

def Context.push (c : Context) (x : Commit) : Context := { c with pend := insertCommit x c.pend }

/-- Every pending result due by a task tick commits, in order (R4, R49). -/
def Context.commitDue (c : Context) (tt : Nat) : Context :=
  let due := c.pend.takeWhile fun x => decide (x.due ≤ tt)
  let rest := c.pend.dropWhile fun x => decide (x.due ≤ tt)
  due.foldl (fun c x => c.put x.dst) { c with pend := rest }

/-- The acting slot's result, due `lat` task ticks after its bundle (R4, R48). -/
def State.result (s : State) (lat : Nat) (d : Dst) : State :=
  s.modCur fun c => c.push ⟨s.cur.tt + lat, s.cur.tt, s.cur.slot, d⟩

def State.rs (s : State) (r : Fin 32) : Word := s.curCtx.s[r]
def State.ra (s : State) (r : Fin 8) : VAddr := s.curCtx.a[r]
def State.rv (s : State) (r : Fin 16) : Vec := s.curCtx.v[r]
def State.rm (s : State) (r : Fin 8) : Word := s.curCtx.readM r
def State.rp (s : State) (r : Fin 16) : Bool := s.curCtx.readP r

/-! ### Counters (R116, R369 to R371) -/

/-- A 32-bit counter that stops at its maximum. -/
def addSat32 (w : Word) (n : Nat) : Word := BitVec.ofNat 32 (min (2 ^ 32 - 1) (w.toNat + n))

/-- `n` occurrences of an error counter's event; a CSR write of the same tick stands (R369). -/
def Tile.count (t : Tile) (i : Fin 10) (n : Nat) : Tile :=
  if t.errLock.getLsbD i.val then t else { t with err := vset t.err i (addSat32 t.err[i] n) }

def eccUE : Fin 10 := 0
def eccCE : Fin 10 := 1
def terRsv : Fin 10 := 2
def acmSat : Fin 10 := 3
def drnSat : Fin 10 := 4
def bsScale : Fin 10 := 5
def fxSat : Fin 10 := 6
def vwStale : Fin 10 := 7
def badData : Fin 10 := 8
def mxNotown : Fin 10 := 9

def pStale : Fin 6 := 0
def pDup : Fin 6 := 1
def pRetx : Fin 6 := 2
def pRatmo : Fin 6 := 3
def pBad : Fin 6 := 4
def pFxsat : Fin 6 := 5

/-- `n` occurrences of a port counter's event; a host write of the same tick stands (R369). -/
def Port.count (p : Port) (i : Fin 6) (n : Nat) : Port :=
  if p.cntLock.getLsbD i.val then p else { p with cnt := vset p.cnt i (addSat32 p.cnt[i] n) }

/-- `n` occurrences of a performance event (R370, R371). -/
def Tile.event (t : Tile) (ev n : Nat) : Tile :=
  { t with pmc := Vector.ofFn fun i : Fin 8 =>
      if ev ≠ 0 ∧ (t.pmselPrev[i].toNat % 256) = ev ∧ t.pmcLock.getLsbD i.val = false then addSat32 t.pmc[i] n
      else t.pmc[i] }

/-- `STATUS`.`ERR` (R110). -/
def Context.setErr (c : Context) : Context := { c with status := c.status ||| 0x20 }
def Context.it (c : Context) : Bool := c.status.getLsbD 7
def Context.setIt (c : Context) (b : Bool) : Context :=
  { c with status := if b then c.status ||| 0x80 else c.status &&& ~~~0x80 }

/-! ### Soft errors (R204): tables of scratchpad, ACM, table memory and plane words -/

/-- How a word is upset: none, correctable or uncorrectable. -/
def Tile.upset (t : Tile) (mem : Fin 4) (addr : Nat) : Option Bool :=
  (t.upsets.find? fun u => u.mem == mem && u.addr == addr).map Upset.ue

/-- Words of a list that hold an error of one kind. -/
def Tile.upsetWords (t : Tile) (mem : Fin 4) (ue : Bool) (ws : List Nat) : List Nat :=
  if t.upsets.isEmpty then [] else ws.dedup.filter fun w => t.upset mem w == some ue

/-- The counts and write-backs a read of words makes. -/
def Tile.noteReads (t : Tile) (mem : Fin 4) (ws : List Nat) : Tile :=
  let ue := t.upsetWords mem true ws
  let ce := t.upsetWords mem false ws
  if ue.isEmpty && ce.isEmpty then t else
  let t := (t.count eccUE ue.length).count eccCE ce.length
  { t with fixes := t.fixes ++ ce.map fun w => ⟨mem, w, false⟩ }

/-- A write replaces the word's check bits. -/
def Tile.clearUpsets (t : Tile) (mem : Fin 4) (ws : List Nat) : Tile :=
  if t.upsets.isEmpty then t else { t with upsets := t.upsets.filter fun u => !(u.mem == mem && ws.contains u.addr) }

/-! ### Table memory (R308): a table word is named by its offset / 4 -/

def routeOff (r : Nat) : Nat := 8 * r
def chanOff (ch : Nat) : Nat := 0x0800 + 16 * ch
def winOff (ch : Nat) : Nat := 0x1800 + 4 * ch
def bufOff (b : Nat) : Nat := 0x1C00 + 16 * b
def ringOff (r : Nat) : Nat := 0x1E00 + 8 * r
def mapOff (k : Nat) : Nat := 0x1E40 + 16 * k
def viewOff (k : Nat) : Nat := 0x1FC0 + 16 * k

/-- Kinds of table in a refusal's detail. -/
def kRoute : Nat := 1
def kChannel : Nat := 2
def kRing : Nat := 3
def kBuffer : Nat := 4
def kSwarm : Nat := 5
def kPort : Nat := 6

/-- A launch owns a table entry that it has written (R397). -/
def Tile.setOwner (t : Tile) (d : Nat × Nat) (lid : Nat) : Tile := { t with owners := t.owners.filter (fun e => e.1 != d) ++ [(d, lid)] }

/-- Words of a span of table memory. -/
def tableWords (off n : Nat) : List Nat := (List.range (n / 4)).map (off / 4 + ·)

/-- An uncorrectable word lies in a span of table memory. -/
def Tile.badTable (t : Tile) (off n : Nat) : Bool := !(t.upsetWords 2 true (tableWords off n)).isEmpty

/-- A table entry is read, outside any command of a context (R204). -/
def Tile.readTable (t : Tile) (off n : Nat) : Tile := t.noteReads 2 (tableWords off n)

/-- A table entry is written whole. -/
def Tile.writeTable (t : Tile) (off n : Nat) : Tile := t.clearUpsets 2 (tableWords off n)

/-- A buffer entry as an address lookup reads it: declared, and with no uncorrectable word (R204). -/
def Tile.declared (t : Tile) (b : Fin 32) : Bool := t.bufs[b].v && !t.badTable (bufOff b.val) 16

/-! ### Scratchpad (R178 to R180, R187) -/

/-- A scratchpad address is reduced modulo 65,536. -/
def spmAddr (a : Nat) : Nat := a % 65536

/-- The bank of an address (R178). -/
def bankOf (a : Nat) : Nat := a / 4 % 32

/-- Bytes as a read on this tick sees them: those of the end of the previous tick, uncorrectable words as zero. -/
def Tile.readSpm (t : Tile) (as : List Nat) : List Byte :=
  as.map fun a => if t.upset 0 (spmAddr a / 4) == some true then 0 else t.spmPrev.read (spmAddr a)

/-- A valid code-region slot that a write touches becomes invalid (R187). -/
def Tile.killRegion (t : Tile) (as : List Nat) : Tile :=
  if as.any fun a => decide (spmAddr a ≥ 0xE000) then
    { t with region := Vector.ofFn fun i : Fin 32 =>
        if as.any fun a => decide (spmAddr a / 256 = 0xE0 + i.val) then { t.region[i] with valid := false } else t.region[i] }
  else t

/-- Bytes written to the scratchpad. -/
def Tile.writeSpm (t : Tile) (l : List (Nat × Byte)) : Tile :=
  let as := l.map fun e => e.1
  let t := (t.killRegion as).clearUpsets 0 (as.map fun a => spmAddr a / 4)
  { t with spm := t.spm.writeAll (l.map fun e => (spmAddr e.1, e.2)) }

/-! ### Buffers and rings (R188 to R195) -/

def Buffer.b (b : Buffer) : Nat := b.base.toNat * 128
def Buffer.s (b : Buffer) : Nat := (b.size.toNat + 1) * 128
/-- Start of the front and of the shadow half. -/
def Buffer.front (b : Buffer) : Nat := if b.fh then b.b + b.s else b.b
def Buffer.shadow (b : Buffer) : Nat := if b.fh then b.b else b.b + b.s

/-- The derived state (R190). -/
def Buffer.state (b : Buffer) : BufState :=
  if b.wr ≠ 0 then .filling else if b.rd ≠ 0 then .draining else if b.sd then .full else .empty

def Ring.e (r : Ring) : Nat := r.nent.toNat + 1
def Ring.z (r : Ring) : Nat := (r.esz.toNat + 1) * 32
/-- Entries neither complete nor reserved (R194). -/
def Ring.free (r : Ring) : Nat := r.e - r.cnt.toNat - r.infl.toNat
/-- Address of an entry. -/
def Ring.at_ (r : Ring) (i : Nat) : Nat := r.base.toNat * 32 + (i % r.e) * r.z

def Tile.setBuf (t : Tile) (b : Fin 32) (f : Buffer → Buffer) : Tile := { t with bufs := vset t.bufs b (f t.bufs[b]) }
def Tile.setRing (t : Tile) (r : Fin 8) (f : Ring → Ring) : Tile := { t with rings := vset t.rings r (f t.rings[r]) }

/-- An engine write of a buffer starts and ends (R190). -/
def Buffer.beginWrite (b : Buffer) : Buffer := { b with wr := b.wr + 1, sd := true }
def Buffer.endWrite (b : Buffer) : Buffer := { b with wr := b.wr - 1 }

/-- An engine write of a buffer may not begin on this tick: a PUBLISH of it takes effect, an engine read of it is in progress,
or 15 writes are (R190). -/
def Tile.writeBlocked (t : Tile) (b : Fin 32) : Bool :=
  t.publishing.contains b || t.bufs[b].rd != 0 || t.bufs[b].wr == 15

/-- A fill reserves `n` entries; the ids name them for completion in order (R195). -/
def Ring.reserve (r : Ring) (id n : Nat) : Ring :=
  { r with tail := BitVec.ofNat 8 ((r.tail.toNat + n) % r.e), infl := r.infl + BitVec.ofNat 9 n,
           ended := r.ended ++ List.replicate n (id, false) }

/-- Oldest ended fills become complete entries (R195). -/
def Ring.settle (r : Ring) : Ring :=
  let done := r.ended.takeWhile fun e => e.2
  { r with ended := r.ended.drop done.length, infl := r.infl - BitVec.ofNat 9 done.length,
           cnt := r.cnt + BitVec.ofNat 9 done.length }

/-- One entry of a fill has ended: the oldest one of it still open. -/
def endFirst (id : Nat) : List (Nat × Bool) → List (Nat × Bool)
  | [] => []
  | (j, b) :: l => if j = id && !b then (j, true) :: l else (j, b) :: endFirst id l

def Ring.endFill (r : Ring) (id : Nat) : Ring := ({ r with ended := endFirst id r.ended }).settle

/-- `n` complete entries leave the head (R195). -/
def Ring.pop (r : Ring) (n : Nat) : Ring :=
  { r with head := BitVec.ofNat 8 ((r.head.toNat + n) % r.e), cnt := r.cnt - BitVec.ofNat 9 n }

/-- `SMAP` bits covering bytes [lo, lo + n) of a half of size `sz` (R193). -/
def smapBits (sz lo n : Nat) : Word :=
  if n = 0 then 0 else
  let k := sz / 32
  (List.range 32).foldl (fun w j => if decide (j * k < lo + n) && decide (lo < (j + 1) * k) then w ||| (1#32 <<< j) else w) 0

/-! ### Engine commands: their counters, markers and retirement (R169, R170, R360, R361) -/

def Context.rise (c : Context) (k : Fin 16) : Context := { c with cnt := vset c.cnt k (c.cnt[k] + 1) }
def Context.fall (c : Context) (k : Fin 16) : Context :=
  { c with cnt := vset c.cnt k (if c.cnt[k] = 0 then 0 else c.cnt[k] - 1) }
def Context.ackRise (c : Context) : Context := { c with wack := c.wack + 1 }
def Context.ackFall (c : Context) : Context := { c with wack := if c.wack = 0 then 0 else c.wack - 1 }

/-- A command's counter effects on issue or on the tick that resolves its guard (R176, R360, R361). -/
def Context.issueCounts (c : Context) (tag : Option (Fin 16)) (wack : Bool) : Context :=
  let c := match tag with
    | some k => c.rise k
    | none => c
  if wack then c.ackRise else c

/-- Markers lose a retired command; those that await nothing are retired (R169). -/
def dropId (id : Nat) (ms : List Marker) : List Marker :=
  (ms.map fun m => { m with wait := m.wait.filter (· != id) }).filter fun m => !m.wait.isEmpty

/-- A command leaves the ledger: it has retired, or faulted at its head. `counted` is false for a command whose guard
never resolved true. Its tagged counter falls (R360). -/
def Tile.retire (t : Tile) (id : Nat) (counted : Bool) : Tile :=
  match t.live.find? fun l => l.id == id with
  | none => t
  | some l =>
    let t := { t with live := t.live.filter fun l => l.id != id }
    let t := if counted then
        match l.tag with
        | some k => t.modCtx l.ctx fun c => c.fall k
        | none => t
      else t
    { t with ctxs := t.ctxs.map fun c => { c with markers := dropId id c.markers } }

/-- A new command takes an id and its ledger line. -/
def Tile.enroll (t : Tile) (c : Fin 4) (q : Fin 3) (tag : Option (Fin 16)) (coll wack : Bool) : Tile × Nat :=
  ({ t with nextId := t.nextId + 1, live := t.live ++ [⟨t.nextId, c, q, tag, coll, wack⟩] }, t.nextId)

/-! ### Faults (R111, R156, R158, R373 to R379) -/

/-- A cause raised at issue or at a head, before its place is known. -/
structure Cause where
  code : Nat
  slot : Nat
  aux : Nat
  finfo : Word
  deriving DecidableEq, Repr

/-- `CAUSE` (R111): `precise` sets P, `engine` sets E. -/
def Cause.word (f : Cause) (precise engine : Bool) : Word :=
  BitVec.ofNat 32 (f.code % 256 + 256 * precise.toNat + 512 * (f.slot % 8) + 4096 * engine.toNat + 65536 * (f.aux % 65536))

def cIllegal : Nat := 1
def cTarget : Nat := 2
def cTiming : Nat := 3
def cSchedule : Nat := 4
def cBuffer : Nat := 5
def cOverflow : Nat := 6
def cPrecision : Nat := 7
def cAccMode : Nat := 8
def cCopy : Nat := 9
def cView : Nat := 10
def cTrap : Nat := 11
def cLost : Nat := 13

/-- `FINFO` of each cause (R375). -/
def fiTarget (tc : Nat) : Word := BitVec.ofNat 32 tc
def fiTiming (tk rg : Nat) (hd : Bool) (late : Nat) : Word := BitVec.ofNat 32 (tk + 2 * rg + 16 * hd.toNat + 256 * min 255 late)
def fiSchedule (idx rk tag : Nat) : Word := BitVec.ofNat 32 (idx % 256 + 256 * rk + 2048 * tag)
def fiBuffer (buf : Nat) (st : BufState) (shw : Bool) (addr : Nat) : Word :=
  BitVec.ofNat 32 (buf + 32 * st.code + 128 * shw.toNat + 256 * (addr % 65536))
def fiOverflow (q qi : Nat) : Word := BitVec.ofNat 32 (q + 16 * (qi % 256))
def fiAccMode (row rmd am : Nat) : Word := BitVec.ofNat 32 (row + 64 * rmd + 256 * am)
def fiCopy (rsn lvl x : Nat) : Word := BitVec.ofNat 32 (rsn + 16 * lvl + 256 * (x % 2 ^ 23))

def causeSchedule (slot idx rk : Nat) : Cause := ⟨cSchedule, slot, 0, fiSchedule idx rk 0⟩
def causeBuffer (slot buf : Nat) (st : BufState) (shw : Bool) (addr : Nat) : Cause :=
  ⟨cBuffer, slot, 0, fiBuffer buf st shw addr⟩
def causeOverflow (slot q qi : Nat) : Cause := ⟨cOverflow, slot, 0, fiOverflow q qi⟩
def causeCopy (slot rsn lvl x : Nat) : Cause := ⟨cCopy, slot, 0, fiCopy rsn lvl x⟩

/-- A bank-lock window of a context closes early, one whose last bundle has issued among them (R173). It holds through the tick of
the close: DESIGN CHOICE, log 82. -/
def Tile.closeLock (t : Tile) (c : Fin 4) (now : Nat) : Tile :=
  match t.lock with
  | some l => if l.ctx = c then { t with lock := some { l with close := some ((l.close.getD now).min now) } } else t
  | none => t

/-- What a delivery leaves in `PXFR` and `EPC` when it meets a transfer's delay bundles (R156): `trapDone` when the
bundle of the cause has issued (TRAP). -/
def Context.pxfrOf (c : Context) : Option Xfer :=
  match c.xfer with
  | some x => if x.taken && x.count > 0 then some x else none
  | none => none

/-- Delivery of a trap or fault (R156): the state it saves and where the pc goes. -/
def Context.enterTrap (c : Context) (cause finfo : Word) (fpc epc : VAddr) : Context :=
  { c.setIt true with
    cause := cause, finfo := finfo, fpc := fpc, epc := epc, pxfr := c.pxfrOf, xfer := none, itClear := false,
    pc := c.trapv, held := false, safe := false }

/-- A context that R158 stops: it keeps the cause for the queen core's record and issues nothing more. -/
def Context.stopWith (c : Context) (cause finfo : Word) (fpc epc : VAddr) : Context :=
  { c with cause := cause, finfo := finfo, fpc := fpc, epc := epc, st := .stopped, held := false, safe := false }

/-- Whether a cause that arises now is delivered to `TRAPV` (R158). -/
def Context.canTrap (c : Context) : Bool := !c.it && c.trapv != 0

/-- A trap or fault of a context arises (R156, R158): it is delivered, or the context stops and its fault goes to the
queen core. -/
def State.raise (s : State) (t : TileId) (c : Fin 4) (cause finfo : Word) (fpc epc : VAddr) : State :=
  let s := s.modTile t fun x => x.closeLock c s.now
  if (s.ctx t c).canTrap then s.modCtx t c fun x => x.enterTrap cause finfo fpc epc
  else (s.modCtx t c fun x => x.stopWith cause finfo fpc epc).first (.ev (.faultRecord t c))

/-- A fault of the issuing bundle, precise at issue (R373, R378 step 2): no slot has taken effect, `EPC` holds the
bundle. -/
def State.issueFault (s : State) (t : TileId) (c : Fin 4) (f : Cause) : State :=
  let s := if f.code = cOverflow then s.modTile t fun x => x.event 0x14 1 else s
  s.raise t c (f.word true false) f.finfo s.cur.pc s.cur.pc

/-- A fault reported at an engine queue head goes to its queue's place (R377). One of a task that has ended takes none: it waits
only for the queen core to append it to the launch's fault record (R379). -/
def Context.report (c : Context) (q : Fin 3) (flt : FaultRec) (now : Nat) : Context :=
  if c.st = .halted ∨ c.st = .free then { c with late := c.late ++ [flt] } else
  match c.faults[q] with
  | none => { c with faults := vset c.faults q (some ⟨flt, now⟩) }
  | some p => { c with faults := vset c.faults q (some { p with flt := { p.flt with finfo := p.flt.finfo ||| 0x80000000 } }) }

/-- The record a head fault leaves. -/
def Cause.record (f : Cause) (fpc : VAddr) : FaultRec := ⟨f.word false true, f.finfo, fpc⟩

def State.headFault (s : State) (t : TileId) (c : Fin 4) (q : Fin 3) (f : Cause) (fpc : VAddr) : State :=
  let x := s.ctx t c
  let s := s.modCtx t c fun x => x.report q (f.record fpc) s.now
  if x.st = .halted ∨ x.st = .free then s.first (.ev (.faultRecord t c)) else s

end Sys2Proof.Machine
end

