-- ==== Sys2Proof/Machine/Operands.lean ====
section
/-! DEFINITION. Operand forms of the slots: effective addresses of the LD and ST slots and LDQ (R132, R219, R223), the
buffer-window check of their bytes (R188, R220), the bank hold (R221), and the guards of the engine slots (R31, R176). -/

namespace Sys2Proof.Machine

/-- (base + off × scale) mod 65,536, aligned down (R219). -/
def ea (base : Word) (off : Int) (scale align : Nat) : Nat :=
  (((base.toNat : Int) + off * scale) % 65536).toNat / align * align

/-- Consecutive byte addresses, each modulo 65,536. -/
def span (a n : Nat) : List Nat := (List.range n).map fun i => spmAddr (a + i)

/-- Lane addresses of a contiguous vector access. -/
def lanesUnit (a : Nat) : List Nat := (List.range 32).map fun i => spmAddr (a + 4 * i)

/-- Lane addresses of a strided access, the stride a signed count of bytes (R223). -/
def lanesStride (a : Nat) (stride : Word) : List Nat :=
  (List.range 32).map fun (i : Nat) => (((a : Int) + i * stride.toInt) % 65536).toNat / 4 * 4

/-- Lane addresses of an indexed access: an unsigned 16-bit count of bytes for each lane (R223). -/
def lanesIndex (a : Nat) (v : Vec) : List Nat :=
  (List.finRange 32).map fun i => (a + v[i].toNat % 65536) % 65536 / 4 * 4

/-- The four bytes of each word address. -/
def wordsBytes (ws : List Nat) : List Nat := ws.flatMap fun a => span a 4

/-! ### Buffer windows (R188, R220) -/

/-- `a` lies in [lo, lo + n). -/
def inSpan (a lo n : Nat) : Bool := decide (lo ≤ a) && decide (a < lo + n)

/-- The lowest-numbered declared buffer whose shadow window holds an address. -/
def Tile.shadowBuf (t : Tile) (a : Nat) : Option (Fin 32) :=
  (List.finRange 32).find? fun b => t.declared b && inSpan a (t.bufs[b].b + t.bufs[b].s) t.bufs[b].s

/-- The lowest-numbered declared buffer whose front window holds an address. -/
def Tile.frontBuf (t : Tile) (a : Nat) : Option (Fin 32) :=
  (List.finRange 32).find? fun b => t.declared b && inSpan a t.bufs[b].b t.bufs[b].s

/-- The check of one byte address of a slot access, as the buffer table stands on the issue tick (R220). -/
def Tile.slotByte (t : Tile) (slot : Nat) (write : Bool) (a : Nat) : Except Cause SlotByte :=
  match t.shadowBuf a with
  | some b => .error (causeBuffer slot b.val t.bufs[b].state true a)
  | none =>
    match t.frontBuf a with
    | some b =>
      if write && t.bufs[b].state == .draining then .error (causeBuffer slot b.val .draining false a)
      else .ok ⟨a, a + t.bufs[b].s, some b⟩
    | none => .ok ⟨a, a, none⟩

/-- Every byte of an access; the first failing byte in access order is reported. -/
def Tile.slotBytes (t : Tile) (slot : Nat) (write : Bool) : List Nat → Except Cause (List SlotByte)
  | [] => .ok []
  | a :: as =>
    match t.slotByte slot write a with
    | .error f => .error f
    | .ok b =>
      match t.slotBytes slot write as with
      | .error f => .error f
      | .ok bs => .ok (b :: bs)

/-- Where a checked byte lies on the tick on which it performs: the half that `FH` names (R188, R220). -/
def Tile.place (t : Tile) (b : SlotByte) : Nat :=
  match b.buf with
  | none => b.addr
  | some k => if t.bufs[k].fh then spmAddr b.h1 else b.addr

/-! ### The store-history buffer (R51, R224) -/

/-- The captured byte that a load at task tick `l` is to return for an address, if any: the oldest write it may not see. -/
def Context.captured (c : Context) (l a : Nat) : Option Byte :=
  (c.hist.find? fun h => h.addr == a && decide (l < h.tt + h.lat)).map HistByte.old

/-- A byte as a load of the context issued at task tick `l` reads it on this tick. -/
def Tile.loadByte (t : Tile) (c : Fin 4) (l : Nat) (a : Nat) : Byte :=
  match (t.ctx c).captured l a with
  | some b => b
  | none => if t.upset 0 (a / 4) == some true then 0 else t.spmPrev.read a

/-- Captures that no load of the context can need any more fall out (R51). -/
def Context.pruneHist (c : Context) : Context := { c with hist := c.hist.filter fun h => decide (c.tt < h.tt + h.lat + 2) }

/-! ### Bank holds (R221) -/

/-- The largest number of distinct words of an access that lie in one bank. -/
def bankLoad (ws : List Nat) : Nat :=
  let ds := (ws.map fun a => a / 4).dedup
  (List.range 32).foldl (fun k b => max k ((ds.filter fun w => w % 32 == b).length)) 0

/-! ### Guards (R31, R102, R128, R176) -/

/-- A guard on committed predicates: slots 1 to 5. -/
def Context.guard (c : Context) (g : Nat) : Bool :=
  let v := c.readP (Fin.ofNat 16 g)
  if g / 16 % 2 = 1 then !v else v

/-- The pending write a slot 6 or 7 guard binds to: the newest that the context has issued. -/
def Context.boundWrite (c : Context) (p : Fin 16) : Option Bool :=
  if p = 0 then none else
  c.pend.foldl (fun acc x => match x.dst with
    | .p q v => if q = p then some v else acc
    | _ => acc) none

/-- A guard of slots 6 and 7: resolved false answers none. -/
def Context.engineGuard (c : Context) (g : Nat) : Option QGuard :=
  let inv := g / 16 % 2 == 1
  match c.boundWrite (Fin.ofNat 16 g) with
  | some v => some (.unresolved v inv)
  | none => if c.guard g then some .yes else none

end Sys2Proof.Machine
end

