-- ==== Sys2Proof/Machine/Ecc.lean ====
section
/-! DEFINITION. SECDED of the tile's memories (R204): table words that do not read, write-back of corrected words, the
scrubber. -/

namespace Sys2Proof.Machine

/-- A send window whose word does not read. -/
def Chan.noWindow (c : Chan) : Chan := { c with cr := 0, rsv := 0, inf := 0, df := 0 }

/-- The table entries as a command reads them: one with an uncorrectable word reads as not valid, and such a route or
send-window word reads as zero. -/
def Tile.tableView (t : Tile) : Tile :=
  if t.upsets.all (fun u => u.mem != 2) then t else
  { t with
    chans := t.chans.map fun e =>
      let c := if t.badTable (winOff e.1) 4 then e.2.noWindow else e.2
      (e.1, if t.badTable (chanOff e.1) 16 then { c with v := false } else c)
    routes := t.routes.map fun e => if t.badTable (routeOff e.1) 8 then (e.1, 0) else e
    bufs := Vector.ofFn fun b : Fin 32 =>
      if t.badTable (bufOff b.val) 16 then { t.bufs[b] with v := false } else t.bufs[b]
    rings := Vector.ofFn fun r : Fin 8 =>
      if t.badTable (ringOff r.val) 8 then { t.rings[r] with v := false } else t.rings[r]
    tmc := t.tmc.filter fun e => !t.badTable (mapOff e.slot) 16
    views := ((List.range t.views.length).zip t.views).map fun e =>
      if t.badTable (viewOff e.1) 16 then { e.2 with v := false } else e.2 }

/-- A command of a context reads a table entry. -/
def Tile.noteTable (t : Tile) (c : Fin 4) (off n : Nat) : Tile :=
  if t.upsets.isEmpty then t else
  let ws := tableWords off n
  let u := t.noteReads 2 ws
  if (t.upsetWords 2 true ws).isEmpty then u else u.modCtx c Context.setErr

/-- A corrected word is written back on an idle engine-port tick. -/
def execEccWriteback (t : TileId) (s : State) : Out :=
  .next (s.modTile t fun x =>
    match x.fixes with
    | [] => x
    | f :: rest => { x with fixes := rest, upsets := x.upsets.filter fun u => u != f })

/-- Words of scratchpad, ACM, table memory and plane entries, in the scrubber's order. -/
def scrubWords : Nat := 16384 + 8192 + 2048 + 16384

def scrubWord (k : Nat) : Fin 4 × Nat :=
  if k < 16384 then (0, k)
  else if k < 24576 then (1, k - 16384)
  else if k < 26624 then (2, k - 24576)
  else (3, k - 26624)

/-- Tick from which the scrubber's next word is due: each word once in 2^24 ticks. -/
def Tile.scrubDue (t : Tile) : Nat := t.scrubAt / scrubWords * 2 ^ 24 + t.scrubAt % scrubWords * 390

/-- The scrubber reads a word on an otherwise unclaimed engine-port tick. -/
def execScrub (t : TileId) (s : State) : Out :=
  .next (s.modTile t fun x =>
    let w := scrubWord (x.scrubAt % scrubWords)
    { x.noteReads w.1 [w.2] with scrubAt := x.scrubAt + 1 })

end Sys2Proof.Machine
end

