-- ==== Sys2Proof/Machine/Flags.lean ====
section
/-! DEFINITION. Flag computations: the rounding mode in force (R90), the flags that vector lanes raise (R92, R136), and
STATUS writes (R110, R117). -/

namespace Sys2Proof.Machine

/-- The vector rounding mode (R90). -/
def Context.rmode (c : Context) : RMode := RMode.ofCode (c.round.toNat % 4)

/-- A lane's result with the flags it raises. -/
structure LaneRes where
  val : Word
  fl : Flags
  deriving DecidableEq, Repr

def LaneRes.quiet (w : Word) : LaneRes := ⟨w, Flags.none⟩
def LaneRes.off : LaneRes := ⟨0, Flags.none⟩
def FRes.lane (r : FRes) : LaneRes := ⟨BitVec.ofNat 32 r.bits, r.flags⟩

/-- Two BF16 halves make a lane (R134). -/
def pairLane (lo hi : FRes) : LaneRes := ⟨BitVec.ofNat 32 (lo.bits + 65536 * hi.bits), lo.flags.or hi.flags⟩

def loHalf (w : Word) : Nat := w.toNat % 65536
def hiHalf (w : Word) : Nat := w.toNat / 65536

/-- Flags of all lanes together. -/
def laneFlags (r : Vector LaneRes 32) : Flags := r.toList.foldl (fun a x => a.or x.fl) Flags.none

/-- The acting slot raises flags, visible at its due tick (R92, R117). -/
def State.raiseFlags (s : State) (lat : Nat) (f : Flags) : State :=
  if f = Flags.none then s else s.result lat (.flags (f.bits.setWidth 6))

/-- A vector result: lanes and flags commit together (R136). -/
def State.vecResult (s : State) (lat : Nat) (vd : Fin 16) (lanes : Word) (r : Vector LaneRes 32) : State :=
  (s.result lat (.v vd lanes (r.map LaneRes.val))).raiseFlags lat (laneFlags r)

/-- A mask's bit for a lane. -/
def laneOn (m : Word) (i : Fin 32) : Bool := m.getLsbD i.val

/-- Lanes computed where enabled. -/
def lanesOf (e : Word) (f : Fin 32 → LaneRes) : Vector LaneRes 32 :=
  Vector.ofFn fun i => if laneOn e i then f i else LaneRes.off

/-- The enabled lanes of an instruction with a MASK field (R135). -/
def State.enabled (s : State) (mk : Fin 8) : Word := s.rm mk &&& s.curCtx.top

/-- A word of bits given lane by lane. -/
def bitsOf (f : Fin 32 → Bool) : Word :=
  (List.finRange 32).foldl (fun w i => if f i then w ||| (1#32 <<< i.val) else w) 0

end Sys2Proof.Machine
end

