-- ==== Sys2Proof/Machine/LoadStore.lean ====
section
/-! DEFINITION. The LD and ST slots (R219 to R226): on issue each checks its bytes (R220) and leaves a pending access;
`Tile.perform` performs the accesses of a tick, every read before every write (R51, R180). -/

namespace Sys2Proof.Machine

/-- A load: bytes checked, read on issue + 1, the result due `lat` task ticks after issue (R222, R223). -/
def loadSlot (as : List Nat) (lat : Nat) (k : ReadKind) (s : State) : Out :=
  match s.curTile.slotBytes 3 false as with
  | .error f => .next (s.issueFault s.cur.tile s.cur.ctx f)
  | .ok bs => .next (s.modCurTile fun t =>
      { t with reads := t.reads ++ [⟨s.now + 1, s.cur.ctx, s.cur.tt, 3, s.cur.tt + lat, bs, k⟩] })

/-- A store: bytes checked, written on issue + 2. -/
def storeSlot (data : List (Nat × Byte)) (s : State) : Out :=
  match s.curTile.slotBytes 4 true (data.map Prod.fst) with
  | .error f => .next (s.issueFault s.cur.tile s.cur.ctx f)
  | .ok bs => .next (s.modCurTile fun t =>
      { t with writes := t.writes ++ [⟨s.now + 2, s.cur.ctx, s.cur.tt, 2, bs.zip (data.map Prod.snd)⟩] })

/-! ### The bytes of each form -/

/-- The bytes of a scalar or mask access. -/
def scalarBytes (n : Nat) (base : Fin 32) (off : BitVec 11) (s : State) : List Nat := span (ea (s.rs base) off.toInt n n) n
/-- The bytes of a unit-stride vector access. -/
def rowBytes (base : Fin 32) (off : Int) (s : State) : List Nat := wordsBytes (lanesUnit (ea (s.rs base) off 128 128))
/-- The words of a strided access: base + offset is aligned to 4 before the strides are added, and each sum again (log 74). -/
def strideWords (base stride : Fin 32) (off : BitVec 6) (s : State) : List Nat :=
  lanesStride (ea (s.rs base) off.toInt 4 4) (s.rs stride)
/-- The words of an indexed access, aligned in the same way (log 74). -/
def indexWords (base : Fin 32) (vi : Fin 16) (off : BitVec 6) (s : State) : List Nat :=
  lanesIndex (ea (s.rs base) off.toInt 4 4) (s.rv vi)
/-- The bytes of LDACC and STACC, and of an atomic. -/
def accBytes (base : Fin 32) (off : BitVec 10) (s : State) : List Nat := span (ea (s.rs base) off.toInt 128 128) 512
def amoBytes (base : Fin 32) (s : State) : List Nat := span (ea (s.rs base) 0 4 4) 4

/-- The bytes of a word at an address. -/
def wordBytes (a : Nat) (w : Word) : List (Nat × Byte) := (span a 4).zip (leBytes 4 w.toNat)

/-- The bytes a vector store writes, in lane order: the higher-numbered lane's bytes come last (R223). -/
def laneData (ws : List Nat) (v : Vec) : List (Nat × Byte) :=
  (ws.zip (List.finRange 32)).flatMap fun e => wordBytes e.1 v[e.2]

/-! ### Loads -/

def execLdb (rd base : Fin 32) (off : BitVec 11) (s : State) : Out :=
  loadSlot (scalarBytes 1 base off s) 3 (.scalar rd 1 true) s
def execLdbu (rd base : Fin 32) (off : BitVec 11) (s : State) : Out :=
  loadSlot (scalarBytes 1 base off s) 3 (.scalar rd 1 false) s
def execLdh (rd base : Fin 32) (off : BitVec 11) (s : State) : Out :=
  loadSlot (scalarBytes 2 base off s) 3 (.scalar rd 2 true) s
def execLdhu (rd base : Fin 32) (off : BitVec 11) (s : State) : Out :=
  loadSlot (scalarBytes 2 base off s) 3 (.scalar rd 2 false) s
def execLdw (rd base : Fin 32) (off : BitVec 11) (s : State) : Out :=
  loadSlot (scalarBytes 4 base off s) 3 (.scalar rd 4 false) s
def execLdv (vd : Fin 16) (base : Fin 32) (off : BitVec 11) (s : State) : Out :=
  loadSlot (rowBytes base off.toInt s) 4 (.vec vd) s
def execLdvs (vd : Fin 16) (base stride : Fin 32) (off : BitVec 6) (s : State) : Out :=
  loadSlot (wordsBytes (strideWords base stride off s)) 4 (.vec vd) s
def execLdvx (vd : Fin 16) (base : Fin 32) (vi : Fin 16) (off : BitVec 6) (s : State) : Out :=
  loadSlot (wordsBytes (indexWords base vi off s)) 6 (.vec vd) s
def execLdm (md : Fin 8) (base : Fin 32) (off : BitVec 11) (s : State) : Out :=
  loadSlot (scalarBytes 4 base off s) 4 (.mask md) s

/-- A context owns the array (R114). -/
def Tile.owns (t : Tile) (c : Fin 4) : Bool := t.ownV && t.own == c

/-- LDACC reads its row on issue + 1 and writes 512 bytes on issue + 4 (R224); the owner sees the row as its task tick
stands, the others as the real tick does (R183). -/
def execLdacc (row : Fin 64) (base : Fin 32) (off : BitVec 10) (s : State) : Out :=
  match s.curTile.slotBytes 3 true (accBytes base off s) with
  | .error f => .next (s.issueFault s.cur.tile s.cur.ctx f)
  | .ok bs => .next (s.modCurTile fun t =>
      { t with ldaccs := t.ldaccs ++ [⟨s.now + 1, s.cur.ctx, s.cur.tt, row,
          if t.owns s.cur.ctx then some t.acm[row].entries else none, bs⟩] })

/-! ### Stores -/

def execStb (rs base : Fin 32) (off : BitVec 11) (s : State) : Out :=
  storeSlot ((scalarBytes 1 base off s).zip (leBytes 1 (s.rs rs).toNat)) s
def execSth (rs base : Fin 32) (off : BitVec 11) (s : State) : Out :=
  storeSlot ((scalarBytes 2 base off s).zip (leBytes 2 (s.rs rs).toNat)) s
def execStw (rs base : Fin 32) (off : BitVec 11) (s : State) : Out :=
  storeSlot ((scalarBytes 4 base off s).zip (leBytes 4 (s.rs rs).toNat)) s
def execStv (vs : Fin 16) (base : Fin 32) (off : BitVec 11) (s : State) : Out :=
  storeSlot (laneData (lanesUnit (ea (s.rs base) off.toInt 128 128)) (s.rv vs)) s

/-- The words and lanes an STVM writes: those whose mask bit is 1, the only ones checked (R223). -/
def maskedData (ws : List Nat) (m : Word) (v : Vec) : List (Nat × Byte) :=
  (ws.zip (List.finRange 32)).flatMap fun e => if laneOn m e.2 then wordBytes e.1 v[e.2] else []

def execStvm (vs : Fin 16) (base : Fin 32) (mk : Fin 8) (off : BitVec 6) (s : State) : Out :=
  storeSlot (maskedData (lanesUnit (ea (s.rs base) off.toInt 128 128)) (s.rm mk) (s.rv vs)) s
def execStvs (vs : Fin 16) (base stride : Fin 32) (off : BitVec 6) (s : State) : Out :=
  storeSlot (laneData (strideWords base stride off s) (s.rv vs)) s
def execStvx (vs : Fin 16) (base : Fin 32) (vi : Fin 16) (off : BitVec 6) (s : State) : Out :=
  storeSlot (laneData (indexWords base vi off s) (s.rv vs)) s

/-- STACC reads on issue + 1 and writes its row on issue + 2 (R225). -/
def execStacc (row : Fin 64) (base : Fin 32) (off : BitVec 10) (s : State) : Out :=
  match s.curTile.slotBytes 4 false (accBytes base off s) with
  | .error f => .next (s.issueFault s.cur.tile s.cur.ctx f)
  | .ok bs => .next (s.modCurTile fun t =>
      { t with reads := t.reads ++ [⟨s.now + 1, s.cur.ctx, s.cur.tt, 4, s.cur.tt, bs, .stacc row⟩] })

/-- An atomic: one access on issue + 2, result due at issue + 3 task ticks (R226). -/
def atomicSlot (base : Fin 32) (k : ReadKind) (s : State) : Out :=
  match s.curTile.slotBytes 4 true (amoBytes base s) with
  | .error f => .next (s.issueFault s.cur.tile s.cur.ctx f)
  | .ok bs => .next (s.modCurTile fun t =>
      { t with reads := t.reads ++ [⟨s.now + 2, s.cur.ctx, s.cur.tt, 4, s.cur.tt + 3, bs, k⟩] })

def execAmo (op : AmoOp) (rd base rx : Fin 32) (s : State) : Out := atomicSlot base (.amo rd op (s.rs rx)) s
def execCas (rd base rx : Fin 32) (s : State) : Out := atomicSlot base (.cas rd (s.rs rx) (s.rs rd)) s

/-! ### Issue causes and bank holds of the two slots -/

/-- The error of a check. -/
def causeOf {α : Type} : Except Cause α → Option Cause
  | .error f => some f
  | .ok _ => none

/-- The buffer-state fault that a memory instruction would raise at issue (R220). -/
def memCause (i : Instr) (s : State) : Option Cause :=
  let t := s.curTile
  let ld (as : List Nat) := causeOf (t.slotBytes 3 false as)
  let st (d : List (Nat × Byte)) := causeOf (t.slotBytes 4 true (d.map Prod.fst))
  match i with
  | .ldb _ base off | .ldbu _ base off => ld (scalarBytes 1 base off s)
  | .ldh _ base off | .ldhu _ base off => ld (scalarBytes 2 base off s)
  | .ldw _ base off | .ldm _ base off => ld (scalarBytes 4 base off s)
  | .ldv _ base off => ld (rowBytes base off.toInt s)
  | .ldvs _ base stride off => ld (wordsBytes (strideWords base stride off s))
  | .ldvx _ base vi off => ld (wordsBytes (indexWords base vi off s))
  | .ldacc _ base off => causeOf (t.slotBytes 3 true (accBytes base off s))
  | .stb _ base off => causeOf (t.slotBytes 4 true (scalarBytes 1 base off s))
  | .sth _ base off => causeOf (t.slotBytes 4 true (scalarBytes 2 base off s))
  | .stw _ base off => causeOf (t.slotBytes 4 true (scalarBytes 4 base off s))
  | .stv vs base off => st (laneData (lanesUnit (ea (s.rs base) off.toInt 128 128)) (s.rv vs))
  | .stvm vs base mk off => st (maskedData (lanesUnit (ea (s.rs base) off.toInt 128 128)) (s.rm mk) (s.rv vs))
  | .stvs vs base stride off => st (laneData (strideWords base stride off s) (s.rv vs))
  | .stvx vs base vi off => st (laneData (indexWords base vi off s) (s.rv vs))
  | .stacc _ base off => causeOf (t.slotBytes 4 false (accBytes base off s))
  | .amo _ _ base _ | .cas _ base _ => causeOf (t.slotBytes 4 true (amoBytes base s))
  | _ => none

/-- k of R221 for one access. -/
def accessLoad (i : Instr) (s : State) : Nat :=
  match i with
  | .ldvs _ base stride off | .stvs _ base stride off => bankLoad (strideWords base stride off s)
  | .ldvx _ base vi off | .stvx _ base vi off => bankLoad (indexWords base vi off s)
  | .ldacc _ _ _ | .stacc _ _ _ => 4
  | _ => 1

/-! ### Performing -/

/-- 32 words from 128 bytes, 128 words from 512 bytes. -/
def vecOfBytes (bs : List Byte) : Vec := Vector.ofFn fun i => leWord ((bs.drop (4 * i.val)).take 4)
def rowOfBytes (bs : List Byte) : Row := Vector.ofFn fun i => leWord ((bs.drop (4 * i.val)).take 4)
def bytesOfRow (r : Row) : List Byte := r.toList.flatMap fun w => leBytes 4 w.toNat

/-- The new word of an atomic (R226). -/
def amoWord (op : AmoOp) (w x : Word) : Word :=
  match op with
  | .add => w + x
  | .min => if x.slt w then x else w
  | .max => if w.slt x then x else w
  | .minu => if x.ult w then x else w
  | .maxu => if w.ult x then x else w
  | .and => w &&& x
  | .or => w ||| x
  | .xor => w ^^^ x
  | .swap => x

/-- A load's value from its bytes. -/
def loadValue (bytes : Nat) (signed : Bool) (bs : List Byte) : Word :=
  if signed then BitVec.ofInt 32 (sext (leNat bs) (8 * bytes)) else leWord bs

/-- A pending result of a context, unless its task has ended (R155). -/
def Context.owe (c : Context) (x : Commit) : Context := if c.st = .halted || c.st = .free then c else c.push x

/-- A result of a performed read becomes pending. -/
def Tile.give (t : Tile) (r : PendRead) (d : Dst) : Tile := t.modCtx r.ctx fun c => c.owe ⟨r.due, r.tt, r.slot, d⟩

/-- The counts of a load's words; `ERR` for an uncorrectable one is set at the load's due tick (R110, R117, R204). -/
def Tile.loadReads (t : Tile) (c : Fin 4) (mem : Fin 4) (ws : List Nat) (due tt slot : Nat) : Tile :=
  let u := t.noteReads mem ws
  if (t.upsetWords mem true ws).isEmpty then u else u.modCtx c fun x => x.owe ⟨due, tt, slot, .flags 0x20⟩

/-- Bytes written by a slot of a context at a task tick: each is captured as it stood at the end of the previous tick. -/
def Tile.slotWrite (t : Tile) (c : Fin 4) (tt lat : Nat) (l : List (Nat × Byte)) : Tile :=
  let caps := (l.map Prod.fst).dedup.map fun a => (⟨a, t.spmPrev.read a, tt, lat⟩ : HistByte)
  (t.modCtx c fun x => { x with hist := x.hist ++ caps }).writeSpm l

/-- One read performs (R51, R132, R204, R222 to R226). -/
def Tile.performRead (t : Tile) (now : Nat) (r : PendRead) : Tile :=
  let as := r.bytes.map t.place
  let ws := as.map (· / 4)
  let bs := as.map (t.loadByte r.ctx r.tt)
  let t' := t.loadReads r.ctx 0 ws r.due r.tt r.slot
  match r.kind with
  | .scalar rd n sg => t'.give r (.s rd (loadValue n sg bs))
  | .vec vd => t'.give r (.v vd (BitVec.allOnes 32) (vecOfBytes bs))
  | .mask md => t'.give r (.m md (leWord bs))
  | .scale qd =>
    let v : Row := (rowOfBytes bs).map fun w => w &&& 0xFFFFFF
    { t' with qpend := t'.qpend ++ [⟨r.ctx, r.due, some (now + 4), qd, v⟩] }
  | .stacc row => { t' with staccs := t'.staccs ++ [⟨now + 1, r.ctx, row, rowOfBytes bs⟩] }
  | .amo rd op x =>
    let w := leWord (t.readSpm as)
    (t'.slotWrite r.ctx r.tt 2 (as.zip (leBytes 4 (amoWord op w x).toNat))).give r (.s rd w)
  | .cas rd x new =>
    let w := leWord (t.readSpm as)
    let t' := if w = x then t'.slotWrite r.ctx r.tt 2 (as.zip (leBytes 4 new.toNat)) else t'
    t'.give r (.s rd w)

/-- A row write of STACC (R184, R225). -/
def Tile.performStacc (t : Tile) (p : PendStacc) : Tile :=
  let r := t.acm[p.row]
  let r := if r.mode = .clear then { r with mode := .i32sat, ft := 0 } else r
  { t with acm := vset t.acm p.row { r with entries := p.entries } }.clearUpsets 1 ((List.range 128).map (p.row.val * 128 + ·))

/-- Entries of an ACM row as a read sees them: uncorrectable words are zero (R204). -/
def Tile.accEntries (t : Tile) (row : Fin 64) (e : Row) : Row :=
  if t.upsets.isEmpty then e
  else Vector.ofFn fun i : Fin 128 => if t.upset 1 (row.val * 128 + i.val) == some true then 0 else e[i]

/-- An LDACC reads its row; its write performs three ticks later. -/
def Tile.performLdacc (t : Tile) (now : Nat) (p : PendLdacc) : Tile :=
  let ws := (List.range 128).map (p.row.val * 128 + ·)
  let e := t.accEntries p.row (p.img.getD t.acm[p.row].entries)
  let t' := t.loadReads p.ctx 1 ws (p.tt + 4) p.tt 3
  { t' with writes := t'.writes ++ [⟨now + 3, p.ctx, p.tt, 4, p.bytes.zip (bytesOfRow e)⟩] }

/-- A slot write performs. -/
def Tile.performWrite (t : Tile) (w : PendWrite) : Tile :=
  t.slotWrite w.ctx w.tt w.lat (w.data.map fun e => (t.place e.1, e.2))

/-- The STACC row writes of a tick: before the array's reads of the tick, which see them (R225, R252), and before the pending
commits that fall due on it, which replace them (R183). -/
def Tile.performStaccs (t : Tile) (now : Nat) : Tile :=
  (t.staccs.filter fun p => p.tick ≤ now).foldl Tile.performStacc { t with staccs := t.staccs.filter fun p => now < p.tick }

/-- The scratchpad accesses of the slots on a tick: reads, LDACC row reads, ST-slot writes, LDACC writes (R180, R224). -/
def Tile.perform (t : Tile) (now : Nat) : Tile :=
  let rs := t.reads.filter fun r => r.tick ≤ now
  let t := { t with reads := t.reads.filter fun r => now < r.tick }
  let t := rs.foldl (fun t r => t.performRead now r) t
  let ls := t.ldaccs.filter fun p => p.tick ≤ now
  let t := ls.foldl (fun t p => t.performLdacc now p) { t with ldaccs := t.ldaccs.filter fun p => now < p.tick }
  let ws := t.writes.filter fun w => w.tick ≤ now
  let t := { t with writes := t.writes.filter fun w => now < w.tick }
  let t := (ws.filter fun w => w.lat = 2).foldl Tile.performWrite t
  let t := (ws.filter fun w => w.lat ≠ 2).foldl Tile.performWrite t
  { t with ctxs := t.ctxs.map Context.pruneHist }

/-! ### Scale registers as a context sees them (R133) -/

/-- An LDQ's own context has reached its due tick. -/
def Tile.ownSees (t : Tile) (p : QPend) : Bool := decide (p.due ≤ (t.ctx p.ctx).tt)
/-- The other contexts see an LDQ on a real tick. -/
def Tile.othersSee (t : Tile) (now : Nat) (p : QPend) : Bool :=
  match p.real with
  | some k => decide (k ≤ now)
  | none => t.ownSees p

/-- A scale register for a command issued by a context at its task tick on this real tick; of the LDQs it sees, the one read
last (log 61). -/
def Tile.scale (t : Tile) (c : Fin 4) (now : Nat) (r : Fin 8) : Row :=
  t.qpend.foldl (fun v p => if p.reg = r ∧ (if p.ctx = c then t.ownSees p else t.othersSee now p) then p.val else v) t.q[r]

/-- Pending scale values that every context sees join the register, oldest first. -/
def Tile.settleScales (t : Tile) (now : Nat) : Tile :=
  let done := t.qpend.takeWhile fun p => t.ownSees p && t.othersSee now p
  done.foldl (fun t p => { t with q := vset t.q p.reg p.val }) { t with qpend := t.qpend.drop done.length }

/-- The LDQs of a context that is gone: those that have become visible to it by its last bundle, or to the others, stay for
all; `keep` tells whether the rest stay as the others see them, or are withdrawn (R46, R133, R155). -/
def Tile.leaveScales (t : Tile) (c : Fin 4) (now : Nat) (keep : Bool) : Tile :=
  { t with qpend := t.qpend.filterMap fun p =>
      if p.ctx ≠ c then some p
      else if p.due < (t.ctx c).tt ∨ t.othersSee now p ∨ (keep ∧ p.real.isSome) then some { p with due := 0 } else none }

/-- Saved scale registers are written over what their readers see; an LDQ of another context that has not reached its due tick
still commits on it (R48, R384). -/
def Tile.restoreScales (t : Tile) (now : Nat) (qs : List (Fin 8 × Row)) (own : List QPend) : Tile :=
  let marked (p : QPend) : Bool := qs.any fun e => e.1 == p.reg
  let rest := t.qpend.filterMap fun p =>
    if !marked p then some p
    else if t.ownSees p then (if t.othersSee now p then none else some p)
    else some { p with real := p.real.bind fun k => if k ≤ now then none else some k }
  { t with q := qs.foldl (fun q e => vset q e.1 e.2) t.q,
           qpend := rest ++ own.map fun p => { p with real := none } }

end Sys2Proof.Machine
end

