-- ==== Sys2Proof/Machine/Pass.lean ====
section
/-! DEFINITION. The arithmetic of the matrix array: the precision register's fields and check (R82, R83), operand
layouts (R243 to R245), costs (R246, R247), a row of a pass (R85 to R89, R261 to R263), scaling and drains (R94, R265),
and the array image of a row (R183, R252). -/

namespace Sys2Proof.Machine

/-! ### The precision register (R82) -/

def pWA (p : Word) : Nat := p.toNat % 16
def pWB (p : Word) : Nat := p.toNat / 16 % 16
def pFmtA (p : Word) : Nat := p.toNat / 2 ^ 8 % 16
def pFmtB (p : Word) : Nat := p.toNat / 2 ^ 12 % 16
def pFA (p : Word) : Nat := p.toNat / 2 ^ 16 % 32
def pFB (p : Word) : Nat := p.toNat / 2 ^ 21 % 32
def pAM (p : Word) : Nat := p.toNat / 2 ^ 26 % 4
def pGS (p : Word) : Nat := p.toNat / 2 ^ 28 % 4
def pRM (p : Word) : RMode := RMode.ofCode (p.toNat / 2 ^ 30)

/-- The integer family, the grouped formats and the float family (R75, R77, R79, R80). -/
def isInt (f : Nat) : Bool := decide (f ≤ 3)
def isGrouped (f : Nat) : Bool := f == 4 || f == 5
def isFloat (f : Nat) : Bool := decide (6 ≤ f) && decide (f ≤ 13)

/-- The first failing row of R83's table; 0 for a valid value. -/
def precRow (p : Word) : Nat :=
  let a := pFmtA p
  let b := pFmtB p
  let width (f w : Nat) : Bool := (f == 1 || f == 13) && w == 0
  if 14 ≤ a ∨ 14 ≤ b then 1
  else if isGrouped a then 2
  else if isGrouped b && !(decide (a ≤ 1) && pGS p != 0) then 3
  else if !isGrouped b && (isInt a != isInt b) then 4
  else if (a == 13) != (b == 13) then 5
  else if width a (pWA p) || width b (pWB p) then 6
  else if (isInt a && decide (16 < pFA p)) || (isInt b && decide (16 < pFB p)) then 7
  else if pAM p = 3 then 8
  else if (if isInt b then pAM p == 1 else pAM p != 1) then 9
  else 0

/-- Storage widths of A and B (R243). -/
def wsA (p : Word) : Nat := elemWidth (pFmtA p) (pWA p)
def wsB (p : Word) : Nat := elemWidth (pFmtB p) (pWB p)

/-- Significand bits in R246's table. -/
def sigBits (f : Nat) : Nat :=
  match f with
  | 6 => 8 | 7 => 11 | 8 => 4 | 11 => 4 | 9 => 3 | 10 => 3 | _ => 2

/-- Ticks of a row pass (R246). -/
def passCost (p : Word) : Nat :=
  if isGrouped (pFmtB p) then wsA p * wsB p
  else if isInt (pFmtA p) then wsA p * wsB p
  else if pFmtA p = 13 then wsA p * wsB p + 2
  else sigBits (pFmtA p) * sigBits (pFmtB p) + 4

/-- Bytes of a plane image (R245). -/
def imageSize (p : Word) : Nat := if pFmtB p = 13 then 512 + 1024 * wsB p else 1024 * wsB p

/-- K extent of A in an entry of `z` bytes (R244). -/
def extentA (p : Word) (ta : Bool) (z : Nat) : Nat :=
  let ws := wsA p
  if ta then min 64 (z / (4 * ws))
  else if pFmtA p = 13 then 16 * min 4 (z / 32 / (1 + 2 * ws))
  else min 64 (8 * (z / 32) / ws)

/-! ### Operands -/

/-- Code and block exponent of element (j, k) of an A entry (R244, R79). -/
def elemA (p : Word) (ta : Bool) (z : Nat) (bytes : List Byte) (j k : Nat) : Nat × Nat :=
  let ws := wsA p
  if ta then (bitField bytes (8 * (k * 4 * ws) + j * ws) ws, 0)
  else
    let row := (bytes.drop (j * (z / 32))).take (z / 32)
    if pFmtA p = 13 then
      let blk := row.drop (k / 16 * (1 + 2 * ws))
      (bitField (blk.drop 1) (k % 16 * ws) ws, (blk.headD 0).toNat)
    else (bitField row (k * ws) ws, 0)

/-- Code of element (k, n) of a plane image (R245). -/
def elemB (p : Word) (ta : Bool) (bytes : List Byte) (k n : Nat) : BitVec 16 :=
  let ws := wsB p
  if pFmtB p = 13 then
    let at_ := k / 16 * (128 + 256 * ws) + 128 + k % 16 * (16 * ws)
    BitVec.ofNat 16 (bitField (bytes.drop at_) (n * ws) ws)
  else if ta then BitVec.ofNat 16 (bitField (bytes.drop (n * 8 * ws)) (k * ws) ws)
  else BitVec.ofNat 16 (bitField (bytes.drop (k * 16 * ws)) (n * ws) ws)

/-- The plane a WLD loads (R245, R260). -/
def loadPlane (p : Word) (ta : Bool) (bytes : List Byte) : Plane where
  e := Vector.ofFn fun k => Vector.ofFn fun n => elemB p ta bytes k.val n.val
  x := Vector.ofFn fun b => Vector.ofFn fun n =>
    if pFmtB p = 13 then (bytes.drop (b.val * (128 + 256 * wsB p) + n.val)).headD 0 else 0

/-- A row of A as a pass reads it. -/
def rowA (p : Word) (ta : Bool) (z : Nat) (bytes : List Byte) (j kA : Nat) : List (Nat × Nat) :=
  (List.range kA).map (elemA p ta z bytes j)

/-- Column n of a plane over the present K positions under a pass's precision register: codes, of which the array takes the
low `wsB` bits (R74, R245), and block exponents. -/
def Plane.col (w : Plane) (p : Word) (kA : Nat) (n : Fin 128) : List (Nat × Nat) :=
  (List.finRange 64).filterMap fun k =>
    if k.val < kA then some (w.e[k][n].toNat % 2 ^ wsB p, (w.x[Fin.ofNat 4 (k.val / 16)][n]).toNat) else none

/-! ### One row of a pass -/

/-- What a row pass gives: the row, the columns its commit replaces, and its counts of `ACM_SAT`. -/
structure PassRow where
  row : AccRow
  cols : BitVec 128
  sat : Nat
  deriving DecidableEq, Repr

/-- Σ nA × nB over the present K positions of an integer pass (R262). -/
def intSum (p : Word) (a : List (Nat × Nat)) (b : List (Nat × Nat)) : Int :=
  (a.zip b).foldl (fun s e => s + intValue (pFmtA p) (wsA p) e.1.1 * intValue (pFmtB p) (wsB p) e.2.1) 0

/-- The fraction of a row under an INT32 pass, and how far its entries shift (R88). -/
def passAlign (p : Word) (ctl : AccCtl) (img : AccRow) : Nat × Nat :=
  let fp := pFA p + pFB p
  if ctl == .ow || img.mode == .clear then (fp, 0)
  else if img.ft.toNat < fp then (fp, fp - img.ft.toNat) else (img.ft.toNat, 0)

/-- An entry aligned to a larger tag (R88 step 2), and whether it was clamped. -/
def alignWord (sh : Nat) (w : Word) : Word × Bool :=
  if sh = 0 then (w, false) else
  let r := satS 32 (w.toInt * 2 ^ sh)
  (wrap32 r.1, r.2)

/-- A selected entry of an INT32 pass (R87, R262): the aligned entry `keep`, the sum of the products at the row's fraction, and
whether it was clamped. -/
def intOne (p : Word) (ctl : AccCtl) (decay : Word) (keep sum : Int) : Word × Bool :=
  let s : Int := match ctl with
    | .ow => sum
    | .acc => keep + sum
    | .dacc => ((Dyad.mk (keep * (decay.toNat % 65536 : Nat)) (-16)).add ⟨sum, 0⟩).toInt (pRM p) |>.1
  if pAM p = 0 then
    let r := satS 32 s
    (wrap32 r.1, r.2)
  else (wrap32 s, false)

/-- A row of an INT32 pass (R262). -/
def intRow (p : Word) (ctl : AccCtl) (decay : Word) (img : AccRow) (cols : BitVec 128) (a : List (Nat × Nat))
    (colB : Fin 128 → List (Nat × Nat)) : PassRow :=
  let al := passAlign p ctl img
  let aligned : Vector (Word × Bool) 128 := img.entries.map (alignWord al.2)
  let one (n : Fin 128) : Word × Bool :=
    if cols.getLsbD n.val then
      intOne p ctl decay aligned[n].1.toInt (intSum p a (colB n) * 2 ^ (al.1 - (pFA p + pFB p)))
    else (aligned[n].1, false)
  let out := Vector.ofFn one
  { row := { entries := out.map Prod.fst, mode := if pAM p = 0 then .i32sat else .i32wrap, ft := BitVec.ofNat 6 al.1,
             pend := [] },
    cols := if al.2 = 0 then cols else BitVec.allOnes 128,
    sat := (aligned.toList.filter Prod.snd).length + (out.toList.filter Prod.snd).length }

/-- Terms of one column of an FP32 pass (R87, R263): products, or one term for each group of a grouped B. -/
def floatTerms (p : Word) (a : List (Nat × Nat)) (b : List (Nat × Nat)) (q : Nat → Word) : List FVal :=
  if isGrouped (pFmtB p) then
    let gs := if pGS p = 1 ∧ 32 < a.length then [0, 1] else if a.isEmpty then [] else [0]
    gs.map fun g =>
      let part := if pGS p = 1 then ((a.zip b).drop (32 * g)).take 32 else a.zip b
      let z : Int := ((q g).toNat / 65536 % 256 : Nat)
      let s := part.foldl (fun s e => s + intValue (pFmtA p) (wsA p) e.1.1 * ((e.2.1 : Int) - z)) 0
      (fFp16.read ((q g).toNat % 65536)).mul (.fin (decide (s < 0)) s.natAbs (-(pFA p : Int)))
  else (a.zip b).map fun e =>
    (floatValue (pFmtA p) (wsA p) e.1.1 e.1.2).mul (floatValue (pFmtB p) (wsB p) e.2.1 e.2.2)

/-- A selected entry of an FP32 pass (R87, R89): the old entry, +0 unless the row is FP32, and the terms. -/
def floatOne (p : Word) (ctl : AccCtl) (decay : Word) (old : FVal) (terms : List FVal) : Word :=
  let base : FVal := match ctl with
    | .ow => .fin false 0 0
    | .acc => old
    | .dacc => (fF32.read decay.toNat).mul old
  BitVec.ofNat 32 (fF32.sum .r89 (pRM p) (base :: terms)).bits

/-- A row of an FP32 pass (R87, R89). -/
def floatRow (p : Word) (ctl : AccCtl) (decay : Word) (q : Nat → Row) (img : AccRow) (cols : BitVec 128)
    (a : List (Nat × Nat)) (colB : Fin 128 → List (Nat × Nat)) : PassRow :=
  let one (n : Fin 128) : Word :=
    if cols.getLsbD n.val then
      floatOne p ctl decay (if img.mode == .fp32 then fF32.read img.entries[n].toNat else .fin false 0 0)
        (floatTerms p a (colB n) fun g => (q g)[n])
    else img.entries[n]
  { row := { entries := Vector.ofFn one, mode := .fp32, ft := 0, pend := [] }, cols := cols, sat := 0 }

/-- A row pass (R261). The fraction tag of an FP32 row is the model's 0. -/
def passRow (p : Word) (ctl : AccCtl) (decay : Word) (q : Nat → Row) (img : AccRow) (cols : BitVec 128)
    (a : List (Nat × Nat)) (colB : Fin 128 → List (Nat × Nat)) : PassRow :=
  if pAM p = 1 then floatRow p ctl decay q img cols a colB else intRow p ctl decay img cols a colB

/-- Reserved TER codes that a row pass reads (R76). -/
def terCount (p : Word) (cols : BitVec 128) (a : List (Nat × Nat)) (colB : Fin 128 → List (Nat × Nat)) : Nat :=
  let cnt (l : List (Nat × Nat)) : Nat := (l.filter fun e => e.1 == 2).length
  (if pFmtA p = 3 then cnt a else 0) +
    (if pFmtB p = 3 then (List.finRange 128).foldl (fun s n => if cols.getLsbD n.val then s + cnt (colB n) else s) 0 else 0)

/-- R85: an accumulating pass may write a row. -/
def accFits (p : Word) (m : AccMode) : Bool :=
  match m with
  | .clear => true
  | .fp32 => pAM p == 1
  | _ => pAM p != 1

/-- Mode code of `FINFO`.`RMD` (R375). -/
def AccMode.code : AccMode → Nat
  | .clear => 0 | .i32sat => 1 | .i32wrap => 2 | .fp32 => 3

/-! ### ASCL (R265) -/

/-- An INT32 entry scaled: the word and whether `ACM_SAT` counts. -/
def scaleInt (rm : RMode) (wrap : Bool) (n : Int) (v : FVal) : Word × Bool :=
  match v with
  | .nan _ => (0, true)
  | .inf neg =>
    if n = 0 then (0, false) else (wrap32 (if neg == decide (n < 0) then 2 ^ 31 - 1 else -(2 ^ 31)), true)
  | .fin neg m e =>
    let i := ((Dyad.ofSM neg m e).mul ⟨n, 0⟩).toInt rm |>.1
    if wrap then (wrap32 i, false) else
      let r := satS 32 i
      (wrap32 r.1, r.2)

/-- An FP32 entry scaled (R265, R89). -/
def scaleFloat (rm : RMode) (v : Nat) (s : FVal) : Nat :=
  match (fF32.read v).mul s with
  | .nan _ => fF32.nan
  | .inf n => fF32.inf n
  | .fin n m e => if m = 0 then fF32.zero (n || rm == .rdn) else (fF32.roundRat rm n m 1 e).bits

/-- A row scaled, with its counts of `ACM_SAT`. -/
def scaleRow (rm : RMode) (img : AccRow) (q : Row) : AccRow × Nat :=
  let sc (n : Fin 128) : FVal := fFp16.read (q[n].toNat % 65536)
  match img.mode with
  | .clear => ({ img with mode := .i32sat, ft := 0, pend := [] }, 0)
  | .fp32 =>
    let r : Row := Vector.ofFn fun n : Fin 128 => BitVec.ofNat 32 (scaleFloat rm img.entries[n].toNat (sc n))
    ({ img with pend := [], entries := r }, 0)
  | m =>
    let r : Vector (Word × Bool) 128 := Vector.ofFn fun n : Fin 128 =>
      scaleInt rm (m == .i32wrap) img.entries[n].toInt (sc n)
    ({ img with pend := [], entries := r.map Prod.fst }, (r.toList.filter Prod.snd).length)

/-! ### ADRN (R94, R266) -/

/-- Bytes of a drained row, and ticks it takes. -/
def drainSize : DrainFmt → Nat
  | .f32 | .i32 => 512
  | .bf16 | .fp16 | .s16 => 256
  | .s8 => 128
def drainTicks (f : DrainFmt) : Nat := drainSize f / 128

/-- An entry as an integer of some width, with its saturation (R94). -/
def drainInt (rm : RMode) (img : AccRow) (w : Word) (bits : Nat) : Int × Bool :=
  match img.mode with
  | .clear => (0, false)
  | .fp32 =>
    if (fF32.read w.toNat).isNan then (0, true) else
      let r := (fF32.toIntRange rm (-(2 ^ 31)) (2 ^ 31 - 1) w.toNat)
      let c := satS bits r.1
      (c.1, r.2.nv || c.2)
  | _ => satS bits w.toInt

/-- An entry as a float code (R94). -/
def drainFloat (f : FFmt) (rm : RMode) (img : AccRow) (w : Word) : Nat :=
  match img.mode with
  | .clear => 0
  | .fp32 => if f = fF32 then w.toNat else (fF32.convert f rm w.toNat).bits
  | _ => if w = 0 then 0 else (f.roundRat rm w.msb w.toInt.natAbs 1 (-(img.ft.toNat : Int))).bits

/-- Bytes of one drained entry and whether `DRN_SAT` counts. -/
def drainEntry (f : DrainFmt) (rm : RMode) (img : AccRow) (w : Word) : List Byte × Bool :=
  let i (bits : Nat) : List Byte × Bool :=
    let r := drainInt rm img w bits
    (leBytes (bits / 8) (BitVec.ofInt 32 r.1).toNat, r.2)
  match f with
  | .f32 => (leBytes 4 (drainFloat fF32 rm img w), false)
  | .bf16 => (leBytes 2 (drainFloat fBf16 rm img w), false)
  | .fp16 => (leBytes 2 (drainFloat fFp16 rm img w), false)
  | .i32 => i 32
  | .s16 => i 16
  | .s8 => i 8

/-- Bytes of a drained row and its count of `DRN_SAT`. -/
def drainRow (f : DrainFmt) (rm : RMode) (img : AccRow) : List Byte × Nat :=
  let r := img.entries.toList.map (drainEntry f rm img)
  (r.flatMap Prod.fst, (r.filter Prod.snd).length)

/-! ### Pending commits and the array image (R183, R252) -/

/-- A pending commit takes effect. -/
def AccRow.apply (r : AccRow) (p : AccPend) : AccRow :=
  { r with mode := p.mode, ft := p.ft,
           entries := Vector.ofFn fun i : Fin 128 => if p.cols.getLsbD i.val then p.entries[i] else r.entries[i] }

/-- Commits of a list in due-tick order, placing order among equals (R253). -/
def dueOrder (l : List AccPend) : List AccPend := sortBy (fun a b => decide (a.due ≤ b.due)) l

/-- The commits that satisfy a test take effect. -/
def AccRow.settle (r : AccRow) (f : AccPend → Bool) : AccRow :=
  if r.pend.isEmpty then r else
  (dueOrder (r.pend.filter f)).foldl AccRow.apply { r with pend := r.pend.filter fun p => !f p }

/-- The array image of a row (R252), uncorrectable visible words read as zero. -/
def Tile.image (t : Tile) (r : Fin 64) : AccRow :=
  { t.acm[r] with entries := t.accEntries r t.acm[r].entries }.settle fun _ => true

/-- Words of an ACM row, by entry, that the commits satisfying a test replace. -/
def AccRow.replaced (r : AccRow) (row : Fin 64) (f : AccPend → Bool) : List Nat :=
  ((List.range 128).filter fun i => r.pend.any fun p => f p && p.cols.getLsbD i).map (row.val * 128 + ·)

/-- The pending commits that satisfy a test become visible; the words they replace are written, so their check bits are
theirs (R183, R204). -/
def Tile.commitAcm (t : Tile) (f : Fin 64 → AccPend → Bool) : Tile :=
  let t := if t.upsets.isEmpty then t else
    t.clearUpsets 1 ((List.finRange 64).flatMap fun r => t.acm[r].replaced r (f r))
  { t with acm := Vector.ofFn fun r : Fin 64 => t.acm[r].settle (f r) }

/-- Pending commits whose due tick the owner's task tick has reached, and every formed one when the owner has ended (R183), or when no
context owns the array any more: what a release by CSRCLR leaves pending shows at once, DESIGN CHOICE, log 71. -/
def Tile.settleAcm (t : Tile) (now : Nat) : Tile :=
  let c := t.ctx t.own
  let ended := !t.ownV || c.st == .halted || c.st == .free
  t.commitAcm fun _ p => if ended then decide (p.formed ≤ now) else decide (p.due ≤ c.tt)

/-- A new pending commit: due no earlier than the latest one pending on the row (R253). -/
def AccRow.place (r : AccRow) (due : Nat) (cols : BitVec 128) (v : AccRow) (id formed : Nat) : AccRow :=
  { r with pend := r.pend ++ [⟨r.pend.foldl (fun d p => max d p.due) due, cols, v.entries, v.mode, v.ft, id, formed⟩] }

end Sys2Proof.Machine
end

