-- ==== Sys2Proof/Machine/Matrix.lean ====
section
/-! DEFINITION. The matrix slot: what an MXU command does as its bundle issues (R36, R38, R114, R248, R252). -/

namespace Sys2Proof.Machine

/-- An MXU command finds eight places taken (R248). -/
def Tile.mxFull (t : Tile) : Option Cause := if t.mxq.length ≥ 8 then some (causeOverflow 6 0 0) else none

/-- A command takes its place in the MXU queue; `by_` is the copy that holds it (R38). -/
def State.enqueueMx (s : State) (op : MxOp) (by_ : Option Nat) : State :=
  s.modCurTile fun t =>
    let (t, id) := t.enroll s.cur.ctx 0 none false false
    { t with mxq := t.mxq ++ [⟨id, s.cur.ctx, s.cur.pc, s.cur.tt, s.now, s.cur.guard, op, by_.isSome, by_, none, none⟩] }

/-- A matrix command of a context that does not own the array is discarded and counted (R114). -/
def mxSlot (op : MxOp) (s : State) : Out :=
  if s.curTile.owns s.cur.ctx then
    match s.curTile.mxFull with
    | some f => .next (s.issueFault s.cur.tile s.cur.ctx f)
    | none => .next (s.enqueueMx op none)
  else .next (s.modCurTile fun t => t.count mxNotown 1)

/-- The scale register as the issuing context sees it (R133, R252). -/
def State.scaleNow (s : State) (r : Nat) : Row := s.curTile.scale s.cur.ctx s.now (Fin.ofNat 8 r)

/-- An MMA with the values it captures at issue. -/
def State.mmaOp (s : State) (delay : BitVec 8) (ring : Fin 8) (h : Fin 2) (ctl : AccCtl) (wp : Fin 2) (ta : Bool) : MxOp :=
  .mma delay ring h ctl wp ta s.curTile.decay (s.scaleNow (2 * wp.val)) (s.scaleNow (2 * wp.val + 1))

def execPrec (rs : Fin 32) (s : State) : Out := mxSlot (.prec (s.rs rs)) s
/-- PMASK takes lanes 0 and 1, or 0 to 3, of v[k] (R258). -/
def execPmaskRow (vs : Fin 16) (s : State) : Out := mxSlot (.pmaskRow ((s.rv vs)[1] ++ (s.rv vs)[0])) s
def execPmaskCol (vs : Fin 16) (s : State) : Out :=
  mxSlot (.pmaskCol ((s.rv vs)[3] ++ (s.rv vs)[2] ++ (s.rv vs)[1] ++ (s.rv vs)[0])) s
def execWswap (s : State) : Out := mxSlot .wswap s
def execWld (delay : BitVec 8) (ring : Fin 8) (wp : Fin 2) (ta : Bool) (s : State) : Out := mxSlot (.wld delay ring wp ta) s
def execMma (delay : BitVec 8) (ring : Fin 8) (h : Fin 2) (ctl : AccCtl) (wp : Fin 2) (ta : Bool) (s : State) : Out :=
  mxSlot (s.mmaOp delay ring h ctl wp ta) s
def execAclr (first cnt : Fin 64) (s : State) : Out := mxSlot (.aclr first cnt) s
def execAscl (first cnt : Fin 64) (q : Fin 8) (s : State) : Out := mxSlot (.ascl first cnt (s.scaleNow q.val)) s
def execAdrn (first cnt : Fin 64) (dst : Fin 32) (k : Bool) (fmt : DrainFmt) (s : State) : Out :=
  mxSlot (.adrn first cnt dst k fmt) s

end Sys2Proof.Machine
end

