-- ==== Sys2Proof/Config.lean ====
section
/-! DEFINITION. What the spec leaves to the part, its firmware and the world outside: free values with no body. Each is
applied to `State.free`, which the step advances (log 1); no statement may rest on a value of one. -/

namespace Sys2Proof.Config

/-- The stimuli that arrive as a tick begins: host writes and doorbells, packets and frames of peer wafers, firmware's
choices, sensor readings, soft errors (log 5). -/
opaque freeInput : Nat → List Machine.Stimulus
/-- Ticks a code line takes to arrive (R174, R175). -/
opaque codeLatency : Nat → Nat
/-- Ticks between two 128-byte units of a copy (R230, R232). -/
opaque copyLatency : Nat → Nat
/-- Ticks a page walk takes (R198). -/
opaque walkLatency : Nat → Nat
/-- Ticks until a stack acknowledges a write (R212). -/
opaque ackLatency : Nat → Nat
/-- Ticks a timeline advance takes to the queen core (R366: at most 1,024). -/
opaque advanceLatency : Nat → Nat
/-- Ticks a timeline value takes to a tile (R366: at most 2,048). -/
opaque deliveryLatency : Nat → Nat
/-- Ticks the queen core takes to answer a tile-map cache miss (R317). -/
opaque mapLatency : Nat → Nat
/-- Phase of the heartbeats of a port to a peer on a plane, on the reference clock (R334). -/
opaque heartbeatPhase : Nat → Nat → Nat → Nat
/-- The choices of which stack or port lies on which side of the wafer and which perimeter tiles it is wired to (R15). -/
opaque edgePick : Nat → Nat
/-- Whether a link trains (R345). -/
opaque linkTrains : Nat → Bool
/-- Ticks a host record takes to complete once started (R395). -/
opaque recordLatency : Nat → Nat
/-- A choice the spec leaves to firmware or to the part. -/
opaque choice : Nat → Nat
/-- Where the queen core places a save area on its stack (R383). -/
opaque savePlace : Nat → Nat
/-- Dead physical tiles that BIST finds beyond the defect map (R404). -/
opaque bistDead : List (Nat × Nat)
/-- Images in package flash as the part came: banks A and B of the queen image, then of the nurse image (R405). -/
opaque factoryImage : Nat → List Host.Cell
/-- Fused minimum security versions, queen and nurse, as the part came (R403). -/
opaque fusedVersion : Nat → BitVec 32
/-- Fused values of the SHA-384 of the public keys: Ed25519, then ML-DSA-65 (R403). -/
opaque fusedHash : Nat → Vector Byte 48
/-- A PCIe link trains in flit mode (R390). -/
opaque pcieTrains : Nat → Bool
/-- The host fails an access that LOAD or COPYH makes (R399, status 6). -/
opaque hostFails : Nat → Bool
/-- With assisted parsing, the host's list for a tile names a section of the image (R401); the form of the lists is not stated. -/
opaque hostLists : Nat → Nat → Nat → Bool
/-- Ed25519 and ML-DSA-65 verification: key, message, signature (R403). -/
opaque ed25519 : List Byte → List Byte → List Byte → Bool
opaque mlDsa65 : List Byte → List Byte → List Byte → Bool
/-- SHA-384 (R403). -/
opaque sha384 : List Byte → Vector Byte 48

end Sys2Proof.Config
end

