-- ==== Sys2Proof/Machine/Heap.lean ====
section
/-! DEFINITION. Heap addresses: the window, the page-table walk and the translation of a context's addresses
(R197 to R203). -/

namespace Sys2Proof.Machine

/-- A physical address names a real byte (R197). -/
def State.realByte (s : State) (pa : Nat) : Bool :=
  s.fuses.stkmap.getLsbD (pa / 2 ^ 36 % 64) && decide (pa % 2 ^ 36 < 48 * 2 ^ 30)

/-- A byte of the heap as a read sees it: an uncorrectable word is zero (R204). -/
def State.heapByte (s : State) (pa : Nat) : Byte := if s.heapBad.contains (pa / 4) then 0 else s.heap.read pa
/-- A run of them, and the uncorrectable words that it touches. -/
def State.heapRun (s : State) (pa n : Nat) : List Byte := (List.range n).map fun i => s.heapByte (pa + i)
def State.badWords (s : State) (pa n : Nat) : List Nat :=
  s.heapBad.filter fun w => decide (pa / 4 ≤ w) && decide (w ≤ (pa + n - 1) / 4)
/-- Heap bytes are written: the words they lie in read as written again. -/
def State.writeHeap (s : State) (l : List (Nat × Byte)) : State :=
  { s with heap := s.heap.writeAll l, heapBad := s.heapBad.filter fun w => !(l.any fun e => e.1 / 4 == w) }

/-! ### The forager ports of a stack (R14) -/

/-- Bytes that the active edge ports of a stack move in one tick in one direction: 96 for each (R14, R15). -/
def State.stackRate (s : State) (n : Nat) : Nat :=
  match s.edges.find? fun u => u.stack && u.num == n with
  | some u => 96 * u.active.length
  | none => 96 * 16

/-- Bytes of a run of physical addresses, by stack. -/
def stackBytes (as : List Nat) : List (Nat × Nat) :=
  as.foldl (fun l a => alSet l (a / 2 ^ 36) (alGet l (a / 2 ^ 36) 0 + 1)) []

/-- What the ports have still to give on this tick lets the addresses be read, or written (R14). Traffic spreads over all the ports of
its stack: DESIGN CHOICE, log 85. -/
def State.stackFits (s : State) (write : Bool) (as : List Nat) : Bool :=
  (stackBytes as).all fun e =>
    let used := alGet s.hbm e.1 (0, 0)
    decide ((if write then used.2 else used.1) + e.2 ≤ s.stackRate e.1)

/-- The ports move them. -/
def State.stackTake (s : State) (write : Bool) (as : List Nat) : State :=
  { s with hbm := (stackBytes as).foldl (fun l e =>
      let used := alGet l e.1 (0, 0)
      alSet l e.1 (if write then (used.1, used.2 + e.2) else (used.1 + e.2, used.2))) s.hbm }

/-- The 64-bit page-table entry at a physical address. -/
def State.pte (s : State) (pa : Nat) : Nat := leNat (s.heapRun pa 8)

/-- Log2 of the page size a leaf's SIZE code names (R200). -/
def leafLog (size : Nat) : Nat := if size = 0 then 19 else if size = 1 then 25 else 31

/-- A leaf entry at a level (R200). -/
def leafXlate (e lvl va : Nat) : Xlate :=
  let size := e / 4 % 4
  let lg := leafLog size
  let frame := e / 2 ^ 18 % 2 ^ 17
  if size = 3 ∨ size + lvl ≠ 3 ∨ frame % 2 ^ (lg - 19) ≠ 0 ∨ e / 2 ^ 35 ≠ 0 then .fail 0 lvl
  else
    let pbase := (e / 2 ^ 12 % 64) * 2 ^ 36 + frame * 2 ^ 19
    let b (i : Nat) : Bool := e / 2 ^ i % 2 == 1
    .ok (pbase + va % 2 ^ lg) (va / 2 ^ lg * 2 ^ lg) (2 ^ lg) pbase (b 4) (b 6) (b 7) (b 8)
      (BitVec.ofNat 3 (e / 2 ^ 9)) false (b 5)

/-- The table an entry that is no leaf points to; none when a reserved bit is set. -/
def nextTable (e : Nat) : Option Nat :=
  if e / 4 % 2 ^ 10 ≠ 0 ∨ e / 2 ^ 45 ≠ 0 then none else some (e / 2 ^ 12 % 2 ^ 33 * 2 ^ 9)

/-- Index of an address at a level (R200). -/
def levelIndex (lvl va : Nat) : Nat :=
  if lvl = 1 then va / 2 ^ 31 % 2 ^ 17 else if lvl = 2 then va / 2 ^ 25 % 64 else va / 2 ^ 19 % 64

/-- The walk from a table of a level, with the levels left as fuel (R200). -/
def State.walk (s : State) (va : Nat) : Nat → Nat → Nat → Xlate
  | 0, _, _ => .fail 0 3
  | n + 1, lvl, tab =>
    let e := s.pte (tab + 8 * levelIndex lvl va)
    if e % 2 = 0 then .fail 0 lvl
    else if e / 2 % 2 = 1 then leafXlate e lvl va
    else if lvl = 3 then .fail 0 3
    else match nextTable e with
      | none => .fail 0 lvl
      | some t => s.walk va n (lvl + 1) t

/-- Uncorrectable words among the entries that a walk reads, with the levels left as fuel. -/
def State.walkBad (s : State) (va : Nat) : Nat → Nat → Nat → Nat
  | 0, _, _ => 0
  | n + 1, lvl, tab =>
    let pa := tab + 8 * levelIndex lvl va
    let e := s.pte pa
    (s.badWords pa 8).length + (if e % 4 = 1 then ((nextTable e).map (s.walkBad va n (lvl + 1))).getD 0 else 0)

/-- The table bytes that a walk reads, with the levels left as fuel (R200). -/
def State.walkBytes (s : State) (va : Nat) : Nat → Nat → Nat → List Nat
  | 0, _, _ => []
  | n + 1, lvl, tab =>
    let pa := tab + 8 * levelIndex lvl va
    let e := s.pte pa
    (List.range 8).map (pa + ·) ++ (if e % 4 = 1 then ((nextTable e).map (s.walkBytes va n (lvl + 1))).getD [] else [])

/-- The walk of a launch's page table; no walker forager, or no root it holds, refuses (R198, R200). -/
def State.walkRoot (s : State) (c : Context) (va : Nat) : Xlate :=
  if c.walker.msb then
    match c.lid with
    | none => .fail 0 1
    | some l =>
      match s.roots.find? fun r => r.1 == l with
      | none => .fail 0 1
      | some r => s.walk va 3 1 r.2
  else .fail 0 0

/-- The heap window (R198): resident, all permissions, no promise. -/
def Context.window (c : Context) (va : Nat) : Option Xlate :=
  if c.hbase.toNat ≤ va ∧ va < c.hlimit.toNat then
    some (.ok ((va + c.hoffset.toNat) % 2 ^ 42) va 1 ((va + c.hoffset.toNat) % 2 ^ 42) true true true true 0 true false)
  else none

/-- A TLB hit of a launch (R199). -/
def Tile.tlbHit (t : Tile) (c : Context) (va : Nat) : Option TlbEntry :=
  match c.lid with
  | none => none
  | some l => t.tlb.find? fun e => e.launch == l && inSpan va e.vbase e.size

/-- A TLB entry as a translation. -/
def TlbEntry.xlate (e : TlbEntry) (va : Nat) : Xlate :=
  .ok (e.pbase + (va - e.vbase)) e.vbase e.size e.pbase e.res e.r e.w e.x e.lc false false

/-- What an access needs (R198). -/
inductive Need where
  | read | write | exec
  deriving DecidableEq, Repr

/-- The real-byte and permission checks, in R198's order. -/
def State.checkNeed (s : State) (n : Need) (x : Xlate) : Xlate :=
  match x with
  | .ok pa _ _ _ _ r w e _ _ _ =>
    if !s.realByte pa then .fail 10 0
    else if (match n with | .read => r | .write => w | .exec => e) then x else .fail 1 0
  | .fail a b => .fail a b

/-- A translation as it stands: window, TLB, else what a walk would read (R198, R202). -/
def State.xlate (s : State) (t : Tile) (c : Context) (n : Need) (va : Nat) : Xlate :=
  s.checkNeed n (match c.window va with
    | some x => x
    | none => match t.tlbHit c va with
      | some e => e.xlate va
      | none => s.walkRoot c va)

/-- What is known of an address of a context's command, or of its fetch (no command): the window, a walk of it that has
completed, and for a fetch or a STATIC check the TLB too, whose tick they hide (R198, log 62). With no walker forager every
address outside the window fails at once. -/
def State.lookup (s : State) (t : Tile) (ctx : Fin 4) (cmd : Option Nat) (quick : Bool) (va : Nat) : Option Xlate :=
  let c := t.ctx ctx
  match c.window va with
  | some x => some x
  | none =>
    if !c.walker.msb then some (.fail 0 0) else
    match t.walks.find? fun w => w.ctx == ctx && w.cmd == cmd && w.va == va && decide (w.ready ≤ s.now) && w.res.isSome with
    | some w => w.res
    | none => if quick then (t.tlbHit c va).map fun e => e.xlate va else none

/-- A fetch address: its physical address and whether its page is resident, no execution there, or a walk to wait for (R198). A page on its way between stacks
holds the fetch at its walk (R203). -/
inductive FetchPa where
  | ok (pa : Nat) (res : Bool)
  | fail
  | walk (va : Nat)
  deriving DecidableEq, Repr

def State.fetchPa (s : State) (t : Tile) (ctx : Fin 4) (va : Nat) : FetchPa :=
  match s.lookup t ctx none true va with
  | none => .walk va
  | some x =>
    match s.checkNeed .exec x with
    | .ok pa _ _ _ res _ _ _ _ _ mig => if mig then .walk va else .ok pa res
    | .fail _ _ => .fail

/-- The first address that is not known of a run, else all of them; none when one fails. -/
def fetchAll (f : Nat → FetchPa) : List Nat → FetchPa × List (Nat × Bool)
  | [] => (.ok 0 true, [])
  | a :: l =>
    match f a with
    | .ok pa res => let r := fetchAll f l; (r.1, (pa, res) :: r.2)
    | o => (o, [])

/-- The 32 bytes of a position: each translates on its own, since `HBASE` or `HLIMIT` may lie among them. -/
def bundleVas (pc : VAddr) : List Nat := (List.range 32).map fun i => (pc + BitVec.ofNat 48 i).toNat

/-- An address translated for execution as the tables stand (R47, R174). -/
def State.codePa (s : State) (t : Tile) (c : Context) (pc : VAddr) : Option Nat :=
  match s.xlate t c .exec pc.toNat with
  | .ok pa _ _ _ _ _ _ _ _ _ _ => some pa
  | .fail _ _ => none

/-- What PREF and PIN find for a line: its physical address and whether its page is resident, or that the page is migrating (R174, R202,
R203); none when it does not translate. -/
def State.lineXlate (s : State) (t : Tile) (c : Context) (pc : VAddr) : Option (Nat × Bool × Bool) :=
  match s.xlate t c .exec pc.toNat with
  | .ok pa _ _ _ res _ _ _ _ _ mig => some (pa, res, mig)
  | .fail _ _ => none

/-- A position whose 32 bytes all translate for execution (R150). -/
def State.codeMaps (s : State) (t : Tile) (c : Context) (pc : VAddr) : Bool :=
  (bundleVas pc).all fun a => (s.codePa t c (BitVec.ofNat 48 a)).isSome

/-- The CTL word at a position as the code stands in memory; none when it does not translate (R47). -/
def State.ctlWordAt (s : State) (t : Tile) (c : Context) (pc : VAddr) : Option Nat :=
  (s.codePa t c pc).map fun pa => leNat (s.heapRun pa 4)

/-- The length of the run of CTL words with bit 31 set that ends before a position, with fuel (R47). -/
def State.safeRun (s : State) (t : Tile) (c : Context) : Nat → VAddr → Nat
  | 0, _ => 0
  | n + 1, pc =>
    match s.ctlWordAt t c (pc - 32) with
    | some w => if w / 2 ^ 31 % 2 = 1 then s.safeRun t c n (pc - 32) + 1 else 0
    | none => 0

/-- A position is a LIVE bundle when the run is odd (R47). -/
def State.isLive (s : State) (t : Tile) (c : Context) (pc : VAddr) : Bool := s.safeRun t c (2 ^ 43) pc % 2 == 1

/-- Entries of a launch that a command has used are its most recently used (R199). -/
def Tile.tlbTouch (t : Tile) (launch : Nat) (used : Nat → Bool) (now : Nat) : Tile :=
  if t.tlb.isEmpty then t else
  { t with tlb := t.tlb.map fun e => if e.launch == launch && used e.vbase then { e with used := now } else e }

end Sys2Proof.Machine
end

