-- ==== Sys2Proof/Machine/MatrixEngine.lean ====
section
/-! DEFINITION. The MXU queue and the array from tick to tick (R248 to R267): commands reach the head, start, process
their rows, write their drained bytes, retire. -/

namespace Sys2Proof.Machine

/-! ### Guards of queued commands (R176) -/

/-- The value an unresolved guard takes. -/
def QGuard.value : QGuard → Bool
  | .unresolved v inv => v != inv
  | _ => true

/-- A guard that is still to resolve. -/
def QGuard.pending : QGuard → Bool
  | .unresolved _ _ => true
  | _ => false

/-- A command whose guard is false leaves its place with no other effect. -/
def Tile.guardFalse (t : Tile) (c : Fin 4) (id : Nat) : Tile :=
  ({ t with mxq := t.mxq.filter (fun (m : MxCmd) => m.id != id), cpq := t.cpq.filter (fun (m : CopyCmd) => m.id != id),
            chq := t.chq.filter (fun (m : ChCmd) => m.id != id) }.retire id false).modCtx c
    fun y => { y with mpubs := y.mpubs.filter fun (p : MaskPub) => p.id != id }

/-- The guards of the MXU commands that satisfy a test resolve. -/
def Tile.settleMxGuards (t : Tile) (sel : MxCmd → Bool) : Tile :=
  (t.mxq.filter fun m => m.guard.pending && sel m).foldl (fun t m =>
    if m.guard.value then { t with mxq := t.mxq.map fun (k : MxCmd) => if k.id = m.id then { k with guard := .yes } else k }
    else t.guardFalse m.ctx m.id) t

/-- Start tick of a timed command (R249); none while a held one waits for its copy. -/
def MxCmd.startTick (c : MxCmd) (h delay : Nat) : Option Nat :=
  if c.held then c.landed.map fun l => max l h + 1 + delay else some (c.tick + 1 + delay)

/-- `DELAY` and ring of a timed command. -/
def MxOp.timed : MxOp → Option (Nat × Fin 8)
  | .wld d r _ _ => some (d.toNat, r)
  | .mma d r _ _ _ _ _ _ _ => some (d.toNat, r)
  | _ => none

/-- Entries a timed command needs (R245, R249). -/
def MxOp.needs (op : MxOp) (p : Word) (z : Nat) : Nat :=
  match op with
  | .wld _ _ _ _ => (imageSize p + z - 1) / z
  | _ => 1

/-- Rows F to F + n − 1. -/
def rowRange (first cnt : Fin 64) : List (Fin 64) := (List.range (cnt.val + 1)).map fun i => first + Fin.ofNat 64 i

/-- ACM rows that rowp selects in a half (R242). -/
def selected (rowp : BitVec 64) (h : Fin 2) : List (Fin 64) :=
  ((List.range 32).map fun j => Fin.ofNat 64 (32 * h.val + j)).filter fun r => rowp.getLsbD r.val

/-- ACM rows a command writes (R255). -/
def MxOp.rows (op : MxOp) (rowp : BitVec 64) : List (Fin 64) :=
  match op with
  | .mma _ _ h _ _ _ _ _ _ => selected rowp h
  | .aclr f n => rowRange f n
  | .ascl f n _ => rowRange f n
  | _ => []

def causePrecision (w : Word) (row : Nat) : Cause := ⟨cPrecision, 6, row, w⟩
def causeTiming (tk : Nat) (rg : Fin 8) (held : Bool) (late : Nat) : Cause := ⟨cTiming, 6, 0, fiTiming tk rg.val held late⟩

/-- Faults of a timed command at its head, in R267's order. -/
def timedCause (t : Tile) (c : MxCmd) (now delay : Nat) (rg : Fin 8) (extent bfpTa : Bool) : Option Cause :=
  if !t.rings[rg].v then some (causeSchedule 6 rg.val 1)
  else if extent then some (causeSchedule 6 rg.val 5)
  else if bfpTa then some (causePrecision t.prec 10)
  else match c.startTick now delay with
    | some st => if st < now then some (causeTiming 0 rg c.held (now - st)) else none
    | none => none

/-- Faults of a command as it reaches the head on a tick (R267). -/
def Tile.headCause (t : Tile) (c : MxCmd) (now : Nat) : Option Cause :=
  match c.op with
  | .prec v => if precRow v = 0 then none else some (causePrecision v (precRow v))
  | .wld d r _ ta =>
    timedCause t c now d.toNat r (decide (c.op.needs t.prec t.rings[r].z > t.rings[r].e)) (ta && pFmtB t.prec == 13)
  | .mma d r _ _ _ ta _ _ _ =>
    timedCause t c now d.toNat r (extentA t.prec ta t.rings[r].z == 0) (ta && pFmtA t.prec == 13)
  | .adrn f n dst k fmt =>
    if k then
      let b := t.bufs[dst]
      if !b.v || b.state == .draining then some (causeBuffer 6 dst.val b.state false 0)
      else if (f.val + n.val + 1) * drainSize fmt > b.s then some (causeCopy 6 5 0 0) else none
    else
      let r := t.rings[Fin.ofNat 8 dst.val]
      if !r.v then some (causeSchedule 6 dst.val 1)
      else if (n.val + 1) * drainSize fmt > r.z then some (causeCopy 6 5 0 0) else none
  | _ => none

/-- Faults of a command on its start tick: ring short, accumulate mode, pending commits (R249, R85, R255). -/
def Tile.startCause (t : Tile) (c : MxCmd) : Option Cause :=
  let short := match c.op.timed with
    | some (_, r) => decide (t.rings[r].cnt.toNat - t.rings[r].claimed < c.op.needs t.prec t.rings[r].z)
    | none => false
  let rg : Fin 8 := (c.op.timed.map Prod.snd).getD 0
  if short then some (causeTiming 1 rg c.held 0)
  else
    let rows := c.op.rows t.rowp
    let bad := match c.op with
      | .mma _ _ _ ctl _ _ _ _ _ => if ctl = AccCtl.ow then none else rows.find? fun r => !accFits t.prec (t.image r).mode
      | _ => none
    match bad with
    | some r => some ⟨cAccMode, 6, 0, fiAccMode r.val (t.image r).mode.code (pAM t.prec)⟩
    | none => if rows.any fun r => decide (t.acm[r].pend.length ≥ 8) then some (causeOverflow 6 10 0) else none

/-- A command leaves the head, retired (R256). -/
def Tile.mxLeave (t : Tile) (id : Nat) : Tile := { t with mxq := t.mxq.filter fun c => c.id != id }.retire id true

/-- A fault at the head (R250): the command leaves and changes nothing. -/
def State.mxFault (s : State) (t : TileId) (c : MxCmd) (f : Cause) : State :=
  (s.modTile t fun x => (if f.code = cTiming then x.event 0x0A 1 else x).mxLeave c.id).headFault t c.ctx 0 f c.fpc

/-- The array takes no command while its tile is frozen for migration (R251). -/
def Tile.arrayFrozen (t : Tile) : Bool := t.frozen

/-- A drain's destination can accept a write (R266). -/
def Tile.drainReady (t : Tile) (dst : Fin 32) (k : Bool) : Bool :=
  if k then decide (t.bufs[dst].wr.toNat < 15) else decide (0 < t.rings[Fin.ofNat 8 dst.val].free)

/-- The head command, when its guard is resolved and it may be at the head. -/
def Tile.mxHead (t : Tile) (now : Nat) : Option MxCmd :=
  match t.mxq with
  | c :: _ => if t.mxRun.isNone && c.guard == .yes && decide (c.tick < now) && !t.arrayFrozen then some c else none
  | [] => none

/-- The next event of the array on this tick. -/
def Tile.arrayEvent (t : Tile) (id : TileId) (now : Nat) : Option Instr :=
  match t.mxRun with
  | some r => if r.leave ≤ now then some (.mxuRetire id) else none
  | none =>
    match t.mxHead now with
    | none => none
    | some c =>
      match c.headAt with
      | none => some (.mxuCommandHead id)
      | some h =>
        match c.op with
        | .adrn _ _ dst k _ => if t.drainReady dst k then some (.adrnStart id) else none
        | op =>
          match op.timed with
          | some (d, _) => (c.startTick h d).bind fun st => if st ≤ now then some (.mxuStart id) else none
          | none => some (.mxuStart id)

/-- The ring or buffer entry that a command reads at the head and on its start tick: offset and bytes (R204). -/
def MxOp.entries (op : MxOp) : List (Nat × Nat) :=
  match op with
  | .adrn _ _ dst k _ => if k then [(bufOff dst.val, 16)] else [(ringOff (dst.val % 8), 8)]
  | op => (op.timed.map fun e => (ringOff e.2.val, 8)).toList

def Tile.noteEntries (t : Tile) (c : MxCmd) : Tile := c.op.entries.foldl (fun t e => t.noteTable c.ctx e.1 e.2) t

/-- A command reaches the head (R248): zero-time commands take effect, others take their tick H; its faults are raised
(R257 to R259, R267). -/
def execMxuCommandHead (t : TileId) (s : State) : Out :=
  let x := s.tile t
  match x.mxHead s.now with
  | none => .next s
  | some c =>
    if c.headAt.isSome then .next s else
    let s := s.modTile t fun x => x.noteEntries c
    match x.tableView.headCause c s.now with
    | some f => .next (s.mxFault t c f)
    | none =>
      .next (s.modTile t fun x =>
        match c.op with
        | .prec v => { x with prec := v }.mxLeave c.id
        | .pmaskRow v => { x with rowp := v }.mxLeave c.id
        | .pmaskCol v => { x with colp := v }.mxLeave c.id
        | .wswap =>
          { x with wp := #v[x.wp[1], x.wp[0]],
                   upsets := x.upsets.map fun (u : Upset) => if u.mem = 3 then { u with addr := (u.addr + 8192) % 16384 } else u }.mxLeave c.id
        | _ => { x with mxq := x.mxq.map fun d => if d.id = c.id then { d with headAt := some s.now } else d })

/-- The owner's task tick at the start of a tick (R253). -/
def Tile.tau (t : Tile) (c : Fin 4) (now : Nat) : Nat :=
  if t.lastIssue = some (c, now) then (t.ctx c).tt - 1 else (t.ctx c).tt

/-- Words of the entries that a command reads, counted as reads (R204). -/
def Tile.countReads (t : Tile) (c : Fin 4) (mem : Fin 4) (ws : List Nat) : Tile :=
  let t' := t.noteReads mem ws
  if (t.upsetWords mem true ws).isEmpty then t' else t'.modCtx c Context.setErr

/-- Addresses of the oldest complete entries that no command has claimed (R249). -/
def Ring.claimSpan (r : Ring) (n : Nat) : List Nat :=
  (List.range n).flatMap fun i => span (r.at_ (r.head.toNat + r.claimed + i)) r.z

/-- A WLD or MMA starts: it claims its entries and occupies the array (R249, R252, R260, R261). -/
def Tile.startTimed (t : Tile) (now : Nat) (c : MxCmd) (rg : Fin 8) : Tile :=
  let r := t.rings[rg]
  let n := c.op.needs t.prec r.z
  let as := r.claimSpan n
  let rows := c.op.rows t.rowp
  let cost := passCost t.prec
  let occ := match c.op with
    | .wld _ _ _ _ => imageSize t.prec / 128
    | _ => max 1 (rows.length * cost)
  let todo := ((List.range rows.length).zip rows).map fun e => (now + e.1 * cost, e.1, e.2)
  let run : MxRun := ⟨c.id, now, now + occ, t.prec, t.colp, t.readSpm as, n, cost, todo, t.tau c.ctx now, [], 0⟩
  { (t.setRing rg fun r => { r with claimed := r.claimed + n }) with mxRun := some run }.countReads c.ctx 0 (as.map (· / 4))

/-- ACLR or ASCL starts: one row a tick (R264, R265). -/
def Tile.startRange (t : Tile) (now : Nat) (c : MxCmd) : Tile :=
  let rows := c.op.rows t.rowp
  let todo := ((List.range rows.length).zip rows).map fun e => (now + e.1, e.1, e.2)
  { t with mxRun := some ⟨c.id, now, now + rows.length, t.prec, t.colp, [], 0, 1, todo, 0, [], 0⟩ }

/-- Array occupancy that an MMA reserves, for its launch's account (R247, R280). -/
def State.reserveArray (s : State) (t : TileId) (c : MxCmd) : State :=
  let x := s.tile t
  match c.op with
  | .mma _ _ h _ _ _ _ _ _ =>
    let n := max 1 ((selected x.rowp h).length * passCost x.prec)
    { s with launches := s.launches.map fun l => if (x.ctx c.ctx).lid = some l.lid then { l with actual := l.actual + n } else l }
  | _ => s

/-- A timed command, ACLR or ASCL starts, or faults on its start tick. -/
def execMxuStart (t : TileId) (s : State) : Out :=
  let x := s.tile t
  match x.mxHead s.now with
  | none => .next s
  | some c =>
    if x.arrayEvent t s.now ≠ some (.mxuStart t) then .next s else
    let s := s.modTile t fun x => x.noteEntries c
    match x.tableView.startCause c with
    | some f => .next (s.mxFault t c f)
    | none =>
      .next ((s.reserveArray t c).modTile t fun x =>
        match c.op.timed with
        | some (_, rg) => x.startTimed s.now c rg
        | none => x.startRange s.now c)

/-- ADRN starts (R266): a ring entry is reserved, the rows are read one after another. -/
def execAdrnStart (t : TileId) (s : State) : Out :=
  let x := s.tile t
  match x.mxHead s.now with
  | none => .next s
  | some c =>
    match c.op with
    | .adrn f n dst k fmt =>
      if c.headAt.isNone || !x.drainReady dst k then .next s else
      let rows := rowRange f n
      let d := drainTicks fmt
      let todo := ((List.range rows.length).zip rows).map fun e => (s.now + e.1 * d, e.1, e.2)
      let rg := Fin.ofNat 8 dst.val
      let fill := x.rings[rg].tail.toNat
      .next (s.modTile t fun x =>
        let x := if k then x.noteEntries c else (x.noteEntries c).setRing rg fun r => r.reserve c.id 1
        { x with mxRun := some ⟨c.id, s.now, s.now + rows.length * d, x.prec, x.colp, [], 0, d, todo, 0, [], fill⟩ })
    | _ => .next s

/-- A running command retires (R253, R256, R260): its ring entries are popped, a plane is whole, the commits of ACLR and
ASCL are placed. -/
def Tile.mxFinish (t : Tile) (now : Nat) (r : MxRun) (c : MxCmd) : Tile :=
  let pops (t : Tile) (rg : Fin 8) : Tile := t.setRing rg fun x => { x.pop r.entries with claimed := x.claimed - r.entries }
  let t := match c.op with
    | .wld _ rg wp ta =>
      { pops t rg with wp := vset t.wp wp (loadPlane r.prec ta r.bytes),
                       upsets := t.upsets.filter fun u => !(u.mem == 3 && inSpan u.addr (8192 * wp.val) 8192) }
    | .mma _ rg _ _ _ _ _ _ _ =>
      (pops t rg).event 0x09 (if (c.op.rows t.rowp).isEmpty then 0 else 1)
    | _ => t
  let due := t.tau c.ctx now + 1
  let t := r.rows.foldl (fun t e =>
    { t with acm := vset t.acm e.1 (t.acm[e.1].place due (BitVec.allOnes 128) e.2 c.id now) }) t
  { t with mxRun := none }.mxLeave c.id

def execMxuRetire (t : TileId) (s : State) : Out :=
  let x := s.tile t
  match x.mxRun, x.mxq with
  | some r, c :: _ => if r.leave ≤ s.now then .next (s.modTile t fun x => x.mxFinish s.now r c) else .next s
  | _, _ => .next s

/-! ### Rows -/

/-- Words of plane entries that a row pass reads: present K, selected columns. -/
def planeWords (wp : Fin 2) (kA : Nat) (cols : BitVec 128) : List Nat :=
  (List.range kA).flatMap fun k =>
    ((List.finRange 128).filter fun n => cols.getLsbD n.val).map fun n => 8192 * wp.val + 128 * k + n.val

/-- A plane with its uncorrectable entries zero (R185, R204). -/
def Tile.planeNow (t : Tile) (wp : Fin 2) : Plane :=
  if t.upsets.isEmpty then t.wp[wp] else
  let entry (k : Fin 64) (n : Fin 128) : BitVec 16 :=
    if t.upset 3 (8192 * wp.val + 128 * k.val + n.val) == some true then 0 else t.wp[wp].e[k][n]
  { t.wp[wp] with e := Vector.ofFn fun k => Vector.ofFn fun n => entry k n }

/-- The counts of a row pass: saturations, reserved codes, and the words it reads (R76, R87, R204). -/
def Tile.countPass (t : Tile) (c : Fin 4) (sat ter : Nat) (row : Fin 64) (planes : List Nat) : Tile :=
  (((t.count acmSat sat).count terRsv ter).countReads c 1 ((List.range 128).map (row.val * 128 + ·))).countReads c 3 planes

/-- Row pass k of an MMA: base read, computed, its commit placed (R252, R253, R261). -/
def Tile.mmaRow (t : Tile) (r : MxRun) (c : MxCmd) (k : Nat) (row : Fin 64) : Tile :=
  match c.op with
  | .mma d rg _ ctl wp ta decay q0 q1 =>
    let z := t.rings[rg].z
    let kA := extentA r.prec ta z
    let a := rowA r.prec ta z r.bytes (row.val % 32) kA
    let colB := (t.planeNow wp).col r.prec kA
    let p := passRow r.prec ctl decay (fun g => if g = 0 then q0 else q1) (t.image row) r.colp a colB
    let own := if c.held then r.tau else c.tt + d.toNat
    let due := own + (k + 1) * r.c + 2
    { t.countPass c.ctx p.sat (terCount r.prec r.colp a colB) row (if t.upsets.isEmpty then [] else planeWords wp kA r.colp) with
      acm := vset t.acm row (t.acm[row].place due p.cols p.row c.id (r.start + (k + 1) * r.c)) }
  | _ => t

/-- A row of ACLR or ASCL, kept until the command retires. -/
def Tile.rangeRow (t : Tile) (r : MxRun) (c : MxCmd) (row : Fin 64) : Tile :=
  match c.op with
  | .aclr _ _ => { t with mxRun := some { r with rows := r.rows ++ [(row, AccRow.reset)] } }
  | .ascl _ _ q =>
    let p := scaleRow (pRM r.prec) (t.image row) q
    let t := t.countReads c.ctx 1 ((List.range 128).map (row.val * 128 + ·))
    { (t.count acmSat p.2) with mxRun := some { r with rows := r.rows ++ [(row, p.1)] } }
  | _ => t

/-- Bytes cut into runs of 128. -/
def runs128 : Nat → List Byte → List (List Byte)
  | 0, _ => []
  | n + 1, bs => bs.take 128 :: runs128 n (bs.drop 128)

/-- Row i of an ADRN, read and converted; its bytes go through the array write port (R266). -/
def Tile.drainOne (t : Tile) (r : MxRun) (c : MxCmd) (at_ i : Nat) (row : Fin 64) : Tile :=
  match c.op with
  | .adrn f n dst k fmt =>
    let p := drainRow fmt (pRM r.prec) (t.image row)
    let d := drainTicks fmt
    let base := (if k then f.val + i else i) * drainSize fmt
    let outs := ((List.range d).zip (runs128 d p.1)).map fun e =>
      (⟨at_ + e.1 + 1, c.id, k, dst, r.fill, base + 128 * e.1, e.2, i == 0 && e.1 == 0, i == n.val && e.1 + 1 == d⟩ : Drain)
    { ((t.count drnSat p.2).countReads c.ctx 1 ((List.range 128).map (row.val * 128 + ·))) with drains := t.drains ++ outs }
  | _ => t

/-- The rows of the running command that fall on this tick. -/
def Tile.arrayRows (t : Tile) (now : Nat) : Tile :=
  match t.mxRun, t.mxq with
  | some r, c :: _ =>
    let todo := r.todo.filter fun e => decide (e.1 ≤ now)
    let t := { t with mxRun := some { r with todo := r.todo.filter fun e => decide (now < e.1) } }
    let t := todo.foldl (fun t e =>
      match t.mxRun, c.op with
      | some r, .mma _ _ _ _ _ _ _ _ _ => t.mmaRow r c e.2.1 e.2.2
      | some r, .adrn _ _ _ _ _ => t.drainOne r c e.1 e.2.1 e.2.2
      | some r, _ => t.rangeRow r c e.2.2
      | none, _ => t) t
    let formed := match c.op with
      | .mma _ _ _ _ _ _ _ _ _ => (if decide (r.start < now) && (now - r.start) % r.c == 0 && decide (now < r.leave) then 1 else 0)
      | _ => 0
    (t.event 0x09 formed).event 0x08 1
  | _, _ => t

/-- A drain whose first byte may not begin its engine write waits a tick, and all of it with it (R190, R266). -/
def Tile.drainWait (t : Tile) (now : Nat) : Tile :=
  match t.mxRun with
  | some r =>
    if t.drains.any fun d => d.first && d.k && decide (d.tick ≤ now) && t.writeBlocked d.dst then
      { t with drains := t.drains.map fun d => { d with tick := d.tick + 1 },
               mxRun := some { r with leave := r.leave + 1, todo := r.todo.map fun e => (e.1 + 1, e.2) } }
    else t
  | none => t

/-- Bytes of a drain perform (R180, R266). -/
def Tile.drainByte (t : Tile) (d : Drain) : Tile :=
  let rg := Fin.ofNat 8 d.dst.val
  if d.k then
    let t := if d.first then t.setBuf d.dst Buffer.beginWrite else t
    let t := t.writeSpm (numbered (t.bufs[d.dst].shadow + d.off) d.data)
    if d.last then t.setBuf d.dst Buffer.endWrite else t
  else
    let t := t.writeSpm (numbered (t.rings[rg].at_ d.entry + d.off) d.data)
    if d.last then t.setRing rg fun r => r.endFill d.id else t

/-- The array write port on a tick. -/
def Tile.drainPort (t : Tile) (now : Nat) : Tile :=
  let ds := t.drains.filter fun d => decide (d.tick ≤ now)
  ds.foldl Tile.drainByte { t with drains := t.drains.filter fun d => decide (now < d.tick) }

/-- The commits that commands of a set placed fall due by a task tick (R254). -/
def Tile.lowerDue (t : Tile) (w : Nat) (sel : AccPend → Bool) : Tile :=
  { t with acm := t.acm.map fun r =>
      if r.pend.isEmpty then r else { r with pend := r.pend.map fun p => if sel p then { p with due := min p.due (w + 1) } else p } }

end Sys2Proof.Machine
end

