-- ==== Sys2Proof/Machine/Control.lean ====
section
/-! DEFINITION. The control slot less its waits (R148 to R163, R169, R171 to R174), the successor of a bundle and the
end of its issue (R3, R29, R50, R153), the end of a task (R155). A control instruction acts after the bundle's other
slots and after `State.advance`: its context's pc is then the bundle that would issue next. -/

namespace Sys2Proof.Machine

/-- The sequential successor (R29). -/
def succPc (pc : VAddr) (safe : Bool) : VAddr := if safe then pc + 64 else pc + 32

/-- The successor of a bundle as the code stands in memory. -/
def State.codeSucc (s : State) (c : Context) (pc : VAddr) : VAddr :=
  succPc pc (match s.ctlWordAt s.curTile c pc with
    | some w => safeBit w
    | none => false)

/-- The two delay bundles of the issuing bundle and the bundle that follows them (R50, R149). -/
def State.delays (s : State) : VAddr × VAddr × VAddr :=
  let c := s.curCtx
  let d1 := succPc s.cur.pc s.cur.safe
  let d2 := s.codeSucc c d1
  (d1, d2, s.codeSucc c d2)

/-! ### Loops (R152 to R154) -/

def LoopLevel.e (l : LoopLevel) : Nat := l.start.toNat + 32 * l.len.toNat
/-- The body of a level holds an address. -/
def LoopLevel.has (l : LoopLevel) (a : VAddr) : Bool := decide (l.start.toNat ≤ a.toNat) && decide (a.toNat < l.e)
/-- The end test of a level fires on a bundle with a given successor. -/
def LoopLevel.fires (l : LoopLevel) (b nxt : VAddr) : Bool := l.has b && decide (l.e ≤ nxt.toNat)

/-- The end test over the active levels, innermost first: the levels left and the next bundle (R153). -/
def endTest (b nxt : VAddr) : List LoopLevel → List LoopLevel × VAddr
  | [] => ([], nxt)
  | l :: ls =>
    if l.fires b nxt then
      if l.rem.toNat > 1 then ({ l with rem := l.rem - 1 } :: ls, l.start) else endTest b nxt ls
    else
      let r := endTest b nxt ls
      (l :: r.1, r.2)

/-- Levels left open by a taken branch (R154). -/
def closeLevels (b target : VAddr) : List LoopLevel → List LoopLevel
  | [] => []
  | l :: ls => if l.has b && !l.has target then closeLevels b target ls else l :: ls

/-! ### The end of a bundle's issue -/

/-- Where a context goes on after its bundle (R3, R50, R153, R157). -/
def Context.step (c : Context) (pc : VAddr) (safe : Bool) (delay : Nat) : Context :=
  let nxt := succPc pc safe
  let r := endTest pc nxt c.loops
  let c := { c with tt := c.tt + 1, loops := r.1, pc := r.2, safe := safe, held := false,
                    liveDue := if safe then some (pc + 32) else none,
                    rank := (c.rank &&& 0xFF) ||| ((c.rank &&& 0xFF) <<< 8), readySince := none }
  let c := if c.itClear then { c.setIt false with itClear := false } else c
  if delay = 0 then { c with xfer := none }
  else
    match c.xfer with
    | none => c
    | some x =>
      if x.count > 1 then { c with xfer := some { x with count := x.count - 1 } }
      else if !x.taken then { c with xfer := none }
      else if x.eret then
        { c with pc := x.target, itClear := true, pxfr := none,
                 xfer := c.pxfr.map fun p => { p with eret := false, src := x.target } }
      else { c with pc := x.target, xfer := none }

/-- The transfer that lands as a delay bundle issues (R150). -/
def Context.landing (c : Context) (delay : Nat) : Option VAddr :=
  match c.xfer with
  | some x => if delay ≠ 0 ∧ x.count ≤ 1 ∧ x.taken then some x.src else none
  | none => none

/-- A bundle of the bank-lock window's context has issued (R172). -/
def Tile.lockStep (t : Tile) (c : Fin 4) (now : Nat) : Tile :=
  match t.lock with
  | some l =>
    if l.ctx = c ∧ l.close = none ∧ l.openAt ≤ now then
      { t with lock := some { l with left := l.left - 1, close := if l.left ≤ 1 then some (now + 2) else none } }
    else t
  | none => t

/-- The slots of a bundle have taken effect: task tick, pc, loops, transfer, lock window, the owner's ACM commits. -/
def State.advance (s : State) : State :=
  let c := s.curCtx
  let landed := c.landing s.cur.delay
  let s := s.modCurTile fun t =>
    let t := (t.modCtx s.cur.ctx fun c => c.step s.cur.pc s.cur.safe s.cur.delay).lockStep s.cur.ctx s.now
    { (t.event 0x02 1) with lastIssue := some (s.cur.ctx, s.now) }
  { s with cur := { s.cur with landed := landed } }

/-! ### Causes of control instructions at issue -/

/-- The control word of the issuing bundle. -/
def State.ctlWord (s : State) (i : Instr) : Word := BitVec.ofNat 32 (encode i + 2 ^ 31 * s.cur.safe.toNat)

/-- A transfer of R50 (and LOOP) in a delay bundle (R50, R154). -/
def delayCause (i : Instr) (s : State) : Option Cause :=
  if s.cur.delay ≠ 0 then some ⟨cIllegal, 0, 2, s.ctlWord i⟩ else none

/-- The end test of an active level would fire on a transfer or its delay bundles (R154). -/
def loopEndCause (s : State) : Option Cause :=
  let (d1, d2, d3) := s.delays
  if s.curCtx.loops.any fun l => l.fires s.cur.pc d1 || l.fires d1 d2 || l.fires d2 d3 then
    some ⟨cTarget, 0, 0, fiTarget 3⟩
  else none

def transferCause (i : Instr) (s : State) : Option Cause :=
  match delayCause i s with
  | some f => some f
  | none => loopEndCause s

/-- LOOP with both levels active (R152). -/
def loopCause (i : Instr) (count : Nat) (s : State) : Option Cause :=
  match delayCause i s with
  | some f => some f
  | none => if count ≠ 0 ∧ s.curCtx.loops.length ≥ 2 then some (causeOverflow 0 6 0) else none

/-! ### Transfers (R148 to R151, R157) -/

/-- A transfer takes its place before its two delay bundles. -/
def State.transfer (s : State) (taken : Bool) (target : VAddr) (eret : Bool) : State :=
  s.modCur fun c => { c with xfer := some ⟨target, 2, taken, eret, s.cur.pc⟩ }

/-- A branch also closes the loop levels it leaves (R154). -/
def State.branch (s : State) (taken : Bool) (off : Int) : State :=
  let target := s.cur.pc + BitVec.ofInt 48 (32 * off)
  let s := s.transfer taken target false
  if taken then s.modCur fun c => { c with loops := closeLevels s.cur.pc target c.loops } else s

/-- A checked control instruction: its fault at issue, or its effect. -/
def checked (f : Option Cause) (s : State) (k : State → State) : Out :=
  match f with
  | some f => .next (s.issueFault s.cur.tile s.cur.ctx f)
  | none => .next (k s)

def execBr (off : BitVec 24) (s : State) : Out :=
  checked (transferCause (.br off) s) s fun s => s.branch true off.toInt
def execBrp (inv : Bool) (p : Fin 16) (off : BitVec 20) (s : State) : Out :=
  checked (transferCause (.brp inv p off) s) s fun s => s.branch (s.rp p != inv) off.toInt

/-- The conditions of BRS (R40). -/
def signCond (c : SignCond) (v : Word) : Bool :=
  match c with
  | .eqz => v == 0
  | .nez => v != 0
  | .ltz => v.msb
  | .gez => !v.msb
  | .gtz => !v.msb && v != 0
  | .lez => v.msb || v == 0

def execBrs (rs : Fin 32) (c : SignCond) (off : BitVec 17) (s : State) : Out :=
  checked (transferCause (.brs rs c off) s) s fun s => s.branch (signCond c (s.rs rs)) off.toInt
def execBru (off : BitVec 24) (s : State) : Out :=
  checked (transferCause (.bru off) s) s fun s => s.branch (s.curCtx.top == 0) off.toInt

/-- CALL: a7 takes the address after the second delay bundle, at issue + 1 (R149). -/
def execCall (off : BitVec 24) (s : State) : Out :=
  checked (transferCause (.call off) s) s fun s =>
    (s.result 1 (.a 7 s.delays.2.2)).transfer true (s.cur.pc + BitVec.ofInt 48 (32 * off.toInt)) false

def execRet (s : State) : Out := checked (transferCause .ret s) s fun s => s.transfer true (s.ra 7) false
def execEret (s : State) : Out := checked (transferCause .eret s) s fun s => s.transfer true s.curCtx.epc true

/-- A counted loop opens, or its body is skipped (R152). A skip may go on in LIVE bytes, which then issue as a bundle: DESIGN
CHOICE, log 68. -/
def State.openLoop (s : State) (count : Word) (len : BitVec 12) : State :=
  let b := succPc s.cur.pc s.cur.safe
  s.modCur fun c =>
    if count = 0 then { c with pc := b + BitVec.ofNat 48 (32 * len.toNat) }
    else { c with loops := ⟨count, b, len⟩ :: c.loops }

def execLoop (count len : BitVec 12) (s : State) : Out :=
  checked (loopCause (.loop count len) count.toNat s) s fun s => s.openLoop (count.setWidth 32) len
def execLoopReg (rs : Fin 32) (len : BitVec 12) (s : State) : Out :=
  checked (loopCause (.loopReg rs len) (s.rs rs).toNat s) s fun s => s.openLoop (s.rs rs) len

/-! ### The end of a task (R155, R379) -/

/-- A read whose effect goes beyond a register of its context. -/
def PendRead.keeps (r : PendRead) : Bool :=
  match r.kind with
  | .stacc _ | .amo _ _ _ | .cas _ _ _ => true
  | _ => false

/-- The guards of a context's queued commands resolve (R176). -/
def State.resolveLater (s : State) (t : TileId) (c : Fin 4) : State := s.first (.ev (.guardResolution t c))

/-- What the end of a task clears in its context (R155, R340, R380). A LIVE bundle that the halting bundle left to be read is not
checked: DESIGN CHOICE, log 68. -/
def Context.ended (c : Context) : Context :=
  { c with pend := [], loops := [], xfer := none, pxfr := none, itClear := false, liveDue := none, st := .halted,
           held := false, safe := false, preReq := none,
           vcDropped := c.vcDropped || !c.vcTraps.isEmpty, vcTraps := [], mpubs := [] }

/-- A task ends (R155): pending register results are discarded (an LDQ that others already see is no longer pending), the lock
window closes, the array is released when the owner's commands have retired (R114). -/
def State.endTask (s : State) (t : TileId) (c : Fin 4) : State :=
  (s.modTile t fun x =>
    let x := ((x.leaveScales c s.now false).closeLock c s.now).modCtx c Context.ended
    { x with reads := x.reads.filter fun r => r.ctx != c || r.keeps,
             ownRel := x.ownRel || x.owns c }).resolveLater t c

/-- HALT: faults that wait in the context's places go to the launch's fault record (log 83). -/
def execHalt (s : State) : Out :=
  let s' := s.endTask s.cur.tile s.cur.ctx
  .next (if s.curCtx.faults.toList.any Option.isSome then s'.first (.ev (.faultRecord s.cur.tile s.cur.ctx)) else s')

/-- TRAP: the cause is delivered once the bundle has taken effect; `EPC` is the next bundle (R156). -/
def execTrap (code : BitVec 16) (s : State) : Out :=
  let f : Cause := ⟨cTrap, 0, code.toNat, 0⟩
  .next (s.raise s.cur.tile s.cur.ctx (f.word true false) 0 s.cur.pc s.curCtx.pc)

/-- YIELD declares a run and offers the issue width (R159, R160, R163, R173). -/
def execYield (run : BitVec 20) (s : State) : Out :=
  .next ((s.modCurTile fun t =>
    let t := t.closeLock s.cur.ctx s.now
    let t := t.modCtx s.cur.ctx fun c =>
      { c with rundecl := run.setWidth 32, declAt := if run = 0 then none else some s.cur.tt,
               overrun := false, overPre := false }
    { t with arb := .choose s.now }).first (.ev (.arbiterChoice s.cur.tile)))

/-! ### CSRs (R108 to R116, R171) -/

/-- The layout of TXY, LORG, LEXT and GRID (R112). -/
def xyWord (x y : Nat) : Word := BitVec.ofNat 32 (x % 512 + 65536 * (y % 512))

def countOnes (n : Nat) (v : Nat) : Nat := ((List.range n).filter fun i => v / 2 ^ i % 2 == 1).length

/-- CFG (R115). -/
def Fuses.cfg (f : Fuses) : Word :=
  BitVec.ofNat 32 (countOnes 64 f.stkmap.toNat + 256 * countOnes 16 f.portmap.toNat + 65536 * f.bin.toNat)

/-- The tile after what the head of the MXU queue does on this tick, event by event (R107, R248, R257): a PREC or PMASK of the
issuing context whose guard this bundle's issue resolves takes part (R176). -/
def State.arrayAhead (s : State) : Nat → State
  | 0 => s
  | n + 1 =>
    let run (o : Out) : State := match o with
      | .next s => s.arrayAhead n
      | _ => s
    match s.curTile.arrayEvent s.cur.tile s.now with
    | some (.mxuRetire t) => run (execMxuRetire t s)
    | some (.mxuCommandHead t) => run (execMxuCommandHead t s)
    | some (.mxuStart t) => run (execMxuStart t s)
    | _ => s

/-- The tile whose precision and mask registers a CSRR reads: as in force at the head on this tick (R107). Eight commands make
at most three events each. -/
def State.headTile (s : State) : Tile :=
  ((s.modCurTile fun t =>
    ((t.settleMxGuards (fun m => m.ctx == s.cur.ctx && decide (m.tick < s.now))).performStaccs s.now).drainWait s.now).arrayAhead 24).curTile

/-- The item behind a low half, whole (R108). -/
def State.wide (s : State) (c : Csr) : Option (BitVec 64) :=
  let x := s.curCtx
  let e (v : VAddr) : BitVec 64 := (v &&& ~~~0x1F).setWidth 64
  match c with
  | .fpcl => some (x.fpc.setWidth 64)
  | .epcl => some (e x.epc)
  | .trapvl => some (e x.trapv)
  | .ttickl => some (BitVec.ofNat 64 s.cur.tt)
  | .hbasel => some (x.hbase.setWidth 64)
  | .hlimitl => some (x.hlimit.setWidth 64)
  | .hoffsetl => some (x.hoffset.setWidth 64)
  | .rowpl => some s.headTile.rowp
  | .ctimel => some (combTime s.now)
  | .stkmapl => some s.fuses.stkmap
  | _ => none

/-- The low half that a high half belongs to. -/
def csrLow : Csr → Option Csr
  | .fpch => some .fpcl
  | .epch => some .epcl
  | .trapvh => some .trapvl
  | .ttickh => some .ttickl
  | .hbaseh => some .hbasel
  | .hlimith => some .hlimitl
  | .hoffseth => some .hoffsetl
  | .rowph => some .rowpl
  | .ctimeh => some .ctimel
  | .stkmaph => some .stkmapl
  | _ => none

/-- MXOWN (R114). -/
def Tile.mxown (t : Tile) : BitVec 3 := BitVec.ofNat 3 (t.own.val + 4 * t.ownV.toNat)

/-- A CSR that is no half. -/
def State.plainCsr (s : State) (c : Csr) : Word :=
  let x := s.curCtx
  let t := s.curTile
  match c with
  | .status => x.status
  | .round => x.round
  | .cause => x.cause
  | .finfo => x.finfo
  | .rundecl => x.rundecl
  | .ovrcnt => x.ovrcnt
  | .walker => x.walker
  | .launch => x.launch
  | .lorg => x.lorg
  | .lext => x.lext
  | .rank => x.rank
  | .txy => xyWord (tileX s.cur.tile) (tileY s.cur.tile)
  | .mxown => t.mxownPrev.setWidth 32
  | .decay => t.decay
  | .precv => s.headTile.prec
  | .colp i => s.headTile.colp.extractLsb' (32 * i.val) 32
  | .grid => xyWord s.fuses.gx s.fuses.gy
  | .cfg => s.fuses.cfg
  | .portmap => s.fuses.portmap.setWidth 32
  | .err i => t.errPrev[i]
  | .pmc i => t.pmcPrev[i]
  | .pmsel i => t.pmselPrev[i]
  | _ => 0

/-- The value a CSRR reads (R108, R171): a high half comes from the last capture of its item. -/
def State.csrValue (s : State) (c : Csr) : Word :=
  match s.wide c with
  | some v => v.setWidth 32
  | none =>
    match csrLow c with
    | some l =>
      match s.curCtx.caps.find? fun k => k.low == l with
      | some k => k.val.extractLsb' 32 32
      | none => ((s.wide l).getD 0).extractLsb' 32 32
    | none => s.plainCsr c

/-- A read of a low half captures the whole item. -/
def State.capture (s : State) (c : Csr) : State :=
  match s.wide c with
  | some v => s.modCur fun x => { x with caps := ⟨c, v⟩ :: x.caps.filter fun k => k.low != c }
  | none => s

def execCsrr (rd : Fin 32) (c : Csr) (s : State) : Out :=
  .next ((s.capture c).result 1 (.s rd (s.csrValue c)))

/-- How a CSR write combines old and given bits. -/
inductive CsrWrite where
  | w | set | clr
  deriving DecidableEq, Repr

def CsrWrite.apply (k : CsrWrite) (old v : Word) : Word :=
  match k with
  | .w => v
  | .set => old ||| v
  | .clr => old &&& ~~~v

/-- STATUS is read-clear in [6:0]; IT and the rest do not change (R108, R110). -/
def statusWrite (k : CsrWrite) (old v : Word) : Word :=
  match k with
  | .w => old &&& (v ||| ~~~0x7F)
  | .set => old
  | .clr => old &&& ~~~(v &&& 0x7F)

/-- The low or high half of a 48-bit item replaced; EPC and TRAPV keep [4:0] zero (R109). -/
def lowHalf (k : CsrWrite) (old : VAddr) (v : Word) : VAddr :=
  (old.extractLsb' 32 16 ++ (k.apply (old.setWidth 32) v &&& ~~~0x1F))
def highHalf (k : CsrWrite) (old : VAddr) (v : Word) : VAddr :=
  ((k.apply ((old.extractLsb' 32 16).setWidth 32) v).setWidth 16 ++ old.setWidth 32)

/-- A CSR write (R106, R108 to R116, R157, R369, R370). -/
def State.csrWrite (s : State) (k : CsrWrite) (c : Csr) (v : Word) : State :=
  match c with
  | .status => s.modCur fun x => { x with status := statusWrite k x.status v }
  | .round => s.modCur fun x => { x with round := k.apply x.round v &&& 3 }
  | .ovrcnt => s.modCur fun x => { x with ovrcnt := k.apply x.ovrcnt v &&& 0xFFFF }
  | .epcl => s.modCur fun x => { x with epc := lowHalf k x.epc v, pxfr := if k = .w then none else x.pxfr }
  | .epch => s.modCur fun x => { x with epc := highHalf k x.epc v }
  | .trapvl => s.modCur fun x => { x with trapv := lowHalf k x.trapv v }
  | .trapvh => s.modCur fun x => { x with trapv := highHalf k x.trapv v }
  | .decay => s.modCurTile fun t => { t with decay := k.apply t.decay v }
  | .mxown => s.modCurTile fun t =>
      if k = .clr ∧ v.getLsbD 2 ∧ t.owns s.cur.ctx then { t with ownRel := true } else t
  | .err i => s.modCurTile fun t =>
      { t with err := vset t.err i (k.apply t.errPrev[i] v), errLock := t.errLock ||| (1#10 <<< i.val) }
  | .pmc i => s.modCurTile fun t =>
      { t with pmc := vset t.pmc i (k.apply t.pmcPrev[i] v), pmcLock := t.pmcLock ||| (1#8 <<< i.val) }
  | .pmsel i => s.modCurTile fun t => { t with pmsel := vset t.pmsel i (k.apply t.pmsel[i] v &&& 0xFF) }
  | _ => s

def execCsrw (rs : Fin 32) (c : Csr) (s : State) : Out := .next (s.csrWrite .w c (s.rs rs))
def execCsrset (rs : Fin 32) (c : Csr) (s : State) : Out := .next (s.csrWrite .set c (s.rs rs))
def execCsrclr (rs : Fin 32) (c : Csr) (s : State) : Out := .next (s.csrWrite .clr c (s.rs rs))

/-- The array is released on the tick after the owner's last queued MXU command retires (R114). -/
def execMxownRelease (t : TileId) (s : State) : Out :=
  .next (s.modTile t fun x => { x with ownV := false, ownRel := false })

/-! ### Bank lock (R172, R173) -/

/-- BLK (R172): its window opens on the tick after its bundle. One inside an open window takes that window's place on its own tick, so
that no bank is locked on it: DESIGN CHOICE, log 82. -/
def execBlk (grp : BitVec 8) (n : BitVec 4) (s : State) : Out :=
  .next (s.modCurTile fun t => { t with lock := some ⟨grp, n.toNat + 1, s.cur.ctx, s.now + 1, none⟩ })

/-- A bank is locked on a tick. -/
def Tile.lockedBank (t : Tile) (now b : Nat) : Bool :=
  match t.lock with
  | some l => l.grp.getLsbD (b / 4) && decide (l.openAt ≤ now) && (match l.close with
      | none => true
      | some e => decide (now ≤ e))
  | none => false

/-- An engine access to some addresses is held back on this tick (R172). -/
def Tile.locked (t : Tile) (now : Nat) (as : List Nat) : Bool := as.any fun a => t.lockedBank now (bankOf (spmAddr a))

/-! ### Code placement (R174, R186, R187) -/

/-- The set of a line, and the slot of the code region. -/
def lineSet (line : Nat) : Nat := line % 8
def lineSlot (line : Nat) : Fin 32 := Fin.ofNat 32 line

/-- The virtual addresses of a run's lines. -/
def runLines (base : VAddr) (n : Nat) : List VAddr := (List.range n).map fun i => (base &&& ~~~0xFF) + BitVec.ofNat 48 (256 * i)

/-- Three ways of a line's set are pinned by other lines. -/
def Tile.setFull (t : Tile) (line : Nat) : Bool :=
  decide ((t.icache.filter fun l => lineSet l.tag == lineSet line && l.pinned && l.tag != line).length ≥ 3)

/-- The fetch unit keeps four outstanding requests, those of fetch misses among them (R174). -/
def Tile.fetchFull (t : Tile) : Bool := decide (4 ≤ t.code.length + t.codeHeld.length)

/-- A request of the fetch unit (R174): one issued while four are outstanding is dropped and counted. PREF or PIN of a line that is
already asked for joins that request, and adds its pin, also while four are outstanding: DESIGN CHOICE, log 84. -/
def Tile.request (t : Tile) (region : Bool) (line : Nat) (pin zero : Bool) (ready : Nat) : Tile :=
  if t.code.any fun r => r.region == region && r.line == line then
    { t with code := t.code.map fun r => if r.region == region && r.line == line then { r with pin := r.pin || pin } else r }
  else if t.fetchFull then t.event 0x11 1
  else { t with code := t.code ++ [⟨region, line, pin, ready, none, false, zero⟩] }

/-- PREF or PIN of one physical line in one level. -/
def Tile.fetchLine (t : Tile) (region pin : Bool) (ready l : Nat) (zero : Bool) : Tile :=
  if region then
    let sl := t.region[lineSlot l]
    if sl.valid && sl.tag == l then
      if pin then { t with region := vset t.region (lineSlot l) { sl with pinned := true } } else t
    else if sl.valid && sl.pinned then t.event 0x11 1
    else t.request true l pin zero ready
  else if t.icache.any fun x => x.tag == l then
    if !pin then t
    else if t.setFull l then t.event 0x11 1
    else { t with icache := t.icache.map fun x => if x.tag == l then { x with pinned := true } else x }
  else t.request false l pin zero ready

/-- UNPIN of one line. -/
def Tile.unpinLine (t : Tile) (region : Bool) (line : Option Nat) : Tile :=
  match line with
  | none => t.event 0x11 1
  | some l =>
    if region then
      let sl := t.region[lineSlot l]
      if sl.valid && sl.tag == l then { t with region := vset t.region (lineSlot l) { sl with pinned := false } } else t
    else { t with icache := t.icache.map fun x => if x.tag == l then { x with pinned := false } else x }

/-- PREF or PIN of one line as a context sees it (R174): one that does not translate is skipped and counted; one whose page is
migrating is a request that waits for its translation (R203). -/
def State.askLine (s : State) (t : TileId) (c : Fin 4) (region pin : Bool) (ready : Nat) (va : VAddr) : State :=
  let x := s.tile t
  s.setTile t (match s.lineXlate x (x.ctx c) va with
    | none => x.event 0x11 1
    | some (pa, res, mig) =>
      if !mig then x.fetchLine region pin ready (pa / 256) (!res)
      else if x.fetchFull then x.event 0x11 1
      else { x with codeHeld := x.codeHeld ++ [⟨c, va, region, pin⟩] })

/-- A run of lines for PREF and PIN. -/
def fetchRun (lvl pin : Bool) (ab : Fin 8) (lines : BitVec 8) (s : State) : Out :=
  let ready := s.now + 1 + Config.codeLatency s.free
  .next ((runLines (s.ra ab) (lines.toNat + 1)).foldl (fun s va => s.askLine s.cur.tile s.cur.ctx lvl pin ready va) s).bump

def execPref (lvl : Bool) (ab : Fin 8) (lines : BitVec 8) (s : State) : Out := fetchRun lvl false ab lines s
def execPin (lvl : Bool) (ab : Fin 8) (lines : BitVec 8) (s : State) : Out := fetchRun lvl true ab lines s
def execUnpin (lvl : Bool) (ab : Fin 8) (lines : BitVec 8) (s : State) : Out :=
  let ls := (runLines (s.ra ab) (lines.toNat + 1)).map fun va => (s.codePa s.curTile s.curCtx va).map (· / 256)
  .next (s.modCurTile fun t => ls.foldl (fun t l => t.unpinLine lvl l) t)

/-- A line enters the instruction cache in place of the least recently used way that is not pinned (R186). -/
def Tile.insertLine (t : Tile) (line : Nat) (data : List Byte) (pin : Bool) (now : Nat) : Tile :=
  let inSet := t.icache.filter fun x => lineSet x.tag == lineSet line
  let others := t.icache.filter fun x => lineSet x.tag != lineSet line
  let pinned := pin && !t.setFull line
  let t := if pin && t.setFull line then t.event 0x11 1 else t
  let keep := inSet.filter fun x => x.tag != line
  if keep.length < 4 then { t with icache := others ++ keep ++ [⟨line, data, pinned, now⟩] }
  else
    match sortBy (fun a b => decide (a.used ≤ b.used)) (keep.filter fun x => !x.pinned) with
    | [] => t.event 0x11 1
    | v :: _ => { t with icache := others ++ (keep.filter fun x => x.tag != v.tag) ++ [⟨line, data, pinned, now⟩] }

/-- Bytes of a code line as they arrive: zeros from a page that was not resident (R202); and its uncorrectable words. -/
def State.lineBytes (s : State) (zero : Bool) (pa n : Nat) : List Byte := if zero then List.replicate n 0 else s.heapRun pa n
def State.lineBad (s : State) (zero : Bool) (pa n : Nat) : Nat := if zero then 0 else (s.badWords pa n).length

/-- A line is to be fetched again for the instruction cache, with its pin (R186, R323): it waits for a free place of the fetch unit. -/
def Tile.refetchLine (t : Tile) (line : Nat) (pin zero : Bool) (latency : Nat) : Tile :=
  { t with refetch := t.refetch ++ [⟨false, line, pin, latency, none, false, zero⟩] }

/-- Lines to be fetched again take the free places of the fetch unit, oldest first; one that is already asked for joins that request. -/
def Tile.startRefetch (t : Tile) (now : Nat) : Tile :=
  if t.refetch.isEmpty then t else
  t.refetch.foldl (fun t r =>
    let asked := t.code.any fun q => !q.region && q.line == r.line
    if asked || !t.fetchFull then t.request false r.line r.pin r.zero (now + r.ready)
    else { t with refetch := t.refetch ++ [r] }) { t with refetch := [] }

/-- A code line arrives in the instruction cache (R174, R175). -/
def execInstructionCacheFill (t : TileId) (s : State) : Out :=
  let x := s.tile t
  match x.code.find? fun r => !r.region && decide (r.ready ≤ s.now) with
  | none => .next s
  | some r =>
    let data := s.lineBytes r.zero (r.line * 256) 256
    let bad := s.lineBad r.zero (r.line * 256) 256
    .next (s.modTile t fun x => ({ x with code := x.code.erase r }.insertLine r.line data r.pin s.now).count eccUE bad)

/-- A code line fills its slot of the code region through the engine port, one bank row of 128 bytes for each turn (R179, R180,
R187); the slot is valid from the end of its fill. -/
def execCodeRegionFill (t : TileId) (s : State) : Out :=
  let x := s.tile t
  match x.code.find? fun r => r.region && decide (r.ready ≤ s.now) with
  | none => .next s
  | some r =>
    let sl := lineSlot r.line
    let old := x.region[sl]
    let lo := if r.half then 128 else 0
    let at_ := 0xE000 + 256 * sl.val + lo
    if !r.half && old.valid && old.pinned && old.tag != r.line then
      .next (s.modTile t fun x => ({ x with code := x.code.erase r }).event 0x11 1)
    else if x.locked s.now (span at_ 128) then .next s
    else
      let data := s.lineBytes r.zero (r.line * 256 + lo) 128
      let bad := s.lineBad r.zero (r.line * 256 + lo) 128
      let pin := r.pin || (!r.half && old.pinned && old.tag == r.line)
      .next (s.modTile t fun x =>
        let x := (({ x with portBusy := true, portLast := .code } : Tile).writeSpm (numbered at_ data)).count eccUE bad
        if r.half then { x with code := x.code.erase r, region := vset x.region sl ⟨r.line, pin, true⟩ }
        else { x with code := x.code.map fun q => if q = r then { r with half := true, pin := pin } else q })

end Sys2Proof.Machine
end

