-- ==== Sys2Proof/Machine/Wait.lean ====
section
/-! DEFINITION. Waits, fences and the phase flag (R52, R164 to R170, R239, R254, R360 to R366, R451). A wait's meaning
acts before the other slots of its bundle: its condition sees the state at the end of the previous tick. -/

namespace Sys2Proof.Machine

def Tile.chan (t : Tile) (ch : Fin 256) : Chan := alGet t.chans ch.val Chan.reset
def Tile.setChan (t : Tile) (ch : Fin 256) (f : Chan → Chan) : Tile := { t with chans := alSet t.chans ch.val (f (t.chan ch)) }

/-- A 64-bit value has been reached by a timeline (R165). -/
def reached (tl want : BitVec 64) : Bool := decide ((tl - want).toNat < 2 ^ 63)

/-- Every store and atomic of a context has performed (R170 scope 1). -/
def Tile.storesDone (t : Tile) (c : Fin 4) : Bool :=
  t.writes.all (fun w => w.ctx != c || w.lat != 2) && t.reads.all (fun r => r.ctx != c || !r.keeps) && t.staccs.all fun p => p.ctx != c

/-- A scope's own condition for a context (R170, R451). -/
def Tile.scopeDone (t : Tile) (c : Fin 4) (n : Nat) : Bool :=
  let x := t.ctx c
  match n with
  | 1 => t.storesDone c
  | 2 => t.live.all fun l => l.ctx != c
  | 3 => t.chans.all fun e => !e.2.out.contains c
  | 4 => t.live.all fun l => l.ctx != c || !l.coll
  | 5 => x.wack == 0
  | 6 => x.tlOut == 0
  | _ => true

/-- The condition of FENCE: every condition up to its scope; all four contexts for the system scope. -/
def Tile.fenceDone (t : Tile) (c : Fin 4) (sc : Scope) : Bool :=
  match sc with
  | .system => (List.finRange 4).all fun d => (List.range 9).all fun n => t.scopeDone d n
  | s => (List.range (s.code + 1)).all fun n => t.scopeDone c n

/-- The condition of a wait as a context would evaluate it now (R165, R170); true of every other instruction. -/
def Tile.waitHolds (t : Tile) (c : Fin 4) (i : Instr) : Bool :=
  let x := t.ctx c
  match i with
  | .waitc k thr => decide (x.cnt[k].toNat < thr.toNat)
  | .waits k v | .waitsD k v => decide (v.toNat ≤ t.sems[k].toNat)
  | .waitt tl l h => reached (alGet t.tls tl.val 0) (x.s[h] ++ x.s[l])
  | .waitcr ch n => decide (n.toNat ≤ (t.chan ch).cr.toNat)
  | .waitrg rg n => decide (n.toNat ≤ t.rings[rg].cnt.toNat)
  | .waitrgFree rg n => decide (n.toNat ≤ t.rings[rg].free)
  | .waitb b st => t.bufs[b].state == st
  | .waitbTag b st tag => t.bufs[b].state == st && t.bufs[b].tag == tag
  | .waitph => x.phase
  | .fence sc => t.fenceDone c sc
  | _ => true

/-- The instructions that wait (R52, R164). -/
def isWait : Instr → Bool
  | .waitc _ _ | .waits _ _ | .waitsD _ _ | .waitt _ _ _ | .waitcr _ _ | .waitrg _ _ | .waitrgFree _ _ | .waitb _ _
  | .waitbTag _ _ _ | .waitph | .fence _ => true
  | _ => false

/-- Faults of a wait at an attempt (R167, R168); a count of zero always holds (R165, log 60). -/
def waitCause (t : Tile) (i : Instr) : Option Cause :=
  match i with
  | .waitcr ch n =>
    let x := t.chan ch
    if n = 0 then none
    else if !x.v || x.coll then some (causeSchedule 0 ch.val 0)
    else if n.toNat > x.d.toNat then some (causeOverflow 0 7 ch.val) else none
  | .waitrg rg n | .waitrgFree rg n =>
    let r := t.rings[rg]
    if n = 0 then none
    else if !r.v then some (causeSchedule 0 rg.val 1)
    else if n.toNat > r.e then some (causeOverflow 0 7 rg.val) else none
  | .waitb b _ => if t.bufs[b].v then none else some (causeSchedule 0 b.val 2)
  | .waitbTag b _ tag =>
    let x := t.bufs[b]
    let gap := (x.tag - tag).toNat
    if !x.v then some (causeSchedule 0 b.val 2)
    else if 1 ≤ gap ∧ gap ≤ 127 then some ⟨cSchedule, 0, 0, fiSchedule b.val 4 x.tag.toNat⟩ else none
  | _ => none

/-- The table entries that an attempt of a wait reads: offset and bytes (R165, R204). A wait is no load and no engine command, so an
uncorrectable word sets no STATUS.ERR (R110). -/
def waitEntries (i : Instr) : List (Nat × Nat) :=
  match i with
  | .waitcr ch _ => [(chanOff ch.val, 16), (winOff ch.val, 4)]
  | .waitrg rg _ | .waitrgFree rg _ => [(ringOff rg.val, 8)]
  | .waitb b _ | .waitbTag b _ _ => [(bufOff b.val, 16)]
  | _ => []

def Tile.readWait (t : Tile) (i : Instr) : Tile := (waitEntries i).foldl (fun t e => t.readTable e.1 e.2) t

/-- A mask that a PUBLISH owes commits at the task tick after a wait (R239). -/
def Context.takeMask (c : Context) (w : Nat) (p : MaskPub) : Context :=
  match p.val with
  | some (_, fmap) => { c with mpubs := c.mpubs.filter fun q => q.id != p.id }.push ⟨w + 1, p.tt, 7, .m p.mreg fmap⟩
  | none => c

def Context.takeMasks (c : Context) (w : Nat) (sel : MaskPub → Bool) : Context :=
  (c.mpubs.filter sel).foldl (fun c p => c.takeMask w p) c

/-- A PUBLISH a wait on a tag covers (R239). -/
def MaskPub.covered (b : Fin 32) (tag : BitVec 8) (p : MaskPub) : Bool :=
  p.buf == b && match p.val with
    | some (g, _) => decide ((tag - g).toNat ≤ 127)
    | none => false

/-- A wait attempt fails: the context is held and its bank-lock window closes (R52, R173). -/
def State.holdWait (s : State) : State :=
  s.modCurTile fun t =>
    ((t.closeLock s.cur.ctx s.now).modCtx s.cur.ctx fun c => { c with held := true }).event 0x06 1

/-- A wait with its fault, its condition, and what its issue does besides. -/
def waitSlot (i : Instr) (k : State → State) (s : State) : Out :=
  let s := if s.curTile.upsets.isEmpty then s else s.modCurTile fun t => t.readWait i
  match waitCause s.curTile.tableView i with
  | some f => .next (s.issueFault s.cur.tile s.cur.ctx f)
  | none => .next (if s.curTile.tableView.waitHolds s.cur.ctx i then k s else s.holdWait)

/-- The wait that a WAITPH or a wide FENCE of the array's owner ends lowers due ticks (R254). -/
def State.lower (s : State) (sel : AccPend → Bool) : State :=
  if s.curTile.owns s.cur.ctx then s.modCurTile fun t => t.lowerDue s.cur.tt sel else s

def execWaitc (c : Fin 16) (thr : BitVec 9) (s : State) : Out := waitSlot (.waitc c thr) id s
def execWaits (k : Fin 16) (v : BitVec 16) (s : State) : Out := waitSlot (.waits k v) id s
/-- The subtraction on the issue tick (R166, R364). -/
def execWaitsD (k : Fin 16) (v : BitVec 16) (s : State) : Out :=
  waitSlot (.waitsD k v) (fun s => s.modCurTile fun t => { t with sems := vset t.sems k (t.sems[k] - v) }) s
def execWaitt (tl : Fin 1024) (l h : Fin 32) (s : State) : Out := waitSlot (.waitt tl l h) id s
def execWaitcr (ch : Fin 256) (n : BitVec 8) (s : State) : Out := waitSlot (.waitcr ch n) id s
def execWaitrg (rg : Fin 8) (n : BitVec 8) (s : State) : Out := waitSlot (.waitrg rg n) id s
def execWaitrgFree (rg : Fin 8) (n : BitVec 8) (s : State) : Out := waitSlot (.waitrgFree rg n) id s
def execWaitb (b : Fin 32) (st : BufState) (s : State) : Out := waitSlot (.waitb b st) id s
def execWaitbTag (b : Fin 32) (st : BufState) (tag : BitVec 8) (s : State) : Out :=
  waitSlot (.waitbTag b st tag) (fun s => s.modCur fun c => c.takeMasks s.cur.tt (MaskPub.covered b tag)) s

/-- WAITPH: commits ahead of the latest PHASE's markers fall due (R239, R254). -/
def execWaitph (s : State) : Out :=
  waitSlot .waitph (fun s =>
    let c := s.curCtx
    let s := s.modCur fun c => c.takeMasks s.cur.tt fun p => c.phaseCopy.any fun n => decide (p.id < n)
    s.lower fun p => c.phaseMxu.any fun n => decide (p.id < n)) s

def execFence (sc : Scope) (s : State) : Out :=
  waitSlot (.fence sc) (fun s =>
    if sc.code ≥ 2 then (s.modCur fun c => c.takeMasks s.cur.tt fun _ => true).lower fun _ => true else s) s

/-- A marker behind the commands that a context has queued in one engine queue. -/
def Tile.marker (t : Tile) (c : Fin 4) (q : Fin 3) : Marker :=
  ⟨q, t.nextId, (t.live.filter fun l => l.ctx == c && l.queue == q).map LiveCmd.id⟩

/-- PHASE clears the flag and places its markers (R169, R362). -/
def execPhase (eq : BitVec 3) (s : State) : Out :=
  .next (s.modCurTile fun t =>
    let ms := ((List.finRange 3).filter fun q => eq.getLsbD q.val).map (t.marker s.cur.ctx)
    t.modCtx s.cur.ctx fun c =>
      { c with phase := false, phaseDue := false,
               markers := c.markers ++ ms.filter fun m => !m.wait.isEmpty,
               phaseMxu := if eq.getLsbD 0 then some t.nextId else none,
               phaseCopy := if eq.getLsbD 1 then some t.nextId else none })

/-- The phase flag rises on the tick after every marker has retired with WACK zero (R169, R362). -/
def execPhaseFlagSet (t : TileId) (c : Fin 4) (s : State) : Out :=
  .next (if (s.ctx t c).phaseDue then s.modCtx t c fun x => { x with phase := true, phaseDue := false } else s)

/-- The flag's condition at the end of a tick. -/
def Context.phaseReady (c : Context) : Bool := !c.phase && c.markers.isEmpty && c.wack == 0

end Sys2Proof.Machine
end

