-- ==== Sys2Proof/Machine/Tables.lean ====
section
/-! DEFINITION. Where things are: the torus (R11), edge ports (R14, R15), the placement of logical tiles (R316, R318), links
and their latencies (R12, R312), routes (R309 to R313), the tile-map cache (R317). -/

namespace Sys2Proof.Machine

/-! ### The torus -/

/-- The neighbour in direction 0 east, 1 west, 2 north, 3 south (R11). -/
def State.neighbour (s : State) (t : TileId) (d : Nat) : TileId :=
  let gx := s.fuses.gx
  let gy := s.fuses.gy
  let x := tileX t
  let y := tileY t
  match d with
  | 0 => mkTile ((x + 1) % gx) y
  | 1 => mkTile ((x + gx - 1) % gx) y
  | 2 => mkTile x ((y + 1) % gy)
  | _ => mkTile x ((y + gy - 1) % gy)

/-- The direction a flit sent in a direction arrives from. -/
def opposite (d : Nat) : Nat := if d = 0 then 1 else if d = 1 then 0 else if d = 2 then 3 else 2

/-! ### Placement (R10, R316, R318) -/

/-- Logical columns of a field: 50, or 48 in the L bins (R27). -/
def Fuses.fieldSize (f : Fuses) : Nat := f.gx / 8

/-- Dead tiles of a field as column and row inside it. -/
def Fuses.deadIn (f : Fuses) (fx fy : Nat) : List (Nat × Nat) :=
  (f.dead.filter fun p => p.1 / 52 == fx && p.2 / 52 == fy).map fun p => (p.1 % 52, p.2 % 52)

/-- Usable physical rows of a field: at most 2 dead tiles (R318 step 1). -/
def usableRows (dead : List (Nat × Nat)) : List Nat :=
  (List.range 52).filter fun r => decide ((dead.filter fun p => p.2 == r).length ≤ 2)

/-- Physical place of a logical tile after repair (R318 steps 1, 2). -/
def Fuses.bootPlace (f : Fuses) (t : TileId) : Nat × Nat :=
  let n := f.fieldSize
  let fx := tileX t / n
  let fy := tileY t / n
  let dead := f.deadIn fx fy
  let row := (usableRows dead).getD (tileY t % n) 0
  let cols := (List.range 52).filter fun c => !dead.contains (c, row)
  (52 * fx + cols.getD (tileX t % n) 0, 52 * fy + row)

/-! ### Edge ports (R14, R15) -/

/-- The physical tiles along a side of the wafer: south, east, north, west. -/
def sideTiles (k : Nat) : List (Nat × Nat) :=
  (List.range 416).map fun i => match k with
    | 0 => (i, 0)
    | 1 => (415, i)
    | 2 => (i, 415)
    | _ => (0, i)

/-- Some members of a list, each at most once, as the part has them; `k` counts the choices. -/
def pickSome {α : Type} [DecidableEq α] : Nat → Nat → List α → List α
  | 0, _, _ => []
  | n + 1, k, l => match l[Config.edgePick k % l.length]? with
    | some x => x :: pickSome n (k + 1) (l.erase x)
    | none => []

/-- Tiles wired on each side: 12 stacks with 20 and 4 optical ports with 24, on 336 of its 416. -/
def wiredTiles : List (List (Nat × Nat)) :=
  (List.range 4).foldl (fun ws k => ws ++ [pickSome 336 (64 + 336 * k) ((sideTiles k).filter fun q => !ws.any fun w => w.contains q)]) []

/-- A unit's wired tiles: the i-th of the units of its kind on its side. -/
def wiredOf (w : List (Nat × Nat)) (stack : Bool) (i : Nat) : List (Nat × Nat) :=
  if stack then (w.drop (20 * i)).take 20 else (w.drop (240 + 24 * i)).take 24

/-- The edge wiring of the wafer: each HBM stack with 20 forager tiles, each optical port with 24 tiles; which ones is the part's
(log 64). -/
def edgeWiring : List EdgeUnit :=
  let units (stack : Bool) (k : Nat) : List (Bool × Nat) := (pickSome (4 * k) (if stack then 0 else 48) (List.range (4 * k))).map fun n => (stack, n)
  (wiredTiles.zip (List.range 4)).flatMap fun w =>
    let side (stack : Bool) (k : Nat) : List EdgeUnit :=
      ((((units stack k).drop (k * w.2)).take k).zip (List.range k)).map fun u => ⟨stack, u.1.2, wiredOf w.1 stack u.2, []⟩
    side true 12 ++ side false 4

/-- The part has the stack or the optical port (R27, R109). -/
def Fuses.has (f : Fuses) (e : EdgeUnit) : Bool := if e.stack then f.stkmap.getLsbD e.num else f.portmap.getLsbD e.num

/-- The physical tile carries an edge port; those of disabled units are ordinary tiles (R14, R27). -/
def Fuses.edgePort (f : Fuses) (q : Nat × Nat) : Bool :=
  (q.1 == 0 || q.2 == 0 || q.1 == 415 || q.2 == 415) && edgeWiring.any fun e => f.has e && e.active.contains q

/-- The tile-map entry of a logical tile: its place and state; none changed since boot reads as ACTIVE. -/
def State.mapEntry (s : State) (t : TileId) : MapEntry :=
  match s.tmap.find? fun e => e.1 == t with
  | some e => e.2
  | none =>
    let p := s.fuses.bootPlace t
    ⟨BitVec.ofNat 9 p.1, BitVec.ofNat 9 p.2, 0, s.fuses.edgePort p⟩

def State.place (s : State) (t : TileId) : Nat × Nat := ((s.mapEntry t).px.toNat, (s.mapEntry t).py.toNat)

def State.setMap (s : State) (t : TileId) (f : MapEntry → MapEntry) : State :=
  { s with tmap := alSet s.tmap t (f (s.mapEntry t)) }

/-- States of a tile-map entry (R316). -/
def mapActive : BitVec 2 := 0
def mapMigrating : BitVec 2 := 1
def mapAbsent : BitVec 2 := 2

def State.isAbsent (s : State) (t : TileId) : Bool := (s.mapEntry t).st == mapAbsent

/-- The logical tile on a physical place, if one stands there. -/
def State.logicalAt (s : State) (p : Nat × Nat) : Option TileId :=
  match s.tmap.find? fun e => e.2.px.toNat == p.1 && e.2.py.toNat == p.2 && e.2.st != mapAbsent with
  | some e => some e.1
  | none =>
    let f := s.fuses
    let n := f.fieldSize
    let dead := f.deadIn (p.1 / 52) (p.2 / 52)
    let rows := (usableRows dead).take n
    let cols := (List.range 52).filter fun c => !dead.contains (c, p.2 % 52)
    match rows.findIdx? (· == p.2 % 52), cols.findIdx? (· == p.1 % 52) with
    | some y, some x =>
      let t := mkTile (n * (p.1 / 52) + x) (n * (p.2 / 52) + y)
      if x < n ∧ s.place t = p ∧ !s.isAbsent t then some t else none
    | _, _ => none

/-- Edge ports of a unit that carry traffic: 16 of a stack's, 20 of an optical port's. -/
def EdgeUnit.width (e : EdgeUnit) : Nat := if e.stack then 16 else 20

/-- The boot sequence selects the active ports of each unit: live tiles, those with a logical tile first (R15, R318; log 64). -/
def State.chooseEdges (s : State) : State :=
  { s with edges := (edgeWiring.filter s.fuses.has).map fun e =>
      let live := e.active.filter fun q => !s.fuses.dead.contains q
      let order := live.filter (fun q => (s.logicalAt q).isSome) ++ live.filter fun q => (s.logicalAt q).isNone
      { e with active := order.take e.width, standby := order.drop e.width } }

/-- A place fails: it carries no traffic any more, and a standby port of its unit takes its place (R15). -/
def EdgeUnit.fail (e : EdgeUnit) (q : Nat × Nat) : EdgeUnit :=
  let standby := e.standby.filter (· != q)
  if e.active.contains q then { e with active := e.active.filter (· != q) ++ standby.take 1, standby := standby.drop 1 }
  else { e with standby := standby }

def State.failEdge (s : State) (q : Nat × Nat) : State := { s with edges := s.edges.map fun (e : EdgeUnit) => e.fail q }

/-- Logical tiles whose edge ports carry an optical port's traffic (R15, R348). -/
def State.portActive (s : State) (p : Fin 16) : List TileId :=
  match s.edges.find? fun e => !e.stack && e.num == p.val with
  | some e => e.active.filterMap s.logicalAt
  | none => []

/-- The lowest-numbered of them, by y and then x. -/
def State.portTile (s : State) (p : Fin 16) : Option TileId :=
  (sortBy (fun a b => decide (tileY a * 512 + tileX a ≤ tileY b * 512 + tileX b)) (s.portActive p)).head?

/-- Logical tiles that are active forager tiles of a stack (R15, R319). -/
def State.foragers (s : State) : List TileId := (s.edges.filter EdgeUnit.stack).flatMap fun e => e.active.filterMap s.logicalAt

/-! ### Links (R12, R312) -/

def State.fieldOf (s : State) (t : TileId) : Nat × Nat := (tileX t / s.fuses.fieldSize, tileY t / s.fuses.fieldSize)

/-- The link in a direction wraps around the torus. -/
def State.wraps (s : State) (t : TileId) (d : Nat) : Bool :=
  match d with
  | 0 => tileX t + 1 == s.fuses.gx
  | 1 => tileX t == 0
  | 2 => tileY t + 1 == s.fuses.gy
  | _ => tileY t == 0

/-- The link passes an elastic queue: it crosses a seam or wraps around (R13). -/
def State.elastic (s : State) (t : TileId) (d : Nat) : Bool := s.wraps t d || s.fieldOf t != s.fieldOf (s.neighbour t d)

def dist (a b : Nat) : Nat := max a b - min a b

/-- Physical neighbours in the direction of a link (R312). -/
def adjacent (d : Nat) (p q : Nat × Nat) : Bool :=
  match d with
  | 0 => q == (p.1 + 1, p.2)
  | 1 => p == (q.1 + 1, q.2)
  | 2 => q == (p.1, p.2 + 1)
  | _ => p == (q.1, q.2 + 1)

/-- Latency of a relay path: 2 ticks, one for each tile passed and one for a turn (R312). -/
def relayLatency (p q : Nat × Nat) : Nat :=
  2 + (dist p.1 q.1 + dist p.2 q.2 - 1) + if p.1 ≠ q.1 ∧ p.2 ≠ q.2 then 1 else 0

/-- Ticks of the hop from a tile in a direction (R12, R312): direct 2, bypass 3, or its relay path's; 3 more at a seam; 5 for a
wrap-around. -/
def State.hop (s : State) (t : TileId) (d : Nat) : Nat :=
  if s.wraps t d then 5 else
  let u := s.neighbour t d
  let p := s.place t
  let q := s.place u
  let base := if adjacent d p q then 2
    else if dist p.1 q.1 ≤ 2 ∧ dist p.2 q.2 ≤ 2 then 3
    else relayLatency p q
  base + if s.fieldOf t = s.fieldOf u then 0 else 3

/-! ### Routes (R309 to R311) -/

def legDir (w : BitVec 64) : Nat := w.toNat % 4
def legCnt (w : BitVec 64) : Nat := w.toNat / 4 % 64

/-- A header is received (R310): the steering word for the next hop, or one with no leg left. -/
def onHeader (w : BitVec 64) : BitVec 64 := if legCnt w ≤ 1 then w >>> 8 else w - 4

/-- A BROKEN route: no leg 0 and leg 1 all ones (R309). -/
def brokenRoute : BitVec 64 := 0xFF00

/-- An empty route delivers to the tile itself; a BROKEN one delivers nowhere (R309). -/
def emptyRoute (w : BitVec 64) : Bool := legCnt w == 0 && w != brokenRoute

def Tile.route (t : Tile) (r : Fin 256) : BitVec 64 := alGet t.routes r.val 0
def Tile.setRoute (t : Tile) (r : Fin 256) (w : BitVec 64) : Tile := { t with routes := alSet t.routes r.val w }

/-- The hops of a route from a tile: each tile left and its direction (fuel: 8 legs of 63 hops). -/
def State.hops (s : State) : Nat → TileId → BitVec 64 → List (TileId × Nat)
  | 0, _, _ => []
  | n + 1, t, w =>
    if legCnt w = 0 then [] else (t, legDir w) :: s.hops n (s.neighbour t (legDir w)) (onHeader w)

def State.routeHops (s : State) (t : TileId) (w : BitVec 64) : List (TileId × Nat) := s.hops 504 t w

/-- Where a route from a tile ends. -/
def State.routeEnd (s : State) (t : TileId) (w : BitVec 64) : TileId :=
  match (s.routeHops t w).getLast? with
  | none => t
  | some h => s.neighbour h.1 h.2

/-- Latency of the first flit over a route; 2 ticks to the tile itself (R12, R286). -/
def State.routeLatency (s : State) (t : TileId) (w : BitVec 64) : Nat :=
  if emptyRoute w then 2 else (s.routeHops t w).foldl (fun n h => n + s.hop h.1 h.2) 0

/-- A run of hops as legs of at most 63 (R311). -/
def splitLeg (d : Nat) : Nat → Nat → List (Nat × Nat)
  | 0, _ => []
  | f + 1, n => if n = 0 then [] else if n ≤ 63 then [(d, n)] else (d, 63) :: splitLeg d f (n - 63)

/-- Runs of equal directions. -/
def runsOf : List Nat → List (Nat × Nat)
  | [] => []
  | d :: ds =>
    match runsOf ds with
    | (e, n) :: rs => if d = e then (e, n + 1) :: rs else (d, 1) :: (e, n) :: rs
    | [] => [(d, 1)]

/-- Legs of a list of directions: of a long run, legs of 63 and then the remainder (R311). -/
def legsOf (ds : List Nat) : List (Nat × Nat) := (runsOf ds).flatMap fun r => splitLeg r.1 9 r.2

/-- A route word from at most 8 legs. -/
def packLegs (ls : List (Nat × Nat)) : BitVec 64 :=
  BitVec.ofNat 64 ((ls.zip (List.range ls.length)).foldl (fun w e => w + (e.1.1 + 4 * e.1.2) * 256 ^ e.2) 0)

/-! ### Missing links and detours (R313) -/

/-- The link of a hop is missing. -/
def State.noLink (s : State) (h : TileId × Nat) : Bool := s.missing.any fun m => m.1 == h.1 && m.2.val == h.2

/-- A route uses a missing link, or passes an ABSENT tile; it may end at one (R313). -/
def State.badRoute (s : State) (t : TileId) (w : BitVec 64) : Bool :=
  let hs := s.routeHops t w
  hs.any s.noLink || hs.dropLast.any fun h => s.isAbsent (s.neighbour h.1 h.2)

/-- A path under search: its tile and its directions, latest first. -/
structure Path where
  at_ : TileId
  dirs : List Nat
  deriving DecidableEq, Repr

/-- Order among equal paths: fewer legs, then the lower direction at the first differing leg; where only the counts of that leg differ,
R313 gives no order, and the longer leg goes first: DESIGN CHOICE, log 42. -/
def dirsLe : List (Nat × Nat) → List (Nat × Nat) → Bool
  | [], _ => true
  | _, [] => false
  | a :: as, b :: bs => if a = b then dirsLe as bs else decide (a.1 < b.1) || (a.1 == b.1 && decide (b.2 < a.2))
def Path.legs (p : Path) : List (Nat × Nat) := legsOf p.dirs.reverse
def Path.le (p q : Path) : Bool :=
  decide (p.legs.length < q.legs.length) || (p.legs.length == q.legs.length && dirsLe p.legs q.legs)

/-- The paths one hop longer that avoid every missing link and every ABSENT tile but the goal, with at most 8 legs; of those that
reach one tile with one number of legs and one last leg, the least: what follows them is the same. -/
def State.extend (s : State) (goal : TileId) (ps : List Path) : List Path :=
  let all := ps.flatMap fun p =>
    ((List.range 4).filter fun d => let u := s.neighbour p.at_ d; !s.noLink (p.at_, d) && (u == goal || !s.isAbsent u)).map
      fun d => (⟨s.neighbour p.at_ d, d :: p.dirs⟩ : Path)
  (sortBy Path.le (all.filter fun p => decide (p.legs.length ≤ 8))).foldl (fun acc p =>
    if acc.any fun q => q.at_ == p.at_ && q.legs.getLast? == p.legs.getLast? && q.legs.length == p.legs.length then acc
    else acc ++ [p]) []

/-- A shortest path to a tile, by length, with fuel (R313). -/
def State.search (s : State) (goal : TileId) : Nat → List Path → Option Path
  | 0, _ => none
  | n + 1, ps =>
    match ps.find? fun p => p.at_ == goal with
    | some p => some p
    | none => if ps.isEmpty then none else s.search goal n (s.extend goal ps)

def State.detour (s : State) (t goal : TileId) : BitVec 64 :=
  match s.search goal 505 [⟨t, []⟩] with
  | some p => packLegs p.legs
  | none => brokenRoute

/-- The route a tile-map cache fill gives: x first by the shorter way round, then y, ties east and north (R317). -/
def State.plainRoute (s : State) (t goal : TileId) : BitVec 64 :=
  let way (n a b pos neg : Nat) : List (Nat × Nat) :=
    let f := (b + n - a) % n
    if f ≤ n - f then splitLeg pos 8 f else splitLeg neg 8 (n - f)
  packLegs (way s.fuses.gx (tileX t) (tileX goal) 0 1 ++ way s.fuses.gy (tileY t) (tileY goal) 2 3)

def State.routeTo (s : State) (t goal : TileId) : BitVec 64 :=
  let w := s.plainRoute t goal
  if s.badRoute t w then s.detour t goal else w

/-- A route after the queen core has gone over it (R313). -/
def State.fixRoute (s : State) (t : TileId) (w : BitVec 64) : BitVec 64 :=
  if s.badRoute t w then s.detour t (s.routeEnd t w) else w

/-- The channel entries that name a BROKEN route are valid no more (R313). -/
def Tile.cutChans (t : Tile) : Tile :=
  { t with chans := t.chans.map fun e => (e.1, { e.2 with v := e.2.v && t.route e.2.rt != brokenRoute }) }

/-- A tile's routes and tile-map cache rewritten around missing links and ABSENT tiles; channels whose route has become
BROKEN lose `V`, and one whose route has changed waits for its messages on the way (R210, R313). -/
def State.rerouteTile (s : State) (id : TileId) (t : Tile) : Tile :=
  let routes := t.routes.map fun e => (e.1, s.fixRoute id e.2)
  let changed := ((t.routes.zip routes).filter fun e => e.1.2 != e.2.2).map fun e => e.1.1
  let t : Tile := { t with
    routes := routes, tmc := t.tmc.map fun e => { e with legs := s.fixRoute id e.legs },
    chans := t.chans.map fun e => (e.1, { e.2 with hold := e.2.hold || changed.contains e.2.rt.val }) }
  t.cutChans

/-- Routes of a tile that a rewriting changes. -/
def State.rewrites (s : State) (id : TileId) (t : Tile) : Nat :=
  (t.routes.filter fun e => s.fixRoute id e.2 != e.2).length + (t.tmc.filter fun e => s.fixRoute id e.legs != e.legs).length

/-- Ticks within which a broadcast version reaches every tile (R317). -/
def broadcastBound : Nat := 2048

/-- Changes of map entries and routes raise the version by one each; the version reached is broadcast to every tile, after those
already under way (R316, R317; log 42). -/
def State.raiseVersion (s : State) (changes : Nat) : State :=
  let v := s.tmVer + BitVec.ofNat 32 changes
  let last (t : TileId) : Nat := s.broadcasts.foldl (fun m b => if b.1 = t then max m b.2.1 else m) 0
  let due (i : Nat) (t : TileId) : Nat := max (last t) (s.now + 1 + Config.deliveryLatency (s.free + i) % broadcastBound)
  { s with tmVer := v, free := s.free + s.tiles.length,
           broadcasts := s.broadcasts ++ (s.tiles.zip (List.range s.tiles.length)).map fun e => (e.1.1, due e.2 e.1.1, v) }

/-- The queen core rewrites routes; each rewriting raises the version, as do the changes of entries that call for it (R313, R316). -/
def State.reroute (s : State) (changes : Nat) : State :=
  let n := (s.tiles.map fun (e : TileId × Tile) => s.rewrites e.1 e.2).sum
  let r : State := { s with tiles := s.tiles.map fun (e : TileId × Tile) => (e.1, s.rerouteTile e.1 e.2) }
  r.raiseVersion (changes + n)

/-- New tile-map versions reach a tile, in the order of their broadcast (R317). -/
def execTileMapBroadcast (t : TileId) (s : State) : Out :=
  let due := s.broadcasts.filter fun b => b.1 == t && decide (b.2.1 ≤ s.now)
  .next ((due.foldl (fun s b => s.modTile t fun x => { x with tmVer := b.2.2 })
    { s with broadcasts := s.broadcasts.filter fun b => !(b.1 == t && decide (b.2.1 ≤ s.now)) }))

/-! ### The tile-map cache (R317) -/

/-- What a comb-address transfer finds: a fresh entry, or a wait for the queen core. -/
inductive TmLook where
  | hit (e : TmEntry)
  | wait
  deriving DecidableEq, Repr

/-- The entry of a target whose version is the tile's latest. -/
def Tile.tmFind (t : Tile) (goal : TileId) : Option TmEntry :=
  t.tmc.find? fun e => e.lx.toNat == tileX goal && e.ly.toNat == tileY goal && e.ver == t.tmVer

/-- A use of the cache marks the entry. -/
def Tile.tmUse (t : Tile) (goal : TileId) (now : Nat) : Tile :=
  { t with tmc := t.tmc.map fun e => if e.lx.toNat == tileX goal && e.ly.toNat == tileY goal then { e with used := now } else e }

/-- A miss asks the queen core, which answers after a time of its own. -/
def State.tmAsk (s : State) (t : TileId) (goal : TileId) : State :=
  if (s.tile t).tmMiss.isSome then s
  else (s.modTile t fun x => { x with tmMiss := some (goal, s.now + 1 + Config.mapLatency s.free) }).bump

/-- The queen core's answer fills an entry with the map's version, in place of the least recently used one (R317). A tile to
which no broadcast is under way knows the version. -/
def execTileMapCacheFill (t : TileId) (s : State) : Out :=
  let x := s.tile t
  match x.tmMiss with
  | none => .next s
  | some (goal, due) =>
    if s.now < due then .next s else
    let known := if s.broadcasts.any fun b => b.1 == t then x.tmVer else s.tmVer
    let rest := x.tmc.filter fun e => !(e.lx.toNat == tileX goal && e.ly.toNat == tileY goal)
    let keep := if rest.length < 24 then rest else (sortBy (fun a b => decide (a.used ≤ b.used)) rest).drop 1
    let slot := ((List.range 24).find? fun k => keep.all fun e => e.slot != k).getD 0
    let e : TmEntry := ⟨BitVec.ofNat 9 (tileX goal), BitVec.ofNat 9 (tileY goal), s.tmVer, s.routeTo t goal,
      (s.mapEntry goal).st, s.now, slot⟩
    .next (s.modTile t fun x => { x.writeTable (mapOff slot) 16 with tmc := keep ++ [e], tmMiss := none, tmVer := known })

end Sys2Proof.Machine
end

