-- ==== Sys2Proof/Machine/Message.lean ====
section
/-! DEFINITION. The header flits of the two lanes (R288, R302) and the messages of comb-address transfers (R236). -/

namespace Sys2Proof.Machine

/-- A field of a flit. -/
def flitField (w : BitVec 128) (lo n : Nat) : Nat := w.toNat / 2 ^ lo % 2 ^ n

/-- A lane-C header (R288). -/
structure Header where
  ch : Nat
  sx : Nat
  sy : Nat
  /-- 0 SEND, 1 SENDR, 2 SIG, 3 comb-address transfer -/
  kd : Nat
  rop : Nat
  /-- payload bytes − 1 -/
  len : Nat
  sem : Nat
  inc : Nat
  /-- 0 write data, 1 read request, 2 read data, 3 write acknowledgement -/
  ck : Nat
  cof : Nat
  deriving DecidableEq, Repr

def Header.pack (h : Header) : BitVec 128 :=
  BitVec.ofNat 128 (h.ch % 256 + h.sx % 512 * 2 ^ 8 + h.sy % 512 * 2 ^ 17 + h.kd % 4 * 2 ^ 26 + h.rop % 8 * 2 ^ 28 +
    h.len % 32768 * 2 ^ 31 + h.sem % 16 * 2 ^ 46 + h.inc % 256 * 2 ^ 50 + h.ck % 4 * 2 ^ 58 + h.cof % 65536 * 2 ^ 60)

def Header.unpack (w : BitVec 128) : Header where
  ch := flitField w 0 8
  sx := flitField w 8 9
  sy := flitField w 17 9
  kd := flitField w 26 2
  rop := flitField w 28 3
  len := flitField w 31 15
  sem := flitField w 46 4
  inc := flitField w 50 8
  ck := flitField w 58 2
  cof := flitField w 60 16

/-- The sender a header names. -/
def Header.sender (h : Header) : TileId := mkTile h.sx h.sy

/-- Payload bytes a message carries after its header; a SIG, a read request and an acknowledgement carry none. -/
def Header.payload (h : Header) : Nat :=
  if h.kd = 2 ∨ (h.kd = 3 ∧ (h.ck = 1 ∨ h.ck = 3)) then 0 else h.len + 1

/-- Payload flits (R288). -/
def flitsOf (bytes : Nat) : Nat := (bytes + 15) / 16

/-- A header of a comb-address transfer. -/
def combHeader (me : TileId) (ck len cof : Nat) : BitVec 128 :=
  ({ ch := 0, sx := tileX me, sy := tileY me, kd := 3, rop := 0, len := len - 1, sem := 0, inc := 0, ck := ck, cof := cof : Header }).pack

/-- A message of a comb-address transfer: read requests and acknowledgements carry no payload. -/
def combMsg (id : Nat) (ctx : Option (Fin 4)) (me : TileId) (steer : BitVec 64) (ck len cof : Nat) (buf : Option (Fin 32))
    (src now : Nat) (final : Bool) (org : Option Origin) : TxMsg where
  id := id
  ctx := ctx
  ch := none
  steer := steer
  port := none
  head := combHeader me ck len cof
  buf := buf
  src := src
  len := if ck = 0 ∨ ck = 2 then len else 0
  rd := 0
  fx := none
  data := []
  size := if ck = 0 ∨ ck = 2 then len else 0
  sent := 0
  start := now
  org := org
  held := false
  open_ := false
  final := final

/-- The answer to a message goes to its sender. -/
def Origin.back (o : Origin) (goal : TileId) (path : BitVec 64) : Origin := { o with goal := goal, path := path }

/-- Spans of at most 512 bytes in ascending order (R236). -/
def spans512 : Nat → Nat → Nat → List (Nat × Nat)
  | 0, _, _ => []
  | n + 1, o, len => if len = 0 then [] else (o, min 512 len) :: spans512 n (o + 512) (len - 512)

/-- Scratchpad bytes by comb address: the front window mapped by `FH` (R196). -/
def Tile.combByte (t : Tile) (a : Nat) : Nat :=
  let a := spmAddr a
  match t.frontBuf a with
  | some b => t.bufs[b].front + (a - t.bufs[b].b)
  | none => a

/-- The shadow byte that an engine write by comb address reaches: front and shadow windows of the lowest-numbered declared
buffer that holds the offset (R196). -/
def Tile.combTarget (t : Tile) (a : Nat) : Option (Fin 32 × Nat) :=
  let a := spmAddr a
  match (List.finRange 32).find? fun b => t.declared b && inSpan a t.bufs[b].b (2 * t.bufs[b].s) with
  | some b => some (b, (a - t.bufs[b].b) % t.bufs[b].s)
  | none => none

end Sys2Proof.Machine
end

