-- ==== Sys2Proof/Machine/Copy.lean ====
section
/-! DEFINITION. The copy and buffer commands of slot 7 as their bundle issues (R37, R38, R227 to R231, R238 to R240,
R361), with the STATIC check. -/

namespace Sys2Proof.Machine

/-! ### Descriptors (R228) -/

def dOff (d0 : Word) : Nat := d0.toNat % 256
def dCnt (d0 : Word) : Nat := d0.toNat / 2 ^ 8 % 256 + 1
def dArr (d0 : Word) : Nat := d0.toNat / 2 ^ 16 % 32768
def dRing (d0 : Word) : Bool := d0.msb
def dIdx (d1 : Word) : Nat := d1.toNat % 65536 / 4 * 4
def dEsize (d1 : Word) : Nat := 4 * 2 ^ (d1.toNat / 2 ^ 16 % 4)
def dEf (d1 : Word) : Nat := d1.toNat % 8
def dSk (d1 : Word) : Bool := d1.getLsbD 3
def dCa (d1 : Word) : Bool := d1.msb

/-- A comb-address transfer (R236): CPY and CPYO only. -/
def isComb (form : CopyForm) (d1 : Word) : Bool := (form == .cpy || form == .cpyo) && dCa d1

/-- Bytes at the tile's side of a copy. -/
def Tile.copyBytes (t : Tile) (buf : Fin 32) (d0 : Word) : Nat :=
  if dRing d0 then dCnt d0 * t.rings[Fin.ofNat 8 buf.val].z else dCnt d0 * 128

/-- Element format of CPYX and the bytes of one of its blocks (R95, R234). -/
def cpyxFmt (ef : Nat) : FFmt :=
  match ef with
  | 0 => fE4m3 | 1 => fE5m2 | 2 => fE3m2 | 3 => fE2m3 | _ => fE2m1
def cpyxBlock (ef : Nat) : Nat := 1 + 4 * (cpyxFmt ef).width

/-- Heap bytes that a contiguous copy reads or writes for some bytes at the tile's side (R231). -/
def heapBytes (form : CopyForm) (d1 : Word) (n : Nat) : Nat :=
  if form = .cpyx then n / 64 * cpyxBlock (dEf d1) else n

/-! ### Translation of a command's addresses (R198, R199, R229) -/

/-- Addresses of a span at which a translation can change: its first byte, page boundaries, and the places where the
window begins, ends or leaves the real bytes. -/
def Context.spanPoints (c : Context) (va len : Nat) : List Nat :=
  let pa := (va + c.hoffset.toNat) % 2 ^ 36
  let blocks := (List.range (len / 2 ^ 19 + 1)).map fun i => (va / 2 ^ 19 + 1 + i) * 2 ^ 19
  let edges := [c.hbase.toNat, c.hlimit.toNat, va + (2 ^ 36 - pa), va + (48 * 2 ^ 30 - pa)]
  if len = 0 then [] else
  sortBy (fun a b => decide (a ≤ b)) (va :: (blocks ++ edges).filter fun a => decide (va < a) && decide (a < va + len)).dedup

/-- What is known of an address: a translation that the command has already, or what `State.lookup` finds. -/
def State.known (s : State) (t : Tile) (ctx : Fin 4) (cmd : Option Nat) (quick : Bool) (got : List TlbEntry) (va : Nat) :
    Option Xlate :=
  match (t.ctx ctx).window va, got.find? fun e => inSpan va e.vbase e.size with
  | none, some e => some (e.xlate va)
  | _, _ => s.lookup t ctx cmd quick va

/-- How the translations of a command stand. -/
inductive TransOut where
  | ready (xl : List TlbEntry)
  | walk (va : Nat)
  | fault (rsn lvl va tag : Nat)
  deriving DecidableEq, Repr

/-- Translations of addresses in order, each with a tag for its fault; the first that fails decides. A page on its way
between stacks holds the command (R203). A STATIC check refuses, page by page, what carries no promise (R229). -/
def State.translateAll (s : State) (t : Tile) (c : Context) (ctx : Fin 4) (cmd : Option Nat) (need : Option Need)
    (resident static : Bool) : List (Nat × Nat) → List TlbEntry → TransOut
  | [], got => .ready got
  | (va, tag) :: rest, got =>
    match s.known t ctx cmd static got va with
    | none => .walk va
    | some (.fail rsn lvl) => .fault rsn lvl va tag
    | some (.ok pa vb sz pb res r w x lc win mig) =>
      if mig && !static then .walk va else
      if !s.realByte pa then .fault 10 0 va tag
      else if (match need with | some .read => r | some .write => w | some .exec => x | none => true) then
        if static && (win || lc == 0) then .fault 3 0 va tag
        else if resident && !res then .fault 2 0 va tag
        else s.translateAll t c ctx cmd need resident static rest
          (if win || got.any fun e => inSpan va e.vbase e.size then got
           else got ++ [⟨c.lid.getD 0, vb, sz, pb, res, r, w, x, lc, s.now⟩])
      else .fault 1 0 va tag

/-- A translation outside the window is looked for: a TLB hit takes a tick, a miss a walk; a walk that ended on a migrating
page begins again (R198, R199, R203). -/
def State.startWalk (s : State) (t : TileId) (ctx : Fin 4) (cmd : Option Nat) (va : Nat) : State :=
  let mine (w : Walk) : Bool := w.ctx == ctx && w.cmd == cmd && w.va == va
  let x := s.tile t
  if x.walks.any fun w => mine w && (w.res.isNone || decide (s.now < w.ready)) then s
  else match x.tlbHit (x.ctx ctx) va with
    | some e => s.modTile t fun x =>
        { x.tlbTouch e.launch (· == e.vbase) s.now with
            walks := x.walks.filter (fun w => !mine w) ++ [⟨ctx, cmd, va, s.now + 1, some (e.xlate va)⟩] }
    | none => (s.modTile t fun x =>
        { (x.event 0x0D 1) with
            walks := x.walks.filter (fun w => !mine w) ++ [⟨ctx, cmd, va, s.now + 1 + Config.walkLatency s.free, none⟩] }).bump

/-! ### The STATIC check (R229) -/

/-- Bound of a latency class (R201). -/
def lcBound (lc : BitVec 3) : Nat := 192 * 2 ^ lc.toNat

/-- 4 KiB-aligned blocks that a span touches. -/
def pieces (va len : Nat) : Nat := if len = 0 then 0 else (va + len - 1) / 4096 - va / 4096 + 1

/-- Outcome of the check: a fault, a walk to wait for, or the translations kept. -/
inductive StaticOut where
  | fault (rsn lvl x : Nat)
  | walk (va : Nat)
  | ok (xl : List TlbEntry)
  deriving DecidableEq, Repr

/-- `FINFO`.`X` of an address. -/
def faultX (va : Nat) : Nat := va % 2 ^ 35 / 2 ^ 12

/-- The check of R229. Of a ring that does not exist (`BUF` above 7) the span is that of the ring with the number's low bits, of a CPYX
`EF` above 4 that of E2M1; both fault at the head: DESIGN CHOICE, log 89. -/
def State.staticCheck (s : State) (t : Tile) (ctx : Fin 4) (cmd : Option Nat) (form : CopyForm) (buf : Fin 32) (d0 d1 : Word)
    (addr : VAddr) (xl : List TlbEntry) : StaticOut :=
  let c := t.ctx ctx
  let len := heapBytes form d1 (t.copyBytes buf d0)
  let pts := c.spanPoints addr.toNat len
  if form = .cpyg ∨ form = .cpyo ∨ isComb form d1 then .fault 6 0 0 else
  match s.translateAll t c ctx cmd (some .read) false true (pts.map fun a => (a, 0)) xl with
  | .walk va => .walk va
  | .fault rsn lvl va _ => .fault rsn lvl (faultX va)
  | .ready got =>
    let worst := pts.foldl (fun m a => max m (match got.find? fun e => inSpan a e.vbase e.size with
      | some e => lcBound e.lc
      | none => 0)) 0
    let need := worst + 43 * (pieces addr.toNat len - 1)
    if need > dArr d0 then .fault 4 0 need else .ok got

/-! ### Issue -/

/-- A guard is resolved true. -/
def QGuard.resolved (g : QGuard) : Bool := g == .yes
/-- Places of the copy queue, tagged counter and WACK (R227, R361); a guard still to resolve puts the rises, and the faults they
would raise, off to the head (R176). -/
def State.copyFull (s : State) (tag : Option (Fin 16)) (wack : Bool) : Option Cause :=
  let x := s.curCtx
  if s.curTile.cpq.length ≥ 8 then some (causeOverflow 7 1 0)
  else if !s.cur.guard.resolved then none
  else match tag with
    | some k => if x.cnt[k] = 255 then some (causeOverflow 7 3 k.val)
      else if wack && x.wack == 0xFFFF then some (causeOverflow 7 4 0) else none
    | none => if wack && x.wack == 0xFFFF then some (causeOverflow 7 4 0) else none

def tagOf (t : Bool) (cn : Fin 16) : Option (Fin 16) := if t then some cn else none

/-- The overflow that a command resolved true raises at its head (R176). -/
def QGuard.overflow : QGuard → Option Cause
  | .full q qi => some (causeOverflow 7 q qi)
  | _ => none

/-- A command takes its place in the copy queue; its counters rise on issue when its guard is resolved (R176). -/
def State.enqueueCopy (s : State) (op : CopyOp) (tag : Option (Fin 16)) (wack follow late : Bool) (xl : List TlbEntry) :
    State :=
  s.modCurTile fun t =>
    let (t, id) := t.enroll s.cur.ctx 1 tag false wack
    let t := { t with cpq := t.cpq ++ [⟨id, s.cur.ctx, s.cur.pc, s.now, s.cur.guard, op, follow, late, xl⟩] }
    if s.cur.guard.resolved then t.modCtx s.cur.ctx fun c => c.issueCounts tag wack else t

/-- A copy-queue command with no other check at issue. -/
def copySlot (op : CopyOp) (tag : Option (Fin 16)) (s : State) : Out :=
  match s.copyFull tag false with
  | some f => .next (s.issueFault s.cur.tile s.cur.ctx f)
  | none => .next (s.enqueueCopy op tag false false false [])

/-- The captured MMA takes its place in the MXU queue, or is discarded when its context does not own the array. -/
def State.enqueueFollow (s : State) (copy : Nat) : State :=
  match s.cur.follow with
  | some (.mma d r h ctl wp ta) =>
    if s.curTile.owns s.cur.ctx then s.enqueueMx (s.mmaOp d r h ctl wp ta) (some copy)
    else s.modCurTile fun t => t.count mxNotown 1
  | _ => s

/-- Descriptor words and address of a copy instruction (R228). -/
def State.copyD0 (s : State) (c : CopyOps) : Word := s.rs c.rs
def State.copyD1 (s : State) (c : CopyOps) : Word := s.rs (c.rs + 1)

/-- The faults of a copy instruction at issue; a STATIC check that must walk first holds the bundle. -/
def State.copyCause (s : State) (form : CopyForm) (c : CopyOps) : Option Cause :=
  let t := s.curTile
  match s.copyFull (tagOf c.t c.cn) (form == .cpyo) with
  | some f => some f
  | none =>
    if c.st && s.cur.guard.resolved then
      match s.staticCheck t s.cur.ctx none form c.buf (s.copyD0 c) (s.copyD1 c) (s.ra c.ab) [] with
      | .fault rsn lvl x => some (causeCopy 7 rsn lvl x)
      | _ => none
    else none

/-- The address a STATIC copy must walk before its bundle can issue (R229). -/
def State.copyWalk (s : State) (form : CopyForm) (c : CopyOps) : Option Nat :=
  if c.st && s.cur.guard.resolved then
    match s.staticCheck s.curTile s.cur.ctx none form c.buf (s.copyD0 c) (s.copyD1 c) (s.ra c.ab) [] with
    | .walk va => some va
    | _ => none
  else none

/-- A copy instruction issues (R227, R229, R231). -/
def copyForm (form : CopyForm) (c : CopyOps) (s : State) : Out :=
  match s.copyCause form c with
  | some f => .next (s.issueFault s.cur.tile s.cur.ctx f)
  | none =>
    let op : CopyOp := .copy form c.buf (s.copyD0 c) (s.copyD1 c) (s.ra c.ab) c.st
    let xl : List TlbEntry :=
      if c.st && s.cur.guard.resolved then
        match s.staticCheck s.curTile s.cur.ctx none form c.buf (s.copyD0 c) (s.copyD1 c) (s.ra c.ab) [] with
        | .ok xl => xl
        | _ => []
      else []
    let id := s.curTile.nextId
    let s := s.enqueueCopy op (tagOf c.t c.cn) (form == .cpyo) c.f (c.st && !s.cur.guard.resolved) xl
    let s := s.modCurTile fun t => t.tlbTouch (s.curCtx.lid.getD 0) (fun v => xl.any fun e => e.vbase == v) s.now
    .next (if c.f then s.enqueueFollow id else s)

def execCpy (c : CopyOps) (s : State) : Out := copyForm .cpy c s
def execCpyg (c : CopyOps) (s : State) : Out := copyForm .cpyg c s
def execCpyx (c : CopyOps) (s : State) : Out := copyForm .cpyx c s
def execCpyo (c : CopyOps) (s : State) : Out := copyForm .cpyo c s

def execBdcl (buf rs : Fin 32) (s : State) : Out := copySlot (.bdcl buf (s.rs rs)) none s
def execBrel (buf : Fin 32) (s : State) : Out := copySlot (.brel buf) none s

/-- PUBLISH; with a mask register named, the register is owed the residency map (R239). -/
def execPublish (buf : Fin 32) (mk : Fin 8) (s : State) : Out :=
  match s.copyFull none false with
  | some f => .next (s.issueFault s.cur.tile s.cur.ctx f)
  | none =>
    let id := s.curTile.nextId
    let s := s.enqueueCopy (.publish buf mk) none false false false []
    .next (if mk = 0 then s else s.modCur fun c => { c with mpubs := c.mpubs ++ [⟨id, buf, mk, none, s.cur.tt⟩] })

def execReqpg (ab : Fin 8) (rs : Fin 32) (cn : Fin 16) (t : Bool) (s : State) : Out :=
  copySlot (.reqpg (s.ra ab) (s.rs rs)) (tagOf t cn) s

end Sys2Proof.Machine
end

