-- ==== Sys2Proof/Machine/CopyEngine.lean ====
section
/-! DEFINITION. The copy engine from tick to tick (R198 to R203, R227 to R241): walks, the head of the copy queue, copies
in flight, retirement and acknowledgement. -/

namespace Sys2Proof.Machine

/-! ### Page walks -/

/-- A TLB entry joins, in place of the least recently used of 16 (R199). -/
def Tile.tlbFill (t : Tile) (e : TlbEntry) : Tile :=
  let rest := t.tlb.filter fun x => !(x.launch == e.launch && x.vbase == e.vbase)
  { t with tlb := (if rest.length < 16 then rest else (sortBy (fun a b => decide (a.used ≤ b.used)) rest).drop 1) ++ [e] }

/-- The tile of a context's walker forager migrates: walks wait at it (R319). -/
def State.walkerMoves (s : State) (c : Context) : Bool :=
  c.walker.msb && (s.tile (mkTile (c.walker.toNat % 512) (c.walker.toNat / 65536 % 512))).mig.isSome

/-- A page walk completes and fills the TLB; a migrating leaf is never entered (R199, R200). It waits while the
tile of its walker migrates (R319). An uncorrectable table word that a copy command's walk reads sets `ERR` of its context (R110,
R204). A walk with no walker forager is none: `State.lookup` has failed it. -/
def execPageWalk (t : TileId) (s : State) : Out :=
  let x := s.tile t
  match x.walks.find? fun w => w.res.isNone && decide (w.ready ≤ s.now) with
  | none => .next s
  | some w =>
    let c := x.ctx w.ctx
    if s.walkerMoves c then .next s else
    let r := s.walkRoot c w.va
    let bad := if s.heapBad.isEmpty then 0 else match s.roots.find? fun r => some r.1 == c.lid with
      | some r => s.walkBad w.va 3 1 r.2
      | none => 0
    .next (s.modTile t fun x =>
      let x := { x.count eccUE bad with walks := x.walks.map fun v => if v = w then { v with res := some r } else v }
      let x := if bad ≠ 0 ∧ w.cmd.isSome then x.modCtx w.ctx Context.setErr else x
      match r with
      | .ok _ vb sz pb res rd wr ex lc false false => x.tlbFill ⟨c.lid.getD 0, vb, sz, pb, res, rd, wr, ex, lc, s.now⟩
      | _ => x)

/-! ### The head of the copy queue -/

/-- What the head of the copy queue does on a tick. -/
inductive HeadOut where
  | wait
  | walk (va : Nat)
  | ask (goal : TileId)
  | fault (f : Cause)
  | start (xl : List TlbEntry) (idx : List Word) (remote : Option (TileId × BitVec 64))
  deriving DecidableEq, Repr

/-- Buffer-state faults of an engine command on this tile (R191). -/
def bufferCause (slot : Nat) (b : Buffer) (n : Fin 32) (bad : BufState → Bool) : Option Cause :=
  if !b.v || bad b.state then some (causeBuffer slot n.val b.state false 0) else none

/-- Bytes of the index list of a gather, and its words, read on the start tick, wrapping (R233). -/
def idxSpan (d1 : Word) (n : Nat) : List Nat := span (dIdx d1) (4 * n)
def Tile.gatherIdx (t : Tile) (d1 : Word) (n : Nat) : List Word :=
  (List.range n).map fun i => leWord (t.readSpm (span (dIdx d1 + 4 * i) 4))

/-- Address of a gathered element; none for padding (R233). -/
def elemAddr (addr : VAddr) (d1 : Word) (x : Word) : Option Nat :=
  if x = 0xFFFFFFFF then none else some ((addr.toNat + x.toNat * dEsize d1) % 2 ^ 48)

/-- Schedule, buffer-state and shape faults of a copy at its head, in R241's order of rows. Within the copy-refusal row the order is
`K` = 1 of CPYO, range, CPYX `EF` and entry size, and then the translations: DESIGN CHOICE, log 89. -/
def Tile.copyShape (t : Tile) (form : CopyForm) (buf : Fin 32) (d0 d1 : Word) : Option Cause :=
  let r := t.rings[Fin.ofNat 8 buf.val]
  let b := t.bufs[buf]
  if dRing d0 ∧ (7 < buf.val ∨ !r.v) then some (causeSchedule 7 buf.val 1)
  else
    let state := if dRing d0 then none
      else bufferCause 7 b buf fun st => if form = .cpyo then st == .filling else st == .draining
    match state with
    | some f => some f
    | none =>
      if dRing d0 && form == .cpyo then some (causeCopy 7 6 0 0)
      else if (if dRing d0 then decide (dCnt d0 > r.e) else decide ((dOff d0 + dCnt d0) * 128 > b.s)) then
        some (causeCopy 7 5 0 0)
      else if form == .cpyx && (decide (dEf d1 > 4) || (dRing d0 && r.z % 64 != 0)) then some (causeCopy 7 7 0 0)
      else none

/-- What a copy waits for at the head, without fault (R190, R195, R227, R241). -/
def Tile.copyWaits (t : Tile) (form : CopyForm) (buf : Fin 32) (d0 : Word) : Bool :=
  decide ((t.flights.filter fun f => !f.retired).length ≥ 8) ||
  (if dRing d0 then decide (t.rings[Fin.ofNat 8 buf.val].free < dCnt d0)
   else if form == .cpyo then t.bufs[buf].rd == 15 else t.bufs[buf].wr == 15)

/-- The target of a comb-address transfer, through the tile-map cache (R196, R236, R317). -/
def State.combGoal (s : State) (t : Tile) (addr : VAddr) : HeadOut :=
  let x := addr.toNat / 2 ^ 25 % 512
  let y := addr.toNat / 2 ^ 16 % 512
  if !s.inGrid x y then .fault (causeCopy 7 8 0 0) else
  match t.tmFind (mkTile x y) with
  | none => .ask (mkTile x y)
  | some e => if e.st == mapAbsent || e.legs == brokenRoute then .fault (causeCopy 7 8 0 0) else .start [] [] (some (mkTile x y, e.legs))

/-- A copy at the head (R198, R227, R229, R241). -/
def State.copyHead (s : State) (t : Tile) (c : CopyCmd) (form : CopyForm) (buf : Fin 32) (d0 d1 : Word) (addr : VAddr)
    (st : Bool) : HeadOut :=
  let x := t.ctx c.ctx
  match t.copyShape form buf d0 d1 with
  | some f => .fault f
  | none =>
    if isComb form d1 then
      if st then .fault (causeCopy 7 6 0 0) else
      match s.combGoal t addr with
      | .start xl idx r => if t.copyWaits form buf d0 then .wait else .start xl idx r
      | o => o
    else
      let len := t.copyBytes buf d0
      let late : StaticOut := if c.late then s.staticCheck t c.ctx (some c.id) form buf d0 d1 addr c.xl else .ok c.xl
      match late with
      | .fault rsn lvl v => .fault (causeCopy 7 rsn lvl v)
      | .walk va => .walk va
      | .ok xl0 =>
        let idx := if form = .cpyg then t.gatherIdx d1 (len / dEsize d1) else []
        let pts : List (Nat × Nat) :=
          if form = .cpyg then
            ((List.range idx.length).zip idx).flatMap fun e => match elemAddr addr d1 e.2 with
              | some a => (x.spanPoints a (dEsize d1)).map fun p => (p, e.1)
              | none => []
          else (x.spanPoints addr.toNat (heapBytes form d1 len)).map fun p => (p, 0)
        let strict := dRing d0 || form == .cpyo
        match s.translateAll t x c.ctx (some c.id) (some (if form = .cpyo then .write else .read)) strict st pts xl0 with
        | .walk va => .walk va
        | .fault rsn lvl va tag => .fault (causeCopy 7 rsn lvl (if form = .cpyg then tag else faultX va))
        | .ready xl =>
          if t.copyWaits form buf d0 || (form == .cpyg && t.locked s.now (idxSpan d1 idx.length)) then .wait else .start xl idx none

/-- The head of the queue when its guard is resolved and it may leave (R227). -/
def Tile.copyReady (t : Tile) (now : Nat) : Option CopyCmd :=
  match t.cpq with
  | c :: _ => if !c.guard.pending && decide (c.tick + 3 ≤ now) && !t.frozen then some c else none
  | [] => none

/-- A held MMA whose copy will never land is discarded (R237). -/
def Tile.dropFollow (t : Tile) (copy : Nat) : Tile :=
  (t.mxq.filter fun m => m.heldBy == some copy).foldl (fun t m => t.mxLeave m.id) t

/-- A command leaves the copy queue. -/
def Tile.copyLeave (t : Tile) (id : Nat) : Tile :=
  { t with cpq := t.cpq.filter fun c => c.id != id, walks := t.walks.filter fun w => w.cmd != some id }

/-- A fault at the head of the copy queue (R227, R237, R241): tagged counter and WACK fall, the held MMA is discarded. -/
def State.copyFault (s : State) (t : TileId) (c : CopyCmd) (f : Cause) : State :=
  let cpyo := match c.op with
    | .copy .cpyo _ _ _ _ _ => true
    | _ => false
  (s.modTile t fun x =>
    let x := ((x.copyLeave c.id).dropFollow c.id).retire c.id true
    x.modCtx c.ctx fun k =>
      { (if cpyo then k.ackFall else k) with mpubs := k.mpubs.filter fun (p : MaskPub) => p.id != c.id }).headFault t c.ctx 1 f c.fpc

/-- A copy starts: its destination is reserved, its messages queued (R195, R227, R236). -/
def State.copyStart (s : State) (t : TileId) (c : CopyCmd) (form : CopyForm) (buf : Fin 32) (d0 d1 : Word) (addr : VAddr)
    (xl : List TlbEntry) (idx : List Word) (remote : Option (TileId × BitVec 64)) : State :=
  let x := s.tile t
  let len := x.copyBytes buf d0
  let rg : Fin 8 := Fin.ofNat 8 buf.val
  let fl : Flight :=
    { id := c.id, ctx := c.ctx, fpc := c.fpc, form := form, follow := c.follow,
      st := match c.op with
        | .copy _ _ _ _ _ st => st
        | _ => false,
      remote := remote.map Prod.fst,
      ring := if dRing d0 then some rg else none, buf := buf, entry := x.rings[rg].tail.toNat,
      off := if dRing d0 then 0 else dOff d0 * 128, len := len, addr := addr, xl := xl, idx := idx, d1 := d1, done := 0,
      next := s.now + 1 + (if form = .cpyo then 0 else Config.copyLatency s.free), start := s.now, slip := 0, open_ := false, retired := false }
  let cof := addr.toNat % 65536
  let msgs : List TxMsg := match remote with
    | none => []
    | some (g, legs) =>
      let ps := spans512 (len / 512 + 1) 0 len
      ps.map fun p => combMsg c.id (some c.ctx) t legs (if form = .cpyo then 0 else 1) p.2 ((cof + p.1) % 65536)
        (if form = .cpyo then some buf else none) (fl.off + p.1) s.now (p.1 + p.2 == len) (some ⟨t, c.ctx, c.id, g, legs⟩)
  let s := match remote with
    | some (g, _) => s.modTile t fun x => x.tmUse g s.now
    | none => s
  (s.modTile t fun x =>
    let x := (x.copyLeave c.id).event 0x0B 1
    let x := x.tlbTouch ((x.ctx c.ctx).lid.getD 0) (fun v => xl.any fun e => e.vbase == v) s.now
    let x := if form = .cpyg then x.countReads c.ctx 0 ((idxSpan d1 idx.length).map (· / 4)) else x
    let x := if dRing d0 then x.setRing rg fun r => r.reserve c.id (dCnt d0) else x
    let x := { x with flights := x.flights ++ [fl], tx := x.tx ++ msgs }
    if form = .cpyo ∧ remote.isSome then
      { x with acks := x.acks ++ [⟨c.id, remote.map Prod.fst, c.ctx, none, msgs.length⟩] } else x).bump

/-- REQPG at the head (R240). A count of zero retires here, with nothing to walk: DESIGN CHOICE, log 89. -/
def State.reqpgHead (s : State) (t : TileId) (c : CopyCmd) (addr : VAddr) (len : Word) : State :=
  let x := s.tile t
  let k := x.ctx c.ctx
  let done (s : State) : State := s.modTile t fun x => (x.copyLeave c.id).retire c.id true
  let pts := k.spanPoints addr.toNat len.toNat
  match s.translateAll x k c.ctx (some c.id) none false false (pts.map fun a => (a, 0)) [] with
  | .walk va => s.startWalk t c.ctx (some c.id) va
  | .fault rsn lvl va _ => s.copyFault t c (causeCopy 7 rsn lvl (faultX va))
  | .ready got =>
    let s := s.modTile t fun x => x.tlbTouch (k.lid.getD 0) (fun v => got.any fun e => e.vbase == v) s.now
    let away := (got.filter fun e => !e.res).map fun e => BitVec.ofNat 48 e.vbase
    let lid := k.lid.getD 0
    if away.isEmpty then done s
    else
      let s := s.modTile t fun x =>
        { x.copyLeave c.id with pages := x.pages ++ [⟨c.id, c.ctx, c.fpc, lid, away⟩] }
      let fresh := away.filter fun v => !(s.pageReqs.any fun r => r.1 == lid && r.2.1 == v)
      { s with pageReqs := s.pageReqs ++ fresh.map fun v => (lid, v, s.now) }

/-- A buffer command leaves the head: it takes effect and retires (R192, R227, R238, R239). -/
def Tile.bufferEffect (t : Tile) (c : CopyCmd) : Tile :=
  let t := t.copyLeave c.id
  let t := match c.op with
    | .bdcl b v =>
        let t := ((t.ctx c.ctx).lid.map (t.setOwner (kBuffer, b.val))).getD t
        (t.writeTable (bufOff b.val) 16).setBuf b fun _ =>
          { Buffer.reset with base := v.setWidth 9, size := v.extractLsb' 16 8, v := true }
    | .brel b => t.setBuf b fun x => { x with sd := false, smap := 0 }
    | .publish b _ =>
      let x := t.bufs[b]
      let t := { t with publishing := t.publishing ++ [b] }
      t.modCtx c.ctx fun k =>
        { k with mpubs := k.mpubs.map fun (p : MaskPub) => if p.id = c.id then { p with val := some (x.tag + 1, x.smap) } else p }
    | _ => t
  t.retire c.id true

/-- Faults of a buffer command at the head (R191, R238, R239). -/
def Tile.bufferFault (t : Tile) (c : CopyCmd) : Option Cause :=
  let busy : BufState → Bool := fun st => st == .filling || st == .draining
  match c.op with
  | .bdcl b v =>
    let x := t.bufs[b]
    let base := v.toNat % 512 * 128
    let size := (v.toNat / 2 ^ 16 % 256 + 1) * 128
    if (x.v && busy x.state) || decide (base + 2 * size > 65536) then some (causeBuffer 7 b.val x.state false 0) else none
  | .brel b => bufferCause 7 t.bufs[b] b busy
  | .publish b _ => bufferCause 7 t.bufs[b] b busy
  | _ => none

/-- The table entry that a copy-queue command reads: the buffer, or the ring of a copy to a ring. -/
def CopyCmd.tableOff (c : CopyCmd) : Nat :=
  match c.op with
  | .copy _ b d0 _ _ _ => if dRing d0 then ringOff (b.val % 8) else bufOff b.val
  | .bdcl b _ | .brel b | .publish b _ => bufOff b.val
  | .reqpg _ _ => 0
def CopyCmd.tableLen (c : CopyCmd) : Nat :=
  match c.op with
  | .copy _ _ d0 _ _ _ => if dRing d0 then 8 else 16
  | .bdcl _ _ => 0
  | .brel _ | .publish _ _ => 16
  | .reqpg _ _ => 0

/-- A comb-address transfer reads its entry of the tile-map cache (R308, R317). -/
def Tile.noteMap (t : Tile) (c : CopyCmd) : Tile :=
  match c.op with
  | .copy form _ _ d1 addr _ =>
    if isComb form d1 then
      match t.tmFind (mkTile (addr.toNat / 2 ^ 25 % 512) (addr.toNat / 2 ^ 16 % 512)) with
      | some e => t.noteTable c.ctx (mapOff e.slot) 16
      | none => t
    else t
  | _ => t

/-- The head of the copy queue is checked and starts, takes effect, faults or waits (R227, R241). -/
def execCopyQueueStart (t : TileId) (s : State) : Out :=
  match (s.tile t).copyReady s.now with
  | none => .next s
  | some c =>
    match c.guard.overflow with
    | some f => .next ((s.modTile t fun x => ((x.copyLeave c.id).dropFollow c.id).retire c.id false).headFault t c.ctx 1 f c.fpc)
    | none =>
    let s := s.modTile t fun x => (x.noteTable c.ctx (c.tableOff) (c.tableLen)).noteMap c
    let x := (s.tile t).tableView
    match c.op with
    | .copy form buf d0 d1 addr st =>
      match s.copyHead x c form buf d0 d1 addr st with
      | .wait => .next s
      | .walk va => .next (s.startWalk t c.ctx (some c.id) va)
      | .ask g => .next (s.tmAsk t g)
      | .fault f => .next (s.copyFault t c f)
      | .start xl idx r => .next (s.copyStart t c form buf d0 d1 addr xl idx r)
    | .reqpg addr len => .next (s.reqpgHead t c addr len)
    | _ =>
      match x.bufferFault c with
      | some f => .next (s.copyFault t c f)
      | none => .next (s.modTile t fun x => x.bufferEffect c)

/-- While the copy at the head may not start yet, its translations that hit in the TLB are looked up, one a tick: the tick of a hit
shows only where the copy comes to the head later than that (R198, R227, R388; log 62). -/
def State.lookAhead (s : State) (t : TileId) : State :=
  let x := s.tile t
  match x.cpq with
  | c :: _ =>
    if c.guard.pending || decide (s.now ≤ c.tick) || x.frozen then s else
    match c.op with
    | .copy form buf d0 d1 addr st =>
      match s.copyHead x.tableView c form buf d0 d1 addr st with
      | .walk va => if (x.tlbHit (x.ctx c.ctx) va).isSome then s.startWalk t c.ctx (some c.id) va else s
      | _ => s
    | _ => s
  | [] => s

/-- PUBLISH as every observer sees it from the next tick (R192). -/
def Buffer.publish (b : Buffer) : Buffer :=
  { b with fh := !b.fh, tag := b.tag + 1, fmap := b.smap, smap := 0, sd := false }

def Tile.applyPublishes (t : Tile) : Tile :=
  t.publishing.foldl (fun t b => t.setBuf b Buffer.publish) { t with publishing := [] }

/-! ### Copies in flight -/

/-- Physical address and residency of a byte of a flight; it has been translated. -/
def Flight.pa (f : Flight) (c : Context) (va : Nat) : Nat × Bool :=
  match c.window va with
  | some (.ok pa _ _ _ _ _ _ _ _ _ _) => (pa, true)
  | _ => match f.xl.find? fun e => inSpan va e.vbase e.size with
    | some e => (e.pbase + (va - e.vbase), e.res)
    | none => (0, true)

/-- Bytes of the heap: uncorrectable words are zero and counted (R204); bytes of pages not resident are zero and marked. -/
def State.heapRead (s : State) (as : List (Nat × Bool)) : List (Byte × Bool) :=
  as.map fun a => if !a.2 then (0, true) else (s.heapByte a.1, false)

/-- Bytes a flight brings to a run of destination bytes, with the heap bytes they come from (R232 to R234). -/
def Flight.sources (f : Flight) (c : Context) (lo n : Nat) : List (Option (Nat × Bool)) :=
  match f.form with
  | .cpyg =>
    let e := dEsize f.d1
    (List.range n).map fun i =>
      (elemAddr f.addr f.d1 (f.idx.getD ((lo + i) / e) 0)).map fun a => f.pa c ((a + (lo + i) % e) % 2 ^ 48)
  | _ => (List.range n).map fun i => some (f.pa c ((f.addr.toNat + lo + i) % 2 ^ 48))

/-- One block of CPYX: 32 BF16 codes and whether it counts in `BS_SCALE` (R95, R96, R234). -/
def cpyxUnit (d1 : Word) (bs : List Byte) : List Byte × Bool :=
  let fmt := cpyxFmt (dEf d1)
  let sc := (bs.headD 0).toNat
  let body := bs.drop 1
  ((List.range 32).flatMap fun j => leBytes 2 (blockScaled fmt (dSk d1) sc (bitField body (j * fmt.width) fmt.width)),
   blockCounted (dSk d1) sc)

/-- Marks of the 64 output bytes of a CPYX block, given those of its heap bytes: an element whose scale or code bits came from a
page not resident (R193, R234). -/
def cpyxMarks (d1 : Word) (ms : List Bool) : List Bool :=
  let w := (cpyxFmt (dEf d1)).width
  (List.range 32).flatMap fun j =>
    let m := ms.headD false || ((List.range (w / 8 + 2)).any fun i => decide (j * w / 8 + i ≤ ((j + 1) * w - 1) / 8) &&
      (ms.getD (1 + j * w / 8 + i) false))
    [m, m]

/-- Output bytes with the marks of those whose page is not resident, counts of ECC_UE and of `BS_SCALE`, for 128 bytes or
fewer from an offset. -/
def State.flightUnit (s : State) (c : Context) (f : Flight) (lo n : Nat) : List Byte × List Bool × Nat × Nat :=
  let rd (srcs : List (Option (Nat × Bool))) : List (Byte × Bool) :=
    srcs.flatMap fun a => match a with
      | some p => s.heapRead [p]
      | none => [(0, false)]
  let bad (srcs : List (Option (Nat × Bool))) : Nat :=
    ((srcs.filterMap fun a => match a with
      | some p => if p.2 && s.heapBad.contains (p.1 / 4) then some (p.1 / 4) else none
      | none => none).dedup).length
  match f.form with
  | .cpyx =>
    let z := cpyxBlock (dEf f.d1)
    let blks := (List.range (n / 64)).map fun i => f.sources c ((lo / 64 + i) * z) z
    let ins := blks.map rd
    let outs := ins.map fun b => cpyxUnit f.d1 (b.map Prod.fst)
    (outs.flatMap Prod.fst, ins.flatMap fun b => cpyxMarks f.d1 (b.map Prod.snd), bad blks.flatten, (outs.filter Prod.snd).length)
  | _ =>
    let srcs := f.sources c lo n
    let bs := rd srcs
    (bs.map Prod.fst, bs.map Prod.snd, bad srcs, 0)

/-- Scratchpad addresses of a run of bytes at the tile's side of a flight. -/
def Tile.flightSpan (t : Tile) (f : Flight) (lo n : Nat) : List Nat :=
  match f.ring with
  | some r =>
    let z := t.rings[r].z
    (List.range n).map fun i => spmAddr (t.rings[r].at_ (f.entry + (lo + i) / z) + (lo + i) % z)
  | none =>
    let base := if f.form = .cpyo then t.bufs[f.buf].front else t.bufs[f.buf].shadow
    span (base + f.off + lo) n

/-- Ring entries whose last byte lies in a run end (R195). -/
def Tile.endEntries (t : Tile) (f : Flight) (lo n : Nat) : Tile :=
  match f.ring with
  | some r =>
    let z := t.rings[r].z
    (List.range ((lo + n) / z - lo / z)).foldl (fun t _ => t.setRing r fun x => x.endFill f.id) t
  | none => t

/-- `SMAP` bits of the ranges that hold a marked byte of a run (R193). -/
def markBits (sz lo : Nat) (marks : List Bool) : Word :=
  ((List.range marks.length).zip marks).foldl (fun w e => if e.2 then w ||| smapBits sz (lo + e.1) 1 else w) 0

/-- A unit lands in its ring or shadow. -/
def Tile.landUnit (t : Tile) (f : Flight) (lo : Nat) (data : List Byte) (marks : List Bool) : Tile :=
  let as := t.flightSpan f lo data.length
  let first := f.ring.isNone && !f.open_
  let t := if first then t.setBuf f.buf Buffer.beginWrite else t
  let t := t.writeSpm (as.zip data)
  let t := if marks.any id && f.ring.isNone then
      t.setBuf f.buf fun b => { b with smap := b.smap ||| markBits b.s (f.off + lo) marks } else t
  let t := t.endEntries f lo data.length
  let fin := decide (lo + data.length ≥ f.len)
  let t := if fin && f.ring.isNone then t.setBuf f.buf Buffer.endWrite else t
  { t with flights := t.flights.map fun g =>
      if g.id = f.id then { g with done := lo + data.length, open_ := true } else g }

/-- An engine write of a flight may start on this tick: not while its buffer is published, read, or has 15 writes. -/
def Tile.mayOpen (t : Tile) (f : Flight) : Bool :=
  f.open_ || f.ring.isSome || f.form == .cpyo || !t.writeBlocked f.buf
/-- An engine read of a flight may start. -/
def Tile.mayRead (t : Tile) (f : Flight) : Bool :=
  f.open_ || f.form != .cpyo || (decide (t.bufs[f.buf].rd.toNat < 15) && t.bufs[f.buf].wr == 0)

/-- The bytes of a flight's next unit. -/
def Flight.unit (f : Flight) : Nat := min 128 (f.len - f.done)

/-- Heap addresses that the unit at an offset ends with: the last byte of its span, or of each element it gathers. -/
def Flight.lastVas (f : Flight) (lo n : Nat) : List Nat :=
  match f.form with
  | .cpyg =>
    let e := dEsize f.d1
    ((List.range ((lo + n - 1) / e + 1)).drop (lo / e)).filterMap fun i => (elemAddr f.addr f.d1 (f.idx.getD i 0)).map (· + (e - 1))
  | .cpyx =>
    let z := cpyxBlock (dEf f.d1)
    [f.addr.toNat + (lo + n) / 64 * z - 1]
  | .cpy => [f.addr.toNat + lo + n - 1]
  | .cpyo => []

/-- The tick by which the unit at an offset has landed: the bound of its page's class from the start, for a contiguous copy 43 ticks for
each 4 KiB piece before it, and the ticks that locks have held the copy (R201, R230). Each element of a gather is a read of its own,
bounded from the start. None for the window, for class 0, and, unless the copy is STATIC, for a page that is not resident. -/
def Flight.promise (f : Flight) (lo n : Nat) : Option Nat :=
  ((f.lastVas lo n).filterMap fun va =>
    match f.xl.find? fun e => inSpan va e.vbase e.size && e.lc != 0 && (e.res || f.st) with
    | some e => some (f.start + lcBound e.lc + (if f.form = .cpyg then 0 else 43 * (va / 4096 - f.addr.toNat / 4096)) + f.slip)
    | none => none).foldl (fun m d => some (match m with
      | some k => min k d
      | none => d)) none

/-- The latest ticks on which the units still to come may move, with one unit a tick, so that each promise is kept; up to the last unit
that has one. -/
def Flight.deadlines (f : Flight) : List Nat :=
  if f.remote.isSome || f.xl.all fun e => e.lc == 0 then [] else
  let left := (f.len - f.done + 127) / 128
  (List.range left).reverse.foldl (fun l k =>
    match f.promise (f.done + 128 * k) (min 128 (f.len - f.done - 128 * k)), l with
    | some d, e :: _ => min d (e - 1) :: l
    | some d, [] => [d]
    | none, e :: _ => (e - 1) :: l
    | none, [] => []) []
def Flight.latest (f : Flight) : Option Nat := f.deadlines.head?

/-- Time presses: more promised units than ticks are left, this one not counted, up to one of their deadlines, so that the port serves
a promised copy on this tick (R179, R230). -/
def Tile.pressed (t : Tile) (now : Nat) : Bool :=
  let ds := t.flights.flatMap Flight.deadlines
  ds.any (fun d => decide (d - now ≤ ds.length)) && ds.any fun d => decide (d - now < ds.countP fun e => decide (e ≤ d))

/-- The heap bytes that a flight's next unit reads, or writes (R14). -/
def Flight.heapSpan (f : Flight) (c : Context) : List Nat :=
  let n := f.unit
  match f.form with
  | .cpyo => (List.range n).map fun i => (f.pa c ((f.addr.toNat + f.done + i) % 2 ^ 48)).1
  | .cpyx =>
    let z := cpyxBlock (dEf f.d1)
    (List.range (n / 64)).flatMap fun i => (f.sources c ((f.done / 64 + i) * z) z).filterMap fun a => a.map Prod.fst
  | _ => (f.sources c f.done n).filterMap fun a => a.map Prod.fst

/-- The next unit of a flight meets a bank lock (R172). -/
def Tile.flightLocked (t : Tile) (now : Nat) (f : Flight) : Bool := t.locked now (t.flightSpan f f.done f.unit)

/-- The copies that may use the engine port on this tick but for a bank lock, in order: promised ones first when time presses. -/
def Tile.copyTurn (t : Tile) (now : Nat) : List Flight :=
  let may (f : Flight) : Bool := f.remote.isNone && decide (f.done < f.len) && t.mayOpen f && t.mayRead f
  let due := t.flights.filter fun f => may f && decide (f.next ≤ now)
  if t.pressed now then
    let hot := t.flights.filter fun f => may f && f.latest.isSome
    sortBy (fun a b => decide (a.latest.getD 0 ≤ b.latest.getD 0)) hot ++ due.filter fun f => f.latest.isNone
  else due

/-- The copy that is next: the first in order whose heap bytes the forager ports can still move on this tick (R14). -/
def State.copyNext (s : State) (t : Tile) : Option Flight :=
  (t.copyTurn s.now).find? fun f => s.stackFits (f.form == .cpyo) (f.heapSpan (t.ctx f.ctx))

/-- The flight whose unit the port would move: none while a lock holds the next one, since a held access stops the engine (R172). -/
def State.copyWants (s : State) (t : Tile) : Option Flight := (s.copyNext t).filter fun f => !t.flightLocked s.now f

/-- A promised copy must have the port on this tick (R179, R230). -/
def State.copyPresses (s : State) (t : Tile) : Bool :=
  t.pressed s.now && (s.copyWants t).any fun f => f.latest.isSome

/-- While a lock holds the copy engine, or the buffer of a promised copy may not be written yet, each promise of such a copy is put off
by a tick (R172, R190, R230). -/
def State.slipPromises (s : State) (t : TileId) : State :=
  let x := s.tile t
  if x.flights.all fun f => f.deadlines.isEmpty then s else
  let stopped := (s.copyNext x).any fun f => x.flightLocked s.now f
  s.modTile t fun x => { x with flights := x.flights.map fun (f : Flight) =>
    if !f.deadlines.isEmpty && (stopped || !x.mayOpen f) then { f with slip := f.slip + 1 } else f }

/-- One unit of a flight moves (R179, R232 to R235). The bytes of a CPYO perform in the heap as their unit leaves: DESIGN CHOICE,
log 73 (R212 lets a read before the acknowledgement return old or new bytes). -/
def State.moveUnit (s : State) (t : TileId) (f : Flight) : State :=
  let x := s.tile t
  let c := x.ctx f.ctx
  let n := f.unit
  let nxt := s.now + 1 + (if f.form = .cpyo then 0 else Config.copyLatency s.free)
  let s := s.bump.stackTake (f.form == .cpyo) (f.heapSpan c)
  if f.form = .cpyo then
    let as := x.flightSpan f f.done n
    let data := x.readSpm as
    let dst := (List.range n).map fun i => (f.pa c ((f.addr.toNat + f.done + i) % 2 ^ 48)).1
    let s := s.modTile t fun x =>
      let x := if f.open_ then x else x.setBuf f.buf fun b => { b with rd := b.rd + 1 }
      let x := x.countReads f.ctx 0 (as.map (· / 4))
      let x := if f.done + n ≥ f.len then x.setBuf f.buf fun b => { b with rd := b.rd - 1 } else x
      { x with flights := x.flights.map fun g =>
          if g.id = f.id then { g with done := f.done + n, open_ := true, next := nxt } else g }
    s.writeHeap (dst.zip data)
  else
    let (data, marks, ue, bs) := s.flightUnit c f f.done n
    s.modTile t fun x =>
      let x := ((x.count eccUE ue).count bsScale bs).event 0x0C 1
      let x := if ue = 0 then x else x.modCtx f.ctx Context.setErr
      let x := x.landUnit f f.done data marks
      { x with flights := x.flights.map fun g => if g.id = f.id then { g with next := nxt } else g }

/-- Held MMAs whose copy has landed in full, older fills of its ring included, are released on this tick (R237). -/
def Tile.releaseHeld (t : Tile) (now : Nat) : Tile :=
  let done := t.flights.filter fun f => f.retired && match f.ring with
    | some r => !(t.rings[r].ended.any fun e => e.1 == f.id)
    | none => true
  { t with mxq := t.mxq.map fun m =>
             if m.landed.isNone && done.any fun f => m.heldBy == some f.id then { m with landed := some now } else m,
           flights := t.flights.filter fun f => !done.any fun g => g.id == f.id }

/-- A copy in flight has landed its last byte, or a CPYO's last byte has left: it retires (R232, R235, R237). -/
def execCopyRetire (t : TileId) (id : Nat) (s : State) : Out :=
  let x := s.tile t
  match x.flights.find? fun f => f.id == id && !f.retired && decide (f.done ≥ f.len) with
  | none => .next s
  | some f =>
    .next ((s.modTile t fun x =>
      let x := x.retire id true
      let x := if f.form = .cpyo ∧ f.remote.isNone then
          { x with acks := x.acks ++ [⟨id, none, f.ctx, some (s.now + 1 + Config.ackLatency s.free), 0⟩] } else x
      if f.follow then
        { x with flights := x.flights.map fun (g : Flight) => if g.id = id then { g with retired := true } else g }.releaseHeld s.now
      else { x with flights := x.flights.filter fun g => g.id != id }).bump)

/-- The stack has acknowledged every byte of a heap write: WACK falls (R212, R361). -/
def execHeapWriteAcknowledgement (t : TileId) (id : Nat) (s : State) : Out :=
  match (s.tile t).acks.find? fun a => a.id == id && a.tick.any fun k => decide (k ≤ s.now) with
  | none => .next s
  | some a =>
    .next (s.modTile t fun x =>
      { x with acks := x.acks.filter fun b => b.id != id }.modCtx a.ctx Context.ackFall)

/-- A REQPG whose pages are all resident retires (R240). -/
def Tile.pageDone (t : Tile) (launch : Nat) (va : VAddr) : Tile :=
  let ps := t.pages.map fun p => if p.launch = launch then { p with pages := p.pages.filter (· != va) } else p
  (ps.filter fun p => p.pages.isEmpty).foldl (fun t p => t.retire p.id true)
    { t with pages := ps.filter fun p => !p.pages.isEmpty }

/-- An invalidation of TLB entries by page or by launch arrives (R199). -/
def execTlbInvalidation (t : TileId) (launch : Option (BitVec 16)) (page : Option VAddr) (s : State) : Out :=
  .next (s.modTile t fun x =>
    { x with tlb := x.tlb.filter fun e =>
        !((launch.all fun l => e.launch == l.toNat) && (page.all fun v => inSpan v.toNat e.vbase e.size)) })

end Sys2Proof.Machine
end

