-- ==== Sys2Proof/Machine/Reduce.lean ====
section
/-! DEFINITION. Reductions outside the matrix array: the element operations of SENDR, COLL and SREDUCE (R292, R293, R300,
R304) and the division of a REWEIGHT swarm (R339). Reduce opcodes are the codes of R72. -/

namespace Sys2Proof.Machine

/-- Elements of opcode 111 are FX128 values of 16 bytes. -/
def rAddFx : Nat := 7

/-- f(old, x) on a 32-bit element (R292). -/
def reduceWord (op : Nat) (old x : Word) : Word :=
  let f32 (r : FRes) : Word := BitVec.ofNat 32 r.bits
  match op with
  | 0 => f32 (fF32.add .rne old.toNat x.toNat)
  | 1 => old + x
  | 2 => f32 (fF32.minMax true old.toNat x.toNat)
  | 3 => f32 (fF32.minMax false old.toNat x.toNat)
  | 4 => if old.slt x then x else old
  | 5 => if x.slt old then x else old
  | _ =>
    let h (a b : Nat) : Nat := (fBf16.add .rne a b).bits
    BitVec.ofNat 32 (h (old.toNat % 65536) (x.toNat % 65536) + 65536 * h (old.toNat / 65536) (x.toNat / 65536))

/-- f(old, x) on an element of a partial, and whether it saturates: an FX128 value, or a word in the low bits. -/
def reduceElem (xf : Bool) (op : Nat) (old x : BitVec 128) : BitVec 128 × Bool :=
  if xf then fxAdd old x else ((reduceWord op (old.setWidth 32) (x.setWidth 32)).setWidth 128, false)

/-- A float divided by a member count, rounded once (R339). -/
def FFmt.divNat (f : FFmt) (a n : Nat) : Nat :=
  match f.read a with
  | .nan _ => f.nan
  | .inf g => f.inf g
  | .fin neg m e => if m = 0 then f.zero neg else (f.roundRat .rne neg m n e).bits

/-- The integer nearest x / n, ties to even. -/
def divNearest (x : Int) (n : Nat) : Int :=
  let q := x.natAbs / n
  let r := x.natAbs % n
  let q := if 2 * r > n ∨ (2 * r = n ∧ q % 2 = 1) then q + 1 else q
  if x < 0 then -(q : Int) else q

/-- The opcodes that divide. -/
def divides (op : Nat) : Bool := op == 0 || op == 1 || op == 6 || op == rAddFx

/-- The division formed at the holder (R339). -/
def divElem (xf : Bool) (op n : Nat) (s : BitVec 128) : BitVec 128 :=
  if xf then BitVec.ofInt 128 (divNearest s.toInt n)
  else
    let w := s.setWidth 32
    let out : Word := match op with
      | 0 => BitVec.ofNat 32 (fF32.divNat w.toNat n)
      | 1 => BitVec.ofInt 32 (w.toInt.tdiv n)
      | 6 => BitVec.ofNat 32 (fBf16.divNat (w.toNat % 65536) n + 65536 * fBf16.divNat (w.toNat / 65536) n)
      | _ => w
    out.setWidth 128

/-- An FX128 value converted to F32 and divided in one rounding (R304, R339). -/
def fxWord (win : Byte) (n : Nat) (x : BitVec 128) : Word :=
  if x.toInt = 0 then 0
  else BitVec.ofNat 32 (fF32.roundRat .rne (decide (x.toInt < 0)) x.toInt.natAbs n (win.toInt - 127)).bits

/-- A word entering FX128 under a window (R98). -/
def fxOfWord (win : Byte) (w : Word) : BitVec 128 × Bool := fxOfVal win.toInt (fF32.read w.toNat)

end Sys2Proof.Machine
end

