-- ==== Sys2Proof/Machine/Channel.lean ====
section
/-! DEFINITION. The channel-queue instructions of slot 7 as their bundle issues (R271, R273, R289 to R299, R342), and the
credits of send windows (R272 to R274). -/

namespace Sys2Proof.Machine

/-! ### Credits (R272, R273) -/

/-- A point-to-point entry: the only kind that has a send window. -/
def Chan.p2p (c : Chan) : Bool := c.v && !c.coll

/-- The channel whose credit a command takes. -/
def ChOp.credit : ChOp → Option (Fin 256)
  | .send m | .sendr m _ => some m.ch
  | .sig ch _ _ => some ch
  | _ => none

/-- A send window is read: an uncorrectable word is counted and reads as zero, and what is written next replaces it (R204, R308). -/
def Tile.useWindow (t : Tile) (c : Option (Fin 4)) (ch : Fin 256) : Tile :=
  let u := match c with
    | some c => t.noteTable c (winOff ch.val) 4
    | none => t.readTable (winOff ch.val) 4
  if t.badTable (winOff ch.val) 4 then (u.setChan ch Chan.noWindow).writeTable (winOff ch.val) 4 else u

/-- A command takes a credit, or is queued without one (R273). -/
def Chan.take (c : Chan) : Chan × Bool :=
  if !c.p2p then (c, true)
  else if c.cr ≠ 0 then ({ c with cr := c.cr - 1, rsv := c.rsv + 1 }, true)
  else ({ c with df := c.df + 1 }, false)

/-- The credit of a queued command is taken on its issue, or on the tick that resolves its guard (R176, R273). -/
def Tile.takeCredit (t : Tile) (now id : Nat) : Tile :=
  match t.chq.find? fun c => c.id == id with
  | none => t
  | some c =>
    match c.op.credit with
    | none => t
    | some ch =>
      let t := t.useWindow (some c.ctx) ch
      let r := (t.chan ch).take
      { t.setChan ch (fun _ => r.1) with
          chq := t.chq.map fun d => if d.id = id then { d with has := r.2, credAt := now } else d }

/-- A free credit goes to the oldest queued command that waits for one, or to `CR` (R273). -/
def Tile.giveCredit (t : Tile) (now : Nat) (ch : Fin 256) : Tile :=
  let t := t.useWindow none ch
  let c := t.chan ch
  match t.chq.find? fun q => q.op.credit == some ch && !q.has && q.guard.resolved with
  | some q =>
    if c.df = 0 then t.setChan ch fun c => { c with cr := c.cr + 1 }
    else
      { t.setChan ch (fun c => { c with df := c.df - 1, rsv := c.rsv + 1 }) with
          chq := t.chq.map fun d => if d.id = q.id then { d with has := true, credAt := now } else d }
  | none => t.setChan ch fun c => { c with cr := c.cr + 1 }

/-- A command that faults or is removed at the head gives its credit back at once (R273, R382). -/
def Tile.dropCredit (t : Tile) (now : Nat) (q : ChCmd) : Tile :=
  match q.op.credit with
  | none => t
  | some ch =>
    let t := t.useWindow (some q.ctx) ch
    let c := t.chan ch
    if q.has then
      if c.rsv = 0 then t else (t.setChan ch fun c => { c with rsv := c.rsv - 1 }).giveCredit now ch
    else if c.df = 0 then t else t.setChan ch fun c => { c with df := c.df - 1 }

/-- A returned credit reaches the sender's window (R273). -/
def execCreditReturn (t : TileId) (ch : Fin 256) (s : State) : Out :=
  let x := s.tile t
  match x.credits.find? fun w => w.ch == ch && decide (w.tick ≤ s.now) with
  | none => .next s
  | some w =>
    .next (s.modTile t fun x =>
      let x := { x with credits := x.credits.erase w }
      let x := (x.useWindow none ch).setChan ch fun c => { c with out := c.out.drop 1 }
      if (x.chan ch).inf = 0 then x
      else (x.setChan ch fun c => { c with inf := c.inf - 1 }).giveCredit s.now ch)

/-! ### Issue (R271) -/

/-- Places of the channel queue and the tagged counter; a guard still to resolve puts the rise of the counter, and the fault it would
raise, off to the head (R176). -/
def State.chanFull (s : State) (tag : Option (Fin 16)) : Option Cause :=
  if s.curTile.chq.length ≥ 8 then some (causeOverflow 7 2 0)
  else if !s.cur.guard.resolved then none
  else match tag with
    | some k => if s.curCtx.cnt[k] = 255 then some (causeOverflow 7 3 k.val) else none
    | none => none

/-- A channel command issues: its place, its counter and its credit. -/
def chanSlot (op : ChOp) (tag : Option (Fin 16)) (coll : Bool) (s : State) : Out :=
  match s.chanFull tag with
  | some f => .next (s.issueFault s.cur.tile s.cur.ctx f)
  | none =>
    .next (s.modCurTile fun t =>
      let (t, id) := t.enroll s.cur.ctx 2 tag coll false
      let t := { t with chq := t.chq ++ [⟨id, s.cur.ctx, s.cur.pc, s.now, s.cur.guard, op, false, s.now⟩] }
      if s.cur.guard.resolved then (t.modCtx s.cur.ctx fun c => c.issueCounts tag false).takeCredit s.now id else t)

def execSend (m : MsgOps) (s : State) : Out := chanSlot (.send m) (tagOf m.t m.cn) false s
def execSendr (m : MsgOps) (op : ReduceOp) (s : State) : Out := chanSlot (.sendr m op) (tagOf m.t m.cn) false s
def execRecv (m : MsgOps) (s : State) : Out := chanSlot (.recv m) (tagOf m.t m.cn) false s
def execColl (m : MsgOps) (s : State) : Out := chanSlot (.coll m) (tagOf m.t m.cn) true s
def execRgadv (rg : Fin 8) (n : BitVec 8) (s : State) : Out := chanSlot (.rgadv rg n) none false s
def execRgpop (rg : Fin 8) (n : BitVec 8) (s : State) : Out := chanSlot (.rgpop rg n) none false s
def execSig (ch : Fin 256) (sem : Fin 16) (inc : BitVec 8) (s : State) : Out := chanSlot (.sig ch sem inc) none false s
/-- s[d] is read on issue (R296). -/
def execTlsig (tl : Fin 1024) (rs : Fin 32) (s : State) : Out := chanSlot (.tlsig tl (s.rs rs)) none false s
def execVwjoin (sw : Fin 256) (s : State) : Out := chanSlot (.vwjoin sw) none false s
def execVwleave (sw : Fin 256) (s : State) : Out := chanSlot (.vwleave sw) none false s

/-- The issue fault of a channel-queue instruction (R271, R307). -/
def chanIssueCause (i : Instr) (s : State) : Option Cause :=
  let full := s.chanFull
  match i with
  | .send m | .sendr m _ | .recv m | .coll m => full (tagOf m.t m.cn)
  | .rgadv _ _ | .rgpop _ _ | .sig _ _ _ | .tlsig _ _ | .vwjoin _ | .vwleave _ => full none
  | _ => none

end Sys2Proof.Machine
end

