-- ==== Sys2Proof/Machine/Assist.lean ====
section
/-! DEFINITION. Requests to the host through the assist ring (R320, R393, R401), swarm-table entries by number, and the control
frames of the waggle that a port sends or the host relays (R333). -/

namespace Sys2Proof.Machine

/-! ### Swarm-table entries (R329) -/

/-- A swarm as the queen core holds it. -/
def State.swarm (s : State) (n : Fin 256) : Option Swarm := (s.swarms.find? fun e => e.1 == n.val).map Prod.snd
def State.modSwarm (s : State) (n : Nat) (f : Swarm → Swarm) : State :=
  { s with swarms := s.swarms.map fun e => if e.1 = n then (e.1, f e.2) else e }

/-! ### Requests to the host (R320, R393) -/

def fnPage : Nat := 1
def fnWaggle : Nat := 2
def fnMigrate : Nat := 3
def fnParse : Nat := 4
def fnMap : Nat := 5

/-- A function is host-assisted. -/
def State.assisted (s : State) (fn : Nat) : Bool := s.ctl.assist.getLsbD (fn - 1)

/-- A request for a function and its operands is outstanding. -/
def State.asking (s : State) (fn : Nat) (body : List Byte) : Bool := s.assists.any fun a => a.fn.toNat == fn && a.body == body

/-- The host has accepted a request; its reply. -/
def State.granted (s : State) (fn : Nat) (body : List Byte) : Option (List Byte) :=
  (s.assists.find? fun a => a.fn.toNat == fn && a.body == body).bind AssistReq.answer
/-- A request is over. -/
def State.settle (s : State) (fn : Nat) (body : List Byte) : State :=
  { s with assists := s.assists.filter fun a => !(a.fn.toNat == fn && a.body == body) }

/-- A request is made, once. -/
def State.ask (s : State) (fn : Nat) (body : List Byte) : State :=
  if s.asking fn body then s else
  { s with assists := s.assists ++ [⟨BitVec.ofNat 8 fn, s.nextAssist, body, s.now, false, none⟩], nextAssist := s.nextAssist + 1 }

/-- A control frame as the assist ring names it: swarm, kind, tag, members; a request has room for the first bytes (log 76). -/
def frameBody (sw : Fin 256) (f : PortFrame) : List Byte :=
  let ids (l : List Nat) : List Byte := l.flatMap (leBytes 2)
  leBytes 8 sw.val ++ (match f with
    | .propose _ tag ms ni => leBytes 4 1 ++ leBytes 2 tag.toNat ++ leBytes 2 ni.toNat ++ ids ms
    | .ack _ dst tag done => leBytes 4 2 ++ leBytes 2 tag.toNat ++ leBytes 2 dst.toNat ++ done.flatMap fun e => ids [e.1, e.2.toNat]
    | .commit _ f => leBytes 4 3 ++ leBytes 2 f.tag.toNat ++ leBytes 2 0 ++ ids f.members
    | .join _ => leBytes 4 4
    | .leave _ => leBytes 4 5
    | _ => leBytes 4 0)

/-- A control frame leaves by the swarm's port, or the host relays it (R333). -/
def State.frame (s : State) (sw : Fin 256) (relay : Bool) (f : PortFrame) : State :=
  match s.swarm sw with
  | some w => if relay then s.ask fnWaggle (frameBody sw f) else s.emit w.port f
  | none => s

end Sys2Proof.Machine
end

