-- ==== Sys2Proof/Machine/Collective.lean ====
section
/-! DEFINITION. The ring sequencers (R299 to R306): layout of a collective, acceptance, chunks that arrive, are held,
combined, written and passed on, completion; the discards of a view change (R337, R338). -/

namespace Sys2Proof.Machine

/-! ### Chunks on lane R (R302) -/

def Chunk.pack (c : Chunk) : BitVec 128 :=
  BitVec.ofNat 128 (c.ch.val + 2 ^ 8 * c.ph.toNat + 2 ^ 9 * c.xf.toNat + 2 ^ 16 * c.vt.toNat + 2 ^ 32 * c.inst.toNat +
    2 ^ 48 * c.sh.toNat + 2 ^ 64 * c.fr.toNat + 2 ^ 80 * c.ne.toNat + 2 ^ 96 * c.eo.toNat)

def Chunk.unpack (w : BitVec 128) : Chunk where
  ch := Fin.ofNat 256 (flitField w 0 8)
  ph := w.getLsbD 8
  xf := w.getLsbD 9
  vt := w.extractLsb' 16 16
  inst := w.extractLsb' 32 16
  sh := w.extractLsb' 48 16
  fr := w.extractLsb' 64 16
  ne := w.extractLsb' 80 16
  eo := w.extractLsb' 96 16
  data := []

/-- Elements of a chunk, elements in a payload flit, payload flits. -/
def Chunk.count (c : Chunk) : Nat := c.ne.toNat + 1
def perFlit (xf : Bool) : Nat := if xf then 1 else 4
def Chunk.flits (c : Chunk) : Nat := (c.count + perFlit c.xf - 1) / perFlit c.xf

/-! ### Layout (R300, R301) -/

/-- Partials travel as FX128: opcode 111, or the exact mode. -/
def CollRun.xf (r : CollRun) : Bool :=
  decide (r.kind < 2) && (r.rop == rAddFx || (r.om == 2 && r.mode == .normal))
/-- Bytes of an element in the source and the destination. -/
def CollRun.e (r : CollRun) : Nat := if r.kind < 2 ∧ r.rop = rAddFx then 16 else 4
/-- First element and length of a shard. -/
def CollRun.lo (r : CollRun) (j : Nat) : Nat := j * r.m / r.n
def CollRun.len (r : CollRun) (j : Nat) : Nat := (j + 1) * r.m / r.n - j * r.m / r.n
/-- Rank at which a shard's partial starts, and the rank that forms its result. -/
def CollRun.starter (r : CollRun) (j : Nat) : Nat := if r.om = 0 then 0 else (j + 1) % r.n
def CollRun.holder (r : CollRun) (j : Nat) : Nat := (r.starter j + r.n - 1) % r.n

/-- Chunks of a part of some elements: first element and elements (R302). -/
def cutChunks (per : Nat) : Nat → Nat → Nat → List (Nat × Nat)
  | 0, _, _ => []
  | f + 1, eo, left => if left = 0 then [] else (eo, min per left) :: cutChunks per f (eo + per) (left - per)

def CollRun.cut (r : CollRun) (len : Nat) : List (Nat × Nat) := cutChunks (if r.xf then 32 else 128) (len + 1) 0 len

/-- Chunks that this member starts. -/
def CollRun.ownChunks (r : CollRun) : List OwnChunk :=
  if r.hive then []
  else if r.kind < 2 then
    ((List.range r.n).filter fun j => r.starter j == r.rank).flatMap fun j => (r.cut (r.len j)).map fun c => ⟨false, j, c.1, c.2⟩
  else if r.kind = 2 ∨ r.rank = r.root then (r.cut r.m).map fun c => ⟨true, r.rank, c.1, c.2⟩
  else []

/-- Chunks that this member receives. -/
def CollRun.arrivals (r : CollRun) : Nat :=
  if r.hive then 0
  else if r.kind < 2 then
    ((List.range r.n).map fun j => (r.cut (r.len j)).length *
      ((if r.rank = r.starter j then 0 else 1) + (if r.rank = r.holder j then 0 else 1))).sum
  else if r.kind = 2 then (r.n - 1) * (r.cut r.m).length
  else if r.rank = r.root then 0 else (r.cut r.m).length

/-- Bytes of its destination region, and of its source region. -/
def CollRun.resultBytes (r : CollRun) : Nat :=
  match r.kind with
  | 1 => r.len r.rank * r.e
  | 2 => r.n * r.m * r.e
  | _ => r.m * r.e
def CollRun.sourceBytes (r : CollRun) : Nat := if r.kind = 3 ∧ r.rank ≠ r.root then 0 else r.m * r.e

/-- The member writes the elements of a chunk that travels on. -/
def CollRun.writesChunk (r : CollRun) (c : Chunk) : Bool := r.kind != 1 || r.hive || c.sh.toNat == r.rank

/-- A reducing chunk ends here: its result is formed (R301). -/
def CollRun.ends (r : CollRun) (c : Chunk) : Bool := !c.ph && r.kind < 2 && r.holder c.sh.toNat == r.rank

/-- A chunk goes out to the successor (R301: no member receives its own data back). -/
def CollRun.passes (r : CollRun) (c : Chunk) : Bool :=
  let next := (r.rank + 1) % r.n
  match r.mode with
  | .sending _ => true
  | .finishing => false
  | .normal =>
  if r.hive || r.n == 1 then false
  else if !c.ph then true
  else if r.kind < 2 then next != r.holder c.sh.toNat
  else if r.kind = 2 then next != c.sh.toNat
  else next != r.root

/-- Element of the destination region where a chunk's elements go. -/
def CollRun.place (r : CollRun) (c : Chunk) : Nat :=
  match r.kind with
  | 0 => (if r.hive then 0 else r.lo c.sh.toNat) + c.eo.toNat
  | 2 => c.sh.toNat * r.m + c.eo.toNat
  | _ => c.eo.toNat

/-- Element of the source region that joins a chunk. -/
def CollRun.from_ (r : CollRun) (c : Chunk) : Nat := (if r.kind < 2 then r.lo c.sh.toNat else 0) + c.eo.toNat

/-! ### Sequencers of a tile -/

def Tile.setSeq (t : Tile) (q : Fin 4) (f : Seq → Seq) : Tile := { t with seqs := vset t.seqs q (f t.seqs[q]) }
def Seq.setRun (q : Seq) (id : Nat) (f : CollRun → CollRun) : Seq :=
  { q with runs := q.runs.map fun r => if r.id = id then f r else r }
def Tile.viewSlot (t : Tile) (sw : Fin 256) : Option ViewSlot := t.views.find? fun v => v.v && v.sw == sw

/-- The sequencer of an entry's route (R299). -/
def Tile.seqDir (t : Tile) (ch : Fin 256) : Fin 4 :=
  let w := t.route (t.chan ch).rt
  if emptyRoute w then 0 else Fin.ofNat 4 (legDir w)

/-- The run only sends a result to another member (R337). -/
def CollRun.sends (r : CollRun) : Bool :=
  match r.mode with
  | .sending _ => true
  | _ => false

/-- The sequencer that runs an instance. -/
def Tile.seqOfRun (t : Tile) (ch : Fin 256) (inst : BitVec 16) : Option (Fin 4 × CollRun) :=
  (List.finRange 4).findSome? fun q =>
    (t.seqs[q].runs.find? fun r => r.ch == ch && r.inst == inst && !r.sends).map fun r => (q, r)

/-- A tag or count is older than another (R217). -/
def older16 (a b : BitVec 16) : Bool := let d := (b - a).toNat; decide (1 ≤ d) && decide (d ≤ 32767)

/-- No instance of the channel before this one is incomplete. -/
def Tile.oldest (t : Tile) (r : CollRun) : Bool :=
  (List.finRange 4).all fun q => t.seqs[q].runs.all fun p => p.ch != r.ch || p.sends || !older16 p.inst r.inst

/-- The swarm of the collective that a chunk belongs to: of a started instance as it stood at its start, else as its entry names
it now (R305, R315). -/
def Tile.chunkSwarm (t : Tile) (c : Chunk) : Option (Fin 256) :=
  match t.seqOfRun c.ch c.inst with
  | some (_, r) => some r.sw
  | none => let e := t.tableView.chan c.ch; if e.v && e.coll then some e.sw else none

/-- What an arriving chunk meets (R305). -/
def Tile.chunkUse (t : Tile) (c : Chunk) : ChunkUse :=
  match (t.chunkSwarm c).bind t.tableView.viewSlot with
  | none => .discarded
  | some v =>
    if older16 c.vt v.vt then .discarded
    else if c.vt ≠ v.vt then .held
    else match t.seqOfRun c.ch c.inst with
      | some (_, r) => if t.oldest r && !r.queued then .used else .held
      | none => if older16 c.inst (t.chan c.ch).inst then .discarded else .held

/-! ### Acceptance (R299) -/

/-- The collective as it would start: entry, view and member as they stand. At a hive anchor only the exact sum is divided here,
by the writer; scout code forms and divides the others (R339, R349). -/
def Tile.collRun (t : Tile) (id : Nat) (ctx : Fin 4) (ch : Fin 256) (src : Fin 32) (v : ViewSlot) (now : Nat) : CollRun :=
  let c := t.chan ch
  let hive := v.lvl
  let r : CollRun :=
    { id := id, ctx := ctx, ch := ch, inst := c.inst, sw := c.sw, vt := v.vt, src := src, dst := Fin.ofNat 32 c.tgt.toNat,
      toff := c.toff.toNat * 4, kind := c.ck.toNat, rop := c.rop.toNat, om := c.om.toNat, root := c.root.toNat,
      m := c.msz.toNat + 1, n := v.nm.toNat + 1, rank := v.rank.toNat, win := v.win,
      div := v.mode && decide (c.ck.toNat < 2) && divides c.rop.toNat && (!hive || (c.om == 2 && c.rop == 0)), hive := hive,
      mode := .normal, rt := c.rt, steer := t.route c.rt, queued := true, accepted := now, own := [], need := 0, outn := 0,
      rdOpen := false, wrOpen := false, wrLeft := 0, wrBase := 0,
      portLeft := 0, last := now }
  { r with own := r.ownChunks, need := r.arrivals, wrLeft := r.resultBytes, portLeft := if hive then r.sourceBytes else 0 }

/-- Faults of COLL at the head, in order (R299, R300, R375). -/
def Tile.collCause (t : Tile) (ch : Fin 256) (src : Fin 32) : Option Cause :=
  let c := t.chan ch
  if !c.v || !c.coll then some (causeSchedule 7 ch.val 0) else
  match t.viewSlot c.sw with
  | none => some (causeSchedule 7 c.sw.val 3)
  | some v =>
    if !v.mb then some (causeSchedule 7 c.sw.val 3) else
    let r := t.collRun 0 0 ch src v 0
    let a := t.bufs[src]
    let b := t.bufs[r.dst]
    if r.kind ≥ 4 ∨ (r.kind < 2 ∧ r.om = 2 ∧ r.rop ≠ 0 ∧ r.rop ≠ rAddFx) ∨ r.n ≤ r.root then
      some (causeSchedule 7 ch.val 6)
    else if !a.v then some (causeBuffer 7 src.val a.state false 0)
    else if !b.v then some (causeBuffer 7 r.dst.val b.state false 0)
    else if a.state == .filling then some (causeBuffer 7 src.val a.state false 0)
    else if b.state == .draining then some (causeBuffer 7 r.dst.val b.state false 0)
    else if src = r.dst then some (causeBuffer 7 src.val a.state false 0)
    else if r.sourceBytes > a.s ∨ r.toff + r.resultBytes > b.s then some (causeCopy 7 5 0 0)
    else none

/-- A COLL waits at the head with no effect: a view change is being agreed (R335, R341), or 15 reads of its source are open
(R190). -/
def Tile.collWaits (t : Tile) (ch : Fin 256) (src : Fin 32) : Bool :=
  t.bufs[src].rd == 15 || (t.viewSlot (t.chan ch).sw).any fun v => v.vc

/-- The sequencer for which the COLL at the head, which has passed its checks, waits. -/
def Tile.queuedRun (t : Tile) (id : Nat) : Option (Fin 4) :=
  (List.finRange 4).find? fun q => t.seqs[q].runs.any fun r => r.id == id && r.queued

/-- A sequencer holds four collectives (R299). -/
def Tile.seqFull (t : Tile) (q : Fin 4) : Bool := decide (4 ≤ (t.seqs[q].runs.filter fun r => !r.sends && !r.queued).length)

/-- A COLL that passes its checks takes the entry's instance, which rises by one (R299). -/
def Tile.passColl (t : Tile) (q : ChCmd) (ch : Fin 256) (src : Fin 32) (now : Nat) : Tile :=
  let x := t.tableView
  match x.viewSlot (x.chan ch).sw with
  | none => t
  | some v =>
    (t.setSeq (x.seqDir ch) fun s => { s with runs := s.runs ++ [x.collRun q.id q.ctx ch src v now] }).setChan ch
      fun c => { c with inst := c.inst + 1 }

/-- The sequencer accepts it, unless it holds four: it leaves the head. -/
def Tile.acceptColl (t : Tile) (id now : Nat) : Tile :=
  match t.queuedRun id with
  | none => t
  | some q =>
    if t.seqFull q then t
    else { t.setSeq q (fun s => s.setRun id fun r => { r with queued := false, accepted := now, last := now }) with
             chq := t.chq.filter fun c => c.id != id }

/-! ### Flits into the output -/

def Seq.push (q : Seq) (ready : Nat) (r : CollRun) (ff lf : Bool) (data : BitVec 128) : Seq :=
  let f : SeqFlit := ⟨ready, r.id, ⟨.r, ff, lf, data, r.steer, none, none⟩⟩
  let q : Seq := { q with out := q.out ++ [f] }
  q.setRun r.id fun r => { r with outn := r.outn + 1 }

/-- The chunk as it goes out from this member. -/
def CollRun.outChunk (r : CollRun) (c : Chunk) : Chunk :=
  { c with ph := c.ph || r.ends c, fr := BitVec.ofNat 16 r.rank, vt := r.vt }

/-- An own chunk as a chunk. -/
def CollRun.ownChunk (r : CollRun) (o : OwnChunk) : Chunk where
  ch := r.ch
  ph := o.ph
  xf := r.xf
  vt := r.vt
  inst := r.inst
  sh := BitVec.ofNat 16 o.sh
  fr := BitVec.ofNat 16 r.rank
  ne := BitVec.ofNat 16 (o.ne - 1)
  eo := BitVec.ofNat 16 o.eo
  data := []

/-! ### One payload flit (R303, R304) -/

/-- Elements of flit k of a chunk. -/
def Chunk.flitCount (c : Chunk) (k : Nat) : Nat := min (perFlit c.xf) (c.count - k * perFlit c.xf)

/-- Elements in a payload flit, and back. -/
def flitElems (xf : Bool) (n : Nat) (d : BitVec 128) : List (BitVec 128) :=
  if xf then [d] else (List.range n).map fun i => (d.extractLsb' (32 * i) 32).setWidth 128
def packElems (xf : Bool) : List (BitVec 128) → BitVec 128
  | [] => 0
  | x :: l => if xf then x else (packElems xf l <<< 32) ||| x

/-- Addresses of this member's contribution to flit k of a chunk. -/
def Tile.contribSpan (t : Tile) (r : CollRun) (c : Chunk) (k : Nat) : List Nat :=
  match r.mode with
  | .sending base => span (base + r.toff + (r.place c + k * perFlit c.xf) * r.e) (c.flitCount k * r.e)
  | _ => span (t.bufs[r.src].front + (r.from_ c + k * perFlit c.xf) * r.e) (c.flitCount k * r.e)

/-- The contribution itself, as elements of the partial, and how many saturate (R304). -/
def Tile.contribElems (t : Tile) (r : CollRun) (c : Chunk) (k : Nat) : List (BitVec 128 × Bool) :=
  let bs := t.readSpm (t.contribSpan r c k)
  (List.range (c.flitCount k)).map fun i =>
    let x := leNat ((bs.drop (i * r.e)).take r.e)
    if r.xf ∧ r.e = 4 then fxOfWord r.win (BitVec.ofNat 32 x) else (BitVec.ofNat 128 x, false)

/-- Addresses of the result of flit k in the destination shadow. -/
def Tile.resultSpan (t : Tile) (r : CollRun) (c : Chunk) (k : Nat) : List Nat :=
  span (t.bufs[r.dst].shadow + r.toff + (r.place c + k * perFlit c.xf) * r.e) (c.flitCount k * r.e)

/-- Bytes of result elements: FX128 partials of F32 contributions are converted back (R304, R339). -/
def CollRun.resultBytesOf (r : CollRun) (xf : Bool) (xs : List (BitVec 128)) : List Byte :=
  xs.flatMap fun x =>
    if xf ∧ r.e = 4 then leBytes 4 (fxWord r.win (if r.div then r.n else 1) x).toNat else leBytes r.e x.toNat

/-- What a flit needs at this member: its contribution read, its result written. -/
def CollRun.reads_ (_ : CollRun) (own : Bool) (c : Chunk) : Bool := own || !c.ph
def CollRun.writes_ (r : CollRun) (c : Chunk) : Bool := !r.sends && (c.ph || r.ends c) && r.writesChunk c

/-- Source and destination let a flit's accesses perform (R190, R191). -/
def Tile.flitReady (t : Tile) (r : CollRun) (own : Bool) (c : Chunk) : Bool :=
  let a := t.bufs[r.src]
  (!r.reads_ own c || r.rdOpen || r.sends || (a.wr == 0 && decide (a.rd.toNat < 15))) &&
    (!r.writes_ c || r.wrOpen || !t.writeBlocked r.dst)

/-- Addresses that a flit reads and writes at this member. -/
def Tile.flitSpans (t : Tile) (r : CollRun) (own : Bool) (c : Chunk) (k : Nat) : List Nat :=
  (if r.reads_ own c then t.contribSpan r c k else []) ++ (if r.writes_ c then t.resultSpan r c k else [])

/-- Payload flit k of a chunk passes through the member: its contribution joins, its result is written, and what goes
on to the successor is answered. `data` is the flit that came in; an own chunk starts with the contribution alone. -/
def Tile.processFlit (t : Tile) (now : Nat) (q : Fin 4) (r : CollRun) (own : Bool) (c : Chunk) (k : Nat) (data : BitVec 128) :
    Tile × BitVec 128 :=
  let n := c.flitCount k
  let rd := r.reads_ own c
  let wr := r.writes_ c
  let x := if rd then t.contribElems r c k else []
  let ins := flitElems c.xf n data
  let joined : List (BitVec 128 × Bool) :=
    if own then x.map fun e => (e.1, false)
    else if rd then (ins.zip x).map fun e => reduceElem c.xf r.rop e.1 e.2.1
    else ins.map fun e => (e, false)
  let fin (e : BitVec 128) : BitVec 128 :=
    if r.ends c && r.div && !(c.xf && r.rop == 0) then divElem c.xf r.rop r.n e else e
  let outs := joined.map fun e => fin e.1
  let sat := (x.filter Prod.snd).length + (joined.filter Prod.snd).length
  let t := if rd then t.countReads r.ctx 0 ((t.contribSpan r c k).map (· / 4)) else t
  let t := if rd && !r.rdOpen && !r.sends then t.setBuf r.src fun b => { b with rd := b.rd + 1 } else t
  let t := if sat = 0 then t else t.count fxSat sat
  let left := r.wrLeft - n * r.e
  let base := t.bufs[r.dst].shadow
  let t := if wr then
      let t := if r.wrOpen then t else t.setBuf r.dst Buffer.beginWrite
      let t := t.writeSpm ((t.resultSpan r c k).zip (r.resultBytesOf c.xf outs))
      if left = 0 then t.setBuf r.dst Buffer.endWrite else t
    else t
  let t := t.setSeq q fun s => s.setRun r.id fun r =>
    { r with rdOpen := r.rdOpen || (rd && !r.sends), wrOpen := if wr then decide (left ≠ 0) else r.wrOpen,
             wrLeft := if wr then left else r.wrLeft, wrBase := if wr then base else r.wrBase, last := now }
  (t, packElems c.xf outs)

/-! ### Sources of flits -/

/-- The route that a chunk takes when it starts: its collective's, as the route table has it (R310). -/
def Tile.chunkRoute (t : Tile) (r : CollRun) : BitVec 64 := if r.sends then r.steer else t.tableView.route r.rt

/-- A chunk that passes on cannot begin: the output has a writer, or the route is BROKEN and a view change will follow (R313). -/
def Tile.chunkStuck (t : Tile) (q : Fin 4) (r : CollRun) (c : Chunk) : Bool :=
  r.passes c && (t.seqs[q].writer.isSome || t.chunkRoute r == brokenRoute)

/-- The chunk begins: its header goes into the output when it passes on. -/
def Tile.beginChunk (t : Tile) (q : Fin 4) (r : CollRun) (c : Chunk) (src : SeqSrc) (ready : Nat) : Tile :=
  if r.passes c then
    let r : CollRun := { r with steer := t.chunkRoute r }
    t.setSeq q fun s => ({ s with writer := some src }.setRun r.id fun x => { x with steer := r.steer }).push ready r true false
      (r.outChunk c).pack
  else t

/-- A flit of the chunk has been processed: it goes out, and the last one frees the output. -/
def Tile.passFlit (t : Tile) (q : Fin 4) (r : CollRun) (c : Chunk) (k now : Nat) (data : BitVec 128) : Tile :=
  if r.passes c then
    let lf := k + 1 == c.flits
    t.setSeq q fun s => { s.push (now + 1) r false lf data with writer := if lf then none else s.writer }
  else t

/-- A received chunk is done. -/
def Tile.chunkDone (t : Tile) (q : Fin 4) (r : CollRun) : Tile := t.setSeq q fun s => s.setRun r.id fun r => { r with need := r.need - 1 }

/-- Chunks that a sequencer holds or is about to hold. -/
def Tile.holding (t : Tile) (q : Fin 4) : Nat :=
  t.seqs[q].held.length + ((List.finRange 6).filter fun i => match t.inR[i].chunk with
    | some x => x.use == .held && t.seqDir x.c.ch == q
    | none => false).length

def Tile.setInR (t : Tile) (i : Fin 6) (f : Input → Input) : Tile := { t with inR := vset t.inR i (f t.inR[i]) }

/-- A chunk header at the head of an input: it is used, held or discarded, or holds its lane back (R305). -/
def execChunkArrival (t : TileId) (i : Fin 6) (s : State) : Out :=
  let x := s.tile t
  match x.inR[i].fifo, x.inR[i].chunk with
  | f :: rest, none =>
    if !f.ff || !emptyRoute f.steer || x.mig.isSome then .next s else
    let c := Chunk.unpack f.data
    let take (x : Tile) (u : ChunkUse) : Tile := x.setInR i fun n => { n with fifo := rest, chunk := some ⟨c, u, 0⟩ }
    match x.chunkUse c with
    | .discarded => .next (s.modTile t fun x => (take x .discarded).count vwStale 1)
    | .held => .next (if 8 ≤ x.holding (x.seqDir c.ch) then s else s.modTile t fun x => take x .held)
    | .used =>
      match x.seqOfRun c.ch c.inst with
      | none => .next s
      | some (q, r) =>
        if x.chunkStuck q r c then .next s
        else .next (s.modTile t fun x => (take x .used).beginChunk q r c (.input i) (s.now + 1))
  | _, _ => .next s

/-- Flits of held and discarded chunks leave their FIFO, one a tick for each input; so do flits of a used chunk that this
member only passes on. -/
def Tile.drainChunk (t : Tile) (now : Nat) (i : Fin 6) : Tile :=
  match t.inR[i].chunk, t.inR[i].fifo with
  | some x, f :: rest =>
    if f.ff then t else
    let step (t : Tile) (keep : List (BitVec 128)) : Tile := t.setInR i fun n =>
      { n with fifo := rest, chunk := if f.lf then none else some { x with done := x.done + 1, c := { x.c with data := keep } } }
    match x.use with
    | .discarded => step t []
    | .held =>
      let c := { x.c with data := x.c.data ++ [f.data] }
      let t := step t c.data
      if f.lf then t.setSeq (t.seqDir c.ch) fun q => { q with held := q.held ++ [c] } else t
    | .used =>
      match t.seqOfRun x.c.ch x.c.inst with
      | none => step t []
      | some (q, r) =>
        if x.c.flits ≤ x.done then step t []
        else if r.reads_ false x.c || r.writes_ x.c then t
        else
          let t := (step t []).passFlit q r x.c x.done now f.data
          if x.done + 1 = x.c.flits then t.chunkDone q r else t
  | _, _ => t

/-- A held chunk that has become usable comes into use, at the sequencer that runs its instance; one that has become stale is
discarded (R305). -/
def Tile.wakeHeld (t : Tile) (now : Nat) (q : Fin 4) : Tile :=
  let dead := t.seqs[q].held.filter fun c => t.chunkUse c == .discarded
  let t := if dead.isEmpty then t
    else (t.setSeq q fun s => { s with held := s.held.filter fun c => !dead.contains c }).count vwStale dead.length
  if t.seqs[q].act.isSome then t else
  match t.seqs[q].held.find? fun c => t.chunkUse c == .used with
  | none => t
  | some c =>
    match t.seqOfRun c.ch c.inst with
    | none => t
    | some (p, r) =>
      if p ≠ q then
        if 8 ≤ t.holding p then t
        else (t.setSeq q fun s => { s with held := s.held.erase c }).setSeq p fun s => { s with held := s.held ++ [c] }
      else if t.chunkStuck q r c then t
      else (t.setSeq q fun s => { s with held := s.held.erase c, act := some (⟨c, .used, 0⟩ : ChunkRx) }).beginChunk q r c .held (now + 1)

/-- The oldest collective with a chunk to start starts it when the output is free (R303). -/
def Tile.startOwn (t : Tile) (now : Nat) (q : Fin 4) : Tile :=
  let s := t.seqs[q]
  if s.own.isSome || s.writer.isSome || t.frozen then t else
  match s.runs.find? fun r => !r.own.isEmpty && !r.queued && t.oldest r with
  | none => t
  | some r =>
    match r.own with
    | [] => t
    | o :: rest =>
      if t.chunkStuck q r (r.ownChunk o) then t else
      let t := t.setSeq q fun s => { s.setRun r.id (fun r => { r with own := rest }) with own := some (r.id, o, 0) }
      t.beginChunk q r (r.ownChunk o) .own (max (now + 1) (r.accepted + 2))

/-- The access that is next in a sequencer's order: the source, its collective, the chunk, the flit. -/
def Tile.seqNext (t : Tile) (now : Nat) (q : Fin 4) : Option (SeqSrc × CollRun × Chunk × Nat × BitVec 128) :=
  let s := t.seqs[q]
  let held := match s.act with
    | some a => match t.seqOfRun a.c.ch a.c.inst with
      | some (_, r) => if t.flitReady r false a.c then some (SeqSrc.held, r, a.c, a.done, a.c.data.getD a.done 0) else none
      | none => none
    | none => none
  let ins := (List.finRange 6).findSome? fun i => match t.inR[i].chunk, t.inR[i].fifo with
    | some x, f :: _ =>
      if x.use != .used || f.ff || decide (x.c.flits ≤ x.done) then none else
      match t.seqOfRun x.c.ch x.c.inst with
      | some (p, r) =>
        if p = q ∧ (r.reads_ false x.c || r.writes_ x.c) ∧ t.flitReady r false x.c then
          some (SeqSrc.input i, r, x.c, x.done, f.data) else none
      | none => none
    | _, _ => none
  let own := match s.own with
    | some (id, o, k) => match s.runs.find? fun r => r.id == id with
      | some r =>
        if r.accepted + 2 ≤ now ∧ t.flitReady r true (r.ownChunk o) then some (SeqSrc.own, r, r.ownChunk o, k, 0) else none
      | none => none
    | none => none
  held.or (ins.or own)

/-- What a sequencer does with the engine port on this tick; an access to a locked bank stops it (R172, R179). -/
def Tile.seqWant (t : Tile) (now : Nat) (q : Fin 4) : Option (SeqSrc × CollRun × Chunk × Nat × BitVec 128) :=
  (t.seqNext now q).filter fun w => !t.locked now (t.flitSpans w.2.1 (w.1 == .own) w.2.2.1 w.2.2.2.1)

/-- A sequencer has the engine port: one payload flit. -/
def Tile.seqGrant (t : Tile) (now : Nat) (q : Fin 4) : Tile :=
  match t.seqWant now q with
  | none => t
  | some (src, r, c, k, d) =>
    let fin := k + 1 == c.flits
    let (t, out) := t.processFlit now q r (src == .own) c k d
    let t := t.passFlit q r c k now out
    match src with
    | .own => t.setSeq q fun s => { s with own := if fin then none else s.own.map fun o => (o.1, o.2.1, k + 1) }
    | .held =>
      let t := t.setSeq q fun s => { s with act := if fin then none else s.act.map fun a => { a with done := k + 1 } }
      if fin then t.chunkDone q r else t
    | .input i =>
      let t := t.setInR i fun n =>
        { n with fifo := n.fifo.drop 1,
                 chunk := if n.fifo.head?.all (·.lf) then none else n.chunk.map fun x => { x with done := k + 1 } }
      if fin then t.chunkDone q r else t

/-! ### Completion (R306) -/

/-- Nothing of the instance is left to do, and its latest event lies before this tick. -/
def Seq.finished (q : Seq) (now : Nat) (r : CollRun) : Bool :=
  !r.queued && r.own.isEmpty && !(q.own.any fun o => o.1 == r.id) && r.need == 0 && r.outn == 0 && r.wrLeft == 0 && r.portLeft == 0 &&
    decide (r.last < now)

/-- Collectives of one swarm complete in the order in which they started (R211, R306). -/
def Tile.mayComplete (t : Tile) (r : CollRun) : Bool :=
  (List.finRange 4).all fun q => t.seqs[q].runs.all fun p => p.sw != r.sw || p.sends || r.sends || decide (r.id ≤ p.id)

/-- The source read and the destination write of an instance end. -/
def Tile.closeRun (t : Tile) (r : CollRun) : Tile :=
  let t := if r.rdOpen then t.setBuf r.src fun b => { b with rd := b.rd - 1 } else t
  if r.wrOpen then t.setBuf r.dst Buffer.endWrite else t

/-- A collective completes at a member (R306): its source leaves DRAINING, its counter falls. -/
def execCollectiveComplete (t : TileId) (ch : Fin 256) (inst : BitVec 16) (s : State) : Out :=
  let x := s.tile t
  match x.seqOfRun ch inst with
  | none => .next s
  | some (q, r) =>
    if !(x.seqs[q].finished s.now r && x.mayComplete r) then .next s else
    .next (s.modTile t fun x =>
      let x := (x.closeRun r).setSeq q fun p => { p with runs := p.runs.filter fun (y : CollRun) => y.id != r.id }
      let d : CollDone := ⟨ch, inst, r.sw, r.vt, r.wrBase, r⟩
      let x : Tile := { x with colls := (d :: x.colls).take 64 }
      x.retire r.id true)

/-! ### Discards of a view change (R337, R338) -/

/-- Payload flits of a chunk in the output that has begun but not been formed whole are filled with zeros: the chunk
keeps its length, and its old tag discards it at the successor. -/
def Tile.fillOut (t : Tile) (q : Fin 4) (r : CollRun) (c : Chunk) (done now : Nat) : Tile :=
  if r.passes c then
    (List.range (c.flits - done)).foldl (fun t i => t.passFlit q r c (done + i) now 0) t
  else t

/-- Whole chunks of an instance that have not begun to leave are dropped from the output. -/
def dropChunks (id : Nat) : Bool → List SeqFlit → List SeqFlit
  | _, [] => []
  | keep, f :: l =>
    if f.run ≠ id then f :: dropChunks id keep l
    else if f.flit.ff then dropChunks id false l
    else if keep then f :: dropChunks id keep l else dropChunks id keep l

/-- Whole chunks of an instance in an output; the one that its writer is still forming is not among them. -/
def Seq.waiting (s : Seq) (id : Nat) : Nat :=
  let heads := s.out.filter fun f => f.flit.ff
  (heads.filter fun f => f.run == id).length - (s.writer.isSome && heads.getLast?.any fun f => f.run == id).toNat

/-- The partials of an instance are discarded: what is in use, in progress or waiting to leave; each chunk counts (R337, R338). A held
chunk of a newer tag stays held for its view (R336). -/
def Tile.discardRun (t : Tile) (now : Nat) (q : Fin 4) (r : CollRun) : Tile :=
  let whole := t.seqs[q].waiting r.id
  let t := if whole = 0 then t else t.count vwStale whole
  let mine (c : Chunk) : Bool := c.ch == r.ch && c.inst == r.inst
  let t := match t.seqs[q].act with
    | some a => if mine a.c then
        (t.fillOut q r a.c a.done now).setSeq q (fun s => { s with act := none }) |>.count vwStale 1 else t
    | none => t
  let t := match t.seqs[q].own with
    | some (id, o, k) => if id = r.id then
        (t.fillOut q r (r.ownChunk o) k now).setSeq q (fun s => { s with own := none }) |>.count vwStale 1 else t
    | none => t
  let t := (List.finRange 6).foldl (fun t i => match t.inR[i].chunk with
    | some x =>
      if mine x.c && x.use == .used then
        ((t.fillOut q r x.c x.done now).setInR i fun n => { n with chunk := some { x with use := .discarded } }).count vwStale 1
      else t
    | none => t) t
  let old (c : Chunk) : Bool := mine c && !older16 r.vt c.vt
  let held := t.seqs[q].held.filter old
  let t := if held.isEmpty then t
    else (t.setSeq q fun s => { s with held := s.held.filter fun c => !old c }).count vwStale held.length
  t.setSeq q fun s =>
    let out := dropChunks r.id true s.out
    let left := (out.filter fun (f : SeqFlit) => f.run == r.id).length
    let s : Seq := { s with out := out }
    s.setRun r.id fun r => { r with outn := left }

end Sys2Proof.Machine
end

