-- ==== Sys2Proof/Machine/ChannelEngine.lean ====
section
/-! DEFINITION. The channel engine: the head of the channel queue (R271, R289 to R299, R342), messages in transmission,
messages that arrive on lane C (R286, R288, R290 to R295, R348), comb-address transfers (R236). -/

namespace Sys2Proof.Machine

/-! ### The head of the channel queue -/

/-- What the head of the channel queue does on a tick. -/
inductive ChanOut where
  | wait
  | fault (f : Cause)
  | start
  deriving DecidableEq, Repr

/-- The head when its guard is resolved and it may start (R271). -/
def Tile.chanHead (t : Tile) (now : Nat) : Option ChCmd :=
  match t.chq with
  | c :: _ => if !c.guard.pending && decide (c.tick + 3 ≤ now) && !t.frozen then some c else none
  | [] => none

/-- MSZ of an entry, in bytes. -/
def Chan.bytes (c : Chan) : Nat := (c.msz.toNat + 1) * 4

/-- Messages in transmission that count towards eight: those of SEND and SENDR. -/
def Tile.sending (t : Tile) : Nat := (t.tx.filter fun m => m.ch.isSome && decide (0 < m.size)).length

/-- SEND or SENDR at the head (R289, R293, R307). -/
def Tile.sendHead (t : Tile) (now : Nat) (q : ChCmd) (m : MsgOps) (fx : Bool) : ChanOut :=
  let e := t.chan m.ch
  let b := t.bufs[m.buf]
  if !e.p2p then .fault (causeSchedule 7 m.ch.val 0)
  else match bufferCause 7 b m.buf (· == .filling) with
  | some f => .fault f
  | none =>
    if e.bytes > b.s then .fault (causeCopy 7 5 0 0)
    else if fx && decide (8192 < e.bytes) then .fault (causeCopy 7 9 0 0)
    else if q.has && decide (q.credAt < now) && decide (t.sending < 8) && b.rd != 15 then .start else .wait

/-- Roster position of a tile in a swarm (R330, R331): its own, or its wafer's when it is the anchor. -/
def State.rosterIndex (s : State) (w : Swarm) (t : TileId) : Option Nat :=
  if w.lvl then
    if w.ax.toNat = tileX t ∧ w.ay.toNat = tileY t then w.roster.findIdx? fun e => e.toNat % 65536 == s.ctl.wafid.toNat % 65536
    else none
  else w.roster.findIdx? fun e => e.toNat % 512 == tileX t && e.toNat / 65536 % 512 == tileY t

def present (e : Word) : Bool := e.getLsbD 31
def joining (e : Word) : Bool := e.getLsbD 30

/-- VWJOIN or VWLEAVE at the head: the roster position, and whether the tile is present (R342). -/
def State.viewHead (s : State) (t : TileId) (sw : Fin 256) : Option (Nat × Bool) :=
  match s.swarm sw with
  | some w => if w.v then (s.rosterIndex w t).map fun i => (i, present (w.roster.getD i 0)) else none
  | none => none

/-- The firmware gap in which advances wait in the input queue (R408): the queen core is being replaced. -/
def Firmware.gap (f : Firmware) : Bool :=
  match f.watchdog with
  | some (_, none) => true
  | _ => false

/-- Entries of a ring that the array has claimed on this tick: RGPOP's checks see them from the next (R298). -/
def Tile.freshClaim (t : Tile) (now : Nat) (rg : Fin 8) : Nat :=
  match t.mxRun with
  | some r => if r.start = now && (t.mxq.any fun c => c.id == r.id && (c.op.timed.map Prod.snd) == some rg) then r.entries else 0
  | none => 0

/-- A message of a channel from this tile is still on its way: queued for transmission, on the links or in a FIFO, or being
delivered. -/
def State.underWay (s : State) (t : TileId) (ch : Fin 256) : Bool :=
  let mine (w : BitVec 128) : Bool := let h := Header.unpack w; h.kd != 3 && h.ch == ch.val && h.sender == t
  (s.tile t).tx.any (fun m => m.ch == some ch) || s.tiles.any fun e => (List.finRange 6).any fun i =>
    (e.2.inC[i].fifo ++ e.2.inC[i].wire.map Prod.snd).any (fun f => f.ff && mine f.data) || e.2.inC[i].rx.any fun m => mine m.head

/-- After its route was rewritten, a channel's next message waits for those on the old one, so that it cannot overtake them
(R210, R218). -/
def State.routeHeld (s : State) (t : TileId) (x : Tile) : ChOp → Bool
  | .send m | .sendr m _ => (x.chan m.ch).hold && s.underWay t m.ch
  | .sig ch _ _ => (x.chan ch).hold && s.underWay t ch
  | _ => false

/-- A command at the head: its faults, its waits (R307). RGADV and RGPOP of no entries retire before their wait, RGADV checks for room
after its wait (R297, R298): DESIGN CHOICE, log 88. On the tick on which the array claims entries RGPOP does not see the claim; it pops
entries behind them, and waits when there are too few, so that none is both claimed and popped: DESIGN CHOICE, log 33. -/
def State.chanCheck (s : State) (t : TileId) (x : Tile) (q : ChCmd) : ChanOut :=
  match q.op with
  | .send m => x.sendHead s.now q m false
  | .sendr m op => x.sendHead s.now q m (op == .addFx128)
  | .sig ch _ _ =>
    if !(x.chan ch).p2p then .fault (causeSchedule 7 ch.val 0)
    else if q.has && decide (q.credAt < s.now) then .start else .wait
  | .recv m =>
    let e := x.chan m.ch
    if !e.p2p then .fault (causeSchedule 7 m.ch.val 0)
    else if !x.bufs[m.buf].v then .fault (causeBuffer 7 m.buf.val x.bufs[m.buf].state false 0)
    else if 4 ≤ e.arm.length then .fault (causeOverflow 7 9 m.ch.val) else .start
  | .coll m =>
    match x.queuedRun q.id with
    | some p => if x.seqFull p then .wait else .start
    | none =>
      match x.collCause m.ch m.buf with
      | some f => .fault f
      | none => if x.collWaits m.ch m.buf then .wait else .start
  | .rgadv rg n =>
    let r := x.rings[rg]
    if !r.v then .fault (causeSchedule 7 rg.val 1)
    else if n = 0 then .start
    else if r.infl ≠ 0 then .wait
    else if n.toNat > r.free then .fault (causeOverflow 7 8 rg.val) else .start
  | .rgpop rg n =>
    let r := x.rings[rg]
    if !r.v then .fault (causeSchedule 7 rg.val 1)
    else if n = 0 then .start
    else if r.claimed ≠ x.freshClaim s.now rg then .wait
    else if n.toNat > r.cnt.toNat then .fault (causeOverflow 7 8 rg.val)
    else if n.toNat + r.claimed > r.cnt.toNat then .wait else .start
  | .tlsig _ _ => if s.fw.gap && decide (4096 ≤ s.fw.inq.length) then .wait else .start
  | .vwjoin sw =>
    match s.viewHead t sw with
    | none => .fault (causeSchedule 7 sw.val 3)
    | some _ => .start
  | .vwleave sw =>
    match s.viewHead t sw with
    | none => .fault (causeSchedule 7 sw.val 3)
    | some (_, false) => .start
    | some (_, true) =>
      if (List.finRange 4).any fun p => x.seqs[p].runs.any fun r => r.sw == sw && !r.sends then .wait else .start

/-- The optical port a channel ends at (R348). -/
def Chan.peerPort (c : Chan) : Option (Fin 16) := if c.px.toNat = 511 then some (Fin.ofNat 16 c.py.toNat) else none

/-- A message of a channel command as it starts (R288, R289, R295). -/
def Tile.chanMsg (t : Tile) (me : TileId) (now : Nat) (q : ChCmd) (ch : Fin 256) (kd rop sem inc : Nat) (buf : Option (Fin 32))
    (len size : Nat) (fx : Option Byte) : TxMsg where
  id := q.id
  ctx := some q.ctx
  ch := some ch
  steer := t.route (t.chan ch).rt
  port := (t.chan ch).peerPort
  head := ({ ch := ch.val, sx := tileX me, sy := tileY me, kd := kd, rop := rop, len := size - 1, sem := sem, inc := inc,
             ck := 0, cof := 0 : Header }).pack
  buf := buf
  src := 0
  len := len
  rd := 0
  fx := fx
  data := []
  size := size
  sent := 0
  start := now
  org := some ⟨me, q.ctx, q.id, mkTile (t.chan ch).px.toNat (t.chan ch).py.toNat, t.route (t.chan ch).rt⟩
  held := false
  open_ := false
  final := true

/-- A message starts: it takes its route word (R310), and its credit is out (R273). -/
def Tile.startMsg (t : Tile) (q : ChCmd) (ch : Fin 256) (m : TxMsg) : Tile :=
  let t := (t.noteTable q.ctx (routeOff (t.chan ch).rt.val) 8).useWindow (some q.ctx) ch
  { t.setChan ch (fun c => { c with rsv := c.rsv - 1, inf := c.inf + 1, out := c.out ++ [q.ctx], hold := false }) with tx := t.tx ++ [m] }

/-- Latest due tick of the advances of one context. -/
def State.lastAdvance (s : State) (t : TileId) (c : Fin 4) : Nat :=
  s.advances.foldl (fun m a => if a.src = some (t, c) then max m a.due else m) 0

/-- TLSIG: an advance leaves for the queen core (R296, R366, R408). -/
def State.sendAdvance (s : State) (t : TileId) (c : Fin 4) (tl : Fin 1024) (amount : Word) : State :=
  let due := max (s.lastAdvance t c) (s.now + 1 + Config.advanceLatency s.free % 1024)
  let a : Advance := ⟨tl, amount.setWidth 64, due, some (t, c)⟩
  let s := s.bump.modCtx t c fun x => { x with tlOut := x.tlOut + 1 }
  if s.fw.gap then { s with fw := { s.fw with inq := s.fw.inq ++ [(some a, none)] } }
  else { s with advances := s.advances ++ [a] }

/-- VWJOIN and VWLEAVE take effect (R342); they retire when the view they ask for installs. -/
def State.viewEffect (s : State) (t : TileId) (q : ChCmd) (sw : Fin 256) (join : Bool) : State :=
  match s.viewHead t sw with
  | none => s
  | some (i, pr) =>
    if pr = join then s.modTile t fun x => x.retire q.id true
    else
      let s := s.modSwarm sw.val fun w =>
        if join then { w with roster := w.roster.set i (w.roster.getD i 0 ||| 0x40000000) }
        else { w with leave := w.leave ++ [i] }
      let s := match s.swarm sw with
        | some w => if w.lvl then s.frame sw (s.assisted fnWaggle) (if join then .join sw else .leave sw) else s
        | none => s
      s.modTile t fun x =>
        { x with vwWait := x.vwWait ++ [(q.id, q.ctx, sw, join)],
                 views := x.views.map fun v => if join && v.v && v.sw == sw then { v with jp := true } else v }

/-- A COLL leaves the head when a sequencer accepts it; every other command that starts leaves it at once (R271, R299). -/
def ChOp.isColl : ChOp → Bool
  | .coll _ => true
  | _ => false

/-- A command starts or takes effect (R271). -/
def State.chanStart (s : State) (t : TileId) (q : ChCmd) : State :=
  let s := if q.op.isColl then s else s.modTile t fun x => { x with chq := x.chq.filter fun d => d.id != q.id }
  let x := s.tile t
  match q.op with
  | .send m =>
    let n := (x.chan m.ch).bytes
    s.modTile t fun x => x.startMsg q m.ch (x.tableView.chanMsg t s.now q m.ch 0 0 0 0 (some m.buf) n n none)
  | .sendr m op =>
    let n := (x.chan m.ch).bytes
    let fx := op == .addFx128
    s.modTile t fun x => x.startMsg q m.ch (x.tableView.chanMsg t s.now q m.ch 1 op.code 0 0 (some m.buf) n (if fx then 4 * n else n)
      (if fx then some (x.chan m.ch).win else none))
  | .sig ch sem inc =>
    s.modTile t fun x => (x.startMsg q ch (x.tableView.chanMsg t s.now q ch 2 0 sem.val inc.toNat none 0 0 none)).retire q.id true
  | .recv m => s.modTile t fun x => x.setChan m.ch fun c => { c with arm := c.arm ++ [(m.buf, q.id, q.ctx)] }
  | .coll m => s.modTile t fun x =>
      (if (x.queuedRun q.id).isSome then x else x.passColl q m.ch m.buf s.now).acceptColl q.id s.now
  | .rgadv rg n => s.modTile t fun x =>
      (x.setRing rg fun r => { r with tail := BitVec.ofNat 8 ((r.tail.toNat + n.toNat) % r.e),
                                      cnt := r.cnt + n.setWidth 9 }).retire q.id true
  | .rgpop rg n => s.modTile t fun x => (x.setRing rg fun r => r.pop n.toNat).retire q.id true
  | .tlsig tl v => (s.sendAdvance t q.ctx tl v).modTile t fun x => x.retire q.id true
  | .vwjoin sw => s.viewEffect t q sw true
  | .vwleave sw => s.viewEffect t q sw false

/-- A fault at the head (R273, R307): the command leaves with no change; its credit, which another command may be given, and its counter
return. -/
def State.chanFault (s : State) (t : TileId) (q : ChCmd) (f : Cause) : State :=
  (s.modTile t fun x =>
    (({ x with chq := x.chq.filter fun d => d.id != q.id } : Tile).dropCredit s.now q).retire q.id true).headFault t q.ctx 2 f q.fpc

/-- The table entries that a channel-queue command reads at the head: offset and bytes. -/
def Tile.entries (t : Tile) : ChOp → List (Nat × Nat)
  | .send m | .sendr m _ | .recv m => [(chanOff m.ch.val, 16), (bufOff m.buf.val, 16)]
  | .coll m =>
    let c := t.chan m.ch
    [(chanOff m.ch.val, 16), (routeOff c.rt.val, 8), (bufOff m.buf.val, 16), (bufOff c.tgt.toNat, 16)] ++
      ((t.views.findIdx? fun v => v.v && v.sw == c.sw).map fun k => (viewOff k, 16)).toList
  | .sig ch _ _ => [(chanOff ch.val, 16)]
  | .rgadv rg _ | .rgpop rg _ => [(ringOff rg.val, 8)]
  | _ => []

/-- The head of the channel queue is checked and starts, takes effect, faults or waits (R271). -/
def execChannelQueueStart (t : TileId) (s : State) : Out :=
  match (s.tile t).chanHead s.now with
  | none => .next s
  | some q =>
    match q.guard.overflow with
    | some f => .next ((s.modTile t fun x =>
        ({ x with chq := x.chq.filter fun (k : ChCmd) => k.id != q.id }).retire q.id false).headFault t q.ctx 2 f q.fpc)
    | none =>
    let s := s.modTile t fun x => (x.entries q.op).foldl (fun x e => x.noteTable q.ctx e.1 e.2) x
    match s.chanCheck t (s.tile t).tableView q with
    | .wait => .next s
    | .fault f => .next (s.chanFault t q f)
    | .start => if s.routeHeld t (s.tile t) q.op then .next s else .next (s.chanStart t q)

/-! ### Messages in transmission (R289) -/

/-- Source addresses of the next bank row that a message reads. -/
def Tile.txRow (t : Tile) (m : TxMsg) : List Nat :=
  let at_ := m.src + m.rd
  match m.buf with
  | some b => span (t.bufs[b].front + at_) (min (128 - at_ % 128) (m.len - m.rd))
  | none => (List.range (min (128 - spmAddr at_ % 128) (m.len - m.rd))).map fun i => t.combByte (at_ + i)

/-- Payload bytes per source byte. -/
def TxMsg.scale (m : TxMsg) : Nat := if m.fx.isSome then 4 else 1

/-- A message reads its source at most 8 bank rows ahead of its flits (R289). -/
def Tile.txWants (t : Tile) (now : Nat) (m : TxMsg) : Bool :=
  decide (m.rd < m.len) && decide (m.start ≤ now) &&
    decide (m.data.length + m.scale * (t.txRow m).length ≤ m.scale * 1024) &&
    (m.open_ || m.buf.all fun b => t.bufs[b].wr == 0 && decide (t.bufs[b].rd.toNat < 15))

/-- The read of a CPYO by comb address is one engine read over its messages. -/
def Tile.cpyoOpen (t : Tile) (m : TxMsg) : Bool := m.ch.isNone && t.flights.any fun f => f.id == m.id && f.open_

/-- Source bytes as payload: F32 elements of SENDR.ADD.FX128 enter FX128 (R293). -/
def TxMsg.payload (m : TxMsg) (bs : List Byte) : List Byte × Nat :=
  match m.fx with
  | none => (bs, 0)
  | some w =>
    let xs := (List.range (bs.length / 4)).map fun i => fxOfWord w (leWord ((bs.drop (4 * i)).take 4))
    (xs.flatMap fun x => leBytes 16 x.1.toNat, (xs.filter Prod.snd).length)

/-- A message has the engine port: one bank row of its source. -/
def Tile.txGrant (t : Tile) (m : TxMsg) : Tile :=
  let as := t.txRow m
  let (bs, sat) := m.payload (t.readSpm as)
  let fin := decide (m.rd + as.length ≥ m.len)
  let cont := m.open_ || t.cpyoOpen m
  let t := match m.ctx with
    | some c => t.countReads c 0 (as.map (· / 4))
    | none => t.noteReads 0 (as.map (· / 4))
  let t := if sat = 0 then t else t.count fxSat sat
  let t := match m.buf with
    | some b =>
      let t := if cont then t else t.setBuf b fun b => { b with rd := b.rd + 1 }
      if fin && m.final then t.setBuf b fun b => { b with rd := b.rd - 1 } else t
    | none => t
  { t with tx := t.tx.map fun x =>
             if x = m then { x with rd := m.rd + as.length, data := m.data ++ bs, open_ := true } else x,
           flights := t.flights.map fun f => if m.ch.isNone && m.buf.isSome && f.id == m.id then { f with open_ := true } else f }

/-- Scratchpad bytes are read for a command of another tile: an uncorrectable word among them sets `ERR` of its context (R110, R204). -/
def State.errFor (s : State) (t : TileId) (o : Option Origin) (as : List Nat) : State :=
  match o with
  | none => s
  | some o => if ((s.tile t).upsetWords 0 true (as.map fun a => spmAddr a / 4)).isEmpty then s else s.modCtx o.tile o.ctx Context.setErr

/-- The same for the bank row that a message with read data is about to read. -/
def State.errAsker (s : State) (t : TileId) (m : TxMsg) : State := if m.ctx.isSome then s else s.errFor t m.org ((s.tile t).txRow m)

/-- The next flit of a message, when it may enter the link. -/
def TxMsg.next (m : TxMsg) (now : Nat) : Option Flit :=
  if now < m.start || m.held then none
  else if m.sent = 0 then some ⟨.c, true, m.size == 0, m.head, m.steer, m.port, m.org⟩
  else
    let left := m.size - 16 * (m.sent - 1)
    if m.sent > flitsOf m.size ∨ m.data.length < min 16 left then none
    else some ⟨.c, false, decide (left ≤ 16), BitVec.ofNat 128 (leNat (m.data.take 16)), m.steer, m.port, m.org⟩

/-- Comb-address messages from a tile on their way: where each goes, and the route with which it started. -/
def State.combAhead (s : State) (t : TileId) : List (TileId × BitVec 64) :=
  let one (w : BitVec 128) (o : Option Origin) : Option (TileId × BitVec 64) :=
    let h := Header.unpack w
    if h.kd == 3 && h.sender == t then o.map fun o => (o.goal, o.path) else none
  s.tiles.flatMap fun e => (List.finRange 6).flatMap fun i =>
    ((e.2.inC[i].fifo ++ e.2.inC[i].wire.map Prod.snd).filterMap fun f => if f.ff then one f.data f.org else none) ++
    (e.2.inC[i].rx.bind fun m => one m.head m.org).toList

/-- Comb-address messages to a tile wait for those ahead of them on another route (R215, R218; log 86). -/
def holdTx (ahead : List (TileId × BitVec 64)) : List TxMsg → List TxMsg
  | [] => []
  | m :: l =>
    match m.ch, m.org with
    | none, some o =>
      { m with held := m.sent == 0 && ahead.any fun a => a.1 == o.goal && a.2 != o.path } ::
        holdTx (if decide (flitsOf m.size < m.sent) then ahead else (o.goal, o.path) :: ahead) l
    | _, _ => m :: holdTx ahead l

def State.holdComb (s : State) (t : TileId) : State :=
  if (s.tile t).tx.any fun m => m.ch.isNone && m.sent == 0 then
    let ahead := s.combAhead t
    s.modTile t fun x => { x with tx := holdTx ahead x.tx }
  else s

def TxMsg.advance (m : TxMsg) : TxMsg :=
  { m with data := if m.sent = 0 then m.data else m.data.drop 16, sent := m.sent + 1 }

/-- Its last flit has entered the link. -/
def TxMsg.done (m : TxMsg) : Bool := decide (flitsOf m.size < m.sent)

/-- A message's last flit enters the link: a SEND or SENDR retires (R289), the last message of a CPYO ends its flight
(R236). -/
def execMessageTransmitted (t : TileId) (id : Nat) (s : State) : Out :=
  let x := s.tile t
  match x.tx.find? fun m => m.id == id && m.done with
  | none => .next s
  | some m =>
    .next (s.modTile t fun x =>
      let x := { x with tx := x.tx.erase m }
      if m.ch.isSome then x.retire id true
      else if m.final && m.buf.isSome then
        { x with flights := x.flights.map fun f => if f.id = id then { f with done := f.len } else f }
      else x)

/-! ### Credits on their way back (R274) -/

/-- The entry names a sender as its peer (R286). -/
def Chan.namesTile (c : Chan) (sender : TileId) : Bool := c.p2p && c.px.toNat == tileX sender && c.py.toNat == tileY sender
def Chan.names (c : Chan) (h : Header) : Bool := c.p2p && c.px.toNat == h.sx && c.py.toNat == h.sy

/-- Latency of a credit back to a sender: over the returning tile's own entry where it leads there, else over the way back (log 16). -/
def State.creditLatency (s : State) (t : TileId) (sender : TileId) (ch : Fin 256) (port : Option (Fin 16)) : Nat :=
  let x := s.tile t
  match port with
  | some _ => s.routeLatency sender ((s.tile sender).route ((s.tile sender).chan ch).rt)
  | none =>
    if (x.chan ch).namesTile sender then s.routeLatency t (x.route (x.chan ch).rt)
    else s.routeLatency t (s.routeTo t sender)

/-- A credit is on its way to a sender, a tile or a port (R274). -/
def State.returnCredit (s : State) (t : TileId) (sender : TileId) (ch : Fin 256) (port : Option (Fin 16)) : State :=
  let due := s.now + s.creditLatency t sender ch port
  if tileX sender = 511 then s.modPort (Fin.ofNat 16 (tileY sender)) fun p => { p with sigCredits := p.sigCredits ++ [due] }
  else s.modTile sender fun x => { x with credits := x.credits ++ [⟨due, ch⟩] }

/-- A credit leaves for the sender of a message, or is owed while the tile is MIGRATING: it then leaves as the tile resumes, from its new
place (R274, R322). -/
def State.sendCredit (s : State) (t : TileId) (h : Header) (port : Option (Fin 16)) : State :=
  let ch : Fin 256 := Fin.ofNat 256 h.ch
  if port.isNone && (s.tile t).mig.isSome then s.modTile t fun x => { x with owed := x.owed ++ [(h.sender, ch)] }
  else s.returnCredit t h.sender ch port

/-! ### Messages that arrive (R275, R286, R290) -/

def Tile.setInC (t : Tile) (i : Fin 6) (f : Input → Input) : Tile := { t with inC := vset t.inC i (f t.inC[i]) }

/-- The target of a SEND or SENDR on the tick of its first payload flit (R290): held, dropped, a ring, or a buffer and an
offset, with the armed receive it consumes. -/
inductive RxTarget where
  | wait
  | drop (arm : Option Nat)
  | ring (r : Fin 8)
  | buf (b : Fin 32) (off : Nat) (arm : Option Nat)
  deriving DecidableEq, Repr

def Tile.rxTarget (t : Tile) (h : Header) : RxTarget :=
  let c := t.chan (Fin.ofNat 256 h.ch)
  let region (b : Fin 32) (off : Nat) (arm : Option Nat) : RxTarget :=
    let x := t.bufs[b]
    if !x.v || decide (off + h.payload > x.s) then .drop arm
    else if t.writeBlocked b then .wait else .buf b off arm
  match c.arm with
  | (b, id, _) :: _ => region b 0 (some id)
  | [] =>
    if c.tk then region (Fin.ofNat 32 c.tgt.toNat) (c.toff.toNat * 4) none
    else
      let r : Fin 8 := Fin.ofNat 8 c.tgt.toNat
      if !t.rings[r].v || decide (t.rings[r].z < h.payload) || h.kd == 1 then .drop none
      else if t.rings[r].free = 0 then .wait else .ring r

/-- Scratchpad addresses of the next payload flit of a message being written. -/
def Tile.rxSpan (t : Tile) (m : RxMsg) (n : Nat) : List Nat :=
  match m.ring, m.buf with
  | some (r, e), _ => span (t.rings[r].at_ e + m.done) n
  | none, some (b, off) => span (t.bufs[b].shadow + off + m.done) n
  | none, none => []

/-- Bytes in the next payload flit. -/
def RxMsg.bytes (m : RxMsg) (h : Header) : Nat := min 16 (h.payload - m.done)

/-- A message takes its target: the armed receive is consumed, a ring entry reserved, an engine write begun. -/
def Tile.rxBegin (t : Tile) (i : Fin 6) (h : Header) (g : RxTarget) : Tile :=
  let ch : Fin 256 := Fin.ofNat 256 h.ch
  let disarm (t : Tile) (arm : Option Nat) : Tile := if arm.isSome then t.setChan ch fun c => { c with arm := c.arm.drop 1 } else t
  let put (t : Tile) (f : RxMsg → RxMsg) : Tile := t.setInC i fun n => { n with rx := n.rx.map f }
  match g with
  | .wait => t
  | .drop arm => (put (disarm t arm) fun m => { m with started := true, drop := true, arm := arm }).count badData 1
  | .ring r =>
    let e := t.rings[r].tail.toNat
    let id := t.nextId
    let t := { t.setRing r (fun x => x.reserve id 1) with nextId := id + 1 }
    put t fun m => { m with started := true, ring := some (r, e), fill := id }
  | .buf b off arm =>
    put ((disarm t arm).setBuf b Buffer.beginWrite) fun m => { m with started := true, buf := some (b, off), arm := arm }

/-- Elements of a payload flit combined with the shadow (R292 to R294); how many saturate. -/
def reduceBytes (op : Nat) (old new : List Byte) : List Byte × Nat :=
  if op = rAddFx then
    let r := fxAdd (BitVec.ofNat 128 (leNat old)) (BitVec.ofNat 128 (leNat new))
    (leBytes 16 r.1.toNat, r.2.toNat)
  else
    ((List.range (new.length / 4)).flatMap fun i =>
      leBytes 4 (reduceWord op (leWord ((old.drop (4 * i)).take 4)) (leWord ((new.drop (4 * i)).take 4))).toNat, 0)

/-- The payload flit at the head of an input is written or reduced into the target (R290, R294). -/
def Tile.rxWrite (t : Tile) (m : RxMsg) (h : Header) (f : Flit) : Tile :=
  let n := m.bytes h
  let as := t.rxSpan m n
  let new := (leBytes 16 f.data.toNat).take n
  if h.kd = 1 then
    let t := t.noteReads 0 (as.map (· / 4))
    let r := reduceBytes h.rop (t.readSpm as) new
    (if r.2 = 0 then t else t.count fxSat r.2).writeSpm (as.zip r.1)
  else t.writeSpm (as.zip new)

/-- A message has been written or dropped whole: its write ends, its armed receive retires, its credit returns (R274,
R291). -/
def State.rxEnd (s : State) (t : TileId) (i : Fin 6) (m : RxMsg) (h : Header) : State :=
  (s.modTile t fun x =>
    let x := match m.ring, m.buf with
      | some (r, _), _ => x.setRing r fun y => y.endFill m.fill
      | none, some (b, _) => x.setBuf b Buffer.endWrite
      | none, none => x
    let x := match m.arm with
      | some id => x.retire id true
      | none => x
    x.setInC i fun n => { n with rx := none }).sendCredit t h m.port

/-- A header leaves the FIFO and becomes the message being delivered. Its place is free from then on, so that of a message that is held
16 payload flits fit behind it: DESIGN CHOICE, log 87 (R275). -/
def Tile.rxOpen (t : Tile) (i : Fin 6) (f : Flit) (drop : Bool) : Tile :=
  t.setInC i fun n => { n with fifo := n.fifo.drop 1, rx := some ⟨f.data, f.port, none, none, [], drop, drop, none, 0, 0, f.org⟩ }

/-- The message at an input moves by one flit: its header is checked (R286), or its next payload flit is taken. A header that is the
last flit too, as a SIG's becomes when its check fails, ends its message (R287). -/
def messageFlit (t : TileId) (i : Fin 6) (s : State) : Out :=
  let x := s.tile t
  match x.inC[i].fifo with
  | [] => .next s
  | f :: _ =>
    match x.inC[i].rx with
    | none =>
      if !f.ff then .next (s.modTile t fun x => x.setInC i fun n => { n with fifo := n.fifo.drop 1 }) else
      let h := Header.unpack f.data
      let ok := f.port.isNone && (x.tableView.chan (Fin.ofNat 256 h.ch)).names h
      let s := s.modTile t fun x => (x.rxOpen i f !ok).readTable (chanOff h.ch) 16
      let s := match f.port with
        | some p => s.modPort p fun p => p.count pBad 1
        | none => if ok then s else s.modTile t fun x => x.count badData 1
      .next (if f.lf then (s.modTile t fun x => x.setInC i fun n => { n with rx := none }).sendCredit t h f.port else s)
    | some m =>
      let h := Header.unpack m.head
      let pop (x : Tile) (k : Nat) : Tile := x.setInC i fun n =>
        { n with fifo := n.fifo.drop 1, rx := n.rx.map fun m => { m with done := m.done + k } }
      let s := if m.started then s else s.modTile t fun x => x.rxBegin i h (x.tableView.rxTarget h)
      match (s.tile t).inC[i].rx with
      | none => .next s
      | some m =>
        if !m.started then .next s else
        let s := if h.kd = 1 ∧ !m.drop then s.errFor t m.org ((s.tile t).rxSpan m (m.bytes h)) else s
        let s := s.modTile t fun x => pop (if m.drop then x else x.rxWrite m h f) (m.bytes h)
        .next (if f.lf then s.rxEnd t i m h else s)

/-- A SEND message is written into its target (R290). -/
def execSendArrival (t : TileId) (i : Fin 6) (s : State) : Out := messageFlit t i s
/-- A SENDR message is reduced, flit by flit, into the target shadow (R294). -/
def execSendrArrival (t : TileId) (i : Fin 6) (s : State) : Out := messageFlit t i s

/-! ### Signals (R295, R348, R363, R364) -/

/-- A semaphore increment, saturating; a clip counts once a tick for a semaphore (R364). -/
def Tile.addSem (t : Tile) (k : Fin 16) (inc : Nat) : Tile :=
  let v := t.sems[k].toNat + inc
  if v ≤ 0xFFFF then { t with sems := vset t.sems k (BitVec.ofNat 16 v) }
  else
    let t := if t.semClip.getLsbD k.val then t else t.event 0x12 1
    { t with sems := vset t.sems k 0xFFFF, semClip := t.semClip ||| (1#16 <<< k.val) }

/-- The header of a SIG is taken from its input. -/
def State.takeSig (s : State) (t : TileId) (i : Fin 6) : Option (Flit × Header × State) :=
  match (s.tile t).inC[i].fifo with
  | f :: rest => some (f, Header.unpack f.data, s.modTile t fun x => x.setInC i fun n => { n with fifo := rest })
  | [] => none

/-- A SIG's increment is added, or the SIG is dropped by R286; its credit returns (R295). -/
def execSigArrival (t : TileId) (i : Fin 6) (s : State) : Out :=
  match s.takeSig t i with
  | none => .next s
  | some (_, h, s) =>
    let ok := ((s.tile t).tableView.chan (Fin.ofNat 256 h.ch)).names h
    let s := s.modTile t fun x => x.readTable (chanOff h.ch) 16
    .next ((s.modTile t fun x => if ok then x.addSem (Fin.ofNat 16 h.sem) h.inc else x.count badData 1).sendCredit t h none)

/-- A port semaphore increment, saturating (R348, R352). -/
def Port.addPsem (p : Port) (k : Fin 64) (inc : Nat) : Port :=
  { p with psem := vset p.psem k (BitVec.ofNat 16 (min 0xFFFF (p.psem[k].toNat + inc))) }

/-- A tile's SIG on a port channel reaches its port: `TOFF` of the sender's entry chooses the group (R348). -/
def execPortSigArrival (t : TileId) (i : Fin 6) (s : State) : Out :=
  match s.takeSig t i with
  | none => .next s
  | some (f, h, s) =>
    match f.port with
    | none => .next s
    | some p =>
      let toff := ((s.tile h.sender).chan (Fin.ofNat 256 h.ch)).toff.toNat
      .next ((s.modPort p fun x => x.addPsem (Fin.ofNat 64 (16 * (toff % 4) + h.sem)) h.inc).sendCredit t h (some p))

/-! ### Comb-address transfers at their target and their source (R196, R236) -/

/-- Bytes of a write-data flit with the buffer and shadow address each reaches; none for a byte in no declared buffer. -/
def Tile.combWrites (t : Tile) (at_ : Nat) (bs : List Byte) : List (Byte × Option (Fin 32 × Nat)) :=
  ((List.range bs.length).zip bs).map fun e =>
    (e.2, (t.combTarget (at_ + e.1)).map fun d => (d.1, t.bufs[d.1].shadow + d.2))

/-- The buffers that a run of bytes reaches. -/
def Tile.combBufs (t : Tile) (at_ n : Nat) : List (Fin 32) := ((List.range n).filterMap fun i => (t.combTarget (at_ + i)).map Prod.fst).dedup

/-- Shadow addresses that a run of bytes reaches. -/
def Tile.combSpan (t : Tile) (at_ n : Nat) : List Nat :=
  (t.combWrites at_ (List.replicate n 0)).filterMap fun e => e.2.map Prod.snd

/-- A write may perform: in every buffer that it reaches, its engine write has begun or may begin (R190, R191). -/
def Tile.combReady (t : Tile) (opened : List (Fin 32)) (at_ n : Nat) : Bool :=
  (t.combBufs at_ n).all fun b => opened.contains b || !t.writeBlocked b

/-- Engine writes begin in the buffers that the next bytes reach. -/
def Tile.combOpen (t : Tile) (m : RxMsg) (at_ n : Nat) : Tile × List (Fin 32) :=
  let new := (t.combBufs at_ n).filter fun b => !m.opened.contains b
  (new.foldl (fun t b => t.setBuf b Buffer.beginWrite) t, m.opened ++ new)

/-- Engine writes end in the buffers that none of the bytes left reaches. -/
def Tile.combClose (t : Tile) (opened : List (Fin 32)) (at_ left : Nat) : Tile × List (Fin 32) :=
  let keep (b : Fin 32) : Bool := (List.range left).any fun i => (t.combTarget (at_ + i)).any fun d => d.1 == b
  ((opened.filter fun b => !keep b).foldl (fun t b => t.setBuf b Buffer.endWrite) t, opened.filter keep)

/-- A write-data message: its header is taken; each payload flit is written into shadows, of each buffer that it reaches; the whole
is acknowledged (R196, R236). -/
def execWriteData (t : TileId) (i : Fin 6) (s : State) : Out :=
  let x := s.tile t
  match x.inC[i].fifo with
  | [] => .next s
  | f :: _ =>
    match x.inC[i].rx with
    | none => .next (s.modTile t fun x => x.rxOpen i f false)
    | some m =>
      let h := Header.unpack m.head
      let n := m.bytes h
      let ws := x.combWrites (h.cof + m.done) ((leBytes 16 f.data.toNat).take n)
      let lost := ws.any fun e => e.2.isNone
      let s := s.modTile t fun x =>
        let o := x.combOpen m (h.cof + m.done) n
        let x := o.1.writeSpm (ws.filterMap fun e => e.2.map fun d => (d.2, e.1))
        let x := if lost && !m.drop then x.count badData 1 else x
        let c := x.combClose o.2 (h.cof + m.done + n) (if f.lf then 0 else h.payload - (m.done + n))
        let m' : RxMsg := { m with done := m.done + n, started := true, drop := m.drop || lost, opened := c.2 }
        c.1.setInC i fun y => { y with fifo := y.fifo.drop 1, rx := if f.lf then none else some m' }
      let back := s.routeTo t h.sender
      let ack := combMsg 0 none t back 3 1 h.cof none 0 (s.now + 1) true (m.org.map fun o => o.back h.sender back)
      .next (if f.lf then s.modTile t fun x => { x with tx := x.tx ++ [ack] } else s)

/-- A read request is served: its read-data message is queued (R236). -/
def execReadRequest (t : TileId) (i : Fin 6) (s : State) : Out :=
  match s.takeSig t i with
  | none => .next s
  | some (f, h, s) =>
    let back := s.routeTo t h.sender
    let m := combMsg 0 none t back 2 (h.len + 1) h.cof none h.cof (s.now + 1) true (f.org.map fun o => o.back h.sender back)
    .next (s.modTile t fun x => { x with tx := x.tx ++ [m] })

/-- The copy that awaits the bytes of a message with read data: the one whose request it answers (R236). -/
def Tile.awaits (t : Tile) (o : Option Origin) : Option Flight :=
  o.bind fun o => t.flights.find? fun f => f.id == o.id && f.form == .cpy && f.remote.isSome && decide (f.done < f.len)

/-- A read-data message: its header is taken; each payload flit lands in the copy's destination (R236). -/
def execReadData (t : TileId) (i : Fin 6) (s : State) : Out :=
  let x := s.tile t
  match x.inC[i].fifo with
  | [] => .next s
  | f :: _ =>
    match x.inC[i].rx with
    | none => .next (s.modTile t fun x => x.rxOpen i f false)
    | some m =>
      let h := Header.unpack m.head
      let n := m.bytes h
      .next (s.modTile t fun x =>
        let x := match x.awaits m.org with
          | some fl =>
            let full := (fl.done + n) / 128 > fl.done / 128 ∨ fl.done + n ≥ fl.len
            (x.event 0x0C (if full then 1 else 0)).landUnit fl fl.done ((leBytes 16 f.data.toNat).take n) []
          | none => if f.lf then x.count badData 1 else x
        let m' : RxMsg := { m with done := m.done + n, started := true }
        x.setInC i fun y => { y with fifo := y.fifo.drop 1, rx := if f.lf then none else some m' })

/-- A write acknowledgement reaches the source: when every message of a command is acknowledged, WACK falls (R212). -/
def Tile.ackArrives (t : Tile) (o : Option Origin) : Tile :=
  match t.acks.find? fun a => a.peer.isSome && o.any fun o => o.id == a.id with
  | none => t
  | some a =>
    if a.msgs ≤ 1 then { t with acks := t.acks.erase a }.modCtx a.ctx Context.ackFall
    else { t with acks := t.acks.map fun b => if b.id = a.id then { b with msgs := b.msgs - 1 } else b }

def execWriteAcknowledgement (t : TileId) (i : Fin 6) (s : State) : Out :=
  match s.takeSig t i with
  | none => .next s
  | some (f, _, s) => .next (s.modTile t fun x => x.ackArrives f.org)

/-! ### What the channel engine would do on a tick -/

/-- The instruction table's event for the message at an input. -/
def arrivalEvent (t : TileId) (i : Fin 6) (h : Header) (port : Option (Fin 16)) : Instr :=
  match h.kd with
  | 0 => .sendArrival t i
  | 1 => .sendrArrival t i
  | 2 => if port.isSome then .portSigArrival t i else .sigArrival t i
  | _ =>
    match h.ck with
    | 0 => .writeData t i
    | 1 => .readRequest t i
    | 2 => .readData t i
    | _ => .writeAcknowledgement t i

/-- A header waits to be delivered to this tile; a MIGRATING tile starts no message (R322). -/
def Tile.headerWaits (t : Tile) (id : TileId) (i : Fin 6) : Option Instr :=
  if t.mig.isSome then none else
  match t.inC[i].rx, t.inC[i].fifo with
  | none, f :: _ => if f.ff && emptyRoute f.steer then some (arrivalEvent id i (Header.unpack f.data) f.port) else none
  | _, _ => none

/-- The scratchpad addresses that the payload flit at an input accesses, when it needs the engine port and its buffer or ring lets it
perform; none when it waits. -/
def Tile.payloadSpan (t : Tile) (i : Fin 6) : Option (List Nat) :=
  match t.inC[i].rx, t.inC[i].fifo with
  | some m, f :: _ =>
    let h := Header.unpack m.head
    let n := m.bytes h
    if f.ff || m.drop && h.kd != 3 || (t.mig.isSome && !m.started) then none
    else if h.kd = 3 then
      if h.ck = 0 then if t.combReady m.opened (h.cof + m.done) n then some (t.combSpan (h.cof + m.done) n) else none
      else match t.awaits m.org with
        | some fl => if t.mayOpen fl then some (t.flightSpan fl fl.done n) else none
        | none => some []
    else if m.started then some (t.rxSpan m n)
    else match t.tableView.rxTarget h with
      | .wait => none
      | .drop _ => some []
      | .ring r => some (span (t.rings[r].at_ t.rings[r].tail.toNat) n)
      | .buf b off _ => some (span (t.bufs[b].shadow + off) n)
  | _, _ => none

/-- A dropped message's payload flit leaves its FIFO without the port. -/
def Tile.dropWaits (t : Tile) (id : TileId) (i : Fin 6) : Option Instr :=
  match t.inC[i].rx, t.inC[i].fifo with
  | some m, f :: _ =>
    let h := Header.unpack m.head
    if m.drop && h.kd != 3 && !f.ff then some (arrivalEvent id i h none) else none
  | _, _ => none

/-- A port access of the channel engine: the payload flit at an input is delivered, or a message reads its source. -/
inductive ChanWork where
  | deliver (i : Fin 6)
  | read (m : TxMsg)
  deriving DecidableEq, Repr

/-- The access that is next in the engine's order, with its addresses: what arrives before what leaves (log 33). -/
def Tile.channelNext (t : Tile) (now : Nat) : Option (ChanWork × List Nat) :=
  ((List.finRange 6).findSome? fun i => (t.payloadSpan i).map fun as => (ChanWork.deliver i, as)).or
    ((t.tx.find? fun m => t.txWants now m).map fun m => (.read m, t.txRow m))

/-- What the channel engine does with the engine port on this tick; an access to a locked bank stops it (R172, R179). -/
def Tile.channelWork (t : Tile) (now : Nat) : Option ChanWork :=
  ((t.channelNext now).filter fun w => !t.locked now w.2).map Prod.fst

end Sys2Proof.Machine
end

