-- ==== Sys2Proof/Machine/Fetch.lean ====
section
/-! DEFINITION. What a fetch finds (R175, R186, R187) and which deliveries are pending for a context (R159, R164, R340, R377, R378). -/

namespace Sys2Proof.Machine

/-! ### Fetch as it stands (R175, R186, R187) -/

/-- A byte of code held on the tile: from the instruction cache, else from the code region. -/
def Tile.codeByte (t : Tile) (pa : Nat) : Option Byte :=
  match t.icache.find? fun l => l.tag == pa / 256 with
  | some l => some (l.data.getD (pa % 256) 0)
  | none =>
    let sl := lineSlot (pa / 256)
    let r := t.region[sl]
    if r.valid && r.tag == pa / 256 then some ((t.readSpm [0xE000 + 256 * sl.val + pa % 256]).headD 0) else none

/-- What a fetch of 32 bytes finds: the bytes and their physical addresses, a line that is missing (and whether it reads as zeros), a page walk to wait for, or
no mapping for execution. -/
inductive Fetch where
  | ok (bs : List Byte) (pas : List Nat)
  | miss (line : Nat) (zero : Bool)
  | walk (va : Nat)
  | unmapped
  deriving DecidableEq, Repr

def State.fetch (s : State) (t : Tile) (c : Fin 4) (pc : VAddr) : Fetch :=
  match fetchAll (s.fetchPa t c) (bundleVas pc) with
  | (.fail, _) => .unmapped
  | (.walk va, _) => .walk va
  | (.ok _ _, pas) =>
    match pas.find? fun pa => (t.codeByte pa.1).isNone with
    | some pa => .miss (pa.1 / 256) (!pa.2)
    | none => .ok (pas.map fun pa => (t.codeByte pa.1).getD 0) (pas.map Prod.fst)

/-- Words of the scratchpad that a fetch reads in the code region: the bytes that the instruction cache does not hold. -/
def Tile.fetchWords (t : Tile) (pas : List Nat) : List Nat :=
  (pas.filter fun pa => t.icache.all fun l => l.tag != pa / 256).map fun pa =>
    (0xE000 + 256 * (lineSlot (pa / 256)).val + pa % 256) / 4

/-- A fetch has read its bytes: cache lines and TLB entries are its most recently used, words of the code region are read
(R186, R199, R204). -/
def Tile.fetched (t : Tile) (c : Fin 4) (pcs : List VAddr) (pas : List Nat) (now : Nat) : Tile :=
  let t := { t with icache := t.icache.map fun (l : ILine) => if pas.any fun pa => pa / 256 == l.tag then { l with used := now } else l }
  let t := if t.upsets.isEmpty then t else t.noteReads 0 (t.fetchWords pas)
  if t.tlb.isEmpty then t else
  let x := t.ctx c
  let used := pcs.flatMap fun pc => (bundleVas pc).filterMap fun va =>
    if (x.window va).isSome then none else (t.tlbHit x va).map TlbEntry.vbase
  t.tlbTouch (x.lid.getD 0) used.contains now

/-- Slot k of a bundle's bytes (R28). -/
def slotWord (bs : List Byte) (k : Nat) : Nat := leNat ((bs.drop (4 * k)).take 4)

/-- The wait that a context stands at: its bundle as fetch, or the heap, holds it. -/
def State.heldAt (s : State) (t : Tile) (c : Fin 4) : Option Instr :=
  let x := t.ctx c
  let w : Nat := match s.fetch t c x.pc with
    | .ok bs _ => slotWord bs 0
    | _ => (s.ctlWordAt t x x.pc).getD 0
  (decodeCtl w).bind fun i => if isWait i then some i else none

/-! ### Deliveries (R164, R340, R378) -/

/-- `IT` as step 1 of R378 sees it: an ERET that has transferred counts as having cleared it. -/
def Context.itNow (c : Context) : Bool := c.it && !c.itClear

/-- The queue whose pending fault is the oldest; ties go MXU, copy, channel. -/
def Context.oldestFault (c : Context) : Option (Fin 3) :=
  (List.finRange 3).foldl (fun (best : Option (Fin 3)) q =>
    match c.faults[q], best with
    | none, _ => best
    | some _, none => some q
    | some f, some b => match c.faults[b] with
      | some g => if f.tick < g.tick then some q else best
      | none => some q) none

/-- A wait depends on a collective that a VIEWCHANGE trap names (R164). -/
def Context.trapFor (c : Context) (i : Instr) (v : VcTrap) : Bool :=
  v.waits.any fun w => match i with
    | .waitc k _ => w.cn == some k
    | .waitb b _ | .waitbTag b _ _ => w.dst == b
    | .waitph => !c.phase && c.markers.any fun m => m.queue == 2 && decide (w.id < m.upto)
    | _ => false

/-- It may be delivered now: an informational one waits while `IT` = 1 (R340). -/
def Context.trapReady (c : Context) (v : VcTrap) : Bool := v.can || v.exp || !c.itNow

/-- The VIEWCHANGE trap that an attempt of a wait takes. -/
def Context.vcPending (c : Context) (i : Instr) : Option VcTrap := c.vcTraps.find? fun v => c.trapFor i v && c.trapReady v

def VcTrap.finfo (v : VcTrap) : Word :=
  BitVec.ofNat 32 (v.ovt.toNat + 65536 * v.sw.val + 2 ^ 24 * v.fin.toNat + 2 ^ 25 * v.exp.toNat + 2 ^ 26 * v.md.toNat + 2 ^ 27 * v.can.toNat)

/-- A delivery is pending for a context: a fault's, or a trap for the wait it stands at (R159). -/
def State.pendingDelivery (s : State) (t : Tile) (k : Fin 4) : Bool :=
  let c := t.ctx k
  (!c.itNow && c.oldestFault.isSome) || (!c.vcTraps.isEmpty && (s.heldAt t k).any fun i => (c.vcPending i).isSome)

end Sys2Proof.Machine
end

