-- ==== Sys2Proof/Machine/Link.lean ====
section
/-! DEFINITION. The links from tick to tick (R12 to R14, R275, R276, R310) and the engine port (R179): what a tile's engines
do on a tick, in order. -/

namespace Sys2Proof.Machine

/-! ### Arrival (R275, R310) -/

/-- A flit as the tile receives it: a header from a neighbour updates its steering word. -/
def receiveFlit (i : Fin 6) (f : Flit) : Flit := if f.ff && decide (i.val < 4) then { f with steer := onHeader f.steer } else f

/-- Flits that an edge port moves in a tick: 96 bytes (R14). -/
def edgeFlits : Nat := 6

/-- Flits whose tick has come and that find a place: a link's sender has counted its places (R275); the tile's own input and the
edge port hold back what a FIFO of 16 has no room for, and the edge port what is beyond its rate of `cap` flits. -/
def Input.due (n : Input) (i : Fin 6) (cap now : Nat) : List (Nat × Flit) :=
  let due := n.wire.filter fun w => decide (w.1 ≤ now)
  if i.val < 4 then due else due.take (min (if i = 5 then cap else 16) (16 - n.fifo.length))

/-- They join the FIFO. -/
def Input.receive (n : Input) (i : Fin 6) (cap now : Nat) : Input :=
  let due := n.due i cap now
  let rest := (n.wire.filter fun w => decide (w.1 ≤ now)).drop due.length
  { n with wire := rest ++ n.wire.filter (fun w => decide (now < w.1)), fifo := n.fifo ++ due.map fun w => receiveFlit i w.2 }

def Input.dueCount (n : Input) (i : Fin 6) (cap now : Nat) : Nat := (n.due i cap now).length

/-- Both lanes receive; the edge port's lanes share its rate. -/
def Tile.receive (t : Tile) (now : Nat) : Tile :=
  let left := edgeFlits - t.inC[(5 : Fin 6)].dueCount 5 edgeFlits now
  let c : Nat := (List.finRange 6).foldl (fun n i => n + t.inC[i].dueCount i edgeFlits now) 0
  let r : Nat := (List.finRange 6).foldl (fun n i => n + t.inR[i].dueCount i left now) 0
  let t := if c + r = 0 then t else
    { t with inC := Vector.ofFn fun i : Fin 6 => t.inC[i].receive i edgeFlits now,
             inR := Vector.ofFn fun i : Fin 6 => t.inR[i].receive i left now }
  let t := if c = 0 then t else t.event 0x0E c
  if r = 0 then t else t.event 0x0F r

/-! ### Headers take their output (R310) -/

/-- The tile's own input on lane C: the oldest message with a flit for a direction. -/
def Tile.ownMsg (t : Tile) (d : Nat) : Option TxMsg := t.tx.find? fun m => !m.done && legCnt m.steer != 0 && legDir m.steer == d
/-- On lane R: a sequencer whose output goes in a direction; once a chunk has begun to leave, the sequencer that sends it. -/
def Tile.ownSeq (t : Tile) (d : Fin 4) : Option (Fin 4 × SeqFlit) :=
  let begun := t.outR[d].bound == some 4 && t.outR[d].begun
  (List.finRange 4).findSome? fun q => match t.seqs[q].out with
    | f :: _ => if legCnt f.flit.steer != 0 && legDir f.flit.steer == d.val && f.flit.ff != begun then some (q, f) else none
    | [] => none

/-- The next flit that an input has for a direction. -/
def Tile.offer (t : Tile) (now : Nat) (laneR : Bool) (i : Fin 6) (d : Fin 4) : Option Flit :=
  if i = 4 then
    if laneR then match t.ownSeq d with
      | some (_, f) => if f.ready ≤ now then some f.flit else none
      | none => none
    else (t.ownMsg d.val).bind fun m => m.next now
  else
    let n := if laneR then t.inR[i] else t.inC[i]
    match n.fifo with
    | f :: _ => if f.ff && (emptyRoute f.steer || legDir f.steer != d.val) then none else some f
    | [] => none

def Tile.output (t : Tile) (laneR : Bool) (d : Fin 4) : Output := if laneR then t.outR[d] else t.outC[d]
def Tile.setOutput (t : Tile) (laneR : Bool) (d : Fin 4) (f : Output → Output) : Tile :=
  if laneR then { t with outR := vset t.outR d (f t.outR[d]) } else { t with outC := vset t.outC d (f t.outC[d]) }
def Tile.setInput (t : Tile) (laneR : Bool) (i : Fin 6) (f : Input → Input) : Tile := if laneR then t.setInR i f else t.setInC i f

/-- A header of an input waits for an output. -/
def Tile.headerFor (t : Tile) (now : Nat) (laneR : Bool) (i : Fin 6) (d : Fin 4) : Bool :=
  let n := if laneR then t.inR[i] else t.inC[i]
  (i == 4 || (n.out.isNone && t.mig.isNone)) && (t.offer now laneR i d).any fun f => f.ff

/-- The input that a free output serves next: the first that waits after the one served last (R310). -/
def Tile.nextInput (t : Tile) (now : Nat) (laneR : Bool) (d : Fin 4) : Option (Fin 6) :=
  let o := t.output laneR d
  if o.bound.isSome then none
  else ((List.range 6).map fun k => (Fin.ofNat 6 (o.last.val + 1 + k) : Fin 6)).find? fun i => t.headerFor now laneR i d

/-- A header binds its lane of the output that its steering word names (R310). A MIGRATING tile binds none (R322). -/
def execHeaderForward (t : TileId) (i : Fin 6) (laneR : Bool) (s : State) : Out :=
  .next (s.modTile t fun x =>
    if x.mig.isSome && i != 4 then x else
    (List.finRange 4).foldl (fun x d =>
      if x.nextInput s.now laneR d = some i then
        let x := x.setOutput laneR d fun o => { o with bound := some i, last := i }
        if i = 4 then x else x.setInput laneR i fun n => { n with out := some d }
      else x) x)

/-- The headers that bind an output on this tick. -/
def Tile.forwards (t : Tile) (id : TileId) (now : Nat) : List Move :=
  [false, true].flatMap fun r =>
    (((List.finRange 4).filterMap fun d => t.nextInput now r d).dedup).map fun i => Move.ev (.headerForward id i r)

/-! ### Flits leave (R12, R275, R276) -/

/-- Flits that a link's far end can hold in one lane: its FIFO, and 8 tokens of the elastic queue at a seam or wrap. -/
def State.laneRoom (s : State) (t : TileId) (d : Fin 4) : Nat := if s.elastic t d.val then 24 else 16

/-- Flits in a lane's far end and on the link. A place that is freed is free for the sender at once, so a tile that transmits later on
the same tick uses it: DESIGN CHOICE, log 72 (R13 gives the token no time of its own). -/
def State.laneLoad (s : State) (t : TileId) (d : Fin 4) (laneR : Bool) : Nat :=
  let u := s.tile (s.neighbour t d.val)
  let i : Fin 6 := Fin.ofNat 6 (opposite d.val)
  let n := if laneR then u.inR[i] else u.inC[i]
  n.fifo.length + n.wire.length

/-- The flit that a lane of an output has ready. -/
def Tile.ready (t : Tile) (now : Nat) (laneR : Bool) (d : Fin 4) : Option Flit :=
  (t.output laneR d).bound.bind fun i =>
    if i ≠ 4 ∧ (if laneR then t.inR[i] else t.inC[i]).out ≠ some d then none else t.offer now laneR i d

/-- A flit is taken from its input. -/
def Tile.takeFlit (t : Tile) (now : Nat) (laneR : Bool) (d : Fin 4) (f : Flit) : Tile :=
  match (t.output laneR d).bound with
  | none => t
  | some i =>
    let t := if i = 4 then
        if laneR then match t.ownSeq d with
          | some (q, _) =>
            t.setSeq q fun x => match x.out with
              | g :: rest => ({ x with out := rest } : Seq).setRun g.run fun r => { r with outn := r.outn - 1, last := now }
              | [] => x
          | none => t
        else match t.ownMsg d.val with
          | some m => { t with tx := t.tx.map fun x => if x = m then x.advance else x }
          | none => t
      else t.setInput laneR i fun n => { n with fifo := n.fifo.drop 1, out := if f.lf then none else n.out }
    t.setOutput laneR d fun o => { o with bound := if f.lf then none else o.bound, begun := !f.lf }

/-- The tick on which a flit sent now reaches the far end of a link: after every flit sent before it (R12, R218). -/
def State.arrivalAt (s : State) (t : TileId) (d : Fin 4) : Nat :=
  let u := s.tile (s.neighbour t d.val)
  let i : Fin 6 := Fin.ofNat 6 (opposite d.val)
  (u.inC[i].wire ++ u.inR[i].wire).foldl (fun m w => max m (w.1 + 1)) (s.now + s.hop t d.val)

/-- A flit goes onto its link, or is discarded at an ABSENT tile, counted once for its message (R327). -/
def State.sendFlit (s : State) (t : TileId) (d : Fin 4) (laneR : Bool) (f : Flit) : State :=
  let u := s.neighbour t d.val
  let s := s.modTile t fun x =>
    let x := x.takeFlit s.now laneR d f
    (x.setOutput laneR d fun o => { o with sentLast := true }).setOutput (!laneR) d fun o => { o with sentLast := false }
  if s.isAbsent u then (if f.ff then s.modTile t fun x => x.count badData 1 else s)
  else s.modTile u fun x => x.setInput laneR (Fin.ofNat 6 (opposite d.val)) fun n =>
    { n with wire := n.wire ++ [(s.arrivalAt t d, f)] }

/-- One output of a tile: one flit, the lanes in turn when both are ready (R275). -/
def State.transmitOne (s : State) (t : TileId) (d : Fin 4) : State :=
  let x := s.tile t
  let c := x.ready s.now false d
  let r := x.ready s.now true d
  if c.isNone && r.isNone then s else
  let room (laneR : Bool) : Bool := decide (s.laneLoad t d laneR < s.laneRoom t d)
  let held := (if c.isSome && !room false then 1 else 0) + (if r.isSome && !room true then 1 else 0)
  let s := if held = 0 then s else s.modTile t fun x => x.event 0x10 held
  let c := if room false then c else none
  let r := if room true then r else none
  match c, r with
  | some f, none => s.sendFlit t d false f
  | none, some f => s.sendFlit t d true f
  | some f, some g => if x.outC[d].sentLast then s.sendFlit t d true g else s.sendFlit t d false f
  | none, none => s

/-- A message to the tile itself goes through its own input, one flit a tick, in 2 ticks (R286). -/
def Tile.transmitSelf (t : Tile) (now : Nat) : Tile :=
  match t.tx.find? fun m => !m.done && emptyRoute m.steer with
  | none => t
  | some m =>
    let n := t.inC[4]
    if 16 ≤ n.fifo.length + n.wire.length then t else
    match m.next now with
    | none => t
    | some f =>
      { t.setInC 4 (fun n => { n with wire := n.wire ++ [(now + 2, f)] }) with
          tx := t.tx.map fun x => if x = m then x.advance else x }

/-- Answers to a tile that no route reaches any more are dropped and counted (R309; log 42). -/
def Tile.dropBroken (t : Tile) : Tile :=
  ({ t with tx := t.tx.filter fun m => m.steer != brokenRoute } : Tile).count badData (t.tx.filter fun m => m.steer == brokenRoute).length

/-- A chunk whose route word reads as empty goes to the tile itself, one flit a tick (R204, R309). -/
def Tile.chunkSelf (t : Tile) (now : Nat) : Tile :=
  let n := t.inR[4]
  if 16 ≤ n.fifo.length + n.wire.length then t else
  match (List.finRange 4).findSome? fun q => (t.seqs[q].out.head?.filter fun f => emptyRoute f.flit.steer && decide (f.ready ≤ now)).map
      fun f => (q, f) with
  | none => t
  | some (q, f) =>
    (t.setSeq q fun x => { x with out := x.out.drop 1 }.setRun f.run fun r => { r with outn := r.outn - 1, last := now }).setInR 4 fun n =>
      { n with wire := n.wire ++ [(now + 2, f.flit)] }

/-- Every output of a tile; messages whose last flit has left are transmitted. -/
def State.transmit (s : State) (t : TileId) : State :=
  let s := if (s.tile t).tx.any (fun m => m.steer == brokenRoute) then s.modTile t Tile.dropBroken else s
  let s := (List.finRange 4).foldl (fun s d => s.transmitOne t d) s
  let s := if (s.tile t).tx.any (fun m => emptyRoute m.steer) then s.modTile t fun x => x.transmitSelf s.now else s
  let s := if (s.tile t).seqs.any (fun q => q.out.head?.any fun f => emptyRoute f.flit.steer) then s.modTile t fun x => x.chunkSelf s.now else s
  let done := ((s.tile t).tx.filter TxMsg.done).map fun m => Move.ev (.messageTransmitted t m.id)
  if done.isEmpty then s else { s with agenda := done ++ s.agenda }

/-! ### A tick of a tile's engines -/

/-- The events of the engines on this tick, before the port: credits, completions, arrivals, the channel queue's head. -/
def Tile.engineEvents (t : Tile) (id : TileId) (now : Nat) : List Move :=
  let credits := (t.credits.filter fun w => decide (w.tick ≤ now)).map fun w => Instr.creditReturn id w.ch
  let colls := (List.finRange 4).flatMap fun q =>
    (t.seqs[q].runs.filter fun r => t.seqs[q].finished now r && t.mayComplete r).map fun r => Instr.collectiveComplete id r.ch r.inst
  let msgs := (List.finRange 6).filterMap fun i => (t.headerWaits id i).or (t.dropWaits id i)
  let chunks := (List.finRange 6).filterMap fun i => match t.inR[i].chunk, t.inR[i].fifo with
    | none, f :: _ => if f.ff && emptyRoute f.steer then some (Instr.chunkArrival id i) else none
    | _, _ => none
  let head := if (t.chanHead now).isSome then [Instr.channelQueueStart id] else []
  (credits ++ colls ++ msgs ++ chunks ++ head).map Move.ev

/-- Lane-R traffic that needs no port: held, discarded and passing chunks, held chunks that wake. -/
def Tile.sequence (t : Tile) (now : Nat) : Tile :=
  let busy := (List.finRange 4).any fun q => !t.seqs[q].runs.isEmpty || !t.seqs[q].held.isEmpty
  let t := if (List.finRange 6).any fun i => t.inR[i].chunk.isSome then (List.finRange 6).foldl (fun t i => t.drainChunk now i) t else t
  let tidy (t : Tile) (q : Fin 4) : Tile := t.setSeq q fun s => { s with runs := s.runs.filter fun r => !(r.sends && s.finished now r) }
  if busy then (List.finRange 4).foldl (fun t q => (tidy t q).wakeHeld now q) t else t

/-- Own chunks that start, where no chunk that has come by this tick took the output (R303; log 90). -/
def Tile.startOwns (t : Tile) (now : Nat) : Tile :=
  if t.seqs.all fun q => q.runs.isEmpty then t else (List.finRange 4).foldl (fun t q => t.startOwn now q) t

/-- The heap bytes that a code line brings: none from a page that was not resident (R202). -/
def CodeReq.heapSpan (r : CodeReq) : List Nat :=
  if r.zero then [] else
  if r.region then (List.range 128).map (256 * r.line + (if r.half then 128 else 0) + ·) else (List.range 256).map (256 * r.line + ·)

/-- A code line for the code region that has arrived. -/
def Tile.regionLine (t : Tile) (now : Nat) : Option CodeReq := t.code.find? fun r => r.region && decide (r.ready ≤ now)

/-- A user of the engine port has work for it on this tick (R14, R179). -/
def State.wantsPort (s : State) (t : Tile) : PortUser → Bool
  | .copy => (s.copyWants t).isSome
  | .channel => (t.channelWork s.now).isSome
  | .seq q => (t.seqWant s.now q).isSome
  | .code => (t.regionLine s.now).any fun r => s.stackFits false r.heapSpan
  | .scrub => false

/-- Round-robin order of the users after the last one served. -/
def portOrder (last : PortUser) : List PortUser :=
  let all : List PortUser := [.copy, .channel, .seq 0, .seq 1, .seq 2, .seq 3, .code]
  let rest := (all.dropWhile (· != last)).drop 1
  rest ++ all

/-- The port serves one user: one access, of a promised copy when its time presses, else in turn (R179, R230). Idle ticks go to
corrections and to the scrubber (R204). -/
def State.servePort (s : State) (t : TileId) : State :=
  let x := s.tile t
  let ev (s : State) (i : Instr) : State := s.first (.ev i)
  if x.portBusy then s else
  match (if s.copyPresses x then some .copy else (portOrder x.portLast).find? fun u => s.wantsPort x u) with
  | none => if !x.fixes.isEmpty then ev s (.eccWriteback t) else if x.scrubDue ≤ s.now then ev s (.scrub t) else s
  | some u =>
    let s := s.modTile t fun x => { x with portBusy := true, portLast := u }
    match u with
    | .copy =>
      match s.copyWants x with
      | some f => s.moveUnit t f
      | none => s
    | .channel =>
      match x.channelWork s.now with
      | some (.deliver i) =>
        match x.inC[i].rx with
        | some m => ev s (arrivalEvent t i (Header.unpack m.head) m.port)
        | none => s
      | some (.read m) => (s.errAsker t m).modTile t fun x => x.txGrant m
      | none => s
    | .seq q => s.modTile t fun x => x.seqGrant s.now q
    | .code => ev (s.stackTake false (((x.regionLine s.now).map CodeReq.heapSpan).getD [])) (.codeRegionFill t)
    | .scrub => s

/-- The table bytes that the walk which completes next reads; none before it is due, or where it would wait for its walker. -/
def State.dueWalk (s : State) (t : Tile) : Option (List Nat) :=
  (t.walks.find? fun w => w.res.isNone && decide (w.ready ≤ s.now)).map fun w =>
    match s.roots.find? fun r => some r.1 == (t.ctx w.ctx).lid with
    | some r => s.walkBytes w.va 3 1 r.2
    | none => []

/-- After the port: copies that have ended retire, held MMAs are released, heap writes are acknowledged; a walk and a line for the
instruction cache complete as far as the forager ports go (R14). -/
def State.settleEngines (s : State) (t : TileId) : State :=
  let s := s.modTile t fun x => if x.flights.isEmpty then x else x.releaseHeld s.now
  let x := s.tile t
  let ends := (x.flights.filter fun f => !f.retired && decide (f.done ≥ f.len)).map fun f => Move.ev (.copyRetire t f.id)
  let acks := (x.acks.filter fun a => a.tick.any fun k => decide (k ≤ s.now)).map fun a => Move.ev (.heapWriteAcknowledgement t a.id)
  let walk := (s.dueWalk x).filter (s.stackFits false)
  let s := s.stackTake false (walk.getD [])
  let line := ((x.code.find? fun r => !r.region && decide (r.ready ≤ s.now)).map CodeReq.heapSpan).filter (s.stackFits false)
  let s := s.stackTake false (line.getD [])
  let walks := if walk.isSome then [Move.ev (.pageWalk t)] else []
  let lines := if line.isSome then [Move.ev (.instructionCacheFill t)] else []
  let map := match x.tmMiss with
    | some (_, due) => if due ≤ s.now then [Move.ev (.tileMapCacheFill t)] else []
    | none => []
  { s with agenda := ends ++ acks ++ walks ++ lines ++ map ++ s.agenda }

end Sys2Proof.Machine
end

