-- ==== Sys2Proof/Machine/View.lean ====
section
/-! DEFINITION. Swarm views (R329 to R342): the waggle round at comb level and at hive level, its frames, installation with
its fates, joins and leaves. -/

namespace Sys2Proof.Machine

/-! ### Rosters (R330) -/

/-- Roster positions of the present members, in order: a member's rank is its place here. -/
def Swarm.members (w : Swarm) : List Nat := (List.range w.roster.length).filter fun i => present (w.roster.getD i 0)

/-- Rank of a roster position in a list of members. -/
def rankIn (ms : List Nat) (i : Nat) : Nat := (ms.filter (· < i)).length

/-- The tile that stands for a roster position: the member, or at hive level this wafer's anchor. -/
def Swarm.tileOf (w : Swarm) (i : Nat) : TileId :=
  if w.lvl then mkTile w.ax.toNat w.ay.toNat
  else mkTile ((w.roster.getD i 0).toNat % 512) ((w.roster.getD i 0).toNat / 65536 % 512)

/-- Wafer of a hive roster position. -/
def Swarm.waferOf (w : Swarm) (i : Nat) : BitVec 16 := (w.roster.getD i 0).setWidth 16

/-- This wafer's roster position in a hive swarm. -/
def State.ownIndex (s : State) (w : Swarm) : Option Nat :=
  w.roster.findIdx? fun e => e.toNat % 65536 == s.ctl.wafid.toNat % 65536

/-- Tiles of this wafer that hold a view slot of a swarm, with their roster positions. -/
def State.localMembers (s : State) (w : Swarm) : List (Nat × TileId) :=
  if w.lvl then match s.ownIndex w with
    | some i => [(i, w.tileOf i)]
    | none => []
  else (List.range w.roster.length).map fun i => (i, w.tileOf i)

/-- A tile has started an instance of a swarm that is not complete. -/
def Tile.busyIn (t : Tile) (sw : Fin 256) : Bool :=
  (List.finRange 4).any fun q => t.seqs[q].runs.any fun r => r.sw == sw && !r.sends

/-- Collective channels of a swarm on a tile, by number. -/
def Tile.swarmChans (t : Tile) (sw : Fin 256) : List (Nat × Chan) := t.chans.filter fun e => e.2.v && e.2.coll && e.2.sw == sw

/-- Next instance of each collective channel of a swarm, from the members' entries (R341). -/
def State.nextInsts (s : State) (w : Swarm) (sw : Fin 256) : List (Nat × BitVec 16) :=
  ((s.localMembers w).filter fun m => w.members.contains m.1).foldl (fun acc m =>
    ((s.tile m.2).swarmChans sw).foldl (fun acc e =>
      let old := alGet acc e.1 e.2.inst
      alSet acc e.1 (if older16 old e.2.inst then e.2.inst else old)) acc) []

/-! ### VIEWCHANGE traps (R340) -/

/-- What a view change did to instances that a context started. -/
structure Touched where
  ctx : Fin 4
  cn : Option (Fin 16)
  dst : Fin 32
  id : Nat
  finish : Bool
  cancel : Bool
  deriving DecidableEq, Repr

/-- The trap becomes pending for a context; several changes make one trap, from the first tag to the latest. -/
def Context.viewTrap (c : Context) (sw : Fin 256) (old new : BitVec 16) (md exp : Bool) (ts : List Touched) : Context :=
  if ts.isEmpty then c else
  let ws := ts.map fun t => (⟨t.cn, t.dst, t.id⟩ : VcWait)
  let fin := ts.any (·.finish)
  let can := ts.any (·.cancel)
  if c.vcTraps.any fun t => t.sw == sw then
    { c with vcTraps := c.vcTraps.map fun t =>
        if t.sw = sw then
          { t with newTag := new, fin := t.fin || fin, exp := t.exp || exp, can := t.can || can, waits := t.waits ++ ws }
        else t }
  else { c with vcTraps := c.vcTraps ++ [⟨sw, old, new, fin, exp, md, can, ws⟩] }

/-! ### Installation at one member (R336 to R339) -/

/-- Where an instance starts over under a new view (R337, REWEIGHT). -/
def CollRun.again (r : CollRun) (v : ViewSlot) (rt : Fin 256) (steer : BitVec 64) (now : Nat) : CollRun :=
  let r : CollRun := { r with vt := v.vt, n := v.nm.toNat + 1, rank := v.rank.toNat, rt := rt, steer := steer, accepted := now, last := now,
                              mode := .normal, portLeft := if r.hive then r.sourceBytes else 0 }
  { r with own := r.ownChunks, need := r.arrivals, wrLeft := r.resultBytes }

/-- Chunks of the whole result of an instance, as a survivor sends them to one that lacks it. -/
def CollRun.resultChunks (r : CollRun) : List OwnChunk :=
  match r.kind with
  | 0 => (List.range r.n).flatMap fun j => (r.cut (r.len j)).map fun c => ⟨true, j, c.1, c.2⟩
  | 2 => (List.range r.n).flatMap fun j => (r.cut r.m).map fun c => ⟨true, j, c.1, c.2⟩
  | 3 => (r.cut r.m).map fun c => ⟨true, r.root, c.1, c.2⟩
  | _ => []

/-- The instance completes under the old view: what its member lacks arrives as travelling-on chunks with the new tag. A
reduce-scatter shard has no other holder, so it completes with the bytes it has (log 17). -/
def CollRun.finishing (r : CollRun) (vt : BitVec 16) (now : Nat) : CollRun :=
  let r : CollRun := { r with vt := vt, mode := .finishing, queued := false, own := [], last := now, portLeft := 0 }
  { r with need := if r.hive then 0 else r.resultChunks.length, wrLeft := if r.kind = 1 then 0 else r.resultBytes }

/-- The fate of one instance at a member (R337, R338). -/
inductive FateKind where
  | finish | redo | cancel
  deriving DecidableEq, Repr

/-- A COLL that waited at the queue head for its sequencer leaves it. -/
def Tile.leaveHead (t : Tile) (id : Nat) : Tile := { t with chq := t.chq.filter fun c => c.id != id }

def Seq.dropRun (s : Seq) (id : Nat) : Seq := { s with runs := s.runs.filter fun (y : CollRun) => y.id != id }

def Tile.applyFate (t : Tile) (now : Nat) (r : CollRun) (k : FateKind) (v : ViewSlot) : Tile :=
  match t.seqOfRun r.ch r.inst with
  | none => t
  | some (q, _) =>
    let t := t.discardRun now q r
    match k with
    | .finish =>
      let t := (t.leaveHead r.id).setSeq q fun s => s.setRun r.id fun r => r.finishing v.vt now
      if r.kind = 1 ∧ r.wrOpen then
        (t.setBuf r.dst Buffer.endWrite).setSeq q fun s => s.setRun r.id fun r => { r with wrOpen := false }
      else t
    | .redo =>
      let p := t.seqDir r.ch
      let rt := (t.chan r.ch).rt
      match t.seqs[q].runs.find? fun y => y.id == r.id with
      | some y =>
        -- the flits that still leave are those of the old sequencer
        let y : CollRun := { y.again v rt (t.route rt) now with outn := if p = q then y.outn else 0 }
        (t.setSeq q fun s => s.dropRun r.id).setSeq p fun s => { s with runs := s.runs ++ [y] }
      | none => t
    | .cancel => ((t.closeRun r).leaveHead r.id |>.setSeq q fun s => s.dropRun r.id).retire r.id true

/-- A survivor that completed an instance sends its result to a member that lacks it. -/
def State.sendResult (s : State) (src dst : TileId) (d : CollDone) (vt : BitVec 16) : State :=
  s.modTile src fun t =>
    let r : CollRun := { d.run with vt := vt, mode := .sending d.addr, steer := s.routeTo src dst, accepted := s.now, last := s.now,
                                    id := t.nextId, own := [], need := 0, outn := 0, wrLeft := 0, portLeft := 0,
                                    rdOpen := false, wrOpen := false }
    let r : CollRun := { r with own := r.resultChunks }
    let q : Fin 4 := if emptyRoute r.steer then 0 else Fin.ofNat 4 (legDir r.steer)
    { t.setSeq q fun s => { s with runs := s.runs ++ [r] } with nextId := t.nextId + 1 }

/-- Installation of a view at a member tile of this wafer: slot, routes, fates, traps, joins and leaves. -/
def State.installAt (s : State) (sw : Fin 256) (w : Swarm) (f : CommitFrame) (i : Nat) (t : TileId) : State :=
  let x := s.tile t
  match x.viewSlot sw with
  | none => s
  | some v =>
    let inView := f.members.contains i
    let v' : ViewSlot :=
      { v with vt := f.tag, rank := BitVec.ofNat 16 (rankIn f.members i), nm := BitVec.ofNat 16 (f.members.length - 1),
               mb := inView, vc := false, jp := v.jp && !inView }
    let succ := f.members.getD ((rankIn f.members i + 1) % f.members.length) i
    let s := s.modTile t fun x => { x with views := x.views.map fun y => if y.v && y.sw == sw then v' else y }
    let steer := s.routeTo t (w.tileOf succ)
    let s := if w.lvl || !inView then s else s.modTile t fun x =>
      (x.swarmChans sw).foldl (fun x e => x.setRoute e.2.rt (if succ = i then 0 else steer)) x
    -- joiners take the next instance of each channel (R341)
    let s := if !v.mb && inView then s.modTile t fun x =>
        (x.swarmChans sw).foldl (fun x e => x.setChan (Fin.ofNat 256 e.1) fun c => { c with inst := alGet f.nexts e.1 c.inst }) x
      else s
    let runs := (List.finRange 4).flatMap fun q => (s.tile t).seqs[q].runs.filter fun r => r.sw == sw && !r.sends
    let kind (r : CollRun) : FateKind :=
      if !inView then .cancel
      else if f.fates.any fun a => a.ch == r.ch && a.inst == r.inst && a.finish then .finish
      else if v.mode then .redo else .cancel
    let tag (r : CollRun) : Option (Fin 16) := (x.live.find? fun l => l.id == r.id).bind LiveCmd.tag
    let touched := runs.map fun r => (⟨r.ctx, tag r, r.dst, r.id, kind r == .finish, kind r == .cancel⟩ : Touched)
    let s := s.modTile t fun x => runs.foldl (fun x r => x.applyFate s.now r (kind r) v') x
    -- INST falls to each channel's oldest cancelled instance (R338)
    let cancelled := runs.filter fun r => kind r == .cancel
    let s := s.modTile t fun x => cancelled.foldl (fun x r =>
      x.setChan r.ch fun c => if older16 r.inst c.inst then { c with inst := r.inst } else c) x
    let s := s.modTile t fun x =>
      { x with ctxs := Vector.ofFn fun c : Fin 4 =>
          if x.ctxs[c].st = .free ∨ x.ctxs[c].st = .halted then x.ctxs[c]
          else x.ctxs[c].viewTrap sw v.vt f.tag v.mode (!inView) (touched.filter fun a => a.ctx == c) }
    -- VWJOIN and VWLEAVE retire (R342)
    s.modTile t fun x =>
      let done := x.vwWait.filter fun e => e.2.2.1 == sw && e.2.2.2 == inView
      done.foldl (fun x e => x.retire e.1 true) { x with vwWait := x.vwWait.filter fun e => !done.contains e }

/-- A wafer that completed an instance sends its result through its port: the anchor's engine port reads it, and the port
carries it to the wafers that lack it (R337, R349, log 45). -/
def State.sendHiveResult (s : State) (src : TileId) (d : CollDone) (vt : BitVec 16) : State :=
  s.modTile src fun t =>
    let r : CollRun := { d.run with vt := vt, mode := .sending d.addr, accepted := s.now, last := s.now, id := t.nextId, own := [],
                                    need := 0, outn := 0, wrLeft := 0, rdOpen := false, wrOpen := false }
    { t.setSeq 0 fun s => { s with runs := s.runs ++ [{ r with portLeft := if r.kind = 1 then 0 else r.resultBytes }] } with
      nextId := t.nextId + 1 }

/-- Survivors send the results that others lack (R337). -/
def State.sendResults (s : State) (sw : Fin 256) (w : Swarm) (f : CommitFrame) : State :=
  if w.lvl then
    (f.fates.filter fun a => a.finish && s.ownIndex w == some a.src).foldl (fun s a =>
      let t := w.tileOf 0
      match (s.tile t).colls.find? fun d => d.ch == a.ch && d.inst == a.inst && d.sw == sw with
      | some d => s.sendHiveResult t d f.tag
      | none => s) s
  else
  let ms := f.members.map fun i => (i, w.tileOf i)
  (f.fates.filter Fate.finish).foldl (fun s a =>
    match ms.findSome? fun m => ((s.tile m.2).colls.find? fun d => d.ch == a.ch && d.inst == a.inst && d.sw == sw).map fun d => (m.2, d) with
    | none => s
    | some (src, d) => ms.foldl (fun s m =>
        match (s.tile m.2).seqOfRun a.ch a.inst with
        | some (_, r) => if r.mode = .finishing then s.sendResult src m.2 { d with run := { d.run with rank := r.rank } } f.tag else s
        | none => s) s) s

/-- Cached peer routes of a hive swarm are invalidated at installation, and queued packets of the old tag discarded (R336, R353). What
SFWD.OUT has sent of its instances counts no more: a redone or reissued one gets its result anew (R349, R355). -/
def State.installPort (s : State) (sw : Fin 256) (w : Swarm) (f : CommitFrame) : State :=
  if !w.lvl then s else
  let gone (p : Packet) : Bool := p.sv && p.swn == sw && older16 p.vt f.tag
  let ready (p : Packet) : Bool := p.sv && p.swn == sw && p.vt == f.tag
  s.modPort w.port fun p =>
    let n := (p.rxq.filter gone).length + (p.early.filter gone).length
    { p.count pStale n with
             rxq := p.rxq.filter (fun q => !gone q) ++ p.early.filter ready,
             early := p.early.filter fun q => !gone q && !ready q,
             fwdOut := p.fwdOut.filter fun e => e.1 != sw,
             peers := p.peers.map fun e =>
               if w.roster.any fun r => r.setWidth 16 == e.wid then { e with route := none } else e }

/-- The entry of a plane and a wavelength. -/
def Port.entry (p : Port) (k : Fin 4) (i : Fin 64) : PlaneEntry := p.planes[k][i]
/-- Planes that reach a peer: valid, up (R346). -/
def Port.planesTo (p : Port) (wid : BitVec 16) : List (Fin 4) :=
  (List.finRange 4).filter fun k => (List.finRange 64).any fun i =>
    (p.entry k i).v && (p.entry k i).up && (p.entry k i).wid == wid

/-- Queued packets that no plane carries are held until a plane returns or their peer leaves every view (R346). -/
def State.dropHeld (s : State) (port : Fin 16) : State :=
  let inView (wid : BitVec 16) : Bool := s.swarms.any fun e =>
    e.2.v && e.2.lvl && e.2.port == port && e.2.members.any fun i => e.2.waferOf i == wid
  s.modPort port fun p => { p with txq := p.txq.filter fun d => inView d.peer || !(p.planesTo d.peer).isEmpty }

/-- Roster after installation: members present, admitted joins granted. -/
def newRoster (ms : List Nat) (roster : List Word) : List Word :=
  ((List.range roster.length).zip roster).map fun e =>
    if ms.contains e.1 then (e.2 ||| 0x80000000) &&& ~~~0x40000000 else e.2 &&& ~~~0x80000000

/-- A view is installed on this wafer (R336, R337). -/
def State.install (s : State) (sw : Fin 256) (w : Swarm) (f : CommitFrame) : State :=
  let s := (s.localMembers w).foldl (fun s m => s.installAt sw w f m.1 m.2) s
  let s := (s.sendResults sw w f).installPort sw w f
  let ni := match f.nexts with
    | e :: _ => e.2
    | [] => w.ni
  let s := s.modSwarm sw.val fun w =>
    { w with vt := f.tag, vc := false, relay := false, held := none, ni := ni, roster := newRoster f.members w.roster, round := none,
             leave := w.leave.filter fun i => f.members.contains i, acked := f.tag,
             seen := if older16 w.seen f.tag then f.tag else w.seen }
  if w.lvl then s.dropHeld w.port else s

/-! ### Frames of the waggle (R320, R333, R334) -/

def Port.peer (p : Port) (wid : BitVec 16) : Option Peer := p.peers.find? fun e => e.wid == wid
def Port.modPeer (p : Port) (wid : BitVec 16) (f : Peer → Peer) : Port :=
  { p with peers := p.peers.map fun e => if e.wid = wid then f e else e }

/-- A frame of any kind comes from a peer: it is alive. -/
def Port.hear (p : Port) (wid : BitVec 16) (ref : Nat) : Port := p.modPeer wid fun e => { e with lastFrame := ref, suspected := false }

/-- A frame of a hive swarm has come to its port (R334). -/
def State.heard (s : State) (sw : Fin 256) (wid : BitVec 16) : State :=
  match s.swarm sw with
  | some w => if w.lvl then s.modPort w.port fun p => p.hear wid s.ref else s
  | none => s

/-! ### Rounds (R333, R335, R341) -/

/-- The members' slots show that a view change is being agreed. -/
def State.showChange (s : State) (sw : Fin 256) (w : Swarm) : State :=
  (s.localMembers w).foldl (fun s m => s.modTile m.2 fun x =>
    { x with views := x.views.map fun v => if v.v && v.sw == sw then { v with vc := true } else v }) s

/-- A view change is being agreed: members accept no new instance. In a thermal hold nothing of the comb changes: the slot follows as
the hold ends (R410). -/
def State.beginChange (s : State) (sw : Fin 256) (w : Swarm) : State :=
  (if s.hold then s else s.showChange sw w).modSwarm sw.val fun w => { w with vc := true }

/-- Instances that this wafer's member reports completed. -/
def State.completed (s : State) (w : Swarm) (sw : Fin 256) : List (Nat × BitVec 16) :=
  ((s.localMembers w).flatMap fun m =>
    ((s.tile m.2).colls.filter fun d => d.sw == sw).map fun d => (d.ch.val, d.inst)).dedup

/-- What the members at this wafer report, by roster position. -/
def State.reports (s : State) (w : Swarm) (sw : Fin 256) : List (Nat × List (Nat × BitVec 16)) :=
  (s.localMembers w).map fun m => (m.1, ((s.tile m.2).colls.filter fun d => d.sw == sw).map fun d => (d.ch.val, d.inst))

/-- Fates of the instances that a member of the new view lacks, FINISH where another member reported it completed; `reports`
holds what other wafers reported. -/
def State.fates (s : State) (w : Swarm) (sw : Fin 256) (members : List Nat) (reports : List (Nat × List (Nat × BitVec 16))) :
    List Fate :=
  let runs := (s.localMembers w).flatMap fun m =>
    (List.finRange 4).flatMap fun q => ((s.tile m.2).seqs[q].runs.filter fun r => r.sw == sw && !r.sends).map fun r => (r.ch.val, r.inst)
  let reports := (s.reports w sw ++ reports).filter fun e => members.contains e.1
  let lacked := (reports.flatMap Prod.snd).filter fun e => !reports.all fun r => r.2.contains e
  let who (e : Nat × BitVec 16) : Option Nat :=
    ((reports.filter fun r => r.2.contains e).map Prod.fst).foldl (fun m i => some (match m with
      | some k => min k i
      | none => i)) none
  (runs ++ lacked).dedup.map fun e => ⟨Fin.ofNat 256 e.1, e.2, (who e).isSome, (who e).getD 0⟩

/-- A peer wafer is suspected by the swarm's port. -/
def State.suspects (s : State) (w : Swarm) (i : Nat) : Bool :=
  (s.port w.port).peers.any fun p => p.wid == w.waferOf i && p.suspected

/-- Every member is quiet: no started, incomplete instance. -/
def State.quiet (s : State) (w : Swarm) (sw : Fin 256) : Bool := (s.localMembers w).all fun m => !(s.tile m.2).busyIn sw

/-- The route of one of a tile's collective entries of a swarm is BROKEN: the tile counts as a lost member (R313, log 57). -/
def Tile.cutOff (t : Tile) (sw : Fin 256) : Bool :=
  t.chans.any fun e => e.2.coll && e.2.sw == sw && t.route e.2.rt == brokenRoute

/-- The set S of a round: present members neither lost nor suspected nor leaving, and joiners when the swarm is quiet. -/
def State.roundSet (s : State) (w : Swarm) (sw : Fin 256) : List Nat :=
  (List.range w.roster.length).filter fun i =>
    let e := w.roster.getD i 0
    let alive := if w.lvl then !s.suspects w i else !s.isAbsent (w.tileOf i) && !(s.tile (w.tileOf i)).cutOff sw
    alive && !w.leave.contains i && (present e || (joining e && s.quiet w sw))

/-- A member on this wafer is MIGRATING: its swarm does not change view (R324). -/
def State.membersMove (s : State) (w : Swarm) : Bool := (s.localMembers w).any fun m => (s.tile m.2).mig.isSome

/-- A round is due (R333), or one that has begun starts over (R335). -/
def State.roundDue (s : State) (sw : Fin 256) (w : Swarm) : Bool :=
  w.v && w.round.isNone && w.held.isNone && !s.membersMove w && (w.vc || w.members != s.roundSet w sw) && !w.members.isEmpty

/-- The proposer of a set: its lowest rank among the members of the current view; a joiner outside the view proposes nothing
(R335). -/
def Swarm.proposer (w : Swarm) (ms : List Nat) : Option Nat := ms.find? fun i => present (w.roster.getD i 0)

/-- The lowest rank of S proposes (R335). At comb level the queen core plays every part, and commits at once. -/
def execWaggleRound (sw : Fin 256) (s : State) : Out :=
  match s.swarm sw with
  | none => .next s
  | some w =>
    if !w.v then .next s else
    let ms := s.roundSet w sw
    let top := if older16 w.vt w.seen then w.seen else w.vt
    let tag := top + 1
    let start (s : State) : State :=
      (s.beginChange sw w).modSwarm sw.val fun w =>
        { w with seen := tag, acked := tag, round := some ⟨tag, (w.proposer ms).getD 0, ms, [], s.ref⟩ }
    let frame (s : State) : CommitFrame := ⟨tag, ms, s.fates w sw ms [], s.nextInsts w sw⟩
    if !w.lvl then
      let s := start s
      .next (s.first (.ev (.commit sw (s.ctl.wafid.setWidth 16) (frame s))))
    else
      match s.ownIndex w with
      | none => .next s
      | some me =>
        if w.proposer ms = some me then
          let s := (start s).frame sw w.relay (.propose sw tag ms w.ni)
          .next (if ms.length = 1 then s.first (.ev (.commit sw (w.waferOf me) (frame s))) else s)
        else .next s

/-- Counts a stale frame (R335). -/
def State.stalePort (s : State) (p : Fin 16) : State :=
  s.modPort p fun x => x.count pStale 1

/-- This wafer may acknowledge a proposal: one that admits a joiner waits until its member has no incomplete instance
(R341); a MIGRATING anchor keeps its view (R324). -/
def State.mayAck (s : State) (w : Swarm) (sw : Fin 256) (members : List Nat) : Bool :=
  (members.all (fun i => present (w.roster.getD i 0)) || s.quiet w sw) && !s.membersMove w

/-- A PROPOSE frame (R335): a newer one with this wafer in S is acknowledged; an older one is stale. -/
def execPropose (sw : Fin 256) (src tag : BitVec 16) (members : List Nat) (_ni : BitVec 16) (s : State) : Out :=
  match s.swarm sw with
  | none => .next s
  | some w =>
    if !w.v || !w.lvl then .next s else
    let seen := if older16 w.seen tag then tag else w.seen
    let s := (s.heard sw src).modSwarm sw.val fun w => { w with seen := seen }
    match s.ownIndex w, w.roster.findIdx? fun e => e.setWidth 16 == src with
    | some me, some lead =>
      if !older16 w.acked tag || !older16 w.vt tag then .next (s.stalePort w.port)
      else if !members.contains me then .next s
      else
        let relay := s.assisted fnWaggle
        let s := (s.beginChange sw w).modSwarm sw.val fun w => { w with round := some ⟨tag, lead, members, [], s.ref⟩, relay := relay }
        if s.mayAck w sw members then
          .next ((s.modSwarm sw.val fun w => { w with acked := tag }).frame sw relay (.ack sw src tag (s.completed w sw)))
        else .next s
    | _, _ => .next s

/-- An ACK frame at the proposer (R335); the last one of S lets it commit. -/
def execAck (sw : Fin 256) (src tag : BitVec 16) (done : List (Nat × BitVec 16)) (s : State) : Out :=
  match s.swarm sw with
  | none => .next s
  | some w =>
    let s := s.heard sw src
    match w.round with
    | none => .next s
    | some r =>
      match w.roster.findIdx? fun e => e.setWidth 16 == src, s.ownIndex w with
      | some i, some me =>
        if r.tag ≠ tag ∨ r.by_ ≠ me ∨ !r.set.contains i then .next s else
        let acks := r.acks.filter (fun a => a.1 != i) ++ [(i, done)]
        let s := s.modSwarm sw.val fun w => { w with round := some { r with acks := acks } }
        if r.set.all fun j => j == me || acks.any fun a => a.1 == j then
          .next (s.first (.ev (.commit sw (w.waferOf me)
            ⟨tag, r.set, s.fates w sw r.set acks, s.nextInsts w sw⟩)))
        else .next s
      | _, _ => .next s

/-- A COMMIT (R335): the member installs one newer than the tag it holds; the proposer also sends it. One that finds the anchor
MIGRATING waits until it has moved (R324); in a thermal hold the proposer sends it and the installation waits for the release
(R410). -/
def execCommit (sw : Fin 256) (src : BitVec 16) (f : CommitFrame) (s : State) : Out :=
  match s.swarm sw with
  | none => .next s
  | some w =>
    if !w.v then .next s else
    let own := w.lvl && src == s.ctl.wafid.setWidth 16
    let s := if own then s else s.heard sw src
    if !older16 w.vt f.tag then .next (if w.lvl then s.stalePort w.port else s) else
    if s.membersMove w then .next (s.modSwarm sw.val fun w => { w with held := some (src, f) }) else
    let s := if own && w.round.isSome then s.frame sw w.relay (.commit sw f) else s
    if s.hold then .next (s.modSwarm sw.val fun w => { w with held := some (src, f), round := none }) else
    .next (s.install sw w f)

/-- A JOIN frame of a returning wafer records a join request (R341). -/
def execJoin (sw : Fin 256) (src : BitVec 16) (s : State) : Out :=
  match s.swarm sw with
  | none => .next s
  | some w =>
    match w.roster.findIdx? fun e => e.setWidth 16 == src with
    | some i =>
      let s := s.heard sw src
      if present (w.roster.getD i 0) then .next s
      else .next (s.modSwarm sw.val fun w => { w with roster := w.roster.set i (w.roster.getD i 0 ||| 0x40000000) })
    | none => .next s

/-- Members of S that have not acknowledged in 30 µs. -/
def Round.silent (r : Round) (me ref : Nat) : List Nat :=
  if r.start + 37500 ≤ ref then r.set.filter fun i => i != me && !(r.acks.any fun a => a.1 == i) else []

/-- Rounds and deferred acknowledgements of a tick; a proposer's members that do not acknowledge in 30 µs are suspected,
and a member whose proposer is suspected runs its own round (R335). -/
def State.swarmEvents (s : State) : List Move :=
  s.swarms.flatMap fun e =>
    let sw : Fin 256 := Fin.ofNat 256 e.1
    let w := e.2
    let held : List Move := match w.held with
      | some c => if s.membersMove w || s.hold then [] else [.ev (.commit sw c.1 c.2)]
      | none => []
    if s.roundDue sw w then [Move.ev (.waggleRound sw)]
    else held ++ match w.round, s.ownIndex w with
      | some r, some me =>
        if !w.lvl then []
        else if r.by_ = me then (r.silent me s.ref).map fun i => Move.ev (.suspicion w.port (w.waferOf i))
        else if s.suspects w r.by_ then [Move.ev (.waggleRound sw)] else []
      | _, _ => []

/-- A deferred ACK leaves once the member has no incomplete instance (R341). -/
def State.lateAcks (s : State) : State :=
  s.swarms.foldl (fun s e =>
    let sw : Fin 256 := Fin.ofNat 256 e.1
    let w := e.2
    match w.round, s.ownIndex w with
    | some r, some me =>
      if w.lvl && r.by_ != me && older16 w.acked r.tag && s.mayAck w sw r.set then
        (s.modSwarm sw.val fun w => { w with acked := r.tag }).frame sw w.relay (.ack sw (w.waferOf r.by_) r.tag (s.completed w sw))
      else s
    | _, _ => s) s

end Sys2Proof.Machine
end

