-- ==== Sys2Proof/Machine/Port.lean ====
section
/-! DEFINITION. Optical ports (R15, R334, R343 to R349): plane tables and cached routes, heartbeats and suspicion, the link
layer, remote atomics, the anchor's contribution, port reset. Times count the reference clock. -/

namespace Sys2Proof.Machine

/-- Reference ticks of 5, 10 and 30 µs (R334). -/
def us5 : Nat := 6250
def us10 : Nat := 12500
def us30 : Nat := 37500

/-! ### Planes, peers -/

/-- The entry of a plane and a wavelength is changed. -/
def Port.setEntry (p : Port) (k : Fin 4) (i : Fin 64) (f : PlaneEntry → PlaneEntry) : Port :=
  { p with planes := vset p.planes k (vset p.planes[k] i (f p.planes[k][i])) }

/-- Valid peers of the plane table. -/
def Port.valid (p : Port) : List (BitVec 16) :=
  ((List.finRange 4).flatMap fun k => ((List.finRange 64).filter fun i => (p.entry k i).v).map fun i => (p.entry k i).wid).dedup

/-- A peer of which nothing has been heard. -/
def Peer.fresh (wid : BitVec 16) (ref : Nat) : Peer where
  wid := wid
  txSeq := 0
  rxNext := 0
  window := []
  lastFrame := ref
  suspected := false
  route := none
  rot := 0
  busy := Vector.replicate 4 0
  resp := none

/-- Every valid peer has its link record. -/
def Port.meetPeers (p : Port) (ref : Nat) : Port :=
  let new := p.valid.filter fun w => !(p.peers.any fun e => e.wid == w)
  if new.isEmpty then p else { p with peers := p.peers ++ new.map fun w => Peer.fresh w ref }

/-- Cached routes are invalidated (R346). -/
def Port.dropRoutes (p : Port) : Port := { p with peers := p.peers.map fun e => { e with route := none } }
def Port.dropRoute (p : Port) (wid : BitVec 16) : Port := p.modPeer wid fun e => { e with route := none }

/-- The cached route of a peer, rebuilt when it has been invalidated. -/
def Port.routeOf (p : Port) (wid : BitVec 16) : List (Fin 4) := ((p.peer wid).bind Peer.route).getD (p.planesTo wid)

/-- Planes of a peer's route that are in rotation. -/
def Port.rotation (p : Port) (wid : BitVec 16) : List (Fin 4) := (p.routeOf wid).filter fun k => p.rot[k]

/-! ### Heartbeats and suspicion (R334) -/

/-- A heartbeat to a peer on a plane leaves on this reference tick. -/
def beatDue (p : Fin 16) (wid : BitVec 16) (k : Fin 4) (ref : Nat) : Bool :=
  (ref + Config.heartbeatPhase p.val wid.toNat k.val) % us10 == 0

/-- Heartbeats that a port sends on a reference tick. -/
def Port.beats (p : Port) (n : Fin 16) (ref : Nat) : List PortFrame :=
  p.valid.flatMap fun w => ((p.planesTo w).filter fun k => beatDue n w k ref).map fun k => PortFrame.heartbeat w k

/-- A port sends a heartbeat frame to every valid peer on every plane that reaches it, every 10 µs. -/
def execHeartbeat (p : Fin 16) (s : State) : Out :=
  .next (s.modPort p fun x => { x with sent := x.sent ++ x.beats p s.ref })

def execHeartbeatFrame (p : Fin 16) (_plane : Fin 4) (src : BitVec 16) (s : State) : Out :=
  .next (s.modPort p fun x => (x.meetPeers s.ref).hear src s.ref)

/-- A peer is suspected: its cached route goes (R334, R346). A round whose proposer it is starts over at the members; one that this
wafer proposed starts over when the peer has not acknowledged in 30 µs (R335). -/
def execSuspicion (p : Fin 16) (peer : BitVec 16) (s : State) : Out :=
  let s := s.modPort p fun x =>
    let x := if (x.peer peer).isSome then x else { x with peers := x.peers ++ [Peer.fresh peer s.ref] }
    (x.modPeer peer fun e => { e with suspected := true }).dropRoute peer
  .next { s with swarms := s.swarms.map fun e =>
    let w := e.2
    let restarts (r : Round) : Bool :=
      if s.ownIndex w = some r.by_ then (r.silent r.by_ s.ref).any fun i => w.waferOf i == peer else w.waferOf r.by_ == peer
    if w.lvl && w.port == p && w.round.any restarts then (e.1, { w with round := none }) else e }

/-- Peers of a port whose silence reaches 30 µs. -/
def Port.silent (p : Port) (ref : Nat) : List (BitVec 16) :=
  (p.peers.filter fun e => !e.suspected && p.valid.contains e.wid && decide (e.lastFrame + us30 ≤ ref)).map Peer.wid

/-! ### The link layer (R344, R345) -/

/-- A packet joins the transmit queue with the next number of its direction; `addr`: where in SRAM its payload was read. -/
def Port.enqueue (p : Port) (pk : Packet) (addr : Nat := 0) : Port :=
  let n := ((p.peer pk.dst).map Peer.txSeq).getD 0
  let p := if (p.peer pk.dst).isSome then p else { p with peers := p.peers ++ [Peer.fresh pk.dst 0] }
  { p.modPeer pk.dst (fun e => { e with txSeq := e.txSeq + 1 }) with
      txq := p.txq ++ [⟨pk.dst, 0, addr, pk.payload.length, { pk with seq := n }, none, none⟩] }

/-- Reference ticks that a packet takes of its plane: 64 Gb/s to one peer, which is 6.4 bytes of payload a tick (R16, R343). -/
def packetTicks (len : Nat) : Nat := max 1 ((10 * len + 63) / 64)

/-- The plane that a descriptor goes out on: the next of its peer's rotation, once it is free; none while the peer has no plane. -/
def Port.planeFor (p : Port) (ref : Nat) (d : TxDesc) : Option (Fin 4) :=
  let rot := ((p.peer d.peer).map Peer.rot).getD 0
  let ks := p.rotation d.peer
  ks[rot % ks.length]?.filter fun k => (p.peer d.peer).all fun e => decide (e.busy[k] ≤ ref)

/-- Planes as a mask. -/
def planeMask (ks : List (Fin 4)) : BitVec 4 := ks.foldl (fun m k => m ||| (1#4 <<< k.val)) 0

/-- A descriptor's packet goes out on the next plane of its peer's rotation; until it can, it is held. -/
def Port.sendDesc (p : Port) (ref i : Nat) : Port :=
  match p.txq[i]? with
  | none => p
  | some d =>
    match p.planeFor ref d with
    | none => p
    | some k =>
      let route := p.routeOf d.peer
      let p := p.modPeer d.peer fun e => { e with rot := e.rot + 1, route := some route, busy := vset e.busy k (ref + packetTicks d.len) }
      { p with txq := p.txq.set i { d with mask := planeMask route, plane := some k, sentAt := some ref }, sent := p.sent ++ [.packet k d.pk] }

/-- Packets not yet sent leave. -/
def Port.sendNew (p : Port) (ref : Nat) : Port :=
  (List.range p.txq.length).foldl (fun p i =>
    if (p.txq[i]?).any fun d => d.sentAt.isNone then p.sendDesc ref i else p) p

/-- A packet unacknowledged for 5 µs is sent again on the next plane, and counted (R344). -/
def Port.resend (p : Port) (ref : Nat) : Port :=
  (List.range p.txq.length).foldl (fun p i =>
    if (p.txq[i]?).any fun d => d.sentAt.any (fun k => decide (k + us5 ≤ ref)) && (p.planeFor ref d).isSome then
      (p.sendDesc ref i).count pRetx 1 else p) p

def execRetransmission (p : Fin 16) (s : State) : Out := .next (s.modPort p fun x => x.resend s.ref)

/-- The acknowledgement of a packet frees its descriptor. -/
def execPacketAcknowledgement (p : Fin 16) (peer : BitVec 16) (seq : BitVec 32) (s : State) : Out :=
  .next (s.modPort p fun x =>
    { x.hear peer s.ref with txq := x.txq.filter fun d => !(d.peer == peer && d.pk.seq == seq) })

/-- Packets that take places of the receive queue: received ones, those held for a newer view, atomic requests not yet answered
(R283; log 77). -/
def Port.waiting (p : Port) : Nat := p.rxq.length + p.early.length + p.atomIn.length

/-- A packet reaches its receiver in sequence order (R344, R347, R353). -/
def State.deliverPacket (s : State) (p : Fin 16) (pk : Packet) : State :=
  match pk.kind with
  | .atomicReq => (s.modPort p fun x => { x with atomIn := x.atomIn ++ [pk] }).first (.ev (.remoteAtomic p))
  | .atomicResp => s.modPort p fun x =>
      { x with atomic := x.atomic.map fun a =>
          if a.peer = pk.src ∧ a.reqno = pk.reqno ∧ a.answer.isNone then { a with answer := some (false, pk.arg) } else a }
  | .data =>
    if !pk.sv then s.modPort p fun x => { x with rxq := x.rxq ++ [pk] } else
    match s.swarm pk.swn with
    | none => s.modPort p fun x => x.count pBad 1
    | some w =>
      if !w.v || !w.lvl || w.port != p then s.modPort p fun x => x.count pBad 1
      else if older16 pk.vt w.vt then s.modPort p fun x => x.count pStale 1
      else if pk.vt = w.vt then s.modPort p fun x => { x with rxq := x.rxq ++ [pk] }
      else s.modPort p fun x => { x with early := x.early ++ [pk] }

/-- Packets of a peer that stand next in sequence are handed on, while the receive queue has room (fuel: the window). -/
def State.drainWindow (s : State) (p : Fin 16) (wid : BitVec 16) : Nat → State
  | 0 => s
  | n + 1 =>
    let x := s.port p
    match x.peer wid with
    | none => s
    | some e =>
      match e.window.find? fun k => k.seq == e.rxNext with
      | none => s
      | some pk =>
        if 64 ≤ x.waiting ∧ pk.kind ≠ .atomicResp then s else
        ((s.modPort p fun x => x.modPeer wid fun e =>
          { e with rxNext := e.rxNext + 1, window := e.window.filter fun k => k.seq != pk.seq }).deliverPacket p pk).drainWindow p wid n

/-- An optical packet arrives (R344): checked against the plane table, acknowledged, placed in sequence order. One that
finds the receive queue full is not acknowledged (R283). -/
def execPacketArrival (p : Fin 16) (plane : Fin 4) (wave : Fin 64) (pk : Packet) (s : State) : Out :=
  let x := (s.port p).meetPeers s.ref
  let e := x.entry plane wave
  if !(e.v && e.wid == pk.src) then .next (s.modPort p fun x => x.count pBad 1) else
  let s := s.modPort p fun x => (x.meetPeers s.ref).hear pk.src s.ref
  match (s.port p).peer pk.src with
  | none => .next s
  | some r =>
    let ack (s : State) : State := s.emit p (.packetAck pk.src pk.seq)
    let ahead := (pk.seq - r.rxNext).toNat
    if ahead ≥ 2 ^ 31 ∨ r.window.any (fun k => k.seq == pk.seq) then
      .next (ack (s.modPort p fun x => x.count pDup 1))
    else if ahead ≥ 256 ∨ 64 ≤ (s.port p).waiting then .next s
    else
      .next (ack ((s.modPort p fun x => x.modPeer pk.src fun e => { e with window := e.window ++ [pk] }).drainWindow p pk.src 257))

/-! ### Remote atomics (R347) -/

/-- The word of an SRAM address aligned down to 4. -/
def sramWordAt (a : Nat) : Nat := a % 2 ^ 20 / 4 * 4

/-- Bytes of a scout's SRAM; an uncorrectable word reads as zero (R350). -/
def Scout.read (c : Scout) (a n : Nat) : List Byte :=
  (List.range n).map fun i => if c.bad.contains ((a + i) / 4) then 0 else c.sram.read (a + i)
/-- Uncorrectable words in a span. -/
def Scout.badWords (c : Scout) (a n : Nat) : Nat := (c.bad.filter fun w => decide (a / 4 ≤ w) && decide (4 * w < a + n)).length
def Scout.write (c : Scout) (a : Nat) (bs : List Byte) : Scout :=
  { c with sram := c.sram.writeN a bs, bad := c.bad.filter fun w => !(decide (a / 4 ≤ w) && decide (4 * w < a + bs.length)) }

/-- The response to a request. -/
def atomicResponse (q : Packet) (old : Word) : Packet :=
  { q with kind := .atomicResp, src := q.dst, dst := q.src, seq := 0, sv := false, payload := [], arg := old }

/-- The request's effect on the port. -/
def Port.applyAtomic (x : Port) (q : Packet) : Port :=
  let a := sramWordAt q.addr
  let old := leWord (x.scout.read a 4)
  let x := x.count pBad (x.scout.badWords a 4)
  let x := { x with scout := x.scout.write a (leBytes 4 (old + q.arg).toNat) }
  (x.modPeer q.src fun e => { e with resp := some (q.reqno, old) }).enqueue (atomicResponse q old)

/-- A remote atomic request is applied once; a duplicate gets the kept response again. The request waits while the transmit queue
has no place for the answer (R283). -/
def execRemoteAtomic (p : Fin 16) (s : State) : Out :=
  let x := s.port p
  match x.atomIn with
  | [] => .next s
  | q :: rest =>
    if 64 ≤ x.txq.length then .next s else
    let s := s.modPort p fun x => { x with atomIn := rest }
    match (x.peer q.src).bind Peer.resp with
    | some (n, old) =>
      if n = q.reqno then .next (s.modPort p fun x => x.enqueue (atomicResponse q old))
      else .next (s.modPort p fun x => x.applyAtomic q)
    | none => .next (s.modPort p fun x => x.applyAtomic q)

/-- The first transmission of a request is noted. -/
def Port.markAtomic (p : Port) : Port :=
  { p with atomic := p.atomic.map fun a =>
      if a.sentAt.isSome then a else
      { a with sentAt := (p.txq.find? fun d => d.pk.kind == .atomicReq && d.pk.reqno == a.reqno).bind TxDesc.sentAt } }

/-- No answer 30 µs after the first transmission. -/
def Atomic.late (a : Atomic) (ref : Nat) : Bool := a.answer.isNone && a.sentAt.any fun k => decide (k + us30 ≤ ref)

/-- No response within 30 µs: the instruction ends with time-out. -/
def execRemoteAtomicTimeout (p : Fin 16) (s : State) : Out :=
  .next (s.modPort p fun x =>
    match x.atomic with
    | some a =>
      if a.late s.ref then
        { x.count pRatmo 1 with atomic := some { a with answer := some (true, 0) } }
      else x
    | none => x)

/-! ### Links and reset (R346) -/

/-- A plane link loses light or fails training. -/
def execLinkLoss (p : Fin 16) (plane : Fin 4) (wave : Fin 64) (s : State) : Out :=
  .next (s.modPort p fun x =>
    (x.setEntry plane wave fun e => { e with up := false }).dropRoute (x.entry plane wave).wid)

/-- A port reset clears the port's semaphores and counters and invalidates its cached routes (R346, R348, R359). -/
def execPortReset (p : Fin 16) (s : State) : Out :=
  .next (s.modPort p fun x => { x.dropRoutes with psem := Vector.replicate 64 0, cnt := Vector.replicate 6 0 })

/-- The link layer of a port on a reference tick: new packets leave; what is due is an event. -/
def State.portTick (s : State) (p : Fin 16) : State :=
  let s := s.modPort p fun x =>
    let x := ((x.meetPeers s.ref).sendNew s.ref).markAtomic
    let due := (x.sigCredits.filter fun k => decide (k ≤ s.now)).length
    { x with sigsOut := x.sigsOut - due, sigCredits := x.sigCredits.filter fun k => decide (s.now < k) }
  let s := (s.port p).peers.foldl (fun s e => if e.window.isEmpty then s else s.drainWindow p e.wid 257) s
  let x := s.port p
  let evs : List Instr :=
    (if (x.beats p s.ref).isEmpty then [] else [.heartbeat p]) ++
    (x.silent s.ref).map (fun w => .suspicion p w) ++
    (if x.txq.any fun d => d.sentAt.any fun k => decide (k + us5 ≤ s.ref) then [.retransmission p] else []) ++
    (if x.atomIn.isEmpty then [] else [.remoteAtomic p]) ++
    (if x.atomic.any fun a => a.late s.ref then [.remoteAtomicTimeout p] else [])
  if evs.isEmpty then s else { s with agenda := evs.map Move.ev ++ s.agenda }

/-! ### The anchor's contribution (R349) -/

/-- The hive collective of a sequencer whose contribution is next to go to its port. -/
def Tile.hiveWant (t : Tile) (now : Nat) (q : Fin 4) : Option CollRun :=
  t.seqs[q].runs.find? fun r => r.hive && !r.queued && decide (0 < r.portLeft) && decide (r.accepted + 2 ≤ now) &&
    (r.rdOpen || r.sends || (t.bufs[r.src].wr == 0 && decide (t.bufs[r.src].rd.toNat < 15)))

/-- Addresses of the next flit of a contribution, or of a result that another wafer lacks. -/
def Tile.hiveSpan (t : Tile) (r : CollRun) : List Nat :=
  let n := min (perFlit r.xf * r.e) r.portLeft
  match r.mode with
  | .sending base => span (base + r.toff + (r.resultBytes - r.portLeft)) n
  | _ => span (t.bufs[r.src].front + (r.sourceBytes - r.portLeft)) n

/-- A flit of the contribution goes to the port, converted in exact mode (R304). -/
def State.hiveGrant (s : State) (t : TileId) (q : Fin 4) (r : CollRun) (port : Fin 16) : State :=
  let x := s.tile t
  let as := x.hiveSpan r
  let n := as.length
  let bs := x.readSpm as
  let elems := (List.range (n / r.e)).map fun i =>
    let v := leNat ((bs.drop (i * r.e)).take r.e)
    if r.xf ∧ r.e = 4 then fxOfWord r.win (BitVec.ofNat 32 v) else (BitVec.ofNat 128 v, false)
  let out := elems.flatMap fun e => leBytes (if r.xf then 16 else 4) e.1.toNat
  let sat := (elems.filter Prod.snd).length
  let s := s.modTile t fun x =>
    let x := x.countReads r.ctx 0 (as.map (· / 4))
    let x := if sat = 0 then x else x.count fxSat sat
    let x := if r.rdOpen then x else x.setBuf r.src fun b => { b with rd := b.rd + 1 }
    x.setSeq q fun y => y.setRun r.id fun r => { r with rdOpen := true, portLeft := r.portLeft - n, last := s.now }
  let total := r.sourceBytes / r.e * (if r.xf then 16 else 4)
  let same (c : Contribution) : Bool := c.sw == r.sw && c.ch == r.ch && c.inst == r.inst && c.vt == r.vt
  s.modPort port fun p =>
    if p.contrib.any same then
      { p with contrib := p.contrib.map fun c => if same c then { c with data := c.data ++ out } else c }
    else { p with contrib := p.contrib.filter (fun c => c.sw != r.sw || c.vt == r.vt) ++ [⟨r.sw, r.ch, r.vt, r.inst, total, out⟩] }

/-- A flit of a result that another wafer lacks is read where it was written and leaves by the port (R337, log 45). -/
def State.resultGrant (s : State) (t : TileId) (q : Fin 4) (r : CollRun) (port : Fin 16) : State :=
  let x := s.tile t
  let as := x.hiveSpan r
  let n := as.length
  let done := r.resultBytes - r.portLeft
  let f : PortFrame := .result r.sw ⟨r.ch, r.inst, r.vt, done / r.e, x.readSpm as⟩
  (s.modTile t fun x =>
    (x.countReads r.ctx 0 (as.map (· / 4))).setSeq q fun y => y.setRun r.id fun r => { r with portLeft := r.portLeft - n, last := s.now }).emit
    port f

/-- The port serves a sequencer with a flit for the optical port; a locked bank holds it (R172). -/
def State.hiveServe (s : State) (t : TileId) : State :=
  let x := s.tile t
  match (List.finRange 4).findSome? fun q => (x.hiveWant s.now q).map fun r => (q, r) with
  | none => s
  | some (q, r) =>
    if x.locked s.now (x.hiveSpan r) then s else
    match s.swarm r.sw with
    | some w => if r.sends then s.resultGrant t q r w.port else s.hiveGrant t q r w.port
    | none => s

end Sys2Proof.Machine
end

