-- ==== Sys2Proof/Machine/Scout.lean ====
section
/-! DEFINITION. Scout code (R53, R350 to R357): one meaning for each Puren-S instruction, acting on the scout of
`State.curPort`. An instruction that waits leaves the scout in place; one that moves data takes 64 B a tick and has its
effect on the last of these ticks. -/

namespace Sys2Proof.Machine

/-- A field of a scout register. -/
def bits64 (v : BitVec 64) (lo n : Nat) : Nat := v.toNat / 2 ^ lo % 2 ^ n

/-- Words of the scout's program space. -/
def scoutWords : Nat := 2 ^ 18

def State.sc (s : State) : Scout := (s.port s.curPort).scout
def State.modScout (s : State) (f : Scout → Scout) : State := s.modPort s.curPort fun p => { p with scout := f p.scout }
def State.rx (s : State) (r : Fin 16) : BitVec 64 := s.sc.x[r]

/-- The instruction ends: the pc moves on. -/
def State.scoutGo (s : State) (pc : Nat) : State := s.modScout fun c => { c with pc := pc % scoutWords, waitVt := none, busy := none }
def State.scoutNext (s : State) : State := s.scoutGo (s.sc.pc + 1)
/-- It ends with a result. -/
def State.scoutSet (s : State) (d : Fin 16) (v : BitVec 64) : State :=
  (s.modScout fun c => { c with x := vset c.x d v }).scoutNext
/-- The scout halts with a cause (R350). -/
def State.scoutHalt (s : State) (cause : Nat) : State :=
  s.modScout fun c => { c with halted := some cause, waitVt := none, busy := none }

/-- The all-ones result. -/
def ones64 : BitVec 64 := BitVec.allOnes 64

/-- Address of scout data (R350). -/
def dataAddr (v : BitVec 64) : Nat := bits64 v 0 20 / 16 * 16

/-- A transfer stays inside SRAM, and its effect comes on the tick on which its last byte has moved; a transfer that
passes the end of SRAM halts the scout with cause range. -/
def State.moving (s : State) (addr n : Nat) (k : State → State) : State :=
  if addr + n > 2 ^ 20 then s.scoutHalt 2 else
  match s.sc.busy with
  | none => if n ≤ 64 then k s else s.modScout fun c => { c with busy := some (s.ref + (n - 1) / 64) }
  | some b => if s.ref < b then s else k s

/-- The scout stays at an instruction that waits; the tag of the view it waits under is kept. -/
def State.scoutWait (s : State) (vt : Option (BitVec 16)) : State :=
  s.modScout fun c => { c with waitVt := if c.waitVt.isSome then c.waitVt else vt, busy := none }

/-- The view changed while the instruction waited. -/
def State.viewMoved (s : State) (vt : BitVec 16) : Bool := s.sc.waitVt.any fun v => v != vt

/-- A swarm that names this port (R353, R356). -/
def State.portSwarm (s : State) (n : Fin 256) : Option Swarm :=
  (s.swarm n).bind fun w => if w.v && w.lvl && w.port == s.curPort then some w else none

/-- Bytes read from SRAM; uncorrectable words count `P_BAD` (R350). -/
def State.sramRead (s : State) (a n : Nat) : List Byte × State :=
  (s.sc.read a n, s.modPort s.curPort fun p => p.count pBad (p.scout.badWords a n))

/-! ### Scalar instructions (R351) -/

/-- SHALT halts with cause 0. -/
def execShalt (s : State) : Out := .next (s.scoutHalt 0)
def execSmov (d a : Fin 16) (s : State) : Out := .next (s.scoutSet d (s.rx a))
def execSadd (d a b : Fin 16) (s : State) : Out := .next (s.scoutSet d (s.rx a + s.rx b))
def execSaddi (d a : Fin 16) (imm : BitVec 18) (s : State) : Out := .next (s.scoutSet d (s.rx a + imm.signExtend 64))

def scoutCond (c : ScoutCond) (v : BitVec 64) : Bool :=
  match c with
  | .eqz => v == 0
  | .nez => v != 0
  | .ltz => v.msb
  | .gez => !v.msb

/-- A branch target: words from the branch's own address (R53). -/
def scoutTarget (pc : Nat) (off : Int) : Nat := (((pc : Int) + off) % (scoutWords : Int)).toNat

def execSbr (a : Fin 16) (c : ScoutCond) (off : BitVec 20) (s : State) : Out :=
  .next (if scoutCond c (s.rx a) then s.scoutGo (scoutTarget s.sc.pc off.toInt) else s.scoutNext)
def execSjmp (off : BitVec 26) (s : State) : Out := .next (s.scoutGo (scoutTarget s.sc.pc off.toInt))

/-! ### Port semaphores (R351, R352) -/

def execSwaitsem (k : Fin 64) (a : Fin 16) (s : State) : Out :=
  let want := (s.rx a).setWidth 16
  let have_ := (s.port s.curPort).psem[k]
  if want.toNat ≤ have_.toNat then
    .next ((s.modPort s.curPort fun p => { p with psem := vset p.psem k (have_ - want) }).scoutNext)
  else .next (s.scoutWait none)

/-- A port semaphore rises, saturating (R348). -/
def Port.raiseSem (p : Port) (k : Fin 64) (n : Nat) : Port :=
  { p with psem := vset p.psem k (BitVec.ofNat 16 (min 0xFFFF (p.psem[k].toNat + n))) }

/-- Header of a scout's SIG: its sender is (511, P). -/
def portSigHeader (p : Fin 16) (v : BitVec 64) : Header where
  ch := bits64 v 12 8
  sx := 511
  sy := p.val
  kd := 2
  rop := 0
  len := 0
  sem := bits64 v 8 4
  inc := bits64 v 0 8
  ck := 0
  cof := 0

/-- Flits of a port enter a tile by its edge port, in order: 96 bytes a tick over both lanes, which is six flits (R14). That the edge
port is input 5 is DEDUCED, log 33. -/
def Tile.feed (t : Tile) (laneR : Bool) (now : Nat) (fs : List Flit) : Tile :=
  let wire := t.inC[(5 : Fin 6)].wire ++ t.inR[(5 : Fin 6)].wire
  let last := wire.foldl (fun k w => max k w.1) (now + 1)
  let there := (wire.filter fun w => w.1 == last).length
  t.setInput laneR 5 fun n =>
    { n with wire := n.wire ++ ((List.range fs.length).zip fs).map fun e => (last + (there + e.1) / 6, e.2) }

/-- A SIG to the port's own tile enters by the tile's own input, after what is on its way there (R352). -/
def Tile.feedOwn (t : Tile) (now : Nat) (f : Flit) : Tile :=
  t.setInput false 4 fun n => { n with wire := n.wire ++ [(n.wire.foldl (fun k w => max k w.1) (now + 1), f)] }

/-- The SIG to a tile leaves on lane C from the port's lowest-numbered active tile; one without a route is dropped and
counted. -/
def State.sendPortSig (s : State) (v : BitVec 64) : State :=
  let x := bits64 v 20 9
  let y := bits64 v 29 9
  let goal := mkTile x y
  match s.portTile s.curPort with
  | none => s.modPort s.curPort fun p => p.count pBad 1
  | some t =>
    if !s.inGrid x y || s.isAbsent goal then s.modPort s.curPort fun p => p.count pBad 1 else
    let steer := if goal = t then 0 else s.routeTo t goal
    if steer = brokenRoute then s.modPort s.curPort fun p => p.count pBad 1 else
    let f : Flit := ⟨.c, true, true, (portSigHeader s.curPort v).pack, steer, none, none⟩
    (s.modTile t fun y => if goal = t then y.feedOwn s.now f else y.feed false s.now [f]).modPort s.curPort fun p => { p with sigsOut := p.sigsOut + 1 }

def execSsigsem (k : Fin 64) (a : Fin 16) (s : State) : Out :=
  let v := s.rx a
  if v.getLsbD 63 then
    if 64 ≤ (s.port s.curPort).sigsOut then .next (s.scoutWait none) else .next ((s.sendPortSig v).scoutNext)
  else .next ((s.modPort s.curPort fun p => p.raiseSem k (bits64 v 0 16)).scoutNext)

/-! ### SXMIT (R347, R353) -/

/-- Why a packet is not queued: 3 before 1, 1 before 2; 0 when it is. -/
def State.xmitCode (s : State) (v : BitVec 64) : Nat :=
  let len := bits64 v 0 16
  let dst : BitVec 16 := BitVec.ofNat 16 (bits64 v 16 16)
  let inView := match s.portSwarm (Fin.ofNat 256 (bits64 v 32 8)) with
    | some w => w.members.any fun i => w.waferOf i == dst
    | none => false
  if len < 16 ∨ 4096 < len ∨ len % 16 ≠ 0 then 3
  else if v.getLsbD 40 && !inView then 1
  else if ((s.port s.curPort).planesTo dst).isEmpty then 2
  else 0

/-- The packet of SXMIT DATA. -/
def State.xmitPacket (s : State) (v : BitVec 64) (data : List Byte) : Packet :=
  let sv := v.getLsbD 40
  let n : Fin 256 := Fin.ofNat 256 (bits64 v 32 8)
  { kind := .data, src := s.ctl.wafid.setWidth 16, dst := BitVec.ofNat 16 (bits64 v 16 16), seq := 0, sv := sv,
    swn := if sv then n else 0, vt := if sv then ((s.portSwarm n).map Swarm.vt).getD 0 else 0,
    sh := BitVec.ofNat 16 (bits64 v 41 16), payload := data, addr := 0, arg := 0, reqno := 0 }

def execSxmitData (d a b : Fin 16) (s : State) : Out :=
  let v := s.rx b
  let code := s.xmitCode v
  if code ≠ 0 then .next (s.scoutSet d (BitVec.ofNat 64 code))
  else if 64 ≤ (s.port s.curPort).txq.length then .next (s.scoutWait none)
  else .next (s.moving (dataAddr (s.rx a)) (bits64 v 0 16) fun s =>
    let r := s.sramRead (dataAddr (s.rx a)) (bits64 v 0 16)
    (r.2.modPort s.curPort fun p => p.enqueue (s.xmitPacket v r.1) (dataAddr (s.rx a))).scoutSet d 0)

/-- A remote atomic's request. -/
def State.atomicRequest (s : State) (a b : BitVec 64) (n : Nat) : Packet :=
  { kind := .atomicReq, src := s.ctl.wafid.setWidth 16, dst := BitVec.ofNat 16 (bits64 b 32 16), seq := 0, sv := false, swn := 0, vt := 0,
    sh := 0, payload := [], addr := bits64 a 0 20 / 4 * 4, arg := b.setWidth 32, reqno := n }

def execSxmitAtomic (d a b : Fin 16) (s : State) : Out :=
  match (s.port s.curPort).atomic with
  | some q =>
    match q.answer with
    | some (late, old) =>
      .next ((s.modPort s.curPort fun p => { p with atomic := none }).scoutSet d
        (BitVec.ofNat 64 (if late then 2 ^ 32 else old.toNat)))
    | none => .next (s.scoutWait none)
  | none =>
    if 64 ≤ (s.port s.curPort).txq.length then .next (s.scoutWait none)
    else .next ((s.modPort s.curPort fun p =>
      let n := p.nextReq
      { p.enqueue (s.atomicRequest (s.rx a) (s.rx b) n) with
          nextReq := n + 1, atomic := some ⟨BitVec.ofNat 16 (bits64 (s.rx b) 32 16), n, none, none⟩ }).scoutWait none)

/-! ### SRECV (R353) -/

/-- The packet register's {SV, SWN}. -/
def recvMatch (v : BitVec 64) (p : Packet) : Bool :=
  p.sv == v.getLsbD 8 && (if p.sv then p.swn.val else 0) == (if p.sv then bits64 v 0 8 else 0)

/-- Rank of a wafer in a view. -/
def Swarm.rankOf (w : Swarm) (wid : BitVec 16) : Option Nat :=
  (w.members.find? fun i => w.waferOf i == wid).map fun i => rankIn w.members i

/-- What SRECV returns. A packet of no swarm has no rank: that field is a free value (log 5). -/
def State.recvResult (s : State) (p : Packet) : BitVec 64 :=
  let rank := if p.sv then ((s.swarm p.swn).bind fun w => w.rankOf p.src).getD 0 else Config.choice s.free % 2 ^ 16
  BitVec.ofNat 64 (p.payload.length + 2 ^ 16 * p.src.toNat + 2 ^ 32 * p.sh.toNat + 2 ^ 48 * rank)

/-- The first packet that satisfies a test leaves the receive queue. -/
def dropFirst (f : Packet → Bool) : List Packet → List Packet
  | [] => []
  | p :: l => if f p then l else p :: dropFirst f l

/-- The oldest matching packet is copied to SRAM. -/
def State.receive (s : State) (d : Fin 16) (addr : Nat) (v : BitVec 64) (p : Packet) : State :=
  s.moving addr p.payload.length fun s =>
    let r := s.recvResult p
    let s := s.modPort s.curPort fun x => { x with rxq := dropFirst (recvMatch v) x.rxq }
    (((if p.sv then s else s.bump).modScout fun c => c.write addr p.payload)).scoutSet d r

/-- Tag of the view that a receive waits under. -/
def State.recvVt (s : State) (v : BitVec 64) : Option (BitVec 16) :=
  if v.getLsbD 8 then (s.portSwarm (Fin.ofNat 256 (bits64 v 0 8))).map Swarm.vt else none

def execSrecvWait (d a b : Fin 16) (s : State) : Out :=
  let v := s.rx b
  if (s.recvVt v).any s.viewMoved then .next (s.scoutSet d ones64) else
  match (s.port s.curPort).rxq.find? (recvMatch v) with
  | some p => .next (s.receive d (dataAddr (s.rx a)) v p)
  | none => .next (s.scoutWait (s.recvVt v))

def execSrecvPoll (d a b : Fin 16) (s : State) : Out :=
  let v := s.rx b
  match (s.port s.curPort).rxq.find? (recvMatch v) with
  | some p => .next (s.receive d (dataAddr (s.rx a)) v p)
  | none => .next (s.scoutSet d 0)

/-! ### SREDUCE (R354) -/

/-- Packets of a shard under the current view, in arrival order. -/
def Port.shard (p : Port) (sw : Fin 256) (sh vt : BitVec 16) : List Packet :=
  p.rxq.filter fun k => k.sv && k.swn == sw && k.sh == sh && k.vt == vt

/-- Elements of a contribution, and back. -/
def elemsOf (xf : Bool) (bs : List Byte) : List (BitVec 128) :=
  let e := if xf then 16 else 4
  (List.range (bs.length / e)).map fun i => BitVec.ofNat 128 (leNat ((bs.drop (i * e)).take e))
def bytesOf (xf : Bool) (xs : List (BitVec 128)) : List Byte := xs.flatMap fun x => leBytes (if xf then 16 else 4) x.toNat

/-- One contribution joins the sum; saturations are counted. -/
def joinElems (xf : Bool) (op : Nat) (acc : List (BitVec 128) × Nat) (xs : List (BitVec 128)) : List (BitVec 128) × Nat :=
  let r := (acc.1.zip xs).map fun e => reduceElem xf op e.1 e.2
  (r.map Prod.fst, acc.2 + (r.filter Prod.snd).length)

/-- The reduction of the contributions in an order. -/
def reduceAll (xf : Bool) (op : Nat) : List (List (BitVec 128)) → List (BitVec 128) × Nat
  | [] => ([], 0)
  | x :: l => l.foldl (joinElems xf op) (x, 0)

/-- One packet of each other member, in the order of a list of packets. -/
def oneEach (ws : List (BitVec 16)) : List Packet → List Packet
  | [] => []
  | p :: l => if ws.contains p.src then p :: oneEach (ws.filter (· != p.src)) l else oneEach ws l

/-- The view's other members, when this wafer is a member. -/
def State.otherMembers (s : State) (w : Swarm) : Option (List (BitVec 16)) :=
  let ws := w.members.map w.waferOf
  let me : BitVec 16 := s.ctl.wafid.setWidth 16
  if ws.contains me then some (ws.filter (· != me)) else none

/-- The result of a reduction whose packets are all present. -/
def State.reduced (s : State) (w : Swarm) (fn : Nat) (own : List Byte) (ps : List Packet) : List Byte × Nat :=
  let op := fn % 8
  let xf := op == rAddFx
  let me : BitVec 16 := s.ctl.wafid.setWidth 16
  let mine := elemsOf xf own
  let value (wid : BitVec 16) : Option (List (BitVec 128)) :=
    if wid = me then some mine else (ps.find? fun p => p.src == wid).map fun p => elemsOf xf p.payload
  let order := if fn / 8 % 4 = 1 then mine :: ps.map (fun p => elemsOf xf p.payload) else w.members.filterMap fun i => value (w.waferOf i)
  let r := reduceAll xf op order
  let n := w.members.length
  (bytesOf xf (if fn / 32 % 2 = 1 ∧ divides op then r.1.map (divElem xf op n) else r.1), r.2)

def execSreduce (d a b : Fin 16) (fn : BitVec 6) (s : State) : Out :=
  let f := fn.toNat
  let sw : Fin 256 := Fin.ofNat 256 (bits64 (s.rx a) 0 8)
  let sh : BitVec 16 := BitVec.ofNat 16 (bits64 (s.rx a) 8 16)
  let addr := dataAddr (s.rx b)
  if f / 8 % 4 = 3 ∨ (f / 8 % 4 = 2 ∧ f % 8 ≠ rAddFx) then .next (s.scoutHalt 1) else
  match s.portSwarm sw with
  | none => .next (s.scoutWait none)
  | some w =>
    if s.viewMoved w.vt then .next (s.scoutSet d 0) else
    match s.otherMembers w with
    | none => .next (s.scoutWait (some w.vt))
    | some others =>
      let n := w.members.length
      if others.isEmpty then .next (s.scoutSet d (BitVec.ofNat 64 n)) else
      let all := (s.port s.curPort).shard sw sh w.vt
      let len := (all.head?.map fun p => p.payload.length).getD 0
      -- packets of another length are discarded (R354)
      let bad := (all.filter fun p => p.payload.length != len).length
      let odd (p : Packet) : Bool := p.sv && p.swn == sw && p.sh == sh && p.vt == w.vt && p.payload.length != len
      let s := if bad = 0 then s else s.modPort s.curPort fun p =>
        { p.count pBad bad with rxq := p.rxq.filter fun q => !odd q }
      let ps := oneEach others (all.filter fun p => p.payload.length == len)
      if ps.length < others.length then .next (s.scoutWait (some w.vt)) else
      .next (s.moving addr len fun s =>
        let own := s.sramRead addr len
        let r := s.reduced w f own.1 ps
        let s := own.2.modPort s.curPort fun p => { p.count pFxsat r.2 with rxq := p.rxq.filter fun q => !ps.contains q }
        (s.modScout fun c => c.write addr r.1).scoutSet d (BitVec.ofNat 64 n))

/-! ### SFWD (R349, R355) -/

def execSfwdIn (d a b : Fin 16) (s : State) : Out :=
  let sw : Fin 256 := Fin.ofNat 256 (bits64 (s.rx a) 0 8)
  match s.portSwarm sw with
  | none => .next (s.scoutWait none)
  | some w =>
    if s.viewMoved w.vt then .next (s.scoutSet d ones64) else
    match (s.port s.curPort).contrib.find? fun c => c.sw == sw && c.vt == w.vt && decide (c.size ≤ c.data.length) with
    | none => .next (s.scoutWait (some w.vt))
    | some c =>
      .next (s.moving (dataAddr (s.rx b)) c.size fun s =>
        let s := s.modPort s.curPort fun p => { p with contrib := p.contrib.filter fun x => x != c }
        (s.modScout fun k => k.write (dataAddr (s.rx b)) c.data).scoutSet d
          (BitVec.ofNat 64 (c.size % 2 ^ 16 + 2 ^ 16 * c.inst.toNat + 2 ^ 32 * c.vt.toNat)))

/-- Elements of a result that have been sent. -/
def Port.forwarded (p : Port) (sw ch : Fin 256) (inst : BitVec 16) : Nat :=
  ((p.fwdOut.find? fun e => e.1 == sw && e.2.1 == ch && e.2.2.1 == inst).map fun e => e.2.2.2).getD 0

/-- The anchor's current instance: its oldest started one of the swarm with the installed tag whose result has not been
sent whole. -/
def State.anchorRun (s : State) (sw : Fin 256) (w : Swarm) : Option CollRun :=
  let t := s.tile (mkTile w.ax.toNat w.ay.toNat)
  let rs := (List.finRange 4).flatMap fun q => t.seqs[q].runs.filter fun r =>
    r.sw == sw && r.hive && r.vt == w.vt && !r.sends && decide ((s.port s.curPort).forwarded sw r.ch r.inst < r.resultBytes / r.e)
  rs.foldl (fun best r => match best with
    | none => some r
    | some b => if r.id < b.id then some r else some b) none

/-- Chunks for elements [at, at + n) of a result: shard, first element, elements (fuel: the elements). -/
def fwdCuts (r : CollRun) : Nat → Nat → Nat → List (Nat × Nat × Nat)
  | 0, _, _ => []
  | f + 1, at_, n =>
    if n = 0 then [] else
    let per := if r.xf then 32 else 128
    let lane := if r.kind = 2 then at_ / r.m else if r.kind = 1 then r.rank else if r.kind = 3 then r.root else 0
    let eo := if r.kind = 2 then at_ % r.m else at_
    let k := min (min per n) (if r.kind = 2 then r.m - eo else n)
    (lane, eo, k) :: fwdCuts r f (at_ + k) (n - k)

/-- Payload flits of a chunk's elements. -/
def fwdFlits (xf : Bool) : Nat → List (BitVec 128) → List (BitVec 128)
  | 0, _ => []
  | f + 1, xs => if xs.isEmpty then [] else packElems xf (xs.take (perFlit xf)) :: fwdFlits xf f (xs.drop (perFlit xf))

/-- The flits of the travelling-on chunks that carry some elements. -/
def fwdChunks (r : CollRun) (start : Nat) (xs : List (BitVec 128)) : List Flit :=
  (fwdCuts r xs.length start xs.length).foldl (fun acc c =>
    let sent := acc.1
    let es := (xs.drop sent).take c.2.2
    let head : Chunk := { ch := r.ch, ph := true, xf := r.xf, vt := r.vt, inst := r.inst, sh := BitVec.ofNat 16 c.1,
                          fr := BitVec.ofNat 16 r.rank, ne := BitVec.ofNat 16 (c.2.2 - 1), eo := BitVec.ofNat 16 c.2.1, data := [] }
    let body := fwdFlits r.xf es.length es
    let tail := (List.range body.length).map fun i =>
      (⟨.r, false, i + 1 == body.length, body.getD i 0, 0, none, none⟩ : Flit)
    (sent + c.2.2, acc.2 ++ ((⟨.r, true, false, head.pack, 0, none, none⟩ : Flit) :: tail))) ((0, []) : Nat × List Flit) |>.2

def execSfwdOut (d a b : Fin 16) (s : State) : Out :=
  let sw : Fin 256 := Fin.ofNat 256 (bits64 (s.rx a) 0 8)
  let len := bits64 (s.rx a) 16 16
  match (s.portSwarm sw).bind fun w => (s.anchorRun sw w).map fun r => (w, r) with
  | none => .next (s.scoutSet d 1)
  | some (w, r) =>
    .next (s.moving (dataAddr (s.rx b)) len fun s =>
      let e := if r.xf then 16 else 4
      let done := (s.port s.curPort).forwarded sw r.ch r.inst
      let n := min (len / e) (r.resultBytes / r.e - done)
      let bs := s.sramRead (dataAddr (s.rx b)) len
      let flits := fwdChunks r done ((elemsOf r.xf bs.1).take n)
      let t := mkTile w.ax.toNat w.ay.toNat
      let s := bs.2.modTile t fun x => x.feed true s.now flits
      (s.modPort s.curPort fun p =>
        { p with fwdOut := p.fwdOut.filter (fun e => !(e.1 == sw && e.2.1 == r.ch && (e.2.2.1 == r.inst || older16 e.2.2.1 r.inst))) ++
                            [(sw, r.ch, r.inst, done + n)] }).scoutSet d 0)

/-! ### SPLANE (R345, R357) -/

def Port.carries (p : Port) (k : Fin 4) : Bool := (List.finRange 64).any fun i => (p.entry k i).v && (p.entry k i).up
/-- The plane is the last one in rotation that carries traffic. -/
def Port.lastPlane (p : Port) (k : Fin 4) : Bool :=
  p.rot[k] && p.carries k && !(List.finRange 4).any fun j => j != k && p.rot[j] && p.carries j
/-- Every packet sent on the plane has been acknowledged or sent again on another. -/
def Port.drained (p : Port) (k : Fin 4) : Bool := !p.rot[k] && !p.txq.any fun d => d.plane == some k
/-- The plane leaves the rotation of every peer. -/
def Port.beginDrain (p : Port) (k : Fin 4) : Port := { p.dropRoutes with rot := vset p.rot k false, drain := some k }
def planeOf (v : BitVec 64) : Fin 4 := Fin.ofNat 4 v.toNat

def execSplaneDrain (d a _b : Fin 16) (s : State) : Out :=
  let k := planeOf (s.rx a)
  let p := s.port s.curPort
  if p.drain.isNone && p.lastPlane k then .next (s.scoutSet d 1) else
  let s := if p.drain.isNone then s.modPort s.curPort fun p => p.beginDrain k else s
  if (s.port s.curPort).drained k then .next ((s.modPort s.curPort fun p => { p with drain := none }).scoutSet d 0)
  else .next (s.scoutWait none)

/-- A table word becomes an entry; training sets `UP` later. -/
def entryOf (w : Word) : PlaneEntry := ⟨w.setWidth 16, w.getLsbD 16, false⟩

/-- The plane's 64 entries from SRAM, with the host's writes that awaited the restore (R393). -/
def Port.loadPlane (p : Port) (k : Fin 4) (bs : List Byte) : Port :=
  let word (i : Nat) : Word :=
    match p.shadowPlanes.find? fun e => e.1 == k.val * 64 + i with
    | some e => e.2
    | none => leWord ((bs.drop (4 * i)).take 4)
  { p.dropRoutes with
      planes := vset p.planes k (Vector.ofFn fun i : Fin 64 => entryOf (word i.val)),
      shadowPlanes := p.shadowPlanes.filter fun e => e.1 / 64 != k.val }

/-- Links of a plane train; the plane returns to rotation. -/
def Port.trained (p : Port) (k : Fin 4) (free : Nat) : Port :=
  { p.dropRoutes with
      planes := vset p.planes k (Vector.ofFn fun i : Fin 64 =>
        let e := p.planes[k][i]
        { e with up := e.v && Config.linkTrains (free + i.val) }),
      rot := vset p.rot k true, drain := none }

def Port.upCount (p : Port) (k : Fin 4) : Nat := ((List.finRange 64).filter fun i => (p.entry k i).up).length

/-- Reference ticks of 1 ms. -/
def ms1 : Nat := 1250000

def execSplaneRestore (d a b : Fin 16) (s : State) : Out :=
  let k := planeOf (s.rx a)
  let p := s.port s.curPort
  let addr := dataAddr (s.rx b)
  if addr + 256 > 2 ^ 20 then .next (s.scoutHalt 2)
  else if p.drain.isNone && p.lastPlane k then .next (s.scoutSet d (BitVec.ofNat 64 (p.upCount k)))
  else match s.sc.busy with
    | some t =>
      if s.ref < t then .next s else
      let s := s.modPort s.curPort fun p => p.trained k s.free
      .next ({ s with free := s.free + 64 }.scoutSet d (BitVec.ofNat 64 ((s.port s.curPort).upCount k)))
    | none =>
      let s := if p.drain.isNone then s.modPort s.curPort fun p => p.beginDrain k else s
      if !(s.port s.curPort).drained k then .next (s.scoutWait none) else
      let bs := s.sramRead addr 256
      let t := s.ref + 4 + Config.choice s.free % ms1
      .next (((bs.2.modPort s.curPort fun p => p.loadPlane k bs.1).bump).modScout fun c => { c with busy := some t })

def execSplaneStatus (d _a _b : Fin 16) (s : State) : Out :=
  let p := s.port s.curPort
  .next (s.scoutSet d (BitVec.ofNat 64 ((List.finRange 4).foldl (fun n k => n + (if p.rot[k] then 2 ^ k.val else 0)) 0)))

/-! ### SVIEW (R356) -/

/-- What READ returns. -/
def State.viewWord (s : State) (w : Swarm) : BitVec 64 :=
  let me := s.ownIndex w
  let here := me.any fun i => w.members.contains i
  let rank := if here then rankIn w.members (me.getD 0) else 0
  BitVec.ofNat 64 (w.vt.toNat + 2 ^ 16 * w.members.length + 2 ^ 32 * rank + 2 ^ 48 * w.vc.toNat + 2 ^ 49 * here.toNat)

/-- A form of SVIEW on a swarm that names this port; another swarm gives all ones. -/
def State.onView (s : State) (d a : Fin 16) (k : Fin 256 → Swarm → State) : Out :=
  let sw : Fin 256 := Fin.ofNat 256 (bits64 (s.rx a) 0 8)
  match s.portSwarm sw with
  | none => .next (s.scoutSet d ones64)
  | some w => .next (k sw w)

def execSviewRead (d a _b : Fin 16) (s : State) : Out := s.onView d a fun _ w => s.scoutSet d (s.viewWord w)
def execSviewWait (d a b : Fin 16) (s : State) : Out := s.onView d a fun _ w =>
  if w.vt = (s.rx b).setWidth 16 then s.scoutWait none else s.scoutSet d (s.viewWord w)
def execSviewJoin (d a _b : Fin 16) (s : State) : Out := s.onView d a fun sw w =>
  match s.ownIndex w with
  | some i =>
    if present (w.roster.getD i 0) then s.scoutSet d 0 else
    (((s.modSwarm sw.val fun w => { w with roster := w.roster.set i (w.roster.getD i 0 ||| 0x40000000) }).frame sw (s.assisted fnWaggle)
      (.join sw))).scoutSet d 0
  | none => s.scoutSet d 0
def execSviewLeave (d a _b : Fin 16) (s : State) : Out := s.onView d a fun sw w =>
  match s.ownIndex w with
  | some i =>
    if present (w.roster.getD i 0) && !w.leave.contains i then
      ((s.modSwarm sw.val fun w => { w with leave := w.leave ++ [i] }).frame sw (s.assisted fnWaggle) (.leave sw)).scoutSet d 0
    else s.scoutSet d 0
  | none => s.scoutSet d 0

/-! ### The illegal encoding (R73) -/

/-- A scout that fetches an unassigned word halts with cause 1. -/
def execScoutIllegalEncoding (p : Fin 16) (s : State) : Out :=
  .next (s.modPort p fun x => { x with scout := { x.scout with halted := some 1, waitVt := none, busy := none } })

end Sys2Proof.Machine
end

