-- ==== Sys2Proof/Machine/Timeline.lean ====
section
/-! DEFINITION. Timelines (R365 to R367): advances applied at the queen core, values on their way to the tiles. -/

namespace Sys2Proof.Machine

/-- A timeline's value starts on its way to every tile, within 2,048 ticks and after every earlier value (R366). -/
def State.deliverTl (s : State) (tl : Fin 1024) : State :=
  let v := alGet s.tls tl.val 0
  let last (t : TileId) : Nat :=
    s.deliveries.foldl (fun m d => if d.tile = t ∧ d.tl = tl then max m d.due else m) 0
  let new := ((List.range s.tiles.length).zip s.tiles).map fun e =>
    (⟨e.2.1, tl, v, max (last e.2.1) (s.now + 1 + Config.deliveryLatency (s.free + e.1) % 2048)⟩ : Delivery)
  { s with deliveries := s.deliveries ++ new, free := s.free + s.tiles.length }

/-- Advances add modulo 2^64; queues blocked on a timeline are evaluated again (R278, R365). -/
def State.applyAdvances (s : State) (l : List (Fin 1024 × BitVec 64)) : State :=
  let l := l.filter fun a => a.2 != 0
  if l.isEmpty then s else
  let tls := l.foldl (fun m a => alSet m a.1.val (alGet m a.1.val 0 + a.2)) s.tls
  let s := { s with tls := tls }
  let s := ((l.map Prod.fst).dedup).foldl State.deliverTl s
  s.first (.ev .blockedReevaluation)

/-- The advances whose tick has come are applied together; each acknowledges its TLSIG (R366, R451). -/
def State.dueAdvances (s : State) : State :=
  let due := s.advances.filter fun a => decide (a.due ≤ s.now)
  let s := { s with advances := s.advances.filter fun a => decide (s.now < a.due) }
  let s := due.foldl (fun s a => match a.src with
    | some (t, c) => s.modCtx t c fun x => { x with tlOut := x.tlOut - 1 }
    | none => s) s
  s.applyAdvances (due.map fun a => (a.tl, a.amount))

def execTimelineAdvance (s : State) : Out := .next s.dueAdvances

/-- Values whose tick has come are seen by the tile. -/
def execTimelineDelivery (t : TileId) (s : State) : Out :=
  let due := s.deliveries.filter fun d => d.tile == t && decide (d.due ≤ s.now)
  let s := { s with deliveries := s.deliveries.filter fun d => !(d.tile == t && decide (d.due ≤ s.now)) }
  .next (s.modTile t fun x => { x with tls := due.foldl (fun m d => alSet m d.tl.val d.val) x.tls })

/-- The advances of retired launches whose completion record the host link has acknowledged (R367). -/
def execCompletionTimelineAdvance (s : State) : Out :=
  let due := s.tlAfter.filter fun e => decide (e.2.1 ≤ s.now)
  .next ({ s with tlAfter := s.tlAfter.filter fun e => decide (s.now < e.2.1) }.applyAdvances
    (due.map fun (e : Fin 1024 × Nat × Fin 256) => (e.1, (1 : BitVec 64))))

end Sys2Proof.Machine
end

