-- ==== Sys2Proof/Machine/Save.lean ====
section
/-! DEFINITION. The save area (R44, R46, R383): its bytes, and its place in the heap. R383 names the fields of the header and the
sections, and their sizes; the order of bytes inside a field that it does not give is the model's, log 39. -/

namespace Sys2Proof.Machine

/-! ### Items as bytes -/

/-- Bytes in a field of a given size, zeros after them. -/
def padTo (n : Nat) (bs : List Byte) : List Byte := (bs ++ List.replicate n 0).take n

/-- The 32-bit values of a row. -/
def saveRow (r : Row) : List Byte := r.toList.flatMap fun w => leBytes 4 w.toNat

/-- A ring's state (R194). -/
def Ring.word (r : Ring) : Nat :=
  r.base.toNat + 2 ^ 11 * r.esz.toNat + 2 ^ 19 * r.nent.toNat + 2 ^ 27 * r.head.toNat + 2 ^ 35 * r.tail.toNat + 2 ^ 43 * r.cnt.toNat +
    2 ^ 52 * r.infl.toNat + 2 ^ 61 * r.v.toNat

/-- A buffer's entry (R189). -/
def Buffer.word (b : Buffer) : Nat :=
  b.base.toNat + 2 ^ 9 * b.size.toNat + 2 ^ 17 * b.v.toNat + 2 ^ 18 * b.fh.toNat + 2 ^ 19 * b.tag.toNat + 2 ^ 27 * b.sd.toNat +
    2 ^ 28 * b.wr.toNat + 2 ^ 32 * b.rd.toNat + 2 ^ 36 * b.fmap.toNat + 2 ^ 68 * b.smap.toNat

/-- An ACM row: entries, mode, `FT` and the number of pending commits; then each of them with its due offset. -/
def AccRow.bytes (r : AccRow) (tt : Nat) : List Byte :=
  saveRow r.entries ++ leBytes 1 r.mode.code ++ leBytes 1 r.ft.toNat ++ leBytes 2 r.pend.length ++ leBytes 4 0 ++
    r.pend.flatMap fun p => saveRow p.entries ++ leBytes 1 p.mode.code ++ leBytes 1 p.ft.toNat ++ leBytes 2 0 ++ leBytes 4 (p.due - tt)

/-- A weight plane with its exponent bytes (R185, R245). -/
def Plane.bytes (p : Plane) : List Byte :=
  (p.e.toList.flatMap fun r => r.toList.flatMap fun w => leBytes 2 w.toNat) ++ p.x.toList.flatMap fun r => r.toList

/-- File and index of a pending result's register, its lanes, its value. -/
def Dst.parts : Dst → Nat × Nat × Word × List Byte
  | .s i w => (0, i.val, 0, leBytes 4 w.toNat)
  | .a i w => (1, i.val, 0, leBytes 8 w.toNat)
  | .v i l w => (2, i.val, l, w.toList.flatMap fun y => leBytes 4 y.toNat)
  | .m i w => (3, i.val, 0, leBytes 4 w.toNat)
  | .p i w => (4, i.val, 0, leBytes 1 w.toNat)
  | .stack l => (5, l.length, 0, l.flatMap fun y => leBytes 4 y.toNat)
  | .flags w => (6, 0, 0, leBytes 1 w.toNat)

/-- A pending result: item, due tick − task tick, lane mask, length, value. -/
def pendingBytes (p : Nat × Nat × Word × List Byte) (due tt : Nat) : List Byte :=
  leBytes 1 p.1 ++ leBytes 1 p.2.1 ++ leBytes 2 0 ++ leBytes 4 (due - tt) ++ leBytes 4 p.2.2.1.toNat ++ leBytes 4 p.2.2.2.length ++ p.2.2.2

/-- A byte of the store-history buffer: task tick − writing task tick, address, length, the captured byte (R51). -/
def HistByte.bytes (h : HistByte) (tt : Nat) : List Byte := leBytes 4 (tt - h.tt) ++ leBytes 4 h.addr ++ leBytes 4 0 ++ leBytes 4 1 ++ [h.old]

def LoopLevel.bytes (l : LoopLevel) : List Byte := leBytes 4 l.rem.toNat ++ leBytes 8 l.start.toNat ++ leBytes 4 l.len.toNat

/-- `PXFR`: valid, taken, ERET, the bundles still to issue, target, source. -/
def Xfer.bytes (x : Xfer) : List Byte :=
  [1, BitVec.ofNat 8 x.taken.toNat, BitVec.ofNat 8 x.eret.toNat, 0] ++ leBytes 4 x.count ++ leBytes 8 x.target.toNat ++ leBytes 8 x.src.toNat

def PendFault.bytes (p : PendFault) : List Byte :=
  leBytes 4 p.flt.cause.toNat ++ leBytes 4 p.flt.finfo.toNat ++ leBytes 8 p.flt.fpc.toNat ++ leBytes 4 1

def VcTrap.bytes (v : VcTrap) : List Byte :=
  leBytes 2 v.ovt.toNat ++ leBytes 1 v.sw.val ++ leBytes 1 (v.fin.toNat + 2 * v.exp.toNat + 4 * v.md.toNat + 8 * v.can.toNat) ++ leBytes 4 1

/-! ### The area -/

/-- s, a, m and p registers and the mask stack, unmarked ones zero. -/
def Context.regBytes (c : Context) : List Byte :=
  (c.s.toList.flatMap fun w => leBytes 4 w.toNat) ++ (c.a.toList.flatMap fun w => leBytes 8 w.toNat) ++
    ((c.m.toList.drop 1).flatMap fun w => leBytes 4 w.toNat) ++
    leBytes 2 ((List.finRange 16).foldl (fun n i => if c.p[i] && i != 0 then n + 2 ^ i.val else n) 0) ++ leBytes 1 c.stack.length ++ leBytes 1 0 ++
    padTo 32 (c.stack.flatMap fun w => leBytes 4 w.toNat)

/-- Removed commands in queue order: issuing address, queue, tagged counter; what else their 32 bytes hold is not stated: free values. -/
def SaveArea.removedBytes (a : SaveArea) (free : Nat) : List Byte :=
  let cmds : List (Nat × VAddr × Nat) :=
    a.mxq.map (fun q => (q.id, q.fpc, 0)) ++ a.cpq.map (fun q => (q.id, q.fpc, 1)) ++ a.chq.map fun q => (q.id, q.fpc, 2)
  let tag (id : Nat) : Nat := (((a.removed.find? fun l => l.id == id).bind LiveCmd.tag).map Fin.val).getD 255
  (cmds.zip (List.range cmds.length)).flatMap fun e =>
    leBytes 8 e.1.2.1.toNat ++ leBytes 1 e.1.2.2 ++ leBytes 1 (tag e.1.1) ++ leBytes 2 0 ++
      (List.range 5).flatMap fun k => leBytes 4 (Config.choice (free + 5 * e.2 + k))

/-- Marked indices of a group of items. -/
def marked (m : BitVec 256) (lo n : Nat) [NeZero n] : List (Fin n) := (List.finRange n).filter fun i => m.getLsbD (lo + i.val)

/-- The ten sections, each present under its condition (R383). -/
def SaveArea.sections (a : SaveArea) (free : Nat) : List (List Byte) :=
  let x := a.saved
  [x.regBytes,
   (marked a.mask 40 16).flatMap fun i => x.v[i].toList.flatMap fun w => leBytes 4 w.toNat,
   a.qs.flatMap fun e => saveRow e.2,
   a.accs.flatMap fun e => e.2.bytes x.tt,
   a.planes.flatMap fun e => e.2.bytes,
   a.rings.flatMap fun e => leBytes 8 e.2.1.word ++ e.2.2,
   a.bufs.flatMap fun e => leBytes 16 e.2.1.word ++ e.2.2,
   if a.prec.isSome || a.decay.isSome || a.rowcol.isSome then
     leBytes 4 (a.prec.getD 0).toNat ++ leBytes 4 (a.decay.getD 0).toNat ++ leBytes 8 ((a.rowcol.map Prod.fst).getD 0).toNat ++
       leBytes 16 ((a.rowcol.map Prod.snd).getD 0).toNat
   else [],
   (x.pend.flatMap fun p => pendingBytes p.dst.parts p.due x.tt) ++
     (a.qpend.flatMap fun p => pendingBytes (7, p.reg.val, 0, saveRow p.val) p.due x.tt) ++ x.hist.flatMap fun h => h.bytes x.tt,
   if a.frozen then a.removedBytes free else []]

/-- The 512-byte header. -/
def SaveArea.header (a : SaveArea) (free : Nat) : List Byte :=
  let x := a.saved
  let w (v : Word) : List Byte := leBytes 4 v.toNat
  leBytes 4 0x53455631 ++ leBytes 4 (a.frozen.toNat + 2 * a.overrun.toNat) ++ leBytes 32 a.mask.toNat ++ leBytes 8 x.tt ++
    leBytes 8 x.pc.toNat ++ padTo 32 (x.loops.flatMap LoopLevel.bytes) ++ padTo 32 ((x.pxfr.map Xfer.bytes).getD []) ++
    padTo 56 (w x.status ++ w x.round ++ w x.cause ++ w x.finfo ++ w x.rundecl ++ w x.ovrcnt ++ leBytes 8 x.fpc.toNat ++
      leBytes 8 x.epc.toNat ++ leBytes 8 x.trapv.toNat) ++
    x.cnt.toList ++ (x.faults.toList.flatMap fun p => padTo 32 ((p.map PendFault.bytes).getD [])) ++
    padTo 32 (x.vcTraps.flatMap VcTrap.bytes) ++ padTo 192 ((a.sections free).flatMap fun c => leBytes 4 c.length)

/-- The bytes of the area. -/
def SaveArea.image (a : SaveArea) (free : Nat) : List Byte := a.header free ++ (a.sections free).flatten

/-! ### Its place in the heap (R383) -/

/-- No area is longer. -/
def saveMax : Nat := 3 * 2 ^ 20

/-- The page tables and pages that a table of a level reaches, as spans of physical addresses, with the levels left as fuel (R200). -/
def State.tableSpans (s : State) : Nat → Nat → Nat → List (Nat × Nat)
  | 0, _, _ => []
  | n + 1, lvl, tab =>
    let size := if lvl = 1 then 2 ^ 20 else 512
    let used := ((s.heap.filter fun c => decide (tab ≤ c.1) && decide (c.1 < tab + size)).map fun c => c.1 / 8 * 8).dedup
    (tab, size) :: used.flatMap fun pa =>
      let e := s.pte pa
      if e % 2 = 0 then []
      else if e / 2 % 2 = 1 then [((e / 2 ^ 12 % 64) * 2 ^ 36 + e / 2 ^ 18 % 2 ^ 17 * 2 ^ 19, 2 ^ leafLog (e / 4 % 4))]
      else if lvl = 3 then []
      else match nextTable e with
        | none => []
        | some t => s.tableSpans n (lvl + 1) t

/-- What launches and saved contexts hold of the heap: windows, page tables with their pages, save areas. -/
def State.heldSpans (s : State) : List (Nat × Nat) :=
  (s.launches.map fun l => ((l.desc.hbase.toNat + l.desc.hoffset.toNat) % 2 ^ 42, l.desc.hlimit.toNat - l.desc.hbase.toNat)) ++
    (s.roots.flatMap fun r => s.tableSpans 3 1 r.2) ++ s.saves.filterMap fun a => a.place.map fun p => (p, saveMax)

/-- The stack that holds the heap of a context's launch: that of its window, else that of its page tables. -/
def State.heapStack (s : State) (x : Context) : Nat :=
  if x.hbase.toNat < x.hlimit.toNat then (x.hbase.toNat + x.hoffset.toNat) % 2 ^ 42 / 2 ^ 36
  else ((s.roots.find? fun r => some r.1 == x.lid).map fun r => r.2 / 2 ^ 36).getD 0

/-- Where the queen core has space for an area on the launch's stack, outside every window and page table; where on the stack is its
own, and whether it finds space (log 5, log 39). -/
def State.saveSpace (s : State) (t : TileId) (c : Fin 4) : Option Nat :=
  let base := s.heapStack (s.ctx t c) * 2 ^ 36 + Config.savePlace s.free % ((48 * 2 ^ 30 - saveMax) / 4096 + 1) * 4096
  if Config.choice s.free % 2 = 1 ∨ s.heldSpans.any (fun e => decide (base < e.1 + e.2) && decide (e.1 < base + saveMax)) then none else some base

end Sys2Proof.Machine
end

