-- ==== Sys2Proof/Machine/Preempt.lean ====
section
/-! DEFINITION. Pre-emption (R380 to R385): requests, the point at which one is taken, drain, freeze, save and restore. -/

namespace Sys2Proof.Machine

/-! ### Requests -/

/-- A request becomes pending (R380). -/
def Context.request (c : Context) (now : Nat) (overrun : Bool) : Context :=
  if c.st = .active ∧ c.preReq.isNone then { c with preReq := some (now, overrun) } else c

/-- The queen core asks for a context. -/
def execPreemptionRequest (t : TileId) (c : Fin 4) (s : State) : Out :=
  .next (s.modCtx t c fun x => x.request s.now false)

/-! ### What a context has under way (R381) -/

/-- Commands of armed receives (R450). -/
def Tile.armed (t : Tile) : List Nat := t.chans.flatMap fun e => e.2.arm.map fun a => a.2.1

/-- Every command of the context has retired, armed receives apart, and its stores have performed. -/
def Tile.drainedOf (t : Tile) (c : Fin 4) : Bool :=
  let armed := t.armed
  t.live.all (fun l => l.ctx != c || armed.contains l.id) && t.reads.all (fun r => r.ctx != c) &&
    t.writes.all (fun w => w.ctx != c) && t.staccs.all (fun p => p.ctx != c) && t.ldaccs.all fun l => l.ctx != c

/-- The save area allocated for a context. -/
def State.areaOf (s : State) (t : TileId) (c : Fin 4) : Option SaveArea := s.saves.find? fun a => a.tile == t && a.ctx == c
def State.modArea (s : State) (t : TileId) (c : Fin 4) (f : SaveArea → SaveArea) : State :=
  { s with saves := s.saves.map fun a => if a.tile = t ∧ a.ctx = c then f a else a }

/-- An area before anything is saved in it. -/
def SaveArea.fresh (t : TileId) (c : Fin 4) (overrun : Bool) (place : Option Nat := none) : SaveArea where
  tile := t
  ctx := c
  place := place
  frozen := false
  overrun := overrun
  mask := 0
  saved := Context.reset
  qs := []
  accs := []
  planes := []
  rings := []
  bufs := []
  prec := none
  decay := none
  rowcol := none
  qpend := []
  mxq := []
  cpq := []
  chq := []
  removed := []
  restore := .saved
  len := 0

/-- The issue width passes as at any stop, if the context has it (R159). -/
def Tile.yieldWidth (t : Tile) (c : Fin 4) (now : Nat) : Tile :=
  match t.arb with
  | .run d _ => if d = c then { t with arb := .choose now } else t
  | .retry d => if d = c then { t with arb := .choose now } else t
  | _ => t

/-- The context issues no more bundles and drains. -/
def State.beginDrain (s : State) (t : TileId) (c : Fin 4) (frozen : Bool) : State :=
  let why := ((s.ctx t c).preReq.map Prod.snd).getD false
  let s := s.modTile t fun x => ((x.closeLock c s.now).yieldWidth c s.now).modCtx c fun y => { y with st := .draining, held := false }
  let s := if (s.areaOf t c).isSome then s else { s with saves := s.saves ++ [SaveArea.fresh t c why (s.saveSpace t c)] }
  (s.modArea t c fun a => { a with frozen := a.frozen || frozen }).resolveLater t c

/-- The pre-emption is taken at the point of R380. Where no space is free for the area, the request stays pending until the next safe
point (R383). -/
def execPreemption (t : TileId) (c : Fin 4) (s : State) : Out :=
  let x := s.ctx t c
  if x.preReq.isNone || x.st != .active then .next s
  else if (s.saveSpace t c).isNone then .next ((s.modCtx t c fun y => { y with safe := false }).bump)
  else .next (s.beginDrain t c false).bump

/-! ### The freeze (R382) -/

/-- Commands of a context that have not started leave their queues as if they had never issued: credits, counters and
`WACK` fall back. A COLL whose checks have passed has started (R337), and stays. -/
def Tile.removeQueued (t : Tile) (c : Fin 4) (now : Nat) : Tile × List MxCmd × List CopyCmd × List ChCmd × List LiveCmd :=
  let running := t.mxRun.map MxRun.id
  let mx := t.mxq.filter fun q => q.ctx == c && some q.id != running
  let cp := t.cpq.filter fun q => q.ctx == c
  let ch := t.chq.filter fun q => q.ctx == c && (t.queuedRun q.id).isNone
  let ids := mx.map MxCmd.id ++ cp.map CopyCmd.id ++ ch.map ChCmd.id
  let gone := t.live.filter fun l => ids.contains l.id
  let counted (l : LiveCmd) : Bool :=
    (cp.all fun q => q.id != l.id || q.guard.resolved) && (ch.all fun q => q.id != l.id || q.guard.resolved)
  let t : Tile := { t with chq := t.chq.filter fun q => !ids.contains q.id }
  let back := ch.filter fun q => q.guard.resolved
  let t := ((back.filter fun q => !q.has) ++ back.filter ChCmd.has).foldl (fun t q => t.dropCredit now q) t
  let t := (gone.filter counted).foldl (fun t l => t.modCtx c fun x =>
    let x := match l.tag with
      | some k => x.fall k
      | none => x
    if l.wack then x.ackFall else x) t
  ({ t with mxq := t.mxq.filter (fun q => !ids.contains q.id), cpq := t.cpq.filter (fun q => !ids.contains q.id),
            live := t.live.filter fun l => !ids.contains l.id,
            walks := t.walks.filter fun w => !(w.cmd.any fun k => ids.contains k) }, mx, cp, ch, gone)

/-- A context that has not drained by Q + 65,536 is frozen whole. -/
def execPreemptionFreeze (t : TileId) (c : Fin 4) (s : State) : Out :=
  let x := s.ctx t c
  if x.st != .active && x.st != .draining then .next s else
  let s := (s.beginDrain t c true).bump
  let r := (s.tile t).removeQueued c s.now
  let s := s.setTile t r.1
  .next (s.modArea t c fun a =>
    { a with mxq := a.mxq ++ r.2.1, cpq := a.cpq ++ r.2.2.1, chq := a.chq ++ r.2.2.2.1, removed := a.removed ++ r.2.2.2.2 })

/-! ### The save (R44, R46, R383) -/

/-- A mask without its reserved bits, all marked. -/
def fullMask : BitVec 256 := BitVec.ofNat 256 ((2 ^ 198 - 1) - 2 ^ 56 - 2 ^ 64)

/-- A pending result whose item is marked. -/
def markedDst (m : BitVec 256) : Dst → Bool
  | .s r _ => m.getLsbD r.val
  | .a r _ => m.getLsbD (32 + r.val)
  | .v r _ _ => m.getLsbD (40 + r.val)
  | .m r _ => m.getLsbD (56 + r.val)
  | .p r _ => m.getLsbD (64 + r.val)
  | .stack _ => m.getLsbD 194
  | .flags _ => true

/-- The context's items as the area holds them: unmarked ones are zero. -/
def Context.masked (c : Context) (m : BitVec 256) : Context :=
  { c with
    s := Vector.ofFn fun i : Fin 32 => if m.getLsbD i.val then c.s[i] else 0
    a := Vector.ofFn fun i : Fin 8 => if m.getLsbD (32 + i.val) then c.a[i] else 0
    v := Vector.ofFn fun i : Fin 16 => if m.getLsbD (40 + i.val) then c.v[i] else Vector.replicate 32 0
    m := Vector.ofFn fun i : Fin 8 => if m.getLsbD (56 + i.val) then c.m[i] else 0
    p := Vector.ofFn fun i : Fin 16 => if m.getLsbD (64 + i.val) then c.p[i] else false
    stack := if m.getLsbD 194 then c.stack else []
    pend := c.pend.filter fun e => markedDst m e.dst }

/-- The marked items of a tile and a context go to the area. -/
def Tile.saveInto (t : Tile) (c : Fin 4) (now : Nat) (a : SaveArea) : SaveArea :=
  let x := t.ctx c
  let m := if a.frozen then fullMask else x.live
  let ringBytes (r : Ring) : List Byte := t.spm.readN (r.base.toNat * 32) (r.e * r.z)
  let bufBytes (b : Buffer) : List Byte := t.spm.readN b.b (2 * b.s)
  let a : SaveArea := { a with
    mask := m, saved := x.masked m,
    qs := (marked m 80 8).map fun i => (i, t.scale c now i),
    qpend := t.qpend.filter fun (p : QPend) => p.ctx == c && m.getLsbD (80 + p.reg.val),
    accs := (marked m 88 64).map fun i => (i, t.acm[i]),
    planes := (marked m 152 2).map fun i => (i, t.wp[i]),
    rings := (marked m 154 8).map fun i => (i, t.rings[i], ringBytes t.rings[i]),
    bufs := (marked m 162 32).map fun i => (i, t.bufs[i], bufBytes t.bufs[i]),
    prec := if m.getLsbD 195 then some t.prec else none,
    decay := if m.getLsbD 196 then some t.decay else none,
    rowcol := if m.getLsbD 197 then some (t.rowp, t.colp) else none }
  { a with len := (a.image 0).length }

/-- The area's bytes are written in the heap. -/
def State.writeArea (s : State) (t : TileId) (c : Fin 4) : State :=
  match s.areaOf t c with
  | none => s
  | some a => match a.place with
    | none => s
    | some pa => { s.writeHeap (numbered pa (a.image s.free)) with free := s.free + 5 * a.removed.length }

/-- Pending commits of the rows that the mask leaves out become visible at the owner's save (R183). -/
def Tile.commitUnmarked (t : Tile) (c : Fin 4) (m : BitVec 256) : Tile :=
  if t.ownV && t.own == c then
    t.commitAcm fun i _ => !m.getLsbD (88 + i.val)
  else t

/-- The drain has ended: the context is saved and out. A value that PUBLISH owes an unmarked mask register is gone (R46, R239). -/
def execContextSave (t : TileId) (c : Fin 4) (s : State) : Out :=
  if (s.ctx t c).st != .draining then .next s else
  let x := s.tile t
  let s := (s.modArea t c fun a => x.saveInto c s.now a).writeArea t c
  let s := match s.areaOf t c with
    | some a => s.modTile t fun y => (y.commitUnmarked c a.mask).leaveScales c s.now true
    | none => s
  let kept (a : SaveArea) (p : MaskPub) : Bool := p.val.isNone || a.mask.getLsbD (56 + p.mreg.val)
  let owed (l : List MaskPub) : List MaskPub := match s.areaOf t c with
    | some a => l.filter (kept a)
    | none => l
  .next (s.modCtx t c fun y => { y with st := .out, preReq := none, safe := false, mpubs := owed y.mpubs })

/-! ### The restore (R384) -/

/-- The queues have room for the removed commands. -/
def Tile.roomFor (t : Tile) (a : SaveArea) : Bool :=
  decide (t.mxq.length + a.mxq.length ≤ 8) && decide (t.cpq.length + a.cpq.length ≤ 8) && decide (t.chq.length + a.chq.length ≤ 8)

/-- Scratchpad bytes of the marked rings and buffers. -/
def SaveArea.spmBytes (a : SaveArea) : List Host.Cell :=
  (a.rings.flatMap fun e => numbered (e.2.1.base.toNat * 32) e.2.2) ++ a.bufs.flatMap fun e => numbered e.2.1.b e.2.2

/-- The marked tile items other than scratchpad bytes are written, each with its saved value: a ring's `INFL`, a buffer's `WR` and `RD`
among them (R46, R389; log 40). A pending LDQ of a q register that is not marked stays (log 61). -/
def Tile.restoreItems (t : Tile) (a : SaveArea) (now : Nat) : Tile :=
  let t := t.restoreScales now a.qs a.qpend
  let t := a.accs.foldl (fun t e => { t with acm := vset t.acm e.1 e.2 }) t
  let t := a.planes.foldl (fun t e => { t with wp := vset t.wp e.1 e.2 }) t
  let t := a.rings.foldl (fun t e =>
    t.setRing e.1 fun r => { e.2.1 with claimed := r.claimed, ended := r.ended }) t
  let t := a.bufs.foldl (fun t e => t.setBuf e.1 fun _ => e.2.1) t
  { t with prec := a.prec.getD t.prec, decay := a.decay.getD t.decay,
           rowp := (a.rowcol.map Prod.fst).getD t.rowp, colp := (a.rowcol.map Prod.snd).getD t.colp }

/-- The removed commands are placed back as if they had issued on this tick. -/
def Tile.replaceQueued (t : Tile) (a : SaveArea) (c : Fin 4) (now : Nat) : Tile :=
  let copies := a.cpq.map CopyCmd.id
  let held (q : MxCmd) : Bool := q.held && q.heldBy.any fun k => copies.contains k
  let t := { t with
    mxq := t.mxq ++ a.mxq.map fun q =>
      { q with tick := now, tt := (t.ctx c).tt, headAt := none, landed := none, held := held q, heldBy := if held q then q.heldBy else none },
    cpq := t.cpq ++ a.cpq.map fun q => { q with tick := now, xl := [] },
    chq := t.chq ++ a.chq.map fun q => { q with tick := now, has := false, credAt := now },
    live := t.live ++ a.removed }
  let resolved (l : LiveCmd) : Bool :=
    (a.cpq.all fun q => q.id != l.id || q.guard.resolved) && (a.chq.all fun q => q.id != l.id || q.guard.resolved)
  let t := (a.removed.filter resolved).foldl (fun t l => t.modCtx c fun x => x.issueCounts l.tag l.wack) t
  (a.chq.filter fun q => q.guard.resolved).foldl (fun t q => t.takeCredit now q.id) t

/-- The context's own items as the area holds them. -/
def Context.restored (c saved : Context) : Context :=
  { c with s := saved.s, a := saved.a, v := saved.v, m := saved.m, p := saved.p, stack := saved.stack, pend := saved.pend,
           st := .active, held := false, safe := false, preReq := none }

/-- The queen core restores a saved context: its tile items begin to be written; when they are, the context comes back, and a queue
without room delays that. -/
def execContextRestore (t : TileId) (c : Fin 4) (s : State) : Out :=
  match s.areaOf t c with
  | none => .next s
  | some a =>
    if (s.ctx t c).st != .out then .next s else
    match a.restore with
    | .saved => .next (s.modArea t c fun a => { a with restore := .writing a.spmBytes })
    | .writing _ => .next s
    | .written =>
      if !(s.tile t).roomFor a || (s.tile t).mig.isSome then .next s else
      let s := s.modTile t fun x => (x.replaceQueued a c s.now).modCtx c fun y => y.restored a.saved
      .next { s with saves := s.saves.filter fun b => !(b.tile == t && b.ctx == c) }

/-- The area whose tile items are being written on a tile, with the scratchpad bytes to go. -/
def State.restoring (s : State) (t : TileId) : Option (SaveArea × List Host.Cell) :=
  s.saves.findSome? fun a => match a.restore with
    | .writing todo => if a.tile == t then some (a, todo) else none
    | _ => none

/-- Step 1 of a restore in the engine place: one bank row of scratchpad bytes takes the engine port for the tick, and the other items
go with the last row (R179, R384; log 39). -/
def State.restorePort (s : State) (t : TileId) : State :=
  match s.restoring t with
  | none => s
  | some (a, todo) =>
    let x := s.tile t
    let row := todo.takeWhile fun w => w.1 / 128 == (todo.headD (0, 0)).1 / 128
    let rest := todo.drop row.length
    if x.portBusy || x.frozen || x.locked s.now (row.map Prod.fst) then s else
    let s := s.modTile t fun x => { x.writeSpm row with portBusy := true }
    if !rest.isEmpty then s.modArea t a.ctx fun a => { a with restore := .writing rest }
    else (s.modTile t fun x => x.restoreItems a s.now).modArea t a.ctx fun a => { a with restore := .written }

/-! ### What is due on a tick -/

/-- A delivery of R378 step 1 is pending. -/
def Context.deliveryPending (c : Context) : Bool := !c.itNow && c.faults.toList.any Option.isSome

/-- The point of R380 is reached on this tick: after a safe-point bundle of the last tick with no fault to deliver, or at a wait held
after one with no delivery pending, a VIEWCHANGE trap for the wait among them (R159). -/
def State.atSafePoint (s : State) (t : Tile) (c : Fin 4) : Bool :=
  let x := t.ctx c
  x.st == .active && x.safe && (x.live &&& ~~~fullMask) == 0 &&
    (if x.held then !s.pendingDelivery t c else t.lastIssue == some (c, s.now - 1) && !x.deliveryPending)

/-- Pre-emptions, freezes, saves and delayed restores of a tick. -/
def State.preemptEvents (s : State) (t : TileId) (x : Tile) : List Move :=
  (List.finRange 4).filterMap fun c =>
    let y := x.ctx c
    let area := s.areaOf t c
    let late := y.preReq.any fun r => decide (r.1 + 65536 ≤ s.now)
    if y.st == .draining && x.drainedOf c then some (.ev (.contextSave t c))
    else if (y.st == .active || y.st == .draining) && late && !(area.any fun a => a.frozen) then some (.ev (.preemptionFreeze t c))
    else if y.st == .active && y.preReq.isSome && s.atSafePoint x c then some (.ev (.preemption t c))
    else if y.st == .out && area.any fun a => a.restore == .written then some (.ev (.contextRestore t c))
    else none

end Sys2Proof.Machine
end

