-- ==== Sys2Proof/Machine/Pages.lean ====
section
/-! DEFINITION. Pages (R199 to R203, R240, R319): residency served by firmware or by the host, and the move of a page
between stacks. -/

namespace Sys2Proof.Machine

/-- Physical address of the leaf entry of an address, by the walk of R200 (fuel: the levels left). -/
def State.leafAt (s : State) (va : Nat) : Nat → Nat → Nat → Option Nat
  | 0, _, _ => none
  | n + 1, lvl, tab =>
    let pa := tab + 8 * levelIndex lvl va
    let e := s.pte pa
    if e % 2 = 0 then none
    else if e / 2 % 2 = 1 then (match leafXlate e lvl va with
      | .ok _ _ _ _ _ _ _ _ _ _ _ => some pa
      | .fail _ _ => none)
    else match nextTable e with
      | some t => s.leafAt va n (lvl + 1) t
      | none => none

def State.leafOf (s : State) (launch va : Nat) : Option Nat :=
  (s.roots.find? fun r => r.1 == launch).bind fun r => s.leafAt va 3 1 r.2

/-- The launches whose walk of an address ends at the same leaf as a launch's: those that share its page table (R200). -/
def State.sharers (s : State) (launch va : Nat) : List Nat :=
  match s.leafOf launch va with
  | none => [launch]
  | some pa => (s.roots.filter fun r => s.leafAt va 3 1 r.2 == some pa).map Prod.fst

/-- A leaf is written: a field of `n` bits at `lo`. -/
def State.setLeaf (s : State) (pa lo n v : Nat) : State :=
  let e := s.pte pa
  s.writeHeap (numbered pa (leBytes 8 (e - e / 2 ^ lo % 2 ^ n * 2 ^ lo + v % 2 ^ n * 2 ^ lo)))

/-- The queen core invalidates a page of a launch, and of those that share it, in every TLB (R199, R203, R319). -/
def State.invalidate (s : State) (launch : BitVec 16) (va : VAddr) : State :=
  let ls := s.sharers launch.toNat va.toNat
  { s with agenda := (s.tiles.flatMap fun e => ls.map fun l => Move.ev (.tlbInvalidation e.1 (some (BitVec.ofNat 16 l)) (some va))) ++ s.agenda }

/-- Contexts that asked for a page, with the address of their REQPG. -/
def State.askers (s : State) (launch : Nat) (va : VAddr) : List (TileId × Fin 4 × VAddr) :=
  s.tiles.flatMap fun e => (e.2.pages.filter fun p => p.launch == launch && p.pages.contains va).map fun p => (e.1, p.ctx, p.fpc)

/-- A requested page is settled: every REQPG that awaits it goes on. -/
def State.pageSettled (s : State) (launch : Nat) (va : VAddr) : State :=
  { s with pageReqs := s.pageReqs.filter (fun r => !(r.1 == launch && r.2.1 == va)),
           tiles := s.tiles.map fun (e : TileId × Tile) => if e.2.pages.isEmpty then e else (e.1, e.2.pageDone launch va) }

/-- A page becomes resident: `RES` := 1, then the invalidation that makes it visible (R202). -/
def State.servePage (s : State) (launch : BitVec 16) (va : VAddr) : State :=
  match s.leafOf launch.toNat va.toNat with
  | none => s.pageSettled launch.toNat va
  | some pa => ((s.setLeaf pa 4 1 1).pageSettled launch.toNat va).invalidate launch va

/-! ### Page migration (R203) -/

/-- A translation covers some byte of a page of some launches. -/
def coversPage (launches : List Nat) (vbase size : Nat) (e : TlbEntry) : Bool := launches.contains e.launch && inSpan e.vbase vbase size

/-- Commands that go on with the old frame: copies in flight, STATIC copies in the queue that keep its translation, and heap
writes of the launches not yet acknowledged (R199, R203). -/
def State.oldUsers (s : State) (launches : List Nat) (vbase size : Nat) : List (TileId × Nat) :=
  s.tiles.flatMap fun e =>
    ((e.2.flights.filter fun f => f.xl.any (coversPage launches vbase size)).map fun f => (e.1, f.id)) ++
    ((e.2.cpq.filter fun c => c.xl.any (coversPage launches vbase size)).map fun c => (e.1, c.id)) ++
    ((e.2.acks.filter fun a => a.peer.isNone && (e.2.ctx a.ctx).lid.any launches.contains).map fun a => (e.1, a.id))

/-- Commands at the queue heads, and fetches, translate the page again. -/
def Tile.dropXlate (t : Tile) (launches : List Nat) (vbase size : Nat) : Tile :=
  { t with walks := t.walks.filter fun w => !(inSpan w.va vbase size && (t.ctx w.ctx).lid.any launches.contains) }

/-- Requests of PREF and PIN that were held at a page translate to its new frame (R203 step 5). -/
def State.releaseLines (s : State) (t : TileId) (launches : List Nat) (vbase size : Nat) : State :=
  let x := s.tile t
  if x.codeHeld.isEmpty then s else
  let out (h : HeldLine) : Bool := inSpan h.va.toNat vbase size && (x.ctx h.ctx).lid.any launches.contains
  let s := s.setTile t { x with codeHeld := x.codeHeld.filter fun h => !out h }
  ((x.codeHeld.filter out).foldl (fun s h => s.askLine t h.ctx h.region h.pin (s.now + 1 + Config.codeLatency s.free) h.va) s).bump

/-- Steps 1 and 2: the leaf is marked migrating, its translations are held. -/
def execPageMigration (launch : BitVec 16) (va : VAddr) (stack : Fin 64) (frame : BitVec 17) (lc : BitVec 3) (s : State) : Out :=
  match s.leafOf launch.toNat va.toNat with
  | none => .next s
  | some pa =>
    match leafXlate (s.pte pa) (3 - s.pte pa / 4 % 4) va.toNat with
    | .fail _ _ => .next s
    | .ok _ vb size pbase _ _ _ _ _ _ mig =>
      if mig then .next s else
      let ls := s.sharers launch.toNat va.toNat
      let s := (s.setLeaf pa 9 3 0).setLeaf pa 5 1 1
      let m : PageMove := ⟨launch, BitVec.ofNat 48 vb, pa, pbase, size, stack, frame, lc, s.oldUsers ls vb size⟩
      let s := { s with moves := s.moves ++ [m], tiles := s.tiles.map fun (e : TileId × Tile) => (e.1, e.2.dropXlate ls vb size) }
      .next (s.invalidate launch (BitVec.ofNat 48 vb))

/-- Every command translated to the old frame has completed, code lines on their way from it among them. -/
def PageMove.ready (m : PageMove) (s : State) : Bool :=
  (m.wait.all fun w => (s.tile w.1).flights.all (fun f => f.id != w.2) && (s.tile w.1).cpq.all (fun c => c.id != w.2) &&
    (s.tile w.1).acks.all fun a => a.id != w.2) &&
  s.tiles.all fun e => e.2.code.all fun r => !inSpan (256 * r.line) m.oldBase m.size

/-- A frame's bytes are copied, as reads see them. -/
def State.moveFrame (s : State) (from_ to_ size : Nat) : State :=
  let old := (s.heap.filter fun (c : Host.Cell) => inSpan c.1 from_ size).map fun (c : Host.Cell) =>
    (c.1 - from_ + to_, s.heapByte c.1)
  { s with heap := Memory.writeAll (s.heap.filter fun (c : Host.Cell) => !inSpan c.1 to_ size) old,
           heapBad := s.heapBad.filter fun w => !inSpan (4 * w) to_ size }

/-- Steps 4 and 5: the frame is copied, the leaf names the new one, the held walks go on. -/
def execPageMigrationCopy (s : State) : Out :=
  match s.moves.find? fun m => m.ready s with
  | none => .next s
  | some m =>
    let base := m.stack.val * 2 ^ 36 + m.frame.toNat * 2 ^ 19
    let s := { s.moveFrame m.oldBase base m.size with moves := s.moves.filter fun n => n != m }
    let s := (((s.setLeaf m.leafPa 12 6 m.stack.val).setLeaf m.leafPa 18 17 m.frame.toNat).setLeaf m.leafPa 9 3 m.lc.toNat).setLeaf
      m.leafPa 5 1 0
    let ls := s.sharers m.launch.toNat m.va.toNat
    let s := { s with tiles := s.tiles.map fun (e : TileId × Tile) => (e.1, e.2.dropXlate ls m.va.toNat m.size) }
    .next ((s.tiles.map Prod.fst).foldl (fun s t => s.releaseLines t ls m.va.toNat m.size) s)

end Sys2Proof.Machine
end

