-- ==== Sys2Proof/Machine/Front.lean ====
section
/-! DEFINITION. The front end's view of the host (R216, R277 to R282, R392 to R402): user queues, records, completion and
fault records, the event and assist rings, hardware queue slots. -/

namespace Sys2Proof.Machine

/-! ### Host memory -/

/-- A host address. -/
def hostAddr (a : Nat) : Nat := a % 2 ^ 64
def State.hostRead (s : State) (a n : Nat) : List Byte := (List.range n).map fun i => s.host.read (hostAddr (a + i))
def State.hostWrite (s : State) (a : Nat) (bs : List Byte) : State :=
  { s with host := s.host.writeAll ((numbered a bs).map fun e => (hostAddr e.1, e.2)) }

/-- A little-endian field of a record. -/
def recField (r : List Byte) (off n : Nat) : Nat := leNat ((r.drop off).take n)

/-! ### User queues -/

def State.queue (s : State) (q : Fin 256) : UserQueue := alGet s.queues q.val UserQueue.reset
def State.modQueue (s : State) (q : Fin 256) (f : UserQueue → UserQueue) : State :=
  { s with queues := alSet s.queues q.val (f (s.queue q)) }
def State.modSlot (s : State) (k : Fin 32) (f : HwSlot → HwSlot) : State := { s with slots := vset s.slots k (f s.slots[k]) }

/-- Records of a ring, and the host address of one (R277, R392). -/
def UserQueue.size (u : UserQueue) : Nat := 2 ^ u.lsz.toNat
def UserQueue.recAddr (u : UserQueue) (i : Nat) : Nat := u.qbase.toNat + 64 * (i % u.size)

/-- The slot that holds a queue. -/
def State.slotOf (s : State) (q : Fin 256) : Option (Fin 32) := (List.finRange 32).find? fun k => s.slots[k].queue == some q

/-- The head advances over the completed records that follow it (R395); fuel: the records completed out of order. -/
def UserQueue.settle (u : UserQueue) : Nat → UserQueue
  | 0 => u
  | n + 1 =>
    if u.done.contains u.qhead.toNat then
      ({ u with done := u.done.filter (· != u.qhead.toNat), qhead := u.qhead + 1 }).settle n
    else u

/-- A record index leaves the head. -/
def UserQueue.complete (u : UserQueue) (i : Nat) : UserQueue :=
  let u := { u with done := u.done ++ [i] }
  u.settle u.done.length

/-! ### Host events (R402) -/

/-- An event goes into the event ring, or is lost (R393, R402). -/
def State.post (s : State) (kind : Nat) (body : List Byte) : State :=
  let n := s.ctl.evctl.toNat % 16
  let free := (s.ctl.evtail - s.ctl.evhead).toNat < 2 ^ n
  if s.ctl.evctl.getLsbD 8 ∧ 4 ≤ n ∧ n ≤ 12 ∧ free then
    let bs := ([BitVec.ofNat 8 kind] ++ List.replicate 7 0 ++ body ++ List.replicate 24 0).take 32
    { s.hostWrite (s.ctl.evbase.toNat + 32 * (s.ctl.evtail.toNat % 2 ^ n)) bs with
        ctl := { s.ctl with evtail := s.ctl.evtail + 1 } }
  else { s with ctl := { s.ctl with evlost := addSat32 s.ctl.evlost 1 } }

/-- Bodies: a queue and a record count, a tile, a number. -/
def queueBody (q : Fin 256) (n : Word) : List Byte := leBytes 4 q.val ++ leBytes 4 n.toNat
def tileBody (t : TileId) : List Byte := leBytes 4 (tileX t + 65536 * tileY t)

/-! ### Completion records (R398) -/

/-- What the completion record of a record carries beyond its fixed fields. -/
structure Completion where
  tag : Nat
  op : Nat
  status : Nat
  detail : Nat
  start : Nat
  fcnt : Nat
  faults : Nat
  flags : Nat
  deriving DecidableEq, Repr

def Completion.plain (tag op status detail : Nat) : Completion := ⟨tag, op, status, detail, 0, 0, 0, 0⟩

/-- Bytes 0 to 30 are written first, byte 31 after them; the head advances, and a queue with `IRQ` sends its vector (R392). -/
def State.completeRecord (s : State) (q : Fin 256) (i : Nat) (c : Completion) : State :=
  let u := s.queue q
  let a := u.cqbase.toNat + 32 * (i % u.size)
  let body := leBytes 2 c.tag ++ leBytes 1 c.op ++ leBytes 1 c.status ++ leBytes 4 c.detail ++ leBytes 8 c.start ++
    leBytes 8 s.now ++ leBytes 4 c.fcnt ++ leBytes 2 c.faults ++ leBytes 1 c.flags
  let ph := (i / u.size + 1) % 2
  let s := ((s.hostWrite a body).hostWrite (a + 31) (leBytes 1 ph)).modQueue q fun u => u.complete i
  if u.irq then { s with msix := s.msix ++ [q] } else s

/-! ### Fault records (R379, R387, R400) -/

def State.launchOf (s : State) (lid : Nat) : Option Launch := s.launches.find? fun l => l.lid == lid
def State.modLaunch (s : State) (lid : Nat) (f : Launch → Launch) : State :=
  { s with launches := s.launches.map fun l => if l.lid = lid then f l else l }

/-- A fault record (R400). -/
def faultBytes (cause finfo : Word) (fpc epc : VAddr) (t : TileId) (c : Fin 4) (kind : Nat) (tag : BitVec 16) : List Byte :=
  leBytes 4 cause.toNat ++ leBytes 4 finfo.toNat ++ leBytes 8 fpc.toNat ++ leBytes 8 epc.toNat ++ tileBody t ++ leBytes 1 c.val ++
    leBytes 1 kind ++ leBytes 2 tag.toNat

/-- A fault record of a launch, or its loss when the ring is full. -/
def State.faultOf (s : State) (lid : Nat) (cause finfo : Word) (fpc epc : VAddr) (t : TileId) (c : Fin 4) (kind : Nat) : State :=
  match s.launchOf lid with
  | none => s
  | some l =>
    let u := s.queue l.queue
    let n := 2 ^ u.flsz.toNat
    if n ≤ (u.fcnt - u.fread).toNat then s.modLaunch lid fun l => { l with dropped := true }
    else
      let s := s.hostWrite (u.fbase.toNat + 32 * (u.fcnt.toNat % n)) (faultBytes cause finfo fpc epc t c kind l.tag)
      (s.modQueue l.queue fun u => { u with fcnt := u.fcnt + 1 }).modLaunch lid fun l =>
        { l with nfault := l.nfault + 1, fcnt0 := l.fcnt0.or (some u.fcnt) }

/-- The queen core ends a stopped task and appends its fault, then those that wait in its places, then those reported since it ended
(R379). The faults that wait in the places of a task as it halts are appended in the same way: DESIGN CHOICE, log 83. While the queen
core is being replaced a stopped context stays stopped (R408). -/
def execFaultRecord (t : TileId) (c : Fin 4) (s : State) : Out :=
  if s.fw.gap then .next s else
  let x := s.ctx t c
  match x.lid with
  | none => .next (s.modCtx t c fun y => { y with faults := Vector.replicate 3 none, late := [] })
  | some lid =>
    let s := if x.st = .stopped then (s.faultOf lid x.cause x.finfo x.fpc x.epc t c 0).endTask t c else s
    if x.st != .stopped && x.st != .halted && x.st != .free then .next s else
    let s := (List.finRange 3).foldl (fun s q => match x.faults[q] with
      | some f => s.faultOf lid f.flt.cause f.flt.finfo f.flt.fpc x.pc t c 0
      | none => s) s
    let s := x.late.foldl (fun s f => s.faultOf lid f.cause f.finfo f.fpc x.pc t c 0) s
    .next (s.modCtx t c fun y => { y with faults := Vector.replicate 3 none, late := [] })

/-! ### The assist ring (R320, R393, R402) -/

/-- The operands as the ring holds them: of a raw launch record, less its zero bytes 4 to 7 and 60 to 63 (R394, R397, R401; log 76). -/
def AssistReq.operands (a : AssistReq) : List Byte :=
  if a.fn.toNat = fnParse then (a.body.drop 8).take 4 ++ a.body.drop 16 else a.body

/-- Requests enter the ring in order while it has room; the time for the answer counts from there (R393, R402). -/
def State.postAssists (s : State) : State :=
  s.assists.foldl (fun s a =>
    let n := s.ctl.arctl.toNat % 16
    if !a.posted && s.ctl.arctl.getLsbD 8 && decide (4 ≤ n) && decide (n ≤ 12) &&
        decide ((s.ctl.artail - s.ctl.arhead).toNat < 2 ^ n) then
      let bs := (leBytes 4 a.fn.toNat ++ leBytes 4 a.num.toNat ++ a.operands ++ List.replicate 56 0).take 64
      { s.hostWrite (s.ctl.arbase.toNat + 64 * (s.ctl.artail.toNat % 2 ^ n)) bs with
          ctl := { s.ctl with artail := s.ctl.artail + 1 },
          assists := s.assists.map fun b => if b.num = a.num then { b with posted := true, tick := s.now } else b }
    else s) s

/-! ### Doorbells and slots (R277 to R282) -/

/-- A queue joins the tail of the pending list. -/
def State.pendQueue (s : State) (q : Fin 256) : State :=
  let s := s.modQueue q fun u => { u with qst := .pending }
  if s.pendingQ.contains q then s else { s with pendingQ := s.pendingQ ++ [q] }

/-- A doorbell raises the tail; one beyond the ring is refused and reported; an IDLE queue with records becomes PENDING,
on the next tick when it was unmapped on this one (R282). -/
def execDoorbell (q : Fin 256) (tail : Word) (s : State) : Out :=
  let u := s.queue q
  if !u.en then .next s else
  let rise := (tail - u.qtail).toNat
  if rise = 0 ∨ 2 ^ 31 ≤ rise then .next s
  else if u.size < (tail - u.qhead).toNat then .next (s.post 2 (queueBody q tail))
  else
    let s := s.modQueue q fun u => { u with qtail := tail }
    if u.qst = .idle ∧ !s.unmapped.contains q then .next (s.pendQueue q) else .next s

/-- A doorbell on the tick on which its queue has been empty for 4,096 ticks acts after the front end's unmap of that tick (R282). -/
def State.ring (s : State) (q : Fin 256) (tail : Word) : State :=
  let m : Move := .ev (.doorbell q tail)
  match s.slotOf q with
  | some k => if s.slots[k].emptyAt.any fun e => decide (e + 4096 ≤ s.now) then { s with agenda := s.agenda ++ [m] } else s.first m
  | none => s.first m

/-- The least U among mapped slots. -/
def State.leastU (s : State) : Nat :=
  let us := ((List.finRange 32).filter fun k => s.slots[k].queue.isSome).map fun k => s.slots[k].u
  match us with
  | [] => 0
  | x :: l => l.foldl min x

/-- The first pending queue takes a free slot: the slot loads the shadow over 32 ticks (R279, R280). -/
def execSlotMap (k : Fin 32) (s : State) : Out :=
  match s.pendingQ, s.slots[k].queue with
  | q :: rest, none =>
    let u := max (s.queue q).quse.toNat s.leastU
    let s := s.modQueue q fun x => { x with qst := .mapped, qslot := BitVec.ofNat 16 k.val }
    .next ({ s with pendingQ := rest }.modSlot k fun _ => ⟨some q, s.now + 33, u, none, none⟩)
  | _, _ => .next s

/-- The slot saves to the shadow and becomes FREE. -/
def State.unmap (s : State) (k : Fin 32) (q : Fin 256) (st : QState) : State :=
  let u := s.slots[k].u
  let s := s.modQueue q fun x => { x with qst := st, qslot := 0xFFFF, quse := BitVec.ofNat 64 u }
  { s.modSlot k (fun _ => ⟨none, 0, 0, none, none⟩) with unmapped := s.unmapped ++ [q] }

/-- A queue empty for 4,096 ticks makes room for a pending one. -/
def execIdleUnmap (k : Fin 32) (s : State) : Out :=
  match s.slots[k].queue with
  | some q => .next (s.unmap k q .idle)
  | none => .next s

/-- A head record blocked for 2^20 ticks frees its slot; a suspected wait cycle is reported. One that has progressed on this tick
stays (R281). -/
def execBlockedUnmap (k : Fin 32) (s : State) : Out :=
  match s.slots[k].queue with
  | some q =>
    .next (if s.slots[k].blockedAt.any fun b => decide (b + 2 ^ 20 ≤ s.now) then
      (s.unmap k q .blocked).post 1 (queueBody q (s.queue q).started) else s)
  | none => .next s

/-- On the tick after an unmap, an IDLE queue with records becomes PENDING (R282). -/
def State.settleUnmapped (s : State) : State :=
  s.unmapped.foldl (fun s q => if (s.queue q).qst = .idle ∧ (s.queue q).qtail ≠ (s.queue q).qhead then s.pendQueue q else s)
    { s with unmapped := [] }

/-! ### Head records -/

/-- The record that a mapped slot may start next: its queue, index and bytes (R395). -/
def State.headRecord (s : State) (k : Fin 32) : Option (Fin 256 × Nat × List Byte) :=
  match s.slots[k].queue with
  | none => none
  | some q =>
    let u := s.queue q
    if s.now < s.slots[k].ready ∨ u.started = u.qtail then none
    else some (q, u.started.toNat, s.hostRead (u.recAddr u.started.toNat) 64)

/-- The head record has started: the next one may. -/
def State.started (s : State) (k : Fin 32) (q : Fin 256) : State :=
  (s.modQueue q fun u => { u with started := u.started + 1, qblk := 0, qwait := List.replicate 16 0 }).modSlot k
    fun x => { x with blockedAt := none }

/-- `QWAIT` (R278): the record's kind, then the operand that it waits on: WAIT's and SIGNAL's timeline and value, LOAD's handle,
LAUNCH's handle, rectangle, context and rank (log 75). -/
def qwaitOf (r : List Byte) : List Byte :=
  let operand : List Byte := match recField r 0 1 with
    | 1 => (r.drop 20).take 2
    | 2 => (r.drop 8).take 14
    | 3 | 4 => (r.drop 8).take 2 ++ (r.drop 16).take 8
    | _ => []
  (r.take 1 ++ operand ++ List.replicate 15 0).take 16

/-- The head record is blocked: the shadow notes since when, and its wait (R278, R279). -/
def State.block (s : State) (k : Fin 32) (q : Fin 256) (r : List Byte) : State :=
  if s.slots[k].blockedAt.isSome then s else
  (s.modQueue q fun u =>
    { u with qblk := combTime s.now, qwait := qwaitOf r }).modSlot k
      fun x => { x with blockedAt := some s.now }

/-- It starts and is complete at once. -/
def State.finishRecord (s : State) (k : Fin 32) (q : Fin 256) (i : Nat) (r : List Byte) (status detail : Nat) : State :=
  (s.started k q).completeRecord q i (Completion.plain (recField r 2 2) (recField r 0 1) status detail)

/-- It starts and completes on a later tick. -/
def State.recordLater (s : State) (k : Fin 32) (q : Fin 256) (i : Nat) (r : List Byte) (status detail at_ : Nat) : State :=
  let s := s.started k q
  { s with recs := s.recs ++ [⟨q, i, BitVec.ofNat 8 (recField r 0 1), BitVec.ofNat 16 (recField r 2 2), BitVec.ofNat 8 status,
      BitVec.ofNat 32 detail, at_⟩] }

/-- Records whose tick has come complete. -/
def State.dueRecords (s : State) : State :=
  let due := s.recs.filter fun r => decide (r.tick ≤ s.now)
  due.foldl (fun s r => s.completeRecord r.queue r.idx (Completion.plain r.tag.toNat r.op.toNat r.status.toNat r.detail.toNat))
    { s with recs := s.recs.filter fun r => decide (s.now < r.tick) }

/-- Fields of a record with bits that must be zero: offset, size, the reserved bits (R394, R395, R397). -/
def reservedFields (op : Nat) : List (Nat × Nat × Nat) :=
  let all (n : Nat) : Nat := 2 ^ (8 * n) - 1
  let flg (m : Nat) : Nat × Nat × Nat := (1, 1, 255 - m)
  let desc : List (Nat × Nat × Nat) :=
    [(44, 6, 2 ^ 48 - 2 ^ 42), (50, 4, 2 ^ 31 - 2 ^ 25 + (2 ^ 16 - 2 ^ 9)), (54, 4, 2 ^ 32 - 2 ^ 22), (58, 6, all 6)]
  match op with
  | 1 => [flg 0, (4, 4, all 4), (22, 10, all 10)] ++ desc
  | 2 => [flg 1, (4, 4, all 4), (12, 4, 2 ^ 32 - 2 ^ 25 + (2 ^ 16 - 2 ^ 9)), (16, 4, 2 ^ 32 - 2 ^ 25 + (2 ^ 16 - 2 ^ 9)), (20, 1, 252),
          (22, 2, 2 ^ 16 - 2 ^ 10)] ++ desc
  | 3 | 4 => [flg 0, (4, 4, all 4), (8, 2, 2 ^ 16 - 2 ^ 10), (10, 6, all 6), (24, 40, all 40)]
  | 5 => [flg 2, (4, 4, all 4), (28, 4, all 4)] ++ desc
  | _ => [flg 0, (4, 4, all 4), (8, 56, all 56)]

/-- The first bad field of a record (R394, R399). -/
def badField (r : List Byte) : Option Nat :=
  let op := recField r 0 1
  if op = 0 ∨ 6 < op then some 0
  else ((reservedFields op).find? fun f => recField r f.1 f.2.1 &&& f.2.2 != 0).map fun f => f.1

/-- A record of one kind at the head of a slot, well formed; a bad one completes with status 1. -/
def State.withRecord (s : State) (k : Fin 32) (op : Nat) (f : Fin 256 → Nat → List Byte → State) : Out :=
  match s.headRecord k with
  | none => .next s
  | some (q, i, r) =>
    match badField r with
    | some off => .next (s.finishRecord k q i r 1 off)
    | none => if recField r 0 1 = op then .next (f q i r) else .next s

/-! ### WAIT, SIGNAL, FENCE (R395) -/

/-- WAIT starts and completes when its timeline condition holds. -/
def waitReady (s : State) (r : List Byte) : Bool :=
  reached (alGet s.tls (recField r 8 2) 0) (BitVec.ofNat 64 (recField r 16 8))

def execWait (k : Fin 32) (s : State) : Out :=
  s.withRecord k 3 fun q i r => if waitReady s r then s.finishRecord k q i r 0 0 else s.block k q r

/-- SIGNAL makes one advance and completes when it has been applied. -/
def execSignal (k : Fin 32) (s : State) : Out :=
  s.withRecord k 4 fun q i r =>
    if s.fw.gap then s.block k q r else
    let due := if s.hold then s.now else s.now + 1 + Config.advanceLatency s.free % 1024
    let a : Advance := ⟨Fin.ofNat 1024 (recField r 8 2), BitVec.ofNat 64 (recField r 16 8), due, none⟩
    ({ s with advances := s.advances ++ [a] }.recordLater k q i r 0 0 due).bump

/-- FENCE starts and completes once every earlier record of its queue has completed. -/
def execFenceRecord (k : Fin 32) (s : State) : Out :=
  s.withRecord k 6 fun q i r =>
    if (s.queue q).qhead.toNat = i then s.finishRecord k q i r 0 0 else s.block k q r

end Sys2Proof.Machine
end

