-- ==== Sys2Proof/Machine/Image.lean ====
section
/-! DEFINITION. Images (R58, R59): the file, its sections, the declarations in them and the checks of LOAD (R194, R272, R311,
R314, R331). The spec gives no byte layout for the data of sections of kinds 4 to 8: this model's is in log 6. -/

namespace Sys2Proof.Machine

/-! ### The file (R59) -/

/-- The first field of a header or of the section table that LOAD refuses: its byte offset. That a total size other than the
record's length, a table or data beyond the file, and a kind that R59 does not name are refused too is a DESIGN CHOICE, log 70. -/
def badFile (f : List Byte) : Option Nat :=
  let w (o n : Nat) : Nat := recField f o n
  let heads : List (Nat × Bool) :=
    [(0, w 0 4 == 0x314D4943), (4, w 4 2 == 1), (6, w 6 2 == 0), (16, decide (w 16 8 + 32 * w 12 4 ≤ f.length)), (24, w 24 8 == f.length),
     (40, w 40 24 == 0)]
  match heads.find? fun e => !e.2 with
  | some e => some e.1
  | none =>
    (List.range (w 12 4)).findSome? fun i =>
      let b := w 16 8 + 32 * i
      let secs : List (Nat × Bool) :=
        [(b, decide (1 ≤ w b 1) && decide (w b 1 ≤ 8)), (b + 1, w (b + 1) 3 == 0), (b + 12, w (b + 12) 4 == 0),
         (b + 24, decide (w (b + 24) 4 + w (b + 28) 4 ≤ f.length))]
      (secs.find? fun e => !e.2).map fun e => e.1

/-- The sections of a file that LOAD accepts. -/
def sectionsOf (f : List Byte) : List Section :=
  let w (o n : Nat) : Nat := recField f o n
  (List.range (w 12 4)).map fun i =>
    let b := w 16 8 + 32 * i
    { kind := w b 1, gx := w (b + 4) 2, gy := w (b + 6) 2, gw := w (b + 8) 2, gh := w (b + 10) 2, addr := w (b + 16) 8,
      data := (f.drop (w (b + 24) 4)).take (w (b + 28) 4) }

/-! ### Tile groups (R58) -/

/-- `.tile all`. -/
def Section.everywhere (c : Section) : Bool := c.gw == 0xFFFF
/-- `.tile p, 0, 0, 0`: the scout of port p (R350). -/
def Section.scout (c : Section) : Bool := c.gw == 0
/-- The group holds the tile at an offset from the launch origin. -/
def Section.covers (c : Section) (dx dy : Nat) : Bool := c.everywhere || (inSpan dx c.gx c.gw && inSpan dy c.gy c.gh)

/-- Records of a fixed size in a section's data (fuel: the bytes). -/
def cutRecords (size : Nat) : Nat → List Byte → List (List Byte)
  | 0, _ => []
  | n + 1, bs => if bs.length < size then [] else bs.take size :: cutRecords size n (bs.drop size)

def Section.records (c : Section) (size : Nat) : List (List Byte) := cutRecords size c.data.length c.data

/-! ### Declarations -/

/-- Routes: 16 bytes each, number, then the word at offset 8. -/
def Section.routes (c : Section) : List (Fin 256 × BitVec 64) :=
  if c.kind = 4 then (c.records 16).map fun r => (Fin.ofNat 256 (recField r 0 1), BitVec.ofNat 64 (recField r 8 8)) else []

/-- Channels: 24 bytes each, number, then the entry of R314 at offset 8. -/
def Section.channels (c : Section) : List (Fin 256 × Nat) :=
  if c.kind = 5 then (c.records 24).map fun r => (Fin.ofNat 256 (recField r 0 1), recField r 8 16) else []

/-- A field of a table entry. -/
def fieldOf (v lo n : Nat) : Nat := v / 2 ^ lo % 2 ^ n

/-- A channel entry from its bits (R314). -/
def chanOf (v : Nat) : Chan :=
  let coll := fieldOf v 1 1 == 1
  let p (lo n : Nat) : Nat := if coll then 0 else fieldOf v lo n
  let q (lo n : Nat) : Nat := if coll then fieldOf v lo n else 0
  { Chan.reset with
    v := true, coll := coll, rt := Fin.ofNat 256 (fieldOf v 2 8), msz := BitVec.ofNat 13 (fieldOf v 10 13), tk := fieldOf v 23 1 == 1,
    tgt := BitVec.ofNat 5 (fieldOf v 24 5), toff := BitVec.ofNat 14 (fieldOf v 29 14), px := BitVec.ofNat 9 (p 43 9),
    py := BitVec.ofNat 9 (p 52 9), d := BitVec.ofNat 8 (p 61 8), win := BitVec.ofNat 8 (p 69 8), sw := Fin.ofNat 256 (q 43 8),
    rop := BitVec.ofNat 3 (q 51 3), ck := BitVec.ofNat 3 (q 54 3), om := BitVec.ofNat 2 (q 57 2), root := BitVec.ofNat 16 (q 59 16),
    cr := BitVec.ofNat 8 (p 61 8) }

/-- Buffers and rings: 24 bytes each, 0 or 1, number, then the entry of R189 or R194 at offset 8. -/
def Section.tables (c : Section) : List (Bool × Nat × Nat) :=
  if c.kind = 6 then (c.records 24).map fun r => (recField r 0 1 == 1, recField r 1 1, recField r 8 16) else []
def Section.rings (c : Section) : List (Fin 8 × Nat) := (c.tables.filter fun e => e.1).map fun e => (Fin.ofNat 8 e.2.1, e.2.2)
def Section.buffers (c : Section) : List (Fin 32 × Nat) := (c.tables.filter fun e => !e.1).map fun e => (Fin.ofNat 32 e.2.1, e.2.2)

def ringOf (v : Nat) : Ring :=
  { Ring.reset with base := BitVec.ofNat 11 v, esz := BitVec.ofNat 8 (fieldOf v 11 8), nent := BitVec.ofNat 8 (fieldOf v 19 8), v := true }
def bufferOf (v : Nat) : Buffer :=
  { Buffer.reset with base := BitVec.ofNat 9 v, size := BitVec.ofNat 8 (fieldOf v 9 8), v := true }

/-- Swarm entries: number, the entry of R329 at offset 8, then NR + 1 roster words (fuel: the bytes). -/
def cutSwarms : Nat → List Byte → List (Fin 256 × Nat × List Word)
  | 0, _ => []
  | n + 1, bs =>
    if bs.length < 24 then [] else
    let e := recField bs 8 16
    let m := fieldOf e 20 16 + 1
    (Fin.ofNat 256 (recField bs 0 1), e, (List.range m).map fun i => BitVec.ofNat 32 (recField bs (24 + 4 * i) 4)) ::
      cutSwarms n (bs.drop (24 + 4 * m))
def Section.swarms (c : Section) : List (Fin 256 × Nat × List Word) := if c.kind = 7 then cutSwarms c.data.length c.data else []

/-- Initial registers: 16 bytes each, file, index, then the value at offset 8. -/
def Section.regs (c : Section) : List (Nat × Nat × Nat) :=
  if c.kind = 8 then (c.records 16).map fun r => (recField r 0 1, recField r 1 1, recField r 8 8) else []

/-- A swarm's hive level and anchor as the image writes them; 511, 511 names none. -/
def swHive (e : Nat) : Bool := fieldOf e 1 1 == 1
def swAnchor (e : Nat) : Option (Nat × Nat) := if fieldOf e 96 9 = 511 ∧ fieldOf e 105 9 = 511 then none else some (fieldOf e 96 9, fieldOf e 105 9)

/-! ### The checks of LOAD (R399 status 3) -/

/-- End of a route counted from the launch origin (R311). -/
def State.routeGoal (s : State) (dx dy : Nat) (w : BitVec 64) : Nat × Nat :=
  let t := s.routeEnd (mkTile (dx % s.fuses.gx) (dy % s.fuses.gy)) w
  (tileX t, tileY t)

/-- The route a tile of the image uses for a channel: the last declaration that covers it. -/
def routeIn (secs : List Section) (dx dy : Nat) (rt : Fin 256) : BitVec 64 :=
  ((secs.reverse.filter fun c => c.covers dx dy).findSome? fun c => (c.routes.reverse.find? fun e => e.1 == rt).map fun e => e.2).getD 0

/-- The tiles of a group that is no `.tile all`. -/
def Section.tiles (c : Section) : List (Nat × Nat) :=
  if c.everywhere then [] else (List.range c.gw).flatMap fun i => (List.range c.gh).map fun j => (c.gx + i, c.gy + j)

/-- The tiles of a group that LOAD can name: of `.tile all`, the one at the launch origin, which every launch rectangle holds; the
others are checked at admission (log 6). -/
def Section.known (c : Section) : List (Nat × Nat) := if c.everywhere then [(0, 0)] else c.tiles

/-- Where a channel's route must end on a tile (R311): at its peer, or at the successor in the swarm; of a port channel R348 says
where. -/
def routeWant (secs : List Section) (c : Chan) (dx dy : Nat) : Option (Nat × Nat) :=
  if !c.coll then if c.px.toNat = 511 then none else some (c.px.toNat, c.py.toNat)
  else
    match (secs.flatMap Section.swarms).find? fun e => e.1 == c.sw with
    | none => none
    | some (_, e, ms) =>
      if swHive e then (if swAnchor e = some (dx, dy) then some (dx, dy) else none)
      else
        let at_ (w : Word) : Nat × Nat := (w.toNat % 512, w.toNat / 65536 % 512)
        match ms.findIdx? fun w => at_ w == (dx, dy) with
        | some i => some (at_ (ms.getD ((i + 1) % ms.length) 0))
        | none => none

/-- The ring or buffer that an entry names is declared on a tile (R314). -/
def targetOn (secs : List Section) (e : Chan) (dx dy : Nat) : Bool :=
  secs.any fun d => d.covers dx dy &&
    if e.tk then d.buffers.any fun b => b.1.val == e.tgt.toNat else d.rings.any fun r => r.1.val == e.tgt.toNat

/-- An entry's route ends elsewhere than R311 asks, on a tile. -/
def State.routeAstray (s : State) (secs : List Section) (e : Chan) (dx dy : Nat) : Bool :=
  (routeWant secs e dx dy).any fun g =>
    s.routeGoal dx dy (routeIn secs dx dy e.rt) != (g.1 % s.fuses.gx, g.2 % s.fuses.gy)

/-- A port channel's routes reach active tiles of its port from some launch origin (R348): LOAD knows the route and no origin,
so admission checks that they do from the one it has (log 6). -/
def State.portReach (s : State) (secs : List Section) (e : Chan) (tiles : List (Nat × Nat)) : Bool :=
  let gx := s.fuses.gx
  let gy := s.fuses.gy
  let active := s.portActive (Fin.ofNat 16 e.py.toNat)
  let goals := tiles.map fun p => s.routeGoal p.1 p.2 (routeIn secs p.1 p.2 e.rt)
  match goals with
  | [] => true
  | g :: _ =>
    active.any fun t =>
      let dx := (tileX t + gx - g.1) % gx
      let dy := (tileY t + gy - g.2) % gy
      goals.all fun h => active.contains (mkTile ((h.1 + dx) % gx) ((h.2 + dy) % gy))

/-- LOAD refuses a channel entry (R272, R314). -/
def chanBad (secs : List Section) (c : Section) (raw : Nat) : Bool :=
  let e := chanOf raw
  let declared := c.known.all fun p => targetOn secs e p.1 p.2
  let reserved := if e.coll then raw / 2 ^ 91 else raw / 2 ^ 101
  (e.coll && !e.tk) || e.om == 3 || (!e.coll && e.d == 0) || !declared || reserved != 0

/-- A ring or buffer that leaves the scratchpad (R188, R194). -/
def ringBad (raw : Nat) : Bool :=
  let r := ringOf raw
  decide (65536 < r.base.toNat * 32 + r.e * r.z) || raw / 2 ^ 27 % 2 ^ 34 != 0 || raw / 2 ^ 62 != 0
def bufferBad (raw : Nat) : Bool :=
  let b := bufferOf raw
  decide (65536 < b.b + 2 * b.s) || raw / 2 ^ 18 != 0

/-- A tile may be a roster member of at most four swarms; a hive swarm names its anchor (R331). -/
def swarmsBad (secs : List Section) : Bool :=
  let sws := secs.flatMap Section.swarms
  let places := sws.flatMap fun e =>
    if swHive e.2.1 then (swAnchor e.2.1).toList else e.2.2.map fun w => (w.toNat % 512, w.toNat / 65536 % 512)
  sws.any (fun e => swHive e.2.1 && (swAnchor e.2.1).isNone) || places.any fun p => decide (4 < (places.filter (· == p)).length)

/-- The first declaration that LOAD refuses: section and table kind. -/
def State.badImage (s : State) (secs : List Section) : Option (Nat × Nat) :=
  ((List.range secs.length).zip secs).findSome? fun e =>
    let c := e.2
    let bad : Option Nat :=
      if c.rings.any fun r => ringBad r.2 then some kRing
      else if c.buffers.any fun b => bufferBad b.2 then some kBuffer
      else if c.channels.any fun x => chanBad secs c x.2 then some kChannel
      else if c.channels.any fun x => c.known.any fun p => s.routeAstray secs (chanOf x.2) p.1 p.2 then some kRoute
      else if c.channels.any fun x =>
          !(chanOf x.2).coll && (chanOf x.2).px.toNat == 511 && !s.portReach secs (chanOf x.2) c.known then some kPort
      else if !c.swarms.isEmpty && swarmsBad secs then some kSwarm
      else none
    bad.map fun k => (e.1, k)

/-! ### Heap addresses of records (R395, R397) -/

/-- The heap descriptor at bytes 32 to 57. -/
def descOf (r : List Byte) : HeapDesc where
  hbase := BitVec.ofNat 48 (recField r 32 6)
  hlimit := BitVec.ofNat 48 (recField r 38 6)
  hoffset := BitVec.ofNat 42 (recField r 44 6)
  walker := BitVec.ofNat 32 (recField r 50 4)
  root := BitVec.ofNat 22 (recField r 54 4)

/-- Physical address of a byte of a record's transfer and whether its page is resident, or the reason of refusal. -/
def State.recXlate (s : State) (d : HeapDesc) (need : Need) (va : Nat) : Except Nat (Nat × Bool) :=
  let c := { Context.reset with hbase := d.hbase, hlimit := d.hlimit, hoffset := d.hoffset }
  let x := (c.window va).getD (if d.walker.msb then s.walk va 3 1 (d.root.toNat * 2 ^ 20) else .fail 0 0)
  match s.checkNeed need x with
  | .ok pa _ _ _ res _ _ _ _ _ _ => if need = .write ∧ !res then .error 2 else .ok (pa, res)
  | .fail rsn _ => .error rsn

/-- All bytes of a span. -/
def State.recSpan (s : State) (d : HeapDesc) (need : Need) (va n : Nat) : Except Nat (List (Nat × Bool)) :=
  (List.range n).mapM fun i => s.recXlate d need ((va + i) % 2 ^ 48)

/-! ### LOAD (R395, R396) -/

/-- An admitted launch that has not retired is bound to the handle. -/
def State.bound (s : State) (handle : Nat) : Bool := s.launches.any fun l => l.handle == handle

/-- Heap writes of code and heap sections; the first refusal. -/
def State.sectionWrites (s : State) (d : HeapDesc) (secs : List Section) : Except Nat (List (Nat × Byte)) := do
  let parts ← (secs.filter fun c => (c.kind == 1 || c.kind == 3) && !c.scout).mapM fun c => do
    let pas ← s.recSpan d .write c.addr c.data.length
    return (pas.map Prod.fst).zip c.data
  return parts.flatten

/-- A scout's program is placed and started with every register zero (R350). What the earlier program had under way ends with it: a
plane that it was draining stays out of the rotation, and the answer to its remote atomic finds no instruction (R347, R357). A port
that the part lacks has no scout (R27). -/
def State.startScouts (s : State) (secs : List Section) : State :=
  (((secs.filter fun c => c.kind == 1 && c.scout).map fun c => c.gx).dedup.filter fun p => s.portOn (Fin.ofNat 16 p)).foldl (fun s p =>
    let mine := secs.filter fun c => c.kind == 1 && c.scout && c.gx == p
    s.modPort (Fin.ofNat 16 p) fun x =>
      let sc := mine.foldl (fun (k : Scout) c => k.write c.addr c.data) x.scout
      let start := (mine.head?.map fun c => c.addr).getD 0
      { x with drain := none, atomic := none, scout := { sc with x := Vector.replicate 16 0, pc := start / 4 % 2 ^ 18, halted := none,
                                                                 waitVt := none, busy := none } }) s

/-- The swarm-table entry an image declares (R329, R332): every roster entry present. -/
def swarmOf (e : Nat) (ms : List Word) (ox oy gx gy : Nat) (lid : Option Nat) : Swarm where
  v := true
  lvl := swHive e
  mode := fieldOf e 2 1 == 1
  vc := false
  vt := BitVec.ofNat 16 (fieldOf e 4 16)
  win := BitVec.ofNat 8 (fieldOf e 36 8)
  port := Fin.ofNat 16 (fieldOf e 44 4)
  ni := 0
  ax := BitVec.ofNat 9 ((fieldOf e 96 9 + ox) % gx)
  ay := BitVec.ofNat 9 ((fieldOf e 105 9 + oy) % gy)
  roster := ms.map fun w =>
    if swHive e then BitVec.ofNat 32 (w.toNat % 65536 + 2 ^ 31)
    else BitVec.ofNat 32 ((w.toNat % 512 + ox) % gx + 65536 * ((w.toNat / 65536 % 512 + oy) % gy) + 2 ^ 31)
  leave := []
  round := none
  seen := BitVec.ofNat 16 (fieldOf e 4 16)
  acked := BitVec.ofNat 16 (fieldOf e 4 16)
  relay := false
  held := none
  raddr := BitVec.ofNat 32 (fieldOf e 64 32)
  lid := lid

/-- A hive swarm's entry stands from LOAD on, so that scout code finds it; one that a launch still uses stays (log 46). -/
def State.loadHives (s : State) (secs : List Section) : State :=
  ((secs.flatMap Section.swarms).filter fun e => swHive e.2.1).foldl (fun s e =>
    let used := (s.swarm e.1).any fun w => w.lid.any fun l => s.launches.any fun o => o.lid == l
    if used then s else { s with swarms := alSet s.swarms e.1.val (swarmOf e.2.1 e.2.2 0 0 s.fuses.gx s.fuses.gy none) }) s

/-- The entry of a declared swarm as a launch starts: a hive swarm keeps the view it has had since LOAD, and takes its anchor
(R329, log 46). -/
def State.swarmNow (s : State) (n : Fin 256) (fresh : Swarm) : Swarm :=
  match s.swarm n with
  | some w =>
    let ids (x : Swarm) : List (BitVec 16) := x.roster.map fun m => m.setWidth 16
    if fresh.lvl && w.v && w.lvl && w.mode == fresh.mode && w.win == fresh.win && w.port == fresh.port && ids w == ids fresh then
      { w with ax := fresh.ax, ay := fresh.ay, lid := fresh.lid }
    else fresh
  | none => fresh

/-- A file that LOAD accepts takes effect. -/
def State.loadImage (s : State) (handle occ ready : Nat) (secs : List Section) (ws : List (Nat × Byte)) : State :=
  let s := (s.startScouts secs).loadHives secs
  { s.writeHeap ws with
           images := s.images.filter (fun (i : Image) => i.handle != handle) ++ [⟨handle, ready, occ, secs⟩] }

/-- LOAD reads a file, checks it, writes its sections and keeps the rest under the handle; it is complete when the stacks
have acknowledged. A handle bound to a launch that has not retired blocks it. An access that the host fails gives status 6; its `RSN`
is not stated, a free value (log 8). -/
def execLoad (k : Fin 32) (s : State) : Out :=
  s.withRecord k 1 fun q i r =>
    let handle := recField r 20 2
    if s.hold then s
    else if handle = 0 then s.finishRecord k q i r 1 20
    else if s.bound handle then s.block k q r
    else if Config.hostFails s.free then (s.finishRecord k q i r 6 (Config.choice s.free % 16)).bump
    else
      let file := s.hostRead (recField r 8 8) (recField r 16 4)
      match badFile file with
      | some off => s.finishRecord k q i r 2 off
      | none =>
        let secs := sectionsOf file
        match s.badImage secs with
        | some (sec, kind) => s.finishRecord k q i r 3 (sec + 65536 * kind)
        | none =>
          match s.sectionWrites (descOf r) secs with
          | .error rsn => s.finishRecord k q i r 6 rsn
          | .ok ws =>
            let at_ := s.now + 1 + Config.recordLatency s.free
            (s.loadImage handle (recField file 32 8) at_ secs ws).bump.recordLater k q i r 0 0 at_

/-! ### COPYH (R395) -/

/-- COPYH copies between host memory and the heap; a page that is not resident reads as zeros (R202). All its bytes perform on the
tick on which the record starts: DESIGN CHOICE, log 73 (R216 leaves an unfenced reader old or new bytes). -/
def execCopyh (k : Fin 32) (s : State) : Out :=
  s.withRecord k 5 fun q i r =>
    let n := recField r 24 4
    let toHost := recField r 1 1 / 2 % 2 == 1
    let ha := recField r 8 8
    if s.hold then s
    else if n = 0 then s.finishRecord k q i r 0 0
    else if Config.hostFails s.free then (s.finishRecord k q i r 6 (Config.choice s.free % 16)).bump
    else
      match s.recSpan (descOf r) (if toHost then .read else .write) (recField r 16 8 % 2 ^ 48) n with
      | .error rsn => s.finishRecord k q i r 6 rsn
      | .ok pas =>
        let at_ := s.now + 1 + Config.recordLatency s.free
        let s' := if toHost then
            s.hostWrite ha (pas.map fun p => if p.2 then s.heapByte p.1 else 0)
          else s.writeHeap ((pas.map Prod.fst).zip (s.hostRead ha n))
        s'.bump.recordLater k q i r 0 0 at_

end Sys2Proof.Machine
end

