-- ==== Sys2Proof/Machine/Launch.lean ====
section
/-! DEFINITION. Launches (R21 to R24, R105, R114, R280, R397): admission, the start tick, retirement; evaluation of blocked
queues (R279). -/

namespace Sys2Proof.Machine

/-! ### The launch record (R397) -/

/-- A launch as its record asks for it. -/
def launchRec (r : List Byte) (q : Fin 256) (k : Fin 32) (i : Nat) : Launch where
  lid := 0
  queue := q
  slot := k
  recIdx := i
  tag := BitVec.ofNat 16 (recField r 2 2)
  handle := recField r 8 4
  ox := recField r 12 2
  oy := recField r 14 2
  ex := recField r 16 2
  ey := recField r 18 2
  ctx := Fin.ofNat 4 (recField r 20 1)
  rank := BitVec.ofNat 8 (recField r 21 1)
  timeline := if recField r 1 1 % 2 = 1 then some (Fin.ofNat 1024 (recField r 22 2)) else none
  start := recField r 24 8
  desc := descOf r
  occ := 0
  st := .admitted
  readyAt := 0
  used := 0
  tasks := []
  host := none
  actual := 0
  nfault := 0
  fcnt0 := none
  dropped := false
  vcDropped := false

/-- Offset of a tile from the launch origin, when the rectangle holds it. -/
def Launch.offset (l : Launch) (gx gy : Nat) (t : TileId) : Option (Nat × Nat) :=
  let dx := (tileX t + gx - l.ox) % gx
  let dy := (tileY t + gy - l.oy) % gy
  if dx < l.ex ∧ dy < l.ey then some (dx, dy) else none
def Launch.holds (l : Launch) (gx gy : Nat) (t : TileId) : Bool := (l.offset gx gy t).isSome

/-- Tiles of the rectangle with their offsets. -/
def Launch.rect (l : Launch) (gx gy : Nat) : List (TileId × Nat × Nat) :=
  (List.range l.ex).flatMap fun i => (List.range l.ey).map fun j => (mkTile ((l.ox + i) % gx) ((l.oy + j) % gy), i, j)

/-- Two rectangles share a tile. -/
def Launch.meets (a b : Launch) (gx gy : Nat) : Bool := (a.rect gx gy).any fun e => b.holds gx gy e.1

/-- Origin, extent and groups lie where they may (R397). -/
def State.rectOk (s : State) (l : Launch) (img : Image) : Bool :=
  decide (l.ox < s.fuses.gx) && decide (l.oy < s.fuses.gy) && decide (1 ≤ l.ex) && decide (l.ex ≤ s.fuses.gx) && decide (1 ≤ l.ey) &&
    decide (l.ey ≤ s.fuses.gy) &&
    img.sections.all fun c => c.scout || c.everywhere || (decide (c.gx + c.gw ≤ l.ex) && decide (c.gy + c.gh ≤ l.ey))

/-- Sections of an image for a tile. -/
def Image.at_ (img : Image) (dx dy : Nat) : List Section := img.sections.filter fun c => !c.scout && c.covers dx dy

/-- Entry point of a tile: its group's first code section that holds a bundle (R23, R58). Bits [4:0] of a PC are zero (R29, R101): of
an address that is no multiple of 32 they are cleared, DESIGN CHOICE, log 69. -/
def entryPoint (cs : List Section) : Option VAddr :=
  (cs.find? fun c => c.kind == 1 && decide (32 ≤ c.data.length)).map fun c => BitVec.ofNat 48 (c.addr / 32 * 32)

/-- Sections that a launch takes for a tile: the image's, or of these the ones that the host's list for the tile names; what the list
holds is a free value (R401; log 8). -/
def Launch.sections (l : Launch) (img : Image) (t : TileId) (dx dy : Nat) : List Section :=
  match l.host with
  | none => img.at_ dx dy
  | some k => ((img.sections.zip (List.range img.sections.length)).filter fun e =>
      !e.1.scout && e.1.covers dx dy && Config.hostLists k t e.2).map Prod.fst

/-! ### Table conflicts (R397) -/

/-- Routes, channels, rings, buffers and swarms that an image declares on a tile, as kind and number. -/
def Image.declares (img : Image) (dx dy : Nat) (t : TileId) (gx gy ox oy : Nat) : List (Nat × Nat) :=
  (img.at_ dx dy).flatMap (fun c =>
    c.routes.map (fun e => (kRoute, e.1.val)) ++ c.channels.map (fun e => (kChannel, e.1.val)) ++
    c.rings.map (fun e => (kRing, e.1.val)) ++ c.buffers.map fun e => (kBuffer, e.1.val)) ++
  ((img.sections.flatMap Section.swarms).filter fun e =>
    let w := swarmOf e.2.1 e.2.2 ox oy gx gy none
    if w.lvl then mkTile w.ax.toNat w.ay.toNat == t
    else w.roster.any fun m => mkTile (m.toNat % 512) (m.toNat / 65536 % 512) == t).map fun e => (kSwarm, e.1.val)

def State.imageOf (s : State) (handle : Nat) : Option Image := s.images.find? fun (i : Image) => i.handle == handle

/-- A launch still runs on a tile: it has started and not retired, and its task there, if it has one, has not halted. -/
def State.runsOn (s : State) (lid : Nat) (t : TileId) : Bool :=
  s.launches.any fun o => o.lid == lid && o.st == .running && (!(o.tasks.any fun e => e.1 == t) ||
    ((s.ctx t o.ctx).lid == some lid && (s.ctx t o.ctx).st != .halted && (s.ctx t o.ctx).st != .free))

/-- A table entry is valid. -/
def Tile.holdsEntry (t : Tile) (d : Nat × Nat) : Bool :=
  if d.1 = kChannel then (t.chan (Fin.ofNat 256 d.2)).v
  else if d.1 = kRing then t.rings[Fin.ofNat 8 d.2].v
  else if d.1 = kBuffer then t.bufs[Fin.ofNat 32 d.2].v
  else if d.1 = kSwarm then t.views.any fun v => v.v && v.sw.val == d.2
  else true

/-- A launch that still runs on a tile owns a valid entry of it, which the image or BDCL has given it (R397). -/
def State.owned (s : State) (t : TileId) (d : Nat × Nat) : Bool :=
  (s.tile t).holdsEntry d && (s.tile t).owners.any fun e => e.1 == d && s.runsOn e.2 t

/-- What launches that have been admitted and not yet started will write on a tile. -/
def State.toWrite (s : State) (t : TileId) : List (Nat × Nat) :=
  (s.launches.filter fun o => o.st == .admitted).flatMap fun o =>
    match o.offset s.fuses.gx s.fuses.gy t, s.imageOf o.handle with
    | some d, some oi => oi.declares d.1 d.2 t s.fuses.gx s.fuses.gy o.ox o.oy
    | _, _ => []

/-- A declaration of the image that another launch still running on the tile owns, or is about to write. -/
def State.conflict (s : State) (l : Launch) (img : Image) : Option Nat :=
  (l.rect s.fuses.gx s.fuses.gy).findSome? fun e =>
    let mine := img.declares e.2.1 e.2.2 e.1 s.fuses.gx s.fuses.gy l.ox l.oy
    let soon := s.toWrite e.1
    (mine.find? fun m => soon.contains m || s.owned e.1 m).map Prod.fst

/-- The swarms of the launches on a tile would need more than its four view slots (R331, R397). -/
def State.slotsFull (s : State) (l : Launch) (img : Image) : Bool :=
  let gx := s.fuses.gx
  let gy := s.fuses.gy
  (l.rect gx gy).any fun e =>
    let mine := (img.declares e.2.1 e.2.2 e.1 gx gy l.ox l.oy).filter fun d => d.1 == kSwarm
    !mine.isEmpty &&
      let theirs : List (Nat × Nat) := ((s.toWrite e.1).filter fun k => k.1 == kSwarm) ++
        ((s.tile e.1).views.map fun v => (kSwarm, v.sw.val)).filter (s.owned e.1)
      decide (4 < (mine ++ theirs).dedup.length)

/-- A hive swarm's anchor must be an active tile of its port (R331); a port channel's route must end at one (R348); a route
that no path can carry refuses the image (R313); what a `.tile all` declares is checked on every tile of the rectangle (R311,
R314). -/
def State.launchBad (s : State) (l : Launch) (img : Image) : Option (Nat × Nat) :=
  let gx := s.fuses.gx
  let gy := s.fuses.gy
  ((List.range img.sections.length).zip img.sections).findSome? fun e =>
    let c := e.2
    let hives := c.swarms.any fun x =>
      let w := swarmOf x.2.1 x.2.2 l.ox l.oy gx gy none
      w.lvl && !(s.portActive w.port).contains (mkTile w.ax.toNat w.ay.toNat)
    let mine := (l.rect gx gy).filter fun p => c.covers p.2.1 p.2.2
    let ports := c.channels.any fun x =>
      let ch := chanOf x.2
      !ch.coll && ch.px.toNat == 511 && mine.any fun p =>
        !(s.portActive (Fin.ofNat 16 ch.py.toNat)).contains (s.routeEnd p.1 (routeIn img.sections p.2.1 p.2.2 ch.rt))
    let broken := c.routes.any fun x => mine.any fun p =>
      s.fixRoute p.1 x.2 == brokenRoute && x.2 != brokenRoute
    let off := c.everywhere && c.channels.any fun x => mine.any fun p =>
      !targetOn img.sections (chanOf x.2) p.2.1 p.2.2
    let away := c.everywhere && c.channels.any fun x => mine.any fun p => s.routeAstray img.sections (chanOf x.2) p.2.1 p.2.2
    if off then some (e.1, kChannel) else if away then some (e.1, kRoute) else
    if hives then some (e.1, kSwarm) else if ports then some (e.1, kPort) else if broken then some (e.1, kRoute) else none

/-! ### Admission (R22, R280, R397) -/

/-- The named context is free on a tile, and the tile takes launches (R22, R321). -/
def State.ctxFree (s : State) (l : Launch) (t : TileId) : Bool :=
  (s.mapEntry t).st == mapActive && !(s.launches.any fun o => o.ctx == l.ctx && o.holds s.fuses.gx s.fuses.gy t) &&
    ((s.ctx t l.ctx).st == .free || (s.ctx t l.ctx).st == .halted)

/-- A launch that drives the array fits the tile's budget (R280). -/
def State.arrayFree (s : State) (t : TileId) : Bool :=
  !(s.tile t).ownV && !(s.launches.any fun o => decide (0 < o.occ) && o.st == .admitted && o.holds s.fuses.gx s.fuses.gy t)

def State.admissible (s : State) (l : Launch) (occ : Nat) : Bool :=
  (l.rect s.fuses.gx s.fuses.gy).all fun e => s.ctxFree l e.1 && (occ == 0 || s.arrayFree e.1)

/-- What becomes of a LAUNCH at the head: it completes with a status, it waits, or it may be admitted. -/
inductive LaunchOut where
  | done (status detail : Nat)
  | wait
  | admitJob (img : Image)
  deriving DecidableEq, Repr

def State.launchCheck (s : State) (l : Launch) : LaunchOut :=
  match s.imageOf l.handle with
  | none => .done 4 0
  | some img =>
    if s.now < img.ready then .wait
    else if !s.rectOk l img then .done 5 0
    else match s.launchBad l img with
      | some (sec, kind) => .done 3 (sec + 65536 * kind)
      | none =>
        if !s.admissible l img.occ then .wait
        else match s.conflict l img with
          | some kind => .done 8 (65536 * kind)
          | none => if s.slotsFull l img then .done 8 (65536 * kSwarm) else .admitJob img

/-- Launch parsing by the host (R401): the raw record is posted, known to the part by its queue and index; the record goes on once the
host has accepted it. -/
def parseBody (q : Fin 256) (i : Nat) (r : List Byte) : List Byte := leBytes 4 q.val ++ leBytes 4 i ++ r.take 64

/-- The record still awaits the host. -/
def State.parseWaits (s : State) (q : Fin 256) (i : Nat) (r : List Byte) : Bool :=
  (s.assisted fnParse || s.asking fnParse (parseBody q i r)) && (s.granted fnParse (parseBody q i r)).isNone

/-- The host has refused it; which status of R399 the completion record gives is not stated: a free value (log 8). -/
def State.parseRefused (s : State) (q : Fin 256) (i : Nat) (r : List Byte) : Bool :=
  (s.granted fnParse (parseBody q i r)).any fun rpl => rpl.headD 0 != 1

/-- The LAUNCH record at a slot's head is parsed and checked; it is admitted by LAUNCH_ADMISSION. -/
def execLaunch (k : Fin 32) (s : State) : Out :=
  s.withRecord k 2 fun q i r =>
    if s.hold then s
    else if s.parseWaits q i r then s.ask fnParse (parseBody q i r)
    else if s.parseRefused q i r then
      (((s.settle fnParse (parseBody q i r)).finishRecord k q i r (Config.choice s.free % 9) 0)).bump
    else match s.launchCheck (launchRec r q k i) with
      | .done st d => (s.settle fnParse (parseBody q i r)).finishRecord k q i r st d
      | .wait => s.block k q r
      | .admitJob _ => s

/-- Head LAUNCH records that may be admitted: highest rank, lowest U, lowest slot first (R280). -/
def State.launchHeads (s : State) : List (Fin 32 × Launch) :=
  let heads := (List.finRange 32).filterMap fun k =>
    match s.headRecord k with
    | some (q, i, r) =>
      if recField r 0 1 = 2 ∧ (badField r).isNone ∧ !s.parseWaits q i r ∧ !s.parseRefused q i r then
        some (k, launchRec r q k i) else none
    | none => none
  sortBy (fun a b => decide (b.2.rank.toNat < a.2.rank.toNat) || (a.2.rank == b.2.rank &&
    (decide (s.slots[a.1].u < s.slots[b.1].u) || (s.slots[a.1].u == s.slots[b.1].u && decide (a.1.val ≤ b.1.val))))) heads

/-- A launch is admitted: it takes its contexts, its slot's account rises, its tiles are prepared (R22, R280). -/
def State.admitJob (s : State) (k : Fin 32) (l : Launch) (img : Image) : State :=
  let tasks := (l.rect s.fuses.gx s.fuses.gy).filterMap fun e => (entryPoint (l.sections img e.1 e.2.1 e.2.2)).map fun pc => (e.1, pc)
  let readyAt := s.now + 2 + Config.recordLatency s.free
  let lid := s.nextLid
  let l : Launch := { l with lid := lid, occ := img.occ, tasks := tasks, readyAt := readyAt,
                             used := if (combTime readyAt).toNat < l.start then readyAt + (l.start - (combTime readyAt).toNat) else readyAt }
  let roots := if l.desc.walker.msb then s.roots.filter (fun (r : Nat × Nat) => r.1 != lid) ++ [(lid, l.desc.root.toNat * 2 ^ 20)]
    else s.roots.filter fun (r : Nat × Nat) => r.1 != lid
  ({ s with launches := s.launches ++ [l], nextLid := (lid + 1) % 65536, roots := roots,
            tiles := s.tiles.map fun (e : TileId × Tile) => (e.1, { e.2 with tlb := e.2.tlb.filter fun x => x.launch != lid }) }.bump.started k l.queue).modSlot k
    fun x => { x with u := x.u + img.occ }

/-- Head LAUNCH records are admitted in order while they remain admissible; the others are blocked. -/
def execLaunchAdmission (s : State) : Out :=
  if s.hold then .next s else
  .next (s.launchHeads.foldl (fun s e =>
    match s.launchCheck e.2 with
    | .admitJob img =>
      let asked := parseBody e.2.queue e.2.recIdx ((s.headRecord e.1).elim [] fun h => h.2.2)
      let l := { e.2 with host := if (s.granted fnParse asked).isSome then some s.free else none }
      let s := { s with assists := s.assists.filter fun a =>
        !(a.fn.toNat == fnParse && a.body.take 8 == leBytes 4 e.2.queue.val ++ leBytes 4 e.2.recIdx) }
      s.admitJob e.1 l img
    | .wait => match s.headRecord e.1 with
      | some (q, _, r) => s.block e.1 q r
      | none => s
    | .done _ _ => s) s)

/-! ### The start tick (R22, R23, R105, R114, R397) -/

/-- Tile items at their reset values, the tile's counters among them (R105, R359). -/
def Tile.resetItems (t : Tile) : Tile :=
  let z := Tile.reset
  { t with q := z.q, qpend := [], prec := 0, decay := 0, rowp := z.rowp, colp := z.colp, acm := z.acm, wp := z.wp, rings := z.rings,
           bufs := z.bufs, owners := t.owners.filter (fun e => e.1.1 != kRing && e.1.1 != kBuffer), sems := z.sems, semClip := 0,
           icache := [], code := [], codeHeld := [], refetch := [], region := z.region, own := 0, ownV := false, ownRel := false,
           err := z.err, pmc := z.pmc, pmsel := z.pmsel,
           errPrev := z.err, pmcPrev := z.pmc, pmselPrev := z.pmsel,
           upsets := t.upsets.filter fun u => u.mem == 0 || (u.mem == 2 && !inSpan (4 * u.addr) (bufOff 0) 0x240) }

/-- One of a tile's four view slots (R331) takes a swarm: its own, else a free one, else one whose launch has ended. -/
def Tile.putSlot (t : Tile) (owned : Fin 256 → Bool) (v : ViewSlot) : Tile :=
  let l := t.views
  let k := (l.findIdx? fun x => x.v && x.sw == v.sw).getD
    (if l.length < 4 then l.length else (l.findIdx? fun x => !x.v || !owned x.sw).getD 4)
  if 4 ≤ k then t else
  { t with views := if k < l.length then l.set k v else l ++ [v] }.writeTable (viewOff k) 16

/-- A channel entry as an image load writes it: the instance count begins again at 0, and armed receives change by RECV and arrivals
alone (R314, R328, R397; log 78). -/
def Chan.loaded (new old : Chan) : Chan := { new with arm := old.arm, hold := old.hold }

/-- The image's sections and declarations go into a tile (R397). Instances that an earlier launch completed on its channels and swarms
count no more: their numbers begin again (R314). -/
def State.writeTables (s : State) (l : Launch) (img : Image) (id : TileId) (dx dy : Nat) (t : Tile) : Tile :=
  let gx := s.fuses.gx
  let gy := s.fuses.gy
  let t := (l.sections img id dx dy).foldl (fun t c =>
    let t := if c.kind = 2 then t.writeSpm (numbered c.addr c.data) else t
    let t := c.rings.foldl (fun t e => (t.setRing e.1 fun _ => ringOf e.2).writeTable (ringOff e.1.val) 8) t
    let t := c.buffers.foldl (fun t e => (t.setBuf e.1 fun _ => bufferOf e.2).writeTable (bufOff e.1.val) 16) t
    let t := c.routes.foldl (fun t e => (t.setRoute e.1 (s.fixRoute id e.2)).writeTable (routeOff e.1.val) 8) t
    c.channels.foldl (fun t e =>
      let ch := chanOf e.2
      let ch := if ch.coll ∨ ch.px.toNat = 511 then ch else
        { ch with px := BitVec.ofNat 9 ((ch.px.toNat + l.ox) % gx), py := BitVec.ofNat 9 ((ch.py.toNat + l.oy) % gy) }
      let t : Tile := { t with colls := t.colls.filter fun d => d.ch != e.1 }
      ((t.setChan e.1 ch.loaded).writeTable (chanOff e.1.val) 16).writeTable (winOff e.1.val) 4) t) t
  (img.sections.flatMap Section.swarms).foldl (fun t e =>
    let w := swarmOf e.2.1 e.2.2 l.ox l.oy gx gy none
    let mine := if w.lvl then (if mkTile w.ax.toNat w.ay.toNat = id then s.ownIndex w else none)
      else w.roster.findIdx? fun m => mkTile (m.toNat % 512) (m.toNat / 65536 % 512) == id
    match mine with
    | none => t
    | some i =>
      let w := s.swarmNow e.1 w
      let v : ViewSlot := ⟨true, w.lvl, w.mode, w.vc, w.members.contains i, false, e.1, w.vt, BitVec.ofNat 16 (rankIn w.members i),
        BitVec.ofNat 16 (w.members.length - 1), w.win⟩
      ({ t with colls := t.colls.filter fun d => d.sw != e.1 } : Tile).putSlot (fun n => s.owned id (kSwarm, n.val)) v) t

/-- It owns the entries that its image declares. -/
def Tile.takeOwner (t : Tile) (lid : Nat) (ds : List (Nat × Nat)) : Tile := ds.foldl (fun t d => t.setOwner d lid) t

/-- A register's initial value (R58). -/
def Context.initReg (c : Context) (e : Nat × Nat × Nat) : Context :=
  match e.1 with
  | 0 => { c with s := vset c.s (Fin.ofNat 32 e.2.1) (BitVec.ofNat 32 e.2.2) }
  | 1 => { c with a := vset c.a (Fin.ofNat 8 e.2.1) (BitVec.ofNat 48 e.2.2) }
  | 2 => { c with v := vset c.v (Fin.ofNat 16 e.2.1) (Vector.replicate 32 (BitVec.ofNat 32 e.2.2)) }
  | 3 => c.put (.m (Fin.ofNat 8 e.2.1) (BitVec.ofNat 32 e.2.2))
  | _ => c.put (.p (Fin.ofNat 16 e.2.1) (e.2.2 % 2 == 1))

/-- The context of a task as it becomes ready: task tick 0 (R23, R101, R109). -/
def Launch.context (l : Launch) (cs : List Section) (pc : VAddr) (now : Nat) : Context :=
  let xy (x y : Nat) : Word := BitVec.ofNat 32 (x + 65536 * y)
  let c : Context := { Context.reset with
    pc := pc, hbase := l.desc.hbase, hlimit := l.desc.hlimit, hoffset := l.desc.hoffset, walker := l.desc.walker,
    launch := BitVec.ofNat 32 (l.tag.toNat + 65536 * l.ctx.val), lorg := xy l.ox l.oy, lext := xy l.ex l.ey,
    rank := BitVec.ofNat 32 (l.rank.toNat * 257), st := .active, readySince := some now, lid := some l.lid }
  (cs.flatMap Section.regs).foldl Context.initReg c

/-- A tile of the rectangle as the launch becomes ready on it. What an earlier task of the context still has under way, such as
its armed receives, changes no counter of the new one (R450); FENCE comb waits for the context's TLSIGs on their way (R170). -/
def State.startTile (s : State) (l : Launch) (img : Image) (e : TileId × Nat × Nat) : State :=
  let cs := l.sections img e.1 e.2.1 e.2.2
  if cs.isEmpty || s.isAbsent e.1 then s else
  let x := s.tile e.1
  let busy := (List.finRange 4).any fun c => x.ctxs[c].st != .free && x.ctxs[c].st != .halted
  let x := if busy then x else x.resetItems
  let x := ((s.writeTables l img e.1 e.2.1 e.2.2 x).cutChans).takeOwner l.lid
    (img.declares e.2.1 e.2.2 e.1 s.fuses.gx s.fuses.gy l.ox l.oy)
  let x := match l.tasks.find? fun k => k.1 == e.1 with
    | none => x
    | some k =>
      let x := ({ x with live := x.live.filter fun k => k.ctx != l.ctx } : Tile).modCtx l.ctx fun _ =>
        { l.context cs k.2 s.now with tlOut := (x.ctx l.ctx).tlOut }
      if 0 < l.occ then { x with own := l.ctx, ownV := true, ownRel := false } else x
  let x := { x with tls := s.tls }
  { s with deliveries := s.deliveries.filter fun d => d.tile != e.1 }.setTile e.1 x

/-- Every task of an admitted launch becomes ready on its start tick. -/
def execLaunchStart (lid : Nat) (s : State) : Out :=
  match s.launchOf lid with
  | none => .next s
  | some l =>
    match s.imageOf l.handle with
    | none => .next s
    | some img =>
      let s := (l.rect s.fuses.gx s.fuses.gy).foldl (fun s e => s.startTile l img e) s
      let s := { s with swarms := (img.sections.flatMap Section.swarms).foldl (fun m (e : Fin 256 × Nat × List Word) =>
        alSet m e.1.val (s.swarmNow e.1 (swarmOf e.2.1 e.2.2 l.ox l.oy s.fuses.gx s.fuses.gy (some lid)))) s.swarms }
      .next (s.modLaunch lid fun l => { l with st := .running })

/-! ### Retirement (R24, R280, R367, R398) -/

/-- The task of a launch on a tile has ended, its write acknowledgements included. -/
def State.taskDone (s : State) (l : Launch) (t : TileId) : Bool :=
  s.isAbsent t || ((s.ctx t l.ctx).st == .halted && (s.ctx t l.ctx).wack == 0) || (s.ctx t l.ctx).lid != some l.lid

def State.launchDone (s : State) (l : Launch) : Bool := l.st == .running && l.tasks.all fun e => s.taskDone l e.1

/-- The contexts of the launch are free again; what was dropped with them is reported. -/
def State.freeTasks (s : State) (l : Launch) : State :=
  l.tasks.foldl (fun s e =>
    if (s.ctx e.1 l.ctx).lid = some l.lid ∧ !s.isAbsent e.1 then s.modCtx e.1 l.ctx fun c => { c with st := .free, vcDropped := false } else s) s

/-- A launch whose tasks have ended retires: its completion record, its slot's account, then its timeline, in the order of its queue
(R367). -/
def State.retireLaunch (s : State) (lid : Nat) : State :=
  match s.launchOf lid with
  | none => s
  | some l =>
    if !s.launchDone l then s else
      let vc := l.vcDropped || l.tasks.any fun e => (s.ctx e.1 l.ctx).lid == some lid && (s.ctx e.1 l.ctx).vcDropped
      let bad := l.nfault ≠ 0 ∨ l.dropped
      let c : Completion :=
        { tag := l.tag.toNat, op := 2, status := if bad then 7 else 0, detail := if bad then l.nfault else 0, start := l.used,
          fcnt := (l.fcnt0.getD 0).toNat, faults := l.nfault, flags := l.dropped.toNat + 2 * vc.toNat }
      let s := (s.freeTasks l).completeRecord l.queue l.recIdx c
      let s := match s.slotOf l.queue with
        | some k => s.modSlot k fun x => { x with u := x.u + (l.actual - l.occ) }
        | none => s.modQueue l.queue fun u => { u with quse := u.quse + BitVec.ofNat 64 (l.actual - l.occ) }
      let s := { s with launches := s.launches.filter fun o => o.lid != lid }
      let s := match l.timeline with
        | some tl =>
          let last : Nat := s.tlAfter.foldl (fun (m : Nat) (e : Fin 1024 × Nat × Fin 256) => if e.2.2 = l.queue then max m e.2.1 else m) 0
          { s with tlAfter := s.tlAfter ++ [(tl, max last (s.now + 1 + Config.recordLatency s.free), l.queue)] }.bump
        | none => s
      s.first (.ev .blockedReevaluation)

/-- LAUNCH_RETIRE. In the firmware gap the retirement waits in the input queue (R408). -/
def execLaunchRetire (lid : Nat) (s : State) : Out :=
  match s.launchOf lid with
  | none => .next s
  | some l =>
    if !s.launchDone l then .next s
    else if s.fw.gap then
      if s.fw.inq.any (fun e => e.2 == some lid) || decide (4096 ≤ s.fw.inq.length) then .next s
      else .next { s with fw := { s.fw with inq := s.fw.inq ++ [(none, some lid)] } }
    else .next (s.retireLaunch lid)

/-! ### Blocked queues (R279) -/

/-- The condition that blocks a BLOCKED queue's head record is found true. -/
def State.unblocked (s : State) (q : Fin 256) : Bool :=
  let u := s.queue q
  let r := s.hostRead (u.recAddr u.started.toNat) 64
  match recField r 0 1 with
  | 1 => !s.bound (recField r 20 2)
  | 2 => s.launchCheck (launchRec r q 0 u.started.toNat) != .wait
  | 3 => waitReady s r
  | 6 => u.qhead == u.started
  | _ => true

/-- BLOCKED queues whose condition holds become PENDING. -/
def execBlockedReevaluation (s : State) : Out :=
  .next ((s.queues.map fun e => (Fin.ofNat 256 e.1 : Fin 256)).foldl (fun s q =>
    if (s.queue q).qst = .blocked ∧ s.unblocked q then s.pendQueue q else s) s)

end Sys2Proof.Machine
end

