-- ==== Sys2Proof/Machine/Repair.lean ====
section
/-! DEFINITION. Repair and migration (R312, R313, R318, R321 to R327): carriers of logical links, brood tiles, the steps of a
migration, the loss of a tile. -/

namespace Sys2Proof.Machine

/-! ### Carriers (R312, R318 step 4) -/

/-- A direct or a bypass link carries a logical link, or it wraps around in the redistribution layer. -/
def State.plainLink (s : State) (t : TileId) (d : Nat) : Bool :=
  s.wraps t d ||
  (let p := s.place t
   let q := s.place (s.neighbour t d)
   let along := if d < 2 then dist p.1 q.1 else dist p.2 q.2
   let across := if d < 2 then dist p.2 q.2 else dist p.1 q.1
   decide (along ≤ 2) && decide (across ≤ 2))

/-- A segment between two points of a line; none when they are the same. -/
def trackSeg (row : Bool) (line a b : Nat) : List TrackSeg := if a = b then [] else [⟨row, line, min a b, max a b⟩]

/-- The two relay paths: a row segment then a column segment, or the reverse. -/
def relayPaths (p q : Nat × Nat) : List (List TrackSeg) :=
  [trackSeg true p.2 p.1 q.1 ++ trackSeg false q.1 p.2 q.2, trackSeg false p.1 p.2 q.2 ++ trackSeg true q.2 p.1 q.1]

def TrackSeg.clash (a b : TrackSeg) : Bool := a.row == b.row && a.line == b.line && decide (a.lo < b.hi) && decide (b.lo < a.hi)

/-- A free track of the two of a segment's line. -/
def State.freeTrack (s : State) (g : TrackSeg) : Option Nat :=
  [0, 1].find? fun k => !(s.relays.any fun r => r.2.2.2 == k && r.2.2.1.clash g) &&
    !s.migrations.any fun m => m.path.any fun r => r.2 == k && r.1.clash g

/-- The tracks of a path, when every segment has one. -/
def State.pathTracks (s : State) (p : List TrackSeg) : Option (List (TrackSeg × Nat)) :=
  p.mapM fun g => (s.freeTrack g).map fun k => (g, k)

/-- A link gets its carrier, or is missing in both directions. -/
def State.carry (s : State) (t : TileId) (d : Fin 4) : State :=
  let u := s.neighbour t d.val
  let s : State := { s with
    relays := s.relays.filter fun (r : TileId × Fin 4 × TrackSeg × Nat) => !(r.1 == t && r.2.1 == d),
    missing := s.missing.filter fun (m : TileId × Fin 4) => !(m == (t, d) || m == (u, Fin.ofNat 4 (opposite d.val))) }
  if s.isAbsent t || s.isAbsent u || s.plainLink t d.val then s else
  match (relayPaths (s.place t) (s.place u)).findSome? s.pathTracks with
  | some ks => { s with relays := s.relays ++ ks.map fun k => (t, d, k.1, k.2) }
  | none => { s with missing := s.missing ++ [(t, d), (u, Fin.ofNat 4 (opposite d.val))] }

/-- Logical tiles of the comb in ascending order. -/
def State.allTiles (s : State) : List TileId := (List.range s.fuses.gy).flatMap fun y => (List.range s.fuses.gx).map fun x => mkTile x y

/-- Carriers of every link, by ascending logical coordinate (R318 step 4). -/
def State.carryAll (s : State) : State :=
  s.allTiles.foldl (fun s t => ([0, 2] : List (Fin 4)).foldl (fun s d => if s.plainLink t d.val then s else s.carry t d) s) s

/-- Carriers of the four links of one tile. -/
def State.carryTile (s : State) (t : TileId) : State :=
  (((s.carry t 0).carry t 2).carry (s.neighbour t 1) 0).carry (s.neighbour t 3) 2

/-! ### Brood tiles (R318, R321) -/

/-- Live tiles of a tile's field that no logical tile stands on and no other migration is bound for. -/
def State.brood (s : State) (t : TileId) : List (Nat × Nat) :=
  let p := s.place t
  let fx := p.1 / 52
  let fy := p.2 / 52
  ((List.range 52).flatMap fun y => (List.range 52).map fun x => (52 * fx + x, 52 * fy + y)).filter fun q =>
    !s.fuses.dead.contains q && !s.broodTaken.contains q && (s.logicalAt q).isNone && !s.migrations.any fun m => m.goal == some q

/-- First a tile of the own physical row, then the nearest; ties to the lower `PY`, then the lower `PX`. -/
def broodLe (p a b : Nat × Nat) : Bool :=
  let far (q : Nat × Nat) : Nat := dist p.1 q.1 + dist p.2 q.2
  let key (q : Nat × Nat) : Nat × Nat × Nat × Nat := (if q.2 = p.2 then 0 else 1, far q, q.2, q.1)
  let ka := key a
  let kb := key b
  decide (ka.1 < kb.1) || (ka.1 == kb.1 && (decide (ka.2.1 < kb.2.1) || (ka.2.1 == kb.2.1 &&
    (decide (ka.2.2.1 < kb.2.2.1) || (ka.2.2.1 == kb.2.2.1 && decide (ka.2.2.2 ≤ kb.2.2.2))))))

/-- A relay path with free tracks from a tile's place to another (R312). -/
def State.movePath (s : State) (t : TileId) (q : Nat × Nat) : Option (List (TrackSeg × Nat)) :=
  (relayPaths (s.place t) q).findSome? s.pathTracks

/-- The brood tile of a migration and the relay path to it: the one the host named, else the first that a path reaches in the
order of R321. -/
def State.pickBrood (s : State) (t : TileId) (named : Option (Nat × Nat)) : Option ((Nat × Nat) × List (TrackSeg × Nat)) :=
  let order := sortBy (broodLe (s.place t)) (s.brood t)
  ((named.filter order.contains).toList ++ order).findSome? fun q => (s.movePath t q).map fun p => (q, p)

/-! ### Channels that lose their peer (R313, R327) -/

/-- Send windows of channels that have lost their entry: their credits are home, queued commands hold none. -/
def Tile.closeWindows (t : Tile) (gone : Chan → Bool) : Tile :=
  { t with
    chans := t.chans.map fun (e : Nat × Chan) =>
      let c := e.2
      if !c.coll && gone c then (e.1, { c with v := false, cr := c.d, rsv := 0, inf := 0, df := 0, out := [] }) else e
    chq := t.chq.map fun (q : ChCmd) => match q.op.credit with
      | some ch => if !(t.chan ch).coll && gone (t.chan ch) then { q with has := false } else q
      | none => q }

/-- Windows toward a lost tile. -/
def Tile.dropPeer (t : Tile) (lost : TileId) : Tile :=
  t.closeWindows fun c => c.v && mkTile c.px.toNat c.py.toNat == lost

/-- Routes are rewritten and the version rises with them and with the entries changed; channels whose route has become BROKEN lose
their windows. -/
def State.rerouteAll (s : State) (changes : Nat) : State :=
  let r := s.reroute changes
  { r with tiles := r.tiles.map fun (e : TileId × Tile) =>
      if e.2.routes.any fun w => w.2 == brokenRoute then (e.1, e.2.closeWindows fun c => !c.v && e.2.route c.rt == brokenRoute) else e }

/-! ### The steps of a migration (R320 to R325) -/

def State.modMigration (s : State) (t : TileId) (f : Migration → Migration) : State :=
  { s with migrations := s.migrations.map fun (m : Migration) => if m.tile = t then f m else m }

/-- Step 1: the entry becomes MIGRATING; the contexts are asked to stop. -/
def State.beginMigration (s : State) (t : TileId) : State :=
  (((s.setMap t fun e => { e with st := mapMigrating }).modTile t fun x => { x with mig := some s.now }).modMigration t
    fun m => { m with awaiting := false }).raiseVersion 1

/-- The queen core starts a migration, or asks the host for its approval. -/
def execMigrationStart (t : TileId) (s : State) : Out :=
  if (s.mapEntry t).st != mapActive || s.migrations.any (fun m => m.tile == t) then .next s else
  let m : Migration := ⟨t, s.now, s.assisted fnMigrate, none, none, none, none, [], none⟩
  let s := { s with migrations := s.migrations ++ [m] }
  .next (if s.assisted fnMigrate then s.ask fnMigrate (tileBody t) else s.beginMigration t)

/-- No approval in 2^24 ticks: hardware mode, and the host hears of it (R320). -/
def execMigrationApprovalTimeout (t : TileId) (s : State) : Out :=
  if s.migrations.any fun m => m.tile == t && m.awaiting then
    .next (((s.settle fnMigrate (tileBody t)).post 5 (tileBody t)).beginMigration t)
  else .next s

/-- A context stops for a migration: between two bundles, its lock window closed, the guards of its queued commands resolved (R176). -/
def State.freezeCtx (s : State) (t : TileId) (c : Fin 4) : State :=
  (s.modTile t fun x => ((x.closeLock c s.now).yieldWidth c s.now).modCtx c fun x =>
    { x with st := .frozen, readySince := none }).resolveLater t c

/-- The first tick on which no command of a migrating tile starts, noted before the array's place in it: its last context has stopped
(R251, R322 step 4). -/
def State.noteFrozen (s : State) (t : TileId) : State :=
  if (s.tile t).frozen then s.modMigration t fun m => { m with frozenAt := m.frozenAt.or (some s.now) } else s

/-- The contexts of a tile that are still active stop. -/
def State.freezeActive (s : State) (t : TileId) : State :=
  (List.finRange 4).foldl (fun s c => if (s.ctx t c).st = .active then s.freezeCtx t c else s) s

/-- Contexts that still issue at M + 65,536 are frozen between two bundles. -/
def execMigrationFreeze (t : TileId) (s : State) : Out := .next (if (s.tile t).mig.isNone then s else s.freezeActive t)

/-- Contexts that reach a safe point stop; once those left are all held at waits, they stop too (R322 step 3). -/
def State.migrationStops (s : State) (t : TileId) : State :=
  if (s.tile t).mig.isNone then s else
  let s := (List.finRange 4).foldl (fun s c =>
    if s.atSafePoint (s.tile t) c && (s.ctx t c).preReq.isNone then s.freezeCtx t c else s) s
  if (List.finRange 4).all fun c => (s.ctx t c).st != .draining && ((s.ctx t c).st != .active || (s.ctx t c).held) then s.freezeActive t
  else s

/-- Every started operation of the tile's engines has ended (R322 step 4). A copy from another tile waits for data that the tile
takes no more (step 2): it ends at the new place (log 65). -/
def Tile.enginesQuiet (t : Tile) : Bool :=
  t.frozen && t.mxRun.isNone && t.drains.isEmpty && t.reads.isEmpty && t.writes.isEmpty && t.staccs.isEmpty && t.ldaccs.isEmpty &&
    t.flights.all (fun f => f.retired || f.remote.isSome) && t.tx.isEmpty && (List.finRange 6).all (fun i => !(t.inC[i].rx.any fun m => m.started) &&
      t.inR[i].chunk.isNone) && (List.finRange 4).all fun q => t.seqs[q].act.isNone && t.seqs[q].own.isNone && t.seqs[q].writer.isNone &&
        t.seqs[q].out.isEmpty

/-- Ticks of the image's move: 9,920, and the relay path (R323). -/
def imageTicks : Nat := 9920

/-- The array's queue did not count the ticks of the freeze (R251). -/
def MxCmd.shift (c : MxCmd) (n : Nat) : MxCmd :=
  { c with tick := c.tick + n, headAt := c.headAt.map (· + n), landed := c.landed.map (· + n) }

/-- Lines of the instruction cache do not move, pinned ones are fetched again at the new place; nor does the TLB, or a walk whose
result no command holds yet (R323). What the instruction cache had asked for is asked for again. -/
def Tile.refill (t : Tile) (free : Nat) : Tile :=
  let asked := (t.code.filter fun r => !r.region && r.miss.isNone).map fun r => (r.line, r.pin, r.zero)
  let lines := ((t.icache.filter fun l => l.pinned).map fun l => (l.tag, true, false)) ++ asked
  let t := { t with tlb := [], walks := t.walks.filter fun w => w.res.isSome, icache := [], code := t.code.filter fun r => r.region }
  ((List.range lines.length).zip lines).foldl (fun t e => t.refetchLine e.2.1 e.2.2.1 e.2.2.2 (1 + Config.codeLatency (free + e.1))) t

/-- Step 7: the tile resumes: soft errors have stayed with the words of the old place (R323), it returns the credits it owes, its
contexts are ready with their task ticks unchanged. -/
def State.resume (s : State) (t : TileId) (frozenAt : Nat) : State :=
  let s : State := { s with migrations := s.migrations.filter fun (k : Migration) => k.tile != t }
  let n := s.now - frozenAt
  let owed := (s.tile t).owed
  let draws := (s.tile t).icache.length + (s.tile t).code.length
  let s := ({ s with free := s.free + draws } : State).modTile t fun x =>
    let x : Tile := { x with
      mig := none, owed := [], upsets := [], fixes := [], mxq := x.mxq.map (fun (c : MxCmd) => c.shift n),
      ctxs := x.ctxs.map (fun (c : Context) => if c.st = .frozen then { c with st := .active, readySince := some s.now } else c) }
    x.refill s.free
  owed.foldl (fun s o => s.returnCredit t o.1 o.2 none) s

/-- The logical entry names the brood tile, which no longer is one. -/
def State.placeAt (s : State) (t : TileId) (q : Nat × Nat) : State :=
  let s := s.setMap t fun e =>
    { e with px := BitVec.ofNat 9 q.1, py := BitVec.ofNat 9 q.2, ep := s.fuses.edgePort q, st := mapActive }
  { s with broodTaken := s.broodTaken ++ [q] }

/-- Step 6: the map names the new place, the old one is failed, links get new carriers, routes follow. Two entries change: the
tile's and the brood tile's. -/
def State.placeMoved (s : State) (t : TileId) (q : Nat × Nat) : State :=
  let old := s.place t
  let s := (s.placeAt t q).failEdge old
  let s := ({ s with broodTaken := s.broodTaken ++ [old] }.modMigration t fun m => { m with path := [], placed := some s.now })
  (s.carryTile t).rerouteAll 2

/-- Steps 5 to 7: a brood tile and a relay path are assigned, and the state image moves; the map names the new place; on the next
tick the tile resumes. No brood tile within reach, or an uncorrectable word met in the image, loses the tile (R326). -/
def execMigrationMove (t : TileId) (s : State) : Out :=
  match s.migrations.find? fun m => m.tile == t with
  | none => .next s
  | some m =>
    match m.placed, m.goal with
    | some k, _ => if k < s.now then .next (s.resume t (m.frozenAt.getD s.now)) else .next s
    | none, some q => if (s.tile t).upsets.any fun u => u.ue then .next (s.first (.ev (.tileLost t))) else .next (s.placeMoved t q)
    | none, none =>
      match s.pickBrood t m.brood with
      | none => .next (s.first (.ev (.tileLost t)))
      | some (q, p) => .next (s.modMigration t fun m =>
          { m with goal := some q, path := p, moveAt := some (s.now + imageTicks + relayLatency (s.place t) q) })

/-! ### The loss of a tile (R326, R327, R387) -/

/-- Messages on their way to the lost tile, whole or in part, are discarded by the neighbour that holds them, and each counts there
once: those whose last flit is on the link, and the one whose last flit the neighbour has yet to send. -/
def State.dropFlights (s : State) (t : TileId) : State :=
  (List.finRange 4).foldl (fun s d =>
    let i : Fin 6 := Fin.ofNat 6 d.val
    let x := s.tile t
    let u := s.tile (s.neighbour t d.val)
    let back : Fin 4 := Fin.ofNat 4 (opposite d.val)
    let n := ((x.inC[i].wire ++ x.inR[i].wire).filter fun w => w.2.lf).length + u.outC[back].begun.toNat +
      u.outR[back].begun.toNat
    if n = 0 then s else s.modTile (s.neighbour t d.val) fun u => u.count badData n) s

/-- A tile that is gone. -/
def Tile.lost : Tile := { Tile.reset with absent := true }

/-- `WALKER` of a context whose walker forager is a tile (R319). -/
def walkerWord (t : TileId) : Word := BitVec.ofNat 32 (tileX t + 65536 * tileY t + 2 ^ 31)

def Context.rewalk (old new : Word) (c : Context) : Context := if c.walker = old then { c with walker := new } else c

/-- Walks that the lost walker forager held start again at the new one. -/
def Tile.rewalk (t : Tile) (old new : Word) (ready : Nat) : Tile :=
  { t with walks := t.walks.map fun (w : Walk) => if w.res.isNone && (t.ctx w.ctx).walker == old then { w with ready := ready } else w,
           ctxs := t.ctxs.map (Context.rewalk old new) }

/-- Another walker forager for every context of the launches that lost theirs, those saved and those not started among them; which
of the active forager tiles is the queen core's choice (R319). With none left the walks wait (log 64). -/
def State.rewalk (s : State) (t : TileId) : State :=
  let old := walkerWord t
  let left := s.foragers.filter (· != t)
  match left[Config.choice s.free % left.length]? with
  | none => s
  | some u =>
    let new := walkerWord u
    let ready := s.now + 1 + Config.walkLatency (s.free + 1)
    { s with
      free := s.free + 2,
      tiles := s.tiles.map fun (e : TileId × Tile) => (e.1, e.2.rewalk old new ready),
      saves := s.saves.map fun (a : SaveArea) => { a with saved := a.saved.rewalk old new },
      launches := s.launches.map fun (l : Launch) => if l.desc.walker = old then { l with desc := { l.desc with walker := new } } else l }

/-- The task that a launch not started was to run on a lost tile ends with a fault record (R24, R327). -/
def State.lostBefore (s : State) (t : TileId) : State :=
  (s.launches.filter fun l => l.st == .admitted).foldl (fun s l =>
    match l.tasks.find? fun k => k.1 == t with
    | some k => s.faultOf l.lid (BitVec.ofNat 32 cLost) 0 k.2 0 t l.ctx 1
    | none => s) s

/-- A tile becomes ABSENT: its tasks end with a fault record each, routes and channel entries follow, views change. -/
def execTileLost (t : TileId) (s : State) : Out :=
  if s.isAbsent t then .next s else
  let x := s.tile t
  let s := (List.finRange 4).foldl (fun s c =>
    let y := x.ctx c
    match y.lid with
    | some lid => if y.st = .free ∨ y.st = .halted then s else
        s.faultOf lid (BitVec.ofNat 32 cLost) 0 y.fpc 0 t c 1
    | none => s) s
  let s := (s.lostBefore t).dropFlights t
  let place := s.place t
  let s := (s.setTile t Tile.lost).setMap t fun e => { e with st := mapAbsent }
  let s := { s with
    tiles := s.tiles.map fun (e : TileId × Tile) => if e.1 = t then e else (e.1, e.2.dropPeer t),
    migrations := s.migrations.filter fun (m : Migration) => m.tile != t,
    saves := s.saves.filter fun (a : SaveArea) => a.tile != t,
    deliveries := s.deliveries.filter fun (d : Delivery) => d.tile != t,
    broadcasts := s.broadcasts.filter fun (b : TileId × Nat × Word) => b.1 != t,
    broodTaken := s.broodTaken ++ [place] }
  .next ((((s.failEdge place).rerouteAll 1).rewalk t).post 7 (tileBody t))

/-! ### What is due on a tick -/

/-- What migrations do before the issue of a tick: a tile that was placed on the last one resumes; contexts stop (step 3), after a
safe-point bundle of the last tick before they issue another (R386), or all at the deadline. -/
def State.migrateEarly (s : State) : State :=
  s.migrations.foldl (fun s m =>
    let t := m.tile
    if m.placed.any fun k => decide (k < s.now) then s.first (.ev (.migrationMove t))
    else if (s.tile t).mig.any fun k => decide (k + 65536 ≤ s.now) then
      (if (List.finRange 4).any fun c => (s.ctx t c).st == .active then s.first (.ev (.migrationFreeze t)) else s)
    else s.migrationStops t) s

/-- What the queen core does for migrations on a tick: the move, time-outs of approval. -/
def State.migrateTick (s : State) : State :=
  s.migrations.foldl (fun s m =>
    let t := m.tile
    if m.awaiting then
      (if m.asked + 2 ^ 24 ≤ s.now then { s with agenda := s.agenda ++ [.ev (.migrationApprovalTimeout t)] } else s)
    else
      let due := m.placed.isNone && (match m.moveAt with
        | some k => decide (k ≤ s.now)
        | none => (s.tile t).enginesQuiet)
      if (s.tile t).frozen && due then { s with agenda := s.agenda ++ [.ev (.migrationMove t)] } else s) s

end Sys2Proof.Machine
end

