-- ==== Sys2Proof/Machine/Host.lean ====
section
/-! DEFINITION. The host's accesses (R320, R390 to R393, R401, R402): replies to the assist ring, pages served, the register
blocks of BAR0, comb addresses through BAR2; and firmware replacement (R403, R405 to R408). -/

namespace Sys2Proof.Machine

/-! ### Assisted duties (R202, R320, R401, R402) -/

def pageBody (launch : Nat) (va : VAddr) : List Byte := leBytes 8 launch ++ leBytes 8 va.toNat
def swarmBody (sw : Fin 256) : List Byte := leBytes 8 sw.val
def slotBody (q : Fin 256) : List Byte := leBytes 8 q.val

/-- A page that firmware cannot serve is reported against the launch; its REQPGs retire (R240, R400 kind 2). -/
def State.pageRefused (s : State) (launch : Nat) (va : VAddr) : State :=
  ((s.askers launch va).foldl (fun s a => s.faultOf launch 0 0 a.2.2 0 a.1 a.2.1 2) s).pageSettled launch va

/-- A requested page is made resident, or reported; which one is firmware's (log 5). In assisted mode the host is asked. -/
def execPageService (launch : BitVec 16) (va : VAddr) (s : State) : Out :=
  if !s.pageReqs.any fun r => r.1 == launch.toNat && r.2.1 == va then .next s
  else if s.asking fnPage (pageBody launch.toNat va) then .next s
  else if s.assisted fnPage then .next (s.ask fnPage (pageBody launch.toNat va))
  else if Config.choice s.free % 2 = 0 then .next (s.bump.servePage launch va)
  else .next (s.bump.pageRefused launch.toNat va)

/-- Slot mapping by the host: a free slot that it names takes the queue. -/
def State.mapNamed (s : State) (q : Fin 256) (k : Fin 32) : State :=
  if s.slots[k].queue.isSome ∨ !s.pendingQ.contains q then s else
  { s with pendingQ := q :: s.pendingQ.filter (· != q) }.first (.ev (.slotMap k))

/-- A reply accepts or refuses a request: its function goes on, or what it asked for is not done. -/
def State.replied (s : State) (a : AssistReq) (rpl : List Byte) : State :=
  let yes := rpl.headD 0 == 1
  let done := s.settle a.fn.toNat a.body
  let w (off n : Nat) : Nat := recField a.body off n
  match a.fn.toNat with
  | 1 =>
    let va : VAddr := BitVec.ofNat 48 (w 8 8)
    if yes then done.servePage (BitVec.ofNat 16 (w 0 8)) va else done.pageRefused (w 0 8) va
  | 2 =>
    let sw : Fin 256 := Fin.ofNat 256 (w 0 8)
    if yes && a.body == swarmBody sw then (done.modSwarm sw.val fun x => { x with relay := true }).first (.ev (.waggleRound sw)) else done
  | 3 =>
    let t := mkTile (w 0 2) (w 2 2)
    if yes then (done.modMigration t fun m => { m with brood := some (recField rpl 2 2, recField rpl 4 2) }).beginMigration t
    else { done with migrations := done.migrations.filter fun (m : Migration) => m.tile != t }
  | 4 => { s with assists := s.assists.map fun (b : AssistReq) => if b.num = a.num then { b with answer := some rpl } else b }
  | _ => if yes then done.mapNamed (Fin.ofNat 256 (w 0 8)) (Fin.ofNat 32 (recField rpl 1 1)) else done

/-- What a reply to a function does waits: while the queen core is being replaced nothing writes maps and tables (R407), and in a
thermal hold nothing of the comb changes (R410). -/
def State.replyWaits (s : State) (fn : Nat) : Bool := fn != fnParse && (s.fw.gap || (s.hold && (fn == fnPage || fn == fnMigrate)))

/-- The reply stands until its function goes on. -/
def State.keepReply (s : State) (num : Word) (rpl : List Byte) : State :=
  { s with assists := s.assists.map fun (b : AssistReq) => if b.num = num then { b with answer := some rpl } else b }

/-- A host write of `RPLSEQ` commits `RPLDATA` as the reply to an outstanding request. -/
def execAssistReply (req : Word) (s : State) : Out :=
  match s.assists.find? fun a => a.num == req && a.posted && a.answer.isNone with
  | some a => .next (if s.replyWaits a.fn.toNat then s.keepReply a.num s.ctl.rpldata else s.replied a s.ctl.rpldata)
  | none => .next s

/-- Replies that have waited act. -/
def State.keptReplies (s : State) : State :=
  (s.assists.filter fun a => a.fn.toNat != fnParse && a.answer.isSome && !s.replyWaits a.fn.toNat).foldl
    (fun s a => s.replied a (a.answer.getD [])) s

/-- A request has gone unanswered for 2^24 ticks since the ring took it; a migration's own time-out is R320's. -/
def AssistReq.late (a : AssistReq) (now : Nat) : Bool :=
  a.posted && a.answer.isNone && a.fn.toNat != fnMigrate && decide (a.tick + 2 ^ 24 ≤ now)

def execAssistTimeout (s : State) : Out :=
  .next ((s.assists.filter fun a => a.late s.now).foldl (fun s a => s.replied a (List.replicate 16 0)) s)

/-! ### User-queue blocks (R392) -/

/-- `EN` rises: the block goes into the shadow, head and tail zero, and `FCNT` is zero (R359, R392). -/
def execQueueEnable (q : Fin 256) (s : State) : Out :=
  let u := s.queue q
  let ok (n : BitVec 5) : Bool := decide (4 ≤ n.toNat) && decide (n.toNat ≤ 16)
  if u.en || !ok u.lsz || !ok u.flsz then .next s
  else .next (s.modQueue q fun u =>
    { u with en := true, qhead := 0, qtail := 0, fcnt := 0, started := 0, done := [], qst := .idle, qslot := 0xFFFF })

/-- `EN` falls only with head and tail equal; the queue leaves its slot. -/
def execQueueDisable (q : Fin 256) (s : State) : Out :=
  let u := s.queue q
  if !u.en || u.qhead != u.qtail then .next s
  else
    let s := match s.slotOf q with
      | some k => s.unmap k q .idle
      | none => s
    .next ({ s with pendingQ := s.pendingQ.filter (· != q), unmapped := s.unmapped.filter (· != q) }.modQueue q
      fun u => { u with en := false, qst := .idle })

/-! ### BAR2 (R391) -/

/-- Tile and offset of a comb address. -/
def combTile (a : Nat) : TileId × Nat := (mkTile (a / 2 ^ 25 % 512) (a / 2 ^ 16 % 512), a % 65536)
/-- The access names no tile, or an ABSENT one. -/
def State.noTile (s : State) (a : Nat) : Bool := !s.inGrid (a / 2 ^ 25 % 512) (a / 2 ^ 16 % 512) || s.isAbsent (combTile a).1
/-- The first bank row of an access: its bytes lie in one row of one tile. -/
def rowPart (addr len : Nat) : Nat := min len (128 - addr % 128)

/-- An access to a row waits: behind an earlier one, for a tile that is moved, for the release of a thermal hold, for the engine
port, or for a locked bank (R172, R179, R322 step 4, R410). -/
def State.bar2Waits (s : State) (addr : Nat) (as : List Nat) : Bool :=
  let x := s.tile (combTile addr).1
  s.hold || !s.hostHeld.isEmpty || x.frozen || x.portBusy || s.copyPresses x || x.locked s.now as

def State.holdHost (s : State) (i : Instr) : State := { s with hostHeld := s.hostHeld ++ [i] }

/-- The rest of an access goes on with the next row. -/
def State.nextRow (s : State) (i : Instr) : State := { s with hostHeld := i :: s.hostHeld }

/-- The target's bytes of R196, row by row through the engine port, as a read of this tick sees them; Unsupported Request outside
the comb. -/
def execBar2Read (addr len : Nat) (s : State) : Out :=
  let n := rowPart addr len
  let t := (combTile addr).1
  let as := (List.range n).map fun i => (s.tile t).combByte ((combTile addr).2 + i)
  if ((List.range len).map (addr + ·)).any s.noTile then .next { s with bar2 := some none, bar2Got := [] }
  else if s.bar2Waits addr as then .next (s.holdHost (.bar2Read addr len))
  else
    let got := s.bar2Got ++ (s.tile t).readSpm as
    let s := s.modTile t fun x => { x.noteReads 0 ((as.map (· / 4)).dedup) with portBusy := true }
    .next (if n < len then { s with bar2Got := got }.nextRow (.bar2Read (addr + n) (len - n))
      else { s with bar2 := some (some got), bar2Got := [] })

/-- A write is an engine write that arrives from another tile, row by row (R191, R196; log 66). -/
def execBar2Write (addr : Nat) (data : List Byte) (s : State) : Out :=
  let n := rowPart addr data.length
  let t := (combTile addr).1
  let off := (combTile addr).2
  let x := s.tile t
  match ((List.range data.length).map (addr + ·)).find? s.noTile with
  | some a => .next (s.post 3 (tileBody (combTile a).1))
  | none =>
  if s.bar2Waits addr (x.combSpan off n) || !x.combReady [] off n then .next (s.holdHost (.bar2Write addr data))
  else
    let ws := x.combWrites off (data.take n)
    let s := s.modTile t fun x =>
      let x := if ws.any fun w => w.2.isNone then x.count badData 1 else x
      let x := (x.combBufs off n).foldl (fun x b => x.setBuf b fun b => { b with sd := true }) x
      { x.writeSpm (ws.filterMap fun w => w.2.map fun d => (d.2, w.1)) with portBusy := true }
    .next (if n < data.length then s.nextRow (.bar2Write (addr + n) (data.drop n)) else s)

/-! ### BAR0 (R392, R393) -/

/-- A field of `size` bytes at `base` after a write of bytes at `off`; none when the write misses it. -/
def fieldWrite (off : Nat) (data : List Byte) (base size old : Nat) : Option Nat :=
  if off + data.length ≤ base ∨ base + size ≤ off then none
  else some (leNat ((List.range size).map fun i =>
    if off ≤ base + i ∧ base + i < off + data.length then data.getD (base + i - off) 0
    else BitVec.ofNat 8 (old / 2 ^ (8 * i))))

/-- The field takes the written value. -/
def State.put (s : State) (off : Nat) (data : List Byte) (base size old : Nat) (f : Nat → State → State) : State :=
  match fieldWrite off data base size old with
  | some v => f v s
  | none => s

/-- `lo` low bits read as zero. -/
def clearLow (v lo : Nat) : Nat := v / 2 ^ lo * 2 ^ lo

/-- Fields of the control block that only hold what the host writes (R393). -/
def State.writeControl (s : State) (link : Fin 4) (off : Nat) (data : List Byte) : State :=
  let c := s.ctl
  let set (f : Nat → Control → Control) : Nat → State → State := fun v s => { s with ctl := f v s.ctl }
  let s := s.put off data 0x0008 4 c.assist.toNat (set fun v c => { c with assist := BitVec.ofNat 32 (v % 32) })
  let s := s.put off data 0x0010 8 c.arbase.toNat (set fun v c => { c with arbase := BitVec.ofNat 64 (clearLow v 6) })
  let s := s.put off data 0x0018 4 c.arctl.toNat (set fun v c => { c with arctl := BitVec.ofNat 32 v &&& 0x10F })
  let s := s.put off data 0x0020 4 c.arhead.toNat (set fun v c => { c with arhead := BitVec.ofNat 32 v })
  let s := s.put off data 0x0028 16 (leNat c.rpldata) (set fun v c => { c with rpldata := leBytes 16 v })
  let s := s.put off data 0x0140 8 c.evbase.toNat (set fun v c => { c with evbase := BitVec.ofNat 64 (clearLow v 5) })
  let s := s.put off data 0x0148 4 c.evctl.toNat (set fun v c => { c with evctl := BitVec.ofNat 32 v &&& 0x10F })
  let s := s.put off data 0x0150 4 c.evhead.toNat (set fun v c => { c with evhead := BitVec.ofNat 32 v })
  let s := s.put off data 0x0160 4 c.wafid.toNat (set fun v c => { c with wafid := BitVec.ofNat 32 (v % 65536) })
  let s := s.put off data 0x0188 4 s.fw.updoff.toNat fun v s => { s with fw := { s.fw with updoff := BitVec.ofNat 32 (clearLow v 14) } }
  if off + data.length ≤ 0x0040 ∨ 0x0140 ≤ off then s else
  (List.range 64).foldl (fun s j =>
    let q : Fin 256 := Fin.ofNat 256 (64 * link.val + j)
    s.put off data (0x0040 + 4 * j) 4 (s.queue q).fread.toNat fun v s => s.modQueue q fun u => { u with fread := BitVec.ofNat 32 v }) s

/-- A plane-table entry as the host reads it: `WID`, `V`, `UP`. -/
def PlaneEntry.word (e : PlaneEntry) : Nat := e.wid.toNat + 65536 * e.v.toNat + 131072 * e.up.toNat

/-- A port's counters, and its plane table: a plane in rotation takes the write at its next SPLANE RESTORE (R393). -/
def State.writePort (s : State) (p : Fin 16) (off : Nat) (data : List Byte) : State :=
  if !s.portOn p then s else
  let s := (List.finRange 6).foldl (fun s i =>
    s.put off data (4 * i.val) 4 (s.port p).cnt[i].toNat fun v s => s.modPort p fun x =>
      { x with cnt := vset x.cnt i (BitVec.ofNat 32 v), cntLock := x.cntLock ||| (1#6 <<< i.val) }) s
  let touched := (List.range 256).filter fun i => decide (off < 0x400 + 4 * i + 4) && decide (0x400 + 4 * i < off + data.length)
  touched.foldl (fun s n =>
    let k : Fin 4 := Fin.ofNat 4 (n / 64)
    let i : Fin 64 := Fin.ofNat 64 n
    let x := s.port p
    let old := ((x.shadowPlanes.find? fun e => e.1 == n).map fun e => e.2.toNat).getD (x.entry k i).word
    s.put off data (0x400 + 4 * n) 4 old fun v s => s.modPort p fun x =>
      if x.rot[k] then { x with shadowPlanes := alSet x.shadowPlanes n (BitVec.ofNat 32 v) }
      else { x.dropRoutes with planes := (x.setEntry k i fun e => { entryOf (BitVec.ofNat 32 v) with up := e.up }).planes }) s

/-- A user-queue block (R392). What its fields set off happens in the order of the fields, before the next stimulus. -/
def State.writeQueue (s : State) (q : Fin 256) (off : Nat) (data : List Byte) : State :=
  let s := s.put off data 0x20 4 0 fun v s => s.ring q (BitVec.ofNat 32 v)
  let u := s.queue q
  let size := u.lsz.toNat + 256 * u.flsz.toNat + 65536 * u.en.toNat + 131072 * u.irq.toNat
  if u.en then
      match fieldWrite off data 0x18 4 size with
      | some v => if v / 65536 % 2 = 0 then s.first (.ev (.queueDisable q)) else s
      | none => s
    else
      let set (f : Nat → UserQueue → UserQueue) : Nat → State → State := fun v s => s.modQueue q (f v)
      let s := s.put off data 0x00 8 u.qbase.toNat (set fun v u => { u with qbase := BitVec.ofNat 64 (clearLow v 6) })
      let s := s.put off data 0x08 8 u.cqbase.toNat (set fun v u => { u with cqbase := BitVec.ofNat 64 (clearLow v 5) })
      let s := s.put off data 0x10 8 u.fbase.toNat (set fun v u => { u with fbase := BitVec.ofNat 64 (clearLow v 5) })
      s.put off data 0x18 4 size fun v s =>
        let s := s.modQueue q fun u =>
          { u with lsz := BitVec.ofNat 5 v, flsz := BitVec.ofNat 5 (v / 256), irq := v / 131072 % 2 == 1 }
        if v / 65536 % 2 = 1 then s.first (.ev (.queueEnable q)) else s

/-- A host write to BAR0 of one function. A write to a field that another event serves becomes that event. -/
def execRegisterWrite (link : Fin 4) (off : Nat) (data : List Byte) (s : State) : Out :=
  let n := data.length
  if 0x10000 ≤ off then
    let j := (off - 0x10000) / 64 % 64
    .next (s.writeQueue (Fin.ofNat 256 (64 * link.val + j)) ((off - 0x10000) % 64) data)
  else if 0xC000 ≤ off then .next (s.first (.ev (.stagingWrite (off - 0xC000) data)))
  else if 0x2000 ≤ off ∧ off < 0xA000 then .next (s.writePort (Fin.ofNat 16 ((off - 0x2000) / 0x800)) ((off - 0x2000) % 0x800) data)
  else
    let s := s.writeControl link off data
    let s := if n = 0 then s else s.put off data 0x0180 4 0 fun v s =>
      let nurse := v % 4 == 2
      if v % 4 = 0 ∨ v % 4 = 3 then s
      else s.first (.ev (if v / 16 % 2 = 1 then .securityVersionRaise nurse else .firmwareSwitch nurse))
    .next (s.put off data 0x0024 4 0 fun v s => s.first (.ev (.assistReply (BitVec.ofNat 32 v))))

/-- A signed number of degrees as 4 bytes. -/
def degrees (t : Int) : List Byte := leBytes 4 (BitVec.ofInt 32 t).toNat

/-- `QST` as the queue block and the shadow show it (R278, R392). -/
def QState.code : QState → Nat
  | .idle => 0
  | .pending => 1
  | .mapped => 2
  | .blocked => 3
  | .error => 4

/-- The control block and the queue blocks as a host read of one function's BAR0 finds them (R392, R393); a read has no
effect. Fields are listed with their offsets; every other byte reads as zero. -/
def State.bar0 (s : State) (link : Fin 4) : List (Nat × List Byte) :=
  let w (n : Nat) (v : BitVec n) : List Byte := leBytes (n / 8) v.toNat
  let fwst : Nat := s.fw.queenBank.toNat + 2 * s.fw.nurseBank.toNat + 4 * s.fw.updating.toNat + 8 * s.fw.rolledBack.toNat
  let queues : List (Nat × List Byte) := (List.range 64).map fun j =>
    let u := s.queue (Fin.ofNat 256 (64 * link.val + j))
    let flags := u.lsz.toNat + 256 * u.flsz.toNat + 65536 * u.en.toNat + 131072 * u.irq.toNat
    (0x10000 + 64 * j, w 64 u.qbase ++ w 64 u.cqbase ++ w 64 u.fbase ++ leBytes 8 flags ++ leBytes 4 0 ++ w 32 u.qhead ++ w 32 u.fcnt ++
      leBytes 4 u.qst.code)
  let ports : List (Nat × List Byte) := (List.finRange 16).flatMap fun p =>
    [(0x2000 + 0x800 * p.val, (s.port p).cnt.toList.flatMap (w 32)),
     (0x2400 + 0x800 * p.val, (s.port p).planes.toList.flatMap fun k => k.toList.flatMap fun e => leBytes 4 e.word)]
  [(0x0000, leBytes 4 0x43424C31), (0x0004, leBytes 4 fwst), (0x0008, w 32 s.ctl.assist), (0x000C, w 32 s.fw.hbeat),
   (0x0010, w 64 s.ctl.arbase), (0x0018, w 32 s.ctl.arctl), (0x001C, w 32 s.ctl.artail), (0x0020, w 32 s.ctl.arhead),
   (0x0028, s.ctl.rpldata),
   (0x0040, (List.range 64).flatMap fun j => w 32 (s.queue (Fin.ofNat 256 (64 * link.val + j))).fread),
   (0x0140, w 64 s.ctl.evbase), (0x0148, w 32 s.ctl.evctl), (0x014C, w 32 s.ctl.evtail), (0x0150, w 32 s.ctl.evhead),
   (0x0154, w 32 s.ctl.evlost), (0x0160, w 32 s.ctl.wafid), (0x0184, w 32 s.fw.updstat), (0x0188, w 32 s.fw.updoff),
   (0x0200, s.tsensf.flatMap degrees), (0x0300, s.tsensh.flatMap degrees), (0x03C0, leBytes 4 s.power),
   (0x03C4, leBytes 4 (s.thr + 256 * s.hold.toNat)), (0x0400, s.fw.meas), (0x0430, leBytes 4 s.fw.mlog.length),
   (0x0440, (s.fw.mlog.take 64).flatten)] ++ ports ++ queues

/-! ### Signed firmware (R403) -/

/-- Index of a bank: queen A, queen B, nurse A, nurse B. -/
def bankIdx (nurse b : Bool) : Fin 4 := Fin.ofNat 4 (2 * nurse.toNat + b.toNat)
def Firmware.image (f : Firmware) (k : Fin 4) : Memory := f.banks[k].getD (Memory.writeAll [] (Config.factoryImage k.val))
def Firmware.active (f : Firmware) (nurse : Bool) : Bool := if nurse then f.nurseBank else f.queenBank

/-- The least security version that is accepted. -/
def Firmware.minVersion (f : Firmware) (nurse : Bool) : Nat :=
  max (Config.fusedVersion nurse.toNat).toNat (if nurse then f.minver[1] else f.minver[0]).toNat

def imgField (m : Memory) (off n : Nat) : Nat := leNat (m.readN off n)
def imgBody (m : Memory) : List Byte := m.readN 8192 (imgField m 16 8)
def imgHash (m : Memory) : List Byte := m.readN 32 48

/-- Why an image is refused, by the reasons of `UPDSTAT`, in the order format, keys, signatures, body, version (log 7). -/
def Firmware.refuses (f : Firmware) (nurse : Bool) (m : Memory) : Option Nat :=
  let signed := m.readN 0 2064
  if imgField m 0 4 ≠ 0x46574E31 ∨ imgField m 4 2 ≠ (if nurse then 2 else 1) ∨ (m.readN 5437 2755).any (· != 0) then some 6
  else if Config.sha384 (m.readN 80 32) != Config.fusedHash 0 || Config.sha384 (m.readN 112 1952) != Config.fusedHash 1 then some 4
  else if !Config.ed25519 (m.readN 80 32) signed (m.readN 2064 64) then some 2
  else if !Config.mlDsa65 (m.readN 112 1952) signed (m.readN 2128 3309) then some 3
  else if (Config.sha384 (imgBody m)).toList != imgHash m then some 1
  else if imgField m 12 4 < f.minVersion nurse then some 5 else none

/-- An accepted image extends `MEAS` and its log. -/
def Firmware.measure (f : Firmware) (m : Memory) : Firmware :=
  { f with meas := (Config.sha384 (f.meas ++ imgHash m)).toList,
           mlog := f.mlog ++ [leBytes 4 (imgField m 4 2) ++ m.readN 8 4 ++ m.readN 12 4 ++ leBytes 4 0 ++ imgHash m] }

/-! ### The handover record (R406) -/

/-- The 64-byte shadow of a user queue (R278). -/
def UserQueue.shadow (u : UserQueue) : List Byte :=
  leBytes 8 u.qbase.toNat ++ leBytes 1 u.lsz.toNat ++ leBytes 1 u.qst.code ++ leBytes 2 u.qslot.toNat ++ leBytes 4 u.qhead.toNat ++
    leBytes 4 u.qtail.toNat ++ leBytes 4 0 ++ leBytes 8 u.quse.toNat ++ leBytes 8 u.qblk.toNat ++
    (u.qwait ++ List.replicate 16 0).take 16 ++ leBytes 8 0

/-- A swarm-table entry as queen-core SRAM holds it (R329). -/
def Swarm.entry (w : Swarm) : List Byte :=
  leBytes 8 (w.v.toNat + 2 * w.lvl.toNat + 4 * w.mode.toNat + 8 * w.vc.toNat + 2 ^ 4 * w.vt.toNat + 2 ^ 20 * (w.roster.length - 1) +
    2 ^ 36 * w.win.toNat + 2 ^ 44 * w.port.val + 2 ^ 48 * w.ni.toNat) ++
  leBytes 8 (w.raddr.toNat + 2 ^ 32 * w.ax.toNat + 2 ^ 41 * w.ay.toNat)

/-- Pending faults of a context, each as its fault record would be: the one it has stopped on, and those in its places. -/
def State.pendingFaults (s : State) (t : TileId) (c : Fin 4) : List (List Byte) :=
  let x := s.ctx t c
  let tag := ((x.lid.bind s.launchOf).map Launch.tag).getD 0
  (if x.st = .stopped then [faultBytes x.cause x.finfo x.fpc x.epc t c 0 tag] else []) ++
    x.faults.toList.filterMap fun f => f.map fun p => faultBytes p.flt.cause p.flt.finfo p.flt.fpc x.pc t c 0 tag

def State.allPending (s : State) : List (List Byte) := s.tiles.flatMap fun e => (List.finRange 4).flatMap fun c => s.pendingFaults e.1 c

/-- The record that the old queen image leaves for the new one. Route-table versions and the 8 bytes of tile state beside a fault are
named and not described: free values (log 50). -/
def State.handoverRecord (s : State) : List Byte :=
  let faults := s.allPending
  let free (n k : Nat) : List Byte := leBytes n (Config.choice (s.free + k))
  let body := leBytes 4 0x48444F31 ++ leBytes 4 s.fw.handover.toNat ++ (s.fw.image (bankIdx false s.fw.queenBank)).readN 8 4 ++
    leBytes 4 s.ctl.assist.toNat ++ leBytes 4 s.tmVer.toNat ++ (List.range 64).flatMap (free 4) ++
    (s.slots.toList.flatMap fun k => leBytes 2 ((k.queue.map Fin.val).getD 0xFFFF)) ++
    ((List.finRange 256).flatMap fun q => (s.queue q).shadow) ++
    ((List.range 1024).flatMap fun k => leBytes 8 (alGet s.tls k (0 : BitVec 64)).toNat) ++
    ((List.finRange 256).flatMap fun w => ((s.swarm w).map Swarm.entry).getD (List.replicate 16 0)) ++
    leBytes 4 faults.length ++ (faults.zip (List.range faults.length)).flatMap fun e => e.1 ++ free 8 (64 + e.2)
  body ++ (Config.sha384 body).toList

/-! ### Live replacement (R405 to R408) -/

/-- 50 ms on the reference clock. -/
def ms50 : Nat := 62500000

/-- The inactive bank of a kind takes bytes. -/
def Firmware.stage (f : Firmware) (nurse : Bool) (a : Nat) (data : List Byte) : Firmware :=
  let k := bankIdx nurse (!f.active nurse)
  { f with banks := vset f.banks k (some ((f.image k).writeN a data)) }

/-- Bytes of the staging window go to the inactive bank at `UPDOFF`. Until `UPDCMD` names the kind, nothing tells of which kind: both
inactive banks take them, DESIGN CHOICE, log 7. -/
def execStagingWrite (off : Nat) (data : List Byte) (s : State) : Out :=
  let a := s.fw.updoff.toNat + off
  .next { s with fw := (s.fw.stage false a data).stage true a data }

/-- The inactive bank is verified; a refused image changes nothing. Then the nurse cores in turn, or the queen core, start it
under the watchdog. The old queen image applies the advances it has before it writes the handover record. -/
def execFirmwareSwitch (nurse : Bool) (s : State) : Out :=
  let f := s.fw
  let m := f.image (bankIdx nurse (!f.active nurse))
  if f.updating then .next s else
  match f.refuses nurse m with
  | some r => .next { s with fw := { f with updstat := BitVec.ofNat 32 (3 + 256 * r) } }
  | none =>
    let f : Firmware := { f.measure m with
      updating := true, updstat := 1,
      handover := f.handover + 1, watchdog := some (s.ref + ms50, if nurse then some 0 else none) }
    let s := { s with fw := f }
    if nurse then .next s else
    let s := { s with advances := s.advances.map fun (a : Advance) => { a with due := min a.due s.now } }.dueAdvances
    let f : Firmware := { s.fw with record := s.handoverRecord, queenBank := !s.fw.queenBank }
    .next { s with fw := f, free := s.free + 64 + s.allPending.length }

/-- The fused minimum becomes the security version of the running image. In the gap of a queen update none has run yet, and the command
does nothing (R403; DESIGN CHOICE, log 7). -/
def execSecurityVersionRaise (nurse : Bool) (s : State) : Out :=
  if s.fw.gap && !nurse then .next s else
  let v := BitVec.ofNat 32 (imgField (s.fw.image (bankIdx nurse (s.fw.active nurse))) 12 4)
  let k : Fin 2 := if nurse then 1 else 0
  .next { s with fw := { s.fw with updstat := 2, minver := vset s.fw.minver k (if s.fw.minver[k].toNat < v.toNat then v else s.fw.minver[k]) } }

/-- The input queue is applied in order: advances and retirements (R408). All of it acts on the tick of the `HBEAT` write, within the
bound of R366: DESIGN CHOICE, log 18. -/
def State.applyInputs (s : State) : State :=
  s.fw.inq.foldl (fun s e => match e with
    | (some a, _) => { s with advances := s.advances ++ [{ a with due := s.now }] }.dueAdvances
    | (none, some lid) => s.retireLaunch lid
    | (none, none) => s) { s with fw := { s.fw with inq := [] } }

/-- A queen image is running again: the input queue is applied, stopped contexts reach their fault records. -/
def State.leaveGap (s : State) : State :=
  let s := s.applyInputs
  let stops : List Move := s.tiles.flatMap fun e => (List.finRange 4).filterMap fun c =>
    let x := e.2.ctx c
    if x.st = .stopped ∨ ((x.st = .halted ∨ x.st = .free) ∧ (x.faults.toList.any Option.isSome ∨ !x.late.isEmpty)) then some (Move.ev (.faultRecord e.1 c)) else none
  { s with agenda := stops ++ s.agenda }

/-- The running image writes `HBEAT`. For a new image: the write port opens; the next nurse core follows, or the update is
done. -/
def execHandoverHeartbeat (s : State) : Out :=
  let f : Firmware := { s.fw with hbeat := s.fw.handover }
  let done (f : Firmware) : Firmware := { f with watchdog := none, updating := false, rolledBack := false, updstat := 2 }
  match f.watchdog with
  | none => .next { s with fw := f }
  | some (_, none) => .next { s with fw := done f }.leaveGap
  | some (_, some k) =>
    if k.val < 5 then .next { s with fw := { f with watchdog := some (s.ref + ms50, some (k + 1)) } }
    else .next { s with fw := { done f with nurseBank := !f.nurseBank } }

/-- The watchdog expires: the core goes back to the old bank, which resumes from the unchanged record; the host hears of it.
What `UPDSTAT` then reads is not stated: a free value (log 7). -/
def execWatchdogExpiry (s : State) : Out :=
  match s.fw.watchdog with
  | none => .next s
  | some (at_, who) =>
    if s.ref < at_ then .next s else
    let f : Firmware := { s.fw with watchdog := none, updating := false, rolledBack := true,
                                    updstat := BitVec.ofNat 32 (Config.choice s.free % 4),
                                    queenBank := if who.isNone then !s.fw.queenBank else s.fw.queenBank }
    let bank : List Byte := leBytes 4 (if who.isNone then 1 else 2) ++ leBytes 4 (if who.isNone then f.queenBank else f.nurseBank).toNat
    let s := ({ s with fw := f }.bump).post 4 bank
    .next (if who.isNone then s.leaveGap else s)

end Sys2Proof.Machine
end

