-- ==== Sys2Proof/Machine/Power.lean ====
section
/-! DEFINITION. Boot (R404), part reset (R402), throttle and thermal hold (R409, R410). -/

namespace Sys2Proof.Machine

/-! ### Boot (R318, R404) -/

/-- Steps 1 and 2: `MEAS` is zero; the queen image of the active bank or of the other is verified, then the nurse image; whether both are
accepted. An accepted queen image has extended `MEAS` even where no nurse image follows. -/
def State.verifyBoot (s : State) : Firmware × Bool :=
  let f : Firmware := { s.fw with meas := List.replicate 48 0, mlog := [] }
  let queen (b : Bool) : Option Firmware :=
    if (f.refuses false (f.image (bankIdx false b))).isNone then some ({ f with queenBank := b }.measure (f.image (bankIdx false b))) else none
  match (queen f.queenBank).or (queen !f.queenBank) with
  | none => (f, false)
  | some g =>
    let m := g.image (bankIdx true g.nurseBank)
    if (g.refuses true m).isNone then (g.measure m, true) else (g, false)

/-- The first field with too few usable rows (R318 step 1). -/
def Fuses.beyondRepair (f : Fuses) : Option (Nat × Nat) :=
  ((List.range 8).flatMap fun fy => (List.range 8).map fun fx => (fx, fy)).find? fun e =>
    decide ((usableRows (f.deadIn e.1 e.2)).length < f.fieldSize)

/-- The boot sequence: firmware, BIST, repair, release, the links. Comb time is 0 on the next tick. A failure stops the part there, and
the sideband tells which; it tells too which PCIe links have not trained (R390). -/
def execBoot (s : State) : Out :=
  if s.stage != .power then .next s else
  let v := s.verifyBoot
  if !v.2 then .next { s with stage := .failed, failure := some .image, fw := v.1 } else
    let s := { s with fw := v.1, fuses := { s.fuses with dead := s.fuses.dead ++ Config.bistDead } }
    match s.fuses.beyondRepair with
    | some e => .next { s with stage := .failed, failure := some (.field e.1 e.2) }
    | none => .next { s.carryAll.chooseEdges with
        tmVer := 1, stage := .released, now := 0, links := Vector.ofFn fun k : Fin 4 => Config.pcieTrains (s.free + k.val), free := s.free + 4 }

/-- Part reset through the sideband: every item as at power-good; fuses, flash, and the memories outside the comb stay
(log 9). -/
def execPartReset (s : State) : Out :=
  let z := State.reset
  let f : Firmware := { z.fw with banks := s.fw.banks, queenBank := s.fw.queenBank, nurseBank := s.fw.nurseBank,
                                  minver := s.fw.minver, handover := s.fw.handover }
  .next { z with fuses := s.fuses, fw := f, heap := s.heap, heapBad := s.heapBad, host := s.host, free := s.free,
                 ref := s.ref, tsensf := s.tsensf, tsensh := s.tsensh, power := s.power, inputs := s.inputs }

/-! ### Throttle and thermal hold (R409, R410) -/

/-- Package power in watts that the throttle keeps to (R26). -/
def powerLimit : Nat := 15000

/-- Every 10 µs the throttle sets k from 16 to 64: above 15 kW it lowers k, else it may raise it; by how much is its own. At
105 °C k is 16 (R26, R409). -/
def execThrottleEvaluation (s : State) : Out :=
  let c := Config.choice s.free
  let k := if s.tsensf.any fun t => decide (105 ≤ t) then 16
    else if powerLimit < s.power then 16 + c % max 1 (s.thr - 16)
    else s.thr + c % (65 - s.thr)
  .next { s with thr := k }.bump

/-- A die sensor reads 115 °C: the comb clock stops. -/
def execThermalHold (s : State) : Out :=
  if s.hold then .next s else .next ({ s with hold := true }.post 6 (leBytes 1 0))

/-- View changes that began in the hold are shown in the members' slots (R410). -/
def State.showChanges (s : State) : State :=
  s.swarms.foldl (fun s e => if e.2.vc then s.showChange (Fin.ofNat 256 e.1) e.2 else s) s

/-- Every die sensor reads below 100 °C: the comb clock restarts at k = 16. -/
def execThermalRelease (s : State) : Out :=
  if s.hold && s.tsensf.all (fun t => decide (t < 100)) then .next ({ s.showChanges with hold := false, thr := 16 }.post 6 (leBytes 1 1))
  else .next s

end Sys2Proof.Machine
end

