-- ==== Sys2Proof/Machine/Scalar.lean ====
section
/-! DEFINITION. The scalar slots SA and SB (R120 to R133). -/

namespace Sys2Proof.Machine

/-- Slot NOP and control NOP: no effect of their own (R42). -/
def execNop (s : State) : Out := .next s

/-- s[rd] from two registers, latency 1 (R122). -/
def scalarR (f : Word → Word → Word) (rd a b : Fin 32) (s : State) : Out :=
  .next (s.result 1 (.s rd (f (s.rs a) (s.rs b))))

/-- s[rd] from a register and a sign-extended immediate, latency 1 (R123). -/
def scalarI (f : Word → Word → Word) (rd a : Fin 32) (imm : BitVec 11) (s : State) : Out :=
  .next (s.result 1 (.s rd (f (s.rs a) (imm.signExtend 32))))

/-- Shift counts use bits [4:0] (R122). -/
def shl32 (a b : Word) : Word := a <<< (b.toNat % 32)
def shr32 (a b : Word) : Word := a >>> (b.toNat % 32)
def sra32 (a b : Word) : Word := a.sshiftRight (b.toNat % 32)
def min32 (a b : Word) : Word := if a.slt b then a else b
def max32 (a b : Word) : Word := if a.slt b then b else a
def minu32 (a b : Word) : Word := if a.ult b then a else b
def maxu32 (a b : Word) : Word := if a.ult b then b else a
def clz32 (a : Word) : Word := if a = 0 then 32 else BitVec.ofNat 32 (31 - Nat.log2 a.toNat)
def popc32 (a : Word) : Word := BitVec.ofNat 32 ((List.range 32).filter fun i => a.getLsbD i).length

def execAdd (rd a b : Fin 32) (s : State) : Out := scalarR (· + ·) rd a b s
def execSub (rd a b : Fin 32) (s : State) : Out := scalarR (· - ·) rd a b s
def execAnd (rd a b : Fin 32) (s : State) : Out := scalarR (· &&& ·) rd a b s
def execOr (rd a b : Fin 32) (s : State) : Out := scalarR (· ||| ·) rd a b s
def execXor (rd a b : Fin 32) (s : State) : Out := scalarR (· ^^^ ·) rd a b s
def execAndn (rd a b : Fin 32) (s : State) : Out := scalarR (fun x y => x &&& ~~~y) rd a b s
def execShl (rd a b : Fin 32) (s : State) : Out := scalarR shl32 rd a b s
def execShr (rd a b : Fin 32) (s : State) : Out := scalarR shr32 rd a b s
def execSra (rd a b : Fin 32) (s : State) : Out := scalarR sra32 rd a b s
def execMin (rd a b : Fin 32) (s : State) : Out := scalarR min32 rd a b s
def execMax (rd a b : Fin 32) (s : State) : Out := scalarR max32 rd a b s
def execMinu (rd a b : Fin 32) (s : State) : Out := scalarR minu32 rd a b s
def execMaxu (rd a b : Fin 32) (s : State) : Out := scalarR maxu32 rd a b s
def execMov (rd a : Fin 32) (s : State) : Out := .next (s.result 1 (.s rd (s.rs a)))
def execClz (rd a : Fin 32) (s : State) : Out := .next (s.result 1 (.s rd (clz32 (s.rs a))))
def execPopc (rd a : Fin 32) (s : State) : Out := .next (s.result 1 (.s rd (popc32 (s.rs a))))

/-- The exact 64-bit products (R124). -/
def mulS (a b : Word) : BitVec 64 := BitVec.ofInt 64 (a.toInt * b.toInt)
def mulU (a b : Word) : BitVec 64 := BitVec.ofNat 64 (a.toNat * b.toNat)

/-- A MUL group result, latency 3 (R124). -/
def mulR (f : Word → Word → Word) (rd a b : Fin 32) (s : State) : Out :=
  .next (s.result 3 (.s rd (f (s.rs a) (s.rs b))))

def execMul (rd a b : Fin 32) (s : State) : Out := mulR (· * ·) rd a b s
def execMulh (rd a b : Fin 32) (s : State) : Out := mulR (fun x y => (mulS x y).extractLsb' 32 32) rd a b s
def execMulhu (rd a b : Fin 32) (s : State) : Out := mulR (fun x y => (mulU x y).extractLsb' 32 32) rd a b s

/-- R127. -/
def execSel (rd a b : Fin 32) (p : Fin 16) (s : State) : Out :=
  .next (s.result 1 (.s rd (if s.rp p then s.rs a else s.rs b)))

/-- The scalar comparisons (R67, R125). -/
def compare (c : Cond) (a b : Word) : Bool :=
  match c with
  | .eq => a == b
  | .ne => a != b
  | .lt => a.slt b
  | .ge => !a.slt b
  | .ltu => a.ult b
  | .geu => !a.ult b
  | .gt => b.slt a
  | .gtu => b.ult a

def execCmp (c : Cond) (pd : Fin 16) (a b : Fin 32) (s : State) : Out :=
  .next (s.result 1 (.p pd (compare c (s.rs a) (s.rs b))))

def execCmpi (c : Cond) (pd : Fin 16) (a : Fin 32) (imm : BitVec 11) (s : State) : Out :=
  .next (s.result 1 (.p pd (compare c (s.rs a) (imm.signExtend 32))))

/-- A two-input truth table: bit 2a + b (R67, R126). -/
def truth (tt : BitVec 4) (a b : Bool) : Bool := tt.getLsbD (2 * a.toNat + b.toNat)

def execPlog (tt : BitVec 4) (pd pa pb : Fin 16) (s : State) : Out :=
  .next (s.result 1 (.p pd (truth tt (s.rp pa) (s.rp pb))))

def execAddi (rd a : Fin 32) (imm : BitVec 11) (s : State) : Out := scalarI (· + ·) rd a imm s
def execAndi (rd a : Fin 32) (imm : BitVec 11) (s : State) : Out := scalarI (· &&& ·) rd a imm s
def execOri (rd a : Fin 32) (imm : BitVec 11) (s : State) : Out := scalarI (· ||| ·) rd a imm s
def execXori (rd a : Fin 32) (imm : BitVec 11) (s : State) : Out := scalarI (· ^^^ ·) rd a imm s
def execShli (rd a n : Fin 32) (s : State) : Out := .next (s.result 1 (.s rd (s.rs a <<< n.val)))
def execShri (rd a n : Fin 32) (s : State) : Out := .next (s.result 1 (.s rd (s.rs a >>> n.val)))
def execSrai (rd a n : Fin 32) (s : State) : Out := .next (s.result 1 (.s rd ((s.rs a).sshiftRight n.val)))

/-- R129. -/
def execMovi (rd : Fin 32) (imm : BitVec 16) (s : State) : Out := .next (s.result 1 (.s rd (imm.signExtend 32)))
/-- R129: the low half is read on issue. -/
def execMovhi (rd : Fin 32) (imm : BitVec 16) (s : State) : Out :=
  .next (s.result 1 (.s rd (imm ++ (s.rs rd).setWidth 16)))

/-! ### Address registers (R130, R131) -/

def execAadd (ad aa : Fin 8) (sb : Fin 32) (s : State) : Out :=
  .next (s.result 1 (.a ad (s.ra aa + (s.rs sb).signExtend 48)))
def execAaddi (ad aa : Fin 8) (imm : BitVec 11) (s : State) : Out :=
  .next (s.result 1 (.a ad (s.ra aa + imm.signExtend 48)))
def execAmov (ad aa : Fin 8) (s : State) : Out := .next (s.result 1 (.a ad (s.ra aa)))
/-- The pair {s[k + 1 mod 32][15:0], s[k]}. -/
def execAmovFromPair (ad : Fin 8) (sa : Fin 32) (s : State) : Out :=
  .next (s.result 1 (.a ad ((s.rs (sa + 1)).setWidth 16 ++ s.rs sa)))
def execAmovToScalar (sd : Fin 32) (aa : Fin 8) (s : State) : Out := .next (s.result 1 (.s sd ((s.ra aa).setWidth 32)))
def execAmovHi (sd : Fin 32) (aa : Fin 8) (s : State) : Out :=
  .next (s.result 1 (.s sd (((s.ra aa).extractLsb' 32 16).setWidth 32)))

/-- A 34-bit comb address from a coordinate and an offset (R131). -/
def combAddr (xy off : Word) : VAddr :=
  (0#14 ++ xy.extractLsb' 0 9 ++ xy.extractLsb' 16 9 ++ off.extractLsb' 0 16).setWidth 48

def execAcmb (ad : Fin 8) (sa sb : Fin 32) (s : State) : Out :=
  .next (s.result 1 (.a ad (combAddr (s.rs sa) (s.rs sb))))

/-! ### LDQ (R132, R133) -/

/-- The bytes LDQ reads, checked by R220. -/
def ldqAccess (base : Fin 32) (off : BitVec 11) (s : State) : Except Cause (List SlotByte) :=
  s.curTile.slotBytes 2 false (span (ea (s.rs base) off.toInt 128 128) 512)

/-- LDQ reads on issue + 1 and commits at issue + 4 task ticks; a shadow-window byte is a buffer-state fault. -/
def execLdq (qd : Fin 8) (base : Fin 32) (off : BitVec 11) (s : State) : Out :=
  match ldqAccess base off s with
  | .error f => .next (s.issueFault s.cur.tile s.cur.ctx f)
  | .ok bs => .next (s.modCurTile fun t =>
      { t with reads := t.reads ++ [⟨s.now + 1, s.cur.ctx, s.cur.tt, 2, s.cur.tt + 4, bs, .scale qd⟩] })

end Sys2Proof.Machine
end

