-- ==== Sys2Proof/Machine/Sched.lean ====
section
/-! DEFINITION. The arbiter (R159 to R162), the resolution of engine-command guards (R176) and the delivery of pending
faults and VIEWCHANGE traps (R164, R340, R377, R378). -/

namespace Sys2Proof.Machine

/-! ### Deliveries (R164, R340, R378) -/

/-- An ERET's clearing of `IT` takes effect before a delivery at `EPC`. -/
def Context.settleIt (c : Context) : Context := if c.itClear then { c.setIt false with itClear := false } else c

/-- Before an issue attempt: the oldest pending fault is delivered, else the VIEWCHANGE trap of the wait (R378). An
informational trap with `TRAPV` zero is dropped (R340). -/
def execFaultDelivery (t : TileId) (c : Fin 4) (s : State) : Out :=
  let x := s.ctx t c
  if x.st != .active then .next s else
  match (if x.itNow then none else x.oldestFault) with
  | some q =>
    match x.faults[q] with
    | none => .next s
    | some f =>
      let s := s.modCtx t c fun y => { y.settleIt with faults := vset y.faults q none }
      .next (s.raise t c f.flt.cause f.flt.finfo f.flt.fpc x.pc)
  | none =>
    match (s.heldAt (s.tile t) c).bind x.vcPending with
    | none => .next s
    | some v =>
      let s := s.modCtx t c fun y => { y with vcTraps := y.vcTraps.filter (· != v) }
      if !v.can && !v.exp && x.trapv = 0 then .next s else
      let f : Cause := ⟨cView, 0, v.newTag.toNat, v.finfo⟩
      .next ((s.modCtx t c Context.settleIt).raise t c (f.word true false) f.finfo x.pc x.pc)

/-! ### Guards of queued commands (R176) -/

/-- A command of a context whose guard resolves now: one of an earlier bundle, or any when the context has stopped. -/
def resolves (c : Fin 4) (stopped : Bool) (now : Nat) (ctx : Fin 4) (tick : Nat) (g : QGuard) : Bool :=
  ctx == c && g.pending && (stopped || decide (tick < now))

/-- The counters a true command raises, or the counter that is full. -/
def Tile.guardFull (t : Tile) (id : Nat) : Option (Nat × Nat) :=
  match t.live.find? fun l => l.id == id with
  | none => none
  | some l =>
    let x := t.ctx l.ctx
    match l.tag with
    | some k => if x.cnt[k] = 255 then some (3, k.val) else if l.wack && x.wack == 0xFFFF then some (4, 0) else none
    | none => if l.wack && x.wack == 0xFFFF then some (4, 0) else none

/-- The guard of a copy-queue or channel-queue command once it is true, and the command's counts. -/
def Tile.guardTrue (t : Tile) (id : Nat) : Tile × QGuard :=
  match t.guardFull id with
  | some (q, qi) => (t, .full q qi)
  | none =>
    match t.live.find? fun l => l.id == id with
    | some l => (t.modCtx l.ctx fun c => c.issueCounts l.tag l.wack, .yes)
    | none => (t, .yes)

def Tile.resolveGuards (t : Tile) (c : Fin 4) (now : Nat) : Tile :=
  let stopped := (t.ctx c).st != .active
  let here := resolves c stopped now
  let t := t.settleMxGuards fun m => here m.ctx m.tick m.guard
  let t := (t.cpq.filter fun m => here m.ctx m.tick m.guard).foldl (fun t m =>
    if m.guard.value then
      let r := t.guardTrue m.id
      { r.1 with cpq := r.1.cpq.map fun (k : CopyCmd) => if k.id = m.id then { k with guard := r.2 } else k }
    else t.guardFalse c m.id) t
  (t.chq.filter fun m => here m.ctx m.tick m.guard).foldl (fun t m =>
    if m.guard.value then
      let r := t.guardTrue m.id
      let t : Tile := { r.1 with chq := r.1.chq.map fun (k : ChCmd) => if k.id = m.id then { k with guard := r.2 } else k }
      if r.2 == .yes then t.takeCredit now m.id else t
    else t.guardFalse c m.id) t

/-- The context has issued a later bundle, made a wait attempt or stopped: its queued guards take their values. -/
def execGuardResolution (t : TileId) (c : Fin 4) (s : State) : Out := .next (s.modTile t fun x => x.resolveGuards c s.now)

/-- Some guard of the context is to resolve on this tick. -/
def Tile.guardsDue (t : Tile) (c : Fin 4) (now : Nat) : Bool :=
  let here := resolves c ((t.ctx c).st != .active) now
  (t.mxq.any fun m => here m.ctx m.tick m.guard) || (t.cpq.any fun m => here m.ctx m.tick m.guard) ||
    t.chq.any fun m => here m.ctx m.tick m.guard

/-! ### The arbiter (R159 to R162) -/

/-- A context is ready (R159). -/
def State.ready (s : State) (t : Tile) (c : Fin 4) : Bool :=
  let x := t.ctx c
  x.st == .active && (!x.held || s.pendingDelivery t c || (match s.heldAt t c with
    | some i => (waitCause t.tableView i).isSome || t.tableView.waitHolds c i
    | none => true))

/-- Since when each context has been ready and has not issued. -/
def State.noteReady (s : State) (t : TileId) : State :=
  let x := s.tile t
  let rs := (List.finRange 4).map fun c => (c, s.ready x c)
  s.modTile t fun x => rs.foldl (fun x r => x.modCtx r.1 fun y =>
    { y with readySince := if r.2 then y.readySince.or (some s.now) else none }) x

def Context.run (c : Context) : Nat := c.rundecl.toNat % 2 ^ 20
def Context.eff (c : Context) : Nat := c.rank.toNat / 256 % 256
def Context.base (c : Context) : Nat := c.rank.toNat % 256

/-- `choose` of R161 over the ready contexts, lowest number first. -/
def Tile.choose (t : Tile) (ready : List (Fin 4)) (now : Nat) : Option (Fin 4) :=
  let left := 4096 - now % 4096
  let since (c : Fin 4) : Nat := (t.ctx c).readySince.getD now
  let fit := ready.filter fun c => decide ((t.ctx c).run ≤ left)
  let best (le : Fin 4 → Fin 4 → Bool) (l : List (Fin 4)) : Option (Fin 4) := (sortBy le l).head?
  if fit.isEmpty then
    best (fun a b => decide ((t.ctx a).run < (t.ctx b).run) ||
      (decide ((t.ctx a).run = (t.ctx b).run) && decide ((t.ctx b).eff ≤ (t.ctx a).eff))) ready
  else
    best (fun a b => decide ((t.ctx b).eff < (t.ctx a).eff) ||
      (decide ((t.ctx a).eff = (t.ctx b).eff) && decide (since a ≤ since b))) fit

/-- The chosen context issues on the third tick after the last bundle of another, on the next tick after its own, and no
earlier than `lo` (R159). The issue width has switched when another context held it before (R371); a bank hold does not outlive
the width (R221). -/
def Tile.grant (t : Tile) (c : Fin 4) (lo : Nat) : Tile :=
  let go := match t.lastIssue with
    | none => lo
    | some (d, k) => max lo (k + if d = c then 1 else 3)
  let t := if t.holder.any (· != c) then t.event 0x07 1 else t
  { t with arb := .run c go, holder := some c, hold := none }

/-- A context is ready for the arbiter's choice on a tick: waits are judged by the state at the end of the previous tick, so what the
yielding bundle did on this one does not count (R164); the context that has just issued is ready while it is active. -/
def Tile.readyFor (t : Tile) (now : Nat) (c : Fin 4) : Bool :=
  (t.ctx c).st == .active && ((t.ctx c).readySince.isSome || t.lastIssue == some (c, now))

/-- The arbiter chooses on its tick; with no context ready the tile issues nothing. -/
def execArbiterChoice (t : TileId) (s : State) : Out :=
  let x := s.tile t
  let rs := (List.finRange 4).filter (x.readyFor s.now)
  let lo := match x.arb with
    | .idle => s.now
    | _ => s.now + 1
  .next (s.modTile t fun x => match x.choose rs s.now with
    | some c => x.grant c lo
    | none => { x with arb := .idle })

/-- A context that waits to issue gains one step of `EFF`, up to 255 (R162). -/
def execRankAgeing (t : TileId) (c : Fin 4) (s : State) : Out :=
  .next (s.modCtx t c fun x =>
    if x.readySince.isNone ∨ 255 ≤ x.eff then x else { x with rank := x.rank + 256 })

/-- Its 65,536 ticks are up. -/
def Context.ages (c : Context) (now : Nat) : Bool :=
  c.readySince.any fun k => decide (k < now) && (now - k) % 65536 == 0

end Sys2Proof.Machine
end

