-- ==== Sys2Proof/Machine/Vector.lean ====
section
/-! DEFINITION. The vector slot (R134 to R147). Latencies are those of R48. -/

namespace Sys2Proof.Machine

/-- Latency of arithmetic: 2 for integer types, 4 for FP (R137). -/
def arithLat (ty : VType) : Nat := if ty.isFloat then 4 else 2

/-- A two-operand FP function on a lane of a float type: each half of BF16P on its own (R134). -/
def fpLane (ty : VType) (f : FFmt → Nat → Nat → FRes) (a b : Word) : LaneRes :=
  if ty = .bf16p then pairLane (f fBf16 (loHalf a) (loHalf b)) (f fBf16 (hiHalf a) (hiHalf b))
  else (f fF32 a.toNat b.toNat).lane

/-- A lane of an arithmetic instruction: integer or FP by type. -/
def arithLane (ty : VType) (int : Word → Word → Word) (fp : FFmt → Nat → Nat → FRes) (a b : Word) : LaneRes :=
  if ty.isFloat then fpLane ty fp a b else .quiet (int a b)

/-- A masked two-source instruction (R136). -/
def vecBin (lat : Nat) (f : RMode → Word → Word → LaneRes) (vd va vb : Fin 16) (mk : Fin 8) (s : State) : Out :=
  let e := s.enabled mk
  let x := s.rv va
  let y := s.rv vb
  .next (s.vecResult lat vd e (lanesOf e fun i => f s.curCtx.rmode x[i] y[i]))

/-- A masked one-source instruction. -/
def vecUn (lat : Nat) (f : RMode → Word → LaneRes) (vd va : Fin 16) (mk : Fin 8) (s : State) : Out :=
  let e := s.enabled mk
  let x := s.rv va
  .next (s.vecResult lat vd e (lanesOf e fun i => f s.curCtx.rmode x[i]))

/-- A lane movement whose enable is the mask-stack top alone (R135, R143). -/
def vecMove (f : Fin 32 → Word) (vd : Fin 16) (s : State) : Out :=
  let e := s.curCtx.top
  .next (s.vecResult 2 vd e (lanesOf e fun i => .quiet (f i)))

/-! ### Arithmetic (R137) -/

def execVadd (vd va vb : Fin 16) (mk : Fin 8) (ty : VType) (s : State) : Out :=
  vecBin (arithLat ty) (fun rm => arithLane ty (· + ·) (fun f => f.add rm)) vd va vb mk s
def execVsub (vd va vb : Fin 16) (mk : Fin 8) (ty : VType) (s : State) : Out :=
  vecBin (arithLat ty) (fun rm => arithLane ty (· - ·) (fun f => f.sub rm)) vd va vb mk s
def execVmul (vd va vb : Fin 16) (mk : Fin 8) (ty : VType) (s : State) : Out :=
  vecBin (arithLat ty) (fun rm => arithLane ty (· * ·) (fun f => f.mul rm)) vd va vb mk s

/-- One rounding of a × b + c, c the old lane. -/
def fmaLane (ty : VType) (rm : RMode) (a b c : Word) : LaneRes :=
  if ty = .bf16p then
    pairLane (fBf16.fma rm (loHalf a) (loHalf b) (loHalf c)) (fBf16.fma rm (hiHalf a) (hiHalf b) (hiHalf c))
  else (fF32.fma rm a.toNat b.toNat c.toNat).lane

def execVfma (vd va vb : Fin 16) (mk : Fin 8) (ty : VType) (s : State) : Out :=
  let e := s.enabled mk
  let x := s.rv va
  let y := s.rv vb
  let z := s.rv vd
  .next (s.vecResult 4 vd e (lanesOf e fun i => fmaLane ty s.curCtx.rmode x[i] y[i] z[i]))

/-- Integer extremes: signed for I32, unsigned for U32. -/
def intMin (ty : VType) (a b : Word) : Word := if (if ty = .u32 then b.ult a else b.slt a) then b else a
def intMax (ty : VType) (a b : Word) : Word := if (if ty = .u32 then a.ult b else a.slt b) then b else a

def execVmin (vd va vb : Fin 16) (mk : Fin 8) (ty : VType) (s : State) : Out :=
  vecBin (arithLat ty) (fun _ => arithLane ty (intMin ty) (fun f => f.minMax false)) vd va vb mk s
def execVmax (vd va vb : Fin 16) (mk : Fin 8) (ty : VType) (s : State) : Out :=
  vecBin (arithLat ty) (fun _ => arithLane ty (intMax ty) (fun f => f.minMax true)) vd va vb mk s
def execVabs (vd va : Fin 16) (mk : Fin 8) (ty : VType) (s : State) : Out :=
  vecUn (arithLat ty) (fun _ a => arithLane ty (fun x _ => if x.msb then 0 - x else x) (fun f x _ => f.abs x) a 0) vd va mk s
def execVneg (vd va : Fin 16) (mk : Fin 8) (ty : VType) (s : State) : Out :=
  vecUn (arithLat ty) (fun _ a => arithLane ty (fun x _ => 0 - x) (fun f x _ => f.negate x) a 0) vd va mk s

/-! ### Logic and shifts (R138) -/

def vecLogic (f : Word → Word → Word) (vd va vb : Fin 16) (mk : Fin 8) (s : State) : Out :=
  vecBin 2 (fun _ a b => .quiet (f a b)) vd va vb mk s

def vshlW (a b : Word) : Word := a <<< (b.toNat % 32)
def vshrW (a b : Word) : Word := a >>> (b.toNat % 32)
def vsraW (a b : Word) : Word := a.sshiftRight (b.toNat % 32)

def execVand (vd va vb : Fin 16) (mk : Fin 8) (_ : VType) (s : State) : Out := vecLogic (· &&& ·) vd va vb mk s
def execVor (vd va vb : Fin 16) (mk : Fin 8) (_ : VType) (s : State) : Out := vecLogic (· ||| ·) vd va vb mk s
def execVxor (vd va vb : Fin 16) (mk : Fin 8) (_ : VType) (s : State) : Out := vecLogic (· ^^^ ·) vd va vb mk s
def execVshl (vd va vb : Fin 16) (mk : Fin 8) (_ : VType) (s : State) : Out := vecLogic vshlW vd va vb mk s
def execVshr (vd va vb : Fin 16) (mk : Fin 8) (_ : VType) (s : State) : Out := vecLogic vshrW vd va vb mk s
def execVsra (vd va vb : Fin 16) (mk : Fin 8) (_ : VType) (s : State) : Out := vecLogic vsraW vd va vb mk s
def execVshlImm (vd va : Fin 16) (n : Fin 32) (_ : VType) (s : State) : Out :=
  vecMove (fun i => (s.rv va)[i] <<< n.val) vd s
def execVshrImm (vd va : Fin 16) (n : Fin 32) (_ : VType) (s : State) : Out :=
  vecMove (fun i => (s.rv va)[i] >>> n.val) vd s
def execVsraImm (vd va : Fin 16) (n : Fin 32) (_ : VType) (s : State) : Out :=
  vecMove (fun i => ((s.rv va)[i]).sshiftRight n.val) vd s

/-! ### Compare and select (R139, R140) -/

/-- A comparison of integers of a type. -/
def intCmp (c : VCond) (ty : VType) (a b : Word) : Bool :=
  let lt (x y : Word) := if ty = .u32 then x.ult y else x.slt y
  match c with
  | .eq => a == b
  | .ne => a != b
  | .lt => lt a b
  | .le => !lt b a
  | .gt => lt b a
  | .ge => !lt a b
  | .uo => false

/-- A comparison of FP values and its `NV`. -/
def fpCmp (f : FFmt) (c : VCond) (a b : Nat) : Bool × Bool :=
  let x := f.read a
  let y := f.read b
  let un := x.isNan || y.isNan
  let sg := x.isSig || y.isSig
  match c with
  | .eq => (x.eqv y, sg)
  | .ne => (!x.eqv y, sg)
  | .lt => (!un && x.lt y, un)
  | .le => (!un && !y.lt x, un)
  | .gt => (!un && y.lt x, un)
  | .ge => (!un && !x.lt y, un)
  | .uo => (un, sg)

/-- A lane's relation: for BF16P both halves, UO either half (R139). -/
def laneCmp (c : VCond) (ty : VType) (a b : Word) : Bool × Bool :=
  match ty with
  | .f32 => fpCmp fF32 c a.toNat b.toNat
  | .bf16p =>
    let l := fpCmp fBf16 c (loHalf a) (loHalf b)
    let h := fpCmp fBf16 c (hiHalf a) (hiHalf b)
    (if c = .uo then l.1 || h.1 else l.1 && h.1, l.2 || h.2)
  | _ => (intCmp c ty a b, false)

def execVcmp (c : VCond) (md : Fin 8) (va vb : Fin 16) (mk : Fin 8) (ty : VType) (s : State) : Out :=
  let e := s.enabled mk
  let x := s.rv va
  let y := s.rv vb
  let m := bitsOf fun i => laneOn e i && (laneCmp c ty x[i] y[i]).1
  let nv := (List.finRange 32).any fun i => laneOn e i && (laneCmp c ty x[i] y[i]).2
  .next ((s.result 2 (.m md m)).raiseFlags 2 (Flags.sig nv))

/-- MASK selects and does not enable. -/
def execVsel (vd va vb : Fin 16) (mk : Fin 8) (_ : VType) (s : State) : Out :=
  vecMove (fun i => if laneOn (s.rm mk) i then (s.rv va)[i] else (s.rv vb)[i]) vd s

/-! ### Conversion (R93, R141) -/

/-- A float code to an integer type. -/
def cvtToInt (f : FFmt) (rm : RMode) (dst : VType) (a : Nat) : LaneRes :=
  let r := if dst = .i32 then f.toIntRange rm (-(2 ^ 31)) (2 ^ 31 - 1) a else f.toIntRange rm 0 (2 ^ 32 - 1) a
  ⟨BitVec.ofInt 32 r.1, r.2⟩

/-- An integer to an integer type: clamped, no flag. -/
def cvtIntInt (src : VType) (a : Word) : Word :=
  if src = .i32 then (if a.msb then 0 else a) else (if a.msb then 0x7FFFFFFF else a)

/-- One lane of VCVT. -/
def cvtLane (rm : RMode) (src dst : VType) (a : Word) : LaneRes :=
  match src, dst with
  | .i32, .f32 => (fF32.ofInt rm a.toInt).lane
  | .i32, .bf16p => (fBf16.ofInt rm a.toInt).lane
  | .u32, .f32 => (fF32.ofInt rm a.toNat).lane
  | .u32, .bf16p => (fBf16.ofInt rm a.toNat).lane
  | .f32, .bf16p => (fF32.convert fBf16 rm a.toNat).lane
  | .bf16p, .f32 => (fBf16.convert fF32 rm (loHalf a)).lane
  | .f32, d => cvtToInt fF32 rm d a.toNat
  | .bf16p, d => cvtToInt fBf16 rm d (loHalf a)
  | s, _ => .quiet (cvtIntInt s a)

def execVcvt (vd va : Fin 16) (mk : Fin 8) (src dst : VType) (rtz : Bool) (s : State) : Out :=
  vecUn 3 (fun rm => cvtLane (if rtz then .rtz else rm) src dst) vd va mk s

/-! ### Reduction (R142) -/

/-- The codes of every enabled lane or half. -/
def redCodes (ty : VType) (e : Word) (x : Vec) : List Nat :=
  (List.finRange 32).flatMap fun i =>
    if laneOn e i then (if ty = .bf16p then [loHalf x[i], hiHalf x[i]] else [x[i].toNat]) else []

/-- The value every enabled lane receives. -/
def reduceLanes (op : VRedOp) (ty : VType) (rm : RMode) (e : Word) (x : Vec) : LaneRes :=
  let cs := redCodes ty e x
  let fp (f : FFmt) : FRes :=
    match op with
    | .sum => f.sum .r89 rm (cs.map f.read)
    | .min => f.extreme false cs
    | .max => f.extreme true cs
  match ty with
  | .f32 => (fp fF32).lane
  | .bf16p => let r := fp fBf16; ⟨BitVec.ofNat 32 (r.bits * 65537), r.flags⟩
  | _ =>
    let ws := cs.map (BitVec.ofNat 32)
    match op, ws with
    | _, [] => .off
    | .sum, ws => .quiet (ws.foldl (· + ·) 0)
    | .min, w :: ws => .quiet (ws.foldl (intMin ty) w)
    | .max, w :: ws => .quiet (ws.foldl (intMax ty) w)

def execVred (op : VRedOp) (vd va : Fin 16) (mk : Fin 8) (ty : VType) (s : State) : Out :=
  let e := s.enabled mk
  if e = 0 then .next s
  else
    let r := reduceLanes op ty s.curCtx.rmode e (s.rv va)
    .next (s.vecResult 5 vd e (lanesOf e fun _ => r))

/-! ### Lane movement (R143) -/

def execVperm (vd va vb : Fin 16) (mk : Fin 8) (_ : VType) (s : State) : Out :=
  let x := s.rv va
  let y := s.rv vb
  let e := s.enabled mk
  .next (s.vecResult 3 vd e (lanesOf e fun i => .quiet x[Fin.ofNat 32 y[i].toNat]))
def execVmov (vd va : Fin 16) (mk : Fin 8) (_ : VType) (s : State) : Out :=
  vecUn 2 (fun _ a => .quiet a) vd va mk s
def execVext (vd va : Fin 16) (k : Fin 32) (_ : VType) (s : State) : Out :=
  vecMove (fun i => if i.val + k.val ≤ 31 then (s.rv va)[i + k] else 0) vd s
def execVins (vd va : Fin 16) (sk : Fin 32) (_ : VType) (s : State) : Out :=
  vecMove (fun i => if i = 0 then s.rs sk else (s.rv va)[i - 1]) vd s
def execVbcast (vd : Fin 16) (sk : Fin 32) (_ : VType) (s : State) : Out := vecMove (fun _ => s.rs sk) vd s
def execVmovi (vd : Fin 16) (imm : BitVec 17) (s : State) : Out := vecMove (fun _ => imm.signExtend 32) vd s

/-! ### Transcendental functions (R144) -/

def vecTrans (f : FFmt → RMode → Nat → FRes) (vd va : Fin 16) (mk : Fin 8) (ty : VType) (s : State) : Out :=
  vecUn 8 (fun rm a => fpLane ty (fun g x _ => f g rm x) a 0) vd va mk s

def execVexp2 (vd va : Fin 16) (mk : Fin 8) (ty : VType) (s : State) : Out := vecTrans FFmt.exp2 vd va mk ty s
def execVlog2 (vd va : Fin 16) (mk : Fin 8) (ty : VType) (s : State) : Out := vecTrans FFmt.log2 vd va mk ty s
def execVrcp (vd va : Fin 16) (mk : Fin 8) (ty : VType) (s : State) : Out := vecTrans FFmt.rcp vd va mk ty s
def execVrsqrt (vd va : Fin 16) (mk : Fin 8) (ty : VType) (s : State) : Out := vecTrans FFmt.rsqrt vd va mk ty s

/-! ### Masks and the mask stack (R145, R146) -/

def truth32 (tt : BitVec 4) (a b : Word) : Word := bitsOf fun i => truthBit tt (laneOn a i) (laneOn b i)
where truthBit (tt : BitVec 4) (a b : Bool) : Bool := tt.getLsbD (2 * a.toNat + b.toNat)

def execVmsk (tt : BitVec 4) (md ma mb : Fin 8) (s : State) : Out :=
  .next (s.result 1 (.m md (truth32 tt (s.rm ma) (s.rm mb))))

/-- A push at depth 8 overflows (R146). -/
def vmpushCause (s : State) : Option Cause :=
  if s.curCtx.stack.length ≥ 8 then some (causeOverflow 5 5 0) else none

def execVmpush (mk : Fin 8) (s : State) : Out :=
  match vmpushCause s with
  | some f => .next (s.issueFault s.cur.tile s.cur.ctx f)
  | none => .next (s.result 1 (.stack ((s.curCtx.top &&& s.rm mk) :: s.curCtx.stack)))

/-- The top of a stack inverted within the entry below it. -/
def invertTop : List Word → List Word
  | [] => []
  | e :: l => (l.headD (BitVec.allOnes 32) &&& ~~~e) :: l

def execVminv (s : State) : Out :=
  if s.curCtx.stack = [] then .next s else .next (s.result 1 (.stack (invertTop s.curCtx.stack)))
def execVmpop (s : State) : Out :=
  if s.curCtx.stack = [] then .next s else .next (s.result 1 (.stack s.curCtx.stack.tail))

end Sys2Proof.Machine
end

