-- ==== Sys2Proof/Machine/Dispatch.lean ====
section
/-! DEFINITION. One arm per instruction of spec/opcode_table.json, in its order. -/

namespace Sys2Proof.Machine

def exec (i : Instr) (s : State) : Host.Outcome State Fault Refusal :=
  match i with
  | .nop => Sys2Proof.Machine.execNop s
  | .br x0 => Sys2Proof.Machine.execBr x0 s
  | .brp x0 x1 x2 => Sys2Proof.Machine.execBrp x0 x1 x2 s
  | .brs x0 x1 x2 => Sys2Proof.Machine.execBrs x0 x1 x2 s
  | .bru x0 => Sys2Proof.Machine.execBru x0 s
  | .call x0 => Sys2Proof.Machine.execCall x0 s
  | .ret => Sys2Proof.Machine.execRet s
  | .loop x0 x1 => Sys2Proof.Machine.execLoop x0 x1 s
  | .loopReg x0 x1 => Sys2Proof.Machine.execLoopReg x0 x1 s
  | .halt => Sys2Proof.Machine.execHalt s
  | .trap x0 => Sys2Proof.Machine.execTrap x0 s
  | .eret => Sys2Proof.Machine.execEret s
  | .yield x0 => Sys2Proof.Machine.execYield x0 s
  | .waitc x0 x1 => Sys2Proof.Machine.execWaitc x0 x1 s
  | .waits x0 x1 => Sys2Proof.Machine.execWaits x0 x1 s
  | .waitsD x0 x1 => Sys2Proof.Machine.execWaitsD x0 x1 s
  | .waitt x0 x1 x2 => Sys2Proof.Machine.execWaitt x0 x1 x2 s
  | .waitcr x0 x1 => Sys2Proof.Machine.execWaitcr x0 x1 s
  | .waitrg x0 x1 => Sys2Proof.Machine.execWaitrg x0 x1 s
  | .waitrgFree x0 x1 => Sys2Proof.Machine.execWaitrgFree x0 x1 s
  | .waitb x0 x1 => Sys2Proof.Machine.execWaitb x0 x1 s
  | .waitbTag x0 x1 x2 => Sys2Proof.Machine.execWaitbTag x0 x1 x2 s
  | .waitph => Sys2Proof.Machine.execWaitph s
  | .phase x0 => Sys2Proof.Machine.execPhase x0 s
  | .fence x0 => Sys2Proof.Machine.execFence x0 s
  | .csrr x0 x1 => Sys2Proof.Machine.execCsrr x0 x1 s
  | .csrw x0 x1 => Sys2Proof.Machine.execCsrw x0 x1 s
  | .csrset x0 x1 => Sys2Proof.Machine.execCsrset x0 x1 s
  | .csrclr x0 x1 => Sys2Proof.Machine.execCsrclr x0 x1 s
  | .mxownRelease x0 => Sys2Proof.Machine.execMxownRelease x0 s
  | .blk x0 x1 => Sys2Proof.Machine.execBlk x0 x1 s
  | .pref x0 x1 x2 => Sys2Proof.Machine.execPref x0 x1 x2 s
  | .pin x0 x1 x2 => Sys2Proof.Machine.execPin x0 x1 x2 s
  | .unpin x0 x1 x2 => Sys2Proof.Machine.execUnpin x0 x1 x2 s
  | .add x0 x1 x2 => Sys2Proof.Machine.execAdd x0 x1 x2 s
  | .sub x0 x1 x2 => Sys2Proof.Machine.execSub x0 x1 x2 s
  | .and x0 x1 x2 => Sys2Proof.Machine.execAnd x0 x1 x2 s
  | .or x0 x1 x2 => Sys2Proof.Machine.execOr x0 x1 x2 s
  | .xor x0 x1 x2 => Sys2Proof.Machine.execXor x0 x1 x2 s
  | .andn x0 x1 x2 => Sys2Proof.Machine.execAndn x0 x1 x2 s
  | .shl x0 x1 x2 => Sys2Proof.Machine.execShl x0 x1 x2 s
  | .shr x0 x1 x2 => Sys2Proof.Machine.execShr x0 x1 x2 s
  | .sra x0 x1 x2 => Sys2Proof.Machine.execSra x0 x1 x2 s
  | .min x0 x1 x2 => Sys2Proof.Machine.execMin x0 x1 x2 s
  | .max x0 x1 x2 => Sys2Proof.Machine.execMax x0 x1 x2 s
  | .minu x0 x1 x2 => Sys2Proof.Machine.execMinu x0 x1 x2 s
  | .maxu x0 x1 x2 => Sys2Proof.Machine.execMaxu x0 x1 x2 s
  | .mov x0 x1 => Sys2Proof.Machine.execMov x0 x1 s
  | .clz x0 x1 => Sys2Proof.Machine.execClz x0 x1 s
  | .popc x0 x1 => Sys2Proof.Machine.execPopc x0 x1 s
  | .mul x0 x1 x2 => Sys2Proof.Machine.execMul x0 x1 x2 s
  | .mulh x0 x1 x2 => Sys2Proof.Machine.execMulh x0 x1 x2 s
  | .mulhu x0 x1 x2 => Sys2Proof.Machine.execMulhu x0 x1 x2 s
  | .sel x0 x1 x2 x3 => Sys2Proof.Machine.execSel x0 x1 x2 x3 s
  | .cmp x0 x1 x2 x3 => Sys2Proof.Machine.execCmp x0 x1 x2 x3 s
  | .cmpi x0 x1 x2 x3 => Sys2Proof.Machine.execCmpi x0 x1 x2 x3 s
  | .plog x0 x1 x2 x3 => Sys2Proof.Machine.execPlog x0 x1 x2 x3 s
  | .addi x0 x1 x2 => Sys2Proof.Machine.execAddi x0 x1 x2 s
  | .andi x0 x1 x2 => Sys2Proof.Machine.execAndi x0 x1 x2 s
  | .ori x0 x1 x2 => Sys2Proof.Machine.execOri x0 x1 x2 s
  | .xori x0 x1 x2 => Sys2Proof.Machine.execXori x0 x1 x2 s
  | .shli x0 x1 x2 => Sys2Proof.Machine.execShli x0 x1 x2 s
  | .shri x0 x1 x2 => Sys2Proof.Machine.execShri x0 x1 x2 s
  | .srai x0 x1 x2 => Sys2Proof.Machine.execSrai x0 x1 x2 s
  | .movi x0 x1 => Sys2Proof.Machine.execMovi x0 x1 s
  | .movhi x0 x1 => Sys2Proof.Machine.execMovhi x0 x1 s
  | .aadd x0 x1 x2 => Sys2Proof.Machine.execAadd x0 x1 x2 s
  | .aaddi x0 x1 x2 => Sys2Proof.Machine.execAaddi x0 x1 x2 s
  | .amov x0 x1 => Sys2Proof.Machine.execAmov x0 x1 s
  | .amovFromPair x0 x1 => Sys2Proof.Machine.execAmovFromPair x0 x1 s
  | .amovToScalar x0 x1 => Sys2Proof.Machine.execAmovToScalar x0 x1 s
  | .amovHi x0 x1 => Sys2Proof.Machine.execAmovHi x0 x1 s
  | .acmb x0 x1 x2 => Sys2Proof.Machine.execAcmb x0 x1 x2 s
  | .ldq x0 x1 x2 => Sys2Proof.Machine.execLdq x0 x1 x2 s
  | .vadd x0 x1 x2 x3 x4 => Sys2Proof.Machine.execVadd x0 x1 x2 x3 x4 s
  | .vsub x0 x1 x2 x3 x4 => Sys2Proof.Machine.execVsub x0 x1 x2 x3 x4 s
  | .vmul x0 x1 x2 x3 x4 => Sys2Proof.Machine.execVmul x0 x1 x2 x3 x4 s
  | .vfma x0 x1 x2 x3 x4 => Sys2Proof.Machine.execVfma x0 x1 x2 x3 x4 s
  | .vmin x0 x1 x2 x3 x4 => Sys2Proof.Machine.execVmin x0 x1 x2 x3 x4 s
  | .vmax x0 x1 x2 x3 x4 => Sys2Proof.Machine.execVmax x0 x1 x2 x3 x4 s
  | .vabs x0 x1 x2 x3 => Sys2Proof.Machine.execVabs x0 x1 x2 x3 s
  | .vneg x0 x1 x2 x3 => Sys2Proof.Machine.execVneg x0 x1 x2 x3 s
  | .vand x0 x1 x2 x3 x4 => Sys2Proof.Machine.execVand x0 x1 x2 x3 x4 s
  | .vor x0 x1 x2 x3 x4 => Sys2Proof.Machine.execVor x0 x1 x2 x3 x4 s
  | .vxor x0 x1 x2 x3 x4 => Sys2Proof.Machine.execVxor x0 x1 x2 x3 x4 s
  | .vshl x0 x1 x2 x3 x4 => Sys2Proof.Machine.execVshl x0 x1 x2 x3 x4 s
  | .vshr x0 x1 x2 x3 x4 => Sys2Proof.Machine.execVshr x0 x1 x2 x3 x4 s
  | .vsra x0 x1 x2 x3 x4 => Sys2Proof.Machine.execVsra x0 x1 x2 x3 x4 s
  | .vshlImm x0 x1 x2 x3 => Sys2Proof.Machine.execVshlImm x0 x1 x2 x3 s
  | .vshrImm x0 x1 x2 x3 => Sys2Proof.Machine.execVshrImm x0 x1 x2 x3 s
  | .vsraImm x0 x1 x2 x3 => Sys2Proof.Machine.execVsraImm x0 x1 x2 x3 s
  | .vcmp x0 x1 x2 x3 x4 x5 => Sys2Proof.Machine.execVcmp x0 x1 x2 x3 x4 x5 s
  | .vsel x0 x1 x2 x3 x4 => Sys2Proof.Machine.execVsel x0 x1 x2 x3 x4 s
  | .vcvt x0 x1 x2 x3 x4 x5 => Sys2Proof.Machine.execVcvt x0 x1 x2 x3 x4 x5 s
  | .vred x0 x1 x2 x3 x4 => Sys2Proof.Machine.execVred x0 x1 x2 x3 x4 s
  | .vperm x0 x1 x2 x3 x4 => Sys2Proof.Machine.execVperm x0 x1 x2 x3 x4 s
  | .vmov x0 x1 x2 x3 => Sys2Proof.Machine.execVmov x0 x1 x2 x3 s
  | .vext x0 x1 x2 x3 => Sys2Proof.Machine.execVext x0 x1 x2 x3 s
  | .vins x0 x1 x2 x3 => Sys2Proof.Machine.execVins x0 x1 x2 x3 s
  | .vbcast x0 x1 x2 => Sys2Proof.Machine.execVbcast x0 x1 x2 s
  | .vmovi x0 x1 => Sys2Proof.Machine.execVmovi x0 x1 s
  | .vexp2 x0 x1 x2 x3 => Sys2Proof.Machine.execVexp2 x0 x1 x2 x3 s
  | .vlog2 x0 x1 x2 x3 => Sys2Proof.Machine.execVlog2 x0 x1 x2 x3 s
  | .vrcp x0 x1 x2 x3 => Sys2Proof.Machine.execVrcp x0 x1 x2 x3 s
  | .vrsqrt x0 x1 x2 x3 => Sys2Proof.Machine.execVrsqrt x0 x1 x2 x3 s
  | .vmsk x0 x1 x2 x3 => Sys2Proof.Machine.execVmsk x0 x1 x2 x3 s
  | .vmpush x0 => Sys2Proof.Machine.execVmpush x0 s
  | .vminv => Sys2Proof.Machine.execVminv s
  | .vmpop => Sys2Proof.Machine.execVmpop s
  | .ldb x0 x1 x2 => Sys2Proof.Machine.execLdb x0 x1 x2 s
  | .ldbu x0 x1 x2 => Sys2Proof.Machine.execLdbu x0 x1 x2 s
  | .ldh x0 x1 x2 => Sys2Proof.Machine.execLdh x0 x1 x2 s
  | .ldhu x0 x1 x2 => Sys2Proof.Machine.execLdhu x0 x1 x2 s
  | .ldw x0 x1 x2 => Sys2Proof.Machine.execLdw x0 x1 x2 s
  | .ldv x0 x1 x2 => Sys2Proof.Machine.execLdv x0 x1 x2 s
  | .ldvs x0 x1 x2 x3 => Sys2Proof.Machine.execLdvs x0 x1 x2 x3 s
  | .ldvx x0 x1 x2 x3 => Sys2Proof.Machine.execLdvx x0 x1 x2 x3 s
  | .ldm x0 x1 x2 => Sys2Proof.Machine.execLdm x0 x1 x2 s
  | .ldacc x0 x1 x2 => Sys2Proof.Machine.execLdacc x0 x1 x2 s
  | .stb x0 x1 x2 => Sys2Proof.Machine.execStb x0 x1 x2 s
  | .sth x0 x1 x2 => Sys2Proof.Machine.execSth x0 x1 x2 s
  | .stw x0 x1 x2 => Sys2Proof.Machine.execStw x0 x1 x2 s
  | .stv x0 x1 x2 => Sys2Proof.Machine.execStv x0 x1 x2 s
  | .stvm x0 x1 x2 x3 => Sys2Proof.Machine.execStvm x0 x1 x2 x3 s
  | .stvs x0 x1 x2 x3 => Sys2Proof.Machine.execStvs x0 x1 x2 x3 s
  | .stvx x0 x1 x2 x3 => Sys2Proof.Machine.execStvx x0 x1 x2 x3 s
  | .stacc x0 x1 x2 => Sys2Proof.Machine.execStacc x0 x1 x2 s
  | .amo x0 x1 x2 x3 => Sys2Proof.Machine.execAmo x0 x1 x2 x3 s
  | .cas x0 x1 x2 => Sys2Proof.Machine.execCas x0 x1 x2 s
  | .prec x0 => Sys2Proof.Machine.execPrec x0 s
  | .pmaskRow x0 => Sys2Proof.Machine.execPmaskRow x0 s
  | .pmaskCol x0 => Sys2Proof.Machine.execPmaskCol x0 s
  | .wswap => Sys2Proof.Machine.execWswap s
  | .wld x0 x1 x2 x3 => Sys2Proof.Machine.execWld x0 x1 x2 x3 s
  | .mma x0 x1 x2 x3 x4 x5 => Sys2Proof.Machine.execMma x0 x1 x2 x3 x4 x5 s
  | .aclr x0 x1 => Sys2Proof.Machine.execAclr x0 x1 s
  | .ascl x0 x1 x2 => Sys2Proof.Machine.execAscl x0 x1 x2 s
  | .adrn x0 x1 x2 x3 x4 => Sys2Proof.Machine.execAdrn x0 x1 x2 x3 x4 s
  | .cpy x0 => Sys2Proof.Machine.execCpy x0 s
  | .cpyg x0 => Sys2Proof.Machine.execCpyg x0 s
  | .cpyx x0 => Sys2Proof.Machine.execCpyx x0 s
  | .cpyo x0 => Sys2Proof.Machine.execCpyo x0 s
  | .bdcl x0 x1 => Sys2Proof.Machine.execBdcl x0 x1 s
  | .brel x0 => Sys2Proof.Machine.execBrel x0 s
  | .publish x0 x1 => Sys2Proof.Machine.execPublish x0 x1 s
  | .reqpg x0 x1 x2 x3 => Sys2Proof.Machine.execReqpg x0 x1 x2 x3 s
  | .send x0 => Sys2Proof.Machine.execSend x0 s
  | .sendr x0 x1 => Sys2Proof.Machine.execSendr x0 x1 s
  | .recv x0 => Sys2Proof.Machine.execRecv x0 s
  | .coll x0 => Sys2Proof.Machine.execColl x0 s
  | .rgadv x0 x1 => Sys2Proof.Machine.execRgadv x0 x1 s
  | .rgpop x0 x1 => Sys2Proof.Machine.execRgpop x0 x1 s
  | .sig x0 x1 x2 => Sys2Proof.Machine.execSig x0 x1 x2 s
  | .tlsig x0 x1 => Sys2Proof.Machine.execTlsig x0 x1 s
  | .vwjoin x0 => Sys2Proof.Machine.execVwjoin x0 s
  | .vwleave x0 => Sys2Proof.Machine.execVwleave x0 s
  | .guardResolution x0 x1 => Sys2Proof.Machine.execGuardResolution x0 x1 s
  | .arbiterChoice x0 => Sys2Proof.Machine.execArbiterChoice x0 s
  | .rankAgeing x0 x1 => Sys2Proof.Machine.execRankAgeing x0 x1 s
  | .instructionCacheFill x0 => Sys2Proof.Machine.execInstructionCacheFill x0 s
  | .codeRegionFill x0 => Sys2Proof.Machine.execCodeRegionFill x0 s
  | .copyQueueStart x0 => Sys2Proof.Machine.execCopyQueueStart x0 s
  | .pageWalk x0 => Sys2Proof.Machine.execPageWalk x0 s
  | .copyRetire x0 x1 => Sys2Proof.Machine.execCopyRetire x0 x1 s
  | .heapWriteAcknowledgement x0 x1 => Sys2Proof.Machine.execHeapWriteAcknowledgement x0 x1 s
  | .eccWriteback x0 => Sys2Proof.Machine.execEccWriteback x0 s
  | .scrub x0 => Sys2Proof.Machine.execScrub x0 s
  | .mxuCommandHead x0 => Sys2Proof.Machine.execMxuCommandHead x0 s
  | .mxuStart x0 => Sys2Proof.Machine.execMxuStart x0 s
  | .adrnStart x0 => Sys2Proof.Machine.execAdrnStart x0 s
  | .mxuRetire x0 => Sys2Proof.Machine.execMxuRetire x0 s
  | .phaseFlagSet x0 x1 => Sys2Proof.Machine.execPhaseFlagSet x0 x1 s
  | .channelQueueStart x0 => Sys2Proof.Machine.execChannelQueueStart x0 s
  | .messageTransmitted x0 x1 => Sys2Proof.Machine.execMessageTransmitted x0 x1 s
  | .headerForward x0 x1 x2 => Sys2Proof.Machine.execHeaderForward x0 x1 x2 s
  | .sendArrival x0 x1 => Sys2Proof.Machine.execSendArrival x0 x1 s
  | .sendrArrival x0 x1 => Sys2Proof.Machine.execSendrArrival x0 x1 s
  | .sigArrival x0 x1 => Sys2Proof.Machine.execSigArrival x0 x1 s
  | .portSigArrival x0 x1 => Sys2Proof.Machine.execPortSigArrival x0 x1 s
  | .creditReturn x0 x1 => Sys2Proof.Machine.execCreditReturn x0 x1 s
  | .writeData x0 x1 => Sys2Proof.Machine.execWriteData x0 x1 s
  | .readRequest x0 x1 => Sys2Proof.Machine.execReadRequest x0 x1 s
  | .readData x0 x1 => Sys2Proof.Machine.execReadData x0 x1 s
  | .writeAcknowledgement x0 x1 => Sys2Proof.Machine.execWriteAcknowledgement x0 x1 s
  | .chunkArrival x0 x1 => Sys2Proof.Machine.execChunkArrival x0 x1 s
  | .collectiveComplete x0 x1 x2 => Sys2Proof.Machine.execCollectiveComplete x0 x1 x2 s
  | .timelineAdvance => Sys2Proof.Machine.execTimelineAdvance s
  | .heartbeat x0 => Sys2Proof.Machine.execHeartbeat x0 s
  | .heartbeatFrame x0 x1 x2 => Sys2Proof.Machine.execHeartbeatFrame x0 x1 x2 s
  | .suspicion x0 x1 => Sys2Proof.Machine.execSuspicion x0 x1 s
  | .waggleRound x0 => Sys2Proof.Machine.execWaggleRound x0 s
  | .propose x0 x1 x2 x3 x4 => Sys2Proof.Machine.execPropose x0 x1 x2 x3 x4 s
  | .ack x0 x1 x2 x3 => Sys2Proof.Machine.execAck x0 x1 x2 x3 s
  | .commit x0 x1 x2 => Sys2Proof.Machine.execCommit x0 x1 x2 s
  | .join x0 x1 => Sys2Proof.Machine.execJoin x0 x1 s
  | .packetArrival x0 x1 x2 x3 => Sys2Proof.Machine.execPacketArrival x0 x1 x2 x3 s
  | .packetAcknowledgement x0 x1 x2 => Sys2Proof.Machine.execPacketAcknowledgement x0 x1 x2 s
  | .retransmission x0 => Sys2Proof.Machine.execRetransmission x0 s
  | .remoteAtomic x0 => Sys2Proof.Machine.execRemoteAtomic x0 s
  | .remoteAtomicTimeout x0 => Sys2Proof.Machine.execRemoteAtomicTimeout x0 s
  | .linkLoss x0 x1 x2 => Sys2Proof.Machine.execLinkLoss x0 x1 x2 s
  | .portReset x0 => Sys2Proof.Machine.execPortReset x0 s
  | .shalt => Sys2Proof.Machine.execShalt s
  | .smov x0 x1 => Sys2Proof.Machine.execSmov x0 x1 s
  | .sadd x0 x1 x2 => Sys2Proof.Machine.execSadd x0 x1 x2 s
  | .saddi x0 x1 x2 => Sys2Proof.Machine.execSaddi x0 x1 x2 s
  | .sbr x0 x1 x2 => Sys2Proof.Machine.execSbr x0 x1 x2 s
  | .sjmp x0 => Sys2Proof.Machine.execSjmp x0 s
  | .swaitsem x0 x1 => Sys2Proof.Machine.execSwaitsem x0 x1 s
  | .ssigsem x0 x1 => Sys2Proof.Machine.execSsigsem x0 x1 s
  | .sxmitData x0 x1 x2 => Sys2Proof.Machine.execSxmitData x0 x1 x2 s
  | .sxmitAtomic x0 x1 x2 => Sys2Proof.Machine.execSxmitAtomic x0 x1 x2 s
  | .srecvWait x0 x1 x2 => Sys2Proof.Machine.execSrecvWait x0 x1 x2 s
  | .srecvPoll x0 x1 x2 => Sys2Proof.Machine.execSrecvPoll x0 x1 x2 s
  | .sreduce x0 x1 x2 x3 => Sys2Proof.Machine.execSreduce x0 x1 x2 x3 s
  | .sfwdIn x0 x1 x2 => Sys2Proof.Machine.execSfwdIn x0 x1 x2 s
  | .sfwdOut x0 x1 x2 => Sys2Proof.Machine.execSfwdOut x0 x1 x2 s
  | .splaneDrain x0 x1 x2 => Sys2Proof.Machine.execSplaneDrain x0 x1 x2 s
  | .splaneRestore x0 x1 x2 => Sys2Proof.Machine.execSplaneRestore x0 x1 x2 s
  | .splaneStatus x0 x1 x2 => Sys2Proof.Machine.execSplaneStatus x0 x1 x2 s
  | .sviewRead x0 x1 x2 => Sys2Proof.Machine.execSviewRead x0 x1 x2 s
  | .sviewWait x0 x1 x2 => Sys2Proof.Machine.execSviewWait x0 x1 x2 s
  | .sviewJoin x0 x1 x2 => Sys2Proof.Machine.execSviewJoin x0 x1 x2 s
  | .sviewLeave x0 x1 x2 => Sys2Proof.Machine.execSviewLeave x0 x1 x2 s
  | .faultDelivery x0 x1 => Sys2Proof.Machine.execFaultDelivery x0 x1 s
  | .faultRecord x0 x1 => Sys2Proof.Machine.execFaultRecord x0 x1 s
  | .preemptionRequest x0 x1 => Sys2Proof.Machine.execPreemptionRequest x0 x1 s
  | .preemption x0 x1 => Sys2Proof.Machine.execPreemption x0 x1 s
  | .contextSave x0 x1 => Sys2Proof.Machine.execContextSave x0 x1 s
  | .preemptionFreeze x0 x1 => Sys2Proof.Machine.execPreemptionFreeze x0 x1 s
  | .contextRestore x0 x1 => Sys2Proof.Machine.execContextRestore x0 x1 s
  | .migrationStart x0 => Sys2Proof.Machine.execMigrationStart x0 s
  | .migrationFreeze x0 => Sys2Proof.Machine.execMigrationFreeze x0 s
  | .migrationMove x0 => Sys2Proof.Machine.execMigrationMove x0 s
  | .migrationApprovalTimeout x0 => Sys2Proof.Machine.execMigrationApprovalTimeout x0 s
  | .tileLost x0 => Sys2Proof.Machine.execTileLost x0 s
  | .tileMapBroadcast x0 => Sys2Proof.Machine.execTileMapBroadcast x0 s
  | .tileMapCacheFill x0 => Sys2Proof.Machine.execTileMapCacheFill x0 s
  | .tlbInvalidation x0 x1 x2 => Sys2Proof.Machine.execTlbInvalidation x0 x1 x2 s
  | .pageService x0 x1 => Sys2Proof.Machine.execPageService x0 x1 s
  | .pageMigration x0 x1 x2 x3 x4 => Sys2Proof.Machine.execPageMigration x0 x1 x2 x3 x4 s
  | .pageMigrationCopy => Sys2Proof.Machine.execPageMigrationCopy s
  | .doorbell x0 x1 => Sys2Proof.Machine.execDoorbell x0 x1 s
  | .slotMap x0 => Sys2Proof.Machine.execSlotMap x0 s
  | .idleUnmap x0 => Sys2Proof.Machine.execIdleUnmap x0 s
  | .blockedUnmap x0 => Sys2Proof.Machine.execBlockedUnmap x0 s
  | .blockedReevaluation => Sys2Proof.Machine.execBlockedReevaluation s
  | .load x0 => Sys2Proof.Machine.execLoad x0 s
  | .launch x0 => Sys2Proof.Machine.execLaunch x0 s
  | .launchAdmission => Sys2Proof.Machine.execLaunchAdmission s
  | .launchStart x0 => Sys2Proof.Machine.execLaunchStart x0 s
  | .launchRetire x0 => Sys2Proof.Machine.execLaunchRetire x0 s
  | .completionTimelineAdvance => Sys2Proof.Machine.execCompletionTimelineAdvance s
  | .wait x0 => Sys2Proof.Machine.execWait x0 s
  | .signal x0 => Sys2Proof.Machine.execSignal x0 s
  | .copyh x0 => Sys2Proof.Machine.execCopyh x0 s
  | .fenceRecord x0 => Sys2Proof.Machine.execFenceRecord x0 s
  | .queueEnable x0 => Sys2Proof.Machine.execQueueEnable x0 s
  | .queueDisable x0 => Sys2Proof.Machine.execQueueDisable x0 s
  | .bar2Read x0 x1 => Sys2Proof.Machine.execBar2Read x0 x1 s
  | .bar2Write x0 x1 => Sys2Proof.Machine.execBar2Write x0 x1 s
  | .assistReply x0 => Sys2Proof.Machine.execAssistReply x0 s
  | .assistTimeout => Sys2Proof.Machine.execAssistTimeout s
  | .stagingWrite x0 x1 => Sys2Proof.Machine.execStagingWrite x0 x1 s
  | .firmwareSwitch x0 => Sys2Proof.Machine.execFirmwareSwitch x0 s
  | .securityVersionRaise x0 => Sys2Proof.Machine.execSecurityVersionRaise x0 s
  | .handoverHeartbeat => Sys2Proof.Machine.execHandoverHeartbeat s
  | .watchdogExpiry => Sys2Proof.Machine.execWatchdogExpiry s
  | .registerWrite x0 x1 x2 => Sys2Proof.Machine.execRegisterWrite x0 x1 x2 s
  | .boot => Sys2Proof.Machine.execBoot s
  | .partReset => Sys2Proof.Machine.execPartReset s
  | .throttleEvaluation => Sys2Proof.Machine.execThrottleEvaluation s
  | .thermalHold => Sys2Proof.Machine.execThermalHold s
  | .thermalRelease => Sys2Proof.Machine.execThermalRelease s
  | .timelineDelivery x0 => Sys2Proof.Machine.execTimelineDelivery x0 s
  | .scoutIllegalEncoding x0 => Sys2Proof.Machine.execScoutIllegalEncoding x0 s

end Sys2Proof.Machine
end

