-- ==== Sys2Proof/Machine/Issue.lean ====
section
/-! DEFINITION. The issue of a bundle (R19, R28 to R31, R41 to R45, R52, R150, R163, R175, R176, R221, R378): one attempt of
the context that holds a tile's issue width, and what the arbiter makes of it (R159). -/

namespace Sys2Proof.Machine

/-- One outcome after another. -/
def andThen (o : Out) (k : State → Out) : Out :=
  match o with
  | .next s => k s
  | .fault r => .fault r
  | .refused r => .refused r

/-! ### The words of a bundle -/

/-- The copy operands of an XFR instruction that captures slot 6 (R38). -/
def captures : Instr → Option CopyOps
  | .cpy c | .cpyg c | .cpyx c | .cpyo c => if c.f then some c else none
  | _ => none

def isMma : Instr → Bool
  | .mma _ _ _ _ _ _ => true
  | _ => false

/-- The transfers of R50. -/
def isTransfer : Instr → Bool
  | .br _ | .brp _ _ _ | .brs _ _ _ | .bru _ | .call _ | .ret | .eret => true
  | _ => false

/-- `F` = 1 over anything but an unguarded MMA in slot 6, or in CPYO (R38). -/
def captureBad (w6 : Nat) (i : Instr) : Bool :=
  match captures i with
  | none => false
  | some _ => (match i with
    | .cpyo _ => true
    | _ => false) || slotGuard w6 != 0 || !(decodeSlot 6 w6).any isMma

/-- The lowest-numbered slot that is illegal (R41). -/
def illegalCause (ws : List Nat) : Option Cause :=
  (List.range 8).findSome? fun k =>
    let w := ws.getD k 0
    let bad := match decodeSlot k w with
      | none => true
      | some i => k == 7 && captureBad (ws.getD 6 0) i
    if bad then some ⟨cIllegal, k, 0, BitVec.ofNat 32 w⟩ else none

/-- The illegal-encoding fault of a bundle; a transfer or LOOP in a delay bundle is one of slot 0 (R50, R154). -/
def State.illegal (s : State) (ws : List Nat) : Option Cause :=
  (illegalCause ws).map fun f =>
    match decodeCtl (ws.getD 0 0) with
    | some (.loop n k) => (delayCause (.loop n k) s).getD f
    | some (.loopReg r k) => (delayCause (.loopReg r k) s).getD f
    | some i => if isTransfer i then (delayCause i s).getD f else f
    | none => f

/-- The lowest reserved bit set in a LIVE bundle: its word (R44, R45, R375). -/
def liveCause (live : BitVec 256) : Option Cause :=
  let bad := live &&& ~~~fullMask
  ((List.range 256).find? fun i => bad.getLsbD i).map fun i => ⟨cIllegal, 0, 1, BitVec.ofNat 32 (live.toNat / 2 ^ (i / 32 * 32))⟩

/-! ### Faults at issue (R373) -/

/-- Causes of a control instruction. -/
def ctlCause (i : Instr) (s : State) : Option Cause :=
  if isTransfer i then transferCause i s else
  match i with
  | .loop n _ => loopCause i n.toNat s
  | .loopReg r _ => loopCause i (s.rs r).toNat s
  | _ => waitCause s.curTile.tableView i

/-- The fault that an instruction of slot k would raise at issue. -/
def slotCause (k : Nat) (i : Instr) (s : State) : Option Cause :=
  if k = 0 then ctlCause i s else
  match i with
  | .ldq _ base off => causeOf (ldqAccess base off s)
  | .vmpush _ => vmpushCause s
  | .cpy c => s.copyCause .cpy c
  | .cpyg c => s.copyCause .cpyg c
  | .cpyx c => s.copyCause .cpyx c
  | .cpyo c => s.copyCause .cpyo c
  | .bdcl _ _ | .brel _ | .publish _ _ => s.copyFull none false
  | .reqpg _ _ cn t => s.copyFull (tagOf t cn) false
  | .nop => none
  | _ => if k = 6 then (if s.curTile.owns s.cur.ctx then s.curTile.mxFull else none) else (memCause i s).or (chanIssueCause i s)

/-- The walk that a STATIC copy needs before its bundle can issue (R229). -/
def slotWalk (i : Instr) (s : State) : Option Nat :=
  match i with
  | .cpy c => s.copyWalk .cpy c
  | .cpyg c => s.copyWalk .cpyg c
  | .cpyx c => s.copyWalk .cpyx c
  | .cpyo c => s.copyWalk .cpyo c
  | _ => none

/-- The state in which slot k acts under a guard. -/
def State.atSlot (s : State) (k : Nat) (g : QGuard) : State := { s with cur := { s.cur with slot := k, guard := g } }

/-- Slots 1 to 5 read their guard on issue (R31). -/
def State.plainGuard (s : State) (w : Nat) : Option QGuard := if s.curCtx.guard (slotGuard w) then some .yes else none

/-- A slot whose guard is true takes its effect; a captured MMA waits for its copy (R31, R38). A matrix command of a
context that is not the owner is counted whatever its guard (R114). -/
def runSlot (ws : List Nat) (k : Nat) (s : State) : Out :=
  let w := ws.getD k 0
  match decodeSlot k w with
  | none => .next s
  | some i =>
    let taken := k == 6 && ((decodeSlot 7 (ws.getD 7 0)).bind captures).isSome
    if k < 6 then
      match s.plainGuard w with
      | some g => exec i (s.atSlot k g)
      | none => .next s
    else
      match s.curCtx.engineGuard (slotGuard (if taken then ws.getD 7 0 else w)) with
      | some g =>
        if taken then .next s
        else
          let mma : Option Instr := if k = 7 ∧ (captures i).isSome then decodeSlot 6 (ws.getD 6 0) else none
          let s := s.atSlot k g
          exec i { s with cur := { s.cur with follow := mma } }
      | none => .next (if k = 6 ∧ i ≠ .nop ∧ !s.curTile.owns s.cur.ctx then s.modCurTile fun t => t.count mxNotown 1 else s)

def runSlots (ws : List Nat) : List Nat → State → Out
  | [], s => .next s
  | k :: ks, s => andThen (runSlot ws k s) (runSlots ws ks)

/-- The state after an outcome, for looking ahead. -/
def peek (s : State) : Out → State
  | .next s => s
  | _ => s

/-- The state in which slot k is checked: the guards of slots 6 and 7 bind to what SA and SB write (R176); none when the guard
is false. -/
def State.checkAt (s : State) (ws : List Nat) (k : Nat) : Option State :=
  if k = 0 then some s
  else if k < 6 then (s.plainGuard (ws.getD k 0)).map fun g => s.atSlot k g
  else
    let k' := if k = 6 ∧ ((decodeSlot 7 (ws.getD 7 0)).bind captures).isSome then 7 else k
    let ahead := peek s (runSlots ws [1, 2] s)
    (ahead.curCtx.engineGuard (slotGuard (ws.getD k' 0))).map fun g => s.atSlot k g

/-- The fault of the lowest-numbered slot (R378 step 2). -/
def State.issueCause (s : State) (ws : List Nat) : Option Cause :=
  (List.range 8).findSome? fun k =>
    match decodeSlot k (ws.getD k 0), s.checkAt ws k with
    | some i, some c => slotCause k i c
    | _, _ => none

/-- The address a STATIC copy in slot 7 must walk first. -/
def State.issueWalk (s : State) (ws : List Nat) : Option Nat :=
  match decodeSlot 7 (ws.getD 7 0), s.checkAt ws 7 with
  | some i, some c => slotWalk i c
  | _, _ => none

/-- k of R221: the larger of the loads of slots 3 and 4 whose guard is true. -/
def State.bundleLoad (s : State) (ws : List Nat) : Nat :=
  [3, 4].foldl (fun (m : Nat) k => match decodeSlot k (ws.getD k 0), s.plainGuard (ws.getD k 0) with
    | some i, some _ => max m (accessLoad i s)
    | _, _ => m) 1

/-! ### After a bundle has issued -/

/-- A CSR write of OVRCNT: what it writes stands, and an overrun of its bundle is not counted (R171). -/
def writesOvrcnt : Instr → Bool
  | .csrw _ .ovrcnt | .csrset _ .ovrcnt | .csrclr _ .ovrcnt => true
  | _ => false

/-- A run overrun, and the pre-emption that a double one makes pending (R163). -/
def State.checkRun (s : State) (i : Instr) : State :=
  let x := s.curCtx
  match x.declAt with
  | none => s
  | some y =>
    let s := if !x.overrun ∧ y + x.run + 1 ≤ s.cur.tt then
        s.modCurTile fun t => (t.event 0x13 1).modCtx s.cur.ctx fun c =>
          { c with overrun := true, ovrcnt := if c.ovrcnt.toNat < 0xFFFF ∧ !writesOvrcnt i then c.ovrcnt + 1 else c.ovrcnt, status := c.status ||| 0x40 }
      else s
    if !x.overPre ∧ y + 2 * x.run + 1 ≤ s.cur.tt then s.modCur fun c => { c.request s.now true with overPre := true } else s

/-- An illegal target of the transfer that landed (R47, R150). -/
def State.checkLanding (s : State) (src : VAddr) : State :=
  let x := s.curCtx
  let tc : Option Nat :=
    if x.pc.toNat % 32 ≠ 0 then some 0 else if s.isLive s.curTile x x.pc then some 1
    else if !s.codeMaps s.curTile x x.pc then some 2 else none
  match tc with
  | none => s
  | some k =>
    let f : Cause := ⟨cTarget, 0, 0, fiTarget k⟩
    s.raise s.cur.tile s.cur.ctx (f.word true false) f.finfo src x.pc

/-- The bundle at `b` has looped back to a LIVE bundle, as the code stands in memory: an illegal target (R47). -/
def State.checkLoop (s : State) (b : VAddr) : State :=
  let x := s.curCtx
  if s.isLive s.curTile x x.pc then
    let f : Cause := ⟨cTarget, 0, 0, fiTarget 1⟩
    s.raise s.cur.tile s.cur.ctx (f.word true false) f.finfo b x.pc
  else s

/-- The bundle's end test goes back to the start of a level, where its control instruction lets the context go on (R153). -/
def State.loopsBack (before after : State) : Bool :=
  let nxt := succPc before.cur.pc before.cur.safe
  let start := (endTest before.cur.pc nxt before.curCtx.loops).2
  start != nxt && after.curCtx.pc == start && after.cur.landed.isNone

/-- TRAP and HALT act before the target is looked at (R50). -/
def endsHere : Instr → Bool
  | .trap _ | .halt => true
  | _ => false

/-- The issue width after an attempt: it stays, or the arbiter chooses on the next tick after a stop (R159). Guards of earlier
bundles resolve when the attempt has issued its bundle, or the context has stopped (R176). -/
def State.afterAttempt (s : State) (t : TileId) (c : Fin 4) (issued : Bool) : State :=
  let s := if (issued || (s.ctx t c).st != .active) && (s.tile t).guardsDue c s.now then s.first (.ev (.guardResolution t c)) else s
  s.modTile t fun x =>
    if (x.ctx c).st != .active then { x with arb := .choose (s.now + 1) }
    else match x.arb with
      | .choose _ => x
      | _ => { x with arb := .run c (s.now + 1) }

/-- The context keeps the issue width and attempts again on the next tick. -/
def State.keepWidth (s : State) (t : TileId) (c : Fin 4) (ev : Nat) : State :=
  s.modTile t fun x => { x.event ev 1 with arb := .run c (s.now + 1) }

/-- The bundle issues: slots 1 to 7, the end of its tick of task time, its control instruction. -/
def issueBundle (ws : List Nat) (i0 : Instr) (s : State) : Out :=
  let w := isWait i0
  let s0 : State := s.modCurTile fun t => { t with hold := none }
  andThen (if w then exec i0 s0 else .next s0) fun s =>
  andThen (runSlots ws [1, 2, 3, 4, 5, 6, 7] s) fun s =>
  andThen (let s := s.advance.atSlot 0 .yes; if w then .next s else exec i0 s) fun s =>
  let s := s.checkRun i0
  .next (if endsHere i0 then s else
    match s.cur.landed with
    | some src => s.checkLanding src
    | none => if s0.loopsBack s then s.checkLoop s.cur.pc else s)

/-! ### The attempt (R378) -/

/-- An instruction-cache miss holds the issue width (R175); its request waits while four are outstanding (R174). -/
def State.fetchMiss (s : State) (t : TileId) (c : Fin 4) (line : Nat) (zero : Bool) : State :=
  let x := s.tile t
  let s := if x.fetchFull || x.code.any fun r => !r.region && r.line == line then s else
    (s.modTile t fun x => { x with code := x.code ++ [⟨false, line, false, s.now + 1 + Config.codeLatency s.free, some c, false, zero⟩] }).bump
  s.keepWidth t c 0x04

/-- A page walk for a fetch holds the issue width in the same way (R175, R198). -/
def State.fetchWalk (s : State) (t : TileId) (c : Fin 4) (va : Nat) : State := (s.startWalk t c none va).keepWidth t c 0x04

/-- The walks that a context's bundle needed to be fetched or checked are done with. -/
def State.endWalks (s : State) (t : TileId) (c : Fin 4) : State :=
  if (s.tile t).walks.isEmpty then s else s.modTile t fun x => { x with walks := x.walks.filter fun w => !(w.ctx == c && w.cmd.isNone) }

/-- A fault of the attempt's bundle: it is delivered, or the context stops. -/
def State.attemptFault (s : State) (t : TileId) (c : Fin 4) (f : Cause) : State :=
  (((s.endWalks t c).modTile t fun x => { x with hold := none }).issueFault t c f).afterAttempt t c false

/-- Guards of earlier bundles resolve on the attempt of a wait, however it ends (R176). -/
def State.waitAttempt (s : State) (t : TileId) (c : Fin 4) (i0 : Instr) : State :=
  if isWait i0 && (s.tile t).guardsDue c s.now then s.first (.ev (.guardResolution t c)) else s

/-- The wait of a bundle fails: it retries on the next tick, or the arbiter chooses (R159). -/
def waitFails (i0 : Instr) (t : TileId) (c : Fin 4) (s : State) : Out :=
  andThen (exec i0 s) fun s =>
    let again := match (s.tile t).arb with
      | .retry _ => true
      | _ => false
    let s := s.modTile t fun x => { x with hold := none, arb := if again then .choose s.now else .retry c }
    let s := if again then s.first (.ev (.arbiterChoice t)) else s
    .next (s.waitAttempt t c i0)

/-- A bundle that has been fetched, with no fault of its encoding: steps 2 to 4 of R378. A bundle that is held for its banks
(R221) is checked on its issue tick alone (R220); a wait must hold before that. -/
def attemptBundle (ws : List Nat) (t : TileId) (c : Fin 4) (s : State) : Out :=
  match decodeCtl (ws.getD 0 0) with
  | none => .next s
  | some i0 =>
    let x := s.tile t
    let held := x.hold.any fun h => decide (s.now < h)
    let banks := x.hold.isNone && decide (1 < s.bundleLoad ws)
    if held then .next (s.keepWidth t c 0x05)
    else
    match (if banks then ctlCause i0 s else s.issueCause ws) with
    | some f => .next ((s.attemptFault t c f).waitAttempt t c i0)
    | none =>
      if isWait i0 ∧ ((x.ctx c).vcPending i0).isSome then
        .next (((s.first (.ev (.faultDelivery t c))).waitAttempt t c i0).modTile t (fun x => { x with hold := none }) |>.keepWidth t c 0)
      else if isWait i0 ∧ !x.tableView.waitHolds c i0 then waitFails i0 t c s
      else if banks then
        .next ((s.modTile t fun x => { x with hold := some (s.now + (s.bundleLoad ws - 1)) }).keepWidth t c 0x05)
      else
        match s.issueWalk ws with
        | some va =>
          .next ((s.startWalk t c none va).keepWidth t c 0)
        | none => andThen (issueBundle ws i0 s) fun s => .next ((s.endWalks t c).afterAttempt t c true)

/-- The attempt of a context: a reserved bit of the LIVE bundle just fetched, a pending fault, the fetch, the bundle. -/
def attempt (t : TileId) (c : Fin 4) (s : State) : Out :=
  let s := s.modCtx t c fun x => x.commitDue x.tt
  let x := s.ctx t c
  let delay := match x.xfer with
    | some f => 3 - f.count
    | none => 0
  let cur : Cur := { Cur.reset with tile := t, ctx := c, pc := x.pc, tt := x.tt, delay := delay }
  let s := { s with cur := cur }
  match x.liveDue.bind fun a => (liveCause x.live).map fun f => (a, f) with
  | some (a, f) =>
    let s := s.modCtx t c fun y => { y with liveDue := none }
    .next ((s.raise t c (f.word true false) f.finfo a a).afterAttempt t c false)
  | none =>
    let s := s.modCtx t c fun y => { y with liveDue := none }
    let x := s.ctx t c
    if !x.itNow && x.oldestFault.isSome then
      .next ((s.modTile t fun y => { y with hold := none, arb := .run c (s.now + 1) }).first (.ev (.faultDelivery t c)))
    else
      match s.fetch (s.tile t) c x.pc with
      | .unmapped => .next (s.attemptFault t c ⟨cTarget, 0, 0, fiTarget 2⟩)
      | .miss l z => .next (s.fetchMiss t c l z)
      | .walk va => .next (s.fetchWalk t c va)
      | .ok bs pas =>
        let ws := (List.range 8).map (slotWord bs)
        let safe := safeBit (ws.getD 0 0)
        let live : Fetch := if safe then s.fetch (s.tile t) c (x.pc + 32) else .ok [] []
        match live with
        | .miss l z => .next (s.fetchMiss t c l z)
        | .walk va => .next (s.fetchWalk t c va)
        | _ =>
          let (mask, more) : BitVec 256 × List Nat := match live with
            | .ok b ps => (BitVec.ofNat 256 (leNat b), ps)
            | _ => (0, [])
          let s := s.modTile t fun y => y.fetched c [x.pc, x.pc + 32] (pas ++ more) s.now
          let s := { s with cur := { cur with safe := safe } }
          match s.illegal ws with
          | some f => .next (s.attemptFault t c f)
          | none =>
            let held := s.modCtx t c fun y => { y with held := false }
            andThen (attemptBundle ws t c held) fun s =>
              .next (if safe ∧ (s.tile t).lastIssue = some (c, s.now) then s.modCtx t c fun y => { y with live := mask } else s)

/-- The issue of a tile on a tick (R19, R159). None of its contexts issues while the items of a restore are written (R384). -/
def issueTile (t : TileId) (s : State) : Out :=
  let s := s.noteReady t
  let some_ := (s.tile t).ctxs.toList.any fun c => c.readySince.isSome
  let choose (s : State) : Out := execArbiterChoice t s
  let writes := (s.restoring t).isSome
  let picked : Out := if writes then .next s else match (s.tile t).arb with
    | .idle => if some_ then choose s else .next s
    | .choose k => if k ≤ s.now then choose s else .next s
    | .run c _ => if (s.ctx t c).st != .active then choose (s.modTile t fun x => { x with arb := .choose s.now }) else .next s
    | .retry c => if (s.ctx t c).st != .active then choose (s.modTile t fun x => { x with arb := .choose s.now }) else .next s
  andThen picked fun s =>
  andThen (if writes then .next s else match (s.tile t).arb with
    | .run c go => if go ≤ s.now then attempt t c s else .next s
    | .retry c => attempt t c s
    | _ => .next s) fun s =>
  let issued := match (s.tile t).lastIssue with
    | some (_, k) => k == s.now
    | none => false
  .next (if some_ && !issued then s.modTile t fun x => x.event 0x03 1 else s)

end Sys2Proof.Machine
end

