-- ==== Sys2Proof/Machine/Tick.lean ====
section
/-! DEFINITION. A tick: what a reference tick and a comb tick set in motion, and in which order (R1, R2, R19, R26, R51, R179,
R180, R334, R350, R409, R410). -/

namespace Sys2Proof.Machine

/-! ### The front end, the queen core and the view units -/

/-- Event of a slot's head record; a malformed one goes to any of them (R394, R395). In a thermal hold only WAIT, SIGNAL and
FENCE proceed (R410). -/
def State.recordEvent (s : State) (k : Fin 32) : Option Move :=
  match s.headRecord k with
  | none => none
  | some (_, _, r) =>
    match recField r 0 1 with
    | 1 => if s.hold then none else some (.ev (.load k))
    | 2 => if s.hold then none else some (.ev (.launch k))
    | 3 => some (.ev (.wait k))
    | 4 => some (.ev (.signal k))
    | 5 => if s.hold then none else some (.ev (.copyh k))
    | _ => some (.ev (.fenceRecord k))

/-- Since when a mapped queue has been empty. -/
def State.noteEmpty (s : State) : State :=
  { s with slots := s.slots.map fun (x : HwSlot) =>
      match x.queue with
      | none => x
      | some q => if (s.queue q).qhead = (s.queue q).qtail then { x with emptyAt := x.emptyAt.or (some s.now) } else { x with emptyAt := none } }

/-- Slots: head records, unmapping, mapping (R279 to R282). The queen image writes no map while it is being replaced (R407). -/
def State.slotEvents (s : State) : List Move :=
  let each (f : Fin 32 → Option Move) : List Move := (List.finRange 32).filterMap f
  let launches := each fun k => match s.headRecord k with
    | some (_, _, r) => if recField r 0 1 = 2 ∧ !s.hold then some (.ev .launchAdmission) else none
    | none => none
  each s.recordEvent ++ launches.take 1 ++
  each (fun k => if s.slots[k].emptyAt.any (fun e => decide (e + 4096 ≤ s.now)) && !s.pendingQ.isEmpty then some (.ev (.idleUnmap k)) else none) ++
  each (fun k => if s.slots[k].blockedAt.any (fun b => decide (b + 2 ^ 20 ≤ s.now)) then some (.ev (.blockedUnmap k)) else none) ++
  (let mine := s.pendingQ.takeWhile fun q => !s.asking fnMap (slotBody q)
    if mine.isEmpty || s.fw.gap || s.assisted fnMap then [] else
    (((List.finRange 32).filter fun k => s.slots[k].queue.isNone).take mine.length).map fun k => .ev (.slotMap k))

/-- In assisted mapping the host is asked for the first pending queue's slot. -/
def State.askSlot (s : State) : State :=
  if s.assisted fnMap ∧ !s.fw.gap then
    match s.pendingQ with
    | q :: _ => if (List.finRange 32).any fun k => s.slots[k].queue.isNone then s.ask fnMap (slotBody q) else s
    | [] => s
  else s

/-- What firmware does on a tick of the comb: replies, pages, migrations, broadcasts. -/
def State.firmwareTick (s : State) : State :=
  let s := if s.fw.gap then s else s.keptReplies.migrateTick
  let tiles := s.tiles.map Prod.fst
  let pages := if s.fw.gap then [] else s.pageReqs.map fun r => Move.ev (.pageService (BitVec.ofNat 16 r.1) r.2.1)
  let evs : List Move :=
    (if !s.fw.gap && s.assists.any fun a => a.late s.now then [.ev .assistTimeout] else []) ++
    (if pages.isEmpty || Config.choice s.free % 2 = 1 then [] else pages) ++
    (if !s.fw.gap && s.moves.any fun m => m.ready s then [.ev .pageMigrationCopy] else []) ++
    ((tiles.filter fun t => s.broadcasts.any fun b => b.1 == t && decide (b.2.1 ≤ s.now)).map fun t => .ev (.tileMapBroadcast t)) ++
    (s.tiles.flatMap fun e => (List.finRange 4).filterMap fun c =>
      if (e.2.ctx c).ages s.now && !(e.2.arb == .run c s.now) then some (.ev (.rankAgeing e.1 c)) else none) ++
    (if s.now % 4096 = 0 then [.ev .blockedReevaluation] else [])
  let s := if pages.isEmpty then s else s.bump
  { s with agenda := s.agenda ++ evs }

/-- In assisted mode the host starts and relays a hive round; a request that is outstanding finishes in its mode (R320). At comb level the
queen core runs the round: none while it is being replaced, or in a thermal hold (R407, R410). -/
def State.roundEvent (s : State) (m : Move) : State × List Move :=
  match m with
  | .ev (.waggleRound sw) =>
    if (s.assisted fnWaggle || s.asking fnWaggle (swarmBody sw)) && ((s.swarm sw).any fun w => w.lvl) then
      (s.ask fnWaggle (swarmBody sw), [])
    else if (s.hold || s.fw.gap) && !(s.swarm sw).any fun w => w.lvl then (s, [])
    else (s, [m])
  | m => (s, [m])

/-- The view units on a reference tick. -/
def State.viewTick (s : State) : State :=
  let s := s.lateAcks
  s.swarmEvents.foldl (fun s m => let r := s.roundEvent m; { r.1 with agenda := r.1.agenda ++ r.2 }) s

/-- Power and the watchdog on a reference tick (R407, R409, R410); a die at 105 °C does not wait for the next evaluation. -/
def State.powerEvents (s : State) : List Move :=
  (if s.ref % 12500 = 0 || (s.thr != 16 && s.tsensf.any fun t => decide (105 ≤ t)) then [.ev .throttleEvaluation] else []) ++
  (if !s.hold && s.tsensf.any (fun t => decide (115 ≤ t)) then [.ev .thermalHold] else []) ++
  (if s.hold && s.tsensf.all (fun t => decide (t < 100)) then [.ev .thermalRelease] else []) ++
  (if s.fw.watchdog.any fun w => decide (w.1 ≤ s.ref) then [.ev .watchdogExpiry] else [])

/-- The front end on a reference tick; `comb` tells whether the comb clock ticked too. -/
def State.frontTick (s : State) (comb : Bool) : State :=
  let advances : List Move := if !s.fw.gap && s.advances.any (fun a => decide (a.due ≤ s.now)) then [.ev .timelineAdvance] else []
  let ends : List Move := if !s.fw.gap && s.tlAfter.any (fun e => decide (e.2.1 ≤ s.now)) then [.ev .completionTimelineAdvance] else []
  let s := s.dueRecords.settleUnmapped.noteEmpty.askSlot
  let s := { s with agenda := s.agenda ++ advances ++ ends ++ s.slotEvents }
  let s := s.postAssists
  let s := if comb then s.firmwareTick else s
  let s := s.viewTick
  { s with agenda := s.agenda ++ s.powerEvents }

/-! ### The comb -/

/-- A tile as a tick begins: what others wrote on the last tick is what this one reads (R164, R180). -/
def Tile.beginTick (t : Tile) (now : Nat) : Tile :=
  let t := { t with spmPrev := t.spm, errPrev := t.err, pmcPrev := t.pmc, pmselPrev := t.pmsel, mxownPrev := t.mxown, errLock := 0, pmcLock := 0,
                    portBusy := false, semClip := 0,
                    ctxs := t.ctxs.map fun (c : Context) => { c with phaseDue := c.phaseReady } }
  (((t.applyPublishes).settleAcm now).settleScales now |>.startRefetch now).event 0x01 1

/-- The array's release is due: its owner has ended or asked, and no command of it is queued (R114). With none queued as it asks,
the release falls on the next tick: DESIGN CHOICE, log 71. -/
def Tile.releaseDue (t : Tile) : Bool := t.ownV && t.ownRel && t.mxq.isEmpty && t.mxRun.isNone

/-- What comes before the issue of a comb tick. A launch retires on the tick after the HALT of its last task (R24, R415). -/
def State.earlyEvents (s : State) : List Move :=
  let rel := (s.tiles.filter fun e => e.2.releaseDue).map fun e => Move.ev (.mxownRelease e.1)
  ((s.launches.filter s.launchDone).map fun l => Move.ev (.launchRetire l.lid)) ++
  ((s.launches.filter fun l => l.st == .admitted && decide (l.used ≤ s.now)).map fun l => .ev (.launchStart l.lid)) ++
  ((s.tiles.filter fun e => s.deliveries.any fun d => d.tile == e.1 && decide (d.due ≤ s.now)).map fun e => .ev (.timelineDelivery e.1)) ++
  (s.tiles.flatMap fun e => s.preemptEvents e.1 e.2) ++ rel ++ (if rel.isEmpty then [] else [.ev .blockedReevaluation])

/-- The order in which the tiles use the forager ports: those with a promise that presses first, by its deadline (R14, R201; log 85). -/
def State.portOrder (s : State) : List TileId :=
  let hot := s.tiles.filterMap fun e => if e.2.pressed s.now then some (e.1, (e.2.flights.flatMap Flight.deadlines).foldl min (2 ^ 64)) else none
  (sortBy (fun a b => decide (a.2 ≤ b.2)) hot).map Prod.fst ++ (s.tiles.map Prod.fst).filter fun t => hot.all fun h => h.1 != t

/-- The parts of the tiles in order: issue, copy queue, array, slot accesses, engines, port, links. -/
def State.combMoves (s : State) : List Move :=
  let ts := s.tiles.map Prod.fst
  let phases := s.tiles.flatMap fun e => (List.finRange 4).filterMap fun c =>
    if (e.2.ctx c).phaseDue then some (Move.ev (.phaseFlagSet e.1 c)) else none
  ts.map Move.issue ++ phases ++ ts.map Move.copy ++ ts.map Move.array ++ ts.map Move.perform ++ ts.map Move.engines ++
    (if s.hostHeld.isEmpty then [] else [.host]) ++ s.portOrder.map Move.enginePort ++ ts.map Move.settle ++ ts.map Move.links ++ ts.map Move.transmit

/-- The next tick of the reference clock, and of the comb when the throttled clock ticks with it (R409). -/
def State.beginTick (s : State) : State :=
  let comb := !s.hold && decide (64 ≤ s.thrPhase + s.thr)
  let s : State := { s with
    ref := s.ref + 1, inputs := Config.freeInput s.free, free := s.free + 1, msix := [],
    thrPhase := if s.hold then s.thrPhase else (s.thrPhase + s.thr) % 64,
    ports := s.ports.map fun (p : Port) => { p with sent := [], cntLock := 0 } }
  let scouts := ((List.finRange 16).filter s.portOn).map Move.scout
  if comb then
    let now := if s.stage = .released then 0 else s.now + 1
    let s : State := { s with now := now, stage := .up, hbm := [], tiles := s.tiles.map fun (e : TileId × Tile) => (e.1, e.2.beginTick now) }
    { s with agenda := [.early, .comb, .front true] ++ scouts }
  else { s with agenda := .front false :: scouts }

/-- What reaches a part whose boot has failed: the sideband's part reset and its writes of the fields marked S (`ASSIST`, `EVCTL`,
`EVHEAD`, `WAFID`), and the sensors (R393, R402, R404). -/
def sideband : Stimulus → Bool
  | .event .partReset => true
  | .event (.registerWrite _ off data) =>
    [0x0008, 0x0148, 0x0150, 0x0160].any fun f => decide (f ≤ off) && decide (off + data.length ≤ f + 4)
  | .sensors _ _ _ => true
  | _ => false

/-- A tick of the reference clock in a part whose boot has failed: it stays as the failure left it (R404). -/
def State.idleTick (s : State) : State :=
  { s with ref := s.ref + 1, inputs := (Config.freeInput s.free).filter sideband, free := s.free + 1, msix := [] }

/-! ### Moves -/

/-- The array of a tile: the STACC row writes of the tick, its events one by one, then the rows of this tick. -/
def State.arrayTick (s : State) (t : TileId) : State :=
  let s := s.modTile t fun x => (x.performStaccs s.now).drainWait s.now
  match (s.tile t).arrayEvent t s.now with
  | some i => (s.first (.array t)).first (.ev i)
  | none => s.modTile t fun x => (x.arrayRows s.now).settleAcm s.now

/-- The instruction word at a scout's pc; one that holds an uncorrectable error reads as zero and is counted (R350). -/
def State.scoutWord (s : State) : List Byte × State := s.sramRead (4 * s.sc.pc) 4

/-- A scout runs the instruction at its pc (R350). -/
def scoutStep (s : State) : Out :=
  if s.sc.halted.isSome then .next s else
  let f := s.scoutWord
  match decodeScoutBytes f.1 with
  | some i => exec i f.2
  | none => exec (.scoutIllegalEncoding s.curPort) f.2

/-- A move of the agenda. -/
def runMove (m : Move) (s : State) : Out :=
  match m with
  | .ev i => exec i s
  | .comb => .next { s with agenda := s.combMoves ++ s.agenda }
  | .issue t => issueTile t s
  | .copy t => if ((s.tile t).copyReady s.now).isSome then exec (.copyQueueStart t) s else .next (s.lookAhead t)
  | .early =>
    let s := { s with agenda := s.earlyEvents ++ s.agenda }
    .next s.migrateEarly
  | .array t => .next ((s.noteFrozen t).arrayTick t)
  | .perform t => .next (s.modTile t fun x => (x.perform s.now).drainPort s.now)
  | .engines t =>
    let s := s.modTile t fun x => x.sequence s.now
    .next { s with agenda := (s.tile t).engineEvents t s.now ++ s.agenda }
  | .host => .next { s with agenda := s.hostHeld.map Move.ev ++ s.agenda, hostHeld := [] }
  | .enginePort t =>
    let s := (s.modTile t fun x => x.startOwns s.now).slipPromises t
    let s := (if s.copyPresses (s.tile t) then s else s.restorePort t).servePort t
    .next (if (s.tile t).portBusy then s else s.hiveServe t)
  | .settle t => .next (s.settleEngines t)
  | .links t =>
    let s := (s.modTile t fun x => x.receive s.now).holdComb t
    .next { s with agenda := (s.tile t).forwards t s.now ++ s.agenda }
  | .transmit t => .next (s.transmit t)
  | .scout p => scoutStep ({ s with curPort := p }.portTick p)
  | .front comb => .next (s.frontTick comb)

/-! ### Stimuli -/

/-- What may arrive from outside the part, or by a decision of firmware that the spec leaves open (log 5). -/
def fromOutside : Instr → Bool
  | .heartbeatFrame _ _ _ | .propose _ _ _ _ _ | .ack _ _ _ _ | .commit _ _ _ | .join _ _ | .packetArrival _ _ _ _
  | .packetAcknowledgement _ _ _ | .linkLoss _ _ _ | .portReset _ | .migrationStart _ | .pageMigration _ _ _ _ _
  | .registerWrite _ _ _ | .bar2Read _ _ | .bar2Write _ _ | .preemptionRequest _ _ | .contextRestore _ _ | .tileLost _
  | .tlbInvalidation _ _ _ | .handoverHeartbeat | .partReset => true
  | _ => false

/-- Another wafer's request to leave: the rounds this wafer starts exclude it (R333, log 44). -/
def State.leaveRequest (s : State) (sw : Fin 256) (src : BitVec 16) : State :=
  let s := s.heard sw src
  match s.swarm sw with
  | none => s
  | some w =>
    match w.roster.findIdx? (fun e => present e && (e.setWidth 16 == src)) with
    | some i => if w.leave.contains i then s else s.modSwarm sw.val fun w => { w with leave := w.leave ++ [i] }
    | none => s

/-- Result bytes from another wafer enter the anchor as travelling-on chunks, where it still runs the instance (R337). -/
def State.resultArrival (s : State) (sw : Fin 256) (src : BitVec 16) (p : ResultPart) : State :=
  let s := s.heard sw src
  match s.swarm sw with
  | none => s
  | some w =>
    let t := w.tileOf 0
    match (s.tile t).seqOfRun p.ch p.inst with
    | none => s
    | some (_, r) =>
      let r : CollRun := { r with mode := .finishing, vt := p.vt }
      s.modTile t fun x => x.feed true s.now (fwdChunks r p.start (elemsOf (r.e == 16) p.data))

/-- A line with a parity error leaves the instruction cache, counts `ECC_CE` and is fetched again with its pin (R186). -/
def Tile.lineParity (t : Tile) (line latency : Nat) : Tile :=
  match t.icache.find? fun x => x.tag == line with
  | none => t
  | some l =>
    (({ t with icache := t.icache.filter fun x => x.tag != line } : Tile).count eccCE 1).refetchLine line l.pinned false latency

/-- A flit that arrives on this tick with a failed check has a payload of zeros and counts `BAD_DATA` (R287). -/
def Tile.flitError (t : Tile) (laneR : Bool) (i : Fin 6) (now : Nat) : Tile :=
  let due (n : Input) : Option Nat := n.wire.findIdx? fun w => decide (w.1 ≤ now)
  match due (if laneR then t.inR[i] else t.inC[i]) with
  | none => t
  | some k => (t.setInput laneR i fun n => { n with wire := n.wire.modify k fun w => (w.1, { w.2 with data := 0 }) }).count badData 1

/-- Decisions of the queen core. While it is being replaced what a new image writes is discarded, and in a thermal hold the comb they
concern stands still, so none is taken then (R407, R410; log 5). -/
def queenDecision : Instr → Bool
  | .migrationStart _ | .pageMigration _ _ _ _ _ | .preemptionRequest _ _ | .contextRestore _ _ | .tileLost _
  | .tlbInvalidation _ _ _ => true
  | _ => false

/-- The optical port that a frame or a link event comes to. -/
def stimulusPort : Instr → Option (Fin 16)
  | .heartbeatFrame p _ _ | .packetArrival p _ _ _ | .packetAcknowledgement p _ _ | .linkLoss p _ _ | .portReset p => some p
  | _ => none

/-- A frame of the waggle: what its round writes in the anchor is seen from the next tick on (R427), so it acts as the tick ends. -/
def hiveFrame : Instr → Bool
  | .propose _ _ _ _ _ | .ack _ _ _ _ | .commit _ _ _ | .join _ _ => true
  | _ => false

/-- A host access finds its way in: a register write through its link, or the sideband, and BAR2 through any link (R390, R402). -/
def State.linkUp (s : State) : Stimulus → Bool
  | .event (.registerWrite l off data) => s.links[l] || sideband (.event (.registerWrite l off data))
  | .event (.bar2Read _ _) | .event (.bar2Write _ _) => s.links.any id
  | _ => true

/-- A stimulus acts. Nothing comes to a port that the part lacks (R27), nor over a PCIe link that has not trained (R390); a part whose
boot has failed is reached by the sideband alone (R404). -/
def runStimulus (i : Stimulus) (s : State) : Out :=
  if !s.linkUp i || (s.stage == .failed && !sideband i) then .next s else
  match i with
  | .event (.bar2Read a n) => .next (s.holdHost (.bar2Read a n))
  | .event (.bar2Write a data) => .next (s.holdHost (.bar2Write a data))
  | .event i =>
    if !fromOutside i || (queenDecision i && (s.fw.gap || s.hold)) || (stimulusPort i).any (fun p => !s.portOn p) then .next s
    else if hiveFrame i then .next { s with agenda := s.agenda ++ [.ev i] } else exec i s
  | .leave sw src => .next (s.leaveRequest sw src)
  | .result sw src r => .next (s.resultArrival sw src r)
  | .upset t u => .next (s.modTile t fun x =>
      { x with upsets := x.upsets.filter (fun v => !(v.mem == u.mem && v.addr == u.addr)) ++ [u] })
  | .heapUpset w => .next { s with heapBad := if s.heapBad.contains w then s.heapBad else s.heapBad ++ [w] }
  | .sramUpset p w => .next (s.modPort p fun x =>
      { x with scout := { x.scout with bad := if x.scout.bad.contains w then x.scout.bad else x.scout.bad ++ [w] } })
  | .parity t l => .next ((s.modTile t fun x => x.lineParity l (1 + Config.codeLatency s.free)).bump)
  | .flitError t r i => .next (s.modTile t fun x => x.flitError r i s.now)
  | .sensors tf th watts => .next { s with tsensf := tf, tsensh := th, power := watts }
  | .hostWrite a data => .next (s.hostWrite a data)

end Sys2Proof.Machine
end

