-- ==== Sys2Proof/Machine/Step.lean ====
section
/-! DEFINITION. The step: what a stimulus has set off, the next stimulus that has arrived, else the next move of the tick, else the
next tick. One step runs
at most one instruction of the opcode table, or one bundle. How a program comes to run from State.reset is in log 10. -/

namespace Sys2Proof.Machine

/-- An event that the last stimulus has set off, or the boot sequence: it comes before the next stimulus (R393, R404). -/
def State.follows (s : State) : Bool :=
  match s.agenda with
  | .ev _ :: _ => true
  | _ => false

/-- One step of the part. -/
def step (s : State) : Host.Outcome State Fault Refusal :=
  match (if s.follows then [] else s.inputs) with
  | i :: rest => runStimulus i { s with inputs := rest }
  | [] =>
    match s.agenda with
    | m :: rest => runMove m { s with agenda := rest }
    | [] => .next (if s.stage = .failed then s.idleTick else s.beginTick)

/-- A word stored where step fetches next: in the SRAM of scout 0, at its pc, with that scout running and next to move. The
other instructions of the table are no words of a program memory that a program counter walks: a tile's slots are fetched as
whole bundles, and events have no encoding (log 10). -/
def State.withFetchWord (s : State) (nbits w : Nat) : State :=
  let p := s.port 0
  let a := 4 * p.scout.pc
  let bs := leBytes 4 (if nbits = 32 then w else w % 2 ^ nbits)
  { s.modPort 0 (fun p => { p with scout := { p.scout with
      sram := p.scout.sram.writeN a bs, bad := p.scout.bad.filter (· != p.scout.pc), halted := none, busy := none, waitVt := none } }) with
    stage := .up, inputs := [], agenda := [.scout 0], curPort := 0 }

end Sys2Proof.Machine
end

