-- ==== Sys2Proof/Safety.lean ====
section
/-! DEFINITION. What the model's statements call a good state, and the few notions in which they speak. -/

namespace Sys2Proof.Machine

/-- Every memory of the part is in its canonical form: scratchpads, scouts' SRAM, the heap, host memory, flash. -/
def State.memOk (s : State) : Bool :=
  s.heap.wf && s.host.wf && s.tiles.all (fun e => e.2.spm.wf && e.2.spmPrev.wf) && (s.ports.toList.all fun p => p.scout.sram.wf) &&
    s.fw.banks.toList.all fun b => b.all Memory.wf

/-- The instruction answers a next state. -/
def Completes (o : Out) : Prop := ∃ t, o = .next t

/-- The register files of the acting context as its bundle at task tick `n` reads them: every pending result due by then has
taken its place (R4, R48). -/
def State.regsAt (s : State) (n : Nat) : Context := s.curCtx.commitDue n

/-- Every pending result of the acting context comes from an earlier bundle, or from an earlier slot of this one. -/
def State.inOrder (s : State) : Prop :=
  ∀ x ∈ s.curCtx.pend, x.tt < s.cur.tt ∨ (x.tt = s.cur.tt ∧ x.slot ≤ s.cur.slot)

/-- Two states that differ in nothing but the tiles. -/
def State.sameButTiles (s t : State) : Prop := { t with tiles := s.tiles } = s

/-- A vector instruction leaves one pending result: after `lat` task ticks each lane that `e` enables holds what `f` gives,
and the other lanes keep their value. -/
def State.leavesLanes (s : State) (o : Out) (lat : Nat) (vd : Fin 16) (e : Word) (f : Fin 32 → Word) : Prop :=
  ∃ r : Vec, o = .next (s.result lat (.v vd e r)) ∧ ∀ k : Fin 32, e.getLsbD k.val = true → r[k] = f k

/-- As `leavesLanes`, with the flags that the enabled lanes raise. -/
def State.leavesFloatLanes (s : State) (o : Out) (lat : Nat) (vd : Fin 16) (e : Word) (f : Fin 32 → LaneRes) : Prop :=
  ∃ r : Vector LaneRes 32, o = .next (s.vecResult lat vd e r) ∧
    ∀ k : Fin 32, r[k] = if e.getLsbD k.val = true then f k else LaneRes.off

/-- An access of the LD or ST slot waits in the tile: the state with one pending read more. -/
def State.withRead (s : State) (r : PendRead) : State := s.modCurTile fun t => { t with reads := t.reads ++ [r] }
/-- The state with one pending store more. -/
def State.withStore (s : State) (w : PendWrite) : State := s.modCurTile fun t => { t with writes := t.writes ++ [w] }

/-- A bundle address of the acting context, some bundles of 32 bytes away (R29, R50). -/
def State.bundleAt (s : State) (off : Int) : VAddr := s.cur.pc + BitVec.ofInt 48 (32 * off)

/-- The acting context's transfer and loops, as a branch that starts here leaves them (R50, R154). -/
def State.branches (s : State) (taken : Bool) (target : VAddr) : State :=
  s.modCur fun c => { c with xfer := some ⟨target, 2, taken, false, s.cur.pc⟩,
                             loops := if taken then closeLevels s.cur.pc target c.loops else c.loops }

/-- A slot-7 instruction joins the channel queue: one command more, with its line in the ledger of unretired commands. -/
def State.queuesChannel (s : State) (o : Out) (op : ChOp) (tag : Option (Fin 16)) (coll : Bool) : Prop :=
  ∃ t q, o = .next t ∧ t.curTile.chq = s.curTile.chq ++ [q] ∧ q.op = op ∧ q.ctx = s.cur.ctx ∧ q.guard = s.cur.guard ∧
    t.curTile.live = s.curTile.live ++ [⟨q.id, s.cur.ctx, 2, tag, coll, false⟩] ∧
    ∀ k, t.curCtx.cnt[k] = s.curCtx.cnt[k] + (if tag = some k ∧ s.cur.guard = .yes then 1 else 0)

/-- A slot-7 instruction joins the copy queue. -/
def State.queuesCopy (s : State) (o : Out) (op : CopyOp) (tag : Option (Fin 16)) (wack : Bool) : Prop :=
  ∃ t q, o = .next t ∧ t.curTile.cpq = s.curTile.cpq ++ [q] ∧ q.op = op ∧ q.ctx = s.cur.ctx ∧ q.guard = s.cur.guard ∧
    t.curTile.live = s.curTile.live ++ [⟨q.id, s.cur.ctx, 1, tag, false, wack⟩] ∧
    t.curCtx.wack = s.curCtx.wack + (if wack ∧ s.cur.guard = .yes then 1 else 0) ∧
    ∀ k, t.curCtx.cnt[k] = s.curCtx.cnt[k] + (if tag = some k ∧ s.cur.guard = .yes then 1 else 0)

/-- A slot-6 instruction joins the MXU queue. -/
def State.queuesMatrix (s : State) (o : Out) (op : MxOp) : Prop :=
  ∃ t q, o = .next t ∧ t.curTile.mxq = s.curTile.mxq ++ [q] ∧ q.op = op ∧ q.ctx = s.cur.ctx ∧ q.tt = s.cur.tt ∧
    q.guard = s.cur.guard ∧ t.curTile.live = s.curTile.live ++ [⟨q.id, s.cur.ctx, 0, none, false, false⟩]

/-! ### Exact numbers (R77, R89 to R93) -/

/-- What a floating-point code stands for: a NaN, an infinity with its sign, or a rational number with its sign. -/
inductive Exact where
  | nan (sig : Bool)
  | inf (neg : Bool)
  | fin (neg : Bool) (q : ℚ)
  deriving DecidableEq, Repr

/-- The value of a magnitude code of an IEEE format (R77); beyond the finite codes, as if exponents went on. -/
def FFmt.mag (f : FFmt) (m : Nat) : ℚ :=
  if m / 2 ^ f.fb = 0 then (m : ℚ) * 2 ^ (1 - (f.bias : ℤ) - f.fb)
  else ((2 ^ f.fb + m % 2 ^ f.fb : ℕ) : ℚ) * 2 ^ (((m / 2 ^ f.fb : ℕ) : ℤ) - f.bias - f.fb)

/-- The number of a floating-point code (R77, R78): a NaN of FP32, BF16 or FP16 signals when its top fraction bit is 0, E4M3 has
one NaN of each sign and no infinity, E3M2, E2M3 and E2M1 have neither. -/
def FFmt.num (f : FFmt) (x : Nat) : Exact :=
  let m := x % 2 ^ (f.eb + f.fb)
  let s := decide (x / 2 ^ (f.eb + f.fb) % 2 = 1)
  let top := (2 ^ f.eb - 1) * 2 ^ f.fb
  let finite := Exact.fin s (if s = true then -f.mag m else f.mag m)
  match f.sp with
  | .ieee =>
    if top < m then .nan (decide (16 ≤ f.width) && decide (m / 2 ^ (f.fb - 1) % 2 = 0)) else if m = top then .inf s else finite
  | .top => if m = 2 ^ (f.eb + f.fb) - 1 then .nan false else finite
  | .none => finite

/-- Whether a magnitude `v`, which lies between those of the codes m (`lo`) and m + 1 (`hi`), rounds to `hi` (R90). -/
def roundsAway (rm : RMode) (neg : Prop) (m : Nat) (lo v hi : ℚ) : Prop :=
  match rm with
  | .rne => lo + hi < 2 * v ∨ (lo + hi = 2 * v ∧ m % 2 = 1)
  | .rtz => False
  | .rdn => neg ∧ lo < v
  | .rup => ¬ neg ∧ lo < v

/-- `r` is the exact value `v` rounded once to the format, with its flags (R89, R90, R92). -/
def FFmt.rounds (f : FFmt) (rm : RMode) (v : ℚ) (r : FRes) : Prop :=
  ∃ m q : Nat, f.mag m ≤ |v| ∧ |v| < f.mag (m + 1) ∧
    (roundsAway rm (v < 0) m (f.mag m) |v| (f.mag (m + 1)) ∧ q = m + 1 ∨
      ¬ roundsAway rm (v < 0) m (f.mag m) |v| (f.mag (m + 1)) ∧ q = m) ∧
    if q < (2 ^ f.eb - 1) * 2 ^ f.fb then
      r.bits = f.sign (decide (v < 0)) + q ∧ r.flags.nv = false ∧ r.flags.dz = false ∧ r.flags.of_ = false ∧
        r.flags.nx = decide (f.mag m ≠ |v|) ∧ (q < 2 ^ f.fb → r.flags.uf = r.flags.nx) ∧ (2 ^ f.fb < q → r.flags.uf = false) ∧
        (r.flags.uf = true → r.flags.nx = true)
    else r.bits = f.overflow (decide (v < 0)) rm ∧ r.flags = ⟨false, false, true, false, true⟩

/-- `r` is the result whose exact value is `n`: a NaN is the canonical one and raises `NV` where `n` says so. -/
def FFmt.gives (f : FFmt) (rm : RMode) (n : Exact) (r : FRes) : Prop :=
  match n with
  | .nan s => r = ⟨f.nan, Flags.sig s⟩
  | .inf s => r = ⟨f.inf s, Flags.none⟩
  | .fin s q => if q = 0 then r = ⟨f.zero s, Flags.none⟩ else f.rounds rm q r

def Exact.isNan : Exact → Bool
  | .nan _ => true
  | _ => false

def Exact.isSig : Exact → Bool
  | .nan s => s
  | _ => false

def Exact.negative : Exact → Bool
  | .nan _ => false
  | .inf s => s
  | .fin s _ => s

/-- The rational of a finite number; 0 of the others. -/
def Exact.rat : Exact → ℚ
  | .fin _ q => q
  | _ => 0

def Exact.neg : Exact → Exact
  | .nan s => .nan s
  | .inf s => .inf (!s)
  | .fin s q => .fin (!s) (-q)

/-- Multiplication of IEEE 754; 0 × ∞ is invalid (R92). -/
def Exact.mul : Exact → Exact → Exact
  | .nan s, .nan t => .nan (s || t)
  | .nan s, _ => .nan s
  | _, .nan t => .nan t
  | .inf s, .inf t => .inf (s != t)
  | .inf s, .fin t q => if q = 0 then .nan true else .inf (s != t)
  | .fin s q, .inf t => if q = 0 then .nan true else .inf (s != t)
  | .fin s p, .fin t q => .fin (s != t) (p * q)

/-- Addition of IEEE 754; ∞ − ∞ is invalid, and an exact sum of zero keeps a common sign, else is −0 only under RDN. -/
def Exact.add (rm : RMode) : Exact → Exact → Exact
  | .nan s, .nan t => .nan (s || t)
  | .nan s, _ => .nan s
  | _, .nan t => .nan t
  | .inf s, .inf t => if s = t then .inf s else .nan true
  | .inf s, .fin _ _ => .inf s
  | .fin _ _, .inf t => .inf t
  | .fin s p, .fin t q => .fin (if s = t then s else decide (rm = .rdn)) (p + q)

/-- a < b, false of a NaN; −0 and +0 are equal. -/
def Exact.lt : Exact → Exact → Prop
  | .nan _, _ => False
  | _, .nan _ => False
  | .inf s, .inf t => s = true ∧ t = false
  | .inf s, .fin _ _ => s = true
  | .fin _ _, .inf t => t = false
  | .fin _ p, .fin _ q => p < q

/-- a before b in the order of VMIN and VMAX, where −0 is below +0 (R91). -/
def Exact.before (a b : Exact) : Prop := a.lt b ∨ (¬ b.lt a ∧ a.negative = true ∧ b.negative = false)

/-- `r` is VMIN's or VMAX's choice of two codes (R91). -/
def FFmt.chooses (f : FFmt) (isMax : Bool) (u v : Nat) (r : FRes) : Prop :=
  let a := f.num u
  let b := f.num v
  r.flags = Flags.sig (a.isSig || b.isSig) ∧ (a.isNan = true → r.bits = if b.isNan = true then f.nan else v) ∧
    (a.isNan = false → b.isNan = true → r.bits = u) ∧
    (a.isNan = false → b.isNan = false →
      ((if isMax = true then a.before b else b.before a) → r.bits = v) ∧
      (¬ (if isMax = true then a.before b else b.before a) → r.bits = u))

/-- The exact sum of many values under R89: special values on the whole sum at once. -/
def Exact.total (rm : RMode) (l : List Exact) : Exact :=
  let both := decide (Exact.inf false ∈ l ∧ Exact.inf true ∈ l)
  if l.any Exact.isNan || both then .nan (l.any Exact.isSig || both)
  else if Exact.inf false ∈ l then .inf false
  else if Exact.inf true ∈ l then .inf true
  else .fin (decide (rm = .rdn) || l.all Exact.negative) (l.map Exact.rat).sum

/-- `i` is the rational q rounded to an integer (R93). -/
def intRounds (rm : RMode) (q : ℚ) (i : ℤ) : Prop :=
  (0 ≤ q → 0 ≤ i) ∧ (q ≤ 0 → i ≤ 0) ∧
    (roundsAway rm (q < 0) ⌊|q|⌋₊ ⌊|q|⌋₊ |q| (⌊|q|⌋₊ + 1) ∧ i.natAbs = ⌊|q|⌋₊ + 1 ∨
      ¬ roundsAway rm (q < 0) ⌊|q|⌋₊ ⌊|q|⌋₊ |q| (⌊|q|⌋₊ + 1) ∧ i.natAbs = ⌊|q|⌋₊)

/-- `r` is a float code converted to an integer of the range lo to hi (R93). -/
def FFmt.toInteger (f : FFmt) (rm : RMode) (lo hi : ℤ) (u : Nat) (r : LaneRes) : Prop :=
  match f.num u with
  | .nan _ => r = ⟨0, Flags.invalid⟩
  | .inf s => r = ⟨BitVec.ofInt 32 (if s = true then lo else hi), Flags.invalid⟩
  | .fin _ q => ∃ i, intRounds rm q i ∧ r = if i < lo then ⟨BitVec.ofInt 32 lo, Flags.invalid⟩ else if hi < i then ⟨BitVec.ofInt 32 hi, Flags.invalid⟩
      else ⟨BitVec.ofInt 32 i, if (i : ℚ) = q then Flags.none else Flags.inexact⟩

/-- A relation of VCMP between numbers (R139). -/
def Exact.rel (c : VCond) (a b : Exact) : Prop :=
  let un := a.isNan = true ∨ b.isNan = true
  match c with
  | .eq => ¬ un ∧ ¬ a.lt b ∧ ¬ b.lt a
  | .ne => un ∨ a.lt b ∨ b.lt a
  | .lt => a.lt b
  | .le => ¬ un ∧ ¬ b.lt a
  | .gt => b.lt a
  | .ge => ¬ un ∧ ¬ a.lt b
  | .uo => un

/-- Whether that relation raises `NV`. -/
def Exact.relInvalid (c : VCond) (a b : Exact) : Bool :=
  match c with
  | .eq | .ne | .uo => a.isSig || b.isSig
  | .lt | .le | .gt | .ge => a.isNan || b.isNan

/-- A relation of VCMP between integers. -/
def intRel (c : VCond) (a b : ℤ) : Prop :=
  match c with
  | .eq => a = b
  | .ne => a ≠ b
  | .lt => a < b
  | .le => a ≤ b
  | .gt => b < a
  | .ge => b ≤ a
  | .uo => False

/-- The lanes of a vector that a mask enables, in order. -/
def lanesIn (e : Word) (x : Vec) : List Word := ((List.finRange 32).filter fun k => e.getLsbD k.val).map fun k => x[k]
/-- The BF16 halves of words. -/
def halves (l : List Word) : List Nat := l.flatMap fun w => [w.toNat % 65536, w.toNat / 65536]

/-- `r` is the extreme of codes in the order of VMIN and VMAX, the canonical NaN if all are NaNs (R91, R142). -/
def FFmt.extremeOf (f : FFmt) (isMax : Bool) (cs : List Nat) (r : FRes) : Prop :=
  r.flags = Flags.sig (cs.any fun c => (f.num c).isSig) ∧
    ((∀ c ∈ cs, (f.num c).isNan = true) → r.bits = f.nan) ∧
    ((∃ c ∈ cs, (f.num c).isNan = false) → r.bits ∈ cs ∧ (f.num r.bits).isNan = false ∧
      ∀ c ∈ cs, (f.num c).isNan = false →
        if isMax = true then ¬ (f.num r.bits).before (f.num c) else ¬ (f.num c).before (f.num r.bits))

/-! ### The array (R75 to R94, R262 to R266) -/

/-- The number that an operand code of a float format stands for (R77, R79). -/
def codeNum (fmt w x ex : Nat) : Exact :=
  if fmt = 13 then .fin (decide (sext x w < 0)) (sext x w * 2 ^ ((ex : ℤ) - 127 - ((w : ℤ) - 2))) else (floatFmt fmt).num x

/-- An integer saturated to `b` bits. -/
def saturated (b : Nat) (i : ℤ) : ℤ := max (-(2 ^ (b - 1))) (min (2 ^ (b - 1) - 1) i)

/-- `out` is entry n of an INT32 pass over the row `img` (R87, R88, R262): the base at the row's new fraction, plus the exact sum
of the products, rounded once. -/
def intEntry (p : Word) (ctl : AccCtl) (decay : Word) (img out : AccRow) (sel : Bool) (a b : List (Nat × Nat)) (n : Fin 128) : Prop :=
  let fp := pFA p + pFB p
  let fresh := ctl = .ow ∨ img.mode = .clear
  let shifts := ¬ fresh ∧ img.ft.toNat < fp
  let N := img.entries[n].toInt
  ∃ (keep : ℤ) (ft : Nat), (shifts → keep = saturated 32 (N * 2 ^ (fp - img.ft.toNat))) ∧ (¬ shifts → keep = N) ∧
    (fresh ∨ shifts → ft = fp) ∧ (¬ fresh → ¬ shifts → ft = img.ft.toNat) ∧ out.ft = BitVec.ofNat 6 ft ∧
    out.mode = (if pAM p = 0 then .i32sat else .i32wrap) ∧
    if sel = true then
      let sum := ((a.zip b).map fun e => intValue (pFmtA p) (wsA p) e.1.1 * intValue (pFmtB p) (wsB p) e.2.1).sum * 2 ^ (ft - fp)
      let base : ℚ := match ctl with
        | .ow => 0
        | .acc => keep
        | .dacc => keep * ((decay.toNat % 65536 : ℕ) : ℚ) / 2 ^ 16
      ∃ s : ℤ, intRounds (pRM p) (base + sum) s ∧ if pAM p = 0 then out.entries[n].toInt = saturated 32 s else out.entries[n] = BitVec.ofInt 32 s
    else out.entries[n].toInt = keep

/-- The terms of one entry of an FP32 pass (R87): the products, or one term for each group of a grouped B. -/
def passTerms (p : Word) (a b : List (Nat × Nat)) (q : Nat → Word) : List Exact :=
  if pFmtB p = 4 ∨ pFmtB p = 5 then
    let groups := if a = [] then [] else if pGS p = 1 ∧ 32 < a.length then [((a.zip b).take 32, q 0), (((a.zip b).drop 32).take 32, q 1)]
      else if pGS p = 1 then [((a.zip b).take 32, q 0)] else [(a.zip b, q 0)]
    groups.map fun g =>
      let z : ℤ := ((g.2.toNat / 65536 % 256 : Nat) : ℤ)
      let P : ℤ := (g.1.map fun e => intValue (pFmtA p) (wsA p) e.1.1 * ((e.2.1 : ℤ) - z)).sum
      (fFp16.num (g.2.toNat % 65536)).mul (.fin (decide (P < 0)) (P * 2 ^ (-(pFA p : ℤ))))
  else (a.zip b).map fun e => (codeNum (pFmtA p) (wsA p) e.1.1 e.1.2).mul (codeNum (pFmtB p) (wsB p) e.2.1 e.2.2)

/-- `out` is entry n of an FP32 pass over the row `img` (R87, R89). -/
def floatEntry (p : Word) (ctl : AccCtl) (decay : Word) (q : Nat → Row) (img out : AccRow) (sel : Bool) (a b : List (Nat × Nat))
    (n : Fin 128) : Prop :=
  let old := if img.mode = .fp32 then fF32.num img.entries[n].toNat else .fin false 0
  let base := match ctl with
    | .ow => .fin false 0
    | .acc => old
    | .dacc => (fF32.num decay.toNat).mul old
  out.mode = .fp32 ∧ if sel = true then
      ∃ r, fF32.gives (pRM p) (Exact.total (pRM p) (base :: passTerms p a b fun g => (q g)[n])) r ∧ out.entries[n] = BitVec.ofNat 32 r.bits
    else out.entries[n] = img.entries[n]

/-- Bit i of a byte string read as one little-endian bit string (R74). -/
def bitOf (bs : List Byte) (i : Nat) : Bool := (bs.getD (i / 8) 0).getLsbD (i % 8)

/-- The due tick of a new commit on a row (R253): its own, or the latest one pending there. -/
def AccRow.dueAfter (r : AccRow) (own d : Nat) : Prop :=
  own ≤ d ∧ (∀ p ∈ r.pend, p.due ≤ d) ∧ (d = own ∨ ∃ p ∈ r.pend, p.due = d)

/-- The first bit of element (j, k) of an A entry of z bytes (R244). -/
def bitA (p : Word) (ta : Bool) (z j k : Nat) : Nat :=
  let ws := wsA p
  if ta = true then 8 * (k * 4 * ws) + j * ws
  else if pFmtA p = 13 then 8 * (j * (z / 32) + k / 16 * (1 + 2 * ws) + 1) + k % 16 * ws
  else 8 * (j * (z / 32)) + k * ws

/-- The first bit of the element of K-row k and column n of a plane image (R245). -/
def bitB (p : Word) (ta : Bool) (k n : Nat) : Nat :=
  let ws := wsB p
  if pFmtB p = 13 then 8 * (k / 16 * (128 + 256 * ws) + 128 + k % 16 * (16 * ws)) + n * ws
  else if ta = true then 8 * (n * 8 * ws) + k * ws
  else 8 * (k * 16 * ws) + n * ws

/-- `out` is entry n of a row scaled by ASCL (R265). -/
def scaledEntry (rm : RMode) (img out : AccRow) (q : Row) (n : Fin 128) : Prop :=
  let scale := fFp16.num (q[n].toNat % 65536)
  let N := img.entries[n].toInt
  match img.mode with
  | .clear => out.mode = .i32sat ∧ out.ft = 0 ∧ out.entries[n] = img.entries[n]
  | .fp32 => out.mode = .fp32 ∧ ∃ r, fF32.gives rm (Exact.total rm [(fF32.num img.entries[n].toNat).mul scale]) r ∧
      out.entries[n] = BitVec.ofNat 32 r.bits
  | m => out.mode = m ∧ out.ft = img.ft ∧ match scale with
    | .nan _ => out.entries[n] = 0
    | .inf s => out.entries[n] = if N = 0 then 0 else BitVec.ofInt 32 (if s = decide (N < 0) then 2 ^ 31 - 1 else -(2 ^ 31))
    | .fin _ x => ∃ i : ℤ, intRounds rm (N * x) i ∧
        if m = .i32wrap then out.entries[n] = BitVec.ofInt 32 i else out.entries[n].toInt = saturated 32 i

/-- `bs` is what an entry `w` of a row drains to (R94). -/
def drained (fmt : DrainFmt) (rm : RMode) (img : AccRow) (w : Word) (bs : List Byte) : Prop :=
  let float (f : FFmt) (size : Nat) : Prop := match img.mode with
    | .clear => bs = leBytes size 0
    | .fp32 => if f = fF32 then bs = leBytes 4 w.toNat else ∃ r, f.gives rm (fF32.num w.toNat) r ∧ bs = leBytes size r.bits
    | _ => ∃ r, f.gives rm (.fin false (w.toInt * 2 ^ (-(img.ft.toNat : ℤ)))) r ∧ bs = leBytes size r.bits
  let int (b : Nat) : Prop := ∃ v : ℤ, bs = leBytes (b / 8) (BitVec.ofInt 32 v).toNat ∧ match img.mode with
    | .clear => v = 0
    | .fp32 => match fF32.num w.toNat with
      | .nan _ => v = 0
      | .inf s => v = saturated b (if s = true then -(2 ^ 31) else 2 ^ 31 - 1)
      | .fin _ q => ∃ i, intRounds rm q i ∧ v = saturated b (saturated 32 i)
    | _ => v = saturated b w.toInt
  match fmt with
  | .f32 => float fF32 4
  | .bf16 => float fBf16 2
  | .fp16 => float fFp16 2
  | .i32 => int 32
  | .s16 => int 16
  | .s8 => int 8

/-! ### Scouts -/

/-- The acting scout's instruction ends with a result: the scout moves on to the next word. -/
def State.scoutEnds (s t : State) (d : Fin 16) (v : BitVec 64) : Prop :=
  let c := t.sc
  c.x = vset s.sc.x d v ∧ c.pc = (s.sc.pc + 1) % 2 ^ 18 ∧ c.halted = s.sc.halted ∧ c.busy = none ∧ c.waitVt = none

/-- It waits in place. -/
def State.scoutStays (s t : State) : Prop := t.sc.x = s.sc.x ∧ t.sc.pc = s.sc.pc ∧ t.sc.halted = s.sc.halted ∧ t.sc.sram = s.sc.sram

/-- Nothing outside the acting scout changes: its port's link and semaphores, the other ports, the tiles, the memories. -/
def State.onlyScout (s t : State) : Prop := { t with ports := s.ports } = s ∧ (∀ p, p ≠ s.curPort → t.port p = s.port p) ∧
  { t.port s.curPort with scout := s.sc } = s.port s.curPort

/-- A scalar instruction: one register and the pc. -/
def State.scoutWrites (s : State) (o : Out) (d : Fin 16) (v : BitVec 64) : Prop :=
  ∃ t, o = .next t ∧ s.scoutEnds t d v ∧ s.onlyScout t ∧ t.sc.sram = s.sc.sram

/-- The bytes of a transfer of n bytes at `a` have moved: 64 a tick, all of them inside SRAM (R350). -/
def State.moved (s : State) (a n : Nat) : Prop :=
  a + n ≤ 2 ^ 20 ∧ ((s.sc.busy = none ∧ n ≤ 64) ∨ ∃ b, s.sc.busy = some b ∧ b ≤ s.ref)

/-- The address of scout data in a register: its low 20 bits, aligned down to 16 (R350). -/
def scoutAddr (v : BitVec 64) : Nat := v.toNat % 2 ^ 20 / 16 * 16

/-- SRAM holds `bs` from `a` on, and every other byte as before. -/
def State.sramTakes (s t : State) (a : Nat) (bs : List Byte) : Prop :=
  (∀ i, i < bs.length → t.sc.sram.read (a + i) = bs.getD i 0) ∧
    ∀ x, (x < a ∨ a + bs.length ≤ x) → t.sc.sram.read x = s.sc.sram.read x

/-! ### The host's records -/

/-- The record at index i of a queue is complete: its completion record holds its tag, kind, status and phase (R398), and the
queue goes on from the next record. -/
def State.recordDone (s t : State) (q : Fin 256) (i tag op status : Nat) : Prop :=
  let u := s.queue q
  let a := u.cqbase.toNat + 32 * (i % 2 ^ u.lsz.toNat)
  (t.queue q).started = u.started + 1 ∧ t.hostRead a 4 = leBytes 2 tag ++ [BitVec.ofNat 8 op, BitVec.ofNat 8 status] ∧
    t.hostRead (a + 31) 1 = [BitVec.ofNat 8 ((i / 2 ^ u.lsz.toNat + 1) % 2)]

/-- The record at a slot's head waits. -/
def State.recordWaits (s t : State) (k : Fin 32) (q : Fin 256) : Prop :=
  t.slots[k].blockedAt.isSome = true ∧ (t.queue q).started = (s.queue q).started ∧ t.slots[k].queue = s.slots[k].queue

end Sys2Proof.Machine
end

