-- ==== Sys2Proof/Certificates/Slice0/Obligations.lean ====
section
/-! DEFINITION. The statements for the provers. Each name says what it states; each docstring names the rules of the spec. -/

open Sys2Proof Sys2Proof.Machine

/-! ### Pending results (R4, R48, R49) -/

/-- R4, R48, R49: a result of latency L is in its register for the bundle L task ticks later, after every result due by then;
no bundle before that sees it; and it is all that the instruction leaves: other contexts, tiles and the rest stay. R33, R101: writes to p0 and m0 are
discarded, p0 reads as 1 and m0 as all ones. -/
def Obligations.ResultsAtTheirLatency : Prop :=
  (∀ (s : State) (lat : Nat) (d : Dst), s.inOrder →
     (s.result lat d).regsAt (s.cur.tt + lat) = (s.regsAt (s.cur.tt + lat)).put d) ∧
  (∀ (s : State) (lat : Nat) (d : Dst) (n : Nat), s.inOrder → n < s.cur.tt + lat →
     { (s.result lat d).regsAt n with pend := [] } = { s.regsAt n with pend := [] }) ∧
  (∀ (s : State) (lat : Nat) (d : Dst),
     s.sameButTiles (s.result lat d) ∧
     (∀ t, t ≠ s.cur.tile → (s.result lat d).tile t = s.tile t) ∧
     (∀ c, c ≠ s.cur.ctx → (s.result lat d).ctx s.cur.tile c = s.ctx s.cur.tile c) ∧
     { (s.result lat d).curCtx with pend := s.curCtx.pend } = s.curCtx ∧
     { (s.result lat d).curTile with ctxs := s.curTile.ctxs } = s.curTile) ∧
  (∀ (c : Context) (b : Bool) (m : Word),
     c.put (.p 0 b) = c ∧ c.put (.m 0 m) = c ∧ c.readP 0 = true ∧ c.readM 0 = BitVec.allOnes 32)

/-! ### Scalar slots (R120 to R133) -/

/-- R122, R123, R124: the ALU group, its immediate forms and the MUL group. -/
def Obligations.AluOperations : Prop :=
  (∀ (s : State) (d a b : Fin 32),
     let x := s.rs a
     let y := s.rs b
     let n := y.toNat % 32
     exec (.add d a b) s = .next (s.result 1 (.s d (BitVec.ofNat 32 (x.toNat + y.toNat)))) ∧
     exec (.sub d a b) s = .next (s.result 1 (.s d (BitVec.ofInt 32 ((x.toNat : Int) - y.toNat)))) ∧
     exec (.and d a b) s = .next (s.result 1 (.s d (x &&& y))) ∧
     exec (.or d a b) s = .next (s.result 1 (.s d (x ||| y))) ∧
     exec (.xor d a b) s = .next (s.result 1 (.s d (x ^^^ y))) ∧
     exec (.andn d a b) s = .next (s.result 1 (.s d (x &&& ~~~y))) ∧
     exec (.shl d a b) s = .next (s.result 1 (.s d (BitVec.ofNat 32 (x.toNat * 2 ^ n)))) ∧
     exec (.shr d a b) s = .next (s.result 1 (.s d (BitVec.ofNat 32 (x.toNat / 2 ^ n)))) ∧
     exec (.sra d a b) s = .next (s.result 1 (.s d (BitVec.ofInt 32 (x.toInt / 2 ^ n)))) ∧
     exec (.min d a b) s = .next (s.result 1 (.s d (BitVec.ofInt 32 (min x.toInt y.toInt)))) ∧
     exec (.max d a b) s = .next (s.result 1 (.s d (BitVec.ofInt 32 (max x.toInt y.toInt)))) ∧
     exec (.minu d a b) s = .next (s.result 1 (.s d (BitVec.ofNat 32 (min x.toNat y.toNat)))) ∧
     exec (.maxu d a b) s = .next (s.result 1 (.s d (BitVec.ofNat 32 (max x.toNat y.toNat)))) ∧
     exec (.mov d a) s = .next (s.result 1 (.s d x)) ∧
     (∃ z : Nat, z ≤ 32 ∧ x.toNat < 2 ^ (32 - z) ∧ (z < 32 → 2 ^ (31 - z) ≤ x.toNat) ∧
       exec (.clz d a) s = .next (s.result 1 (.s d (BitVec.ofNat 32 z)))) ∧
     exec (.popc d a) s = .next (s.result 1 (.s d (BitVec.ofNat 32 ((List.range 32).countP fun i => x.getLsbD i))))) ∧
  (∀ (s : State) (d a n : Fin 32) (imm : BitVec 11),
     let x := s.rs a
     let y : Word := BitVec.ofInt 32 imm.toInt
     exec (.addi d a imm) s = .next (s.result 1 (.s d (BitVec.ofInt 32 (x.toNat + imm.toInt)))) ∧
     exec (.andi d a imm) s = .next (s.result 1 (.s d (x &&& y))) ∧
     exec (.ori d a imm) s = .next (s.result 1 (.s d (x ||| y))) ∧
     exec (.xori d a imm) s = .next (s.result 1 (.s d (x ^^^ y))) ∧
     exec (.shli d a n) s = .next (s.result 1 (.s d (BitVec.ofNat 32 (x.toNat * 2 ^ n.val)))) ∧
     exec (.shri d a n) s = .next (s.result 1 (.s d (BitVec.ofNat 32 (x.toNat / 2 ^ n.val)))) ∧
     exec (.srai d a n) s = .next (s.result 1 (.s d (BitVec.ofInt 32 (x.toInt / 2 ^ n.val))))) ∧
  (∀ (s : State) (d a b : Fin 32),
     let x := s.rs a
     let y := s.rs b
     exec (.mul d a b) s = .next (s.result 3 (.s d (BitVec.ofNat 32 (x.toNat * y.toNat)))) ∧
     exec (.mulh d a b) s = .next (s.result 3 (.s d (BitVec.ofInt 32 (x.toInt * y.toInt / 2 ^ 32)))) ∧
     let fields := d.val * 2 ^ 16 + a.val * 2 ^ 11 + b.val * 2 ^ 6
     exec (.mulhu d a b) s = .next (s.result 3 (.s d (BitVec.ofNat 32 (x.toNat * y.toNat / 2 ^ 32)))) ∧
     encode (.mul d a b) = 0x00400000 + fields ∧ encode (.mulh d a b) = 0x00400001 + fields ∧
     encode (.mulhu d a b) = 0x00400002 + fields)

/-- R125, R126, R127: comparisons, predicate logic, selection. -/
def Obligations.PredicatesAndSelection : Prop :=
  ∀ (s : State) (d a b : Fin 32) (pd pa pb : Fin 16) (imm : BitVec 11) (tt : BitVec 4) (c : Cond),
    let holds (x y : Word) : Bool :=
      match c with
      | .eq => decide (x.toNat = y.toNat)
      | .ne => decide (x.toNat ≠ y.toNat)
      | .lt => decide (x.toInt < y.toInt)
      | .ge => decide (y.toInt ≤ x.toInt)
      | .ltu => decide (x.toNat < y.toNat)
      | .geu => decide (y.toNat ≤ x.toNat)
      | .gt => decide (y.toInt < x.toInt)
      | .gtu => decide (y.toNat < x.toNat)
    exec (.cmp c pd a b) s = .next (s.result 1 (.p pd (holds (s.rs a) (s.rs b)))) ∧
    exec (.cmpi c pd a imm) s = .next (s.result 1 (.p pd (holds (s.rs a) (BitVec.ofInt 32 imm.toInt)))) ∧
    exec (.plog tt pd pa pb) s =
      .next (s.result 1 (.p pd (tt.getLsbD (2 * (if s.rp pa then 1 else 0) + if s.rp pb then 1 else 0)))) ∧
    exec (.sel d a b pa) s = .next (s.result 1 (.s d (if s.rp pa then s.rs a else s.rs b))) ∧
    encode (.plog tt pd pa pb) = 0x00A00000 + pd.val * 2 ^ 16 + pa.val * 2 ^ 11 + pb.val * 2 ^ 6 + tt.toNat ∧
    encode (.sel d a b pa) = 0x00600000 + d.val * 2 ^ 16 + a.val * 2 ^ 11 + b.val * 2 ^ 6 + pa.val

/-- R129, R130, R131: constants and address registers. -/
def Obligations.ConstantsAndAddresses : Prop :=
  ∀ (s : State) (d a b : Fin 32) (ad aa : Fin 8) (imm : BitVec 16) (off : BitVec 11),
    exec (.movi d imm) s = .next (s.result 1 (.s d (BitVec.ofInt 32 imm.toInt))) ∧
    exec (.movhi d imm) s = .next (s.result 1 (.s d (BitVec.ofNat 32 (imm.toNat * 2 ^ 16 + (s.rs d).toNat % 2 ^ 16)))) ∧
    encode (.movi d imm) = 0x03000000 + d.val * 2 ^ 16 + imm.toNat ∧
    encode (.movhi d imm) = 0x03200000 + d.val * 2 ^ 16 + imm.toNat ∧
    exec (.aadd ad aa b) s = .next (s.result 1 (.a ad (BitVec.ofInt 48 ((s.ra aa).toNat + (s.rs b).toInt)))) ∧
    exec (.aaddi ad aa off) s = .next (s.result 1 (.a ad (BitVec.ofInt 48 ((s.ra aa).toNat + off.toInt)))) ∧
    exec (.amov ad aa) s = .next (s.result 1 (.a ad (s.ra aa))) ∧
    exec (.amovFromPair ad a) s =
      .next (s.result 1 (.a ad (BitVec.ofNat 48 ((s.rs (a + 1)).toNat % 2 ^ 16 * 2 ^ 32 + (s.rs a).toNat)))) ∧
    exec (.amovToScalar d aa) s = .next (s.result 1 (.s d (BitVec.ofNat 32 (s.ra aa).toNat))) ∧
    exec (.amovHi d aa) s = .next (s.result 1 (.s d (BitVec.ofNat 32 ((s.ra aa).toNat / 2 ^ 32)))) ∧
    exec (.acmb ad a b) s = .next (s.result 1 (.a ad (BitVec.ofNat 48
      ((s.rs a).toNat % 2 ^ 9 * 2 ^ 25 + (s.rs a).toNat / 2 ^ 16 % 2 ^ 9 * 2 ^ 16 + (s.rs b).toNat % 2 ^ 16))))

/-! ### Vector slot (R134 to R147) -/

/-- R135, R137, R138: integer arithmetic, logic and shifts on enabled lanes. -/
def Obligations.VectorIntegerLanes : Prop :=
  ∀ (s : State) (d a b : Fin 16) (m : Fin 8) (n : Fin 32) (ty : VType), ty.isFloat = false →
    let e := s.rm m &&& s.curCtx.top
    let x := s.rv a
    let y := s.rv b
    let num (w : Word) : Int := if ty = .u32 then w.toNat else w.toInt
    s.leavesLanes (exec (.vadd d a b m ty) s) 2 d e (fun k => BitVec.ofNat 32 (x[k].toNat + y[k].toNat)) ∧
    s.leavesLanes (exec (.vsub d a b m ty) s) 2 d e (fun k => BitVec.ofInt 32 (x[k].toNat - y[k].toNat)) ∧
    s.leavesLanes (exec (.vmul d a b m ty) s) 2 d e (fun k => BitVec.ofNat 32 (x[k].toNat * y[k].toNat)) ∧
    s.leavesLanes (exec (.vmin d a b m ty) s) 2 d e (fun k => BitVec.ofInt 32 (min (num x[k]) (num y[k]))) ∧
    s.leavesLanes (exec (.vmax d a b m ty) s) 2 d e (fun k => BitVec.ofInt 32 (max (num x[k]) (num y[k]))) ∧
    s.leavesLanes (exec (.vneg d a m .i32) s) 2 d e (fun k => BitVec.ofInt 32 (-x[k].toInt)) ∧
    s.leavesLanes (exec (.vabs d a m .i32) s) 2 d e (fun k => BitVec.ofInt 32 |x[k].toInt|) ∧
    s.leavesLanes (exec (.vshl d a b m ty) s) 2 d e (fun k => BitVec.ofNat 32 (x[k].toNat * 2 ^ (y[k].toNat % 32))) ∧
    s.leavesLanes (exec (.vshr d a b m ty) s) 2 d e (fun k => BitVec.ofNat 32 (x[k].toNat / 2 ^ (y[k].toNat % 32))) ∧
    s.leavesLanes (exec (.vsra d a b m ty) s) 2 d e (fun k => BitVec.ofInt 32 (x[k].toInt / 2 ^ (y[k].toNat % 32))) ∧
    s.leavesLanes (exec (.vshlImm d a n ty) s) 2 d s.curCtx.top (fun k => BitVec.ofNat 32 (x[k].toNat * 2 ^ n.val)) ∧
    s.leavesLanes (exec (.vshrImm d a n ty) s) 2 d s.curCtx.top (fun k => BitVec.ofNat 32 (x[k].toNat / 2 ^ n.val)) ∧
    s.leavesLanes (exec (.vsraImm d a n ty) s) 2 d s.curCtx.top (fun k => BitVec.ofInt 32 (x[k].toInt / 2 ^ n.val))

/-- R138, R140, R143: logic, selection and lane movement, of any type. -/
def Obligations.VectorMovement : Prop :=
  ∀ (s : State) (d a b : Fin 16) (m : Fin 8) (j : Fin 32) (imm : BitVec 17) (ty : VType),
    let e := s.rm m &&& s.curCtx.top
    let x := s.rv a
    let y := s.rv b
    s.leavesLanes (exec (.vand d a b m ty) s) 2 d e (fun k => x[k] &&& y[k]) ∧
    s.leavesLanes (exec (.vor d a b m ty) s) 2 d e (fun k => x[k] ||| y[k]) ∧
    s.leavesLanes (exec (.vxor d a b m ty) s) 2 d e (fun k => x[k] ^^^ y[k]) ∧
    s.leavesLanes (exec (.vsel d a b m ty) s) 2 d s.curCtx.top (fun k => if (s.rm m).getLsbD k.val then x[k] else y[k]) ∧
    s.leavesLanes (exec (.vperm d a b m ty) s) 3 d e (fun k => x[y[k].toNat % 32]'(Nat.mod_lt _ (by decide))) ∧
    s.leavesLanes (exec (.vmov d a m ty) s) 2 d e (fun k => x[k]) ∧
    s.leavesLanes (exec (.vext d a j ty) s) 2 d s.curCtx.top
      (fun k => if h : k.val + j.val < 32 then x[k.val + j.val] else 0) ∧
    s.leavesLanes (exec (.vins d a j ty) s) 2 d s.curCtx.top
      (fun k => if h : k.val = 0 then s.rs j else x[k.val - 1]) ∧
    s.leavesLanes (exec (.vbcast d j ty) s) 2 d s.curCtx.top (fun _ => s.rs j) ∧
    s.leavesLanes (exec (.vmovi d imm) s) 2 d s.curCtx.top (fun _ => BitVec.ofInt 32 imm.toInt) ∧
    let v := d.val * 2 ^ 17 + a.val * 2 ^ 13
    let t := ty.code * 2 ^ 4
    encode (.vsel d a b m ty) = 0x00A00000 + v + b.val * 2 ^ 9 + m.val * 2 ^ 6 + t ∧
    encode (.vmov d a m ty) = 0x01400000 + v + m.val * 2 ^ 6 + t ∧
    encode (.vperm d a b m ty) = 0x01000000 + v + b.val * 2 ^ 9 + m.val * 2 ^ 6 + t ∧
    encode (.vext d a j ty) = 0x01800000 + v + j.val * 2 ^ 6 + t ∧
    encode (.vins d a j ty) = 0x01A00000 + v + j.val * 2 ^ 8 + t ∧
    encode (.vbcast d j ty) = 0x01600000 + d.val * 2 ^ 17 + j.val * 2 ^ 8 + t ∧
    encode (.vmovi d imm) = 0x01C00000 + d.val * 2 ^ 17 + imm.toNat

/-- R90 to R93, R136, R137, R141, R144: floating-point lanes, each half of BF16P on its own, with the flags that enabled lanes raise:
the exact result rounded once in the mode in force, and what NaNs, infinities, zeros and conversions give (readings of the number
formats: log 11; how the transcendental functions are computed: log 12). -/
def Obligations.VectorFloatLanes : Prop :=
  ∀ (s : State) (d a b : Fin 16) (m : Fin 8) (src dst : VType) (rtz : Bool),
    let e := s.rm m &&& s.curCtx.top
    let rm := RMode.ofCode (s.curCtx.round.toNat % 4)
    let x := s.rv a
    let y := s.rv b
    let z := s.rv d
    let two (k : Fin 32) (f : Nat → Nat → Nat → FRes) : LaneRes :=
      pairLane (f (x[k].toNat % 65536) (y[k].toNat % 65536) (z[k].toNat % 65536))
        (f (x[k].toNat / 65536) (y[k].toNat / 65536) (z[k].toNat / 65536))
    let one (k : Fin 32) (f : Nat → Nat → Nat → FRes) : LaneRes := (f x[k].toNat y[k].toNat z[k].toNat).lane
    s.leavesFloatLanes (exec (.vadd d a b m .f32) s) 4 d e (fun k => one k fun u v _ => fF32.add rm u v) ∧
    s.leavesFloatLanes (exec (.vadd d a b m .bf16p) s) 4 d e (fun k => two k fun u v _ => fBf16.add rm u v) ∧
    s.leavesFloatLanes (exec (.vsub d a b m .f32) s) 4 d e (fun k => one k fun u v _ => fF32.sub rm u v) ∧
    s.leavesFloatLanes (exec (.vsub d a b m .bf16p) s) 4 d e (fun k => two k fun u v _ => fBf16.sub rm u v) ∧
    s.leavesFloatLanes (exec (.vmul d a b m .f32) s) 4 d e (fun k => one k fun u v _ => fF32.mul rm u v) ∧
    s.leavesFloatLanes (exec (.vmul d a b m .bf16p) s) 4 d e (fun k => two k fun u v _ => fBf16.mul rm u v) ∧
    s.leavesFloatLanes (exec (.vfma d a b m .f32) s) 4 d e (fun k => one k fun u v w => fF32.fma rm u v w) ∧
    s.leavesFloatLanes (exec (.vfma d a b m .bf16p) s) 4 d e (fun k => two k fun u v w => fBf16.fma rm u v w) ∧
    s.leavesFloatLanes (exec (.vmin d a b m .f32) s) 4 d e (fun k => one k fun u v _ => fF32.minMax false u v) ∧
    s.leavesFloatLanes (exec (.vmin d a b m .bf16p) s) 4 d e (fun k => two k fun u v _ => fBf16.minMax false u v) ∧
    s.leavesFloatLanes (exec (.vmax d a b m .f32) s) 4 d e (fun k => one k fun u v _ => fF32.minMax true u v) ∧
    s.leavesFloatLanes (exec (.vmax d a b m .bf16p) s) 4 d e (fun k => two k fun u v _ => fBf16.minMax true u v) ∧
    s.leavesFloatLanes (exec (.vabs d a m .f32) s) 4 d e (fun k => one k fun u _ _ => fF32.abs u) ∧
    s.leavesFloatLanes (exec (.vabs d a m .bf16p) s) 4 d e (fun k => two k fun u _ _ => fBf16.abs u) ∧
    s.leavesFloatLanes (exec (.vneg d a m .f32) s) 4 d e (fun k => one k fun u _ _ => fF32.negate u) ∧
    s.leavesFloatLanes (exec (.vneg d a m .bf16p) s) 4 d e (fun k => two k fun u _ _ => fBf16.negate u) ∧
    s.leavesFloatLanes (exec (.vexp2 d a m .f32) s) 8 d e (fun k => one k fun u _ _ => fF32.exp2 rm u) ∧
    s.leavesFloatLanes (exec (.vexp2 d a m .bf16p) s) 8 d e (fun k => two k fun u _ _ => fBf16.exp2 rm u) ∧
    s.leavesFloatLanes (exec (.vlog2 d a m .f32) s) 8 d e (fun k => one k fun u _ _ => fF32.log2 rm u) ∧
    s.leavesFloatLanes (exec (.vlog2 d a m .bf16p) s) 8 d e (fun k => two k fun u _ _ => fBf16.log2 rm u) ∧
    s.leavesFloatLanes (exec (.vrcp d a m .f32) s) 8 d e (fun k => one k fun u _ _ => fF32.rcp rm u) ∧
    s.leavesFloatLanes (exec (.vrcp d a m .bf16p) s) 8 d e (fun k => two k fun u _ _ => fBf16.rcp rm u) ∧
    s.leavesFloatLanes (exec (.vrsqrt d a m .f32) s) 8 d e (fun k => one k fun u _ _ => fF32.rsqrt rm u) ∧
    s.leavesFloatLanes (exec (.vrsqrt d a m .bf16p) s) 8 d e (fun k => two k fun u _ _ => fBf16.rsqrt rm u) ∧
    s.leavesFloatLanes (exec (.vcvt d a m src dst rtz) s) 3 d e
      (fun k => cvtLane (if rtz then .rtz else rm) src dst x[k]) ∧
    (∀ f, f = fF32 ∨ f = fBf16 → ∀ (rm : RMode) (u v w : Nat),
      let n := f.num u
      let nan := if n.isNan = true then some (⟨f.nan, Flags.sig n.isSig⟩ : FRes) else none
      f.gives rm (n.add rm (f.num v)) (f.add rm u v) ∧ f.gives rm (n.add rm (f.num v).neg) (f.sub rm u v) ∧
      f.gives rm (n.mul (f.num v)) (f.mul rm u v) ∧ f.gives rm ((n.mul (f.num v)).add rm (f.num w)) (f.fma rm u v w) ∧
      f.chooses false u v (f.minMax false u v) ∧ f.chooses true u v (f.minMax true u v) ∧
      f.abs u = nan.getD ⟨u % 2 ^ (f.eb + f.fb), Flags.none⟩ ∧
      f.negate u = nan.getD ⟨(u + 2 ^ (f.eb + f.fb)) % 2 ^ (f.eb + f.fb + 1), Flags.none⟩ ∧
      (∀ r, nan = some r → f.exp2 rm u = r ∧ f.log2 rm u = r ∧ f.rcp rm u = r ∧ f.rsqrt rm u = r) ∧
      (n = .inf true → f.exp2 rm u = ⟨f.zero false, Flags.none⟩) ∧ (n = .inf false → f.exp2 rm u = ⟨f.inf false, Flags.none⟩) ∧
      (n = .inf false → f.log2 rm u = ⟨f.inf false, Flags.none⟩ ∧ f.rsqrt rm u = ⟨f.zero false, Flags.none⟩) ∧
      (n.lt (.fin false 0) → f.log2 rm u = ⟨f.nan, Flags.invalid⟩ ∧ f.rsqrt rm u = ⟨f.nan, Flags.invalid⟩) ∧
      (∀ b, n = .inf b → f.rcp rm u = ⟨f.zero b, Flags.none⟩) ∧
      (∀ b, n = .fin b 0 → f.rcp rm u = ⟨f.inf b, Flags.divZero⟩ ∧ f.rsqrt rm u = ⟨f.inf b, Flags.divZero⟩ ∧
        f.log2 rm u = ⟨f.inf true, Flags.divZero⟩) ∧
      (∀ b q, n = .fin b q → q ≠ 0 → f.gives rm (.fin b (1 / q)) (f.rcp rm u)) ∧
      (∀ b (i : ℤ), (n = .fin b i → f.gives rm (.fin false (2 ^ i)) (f.exp2 rm u)) ∧
        (n = .fin b (2 ^ i) → f.gives rm (.fin false i) (f.log2 rm u)) ∧
        (n = .fin b (4 ^ i) → f.gives rm (.fin false (2 ^ (-i))) (f.rsqrt rm u)))) ∧
    (∀ (rm : RMode) (g : Word),
      (∀ f ty, f = fF32 ∧ ty = .f32 ∨ f = fBf16 ∧ ty = .bf16p →
        (∃ r, cvtLane rm .i32 ty g = r.lane ∧ f.gives rm (.fin false g.toInt) r) ∧
        (∃ r, cvtLane rm .u32 ty g = r.lane ∧ f.gives rm (.fin false g.toNat) r) ∧
        (let u := if ty = .bf16p then g.toNat % 65536 else g.toNat
        f.toInteger rm (-(2 ^ 31)) (2 ^ 31 - 1) u (cvtLane rm ty .i32 g) ∧ f.toInteger rm 0 (2 ^ 32 - 1) u (cvtLane rm ty .u32 g))) ∧
      (∃ r, cvtLane rm .f32 .bf16p g = r.lane ∧ fBf16.gives rm (fF32.num g.toNat) r) ∧
      (∃ r, cvtLane rm .bf16p .f32 g = r.lane ∧ fF32.gives rm (fBf16.num (g.toNat % 65536)) r) ∧
      cvtLane rm .i32 .u32 g = ⟨if g.toInt < 0 then 0 else g, Flags.none⟩ ∧
      cvtLane rm .u32 .i32 g = ⟨if 2 ^ 31 ≤ g.toNat then 0x7FFFFFFF else g, Flags.none⟩)

/-- R139, R142, R145, R146: comparisons to a mask, reductions to every enabled lane, mask logic and the mask stack. -/
def Obligations.VectorMasks : Prop :=
  ∀ (s : State) (d a b : Fin 16) (m mb md : Fin 8) (ty : VType) (c : VCond) (op : VRedOp) (tt : BitVec 4),
    let e := s.rm m &&& s.curCtx.top
    let stk := s.curCtx.stack
    let under (l : List Word) : Word := l.headD (BitVec.allOnes 32)
    (∃ w nv, exec (.vcmp c md a b m ty) s = .next ((s.result 2 (.m md w)).raiseFlags 2 (Flags.sig nv)) ∧
      (∀ k : Fin 32, w.getLsbD k.val = (e.getLsbD k.val && (laneCmp c ty (s.rv a)[k] (s.rv b)[k]).1)) ∧
      (nv = true ↔ ∃ k : Fin 32, e.getLsbD k.val = true ∧ (laneCmp c ty (s.rv a)[k] (s.rv b)[k]).2 = true)) ∧
    (∀ x y : Word,
      ((laneCmp c .f32 x y).1 = true ↔ (fF32.num x.toNat).rel c (fF32.num y.toNat)) ∧
      (laneCmp c .f32 x y).2 = (fF32.num x.toNat).relInvalid c (fF32.num y.toNat) ∧
      (let lo (r : Exact → Exact → Prop) : Prop := r (fBf16.num (x.toNat % 65536)) (fBf16.num (y.toNat % 65536))
      let hi (r : Exact → Exact → Prop) : Prop := r (fBf16.num (x.toNat / 65536)) (fBf16.num (y.toNat / 65536))
      ((laneCmp c .bf16p x y).1 = true ↔ if c = .uo then lo (Exact.rel c) ∨ hi (Exact.rel c) else lo (Exact.rel c) ∧ hi (Exact.rel c)) ∧
      ((laneCmp c .bf16p x y).2 = true ↔ lo (fun p q => p.relInvalid c q = true) ∨ hi (fun p q => p.relInvalid c q = true))) ∧
      (c ≠ .uo → ((laneCmp c .i32 x y).1 = true ↔ intRel c x.toInt y.toInt) ∧
        ((laneCmp c .u32 x y).1 = true ↔ intRel c x.toNat y.toNat)) ∧ (laneCmp c .i32 x y).2 = false ∧ (laneCmp c .u32 x y).2 = false) ∧
    (∃ w, exec (.vmsk tt md m mb) s = .next (s.result 1 (.m md w)) ∧
      ∀ k : Fin 32, w.getLsbD k.val =
        tt.getLsbD (2 * (if (s.rm m).getLsbD k.val then 1 else 0) + if (s.rm mb).getLsbD k.val then 1 else 0)) ∧
    (e = 0 → exec (.vred op d a m ty) s = .next s) ∧
    (e ≠ 0 → s.leavesFloatLanes (exec (.vred op d a m ty) s) 5 d e
      (fun _ => reduceLanes op ty (RMode.ofCode (s.curCtx.round.toNat % 4)) e (s.rv a))) ∧
    (e ≠ 0 → ∀ (rm : RMode) (x : Vec),
      let ls := lanesIn e x
      (∃ r, reduceLanes .sum .f32 rm e x = r.lane ∧ fF32.gives rm (Exact.total rm (ls.map fun w => fF32.num w.toNat)) r) ∧
      (∃ r, reduceLanes .sum .bf16p rm e x = ⟨BitVec.ofNat 32 (r.bits * 65537), r.flags⟩ ∧
        fBf16.gives rm (Exact.total rm ((halves ls).map fBf16.num)) r) ∧
      (∀ isMax : Bool, let o : VRedOp := if isMax = true then .max else .min
        (∃ r, reduceLanes o .f32 rm e x = r.lane ∧ fF32.extremeOf isMax (ls.map BitVec.toNat) r) ∧
        (∃ r, reduceLanes o .bf16p rm e x = ⟨BitVec.ofNat 32 (r.bits * 65537), r.flags⟩ ∧ fBf16.extremeOf isMax (halves ls) r) ∧
        (∃ v ∈ ls, reduceLanes o .i32 rm e x = ⟨v, Flags.none⟩ ∧
          ∀ w ∈ ls, if isMax = true then w.toInt ≤ v.toInt else v.toInt ≤ w.toInt) ∧
        ∃ v ∈ ls, reduceLanes o .u32 rm e x = ⟨v, Flags.none⟩ ∧ ∀ w ∈ ls, if isMax = true then w.toNat ≤ v.toNat else v.toNat ≤ w.toNat) ∧
      reduceLanes .sum .i32 rm e x = ⟨BitVec.ofNat 32 (ls.map BitVec.toNat).sum, Flags.none⟩ ∧
      reduceLanes .sum .u32 rm e x = ⟨BitVec.ofNat 32 (ls.map BitVec.toNat).sum, Flags.none⟩) ∧
    (stk.length < 8 → exec (.vmpush m) s = .next (s.result 1 (.stack ((under stk &&& s.rm m) :: stk)))) ∧
    (∀ h l, stk = h :: l → exec .vminv s = .next (s.result 1 (.stack ((under l &&& ~~~h) :: l))) ∧
      exec .vmpop s = .next (s.result 1 (.stack l))) ∧
    (stk = [] → exec .vminv s = .next s ∧ exec .vmpop s = .next s)

/-! ### Control slot (R148 to R163) -/

/-- R50, R148 to R151, R154, R157, R373: outside the delay bundles of a transfer, and where no loop ends at the transfer or its
delay bundles, each transfer takes its place before its two delay bundles, and CALL leaves the return address in a7; in a delay
bundle a transfer and LOOP raise the illegal-encoding fault of slot 0. -/
def Obligations.TransfersTakeTheirPlace : Prop :=
  (∀ (s : State) (o24 : BitVec 24) (o20 : BitVec 20) (o17 : BitVec 17) (inv : Bool) (p : Fin 16) (r : Fin 32) (c : SignCond),
     s.cur.delay = 0 →
     (∀ l ∈ s.curCtx.loops, l.fires s.cur.pc s.delays.1 = false ∧ l.fires s.delays.1 s.delays.2.1 = false ∧
       l.fires s.delays.2.1 s.delays.2.2 = false) →
     let v := (s.rs r).toInt
     let holds : Prop := match c with
       | .eqz => v = 0
       | .nez => v ≠ 0
       | .ltz => v < 0
       | .gez => 0 ≤ v
       | .gtz => 0 < v
       | .lez => v ≤ 0
     let far (s : State) (t : VAddr) (e : Bool) : State := s.modCur fun x => { x with xfer := some ⟨t, 2, true, e, s.cur.pc⟩ }
     exec (.br o24) s = .next (s.branches true (s.bundleAt o24.toInt)) ∧
     exec (.brp inv p o20) s = .next (s.branches (if inv then !s.rp p else s.rp p) (s.bundleAt o20.toInt)) ∧
     (holds → exec (.brs r c o17) s = .next (s.branches true (s.bundleAt o17.toInt))) ∧
     (¬ holds → exec (.brs r c o17) s = .next (s.branches false (s.bundleAt o17.toInt))) ∧
     exec (.bru o24) s = .next (s.branches (decide (s.curCtx.top = 0)) (s.bundleAt o24.toInt)) ∧
     exec (.call o24) s = .next (far (s.result 1 (.a 7 s.delays.2.2)) (s.bundleAt o24.toInt) false) ∧
     exec .ret s = .next (far s (s.ra 7) false) ∧
     exec .eret s = .next (far s s.curCtx.epc true)) ∧
  (∀ (s : State) (i : Instr), s.cur.delay ≠ 0 →
     (isTransfer i = true ∨ (∃ n k, i = .loop n k) ∨ (∃ r k, i = .loopReg r k)) →
     ∃ w, exec i s = .next (s.issueFault s.cur.tile s.cur.ctx ⟨1, 0, 2, w⟩))

/-- R42, R152, R155, R160: a LOOP count of zero skips the body, any other opens a level over it, if one of the two is free; HALT ends
the task and drops its pending results; YIELD declares the next run and offers the issue width; NOP does nothing. -/
def Obligations.LoopsHaltYieldNop : Prop :=
  (∀ (s : State) (n len : BitVec 12) (r : Fin 32), s.cur.delay = 0 →
     let b := if s.cur.safe then s.cur.pc + 64 else s.cur.pc + 32
     let skip := s.modCur fun c => { c with pc := b + BitVec.ofNat 48 (32 * len.toNat) }
     let opens (k : Word) := s.modCur fun c => { c with loops := ⟨k, b, len⟩ :: c.loops }
     (n = 0 → exec (.loop n len) s = .next skip) ∧
     (s.rs r = 0 → exec (.loopReg r len) s = .next skip) ∧
     (s.curCtx.loops.length < 2 → n ≠ 0 → exec (.loop n len) s = .next (opens (BitVec.ofNat 32 n.toNat))) ∧
     (s.curCtx.loops.length < 2 → s.rs r ≠ 0 → exec (.loopReg r len) s = .next (opens (s.rs r)))) ∧
  (∀ (s : State) (run : BitVec 20),
     exec .nop s = .next s ∧
     (∃ t, exec .halt s = .next t ∧ t.curCtx.st = .halted ∧ t.curCtx.pend = [] ∧ t.curCtx.loops = [] ∧
       t.curCtx.s = s.curCtx.s ∧ t.curTile.spm = s.curTile.spm) ∧
     (∃ t, exec (.yield run) s = .next t ∧ t.curCtx.rundecl = BitVec.ofNat 32 run.toNat ∧ t.curCtx.s = s.curCtx.s ∧
       t.curTile.arb = .choose s.now ∧ t.agenda.head? = some (.ev (.arbiterChoice s.cur.tile))))

/-- R111, R156, R157, R158: TRAP and a delivered fault save cause, pc and the bundle to go on with, set IT and go to TRAPV; with IT
set already, or TRAPV zero, the context stops. Registers and pending results stay. -/
def Obligations.TrapsAndFaultsEnter : Prop :=
  (∀ (s : State) (code : BitVec 16),
     let c := s.curCtx
     ∃ t, exec (.trap code) s = .next t ∧
       t.curCtx.cause = BitVec.ofNat 32 (11 + 2 ^ 8 + code.toNat * 2 ^ 16) ∧ t.curCtx.finfo = 0 ∧
       t.curCtx.fpc = s.cur.pc ∧ t.curCtx.epc = c.pc ∧ t.curCtx.s = c.s ∧ t.curCtx.pend = c.pend ∧
       (c.it = false ∧ c.trapv ≠ 0 → t.curCtx.pc = c.trapv ∧ t.curCtx.it = true ∧ t.curCtx.st = c.st) ∧
       (c.it = true ∨ c.trapv = 0 → t.curCtx.st = .stopped ∧ t.agenda.head? = some (.ev (.faultRecord s.cur.tile s.cur.ctx)))) ∧
  (∀ (s : State) (t : TileId) (c : Fin 4) (cause finfo : Word) (fpc epc : VAddr),
     let x := s.ctx t c
     let y := (s.raise t c cause finfo fpc epc).ctx t c
     y.cause = cause ∧ y.finfo = finfo ∧ y.fpc = fpc ∧ y.epc = epc ∧
     y.s = x.s ∧ y.a = x.a ∧ y.v = x.v ∧ y.m = x.m ∧ y.p = x.p ∧ y.stack = x.stack ∧ y.pend = x.pend ∧ y.tt = x.tt ∧
     (x.it = false → x.trapv ≠ 0 → y.it = true ∧ y.pc = x.trapv ∧ y.st = x.st) ∧
     (x.it = true ∨ x.trapv = 0 → y.st = .stopped ∧ y.it = x.it))

/-! ### Waits (R164 to R170) -/

/-- R164 to R168, R362, R363 to R366: a wait with a legal operand lets its bundle issue when its condition holds on the tile as it
stood; WAITS.D also subtracts; otherwise the context is held. On a tile with an upset word (R204) it does the same with the table
entry as its read corrects it, and counts that read: there the statement says only that the bundle passes or is held. -/
def Obligations.WaitsHoldOrPass : Prop :=
  (∀ (s : State) (k : Fin 16) (thr : BitVec 9) (v : BitVec 16) (tl : Fin 1024) (l h : Fin 32) (ch : Fin 256) (n : BitVec 8)
    (rg : Fin 8) (b : Fin 32) (st : BufState) (tag : BitVec 8),
    s.curTile.upsets = [] →
    let t := s.curTile
    let x := t.ctx s.cur.ctx
    let pass (p : Prop) [Decidable p] (s' : State) : Out := .next (if p then s' else s.holdWait)
    exec (.waitc k thr) s = pass (x.cnt[k].toNat < thr.toNat) s ∧
    exec (.waits k v) s = pass (v.toNat ≤ t.sems[k].toNat) s ∧
    exec (.waitsD k v) s = pass (v.toNat ≤ t.sems[k].toNat)
      (s.modCurTile fun t => { t with sems := vset t.sems k (BitVec.ofNat 16 (t.sems[k].toNat + 2 ^ 16 - v.toNat)) }) ∧
    exec (.waitt tl l h) s =
      pass ((alGet t.tls tl.val 0 - BitVec.ofNat 64 (x.s[h].toNat * 2 ^ 32 + x.s[l].toNat)).toNat < 2 ^ 63) s ∧
    ((t.chan ch).v = true → (t.chan ch).coll = false → n.toNat ≤ (t.chan ch).d.toNat →
      exec (.waitcr ch n) s = pass (n.toNat ≤ (t.chan ch).cr.toNat) s) ∧
    (t.rings[rg].v = true → n.toNat ≤ t.rings[rg].e →
      exec (.waitrg rg n) s = pass (n.toNat ≤ t.rings[rg].cnt.toNat) s ∧
      exec (.waitrgFree rg n) s =
        pass (n.toNat ≤ t.rings[rg].e - t.rings[rg].cnt.toNat - t.rings[rg].infl.toNat) s) ∧
    (t.bufs[b].v = true → exec (.waitb b st) s = pass (t.bufs[b].state = st) s) ∧
    (t.bufs[b].v = true → (t.bufs[b].tag - tag).toNat = 0 ∨ 128 ≤ (t.bufs[b].tag - tag).toNat →
      exec (.waitbTag b st tag) s = pass (t.bufs[b].state = st ∧ t.bufs[b].tag = tag)
        (s.modCur fun c => c.takeMasks s.cur.tt (MaskPub.covered b tag))) ∧
    (x.phase = false → exec .waitph s = .next s.holdWait) ∧
    (x.phase = true → ∃ t', exec .waitph s = .next t' ∧ t'.curCtx.pc = s.curCtx.pc ∧ t'.curCtx.held = s.curCtx.held)) ∧
  (∀ (s : State) (i : Instr), isWait i = true → waitCause s.curTile.tableView i = none →
    (∀ s', exec i s = .next s' → s'.curCtx.held = true ∨ s'.curCtx.held = s.curCtx.held) ∧
    (s.curTile.tableView.waitHolds s.cur.ctx i = false → ∃ s', exec i s = .next s' ∧ s'.curCtx.held = true ∧ s'.curCtx.pc = s.curCtx.pc))

/-- R169, R170, R362, R451: FENCE passes when every condition up to its scope holds, and for the system scope those of all four
contexts; PHASE clears the flag and leaves a marker behind the commands of each queue it names; the flag rises when it is due. -/
def Obligations.FencesAndPhases : Prop :=
  (∀ (s : State) (sc : Scope),
     let t := s.curTile.tableView
     let done (c : Fin 4) (n : Nat) : Prop :=
       (1 ≤ n → t.storesDone c = true) ∧ (2 ≤ n → ∀ l ∈ t.live, l.ctx ≠ c) ∧ (3 ≤ n → ∀ e ∈ t.chans, c ∉ e.2.out) ∧
       (5 ≤ n → (t.ctx c).wack = 0) ∧ (6 ≤ n → (t.ctx c).tlOut = 0)
     let holds : Prop := if sc = .system then ∀ c, done c 8 else done s.cur.ctx sc.code
     (¬ holds → exec (.fence sc) s = .next s.holdWait) ∧
     (holds → sc.code < 2 → exec (.fence sc) s = .next s) ∧
     (holds → ∃ t', exec (.fence sc) s = .next t' ∧ t'.curCtx.held = s.curCtx.held ∧ t'.curCtx.pc = s.curCtx.pc)) ∧
  (∀ (s : State) (eq : BitVec 3), ∃ t, exec (.phase eq) s = .next t ∧ t.curCtx.phase = false ∧
     ∀ q : Fin 3, eq.getLsbD q.val = true → (∃ l ∈ s.curTile.live, l.ctx = s.cur.ctx ∧ l.queue = q) →
       ∃ m ∈ t.curCtx.markers, m.queue = q ∧
         ∀ l ∈ s.curTile.live, l.ctx = s.cur.ctx → l.queue = q → l.id ∈ m.wait) ∧
  (∀ (s : State) (t : TileId) (c : Fin 4),
     ((s.ctx t c).phaseDue = true → ∃ s', exec (.phaseFlagSet t c) s = .next s' ∧ (s'.ctx t c).phase = true ∧
       { s'.ctx t c with phase := (s.ctx t c).phase, phaseDue := true } = s.ctx t c) ∧
     ((s.ctx t c).phaseDue = false → exec (.phaseFlagSet t c) s = .next s))

/-! ### CSRs (R108 to R116, R171) -/

/-- R107 to R116, R171: CSRR reads a CSR into s[d]; a low half captures its item, and the high half comes from the capture, or from the
item as it stands when the context has made none; what each CSR reads: the context's own, the tile's, the counters as they stood at the
end of the previous tick, the fuses', and, with no matrix command queued, the precision and mask registers. -/
def Obligations.CsrReads : Prop :=
  ∀ (s : State) (d : Fin 32) (c : Csr),
    (s.wide c = none → csrLow c = none → exec (.csrr d c) s = .next (s.result 1 (.s d (s.plainCsr c)))) ∧
    (∀ v, s.wide c = some v → ∃ t : State, exec (.csrr d c) s = .next (t.result 1 (.s d (BitVec.ofNat 32 v.toNat))) ∧
      (t.curCtx.caps.find? fun k => k.low == c) = some ⟨c, v⟩ ∧ { t.curCtx with caps := s.curCtx.caps } = s.curCtx) ∧
    (∀ l k, s.wide c = none → csrLow c = some l → (s.curCtx.caps.find? fun k => k.low == l) = some k →
      exec (.csrr d c) s = .next (s.result 1 (.s d (BitVec.ofNat 32 (k.val.toNat / 2 ^ 32))))) ∧
    (∀ l v, s.wide c = none → csrLow c = some l → (s.curCtx.caps.find? fun k => k.low == l) = none → s.wide l = some v →
      exec (.csrr d c) s = .next (s.result 1 (.s d (BitVec.ofNat 32 (v.toNat / 2 ^ 32))))) ∧
    (let x := s.curCtx
     let t := s.curTile
     let reads (c : Csr) (v : Word) : Prop := s.wide c = none ∧ csrLow c = none ∧ exec (.csrr d c) s = .next (s.result 1 (.s d v))
     let pair (a b : Nat) : Word := BitVec.ofNat 32 (a % 512 + 65536 * (b % 512))
     let ones (n v : Nat) : Nat := ((List.range n).filter fun i => v.testBit i).length
     reads .status x.status ∧ reads .round x.round ∧ reads .cause x.cause ∧ reads .finfo x.finfo ∧ reads .rundecl x.rundecl ∧
     reads .ovrcnt x.ovrcnt ∧ reads .walker x.walker ∧ reads .launch x.launch ∧ reads .lorg x.lorg ∧ reads .lext x.lext ∧
     reads .rank x.rank ∧ reads .txy (pair (tileX s.cur.tile) (tileY s.cur.tile)) ∧ reads .mxown (t.mxownPrev.setWidth 32) ∧
     reads .decay t.decay ∧ reads .grid (pair s.fuses.gx s.fuses.gy) ∧
     reads .cfg (BitVec.ofNat 32 (ones 64 s.fuses.stkmap.toNat + 256 * ones 16 s.fuses.portmap.toNat + 65536 * s.fuses.bin.toNat)) ∧
     reads .portmap (s.fuses.portmap.setWidth 32) ∧ (∀ i, reads (.err i) t.errPrev[i]) ∧ (∀ i, reads (.pmc i) t.pmcPrev[i]) ∧
     (∀ i, reads (.pmsel i) t.pmselPrev[i]) ∧
     (t.mxq = [] → t.mxRun = none → reads .precv t.prec ∧ s.wide .rowpl = some t.rowp ∧
       ∀ i : Fin 4, reads (.colp i) (t.colp.extractLsb' (32 * i.val) 32))) ∧
    (let x := s.curCtx
     let item (l h : Csr) (v : Nat) : Prop := s.wide l = some (BitVec.ofNat 64 v) ∧ s.wide h = none ∧ csrLow h = some l
     item .fpcl .fpch x.fpc.toNat ∧ item .epcl .epch (x.epc.toNat / 32 * 32) ∧ item .trapvl .trapvh (x.trapv.toNat / 32 * 32) ∧
     item .ttickl .ttickh s.cur.tt ∧ item .hbasel .hbaseh x.hbase.toNat ∧ item .hlimitl .hlimith x.hlimit.toNat ∧
     item .hoffsetl .hoffseth x.hoffset.toNat ∧ item .ctimel .ctimeh s.now ∧ item .stkmapl .stkmaph s.fuses.stkmap.toNat ∧
     csrLow .rowph = some .rowpl ∧ s.wide .rowph = none)

/-- R108 to R110, R114, R116, R157, R171: what CSRW, CSRSET and CSRCLR do to every writable register, a counter from its value at the
end of the previous tick; STATUS only loses bits of [6:0]; the owner's CSRCLR of MXOWN bit 2 asks for the release, and no other
write changes MXOWN; a write that names a read-only register does not decode; the release frees the array and changes nothing
else. -/
def Obligations.CsrWritesAndRelease : Prop :=
  (∀ (s : State) (r : Fin 32) (f : Csr → Instr) (op : Word → Word),
     let v := s.rs r
     f = .csrw r ∧ op = (fun _ => v) ∨ f = .csrset r ∧ op = (fun old => old ||| v) ∨ f = .csrclr r ∧ op = (fun old => old &&& ~~~v) →
     let low (old : VAddr) : VAddr := BitVec.ofNat 48 (old.toNat / 2 ^ 32 * 2 ^ 32 + (op (BitVec.ofNat 32 old.toNat)).toNat / 32 * 32)
     let high (old : VAddr) : VAddr := BitVec.ofNat 48 ((op (BitVec.ofNat 32 (old.toNat / 2 ^ 32))).toNat % 2 ^ 16 * 2 ^ 32 + old.toNat % 2 ^ 32)
     exec (f .round) s = .next (s.modCur fun x => { x with round := op x.round &&& 3 }) ∧
     exec (f .ovrcnt) s = .next (s.modCur fun x => { x with ovrcnt := op x.ovrcnt &&& 0xFFFF }) ∧
     exec (f .trapvl) s = .next (s.modCur fun x => { x with trapv := low x.trapv }) ∧
     exec (f .trapvh) s = .next (s.modCur fun x => { x with trapv := high x.trapv }) ∧
     (f = .csrw r → exec (f .epcl) s = .next (s.modCur fun x => { x with epc := low x.epc, pxfr := none })) ∧
     (f ≠ .csrw r → exec (f .epcl) s = .next (s.modCur fun x => { x with epc := low x.epc })) ∧
     exec (f .epch) s = .next (s.modCur fun x => { x with epc := high x.epc }) ∧
     exec (f .decay) s = .next (s.modCurTile fun t => { t with decay := op t.decay }) ∧
     (∀ i : Fin 10, ∃ t, exec (f (.err i)) s = .next t ∧ t.curTile.err[i] = op s.curTile.errPrev[i] ∧
       (∀ j, j ≠ i → t.curTile.err[j] = s.curTile.err[j]) ∧ t.curCtx = s.curCtx) ∧
     (∀ i : Fin 8, ∃ t, exec (f (.pmc i)) s = .next t ∧ t.curTile.pmc[i] = op s.curTile.pmcPrev[i] ∧
       (∀ j, j ≠ i → t.curTile.pmc[j] = s.curTile.pmc[j]) ∧ t.curCtx = s.curCtx) ∧
     (∀ i : Fin 8, ∃ t, exec (f (.pmsel i)) s = .next t ∧ t.curTile.pmsel[i] = op s.curTile.pmsel[i] &&& 0xFF ∧
       (∀ j, j ≠ i → t.curTile.pmsel[j] = s.curTile.pmsel[j]) ∧ t.curCtx = s.curCtx) ∧
     ∀ c, c.readOnly = true → decodeCtl (encode (f c)) = none) ∧
  (∀ (s : State) (r : Fin 32),
     let v := s.rs r
     exec (.csrw r .status) s = .next (s.modCur fun x => { x with status := x.status &&& (v ||| 0xFFFFFF80) }) ∧
     exec (.csrset r .status) s = .next (s.modCur fun x => x) ∧
     exec (.csrclr r .status) s = .next (s.modCur fun x => { x with status := x.status &&& ~~~(v &&& 0x7F) })) ∧
  (∀ (s : State) (r : Fin 32),
     (s.curTile.ownV = true → s.curTile.own = s.cur.ctx → (s.rs r).getLsbD 2 = true →
       exec (.csrclr r .mxown) s = .next (s.modCurTile fun t => { t with ownRel := true })) ∧
     (∀ i, i = .csrw r .mxown ∨ i = .csrset r .mxown ∨ (i = .csrclr r .mxown ∧
         ((s.rs r).getLsbD 2 = false ∨ s.curTile.ownV = false ∨ s.curTile.own ≠ s.cur.ctx)) →
       exec i s = .next (s.modCurTile id)) ∧
     ∀ t, ∃ s', exec (.mxownRelease t) s = .next s' ∧ s'.tile t = { s.tile t with ownV := false, ownRel := false } ∧
       (∀ u, u ≠ t → s'.tile u = s.tile u) ∧ s.sameButTiles s')

/-- R172, R174, R203: BLK opens a window on its groups from the next tick; PREF, PIN and UNPIN only touch the two levels of code
storage and the requests for their lines; each acts on its LINES + 1 lines in turn: a line that does not translate, a request
beyond four outstanding, and a pin that has no room are counted, a line that is there is pinned or unpinned, another is asked for. -/
def Obligations.CodePlacementAndLock : Prop :=
  (∀ (s : State) (grp : BitVec 8) (n : BitVec 4) (lvl : Bool) (ab : Fin 8) (k : BitVec 8),
    exec (.blk grp n) s =
      .next (s.modCurTile fun t => { t with lock := some ⟨grp, n.toNat + 1, s.cur.ctx, s.now + 1, none⟩ }) ∧
    (∀ i, i = .pref lvl ab k ∨ i = .pin lvl ab k ∨ i = .unpin lvl ab k → ∃ t, exec i s = .next t ∧
      { t.curTile with icache := s.curTile.icache, region := s.curTile.region, code := s.curTile.code,
                       codeHeld := s.curTile.codeHeld, pmc := s.curTile.pmc } = s.curTile ∧
      (i = .unpin lvl ab k → t.curTile.code = s.curTile.code) ∧
      (i = .pref lvl ab k → t.curTile.icache = s.curTile.icache)) ∧
    let line (j : Nat) : VAddr := BitVec.ofNat 48 ((s.ra ab).toNat / 256 * 256 + 256 * j)
    (∀ i pin, (i = .pref lvl ab k ∧ pin = false) ∨ (i = .pin lvl ab k ∧ pin = true) → ∃ t ready, exec i s = .next t ∧ s.now < ready ∧
      t.curTile = ((List.range (k.toNat + 1)).foldl (fun u j => u.askLine s.cur.tile s.cur.ctx lvl pin ready (line j)) s).curTile) ∧
    ∃ t, exec (.unpin lvl ab k) s = .next t ∧ t.curTile = (List.range (k.toNat + 1)).foldl (fun u j =>
      u.unpinLine lvl ((s.codePa s.curTile s.curCtx (line j)).map (· / 256))) s.curTile) ∧
  (∀ (s : State) (t : TileId) (c : Fin 4) (lvl pin : Bool) (ready : Nat) (va : VAddr), let x := s.tile t
    let y := (s.askLine t c lvl pin ready va).tile t
    let full : Prop := 4 ≤ x.code.length + x.codeHeld.length
    let counted : Tile := x.event 0x11 1
    (s.lineXlate x (x.ctx c) va = none → y = counted) ∧
    (∀ pa res, s.lineXlate x (x.ctx c) va = some (pa, res, true) →
      (full → y = counted) ∧ (¬ full → y = { x with codeHeld := x.codeHeld ++ [⟨c, va, lvl, pin⟩] })) ∧
    ∀ pa res, s.lineXlate x (x.ctx c) va = some (pa, res, false) →
      let l := pa / 256
      let slot := x.region[lineSlot l]
      let asks : Prop := (∀ r ∈ x.code, ¬ (r.region = lvl ∧ r.line = l)) →
        (full → y = counted) ∧ (¬ full → y = { x with code := x.code ++ [⟨lvl, l, pin, ready, none, false, !res⟩] })
      (lvl = false → (∀ w ∈ x.icache, w.tag ≠ l) → asks) ∧
      (lvl = false → (∃ w ∈ x.icache, w.tag = l) →
        let others := (x.icache.filter fun w => w.tag % 8 == l % 8 && w.pinned && w.tag != l).length
        (pin = false → y = x) ∧ (pin = true → 3 ≤ others → y = counted) ∧
        (pin = true → others < 3 →
          y = { x with icache := x.icache.map fun w => if w.tag = l then { w with pinned := true } else w })) ∧
      (lvl = true → (slot.valid = false ∨ slot.tag ≠ l) →
        (slot.valid = true → slot.pinned = true → y = counted) ∧ (slot.valid = false ∨ slot.pinned = false → asks)) ∧
      (lvl = true → slot.valid = true → slot.tag = l →
        (pin = false → y = x) ∧ (pin = true → y.region[lineSlot l] = { slot with pinned := true } ∧
          (∀ j, j ≠ lineSlot l → y.region[j] = x.region[j]) ∧ y.code = x.code))) ∧
  ∀ (x : Tile) (l : Nat), x.unpinLine false none = x.event 0x11 1 ∧ x.unpinLine true none = x.event 0x11 1 ∧
    x.unpinLine false (some l) = { x with icache := x.icache.map fun w => if w.tag = l then { w with pinned := false } else w } ∧
    (let slot := x.region[lineSlot l]
     let y := x.unpinLine true (some l)
     (slot.valid = true → slot.tag = l → y.region[lineSlot l] = { slot with pinned := false } ∧
       ∀ j, j ≠ lineSlot l → y.region[j] = x.region[j]) ∧
     (slot.valid = false ∨ slot.tag ≠ l → y = x))

/-! ### LD and ST slots (R219 to R226) -/

/-- R30, R48, R51, R219, R220, R222, R223: a load whose bytes pass the buffer check leaves one read for the next tick, due after
its latency. That LDVS and LDVX align the base first and then each lane is the model's reading (log 74). -/
def Obligations.LoadsIssue : Prop :=
  ∀ (s : State) (d b st : Fin 32) (vd vi : Fin 16) (md q : Fin 8) (off : BitVec 11) (o6 : BitVec 6) (bs : List SlotByte),
    let t := s.curTile
    let base := (s.rs b).toNat
    let at_ (n : Nat) : List Nat := span ((((base : Int) + off.toInt * n) % 65536).toNat / n * n) n
    let lanes (f : Fin 32 → Nat) : List Nat := (List.finRange 32).flatMap fun k => span (f k) 4
    let row := (((base : Int) + off.toInt * 128) % 65536).toNat / 128 * 128
    let word := (((base : Int) + o6.toInt * 4) % 65536).toNat / 4 * 4
    let waits (k : Nat) (lat : Nat) (kind : ReadKind) (slot : Nat) (i : Instr) : Prop :=
      exec i s = .next (s.withRead ⟨s.now + k, s.cur.ctx, s.cur.tt, slot, s.cur.tt + lat, bs, kind⟩)
    (t.slotBytes 3 false (at_ 1) = .ok bs →
      waits 1 3 (.scalar d 1 true) 3 (.ldb d b off) ∧ waits 1 3 (.scalar d 1 false) 3 (.ldbu d b off)) ∧
    (t.slotBytes 3 false (at_ 2) = .ok bs →
      waits 1 3 (.scalar d 2 true) 3 (.ldh d b off) ∧ waits 1 3 (.scalar d 2 false) 3 (.ldhu d b off)) ∧
    (t.slotBytes 3 false (at_ 4) = .ok bs →
      waits 1 3 (.scalar d 4 false) 3 (.ldw d b off) ∧ waits 1 4 (.mask md) 3 (.ldm md b off)) ∧
    (t.slotBytes 3 false (lanes fun k => (row + 4 * k.val) % 65536) = .ok bs → waits 1 4 (.vec vd) 3 (.ldv vd b off)) ∧
    (t.slotBytes 3 false (lanes fun k => (((word : Int) + k.val * (s.rs st).toInt) % 65536).toNat / 4 * 4) = .ok bs →
      waits 1 4 (.vec vd) 3 (.ldvs vd b st o6)) ∧
    (t.slotBytes 3 false (lanes fun k => (word + (s.rv vi)[k].toNat % 65536) % 65536 / 4 * 4) = .ok bs → waits 1 6 (.vec vd) 3 (.ldvx vd b vi o6)) ∧
    (t.slotBytes 2 false (span row 512) = .ok bs → waits 1 4 (.scale q) 2 (.ldq q b off))

/-- R51, R184, R219, R220, R223 to R226: a store whose bytes pass the buffer check leaves its bytes for issue + 2, a word's low byte
first; LDACC, which takes the row as the array's owner sees it at issue, STACC and the atomics leave their accesses for the ticks the
spec gives; every LD and ST instruction without a buffer-state fault completes, with one access to come and no register or byte
changed yet. That LDVS, LDVX, STVS and STVX align the base first and then each lane is the model's reading (log 74). -/
def Obligations.StoresIssue : Prop :=
  (∀ (s : State) (r b st : Fin 32) (vs vi : Fin 16) (m : Fin 8) (off : BitVec 11) (o6 : BitVec 6) (bs : List SlotByte),
     let t := s.curTile
     let base := (s.rs b).toNat
     let x := s.rv vs
     let bytes (w : Word) (n : Nat) : List Byte := (List.range n).map fun i => BitVec.ofNat 8 (w.toNat / 256 ^ i)
     let at_ (off : Int) (n : Nat) : List Nat := span ((((base : Int) + off * n) % 65536).toNat / n * n) n
     let row := (((base : Int) + off.toInt * 128) % 65536).toNat / 128 * 128
     let row6 := (((base : Int) + o6.toInt * 128) % 65536).toNat / 128 * 128
     let word := (((base : Int) + o6.toInt * 4) % 65536).toNat / 4 * 4
     let lanes (f : Fin 32 → Nat) : List (Nat × Byte) := (List.finRange 32).flatMap fun k => (span (f k) 4).zip (bytes x[k] 4)
     let writes (data : List (Nat × Byte)) (i : Instr) : Prop :=
       t.slotBytes 4 true (data.map Prod.fst) = .ok bs →
         exec i s = .next (s.withStore ⟨s.now + 2, s.cur.ctx, s.cur.tt, 2, bs.zip (data.map Prod.snd)⟩)
     writes ((at_ off.toInt 1).zip (bytes (s.rs r) 1)) (.stb r b off) ∧
     writes ((at_ off.toInt 2).zip (bytes (s.rs r) 2)) (.sth r b off) ∧
     writes ((at_ off.toInt 4).zip (bytes (s.rs r) 4)) (.stw r b off) ∧
     writes (lanes fun k => (row + 4 * k.val) % 65536) (.stv vs b off) ∧
     writes ((List.finRange 32).flatMap fun k => if (s.rm m).getLsbD k.val then (span ((row6 + 4 * k.val) % 65536) 4).zip (bytes x[k] 4) else [])
       (.stvm vs b m o6) ∧
     writes (lanes fun k => (((word : Int) + k.val * (s.rs st).toInt) % 65536).toNat / 4 * 4) (.stvs vs b st o6) ∧
     writes (lanes fun k => (word + (s.rv vi)[k].toNat % 65536) % 65536 / 4 * 4) (.stvx vs b vi o6)) ∧
  (∀ (s : State) (row : Fin 64) (d b x : Fin 32) (off : BitVec 10) (op : AmoOp) (bs : List SlotByte),
     let t := s.curTile
     let base := (s.rs b).toNat
     let at_ := (((base : Int) + off.toInt * 128) % 65536).toNat / 128 * 128
     (t.slotBytes 3 true (span at_ 512) = .ok bs → exec (.ldacc row b off) s = .next (s.modCurTile fun t =>
       { t with ldaccs := t.ldaccs ++ [⟨s.now + 1, s.cur.ctx, s.cur.tt, row,
           if t.ownV = true ∧ t.own = s.cur.ctx then some t.acm[row].entries else none, bs⟩] })) ∧
     (t.slotBytes 4 false (span at_ 512) = .ok bs →
       exec (.stacc row b off) s = .next (s.withRead ⟨s.now + 1, s.cur.ctx, s.cur.tt, 4, s.cur.tt, bs, .stacc row⟩)) ∧
     (t.slotBytes 4 true (span (base % 65536 / 4 * 4) 4) = .ok bs →
       exec (.amo op d b x) s = .next (s.withRead ⟨s.now + 2, s.cur.ctx, s.cur.tt, 4, s.cur.tt + 3, bs, .amo d op (s.rs x)⟩) ∧
       exec (.cas d b x) s =
         .next (s.withRead ⟨s.now + 2, s.cur.ctx, s.cur.tt, 4, s.cur.tt + 3, bs, .cas d (s.rs x) (s.rs d)⟩))) ∧
  (∀ (s : State) (i : Instr), i.home = .ld ∨ i.home = .st → memCause i s = none → ∃ t, exec i s = .next t ∧
     (∀ c, t.ctx s.cur.tile c = s.ctx s.cur.tile c) ∧ t.curTile.spm = s.curTile.spm ∧ t.curTile.acm = s.curTile.acm ∧
     t.curTile.reads.length + t.curTile.writes.length + t.curTile.ldaccs.length =
       s.curTile.reads.length + s.curTile.writes.length + s.curTile.ldaccs.length + 1)

/-- R188, R220, R373: what the check of an access answers. A byte in a shadow window is a buffer-state fault that names the
lowest-numbered buffer whose shadow window holds it; else a byte in a front window belongs to the lowest-numbered buffer whose front
window holds it, a write to it faults while that buffer is DRAINING, and it lies in the half that FH names as the byte performs; any
other byte is itself. An access passes when all its bytes pass, and fails on the first that does not; the instruction then raises the
fault and makes no access. -/
def Obligations.BufferWindowFaults : Prop :=
  (∀ (t : Tile) (slot : Nat) (wr : Bool) (a : Nat), t.upsets = [] →
     let base (b : Fin 32) : Nat := t.bufs[b].base.toNat * 128
     let size (b : Fin 32) : Nat := (t.bufs[b].size.toNat + 1) * 128
     let front (b : Fin 32) : Prop := t.bufs[b].v = true ∧ base b ≤ a ∧ a < base b + size b
     let shadow (b : Fin 32) : Prop := t.bufs[b].v = true ∧ base b + size b ≤ a ∧ a < base b + 2 * size b
     (∀ b, shadow b → (∀ c, c < b → ¬ shadow c) → t.slotBytes slot wr [a] = .error ⟨5, slot, 0, fiBuffer b.val t.bufs[b].state true a⟩) ∧
     ((∀ c, ¬ shadow c) →
       (∀ b, front b → (∀ c, c < b → ¬ front c) →
         (wr = true → t.bufs[b].state = .draining → t.slotBytes slot wr [a] = .error ⟨5, slot, 0, fiBuffer b.val .draining false a⟩) ∧
         (wr = false ∨ t.bufs[b].state ≠ .draining → ∃ e, t.slotBytes slot wr [a] = .ok [e] ∧
           ∀ u : Tile, u.place e = if u.bufs[b].fh = true then (a + size b) % 65536 else a)) ∧
       ((∀ c, ¬ front c) → ∃ e, t.slotBytes slot wr [a] = .ok [e] ∧ ∀ u : Tile, u.place e = a))) ∧
  (∀ (t : Tile) (slot : Nat) (wr : Bool) (as : List Nat),
     (∀ bs, t.slotBytes slot wr as = .ok bs ↔ as.map (fun a => t.slotBytes slot wr [a]) = bs.map fun e => .ok [e]) ∧
     (∀ f, t.slotBytes slot wr as = .error f ↔ ∃ l a r, as = l ++ a :: r ∧ t.slotBytes slot wr [a] = .error f ∧
       ∀ x ∈ l, ∃ e, t.slotBytes slot wr [x] = .ok [e])) ∧
  (∀ (t : Tile) (slot : Nat) (wr : Bool) (as : List Nat) (a : Nat) (b : Fin 32), t.upsets = [] → a ∈ as → t.bufs[b].v = true →
     inSpan a (t.bufs[b].b + t.bufs[b].s) t.bufs[b].s = true ∨
       (wr = true ∧ t.bufs[b].state = .draining ∧ inSpan a t.bufs[b].b t.bufs[b].s = true ∧
         ∀ c : Fin 32, c < b → t.bufs[c].v = true → inSpan a t.bufs[c].b t.bufs[c].s = false) →
     ∃ f, t.slotBytes slot wr as = .error f) ∧
  (∀ (t : Tile) (slot : Nat) (wr : Bool) (as : List Nat) (f : Cause), t.slotBytes slot wr as = .error f →
     ∃ a ∈ as, ∃ b : Fin 32, t.bufs[b].v = true ∧ f.code = 5 ∧ f.slot = slot ∧
       ((inSpan a (t.bufs[b].b + t.bufs[b].s) t.bufs[b].s = true ∧ f.finfo = fiBuffer b.val t.bufs[b].state true a) ∨
         (wr = true ∧ t.bufs[b].state = .draining ∧ inSpan a t.bufs[b].b t.bufs[b].s = true ∧
           f.finfo = fiBuffer b.val .draining false a))) ∧
  (∀ (s : State) (d b : Fin 32) (off : BitVec 11) (f : Cause),
     let at_ := span (((((s.rs b).toNat : Int) + off.toInt * 4) % 65536).toNat / 4 * 4) 4
     (s.curTile.slotBytes 3 false at_ = .error f → exec (.ldw d b off) s = .next (s.issueFault s.cur.tile s.cur.ctx f)) ∧
     (s.curTile.slotBytes 4 true at_ = .error f → exec (.stw d b off) s = .next (s.issueFault s.cur.tile s.cur.ctx f))) ∧
  (∀ (s : State) (i : Instr) (f : Cause), i.home = .ld ∨ i.home = .st → memCause i s = some f →
     exec i s = .next (s.issueFault s.cur.tile s.cur.ctx f))

/-- R6, R51, R180, R184, R222, R224, R225: a store that performs writes its bytes and no others; a load returns the bytes as they stood
at the end of the previous tick, least significant first, sign-extended by LDB and LDH; a STACC reads its 512 bytes and replaces the
row's entries one tick later, which makes a clear row INT32 saturating with FT 0; an LDACC writes its row's raw entries three
ticks after it reads them. -/
def Obligations.AccessesPerform : Prop :=
  (∀ (t : Tile) (now : Nat) (w : PendWrite), t.reads = [] → t.staccs = [] → t.ldaccs = [] → t.writes = [w] → w.tick ≤ now →
     (∀ e ∈ w.data, e.1.buf = none ∧ e.1.addr < 65536) → t.spm.wf = true →
     (∀ a, (∀ e ∈ w.data, e.1.addr ≠ a) → (t.perform now).spm.read a = t.spm.read a) ∧
     (∀ l e r, w.data = l ++ e :: r → (∀ x ∈ r, x.1.addr ≠ e.1.addr) → (t.perform now).spm.read e.1.addr = e.2) ∧
     (t.perform now).writes = [] ∧ (t.perform now).acm = t.acm) ∧
  (∀ (t : Tile) (now : Nat) (r : PendRead) (d : Fin 32) (n : Nat) (sg : Bool), t.reads = [r] → t.staccs = [] → t.ldaccs = [] →
     t.writes = [] → t.upsets = [] → (t.ctx r.ctx).hist = [] → (t.ctx r.ctx).st = .active → r.tick ≤ now →
     r.kind = .scalar d n sg → (n = 1 ∨ n = 2 ∨ n = 4) → r.bytes.length = n → (∀ b ∈ r.bytes, b.buf = none) →
     let v := leNat (r.bytes.map fun b => t.spmPrev.read b.addr)
     let w : Word := if sg = true ∧ 2 ^ (8 * n - 1) ≤ v then BitVec.ofInt 32 ((v : Int) - 2 ^ (8 * n)) else BitVec.ofNat 32 v
     ((t.perform now).ctx r.ctx).pend = insertCommit ⟨r.due, r.tt, r.slot, .s d w⟩ (t.ctx r.ctx).pend ∧
     (t.perform now).spm = t.spm ∧ (t.perform now).reads = []) ∧
  (∀ (t : Tile) (now : Nat) (r : PendRead) (row : Fin 64), t.reads = [r] → t.staccs = [] → t.ldaccs = [] → t.writes = [] →
     t.upsets = [] → (t.ctx r.ctx).hist = [] → r.tick ≤ now → r.kind = .stacc row → r.bytes.length = 512 →
     (∀ b ∈ r.bytes, b.buf = none) →
     ∃ p, (t.perform now).staccs = [p] ∧ p.tick = now + 1 ∧ p.ctx = r.ctx ∧ p.row = row ∧ (t.perform now).spm = t.spm ∧
       ∀ n : Fin 128, p.entries[n].toNat =
         leNat (((r.bytes.map fun b => t.spmPrev.read b.addr).drop (4 * n.val)).take 4)) ∧
  (∀ (t : Tile) (now : Nat) (p : PendStacc), t.staccs = [p] → p.tick ≤ now → t.upsets = [] →
     let u := t.performStaccs now
     let r := u.acm[p.row]
     r.entries = p.entries ∧ r.pend = t.acm[p.row].pend ∧ u.staccs = [] ∧ u.spm = t.spm ∧
     (t.acm[p.row].mode = .clear → r.mode = .i32sat ∧ r.ft = 0) ∧
     (t.acm[p.row].mode ≠ .clear → r.mode = t.acm[p.row].mode ∧ r.ft = t.acm[p.row].ft) ∧
     ∀ k, k ≠ p.row → u.acm[k] = t.acm[k]) ∧
  (∀ (t : Tile) (now : Nat) (p : PendLdacc), t.reads = [] → t.staccs = [] → t.ldaccs = [p] → t.writes = [] → t.upsets = [] →
     p.tick ≤ now → p.bytes.length = 512 →
     let e : Row := match p.img with
       | some v => v
       | none => t.acm[p.row].entries
     ∃ w, (t.perform now).writes = [w] ∧ w.tick = now + 3 ∧ w.ctx = p.ctx ∧ w.data.map Prod.fst = p.bytes ∧
       (t.perform now).spm = t.spm ∧ (t.perform now).acm = t.acm ∧
       ∀ (n : Fin 128) (k : Nat), k < 4 →
         (w.data.map Prod.snd)[4 * n.val + k]? = some (BitVec.ofNat 8 (e[n].toNat / 256 ^ k)))

/-! ### Engine slots (R227, R248, R271) -/

/-- R36, R114, R248, R252: a matrix instruction of the array's owner joins the MXU queue with what it captures at issue; one of
another context is discarded and counted; one that finds eight queued is an overflow fault. -/
def Obligations.MatrixInstructionsQueue : Prop :=
  (∀ (s : State) (r dst : Fin 32) (v : Fin 16) (dl : BitVec 8) (rg q : Fin 8) (h wp : Fin 2) (ta k : Bool) (ctl : AccCtl)
     (first cnt : Fin 64) (fmt : DrainFmt),
     s.curTile.ownV = true → s.curTile.own = s.cur.ctx → s.curTile.mxq.length < 8 →
     s.queuesMatrix (exec (.prec r) s) (.prec (s.rs r)) ∧
     s.queuesMatrix (exec (.pmaskRow v) s) (.pmaskRow (BitVec.ofNat 64 ((s.rv v)[0].toNat + (s.rv v)[1].toNat * 2 ^ 32))) ∧
     s.queuesMatrix (exec (.pmaskCol v) s) (.pmaskCol (BitVec.ofNat 128
       ((s.rv v)[0].toNat + (s.rv v)[1].toNat * 2 ^ 32 + (s.rv v)[2].toNat * 2 ^ 64 + (s.rv v)[3].toNat * 2 ^ 96))) ∧
     s.queuesMatrix (exec .wswap s) .wswap ∧
     s.queuesMatrix (exec (.wld dl rg wp ta) s) (.wld dl rg wp ta) ∧
     s.queuesMatrix (exec (.mma dl rg h ctl wp ta) s) (.mma dl rg h ctl wp ta s.curTile.decay
       (s.curTile.scale s.cur.ctx s.now (Fin.ofNat 8 (2 * wp.val))) (s.curTile.scale s.cur.ctx s.now (Fin.ofNat 8 (2 * wp.val + 1)))) ∧
     s.queuesMatrix (exec (.aclr first cnt) s) (.aclr first cnt) ∧
     s.queuesMatrix (exec (.ascl first cnt q) s) (.ascl first cnt (s.curTile.scale s.cur.ctx s.now q)) ∧
     s.queuesMatrix (exec (.adrn first cnt dst k fmt) s) (.adrn first cnt dst k fmt)) ∧
  (∀ (s : State) (i : Instr), i.home = .mxu →
     (¬ (s.curTile.ownV = true ∧ s.curTile.own = s.cur.ctx) →
       exec i s = .next (s.modCurTile fun t => t.count mxNotown 1)) ∧
     (s.curTile.ownV = true → s.curTile.own = s.cur.ctx → 8 ≤ s.curTile.mxq.length →
       exec i s = .next (s.issueFault s.cur.tile s.cur.ctx ⟨6, 6, 0, 0⟩)))

/-- R37, R38, R227 to R229, R238, R239, R240, R361: a copy joins the copy queue with its descriptor and address as they stand at
issue, and BDCL, BREL, PUBLISH and REQPG join it; counters rise as the guard allows; a PUBLISH that names a mask register owes it
the residency map; a captured MMA joins the MXU queue held by its copy, or is discarded and counted when its context does not own the
array; a STATIC copy that the check of R229 refuses is a precise copy-refusal fault, one that it passes keeps its translations, each of a
page whose latency class promises the bytes within the arrival offset. -/
def Obligations.CopyInstructionsQueue : Prop :=
  (∀ (s : State) (c : CopyOps), c.st = false → c.f = false → s.curTile.cpq.length < 8 →
     (c.t = true → s.curCtx.cnt[c.cn] ≠ 255) →
     let tag := if c.t then some c.cn else none
     let op (f : CopyForm) : CopyOp := .copy f c.buf (s.rs c.rs) (s.rs (c.rs + 1)) (s.ra c.ab) false
     s.queuesCopy (exec (.cpy c) s) (op .cpy) tag false ∧
     s.queuesCopy (exec (.cpyg c) s) (op .cpyg) tag false ∧
     s.queuesCopy (exec (.cpyx c) s) (op .cpyx) tag false ∧
     (s.curCtx.wack ≠ 0xFFFF → s.queuesCopy (exec (.cpyo c) s) (op .cpyo) tag true)) ∧
  (∀ (s : State) (b r : Fin 32) (mk ab : Fin 8) (cn : Fin 16) (t : Bool), s.curTile.cpq.length < 8 →
     s.queuesCopy (exec (.bdcl b r) s) (.bdcl b (s.rs r)) none false ∧
     s.queuesCopy (exec (.brel b) s) (.brel b) none false ∧
     s.queuesCopy (exec (.publish b mk) s) (.publish b mk) none false ∧
     (mk ≠ 0 → ∃ u, exec (.publish b mk) s = .next u ∧
       u.curCtx.mpubs = s.curCtx.mpubs ++ [⟨s.curTile.nextId, b, mk, none, s.cur.tt⟩]) ∧
     (s.curCtx.cnt[cn] ≠ 255 → s.queuesCopy (exec (.reqpg ab r cn t) s) (.reqpg (s.ra ab) (s.rs r)) (if t then some cn else none) false)) ∧
  (∀ (s : State) (c : CopyOps) (form : CopyForm) (i : Instr) (dl : BitVec 8) (rg : Fin 8) (h wp : Fin 2) (ta : Bool) (ctl : AccCtl),
     (form = .cpy ∧ i = .cpy c) ∨ (form = .cpyg ∧ i = .cpyg c) ∨ (form = .cpyx ∧ i = .cpyx c) →
     c.st = false → c.f = true → s.cur.follow = some (.mma dl rg h ctl wp ta) → s.curTile.cpq.length < 8 →
     (c.t = true → s.curCtx.cnt[c.cn] ≠ 255) →
     ∃ t q, exec i s = .next t ∧ t.curTile.cpq = s.curTile.cpq ++ [q] ∧
       q.op = .copy form c.buf (s.rs c.rs) (s.rs (c.rs + 1)) (s.ra c.ab) false ∧ q.follow = true ∧ q.guard = s.cur.guard ∧
       (s.curTile.ownV = true ∧ s.curTile.own = s.cur.ctx → ∃ m, t.curTile.mxq = s.curTile.mxq ++ [m] ∧ m.held = true ∧
         m.heldBy = some q.id ∧ m.ctx = s.cur.ctx ∧ m.tt = s.cur.tt ∧ m.guard = s.cur.guard ∧
         m.op = .mma dl rg h ctl wp ta s.curTile.decay
           (s.curTile.scale s.cur.ctx s.now (Fin.ofNat 8 (2 * wp.val))) (s.curTile.scale s.cur.ctx s.now (Fin.ofNat 8 (2 * wp.val + 1)))) ∧
       (¬ (s.curTile.ownV = true ∧ s.curTile.own = s.cur.ctx) → t.curTile.mxq = s.curTile.mxq ∧
         (s.curTile.errLock = 0 → t.curTile.err[mxNotown] = addSat32 s.curTile.err[mxNotown] 1))) ∧
  ∀ (s : State) (c : CopyOps) (form : CopyForm) (i : Instr),
    (form = .cpy ∧ i = .cpy c) ∨ (form = .cpyg ∧ i = .cpyg c) ∨ (form = .cpyx ∧ i = .cpyx c) ∨
      (form = .cpyo ∧ i = .cpyo c ∧ s.curCtx.wack ≠ 0xFFFF) →
    c.st = true → c.f = false → s.curTile.cpq.length < 8 → (c.t = true → s.curCtx.cnt[c.cn] ≠ 255) → s.cur.guard = .yes →
    let d0 := s.rs c.rs
    let d1 := s.rs (c.rs + 1)
    let at_ := s.ra c.ab
    let check := s.staticCheck s.curTile s.cur.ctx none form c.buf d0 d1 at_ []
    (∀ rsn lvl x, check = .fault rsn lvl x → exec i s = .next (s.issueFault s.cur.tile s.cur.ctx (causeCopy 7 rsn lvl x))) ∧
    (∀ xl, check = .ok xl → ∃ t q, exec i s = .next t ∧ t.curTile.cpq = s.curTile.cpq ++ [q] ∧
      q.op = .copy form c.buf d0 d1 at_ true ∧ q.xl = xl ∧ q.follow = false) ∧
    (form = .cpyg ∨ form = .cpyo → check = .fault 6 0 0) ∧
    ∀ xl, check = .ok xl → s.curTile.walks = [] → let n := heapBytes form d1 (s.curTile.copyBytes c.buf d0)
      ∀ a ∈ s.curCtx.spanPoints at_.toNat n, ∃ e ∈ xl, e.vbase ≤ a ∧ a < e.vbase + e.size ∧ e.lc ≠ 0 ∧
        192 * 2 ^ e.lc.toNat + 43 * (pieces at_.toNat n - 1) ≤ d0.toNat / 2 ^ 16 % 32768

/-- R271, R273, R289 to R297, R342: the channel instructions join the channel queue and the ledger, and raise their tagged counter when
their guard is resolved; a SEND, SENDR or SIG whose guard is resolved takes a credit of its channel, or is counted as waiting for one;
one whose guard is not takes none yet. -/
def Obligations.ChannelInstructionsQueue : Prop :=
  (∀ (s : State) (m : MsgOps) (op : ReduceOp) (rg : Fin 8) (n : BitVec 8) (ch sw : Fin 256) (sem : Fin 16) (tl : Fin 1024) (r : Fin 32),
     s.curTile.chq.length < 8 → (m.t = true → s.curCtx.cnt[m.cn] ≠ 255) →
     (∀ q ∈ s.curTile.chq, q.id ≠ s.curTile.nextId) →
     let tag := if m.t then some m.cn else none
     let credits (i : Instr) (ch : Fin 256) : Prop := s.curTile.upsets = [] → let w := s.curTile.chan ch
       ∃ t q, exec i s = .next t ∧ t.curTile.chq = s.curTile.chq ++ [q] ∧ (∀ k, k ≠ ch → t.curTile.chan k = s.curTile.chan k) ∧
         (s.cur.guard ≠ .yes → t.curTile.chans = s.curTile.chans) ∧
         (s.cur.guard = .yes → w.v = true → w.coll = false →
           (w.cr ≠ 0 → q.has = true ∧ t.curTile.chan ch = { w with cr := w.cr - 1, rsv := w.rsv + 1 }) ∧
           (w.cr = 0 → q.has = false ∧ t.curTile.chan ch = { w with df := w.df + 1 }))
     s.queuesChannel (exec (.send m) s) (.send m) tag false ∧ credits (.send m) m.ch ∧
     s.queuesChannel (exec (.sendr m op) s) (.sendr m op) tag false ∧ credits (.sendr m op) m.ch ∧
     s.queuesChannel (exec (.sig ch sem n) s) (.sig ch sem n) none false ∧ credits (.sig ch sem n) ch ∧
     s.queuesChannel (exec (.recv m) s) (.recv m) tag false ∧
     s.queuesChannel (exec (.coll m) s) (.coll m) tag true ∧
     s.queuesChannel (exec (.rgadv rg n) s) (.rgadv rg n) none false ∧
     s.queuesChannel (exec (.rgpop rg n) s) (.rgpop rg n) none false ∧
     s.queuesChannel (exec (.tlsig tl r) s) (.tlsig tl (s.rs r)) none false ∧
     s.queuesChannel (exec (.vwjoin sw) s) (.vwjoin sw) none false ∧
     s.queuesChannel (exec (.vwleave sw) s) (.vwleave sw) none false) ∧
  (∀ (s : State) (m : MsgOps), s.curTile.chq.length < 8 → (m.t = true → s.curCtx.cnt[m.cn] ≠ 255) →
     (∀ q ∈ s.curTile.chq, q.id ≠ s.curTile.nextId) → s.cur.guard = .yes →
     (s.curTile.chan m.ch).v = true → (s.curTile.chan m.ch).coll = false → (s.curTile.chan m.ch).cr ≠ 0 →
     ∃ t, exec (.send m) s = .next t ∧ (t.curTile.chan m.ch).cr = (s.curTile.chan m.ch).cr - 1 ∧
       (t.curTile.chan m.ch).rsv = (s.curTile.chan m.ch).rsv + 1 ∧
       ∀ ch, ch ≠ m.ch → t.curTile.chan ch = s.curTile.chan ch)

/-- R51, R180, R227: as its bundle issues, no instruction of a slot changes a byte of any memory, an optical port, another
tile, or a clock: every access performs later. -/
def Obligations.SlotInstructionsChangeNoMemory : Prop :=
  ∀ (s t : State) (i : Instr), i.home ≠ .scout → i.home ≠ .event → exec i s = .next t →
    t.heap = s.heap ∧ t.host = s.host ∧ t.ports = s.ports ∧ t.now = s.now ∧ t.ref = s.ref ∧
    (∀ u, u ≠ s.cur.tile → t.tile u = s.tile u) ∧ t.curTile.spm = s.curTile.spm ∧
    ∀ c, c ≠ s.cur.ctx → (t.ctx s.cur.tile c).s = (s.ctx s.cur.tile c).s ∧ (t.ctx s.cur.tile c).pend = (s.ctx s.cur.tile c).pend

/-! ### Events of a tile -/

/-- R159 to R162, R164, R176: a queued command's guard resolves, and a false one leaves the queue; the arbiter gives the issue width to
the ready context that R161 picks, no earlier than three ticks after another's last bundle, or leaves the tile idle when none is;
who waited is noted before the tick's bundle acts, and the context that issues on it counts while active; a context that waits gains
one step of effective rank, up to 255. -/
def Obligations.TileScheduling : Prop :=
  (∀ (s : State) (t : TileId) (c : Fin 4) (m : MxCmd) (v inv : Bool),
     (s.tile t).mxq = [m] → (s.tile t).cpq = [] → (s.tile t).chq = [] → m.ctx = c → m.tick < s.now →
     m.guard = .unresolved v inv →
     ∃ s', exec (.guardResolution t c) s = .next s' ∧
       (v ≠ inv → (s'.tile t).mxq = [{ m with guard := .yes }]) ∧
       (v = inv → (s'.tile t).mxq = [] ∧ ∀ l ∈ (s'.tile t).live, l.id ≠ m.id)) ∧
  (∀ (s : State) (t : TileId) (c : Fin 4),
     (∃ s', exec (.arbiterChoice t) s = .next s' ∧
       let x := s.tile t
       let waits (d : Fin 4) : Prop := x.readyFor s.now d = true
       let run (d : Fin 4) : Nat := (x.ctx d).rundecl.toNat % 2 ^ 20
       let fits (d : Fin 4) : Prop := waits d ∧ run d ≤ 4096 - s.now % 4096
       let eff (d : Fin 4) : Nat := (x.ctx d).eff
       let since (d : Fin 4) : Nat := (x.ctx d).readySince.getD s.now
       ((∀ d, ¬ waits d) → (s'.tile t).arb = .idle) ∧
       ((∃ d, waits d) → ∃ d k, waits d ∧ (s'.tile t).arb = .run d k ∧ s.now ≤ k ∧
         (∀ e n, x.lastIssue = some (e, n) → e ≠ d → n + 3 ≤ k) ∧
         ((∃ e, fits e) → fits d ∧ ∀ e, fits e →
           eff e < eff d ∨ eff e = eff d ∧ (since d < since e ∨ since d = since e ∧ d ≤ e)) ∧
         ((∀ e, ¬ fits e) → ∀ e, waits e → run d < run e ∨ run d = run e ∧ (eff e < eff d ∨ eff e = eff d ∧ d ≤ e)))) ∧
     (let u := (s.noteReady t).ctx t c
      (s.ready (s.tile t) c = true → u.readySince = some ((s.ctx t c).readySince.getD s.now)) ∧
      (s.ready (s.tile t) c = false → u.readySince = none)) ∧
     (∀ d, (s.tile t).readyFor s.now d = true ↔ ((s.tile t).ctx d).st = .active ∧
       (((s.tile t).ctx d).readySince.isSome = true ∨ (s.tile t).lastIssue = some (d, s.now))) ∧
     (∃ s', exec (.rankAgeing t c) s = .next s' ∧
       ((s.ctx t c).readySince.isSome = true → (s.ctx t c).eff < 255 →
         (s'.ctx t c).eff = (s.ctx t c).eff + 1 ∧ (s'.ctx t c).base = (s.ctx t c).base) ∧
       ((s.ctx t c).readySince = none ∨ 255 ≤ (s.ctx t c).eff → s'.ctx t c = s.ctx t c)))

/-- R174, R179, R186, R187, R204: a code line that has arrived enters the instruction cache, or its slot of the code region by two
bank rows, and is valid with the second; a line of a page that was not resident is zeros (R202); a corrected word is written back, and the scrubber goes on by one word. -/
def Obligations.CodeLinesFill : Prop :=
  (∀ (s : State) (t : TileId) (r : CodeReq), (s.tile t).code = [r] → r.ready ≤ s.now →
     (r.region = false → (∀ l ∈ (s.tile t).icache, l.pinned = false) → ∃ s', exec (.instructionCacheFill t) s = .next s' ∧
       (s'.tile t).code = [] ∧ ∃ l ∈ (s'.tile t).icache, l.tag = r.line ∧ l.data = if r.zero then List.replicate 256 0 else s.heapRun (r.line * 256) 256) ∧
     (r.region = true → (s.tile t).spm.wf = true → (s.tile t).lock = none → r.half = true ∨ (s.tile t).region[lineSlot r.line].valid = false →
       let lo : Nat := if r.half = true then 128 else 0
       let at_ := 0xE000 + 256 * (r.line % 32) + lo
       ∃ s', exec (.codeRegionFill t) s = .next s' ∧
         (r.half = false → ∃ q, (s'.tile t).code = [q] ∧ q.line = r.line ∧ q.region = true ∧ q.half = true ∧ q.zero = r.zero ∧
           (r.pin = true → q.pin = true)) ∧
         (r.half = true → (s'.tile t).code = [] ∧ (s'.tile t).region[lineSlot r.line] = ⟨r.line, r.pin, true⟩) ∧
         (∀ i, i < 128 → (s'.tile t).spm.read (at_ + i) = if r.zero then 0 else s.heapByte (r.line * 256 + lo + i)) ∧
         ∀ a, (a < at_ ∨ at_ + 128 ≤ a) → (s'.tile t).spm.read a = (s.tile t).spm.read a)) ∧
  (∀ (s : State) (t : TileId) (u : Upset) (l : List Upset), (s.tile t).fixes = u :: l →
     ∃ s', exec (.eccWriteback t) s = .next s' ∧ (s'.tile t).fixes = l ∧ u ∉ (s'.tile t).upsets ∧ (s'.tile t).spm = (s.tile t).spm) ∧
  (∀ (s : State) (t : TileId), ∃ s', exec (.scrub t) s = .next s' ∧ (s'.tile t).scrubAt = (s.tile t).scrubAt + 1 ∧
     (s'.tile t).spm = (s.tile t).spm ∧ (s'.tile t).upsets = (s.tile t).upsets ∧ ∀ u, u ≠ t → s'.tile u = s.tile u)

/-- R191, R192, R227, R238, R239: at the head of the copy queue a buffer command without fault takes effect, one that R191 or R238
refuses changes no buffer and reports a buffer-state fault, and a copy that may start goes into flight; a publish flips the
halves, raises the tag, takes the shadow's map and empties the shadow, as every observer sees from the next tick. -/
def Obligations.CopyQueueHeadActs : Prop :=
  (∀ (s : State) (t : TileId) (c : CopyCmd), let x := s.tile t
     x.copyReady s.now = some c → c.guard = .yes → x.upsets = [] →
     (∀ b v, c.op = .bdcl b v → v.toNat % 512 * 128 + 2 * ((v.toNat / 2 ^ 16 % 256 + 1) * 128) ≤ 65536 →
       (x.bufs[b].v = true → x.bufs[b].wr = 0 ∧ x.bufs[b].rd = 0) →
       ∃ s', exec (.copyQueueStart t) s = .next s' ∧ (s'.tile t).bufs[b].v = true ∧
         (s'.tile t).bufs[b].b = v.toNat % 512 * 128 ∧ (s'.tile t).bufs[b].s = (v.toNat / 2 ^ 16 % 256 + 1) * 128 ∧
         (s'.tile t).bufs[b].state = .empty ∧
         (let u := (s'.tile t).bufs[b]
          u.fh = false ∧ u.tag = 0 ∧ u.sd = false ∧ u.wr = 0 ∧ u.rd = 0 ∧ u.fmap = 0 ∧ u.smap = 0) ∧
         (∀ k, k ≠ b → (s'.tile t).bufs[k] = x.bufs[k]) ∧ ∀ q ∈ (s'.tile t).cpq, q.id ≠ c.id) ∧
     (∀ b, ((∃ v, c.op = .bdcl b v ∧ (65536 < v.toNat % 512 * 128 + 2 * ((v.toNat / 2 ^ 16 % 256 + 1) * 128) ∨
           x.bufs[b].v = true ∧ (x.bufs[b].wr ≠ 0 ∨ x.bufs[b].rd ≠ 0))) ∨
         ((c.op = .brel b ∨ ∃ k, c.op = .publish b k) ∧ (x.bufs[b].v = false ∨ x.bufs[b].wr ≠ 0 ∨ x.bufs[b].rd ≠ 0))) →
       ∃ s', exec (.copyQueueStart t) s = .next s' ∧ (s'.tile t).bufs = x.bufs ∧ (s'.tile t).publishing = x.publishing ∧
         (∀ q ∈ (s'.tile t).cpq, q.id ≠ c.id) ∧
         ((x.ctx c.ctx).st = .active → (x.ctx c.ctx).faults[(1 : Fin 3)] = none → (s'.ctx t c.ctx).faults[(1 : Fin 3)] =
           some ⟨(causeBuffer 7 b.val x.bufs[b].state false 0).record c.fpc, s.now⟩)) ∧
     (∀ b, c.op = .brel b → x.bufs[b].v = true → x.bufs[b].wr = 0 → x.bufs[b].rd = 0 →
       ∃ s', exec (.copyQueueStart t) s = .next s' ∧ (s'.tile t).bufs[b].state = .empty ∧ (s'.tile t).bufs[b].smap = 0 ∧
         (s'.tile t).bufs[b].fh = x.bufs[b].fh ∧ (s'.tile t).bufs[b].tag = x.bufs[b].tag) ∧
     (∀ b k, c.op = .publish b k → x.bufs[b].v = true → x.bufs[b].wr = 0 → x.bufs[b].rd = 0 →
       ∃ s', exec (.copyQueueStart t) s = .next s' ∧ b ∈ (s'.tile t).publishing ∧ (s'.tile t).bufs[b] = x.bufs[b] ∧
         ∀ q ∈ (s'.tile t).cpq, q.id ≠ c.id) ∧
     (∀ form b d0 d1 addr st xl idx r, c.op = .copy form b d0 d1 addr st →
       s.copyHead x c form b d0 d1 addr st = .start xl idx r →
       ∃ s' fl, exec (.copyQueueStart t) s = .next s' ∧ (s'.tile t).flights = x.flights ++ [fl] ∧ fl.id = c.id ∧
         fl.form = form ∧ fl.addr = addr ∧ fl.len = x.copyBytes b d0 ∧ fl.done = 0 ∧ ∀ q ∈ (s'.tile t).cpq, q.id ≠ c.id)) ∧
  (∀ (b : Buffer), b.wr = 0 → b.rd = 0 →
     b.publish.front = b.shadow ∧ b.publish.shadow = b.front ∧ b.publish.tag = b.tag + 1 ∧ b.publish.fmap = b.smap ∧
       b.publish.state = .empty) ∧
  ∀ (s : State) (t : TileId) (b : Fin 32), (s.tile t).publishing = [b] → s.hold = false → 64 ≤ s.thrPhase + s.thr →
    let y := s.beginTick.tile t
    y.bufs[b] = (s.tile t).bufs[b].publish ∧ (∀ k, k ≠ b → y.bufs[k] = (s.tile t).bufs[k]) ∧ y.publishing = [] ∧ y.spm = (s.tile t).spm

/-- R198 to R200, R212, R232, R235, R361, R199: a walk that ends keeps its result for its command; a copy that has landed its last
byte leaves the ledger; an acknowledged write lowers WACK; an invalidation drops exactly the entries it names. -/
def Obligations.CopyEngineEvents : Prop :=
  ∀ (s : State) (t : TileId) (id : Nat) (lid : Option (BitVec 16)) (page : Option VAddr), let x := s.tile t
    (∀ w, x.walks = [w] → w.res = none → w.ready ≤ s.now → s.walkerMoves (x.ctx w.ctx) = false → ∃ s', exec (.pageWalk t) s = .next s' ∧
      (s'.tile t).walks = [{ w with res := some (s.walkRoot (x.ctx w.ctx) w.va) }]) ∧
    (∀ f, x.flights = [f] → f.id = id → f.retired = false → f.len ≤ f.done → f.follow = false →
      ∃ s', exec (.copyRetire t id) s = .next s' ∧ (s'.tile t).flights = [] ∧ ∀ l ∈ (s'.tile t).live, l.id ≠ id) ∧
    (∀ a k, x.acks = [a] → a.id = id → a.tick = some k → k ≤ s.now → ∃ s', exec (.heapWriteAcknowledgement t id) s = .next s' ∧
      (s'.tile t).acks = [] ∧ (s'.ctx t a.ctx).wack = if (s.ctx t a.ctx).wack = 0 then 0 else (s.ctx t a.ctx).wack - 1) ∧
    ∃ s', exec (.tlbInvalidation t lid page) s = .next s' ∧
      ∀ e, e ∈ (s'.tile t).tlb ↔ e ∈ x.tlb ∧
        ¬ ((∀ l, lid = some l → e.launch = l.toNat) ∧ (∀ v, page = some v → inSpan v.toNat e.vbase e.size = true))

/-- R86 to R89, R94, R183, R243 to R249, R253, R256 to R266: at the head PREC, PMASK and WSWAP take effect at once and leave,
any other command takes its tick H; one that starts occupies the array for the ticks its rows and formats take; one whose ticks are
over retires, its ring entries free and, for WLD, its plane loaded. What each row gets: the products of MMA accumulated in the
row's arithmetic and committed on the tick due, the rows of ACLR and ASCL, the bytes that ADRN writes and no others; what the
commits due make of a row; the ticks of a pass and the size of an image for each pair of formats. -/
def Obligations.MatrixEngineActs : Prop :=
  (∀ (s : State) (t : TileId) (c : MxCmd), let x := s.tile t
     x.mxHead s.now = some c → c.headAt = none → x.upsets = [] → x.headCause c s.now = none →
     ∃ s', exec (.mxuCommandHead t) s = .next s' ∧
       (∀ v, c.op = .prec v → (s'.tile t).prec = v) ∧
       (∀ v, c.op = .pmaskRow v → (s'.tile t).rowp = v) ∧
       (∀ v, c.op = .pmaskCol v → (s'.tile t).colp = v) ∧
       (c.op = .wswap → (s'.tile t).wp[0] = x.wp[1] ∧ (s'.tile t).wp[1] = x.wp[0]) ∧
       ((∃ v, c.op = .prec v) ∨ (∃ v, c.op = .pmaskRow v) ∨ (∃ v, c.op = .pmaskCol v) ∨ c.op = .wswap →
         ∀ q ∈ (s'.tile t).mxq, q.id ≠ c.id) ∧
       ((∃ d n, c.op.timed = some (d, n)) → { c with headAt := some s.now } ∈ (s'.tile t).mxq)) ∧
  (∀ (s : State) (t : TileId) (c : MxCmd), let x := s.tile t
     x.mxHead s.now = some c → c.headAt.isSome = true → x.upsets = [] →
     (x.arrayEvent t s.now = some (.mxuStart t) → x.startCause c = none →
       ∃ s' r, exec (.mxuStart t) s = .next s' ∧ (s'.tile t).mxRun = some r ∧ r.id = c.id ∧ r.start = s.now ∧
         (∀ dl rg h ctl wp ta dec q0 q1, c.op = .mma dl rg h ctl wp ta dec q0 q1 →
           r.leave = s.now + max 1 ((selected x.rowp h).length * passCost x.prec)) ∧
         (∀ dl rg wp ta, c.op = .wld dl rg wp ta → r.leave = s.now + imageSize x.prec / 128) ∧
         (∀ dl rg, c.op.timed = some (dl, rg) → let g := x.rings[rg]
           (∀ d h ctl wp ta dec q0 q1, c.op = .mma d rg h ctl wp ta dec q0 q1 → r.entries = 1) ∧
           (∀ d wp ta, c.op = .wld d rg wp ta → r.entries = (imageSize x.prec + g.z - 1) / g.z) ∧
           (s'.tile t).rings[rg].claimed = g.claimed + r.entries ∧ r.prec = x.prec ∧ r.colp = x.colp ∧
             ∀ i j, i < r.entries → j < g.z → r.bytes[i * g.z + j]? =
               some (x.spmPrev.read (spmAddr (g.base.toNat * 32 + (g.head.toNat + g.claimed + i) % g.e * g.z + j)))) ∧
         (∀ f n, c.op = .aclr f n → r.leave = s.now + (n.val + 1)) ∧
         (∀ f n q, c.op = .ascl f n q → r.leave = s.now + (n.val + 1))) ∧
     (∀ f n dst k fmt, c.op = .adrn f n dst k fmt → x.drainReady dst k = true →
       ∃ s' r, exec (.adrnStart t) s = .next s' ∧ (s'.tile t).mxRun = some r ∧ r.id = c.id ∧ r.start = s.now ∧
         r.leave = s.now + (n.val + 1) * (drainSize fmt / 128))) ∧
  (∀ (s : State) (t : TileId) (r : MxRun) (c : MxCmd) (q : List MxCmd),
     (s.tile t).mxRun = some r → (s.tile t).mxq = c :: q → r.leave ≤ s.now →
     ∃ s', exec (.mxuRetire t) s = .next s' ∧ (s'.tile t).mxRun = none ∧ (∀ d ∈ (s'.tile t).mxq, d.id ≠ c.id) ∧
       (∀ l ∈ (s'.tile t).live, l.id ≠ c.id) ∧
       (∀ dl rg, c.op.timed = some (dl, rg) → let g := (s.tile t).rings[rg]
         (s'.tile t).rings[rg] = { g with head := BitVec.ofNat 8 ((g.head.toNat + r.entries) % g.e),
                                          cnt := g.cnt - BitVec.ofNat 9 r.entries, claimed := g.claimed - r.entries }) ∧
       (∀ dl rg wp ta, c.op = .wld dl rg wp ta → (s'.tile t).wp[wp] = loadPlane r.prec ta r.bytes ∧
         ∀ k, k ≠ wp → (s'.tile t).wp[k] = (s.tile t).wp[k]) ∧
       (∀ row v, r.rows = [(row, v)] → ∃ d, (s'.tile t).acm[row].pend =
         (s.tile t).acm[row].pend ++ [⟨d, BitVec.allOnes 128, v.entries, v.mode, v.ft, c.id, s.now⟩] ∧
           (s.tile t).acm[row].dueAfter ((s.tile t).tau c.ctx s.now + 1) d)) ∧
  (∀ (x : Tile) (now : Nat) (r : MxRun) (c : MxCmd) (q : List MxCmd) (k : Nat) (row : Fin 64), let y := x.arrayRows now
     x.mxRun = some r → x.mxq = c :: q → r.todo = [(now, k, row)] → x.upsets = [] →
     (∀ dl rg h ctl wp ta dec q0 q1, c.op = .mma dl rg h ctl wp ta dec q0 q1 →
       let kA := extentA r.prec ta x.rings[rg].z
       let out := passRow r.prec ctl dec (fun g => if g = 0 then q0 else q1) (x.image row) r.colp
         (rowA r.prec ta x.rings[rg].z r.bytes (row.val % 32) kA) (x.wp[wp].col r.prec kA)
       (∃ d, y.acm[row].pend = x.acm[row].pend ++ [⟨d, out.cols, out.row.entries, out.row.mode, out.row.ft, c.id, r.start + (k + 1) * r.c⟩] ∧
         x.acm[row].dueAfter ((if c.held then r.tau else c.tt + dl.toNat) + (k + 1) * r.c + 2) d) ∧
       (∀ j, j ≠ row → y.acm[j] = x.acm[j]) ∧ y.acm[row].entries = x.acm[row].entries) ∧
     (∀ f n, c.op = .aclr f n → y.mxRun.map MxRun.rows = some (r.rows ++ [(row, ⟨Vector.replicate 128 0, .clear, 0, []⟩)])) ∧
     (∀ f n v, c.op = .ascl f n v → y.mxRun.map MxRun.rows = some (r.rows ++ [(row, (scaleRow (pRM r.prec) (x.image row) v).1)])) ∧
     ∀ f n dst kb fmt, c.op = .adrn f n dst kb fmt → ∀ i, i < drainSize fmt / 128 → ∃ e, y.drains[x.drains.length + i]? = some e ∧
       e.tick = now + i + 1 ∧ e.k = kb ∧ e.dst = dst ∧ e.off = (if kb = true then f.val + k else k) * drainSize fmt + 128 * i ∧
       e.data = ((drainRow fmt (pRM r.prec) (x.image row)).1.drop (128 * i)).take 128) ∧
  (∀ (x : Tile) (now : Nat) (e : Drain), x.drains = [e] → e.tick ≤ now → x.spm.wf = true →
     let at_ := (if e.k = true then x.bufs[e.dst].shadow else x.rings[Fin.ofNat 8 e.dst.val].at_ e.entry) + e.off
     at_ + e.data.length ≤ 65536 →
     (∀ i, i < e.data.length → (x.drainPort now).spm.read (at_ + i) = e.data.getD i 0) ∧
     ∀ a, (a < at_ ∨ at_ + e.data.length ≤ a) → (x.drainPort now).spm.read a = x.spm.read a) ∧
  (∀ (x : Tile) (now : Nat) (row : Fin 64) (p : AccPend), x.upsets = [] → x.acm[row].pend = [p] → x.ownV = true →
     (x.ctx x.own).st = .active → let y := (x.settleAcm now).acm[row]
     ((x.ctx x.own).tt < p.due → y = x.acm[row]) ∧
     (p.due ≤ (x.ctx x.own).tt → y.pend = [] ∧ y.mode = p.mode ∧ y.ft = p.ft ∧
       ∀ n : Fin 128, y.entries[n] = if p.cols.getLsbD n.val = true then p.entries[n] else x.acm[row].entries[n])) ∧
  (∀ p : Word, precRow p = 0 →
     let sig (f : Nat) : Nat := if f = 6 then 8 else if f = 7 then 11 else if f = 8 ∨ f = 11 then 4 else if f = 9 ∨ f = 10 then 3 else 2
     passCost p = (if pFmtA p ≤ 3 then wsA p * wsB p else if pFmtA p = 13 then wsA p * wsB p + 2
       else sig (pFmtA p) * sig (pFmtB p) + 4) ∧
     imageSize p = (if pFmtB p = 13 then 512 else 0) + 1024 * wsB p ∧
     ∀ (ta : Bool) (bs : List Byte),
       (∀ (k : Fin 64) (n : Fin 128) (i : Nat), i < 16 →
         (loadPlane p ta bs).e[k][n].getLsbD i = (decide (i < wsB p) && bitOf bs (bitB p ta k.val n.val + i))) ∧
       (∀ (b : Fin 4) (n : Fin 128), (loadPlane p ta bs).x[b][n] =
         if pFmtB p = 13 then bs.getD (b.val * (128 + 256 * wsB p) + n.val) 0 else 0) ∧
       ∀ z j k i, k < extentA p ta z →
         (elemA p ta z bs j k).1.testBit i = (decide (i < wsA p) && bitOf bs (bitA p ta z j k + i))) ∧
  (∀ (p decay : Word) (ctl : AccCtl) (q : Nat → Row) (img : AccRow) (cols : BitVec 128) (a : List (Nat × Nat))
     (colB : Fin 128 → List (Nat × Nat)) (n : Fin 128), precRow p = 0 →
     let out := (passRow p ctl decay q img cols a colB).row
     (pAM p ≠ 1 → intEntry p ctl decay img out (cols.getLsbD n.val) a (colB n) n) ∧
     (pAM p = 1 → floatEntry p ctl decay q img out (cols.getLsbD n.val) a (colB n) n)) ∧
  (∀ (rm : RMode) (img : AccRow) (q : Row) (n : Fin 128) (fmt : DrainFmt),
     scaledEntry rm img (scaleRow rm img q).1 q n ∧
     ∃ out : Fin 128 → List Byte, (drainRow fmt rm img).1 = (List.finRange 128).flatMap out ∧
       ∀ k : Fin 128, drained fmt rm img img.entries[k] (out k))

/-- R271, R288, R289, R295 to R299: at the head of the channel queue RGPOP removes complete entries, RGADV adds some, RECV arms its
channel, TLSIG's advance leaves, and a SEND, SENDR or SIG that has its credit becomes a message with its header; a COLL takes its
instance and passes to its sequencer. Each leaves the queue, a COLL only once its sequencer accepts it, and RGADV, RGPOP, SIG and TLSIG
retire there. A message of a channel whose route was rewritten starts only when those on the old route have ended (R210, R218:
DESIGN CHOICE, log 86). -/
def Obligations.ChannelQueueHeadActs : Prop :=
  (∀ (s : State) (t : TileId) (q : ChCmd), let x := s.tile t
    x.chanHead s.now = some q → q.guard = .yes → x.upsets = [] → s.chanCheck t x q = .start → s.routeHeld t x q.op = true →
    ∃ s', exec (.channelQueueStart t) s = .next s' ∧ (s'.tile t).chq = x.chq ∧ (s'.tile t).tx = x.tx) ∧
  ∀ (s : State) (t : TileId) (q : ChCmd), let x := s.tile t
    let message (y : Tile) (ch : Fin 256) (h : Header) (buf : Option (Fin 32)) (n : Nat) : Prop :=
      (y.chan ch).inf = (x.chan ch).inf + 1 ∧ (y.chan ch).rsv = (x.chan ch).rsv - 1 ∧ ∃ m, y.tx = x.tx ++ [m] ∧ m.id = q.id ∧
        m.ch = some ch ∧ m.head = h.pack ∧ m.buf = buf ∧ m.len = n ∧ m.size = (if h.kd = 2 then 0 else h.len + 1) ∧ m.sent = 0
    let header (ch : Fin 256) : Header :=
      { ch := ch.val, sx := tileX t, sy := tileY t, kd := 0, rop := 0, len := 0, sem := 0, inc := 0, ck := 0, cof := 0 }
    x.chanHead s.now = some q → q.guard = .yes → x.upsets = [] → s.chanCheck t x q = .start → s.routeHeld t x q.op = false →
    ∃ s', exec (.channelQueueStart t) s = .next s' ∧
      ((∀ m, q.op ≠ .coll m) → ∀ d ∈ (s'.tile t).chq, d.id ≠ q.id) ∧
      (∀ m, q.op = .send m → let n := (x.chan m.ch).bytes
        message (s'.tile t) m.ch { header m.ch with len := n - 1 } (some m.buf) n) ∧
      (∀ m op, q.op = .sendr m op → let n := (x.chan m.ch).bytes
        message (s'.tile t) m.ch { header m.ch with kd := 1, rop := op.code, len := (if op = .addFx128 then 4 * n else n) - 1 } (some m.buf) n) ∧
      (∀ m, q.op = .coll m → x.queuedRun q.id = none → let d := x.seqDir m.ch
        ((s'.tile t).chan m.ch).inst = (x.chan m.ch).inst + 1 ∧
        (∃ r ∈ (s'.tile t).seqs[d].runs, r.id = q.id ∧ r.ch = m.ch ∧ r.inst = (x.chan m.ch).inst ∧ r.src = m.buf ∧ r.queued = x.seqFull d) ∧
        (x.seqFull d = true → (s'.tile t).chq = x.chq) ∧ (x.seqFull d = false → ∀ c ∈ (s'.tile t).chq, c.id ≠ q.id)) ∧
      (∀ m p, q.op = .coll m → x.queuedRun q.id = some p → ∀ c ∈ (s'.tile t).chq, c.id ≠ q.id) ∧
      (∀ tl v, q.op = .tlsig tl v → ∃ due, let a : Advance := ⟨tl, v.setWidth 64, due, some (t, q.ctx)⟩
        s.now < due ∧ (s.fw.gap = false → s'.advances = s.advances ++ [a]) ∧
          (s.fw.gap = true → s'.advances = s.advances ∧ s'.fw.inq = s.fw.inq ++ [(some a, none)]) ∧
          ((s'.tile t).ctx q.ctx).tlOut = (x.ctx q.ctx).tlOut + 1) ∧
      (∀ sw i, q.op = .vwjoin sw → s.viewHead t sw = some (i, false) → (s'.tile t).vwWait = x.vwWait ++ [(q.id, q.ctx, sw, true)]) ∧
      (∀ sw i, q.op = .vwleave sw → s.viewHead t sw = some (i, true) → (s'.tile t).vwWait = x.vwWait ++ [(q.id, q.ctx, sw, false)]) ∧
      ((∃ ch sem inc, q.op = .sig ch sem inc) ∨ (∃ rg n, q.op = .rgadv rg n ∨ q.op = .rgpop rg n) ∨ (∃ tl v, q.op = .tlsig tl v) →
        ∀ l ∈ (s'.tile t).live, l.id ≠ q.id) ∧
      (∀ rg n, q.op = .rgpop rg n → (s'.tile t).rings[rg].cnt = x.rings[rg].cnt - BitVec.ofNat 9 n.toNat ∧
        (s'.tile t).rings[rg].head.toNat = (x.rings[rg].head.toNat + n.toNat) % x.rings[rg].e % 256) ∧
      (∀ rg n, q.op = .rgadv rg n → (s'.tile t).rings[rg].cnt = x.rings[rg].cnt + BitVec.ofNat 9 n.toNat ∧
        (s'.tile t).rings[rg].tail.toNat = (x.rings[rg].tail.toNat + n.toNat) % x.rings[rg].e % 256) ∧
      (∀ m, q.op = .recv m → ((s'.tile t).chan m.ch).arm = (x.chan m.ch).arm ++ [(m.buf, q.id, q.ctx)]) ∧
      (∀ ch sem inc, q.op = .sig ch sem inc →
        message (s'.tile t) ch { header ch with kd := 2, sem := sem.val, inc := inc.toNat } none 0)

/-- R274, R289, R310: a header binds the output it is next for; a message whose last flit has entered the link leaves, and a SEND
retires; a returned credit goes back to its window. -/
def Obligations.MessagesLeaveAndCreditsReturn : Prop :=
  ∀ (s : State) (t : TileId) (i : Fin 6) (lr : Bool) (id : Nat) (ch : Fin 256), let x := s.tile t
    (∀ d : Fin 4, x.mig = none → x.nextInput s.now lr d = some i → (∀ e : Fin 4, e ≠ d → x.nextInput s.now lr e = none) →
      ∃ s', exec (.headerForward t i lr) s = .next s' ∧
        ((if lr then (s'.tile t).outR else (s'.tile t).outC)[d]).bound = some i) ∧
    (∀ m, x.tx = [m] → m.id = id → m.done = true → m.ch.isSome = true → ∃ s', exec (.messageTransmitted t id) s = .next s' ∧
      (s'.tile t).tx = [] ∧ ∀ l ∈ (s'.tile t).live, l.id ≠ id) ∧
    (∀ w, x.credits = [w] → w.ch = ch → w.tick ≤ s.now → x.chq = [] → (x.chan ch).inf ≠ 0 →
      ∃ s', exec (.creditReturn t ch) s = .next s' ∧ (s'.tile t).credits = [] ∧
        ((s'.tile t).chan ch).cr = (x.chan ch).cr + 1 ∧ ((s'.tile t).chan ch).inf = (x.chan ch).inf - 1)

/-- R190, R195, R274, R286, R290, R293, R294: the header of a SEND or SENDR opens the message; one from a sender that the entry does
not name is dropped; the target is the oldest armed receive, the ring or the buffer of the entry, which a message waits for or is
dropped at; the first payload flit begins the engine write or reserves the ring entry; a payload flit of a SEND writes its bytes there,
one of a SENDR combines each of its elements with the element there, and both leave every other byte; the last flit ends the
write, completes the entry, retires the receive and sends the credit back. -/
def Obligations.MessagesArrive : Prop :=
  (∀ (s : State) (t : TileId) (i : Fin 6) (f : Flit) (l : List Flit) (e : Instr), let x := s.tile t
     e = .sendArrival t i ∨ e = .sendrArrival t i → x.upsets = [] → x.inC[i].fifo = f :: l →
     (x.inC[i].rx = none → f.ff = true → f.port = none →
       ∃ s' m, exec e s = .next s' ∧ (s'.tile t).inC[i].fifo = l ∧ (s'.tile t).inC[i].rx = some m ∧ m.head = f.data ∧
         m.drop = !((x.chan (Fin.ofNat 256 (f.data.toNat % 256))).names (Header.unpack f.data)) ∧ (s'.tile t).spm = x.spm) ∧
     (∀ m, x.inC[i].rx = some m → m.started = true → m.drop = true → f.lf = false →
       ∃ s', exec e s = .next s' ∧ (s'.tile t).inC[i].fifo = l ∧ (s'.tile t).spm = x.spm)) ∧
  (∀ (s : State) (t : TileId) (i : Fin 6) (f : Flit) (l : List Flit) (m : RxMsg) (b : Fin 32) (off : Nat), let x := s.tile t
     let h := Header.unpack m.head
     let n := min 16 (h.payload - m.done)
     let at_ := x.bufs[b].shadow + off + m.done
     x.inC[i].fifo = f :: l → x.inC[i].rx = some m → m.started = true → m.drop = false → m.ring = none → m.buf = some (b, off) →
     h.kd = 0 → f.lf = false → at_ + n ≤ 65536 → x.spm.wf = true →
     ∃ s', exec (.sendArrival t i) s = .next s' ∧ (s'.tile t).inC[i].fifo = l ∧
       (∀ k, k < n → (s'.tile t).spm.read (at_ + k) = BitVec.ofNat 8 (f.data.toNat / 256 ^ k)) ∧
       ∀ a, (a < at_ ∨ at_ + n ≤ a) → (s'.tile t).spm.read a = x.spm.read a) ∧
  (∀ (s : State) (t : TileId) (i : Fin 6) (f : Flit) (l : List Flit) (m : RxMsg) (b : Fin 32) (off : Nat), let x := s.tile t
     let h := Header.unpack m.head
     let n := min 16 (h.payload - m.done)
     let at_ := x.bufs[b].shadow + off + m.done
     let word (bs : List Byte) (j : Nat) : Word := leWord ((bs.drop (4 * j)).take 4)
     x.inC[i].fifo = f :: l → x.inC[i].rx = some m → m.started = true → m.drop = false → m.ring = none → m.buf = some (b, off) →
     h.kd = 1 → h.rop ≠ rAddFx → f.lf = false → at_ + n ≤ 65536 → n % 4 = 0 → x.spm.wf = true → x.upsets = [] →
     ∃ s', exec (.sendrArrival t i) s = .next s' ∧ (s'.tile t).inC[i].fifo = l ∧
       (∀ j, j < n / 4 → leWord ((s'.tile t).spm.readN (at_ + 4 * j) 4) =
         reduceWord h.rop (leWord (x.spmPrev.readN (at_ + 4 * j) 4)) (word (leBytes 16 f.data.toNat) j)) ∧
       ∀ a, (a < at_ ∨ at_ + n ≤ a) → (s'.tile t).spm.read a = x.spm.read a) ∧
  (∀ (s : State) (t : TileId) (i : Fin 6) (f : Flit) (l : List Flit) (m : RxMsg) (e : Instr), let x := s.tile t
     let h := Header.unpack m.head
     let n := min 16 (h.payload - m.done)
     let here : Nat := m.done + match m.ring, m.buf with
       | some (r, k), _ => x.rings[r].base.toNat * 32 + k % (x.rings[r].nent.toNat + 1) * ((x.rings[r].esz.toNat + 1) * 32)
       | none, some (b, off) => x.bufs[b].shadow + off
       | none, none => 0
     let ch : Fin 256 := Fin.ofNat 256 h.ch
     e = .sendArrival t i ∨ e = .sendrArrival t i → x.inC[i].fifo = f :: l → x.inC[i].rx = some m → m.started = true → m.drop = false →
     m.port = none → h.sx ≠ 511 → (m.ring.isSome = true ∨ m.buf.isSome = true) → here + n ≤ 65536 → x.spm.wf = true → x.upsets = [] →
     ∃ s', exec e s = .next s' ∧ (s'.tile t).inC[i].fifo = l ∧
       (h.kd = 0 → ∀ k, k < n → (s'.tile t).spm.read (here + k) = BitVec.ofNat 8 (f.data.toNat / 256 ^ k)) ∧
       (h.kd = 1 → h.rop = rAddFx → n = 16 →
         let r := fxAdd (BitVec.ofNat 128 (leNat (x.spmPrev.readN here 16))) f.data
         leNat ((s'.tile t).spm.readN here 16) = r.1.toNat ∧
           (r.2 = true → x.errLock = 0 → (s'.tile t).err[fxSat] = addSat32 x.err[fxSat] 1)) ∧
       (∀ a, (a < here ∨ here + n ≤ a) → (s'.tile t).spm.read a = x.spm.read a) ∧
       (f.lf = false → (s'.tile t).inC[i].rx = some { m with done := m.done + n } ∧ (s'.tile t).bufs = x.bufs ∧ (s'.tile t).rings = x.rings) ∧
       (f.lf = true → (s'.tile t).inC[i].rx = none ∧ (∀ id, m.arm = some id → ∀ k ∈ (s'.tile t).live, k.id ≠ id) ∧
         (∀ b off, m.ring = none → m.buf = some (b, off) → (s'.tile t).bufs[b] = { x.bufs[b] with wr := x.bufs[b].wr - 1 } ∧
           ∀ k, k ≠ b → (s'.tile t).bufs[k] = x.bufs[k]) ∧
         (∀ r k, m.ring = some (r, k) → x.rings[r].ended = [(m.fill, false)] →
           (s'.tile t).rings[r] = { x.rings[r] with ended := [], cnt := x.rings[r].cnt + 1, infl := x.rings[r].infl - 1 }) ∧
         (x.mig = none → ∃ due, s.now ≤ due ∧ (s'.tile h.sender).credits = (s.tile h.sender).credits ++ [⟨due, ch⟩]) ∧
         (x.mig.isSome = true → (s'.tile t).owed = x.owed ++ [(h.sender, ch)]))) ∧
  (∀ (x : Tile) (h : Header), let c := x.chan (Fin.ofNat 256 h.ch)
     let fits (b : Fin 32) (off : Nat) : Prop := x.bufs[b].v = true ∧ off + h.payload ≤ (x.bufs[b].size.toNat + 1) * 128
     let free (b : Fin 32) : Prop := b ∉ x.publishing ∧ x.bufs[b].rd = 0 ∧ x.bufs[b].wr ≠ 15
     let lands (b : Fin 32) (off : Nat) (arm : Option Nat) : Prop := (¬ fits b off → x.rxTarget h = .drop arm) ∧
       (fits b off → ¬ free b → x.rxTarget h = .wait) ∧ (fits b off → free b → x.rxTarget h = .buf b off arm)
     (∀ b id k l, c.arm = (b, id, k) :: l → lands b 0 (some id)) ∧
     (c.arm = [] → c.tk = true → lands (Fin.ofNat 32 c.tgt.toNat) (4 * c.toff.toNat) none) ∧
     (c.arm = [] → c.tk = false → let r : Fin 8 := Fin.ofNat 8 c.tgt.toNat
       let g := x.rings[r]
       let bad : Prop := g.v = false ∨ (g.esz.toNat + 1) * 32 < h.payload ∨ h.kd = 1
       let full : Prop := g.nent.toNat + 1 ≤ g.cnt.toNat + g.infl.toNat
       (bad → x.rxTarget h = .drop none) ∧ (¬ bad → full → x.rxTarget h = .wait) ∧ (¬ bad → ¬ full → x.rxTarget h = .ring r))) ∧
  ∀ (s : State) (t : TileId) (i : Fin 6) (f : Flit) (l : List Flit) (m : RxMsg) (e : Instr), let x := s.tile t
    let h := Header.unpack m.head
    let n := min 16 h.payload
    let ch : Fin 256 := Fin.ofNat 256 h.ch
    e = .sendArrival t i ∨ e = .sendrArrival t i → x.inC[i].fifo = f :: l → x.inC[i].rx = some m → m.started = false → m.drop = false →
    m.done = 0 → m.ring = none → m.buf = none → m.arm = none → x.spm.wf = true → x.upsets = [] →
    (x.rxTarget h = .wait → ∃ s', exec e s = .next s' ∧ s'.tile t = x) ∧
    (∀ arm, x.rxTarget h = .drop arm → f.lf = false → ∃ s' m', exec e s = .next s' ∧ (s'.tile t).inC[i].fifo = l ∧
      (s'.tile t).inC[i].rx = some m' ∧ m'.drop = true ∧ m'.arm = arm ∧ (s'.tile t).spm = x.spm ∧
      (x.errLock = 0 → (s'.tile t).err[badData] = addSat32 x.err[badData] 1) ∧
      ((s'.tile t).chan ch).arm = if arm.isSome then (x.chan ch).arm.drop 1 else (x.chan ch).arm) ∧
    (∀ b off arm, x.rxTarget h = .buf b off arm → let at_ := x.bufs[b].shadow + off
      at_ + n ≤ 65536 → ∃ s', exec e s = .next s' ∧ (s'.tile t).inC[i].fifo = l ∧
        (s'.tile t).bufs[b] = { x.bufs[b] with wr := if f.lf then x.bufs[b].wr else x.bufs[b].wr + 1, sd := true } ∧
        ((s'.tile t).chan ch).arm = (if arm.isSome then (x.chan ch).arm.drop 1 else (x.chan ch).arm) ∧
        (h.kd = 0 → ∀ k, k < n → (s'.tile t).spm.read (at_ + k) = BitVec.ofNat 8 (f.data.toNat / 256 ^ k)) ∧
        ∀ a, (a < at_ ∨ at_ + n ≤ a) → (s'.tile t).spm.read a = x.spm.read a) ∧
    ∀ r, x.rxTarget h = .ring r → let g := x.rings[r]
      let at_ := g.base.toNat * 32 + g.tail.toNat % (g.nent.toNat + 1) * ((g.esz.toNat + 1) * 32)
      f.lf = false → at_ + n ≤ 65536 → ∃ s', exec e s = .next s' ∧ (s'.tile t).inC[i].fifo = l ∧
        (s'.tile t).rings[r].tail = BitVec.ofNat 8 ((g.tail.toNat + 1) % (g.nent.toNat + 1)) ∧
        (s'.tile t).rings[r].infl = g.infl + 1 ∧ (s'.tile t).rings[r].cnt = g.cnt ∧ (s'.tile t).rings[r].head = g.head ∧
        (h.kd = 0 → ∀ k, k < n → (s'.tile t).spm.read (at_ + k) = BitVec.ofNat 8 (f.data.toNat / 256 ^ k)) ∧
        ∀ a, (a < at_ ∨ at_ + n ≤ a) → (s'.tile t).spm.read a = x.spm.read a

/-- R196, R212, R236, R295, R348, R352, R364: a SIG adds to its semaphore, which stops at 65,535, and one from a stranger does not; a
read request queues its answer, the header of write or read data opens; a payload flit of write data reaches the shadow bytes that its
comb addresses name, one of read data the destination of the copy that awaits it, and neither another byte; the last
acknowledgement of a command lowers WACK. -/
def Obligations.SignalsAndCombMessages : Prop :=
  (∀ (s : State) (t : TileId) (i : Fin 6) (f : Flit) (l : List Flit), let x := s.tile t
     let h := Header.unpack f.data
     let k : Fin 16 := Fin.ofNat 16 h.sem
     x.inC[i].fifo = f :: l → x.upsets = [] → h.sx ≠ 511 →
     (∃ s', exec (.sigArrival t i) s = .next s' ∧
       ((x.chan (Fin.ofNat 256 h.ch)).names h = true → (s'.tile t).sems[k].toNat = min 65535 (x.sems[k].toNat + h.inc)) ∧
       ((x.chan (Fin.ofNat 256 h.ch)).names h = false → (s'.tile t).sems = x.sems)) ∧
     (∀ p, f.port = some p → ∃ s', exec (.portSigArrival t i) s = .next s' ∧ (s'.tile t).sems = x.sems ∧
       let j : Fin 64 := Fin.ofNat 64 (16 * (((s.tile h.sender).chan (Fin.ofNat 256 h.ch)).toff.toNat % 4) + h.sem)
       ((s'.port p).psem[j]).toNat = min 65535 (((s.port p).psem[j]).toNat + h.inc))) ∧
  (∀ (s : State) (t : TileId) (i : Fin 6) (f : Flit) (l : List Flit), let x := s.tile t
     let h := Header.unpack f.data
     x.inC[i].fifo = f :: l →
     (∃ s' m, exec (.readRequest t i) s = .next s' ∧ (s'.tile t).tx = x.tx ++ [m] ∧ m.src = h.cof ∧ m.len = h.len + 1 ∧
       m.steer = s.routeTo t h.sender ∧ (s'.tile t).inC[i].fifo = l) ∧
     (∀ e, e = .writeData t i ∨ e = .readData t i → x.inC[i].rx = none →
       ∃ s' m, exec e s = .next s' ∧ (s'.tile t).inC[i].fifo = l ∧ (s'.tile t).inC[i].rx = some m ∧ m.head = f.data ∧
         (s'.tile t).spm = x.spm) ∧
     (∀ m, x.inC[i].rx = some m → f.lf = false → x.spm.wf = true →
       let g := Header.unpack m.head
       let n := min 16 (g.payload - m.done)
       let reaches (k a : Nat) : Prop := ∃ b d, x.combTarget (g.cof + m.done + k) = some (b, d) ∧ a = (x.bufs[b].shadow + d) % 65536
       ∃ s' m', exec (.writeData t i) s = .next s' ∧ (s'.tile t).inC[i].fifo = l ∧ (s'.tile t).inC[i].rx = some m' ∧
         m'.done = m.done + n ∧
         (∀ k a, k < n → reaches k a → (∀ j, k < j → j < n → ¬ reaches j a) →
           (s'.tile t).spm.read a = BitVec.ofNat 8 (f.data.toNat / 256 ^ k)) ∧
         ∀ a, (∀ k, k < n → ¬ reaches k a) → (s'.tile t).spm.read a = x.spm.read a) ∧
     (∀ m fl, x.inC[i].rx = some m → f.lf = false → x.spm.wf = true → x.flights = [fl] → fl.form = .cpy → fl.ring = none →
       let g := Header.unpack m.head
       let n := min 16 (g.payload - m.done)
       let at_ := x.bufs[fl.buf].shadow + fl.off + fl.done
       fl.remote = some g.sender → m.org.map Origin.id = some fl.id → fl.done < fl.len → at_ + n ≤ 65536 →
       ∃ s' fl' m', exec (.readData t i) s = .next s' ∧ (s'.tile t).inC[i].fifo = l ∧ (s'.tile t).inC[i].rx = some m' ∧
         m'.done = m.done + n ∧ (s'.tile t).flights = [fl'] ∧ fl'.id = fl.id ∧ fl'.done = fl.done + n ∧
         (∀ k, k < n → (s'.tile t).spm.read (at_ + k) = BitVec.ofNat 8 (f.data.toNat / 256 ^ k)) ∧
         ∀ a, (a < at_ ∨ at_ + n ≤ a) → (s'.tile t).spm.read a = x.spm.read a) ∧
     (∀ a, x.acks = [a] → a.peer.isSome = true → f.org.map Origin.id = some a.id → a.msgs = 1 → ∃ s', exec (.writeAcknowledgement t i) s = .next s' ∧
       (s'.tile t).acks = [] ∧ (s'.ctx t a.ctx).wack = if (s.ctx t a.ctx).wack = 0 then 0 else (s.ctx t a.ctx).wack - 1))

/-- R300 to R306: the header of a chunk that its collective here uses is taken, and claims the sequencer's output when the chunk travels
on, its own header on the entry's route behind it; one for a later instance or view is held, up to eight; one that no collective here
can use is taken and counted in VW_STALE; a collective with nothing left to do completes, and its command leaves the ledger. The
bits of a chunk's header; which chunks a member starts, which it passes on, where a shard's result is formed; and what one payload flit
does at a member: its contribution joins by the reduction, the result is divided where R339 divides it, its bytes reach their
place in the destination shadow, and no other byte. -/
def Obligations.CollectiveEvents : Prop :=
  ∀ (s : State) (t : TileId) (i : Fin 6) (f : Flit) (l : List Flit) (ch : Fin 256) (inst : BitVec 16), let x := s.tile t
    (x.inR[i].fifo = f :: l → x.inR[i].chunk = none → f.ff = true → emptyRoute f.steer = true → x.mig = none →
      x.chunkUse (Chunk.unpack f.data) = .discarded →
      ∃ s', exec (.chunkArrival t i) s = .next s' ∧ (s'.tile t).inR[i].fifo = l ∧
        ((s'.tile t).inR[i].chunk).isSome = true ∧
        (x.errLock = 0 → (s'.tile t).err[vwStale] = addSat32 x.err[vwStale] 1)) ∧
    (∀ q r, x.inR[i].fifo = f :: l → x.inR[i].chunk = none → f.ff = true → emptyRoute f.steer = true → x.mig = none →
      let c := Chunk.unpack f.data
      (x.chunkUse c = .used → x.seqOfRun c.ch c.inst = some (q, r) → x.chunkStuck q r c = false →
        ∃ s', exec (.chunkArrival t i) s = .next s' ∧ (s'.tile t).inR[i].fifo = l ∧ (s'.tile t).inR[i].chunk = some ⟨c, .used, 0⟩ ∧
          (s'.tile t).spm = x.spm ∧ (s'.tile t).err = x.err ∧
          (r.passes c = true → (s'.tile t).seqs[q].writer = some (.input i) ∧
            ∃ g, (s'.tile t).seqs[q].out = x.seqs[q].out ++ [⟨s.now + 1, r.id, g⟩] ∧ g.ff = true ∧
              g.steer = x.tableView.route r.rt ∧
              Chunk.unpack g.data = { c with ph := c.ph || r.ends c, fr := BitVec.ofNat 16 r.rank, vt := r.vt }) ∧
          (r.passes c = false → (s'.tile t).seqs = x.seqs)) ∧
      (x.chunkUse c = .held → x.holding (x.seqDir c.ch) < 8 →
        ∃ s', exec (.chunkArrival t i) s = .next s' ∧ (s'.tile t).inR[i].fifo = l ∧ (s'.tile t).inR[i].chunk = some ⟨c, .held, 0⟩ ∧
          (s'.tile t).spm = x.spm ∧ (s'.tile t).seqs = x.seqs)) ∧
    (∀ q r, x.seqOfRun ch inst = some (q, r) → x.seqs[q].finished s.now r = true → x.mayComplete r = true →
      ∃ s', exec (.collectiveComplete t ch inst) s = .next s' ∧ (∀ y ∈ (s'.tile t).seqs[q].runs, y.id ≠ r.id) ∧
        (∀ y ∈ (s'.tile t).live, y.id ≠ r.id) ∧ (s'.tile t).spm = x.spm) ∧
    (∀ c : Chunk, c.pack.extractLsb' 0 8 = BitVec.ofNat 8 c.ch.val ∧ c.pack.getLsbD 8 = c.ph ∧ c.pack.getLsbD 9 = c.xf ∧
      c.pack.extractLsb' 10 6 = 0 ∧ c.pack.extractLsb' 16 16 = c.vt ∧ c.pack.extractLsb' 32 16 = c.inst ∧
      c.pack.extractLsb' 48 16 = c.sh ∧ c.pack.extractLsb' 64 16 = c.fr ∧ c.pack.extractLsb' 80 16 = c.ne ∧
      c.pack.extractLsb' 96 16 = c.eo ∧ c.pack.extractLsb' 112 16 = 0) ∧
    (∀ (r : CollRun) (c : Chunk) (o : OwnChunk), r.hive = false → 0 < r.n →
      let most := if r.xf = true then 32 else 128
      let piece (len : Nat) : Prop := ∃ k, o.eo = most * k ∧ o.eo < len ∧ o.ne = min most (len - o.eo)
      let last (j : Nat) : Nat := if r.om = 0 then r.n - 1 else j % r.n
      let next := (r.rank + 1) % r.n
      (o ∈ r.ownChunks ↔
        (r.kind < 2 ∧ o.ph = false ∧ o.sh < r.n ∧ r.rank = (if r.om = 0 then 0 else (o.sh + 1) % r.n) ∧
          piece ((o.sh + 1) * r.m / r.n - o.sh * r.m / r.n)) ∨
        (2 ≤ r.kind ∧ (r.kind = 2 ∨ r.rank = r.root) ∧ o.ph = true ∧ o.sh = r.rank ∧ piece r.m)) ∧
      (r.mode = .normal → (r.passes c = true ↔ r.n ≠ 1 ∧
        (c.ph = true → next ≠ if r.kind < 2 then last c.sh.toNat else if r.kind = 2 then c.sh.toNat else r.root))) ∧
      (r.ends c = true ↔ c.ph = false ∧ r.kind < 2 ∧ r.rank = last c.sh.toNat)) ∧
    ∀ (x : Tile) (now : Nat) (q : Fin 4) (r : CollRun) (own : Bool) (c : Chunk) (k : Nat) (d : BitVec 128),
      let per := if r.xf = true then 1 else 4
      let n := min per (c.ne.toNat + 1 - per * k)
      let e := if r.kind < 2 ∧ r.rop = rAddFx then 16 else 4
      let j := c.sh.toNat
      let here := x.bufs[r.src].front + ((if r.kind < 2 then j * r.m / r.n else 0) + c.eo.toNat + per * k) * e
      let there := x.bufs[r.dst].shadow + r.toff +
        ((if r.kind = 0 then j * r.m / r.n else if r.kind = 2 then j * r.m else 0) + c.eo.toNat + per * k) * e
      c.xf = r.xf → r.mode = .normal → r.hive = false → per * k ≤ c.ne.toNat → x.upsets = [] → x.spm.wf = true →
      here + n * e ≤ 65536 → there + n * e ≤ 65536 →
      let y := x.processFlit now q r own c k d
      let own_ (i : Nat) : BitVec 128 := let bs := x.spmPrev.readN (here + i * e) e
        if r.xf = true ∧ e = 4 then (fxOfWord r.win (leWord bs)).1 else BitVec.ofNat 128 (leNat bs)
      let came (i : Nat) : BitVec 128 := if r.xf = true then d else (d.extractLsb' (32 * i) 32).setWidth 128
      let sum (i : Nat) : BitVec 128 := if own = true then own_ i else if c.ph = true then came i else
        (reduceElem r.xf r.rop (came i) (own_ i)).1
      let out (i : Nat) : BitVec 128 := if r.ends c = true ∧ r.div = true ∧ ¬ (r.xf = true ∧ r.rop = 0) then
        divElem r.xf r.rop r.n (sum i) else sum i
      let bytes (i : Nat) : List Byte := if r.xf = true ∧ e = 4 then
        leBytes 4 (fxWord r.win (if r.div = true then r.n else 1) (out i)).toNat else leBytes e (out i).toNat
      let writes : Prop := (c.ph = true ∨ r.ends c = true) ∧ (r.kind = 1 → j = r.rank)
      (∀ i, i < n → if r.xf = true then y.2 = out i else y.2.extractLsb' (32 * i) 32 = (out i).setWidth 32) ∧
      (writes → (∀ i b, i < n → b < e → y.1.spm.read (there + i * e + b) = (bytes i).getD b 0) ∧
        ∀ a, (a < there ∨ there + n * e ≤ a) → y.1.spm.read a = x.spm.read a) ∧
      (¬ writes → y.1.spm = x.spm)

/-! ### Scouts (R350 to R357) -/

/-- R53, R350, R351, R73: scalar instructions, branches, SHALT; an unassigned word halts the scout with cause 1. -/
def Obligations.ScoutScalars : Prop :=
  ∀ (s : State) (d a b p : Fin 16) (imm : BitVec 18) (c : ScoutCond) (o20 : BitVec 20) (o26 : BitVec 26),
    let x := s.sc.x[a]
    let v := x.toInt
    let holds : Prop := match c with
      | .eqz => v = 0
      | .nez => v ≠ 0
      | .ltz => v < 0
      | .gez => 0 ≤ v
    let goes (o : Out) (pc : Int) : Prop := ∃ t, o = .next t ∧ (t.sc.pc : Int) = pc % 2 ^ 18 ∧ t.sc.x = s.sc.x ∧ s.onlyScout t ∧
      t.sc.sram = s.sc.sram ∧ t.sc.halted = s.sc.halted
    s.scoutWrites (exec (.smov d a) s) d x ∧
    s.scoutWrites (exec (.sadd d a b) s) d (BitVec.ofNat 64 (x.toNat + s.sc.x[b].toNat)) ∧
    s.scoutWrites (exec (.saddi d a imm) s) d (BitVec.ofInt 64 (x.toNat + imm.toInt)) ∧
    (holds → goes (exec (.sbr a c o20) s) (s.sc.pc + o20.toInt)) ∧
    (¬ holds → goes (exec (.sbr a c o20) s) (s.sc.pc + 1)) ∧
    goes (exec (.sjmp o26) s) (s.sc.pc + o26.toInt) ∧
    (∃ t, exec .shalt s = .next t ∧ t.sc.halted = some 0 ∧ t.sc.x = s.sc.x ∧ s.onlyScout t) ∧
    ∃ t, exec (.scoutIllegalEncoding p) s = .next t ∧ (t.port p).scout.halted = some 1 ∧
      (t.port p).scout.x = (s.port p).scout.x ∧ ∀ q, q ≠ p → t.port q = s.port q

/-- R348, R351, R352: SWAITSEM waits for its count and takes it; SSIGSEM adds to a semaphore, up to 65,535, or sends a SIG
from the port's first tile on the route of a tile-map cache fill: to another tile by the edge port (that this is input 5 is log 33),
to that tile itself by the tile's own input; a SIG without a route is dropped and counted. -/
def Obligations.ScoutSemaphores : Prop :=
  ∀ (s : State) (k : Fin 64) (a : Fin 16),
    let v := s.sc.x[a].toNat
    let p := s.port s.curPort
    let n := p.psem[k].toNat
    let field (lo n : Nat) : Nat := v / 2 ^ lo % 2 ^ n
    let goal := mkTile (field 20 9) (field 29 9)
    let counts (w : Nat) (t : State) : Prop := ((t.port s.curPort).psem[k]).toNat = w ∧
      (∀ j, j ≠ k → (t.port s.curPort).psem[j] = p.psem[j]) ∧ t.sc.pc = (s.sc.pc + 1) % 2 ^ 18 ∧ t.sc.x = s.sc.x
    (v % 65536 ≤ n → ∃ t, exec (.swaitsem k a) s = .next t ∧ counts (n - v % 65536) t) ∧
    (n < v % 65536 → ∃ t, exec (.swaitsem k a) s = .next t ∧ s.scoutStays t ∧ (t.port s.curPort).psem = p.psem) ∧
    (v < 2 ^ 63 → ∃ t, exec (.ssigsem k a) s = .next t ∧ counts (min 65535 (n + v % 65536)) t) ∧
    (2 ^ 63 ≤ v → 64 ≤ p.sigsOut → ∃ t, exec (.ssigsem k a) s = .next t ∧ s.scoutStays t) ∧
    (∀ src, 2 ^ 63 ≤ v → p.sigsOut < 64 → s.portTile s.curPort = some src → s.inGrid (field 20 9) (field 29 9) = true →
      s.isAbsent goal = false → (goal ≠ src → s.routeTo src goal ≠ brokenRoute) →
      ∃ t f n, exec (.ssigsem k a) s = .next t ∧ t.sc.pc = (s.sc.pc + 1) % 2 ^ 18 ∧
        (t.port s.curPort).sigsOut = p.sigsOut + 1 ∧ (t.port s.curPort).psem = p.psem ∧
        (let i : Fin 6 := if goal = src then 4 else 5
         (t.tile src).inC[i].wire = (s.tile src).inC[i].wire ++ [(n, f)] ∧ s.now < n ∧
           ((s.tile src).inC[i].wire = [] → (goal ≠ src → (s.tile src).inR[i].wire = []) → n = s.now + 1)) ∧
        f.ff = true ∧ f.lf = true ∧ f.steer = (if goal = src then 0 else s.routeTo src goal) ∧
        let h := Header.unpack f.data
        h.kd = 2 ∧ h.sx = 511 ∧ h.sy = s.curPort.val ∧ h.ch = field 12 8 ∧ h.sem = field 8 4 ∧ h.inc = field 0 8) ∧
    (2 ^ 63 ≤ v → p.sigsOut < 64 →
      s.portTile s.curPort = none ∨ s.inGrid (field 20 9) (field 29 9) = false ∨ s.isAbsent goal = true ∨
        (∃ src, s.portTile s.curPort = some src ∧ goal ≠ src ∧ s.routeTo src goal = brokenRoute) →
      ∃ t, exec (.ssigsem k a) s = .next t ∧ t.sc.pc = (s.sc.pc + 1) % 2 ^ 18 ∧ t.tiles = s.tiles ∧
        (t.port s.curPort).sigsOut = p.sigsOut ∧ (t.port s.curPort).psem = p.psem ∧
        (p.cntLock = 0 → (t.port s.curPort).cnt[(4 : Fin 6)] = addSat32 p.cnt[(4 : Fin 6)] 1))

/-- R347, R350, R353: a DATA packet that is not queued answers why; one that is takes the bytes of SRAM; ATOMIC sends one request
and waits for its answer. -/
def Obligations.ScoutPacketsLeave : Prop :=
  ∀ (s : State) (d a b : Fin 16),
    let p := s.port s.curPort
    let v := s.sc.x[b].toNat
    let at_ := scoutAddr s.sc.x[a]
    let len := v % 65536
    let dst : BitVec 16 := BitVec.ofNat 16 (v / 2 ^ 16)
    let sv := v / 2 ^ 40 % 2 = 1
    let view := s.portSwarm (Fin.ofNat 256 (v / 2 ^ 32))
    let member : Prop := ∃ w, view = some w ∧ ∃ i ∈ w.members, w.waferOf i = dst
    let fits : Prop := 16 ≤ len ∧ len ≤ 4096 ∧ len % 16 = 0
    (¬ fits → s.scoutWrites (exec (.sxmitData d a b) s) d 3) ∧
    (fits → sv → ¬ member → s.scoutWrites (exec (.sxmitData d a b) s) d 1) ∧
    (fits → (sv → member) → p.planesTo dst = [] → s.scoutWrites (exec (.sxmitData d a b) s) d 2) ∧
    (fits → (sv → member) → p.planesTo dst ≠ [] → p.txq.length < 64 → s.moved at_ len →
      ∃ t q, exec (.sxmitData d a b) s = .next t ∧ s.scoutEnds t d 0 ∧ t.sc.sram = s.sc.sram ∧ (t.port s.curPort).txq = p.txq ++ [q] ∧
        q.peer = dst ∧ q.pk.dst = dst ∧ q.pk.kind = .data ∧ q.pk.payload = s.sc.read at_ len ∧ q.pk.sh = BitVec.ofNat 16 (v / 2 ^ 41) ∧
        q.pk.src = s.ctl.wafid.setWidth 16 ∧ (∀ w, sv → view = some w → q.pk.vt = w.vt)) ∧
    (p.atomic = none → p.txq.length < 64 → ∃ t q, exec (.sxmitAtomic d a b) s = .next t ∧ s.scoutStays t ∧
      (t.port s.curPort).txq = p.txq ++ [q] ∧ q.pk.kind = .atomicReq ∧ q.pk.dst = BitVec.ofNat 16 (v / 2 ^ 32) ∧
      q.pk.arg = BitVec.ofNat 32 v ∧ q.pk.addr = s.sc.x[a].toNat % 2 ^ 20 / 4 * 4) ∧
    ∀ q late old, p.atomic = some q → q.answer = some (late, old) →
      ∃ t, exec (.sxmitAtomic d a b) s = .next t ∧ s.scoutEnds t d (BitVec.ofNat 64 (if late then 2 ^ 32 else old.toNat)) ∧
        (t.port s.curPort).atomic = none

/-- R350, R353: a receive takes the oldest packet that matches, into SRAM; without one POLL gives 0 and WAIT waits, until the
view it waits under changes. -/
def Obligations.ScoutPacketsReceived : Prop :=
  ∀ (s : State) (d a b : Fin 16),
    let p := s.port s.curPort
    let v := s.sc.x[b]
    let at_ := scoutAddr s.sc.x[a]
    let same : Prop := s.sc.waitVt = none ∨ ∀ w, v.getLsbD 8 = true → s.portSwarm (Fin.ofNat 256 (v.toNat % 256)) = some w →
      s.sc.waitVt = some w.vt
    let takes (q : Packet) (o : Out) : Prop := ∃ t x, o = .next t ∧ s.scoutEnds t d x ∧ s.sramTakes t at_ q.payload ∧
      x.toNat % 2 ^ 48 = q.payload.length % 2 ^ 16 + 2 ^ 16 * q.src.toNat + 2 ^ 32 * q.sh.toNat ∧
      (∀ w, q.sv = true → s.swarm q.swn = some w → ∀ r, w.rankOf q.src = some r → x.toNat / 2 ^ 48 = r % 2 ^ 16) ∧
      ∃ l r, p.rxq = l ++ q :: r ∧ (t.port s.curPort).rxq = l ++ r ∧ ∀ k ∈ l, recvMatch v k = false
    (p.rxq.find? (recvMatch v) = none → s.scoutWrites (exec (.srecvPoll d a b) s) d 0) ∧
    (p.rxq.find? (recvMatch v) = none → same → ∃ t, exec (.srecvWait d a b) s = .next t ∧ s.scoutStays t ∧
      (t.port s.curPort).rxq = p.rxq) ∧
    (¬ same → s.scoutWrites (exec (.srecvWait d a b) s) d (BitVec.allOnes 64)) ∧
    ∀ q, s.memOk = true → p.rxq.find? (recvMatch v) = some q → q.payload.length < 2 ^ 16 → s.moved at_ q.payload.length →
      takes q (exec (.srecvPoll d a b) s) ∧ (same → takes q (exec (.srecvWait d a b) s))

/-- R339, R349, R350, R354, R355: SREDUCE combines one packet of each other member with the local contribution; SFWD takes the
anchor's contribution and sends results back. That SFWD.OUT goes on where the last one ended, and that SFWD.IN consumes the
contribution, is the model's reading (log 38). -/
def Obligations.ScoutReductions : Prop :=
  ∀ (s : State) (d a b : Fin 16) (fn : BitVec 6) (w : Swarm),
    let p := s.port s.curPort
    let at_ := scoutAddr s.sc.x[b]
    let sw : Fin 256 := Fin.ofNat 256 (s.sc.x[a].toNat % 256)
    let sh : BitVec 16 := BitVec.ofNat 16 (s.sc.x[a].toNat / 2 ^ 8)
    let order := fn.toNat / 8 % 4
    let legal : Prop := order ≠ 3 ∧ (order = 2 → fn.toNat % 8 = 7)
    (¬ legal → ∃ t, exec (.sreduce d a b fn) s = .next t ∧ t.sc.halted = some 1 ∧ t.sc.x = s.sc.x) ∧
    (s.memOk = true → s.portSwarm sw = some w → s.sc.waitVt = none ∨ s.sc.waitVt = some w.vt →
      (∀ others ps n, legal → s.otherMembers w = some others → others ≠ [] → ps = p.shard sw sh w.vt → ps.length = others.length →
        (∀ q ∈ ps, q.src ∈ others ∧ q.payload.length = n) → (ps.map Packet.src).Nodup → s.moved at_ n →
        ∃ t, exec (.sreduce d a b fn) s = .next t ∧ s.scoutEnds t d (BitVec.ofNat 64 w.members.length) ∧
          s.sramTakes t at_ (s.reduced w fn.toNat (s.sc.read at_ n) ps).1 ∧ ∀ q ∈ (t.port s.curPort).rxq, q ∈ p.rxq ∧ q ∉ ps) ∧
      (∀ c, p.contrib = [c] → c.sw = sw → c.vt = w.vt → c.data.length = c.size → c.size < 2 ^ 16 → s.moved at_ c.size →
        ∃ t, exec (.sfwdIn d a b) s = .next t ∧
          s.scoutEnds t d (BitVec.ofNat 64 (c.size + 2 ^ 16 * c.inst.toNat + 2 ^ 32 * c.vt.toNat)) ∧
          s.sramTakes t at_ c.data ∧ (t.port s.curPort).contrib = []) ∧
      (p.contrib = [] → ∃ t, exec (.sfwdIn d a b) s = .next t ∧ s.scoutStays t) ∧
      (s.anchorRun sw w = none → s.scoutWrites (exec (.sfwdOut d a b) s) d 1) ∧
      ∀ r, s.anchorRun sw w = some r → s.moved at_ (s.sc.x[a].toNat / 2 ^ 16 % 2 ^ 16) →
        ∃ t, exec (.sfwdOut d a b) s = .next t ∧ s.scoutEnds t d 0 ∧ t.sc.sram = s.sc.sram ∧
          let e := if r.xf then 16 else 4
          let n := min (s.sc.x[a].toNat / 2 ^ 16 % 2 ^ 16 / e) (r.resultBytes / r.e - p.forwarded sw r.ch r.inst)
          (t.port s.curPort).forwarded sw r.ch r.inst = p.forwarded sw r.ch r.inst + n ∧
          let x := mkTile w.ax.toNat w.ay.toNat
          ((t.tile x).inR[(5 : Fin 6)].wire.drop (s.tile x).inR[(5 : Fin 6)].wire.length).map Prod.snd =
            fwdChunks r (p.forwarded sw r.ch r.inst) ((elemsOf r.xf (s.sc.read at_ (s.sc.x[a].toNat / 2 ^ 16 % 2 ^ 16))).take n))

/-- R330, R345, R356, R357: STATUS gives the planes in rotation; DRAIN refuses the last one that carries traffic, else takes the plane
out and ends once nothing sent on it awaits an acknowledgement; RESTORE loads the drained plane's entries from SRAM and returns
it; the forms of SVIEW; a swarm that does not name this port gives all ones. -/
def Obligations.ScoutPlanesAndViews : Prop :=
  (∀ (s : State) (d a b : Fin 16),
     let p := s.port s.curPort
     let k : Fin 4 := Fin.ofNat 4 (s.sc.x[a].toNat % 4)
     let at_ := scoutAddr s.sc.x[b]
     (∃ v : BitVec 64, s.scoutWrites (exec (.splaneStatus d a b) s) d v ∧ v.toNat < 16 ∧ ∀ j : Fin 4, v.getLsbD j.val = p.rot[j]) ∧
     (p.drain = none → p.lastPlane k = true → s.scoutWrites (exec (.splaneDrain d a b) s) d 1) ∧
     (p.drain = none → p.lastPlane k = false → (∀ q ∈ p.txq, q.plane ≠ some k) →
       ∃ t, exec (.splaneDrain d a b) s = .next t ∧ s.scoutEnds t d 0 ∧ (t.port s.curPort).rot[k] = false ∧
         (∀ j, j ≠ k → (t.port s.curPort).rot[j] = p.rot[j]) ∧ ∀ e ∈ (t.port s.curPort).peers, e.route = none) ∧
     (p.drain = none → p.lastPlane k = false → (∃ q ∈ p.txq, q.plane = some k) →
       ∃ t, exec (.splaneDrain d a b) s = .next t ∧ s.scoutStays t ∧ (t.port s.curPort).rot[k] = false) ∧
     (2 ^ 20 < at_ + 256 → ∃ t, exec (.splaneRestore d a b) s = .next t ∧ t.sc.halted = some 2) ∧
     (at_ + 256 ≤ 2 ^ 20 → p.lastPlane k = false → s.sc.busy = none → (∀ q ∈ p.txq, q.plane ≠ some k) → p.shadowPlanes = [] →
       (p.drain = none ∨ p.rot[k] = false) →
       ∃ t n, exec (.splaneRestore d a b) s = .next t ∧ t.sc.busy = some n ∧ s.ref < n ∧ t.sc.pc = s.sc.pc ∧
         ∀ i : Fin 64, (t.port s.curPort).planes[k][i] = entryOf (leWord (s.sc.read (at_ + 4 * i.val) 4))) ∧
     ∀ n, at_ + 256 ≤ 2 ^ 20 → (p.drain ≠ none ∨ p.lastPlane k = false) → s.sc.busy = some n → n ≤ s.ref →
       ∃ t, exec (.splaneRestore d a b) s = .next t ∧ s.scoutEnds t d (BitVec.ofNat 64 ((t.port s.curPort).upCount k)) ∧
         (t.port s.curPort).rot[k] = true) ∧
  (∀ (s : State) (d a b : Fin 16),
     let sw : Fin 256 := Fin.ofNat 256 (s.sc.x[a].toNat % 256)
     (s.portSwarm sw = none → ∀ i, i = .sviewRead d a b ∨ i = .sviewWait d a b ∨ i = .sviewJoin d a b ∨ i = .sviewLeave d a b →
       s.scoutWrites (exec i s) d (BitVec.allOnes 64)) ∧
     ∀ w, s.portSwarm sw = some w →
       (∀ i, s.ownIndex w = some i → i ∈ w.members → s.scoutWrites (exec (.sviewRead d a b) s) d
         (BitVec.ofNat 64 (w.vt.toNat + 2 ^ 16 * w.members.length + 2 ^ 32 * (w.members.filter (· < i)).length +
           2 ^ 48 * (if w.vc then 1 else 0) + 2 ^ 49))) ∧
       (w.vt.toNat ≠ s.sc.x[b].toNat % 65536 → ∃ v, s.scoutWrites (exec (.sviewWait d a b) s) d v ∧ v.toNat % 65536 = w.vt.toNat) ∧
       (w.vt.toNat = s.sc.x[b].toNat % 65536 → ∃ t, exec (.sviewWait d a b) s = .next t ∧ s.scoutStays t) ∧
       (∀ i, s.ownIndex w = some i → i ∉ w.members → ∃ t u, exec (.sviewJoin d a b) s = .next t ∧ s.scoutEnds t d 0 ∧
         t.swarm sw = some u ∧ u.roster[i]? = (w.roster[i]?).map (· ||| 0x40000000) ∧
         (s.assisted fnWaggle = false → PortFrame.join sw ∈ (t.port w.port).sent) ∧
         (s.assisted fnWaggle = true → t.asking fnWaggle (frameBody sw (.join sw)) = true)) ∧
       ∀ i, s.ownIndex w = some i → i ∈ w.members → i ∉ w.leave → ∃ t u, exec (.sviewLeave d a b) s = .next t ∧
         s.scoutEnds t d 0 ∧ t.swarm sw = some u ∧ u.leave = w.leave ++ [i] ∧ u.roster = w.roster)

/-! ### Optical ports and swarm views -/

/-- R334, R335, R343, R344, R346 to R348: heartbeats go to every valid peer on every plane that reaches it; a frame ends suspicion
(the model's reading, log 36), which drops the route and restarts the round that the suspected wafer proposed, or did not
acknowledge in 30 µs; packets arrive once and in order, are acknowledged, freed, and sent again; a remote atomic adds once and
answers with the old word, and waits while the transmit queue is full (the model's reading, log 37); an unanswered one times out; a
lost link drops the peer's route; a port reset clears the semaphores. -/
def Obligations.OpticalPorts : Prop :=
  (∀ (s : State) (p : Fin 16) (k : Fin 4) (i : Fin 64) (w : BitVec 16) (seq : BitVec 32) (pk : Packet),
     let x := s.port p
     (∃ t, exec (.heartbeat p) s = .next t ∧ ∀ f, f ∈ (t.port p).sent ↔ f ∈ x.sent ∨ ∃ v j, f = .heartbeat v j ∧ v ∈ x.valid ∧
       j ∈ x.planesTo v ∧ (s.ref + Config.heartbeatPhase p.val v.toNat j.val) % 12500 = 0) ∧
     (∃ t, exec (.heartbeatFrame p k w) s = .next t ∧
       (∀ e ∈ (t.port p).peers, e.wid = w → e.suspected = false ∧ e.lastFrame = s.ref) ∧
       ∀ e ∈ x.peers, e.wid ≠ w → e ∈ (t.port p).peers) ∧
     (∃ t, exec (.suspicion p w) s = .next t ∧
       (∀ e ∈ (t.port p).peers, e.wid = w → e.suspected = true ∧ e.route = none) ∧
       (∀ e ∈ x.peers, e.wid ≠ w → e ∈ (t.port p).peers) ∧
       ∀ sw v u r, s.swarm sw = some v → v.lvl = true → v.port = p → v.round = some r → t.swarm sw = some u →
         (s.ownIndex v ≠ some r.by_ → v.waferOf r.by_ = w → u.round = none) ∧
         (s.ownIndex v = some r.by_ → r.start + 37500 ≤ s.ref →
           (∃ j ∈ r.set, j ≠ r.by_ ∧ (∀ d, (j, d) ∉ r.acks) ∧ v.waferOf j = w) → u.round = none)) ∧
     (∀ e, (x.entry k i).v = true → (x.entry k i).wid = pk.src → x.peer pk.src = some e →
       (pk.kind = .data → pk.sv = false → e.window = [] → pk.seq = e.rxNext → x.rxq.length + x.early.length + x.atomIn.length < 64 →
         ∃ t e', exec (.packetArrival p k i pk) s = .next t ∧ (t.port p).rxq = x.rxq ++ [pk] ∧
           (t.port p).sent = x.sent ++ [.packetAck pk.src pk.seq] ∧ (t.port p).peer pk.src = some e' ∧ e'.rxNext = e.rxNext + 1) ∧
       (2 ^ 31 ≤ (pk.seq - e.rxNext).toNat →
         ∃ t, exec (.packetArrival p k i pk) s = .next t ∧ (t.port p).rxq = x.rxq ∧
           (t.port p).sent = x.sent ++ [.packetAck pk.src pk.seq] ∧
           (x.cntLock = 0 → (t.port p).cnt[(1 : Fin 6)] = addSat32 x.cnt[(1 : Fin 6)] 1))) ∧
     ((x.entry k i).v = false → ∃ t, exec (.packetArrival p k i pk) s = .next t ∧ (t.port p).rxq = x.rxq ∧
       (t.port p).sent = x.sent ∧ (x.cntLock = 0 → (t.port p).cnt[(4 : Fin 6)] = addSat32 x.cnt[(4 : Fin 6)] 1)) ∧
     (∃ t, exec (.packetAcknowledgement p w seq) s = .next t ∧
       ∀ d, d ∈ (t.port p).txq ↔ d ∈ x.txq ∧ ¬ (d.peer = w ∧ d.pk.seq = seq)) ∧
     ∀ d n, x.txq = [d] → d.sentAt = some n → n + 6250 ≤ s.ref → x.rotation d.peer ≠ [] →
       (∀ e, x.peer d.peer = some e → ∀ j : Fin 4, e.busy[j] ≤ s.ref) →
       ∃ t j, exec (.retransmission p) s = .next t ∧ j ∈ x.rotation d.peer ∧ (t.port p).sent = x.sent ++ [.packet j d.pk] ∧
         (t.port p).txq = [{ d with mask := planeMask (x.routeOf d.peer), plane := some j, sentAt := some s.ref }] ∧
         (x.cntLock = 0 → (t.port p).cnt[(2 : Fin 6)] = addSat32 x.cnt[(2 : Fin 6)] 1)) ∧
  (∀ (s : State) (p : Fin 16) (k : Fin 4) (i : Fin 64) (q : Packet) (l : List Packet) (e : Peer),
     let x := s.port p
     let a := q.addr % 2 ^ 20 / 4 * 4
     let old := leWord (x.scout.read a 4)
     (x.atomIn = q :: l → 64 ≤ x.txq.length → exec (.remoteAtomic p) s = .next s) ∧
     (x.atomIn = q :: l → x.peer q.src = some e → x.scout.sram.wf = true → x.txq.length < 64 →
       ((∀ n o, e.resp = some (n, o) → n ≠ q.reqno) → ∃ t d, exec (.remoteAtomic p) s = .next t ∧ (t.port p).atomIn = l ∧
         leWord ((t.port p).scout.sram.readN a 4) = old + q.arg ∧
         (∀ y, (y < a ∨ a + 4 ≤ y) → (t.port p).scout.sram.read y = x.scout.sram.read y) ∧
         (t.port p).txq = x.txq ++ [d] ∧ d.peer = q.src ∧ d.pk.kind = .atomicResp ∧ d.pk.arg = old ∧ d.pk.reqno = q.reqno) ∧
       (∀ o, e.resp = some (q.reqno, o) → ∃ t d, exec (.remoteAtomic p) s = .next t ∧ (t.port p).scout = x.scout ∧
         (t.port p).txq = x.txq ++ [d] ∧ d.pk.kind = .atomicResp ∧ d.pk.arg = o)) ∧
     (∀ r n, x.atomic = some r → r.answer = none → r.sentAt = some n → n + 37500 ≤ s.ref →
       ∃ t, exec (.remoteAtomicTimeout p) s = .next t ∧ (t.port p).atomic = some { r with answer := some (true, 0) } ∧
         (x.cntLock = 0 → (t.port p).cnt[(3 : Fin 6)] = addSat32 x.cnt[(3 : Fin 6)] 1)) ∧
     (∃ t, exec (.linkLoss p k i) s = .next t ∧ (t.port p).entry k i = { x.entry k i with up := false } ∧
       ∀ y ∈ (t.port p).peers, y.wid = (x.entry k i).wid → y.route = none) ∧
     ∃ t, exec (.portReset p) s = .next t ∧ (∀ j : Fin 64, (t.port p).psem[j] = 0) ∧ (∀ j : Fin 6, (t.port p).cnt[j] = 0) ∧
       (∀ y ∈ (t.port p).peers, y.route = none) ∧
       (t.port p).planes = x.planes ∧ (t.port p).scout = x.scout)

/-- R320, R324, R330, R333, R335, R336, R341: the lowest present rank proposes, and no other; a newer proposal is acknowledged, once the
member may, and an older one counted; the last acknowledgement lets the proposer commit; a newer COMMIT is installed, or kept while a
tile of the swarm here is MIGRATING or a thermal hold is in force (log 49); a JOIN is noted. A frame goes through the port, or is asked
of the host. That a round of comb level commits at once is log 25, and that `VC` is set where the acknowledgement is deferred log 58:
both the model's readings. -/
def Obligations.SwarmViews : Prop :=
  ∀ (s : State) (sw : Fin 256) (w : Swarm) (src tag ni : BitVec 16) (ms : List Nat) (f : CommitFrame) (done : List (Nat × BitVec 16)),
    s.swarm sw = some w → w.v = true →
    let set := s.roundSet w sw
    let next := (if older16 w.vt w.seen = true then w.seen else w.vt) + 1
    (w.lvl = false → ∃ t u g, exec (.waggleRound sw) s = .next t ∧ t.swarm sw = some u ∧ u.vc = true ∧
      t.agenda.head? = some (.ev (.commit sw (s.ctl.wafid.setWidth 16) g)) ∧ g.tag = next ∧ g.members = set) ∧
    (∀ me, w.lvl = true → s.ownIndex w = some me →
      (w.proposer set = some me →
        ∃ t u r, exec (.waggleRound sw) s = .next t ∧ t.swarm sw = some u ∧ u.vc = true ∧ u.seen = next ∧
          u.round = some r ∧ r.tag = next ∧ r.by_ = me ∧ r.set = set ∧
          (w.relay = false → (t.port w.port).sent = (s.port w.port).sent ++ [.propose sw next set w.ni]) ∧
          (w.relay = true → t.asking fnWaggle (frameBody sw (.propose sw next set w.ni)) = true)) ∧
      (w.proposer set ≠ some me → exec (.waggleRound sw) s = .next s)) ∧
    (∀ me lead, w.lvl = true → s.ownIndex w = some me → w.roster.findIdx? (fun e => e.setWidth 16 == src) = some lead →
      (older16 w.acked tag = true → older16 w.vt tag = true → me ∈ ms → s.mayAck w sw ms = true →
        ∃ t u r d, exec (.propose sw src tag ms ni) s = .next t ∧ t.swarm sw = some u ∧ u.acked = tag ∧ u.vc = true ∧
          u.round = some r ∧ r.tag = tag ∧ r.by_ = lead ∧ r.set = ms ∧
          (s.assisted fnWaggle = false → (t.port w.port).sent = (s.port w.port).sent ++ [.ack sw src tag d]) ∧
          (s.assisted fnWaggle = true → t.asking fnWaggle (frameBody sw (.ack sw src tag d)) = true)) ∧
      (older16 w.acked tag = true → older16 w.vt tag = true → me ∈ ms → s.mayAck w sw ms = false →
        ∃ t u, exec (.propose sw src tag ms ni) s = .next t ∧ t.swarm sw = some u ∧ u.acked = w.acked ∧ u.vc = true ∧
          (t.port w.port).sent = (s.port w.port).sent) ∧
      (older16 w.acked tag = false → ∃ t, exec (.propose sw src tag ms ni) s = .next t ∧
        (t.port w.port).sent = (s.port w.port).sent ∧
        ((s.port w.port).cntLock = 0 → (t.port w.port).cnt[(0 : Fin 6)] = addSat32 (s.port w.port).cnt[(0 : Fin 6)] 1))) ∧
    (∀ me, s.ownIndex w = some me →
      ∀ r i, w.round = some r → r.tag = tag → r.by_ = me → i ∈ r.set →
        w.roster.findIdx? (fun e => e.setWidth 16 == src) = some i → (∀ j ∈ r.set, j = me ∨ j = i ∨ ∃ d, (j, d) ∈ r.acks) →
        ∃ t g, exec (.ack sw src tag done) s = .next t ∧
          t.agenda.head? = some (.ev (.commit sw (w.waferOf me) g)) ∧ g.tag = tag ∧ g.members = r.set) ∧
    (older16 w.vt f.tag = true → s.membersMove w = true → ∃ t u, exec (.commit sw src f) s = .next t ∧ t.swarm sw = some u ∧
      u.held = some (src, f) ∧ u.vt = w.vt ∧ u.roster = w.roster ∧ t.tiles = s.tiles) ∧
    (older16 w.vt f.tag = true → s.membersMove w = false → s.hold = true → ∃ t u, exec (.commit sw src f) s = .next t ∧ t.swarm sw = some u ∧
      u.held = some (src, f) ∧ u.vt = w.vt ∧ u.roster = w.roster ∧ t.tiles = s.tiles) ∧
    (older16 w.vt f.tag = true → s.membersMove w = false → s.hold = false → ∃ t u, exec (.commit sw src f) s = .next t ∧ t.swarm sw = some u ∧ u.vt = f.tag ∧ u.vc = false ∧
      u.round = none ∧ (∀ i, i < w.roster.length → (i ∈ u.members ↔ i ∈ f.members)) ∧
      ∀ i v, w.lvl = true → s.ownIndex w = some i → (s.tile (w.tileOf i)).viewSlot sw = some v →
        ∃ v', (t.tile (w.tileOf i)).viewSlot sw = some v' ∧ v'.vt = f.tag ∧ v'.vc = false ∧
          v'.rank = BitVec.ofNat 16 (f.members.filter (· < i)).length ∧ v'.nm = BitVec.ofNat 16 (f.members.length - 1) ∧
          (v'.mb = true ↔ i ∈ f.members)) ∧
    ∀ i, w.roster.findIdx? (fun e => e.setWidth 16 == src) = some i → i ∉ w.members →
      ∃ t u, exec (.join sw src) s = .next t ∧ t.swarm sw = some u ∧ u.roster[i]? = (w.roster[i]?).map (· ||| 0x40000000)

/-! ### Faults of queued commands, pre-emption, migration, pages -/

/-- R340, R377, R378, R379: the oldest fault of a context that may trap is delivered with the bundle it stands at as EPC; a
VIEWCHANGE trap comes at the wait it concerns; the queen core records the fault of a stopped context in its launch's ring and
ends the task, and records one that a command of an ended task reports. -/
def Obligations.FaultsDeliverAndRecord : Prop :=
  ∀ (s : State) (t : TileId) (c : Fin 4) (q : Fin 3) (f : PendFault) (v : VcTrap) (lid : Nat) (l : Launch), let x := s.ctx t c
    (x.st = .active → x.it = false → x.itClear = false → x.trapv ≠ 0 → x.oldestFault = some q → x.faults[q] = some f →
      ∃ u, exec (.faultDelivery t c) s = .next u ∧ let y := u.ctx t c
        y.cause = f.flt.cause ∧ y.finfo = f.flt.finfo ∧ y.fpc = f.flt.fpc ∧ y.epc = x.pc ∧ y.pc = x.trapv ∧ y.it = true ∧
        y.faults[q] = none ∧ (∀ r, r ≠ q → y.faults[r] = x.faults[r]) ∧ y.s = x.s) ∧
    (x.st = .active → x.it = false → x.itClear = false → x.trapv ≠ 0 → x.oldestFault = none →
      (s.heldAt (s.tile t) c).bind x.vcPending = some v →
      ∃ u, exec (.faultDelivery t c) s = .next u ∧ let y := u.ctx t c
        y.cause = BitVec.ofNat 32 (10 + 2 ^ 8 + v.newTag.toNat * 2 ^ 16) ∧ y.finfo = v.finfo ∧ y.epc = x.pc ∧ y.pc = x.trapv ∧
        y.it = true ∧ ∀ w ∈ y.vcTraps, w ∈ x.vcTraps ∧ w ≠ v) ∧
    (s.memOk = true → s.fw.gap = false → x.st = .stopped → x.lid = some lid → s.launchOf lid = some l →
      x.faults = Vector.replicate 3 none → x.late = [] →
      let u := s.queue l.queue
      (u.fcnt - u.fread).toNat < 2 ^ u.flsz.toNat →
      ∃ s', exec (.faultRecord t c) s = .next s' ∧ (s'.ctx t c).st = .halted ∧ (s'.queue l.queue).fcnt = u.fcnt + 1 ∧
        s'.hostRead (u.fbase.toNat + 32 * (u.fcnt.toNat % 2 ^ u.flsz.toNat)) 24 =
          leBytes 4 x.cause.toNat ++ leBytes 4 x.finfo.toNat ++ leBytes 8 x.fpc.toNat ++ leBytes 8 x.epc.toNat) ∧
    (∀ g, s.memOk = true → s.fw.gap = false → x.st = .halted → x.lid = some lid → s.launchOf lid = some l →
      x.faults = Vector.replicate 3 none → x.late = [g] →
      let u := s.queue l.queue
      (u.fcnt - u.fread).toNat < 2 ^ u.flsz.toNat →
      ∃ s', exec (.faultRecord t c) s = .next s' ∧ (s'.ctx t c).late = [] ∧ (s'.queue l.queue).fcnt = u.fcnt + 1 ∧
        s'.hostRead (u.fbase.toNat + 32 * (u.fcnt.toNat % 2 ^ u.flsz.toNat)) 24 =
          leBytes 4 g.cause.toNat ++ leBytes 4 g.finfo.toNat ++ leBytes 8 g.fpc.toNat ++ leBytes 8 x.pc.toNat)

/-- R44, R380 to R384: a request becomes pending; where it is taken the context drains, with an area on its launch's stack, or waits
for the next safe point when the queen core finds no room there; a context that has not drained in time is frozen, its unstarted
commands removed (a COLL whose checks have passed has started, R337); the save holds the marked items and zeros for the others, and its bytes in the heap have R383's header and first
section (that the place is free and the order of bytes inside a field are log 39's); a restore writes the bytes of the marked rings and
buffers through the engine port, then the other tile items, and brings the saved registers back on the saved PC and task tick. -/
def Obligations.PreemptionSavesAndRestores : Prop :=
  ∀ (s : State) (t : TileId) (c : Fin 4) (a : SaveArea), let x := s.ctx t c
    (x.st = .active → x.preReq = none → ∃ u, exec (.preemptionRequest t c) s = .next u ∧
      u.ctx t c = { x with preReq := some (s.now, false) }) ∧
    (x.st = .active → x.preReq.isSome = true → ∃ u, exec (.preemption t c) s = .next u ∧
      (s.saveSpace t c = none → u.ctx t c = { x with safe := false }) ∧
      ∀ pa, s.saveSpace t c = some pa → pa / 2 ^ 36 = s.heapStack x ∧ (u.ctx t c).st = .draining ∧ (u.ctx t c).pc = x.pc ∧
        (u.areaOf t c).isSome = true ∧ (s.areaOf t c = none → (u.areaOf t c).bind SaveArea.place = some pa)) ∧
    (x.st = .active ∨ x.st = .draining → ∃ u b, exec (.preemptionFreeze t c) s = .next u ∧ (u.ctx t c).st = .draining ∧
      u.areaOf t c = some b ∧ b.frozen = true ∧ (∀ k ∈ (u.tile t).cpq, k.ctx ≠ c) ∧
      (∀ k ∈ (u.tile t).chq, k.ctx = c → ((s.tile t).queuedRun k.id).isSome = true) ∧
      ∀ k ∈ (u.tile t).mxq, k.ctx = c → (s.tile t).mxRun.map MxRun.id = some k.id) ∧
    (x.st = .draining → s.areaOf t c = some a → ∃ u b, exec (.contextSave t c) s = .next u ∧ (u.ctx t c).st = .out ∧
      (u.ctx t c).preReq = none ∧ u.areaOf t c = some b ∧ b.mask = (if a.frozen then fullMask else x.live) ∧ b.saved.pc = x.pc ∧
      (∀ i : Fin 32, b.saved.s[i] = if b.mask.getLsbD i.val then x.s[i] else 0) ∧
      (∀ i : Fin 8, b.saved.a[i] = if b.mask.getLsbD (32 + i.val) then x.a[i] else 0) ∧
      b.saved.stack = (if b.mask.getLsbD 194 then x.stack else []) ∧ b.saved.tt = x.tt ∧ b.saved.cnt = x.cnt ∧
      (∀ i : Fin 16, b.mask.getLsbD (40 + i.val) = true → b.saved.v[i] = x.v[i]) ∧
      (∀ i : Fin 64, b.mask.getLsbD (88 + i.val) = true → (i, (s.tile t).acm[i]) ∈ b.accs) ∧
      ∀ pa, a.place = some pa → s.memOk = true →
        let bytes := b.image s.free
        let field (o n : Nat) : Nat := leNat (u.heap.readN (pa + o) n)
        b.place = some pa ∧ u.heap.readN pa bytes.length = bytes ∧
        (∀ k, (k < pa ∨ pa + bytes.length ≤ k) → u.heap.read k = s.heap.read k) ∧
        field 0 4 = 0x53455631 ∧ field 4 4 = b.frozen.toNat + 2 * b.overrun.toNat ∧ field 8 32 = b.mask.toNat ∧
        field 40 8 = x.tt % 2 ^ 64 ∧ field 48 8 = x.pc.toNat ∧ field 120 4 = x.status.toNat ∧
        (∀ i : Fin 16, field (176 + i.val) 1 = x.cnt[i].toNat) ∧
        (∀ i : Fin 32, field (512 + 4 * i.val) 4 = b.saved.s[i].toNat) ∧
        ∀ i : Fin 8, field (640 + 8 * i.val) 8 = b.saved.a[i].toNat) ∧
    (x.st = .out → s.areaOf t c = some a → a.restore = .saved → ∃ u b, exec (.contextRestore t c) s = .next u ∧
      u.areaOf t c = some b ∧ b = { a with restore := .writing a.spmBytes } ∧ u.ctx t c = x) ∧
    (x.st = .out → s.areaOf t c = some a → a.restore = .written → (s.tile t).roomFor a = true → (s.tile t).mig = none →
      ∃ u, exec (.contextRestore t c) s = .next u ∧ (u.ctx t c).st = .active ∧ (u.ctx t c).s = a.saved.s ∧
        (u.ctx t c).v = a.saved.v ∧ (u.ctx t c).m = a.saved.m ∧ (u.ctx t c).p = a.saved.p ∧ (u.ctx t c).pc = x.pc ∧
        (u.ctx t c).a = a.saved.a ∧ (u.ctx t c).stack = a.saved.stack ∧ (u.ctx t c).pend = a.saved.pend ∧ (u.ctx t c).tt = x.tt ∧
        u.areaOf t c = none) ∧
    ∀ b row, s.saves = [b] → b.tile = t → b.restore = .writing row → (∀ e ∈ row, e.1 / 128 = (row.headD (0, 0)).1 / 128 ∧ e.1 < 65536) →
      (s.tile t).portBusy = false → (s.tile t).frozen = false → (s.tile t).locked s.now (row.map Prod.fst) = false →
      let y := (s.restorePort t).tile t
      (s.restorePort t).saves = [{ b with restore := .written }] ∧ y.portBusy = true ∧
      ((s.tile t).spm.wf = true → (∀ l e r, row = l ++ e :: r → (∀ k ∈ r, k.1 ≠ e.1) → y.spm.read e.1 = e.2) ∧
        ∀ k, (∀ e ∈ row, e.1 ≠ k) → y.spm.read k = (s.tile t).spm.read k) ∧
      (∀ i r, b.accs = [(i, r)] → y.acm[i] = r) ∧ (∀ i r, b.planes = [(i, r)] → y.wp[i] = r) ∧
      (∀ i r bs, b.rings = [(i, r, bs)] →
        y.rings[i] = { r with claimed := (s.tile t).rings[i].claimed, ended := (s.tile t).rings[i].ended }) ∧
      (∀ i r bs, b.bufs = [(i, r, bs)] → y.bufs[i] = r) ∧ (∀ v, b.prec = some v → y.prec = v) ∧ ∀ v, b.decay = some v → y.decay = v

/-- R316, R317, R320 to R326: a migration marks its tile, stops its contexts, assigns a brood tile and a relay path, names the new place
in the map when the image has moved, and resumes the contexts on the next tick with their registers and task ticks; one that finds
no brood tile loses its tile; a lost tile is ABSENT and runs nothing; a new version of the map and the answers to its cache reach a tile. -/
def Obligations.TilesMigrateAndFail : Prop :=
  ∀ (s : State) (t : TileId), let x := s.tile t
    ((s.mapEntry t).st = 0 → (∀ m ∈ s.migrations, m.tile ≠ t) →
      (s.assisted fnMigrate = false → ∃ u, exec (.migrationStart t) s = .next u ∧ (u.mapEntry t).st = 1 ∧
        (u.tile t).mig = some s.now ∧ u.tmVer = s.tmVer + 1) ∧
      (s.assisted fnMigrate = true → ∃ u, exec (.migrationStart t) s = .next u ∧ (u.mapEntry t).st = 0 ∧
        (∃ m ∈ u.migrations, m.tile = t ∧ m.awaiting = true) ∧ u.asking fnMigrate (tileBody t) = true)) ∧
    ((∃ m ∈ s.migrations, m.tile = t ∧ m.awaiting = true) → ∃ u, exec (.migrationApprovalTimeout t) s = .next u ∧
      (u.mapEntry t).st = 1 ∧ (u.tile t).mig = some s.now ∧ u.asking fnMigrate (tileBody t) = false) ∧
    (x.mig.isSome = true → ∃ u, exec (.migrationFreeze t) s = .next u ∧ ∀ c, ((u.ctx t c).st ≠ .active) ∧
      ((s.ctx t c).st = .active → (u.ctx t c).st = .frozen ∧ (u.ctx t c).tt = (s.ctx t c).tt ∧ (u.ctx t c).s = (s.ctx t c).s)) ∧
    (∀ m, s.migrations = [m] → m.tile = t →
      (∀ q p, m.placed = none → m.goal = none → s.pickBrood t m.brood = some (q, p) →
        ∃ u, exec (.migrationMove t) s = .next u ∧ u.tiles = s.tiles ∧ u.tmap = s.tmap ∧
          u.migrations = [{ m with goal := some q, path := p, moveAt := some (s.now + 9920 + relayLatency (s.place t) q) }]) ∧
      (m.placed = none → m.goal = none → s.pickBrood t m.brood = none →
        ∃ u, exec (.migrationMove t) s = .next u ∧ u.agenda.head? = some (.ev (.tileLost t)) ∧ u.tiles = s.tiles) ∧
      (∀ q, m.placed = none → m.goal = some q → q.1 < 416 → q.2 < 416 → (∀ w ∈ x.upsets, w.ue = false) →
        ∃ u, exec (.migrationMove t) s = .next u ∧ u.place t = q ∧ (u.mapEntry t).st = 0 ∧ (u.tile t).spm = x.spm ∧
          (∃ n, u.migrations = [n] ∧ n.placed = some s.now) ∧ ∀ c, u.ctx t c = s.ctx t c) ∧
      (∀ k, m.placed = some k → k < s.now →
        ∃ u, exec (.migrationMove t) s = .next u ∧ (u.tile t).mig = none ∧ u.migrations = [] ∧ (u.tile t).spm = x.spm ∧
          u.tmap = s.tmap ∧ ∀ c, (u.ctx t c).tt = (s.ctx t c).tt ∧ (u.ctx t c).s = (s.ctx t c).s ∧
            ((s.ctx t c).st = .frozen → (u.ctx t c).st = .active))) ∧
    ((s.mapEntry t).st ≠ 2 → ∃ u, exec (.tileLost t) s = .next u ∧ (u.mapEntry t).st = 2 ∧ (u.tile t).absent = true ∧
      (∀ c, (u.ctx t c).st = .free) ∧ ((∀ e ∈ s.tiles, e.2.routes = [] ∧ e.2.tmc = []) → u.tmVer = s.tmVer + 1)) ∧
    (∀ d v, (s.broadcasts.filter fun b => b.1 == t && decide (b.2.1 ≤ s.now)) = [(t, d, v)] →
      ∃ u, exec (.tileMapBroadcast t) s = .next u ∧ u.tile t = { x with tmVer := v }) ∧
    ∀ g d, x.tmMiss = some (g, d) → d ≤ s.now → g < 512 * 512 → ∃ u e, exec (.tileMapCacheFill t) s = .next u ∧
      e ∈ (u.tile t).tmc ∧ e.ver = s.tmVer ∧ e.legs = s.routeTo t g ∧ e.st = (s.mapEntry g).st ∧ (u.tile t).tmMiss = none ∧
      ((∀ b ∈ s.broadcasts, b.1 ≠ t) → (u.tile t).tmFind g = some e)

/-- R199 to R203, R240: a requested page is settled, and where firmware serves it its leaf becomes resident; a page that moves
has its leaf marked, and then named by its new frame, which holds the old one's bytes. -/
def Obligations.PagesServedAndMoved : Prop :=
  ∀ (s : State) (l : BitVec 16) (va : VAddr) (st : Fin 64) (fr : BitVec 17) (lc : BitVec 3) (pa : Nat) (m : PageMove), s.memOk = true →
    ((∃ r ∈ s.pageReqs, r.1 = l.toNat ∧ r.2.1 = va) → s.asking fnPage (pageBody l.toNat va) = false → s.assisted fnPage = false →
      ∃ u, exec (.pageService l va) s = .next u ∧ (∀ r ∈ u.pageReqs, ¬ (r.1 = l.toNat ∧ r.2.1 = va)) ∧
        (s.leafOf l.toNat va.toNat = some pa → Config.choice s.free % 2 = 0 → u.pte pa / 2 ^ 4 % 2 = 1)) ∧
    ((∃ r ∈ s.pageReqs, r.1 = l.toNat ∧ r.2.1 = va) → s.asking fnPage (pageBody l.toNat va) = false → s.assisted fnPage = true →
      ∃ u, exec (.pageService l va) s = .next u ∧ u.asking fnPage (pageBody l.toNat va) = true ∧ u.pageReqs = s.pageReqs ∧
        u.heap = s.heap) ∧
    (∀ p vb sz pb res w x nc k g, s.leafOf l.toNat va.toNat = some pa →
      leafXlate (s.pte pa) (3 - s.pte pa / 4 % 4) va.toNat = .ok p vb sz pb res w x nc k g false →
      ∃ u n, exec (.pageMigration l va st fr lc) s = .next u ∧ u.moves = s.moves ++ [n] ∧ n.leafPa = pa ∧ n.stack = st ∧
        n.frame = fr ∧ n.lc = lc ∧ n.oldBase = pb ∧ u.pte pa / 2 ^ 5 % 2 = 1) ∧
    (s.moves.find? (fun n => n.ready s) = some m →
      ∃ u, exec .pageMigrationCopy s = .next u ∧ (∀ n ∈ u.moves, n ≠ m) ∧
        u.pte m.leafPa / 2 ^ 12 % 2 ^ 6 = m.stack.val ∧ u.pte m.leafPa / 2 ^ 18 % 2 ^ 17 = m.frame.toNat ∧
        u.pte m.leafPa / 2 ^ 9 % 2 ^ 3 = m.lc.toNat ∧ u.pte m.leafPa / 2 ^ 5 % 2 = 0 ∧
        ∀ i, i < m.size → (let b := m.stack.val * 2 ^ 36 + m.frame.toNat * 2 ^ 19 + i
          (b < m.leafPa ∨ m.leafPa + 8 ≤ b) → u.heap.read b = s.heapByte (m.oldBase + i)))

/-! ### The host's queues and records -/

/-- R277, R279, R281, R282, R359, R392: a doorbell raises the tail; the first pending queue takes a free slot and is ready 33 ticks
later; an idle queue leaves its slot, and a blocked one 2^20 ticks after it blocked; EN rises with legal sizes and falls when the queue is empty. -/
def Obligations.QueuesAndSlots : Prop :=
  ∀ (s : State) (q : Fin 256) (k : Fin 32) (tail : Word) (l : List (Fin 256)), let u := s.queue q
    (u.en = true → (tail - u.qtail).toNat ≠ 0 → (tail - u.qtail).toNat < 2 ^ 31 →
      ((tail - u.qhead).toNat ≤ 2 ^ u.lsz.toNat → ∃ t, exec (.doorbell q tail) s = .next t ∧ (t.queue q).qtail = tail ∧
        (u.qst = .idle → q ∉ s.unmapped → (t.queue q).qst = .pending ∧ q ∈ t.pendingQ)) ∧
      (2 ^ u.lsz.toNat < (tail - u.qhead).toNat → ∃ t, exec (.doorbell q tail) s = .next t ∧ t.queue q = u)) ∧
    (s.pendingQ = q :: l → s.slots[k].queue = none → ∃ t, exec (.slotMap k) s = .next t ∧ t.pendingQ = l ∧
      t.slots[k].queue = some q ∧ t.slots[k].ready = s.now + 33 ∧ (t.queue q).qst = .mapped ∧
      (t.queue q).qslot = BitVec.ofNat 16 k.val ∧ ∀ j, j ≠ k → t.slots[j] = s.slots[j]) ∧
    (s.slots[k].queue = some q →
      (∃ t, exec (.idleUnmap k) s = .next t ∧ t.slots[k].queue = none ∧ (t.queue q).qst = .idle ∧ (t.queue q).qslot = 0xFFFF) ∧
      (∀ b, s.slots[k].blockedAt = some b →
        (b + 2 ^ 20 ≤ s.now → ∃ t, exec (.blockedUnmap k) s = .next t ∧ t.slots[k].queue = none ∧ (t.queue q).qst = .blocked) ∧
        (s.now < b + 2 ^ 20 → exec (.blockedUnmap k) s = .next s))) ∧
    (u.en = false → 4 ≤ u.lsz.toNat → u.lsz.toNat ≤ 16 → 4 ≤ u.flsz.toNat → u.flsz.toNat ≤ 16 →
      ∃ t, exec (.queueEnable q) s = .next t ∧ (t.queue q).en = true ∧ (t.queue q).qhead = 0 ∧ (t.queue q).qtail = 0 ∧
        (t.queue q).fcnt = 0 ∧ (t.queue q).qst = .idle ∧ (t.queue q).qbase = u.qbase) ∧
    (u.en = true → u.qhead = u.qtail → ∃ t, exec (.queueDisable q) s = .next t ∧ (t.queue q).en = false ∧ q ∉ t.pendingQ)

/-- R278, R394 to R396, R398, R399: a well-formed record at a slot's head: WAIT and FENCE complete or wait; SIGNAL leaves its advance;
COPYH copies, LOAD writes its sections and keeps the image; each starts the next record. The model's choices: a COPYH's heap write
lands whole as its record starts (log 73), a LOAD of handle 0 ends with status 1 (log 58), and whether the host answers an access is
free, status 6 where it does not (log 8). -/
def Obligations.RecordsRun : Prop :=
  ∀ (s : State) (k : Fin 32) (q : Fin 256) (i : Nat) (r : List Byte), s.memOk = true → s.headRecord k = some (q, i, r) →
    let n (off n : Nat) : Nat := leNat ((r.drop off).take n)
    let ends (o : Out) (status : Nat) : Prop := ∃ t, o = .next t ∧ s.recordDone t q i (n 2 2) (n 0 1) status
    let waits (o : Out) : Prop := ∃ t, o = .next t ∧ s.recordWaits t k q
    let starts (t : State) : Prop := (t.queue q).started = (s.queue q).started + 1 ∧
      ∃ d, t.recs = s.recs ++ [d] ∧ d.queue = q ∧ d.idx = i ∧ d.status = 0
    let reached : Prop := (alGet s.tls (n 8 2) 0 - BitVec.ofNat 64 (n 16 8)).toNat < 2 ^ 63
    (∀ off, badField r = some off → ∀ e, e = .wait k ∨ e = .signal k ∨ e = .copyh k ∨ e = .load k ∨ e = .fenceRecord k ∨ e = .launch k →
      ends (exec e s) 1) ∧
    (badField r = none →
      (n 0 1 = 3 → (reached → ends (exec (.wait k) s) 0) ∧ (¬ reached → waits (exec (.wait k) s))) ∧
      (n 0 1 = 4 → s.fw.gap = false → ∃ t a, exec (.signal k) s = .next t ∧ starts t ∧ t.advances = s.advances ++ [a] ∧
        a.tl.val = n 8 2 % 1024 ∧ a.amount = BitVec.ofNat 64 (n 16 8) ∧ a.src = none) ∧
      (n 0 1 = 6 → ((s.queue q).qhead.toNat = i → ends (exec (.fenceRecord k) s) 0) ∧
        ((s.queue q).qhead.toNat ≠ i → waits (exec (.fenceRecord k) s))) ∧
      (n 0 1 = 5 → s.hold = false →
        (n 24 4 = 0 → ends (exec (.copyh k) s) 0) ∧
        (n 24 4 ≠ 0 → if Config.hostFails s.free = true then ends (exec (.copyh k) s) 6 else ∀ pas,
          (n 1 1 / 2 % 2 = 1 → s.recSpan (descOf r) .read (n 16 8 % 2 ^ 48) (n 24 4) = .ok pas →
            ∃ t, exec (.copyh k) s = .next t ∧ starts t ∧ t.heap = s.heap ∧
              t.hostRead (n 8 8) (n 24 4) = pas.map fun p => if p.2 then s.heapByte p.1 else 0) ∧
          (n 1 1 / 2 % 2 = 0 → s.recSpan (descOf r) .write (n 16 8 % 2 ^ 48) (n 24 4) = .ok pas →
            ∃ t, exec (.copyh k) s = .next t ∧ starts t ∧ t.host = s.host ∧
              t.heap = s.heap.writeAll ((pas.map Prod.fst).zip (s.hostRead (n 8 8) (n 24 4)))) ∧
          (∀ rsn, s.recSpan (descOf r) (if n 1 1 / 2 % 2 = 1 then .read else .write) (n 16 8 % 2 ^ 48) (n 24 4) = .error rsn →
            ends (exec (.copyh k) s) 6))) ∧
      (n 0 1 = 1 → s.hold = false →
        (n 20 2 = 0 → ends (exec (.load k) s) 1) ∧
        (n 20 2 ≠ 0 → (∃ l ∈ s.launches, l.handle = n 20 2) → waits (exec (.load k) s)) ∧
        (n 20 2 ≠ 0 → (∀ l ∈ s.launches, l.handle ≠ n 20 2) → if Config.hostFails s.free = true then ends (exec (.load k) s) 6 else
          let file := s.hostRead (n 8 8) (n 16 4)
          badFile file = none → s.badImage (sectionsOf file) = none → ∀ ws, s.sectionWrites (descOf r) (sectionsOf file) = .ok ws →
            ∃ t img, exec (.load k) s = .next t ∧ starts t ∧ img ∈ t.images ∧ img.handle = n 20 2 ∧
              img.sections = sectionsOf file ∧ t.heap = s.heap.writeAll ws)))

/-- R22 to R24, R101, R280, R397, R398: a LAUNCH without image completes with status 4, one that is refused with the status of its check, and
one that must wait waits; an admissible one stays at the head of its queue, among those that LAUNCH_ADMISSION chooses from, and is
then admitted and charged; on its start tick its tasks on tiles that are there are ready at task tick 0 with their initial
registers; when they have ended it is complete, and its contexts are free. -/
def Obligations.LaunchesRun : Prop :=
  ∀ (s : State) (k : Fin 32) (q : Fin 256) (i : Nat) (r : List Byte) (l : Launch) (img : Image), s.memOk = true →
    (s.headRecord k = some (q, i, r) → badField r = none → leNat (r.take 1) = 2 → s.hold = false → s.parseWaits q i r = false →
      s.parseRefused q i r = false →
      (s.imageOf (leNat ((r.drop 8).take 4)) = none → ∃ t, exec (.launch k) s = .next t ∧
        s.recordDone t q i (leNat ((r.drop 2).take 2)) 2 4) ∧
      (s.launchCheck (launchRec r q k i) = .wait → ∃ t, exec (.launch k) s = .next t ∧ s.recordWaits t k q) ∧
      (∀ st d, s.launchCheck (launchRec r q k i) = .done st d → ∃ t, exec (.launch k) s = .next t ∧
        s.recordDone t q i (leNat ((r.drop 2).take 2)) 2 st) ∧
      (s.launchCheck (launchRec r q k i) = .admitJob img → exec (.launch k) s = .next s ∧ (k, launchRec r q k i) ∈ s.launchHeads)) ∧
    (s.hold = false → s.launchHeads = [(k, l)] → s.launchCheck l = .admitJob img → ∃ t n, exec .launchAdmission s = .next t ∧
      t.launches = s.launches ++ [n] ∧ n.lid = s.nextLid ∧ n.st = .admitted ∧ n.handle = l.handle ∧ n.occ = img.occ ∧
      (l.start < 2 ^ 64 → l.start ≤ n.used % 2 ^ 64) ∧ t.slots[k].u = s.slots[k].u + img.occ ∧ (t.queue l.queue).started = (s.queue l.queue).started + 1) ∧
    (s.launchOf l.lid = some l → s.imageOf l.handle = some img → ((l.rect s.fuses.gx s.fuses.gy).map Prod.fst).Nodup →
      ∃ t, exec (.launchStart l.lid) s = .next t ∧ (∀ n, t.launchOf l.lid = some n → n.st = .running) ∧
        ∀ e ∈ l.rect s.fuses.gx s.fuses.gy, l.sections img e.1 e.2.1 e.2.2 ≠ [] → s.isAbsent e.1 = false → ∀ w, l.tasks.find? (fun y => y.1 == e.1) = some w →
          let c := t.ctx e.1 l.ctx
          c.st = .active ∧ c.pc = w.2 ∧ c.tt = 0 ∧ c.pend = [] ∧ c.loops = [] ∧ c.lid = some l.lid ∧
            c.rank = BitVec.ofNat 32 (l.rank.toNat * 257) ∧ c.hbase = l.desc.hbase ∧ c.hlimit = l.desc.hlimit) ∧
    (s.launchOf l.lid = some l → s.launchDone l = true → s.fw.gap = false → l.nfault = 0 → l.dropped = false →
      ∃ t, exec (.launchRetire l.lid) s = .next t ∧ (∀ n ∈ t.launches, n.lid ≠ l.lid) ∧
        (let a := (s.queue l.queue).cqbase.toNat + 32 * (l.recIdx % 2 ^ (s.queue l.queue).lsz.toNat)
         t.hostRead a 4 = leBytes 2 l.tag.toNat ++ [2, 0]) ∧
        ∀ e ∈ l.tasks, (s.ctx e.1 l.ctx).lid = some l.lid → s.isAbsent e.1 = false → (t.ctx e.1 l.ctx).st = .free)

/-- R278, R279, R365 to R367: due advances are added together, modulo 2^64; a due value reaches its tile; retired launches advance
their timelines; a blocked queue whose condition holds is pending again. -/
def Obligations.TimelinesAdvance : Prop :=
  ∀ (s : State) (t : TileId) (k : Fin 1024) (d : Delivery) (q : Fin 256),
    (∃ u, exec .timelineAdvance s = .next u ∧
      alGet u.tls k.val 0 = alGet s.tls k.val 0 +
        ((s.advances.filter fun a => decide (a.due ≤ s.now) && a.tl == k).map Advance.amount).sum ∧
      ∀ a, a ∈ u.advances ↔ a ∈ s.advances ∧ s.now < a.due) ∧
    ((s.deliveries.filter fun e => e.tile == t && decide (e.due ≤ s.now)) = [d] →
      ∃ u, exec (.timelineDelivery t) s = .next u ∧ alGet (u.tile t).tls d.tl.val 0 = d.val ∧
        (∀ j, j ≠ d.tl.val → alGet (u.tile t).tls j 0 = alGet (s.tile t).tls j 0) ∧
        ∀ e ∈ u.deliveries, e ∈ s.deliveries ∧ (e.tile = t → s.now < e.due)) ∧
    (∃ u, exec .completionTimelineAdvance s = .next u ∧
      alGet u.tls k.val 0 = alGet s.tls k.val 0 +
        BitVec.ofNat 64 ((s.tlAfter.filter fun e => decide (e.2.1 ≤ s.now) && e.1 == k).length)) ∧
    ∃ u, exec .blockedReevaluation s = .next u ∧
      ((s.queue q).qst = .blocked → s.unblocked q = true → (u.queue q).qst = .pending ∧ q ∈ u.pendingQ) ∧
      ((s.queue q).qst = .blocked → s.unblocked q = false → (u.queue q).qst = .blocked)

/-! ### Host accesses, firmware, boot, power -/

/-- R282, R320, R391, R392, R393, R402: an access of BAR2 reaches the bytes of its tile, a read as the previous tick left them, and one that names no tile is an Unsupported
Request or is dropped; register writes; replies to the assist ring, and the requests that no reply came to in time. -/
def Obligations.HostAccesses : Prop :=
  ∀ (s : State) (a len : Nat) (link : Fin 4) (b : Byte) (w : Word) (q : AssistReq),
    let t := mkTile (a / 2 ^ 25 % 512) (a / 2 ^ 16 % 512)
    let x := s.tile t
    let off := a % 2 ^ 16
    let exists_ : Prop := s.inGrid (a / 2 ^ 25 % 512) (a / 2 ^ 16 % 512) = true ∧ s.isAbsent t = false
    (¬ exists_ → 0 < len → (∃ u, exec (.bar2Read a len) s = .next u ∧ u.bar2 = some none ∧ u.tiles = s.tiles) ∧
      ∃ u, exec (.bar2Write a [b]) s = .next u ∧ u.tiles = s.tiles) ∧
    (exists_ → s.memOk = true → s.hold = false → s.hostHeld = [] → s.bar2Got = [] → x.mig = none → x.lock = none → x.upsets = [] →
      x.publishing = [] → x.portBusy = false → s.copyPresses x = false → (∀ k : Fin 32, x.bufs[k].v = false ∨ (x.bufs[k].rd = 0 ∧ x.bufs[k].wr ≠ 15)) →
      (∃ u, exec (.bar2Read a 1) s = .next u ∧ u.bar2 = some (some [x.spmPrev.read (x.combByte off)]) ∧ (u.tile t).spm = x.spm) ∧
      ∃ u, exec (.bar2Write a [b]) s = .next u ∧
        (∀ k d, x.combTarget off = some (k, d) → x.bufs[k].shadow + d < 65536 →
          (u.tile t).spm.read (x.bufs[k].shadow + d) = b ∧ (u.tile t).bufs[k].sd = true) ∧
        (x.combTarget off = none → (u.tile t).spm = x.spm)) ∧
    (∃ u, exec (.registerWrite link 0x160 (leBytes 4 w.toNat)) s = .next u ∧ u.ctl.wafid = w &&& 0xFFFF ∧ u.tiles = s.tiles) ∧
    (∃ u, exec (.registerWrite link 0x10020 (leBytes 4 w.toNat)) s = .next u ∧
      let q : Fin 256 := Fin.ofNat 256 (64 * link.val)
      let late : Prop := ∃ k e, s.slotOf q = some k ∧ s.slots[k].emptyAt = some e ∧ e + 4096 ≤ s.now
      (¬ late → u.agenda = .ev (.doorbell q w) :: s.agenda) ∧ (late → u.agenda = s.agenda ++ [.ev (.doorbell q w)])) ∧
    (s.assists.find? (fun r => r.num == w && r.posted && r.answer.isNone) = some q →
      (q.fn = 4 → ∃ u, exec (.assistReply w) s = .next u ∧ ∀ r ∈ u.assists, r.num = q.num → r.answer = some s.ctl.rpldata) ∧
      (q.fn = 2 → s.fw.gap = true → ∃ u, exec (.assistReply w) s = .next u ∧ u.agenda = s.agenda ∧
        ∀ r ∈ u.assists, r.num = q.num → r.answer = some s.ctl.rpldata) ∧
      (∀ sw, q.fn = 2 → q.body = swarmBody sw → s.fw.gap = false → s.ctl.rpldata.headD 0 = 1 → ∃ u, exec (.assistReply w) s = .next u ∧
        u.agenda.head? = some (.ev (.waggleRound sw)) ∧
        ∀ r ∈ u.assists, ¬ (r.fn = 2 ∧ r.body = q.body))) ∧
    (s.assists = [q] → q.fn = 2 → q.answer = none →
      (q.posted = true → q.tick + 2 ^ 24 ≤ s.now → ∃ u, exec .assistTimeout s = .next u ∧ u.assists = []) ∧
      (q.posted = false ∨ s.now < q.tick + 2 ^ 24 → ∃ u, exec .assistTimeout s = .next u ∧ u.assists = [q]))

/-- R403, R405 to R408: staging writes fill the window of the inactive bank, of either kind (that both kinds' inactive banks take
them, and that no version rises in the gap of a queen update, is log 7), and leave the active ones; the image of the inactive bank,
when it is refused, changes nothing but the status;
an accepted one runs under the watchdog, a queen image with the handover record before it; its heartbeat ends the update, and the watchdog's expiry brings the old bank back;
security versions only rise. -/
def Obligations.FirmwareReplaced : Prop :=
  ∀ (s : State) (off : Nat) (data : List Byte) (nurse : Bool), let f := s.fw
    let k := bankIdx nurse (!f.active nurse)
    (∃ t, exec (.stagingWrite off data) s = .next t ∧
      ((f.image k).wf = true →
        (t.fw.image k).readN (f.updoff.toNat + off) data.length = data ∧
        ∀ a, (a < f.updoff.toNat + off ∨ f.updoff.toNat + off + data.length ≤ a) → (t.fw.image k).read a = (f.image k).read a) ∧
      t.fw.banks[bankIdx nurse (f.active nurse)] = f.banks[bankIdx nurse (f.active nurse)] ∧
      { t with fw := { t.fw with banks := f.banks } } = s) ∧
    (f.updating = false → ∃ t, exec (.firmwareSwitch nurse) s = .next t ∧
      match f.refuses nurse (f.image k) with
      | some r => t = { s with fw := { f with updstat := BitVec.ofNat 32 (3 + 256 * r) } }
      | none => t.fw.updating = true ∧ t.fw.banks = f.banks ∧ t.fw.handover = f.handover + 1 ∧
        t.fw.watchdog = some (s.ref + 62500000, if nurse then some 0 else none) ∧
        t.fw.queenBank = (if nurse then f.queenBank else !f.queenBank) ∧ t.fw.nurseBank = f.nurseBank ∧
        (nurse = false → t.fw.record.take 8 = leBytes 4 0x48444F31 ++ leBytes 4 (f.handover + 1).toNat) ∧
        (nurse = true → t.fw.record = f.record)) ∧
    (nurse = true ∨ f.gap = false → ∃ t, exec (.securityVersionRaise nurse) s = .next t ∧ let k : Fin 2 := if nurse then 1 else 0
      t.fw.minver[k].toNat = max f.minver[k].toNat (imgField (f.image (bankIdx nurse (f.active nurse))) 12 4 % 2 ^ 32) ∧
      ∀ j, j ≠ k → t.fw.minver[j] = f.minver[j]) ∧
    (nurse = false → f.gap = true → exec (.securityVersionRaise nurse) s = .next s) ∧
    (∃ t, exec .handoverHeartbeat s = .next t ∧ t.fw.hbeat = f.handover ∧
      (∀ n, f.watchdog = some (n, none) → t.fw.updating = false ∧ t.fw.watchdog = none ∧ t.fw.inq = []) ∧
      (∀ n k, f.watchdog = some (n, some k) → k.val < 5 → t.fw.watchdog = some (s.ref + 62500000, some (k + 1))) ∧
      ∀ n k, f.watchdog = some (n, some k) → k.val = 5 → t.fw.updating = false ∧ t.fw.nurseBank = !f.nurseBank) ∧
    ∀ n w, f.watchdog = some (n, w) →
      (s.ref < n → exec .watchdogExpiry s = .next s) ∧
      (n ≤ s.ref → ∃ t, exec .watchdogExpiry s = .next t ∧ t.fw.updating = false ∧ t.fw.rolledBack = true ∧ t.fw.watchdog = none ∧
        t.fw.queenBank = (if w = none then !f.queenBank else f.queenBank) ∧ t.fw.nurseBank = f.nurseBank)

/-- R2, R26, R318, R402, R404, R409, R410: the part boots once its firmware is verified and its fields are repairable; otherwise it
stays down with what failed for the sideband (log 18); a part reset keeps fuses and memories (log 9); the throttle takes k from 16 to
64, lower above 15 kW, 16 from 105 °C (log 49); a thermal hold begins and ends. -/
def Obligations.BootResetAndPower : Prop :=
  ∀ (s : State),
    (s.stage = .power → ∃ t, exec .boot s = .next t ∧
      (s.verifyBoot.2 = false → t = { s with stage := .failed, failure := some .image, fw := s.verifyBoot.1 }) ∧
      (s.verifyBoot.2 = true →
        let fuses : Fuses := { s.fuses with dead := s.fuses.dead ++ Config.bistDead }
        (fuses.beyondRepair = none → t.stage = .released ∧ t.now = 0 ∧ t.tmVer = 1 ∧ t.fw = s.verifyBoot.1) ∧
        ∀ e, fuses.beyondRepair = some e → t.stage = .failed ∧ t.failure = some (.field e.1 e.2) ∧ t.fw = s.verifyBoot.1)) ∧
    (∃ t, exec .partReset s = .next t ∧ t.stage = .power ∧ t.agenda = [.ev .boot] ∧ t.fuses = s.fuses ∧ t.heap = s.heap ∧
      t.host = s.host ∧ t.tiles = [] ∧ t.ports = State.reset.ports ∧ t.tls = [] ∧ t.fw.banks = s.fw.banks) ∧
    (16 ≤ s.thr → s.thr ≤ 64 → ∃ t, exec .throttleEvaluation s = .next t ∧ 16 ≤ t.thr ∧ t.thr ≤ 64 ∧
      ((∃ x ∈ s.tsensf, 105 ≤ x) → t.thr = 16) ∧ (15000 < s.power → t.thr < s.thr ∨ t.thr = 16) ∧
      ((∀ x ∈ s.tsensf, x < 105) → s.power ≤ 15000 → s.thr ≤ t.thr) ∧ t.tiles = s.tiles) ∧
    (s.hold = false → ∃ t, exec .thermalHold s = .next t ∧ t.hold = true ∧ t.tiles = s.tiles) ∧
    (s.hold = true → (∀ x ∈ s.tsensf, x < 100) → ∃ t, exec .thermalRelease s = .next t ∧ t.hold = false ∧ t.thr = 16) ∧
    ((∃ x ∈ s.tsensf, 100 ≤ x) → exec .thermalRelease s = .next s)

/-! ### The machine as a whole -/

/-- R33 to R40, R53, R62 to R73: the decoder of its slot reads every well-formed instruction back from its word, with every operand. -/
def Obligations.RoundTrip : Prop :=
  ∀ i : Instr, i.wellFormed = true → decodeHome i.home (encode i) = some i

/-- Worked words of the manual: R32, R62 to R73, and the examples after R132, R147, R175, R268 and R298. -/
def Obligations.WordsDecode : Prop :=
  decodeCtl 0x0653FFFC = some (.brs 5 .nez (-4)) ∧
  decodeCtl 0x224A0007 = some (.waitbTag 4 .full 7) ∧
  decodeCtl 0x7E000000 = none ∧
  decodeScalar false 0x002318C0 = some (.add 3 3 3) ∧
  decodeScalar false 0x00A40888 = some (.plog 8 4 1 2) ∧
  decodeScalar false 0x04000000 = none ∧
  decodeScalar true 0x04622140 = some (.acmb 2 4 5) ∧
  decodeLd 0x01043240 = some (.ldvx 4 6 9 0) ∧
  decodeSt 0x00A21901 = some (.stvm 2 3 4 1) ∧
  decodeVec 0x002F12B3 = some (.vfma 7 8 9 2 .bf16p) ∧
  decodeVec 0x002000D7 = none ∧
  decodeMxu 0x00990F40 = some (.mma 200 3 1 .dacc 1 false) ∧
  decodeMxu 0x00800180 = none ∧
  decodeXfr 0x01E0E201 = some (.sig 7 1 1) ∧
  decodeScout 0x0C48FFFF = some (.saddi 1 2 0x0FFFF) ∧
  decodeScout 0x04000001 = none

/-- No instruction and no step ends in a refusal or a fault: the spec stops none of them for good. -/
def Obligations.EverythingCompletes : Prop :=
  (∀ (i : Instr) (s : State), Completes (exec i s)) ∧ ∀ s : State, Completes (step s)

/-- Every step keeps every memory in its canonical form. -/
def Obligations.MemoriesStayCanonical : Prop :=
  ∀ s t : State, s.memOk = true → step s = .next t → t.memOk = true

/-- R101, R316, R348, R365, R392, R404: what holds right after reset: canonical memories, no task, timelines, queues and swarm
entries zero, port semaphores zero, and the boot sequence next. -/
def Obligations.ResetState : Prop :=
  State.reset.memOk = true ∧ State.reset.stage = .power ∧ State.reset.agenda = [.ev .boot] ∧ State.reset.tmVer = 0 ∧
  (∀ k, alGet State.reset.tls k 0 = 0) ∧ (∀ q, (State.reset.queue q).en = false ∧ (State.reset.queue q).qhead = 0) ∧
  (∀ sw, State.reset.swarm sw = none) ∧ (∀ p (k : Fin 64), (State.reset.port p).psem[k] = 0) ∧
  (∀ t c, (State.reset.ctx t c).st = .free ∧ (State.reset.ctx t c).pend = []) ∧ ∀ t a, (State.reset.tile t).spm.read a = 0

/-- R350, R378 and the model's own order (log 10): a step runs the event that is next, else takes the next stimulus, else makes the next
move: an event is its meaning; a scout that runs and whose word at its pc decodes is the meaning of that instruction, and of the illegal encoding where the word
is none; a tile issues; and with nothing left the next tick begins. -/
def Obligations.StepRunsInstruction : Prop :=
  ∀ (s : State) (l : List Move) (i : Instr) (p : Fin 16) (t : TileId),
    let rest : State := { s with agenda := l }
    (s.agenda = .ev i :: l → step s = exec i rest) ∧
    (∀ x r, s.inputs = x :: r → (∀ j k, s.agenda ≠ .ev j :: k) → step s = runStimulus x { s with inputs := r }) ∧
    (s.inputs = [] → s.agenda = .scout p :: l →
      let u := State.portTick { rest with curPort := p } p
      (u.sc.halted = none →
        (decodeScoutBytes (u.sc.read (4 * u.sc.pc) 4) = some i → step s = exec i u.scoutWord.2) ∧
        (decodeScoutBytes (u.sc.read (4 * u.sc.pc) 4) = none → step s = exec (.scoutIllegalEncoding u.curPort) u.scoutWord.2)) ∧
      (u.sc.halted.isSome = true → step s = .next u)) ∧
    (s.inputs = [] → s.agenda = .issue t :: l → step s = issueTile t rest) ∧
    (s.inputs = [] → s.agenda = [] → s.stage ≠ .failed → step s = .next s.beginTick) ∧
    (s.inputs = [] → s.agenda = [] → s.stage = .failed → ∃ u, step s = .next u ∧ u.ref = s.ref + 1 ∧ u.now = s.now ∧ u.tiles = s.tiles)

/-- R3, R19, R30, R31, R159, R176, R378, R384: on a tile where no restore is written, the context that holds the issue width attempts its bundle; the bundle at its pc, once
fetched, legal, without a fault, wait or bank hold, issues: slots 1 to 7 act in order, the task tick and the pc move on, and the
control instruction acts last. -/
def Obligations.BundlesIssue : Prop :=
  ∀ (s : State) (t : TileId) (c : Fin 4) (ws : List Nat) (i0 : Instr) (is : Fin 7 → Instr),
    (∀ go, s.restoring t = none → ((s.noteReady t).tile t).arb = .run c go → go ≤ s.now → ((s.noteReady t).ctx t c).st = .active →
      ∃ k, issueTile t s = andThen (attempt t c (s.noteReady t)) k ∧
        ∀ u, k u = .next u ∨ k u = .next (u.modTile t fun x => x.event 3 1)) ∧
    (let x := s.ctx t c
     ∀ bs pas, x.pend = [] → x.liveDue = none → x.xfer = none → x.oldestFault = none → s.fetch (s.tile t) c x.pc = .ok bs pas →
      ws = (List.range 8).map (slotWord bs) → safeBit (ws.getD 0 0) = false → illegalCause ws = none →
      ∃ u, attempt t c s = attemptBundle ws t c u ∧ { u.ctx t c with held := x.held } = x ∧ u.cur.tile = t ∧ u.cur.ctx = c ∧
        u.cur.pc = x.pc ∧ u.cur.tt = x.tt ∧ u.cur.delay = 0 ∧ u.cur.safe = false ∧ (u.tile t).spm = (s.tile t).spm) ∧
    (decodeCtl (ws.getD 0 0) = some i0 → isWait i0 = false →
      (s.issueCause ws = none → s.issueWalk ws = none → s.bundleLoad ws ≤ 1 → (s.tile t).hold = none →
        attemptBundle ws t c s = andThen (issueBundle ws i0 s) fun u => .next ((u.endWalks t c).afterAttempt t c true)) ∧
      ((∀ k : Fin 7, decodeSlot (k.val + 1) (ws.getD (k.val + 1) 0) = some (is k) ∧ slotGuard (ws.getD (k.val + 1) 0) = 0) →
        captures (is 6) = none →
        issueBundle ws i0 s =
          andThen ((List.finRange 7).foldl (fun o k => andThen o fun u =>
              exec (is k) (if k.val < 5 then u.atSlot (k.val + 1) .yes else
                { u with cur := { u.cur with slot := k.val + 1, guard := .yes, follow := none } }))
            (.next (s.modCurTile fun x => { x with hold := none }))) fun u =>
          andThen (exec i0 (u.advance.atSlot 0 .yes)) fun u =>
          let v := u.checkRun i0
          .next (if endsHere i0 = true then v else
            match v.cur.landed with
            | some src => v.checkLanding src
            | none => if (s.modCurTile fun x => { x with hold := none }).loopsBack v = true then v.checkLoop v.cur.pc else v)))
end

