-- ==== Sys2Proof/Laws/Num.lean ====
section
/-! SUPPORT. Floating-point lemmas: what the arithmetic of Machine/Num.lean gives, in exact rational numbers: rounding once
(R90), the special values of R89 and R92, conversions (R93), comparisons (R139) and reductions (R142). -/

namespace Sys2Proof.Machine

/-! ### Rounding -/

theorem shiftRat_val (num den : Nat) (k : Int) (hd : 0 < den) :
    0 < (shiftRat num den k).2 ∧ ((shiftRat num den k).1 : ℚ) / (shiftRat num den k).2 = (num : ℚ) / den * 2 ^ k := by
  have hdq : (den : ℚ) ≠ 0 := by positivity
  unfold shiftRat
  split
  · rename_i h
    refine ⟨hd, ?_⟩
    obtain ⟨n, rfl⟩ := Int.eq_ofNat_of_zero_le h
    push_cast; simp; ring
  · rename_i h
    obtain ⟨n, hn⟩ := Int.eq_ofNat_of_zero_le (show 0 ≤ -k by omega)
    have : k = -(n : ℤ) := by omega
    subst this
    refine ⟨by simp; exact hd, ?_⟩
    simp [zpow_neg]
    field_simp

theorem log2_bounds (n : Nat) (h : 0 < n) : 2 ^ n.log2 ≤ n ∧ n < 2 ^ (n.log2 + 1) := ⟨Nat.log2_self_le (by omega), Nat.lt_log2_self⟩

theorem log2Rat_spec (num den : Nat) (hn : 0 < num) (hd : 0 < den) :
    (2 : ℚ) ^ log2Rat num den ≤ num / den ∧ (num : ℚ) / den < 2 ^ (log2Rat num den + 1) := by
  have hdq : (0 : ℚ) < den := by positivity
  have hnq : (0 : ℚ) < num := by positivity
  set k : Int := (Nat.log2 num : Int) - Nat.log2 den with hk
  have h1 := log2_bounds num hn
  have h2 := log2_bounds den hd
  have lo : (2 : ℚ) ^ (k - 1) < num / den := by
    rw [lt_div_iff₀ hdq]
    have a : (den : ℚ) < 2 ^ (den.log2 + 1) := by exact_mod_cast h2.2
    have b : (2 : ℚ) ^ num.log2 ≤ num := by exact_mod_cast h1.1
    calc (2 : ℚ) ^ (k - 1) * den < 2 ^ (k - 1) * 2 ^ (den.log2 + 1) := by gcongr
      _ = 2 ^ num.log2 := by
        rw [← zpow_natCast, ← zpow_natCast, ← zpow_add₀ (by norm_num)]; congr 1; push_cast; omega
      _ ≤ num := b
  have hi : (num : ℚ) / den < 2 ^ (k + 1) := by
    rw [div_lt_iff₀ hdq]
    have a : (num : ℚ) < 2 ^ (num.log2 + 1) := by exact_mod_cast h1.2
    have b : (2 : ℚ) ^ den.log2 ≤ den := by exact_mod_cast h2.1
    calc (num : ℚ) < 2 ^ (num.log2 + 1) := a
      _ = 2 ^ (k + 1) * 2 ^ den.log2 := by
        rw [← zpow_natCast, ← zpow_natCast, ← zpow_add₀ (by norm_num)]; congr 1; push_cast; omega
      _ ≤ 2 ^ (k + 1) * den := by gcongr
  have hs := shiftRat_val num den (-k) hd
  unfold log2Rat
  simp only [← hk]
  have hv : ((shiftRat num den (-k)).2 ≤ (shiftRat num den (-k)).1) ↔ (2 : ℚ) ^ k ≤ num / den := by
    rw [← Nat.cast_le (α := ℚ), ← one_le_div₀ (by exact_mod_cast hs.1), hs.2, zpow_neg, ← div_eq_mul_inv, one_le_div₀ (by positivity)]
  split
  · rename_i h; exact ⟨hv.1 h, hi⟩
  · rename_i h
    refine ⟨lo.le, ?_⟩
    have := mt hv.2 h
    rw [sub_add_cancel]
    exact not_le.1 this

theorem FFmt.mag_eq (f : FFmt) (k q : Nat) (h : q ≤ 2 ^ (f.fb + 1)) (h2 : k = 0 ∨ 2 ^ f.fb ≤ q) :
    f.mag (k * 2 ^ f.fb + q) = q * 2 ^ ((k : ℤ) + 1 - f.bias - f.fb) := by
  have hp : 0 < 2 ^ f.fb := by positivity
  have hz (a : ℤ) : (2 : ℚ) ^ (a + 1) = 2 * 2 ^ a := by rw [zpow_add_one₀ (by norm_num)]; ring
  rw [pow_succ] at h
  unfold FFmt.mag
  rcases Nat.lt_or_ge q (2 ^ f.fb) with hq | hq
  · have hk : k = 0 := by rcases h2 with h | h <;> omega
    subst hk
    simp only [zero_mul, zero_add, Nat.div_eq_of_lt hq, if_true]
    congr 2
  · rcases Nat.lt_or_ge q (2 * 2 ^ f.fb) with hq2 | hq2
    · have e1 : (k * 2 ^ f.fb + q) / 2 ^ f.fb = k + 1 := by
        refine Nat.div_eq_of_lt_le ?_ ?_ <;> nlinarith
      have e2 : (k * 2 ^ f.fb + q) % 2 ^ f.fb = q - 2 ^ f.fb := by
        have := Nat.div_add_mod (k * 2 ^ f.fb + q) (2 ^ f.fb)
        rw [e1] at this
        have e : 2 ^ f.fb * (k + 1) = k * 2 ^ f.fb + 2 ^ f.fb := by ring
        omega
      rw [e1, e2, if_neg (by omega)]
      congr 2
      · exact_mod_cast (show 2 ^ f.fb + (q - 2 ^ f.fb) = q by omega)
    · have hq3 : q = 2 * 2 ^ f.fb := by omega
      have e0 : k * 2 ^ f.fb + q = (k + 2) * 2 ^ f.fb := by rw [hq3]; ring
      rw [e0, Nat.mul_div_cancel _ hp, Nat.mul_mod_left, if_neg (by omega), hq3]
      have : (((k + 2 : ℕ) : ℤ) - f.bias - f.fb) = ((k : ℤ) + 1 - f.bias - f.fb) + 1 := by push_cast; ring
      rw [this, hz]; push_cast; ring

theorem roundsUp_iff (rm : RMode) (neg : Bool) (m q r d : Nat) (lo v hi w : ℚ) (hd : 0 < d) (hw : 0 < w)
    (hm : m % 2 = q % 2) (hlo : lo = q * w) (hhi : hi = (q + 1) * w) (hv : v = (q + r / d) * w) :
    roundsUp rm neg q r d = true ↔ roundsAway rm (neg = true) m lo v hi := by
  have hdq : (0 : ℚ) < d := by exact_mod_cast hd
  have key1 : lo + hi < 2 * v ↔ d < 2 * r := by
    rw [hlo, hhi, hv, ← Nat.cast_lt (α := ℚ)]
    rw [show (q : ℚ) * w + (q + 1) * w = (2 * q + 1) * w by ring, show 2 * ((q + (r : ℚ) / d) * w) = (2 * q + 2 * (r / d)) * w by ring,
      mul_lt_mul_iff_left₀ hw, add_lt_add_iff_left, ← mul_div_assoc, one_lt_div hdq]
    push_cast; rfl
  have key2 : lo + hi = 2 * v ↔ 2 * r = d := by
    rw [hlo, hhi, hv, ← Nat.cast_inj (R := ℚ)]
    rw [show (q : ℚ) * w + (q + 1) * w = (2 * q + 1) * w by ring, show 2 * ((q + (r : ℚ) / d) * w) = (2 * q + 2 * (r / d)) * w by ring,
      mul_left_inj' hw.ne', add_right_inj, ← mul_div_assoc, eq_div_iff hdq.ne', one_mul]
    push_cast; constructor <;> intro h <;> linarith
  have key3 : lo < v ↔ r ≠ 0 := by
    rw [hlo, hv, mul_lt_mul_iff_left₀ hw, lt_add_iff_pos_right, div_pos_iff_of_pos_right hdq]
    exact_mod_cast Nat.pos_iff_ne_zero
  cases rm <;> simp [roundsUp, roundsAway, key1, key2, key3, hm]

theorem FFmt.roundRat_rounds (f : FFmt) (rm : RMode) (neg : Bool) (num den : Nat) (e : Int) (hn : 0 < num) (hd : 0 < den)
    (hfb : 1 ≤ f.fb) (v : ℚ) (hv : |v| = (num : ℚ) / den * 2 ^ e) (hneg : neg = decide (v < 0)) :
    f.rounds rm v (f.roundRat rm neg num den e) := by
  obtain ⟨l1, l2⟩ := log2Rat_spec num den hn hd
  have h2 (a : ℤ) : (0 : ℚ) < 2 ^ a := by positivity
  set l : ℤ := log2Rat num den + e with hl
  have hlo : (2 : ℚ) ^ l ≤ |v| := by rw [hv, hl, zpow_add₀ (by norm_num)]; gcongr
  have hhi : |v| < 2 ^ (l + 1) := by
    rw [hv, hl, show log2Rat num den + e + 1 = (log2Rat num den + 1) + e by ring, zpow_add₀ (by norm_num)]; gcongr
  set emin : ℤ := 1 - (f.bias : ℤ) with hemin
  set ex : ℤ := if l < emin then emin else l with hex
  have hexl : l ≤ ex ∧ emin ≤ ex := by rw [hex]; split <;> omega
  set qe : ℤ := ex - f.fb with hqe
  obtain ⟨hd1, hs⟩ := shiftRat_val num den (e - qe) hd
  set n := (shiftRat num den (e - qe)).1 with hn1
  set d := (shiftRat num den (e - qe)).2 with hd1'
  have hdq : (0 : ℚ) < d := by exact_mod_cast hd1
  have hnd : |v| = (n : ℚ) / d * 2 ^ qe := by
    rw [hs, hv, mul_assoc, ← zpow_add₀ (by norm_num)]; congr 2; ring
  set q := n / d with hq
  set r := n % d with hr
  have hqr : (n : ℚ) = d * q + r := by exact_mod_cast (Nat.div_add_mod n d).symm
  have hvq : |v| = (q + r / d) * 2 ^ qe := by
    rw [hnd, hqr]; congr 1; field_simp
  have hrd : r < d := Nat.mod_lt _ hd1
  have hrq : 0 ≤ (r : ℚ) / d ∧ (r : ℚ) / d < 1 := by
    refine ⟨by positivity, ?_⟩
    rw [div_lt_one hdq]; exact_mod_cast hrd
  -- range of q
  have hqlt : q < 2 ^ (f.fb + 1) := by
    have : (q : ℚ) * 2 ^ qe < 2 ^ (f.fb + 1 : ℕ) * 2 ^ qe := by
      calc (q : ℚ) * 2 ^ qe ≤ |v| := by rw [hvq]; gcongr; linarith [hrq.1]
        _ < 2 ^ (l + 1) := hhi
        _ ≤ 2 ^ (ex + 1) := by gcongr; norm_num; omega
        _ = 2 ^ (f.fb + 1 : ℕ) * 2 ^ qe := by
          rw [← zpow_natCast, ← zpow_add₀ (by norm_num)]; congr 1; push_cast; omega
    have := lt_of_mul_lt_mul_right this (h2 qe).le
    exact_mod_cast this
  have hqge : emin ≤ l → 2 ^ f.fb ≤ q := by
    intro hle
    have hexeq : ex = l := by rw [hex, if_neg (by omega)]
    by_contra hc
    have hc' : q + 1 ≤ 2 ^ f.fb := by omega
    have : |v| < 2 ^ l := by
      calc |v| = (q + r / d) * 2 ^ qe := hvq
        _ < (q + 1) * 2 ^ qe := by gcongr; linarith [hrq.2]
        _ ≤ 2 ^ f.fb * 2 ^ qe := by gcongr; exact_mod_cast hc'
        _ = 2 ^ l := by rw [← zpow_natCast, ← zpow_add₀ (by norm_num)]; congr 1; omega
    linarith
  have hqlt' : l < emin → q < 2 ^ f.fb := by
    intro hle
    have hexeq : ex = emin := by rw [hex, if_pos hle]
    have : (q : ℚ) * 2 ^ qe < 2 ^ (f.fb : ℕ) * 2 ^ qe := by
      calc (q : ℚ) * 2 ^ qe ≤ |v| := by rw [hvq]; gcongr; linarith [hrq.1]
        _ < 2 ^ (l + 1) := hhi
        _ ≤ 2 ^ ex := by gcongr; norm_num; omega
        _ = 2 ^ (f.fb : ℕ) * 2 ^ qe := by
          rw [← zpow_natCast, ← zpow_add₀ (by norm_num)]; congr 1; omega
    have := lt_of_mul_lt_mul_right this (h2 qe).le
    exact_mod_cast this
  set k := (ex - emin).toNat with hk
  have hkz : (k : ℤ) = ex - emin := by omega
  have hk0 : k = 0 ∨ 2 ^ f.fb ≤ q := by
    rcases lt_or_ge l emin with h | h
    · left; have : ex = emin := by rw [hex, if_pos h]
      omega
    · right; exact hqge h
  set M := k * 2 ^ f.fb + q with hM
  have hpow : ((k : ℤ) + 1 - f.bias - f.fb) = qe := by omega
  have mM : f.mag M = q * 2 ^ qe := by rw [hM, f.mag_eq k q hqlt.le hk0, hpow]
  have mM1 : f.mag (M + 1) = (q + 1) * 2 ^ qe := by
    rw [hM, add_assoc, f.mag_eq k (q + 1) hqlt (by omega), hpow]; push_cast; ring
  have hpar : M % 2 = q % 2 := by
    obtain ⟨b, hb⟩ : ∃ b, f.fb = b + 1 := ⟨f.fb - 1, by omega⟩
    rw [hM, hb, pow_succ, ← mul_assoc, mul_comm, Nat.add_comm, Nat.add_mul_mod_self_left]
  have hup := roundsUp_iff rm neg M q r d (f.mag M) |v| (f.mag (M + 1)) (2 ^ qe) hd1 (h2 qe) hpar mM mM1 hvq
  have hnegp : (neg = true) = (v < 0) := by rw [hneg]; simp
  rw [hnegp] at hup
  have hinexact : (r != 0) = decide (f.mag M ≠ |v|) := by
    rw [mM, hvq]
    have : ((q : ℚ) * 2 ^ qe = (q + r / d) * 2 ^ qe) ↔ r = 0 := by
      rw [mul_left_inj' (h2 qe).ne', left_eq_add, div_eq_zero_iff]
      simp [hdq.ne']
    by_cases h0 : r = 0 <;> simp [h0, this]
  refine ⟨M, k * 2 ^ f.fb + (if roundsUp rm neg q r d = true then q + 1 else q), ?_, ?_, ?_, ?_⟩
  · rw [mM, hvq]; gcongr; linarith [hrq.1]
  · rw [mM1, hvq]; gcongr; linarith [hrq.2]
  · by_cases h : roundsUp rm neg q r d = true
    · left; exact ⟨hup.1 h, by rw [if_pos h, hM]; ring⟩
    · right; exact ⟨fun h' => h (hup.2 h'), by rw [if_neg h]⟩
  · unfold FFmt.roundRat
    simp only [← hl, ← hemin, ← hex, ← hqe, ← hn1, ← hd1', ← hq, ← hr, ← hk, ← hneg]
    set C := k * 2 ^ f.fb + (if roundsUp rm neg q r d = true then q + 1 else q) with hC
    by_cases ho : C ≥ (2 ^ f.eb - 1) * 2 ^ f.fb
    · rw [if_pos ho, if_neg (by omega)]; exact ⟨rfl, rfl⟩
    · rw [if_neg ho, if_pos (by omega)]
      refine ⟨rfl, rfl, rfl, rfl, hinexact, ?_, ?_, ?_⟩
      · intro hlt
        by_cases hr0 : r = 0
        · simp [hr0]
        have hle : l < emin := by
          by_contra h
          have := hqge (by omega)
          split at hC <;> omega
        have hk00 : k = 0 := by have : ex = emin := by rw [hex, if_pos hle]
                                omega
        have hqx := hqlt' hle
        suffices hne : ¬ (l = emin - 1 ∧ (if roundsUp rm neg ((shiftRat num den (e - (l - f.fb))).1 / (shiftRat num den (e - (l - f.fb))).2)
            ((shiftRat num den (e - (l - f.fb))).1 % (shiftRat num den (e - (l - f.fb))).2) (shiftRat num den (e - (l - f.fb))).2 = true
            then (shiftRat num den (e - (l - f.fb))).1 / (shiftRat num den (e - (l - f.fb))).2 + 1
            else (shiftRat num den (e - (l - f.fb))).1 / (shiftRat num den (e - (l - f.fb))).2) = 2 ^ (f.fb + 1)) by
          simp only [hle, decide_true, Bool.true_and]
          simp [hr0]
          exact not_and_or.1 hne
        rintro ⟨hl1, hq2⟩
        obtain ⟨hd2, hs2⟩ := shiftRat_val num den (e - (l - f.fb)) hd
        set n2 := (shiftRat num den (e - (l - f.fb))).1
        set d2 := (shiftRat num den (e - (l - f.fb))).2
        have hexe : ex = emin := by rw [hex, if_pos hle]
        have hd2q : (0 : ℚ) < d2 := by exact_mod_cast hd2
        have hx : (n2 : ℚ) / d2 = 2 * (q + r / d) := by
          have : |v| = (n2 : ℚ) / d2 * 2 ^ (l - f.fb) := by
            rw [hs2, hv, mul_assoc, ← zpow_add₀ (by norm_num)]; congr 2; ring
          have e1 : (2 : ℚ) ^ qe = 2 * 2 ^ (l - f.fb) := by
            rw [show qe = (l - f.fb) + 1 by omega, zpow_add_one₀ (by norm_num)]; ring
          rw [hvq, e1] at this
          have h3 := (h2 (l - f.fb)).ne'
          field_simp at this ⊢
          linarith
        have hb : n2 % d2 < d2 := Nat.mod_lt _ hd2
        have hn2 : (n2 : ℚ) = d2 * (n2 / d2 : ℕ) + (n2 % d2 : ℕ) := by exact_mod_cast (Nat.div_add_mod n2 d2).symm
        set a := n2 / d2
        set b := n2 % d2
        have hab : (a : ℚ) + b / d2 = 2 * q + 2 * (r / d) := by
          have : (n2 : ℚ) / d2 = a + b / d2 := by rw [hn2]; field_simp
          rw [← this, hx]; ring
        have hbq : 0 ≤ (b : ℚ) / d2 ∧ (b : ℚ) / d2 < 1 := by
          refine ⟨by positivity, ?_⟩
          rw [div_lt_one hd2q]; exact_mod_cast hb
        have hpw : (2 : ℕ) ^ (f.fb + 1) = 2 * 2 ^ f.fb := by rw [pow_succ]; ring
        have ha1 : a ≤ 2 * q + 1 := by
          have : (a : ℚ) < 2 * q + 2 := by linarith [hbq.1, hrq.2]
          have : a < 2 * q + 2 := by exact_mod_cast this
          omega
        split at hq2
        · rename_i hu
          have hae : a = 2 * 2 ^ f.fb - 1 := by omega
          have hqe1 : q = 2 ^ f.fb - 1 := by omega
          have ha2 : a = 2 * q + 1 := by omega
          have hfr : (b : ℚ) / d2 = 2 * (r / d) - 1 := by
            have : (a : ℚ) = 2 * q + 1 := by exact_mod_cast ha2
            linarith
          have hno : ¬ roundsUp rm neg q r d = true := by
            intro h
            rw [if_pos h] at hC
            have : 0 < 2 ^ f.fb := by positivity
            omega
          apply hno
          cases rm
          · simp only [roundsUp, Bool.or_eq_true, Bool.and_eq_true, decide_eq_true_eq] at hu ⊢
            left
            have : (1 : ℚ) / 2 ≤ b / d2 := by
              rw [le_div_iff₀ hd2q]
              have : d2 ≤ 2 * b := by rcases hu with h | h <;> omega
              have : (d2 : ℚ) ≤ 2 * b := by exact_mod_cast this
              linarith
            have : (3 : ℚ) / 4 ≤ r / d := by linarith
            rw [le_div_iff₀ hdq] at this
            have : (d : ℚ) < 2 * r := by linarith
            exact_mod_cast this
          · simp [roundsUp] at hu
          · simp only [roundsUp, Bool.and_eq_true] at hu ⊢
            exact ⟨hu.1, by simpa using hr0⟩
          · simp only [roundsUp, Bool.and_eq_true] at hu ⊢
            exact ⟨hu.1, by simpa using hr0⟩
        · omega
      · intro hgt
        have hle : ¬ l < emin := by
          intro h
          have hqx := hqlt' h
          have hk00 : k = 0 := by have : ex = emin := by rw [hex, if_pos h]
                                  omega
          rw [hk00, zero_mul, zero_add] at hC
          split at hC <;> omega
        simp [hle]
      · simp


/-! ### Readings -/

/-- The number that a reading of a code stands for. -/
def FVal.num : FVal → Exact
  | .nan s => .nan s
  | .inf s => .inf s
  | .fin s m e => .fin s (if s = true then -(m * 2 ^ e) else m * 2 ^ e)

theorem FVal.num_isNan (a : FVal) : a.num.isNan = a.isNan := by cases a <;> rfl
theorem FVal.num_isSig (a : FVal) : a.num.isSig = a.isSig := by cases a <;> rfl
theorem FVal.num_neg (a : FVal) : a.neg.num = a.num.neg := by
  cases a with
  | fin s m e => cases s <;> simp [FVal.neg, FVal.num, Exact.neg]
  | _ => rfl
theorem FVal.num_negative (a : FVal) : a.num.negative = a.neg? := by cases a <;> rfl

theorem two_zpow_pos (e : ℤ) : (0 : ℚ) < 2 ^ e := by positivity

theorem signed_zero (m : ℕ) (e : ℤ) (s : Bool) : (if s = true then -((m : ℚ) * 2 ^ e) else m * 2 ^ e) = 0 ↔ m = 0 := by
  cases s <;> simp [(two_zpow_pos e).ne']

/-- A product is that of the numbers; one of no NaN that is a NaN is 0 × ∞. -/
theorem FVal.num_mul (a b : FVal) : a.num.mul b.num =
    if a.isNan = false ∧ b.isNan = false ∧ (a.mul b).isNan = true then .nan true else (a.mul b).num := by
  cases a with
  | nan s => cases b <;> simp [FVal.mul, FVal.num, Exact.mul, FVal.isNan]
  | inf s => cases b with
    | fin t m e => by_cases h : m = 0 <;> simp [FVal.mul, FVal.num, Exact.mul, FVal.isNan, signed_zero, h]
    | _ => simp [FVal.mul, FVal.num, Exact.mul, FVal.isNan]
  | fin s m e => cases b with
    | inf t => by_cases h : m = 0 <;> simp [FVal.mul, FVal.num, Exact.mul, FVal.isNan, signed_zero, h, bne_comm]
    | nan t => simp [FVal.mul, FVal.num, Exact.mul, FVal.isNan]
    | fin t n k =>
      simp only [FVal.mul, FVal.num, Exact.mul, FVal.isNan]
      rw [zpow_add₀ (by norm_num)]
      cases s <;> cases t <;> simp <;> ring

theorem Dyad.ofSM_val (s : Bool) (m : ℕ) (e : ℤ) :
    ((Dyad.ofSM s m e).n : ℚ) * 2 ^ (Dyad.ofSM s m e).e = if s = true then -((m : ℚ) * 2 ^ e) else m * 2 ^ e := by
  cases s <;> simp [Dyad.ofSM]

theorem Dyad.add_val (a b : Dyad) : ((a.add b).n : ℚ) * 2 ^ (a.add b).e = a.n * 2 ^ a.e + b.n * 2 ^ b.e := by
  have key (x y : ℤ) (h : x ≤ y) : (2 : ℚ) ^ (y - x).toNat * 2 ^ x = 2 ^ y := by
    rw [← zpow_natCast, ← zpow_add₀ (by norm_num)]; congr 1; omega
  unfold Dyad.add
  split
  · rename_i h
    push_cast; rw [add_mul, mul_assoc, key _ _ h]
  · rename_i h
    push_cast; rw [add_mul, mul_assoc, key _ _ (by omega)]

theorem FVal.lt_num (a b : FVal) (ha : a.isNan = false) (hb : b.isNan = false) : a.lt b = true ↔ a.num.lt b.num := by
  cases a with
  | nan s => simp [FVal.isNan] at ha
  | inf s => cases b with
    | nan t => simp [FVal.isNan] at hb
    | inf t => cases s <;> cases t <;> simp [FVal.lt, FVal.num, Exact.lt]
    | fin t n k => cases s <;> simp [FVal.lt, FVal.num, Exact.lt]
  | fin s m e => cases b with
    | nan t => simp [FVal.isNan] at hb
    | inf t => cases t <;> simp [FVal.lt, FVal.num, Exact.lt]
    | fin t n k =>
      simp only [FVal.lt, FVal.num, Exact.lt, decide_eq_true_eq]
      have h := Dyad.add_val (Dyad.ofSM s m e) (Dyad.ofSM (!t) n k)
      rw [Dyad.ofSM_val, Dyad.ofSM_val] at h
      set d := (Dyad.ofSM s m e).add (Dyad.ofSM (!t) n k)
      have hp := two_zpow_pos d.e
      have : d.n < 0 ↔ (d.n : ℚ) * 2 ^ d.e < 0 := by
        rw [mul_neg_iff]
        simp [hp, not_lt.2 hp.le]
      rw [this, h]
      cases t
      · simp
      · simp only [Bool.not_true, Bool.false_eq_true, if_false, if_true]; constructor <;> intro h <;> linarith

/-! ### Codes -/

/-- FP32, BF16 and FP16: an IEEE format with signalling NaNs (R77, R78). -/
def FFmt.Ieee (f : FFmt) : Prop := f.sp = .ieee ∧ 16 ≤ f.width ∧ 1 ≤ f.fb ∧ 1 ≤ f.eb

theorem FFmt.num_read_any (f : FFmt) (h3 : 1 ≤ f.fb) (h4 : 1 ≤ f.eb) (x : Nat) : (f.read x).num = f.num x := by
  have hp : 0 < 2 ^ f.fb := by positivity
  have hpe : 1 < 2 ^ f.eb := Nat.one_lt_two_pow (by omega)
  have e1 : x % 2 ^ (f.eb + f.fb) % 2 ^ f.fb = x % 2 ^ f.fb := by
    rw [Nat.mod_mod_of_dvd]; exact pow_dvd_pow 2 (by omega)
  have e2 : x % 2 ^ (f.eb + f.fb) / 2 ^ f.fb = x / 2 ^ f.fb % 2 ^ f.eb := by
    rw [Nat.add_comm, pow_add, Nat.mod_mul_right_div_self]
  have e3 := Nat.div_add_mod (x % 2 ^ (f.eb + f.fb)) (2 ^ f.fb)
  rw [e1, e2] at e3
  set m := x % 2 ^ (f.eb + f.fb) with hm
  set e := x / 2 ^ f.fb % 2 ^ f.eb with he
  set r := x % 2 ^ f.fb with hr
  have hr' : r < 2 ^ f.fb := Nat.mod_lt _ hp
  have he' : e < 2 ^ f.eb := Nat.mod_lt _ (by positivity)
  have e4 : m / 2 ^ (f.fb - 1) % 2 = r / 2 ^ (f.fb - 1) % 2 := by
    obtain ⟨b, hb⟩ : ∃ b, f.fb = b + 1 := ⟨f.fb - 1, by omega⟩
    rw [← e3, hb, show b + 1 - 1 = b by omega, show 2 ^ (b + 1) * e + r = 2 ^ b * (2 * e) + r by rw [pow_succ]; ring,
      Nat.mul_add_div (by positivity)]
    omega
  have hmag : f.mag m = if e = 0 then (r : ℚ) * 2 ^ (1 - (f.bias : ℤ) - f.fb) else ((2 ^ f.fb + r : ℕ) : ℚ) * 2 ^ ((e : ℤ) - f.bias - f.fb) := by
    unfold FFmt.mag
    rw [e1, e2]
    by_cases h : e = 0
    · rw [if_pos h, if_pos h, ← e3, h]; simp
    · rw [if_neg h, if_neg h]
  have hs : (x / 2 ^ (f.eb + f.fb) % 2 == 1) = decide (x / 2 ^ (f.eb + f.fb) % 2 = 1) := by
    rw [Bool.eq_iff_iff]; simp
  have hn : ∀ y : ℕ, (y / 2 ^ (f.fb - 1) % 2 == 0) = decide (y / 2 ^ (f.fb - 1) % 2 = 0) := by
    intro y; rw [Bool.eq_iff_iff]; simp
  have hfin : FVal.num (if e = 0 then FVal.fin (decide (x / 2 ^ (f.eb + f.fb) % 2 = 1)) r (1 - (f.bias : ℤ) - f.fb)
      else FVal.fin (decide (x / 2 ^ (f.eb + f.fb) % 2 = 1)) (2 ^ f.fb + r) ((e : ℤ) - f.bias - f.fb)) =
      Exact.fin (decide (x / 2 ^ (f.eb + f.fb) % 2 = 1))
        (if decide (x / 2 ^ (f.eb + f.fb) % 2 = 1) = true then -f.mag m else f.mag m) := by
    rw [hmag]
    by_cases h0 : e = 0
    · rw [if_pos h0, if_pos h0]; rfl
    · rw [if_neg h0, if_neg h0]; rfl
  unfold FFmt.num FFmt.read
  simp only [← hm, ← he, ← hr, hs, hn, e4, ge_iff_le]
  cases f.sp with
  | ieee =>
    simp only
    rcases Nat.lt_or_ge e (2 ^ f.eb - 1) with h | h
    · have hlt : m < (2 ^ f.eb - 1) * 2 ^ f.fb := by
        have : (e + 1) * 2 ^ f.fb ≤ (2 ^ f.eb - 1) * 2 ^ f.fb := Nat.mul_le_mul_right _ h
        rw [add_mul, one_mul, mul_comm] at this
        omega
      rw [if_neg (by omega : ¬ e = 2 ^ f.eb - 1), if_neg (by omega : ¬ (2 ^ f.eb - 1) * 2 ^ f.fb < m), if_neg hlt.ne, hfin]
    · have he1 : e = 2 ^ f.eb - 1 := by omega
      have hm1 : m = (2 ^ f.eb - 1) * 2 ^ f.fb + r := by rw [← e3, he1]; ring
      rw [if_pos he1]
      by_cases h0 : r = 0
      · rw [if_pos h0, if_neg (by omega), if_pos (by omega)]; rfl
      · rw [if_neg h0, if_pos (by omega)]; rfl
  | top =>
    simp only
    split
    · rfl
    · exact hfin
  | none => exact hfin

theorem FFmt.num_read (f : FFmt) (hf : f.Ieee) (x : Nat) : (f.read x).num = f.num x := f.num_read_any hf.2.2.1 hf.2.2.2 x

/-! ### Results -/

/-- Rounding a non-zero number given by its sign, magnitude and exponent. -/
theorem FFmt.roundRat_gives (f : FFmt) (hf : f.Ieee) (rm : RMode) (s : Bool) (m d : Nat) (e : Int) (q : ℚ) (hm : 0 < m) (hd : 0 < d)
    (hq : q = if s = true then -((m : ℚ) / d * 2 ^ e) else m / d * 2 ^ e) (t : Bool) :
    f.gives rm (.fin t q) (f.roundRat rm s m d e) := by
  have hp : (0 : ℚ) < m / d * 2 ^ e := by positivity
  have h0 : q ≠ 0 := by cases s <;> simp_all [ne_of_gt]
  rw [FFmt.gives, if_neg h0]
  refine f.roundRat_rounds rm s m d e hm hd hf.2.2.1 q ?_ ?_
  · cases s <;> simp_all [abs_of_pos]
  · cases s
    · simp only [Bool.false_eq_true, if_false] at hq; rw [hq]; simp [not_lt.2 hp.le]
    · simp only [if_true] at hq; rw [hq]; simp [hp]

theorem FFmt.roundDyad_gives (f : FFmt) (hf : f.Ieee) (rm : RMode) (d : Dyad) (hd : d.n ≠ 0) (t : Bool) :
    f.gives rm (.fin t (d.n * 2 ^ d.e)) (f.roundDyad rm d) := by
  refine f.roundRat_gives hf rm _ _ 1 _ _ (Int.natAbs_pos.2 hd) one_pos ?_ t
  have habs : ((d.n.natAbs : ℕ) : ℚ) = |(d.n : ℚ)| := by rw [← Int.cast_abs, Int.abs_eq_natAbs]; simp
  rw [habs]
  by_cases h : d.n < 0
  · have : (d.n : ℚ) < 0 := by exact_mod_cast h
    simp [h, abs_of_neg this]
  · have : (0 : ℚ) ≤ d.n := by exact_mod_cast not_lt.1 h
    simp [h, abs_of_nonneg this]

/-- The rational that a finite reading stands for; 0 of the others. -/
def FVal.rat : FVal → ℚ
  | .fin s m e => if s = true then -(m * 2 ^ e) else m * 2 ^ e
  | _ => 0

theorem exactSum_val (ts : List FVal) : ((exactSum ts).n : ℚ) * 2 ^ (exactSum ts).e = (ts.map FVal.rat).sum := by
  have key (ts : List FVal) (acc : Dyad) :
      let r := ts.foldl (fun acc t => match t with | .fin n m e => acc.add (Dyad.ofSM n m e) | _ => acc) acc
      (r.n : ℚ) * 2 ^ r.e = acc.n * 2 ^ acc.e + (ts.map FVal.rat).sum := by
    induction ts generalizing acc with
    | nil => simp
    | cons t ts ih =>
      simp only [List.foldl_cons, List.map_cons, List.sum_cons]
      rw [ih]
      cases t <;> simp [FVal.rat, Dyad.add_val, Dyad.ofSM_val, add_assoc]
  exact (key ts Dyad.zero).trans (by simp [Dyad.zero])

/-! ### Operations -/

theorem FVal.nan_beq_inf (s t : Bool) : (FVal.nan s == FVal.inf t) = false := by simp [beq_eq_false_iff_ne]
theorem FVal.fin_beq_inf (s t : Bool) (m : Nat) (e : Int) : (FVal.fin s m e == FVal.inf t) = false := by simp [beq_eq_false_iff_ne]

theorem FVal.one_inf (a : FVal) : (a == .inf false && a == .inf true) = false := by
  cases a with
  | inf s => cases s <;> rfl
  | _ => simp [FVal.nan_beq_inf, FVal.fin_beq_inf]

/-- A sum of finite readings. -/
theorem FFmt.sum_fin (f : FFmt) (z : ZeroRule) (rm : RMode) (ts : List FVal) (h : ∀ t ∈ ts, ∃ s m e, t = .fin s m e) :
    f.sum z rm ts = if (exactSum ts).n = 0 then ⟨f.zero (zeroSign z rm ts), Flags.none⟩ else f.roundDyad rm (exactSum ts) := by
  have h1 : ts.any FVal.isNan = false := by
    rw [List.any_eq_false]; intro t ht; obtain ⟨s, m, e, rfl⟩ := h t ht; simp [FVal.isNan]
  have h2 (s : Bool) : (ts.any fun t => t == .inf s) = false := by
    rw [List.any_eq_false]; intro t ht; obtain ⟨s, m, e, rfl⟩ := h t ht; simp
  unfold FFmt.sum
  simp [h1, h2]

theorem FFmt.sum_pair (f : FFmt) (hf : f.Ieee) (rm : RMode) (a b : FVal) : f.gives rm (a.num.add rm b.num) (f.sum .ieee rm [a, b]) := by
  cases a with
  | nan s => cases b <;> simp [FFmt.gives, FFmt.sum, Exact.add, FVal.num, FVal.isNan, FVal.isSig, FVal.nan_beq_inf, FVal.fin_beq_inf, FVal.one_inf]
  | inf s => cases b with
    | nan t => simp [FFmt.gives, FFmt.sum, Exact.add, FVal.num, FVal.isNan, FVal.isSig, FVal.nan_beq_inf, FVal.one_inf]
    | inf t => cases s <;> cases t <;> simp [FFmt.gives, FFmt.sum, Exact.add, FVal.num, FVal.isNan, FVal.isSig]
    | fin t n k => cases s <;> simp [FFmt.gives, FFmt.sum, Exact.add, FVal.num, FVal.isNan, FVal.fin_beq_inf]
  | fin s m e => cases b with
    | nan t => simp [FFmt.gives, FFmt.sum, Exact.add, FVal.num, FVal.isNan, FVal.isSig, FVal.nan_beq_inf, FVal.fin_beq_inf]
    | inf t => cases t <;> simp [FFmt.gives, FFmt.sum, Exact.add, FVal.num, FVal.isNan, FVal.fin_beq_inf]
    | fin t n k =>
      have h := exactSum_val [.fin s m e, .fin t n k]
      simp only [List.map_cons, List.map_nil, List.sum_cons, List.sum_nil, add_zero, FVal.rat] at h
      rw [f.sum_fin _ _ _ (by simp)]
      simp only [FVal.num, Exact.add]
      rw [← h]
      set d := exactSum [.fin s m e, .fin t n k] with hd
      have hz : (d.n : ℚ) * 2 ^ d.e = 0 ↔ d.n = 0 := by simp [(two_zpow_pos d.e).ne']
      by_cases h0 : d.n = 0
      · have h1 := hz.2 h0
        rw [h] at h1
        rw [FFmt.gives, if_pos (hz.2 h0)]
        rw [if_pos h0]
        congr 2
        have hm := two_zpow_pos e
        have hk := two_zpow_pos k
        have both (h : (m : ℚ) * 2 ^ e + n * 2 ^ k = 0) : m = 0 ∧ n = 0 := by
          have h1 : (0 : ℚ) ≤ m * 2 ^ e := by positivity
          have h2 : (0 : ℚ) ≤ n * 2 ^ k := by positivity
          constructor
          · have : (m : ℚ) * 2 ^ e = 0 := by linarith
            simpa [hm.ne'] using this
          · have : (n : ℚ) * 2 ^ k = 0 := by linarith
            simpa [hk.ne'] using this
        cases s <;> cases t
        · obtain ⟨rfl, rfl⟩ := both (by simpa using h1)
          simp [zeroSign, FVal.isZero, FVal.neg?]
        · cases rm <;> simp [zeroSign, FVal.neg?]
        · cases rm <;> simp [zeroSign, FVal.neg?]
        · obtain ⟨rfl, rfl⟩ := both (by simp only [if_true] at h1; linarith)
          simp [zeroSign, FVal.isZero, FVal.neg?]
      · rw [if_neg h0]
        exact f.roundDyad_gives hf rm d h0 _

theorem FFmt.add_gives (f : FFmt) (hf : f.Ieee) (rm : RMode) (u v : Nat) : f.gives rm ((f.num u).add rm (f.num v)) (f.add rm u v) := by
  rw [← f.num_read hf, ← f.num_read hf]; exact f.sum_pair hf rm _ _

theorem FFmt.sub_gives (f : FFmt) (hf : f.Ieee) (rm : RMode) (u v : Nat) :
    f.gives rm ((f.num u).add rm (f.num v).neg) (f.sub rm u v) := by
  rw [← f.num_read hf, ← f.num_read hf, ← FVal.num_neg]; exact f.sum_pair hf rm _ _

theorem FFmt.mul_gives (f : FFmt) (hf : f.Ieee) (rm : RMode) (u v : Nat) : f.gives rm ((f.num u).mul (f.num v)) (f.mul rm u v) := by
  rw [← f.num_read hf, ← f.num_read hf, FVal.num_mul]
  unfold FFmt.mul
  have hn (a b : FVal) (t : Bool) (h : a.mul b = .nan t) (h2 : ¬ (a.isNan = false ∧ b.isNan = false ∧ (FVal.nan t).isNan = true)) :
      t = (t || (!a.isNan && !b.isNan)) := by
    cases ha : a.isNan <;> cases hb : b.isNan <;> simp_all [FVal.isNan]
  cases h : (f.read u).mul (f.read v) with
  | nan t =>
    split
    · rename_i h2; simp [h, FFmt.gives, h2.1, h2.2.1]
    · rename_i h2; simp only [h, FFmt.gives, FVal.num]; rw [← hn _ _ t h h2]
  | inf t => simp [FVal.isNan, FVal.num, FFmt.gives, h]
  | fin t m e =>
    simp only [FVal.isNan, FVal.num, Bool.false_eq_true, and_false, if_false, h]
    by_cases h0 : m = 0
    · subst h0; simp [FFmt.gives]
    · simp only [if_neg h0]
      exact f.roundRat_gives hf rm t m 1 e _ (by omega) one_pos (by simp) t

theorem Exact.add_nan (rm : RMode) (s : Bool) (b : Exact) : (Exact.nan s).add rm b = .nan (s || b.isSig) := by
  cases b <;> simp [Exact.add, Exact.isSig]

theorem FFmt.fma_gives (f : FFmt) (hf : f.Ieee) (rm : RMode) (u v w : Nat) :
    f.gives rm (((f.num u).mul (f.num v)).add rm (f.num w)) (f.fma rm u v w) := by
  rw [← f.num_read hf, ← f.num_read hf, ← f.num_read hf, FVal.num_mul]
  unfold FFmt.fma
  have hor (x : Flags) : x.or (Flags.sig false) = x := by cases x; simp [Flags.or, Flags.sig]
  split
  · rename_i h
    have h2 : ((f.read u).mul (f.read v)).isNan = true := h.2.2
    simp only [h.1, h.2.1, h.2.2, Exact.add_nan, Bool.true_or, FFmt.gives]
    have hs : f.sum .ieee rm [(f.read u).mul (f.read v), f.read w] =
        ⟨f.nan, Flags.sig (((f.read u).mul (f.read v)).isSig || (f.read w).isSig)⟩ := by
      cases hx : (f.read u).mul (f.read v) <;> simp_all [FVal.isNan, FFmt.sum, FVal.isSig, FVal.nan_beq_inf, FVal.one_inf]
    rw [hs]; simp [Flags.or, Flags.sig]
  · rename_i h
    have : (((f.read u).mul (f.read v)).isNan && !(f.read u).isNan && !(f.read v).isNan) = false := by
      cases h1 : ((f.read u).mul (f.read v)).isNan <;> cases h2 : (f.read u).isNan <;> cases h3 : (f.read v).isNan <;> simp_all
    simp only [this, hor]
    exact f.sum_pair hf rm _ _

theorem FFmt.rcp_gives (f : FFmt) (hf : f.Ieee) (rm : RMode) (u : Nat) (s : Bool) (q : ℚ) (h : f.num u = .fin s q) (hq : q ≠ 0) :
    f.gives rm (.fin s (1 / q)) (f.rcp rm u) := by
  rw [← f.num_read hf] at h
  unfold FFmt.rcp
  cases hr : f.read u with
  | nan t => simp [hr, FVal.num] at h
  | inf t => simp [hr, FVal.num] at h
  | fin t m e =>
    simp only [hr, FVal.num, Exact.fin.injEq] at h
    obtain ⟨rfl, rfl⟩ := h
    have hm : m ≠ 0 := fun h => hq ((signed_zero ..).2 h)
    simp only [if_neg hm]
    refine f.roundRat_gives hf rm t 1 m (-e) _ one_pos (Nat.pos_of_ne_zero hm) ?_ t
    have : (m : ℚ) ≠ 0 := by exact_mod_cast hm
    have := (two_zpow_pos e).ne'
    cases t <;> simp [zpow_neg] <;> field_simp

theorem FVal.before_num (a b : FVal) (ha : a.isNan = false) (hb : b.isNan = false) : a.below b = true ↔ a.num.before b.num := by
  have h1 := a.lt_num b ha hb
  have h2 := b.lt_num a hb ha
  simp only [FVal.below, FVal.eqv, Exact.before, FVal.num_negative, ← h1, ← h2, ha, hb]
  cases a.lt b <;> cases b.lt a <;> simp

open Classical in
theorem FFmt.minMax_num (f : FFmt) (hf : f.Ieee) (x : Bool) (u v : Nat) (hu : (f.num u).isNan = false) (hv : (f.num v).isNan = false) :
    f.minMax x u v = ⟨if x = true then (if (f.num u).before (f.num v) then v else u)
      else (if (f.num v).before (f.num u) then v else u), Flags.none⟩ := by
  rw [← f.num_read hf, FVal.num_isNan] at hu hv
  have su : (f.read u).isSig = false := by cases h : f.read u <;> simp_all [FVal.isSig, FVal.isNan]
  have sv : (f.read v).isSig = false := by cases h : f.read v <;> simp_all [FVal.isSig, FVal.isNan]
  simp only [← f.num_read hf, ← FVal.before_num _ _ hu hv, ← FVal.before_num _ _ hv hu, FFmt.minMax, hu, hv, su, sv]
  cases x <;> simp [Flags.sig, Flags.none]

theorem FFmt.minMax_nan (f : FFmt) (hf : f.Ieee) (x : Bool) (u v : Nat) (h : (f.num u).isNan = true ∨ (f.num v).isNan = true) :
    f.minMax x u v = ⟨if (f.num u).isNan = true then (if (f.num v).isNan = true then f.nan else v) else u,
      Flags.sig ((f.num u).isSig || (f.num v).isSig)⟩ := by
  simp only [← f.num_read hf, FVal.num_isNan, FVal.num_isSig] at h ⊢
  unfold FFmt.minMax
  cases hu : (f.read u).isNan <;> cases hv : (f.read v).isNan <;> simp_all

theorem FFmt.abs_num (f : FFmt) (hf : f.Ieee) (u : Nat) : f.abs u =
    if (f.num u).isNan = true then ⟨f.nan, Flags.sig (f.num u).isSig⟩ else ⟨u % 2 ^ (f.eb + f.fb), Flags.none⟩ := by
  simp only [← f.num_read hf, FVal.num_isNan, FVal.num_isSig]; rfl

theorem FFmt.negate_num (f : FFmt) (hf : f.Ieee) (u : Nat) : f.negate u =
    if (f.num u).isNan = true then ⟨f.nan, Flags.sig (f.num u).isSig⟩ else ⟨(u + 2 ^ (f.eb + f.fb)) % 2 ^ f.width, Flags.none⟩ := by
  simp only [← f.num_read hf, FVal.num_isNan, FVal.num_isSig]; rfl

theorem FFmt.rcp_special (f : FFmt) (hf : f.Ieee) (rm : RMode) (u : Nat) :
    (∀ s, f.num u = .nan s → f.rcp rm u = ⟨f.nan, Flags.sig s⟩) ∧ (∀ s, f.num u = .inf s → f.rcp rm u = ⟨f.zero s, Flags.none⟩) ∧
    (∀ s, f.num u = .fin s 0 → f.rcp rm u = ⟨f.inf s, Flags.divZero⟩) := by
  rw [← f.num_read hf]
  unfold FFmt.rcp
  refine ⟨fun s h => ?_, fun s h => ?_, fun s h => ?_⟩ <;> cases hr : f.read u <;> simp only [hr, FVal.num, Exact.nan.injEq, Exact.inf.injEq, Exact.fin.injEq, reduceCtorEq] at h <;> try simp [h]
  have := (signed_zero ..).1 h.2
  simp [this]

theorem FFmt.ofInt_gives (f : FFmt) (hf : f.Ieee) (rm : RMode) (i : Int) : f.gives rm (.fin false i) (f.ofInt rm i) := by
  unfold FFmt.ofInt
  by_cases h : i = 0
  · subst h; simp [FFmt.gives, FFmt.zero, FFmt.sign]
  · rw [if_neg h]
    refine f.roundRat_gives hf rm _ _ 1 0 _ (Int.natAbs_pos.2 h) one_pos ?_ _
    have habs : ((i.natAbs : ℕ) : ℚ) = |(i : ℚ)| := by rw [← Int.cast_abs, Int.abs_eq_natAbs]; simp
    rw [habs]
    by_cases h : i < 0
    · have : (i : ℚ) < 0 := by exact_mod_cast h
      simp [h, abs_of_neg this]
    · have : (0 : ℚ) ≤ i := by exact_mod_cast not_lt.1 h
      simp [h, abs_of_nonneg this]

theorem FFmt.convert_gives (f g : FFmt) (hf : f.Ieee) (hg : g.Ieee) (rm : RMode) (u : Nat) :
    g.gives rm (f.num u) (f.convert g rm u) := by
  rw [← f.num_read hf]
  unfold FFmt.convert
  cases f.read u with
  | nan s => simp [FVal.num, FFmt.gives]
  | inf s => simp [FVal.num, FFmt.gives]
  | fin s m e =>
    simp only [FVal.num]
    by_cases h : m = 0
    · subst h; simp [FFmt.gives]
    · rw [if_neg h]
      exact g.roundRat_gives hg rm s m 1 e _ (by omega) one_pos (by simp) s

/-- Rounding a dyadic to an integer. -/
theorem Dyad.toInt_rounds (rm : RMode) (d : Dyad) :
    intRounds rm (d.n * 2 ^ d.e) (d.toInt rm).1 ∧ ((d.toInt rm).2 = false ↔ ((d.toInt rm).1 : ℚ) = d.n * 2 ^ d.e) := by
  have hp := two_zpow_pos d.e
  unfold Dyad.toInt
  split
  · rename_i h
    obtain ⟨k, hk⟩ := Int.eq_ofNat_of_zero_le h
    have e1 : (d.n : ℚ) * 2 ^ d.e = ((d.n * 2 ^ d.e.toNat : ℤ) : ℚ) := by rw [hk]; push_cast; simp
    have e3 : |(d.n : ℚ) * 2 ^ d.e| = ((d.n * 2 ^ d.e.toNat).natAbs : ℕ) := by
      rw [e1, ← Int.cast_abs, Int.abs_eq_natAbs]; rfl
    have e2 : ⌊|(d.n : ℚ) * 2 ^ d.e|⌋₊ = (d.n * 2 ^ d.e.toNat).natAbs := by rw [e3, Nat.floor_natCast]
    refine ⟨⟨fun h => ?_, fun h => ?_, Or.inr ⟨?_, e2.symm⟩⟩, ?_⟩
    · rw [e1] at h; exact_mod_cast h
    · rw [e1] at h; exact_mod_cast h
    · rw [e2, e3]
      generalize (d.n * 2 ^ d.e.toNat).natAbs = a
      cases rm <;> simp only [roundsAway, lt_irrefl, and_false, not_false_eq_true]
      rintro (h | h)
      · linarith
      · linarith [h.1]
    · simp [e1]
  · rename_i h
    obtain ⟨k, hk⟩ := Int.eq_ofNat_of_zero_le (show 0 ≤ -d.e by omega)
    have hk' : (-d.e).toNat = k := by omega
    have he : d.e = -(k : ℤ) := by omega
    simp only [hk']
    set den : ℕ := 2 ^ k with hden
    have hd : 0 < den := by positivity
    have hdq : (0 : ℚ) < den := by exact_mod_cast hd
    have hv : (d.n : ℚ) * 2 ^ d.e = d.n / den := by rw [he, zpow_neg, zpow_natCast, hden]; push_cast; rfl
    have habs : |(d.n : ℚ) * 2 ^ d.e| = (d.n.natAbs : ℚ) / den := by
      rw [hv, abs_div, abs_of_pos hdq, ← Int.cast_abs, Int.abs_eq_natAbs]; simp
    have hfl : ⌊|(d.n : ℚ) * 2 ^ d.e|⌋₊ = d.n.natAbs / den := by rw [habs, Nat.floor_div_natCast, Nat.floor_natCast]
    have hsgn : ((d.n : ℚ) * 2 ^ d.e < 0) ↔ d.n < 0 := by
      rw [mul_neg_iff]; simp [hp, not_lt.2 hp.le]
    set q := d.n.natAbs / den with hq
    set r := d.n.natAbs % den with hr
    have hqr : (d.n.natAbs : ℚ) = den * q + r := by exact_mod_cast (Nat.div_add_mod d.n.natAbs den).symm
    have hv2 : |(d.n : ℚ) * 2 ^ d.e| = (q + r / den) * 1 := by rw [habs, hqr]; field_simp
    have hup := roundsUp_iff rm (decide (d.n < 0)) q q r den q _ (q + 1) 1 hd one_pos rfl (by ring) (by ring) hv2
    simp only [decide_eq_true_eq] at hup
    set m : ℤ := if roundsUp rm (decide (d.n < 0)) q r den = true then (q : ℤ) + 1 else q with hm
    have hm0 : 0 ≤ m := by rw [hm]; split <;> omega
    have hmabs : m.natAbs = if roundsUp rm (decide (d.n < 0)) q r den = true then q + 1 else q := by
      rw [hm]; split <;> omega
    refine ⟨⟨fun h => ?_, fun h => ?_, ?_⟩, ?_⟩
    · have : ¬ d.n < 0 := by rw [← hsgn]; exact not_lt.2 h
      simp [this, hm0]
    · by_cases hn : d.n < 0
      · simp [hn, hm0]
      · have h0 : d.n = 0 := by
          have : (d.n : ℚ) ≤ 0 := by
            by_contra hc
            have := mul_pos (not_le.1 hc) hp
            linarith
          have : d.n ≤ 0 := by exact_mod_cast this
          omega
        have hq0 : q = 0 := by rw [hq, h0]; simp
        have hr0 : r = 0 := by rw [hr, h0]; simp
        have : roundsUp rm (decide (d.n < 0)) q r den = false := by
          rw [hq0, hr0]; cases rm <;> simp [roundsUp]
        have hm00 : m = 0 := by rw [hm, this, hq0]; rfl
        simp [hn, hm00]
    · rw [hfl]
      have hn : (if decide (d.n < 0) = true then -m else m).natAbs = m.natAbs := by split <;> simp
      simp only [hsgn] at *
      rw [hn, hmabs]
      by_cases hu : roundsUp rm (decide (d.n < 0)) q r den = true
      · left; exact ⟨hup.1 hu, by rw [if_pos hu]⟩
      · right; exact ⟨fun h => hu (hup.2 h), by rw [if_neg hu]⟩
    · have hfr : (r : ℚ) / den < 1 := by rw [div_lt_one hdq]; exact_mod_cast Nat.mod_lt _ hd
      have hsg : (d.n : ℚ) * 2 ^ d.e = if d.n < 0 then -((q : ℚ) + r / den) else q + r / den := by
        rw [mul_one] at hv2
        rw [← hv2]
        split
        · rename_i h; rw [abs_of_neg (hsgn.2 h)]; ring
        · rename_i h; rw [abs_of_nonneg (not_lt.1 (mt hsgn.1 h))]
      rw [hsg]
      by_cases hr0 : r = 0
      · have : roundsUp rm (decide (d.n < 0)) q r den = false := by
          rw [hr0]; cases rm <;> simp [roundsUp]; omega
        rw [hm, this, hr0]
        by_cases hn : d.n < 0 <;> simp [hn]
      · have hr1 : (0 : ℚ) < r / den := by
          have : (0 : ℚ) < r := by exact_mod_cast Nat.pos_of_ne_zero hr0
          positivity
        have hne : (m : ℚ) ≠ q + r / den := by
          rw [hm]; split
          · push_cast; intro h; linarith
          · push_cast; intro h; linarith
        have : (r != 0) = true := by simp [hr0]
        rw [this]
        by_cases hn : d.n < 0
        · simp [hn]; intro h; apply hne; linarith
        · simp [hn]; exact hne

theorem FFmt.toIntRange_rounds (f : FFmt) (hf : f.Ieee) (rm : RMode) (lo hi : Int) (u : Nat) (s : Bool) (q : ℚ) (h : f.num u = .fin s q) :
    ∃ i, intRounds rm q i ∧ f.toIntRange rm lo hi u =
      if i < lo then (lo, Flags.invalid) else if hi < i then (hi, Flags.invalid)
      else (i, if (i : ℚ) = q then Flags.none else Flags.inexact) := by
  rw [← f.num_read hf] at h
  cases hr : f.read u with
  | nan t => simp [hr, FVal.num] at h
  | inf t => simp [hr, FVal.num] at h
  | fin t m e =>
    simp only [hr, FVal.num, Exact.fin.injEq] at h
    obtain ⟨rfl, rfl⟩ := h
    have hd := Dyad.toInt_rounds rm (Dyad.ofSM t m e)
    rw [Dyad.ofSM_val] at hd
    refine ⟨_, hd.1, ?_⟩
    unfold FFmt.toIntRange
    simp only [hr, clamp, ← hd.2]
    split
    · simp
    · split
      · simp_all
      · cases ((Dyad.ofSM t m e).toInt rm).2 <;> simp_all

/-! ### Functions: special and exact values -/

theorem FFmt.exp2_read_nan (f : FFmt) (rm : RMode) (u : Nat) (s : Bool) (h : f.read u = .nan s) : f.exp2 rm u = ⟨f.nan, Flags.sig s⟩ := by
  unfold FFmt.exp2; rw [h]
theorem FFmt.exp2_read_inf (f : FFmt) (rm : RMode) (u : Nat) (s : Bool) (h : f.read u = .inf s) : f.exp2 rm u = if s = true then ⟨f.zero false, Flags.none⟩ else ⟨f.inf false, Flags.none⟩ := by
  unfold FFmt.exp2; rw [h]

theorem FFmt.exp2_special (f : FFmt) (hf : f.Ieee) (rm : RMode) (u : Nat) :
    (∀ s, f.num u = .nan s → f.exp2 rm u = ⟨f.nan, Flags.sig s⟩) ∧
    (f.num u = .inf true → f.exp2 rm u = ⟨f.zero false, Flags.none⟩) ∧ (f.num u = .inf false → f.exp2 rm u = ⟨f.inf false, Flags.none⟩) := by
  rw [← f.num_read hf]
  cases hr : f.read u with
  | nan t => simp [FVal.num, f.exp2_read_nan rm u t hr]
  | inf t => cases t <;> simp [FVal.num, f.exp2_read_inf rm u _ hr]
  | fin t m e => simp [FVal.num]

theorem FFmt.log2_read_nan (f : FFmt) (rm : RMode) (u : Nat) (s : Bool) (h : f.read u = .nan s) : f.log2 rm u = ⟨f.nan, Flags.sig s⟩ := by
  unfold FFmt.log2; rw [h]
theorem FFmt.log2_read_inf (f : FFmt) (rm : RMode) (u : Nat) (s : Bool) (h : f.read u = .inf s) :
    f.log2 rm u = if s = true then ⟨f.nan, Flags.invalid⟩ else ⟨f.inf false, Flags.none⟩ := by
  unfold FFmt.log2; rw [h]
theorem FFmt.log2_read_zero (f : FFmt) (rm : RMode) (u : Nat) (s : Bool) (e : Int) (h : f.read u = .fin s 0 e) :
    f.log2 rm u = ⟨f.inf true, Flags.divZero⟩ := by
  unfold FFmt.log2; rw [h]; exact if_pos rfl
theorem FFmt.log2_read_neg (f : FFmt) (rm : RMode) (u : Nat) (m : Nat) (e : Int) (h : f.read u = .fin true m e) (hm : m ≠ 0) :
    f.log2 rm u = ⟨f.nan, Flags.invalid⟩ := by
  unfold FFmt.log2; rw [h]; exact (if_neg hm).trans (if_pos rfl)

theorem FFmt.log2_special (f : FFmt) (hf : f.Ieee) (rm : RMode) (u : Nat) :
    (∀ s, f.num u = .nan s → f.log2 rm u = ⟨f.nan, Flags.sig s⟩) ∧
    (f.num u = .inf false → f.log2 rm u = ⟨f.inf false, Flags.none⟩) ∧
    (∀ s, f.num u = .fin s 0 → f.log2 rm u = ⟨f.inf true, Flags.divZero⟩) ∧
    ((f.num u).lt (.fin false 0) → f.log2 rm u = ⟨f.nan, Flags.invalid⟩) := by
  rw [← f.num_read hf]
  cases hr : f.read u with
  | nan t => simp [FVal.num, Exact.lt, f.log2_read_nan rm u t hr]
  | inf t => cases t <;> simp [FVal.num, Exact.lt, f.log2_read_inf rm u _ hr]
  | fin t m e =>
    have hp := two_zpow_pos e
    have h0 : (0 : ℚ) ≤ m * 2 ^ e := by positivity
    refine ⟨by simp [FVal.num], by simp [FVal.num], ?_, ?_⟩
    · rintro s h
      simp only [FVal.num, Exact.fin.injEq] at h
      have hm := (signed_zero ..).1 h.2
      subst hm
      exact f.log2_read_zero rm u t e hr
    · intro h
      simp only [FVal.num, Exact.lt] at h
      cases t
      · simp at h; linarith
      · simp at h
        exact f.log2_read_neg rm u m e hr (by rintro rfl; simp at h)

theorem FFmt.rsqrt_special (f : FFmt) (hf : f.Ieee) (rm : RMode) (u : Nat) :
    (∀ s, f.num u = .nan s → f.rsqrt rm u = ⟨f.nan, Flags.sig s⟩) ∧
    (f.num u = .inf false → f.rsqrt rm u = ⟨f.zero false, Flags.none⟩) ∧
    (∀ s, f.num u = .fin s 0 → f.rsqrt rm u = ⟨f.inf s, Flags.divZero⟩) ∧
    ((f.num u).lt (.fin false 0) → f.rsqrt rm u = ⟨f.nan, Flags.invalid⟩) := by
  rw [← f.num_read hf]
  unfold FFmt.rsqrt
  refine ⟨fun s h => ?_, fun h => ?_, fun s h => ?_, fun h => ?_⟩ <;> cases hr : f.read u <;>
    simp only [hr, FVal.num, Exact.nan.injEq, Exact.inf.injEq, Exact.fin.injEq, Exact.lt, reduceCtorEq] at h <;> try simp [h]
  · simp [(signed_zero ..).1 h.2]
  · rename_i s m e
    have hp := two_zpow_pos e
    have : (0 : ℚ) ≤ m * 2 ^ e := by positivity
    cases s
    · simp at h; linarith
    · simp at h
      have : m ≠ 0 := by rintro rfl; simp at h
      simp [this]

/-- A magnitude that is a power of two. -/
theorem pow_of_signed (s : Bool) (m : ℕ) (e n : ℤ) (h : (if s = true then -((m : ℚ) * 2 ^ e) else m * 2 ^ e) = 2 ^ n) :
    s = false ∧ ∃ k : ℕ, m = 2 ^ k ∧ (k : ℤ) + e = n := by
  have hp := two_zpow_pos e
  have hn := two_zpow_pos n
  have hm0 : (0 : ℚ) ≤ m * 2 ^ e := by positivity
  cases s
  · simp only [Bool.false_eq_true, if_false] at h
    have hm : (m : ℚ) = 2 ^ (n - e) := by rw [zpow_sub₀ (by norm_num), ← h]; field_simp
    have h1 : 0 ≤ n - e := by
      by_contra hc
      have h2 : (m : ℚ) < 1 := by rw [hm]; exact zpow_lt_one_of_neg₀ (by norm_num) (by omega)
      have h3 : m = 0 := by
        have : m < 1 := by exact_mod_cast h2
        omega
      rw [h3] at hm
      have := two_zpow_pos (n - e)
      rw [← hm] at this; simp at this
    obtain ⟨k, hk⟩ := Int.eq_ofNat_of_zero_le h1
    refine ⟨rfl, k, ?_, by omega⟩
    rw [hk] at hm; exact_mod_cast hm
  · simp only [if_true] at h; linarith

theorem FFmt.log2_exact (f : FFmt) (hf : f.Ieee) (rm : RMode) (u : Nat) (s : Bool) (n : ℤ) (h : f.num u = .fin s (2 ^ n)) :
    f.gives rm (.fin false n) (f.log2 rm u) := by
  rw [← f.num_read hf] at h
  unfold FFmt.log2
  cases hr : f.read u with
  | nan t => simp [hr, FVal.num] at h
  | inf t => simp [hr, FVal.num] at h
  | fin t m e =>
    simp only [hr, FVal.num, Exact.fin.injEq] at h
    obtain ⟨rfl, k, rfl, hk⟩ := pow_of_signed _ _ _ _ h.2
    have hl : (2 ^ k).log2 = k := Nat.log2_two_pow
    have hne : (2 : ℕ) ^ k ≠ 0 := by positivity
    simp only [hl, hne, if_false, if_true, Bool.false_eq_true]
    rw [show e + (k : ℤ) = n by omega]
    exact f.ofInt_gives hf rm n |> fun h => by
      unfold FFmt.ofInt at h
      by_cases h0 : n = 0
      · simpa [h0, FFmt.zero, FFmt.sign] using h
      · simpa [h0] using h

theorem FFmt.read_lt (f : FFmt) (x : Nat) (s : Bool) (m : Nat) (e : Int) (h : f.read x = .fin s m e) : m < 2 ^ (f.fb + 1) := by
  have hp : x % 2 ^ f.fb < 2 ^ f.fb := Nat.mod_lt _ (by positivity)
  have h2 : 2 ^ (f.fb + 1) = 2 * 2 ^ f.fb := by rw [pow_succ]; ring
  unfold FFmt.read at h
  dsimp only at h
  repeat' split at h
  all_goals simp only [FVal.fin.injEq, reduceCtorEq] at h
  all_goals omega

theorem FFmt.rsqrt_exact (f : FFmt) (hf : f.Ieee) (rm : RMode) (u : Nat) (s : Bool) (n : ℤ) (hfb : f.fb ≤ 120)
    (h : f.num u = .fin s (4 ^ n)) : f.gives rm (.fin false (2 ^ (-n))) (f.rsqrt rm u) := by
  have h4 : (4 : ℚ) ^ n = 2 ^ (2 * n) := by rw [zpow_mul]; norm_num
  rw [← f.num_read hf, h4] at h
  cases hr : f.read u with
  | nan t => simp [hr, FVal.num] at h
  | inf t => simp [hr, FVal.num] at h
  | fin t m e =>
    simp only [hr, FVal.num, Exact.fin.injEq] at h
    obtain ⟨rfl, k, rfl, hk⟩ := pow_of_signed _ _ _ _ h.2
    have hlt := f.read_lt u _ _ _ hr
    have hk2 : k < f.fb + 1 := (Nat.pow_lt_pow_iff_right (by norm_num)).1 hlt
    have hne : (2 : ℕ) ^ k ≠ 0 := by positivity
    obtain ⟨j, e', hj, hj2, hje⟩ : ∃ (j : ℕ) (e' : ℤ), (if e % 2 = 0 then (2 ^ k, e) else (2 * 2 ^ k, e - 1)) = (2 ^ (2 * j), e') ∧
        2 * (j : ℤ) + e' = 2 * n ∧ j ≤ 64 := by
      by_cases he : e % 2 = 0
      · refine ⟨k / 2, e, ?_, by omega, by omega⟩
        rw [if_pos he, show 2 * (k / 2) = k by omega]
      · refine ⟨(k + 1) / 2, e - 1, ?_, by omega, by omega⟩
        rw [if_neg he, show 2 * ((k + 1) / 2) = k + 1 by omega, pow_succ]; ring_nf
    have hq : Nat.sqrt (2 ^ 128 / 2 ^ (2 * j)) = 2 ^ (64 - j) := by
      rw [Nat.pow_div (by omega) (by norm_num), show 128 - 2 * j = (64 - j) * 2 by omega, pow_mul, Nat.sqrt_eq']
    have hs : 2 ^ (64 - j) * 2 ^ (64 - j) * 2 ^ (2 * j) = 2 ^ 128 := by
      rw [← pow_add, ← pow_add]; congr 1; omega
    have hres : f.rsqrt rm u = f.roundRat rm false (2 * 2 ^ (64 - j) + 0) 1 (-(e' / 2) - 65) := by
      unfold FFmt.rsqrt
      rw [hr]
      simp only [hne, if_false, Bool.false_eq_true, hj, hq, hs, if_true]
    rw [hres]
    refine f.roundRat_gives hf rm false _ 1 _ _ (by positivity) one_pos ?_ false
    have e1 : ((2 * 2 ^ (64 - j) + 0 : ℕ) : ℚ) = 2 ^ ((65 - j : ℤ)) := by
      rw [add_zero, ← pow_succ']
      rw [show (65 - j : ℤ) = ((64 - j + 1 : ℕ) : ℤ) by omega]
      rw [zpow_natCast]; push_cast; rfl
    rw [e1]
    simp only [Bool.false_eq_true, if_false, Nat.cast_one, div_one]
    rw [← zpow_add₀ (by norm_num)]; congr 1; omega

theorem log2Rat_one : log2Rat 1 1 = 0 := by decide

/-- 2^n far above the range overflows, far below it rounds to 0 or to the least magnitude. -/
theorem FFmt.roundRat_far (f : FFmt) (hf : f = fF32 ∨ f = fBf16) (rm : RMode) (n : ℤ) :
    (2000 ≤ n → f.roundRat rm false 1 1 n = f.roundRat rm false 1 1 2000) ∧
    (n ≤ -2000 → f.roundRat rm false 1 1 n = f.roundRat rm false 1 1 (-2000)) := by
  have hb : f.bias = 127 ∧ f.eb = 8 ∧ f.fb ≤ 23 := by rcases hf with rfl | rfl <;> decide
  have up (n : ℤ) (h : 2000 ≤ n) : f.roundRat rm false 1 1 n = ⟨f.overflow false rm, ⟨false, false, true, false, true⟩⟩ := by
    have h2 : ¬ (n < 1 - ((127 : ℕ) : ℤ)) := by omega
    unfold FFmt.roundRat
    simp only [log2Rat_one, zero_add, hb.1, hb.2.1, if_neg h2]
    have hs : shiftRat 1 1 (n - (n - f.fb)) = (2 ^ f.fb, 1) := by
      unfold shiftRat; rw [if_pos (by omega)]; simp
    simp only [hs, Nat.div_one, Nat.mod_one]
    rw [if_pos]
    have : (2 : ℕ) ^ 8 - 1 ≤ (n - (1 - ((127 : ℕ) : ℤ))).toNat := by omega
    have := Nat.mul_le_mul_right (2 ^ f.fb) this
    omega
  have dn (n : ℤ) (h : n ≤ -2000) : f.roundRat rm false 1 1 n =
      ⟨f.sign false + (if rm = .rup then 1 else 0), ⟨false, false, false, true, true⟩⟩ := by
    have h2 : n < 1 - ((127 : ℕ) : ℤ) := by omega
    unfold FFmt.roundRat
    simp only [log2Rat_one, zero_add, hb.1, hb.2.1, if_pos h2]
    obtain ⟨k, hk⟩ : ∃ k : ℕ, n - (1 - ((127 : ℕ) : ℤ) - f.fb) = -((k + 2 : ℕ) : ℤ) :=
      ⟨(-(n - (1 - ((127 : ℕ) : ℤ) - f.fb)) - 2).toNat, by omega⟩
    have hs : shiftRat 1 1 (n - (1 - ((127 : ℕ) : ℤ) - f.fb)) = (1, 2 ^ (k + 2)) := by
      rw [hk]; unfold shiftRat; rw [if_neg (by omega), neg_neg, Int.toNat_natCast, one_mul]
    have h4 : 4 ≤ 2 ^ (k + 2) := by rw [pow_succ, pow_succ]; have := Nat.one_le_two_pow (n := k); omega
    have hl : ¬ n = 1 - ((127 : ℕ) : ℤ) - 1 := by omega
    have h1 : 1 / 2 ^ (k + 2) = 0 := Nat.div_eq_of_lt (by omega)
    have h3 : 1 % 2 ^ (k + 2) = 1 := Nat.mod_eq_of_lt (by omega)
    have hz : (1 - ((127 : ℕ) : ℤ) - (1 - ((127 : ℕ) : ℤ))).toNat = 0 := by simp
    have hru : roundsUp rm false 0 1 (2 ^ (k + 2)) = decide (rm = .rup) := by
      cases rm <;> simp [roundsUp]
    simp only [hs, h1, h3, hz, hru, zero_mul, zero_add, decide_eq_true_eq]
    have hpf : 0 < 2 ^ f.fb := by positivity
    rw [if_neg (by split <;> omega)]
    have ha : n < -126 := by omega
    have hb' : ¬ n = -127 := by omega
    simp [ha, hb']
  exact ⟨fun h => (up n h).trans (up 2000 (by norm_num)).symm, fun h => (dn n h).trans (dn (-2000) (by norm_num)).symm⟩

theorem FFmt.exp2_exact (f : FFmt) (hf : f = fF32 ∨ f = fBf16) (rm : RMode) (u : Nat) (s : Bool) (n : ℤ) (h : f.num u = .fin s n) :
    f.gives rm (.fin false (2 ^ n)) (f.exp2 rm u) := by
  have hi : f.Ieee := by rcases hf with rfl | rfl <;> simp [FFmt.Ieee, fF32, fBf16, FFmt.width]
  rw [← f.num_read hi] at h
  have hfin : ∀ n : ℤ, f.gives rm (.fin false (2 ^ n)) (f.roundRat rm false 1 1 n) := fun n =>
    f.roundRat_gives hi rm false 1 1 n _ one_pos one_pos (by simp) false
  cases hr : f.read u with
  | nan t => simp [hr, FVal.num] at h
  | inf t => simp [hr, FVal.num] at h
  | fin t m e =>
    simp only [hr, FVal.num, Exact.fin.injEq] at h
    obtain ⟨rfl, h⟩ := h
    rw [← Dyad.ofSM_val] at h
    have he : (Dyad.ofSM t m e).e = e := rfl
    rw [he] at h
    set d := Dyad.ofSM t m e with hd
    suffices hres : f.exp2 rm u = f.roundRat rm false 1 1 (if n > 2000 then 2000 else if n < -2000 then -2000 else n) by
      rw [hres]
      split
      · rename_i hn
        rw [← (f.roundRat_far hf rm n).1 hn.le]; exact hfin n
      · split
        · rename_i hn
          rw [← (f.roundRat_far hf rm n).2 hn.le]; exact hfin n
        · exact hfin n
    unfold FFmt.exp2
    rw [hr]
    simp only [← hd]
    by_cases h0 : 0 ≤ e
    · obtain ⟨k, rfl⟩ := Int.eq_ofNat_of_zero_le h0
      have hn : n = d.n * 2 ^ k := by
        rw [zpow_natCast] at h; exact_mod_cast h.symm
      simp only [ge_iff_le, h0, if_true, Int.toNat_natCast]
      congr 1
      by_cases hm : m = 0
      · have : d.n = 0 := by rw [hd]; simp [Dyad.ofSM, hm]
        simp [hm, hn, this]
      · by_cases h12 : (k : ℤ) > 12
        · have hk : 2 ^ 12 ≤ 2 ^ k := Nat.pow_le_pow_right (by norm_num) (by omega)
          have hkz : (2 : ℤ) ^ 12 ≤ 2 ^ k := by exact_mod_cast hk
          have hmz : (1 : ℤ) ≤ m := by omega
          have hmul : (2 : ℤ) ^ 12 ≤ m * 2 ^ k := by nlinarith
          simp only [hm, h12, if_false, if_true]
          cases t
          · have : n = m * 2 ^ k := by rw [hn, hd]; simp [Dyad.ofSM]
            rw [if_pos (show n > 2000 by omega)]; simp
          · have : n = -(m * 2 ^ k) := by rw [hn, hd]; simp [Dyad.ofSM]
            rw [if_neg (show ¬ n > 2000 by omega), if_pos (show n < -2000 by omega)]; simp
        · simp only [hm, h12, if_false, ← hn]
    · obtain ⟨k, hk⟩ := Int.eq_ofNat_of_zero_le (show 0 ≤ -e by omega)
      have hek : e = -(k : ℤ) := by omega
      have hden : (-e).toNat = k := by omega
      have hdn : d.n = n * 2 ^ k := by
        rw [hek, zpow_neg, zpow_natCast] at h
        have h2 : (2 : ℚ) ^ k ≠ 0 := by positivity
        have : (d.n : ℚ) = n * 2 ^ k := by field_simp at h; linarith
        exact_mod_cast this
      simp only [ge_iff_le, h0, if_false, hden]
      have hz : (2 : ℤ) ^ k ≠ 0 := by positivity
      have e1 : d.n / ((2 ^ k : ℕ) : ℤ) = n := by push_cast; rw [hdn, Int.mul_ediv_cancel _ hz]
      have e2 : (d.n % ((2 ^ k : ℕ) : ℤ)).toNat = 0 := by push_cast; rw [hdn, Int.mul_emod_left]; rfl
      simp only [e1, e2, if_true]

/-! ### Comparisons and reductions -/

theorem FVal.sig_nan (a : FVal) (h : a.isNan = false) : a.isSig = false := by cases a <;> simp_all [FVal.isSig, FVal.isNan]
theorem Exact.lt_nan (x y : Exact) (h : x.isNan = true ∨ y.isNan = true) : ¬ x.lt y := by
  cases x <;> cases y <;> simp_all [Exact.lt, Exact.isNan]

theorem fpCmp_num (f : FFmt) (hf : f.Ieee) (c : VCond) (u v : Nat) :
    ((fpCmp f c u v).1 = true ↔ (f.num u).rel c (f.num v)) ∧ (fpCmp f c u v).2 = (f.num u).relInvalid c (f.num v) := by
  simp only [← f.num_read hf, fpCmp]
  generalize f.read u = a, f.read v = b
  refine ⟨?_, by cases c <;> simp [Exact.relInvalid, FVal.num_isNan, FVal.num_isSig]⟩
  by_cases h : a.isNan = false ∧ b.isNan = false
  · cases c <;> simp [Exact.rel, FVal.num_isNan, h.1, h.2, ← a.lt_num b h.1 h.2, ← b.lt_num a h.2 h.1, FVal.eqv]
  · have hn : (a.isNan || b.isNan) = true := by cases ha : a.isNan <;> simp_all
    have hn' : a.num.isNan = true ∨ b.num.isNan = true := by simpa [FVal.num_isNan] using hn
    have hn2 : b.num.isNan = true ∨ a.num.isNan = true := hn'.symm
    have he : a.eqv b = false := by cases ha : a.isNan <;> simp_all [FVal.eqv]
    cases c <;> simp [Exact.rel, hn, hn', he, a.num.lt_nan b.num hn', b.num.lt_nan a.num hn2]

/-- The exact sum of readings under R89, rounded once. -/
theorem FFmt.sum_total_fval (f : FFmt) (hf : f.Ieee) (rm : RMode) (ts : List FVal) (hne' : ts ≠ []) :
    f.gives rm (Exact.total rm (ts.map FVal.num)) (f.sum .r89 rm ts) := by
  have hinf (s : Bool) : (ts.any fun t => t == .inf s) = decide (Exact.inf s ∈ ts.map FVal.num) := by
    rw [Bool.eq_iff_iff, List.any_eq_true, decide_eq_true_eq, List.mem_map]
    constructor
    · rintro ⟨t, ht, h⟩; exact ⟨t, ht, by rw [beq_iff_eq.1 h]; rfl⟩
    · rintro ⟨t, ht, h⟩; refine ⟨t, ht, ?_⟩; cases t <;> simp_all [FVal.num]
  have hnan : (ts.map FVal.num).any Exact.isNan = ts.any FVal.isNan := by
    rw [List.any_map]; congr 1; funext x; exact x.num_isNan
  have hsig : (ts.map FVal.num).any Exact.isSig = ts.any FVal.isSig := by
    rw [List.any_map]; congr 1; funext x; exact x.num_isSig
  by_cases h1 : (ts.any FVal.isNan || (decide (Exact.inf false ∈ ts.map FVal.num) && decide (Exact.inf true ∈ ts.map FVal.num))) = true
  · have h2 : f.sum .r89 rm ts = ⟨f.nan, Flags.sig (ts.any FVal.isSig || (decide (Exact.inf false ∈ ts.map FVal.num) && decide (Exact.inf true ∈ ts.map FVal.num)))⟩ := by
      unfold FFmt.sum; simp only [hinf]; rw [if_pos h1]
    have h3 : Exact.total rm (ts.map FVal.num) = .nan (ts.any FVal.isSig || (decide (Exact.inf false ∈ ts.map FVal.num) && decide (Exact.inf true ∈ ts.map FVal.num))) := by
      unfold Exact.total; simp only [hnan, hsig, Bool.decide_and]; rw [if_pos (by simpa using h1)]
    rw [h2, h3]; rfl
  · have h4 : ¬ (ts.any FVal.isNan = true ∨ decide (Exact.inf false ∈ ts.map FVal.num ∧ Exact.inf true ∈ ts.map FVal.num) = true) := by
      simpa using h1
    unfold Exact.total
    simp only [hnan, Bool.or_eq_true]
    rw [if_neg h4]
    by_cases hp : Exact.inf false ∈ ts.map FVal.num
    · have : f.sum .r89 rm ts = ⟨f.inf false, Flags.none⟩ := by
        unfold FFmt.sum; simp only [hinf]; rw [if_neg h1]; simp [hp]
      rw [if_pos hp, this]; rfl
    · rw [if_neg hp]
      by_cases hn : Exact.inf true ∈ ts.map FVal.num
      · have : f.sum .r89 rm ts = ⟨f.inf true, Flags.none⟩ := by
          unfold FFmt.sum; simp only [hinf]; rw [if_neg h1]; simp [hp, hn]
        rw [if_pos hn, this]; rfl
      · rw [if_neg hn]
        have hfin : ∀ t ∈ ts, ∃ s m e, t = .fin s m e := by
          intro t ht
          cases t with
          | nan s => exfalso; apply h4; left; exact List.any_eq_true.2 ⟨_, ht, rfl⟩
          | inf s => exfalso; cases s
                     · exact hp (List.mem_map.2 ⟨_, ht, rfl⟩)
                     · exact hn (List.mem_map.2 ⟨_, ht, rfl⟩)
          | fin s m e => exact ⟨s, m, e, rfl⟩
        rw [f.sum_fin _ _ _ hfin]
        have hv := exactSum_val ts
        have hsum : ((ts.map FVal.num).map Exact.rat).sum = (ts.map FVal.rat).sum := by
          rw [List.map_map]; congr 1; apply List.map_congr_left; intro t ht
          obtain ⟨s, m, e, rfl⟩ := hfin t ht; rfl
        rw [hsum, ← hv]
        by_cases h0 : (exactSum ts).n = 0
        · rw [if_pos h0]
          have hz : ((exactSum ts).n : ℚ) * 2 ^ (exactSum ts).e = 0 := by rw [h0]; simp
          rw [FFmt.gives, if_pos hz]
          congr 2
          rw [hv] at hz
          have hall : (ts.map FVal.num).all Exact.negative = (ts.all fun t => t.isZero && t.neg?) := by
            rw [List.all_map]
            by_cases ha : ts.all (Exact.negative ∘ FVal.num) = true
            · rw [ha]; symm
              rw [List.all_eq_true] at ha ⊢
              have hle : ∀ q ∈ ts.map FVal.rat, q ≤ 0 := by
                intro q hq
                obtain ⟨t, ht, rfl⟩ := List.mem_map.1 hq
                obtain ⟨s, m, e, rfl⟩ := hfin t ht
                have hs : s = true := ha _ ht
                have := two_zpow_pos e
                have : (0 : ℚ) ≤ m * 2 ^ e := by positivity
                simp only [FVal.rat, hs, if_true]; linarith
              have hnp : ∀ l : List ℚ, (∀ q ∈ l, q ≤ 0) → l.sum ≤ 0 := by
                intro l
                induction l with
                | nil => simp
                | cons a l ih => intro h; rw [List.sum_cons]; linarith [h a (by simp), ih fun x hx => h x (by simp [hx])]
              have hall0 : ∀ q ∈ ts.map FVal.rat, q = 0 := by
                have : ∀ l : List ℚ, (∀ q ∈ l, q ≤ 0) → l.sum = 0 → ∀ q ∈ l, q = 0 := by
                  intro l
                  induction l with
                  | nil => simp
                  | cons a l ih =>
                    intro h hs q hq
                    rw [List.sum_cons] at hs
                    have h1 := h a (by simp)
                    have h2 : l.sum ≤ 0 := hnp l fun x hx => h x (by simp [hx])
                    rcases List.mem_cons.1 hq with rfl | hq
                    · linarith
                    · exact ih (fun x hx => h x (by simp [hx])) (by linarith) q hq
                exact this _ hle hz
              intro t ht
              obtain ⟨s, m, e, rfl⟩ := hfin t ht
              have hs : s = true := ha _ ht
              have h0 := hall0 _ (List.mem_map.2 ⟨_, ht, rfl⟩)
              have hm : m = 0 := (signed_zero ..).1 h0
              simp [FVal.isZero, FVal.neg?, hs, hm]
            · rw [Bool.not_eq_true] at ha
              rw [ha]; symm
              rw [List.all_eq_false] at ha ⊢
              obtain ⟨t, ht, h⟩ := ha
              refine ⟨t, ht, ?_⟩
              rw [Function.comp_apply, FVal.num_negative] at h
              simp [h]
          rw [hall]
          have hemp : ts.isEmpty = false := by simpa using hne'
          unfold zeroSign
          simp only [hemp]
          rw [Bool.or_comm]
          cases rm <;> simp
        · rw [if_neg h0]
          exact f.roundDyad_gives hf rm _ h0 _

theorem FFmt.sum_total (f : FFmt) (hf : f.Ieee) (rm : RMode) (cs : List Nat) (hne : cs ≠ []) :
    f.gives rm (Exact.total rm (cs.map f.num)) (f.sum .r89 rm (cs.map f.read)) := by
  have hnum : cs.map f.num = (cs.map f.read).map FVal.num := by rw [List.map_map]; congr 1; funext x; exact (f.num_read hf x).symm
  rw [hnum]; exact f.sum_total_fval hf rm _ (by simpa using hne)

/-- Not before is transitive among numbers that are no NaN. -/
theorem Exact.not_before_trans (a b c : Exact) (ha : a.isNan = false) (hb : b.isNan = false) (hc : c.isNan = false)
    (h1 : ¬ a.before b) (h2 : ¬ b.before c) : ¬ a.before c := by
  cases a with
  | nan s => simp [Exact.isNan] at ha
  | inf s => cases b with
    | nan s => simp [Exact.isNan] at hb
    | inf t => cases c with
      | nan s => simp [Exact.isNan] at hc
      | inf r => cases s <;> cases t <;> cases r <;> simp_all [Exact.before, Exact.lt, Exact.negative]
      | fin r q => cases s <;> cases t <;> cases r <;> simp_all [Exact.before, Exact.lt, Exact.negative]
    | fin t p => cases c with
      | nan s => simp [Exact.isNan] at hc
      | inf r => cases s <;> cases t <;> cases r <;> simp_all [Exact.before, Exact.lt, Exact.negative]
      | fin r q => cases s <;> cases t <;> cases r <;> simp_all [Exact.before, Exact.lt, Exact.negative]
  | fin s o => cases b with
    | nan s => simp [Exact.isNan] at hb
    | inf t => cases c with
      | nan s => simp [Exact.isNan] at hc
      | inf r => cases s <;> cases t <;> cases r <;> simp_all [Exact.before, Exact.lt, Exact.negative]
      | fin r q => cases s <;> cases t <;> cases r <;> simp_all [Exact.before, Exact.lt, Exact.negative]
    | fin t p => cases c with
      | nan s => simp [Exact.isNan] at hc
      | inf r => cases s <;> cases t <;> cases r <;> simp_all [Exact.before, Exact.lt, Exact.negative]
      | fin r q =>
        cases s <;> cases t <;> cases r <;> simp_all [Exact.before, Exact.lt, Exact.negative] <;>
          first | linarith | (constructor <;> linarith)

theorem Exact.before_irrefl (a : Exact) : ¬ a.before a := by
  cases a <;> simp [Exact.before, Exact.lt]

theorem FFmt.num_nan (f : FFmt) (hf : f.Ieee) : (f.num f.nan).isNan = true ∧ (f.num f.nan).isSig = false := by
  have hp : 0 < 2 ^ (f.fb - 1) := by positivity
  obtain ⟨b, hb⟩ : ∃ b, f.fb = b + 1 := ⟨f.fb - 1, by have := hf.2.2.1; omega⟩
  have hpe : 1 < 2 ^ f.eb := Nat.one_lt_two_pow (by have := hf.2.2.2; omega)
  have hlt : f.nan < 2 ^ (f.eb + f.fb) := by
    unfold FFmt.nan
    rw [pow_add, hb, pow_succ, show b + 1 - 1 = b by omega]
    obtain ⟨e, he⟩ : ∃ e, 2 ^ f.eb = e + 1 := ⟨2 ^ f.eb - 1, by omega⟩
    have : 0 < 2 ^ b := by positivity
    rw [he, Nat.add_sub_cancel, add_mul]; omega
  have hdiv : f.nan / 2 ^ (f.fb - 1) % 2 = 1 := by
    unfold FFmt.nan
    rw [hb, pow_succ, show b + 1 - 1 = b by omega]
    have : (2 ^ f.eb - 1) * (2 ^ b * 2) + 2 ^ b = 2 ^ b * (2 * (2 ^ f.eb - 1) + 1) := by ring
    rw [this, Nat.mul_div_cancel_left _ (by positivity)]; omega
  have htop : (2 ^ f.eb - 1) * 2 ^ f.fb < f.nan := by unfold FFmt.nan; omega
  unfold FFmt.num
  simp only [hf.1, Nat.mod_eq_of_lt hlt, hdiv, htop, if_true, Exact.isNan, Exact.isSig]
  simp

theorem FFmt.extreme_of (f : FFmt) (hf : f.Ieee) (x : Bool) (cs : List Nat) (hne : cs ≠ []) : f.extremeOf x cs (f.extreme x cs) := by
  have sn (c : Nat) (h : (f.num c).isNan = false) : (f.num c).isSig = false := by
    cases hc : f.num c <;> simp_all [Exact.isNan, Exact.isSig]
  have hnan := f.num_nan hf
  have bn (a b : Exact) (h : a.before b) (hb : b.before a) : False := by
    cases a with
    | nan s => cases b <;> simp_all [Exact.before, Exact.lt, Exact.negative]
    | inf s => cases b with
      | nan t => simp_all [Exact.before, Exact.lt, Exact.negative]
      | inf t => cases s <;> cases t <;> simp_all [Exact.before, Exact.lt, Exact.negative]
      | fin t q => cases s <;> cases t <;> simp_all [Exact.before, Exact.lt, Exact.negative]
    | fin s p => cases b with
      | nan t => simp_all [Exact.before, Exact.lt, Exact.negative]
      | inf t => cases s <;> cases t <;> simp_all [Exact.before, Exact.lt, Exact.negative]
      | fin t q =>
        simp only [Exact.before, Exact.lt, Exact.negative] at h hb
        rcases h with h | h <;> rcases hb with hb | hb
        · linarith
        · exact hb.1 h
        · exact h.1 hb
        · simp_all
  induction cs with
  | nil => exact absurd rfl hne
  | cons a as ih =>
    cases as with
    | nil =>
      unfold FFmt.extreme
      rw [← FVal.num_isNan, ← FVal.num_isSig, f.num_read hf]
      by_cases h : (f.num a).isNan = true
      · rw [if_pos h]; simp [FFmt.extremeOf, h]
      · rw [if_neg h]
        rw [Bool.not_eq_true] at h
        refine ⟨by simp [sn a h, Flags.sig, Flags.none], by simp [h], fun _ => ⟨by simp, h, ?_⟩⟩
        intro c hc _
        obtain rfl := List.mem_singleton.1 hc
        split <;> exact Exact.before_irrefl _
    | cons b bs =>
      obtain ⟨i1, i2, i3⟩ := ih (by simp)
      set r := f.extreme x (b :: bs) with hr
      have hdef : f.extreme x (a :: b :: bs) = ⟨(f.minMax x a r.bits).bits, (f.minMax x a r.bits).flags.or r.flags⟩ := rfl
      rw [hdef]
      have hsor (s t : Bool) : (Flags.sig s).or (Flags.sig t) = Flags.sig (s || t) := by simp [Flags.or, Flags.sig]
      have hnone : Flags.none = Flags.sig false := rfl
      rw [i1]
      by_cases hr' : ∃ c ∈ b :: bs, (f.num c).isNan = false
      · obtain ⟨j1, j2, j3⟩ := i3 hr'
        by_cases ha : (f.num a).isNan = true
        · rw [f.minMax_nan hf x a r.bits (.inl ha)]
          simp only [ha, j2, if_true, Bool.false_eq_true, if_false, hsor, sn _ j2, Bool.or_false]
          refine ⟨by simp [List.any_cons], fun h => ?_, fun _ => ⟨List.mem_cons_of_mem _ j1, j2, ?_⟩⟩
          · exact absurd (h _ (List.mem_cons_of_mem _ j1)) (by simp [j2])
          · intro c hc hcn
            rcases List.mem_cons.1 hc with rfl | hc
            · rw [ha] at hcn; simp at hcn
            · exact j3 c hc hcn
        · rw [Bool.not_eq_true] at ha
          rw [f.minMax_num hf x a r.bits ha j2, hnone, hsor]
          refine ⟨by simp [sn a ha], fun h => absurd (h a (by simp)) (by simp [ha]), fun _ => ?_⟩
          cases x with
          | true =>
            simp only [if_true] at j3 ⊢
            by_cases hb : (f.num a).before (f.num r.bits)
            · simp only [hb, if_true]
              refine ⟨List.mem_cons_of_mem _ j1, j2, fun c hc hcn => ?_⟩
              rcases List.mem_cons.1 hc with rfl | hc
              · exact fun h => bn _ _ hb h
              · exact j3 c hc hcn
            · simp only [hb, if_false]
              refine ⟨by simp, ha, fun c hc hcn => ?_⟩
              rcases List.mem_cons.1 hc with rfl | hc
              · exact Exact.before_irrefl _
              · exact Exact.not_before_trans _ _ _ ha j2 hcn hb (j3 c hc hcn)
          | false =>
            simp only [Bool.false_eq_true, if_false] at j3 ⊢
            by_cases hb : (f.num r.bits).before (f.num a)
            · simp only [hb, if_true]
              refine ⟨List.mem_cons_of_mem _ j1, j2, fun c hc hcn => ?_⟩
              rcases List.mem_cons.1 hc with rfl | hc
              · exact fun h => bn _ _ hb h
              · exact j3 c hc hcn
            · simp only [hb, if_false]
              refine ⟨by simp, ha, fun c hc hcn => ?_⟩
              rcases List.mem_cons.1 hc with rfl | hc
              · exact Exact.before_irrefl _
              · exact Exact.not_before_trans _ _ _ hcn j2 ha (j3 c hc hcn) hb
      · have hall : ∀ c ∈ b :: bs, (f.num c).isNan = true := by
          intro c hc
          by_contra h
          exact hr' ⟨c, hc, by simpa using h⟩
        have hb := i2 hall
        rw [f.minMax_nan hf x a r.bits (.inr (by rw [hb]; exact hnan.1)), hsor, hb, hnan.1, hnan.2]
        by_cases ha : (f.num a).isNan = true
        · simp only [ha, if_true, Bool.or_false]
          refine ⟨by simp, fun _ => rfl, ?_⟩
          rintro ⟨c, hc, h⟩
          rcases List.mem_cons.1 hc with rfl | hc
          · simp [ha] at h
          · simp [hall c hc] at h
        · rw [Bool.not_eq_true] at ha
          simp only [ha, Bool.false_eq_true, if_false, Bool.or_false]
          refine ⟨by simp, fun h => absurd (h a (by simp)) (by simp [ha]), fun _ => ⟨by simp, ha, fun c hc hcn => ?_⟩⟩
          rcases List.mem_cons.1 hc with rfl | hc
          · split <;> exact Exact.before_irrefl _
          · simp [hall c hc] at hcn

theorem f32_ieee : fF32.Ieee := by simp [FFmt.Ieee, fF32, FFmt.width]
theorem bf16_ieee : fBf16.Ieee := by simp [FFmt.Ieee, fBf16, FFmt.width]

theorem FFmt.minMax_chooses (f : FFmt) (hf : f.Ieee) (x : Bool) (u v : Nat) : f.chooses x u v (f.minMax x u v) := by
  unfold FFmt.chooses
  by_cases h : (f.num u).isNan = true ∨ (f.num v).isNan = true
  · rw [f.minMax_nan hf x u v h]
    refine ⟨rfl, ?_, ?_, ?_⟩
    · intro h; simp [h]
    · intro h1 h2; simp [h1]
    · intro h1 h2; simp_all
  · have h1 : (f.num u).isNan = false := by simpa using (not_or.1 h).1
    have h2 : (f.num v).isNan = false := by simpa using (not_or.1 h).2
    have sn (c : Exact) (h : c.isNan = false) : c.isSig = false := by cases hc : c <;> simp_all [Exact.isNan, Exact.isSig]
    rw [f.minMax_num hf x u v h1 h2]
    refine ⟨by simp [sn _ h1, sn _ h2, Flags.none, Flags.sig], by simp [h1], by simp [h2], fun _ _ => ?_⟩
    cases x <;> simp <;> tauto

theorem FFmt.toIntRange_toInteger (f : FFmt) (hf : f.Ieee) (rm : RMode) (lo hi : ℤ) (u : Nat) :
    f.toInteger rm lo hi u ⟨BitVec.ofInt 32 (f.toIntRange rm lo hi u).1, (f.toIntRange rm lo hi u).2⟩ := by
  unfold FFmt.toInteger
  cases h : f.num u with
  | nan s =>
    rw [← f.num_read hf] at h
    cases hr : f.read u <;> simp_all [FVal.num, FFmt.toIntRange]
  | inf s =>
    rw [← f.num_read hf] at h
    cases hr : f.read u <;> simp_all [FVal.num, FFmt.toIntRange]
  | fin s q =>
    obtain ⟨i, h1, h2⟩ := f.toIntRange_rounds hf rm lo hi u s q h
    refine ⟨i, h1, ?_⟩
    rw [h2]
    by_cases hl : i < lo
    · simp [hl]
    · by_cases hh : hi < i <;> simp [hl, hh]

theorem flatMap_if {α β} (l : List α) (p : α → Bool) (g : α → List β) :
    (l.flatMap fun i => if p i = true then g i else []) = (l.filter p).flatMap g := by
  induction l with
  | nil => rfl
  | cons a l ih => by_cases h : p a = true <;> simp [h, ih]

theorem redCodes_one (ty : VType) (h : ty ≠ .bf16p) (e : Word) (x : Vec) : redCodes ty e x = (lanesIn e x).map BitVec.toNat := by
  unfold redCodes lanesIn
  simp only [h, if_false, laneOn]
  rw [flatMap_if, List.map_map]
  induction (List.finRange 32).filter fun i => e.getLsbD i.val with
  | nil => rfl
  | cons a l ih => rw [List.flatMap_cons, ih]; rfl
theorem redCodes_two (e : Word) (x : Vec) : redCodes .bf16p e x = halves (lanesIn e x) := by
  unfold redCodes lanesIn halves
  simp only [if_true, laneOn]
  rw [flatMap_if, List.flatMap_map]
  rfl

theorem lanesIn_ne (e : Word) (x : Vec) (h : e ≠ 0) : lanesIn e x ≠ [] := by
  unfold lanesIn
  intro hn
  rw [List.map_eq_nil_iff, List.filter_eq_nil_iff] at hn
  apply h
  ext i hi
  have := hn ⟨i, hi⟩ (List.mem_finRange _)
  simpa [BitVec.getLsbD_eq_getElem hi] using this

/-- What folds a choice of the lesser of two along a list is an element that none is below. -/
theorem foldl_extreme (f : Word → Word → Word) (le : Word → Word → Prop) (hrefl : ∀ a, le a a) (htr : ∀ a b c, le a b → le b c → le a c)
    (hf : ∀ a b, (f a b = a ∨ f a b = b) ∧ le (f a b) a ∧ le (f a b) b) (w : Word) (ws : List Word) :
    ws.foldl f w ∈ w :: ws ∧ ∀ v ∈ w :: ws, le (ws.foldl f w) v := by
  induction ws generalizing w with
  | nil => simp [hrefl]
  | cons a as ih =>
    obtain ⟨h1, h2⟩ := ih (f w a)
    simp only [List.foldl_cons]
    constructor
    · rcases List.mem_cons.1 h1 with h | h
      · rw [h]; rcases (hf w a).1 with h' | h' <;> simp [h']
      · simp [h]
    · intro v hv
      have h3 := h2 (f w a) (by simp)
      rcases List.mem_cons.1 hv with rfl | hv
      · exact htr _ _ _ h3 (hf _ _).2.1
      · rcases List.mem_cons.1 hv with rfl | hv
        · exact htr _ _ _ h3 (hf _ _).2.2
        · exact h2 v (by simp [hv])

end Sys2Proof.Machine
end

