-- ==== Sys2Proof/Laws/Memory.lean ====
section
/-! SUPPORT. What the memory operations do: reads after writes, and that every write keeps the canonical form. -/

namespace Sys2Proof.Machine

@[simp] theorem Memory.read_nil (a : Nat) : Memory.read [] a = 0 := rfl

/-- A memory is canonical when its first entry is not blank, lies below all others, and the rest is canonical. -/
theorem Memory.wf_cons (k : Nat) (b : Byte) (m : Memory) :
    Memory.wf ((k, b) :: m) = true ↔ b ≠ 0 ∧ (∀ e ∈ m, k < e.1) ∧ Memory.wf m = true := by
  induction m generalizing k b with
  | nil => simp [Memory.wf, Memory.blank]
  | cons e m ih =>
    obtain ⟨l, c⟩ := e
    have h := ih l c
    simp only [Memory.wf, Memory.blank, Bool.and_eq_true, bne_iff_ne, decide_eq_true_eq, List.mem_cons, forall_eq_or_imp]
    constructor
    · rintro ⟨⟨h1, h2⟩, h3⟩
      exact ⟨h1, ⟨h2, fun e he => Nat.lt_trans h2 ((h.1 h3).2.1 e he)⟩, h3⟩
    · rintro ⟨h1, ⟨h2, -⟩, h3⟩
      exact ⟨⟨h1, h2⟩, h3⟩

/-- Below its first address a canonical memory reads as blank. -/
theorem Memory.read_below (m : Memory) (a : Nat) (h : ∀ e ∈ m, a < e.1) : m.read a = 0 := by
  induction m with
  | nil => rfl
  | cons e m ih =>
    have h1 := h e (by simp)
    simp only [Memory.read]
    rw [if_neg (by omega)]
    exact ih fun e he => h e (by simp [he])

/-- Every entry of a memory after a write is the written one or was there before. -/
theorem Memory.mem_write {m : Memory} {a : Nat} {b : Byte} {e : Nat × Byte} (h : e ∈ m.write a b) : e = (a, b) ∨ e ∈ m := by
  induction m with
  | nil =>
    simp only [Memory.write] at h
    split at h <;> simp_all
  | cons f m ih =>
    simp only [Memory.write] at h
    split at h
    · split at h <;> simp_all
    · split at h
      · split at h
        · exact .inr (by simp [h])
        · simp only [List.mem_cons] at h ⊢
          rcases h with h | h <;> simp [h]
      · simp only [List.mem_cons] at h ⊢
        rcases h with h | h
        · simp [h]
        · rcases ih h with h | h <;> simp [h]

/-- A write keeps the canonical form. -/
theorem Memory.wf_write {m : Memory} (a : Nat) (b : Byte) (h : m.wf = true) : (m.write a b).wf = true := by
  induction m with
  | nil =>
    simp only [Memory.write]
    split
    · rfl
    · simp_all [Memory.wf]
  | cons e m ih =>
    obtain ⟨k, c⟩ := e
    obtain ⟨h1, h2, h3⟩ := (Memory.wf_cons k c m).1 h
    simp only [Memory.write]
    split
    · split
      · exact h
      · rename_i hlt hb
        refine (Memory.wf_cons _ _ _).2 ⟨hb, ?_, h⟩
        intro e he
        rcases List.mem_cons.1 he with rfl | he
        · exact hlt
        · exact Nat.lt_trans hlt (h2 e he)
    · split
      · split
        · exact h3
        · rename_i hnlt heq hb
          subst heq
          exact (Memory.wf_cons _ _ _).2 ⟨hb, h2, h3⟩
      · rename_i hnlt hne
        refine (Memory.wf_cons _ _ _).2 ⟨h1, ?_, ih h3⟩
        intro e he
        rcases Memory.mem_write he with rfl | he
        · show k < a
          omega
        · exact h2 e he

/-- Reading after a write gives the byte written there, and elsewhere what was there. -/
theorem Memory.read_write {m : Memory} (a : Nat) (b : Byte) (x : Nat) (h : m.wf = true) :
    (m.write a b).read x = if x = a then b else m.read x := by
  induction m with
  | nil =>
    simp only [Memory.write]
    split
    · rename_i hb; split <;> simp_all [Memory.read, Memory.blank]
    · simp only [Memory.read, Memory.blank]
      split <;> split <;> simp_all
  | cons e m ih =>
    obtain ⟨k, c⟩ := e
    obtain ⟨h1, h2, h3⟩ := (Memory.wf_cons k c m).1 h
    simp only [Memory.write]
    split
    · rename_i hlt
      split
      · rename_i hb
        split
        · subst_vars
          exact Memory.read_below _ _ (by
            intro e he
            rcases List.mem_cons.1 he with rfl | he
            · exact hlt
            · exact Nat.lt_trans hlt (h2 e he))
        · rfl
      · show (if a = x then b else Memory.read ((k, c) :: m) x) = _
        by_cases hx : x = a
        · rw [if_pos hx, if_pos hx.symm]
        · rw [if_neg hx, if_neg (Ne.symm hx)]
    · split
      · rename_i heq
        subst heq
        split
        · rename_i hb
          split
          · subst_vars; exact Memory.read_below _ _ h2
          · simp only [Memory.read]; rw [if_neg (by omega)]
        · simp only [Memory.read]
          by_cases hx : x = a
          · rw [if_pos hx, if_pos hx.symm]
          · rw [if_neg hx, if_neg (Ne.symm hx), if_neg (Ne.symm hx)]
      · simp only [Memory.read]
        rw [ih h3]
        by_cases hx : x = a
        · rw [if_pos hx, if_pos hx, if_neg (by omega)]
        · rw [if_neg hx, if_neg hx]

theorem Memory.read_write_self {m : Memory} (a : Nat) (b : Byte) (h : m.wf = true) : (m.write a b).read a = b := by
  simp [Memory.read_write a b a h]

theorem Memory.read_write_ne {m : Memory} {a x : Nat} (b : Byte) (hx : x ≠ a) (h : m.wf = true) :
    (m.write a b).read x = m.read x := by
  simp [Memory.read_write a b x h, hx]

/-- Writing bytes in order keeps the canonical form. -/
theorem Memory.wf_writeAll {m : Memory} (l : List (Nat × Byte)) (h : m.wf = true) : (m.writeAll l).wf = true := by
  induction l generalizing m with
  | nil => exact h
  | cons e l ih => exact ih (Memory.wf_write _ _ h)

/-- A byte that none of the writes names keeps its value. -/
theorem Memory.read_writeAll_ne {m : Memory} (l : List (Nat × Byte)) (x : Nat) (h : m.wf = true) (hx : ∀ e ∈ l, e.1 ≠ x) :
    (m.writeAll l).read x = m.read x := by
  induction l generalizing m with
  | nil => rfl
  | cons e l ih =>
    show ((m.write e.1 e.2).writeAll l).read x = _
    rw [ih (Memory.wf_write _ _ h) fun f hf => hx f (by simp [hf]), Memory.read_write_ne _ (fun hxa => hx e (by simp) hxa.symm) h]

/-- Of several writes to one address the last stands. -/
theorem Memory.read_writeAll_last {m : Memory} (l r : List (Nat × Byte)) (a : Nat) (b : Byte) (h : m.wf = true)
    (hr : ∀ e ∈ r, e.1 ≠ a) : (m.writeAll (l ++ (a, b) :: r)).read a = b := by
  induction l generalizing m with
  | nil =>
    show ((m.write a b).writeAll r).read a = b
    rw [Memory.read_writeAll_ne r a (Memory.wf_write _ _ h) hr, Memory.read_write_self a b h]
  | cons e l ih => exact ih (Memory.wf_write _ _ h)

theorem numbered_fst_ge {a : Nat} {bs : List Byte} {e : Nat × Byte} (h : e ∈ numbered a bs) : a ≤ e.1 ∧ e.1 < a + bs.length := by
  induction bs generalizing a with
  | nil => simp [numbered] at h
  | cons b bs ih =>
    simp only [numbered, List.mem_cons] at h
    rcases h with rfl | h
    · simp
    · have := ih h
      simp only [List.length_cons]
      omega

theorem Memory.wf_writeN {m : Memory} (a : Nat) (bs : List Byte) (h : m.wf = true) : (m.writeN a bs).wf = true :=
  Memory.wf_writeAll _ h

/-- Consecutive bytes written: every other byte stays. -/
theorem Memory.read_writeN_out {m : Memory} (a : Nat) (bs : List Byte) (x : Nat) (h : m.wf = true)
    (hx : x < a ∨ a + bs.length ≤ x) : (m.writeN a bs).read x = m.read x := by
  refine Memory.read_writeAll_ne _ x h fun e he => ?_
  have := numbered_fst_ge he
  omega

/-- Consecutive bytes written: each reads back. -/
theorem Memory.read_writeN_in {m : Memory} (a : Nat) (bs : List Byte) (i : Nat) (h : m.wf = true) (hi : i < bs.length) :
    (m.writeN a bs).read (a + i) = bs[i] := by
  induction bs generalizing m a i with
  | nil => simp at hi
  | cons b bs ih =>
    show ((m.write a b).writeN (a + 1) bs).read (a + i) = _
    cases i with
    | zero =>
      show ((m.write a b).writeN (a + 1) bs).read a = b
      rw [Memory.read_writeN_out (a + 1) bs a (Memory.wf_write _ _ h) (.inl (by omega)), Memory.read_write_self a b h]
    | succ i =>
      have := ih (m := m.write a b) (a + 1) i (Memory.wf_write _ _ h) (by simpa using hi)
      rw [show a + (i + 1) = a + 1 + i by omega, this]
      rfl

theorem Memory.readN_length (m : Memory) (a n : Nat) : (m.readN a n).length = n := by
  induction n generalizing a with
  | zero => rfl
  | succ n ih => simp [Memory.readN, ih]

theorem Memory.readN_getElem (m : Memory) (a n i : Nat) (h : i < (m.readN a n).length) : (m.readN a n)[i] = m.read (a + i) := by
  induction n generalizing a i with
  | zero => simp [Memory.readN] at h
  | succ n ih =>
    cases i with
    | zero => rfl
    | succ i =>
      simp only [Memory.readN, List.getElem_cons_succ]
      rw [ih]
      congr 1
      omega

/-- Bytes written together read back together. -/
theorem Memory.readN_writeN {m : Memory} (a : Nat) (bs : List Byte) (h : m.wf = true) : (m.writeN a bs).readN a bs.length = bs := by
  refine List.ext_getElem (Memory.readN_length _ _ _) fun i h1 h2 => ?_
  rw [Memory.readN_getElem, Memory.read_writeN_in a bs i h h2]

end Sys2Proof.Machine
end

