-- ==== Sys2Proof/Laws/State.lean ====
section
/-! SUPPORT. What each update of the state leaves as it was, field by field, and reads after writes of keyed lists, vectors,
tiles, contexts and ports. -/

namespace Sys2Proof.Machine

/-! ### Keyed lists and vectors -/

@[simp] theorem alGet_alSet_self {α : Type} (l : List (Nat × α)) (k : Nat) (x d : α) : alGet (alSet l k x) k d = x := by
  induction l with
  | nil => simp [alSet, alGet]
  | cons e l ih =>
    simp only [alSet]
    split
    · simp [alGet]
    · split
      · simp [alGet]
      · rw [alGet, if_neg (by omega), ih]

theorem alGet_alSet_ne {α : Type} (l : List (Nat × α)) {k j : Nat} (x d : α) (h : j ≠ k) :
    alGet (alSet l k x) j d = alGet l j d := by
  induction l with
  | nil => simp [alSet, alGet, h.symm]
  | cons e l ih =>
    simp only [alSet]
    split
    · rw [alGet, if_neg h.symm]
    · split
      · rename_i hk
        rw [alGet, if_neg h.symm, alGet, if_neg (by omega)]
      · rw [alGet, alGet, ih]

theorem alGet_alDel_ne {α : Type} (l : List (Nat × α)) {k j : Nat} (d : α) (h : j ≠ k) :
    alGet (alDel l k) j d = alGet l j d := by
  induction l with
  | nil => rfl
  | cons e l ih =>
    obtain ⟨i, y⟩ := e
    by_cases hi : i = k
    · subst hi
      have : alDel ((i, y) :: l) i = alDel l i := by simp [alDel]
      rw [this, ih, alGet, if_neg h.symm]
    · have : alDel ((i, y) :: l) k = (i, y) :: alDel l k := by simp [alDel, hi]
      rw [this, alGet, alGet, ih]

@[simp] theorem vset_val_self {α : Type} {n : Nat} (v : Vector α n) (i : Fin n) (x : α) : (vset v i x)[i.val] = x := by
  simp [vset]

theorem vset_self {α : Type} {n : Nat} (v : Vector α n) (i : Fin n) (x : α) : (vset v i x)[i] = x :=
  vset_val_self v i x

theorem vset_get {α : Type} {n : Nat} (v : Vector α n) (i j : Fin n) (x : α) : (vset v i x)[j] = if j = i then x else v[j] := by
  by_cases h : j = i
  · subst h; rw [if_pos rfl, vset_self]
  · rw [if_neg h]
    simp only [vset, Fin.getElem_fin]
    exact Vector.getElem_set_ne _ _ fun e => h (Fin.ext e.symm)

theorem vset_ne {α : Type} {n : Nat} (v : Vector α n) {i j : Fin n} (x : α) (h : j ≠ i) : (vset v i x)[j] = v[j] := by
  rw [vset_get, if_neg h]

theorem vset_eq_self {α : Type} {n : Nat} (v : Vector α n) (i : Fin n) : vset v i v[i] = v := by
  simp [vset]

/-! ### Tiles, contexts and ports -/

@[simp] theorem State.tile_setTile (s : State) (t : TileId) (x : Tile) : (s.setTile t x).tile t = x := by
  simp [State.tile, State.setTile]

theorem State.tile_setTile_ne (s : State) {t u : TileId} (x : Tile) (h : u ≠ t) : (s.setTile t x).tile u = s.tile u := by
  simp [State.tile, State.setTile, alGet_alSet_ne _ _ _ h]

@[simp] theorem State.tile_modTile (s : State) (t : TileId) (f : Tile → Tile) : (s.modTile t f).tile t = f (s.tile t) :=
  s.tile_setTile t _

theorem State.tile_modTile_ne (s : State) {t u : TileId} (f : Tile → Tile) (h : u ≠ t) : (s.modTile t f).tile u = s.tile u :=
  s.tile_setTile_ne _ h

@[simp] theorem Tile.ctx_modCtx (t : Tile) (c : Fin 4) (f : Context → Context) : (t.modCtx c f).ctx c = f (t.ctx c) := by
  simp [Tile.ctx, Tile.modCtx]

theorem Tile.ctx_modCtx_ne (t : Tile) {c d : Fin 4} (f : Context → Context) (h : d ≠ c) : (t.modCtx c f).ctx d = t.ctx d := by
  simp [Tile.ctx, Tile.modCtx, vset_ne _ _ h]

@[simp] theorem State.ctx_modTile (s : State) (t : TileId) (c : Fin 4) (f : Tile → Tile) :
    (s.modTile t f).ctx t c = (f (s.tile t)).ctx c := by
  simp [State.ctx]

theorem State.ctx_modTile_ne (s : State) {t u : TileId} (c : Fin 4) (f : Tile → Tile) (h : u ≠ t) :
    (s.modTile t f).ctx u c = s.ctx u c := by
  simp [State.ctx, State.tile_modTile_ne _ _ h]

@[simp] theorem State.tile_modCtx (s : State) (t : TileId) (c : Fin 4) (f : Context → Context) :
    (s.modCtx t c f).tile t = (s.tile t).modCtx c f := s.tile_modTile t _

theorem State.tile_modCtx_ne (s : State) {t u : TileId} (c : Fin 4) (f : Context → Context) (h : u ≠ t) :
    (s.modCtx t c f).tile u = s.tile u := s.tile_modTile_ne _ h

@[simp] theorem State.ctx_modCtx (s : State) (t : TileId) (c : Fin 4) (f : Context → Context) :
    (s.modCtx t c f).ctx t c = f (s.ctx t c) := by
  simp [State.ctx]

theorem State.ctx_modCtx_ne (s : State) {t u : TileId} {c d : Fin 4} (f : Context → Context) (h : u ≠ t ∨ d ≠ c) :
    (s.modCtx t c f).ctx u d = s.ctx u d := by
  by_cases ht : u = t
  · subst ht
    rcases h with h | h
    · exact absurd rfl h
    · simp [State.ctx, Tile.ctx_modCtx_ne _ _ h]
  · simp [State.ctx, State.tile_modCtx_ne _ _ _ ht]

@[simp] theorem State.port_modPort (s : State) (p : Fin 16) (f : Port → Port) : (s.modPort p f).port p = f (s.port p) := by
  simp [State.port, State.modPort]

theorem State.port_modPort_ne (s : State) {p q : Fin 16} (f : Port → Port) (h : q ≠ p) : (s.modPort p f).port q = s.port q := by
  simp [State.port, State.modPort, vset_ne _ _ h]

@[simp] theorem State.curTile_modCurTile (s : State) (f : Tile → Tile) : (s.modCurTile f).curTile = f s.curTile :=
  s.tile_modTile _ _
@[simp] theorem State.curCtx_modCur (s : State) (f : Context → Context) : (s.modCur f).curCtx = f s.curCtx :=
  s.ctx_modCtx _ _ _
@[simp] theorem State.curTile_modCur (s : State) (f : Context → Context) : (s.modCur f).curTile = s.curTile.modCtx s.cur.ctx f :=
  s.tile_modCtx _ _ _

/-! ### Fields that an update leaves as they were -/


@[simp] theorem State.setTile_now (s : State) (t : TileId) (x : Tile) : (s.setTile t x).now = s.now := rfl
@[simp] theorem State.setTile_ref (s : State) (t : TileId) (x : Tile) : (s.setTile t x).ref = s.ref := rfl
@[simp] theorem State.setTile_stage (s : State) (t : TileId) (x : Tile) : (s.setTile t x).stage = s.stage := rfl
@[simp] theorem State.setTile_failure (s : State) (t : TileId) (x : Tile) : (s.setTile t x).failure = s.failure := rfl
@[simp] theorem State.setTile_thr (s : State) (t : TileId) (x : Tile) : (s.setTile t x).thr = s.thr := rfl
@[simp] theorem State.setTile_thrPhase (s : State) (t : TileId) (x : Tile) : (s.setTile t x).thrPhase = s.thrPhase := rfl
@[simp] theorem State.setTile_hold (s : State) (t : TileId) (x : Tile) : (s.setTile t x).hold = s.hold := rfl
@[simp] theorem State.setTile_tsensf (s : State) (t : TileId) (x : Tile) : (s.setTile t x).tsensf = s.tsensf := rfl
@[simp] theorem State.setTile_tsensh (s : State) (t : TileId) (x : Tile) : (s.setTile t x).tsensh = s.tsensh := rfl
@[simp] theorem State.setTile_power (s : State) (t : TileId) (x : Tile) : (s.setTile t x).power = s.power := rfl
@[simp] theorem State.setTile_fuses (s : State) (t : TileId) (x : Tile) : (s.setTile t x).fuses = s.fuses := rfl
@[simp] theorem State.setTile_links (s : State) (t : TileId) (x : Tile) : (s.setTile t x).links = s.links := rfl
@[simp] theorem State.setTile_heap (s : State) (t : TileId) (x : Tile) : (s.setTile t x).heap = s.heap := rfl
@[simp] theorem State.setTile_heapBad (s : State) (t : TileId) (x : Tile) : (s.setTile t x).heapBad = s.heapBad := rfl
@[simp] theorem State.setTile_hbm (s : State) (t : TileId) (x : Tile) : (s.setTile t x).hbm = s.hbm := rfl
@[simp] theorem State.setTile_host (s : State) (t : TileId) (x : Tile) : (s.setTile t x).host = s.host := rfl
@[simp] theorem State.setTile_ports (s : State) (t : TileId) (x : Tile) : (s.setTile t x).ports = s.ports := rfl
@[simp] theorem State.setTile_tls (s : State) (t : TileId) (x : Tile) : (s.setTile t x).tls = s.tls := rfl
@[simp] theorem State.setTile_advances (s : State) (t : TileId) (x : Tile) : (s.setTile t x).advances = s.advances := rfl
@[simp] theorem State.setTile_deliveries (s : State) (t : TileId) (x : Tile) : (s.setTile t x).deliveries = s.deliveries := rfl
@[simp] theorem State.setTile_swarms (s : State) (t : TileId) (x : Tile) : (s.setTile t x).swarms = s.swarms := rfl
@[simp] theorem State.setTile_tmap (s : State) (t : TileId) (x : Tile) : (s.setTile t x).tmap = s.tmap := rfl
@[simp] theorem State.setTile_broodTaken (s : State) (t : TileId) (x : Tile) : (s.setTile t x).broodTaken = s.broodTaken := rfl
@[simp] theorem State.setTile_tmVer (s : State) (t : TileId) (x : Tile) : (s.setTile t x).tmVer = s.tmVer := rfl
@[simp] theorem State.setTile_broadcasts (s : State) (t : TileId) (x : Tile) : (s.setTile t x).broadcasts = s.broadcasts := rfl
@[simp] theorem State.setTile_migrations (s : State) (t : TileId) (x : Tile) : (s.setTile t x).migrations = s.migrations := rfl
@[simp] theorem State.setTile_missing (s : State) (t : TileId) (x : Tile) : (s.setTile t x).missing = s.missing := rfl
@[simp] theorem State.setTile_relays (s : State) (t : TileId) (x : Tile) : (s.setTile t x).relays = s.relays := rfl
@[simp] theorem State.setTile_edges (s : State) (t : TileId) (x : Tile) : (s.setTile t x).edges = s.edges := rfl
@[simp] theorem State.setTile_queues (s : State) (t : TileId) (x : Tile) : (s.setTile t x).queues = s.queues := rfl
@[simp] theorem State.setTile_slots (s : State) (t : TileId) (x : Tile) : (s.setTile t x).slots = s.slots := rfl
@[simp] theorem State.setTile_pendingQ (s : State) (t : TileId) (x : Tile) : (s.setTile t x).pendingQ = s.pendingQ := rfl
@[simp] theorem State.setTile_unmapped (s : State) (t : TileId) (x : Tile) : (s.setTile t x).unmapped = s.unmapped := rfl
@[simp] theorem State.setTile_recs (s : State) (t : TileId) (x : Tile) : (s.setTile t x).recs = s.recs := rfl
@[simp] theorem State.setTile_images (s : State) (t : TileId) (x : Tile) : (s.setTile t x).images = s.images := rfl
@[simp] theorem State.setTile_launches (s : State) (t : TileId) (x : Tile) : (s.setTile t x).launches = s.launches := rfl
@[simp] theorem State.setTile_nextLid (s : State) (t : TileId) (x : Tile) : (s.setTile t x).nextLid = s.nextLid := rfl
@[simp] theorem State.setTile_tlAfter (s : State) (t : TileId) (x : Tile) : (s.setTile t x).tlAfter = s.tlAfter := rfl
@[simp] theorem State.setTile_roots (s : State) (t : TileId) (x : Tile) : (s.setTile t x).roots = s.roots := rfl
@[simp] theorem State.setTile_moves (s : State) (t : TileId) (x : Tile) : (s.setTile t x).moves = s.moves := rfl
@[simp] theorem State.setTile_pageReqs (s : State) (t : TileId) (x : Tile) : (s.setTile t x).pageReqs = s.pageReqs := rfl
@[simp] theorem State.setTile_saves (s : State) (t : TileId) (x : Tile) : (s.setTile t x).saves = s.saves := rfl
@[simp] theorem State.setTile_ctl (s : State) (t : TileId) (x : Tile) : (s.setTile t x).ctl = s.ctl := rfl
@[simp] theorem State.setTile_fw (s : State) (t : TileId) (x : Tile) : (s.setTile t x).fw = s.fw := rfl
@[simp] theorem State.setTile_assists (s : State) (t : TileId) (x : Tile) : (s.setTile t x).assists = s.assists := rfl
@[simp] theorem State.setTile_nextAssist (s : State) (t : TileId) (x : Tile) : (s.setTile t x).nextAssist = s.nextAssist := rfl
@[simp] theorem State.setTile_bar2 (s : State) (t : TileId) (x : Tile) : (s.setTile t x).bar2 = s.bar2 := rfl
@[simp] theorem State.setTile_bar2Got (s : State) (t : TileId) (x : Tile) : (s.setTile t x).bar2Got = s.bar2Got := rfl
@[simp] theorem State.setTile_hostHeld (s : State) (t : TileId) (x : Tile) : (s.setTile t x).hostHeld = s.hostHeld := rfl
@[simp] theorem State.setTile_msix (s : State) (t : TileId) (x : Tile) : (s.setTile t x).msix = s.msix := rfl
@[simp] theorem State.setTile_free (s : State) (t : TileId) (x : Tile) : (s.setTile t x).free = s.free := rfl
@[simp] theorem State.setTile_cur (s : State) (t : TileId) (x : Tile) : (s.setTile t x).cur = s.cur := rfl
@[simp] theorem State.setTile_curPort (s : State) (t : TileId) (x : Tile) : (s.setTile t x).curPort = s.curPort := rfl
@[simp] theorem State.setTile_inputs (s : State) (t : TileId) (x : Tile) : (s.setTile t x).inputs = s.inputs := rfl
@[simp] theorem State.setTile_agenda (s : State) (t : TileId) (x : Tile) : (s.setTile t x).agenda = s.agenda := rfl

@[simp] theorem State.modTile_now (s : State) (t : TileId) (f : Tile → Tile) : (s.modTile t f).now = s.now := rfl
@[simp] theorem State.modTile_ref (s : State) (t : TileId) (f : Tile → Tile) : (s.modTile t f).ref = s.ref := rfl
@[simp] theorem State.modTile_stage (s : State) (t : TileId) (f : Tile → Tile) : (s.modTile t f).stage = s.stage := rfl
@[simp] theorem State.modTile_failure (s : State) (t : TileId) (f : Tile → Tile) : (s.modTile t f).failure = s.failure := rfl
@[simp] theorem State.modTile_thr (s : State) (t : TileId) (f : Tile → Tile) : (s.modTile t f).thr = s.thr := rfl
@[simp] theorem State.modTile_thrPhase (s : State) (t : TileId) (f : Tile → Tile) : (s.modTile t f).thrPhase = s.thrPhase := rfl
@[simp] theorem State.modTile_hold (s : State) (t : TileId) (f : Tile → Tile) : (s.modTile t f).hold = s.hold := rfl
@[simp] theorem State.modTile_tsensf (s : State) (t : TileId) (f : Tile → Tile) : (s.modTile t f).tsensf = s.tsensf := rfl
@[simp] theorem State.modTile_tsensh (s : State) (t : TileId) (f : Tile → Tile) : (s.modTile t f).tsensh = s.tsensh := rfl
@[simp] theorem State.modTile_power (s : State) (t : TileId) (f : Tile → Tile) : (s.modTile t f).power = s.power := rfl
@[simp] theorem State.modTile_fuses (s : State) (t : TileId) (f : Tile → Tile) : (s.modTile t f).fuses = s.fuses := rfl
@[simp] theorem State.modTile_links (s : State) (t : TileId) (f : Tile → Tile) : (s.modTile t f).links = s.links := rfl
@[simp] theorem State.modTile_heap (s : State) (t : TileId) (f : Tile → Tile) : (s.modTile t f).heap = s.heap := rfl
@[simp] theorem State.modTile_heapBad (s : State) (t : TileId) (f : Tile → Tile) : (s.modTile t f).heapBad = s.heapBad := rfl
@[simp] theorem State.modTile_hbm (s : State) (t : TileId) (f : Tile → Tile) : (s.modTile t f).hbm = s.hbm := rfl
@[simp] theorem State.modTile_host (s : State) (t : TileId) (f : Tile → Tile) : (s.modTile t f).host = s.host := rfl
@[simp] theorem State.modTile_ports (s : State) (t : TileId) (f : Tile → Tile) : (s.modTile t f).ports = s.ports := rfl
@[simp] theorem State.modTile_tls (s : State) (t : TileId) (f : Tile → Tile) : (s.modTile t f).tls = s.tls := rfl
@[simp] theorem State.modTile_advances (s : State) (t : TileId) (f : Tile → Tile) : (s.modTile t f).advances = s.advances := rfl
@[simp] theorem State.modTile_deliveries (s : State) (t : TileId) (f : Tile → Tile) : (s.modTile t f).deliveries = s.deliveries := rfl
@[simp] theorem State.modTile_swarms (s : State) (t : TileId) (f : Tile → Tile) : (s.modTile t f).swarms = s.swarms := rfl
@[simp] theorem State.modTile_tmap (s : State) (t : TileId) (f : Tile → Tile) : (s.modTile t f).tmap = s.tmap := rfl
@[simp] theorem State.modTile_broodTaken (s : State) (t : TileId) (f : Tile → Tile) : (s.modTile t f).broodTaken = s.broodTaken := rfl
@[simp] theorem State.modTile_tmVer (s : State) (t : TileId) (f : Tile → Tile) : (s.modTile t f).tmVer = s.tmVer := rfl
@[simp] theorem State.modTile_broadcasts (s : State) (t : TileId) (f : Tile → Tile) : (s.modTile t f).broadcasts = s.broadcasts := rfl
@[simp] theorem State.modTile_migrations (s : State) (t : TileId) (f : Tile → Tile) : (s.modTile t f).migrations = s.migrations := rfl
@[simp] theorem State.modTile_missing (s : State) (t : TileId) (f : Tile → Tile) : (s.modTile t f).missing = s.missing := rfl
@[simp] theorem State.modTile_relays (s : State) (t : TileId) (f : Tile → Tile) : (s.modTile t f).relays = s.relays := rfl
@[simp] theorem State.modTile_edges (s : State) (t : TileId) (f : Tile → Tile) : (s.modTile t f).edges = s.edges := rfl
@[simp] theorem State.modTile_queues (s : State) (t : TileId) (f : Tile → Tile) : (s.modTile t f).queues = s.queues := rfl
@[simp] theorem State.modTile_slots (s : State) (t : TileId) (f : Tile → Tile) : (s.modTile t f).slots = s.slots := rfl
@[simp] theorem State.modTile_pendingQ (s : State) (t : TileId) (f : Tile → Tile) : (s.modTile t f).pendingQ = s.pendingQ := rfl
@[simp] theorem State.modTile_unmapped (s : State) (t : TileId) (f : Tile → Tile) : (s.modTile t f).unmapped = s.unmapped := rfl
@[simp] theorem State.modTile_recs (s : State) (t : TileId) (f : Tile → Tile) : (s.modTile t f).recs = s.recs := rfl
@[simp] theorem State.modTile_images (s : State) (t : TileId) (f : Tile → Tile) : (s.modTile t f).images = s.images := rfl
@[simp] theorem State.modTile_launches (s : State) (t : TileId) (f : Tile → Tile) : (s.modTile t f).launches = s.launches := rfl
@[simp] theorem State.modTile_nextLid (s : State) (t : TileId) (f : Tile → Tile) : (s.modTile t f).nextLid = s.nextLid := rfl
@[simp] theorem State.modTile_tlAfter (s : State) (t : TileId) (f : Tile → Tile) : (s.modTile t f).tlAfter = s.tlAfter := rfl
@[simp] theorem State.modTile_roots (s : State) (t : TileId) (f : Tile → Tile) : (s.modTile t f).roots = s.roots := rfl
@[simp] theorem State.modTile_moves (s : State) (t : TileId) (f : Tile → Tile) : (s.modTile t f).moves = s.moves := rfl
@[simp] theorem State.modTile_pageReqs (s : State) (t : TileId) (f : Tile → Tile) : (s.modTile t f).pageReqs = s.pageReqs := rfl
@[simp] theorem State.modTile_saves (s : State) (t : TileId) (f : Tile → Tile) : (s.modTile t f).saves = s.saves := rfl
@[simp] theorem State.modTile_ctl (s : State) (t : TileId) (f : Tile → Tile) : (s.modTile t f).ctl = s.ctl := rfl
@[simp] theorem State.modTile_fw (s : State) (t : TileId) (f : Tile → Tile) : (s.modTile t f).fw = s.fw := rfl
@[simp] theorem State.modTile_assists (s : State) (t : TileId) (f : Tile → Tile) : (s.modTile t f).assists = s.assists := rfl
@[simp] theorem State.modTile_nextAssist (s : State) (t : TileId) (f : Tile → Tile) : (s.modTile t f).nextAssist = s.nextAssist := rfl
@[simp] theorem State.modTile_bar2 (s : State) (t : TileId) (f : Tile → Tile) : (s.modTile t f).bar2 = s.bar2 := rfl
@[simp] theorem State.modTile_bar2Got (s : State) (t : TileId) (f : Tile → Tile) : (s.modTile t f).bar2Got = s.bar2Got := rfl
@[simp] theorem State.modTile_hostHeld (s : State) (t : TileId) (f : Tile → Tile) : (s.modTile t f).hostHeld = s.hostHeld := rfl
@[simp] theorem State.modTile_msix (s : State) (t : TileId) (f : Tile → Tile) : (s.modTile t f).msix = s.msix := rfl
@[simp] theorem State.modTile_free (s : State) (t : TileId) (f : Tile → Tile) : (s.modTile t f).free = s.free := rfl
@[simp] theorem State.modTile_cur (s : State) (t : TileId) (f : Tile → Tile) : (s.modTile t f).cur = s.cur := rfl
@[simp] theorem State.modTile_curPort (s : State) (t : TileId) (f : Tile → Tile) : (s.modTile t f).curPort = s.curPort := rfl
@[simp] theorem State.modTile_inputs (s : State) (t : TileId) (f : Tile → Tile) : (s.modTile t f).inputs = s.inputs := rfl
@[simp] theorem State.modTile_agenda (s : State) (t : TileId) (f : Tile → Tile) : (s.modTile t f).agenda = s.agenda := rfl

@[simp] theorem State.modCtx_now (s : State) (t : TileId) (c : Fin 4) (f : Context → Context) : (s.modCtx t c f).now = s.now := rfl
@[simp] theorem State.modCtx_ref (s : State) (t : TileId) (c : Fin 4) (f : Context → Context) : (s.modCtx t c f).ref = s.ref := rfl
@[simp] theorem State.modCtx_stage (s : State) (t : TileId) (c : Fin 4) (f : Context → Context) : (s.modCtx t c f).stage = s.stage := rfl
@[simp] theorem State.modCtx_failure (s : State) (t : TileId) (c : Fin 4) (f : Context → Context) : (s.modCtx t c f).failure = s.failure := rfl
@[simp] theorem State.modCtx_thr (s : State) (t : TileId) (c : Fin 4) (f : Context → Context) : (s.modCtx t c f).thr = s.thr := rfl
@[simp] theorem State.modCtx_thrPhase (s : State) (t : TileId) (c : Fin 4) (f : Context → Context) : (s.modCtx t c f).thrPhase = s.thrPhase := rfl
@[simp] theorem State.modCtx_hold (s : State) (t : TileId) (c : Fin 4) (f : Context → Context) : (s.modCtx t c f).hold = s.hold := rfl
@[simp] theorem State.modCtx_tsensf (s : State) (t : TileId) (c : Fin 4) (f : Context → Context) : (s.modCtx t c f).tsensf = s.tsensf := rfl
@[simp] theorem State.modCtx_tsensh (s : State) (t : TileId) (c : Fin 4) (f : Context → Context) : (s.modCtx t c f).tsensh = s.tsensh := rfl
@[simp] theorem State.modCtx_power (s : State) (t : TileId) (c : Fin 4) (f : Context → Context) : (s.modCtx t c f).power = s.power := rfl
@[simp] theorem State.modCtx_fuses (s : State) (t : TileId) (c : Fin 4) (f : Context → Context) : (s.modCtx t c f).fuses = s.fuses := rfl
@[simp] theorem State.modCtx_links (s : State) (t : TileId) (c : Fin 4) (f : Context → Context) : (s.modCtx t c f).links = s.links := rfl
@[simp] theorem State.modCtx_heap (s : State) (t : TileId) (c : Fin 4) (f : Context → Context) : (s.modCtx t c f).heap = s.heap := rfl
@[simp] theorem State.modCtx_heapBad (s : State) (t : TileId) (c : Fin 4) (f : Context → Context) : (s.modCtx t c f).heapBad = s.heapBad := rfl
@[simp] theorem State.modCtx_hbm (s : State) (t : TileId) (c : Fin 4) (f : Context → Context) : (s.modCtx t c f).hbm = s.hbm := rfl
@[simp] theorem State.modCtx_host (s : State) (t : TileId) (c : Fin 4) (f : Context → Context) : (s.modCtx t c f).host = s.host := rfl
@[simp] theorem State.modCtx_ports (s : State) (t : TileId) (c : Fin 4) (f : Context → Context) : (s.modCtx t c f).ports = s.ports := rfl
@[simp] theorem State.modCtx_tls (s : State) (t : TileId) (c : Fin 4) (f : Context → Context) : (s.modCtx t c f).tls = s.tls := rfl
@[simp] theorem State.modCtx_advances (s : State) (t : TileId) (c : Fin 4) (f : Context → Context) : (s.modCtx t c f).advances = s.advances := rfl
@[simp] theorem State.modCtx_deliveries (s : State) (t : TileId) (c : Fin 4) (f : Context → Context) : (s.modCtx t c f).deliveries = s.deliveries := rfl
@[simp] theorem State.modCtx_swarms (s : State) (t : TileId) (c : Fin 4) (f : Context → Context) : (s.modCtx t c f).swarms = s.swarms := rfl
@[simp] theorem State.modCtx_tmap (s : State) (t : TileId) (c : Fin 4) (f : Context → Context) : (s.modCtx t c f).tmap = s.tmap := rfl
@[simp] theorem State.modCtx_broodTaken (s : State) (t : TileId) (c : Fin 4) (f : Context → Context) : (s.modCtx t c f).broodTaken = s.broodTaken := rfl
@[simp] theorem State.modCtx_tmVer (s : State) (t : TileId) (c : Fin 4) (f : Context → Context) : (s.modCtx t c f).tmVer = s.tmVer := rfl
@[simp] theorem State.modCtx_broadcasts (s : State) (t : TileId) (c : Fin 4) (f : Context → Context) : (s.modCtx t c f).broadcasts = s.broadcasts := rfl
@[simp] theorem State.modCtx_migrations (s : State) (t : TileId) (c : Fin 4) (f : Context → Context) : (s.modCtx t c f).migrations = s.migrations := rfl
@[simp] theorem State.modCtx_missing (s : State) (t : TileId) (c : Fin 4) (f : Context → Context) : (s.modCtx t c f).missing = s.missing := rfl
@[simp] theorem State.modCtx_relays (s : State) (t : TileId) (c : Fin 4) (f : Context → Context) : (s.modCtx t c f).relays = s.relays := rfl
@[simp] theorem State.modCtx_edges (s : State) (t : TileId) (c : Fin 4) (f : Context → Context) : (s.modCtx t c f).edges = s.edges := rfl
@[simp] theorem State.modCtx_queues (s : State) (t : TileId) (c : Fin 4) (f : Context → Context) : (s.modCtx t c f).queues = s.queues := rfl
@[simp] theorem State.modCtx_slots (s : State) (t : TileId) (c : Fin 4) (f : Context → Context) : (s.modCtx t c f).slots = s.slots := rfl
@[simp] theorem State.modCtx_pendingQ (s : State) (t : TileId) (c : Fin 4) (f : Context → Context) : (s.modCtx t c f).pendingQ = s.pendingQ := rfl
@[simp] theorem State.modCtx_unmapped (s : State) (t : TileId) (c : Fin 4) (f : Context → Context) : (s.modCtx t c f).unmapped = s.unmapped := rfl
@[simp] theorem State.modCtx_recs (s : State) (t : TileId) (c : Fin 4) (f : Context → Context) : (s.modCtx t c f).recs = s.recs := rfl
@[simp] theorem State.modCtx_images (s : State) (t : TileId) (c : Fin 4) (f : Context → Context) : (s.modCtx t c f).images = s.images := rfl
@[simp] theorem State.modCtx_launches (s : State) (t : TileId) (c : Fin 4) (f : Context → Context) : (s.modCtx t c f).launches = s.launches := rfl
@[simp] theorem State.modCtx_nextLid (s : State) (t : TileId) (c : Fin 4) (f : Context → Context) : (s.modCtx t c f).nextLid = s.nextLid := rfl
@[simp] theorem State.modCtx_tlAfter (s : State) (t : TileId) (c : Fin 4) (f : Context → Context) : (s.modCtx t c f).tlAfter = s.tlAfter := rfl
@[simp] theorem State.modCtx_roots (s : State) (t : TileId) (c : Fin 4) (f : Context → Context) : (s.modCtx t c f).roots = s.roots := rfl
@[simp] theorem State.modCtx_moves (s : State) (t : TileId) (c : Fin 4) (f : Context → Context) : (s.modCtx t c f).moves = s.moves := rfl
@[simp] theorem State.modCtx_pageReqs (s : State) (t : TileId) (c : Fin 4) (f : Context → Context) : (s.modCtx t c f).pageReqs = s.pageReqs := rfl
@[simp] theorem State.modCtx_saves (s : State) (t : TileId) (c : Fin 4) (f : Context → Context) : (s.modCtx t c f).saves = s.saves := rfl
@[simp] theorem State.modCtx_ctl (s : State) (t : TileId) (c : Fin 4) (f : Context → Context) : (s.modCtx t c f).ctl = s.ctl := rfl
@[simp] theorem State.modCtx_fw (s : State) (t : TileId) (c : Fin 4) (f : Context → Context) : (s.modCtx t c f).fw = s.fw := rfl
@[simp] theorem State.modCtx_assists (s : State) (t : TileId) (c : Fin 4) (f : Context → Context) : (s.modCtx t c f).assists = s.assists := rfl
@[simp] theorem State.modCtx_nextAssist (s : State) (t : TileId) (c : Fin 4) (f : Context → Context) : (s.modCtx t c f).nextAssist = s.nextAssist := rfl
@[simp] theorem State.modCtx_bar2 (s : State) (t : TileId) (c : Fin 4) (f : Context → Context) : (s.modCtx t c f).bar2 = s.bar2 := rfl
@[simp] theorem State.modCtx_bar2Got (s : State) (t : TileId) (c : Fin 4) (f : Context → Context) : (s.modCtx t c f).bar2Got = s.bar2Got := rfl
@[simp] theorem State.modCtx_hostHeld (s : State) (t : TileId) (c : Fin 4) (f : Context → Context) : (s.modCtx t c f).hostHeld = s.hostHeld := rfl
@[simp] theorem State.modCtx_msix (s : State) (t : TileId) (c : Fin 4) (f : Context → Context) : (s.modCtx t c f).msix = s.msix := rfl
@[simp] theorem State.modCtx_free (s : State) (t : TileId) (c : Fin 4) (f : Context → Context) : (s.modCtx t c f).free = s.free := rfl
@[simp] theorem State.modCtx_cur (s : State) (t : TileId) (c : Fin 4) (f : Context → Context) : (s.modCtx t c f).cur = s.cur := rfl
@[simp] theorem State.modCtx_curPort (s : State) (t : TileId) (c : Fin 4) (f : Context → Context) : (s.modCtx t c f).curPort = s.curPort := rfl
@[simp] theorem State.modCtx_inputs (s : State) (t : TileId) (c : Fin 4) (f : Context → Context) : (s.modCtx t c f).inputs = s.inputs := rfl
@[simp] theorem State.modCtx_agenda (s : State) (t : TileId) (c : Fin 4) (f : Context → Context) : (s.modCtx t c f).agenda = s.agenda := rfl

@[simp] theorem State.modCurTile_now (s : State) (f : Tile → Tile) : (s.modCurTile f).now = s.now := rfl
@[simp] theorem State.modCurTile_ref (s : State) (f : Tile → Tile) : (s.modCurTile f).ref = s.ref := rfl
@[simp] theorem State.modCurTile_stage (s : State) (f : Tile → Tile) : (s.modCurTile f).stage = s.stage := rfl
@[simp] theorem State.modCurTile_failure (s : State) (f : Tile → Tile) : (s.modCurTile f).failure = s.failure := rfl
@[simp] theorem State.modCurTile_thr (s : State) (f : Tile → Tile) : (s.modCurTile f).thr = s.thr := rfl
@[simp] theorem State.modCurTile_thrPhase (s : State) (f : Tile → Tile) : (s.modCurTile f).thrPhase = s.thrPhase := rfl
@[simp] theorem State.modCurTile_hold (s : State) (f : Tile → Tile) : (s.modCurTile f).hold = s.hold := rfl
@[simp] theorem State.modCurTile_tsensf (s : State) (f : Tile → Tile) : (s.modCurTile f).tsensf = s.tsensf := rfl
@[simp] theorem State.modCurTile_tsensh (s : State) (f : Tile → Tile) : (s.modCurTile f).tsensh = s.tsensh := rfl
@[simp] theorem State.modCurTile_power (s : State) (f : Tile → Tile) : (s.modCurTile f).power = s.power := rfl
@[simp] theorem State.modCurTile_fuses (s : State) (f : Tile → Tile) : (s.modCurTile f).fuses = s.fuses := rfl
@[simp] theorem State.modCurTile_links (s : State) (f : Tile → Tile) : (s.modCurTile f).links = s.links := rfl
@[simp] theorem State.modCurTile_heap (s : State) (f : Tile → Tile) : (s.modCurTile f).heap = s.heap := rfl
@[simp] theorem State.modCurTile_heapBad (s : State) (f : Tile → Tile) : (s.modCurTile f).heapBad = s.heapBad := rfl
@[simp] theorem State.modCurTile_hbm (s : State) (f : Tile → Tile) : (s.modCurTile f).hbm = s.hbm := rfl
@[simp] theorem State.modCurTile_host (s : State) (f : Tile → Tile) : (s.modCurTile f).host = s.host := rfl
@[simp] theorem State.modCurTile_ports (s : State) (f : Tile → Tile) : (s.modCurTile f).ports = s.ports := rfl
@[simp] theorem State.modCurTile_tls (s : State) (f : Tile → Tile) : (s.modCurTile f).tls = s.tls := rfl
@[simp] theorem State.modCurTile_advances (s : State) (f : Tile → Tile) : (s.modCurTile f).advances = s.advances := rfl
@[simp] theorem State.modCurTile_deliveries (s : State) (f : Tile → Tile) : (s.modCurTile f).deliveries = s.deliveries := rfl
@[simp] theorem State.modCurTile_swarms (s : State) (f : Tile → Tile) : (s.modCurTile f).swarms = s.swarms := rfl
@[simp] theorem State.modCurTile_tmap (s : State) (f : Tile → Tile) : (s.modCurTile f).tmap = s.tmap := rfl
@[simp] theorem State.modCurTile_broodTaken (s : State) (f : Tile → Tile) : (s.modCurTile f).broodTaken = s.broodTaken := rfl
@[simp] theorem State.modCurTile_tmVer (s : State) (f : Tile → Tile) : (s.modCurTile f).tmVer = s.tmVer := rfl
@[simp] theorem State.modCurTile_broadcasts (s : State) (f : Tile → Tile) : (s.modCurTile f).broadcasts = s.broadcasts := rfl
@[simp] theorem State.modCurTile_migrations (s : State) (f : Tile → Tile) : (s.modCurTile f).migrations = s.migrations := rfl
@[simp] theorem State.modCurTile_missing (s : State) (f : Tile → Tile) : (s.modCurTile f).missing = s.missing := rfl
@[simp] theorem State.modCurTile_relays (s : State) (f : Tile → Tile) : (s.modCurTile f).relays = s.relays := rfl
@[simp] theorem State.modCurTile_edges (s : State) (f : Tile → Tile) : (s.modCurTile f).edges = s.edges := rfl
@[simp] theorem State.modCurTile_queues (s : State) (f : Tile → Tile) : (s.modCurTile f).queues = s.queues := rfl
@[simp] theorem State.modCurTile_slots (s : State) (f : Tile → Tile) : (s.modCurTile f).slots = s.slots := rfl
@[simp] theorem State.modCurTile_pendingQ (s : State) (f : Tile → Tile) : (s.modCurTile f).pendingQ = s.pendingQ := rfl
@[simp] theorem State.modCurTile_unmapped (s : State) (f : Tile → Tile) : (s.modCurTile f).unmapped = s.unmapped := rfl
@[simp] theorem State.modCurTile_recs (s : State) (f : Tile → Tile) : (s.modCurTile f).recs = s.recs := rfl
@[simp] theorem State.modCurTile_images (s : State) (f : Tile → Tile) : (s.modCurTile f).images = s.images := rfl
@[simp] theorem State.modCurTile_launches (s : State) (f : Tile → Tile) : (s.modCurTile f).launches = s.launches := rfl
@[simp] theorem State.modCurTile_nextLid (s : State) (f : Tile → Tile) : (s.modCurTile f).nextLid = s.nextLid := rfl
@[simp] theorem State.modCurTile_tlAfter (s : State) (f : Tile → Tile) : (s.modCurTile f).tlAfter = s.tlAfter := rfl
@[simp] theorem State.modCurTile_roots (s : State) (f : Tile → Tile) : (s.modCurTile f).roots = s.roots := rfl
@[simp] theorem State.modCurTile_moves (s : State) (f : Tile → Tile) : (s.modCurTile f).moves = s.moves := rfl
@[simp] theorem State.modCurTile_pageReqs (s : State) (f : Tile → Tile) : (s.modCurTile f).pageReqs = s.pageReqs := rfl
@[simp] theorem State.modCurTile_saves (s : State) (f : Tile → Tile) : (s.modCurTile f).saves = s.saves := rfl
@[simp] theorem State.modCurTile_ctl (s : State) (f : Tile → Tile) : (s.modCurTile f).ctl = s.ctl := rfl
@[simp] theorem State.modCurTile_fw (s : State) (f : Tile → Tile) : (s.modCurTile f).fw = s.fw := rfl
@[simp] theorem State.modCurTile_assists (s : State) (f : Tile → Tile) : (s.modCurTile f).assists = s.assists := rfl
@[simp] theorem State.modCurTile_nextAssist (s : State) (f : Tile → Tile) : (s.modCurTile f).nextAssist = s.nextAssist := rfl
@[simp] theorem State.modCurTile_bar2 (s : State) (f : Tile → Tile) : (s.modCurTile f).bar2 = s.bar2 := rfl
@[simp] theorem State.modCurTile_bar2Got (s : State) (f : Tile → Tile) : (s.modCurTile f).bar2Got = s.bar2Got := rfl
@[simp] theorem State.modCurTile_hostHeld (s : State) (f : Tile → Tile) : (s.modCurTile f).hostHeld = s.hostHeld := rfl
@[simp] theorem State.modCurTile_msix (s : State) (f : Tile → Tile) : (s.modCurTile f).msix = s.msix := rfl
@[simp] theorem State.modCurTile_free (s : State) (f : Tile → Tile) : (s.modCurTile f).free = s.free := rfl
@[simp] theorem State.modCurTile_cur (s : State) (f : Tile → Tile) : (s.modCurTile f).cur = s.cur := rfl
@[simp] theorem State.modCurTile_curPort (s : State) (f : Tile → Tile) : (s.modCurTile f).curPort = s.curPort := rfl
@[simp] theorem State.modCurTile_inputs (s : State) (f : Tile → Tile) : (s.modCurTile f).inputs = s.inputs := rfl
@[simp] theorem State.modCurTile_agenda (s : State) (f : Tile → Tile) : (s.modCurTile f).agenda = s.agenda := rfl

@[simp] theorem State.modCur_now (s : State) (f : Context → Context) : (s.modCur f).now = s.now := rfl
@[simp] theorem State.modCur_ref (s : State) (f : Context → Context) : (s.modCur f).ref = s.ref := rfl
@[simp] theorem State.modCur_stage (s : State) (f : Context → Context) : (s.modCur f).stage = s.stage := rfl
@[simp] theorem State.modCur_failure (s : State) (f : Context → Context) : (s.modCur f).failure = s.failure := rfl
@[simp] theorem State.modCur_thr (s : State) (f : Context → Context) : (s.modCur f).thr = s.thr := rfl
@[simp] theorem State.modCur_thrPhase (s : State) (f : Context → Context) : (s.modCur f).thrPhase = s.thrPhase := rfl
@[simp] theorem State.modCur_hold (s : State) (f : Context → Context) : (s.modCur f).hold = s.hold := rfl
@[simp] theorem State.modCur_tsensf (s : State) (f : Context → Context) : (s.modCur f).tsensf = s.tsensf := rfl
@[simp] theorem State.modCur_tsensh (s : State) (f : Context → Context) : (s.modCur f).tsensh = s.tsensh := rfl
@[simp] theorem State.modCur_power (s : State) (f : Context → Context) : (s.modCur f).power = s.power := rfl
@[simp] theorem State.modCur_fuses (s : State) (f : Context → Context) : (s.modCur f).fuses = s.fuses := rfl
@[simp] theorem State.modCur_links (s : State) (f : Context → Context) : (s.modCur f).links = s.links := rfl
@[simp] theorem State.modCur_heap (s : State) (f : Context → Context) : (s.modCur f).heap = s.heap := rfl
@[simp] theorem State.modCur_heapBad (s : State) (f : Context → Context) : (s.modCur f).heapBad = s.heapBad := rfl
@[simp] theorem State.modCur_hbm (s : State) (f : Context → Context) : (s.modCur f).hbm = s.hbm := rfl
@[simp] theorem State.modCur_host (s : State) (f : Context → Context) : (s.modCur f).host = s.host := rfl
@[simp] theorem State.modCur_ports (s : State) (f : Context → Context) : (s.modCur f).ports = s.ports := rfl
@[simp] theorem State.modCur_tls (s : State) (f : Context → Context) : (s.modCur f).tls = s.tls := rfl
@[simp] theorem State.modCur_advances (s : State) (f : Context → Context) : (s.modCur f).advances = s.advances := rfl
@[simp] theorem State.modCur_deliveries (s : State) (f : Context → Context) : (s.modCur f).deliveries = s.deliveries := rfl
@[simp] theorem State.modCur_swarms (s : State) (f : Context → Context) : (s.modCur f).swarms = s.swarms := rfl
@[simp] theorem State.modCur_tmap (s : State) (f : Context → Context) : (s.modCur f).tmap = s.tmap := rfl
@[simp] theorem State.modCur_broodTaken (s : State) (f : Context → Context) : (s.modCur f).broodTaken = s.broodTaken := rfl
@[simp] theorem State.modCur_tmVer (s : State) (f : Context → Context) : (s.modCur f).tmVer = s.tmVer := rfl
@[simp] theorem State.modCur_broadcasts (s : State) (f : Context → Context) : (s.modCur f).broadcasts = s.broadcasts := rfl
@[simp] theorem State.modCur_migrations (s : State) (f : Context → Context) : (s.modCur f).migrations = s.migrations := rfl
@[simp] theorem State.modCur_missing (s : State) (f : Context → Context) : (s.modCur f).missing = s.missing := rfl
@[simp] theorem State.modCur_relays (s : State) (f : Context → Context) : (s.modCur f).relays = s.relays := rfl
@[simp] theorem State.modCur_edges (s : State) (f : Context → Context) : (s.modCur f).edges = s.edges := rfl
@[simp] theorem State.modCur_queues (s : State) (f : Context → Context) : (s.modCur f).queues = s.queues := rfl
@[simp] theorem State.modCur_slots (s : State) (f : Context → Context) : (s.modCur f).slots = s.slots := rfl
@[simp] theorem State.modCur_pendingQ (s : State) (f : Context → Context) : (s.modCur f).pendingQ = s.pendingQ := rfl
@[simp] theorem State.modCur_unmapped (s : State) (f : Context → Context) : (s.modCur f).unmapped = s.unmapped := rfl
@[simp] theorem State.modCur_recs (s : State) (f : Context → Context) : (s.modCur f).recs = s.recs := rfl
@[simp] theorem State.modCur_images (s : State) (f : Context → Context) : (s.modCur f).images = s.images := rfl
@[simp] theorem State.modCur_launches (s : State) (f : Context → Context) : (s.modCur f).launches = s.launches := rfl
@[simp] theorem State.modCur_nextLid (s : State) (f : Context → Context) : (s.modCur f).nextLid = s.nextLid := rfl
@[simp] theorem State.modCur_tlAfter (s : State) (f : Context → Context) : (s.modCur f).tlAfter = s.tlAfter := rfl
@[simp] theorem State.modCur_roots (s : State) (f : Context → Context) : (s.modCur f).roots = s.roots := rfl
@[simp] theorem State.modCur_moves (s : State) (f : Context → Context) : (s.modCur f).moves = s.moves := rfl
@[simp] theorem State.modCur_pageReqs (s : State) (f : Context → Context) : (s.modCur f).pageReqs = s.pageReqs := rfl
@[simp] theorem State.modCur_saves (s : State) (f : Context → Context) : (s.modCur f).saves = s.saves := rfl
@[simp] theorem State.modCur_ctl (s : State) (f : Context → Context) : (s.modCur f).ctl = s.ctl := rfl
@[simp] theorem State.modCur_fw (s : State) (f : Context → Context) : (s.modCur f).fw = s.fw := rfl
@[simp] theorem State.modCur_assists (s : State) (f : Context → Context) : (s.modCur f).assists = s.assists := rfl
@[simp] theorem State.modCur_nextAssist (s : State) (f : Context → Context) : (s.modCur f).nextAssist = s.nextAssist := rfl
@[simp] theorem State.modCur_bar2 (s : State) (f : Context → Context) : (s.modCur f).bar2 = s.bar2 := rfl
@[simp] theorem State.modCur_bar2Got (s : State) (f : Context → Context) : (s.modCur f).bar2Got = s.bar2Got := rfl
@[simp] theorem State.modCur_hostHeld (s : State) (f : Context → Context) : (s.modCur f).hostHeld = s.hostHeld := rfl
@[simp] theorem State.modCur_msix (s : State) (f : Context → Context) : (s.modCur f).msix = s.msix := rfl
@[simp] theorem State.modCur_free (s : State) (f : Context → Context) : (s.modCur f).free = s.free := rfl
@[simp] theorem State.modCur_cur (s : State) (f : Context → Context) : (s.modCur f).cur = s.cur := rfl
@[simp] theorem State.modCur_curPort (s : State) (f : Context → Context) : (s.modCur f).curPort = s.curPort := rfl
@[simp] theorem State.modCur_inputs (s : State) (f : Context → Context) : (s.modCur f).inputs = s.inputs := rfl
@[simp] theorem State.modCur_agenda (s : State) (f : Context → Context) : (s.modCur f).agenda = s.agenda := rfl

@[simp] theorem State.result_now (s : State) (n : Nat) (d : Dst) : (s.result n d).now = s.now := rfl
@[simp] theorem State.result_ref (s : State) (n : Nat) (d : Dst) : (s.result n d).ref = s.ref := rfl
@[simp] theorem State.result_stage (s : State) (n : Nat) (d : Dst) : (s.result n d).stage = s.stage := rfl
@[simp] theorem State.result_failure (s : State) (n : Nat) (d : Dst) : (s.result n d).failure = s.failure := rfl
@[simp] theorem State.result_thr (s : State) (n : Nat) (d : Dst) : (s.result n d).thr = s.thr := rfl
@[simp] theorem State.result_thrPhase (s : State) (n : Nat) (d : Dst) : (s.result n d).thrPhase = s.thrPhase := rfl
@[simp] theorem State.result_hold (s : State) (n : Nat) (d : Dst) : (s.result n d).hold = s.hold := rfl
@[simp] theorem State.result_tsensf (s : State) (n : Nat) (d : Dst) : (s.result n d).tsensf = s.tsensf := rfl
@[simp] theorem State.result_tsensh (s : State) (n : Nat) (d : Dst) : (s.result n d).tsensh = s.tsensh := rfl
@[simp] theorem State.result_power (s : State) (n : Nat) (d : Dst) : (s.result n d).power = s.power := rfl
@[simp] theorem State.result_fuses (s : State) (n : Nat) (d : Dst) : (s.result n d).fuses = s.fuses := rfl
@[simp] theorem State.result_links (s : State) (n : Nat) (d : Dst) : (s.result n d).links = s.links := rfl
@[simp] theorem State.result_heap (s : State) (n : Nat) (d : Dst) : (s.result n d).heap = s.heap := rfl
@[simp] theorem State.result_heapBad (s : State) (n : Nat) (d : Dst) : (s.result n d).heapBad = s.heapBad := rfl
@[simp] theorem State.result_hbm (s : State) (n : Nat) (d : Dst) : (s.result n d).hbm = s.hbm := rfl
@[simp] theorem State.result_host (s : State) (n : Nat) (d : Dst) : (s.result n d).host = s.host := rfl
@[simp] theorem State.result_ports (s : State) (n : Nat) (d : Dst) : (s.result n d).ports = s.ports := rfl
@[simp] theorem State.result_tls (s : State) (n : Nat) (d : Dst) : (s.result n d).tls = s.tls := rfl
@[simp] theorem State.result_advances (s : State) (n : Nat) (d : Dst) : (s.result n d).advances = s.advances := rfl
@[simp] theorem State.result_deliveries (s : State) (n : Nat) (d : Dst) : (s.result n d).deliveries = s.deliveries := rfl
@[simp] theorem State.result_swarms (s : State) (n : Nat) (d : Dst) : (s.result n d).swarms = s.swarms := rfl
@[simp] theorem State.result_tmap (s : State) (n : Nat) (d : Dst) : (s.result n d).tmap = s.tmap := rfl
@[simp] theorem State.result_broodTaken (s : State) (n : Nat) (d : Dst) : (s.result n d).broodTaken = s.broodTaken := rfl
@[simp] theorem State.result_tmVer (s : State) (n : Nat) (d : Dst) : (s.result n d).tmVer = s.tmVer := rfl
@[simp] theorem State.result_broadcasts (s : State) (n : Nat) (d : Dst) : (s.result n d).broadcasts = s.broadcasts := rfl
@[simp] theorem State.result_migrations (s : State) (n : Nat) (d : Dst) : (s.result n d).migrations = s.migrations := rfl
@[simp] theorem State.result_missing (s : State) (n : Nat) (d : Dst) : (s.result n d).missing = s.missing := rfl
@[simp] theorem State.result_relays (s : State) (n : Nat) (d : Dst) : (s.result n d).relays = s.relays := rfl
@[simp] theorem State.result_edges (s : State) (n : Nat) (d : Dst) : (s.result n d).edges = s.edges := rfl
@[simp] theorem State.result_queues (s : State) (n : Nat) (d : Dst) : (s.result n d).queues = s.queues := rfl
@[simp] theorem State.result_slots (s : State) (n : Nat) (d : Dst) : (s.result n d).slots = s.slots := rfl
@[simp] theorem State.result_pendingQ (s : State) (n : Nat) (d : Dst) : (s.result n d).pendingQ = s.pendingQ := rfl
@[simp] theorem State.result_unmapped (s : State) (n : Nat) (d : Dst) : (s.result n d).unmapped = s.unmapped := rfl
@[simp] theorem State.result_recs (s : State) (n : Nat) (d : Dst) : (s.result n d).recs = s.recs := rfl
@[simp] theorem State.result_images (s : State) (n : Nat) (d : Dst) : (s.result n d).images = s.images := rfl
@[simp] theorem State.result_launches (s : State) (n : Nat) (d : Dst) : (s.result n d).launches = s.launches := rfl
@[simp] theorem State.result_nextLid (s : State) (n : Nat) (d : Dst) : (s.result n d).nextLid = s.nextLid := rfl
@[simp] theorem State.result_tlAfter (s : State) (n : Nat) (d : Dst) : (s.result n d).tlAfter = s.tlAfter := rfl
@[simp] theorem State.result_roots (s : State) (n : Nat) (d : Dst) : (s.result n d).roots = s.roots := rfl
@[simp] theorem State.result_moves (s : State) (n : Nat) (d : Dst) : (s.result n d).moves = s.moves := rfl
@[simp] theorem State.result_pageReqs (s : State) (n : Nat) (d : Dst) : (s.result n d).pageReqs = s.pageReqs := rfl
@[simp] theorem State.result_saves (s : State) (n : Nat) (d : Dst) : (s.result n d).saves = s.saves := rfl
@[simp] theorem State.result_ctl (s : State) (n : Nat) (d : Dst) : (s.result n d).ctl = s.ctl := rfl
@[simp] theorem State.result_fw (s : State) (n : Nat) (d : Dst) : (s.result n d).fw = s.fw := rfl
@[simp] theorem State.result_assists (s : State) (n : Nat) (d : Dst) : (s.result n d).assists = s.assists := rfl
@[simp] theorem State.result_nextAssist (s : State) (n : Nat) (d : Dst) : (s.result n d).nextAssist = s.nextAssist := rfl
@[simp] theorem State.result_bar2 (s : State) (n : Nat) (d : Dst) : (s.result n d).bar2 = s.bar2 := rfl
@[simp] theorem State.result_bar2Got (s : State) (n : Nat) (d : Dst) : (s.result n d).bar2Got = s.bar2Got := rfl
@[simp] theorem State.result_hostHeld (s : State) (n : Nat) (d : Dst) : (s.result n d).hostHeld = s.hostHeld := rfl
@[simp] theorem State.result_msix (s : State) (n : Nat) (d : Dst) : (s.result n d).msix = s.msix := rfl
@[simp] theorem State.result_free (s : State) (n : Nat) (d : Dst) : (s.result n d).free = s.free := rfl
@[simp] theorem State.result_cur (s : State) (n : Nat) (d : Dst) : (s.result n d).cur = s.cur := rfl
@[simp] theorem State.result_curPort (s : State) (n : Nat) (d : Dst) : (s.result n d).curPort = s.curPort := rfl
@[simp] theorem State.result_inputs (s : State) (n : Nat) (d : Dst) : (s.result n d).inputs = s.inputs := rfl
@[simp] theorem State.result_agenda (s : State) (n : Nat) (d : Dst) : (s.result n d).agenda = s.agenda := rfl

@[simp] theorem State.modPort_now (s : State) (p : Fin 16) (f : Port → Port) : (s.modPort p f).now = s.now := rfl
@[simp] theorem State.modPort_ref (s : State) (p : Fin 16) (f : Port → Port) : (s.modPort p f).ref = s.ref := rfl
@[simp] theorem State.modPort_stage (s : State) (p : Fin 16) (f : Port → Port) : (s.modPort p f).stage = s.stage := rfl
@[simp] theorem State.modPort_failure (s : State) (p : Fin 16) (f : Port → Port) : (s.modPort p f).failure = s.failure := rfl
@[simp] theorem State.modPort_thr (s : State) (p : Fin 16) (f : Port → Port) : (s.modPort p f).thr = s.thr := rfl
@[simp] theorem State.modPort_thrPhase (s : State) (p : Fin 16) (f : Port → Port) : (s.modPort p f).thrPhase = s.thrPhase := rfl
@[simp] theorem State.modPort_hold (s : State) (p : Fin 16) (f : Port → Port) : (s.modPort p f).hold = s.hold := rfl
@[simp] theorem State.modPort_tsensf (s : State) (p : Fin 16) (f : Port → Port) : (s.modPort p f).tsensf = s.tsensf := rfl
@[simp] theorem State.modPort_tsensh (s : State) (p : Fin 16) (f : Port → Port) : (s.modPort p f).tsensh = s.tsensh := rfl
@[simp] theorem State.modPort_power (s : State) (p : Fin 16) (f : Port → Port) : (s.modPort p f).power = s.power := rfl
@[simp] theorem State.modPort_fuses (s : State) (p : Fin 16) (f : Port → Port) : (s.modPort p f).fuses = s.fuses := rfl
@[simp] theorem State.modPort_links (s : State) (p : Fin 16) (f : Port → Port) : (s.modPort p f).links = s.links := rfl
@[simp] theorem State.modPort_tiles (s : State) (p : Fin 16) (f : Port → Port) : (s.modPort p f).tiles = s.tiles := rfl
@[simp] theorem State.modPort_heap (s : State) (p : Fin 16) (f : Port → Port) : (s.modPort p f).heap = s.heap := rfl
@[simp] theorem State.modPort_heapBad (s : State) (p : Fin 16) (f : Port → Port) : (s.modPort p f).heapBad = s.heapBad := rfl
@[simp] theorem State.modPort_hbm (s : State) (p : Fin 16) (f : Port → Port) : (s.modPort p f).hbm = s.hbm := rfl
@[simp] theorem State.modPort_host (s : State) (p : Fin 16) (f : Port → Port) : (s.modPort p f).host = s.host := rfl
@[simp] theorem State.modPort_tls (s : State) (p : Fin 16) (f : Port → Port) : (s.modPort p f).tls = s.tls := rfl
@[simp] theorem State.modPort_advances (s : State) (p : Fin 16) (f : Port → Port) : (s.modPort p f).advances = s.advances := rfl
@[simp] theorem State.modPort_deliveries (s : State) (p : Fin 16) (f : Port → Port) : (s.modPort p f).deliveries = s.deliveries := rfl
@[simp] theorem State.modPort_swarms (s : State) (p : Fin 16) (f : Port → Port) : (s.modPort p f).swarms = s.swarms := rfl
@[simp] theorem State.modPort_tmap (s : State) (p : Fin 16) (f : Port → Port) : (s.modPort p f).tmap = s.tmap := rfl
@[simp] theorem State.modPort_broodTaken (s : State) (p : Fin 16) (f : Port → Port) : (s.modPort p f).broodTaken = s.broodTaken := rfl
@[simp] theorem State.modPort_tmVer (s : State) (p : Fin 16) (f : Port → Port) : (s.modPort p f).tmVer = s.tmVer := rfl
@[simp] theorem State.modPort_broadcasts (s : State) (p : Fin 16) (f : Port → Port) : (s.modPort p f).broadcasts = s.broadcasts := rfl
@[simp] theorem State.modPort_migrations (s : State) (p : Fin 16) (f : Port → Port) : (s.modPort p f).migrations = s.migrations := rfl
@[simp] theorem State.modPort_missing (s : State) (p : Fin 16) (f : Port → Port) : (s.modPort p f).missing = s.missing := rfl
@[simp] theorem State.modPort_relays (s : State) (p : Fin 16) (f : Port → Port) : (s.modPort p f).relays = s.relays := rfl
@[simp] theorem State.modPort_edges (s : State) (p : Fin 16) (f : Port → Port) : (s.modPort p f).edges = s.edges := rfl
@[simp] theorem State.modPort_queues (s : State) (p : Fin 16) (f : Port → Port) : (s.modPort p f).queues = s.queues := rfl
@[simp] theorem State.modPort_slots (s : State) (p : Fin 16) (f : Port → Port) : (s.modPort p f).slots = s.slots := rfl
@[simp] theorem State.modPort_pendingQ (s : State) (p : Fin 16) (f : Port → Port) : (s.modPort p f).pendingQ = s.pendingQ := rfl
@[simp] theorem State.modPort_unmapped (s : State) (p : Fin 16) (f : Port → Port) : (s.modPort p f).unmapped = s.unmapped := rfl
@[simp] theorem State.modPort_recs (s : State) (p : Fin 16) (f : Port → Port) : (s.modPort p f).recs = s.recs := rfl
@[simp] theorem State.modPort_images (s : State) (p : Fin 16) (f : Port → Port) : (s.modPort p f).images = s.images := rfl
@[simp] theorem State.modPort_launches (s : State) (p : Fin 16) (f : Port → Port) : (s.modPort p f).launches = s.launches := rfl
@[simp] theorem State.modPort_nextLid (s : State) (p : Fin 16) (f : Port → Port) : (s.modPort p f).nextLid = s.nextLid := rfl
@[simp] theorem State.modPort_tlAfter (s : State) (p : Fin 16) (f : Port → Port) : (s.modPort p f).tlAfter = s.tlAfter := rfl
@[simp] theorem State.modPort_roots (s : State) (p : Fin 16) (f : Port → Port) : (s.modPort p f).roots = s.roots := rfl
@[simp] theorem State.modPort_moves (s : State) (p : Fin 16) (f : Port → Port) : (s.modPort p f).moves = s.moves := rfl
@[simp] theorem State.modPort_pageReqs (s : State) (p : Fin 16) (f : Port → Port) : (s.modPort p f).pageReqs = s.pageReqs := rfl
@[simp] theorem State.modPort_saves (s : State) (p : Fin 16) (f : Port → Port) : (s.modPort p f).saves = s.saves := rfl
@[simp] theorem State.modPort_ctl (s : State) (p : Fin 16) (f : Port → Port) : (s.modPort p f).ctl = s.ctl := rfl
@[simp] theorem State.modPort_fw (s : State) (p : Fin 16) (f : Port → Port) : (s.modPort p f).fw = s.fw := rfl
@[simp] theorem State.modPort_assists (s : State) (p : Fin 16) (f : Port → Port) : (s.modPort p f).assists = s.assists := rfl
@[simp] theorem State.modPort_nextAssist (s : State) (p : Fin 16) (f : Port → Port) : (s.modPort p f).nextAssist = s.nextAssist := rfl
@[simp] theorem State.modPort_bar2 (s : State) (p : Fin 16) (f : Port → Port) : (s.modPort p f).bar2 = s.bar2 := rfl
@[simp] theorem State.modPort_bar2Got (s : State) (p : Fin 16) (f : Port → Port) : (s.modPort p f).bar2Got = s.bar2Got := rfl
@[simp] theorem State.modPort_hostHeld (s : State) (p : Fin 16) (f : Port → Port) : (s.modPort p f).hostHeld = s.hostHeld := rfl
@[simp] theorem State.modPort_msix (s : State) (p : Fin 16) (f : Port → Port) : (s.modPort p f).msix = s.msix := rfl
@[simp] theorem State.modPort_free (s : State) (p : Fin 16) (f : Port → Port) : (s.modPort p f).free = s.free := rfl
@[simp] theorem State.modPort_cur (s : State) (p : Fin 16) (f : Port → Port) : (s.modPort p f).cur = s.cur := rfl
@[simp] theorem State.modPort_curPort (s : State) (p : Fin 16) (f : Port → Port) : (s.modPort p f).curPort = s.curPort := rfl
@[simp] theorem State.modPort_inputs (s : State) (p : Fin 16) (f : Port → Port) : (s.modPort p f).inputs = s.inputs := rfl
@[simp] theorem State.modPort_agenda (s : State) (p : Fin 16) (f : Port → Port) : (s.modPort p f).agenda = s.agenda := rfl

@[simp] theorem State.first_now (s : State) (m : Move) : (s.first m).now = s.now := rfl
@[simp] theorem State.first_ref (s : State) (m : Move) : (s.first m).ref = s.ref := rfl
@[simp] theorem State.first_stage (s : State) (m : Move) : (s.first m).stage = s.stage := rfl
@[simp] theorem State.first_failure (s : State) (m : Move) : (s.first m).failure = s.failure := rfl
@[simp] theorem State.first_thr (s : State) (m : Move) : (s.first m).thr = s.thr := rfl
@[simp] theorem State.first_thrPhase (s : State) (m : Move) : (s.first m).thrPhase = s.thrPhase := rfl
@[simp] theorem State.first_hold (s : State) (m : Move) : (s.first m).hold = s.hold := rfl
@[simp] theorem State.first_tsensf (s : State) (m : Move) : (s.first m).tsensf = s.tsensf := rfl
@[simp] theorem State.first_tsensh (s : State) (m : Move) : (s.first m).tsensh = s.tsensh := rfl
@[simp] theorem State.first_power (s : State) (m : Move) : (s.first m).power = s.power := rfl
@[simp] theorem State.first_fuses (s : State) (m : Move) : (s.first m).fuses = s.fuses := rfl
@[simp] theorem State.first_links (s : State) (m : Move) : (s.first m).links = s.links := rfl
@[simp] theorem State.first_tiles (s : State) (m : Move) : (s.first m).tiles = s.tiles := rfl
@[simp] theorem State.first_heap (s : State) (m : Move) : (s.first m).heap = s.heap := rfl
@[simp] theorem State.first_heapBad (s : State) (m : Move) : (s.first m).heapBad = s.heapBad := rfl
@[simp] theorem State.first_hbm (s : State) (m : Move) : (s.first m).hbm = s.hbm := rfl
@[simp] theorem State.first_host (s : State) (m : Move) : (s.first m).host = s.host := rfl
@[simp] theorem State.first_ports (s : State) (m : Move) : (s.first m).ports = s.ports := rfl
@[simp] theorem State.first_tls (s : State) (m : Move) : (s.first m).tls = s.tls := rfl
@[simp] theorem State.first_advances (s : State) (m : Move) : (s.first m).advances = s.advances := rfl
@[simp] theorem State.first_deliveries (s : State) (m : Move) : (s.first m).deliveries = s.deliveries := rfl
@[simp] theorem State.first_swarms (s : State) (m : Move) : (s.first m).swarms = s.swarms := rfl
@[simp] theorem State.first_tmap (s : State) (m : Move) : (s.first m).tmap = s.tmap := rfl
@[simp] theorem State.first_broodTaken (s : State) (m : Move) : (s.first m).broodTaken = s.broodTaken := rfl
@[simp] theorem State.first_tmVer (s : State) (m : Move) : (s.first m).tmVer = s.tmVer := rfl
@[simp] theorem State.first_broadcasts (s : State) (m : Move) : (s.first m).broadcasts = s.broadcasts := rfl
@[simp] theorem State.first_migrations (s : State) (m : Move) : (s.first m).migrations = s.migrations := rfl
@[simp] theorem State.first_missing (s : State) (m : Move) : (s.first m).missing = s.missing := rfl
@[simp] theorem State.first_relays (s : State) (m : Move) : (s.first m).relays = s.relays := rfl
@[simp] theorem State.first_edges (s : State) (m : Move) : (s.first m).edges = s.edges := rfl
@[simp] theorem State.first_queues (s : State) (m : Move) : (s.first m).queues = s.queues := rfl
@[simp] theorem State.first_slots (s : State) (m : Move) : (s.first m).slots = s.slots := rfl
@[simp] theorem State.first_pendingQ (s : State) (m : Move) : (s.first m).pendingQ = s.pendingQ := rfl
@[simp] theorem State.first_unmapped (s : State) (m : Move) : (s.first m).unmapped = s.unmapped := rfl
@[simp] theorem State.first_recs (s : State) (m : Move) : (s.first m).recs = s.recs := rfl
@[simp] theorem State.first_images (s : State) (m : Move) : (s.first m).images = s.images := rfl
@[simp] theorem State.first_launches (s : State) (m : Move) : (s.first m).launches = s.launches := rfl
@[simp] theorem State.first_nextLid (s : State) (m : Move) : (s.first m).nextLid = s.nextLid := rfl
@[simp] theorem State.first_tlAfter (s : State) (m : Move) : (s.first m).tlAfter = s.tlAfter := rfl
@[simp] theorem State.first_roots (s : State) (m : Move) : (s.first m).roots = s.roots := rfl
@[simp] theorem State.first_moves (s : State) (m : Move) : (s.first m).moves = s.moves := rfl
@[simp] theorem State.first_pageReqs (s : State) (m : Move) : (s.first m).pageReqs = s.pageReqs := rfl
@[simp] theorem State.first_saves (s : State) (m : Move) : (s.first m).saves = s.saves := rfl
@[simp] theorem State.first_ctl (s : State) (m : Move) : (s.first m).ctl = s.ctl := rfl
@[simp] theorem State.first_fw (s : State) (m : Move) : (s.first m).fw = s.fw := rfl
@[simp] theorem State.first_assists (s : State) (m : Move) : (s.first m).assists = s.assists := rfl
@[simp] theorem State.first_nextAssist (s : State) (m : Move) : (s.first m).nextAssist = s.nextAssist := rfl
@[simp] theorem State.first_bar2 (s : State) (m : Move) : (s.first m).bar2 = s.bar2 := rfl
@[simp] theorem State.first_bar2Got (s : State) (m : Move) : (s.first m).bar2Got = s.bar2Got := rfl
@[simp] theorem State.first_hostHeld (s : State) (m : Move) : (s.first m).hostHeld = s.hostHeld := rfl
@[simp] theorem State.first_msix (s : State) (m : Move) : (s.first m).msix = s.msix := rfl
@[simp] theorem State.first_free (s : State) (m : Move) : (s.first m).free = s.free := rfl
@[simp] theorem State.first_cur (s : State) (m : Move) : (s.first m).cur = s.cur := rfl
@[simp] theorem State.first_curPort (s : State) (m : Move) : (s.first m).curPort = s.curPort := rfl
@[simp] theorem State.first_inputs (s : State) (m : Move) : (s.first m).inputs = s.inputs := rfl

@[simp] theorem State.bump_now (s : State) : (s.bump).now = s.now := rfl
@[simp] theorem State.bump_ref (s : State) : (s.bump).ref = s.ref := rfl
@[simp] theorem State.bump_stage (s : State) : (s.bump).stage = s.stage := rfl
@[simp] theorem State.bump_failure (s : State) : (s.bump).failure = s.failure := rfl
@[simp] theorem State.bump_thr (s : State) : (s.bump).thr = s.thr := rfl
@[simp] theorem State.bump_thrPhase (s : State) : (s.bump).thrPhase = s.thrPhase := rfl
@[simp] theorem State.bump_hold (s : State) : (s.bump).hold = s.hold := rfl
@[simp] theorem State.bump_tsensf (s : State) : (s.bump).tsensf = s.tsensf := rfl
@[simp] theorem State.bump_tsensh (s : State) : (s.bump).tsensh = s.tsensh := rfl
@[simp] theorem State.bump_power (s : State) : (s.bump).power = s.power := rfl
@[simp] theorem State.bump_fuses (s : State) : (s.bump).fuses = s.fuses := rfl
@[simp] theorem State.bump_links (s : State) : (s.bump).links = s.links := rfl
@[simp] theorem State.bump_tiles (s : State) : (s.bump).tiles = s.tiles := rfl
@[simp] theorem State.bump_heap (s : State) : (s.bump).heap = s.heap := rfl
@[simp] theorem State.bump_heapBad (s : State) : (s.bump).heapBad = s.heapBad := rfl
@[simp] theorem State.bump_hbm (s : State) : (s.bump).hbm = s.hbm := rfl
@[simp] theorem State.bump_host (s : State) : (s.bump).host = s.host := rfl
@[simp] theorem State.bump_ports (s : State) : (s.bump).ports = s.ports := rfl
@[simp] theorem State.bump_tls (s : State) : (s.bump).tls = s.tls := rfl
@[simp] theorem State.bump_advances (s : State) : (s.bump).advances = s.advances := rfl
@[simp] theorem State.bump_deliveries (s : State) : (s.bump).deliveries = s.deliveries := rfl
@[simp] theorem State.bump_swarms (s : State) : (s.bump).swarms = s.swarms := rfl
@[simp] theorem State.bump_tmap (s : State) : (s.bump).tmap = s.tmap := rfl
@[simp] theorem State.bump_broodTaken (s : State) : (s.bump).broodTaken = s.broodTaken := rfl
@[simp] theorem State.bump_tmVer (s : State) : (s.bump).tmVer = s.tmVer := rfl
@[simp] theorem State.bump_broadcasts (s : State) : (s.bump).broadcasts = s.broadcasts := rfl
@[simp] theorem State.bump_migrations (s : State) : (s.bump).migrations = s.migrations := rfl
@[simp] theorem State.bump_missing (s : State) : (s.bump).missing = s.missing := rfl
@[simp] theorem State.bump_relays (s : State) : (s.bump).relays = s.relays := rfl
@[simp] theorem State.bump_edges (s : State) : (s.bump).edges = s.edges := rfl
@[simp] theorem State.bump_queues (s : State) : (s.bump).queues = s.queues := rfl
@[simp] theorem State.bump_slots (s : State) : (s.bump).slots = s.slots := rfl
@[simp] theorem State.bump_pendingQ (s : State) : (s.bump).pendingQ = s.pendingQ := rfl
@[simp] theorem State.bump_unmapped (s : State) : (s.bump).unmapped = s.unmapped := rfl
@[simp] theorem State.bump_recs (s : State) : (s.bump).recs = s.recs := rfl
@[simp] theorem State.bump_images (s : State) : (s.bump).images = s.images := rfl
@[simp] theorem State.bump_launches (s : State) : (s.bump).launches = s.launches := rfl
@[simp] theorem State.bump_nextLid (s : State) : (s.bump).nextLid = s.nextLid := rfl
@[simp] theorem State.bump_tlAfter (s : State) : (s.bump).tlAfter = s.tlAfter := rfl
@[simp] theorem State.bump_roots (s : State) : (s.bump).roots = s.roots := rfl
@[simp] theorem State.bump_moves (s : State) : (s.bump).moves = s.moves := rfl
@[simp] theorem State.bump_pageReqs (s : State) : (s.bump).pageReqs = s.pageReqs := rfl
@[simp] theorem State.bump_saves (s : State) : (s.bump).saves = s.saves := rfl
@[simp] theorem State.bump_ctl (s : State) : (s.bump).ctl = s.ctl := rfl
@[simp] theorem State.bump_fw (s : State) : (s.bump).fw = s.fw := rfl
@[simp] theorem State.bump_assists (s : State) : (s.bump).assists = s.assists := rfl
@[simp] theorem State.bump_nextAssist (s : State) : (s.bump).nextAssist = s.nextAssist := rfl
@[simp] theorem State.bump_bar2 (s : State) : (s.bump).bar2 = s.bar2 := rfl
@[simp] theorem State.bump_bar2Got (s : State) : (s.bump).bar2Got = s.bar2Got := rfl
@[simp] theorem State.bump_hostHeld (s : State) : (s.bump).hostHeld = s.hostHeld := rfl
@[simp] theorem State.bump_msix (s : State) : (s.bump).msix = s.msix := rfl
@[simp] theorem State.bump_cur (s : State) : (s.bump).cur = s.cur := rfl
@[simp] theorem State.bump_curPort (s : State) : (s.bump).curPort = s.curPort := rfl
@[simp] theorem State.bump_inputs (s : State) : (s.bump).inputs = s.inputs := rfl
@[simp] theorem State.bump_agenda (s : State) : (s.bump).agenda = s.agenda := rfl

@[simp] theorem Tile.modCtx_spm (t : Tile) (c : Fin 4) (f : Context → Context) : (t.modCtx c f).spm = t.spm := rfl
@[simp] theorem Tile.modCtx_spmPrev (t : Tile) (c : Fin 4) (f : Context → Context) : (t.modCtx c f).spmPrev = t.spmPrev := rfl
@[simp] theorem Tile.modCtx_reads (t : Tile) (c : Fin 4) (f : Context → Context) : (t.modCtx c f).reads = t.reads := rfl
@[simp] theorem Tile.modCtx_writes (t : Tile) (c : Fin 4) (f : Context → Context) : (t.modCtx c f).writes = t.writes := rfl
@[simp] theorem Tile.modCtx_staccs (t : Tile) (c : Fin 4) (f : Context → Context) : (t.modCtx c f).staccs = t.staccs := rfl
@[simp] theorem Tile.modCtx_ldaccs (t : Tile) (c : Fin 4) (f : Context → Context) : (t.modCtx c f).ldaccs = t.ldaccs := rfl
@[simp] theorem Tile.modCtx_acm (t : Tile) (c : Fin 4) (f : Context → Context) : (t.modCtx c f).acm = t.acm := rfl
@[simp] theorem Tile.modCtx_wp (t : Tile) (c : Fin 4) (f : Context → Context) : (t.modCtx c f).wp = t.wp := rfl
@[simp] theorem Tile.modCtx_q (t : Tile) (c : Fin 4) (f : Context → Context) : (t.modCtx c f).q = t.q := rfl
@[simp] theorem Tile.modCtx_qpend (t : Tile) (c : Fin 4) (f : Context → Context) : (t.modCtx c f).qpend = t.qpend := rfl
@[simp] theorem Tile.modCtx_prec (t : Tile) (c : Fin 4) (f : Context → Context) : (t.modCtx c f).prec = t.prec := rfl
@[simp] theorem Tile.modCtx_decay (t : Tile) (c : Fin 4) (f : Context → Context) : (t.modCtx c f).decay = t.decay := rfl
@[simp] theorem Tile.modCtx_rowp (t : Tile) (c : Fin 4) (f : Context → Context) : (t.modCtx c f).rowp = t.rowp := rfl
@[simp] theorem Tile.modCtx_colp (t : Tile) (c : Fin 4) (f : Context → Context) : (t.modCtx c f).colp = t.colp := rfl
@[simp] theorem Tile.modCtx_own (t : Tile) (c : Fin 4) (f : Context → Context) : (t.modCtx c f).own = t.own := rfl
@[simp] theorem Tile.modCtx_ownV (t : Tile) (c : Fin 4) (f : Context → Context) : (t.modCtx c f).ownV = t.ownV := rfl
@[simp] theorem Tile.modCtx_ownRel (t : Tile) (c : Fin 4) (f : Context → Context) : (t.modCtx c f).ownRel = t.ownRel := rfl
@[simp] theorem Tile.modCtx_rings (t : Tile) (c : Fin 4) (f : Context → Context) : (t.modCtx c f).rings = t.rings := rfl
@[simp] theorem Tile.modCtx_bufs (t : Tile) (c : Fin 4) (f : Context → Context) : (t.modCtx c f).bufs = t.bufs := rfl
@[simp] theorem Tile.modCtx_sems (t : Tile) (c : Fin 4) (f : Context → Context) : (t.modCtx c f).sems = t.sems := rfl
@[simp] theorem Tile.modCtx_semClip (t : Tile) (c : Fin 4) (f : Context → Context) : (t.modCtx c f).semClip = t.semClip := rfl
@[simp] theorem Tile.modCtx_err (t : Tile) (c : Fin 4) (f : Context → Context) : (t.modCtx c f).err = t.err := rfl
@[simp] theorem Tile.modCtx_pmc (t : Tile) (c : Fin 4) (f : Context → Context) : (t.modCtx c f).pmc = t.pmc := rfl
@[simp] theorem Tile.modCtx_pmsel (t : Tile) (c : Fin 4) (f : Context → Context) : (t.modCtx c f).pmsel = t.pmsel := rfl
@[simp] theorem Tile.modCtx_errPrev (t : Tile) (c : Fin 4) (f : Context → Context) : (t.modCtx c f).errPrev = t.errPrev := rfl
@[simp] theorem Tile.modCtx_pmcPrev (t : Tile) (c : Fin 4) (f : Context → Context) : (t.modCtx c f).pmcPrev = t.pmcPrev := rfl
@[simp] theorem Tile.modCtx_pmselPrev (t : Tile) (c : Fin 4) (f : Context → Context) : (t.modCtx c f).pmselPrev = t.pmselPrev := rfl
@[simp] theorem Tile.modCtx_mxownPrev (t : Tile) (c : Fin 4) (f : Context → Context) : (t.modCtx c f).mxownPrev = t.mxownPrev := rfl
@[simp] theorem Tile.modCtx_errLock (t : Tile) (c : Fin 4) (f : Context → Context) : (t.modCtx c f).errLock = t.errLock := rfl
@[simp] theorem Tile.modCtx_pmcLock (t : Tile) (c : Fin 4) (f : Context → Context) : (t.modCtx c f).pmcLock = t.pmcLock := rfl
@[simp] theorem Tile.modCtx_icache (t : Tile) (c : Fin 4) (f : Context → Context) : (t.modCtx c f).icache = t.icache := rfl
@[simp] theorem Tile.modCtx_region (t : Tile) (c : Fin 4) (f : Context → Context) : (t.modCtx c f).region = t.region := rfl
@[simp] theorem Tile.modCtx_code (t : Tile) (c : Fin 4) (f : Context → Context) : (t.modCtx c f).code = t.code := rfl
@[simp] theorem Tile.modCtx_codeHeld (t : Tile) (c : Fin 4) (f : Context → Context) : (t.modCtx c f).codeHeld = t.codeHeld := rfl
@[simp] theorem Tile.modCtx_refetch (t : Tile) (c : Fin 4) (f : Context → Context) : (t.modCtx c f).refetch = t.refetch := rfl
@[simp] theorem Tile.modCtx_lock (t : Tile) (c : Fin 4) (f : Context → Context) : (t.modCtx c f).lock = t.lock := rfl
@[simp] theorem Tile.modCtx_routes (t : Tile) (c : Fin 4) (f : Context → Context) : (t.modCtx c f).routes = t.routes := rfl
@[simp] theorem Tile.modCtx_chans (t : Tile) (c : Fin 4) (f : Context → Context) : (t.modCtx c f).chans = t.chans := rfl
@[simp] theorem Tile.modCtx_tmc (t : Tile) (c : Fin 4) (f : Context → Context) : (t.modCtx c f).tmc = t.tmc := rfl
@[simp] theorem Tile.modCtx_tmMiss (t : Tile) (c : Fin 4) (f : Context → Context) : (t.modCtx c f).tmMiss = t.tmMiss := rfl
@[simp] theorem Tile.modCtx_tmVer (t : Tile) (c : Fin 4) (f : Context → Context) : (t.modCtx c f).tmVer = t.tmVer := rfl
@[simp] theorem Tile.modCtx_views (t : Tile) (c : Fin 4) (f : Context → Context) : (t.modCtx c f).views = t.views := rfl
@[simp] theorem Tile.modCtx_tlb (t : Tile) (c : Fin 4) (f : Context → Context) : (t.modCtx c f).tlb = t.tlb := rfl
@[simp] theorem Tile.modCtx_walks (t : Tile) (c : Fin 4) (f : Context → Context) : (t.modCtx c f).walks = t.walks := rfl
@[simp] theorem Tile.modCtx_mxq (t : Tile) (c : Fin 4) (f : Context → Context) : (t.modCtx c f).mxq = t.mxq := rfl
@[simp] theorem Tile.modCtx_mxRun (t : Tile) (c : Fin 4) (f : Context → Context) : (t.modCtx c f).mxRun = t.mxRun := rfl
@[simp] theorem Tile.modCtx_drains (t : Tile) (c : Fin 4) (f : Context → Context) : (t.modCtx c f).drains = t.drains := rfl
@[simp] theorem Tile.modCtx_publishing (t : Tile) (c : Fin 4) (f : Context → Context) : (t.modCtx c f).publishing = t.publishing := rfl
@[simp] theorem Tile.modCtx_cpq (t : Tile) (c : Fin 4) (f : Context → Context) : (t.modCtx c f).cpq = t.cpq := rfl
@[simp] theorem Tile.modCtx_flights (t : Tile) (c : Fin 4) (f : Context → Context) : (t.modCtx c f).flights = t.flights := rfl
@[simp] theorem Tile.modCtx_acks (t : Tile) (c : Fin 4) (f : Context → Context) : (t.modCtx c f).acks = t.acks := rfl
@[simp] theorem Tile.modCtx_pages (t : Tile) (c : Fin 4) (f : Context → Context) : (t.modCtx c f).pages = t.pages := rfl
@[simp] theorem Tile.modCtx_chq (t : Tile) (c : Fin 4) (f : Context → Context) : (t.modCtx c f).chq = t.chq := rfl
@[simp] theorem Tile.modCtx_tx (t : Tile) (c : Fin 4) (f : Context → Context) : (t.modCtx c f).tx = t.tx := rfl
@[simp] theorem Tile.modCtx_vwWait (t : Tile) (c : Fin 4) (f : Context → Context) : (t.modCtx c f).vwWait = t.vwWait := rfl
@[simp] theorem Tile.modCtx_live (t : Tile) (c : Fin 4) (f : Context → Context) : (t.modCtx c f).live = t.live := rfl
@[simp] theorem Tile.modCtx_nextId (t : Tile) (c : Fin 4) (f : Context → Context) : (t.modCtx c f).nextId = t.nextId := rfl
@[simp] theorem Tile.modCtx_inC (t : Tile) (c : Fin 4) (f : Context → Context) : (t.modCtx c f).inC = t.inC := rfl
@[simp] theorem Tile.modCtx_inR (t : Tile) (c : Fin 4) (f : Context → Context) : (t.modCtx c f).inR = t.inR := rfl
@[simp] theorem Tile.modCtx_outC (t : Tile) (c : Fin 4) (f : Context → Context) : (t.modCtx c f).outC = t.outC := rfl
@[simp] theorem Tile.modCtx_outR (t : Tile) (c : Fin 4) (f : Context → Context) : (t.modCtx c f).outR = t.outR := rfl
@[simp] theorem Tile.modCtx_credits (t : Tile) (c : Fin 4) (f : Context → Context) : (t.modCtx c f).credits = t.credits := rfl
@[simp] theorem Tile.modCtx_owed (t : Tile) (c : Fin 4) (f : Context → Context) : (t.modCtx c f).owed = t.owed := rfl
@[simp] theorem Tile.modCtx_seqs (t : Tile) (c : Fin 4) (f : Context → Context) : (t.modCtx c f).seqs = t.seqs := rfl
@[simp] theorem Tile.modCtx_colls (t : Tile) (c : Fin 4) (f : Context → Context) : (t.modCtx c f).colls = t.colls := rfl
@[simp] theorem Tile.modCtx_portBusy (t : Tile) (c : Fin 4) (f : Context → Context) : (t.modCtx c f).portBusy = t.portBusy := rfl
@[simp] theorem Tile.modCtx_portLast (t : Tile) (c : Fin 4) (f : Context → Context) : (t.modCtx c f).portLast = t.portLast := rfl
@[simp] theorem Tile.modCtx_owners (t : Tile) (c : Fin 4) (f : Context → Context) : (t.modCtx c f).owners = t.owners := rfl
@[simp] theorem Tile.modCtx_upsets (t : Tile) (c : Fin 4) (f : Context → Context) : (t.modCtx c f).upsets = t.upsets := rfl
@[simp] theorem Tile.modCtx_fixes (t : Tile) (c : Fin 4) (f : Context → Context) : (t.modCtx c f).fixes = t.fixes := rfl
@[simp] theorem Tile.modCtx_scrubAt (t : Tile) (c : Fin 4) (f : Context → Context) : (t.modCtx c f).scrubAt = t.scrubAt := rfl
@[simp] theorem Tile.modCtx_arb (t : Tile) (c : Fin 4) (f : Context → Context) : (t.modCtx c f).arb = t.arb := rfl
@[simp] theorem Tile.modCtx_lastIssue (t : Tile) (c : Fin 4) (f : Context → Context) : (t.modCtx c f).lastIssue = t.lastIssue := rfl
@[simp] theorem Tile.modCtx_holder (t : Tile) (c : Fin 4) (f : Context → Context) : (t.modCtx c f).holder = t.holder := rfl
@[simp] theorem Tile.modCtx_hold (t : Tile) (c : Fin 4) (f : Context → Context) : (t.modCtx c f).hold = t.hold := rfl
@[simp] theorem Tile.modCtx_tls (t : Tile) (c : Fin 4) (f : Context → Context) : (t.modCtx c f).tls = t.tls := rfl
@[simp] theorem Tile.modCtx_mig (t : Tile) (c : Fin 4) (f : Context → Context) : (t.modCtx c f).mig = t.mig := rfl
@[simp] theorem Tile.modCtx_absent (t : Tile) (c : Fin 4) (f : Context → Context) : (t.modCtx c f).absent = t.absent := rfl

@[simp] theorem Tile.setBuf_spm (t : Tile) (b : Fin 32) (f : Buffer → Buffer) : (t.setBuf b f).spm = t.spm := rfl
@[simp] theorem Tile.setBuf_spmPrev (t : Tile) (b : Fin 32) (f : Buffer → Buffer) : (t.setBuf b f).spmPrev = t.spmPrev := rfl
@[simp] theorem Tile.setBuf_reads (t : Tile) (b : Fin 32) (f : Buffer → Buffer) : (t.setBuf b f).reads = t.reads := rfl
@[simp] theorem Tile.setBuf_writes (t : Tile) (b : Fin 32) (f : Buffer → Buffer) : (t.setBuf b f).writes = t.writes := rfl
@[simp] theorem Tile.setBuf_staccs (t : Tile) (b : Fin 32) (f : Buffer → Buffer) : (t.setBuf b f).staccs = t.staccs := rfl
@[simp] theorem Tile.setBuf_ldaccs (t : Tile) (b : Fin 32) (f : Buffer → Buffer) : (t.setBuf b f).ldaccs = t.ldaccs := rfl
@[simp] theorem Tile.setBuf_acm (t : Tile) (b : Fin 32) (f : Buffer → Buffer) : (t.setBuf b f).acm = t.acm := rfl
@[simp] theorem Tile.setBuf_wp (t : Tile) (b : Fin 32) (f : Buffer → Buffer) : (t.setBuf b f).wp = t.wp := rfl
@[simp] theorem Tile.setBuf_q (t : Tile) (b : Fin 32) (f : Buffer → Buffer) : (t.setBuf b f).q = t.q := rfl
@[simp] theorem Tile.setBuf_qpend (t : Tile) (b : Fin 32) (f : Buffer → Buffer) : (t.setBuf b f).qpend = t.qpend := rfl
@[simp] theorem Tile.setBuf_prec (t : Tile) (b : Fin 32) (f : Buffer → Buffer) : (t.setBuf b f).prec = t.prec := rfl
@[simp] theorem Tile.setBuf_decay (t : Tile) (b : Fin 32) (f : Buffer → Buffer) : (t.setBuf b f).decay = t.decay := rfl
@[simp] theorem Tile.setBuf_rowp (t : Tile) (b : Fin 32) (f : Buffer → Buffer) : (t.setBuf b f).rowp = t.rowp := rfl
@[simp] theorem Tile.setBuf_colp (t : Tile) (b : Fin 32) (f : Buffer → Buffer) : (t.setBuf b f).colp = t.colp := rfl
@[simp] theorem Tile.setBuf_own (t : Tile) (b : Fin 32) (f : Buffer → Buffer) : (t.setBuf b f).own = t.own := rfl
@[simp] theorem Tile.setBuf_ownV (t : Tile) (b : Fin 32) (f : Buffer → Buffer) : (t.setBuf b f).ownV = t.ownV := rfl
@[simp] theorem Tile.setBuf_ownRel (t : Tile) (b : Fin 32) (f : Buffer → Buffer) : (t.setBuf b f).ownRel = t.ownRel := rfl
@[simp] theorem Tile.setBuf_rings (t : Tile) (b : Fin 32) (f : Buffer → Buffer) : (t.setBuf b f).rings = t.rings := rfl
@[simp] theorem Tile.setBuf_sems (t : Tile) (b : Fin 32) (f : Buffer → Buffer) : (t.setBuf b f).sems = t.sems := rfl
@[simp] theorem Tile.setBuf_semClip (t : Tile) (b : Fin 32) (f : Buffer → Buffer) : (t.setBuf b f).semClip = t.semClip := rfl
@[simp] theorem Tile.setBuf_err (t : Tile) (b : Fin 32) (f : Buffer → Buffer) : (t.setBuf b f).err = t.err := rfl
@[simp] theorem Tile.setBuf_pmc (t : Tile) (b : Fin 32) (f : Buffer → Buffer) : (t.setBuf b f).pmc = t.pmc := rfl
@[simp] theorem Tile.setBuf_pmsel (t : Tile) (b : Fin 32) (f : Buffer → Buffer) : (t.setBuf b f).pmsel = t.pmsel := rfl
@[simp] theorem Tile.setBuf_errPrev (t : Tile) (b : Fin 32) (f : Buffer → Buffer) : (t.setBuf b f).errPrev = t.errPrev := rfl
@[simp] theorem Tile.setBuf_pmcPrev (t : Tile) (b : Fin 32) (f : Buffer → Buffer) : (t.setBuf b f).pmcPrev = t.pmcPrev := rfl
@[simp] theorem Tile.setBuf_pmselPrev (t : Tile) (b : Fin 32) (f : Buffer → Buffer) : (t.setBuf b f).pmselPrev = t.pmselPrev := rfl
@[simp] theorem Tile.setBuf_mxownPrev (t : Tile) (b : Fin 32) (f : Buffer → Buffer) : (t.setBuf b f).mxownPrev = t.mxownPrev := rfl
@[simp] theorem Tile.setBuf_errLock (t : Tile) (b : Fin 32) (f : Buffer → Buffer) : (t.setBuf b f).errLock = t.errLock := rfl
@[simp] theorem Tile.setBuf_pmcLock (t : Tile) (b : Fin 32) (f : Buffer → Buffer) : (t.setBuf b f).pmcLock = t.pmcLock := rfl
@[simp] theorem Tile.setBuf_icache (t : Tile) (b : Fin 32) (f : Buffer → Buffer) : (t.setBuf b f).icache = t.icache := rfl
@[simp] theorem Tile.setBuf_region (t : Tile) (b : Fin 32) (f : Buffer → Buffer) : (t.setBuf b f).region = t.region := rfl
@[simp] theorem Tile.setBuf_code (t : Tile) (b : Fin 32) (f : Buffer → Buffer) : (t.setBuf b f).code = t.code := rfl
@[simp] theorem Tile.setBuf_codeHeld (t : Tile) (b : Fin 32) (f : Buffer → Buffer) : (t.setBuf b f).codeHeld = t.codeHeld := rfl
@[simp] theorem Tile.setBuf_refetch (t : Tile) (b : Fin 32) (f : Buffer → Buffer) : (t.setBuf b f).refetch = t.refetch := rfl
@[simp] theorem Tile.setBuf_lock (t : Tile) (b : Fin 32) (f : Buffer → Buffer) : (t.setBuf b f).lock = t.lock := rfl
@[simp] theorem Tile.setBuf_routes (t : Tile) (b : Fin 32) (f : Buffer → Buffer) : (t.setBuf b f).routes = t.routes := rfl
@[simp] theorem Tile.setBuf_chans (t : Tile) (b : Fin 32) (f : Buffer → Buffer) : (t.setBuf b f).chans = t.chans := rfl
@[simp] theorem Tile.setBuf_tmc (t : Tile) (b : Fin 32) (f : Buffer → Buffer) : (t.setBuf b f).tmc = t.tmc := rfl
@[simp] theorem Tile.setBuf_tmMiss (t : Tile) (b : Fin 32) (f : Buffer → Buffer) : (t.setBuf b f).tmMiss = t.tmMiss := rfl
@[simp] theorem Tile.setBuf_tmVer (t : Tile) (b : Fin 32) (f : Buffer → Buffer) : (t.setBuf b f).tmVer = t.tmVer := rfl
@[simp] theorem Tile.setBuf_views (t : Tile) (b : Fin 32) (f : Buffer → Buffer) : (t.setBuf b f).views = t.views := rfl
@[simp] theorem Tile.setBuf_tlb (t : Tile) (b : Fin 32) (f : Buffer → Buffer) : (t.setBuf b f).tlb = t.tlb := rfl
@[simp] theorem Tile.setBuf_walks (t : Tile) (b : Fin 32) (f : Buffer → Buffer) : (t.setBuf b f).walks = t.walks := rfl
@[simp] theorem Tile.setBuf_mxq (t : Tile) (b : Fin 32) (f : Buffer → Buffer) : (t.setBuf b f).mxq = t.mxq := rfl
@[simp] theorem Tile.setBuf_mxRun (t : Tile) (b : Fin 32) (f : Buffer → Buffer) : (t.setBuf b f).mxRun = t.mxRun := rfl
@[simp] theorem Tile.setBuf_drains (t : Tile) (b : Fin 32) (f : Buffer → Buffer) : (t.setBuf b f).drains = t.drains := rfl
@[simp] theorem Tile.setBuf_publishing (t : Tile) (b : Fin 32) (f : Buffer → Buffer) : (t.setBuf b f).publishing = t.publishing := rfl
@[simp] theorem Tile.setBuf_cpq (t : Tile) (b : Fin 32) (f : Buffer → Buffer) : (t.setBuf b f).cpq = t.cpq := rfl
@[simp] theorem Tile.setBuf_flights (t : Tile) (b : Fin 32) (f : Buffer → Buffer) : (t.setBuf b f).flights = t.flights := rfl
@[simp] theorem Tile.setBuf_acks (t : Tile) (b : Fin 32) (f : Buffer → Buffer) : (t.setBuf b f).acks = t.acks := rfl
@[simp] theorem Tile.setBuf_pages (t : Tile) (b : Fin 32) (f : Buffer → Buffer) : (t.setBuf b f).pages = t.pages := rfl
@[simp] theorem Tile.setBuf_chq (t : Tile) (b : Fin 32) (f : Buffer → Buffer) : (t.setBuf b f).chq = t.chq := rfl
@[simp] theorem Tile.setBuf_tx (t : Tile) (b : Fin 32) (f : Buffer → Buffer) : (t.setBuf b f).tx = t.tx := rfl
@[simp] theorem Tile.setBuf_vwWait (t : Tile) (b : Fin 32) (f : Buffer → Buffer) : (t.setBuf b f).vwWait = t.vwWait := rfl
@[simp] theorem Tile.setBuf_live (t : Tile) (b : Fin 32) (f : Buffer → Buffer) : (t.setBuf b f).live = t.live := rfl
@[simp] theorem Tile.setBuf_nextId (t : Tile) (b : Fin 32) (f : Buffer → Buffer) : (t.setBuf b f).nextId = t.nextId := rfl
@[simp] theorem Tile.setBuf_inC (t : Tile) (b : Fin 32) (f : Buffer → Buffer) : (t.setBuf b f).inC = t.inC := rfl
@[simp] theorem Tile.setBuf_inR (t : Tile) (b : Fin 32) (f : Buffer → Buffer) : (t.setBuf b f).inR = t.inR := rfl
@[simp] theorem Tile.setBuf_outC (t : Tile) (b : Fin 32) (f : Buffer → Buffer) : (t.setBuf b f).outC = t.outC := rfl
@[simp] theorem Tile.setBuf_outR (t : Tile) (b : Fin 32) (f : Buffer → Buffer) : (t.setBuf b f).outR = t.outR := rfl
@[simp] theorem Tile.setBuf_credits (t : Tile) (b : Fin 32) (f : Buffer → Buffer) : (t.setBuf b f).credits = t.credits := rfl
@[simp] theorem Tile.setBuf_owed (t : Tile) (b : Fin 32) (f : Buffer → Buffer) : (t.setBuf b f).owed = t.owed := rfl
@[simp] theorem Tile.setBuf_seqs (t : Tile) (b : Fin 32) (f : Buffer → Buffer) : (t.setBuf b f).seqs = t.seqs := rfl
@[simp] theorem Tile.setBuf_colls (t : Tile) (b : Fin 32) (f : Buffer → Buffer) : (t.setBuf b f).colls = t.colls := rfl
@[simp] theorem Tile.setBuf_portBusy (t : Tile) (b : Fin 32) (f : Buffer → Buffer) : (t.setBuf b f).portBusy = t.portBusy := rfl
@[simp] theorem Tile.setBuf_portLast (t : Tile) (b : Fin 32) (f : Buffer → Buffer) : (t.setBuf b f).portLast = t.portLast := rfl
@[simp] theorem Tile.setBuf_owners (t : Tile) (b : Fin 32) (f : Buffer → Buffer) : (t.setBuf b f).owners = t.owners := rfl
@[simp] theorem Tile.setBuf_upsets (t : Tile) (b : Fin 32) (f : Buffer → Buffer) : (t.setBuf b f).upsets = t.upsets := rfl
@[simp] theorem Tile.setBuf_fixes (t : Tile) (b : Fin 32) (f : Buffer → Buffer) : (t.setBuf b f).fixes = t.fixes := rfl
@[simp] theorem Tile.setBuf_scrubAt (t : Tile) (b : Fin 32) (f : Buffer → Buffer) : (t.setBuf b f).scrubAt = t.scrubAt := rfl
@[simp] theorem Tile.setBuf_ctxs (t : Tile) (b : Fin 32) (f : Buffer → Buffer) : (t.setBuf b f).ctxs = t.ctxs := rfl
@[simp] theorem Tile.setBuf_arb (t : Tile) (b : Fin 32) (f : Buffer → Buffer) : (t.setBuf b f).arb = t.arb := rfl
@[simp] theorem Tile.setBuf_lastIssue (t : Tile) (b : Fin 32) (f : Buffer → Buffer) : (t.setBuf b f).lastIssue = t.lastIssue := rfl
@[simp] theorem Tile.setBuf_holder (t : Tile) (b : Fin 32) (f : Buffer → Buffer) : (t.setBuf b f).holder = t.holder := rfl
@[simp] theorem Tile.setBuf_hold (t : Tile) (b : Fin 32) (f : Buffer → Buffer) : (t.setBuf b f).hold = t.hold := rfl
@[simp] theorem Tile.setBuf_tls (t : Tile) (b : Fin 32) (f : Buffer → Buffer) : (t.setBuf b f).tls = t.tls := rfl
@[simp] theorem Tile.setBuf_mig (t : Tile) (b : Fin 32) (f : Buffer → Buffer) : (t.setBuf b f).mig = t.mig := rfl
@[simp] theorem Tile.setBuf_absent (t : Tile) (b : Fin 32) (f : Buffer → Buffer) : (t.setBuf b f).absent = t.absent := rfl

@[simp] theorem Tile.setRing_spm (t : Tile) (r : Fin 8) (f : Ring → Ring) : (t.setRing r f).spm = t.spm := rfl
@[simp] theorem Tile.setRing_spmPrev (t : Tile) (r : Fin 8) (f : Ring → Ring) : (t.setRing r f).spmPrev = t.spmPrev := rfl
@[simp] theorem Tile.setRing_reads (t : Tile) (r : Fin 8) (f : Ring → Ring) : (t.setRing r f).reads = t.reads := rfl
@[simp] theorem Tile.setRing_writes (t : Tile) (r : Fin 8) (f : Ring → Ring) : (t.setRing r f).writes = t.writes := rfl
@[simp] theorem Tile.setRing_staccs (t : Tile) (r : Fin 8) (f : Ring → Ring) : (t.setRing r f).staccs = t.staccs := rfl
@[simp] theorem Tile.setRing_ldaccs (t : Tile) (r : Fin 8) (f : Ring → Ring) : (t.setRing r f).ldaccs = t.ldaccs := rfl
@[simp] theorem Tile.setRing_acm (t : Tile) (r : Fin 8) (f : Ring → Ring) : (t.setRing r f).acm = t.acm := rfl
@[simp] theorem Tile.setRing_wp (t : Tile) (r : Fin 8) (f : Ring → Ring) : (t.setRing r f).wp = t.wp := rfl
@[simp] theorem Tile.setRing_q (t : Tile) (r : Fin 8) (f : Ring → Ring) : (t.setRing r f).q = t.q := rfl
@[simp] theorem Tile.setRing_qpend (t : Tile) (r : Fin 8) (f : Ring → Ring) : (t.setRing r f).qpend = t.qpend := rfl
@[simp] theorem Tile.setRing_prec (t : Tile) (r : Fin 8) (f : Ring → Ring) : (t.setRing r f).prec = t.prec := rfl
@[simp] theorem Tile.setRing_decay (t : Tile) (r : Fin 8) (f : Ring → Ring) : (t.setRing r f).decay = t.decay := rfl
@[simp] theorem Tile.setRing_rowp (t : Tile) (r : Fin 8) (f : Ring → Ring) : (t.setRing r f).rowp = t.rowp := rfl
@[simp] theorem Tile.setRing_colp (t : Tile) (r : Fin 8) (f : Ring → Ring) : (t.setRing r f).colp = t.colp := rfl
@[simp] theorem Tile.setRing_own (t : Tile) (r : Fin 8) (f : Ring → Ring) : (t.setRing r f).own = t.own := rfl
@[simp] theorem Tile.setRing_ownV (t : Tile) (r : Fin 8) (f : Ring → Ring) : (t.setRing r f).ownV = t.ownV := rfl
@[simp] theorem Tile.setRing_ownRel (t : Tile) (r : Fin 8) (f : Ring → Ring) : (t.setRing r f).ownRel = t.ownRel := rfl
@[simp] theorem Tile.setRing_bufs (t : Tile) (r : Fin 8) (f : Ring → Ring) : (t.setRing r f).bufs = t.bufs := rfl
@[simp] theorem Tile.setRing_sems (t : Tile) (r : Fin 8) (f : Ring → Ring) : (t.setRing r f).sems = t.sems := rfl
@[simp] theorem Tile.setRing_semClip (t : Tile) (r : Fin 8) (f : Ring → Ring) : (t.setRing r f).semClip = t.semClip := rfl
@[simp] theorem Tile.setRing_err (t : Tile) (r : Fin 8) (f : Ring → Ring) : (t.setRing r f).err = t.err := rfl
@[simp] theorem Tile.setRing_pmc (t : Tile) (r : Fin 8) (f : Ring → Ring) : (t.setRing r f).pmc = t.pmc := rfl
@[simp] theorem Tile.setRing_pmsel (t : Tile) (r : Fin 8) (f : Ring → Ring) : (t.setRing r f).pmsel = t.pmsel := rfl
@[simp] theorem Tile.setRing_errPrev (t : Tile) (r : Fin 8) (f : Ring → Ring) : (t.setRing r f).errPrev = t.errPrev := rfl
@[simp] theorem Tile.setRing_pmcPrev (t : Tile) (r : Fin 8) (f : Ring → Ring) : (t.setRing r f).pmcPrev = t.pmcPrev := rfl
@[simp] theorem Tile.setRing_pmselPrev (t : Tile) (r : Fin 8) (f : Ring → Ring) : (t.setRing r f).pmselPrev = t.pmselPrev := rfl
@[simp] theorem Tile.setRing_mxownPrev (t : Tile) (r : Fin 8) (f : Ring → Ring) : (t.setRing r f).mxownPrev = t.mxownPrev := rfl
@[simp] theorem Tile.setRing_errLock (t : Tile) (r : Fin 8) (f : Ring → Ring) : (t.setRing r f).errLock = t.errLock := rfl
@[simp] theorem Tile.setRing_pmcLock (t : Tile) (r : Fin 8) (f : Ring → Ring) : (t.setRing r f).pmcLock = t.pmcLock := rfl
@[simp] theorem Tile.setRing_icache (t : Tile) (r : Fin 8) (f : Ring → Ring) : (t.setRing r f).icache = t.icache := rfl
@[simp] theorem Tile.setRing_region (t : Tile) (r : Fin 8) (f : Ring → Ring) : (t.setRing r f).region = t.region := rfl
@[simp] theorem Tile.setRing_code (t : Tile) (r : Fin 8) (f : Ring → Ring) : (t.setRing r f).code = t.code := rfl
@[simp] theorem Tile.setRing_codeHeld (t : Tile) (r : Fin 8) (f : Ring → Ring) : (t.setRing r f).codeHeld = t.codeHeld := rfl
@[simp] theorem Tile.setRing_refetch (t : Tile) (r : Fin 8) (f : Ring → Ring) : (t.setRing r f).refetch = t.refetch := rfl
@[simp] theorem Tile.setRing_lock (t : Tile) (r : Fin 8) (f : Ring → Ring) : (t.setRing r f).lock = t.lock := rfl
@[simp] theorem Tile.setRing_routes (t : Tile) (r : Fin 8) (f : Ring → Ring) : (t.setRing r f).routes = t.routes := rfl
@[simp] theorem Tile.setRing_chans (t : Tile) (r : Fin 8) (f : Ring → Ring) : (t.setRing r f).chans = t.chans := rfl
@[simp] theorem Tile.setRing_tmc (t : Tile) (r : Fin 8) (f : Ring → Ring) : (t.setRing r f).tmc = t.tmc := rfl
@[simp] theorem Tile.setRing_tmMiss (t : Tile) (r : Fin 8) (f : Ring → Ring) : (t.setRing r f).tmMiss = t.tmMiss := rfl
@[simp] theorem Tile.setRing_tmVer (t : Tile) (r : Fin 8) (f : Ring → Ring) : (t.setRing r f).tmVer = t.tmVer := rfl
@[simp] theorem Tile.setRing_views (t : Tile) (r : Fin 8) (f : Ring → Ring) : (t.setRing r f).views = t.views := rfl
@[simp] theorem Tile.setRing_tlb (t : Tile) (r : Fin 8) (f : Ring → Ring) : (t.setRing r f).tlb = t.tlb := rfl
@[simp] theorem Tile.setRing_walks (t : Tile) (r : Fin 8) (f : Ring → Ring) : (t.setRing r f).walks = t.walks := rfl
@[simp] theorem Tile.setRing_mxq (t : Tile) (r : Fin 8) (f : Ring → Ring) : (t.setRing r f).mxq = t.mxq := rfl
@[simp] theorem Tile.setRing_mxRun (t : Tile) (r : Fin 8) (f : Ring → Ring) : (t.setRing r f).mxRun = t.mxRun := rfl
@[simp] theorem Tile.setRing_drains (t : Tile) (r : Fin 8) (f : Ring → Ring) : (t.setRing r f).drains = t.drains := rfl
@[simp] theorem Tile.setRing_publishing (t : Tile) (r : Fin 8) (f : Ring → Ring) : (t.setRing r f).publishing = t.publishing := rfl
@[simp] theorem Tile.setRing_cpq (t : Tile) (r : Fin 8) (f : Ring → Ring) : (t.setRing r f).cpq = t.cpq := rfl
@[simp] theorem Tile.setRing_flights (t : Tile) (r : Fin 8) (f : Ring → Ring) : (t.setRing r f).flights = t.flights := rfl
@[simp] theorem Tile.setRing_acks (t : Tile) (r : Fin 8) (f : Ring → Ring) : (t.setRing r f).acks = t.acks := rfl
@[simp] theorem Tile.setRing_pages (t : Tile) (r : Fin 8) (f : Ring → Ring) : (t.setRing r f).pages = t.pages := rfl
@[simp] theorem Tile.setRing_chq (t : Tile) (r : Fin 8) (f : Ring → Ring) : (t.setRing r f).chq = t.chq := rfl
@[simp] theorem Tile.setRing_tx (t : Tile) (r : Fin 8) (f : Ring → Ring) : (t.setRing r f).tx = t.tx := rfl
@[simp] theorem Tile.setRing_vwWait (t : Tile) (r : Fin 8) (f : Ring → Ring) : (t.setRing r f).vwWait = t.vwWait := rfl
@[simp] theorem Tile.setRing_live (t : Tile) (r : Fin 8) (f : Ring → Ring) : (t.setRing r f).live = t.live := rfl
@[simp] theorem Tile.setRing_nextId (t : Tile) (r : Fin 8) (f : Ring → Ring) : (t.setRing r f).nextId = t.nextId := rfl
@[simp] theorem Tile.setRing_inC (t : Tile) (r : Fin 8) (f : Ring → Ring) : (t.setRing r f).inC = t.inC := rfl
@[simp] theorem Tile.setRing_inR (t : Tile) (r : Fin 8) (f : Ring → Ring) : (t.setRing r f).inR = t.inR := rfl
@[simp] theorem Tile.setRing_outC (t : Tile) (r : Fin 8) (f : Ring → Ring) : (t.setRing r f).outC = t.outC := rfl
@[simp] theorem Tile.setRing_outR (t : Tile) (r : Fin 8) (f : Ring → Ring) : (t.setRing r f).outR = t.outR := rfl
@[simp] theorem Tile.setRing_credits (t : Tile) (r : Fin 8) (f : Ring → Ring) : (t.setRing r f).credits = t.credits := rfl
@[simp] theorem Tile.setRing_owed (t : Tile) (r : Fin 8) (f : Ring → Ring) : (t.setRing r f).owed = t.owed := rfl
@[simp] theorem Tile.setRing_seqs (t : Tile) (r : Fin 8) (f : Ring → Ring) : (t.setRing r f).seqs = t.seqs := rfl
@[simp] theorem Tile.setRing_colls (t : Tile) (r : Fin 8) (f : Ring → Ring) : (t.setRing r f).colls = t.colls := rfl
@[simp] theorem Tile.setRing_portBusy (t : Tile) (r : Fin 8) (f : Ring → Ring) : (t.setRing r f).portBusy = t.portBusy := rfl
@[simp] theorem Tile.setRing_portLast (t : Tile) (r : Fin 8) (f : Ring → Ring) : (t.setRing r f).portLast = t.portLast := rfl
@[simp] theorem Tile.setRing_owners (t : Tile) (r : Fin 8) (f : Ring → Ring) : (t.setRing r f).owners = t.owners := rfl
@[simp] theorem Tile.setRing_upsets (t : Tile) (r : Fin 8) (f : Ring → Ring) : (t.setRing r f).upsets = t.upsets := rfl
@[simp] theorem Tile.setRing_fixes (t : Tile) (r : Fin 8) (f : Ring → Ring) : (t.setRing r f).fixes = t.fixes := rfl
@[simp] theorem Tile.setRing_scrubAt (t : Tile) (r : Fin 8) (f : Ring → Ring) : (t.setRing r f).scrubAt = t.scrubAt := rfl
@[simp] theorem Tile.setRing_ctxs (t : Tile) (r : Fin 8) (f : Ring → Ring) : (t.setRing r f).ctxs = t.ctxs := rfl
@[simp] theorem Tile.setRing_arb (t : Tile) (r : Fin 8) (f : Ring → Ring) : (t.setRing r f).arb = t.arb := rfl
@[simp] theorem Tile.setRing_lastIssue (t : Tile) (r : Fin 8) (f : Ring → Ring) : (t.setRing r f).lastIssue = t.lastIssue := rfl
@[simp] theorem Tile.setRing_holder (t : Tile) (r : Fin 8) (f : Ring → Ring) : (t.setRing r f).holder = t.holder := rfl
@[simp] theorem Tile.setRing_hold (t : Tile) (r : Fin 8) (f : Ring → Ring) : (t.setRing r f).hold = t.hold := rfl
@[simp] theorem Tile.setRing_tls (t : Tile) (r : Fin 8) (f : Ring → Ring) : (t.setRing r f).tls = t.tls := rfl
@[simp] theorem Tile.setRing_mig (t : Tile) (r : Fin 8) (f : Ring → Ring) : (t.setRing r f).mig = t.mig := rfl
@[simp] theorem Tile.setRing_absent (t : Tile) (r : Fin 8) (f : Ring → Ring) : (t.setRing r f).absent = t.absent := rfl

@[simp] theorem Tile.event_spm (t : Tile) (e n : Nat) : (t.event e n).spm = t.spm := rfl
@[simp] theorem Tile.event_spmPrev (t : Tile) (e n : Nat) : (t.event e n).spmPrev = t.spmPrev := rfl
@[simp] theorem Tile.event_reads (t : Tile) (e n : Nat) : (t.event e n).reads = t.reads := rfl
@[simp] theorem Tile.event_writes (t : Tile) (e n : Nat) : (t.event e n).writes = t.writes := rfl
@[simp] theorem Tile.event_staccs (t : Tile) (e n : Nat) : (t.event e n).staccs = t.staccs := rfl
@[simp] theorem Tile.event_ldaccs (t : Tile) (e n : Nat) : (t.event e n).ldaccs = t.ldaccs := rfl
@[simp] theorem Tile.event_acm (t : Tile) (e n : Nat) : (t.event e n).acm = t.acm := rfl
@[simp] theorem Tile.event_wp (t : Tile) (e n : Nat) : (t.event e n).wp = t.wp := rfl
@[simp] theorem Tile.event_q (t : Tile) (e n : Nat) : (t.event e n).q = t.q := rfl
@[simp] theorem Tile.event_qpend (t : Tile) (e n : Nat) : (t.event e n).qpend = t.qpend := rfl
@[simp] theorem Tile.event_prec (t : Tile) (e n : Nat) : (t.event e n).prec = t.prec := rfl
@[simp] theorem Tile.event_decay (t : Tile) (e n : Nat) : (t.event e n).decay = t.decay := rfl
@[simp] theorem Tile.event_rowp (t : Tile) (e n : Nat) : (t.event e n).rowp = t.rowp := rfl
@[simp] theorem Tile.event_colp (t : Tile) (e n : Nat) : (t.event e n).colp = t.colp := rfl
@[simp] theorem Tile.event_own (t : Tile) (e n : Nat) : (t.event e n).own = t.own := rfl
@[simp] theorem Tile.event_ownV (t : Tile) (e n : Nat) : (t.event e n).ownV = t.ownV := rfl
@[simp] theorem Tile.event_ownRel (t : Tile) (e n : Nat) : (t.event e n).ownRel = t.ownRel := rfl
@[simp] theorem Tile.event_rings (t : Tile) (e n : Nat) : (t.event e n).rings = t.rings := rfl
@[simp] theorem Tile.event_bufs (t : Tile) (e n : Nat) : (t.event e n).bufs = t.bufs := rfl
@[simp] theorem Tile.event_sems (t : Tile) (e n : Nat) : (t.event e n).sems = t.sems := rfl
@[simp] theorem Tile.event_semClip (t : Tile) (e n : Nat) : (t.event e n).semClip = t.semClip := rfl
@[simp] theorem Tile.event_err (t : Tile) (e n : Nat) : (t.event e n).err = t.err := rfl
@[simp] theorem Tile.event_pmsel (t : Tile) (e n : Nat) : (t.event e n).pmsel = t.pmsel := rfl
@[simp] theorem Tile.event_errPrev (t : Tile) (e n : Nat) : (t.event e n).errPrev = t.errPrev := rfl
@[simp] theorem Tile.event_pmcPrev (t : Tile) (e n : Nat) : (t.event e n).pmcPrev = t.pmcPrev := rfl
@[simp] theorem Tile.event_pmselPrev (t : Tile) (e n : Nat) : (t.event e n).pmselPrev = t.pmselPrev := rfl
@[simp] theorem Tile.event_mxownPrev (t : Tile) (e n : Nat) : (t.event e n).mxownPrev = t.mxownPrev := rfl
@[simp] theorem Tile.event_errLock (t : Tile) (e n : Nat) : (t.event e n).errLock = t.errLock := rfl
@[simp] theorem Tile.event_pmcLock (t : Tile) (e n : Nat) : (t.event e n).pmcLock = t.pmcLock := rfl
@[simp] theorem Tile.event_icache (t : Tile) (e n : Nat) : (t.event e n).icache = t.icache := rfl
@[simp] theorem Tile.event_region (t : Tile) (e n : Nat) : (t.event e n).region = t.region := rfl
@[simp] theorem Tile.event_code (t : Tile) (e n : Nat) : (t.event e n).code = t.code := rfl
@[simp] theorem Tile.event_codeHeld (t : Tile) (e n : Nat) : (t.event e n).codeHeld = t.codeHeld := rfl
@[simp] theorem Tile.event_refetch (t : Tile) (e n : Nat) : (t.event e n).refetch = t.refetch := rfl
@[simp] theorem Tile.event_lock (t : Tile) (e n : Nat) : (t.event e n).lock = t.lock := rfl
@[simp] theorem Tile.event_routes (t : Tile) (e n : Nat) : (t.event e n).routes = t.routes := rfl
@[simp] theorem Tile.event_chans (t : Tile) (e n : Nat) : (t.event e n).chans = t.chans := rfl
@[simp] theorem Tile.event_tmc (t : Tile) (e n : Nat) : (t.event e n).tmc = t.tmc := rfl
@[simp] theorem Tile.event_tmMiss (t : Tile) (e n : Nat) : (t.event e n).tmMiss = t.tmMiss := rfl
@[simp] theorem Tile.event_tmVer (t : Tile) (e n : Nat) : (t.event e n).tmVer = t.tmVer := rfl
@[simp] theorem Tile.event_views (t : Tile) (e n : Nat) : (t.event e n).views = t.views := rfl
@[simp] theorem Tile.event_tlb (t : Tile) (e n : Nat) : (t.event e n).tlb = t.tlb := rfl
@[simp] theorem Tile.event_walks (t : Tile) (e n : Nat) : (t.event e n).walks = t.walks := rfl
@[simp] theorem Tile.event_mxq (t : Tile) (e n : Nat) : (t.event e n).mxq = t.mxq := rfl
@[simp] theorem Tile.event_mxRun (t : Tile) (e n : Nat) : (t.event e n).mxRun = t.mxRun := rfl
@[simp] theorem Tile.event_drains (t : Tile) (e n : Nat) : (t.event e n).drains = t.drains := rfl
@[simp] theorem Tile.event_publishing (t : Tile) (e n : Nat) : (t.event e n).publishing = t.publishing := rfl
@[simp] theorem Tile.event_cpq (t : Tile) (e n : Nat) : (t.event e n).cpq = t.cpq := rfl
@[simp] theorem Tile.event_flights (t : Tile) (e n : Nat) : (t.event e n).flights = t.flights := rfl
@[simp] theorem Tile.event_acks (t : Tile) (e n : Nat) : (t.event e n).acks = t.acks := rfl
@[simp] theorem Tile.event_pages (t : Tile) (e n : Nat) : (t.event e n).pages = t.pages := rfl
@[simp] theorem Tile.event_chq (t : Tile) (e n : Nat) : (t.event e n).chq = t.chq := rfl
@[simp] theorem Tile.event_tx (t : Tile) (e n : Nat) : (t.event e n).tx = t.tx := rfl
@[simp] theorem Tile.event_vwWait (t : Tile) (e n : Nat) : (t.event e n).vwWait = t.vwWait := rfl
@[simp] theorem Tile.event_live (t : Tile) (e n : Nat) : (t.event e n).live = t.live := rfl
@[simp] theorem Tile.event_nextId (t : Tile) (e n : Nat) : (t.event e n).nextId = t.nextId := rfl
@[simp] theorem Tile.event_inC (t : Tile) (e n : Nat) : (t.event e n).inC = t.inC := rfl
@[simp] theorem Tile.event_inR (t : Tile) (e n : Nat) : (t.event e n).inR = t.inR := rfl
@[simp] theorem Tile.event_outC (t : Tile) (e n : Nat) : (t.event e n).outC = t.outC := rfl
@[simp] theorem Tile.event_outR (t : Tile) (e n : Nat) : (t.event e n).outR = t.outR := rfl
@[simp] theorem Tile.event_credits (t : Tile) (e n : Nat) : (t.event e n).credits = t.credits := rfl
@[simp] theorem Tile.event_owed (t : Tile) (e n : Nat) : (t.event e n).owed = t.owed := rfl
@[simp] theorem Tile.event_seqs (t : Tile) (e n : Nat) : (t.event e n).seqs = t.seqs := rfl
@[simp] theorem Tile.event_colls (t : Tile) (e n : Nat) : (t.event e n).colls = t.colls := rfl
@[simp] theorem Tile.event_portBusy (t : Tile) (e n : Nat) : (t.event e n).portBusy = t.portBusy := rfl
@[simp] theorem Tile.event_portLast (t : Tile) (e n : Nat) : (t.event e n).portLast = t.portLast := rfl
@[simp] theorem Tile.event_owners (t : Tile) (e n : Nat) : (t.event e n).owners = t.owners := rfl
@[simp] theorem Tile.event_upsets (t : Tile) (e n : Nat) : (t.event e n).upsets = t.upsets := rfl
@[simp] theorem Tile.event_fixes (t : Tile) (e n : Nat) : (t.event e n).fixes = t.fixes := rfl
@[simp] theorem Tile.event_scrubAt (t : Tile) (e n : Nat) : (t.event e n).scrubAt = t.scrubAt := rfl
@[simp] theorem Tile.event_ctxs (t : Tile) (e n : Nat) : (t.event e n).ctxs = t.ctxs := rfl
@[simp] theorem Tile.event_arb (t : Tile) (e n : Nat) : (t.event e n).arb = t.arb := rfl
@[simp] theorem Tile.event_lastIssue (t : Tile) (e n : Nat) : (t.event e n).lastIssue = t.lastIssue := rfl
@[simp] theorem Tile.event_holder (t : Tile) (e n : Nat) : (t.event e n).holder = t.holder := rfl
@[simp] theorem Tile.event_hold (t : Tile) (e n : Nat) : (t.event e n).hold = t.hold := rfl
@[simp] theorem Tile.event_tls (t : Tile) (e n : Nat) : (t.event e n).tls = t.tls := rfl
@[simp] theorem Tile.event_mig (t : Tile) (e n : Nat) : (t.event e n).mig = t.mig := rfl
@[simp] theorem Tile.event_absent (t : Tile) (e n : Nat) : (t.event e n).absent = t.absent := rfl

@[simp] theorem Context.push_s (c : Context) (x : Commit) : (c.push x).s = c.s := rfl
@[simp] theorem Context.push_a (c : Context) (x : Commit) : (c.push x).a = c.a := rfl
@[simp] theorem Context.push_v (c : Context) (x : Commit) : (c.push x).v = c.v := rfl
@[simp] theorem Context.push_m (c : Context) (x : Commit) : (c.push x).m = c.m := rfl
@[simp] theorem Context.push_p (c : Context) (x : Commit) : (c.push x).p = c.p := rfl
@[simp] theorem Context.push_stack (c : Context) (x : Commit) : (c.push x).stack = c.stack := rfl
@[simp] theorem Context.push_hist (c : Context) (x : Commit) : (c.push x).hist = c.hist := rfl
@[simp] theorem Context.push_pc (c : Context) (x : Commit) : (c.push x).pc = c.pc := rfl
@[simp] theorem Context.push_tt (c : Context) (x : Commit) : (c.push x).tt = c.tt := rfl
@[simp] theorem Context.push_loops (c : Context) (x : Commit) : (c.push x).loops = c.loops := rfl
@[simp] theorem Context.push_itClear (c : Context) (x : Commit) : (c.push x).itClear = c.itClear := rfl
@[simp] theorem Context.push_xfer (c : Context) (x : Commit) : (c.push x).xfer = c.xfer := rfl
@[simp] theorem Context.push_pxfr (c : Context) (x : Commit) : (c.push x).pxfr = c.pxfr := rfl
@[simp] theorem Context.push_liveDue (c : Context) (x : Commit) : (c.push x).liveDue = c.liveDue := rfl
@[simp] theorem Context.push_live (c : Context) (x : Commit) : (c.push x).live = c.live := rfl
@[simp] theorem Context.push_status (c : Context) (x : Commit) : (c.push x).status = c.status := rfl
@[simp] theorem Context.push_round (c : Context) (x : Commit) : (c.push x).round = c.round := rfl
@[simp] theorem Context.push_cause (c : Context) (x : Commit) : (c.push x).cause = c.cause := rfl
@[simp] theorem Context.push_finfo (c : Context) (x : Commit) : (c.push x).finfo = c.finfo := rfl
@[simp] theorem Context.push_fpc (c : Context) (x : Commit) : (c.push x).fpc = c.fpc := rfl
@[simp] theorem Context.push_epc (c : Context) (x : Commit) : (c.push x).epc = c.epc := rfl
@[simp] theorem Context.push_trapv (c : Context) (x : Commit) : (c.push x).trapv = c.trapv := rfl
@[simp] theorem Context.push_rundecl (c : Context) (x : Commit) : (c.push x).rundecl = c.rundecl := rfl
@[simp] theorem Context.push_ovrcnt (c : Context) (x : Commit) : (c.push x).ovrcnt = c.ovrcnt := rfl
@[simp] theorem Context.push_declAt (c : Context) (x : Commit) : (c.push x).declAt = c.declAt := rfl
@[simp] theorem Context.push_overrun (c : Context) (x : Commit) : (c.push x).overrun = c.overrun := rfl
@[simp] theorem Context.push_overPre (c : Context) (x : Commit) : (c.push x).overPre = c.overPre := rfl
@[simp] theorem Context.push_hbase (c : Context) (x : Commit) : (c.push x).hbase = c.hbase := rfl
@[simp] theorem Context.push_hlimit (c : Context) (x : Commit) : (c.push x).hlimit = c.hlimit := rfl
@[simp] theorem Context.push_hoffset (c : Context) (x : Commit) : (c.push x).hoffset = c.hoffset := rfl
@[simp] theorem Context.push_walker (c : Context) (x : Commit) : (c.push x).walker = c.walker := rfl
@[simp] theorem Context.push_launch (c : Context) (x : Commit) : (c.push x).launch = c.launch := rfl
@[simp] theorem Context.push_lorg (c : Context) (x : Commit) : (c.push x).lorg = c.lorg := rfl
@[simp] theorem Context.push_lext (c : Context) (x : Commit) : (c.push x).lext = c.lext := rfl
@[simp] theorem Context.push_rank (c : Context) (x : Commit) : (c.push x).rank = c.rank := rfl
@[simp] theorem Context.push_caps (c : Context) (x : Commit) : (c.push x).caps = c.caps := rfl
@[simp] theorem Context.push_cnt (c : Context) (x : Commit) : (c.push x).cnt = c.cnt := rfl
@[simp] theorem Context.push_wack (c : Context) (x : Commit) : (c.push x).wack = c.wack := rfl
@[simp] theorem Context.push_phase (c : Context) (x : Commit) : (c.push x).phase = c.phase := rfl
@[simp] theorem Context.push_phaseDue (c : Context) (x : Commit) : (c.push x).phaseDue = c.phaseDue := rfl
@[simp] theorem Context.push_markers (c : Context) (x : Commit) : (c.push x).markers = c.markers := rfl
@[simp] theorem Context.push_phaseMxu (c : Context) (x : Commit) : (c.push x).phaseMxu = c.phaseMxu := rfl
@[simp] theorem Context.push_phaseCopy (c : Context) (x : Commit) : (c.push x).phaseCopy = c.phaseCopy := rfl
@[simp] theorem Context.push_mpubs (c : Context) (x : Commit) : (c.push x).mpubs = c.mpubs := rfl
@[simp] theorem Context.push_tlOut (c : Context) (x : Commit) : (c.push x).tlOut = c.tlOut := rfl
@[simp] theorem Context.push_faults (c : Context) (x : Commit) : (c.push x).faults = c.faults := rfl
@[simp] theorem Context.push_late (c : Context) (x : Commit) : (c.push x).late = c.late := rfl
@[simp] theorem Context.push_vcTraps (c : Context) (x : Commit) : (c.push x).vcTraps = c.vcTraps := rfl
@[simp] theorem Context.push_vcDropped (c : Context) (x : Commit) : (c.push x).vcDropped = c.vcDropped := rfl
@[simp] theorem Context.push_st (c : Context) (x : Commit) : (c.push x).st = c.st := rfl
@[simp] theorem Context.push_held (c : Context) (x : Commit) : (c.push x).held = c.held := rfl
@[simp] theorem Context.push_safe (c : Context) (x : Commit) : (c.push x).safe = c.safe := rfl
@[simp] theorem Context.push_preReq (c : Context) (x : Commit) : (c.push x).preReq = c.preReq := rfl
@[simp] theorem Context.push_readySince (c : Context) (x : Commit) : (c.push x).readySince = c.readySince := rfl
@[simp] theorem Context.push_lid (c : Context) (x : Commit) : (c.push x).lid = c.lid := rfl

@[simp] theorem Context.setIt_s (c : Context) (b : Bool) : (c.setIt b).s = c.s := rfl
@[simp] theorem Context.setIt_a (c : Context) (b : Bool) : (c.setIt b).a = c.a := rfl
@[simp] theorem Context.setIt_v (c : Context) (b : Bool) : (c.setIt b).v = c.v := rfl
@[simp] theorem Context.setIt_m (c : Context) (b : Bool) : (c.setIt b).m = c.m := rfl
@[simp] theorem Context.setIt_p (c : Context) (b : Bool) : (c.setIt b).p = c.p := rfl
@[simp] theorem Context.setIt_stack (c : Context) (b : Bool) : (c.setIt b).stack = c.stack := rfl
@[simp] theorem Context.setIt_pend (c : Context) (b : Bool) : (c.setIt b).pend = c.pend := rfl
@[simp] theorem Context.setIt_hist (c : Context) (b : Bool) : (c.setIt b).hist = c.hist := rfl
@[simp] theorem Context.setIt_pc (c : Context) (b : Bool) : (c.setIt b).pc = c.pc := rfl
@[simp] theorem Context.setIt_tt (c : Context) (b : Bool) : (c.setIt b).tt = c.tt := rfl
@[simp] theorem Context.setIt_loops (c : Context) (b : Bool) : (c.setIt b).loops = c.loops := rfl
@[simp] theorem Context.setIt_itClear (c : Context) (b : Bool) : (c.setIt b).itClear = c.itClear := rfl
@[simp] theorem Context.setIt_xfer (c : Context) (b : Bool) : (c.setIt b).xfer = c.xfer := rfl
@[simp] theorem Context.setIt_pxfr (c : Context) (b : Bool) : (c.setIt b).pxfr = c.pxfr := rfl
@[simp] theorem Context.setIt_liveDue (c : Context) (b : Bool) : (c.setIt b).liveDue = c.liveDue := rfl
@[simp] theorem Context.setIt_live (c : Context) (b : Bool) : (c.setIt b).live = c.live := rfl
@[simp] theorem Context.setIt_round (c : Context) (b : Bool) : (c.setIt b).round = c.round := rfl
@[simp] theorem Context.setIt_cause (c : Context) (b : Bool) : (c.setIt b).cause = c.cause := rfl
@[simp] theorem Context.setIt_finfo (c : Context) (b : Bool) : (c.setIt b).finfo = c.finfo := rfl
@[simp] theorem Context.setIt_fpc (c : Context) (b : Bool) : (c.setIt b).fpc = c.fpc := rfl
@[simp] theorem Context.setIt_epc (c : Context) (b : Bool) : (c.setIt b).epc = c.epc := rfl
@[simp] theorem Context.setIt_trapv (c : Context) (b : Bool) : (c.setIt b).trapv = c.trapv := rfl
@[simp] theorem Context.setIt_rundecl (c : Context) (b : Bool) : (c.setIt b).rundecl = c.rundecl := rfl
@[simp] theorem Context.setIt_ovrcnt (c : Context) (b : Bool) : (c.setIt b).ovrcnt = c.ovrcnt := rfl
@[simp] theorem Context.setIt_declAt (c : Context) (b : Bool) : (c.setIt b).declAt = c.declAt := rfl
@[simp] theorem Context.setIt_overrun (c : Context) (b : Bool) : (c.setIt b).overrun = c.overrun := rfl
@[simp] theorem Context.setIt_overPre (c : Context) (b : Bool) : (c.setIt b).overPre = c.overPre := rfl
@[simp] theorem Context.setIt_hbase (c : Context) (b : Bool) : (c.setIt b).hbase = c.hbase := rfl
@[simp] theorem Context.setIt_hlimit (c : Context) (b : Bool) : (c.setIt b).hlimit = c.hlimit := rfl
@[simp] theorem Context.setIt_hoffset (c : Context) (b : Bool) : (c.setIt b).hoffset = c.hoffset := rfl
@[simp] theorem Context.setIt_walker (c : Context) (b : Bool) : (c.setIt b).walker = c.walker := rfl
@[simp] theorem Context.setIt_launch (c : Context) (b : Bool) : (c.setIt b).launch = c.launch := rfl
@[simp] theorem Context.setIt_lorg (c : Context) (b : Bool) : (c.setIt b).lorg = c.lorg := rfl
@[simp] theorem Context.setIt_lext (c : Context) (b : Bool) : (c.setIt b).lext = c.lext := rfl
@[simp] theorem Context.setIt_rank (c : Context) (b : Bool) : (c.setIt b).rank = c.rank := rfl
@[simp] theorem Context.setIt_caps (c : Context) (b : Bool) : (c.setIt b).caps = c.caps := rfl
@[simp] theorem Context.setIt_cnt (c : Context) (b : Bool) : (c.setIt b).cnt = c.cnt := rfl
@[simp] theorem Context.setIt_wack (c : Context) (b : Bool) : (c.setIt b).wack = c.wack := rfl
@[simp] theorem Context.setIt_phase (c : Context) (b : Bool) : (c.setIt b).phase = c.phase := rfl
@[simp] theorem Context.setIt_phaseDue (c : Context) (b : Bool) : (c.setIt b).phaseDue = c.phaseDue := rfl
@[simp] theorem Context.setIt_markers (c : Context) (b : Bool) : (c.setIt b).markers = c.markers := rfl
@[simp] theorem Context.setIt_phaseMxu (c : Context) (b : Bool) : (c.setIt b).phaseMxu = c.phaseMxu := rfl
@[simp] theorem Context.setIt_phaseCopy (c : Context) (b : Bool) : (c.setIt b).phaseCopy = c.phaseCopy := rfl
@[simp] theorem Context.setIt_mpubs (c : Context) (b : Bool) : (c.setIt b).mpubs = c.mpubs := rfl
@[simp] theorem Context.setIt_tlOut (c : Context) (b : Bool) : (c.setIt b).tlOut = c.tlOut := rfl
@[simp] theorem Context.setIt_faults (c : Context) (b : Bool) : (c.setIt b).faults = c.faults := rfl
@[simp] theorem Context.setIt_late (c : Context) (b : Bool) : (c.setIt b).late = c.late := rfl
@[simp] theorem Context.setIt_vcTraps (c : Context) (b : Bool) : (c.setIt b).vcTraps = c.vcTraps := rfl
@[simp] theorem Context.setIt_vcDropped (c : Context) (b : Bool) : (c.setIt b).vcDropped = c.vcDropped := rfl
@[simp] theorem Context.setIt_st (c : Context) (b : Bool) : (c.setIt b).st = c.st := rfl
@[simp] theorem Context.setIt_held (c : Context) (b : Bool) : (c.setIt b).held = c.held := rfl
@[simp] theorem Context.setIt_safe (c : Context) (b : Bool) : (c.setIt b).safe = c.safe := rfl
@[simp] theorem Context.setIt_preReq (c : Context) (b : Bool) : (c.setIt b).preReq = c.preReq := rfl
@[simp] theorem Context.setIt_readySince (c : Context) (b : Bool) : (c.setIt b).readySince = c.readySince := rfl
@[simp] theorem Context.setIt_lid (c : Context) (b : Bool) : (c.setIt b).lid = c.lid := rfl

@[simp] theorem Context.setErr_s (c : Context) : (c.setErr).s = c.s := rfl
@[simp] theorem Context.setErr_a (c : Context) : (c.setErr).a = c.a := rfl
@[simp] theorem Context.setErr_v (c : Context) : (c.setErr).v = c.v := rfl
@[simp] theorem Context.setErr_m (c : Context) : (c.setErr).m = c.m := rfl
@[simp] theorem Context.setErr_p (c : Context) : (c.setErr).p = c.p := rfl
@[simp] theorem Context.setErr_stack (c : Context) : (c.setErr).stack = c.stack := rfl
@[simp] theorem Context.setErr_pend (c : Context) : (c.setErr).pend = c.pend := rfl
@[simp] theorem Context.setErr_hist (c : Context) : (c.setErr).hist = c.hist := rfl
@[simp] theorem Context.setErr_pc (c : Context) : (c.setErr).pc = c.pc := rfl
@[simp] theorem Context.setErr_tt (c : Context) : (c.setErr).tt = c.tt := rfl
@[simp] theorem Context.setErr_loops (c : Context) : (c.setErr).loops = c.loops := rfl
@[simp] theorem Context.setErr_itClear (c : Context) : (c.setErr).itClear = c.itClear := rfl
@[simp] theorem Context.setErr_xfer (c : Context) : (c.setErr).xfer = c.xfer := rfl
@[simp] theorem Context.setErr_pxfr (c : Context) : (c.setErr).pxfr = c.pxfr := rfl
@[simp] theorem Context.setErr_liveDue (c : Context) : (c.setErr).liveDue = c.liveDue := rfl
@[simp] theorem Context.setErr_live (c : Context) : (c.setErr).live = c.live := rfl
@[simp] theorem Context.setErr_round (c : Context) : (c.setErr).round = c.round := rfl
@[simp] theorem Context.setErr_cause (c : Context) : (c.setErr).cause = c.cause := rfl
@[simp] theorem Context.setErr_finfo (c : Context) : (c.setErr).finfo = c.finfo := rfl
@[simp] theorem Context.setErr_fpc (c : Context) : (c.setErr).fpc = c.fpc := rfl
@[simp] theorem Context.setErr_epc (c : Context) : (c.setErr).epc = c.epc := rfl
@[simp] theorem Context.setErr_trapv (c : Context) : (c.setErr).trapv = c.trapv := rfl
@[simp] theorem Context.setErr_rundecl (c : Context) : (c.setErr).rundecl = c.rundecl := rfl
@[simp] theorem Context.setErr_ovrcnt (c : Context) : (c.setErr).ovrcnt = c.ovrcnt := rfl
@[simp] theorem Context.setErr_declAt (c : Context) : (c.setErr).declAt = c.declAt := rfl
@[simp] theorem Context.setErr_overrun (c : Context) : (c.setErr).overrun = c.overrun := rfl
@[simp] theorem Context.setErr_overPre (c : Context) : (c.setErr).overPre = c.overPre := rfl
@[simp] theorem Context.setErr_hbase (c : Context) : (c.setErr).hbase = c.hbase := rfl
@[simp] theorem Context.setErr_hlimit (c : Context) : (c.setErr).hlimit = c.hlimit := rfl
@[simp] theorem Context.setErr_hoffset (c : Context) : (c.setErr).hoffset = c.hoffset := rfl
@[simp] theorem Context.setErr_walker (c : Context) : (c.setErr).walker = c.walker := rfl
@[simp] theorem Context.setErr_launch (c : Context) : (c.setErr).launch = c.launch := rfl
@[simp] theorem Context.setErr_lorg (c : Context) : (c.setErr).lorg = c.lorg := rfl
@[simp] theorem Context.setErr_lext (c : Context) : (c.setErr).lext = c.lext := rfl
@[simp] theorem Context.setErr_rank (c : Context) : (c.setErr).rank = c.rank := rfl
@[simp] theorem Context.setErr_caps (c : Context) : (c.setErr).caps = c.caps := rfl
@[simp] theorem Context.setErr_cnt (c : Context) : (c.setErr).cnt = c.cnt := rfl
@[simp] theorem Context.setErr_wack (c : Context) : (c.setErr).wack = c.wack := rfl
@[simp] theorem Context.setErr_phase (c : Context) : (c.setErr).phase = c.phase := rfl
@[simp] theorem Context.setErr_phaseDue (c : Context) : (c.setErr).phaseDue = c.phaseDue := rfl
@[simp] theorem Context.setErr_markers (c : Context) : (c.setErr).markers = c.markers := rfl
@[simp] theorem Context.setErr_phaseMxu (c : Context) : (c.setErr).phaseMxu = c.phaseMxu := rfl
@[simp] theorem Context.setErr_phaseCopy (c : Context) : (c.setErr).phaseCopy = c.phaseCopy := rfl
@[simp] theorem Context.setErr_mpubs (c : Context) : (c.setErr).mpubs = c.mpubs := rfl
@[simp] theorem Context.setErr_tlOut (c : Context) : (c.setErr).tlOut = c.tlOut := rfl
@[simp] theorem Context.setErr_faults (c : Context) : (c.setErr).faults = c.faults := rfl
@[simp] theorem Context.setErr_late (c : Context) : (c.setErr).late = c.late := rfl
@[simp] theorem Context.setErr_vcTraps (c : Context) : (c.setErr).vcTraps = c.vcTraps := rfl
@[simp] theorem Context.setErr_vcDropped (c : Context) : (c.setErr).vcDropped = c.vcDropped := rfl
@[simp] theorem Context.setErr_st (c : Context) : (c.setErr).st = c.st := rfl
@[simp] theorem Context.setErr_held (c : Context) : (c.setErr).held = c.held := rfl
@[simp] theorem Context.setErr_safe (c : Context) : (c.setErr).safe = c.safe := rfl
@[simp] theorem Context.setErr_preReq (c : Context) : (c.setErr).preReq = c.preReq := rfl
@[simp] theorem Context.setErr_readySince (c : Context) : (c.setErr).readySince = c.readySince := rfl
@[simp] theorem Context.setErr_lid (c : Context) : (c.setErr).lid = c.lid := rfl

@[simp] theorem Context.rise_s (c : Context) (k : Fin 16) : (c.rise k).s = c.s := rfl
@[simp] theorem Context.rise_a (c : Context) (k : Fin 16) : (c.rise k).a = c.a := rfl
@[simp] theorem Context.rise_v (c : Context) (k : Fin 16) : (c.rise k).v = c.v := rfl
@[simp] theorem Context.rise_m (c : Context) (k : Fin 16) : (c.rise k).m = c.m := rfl
@[simp] theorem Context.rise_p (c : Context) (k : Fin 16) : (c.rise k).p = c.p := rfl
@[simp] theorem Context.rise_stack (c : Context) (k : Fin 16) : (c.rise k).stack = c.stack := rfl
@[simp] theorem Context.rise_pend (c : Context) (k : Fin 16) : (c.rise k).pend = c.pend := rfl
@[simp] theorem Context.rise_hist (c : Context) (k : Fin 16) : (c.rise k).hist = c.hist := rfl
@[simp] theorem Context.rise_pc (c : Context) (k : Fin 16) : (c.rise k).pc = c.pc := rfl
@[simp] theorem Context.rise_tt (c : Context) (k : Fin 16) : (c.rise k).tt = c.tt := rfl
@[simp] theorem Context.rise_loops (c : Context) (k : Fin 16) : (c.rise k).loops = c.loops := rfl
@[simp] theorem Context.rise_itClear (c : Context) (k : Fin 16) : (c.rise k).itClear = c.itClear := rfl
@[simp] theorem Context.rise_xfer (c : Context) (k : Fin 16) : (c.rise k).xfer = c.xfer := rfl
@[simp] theorem Context.rise_pxfr (c : Context) (k : Fin 16) : (c.rise k).pxfr = c.pxfr := rfl
@[simp] theorem Context.rise_liveDue (c : Context) (k : Fin 16) : (c.rise k).liveDue = c.liveDue := rfl
@[simp] theorem Context.rise_live (c : Context) (k : Fin 16) : (c.rise k).live = c.live := rfl
@[simp] theorem Context.rise_status (c : Context) (k : Fin 16) : (c.rise k).status = c.status := rfl
@[simp] theorem Context.rise_round (c : Context) (k : Fin 16) : (c.rise k).round = c.round := rfl
@[simp] theorem Context.rise_cause (c : Context) (k : Fin 16) : (c.rise k).cause = c.cause := rfl
@[simp] theorem Context.rise_finfo (c : Context) (k : Fin 16) : (c.rise k).finfo = c.finfo := rfl
@[simp] theorem Context.rise_fpc (c : Context) (k : Fin 16) : (c.rise k).fpc = c.fpc := rfl
@[simp] theorem Context.rise_epc (c : Context) (k : Fin 16) : (c.rise k).epc = c.epc := rfl
@[simp] theorem Context.rise_trapv (c : Context) (k : Fin 16) : (c.rise k).trapv = c.trapv := rfl
@[simp] theorem Context.rise_rundecl (c : Context) (k : Fin 16) : (c.rise k).rundecl = c.rundecl := rfl
@[simp] theorem Context.rise_ovrcnt (c : Context) (k : Fin 16) : (c.rise k).ovrcnt = c.ovrcnt := rfl
@[simp] theorem Context.rise_declAt (c : Context) (k : Fin 16) : (c.rise k).declAt = c.declAt := rfl
@[simp] theorem Context.rise_overrun (c : Context) (k : Fin 16) : (c.rise k).overrun = c.overrun := rfl
@[simp] theorem Context.rise_overPre (c : Context) (k : Fin 16) : (c.rise k).overPre = c.overPre := rfl
@[simp] theorem Context.rise_hbase (c : Context) (k : Fin 16) : (c.rise k).hbase = c.hbase := rfl
@[simp] theorem Context.rise_hlimit (c : Context) (k : Fin 16) : (c.rise k).hlimit = c.hlimit := rfl
@[simp] theorem Context.rise_hoffset (c : Context) (k : Fin 16) : (c.rise k).hoffset = c.hoffset := rfl
@[simp] theorem Context.rise_walker (c : Context) (k : Fin 16) : (c.rise k).walker = c.walker := rfl
@[simp] theorem Context.rise_launch (c : Context) (k : Fin 16) : (c.rise k).launch = c.launch := rfl
@[simp] theorem Context.rise_lorg (c : Context) (k : Fin 16) : (c.rise k).lorg = c.lorg := rfl
@[simp] theorem Context.rise_lext (c : Context) (k : Fin 16) : (c.rise k).lext = c.lext := rfl
@[simp] theorem Context.rise_rank (c : Context) (k : Fin 16) : (c.rise k).rank = c.rank := rfl
@[simp] theorem Context.rise_caps (c : Context) (k : Fin 16) : (c.rise k).caps = c.caps := rfl
@[simp] theorem Context.rise_wack (c : Context) (k : Fin 16) : (c.rise k).wack = c.wack := rfl
@[simp] theorem Context.rise_phase (c : Context) (k : Fin 16) : (c.rise k).phase = c.phase := rfl
@[simp] theorem Context.rise_phaseDue (c : Context) (k : Fin 16) : (c.rise k).phaseDue = c.phaseDue := rfl
@[simp] theorem Context.rise_markers (c : Context) (k : Fin 16) : (c.rise k).markers = c.markers := rfl
@[simp] theorem Context.rise_phaseMxu (c : Context) (k : Fin 16) : (c.rise k).phaseMxu = c.phaseMxu := rfl
@[simp] theorem Context.rise_phaseCopy (c : Context) (k : Fin 16) : (c.rise k).phaseCopy = c.phaseCopy := rfl
@[simp] theorem Context.rise_mpubs (c : Context) (k : Fin 16) : (c.rise k).mpubs = c.mpubs := rfl
@[simp] theorem Context.rise_tlOut (c : Context) (k : Fin 16) : (c.rise k).tlOut = c.tlOut := rfl
@[simp] theorem Context.rise_faults (c : Context) (k : Fin 16) : (c.rise k).faults = c.faults := rfl
@[simp] theorem Context.rise_late (c : Context) (k : Fin 16) : (c.rise k).late = c.late := rfl
@[simp] theorem Context.rise_vcTraps (c : Context) (k : Fin 16) : (c.rise k).vcTraps = c.vcTraps := rfl
@[simp] theorem Context.rise_vcDropped (c : Context) (k : Fin 16) : (c.rise k).vcDropped = c.vcDropped := rfl
@[simp] theorem Context.rise_st (c : Context) (k : Fin 16) : (c.rise k).st = c.st := rfl
@[simp] theorem Context.rise_held (c : Context) (k : Fin 16) : (c.rise k).held = c.held := rfl
@[simp] theorem Context.rise_safe (c : Context) (k : Fin 16) : (c.rise k).safe = c.safe := rfl
@[simp] theorem Context.rise_preReq (c : Context) (k : Fin 16) : (c.rise k).preReq = c.preReq := rfl
@[simp] theorem Context.rise_readySince (c : Context) (k : Fin 16) : (c.rise k).readySince = c.readySince := rfl
@[simp] theorem Context.rise_lid (c : Context) (k : Fin 16) : (c.rise k).lid = c.lid := rfl

@[simp] theorem Context.fall_s (c : Context) (k : Fin 16) : (c.fall k).s = c.s := rfl
@[simp] theorem Context.fall_a (c : Context) (k : Fin 16) : (c.fall k).a = c.a := rfl
@[simp] theorem Context.fall_v (c : Context) (k : Fin 16) : (c.fall k).v = c.v := rfl
@[simp] theorem Context.fall_m (c : Context) (k : Fin 16) : (c.fall k).m = c.m := rfl
@[simp] theorem Context.fall_p (c : Context) (k : Fin 16) : (c.fall k).p = c.p := rfl
@[simp] theorem Context.fall_stack (c : Context) (k : Fin 16) : (c.fall k).stack = c.stack := rfl
@[simp] theorem Context.fall_pend (c : Context) (k : Fin 16) : (c.fall k).pend = c.pend := rfl
@[simp] theorem Context.fall_hist (c : Context) (k : Fin 16) : (c.fall k).hist = c.hist := rfl
@[simp] theorem Context.fall_pc (c : Context) (k : Fin 16) : (c.fall k).pc = c.pc := rfl
@[simp] theorem Context.fall_tt (c : Context) (k : Fin 16) : (c.fall k).tt = c.tt := rfl
@[simp] theorem Context.fall_loops (c : Context) (k : Fin 16) : (c.fall k).loops = c.loops := rfl
@[simp] theorem Context.fall_itClear (c : Context) (k : Fin 16) : (c.fall k).itClear = c.itClear := rfl
@[simp] theorem Context.fall_xfer (c : Context) (k : Fin 16) : (c.fall k).xfer = c.xfer := rfl
@[simp] theorem Context.fall_pxfr (c : Context) (k : Fin 16) : (c.fall k).pxfr = c.pxfr := rfl
@[simp] theorem Context.fall_liveDue (c : Context) (k : Fin 16) : (c.fall k).liveDue = c.liveDue := rfl
@[simp] theorem Context.fall_live (c : Context) (k : Fin 16) : (c.fall k).live = c.live := rfl
@[simp] theorem Context.fall_status (c : Context) (k : Fin 16) : (c.fall k).status = c.status := rfl
@[simp] theorem Context.fall_round (c : Context) (k : Fin 16) : (c.fall k).round = c.round := rfl
@[simp] theorem Context.fall_cause (c : Context) (k : Fin 16) : (c.fall k).cause = c.cause := rfl
@[simp] theorem Context.fall_finfo (c : Context) (k : Fin 16) : (c.fall k).finfo = c.finfo := rfl
@[simp] theorem Context.fall_fpc (c : Context) (k : Fin 16) : (c.fall k).fpc = c.fpc := rfl
@[simp] theorem Context.fall_epc (c : Context) (k : Fin 16) : (c.fall k).epc = c.epc := rfl
@[simp] theorem Context.fall_trapv (c : Context) (k : Fin 16) : (c.fall k).trapv = c.trapv := rfl
@[simp] theorem Context.fall_rundecl (c : Context) (k : Fin 16) : (c.fall k).rundecl = c.rundecl := rfl
@[simp] theorem Context.fall_ovrcnt (c : Context) (k : Fin 16) : (c.fall k).ovrcnt = c.ovrcnt := rfl
@[simp] theorem Context.fall_declAt (c : Context) (k : Fin 16) : (c.fall k).declAt = c.declAt := rfl
@[simp] theorem Context.fall_overrun (c : Context) (k : Fin 16) : (c.fall k).overrun = c.overrun := rfl
@[simp] theorem Context.fall_overPre (c : Context) (k : Fin 16) : (c.fall k).overPre = c.overPre := rfl
@[simp] theorem Context.fall_hbase (c : Context) (k : Fin 16) : (c.fall k).hbase = c.hbase := rfl
@[simp] theorem Context.fall_hlimit (c : Context) (k : Fin 16) : (c.fall k).hlimit = c.hlimit := rfl
@[simp] theorem Context.fall_hoffset (c : Context) (k : Fin 16) : (c.fall k).hoffset = c.hoffset := rfl
@[simp] theorem Context.fall_walker (c : Context) (k : Fin 16) : (c.fall k).walker = c.walker := rfl
@[simp] theorem Context.fall_launch (c : Context) (k : Fin 16) : (c.fall k).launch = c.launch := rfl
@[simp] theorem Context.fall_lorg (c : Context) (k : Fin 16) : (c.fall k).lorg = c.lorg := rfl
@[simp] theorem Context.fall_lext (c : Context) (k : Fin 16) : (c.fall k).lext = c.lext := rfl
@[simp] theorem Context.fall_rank (c : Context) (k : Fin 16) : (c.fall k).rank = c.rank := rfl
@[simp] theorem Context.fall_caps (c : Context) (k : Fin 16) : (c.fall k).caps = c.caps := rfl
@[simp] theorem Context.fall_wack (c : Context) (k : Fin 16) : (c.fall k).wack = c.wack := rfl
@[simp] theorem Context.fall_phase (c : Context) (k : Fin 16) : (c.fall k).phase = c.phase := rfl
@[simp] theorem Context.fall_phaseDue (c : Context) (k : Fin 16) : (c.fall k).phaseDue = c.phaseDue := rfl
@[simp] theorem Context.fall_markers (c : Context) (k : Fin 16) : (c.fall k).markers = c.markers := rfl
@[simp] theorem Context.fall_phaseMxu (c : Context) (k : Fin 16) : (c.fall k).phaseMxu = c.phaseMxu := rfl
@[simp] theorem Context.fall_phaseCopy (c : Context) (k : Fin 16) : (c.fall k).phaseCopy = c.phaseCopy := rfl
@[simp] theorem Context.fall_mpubs (c : Context) (k : Fin 16) : (c.fall k).mpubs = c.mpubs := rfl
@[simp] theorem Context.fall_tlOut (c : Context) (k : Fin 16) : (c.fall k).tlOut = c.tlOut := rfl
@[simp] theorem Context.fall_faults (c : Context) (k : Fin 16) : (c.fall k).faults = c.faults := rfl
@[simp] theorem Context.fall_late (c : Context) (k : Fin 16) : (c.fall k).late = c.late := rfl
@[simp] theorem Context.fall_vcTraps (c : Context) (k : Fin 16) : (c.fall k).vcTraps = c.vcTraps := rfl
@[simp] theorem Context.fall_vcDropped (c : Context) (k : Fin 16) : (c.fall k).vcDropped = c.vcDropped := rfl
@[simp] theorem Context.fall_st (c : Context) (k : Fin 16) : (c.fall k).st = c.st := rfl
@[simp] theorem Context.fall_held (c : Context) (k : Fin 16) : (c.fall k).held = c.held := rfl
@[simp] theorem Context.fall_safe (c : Context) (k : Fin 16) : (c.fall k).safe = c.safe := rfl
@[simp] theorem Context.fall_preReq (c : Context) (k : Fin 16) : (c.fall k).preReq = c.preReq := rfl
@[simp] theorem Context.fall_readySince (c : Context) (k : Fin 16) : (c.fall k).readySince = c.readySince := rfl
@[simp] theorem Context.fall_lid (c : Context) (k : Fin 16) : (c.fall k).lid = c.lid := rfl

@[simp] theorem Context.ackRise_s (c : Context) : (c.ackRise).s = c.s := rfl
@[simp] theorem Context.ackRise_a (c : Context) : (c.ackRise).a = c.a := rfl
@[simp] theorem Context.ackRise_v (c : Context) : (c.ackRise).v = c.v := rfl
@[simp] theorem Context.ackRise_m (c : Context) : (c.ackRise).m = c.m := rfl
@[simp] theorem Context.ackRise_p (c : Context) : (c.ackRise).p = c.p := rfl
@[simp] theorem Context.ackRise_stack (c : Context) : (c.ackRise).stack = c.stack := rfl
@[simp] theorem Context.ackRise_pend (c : Context) : (c.ackRise).pend = c.pend := rfl
@[simp] theorem Context.ackRise_hist (c : Context) : (c.ackRise).hist = c.hist := rfl
@[simp] theorem Context.ackRise_pc (c : Context) : (c.ackRise).pc = c.pc := rfl
@[simp] theorem Context.ackRise_tt (c : Context) : (c.ackRise).tt = c.tt := rfl
@[simp] theorem Context.ackRise_loops (c : Context) : (c.ackRise).loops = c.loops := rfl
@[simp] theorem Context.ackRise_itClear (c : Context) : (c.ackRise).itClear = c.itClear := rfl
@[simp] theorem Context.ackRise_xfer (c : Context) : (c.ackRise).xfer = c.xfer := rfl
@[simp] theorem Context.ackRise_pxfr (c : Context) : (c.ackRise).pxfr = c.pxfr := rfl
@[simp] theorem Context.ackRise_liveDue (c : Context) : (c.ackRise).liveDue = c.liveDue := rfl
@[simp] theorem Context.ackRise_live (c : Context) : (c.ackRise).live = c.live := rfl
@[simp] theorem Context.ackRise_status (c : Context) : (c.ackRise).status = c.status := rfl
@[simp] theorem Context.ackRise_round (c : Context) : (c.ackRise).round = c.round := rfl
@[simp] theorem Context.ackRise_cause (c : Context) : (c.ackRise).cause = c.cause := rfl
@[simp] theorem Context.ackRise_finfo (c : Context) : (c.ackRise).finfo = c.finfo := rfl
@[simp] theorem Context.ackRise_fpc (c : Context) : (c.ackRise).fpc = c.fpc := rfl
@[simp] theorem Context.ackRise_epc (c : Context) : (c.ackRise).epc = c.epc := rfl
@[simp] theorem Context.ackRise_trapv (c : Context) : (c.ackRise).trapv = c.trapv := rfl
@[simp] theorem Context.ackRise_rundecl (c : Context) : (c.ackRise).rundecl = c.rundecl := rfl
@[simp] theorem Context.ackRise_ovrcnt (c : Context) : (c.ackRise).ovrcnt = c.ovrcnt := rfl
@[simp] theorem Context.ackRise_declAt (c : Context) : (c.ackRise).declAt = c.declAt := rfl
@[simp] theorem Context.ackRise_overrun (c : Context) : (c.ackRise).overrun = c.overrun := rfl
@[simp] theorem Context.ackRise_overPre (c : Context) : (c.ackRise).overPre = c.overPre := rfl
@[simp] theorem Context.ackRise_hbase (c : Context) : (c.ackRise).hbase = c.hbase := rfl
@[simp] theorem Context.ackRise_hlimit (c : Context) : (c.ackRise).hlimit = c.hlimit := rfl
@[simp] theorem Context.ackRise_hoffset (c : Context) : (c.ackRise).hoffset = c.hoffset := rfl
@[simp] theorem Context.ackRise_walker (c : Context) : (c.ackRise).walker = c.walker := rfl
@[simp] theorem Context.ackRise_launch (c : Context) : (c.ackRise).launch = c.launch := rfl
@[simp] theorem Context.ackRise_lorg (c : Context) : (c.ackRise).lorg = c.lorg := rfl
@[simp] theorem Context.ackRise_lext (c : Context) : (c.ackRise).lext = c.lext := rfl
@[simp] theorem Context.ackRise_rank (c : Context) : (c.ackRise).rank = c.rank := rfl
@[simp] theorem Context.ackRise_caps (c : Context) : (c.ackRise).caps = c.caps := rfl
@[simp] theorem Context.ackRise_cnt (c : Context) : (c.ackRise).cnt = c.cnt := rfl
@[simp] theorem Context.ackRise_phase (c : Context) : (c.ackRise).phase = c.phase := rfl
@[simp] theorem Context.ackRise_phaseDue (c : Context) : (c.ackRise).phaseDue = c.phaseDue := rfl
@[simp] theorem Context.ackRise_markers (c : Context) : (c.ackRise).markers = c.markers := rfl
@[simp] theorem Context.ackRise_phaseMxu (c : Context) : (c.ackRise).phaseMxu = c.phaseMxu := rfl
@[simp] theorem Context.ackRise_phaseCopy (c : Context) : (c.ackRise).phaseCopy = c.phaseCopy := rfl
@[simp] theorem Context.ackRise_mpubs (c : Context) : (c.ackRise).mpubs = c.mpubs := rfl
@[simp] theorem Context.ackRise_tlOut (c : Context) : (c.ackRise).tlOut = c.tlOut := rfl
@[simp] theorem Context.ackRise_faults (c : Context) : (c.ackRise).faults = c.faults := rfl
@[simp] theorem Context.ackRise_late (c : Context) : (c.ackRise).late = c.late := rfl
@[simp] theorem Context.ackRise_vcTraps (c : Context) : (c.ackRise).vcTraps = c.vcTraps := rfl
@[simp] theorem Context.ackRise_vcDropped (c : Context) : (c.ackRise).vcDropped = c.vcDropped := rfl
@[simp] theorem Context.ackRise_st (c : Context) : (c.ackRise).st = c.st := rfl
@[simp] theorem Context.ackRise_held (c : Context) : (c.ackRise).held = c.held := rfl
@[simp] theorem Context.ackRise_safe (c : Context) : (c.ackRise).safe = c.safe := rfl
@[simp] theorem Context.ackRise_preReq (c : Context) : (c.ackRise).preReq = c.preReq := rfl
@[simp] theorem Context.ackRise_readySince (c : Context) : (c.ackRise).readySince = c.readySince := rfl
@[simp] theorem Context.ackRise_lid (c : Context) : (c.ackRise).lid = c.lid := rfl

@[simp] theorem Context.ackFall_s (c : Context) : (c.ackFall).s = c.s := rfl
@[simp] theorem Context.ackFall_a (c : Context) : (c.ackFall).a = c.a := rfl
@[simp] theorem Context.ackFall_v (c : Context) : (c.ackFall).v = c.v := rfl
@[simp] theorem Context.ackFall_m (c : Context) : (c.ackFall).m = c.m := rfl
@[simp] theorem Context.ackFall_p (c : Context) : (c.ackFall).p = c.p := rfl
@[simp] theorem Context.ackFall_stack (c : Context) : (c.ackFall).stack = c.stack := rfl
@[simp] theorem Context.ackFall_pend (c : Context) : (c.ackFall).pend = c.pend := rfl
@[simp] theorem Context.ackFall_hist (c : Context) : (c.ackFall).hist = c.hist := rfl
@[simp] theorem Context.ackFall_pc (c : Context) : (c.ackFall).pc = c.pc := rfl
@[simp] theorem Context.ackFall_tt (c : Context) : (c.ackFall).tt = c.tt := rfl
@[simp] theorem Context.ackFall_loops (c : Context) : (c.ackFall).loops = c.loops := rfl
@[simp] theorem Context.ackFall_itClear (c : Context) : (c.ackFall).itClear = c.itClear := rfl
@[simp] theorem Context.ackFall_xfer (c : Context) : (c.ackFall).xfer = c.xfer := rfl
@[simp] theorem Context.ackFall_pxfr (c : Context) : (c.ackFall).pxfr = c.pxfr := rfl
@[simp] theorem Context.ackFall_liveDue (c : Context) : (c.ackFall).liveDue = c.liveDue := rfl
@[simp] theorem Context.ackFall_live (c : Context) : (c.ackFall).live = c.live := rfl
@[simp] theorem Context.ackFall_status (c : Context) : (c.ackFall).status = c.status := rfl
@[simp] theorem Context.ackFall_round (c : Context) : (c.ackFall).round = c.round := rfl
@[simp] theorem Context.ackFall_cause (c : Context) : (c.ackFall).cause = c.cause := rfl
@[simp] theorem Context.ackFall_finfo (c : Context) : (c.ackFall).finfo = c.finfo := rfl
@[simp] theorem Context.ackFall_fpc (c : Context) : (c.ackFall).fpc = c.fpc := rfl
@[simp] theorem Context.ackFall_epc (c : Context) : (c.ackFall).epc = c.epc := rfl
@[simp] theorem Context.ackFall_trapv (c : Context) : (c.ackFall).trapv = c.trapv := rfl
@[simp] theorem Context.ackFall_rundecl (c : Context) : (c.ackFall).rundecl = c.rundecl := rfl
@[simp] theorem Context.ackFall_ovrcnt (c : Context) : (c.ackFall).ovrcnt = c.ovrcnt := rfl
@[simp] theorem Context.ackFall_declAt (c : Context) : (c.ackFall).declAt = c.declAt := rfl
@[simp] theorem Context.ackFall_overrun (c : Context) : (c.ackFall).overrun = c.overrun := rfl
@[simp] theorem Context.ackFall_overPre (c : Context) : (c.ackFall).overPre = c.overPre := rfl
@[simp] theorem Context.ackFall_hbase (c : Context) : (c.ackFall).hbase = c.hbase := rfl
@[simp] theorem Context.ackFall_hlimit (c : Context) : (c.ackFall).hlimit = c.hlimit := rfl
@[simp] theorem Context.ackFall_hoffset (c : Context) : (c.ackFall).hoffset = c.hoffset := rfl
@[simp] theorem Context.ackFall_walker (c : Context) : (c.ackFall).walker = c.walker := rfl
@[simp] theorem Context.ackFall_launch (c : Context) : (c.ackFall).launch = c.launch := rfl
@[simp] theorem Context.ackFall_lorg (c : Context) : (c.ackFall).lorg = c.lorg := rfl
@[simp] theorem Context.ackFall_lext (c : Context) : (c.ackFall).lext = c.lext := rfl
@[simp] theorem Context.ackFall_rank (c : Context) : (c.ackFall).rank = c.rank := rfl
@[simp] theorem Context.ackFall_caps (c : Context) : (c.ackFall).caps = c.caps := rfl
@[simp] theorem Context.ackFall_cnt (c : Context) : (c.ackFall).cnt = c.cnt := rfl
@[simp] theorem Context.ackFall_phase (c : Context) : (c.ackFall).phase = c.phase := rfl
@[simp] theorem Context.ackFall_phaseDue (c : Context) : (c.ackFall).phaseDue = c.phaseDue := rfl
@[simp] theorem Context.ackFall_markers (c : Context) : (c.ackFall).markers = c.markers := rfl
@[simp] theorem Context.ackFall_phaseMxu (c : Context) : (c.ackFall).phaseMxu = c.phaseMxu := rfl
@[simp] theorem Context.ackFall_phaseCopy (c : Context) : (c.ackFall).phaseCopy = c.phaseCopy := rfl
@[simp] theorem Context.ackFall_mpubs (c : Context) : (c.ackFall).mpubs = c.mpubs := rfl
@[simp] theorem Context.ackFall_tlOut (c : Context) : (c.ackFall).tlOut = c.tlOut := rfl
@[simp] theorem Context.ackFall_faults (c : Context) : (c.ackFall).faults = c.faults := rfl
@[simp] theorem Context.ackFall_late (c : Context) : (c.ackFall).late = c.late := rfl
@[simp] theorem Context.ackFall_vcTraps (c : Context) : (c.ackFall).vcTraps = c.vcTraps := rfl
@[simp] theorem Context.ackFall_vcDropped (c : Context) : (c.ackFall).vcDropped = c.vcDropped := rfl
@[simp] theorem Context.ackFall_st (c : Context) : (c.ackFall).st = c.st := rfl
@[simp] theorem Context.ackFall_held (c : Context) : (c.ackFall).held = c.held := rfl
@[simp] theorem Context.ackFall_safe (c : Context) : (c.ackFall).safe = c.safe := rfl
@[simp] theorem Context.ackFall_preReq (c : Context) : (c.ackFall).preReq = c.preReq := rfl
@[simp] theorem Context.ackFall_readySince (c : Context) : (c.ackFall).readySince = c.readySince := rfl
@[simp] theorem Context.ackFall_lid (c : Context) : (c.ackFall).lid = c.lid := rfl

end Sys2Proof.Machine
end

