-- ==== Sys2Proof/Laws/Ops.lean ====
section
/-! SUPPORT. One lemma for each shared operation that says everything it can do: results and commits, counters, scratchpad
writes, rings, the ledger of engine commands, faults and traps, host records, memories. -/

namespace Sys2Proof.Machine

/-! ### Results (R4, R48) -/

theorem Context.push_regs (c : Context) (x : Commit) : { c.push x with pend := c.pend } = c := rfl

/-- A result changes nothing but the pending results of the acting context. -/
theorem State.result_ctx (s : State) (lat : Nat) (d : Dst) :
    (s.result lat d).curCtx = s.curCtx.push ⟨s.cur.tt + lat, s.cur.tt, s.cur.slot, d⟩ := by
  unfold State.result; exact State.curCtx_modCur ..

theorem State.result_frame (s : State) (lat : Nat) (d : Dst) : { s.result lat d with tiles := s.tiles } = s := rfl

theorem mem_insertCommit (x y : Commit) (l : List Commit) : y ∈ insertCommit x l ↔ y = x ∨ y ∈ l := by
  induction l with
  | nil => simp [insertCommit]
  | cons z l ih =>
    unfold insertCommit
    split
    · simp only [List.mem_cons, ih]; tauto
    · simp only [List.mem_cons]

/-- A result that takes its place changes registers only; task tick, pc and pending results stay. -/
theorem Context.put_frame (c : Context) (d : Dst) :
    { c.put d with s := c.s, a := c.a, v := c.v, m := c.m, p := c.p, stack := c.stack, status := c.status } = c := by
  cases d <;> simp only [Context.put] <;> first | rfl | (split <;> rfl)

theorem Context.put_zero_m (c : Context) (v : Word) : c.put (.m 0 v) = c := by simp [Context.put]
theorem Context.put_zero_p (c : Context) (v : Bool) : c.put (.p 0 v) = c := by simp [Context.put]

theorem Context.readP_zero (c : Context) : c.readP 0 = true := by simp [Context.readP]
theorem Context.readM_zero (c : Context) : c.readM 0 = BitVec.allOnes 32 := by simp [Context.readM]

/-- Commits leave the pc and the task tick. -/
theorem Context.commitDue_pc (c : Context) (n : Nat) : (c.commitDue n).pc = c.pc ∧ (c.commitDue n).tt = c.tt := by
  have put_pc : ∀ (c : Context) (d : Dst), (c.put d).pc = c.pc ∧ (c.put d).tt = c.tt := fun c d =>
    ⟨(congrArg Context.pc (c.put_frame d) :), (congrArg Context.tt (c.put_frame d) :)⟩
  have fold : ∀ (l : List Commit) (c : Context),
      (l.foldl (fun c x => c.put x.dst) c).pc = c.pc ∧ (l.foldl (fun c x => c.put x.dst) c).tt = c.tt := by
    intro l; induction l with
    | nil => exact fun c => ⟨rfl, rfl⟩
    | cons x l ih => intro c; simp only [List.foldl_cons, ih, put_pc, and_self]
  exact fold _ _

/-! ### Counters (R369 to R371) -/

theorem Tile.count_frame (t : Tile) (i : Fin 10) (n : Nat) : { t.count i n with err := t.err } = t := by
  unfold Tile.count; split <;> rfl
theorem Tile.event_frame (t : Tile) (e n : Nat) : { t.event e n with pmc := t.pmc } = t := rfl
@[simp] theorem Tile.count_spm (t : Tile) (i : Fin 10) (n : Nat) : (t.count i n).spm = t.spm := by
  unfold Tile.count; split <;> rfl
@[simp] theorem Tile.count_ctxs (t : Tile) (i : Fin 10) (n : Nat) : (t.count i n).ctxs = t.ctxs := by
  unfold Tile.count; split <;> rfl

theorem addSat32_toNat (w : Word) (n : Nat) : (addSat32 w n).toNat = min (2 ^ 32 - 1) (w.toNat + n) := by
  unfold addSat32; rw [BitVec.toNat_ofNat]; omega

/-! ### Scratchpad writes (R178, R187) -/

theorem spmAddr_lt (a : Nat) : spmAddr a < 65536 := Nat.mod_lt _ (by decide)

theorem Tile.killRegion_frame (t : Tile) (as : List Nat) : { t.killRegion as with region := t.region } = t := by
  unfold Tile.killRegion; split <;> rfl
theorem Tile.clearUpsets_frame (t : Tile) (m : Fin 4) (ws : List Nat) : { t.clearUpsets m ws with upsets := t.upsets } = t := by
  unfold Tile.clearUpsets; split <;> rfl

theorem Tile.writeSpm_spm (t : Tile) (l : List (Nat × Byte)) : (t.writeSpm l).spm = t.spm.writeAll (l.map fun e => (spmAddr e.1, e.2)) := by
  simp only [Tile.writeSpm, Tile.clearUpsets, Tile.killRegion]; split <;> split <;> rfl

/-- A write of the scratchpad changes its bytes, the code-region slots it touches and the upsets it covers: nothing else. -/
theorem Tile.writeSpm_frame (t : Tile) (l : List (Nat × Byte)) :
    { t.writeSpm l with spm := t.spm, region := t.region, upsets := t.upsets } = t := by
  simp only [Tile.writeSpm, Tile.clearUpsets, Tile.killRegion]; split <;> split <;> rfl

theorem Tile.wf_writeSpm (t : Tile) (l : List (Nat × Byte)) (h : t.spm.wf = true) : (t.writeSpm l).spm.wf = true := by
  rw [Tile.writeSpm_spm]; exact Memory.wf_writeAll _ h

theorem Tile.read_writeSpm_out (t : Tile) (l : List (Nat × Byte)) (a : Nat) (h : t.spm.wf = true)
    (ha : ∀ e ∈ l, spmAddr e.1 ≠ a) : (t.writeSpm l).spm.read a = t.spm.read a := by
  rw [Tile.writeSpm_spm]
  refine Memory.read_writeAll_ne _ a h fun e he => ?_
  obtain ⟨f, hf, rfl⟩ := List.mem_map.1 he
  exact ha f hf

/-! ### Rings and the ledger (R195, R360) -/

theorem Ring.pop_frame (r : Ring) (n : Nat) : { r.pop n with head := r.head, cnt := r.cnt } = r := rfl
theorem Ring.reserve_frame (r : Ring) (id n : Nat) : { r.reserve id n with tail := r.tail, infl := r.infl, ended := r.ended } = r := rfl
theorem Ring.endFill_frame (r : Ring) (id : Nat) : { r.endFill id with ended := r.ended, infl := r.infl, cnt := r.cnt } = r := rfl

theorem Tile.enroll_frame (t : Tile) (c : Fin 4) (q : Fin 3) (tag : Option (Fin 16)) (coll wack : Bool) :
    { (t.enroll c q tag coll wack).1 with nextId := t.nextId, live := t.live } = t := rfl

/-- A command that is not in the ledger retires without effect. -/
theorem Tile.retire_none (t : Tile) (id : Nat) (b : Bool) (h : t.live.find? (fun l => l.id == id) = none) : t.retire id b = t := by
  simp only [Tile.retire, h]

/-- Retirement touches the ledger and the contexts only. -/
theorem Tile.retire_frame (t : Tile) (id : Nat) (b : Bool) : { t.retire id b with live := t.live, ctxs := t.ctxs } = t := by
  unfold Tile.retire
  split
  · rfl
  · split
    · split <;> rfl
    · rfl

theorem Tile.retire_live (t : Tile) (id : Nat) (b : Bool) : ∀ l ∈ (t.retire id b).live, l.id ≠ id := by
  unfold Tile.retire
  split
  · rename_i h
    intro l hl he
    have := List.find?_eq_none.1 h l hl
    simp [he] at this
  · intro l hl
    have : l ∈ t.live.filter fun l => l.id != id := by
      revert hl
      split
      · split <;> exact fun h => h
      · exact fun h => h
    simpa using (List.mem_filter.1 this).2

/-! ### Faults and traps (R156, R158) -/

@[simp] theorem Context.enterTrap_pc (c : Context) (x f : Word) (p e : VAddr) : (c.enterTrap x f p e).pc = c.trapv := rfl
@[simp] theorem Context.enterTrap_epc (c : Context) (x f : Word) (p e : VAddr) : (c.enterTrap x f p e).epc = e := rfl
@[simp] theorem Context.enterTrap_fpc (c : Context) (x f : Word) (p e : VAddr) : (c.enterTrap x f p e).fpc = p := rfl
@[simp] theorem Context.enterTrap_cause (c : Context) (x f : Word) (p e : VAddr) : (c.enterTrap x f p e).cause = x := rfl
@[simp] theorem Context.enterTrap_finfo (c : Context) (x f : Word) (p e : VAddr) : (c.enterTrap x f p e).finfo = f := rfl
@[simp] theorem Context.stopWith_st (c : Context) (x f : Word) (p e : VAddr) : (c.stopWith x f p e).st = .stopped := rfl

theorem Context.setIt_frame (c : Context) (b : Bool) : { c.setIt b with status := c.status } = c := rfl

theorem Tile.closeLock_frame (t : Tile) (c : Fin 4) (n : Nat) : { t.closeLock c n with lock := t.lock } = t := by
  unfold Tile.closeLock; split
  · split <;> rfl
  · rfl
@[simp] theorem Tile.closeLock_ctx (t : Tile) (c d : Fin 4) (n : Nat) : (t.closeLock c n).ctx d = t.ctx d := by
  unfold Tile.closeLock; split
  · split <;> rfl
  · rfl

/-- A trap or fault either enters the handler or stops the context. -/
theorem State.raise_ctx (s : State) (t : TileId) (c : Fin 4) (x f : Word) (p e : VAddr) :
    (s.raise t c x f p e).ctx t c = if (s.ctx t c).canTrap then (s.ctx t c).enterTrap x f p e else (s.ctx t c).stopWith x f p e := by
  have h : (s.modTile t fun y => y.closeLock c s.now).ctx t c = s.ctx t c := by
    rw [State.ctx_modTile, Tile.closeLock_ctx]; rfl
  simp only [State.raise, h]
  split
  · rw [State.ctx_modCtx, h]
  · show ((s.modTile t fun y => y.closeLock c s.now).modCtx t c _).ctx t c = _
    rw [State.ctx_modCtx, h]

theorem Context.report_frame (c : Context) (q : Fin 3) (f : FaultRec) (n : Nat) : { c.report q f n with faults := c.faults, late := c.late } = c := by
  unfold Context.report; split
  · rfl
  · split <;> rfl

/-! ### The host's queues -/

@[simp] theorem State.queue_modQueue (s : State) (q : Fin 256) (f : UserQueue → UserQueue) : (s.modQueue q f).queue q = f (s.queue q) := by
  simp [State.queue, State.modQueue]
theorem State.queue_modQueue_ne (s : State) {q r : Fin 256} (f : UserQueue → UserQueue) (h : r ≠ q) :
    (s.modQueue q f).queue r = s.queue r := by
  simp only [State.queue, State.modQueue]
  exact alGet_alSet_ne _ _ _ fun e => h (Fin.ext e)
@[simp] theorem State.queue_modSlot (s : State) (k : Fin 32) (q : Fin 256) (f : HwSlot → HwSlot) : (s.modSlot k f).queue q = s.queue q := rfl
@[simp] theorem State.slots_modQueue (s : State) (q : Fin 256) (f : UserQueue → UserQueue) : (s.modQueue q f).slots = s.slots := rfl

theorem State.modQueue_frame (s : State) (q : Fin 256) (f : UserQueue → UserQueue) : { s.modQueue q f with queues := s.queues } = s := rfl
theorem State.hostWrite_frame (s : State) (a : Nat) (bs : List Byte) : { s.hostWrite a bs with host := s.host } = s := rfl

/-- The head moves over completed records; the tail, the ring and what has started stay. -/
theorem UserQueue.settle_frame (n : Nat) (u : UserQueue) : { u.settle n with qhead := u.qhead, done := u.done } = u := by
  induction n generalizing u with
  | zero => rfl
  | succ n ih =>
    unfold UserQueue.settle
    split
    · have h := ih { u with done := u.done.filter (· != u.qhead.toNat), qhead := u.qhead + 1 }
      exact congrArg (fun x : UserQueue => { x with qhead := u.qhead, done := u.done }) h
    · rfl
theorem UserQueue.complete_frame (u : UserQueue) (i : Nat) : { u.complete i with qhead := u.qhead, done := u.done } = u :=
  congrArg (fun x : UserQueue => { x with qhead := u.qhead, done := u.done }) (UserQueue.settle_frame _ { u with done := u.done ++ [i] })

/-- An event reaches the ring or is counted as lost: the host's ring and its control block only. -/
theorem State.post_frame (s : State) (k : Nat) (b : List Byte) : { s.post k b with host := s.host, ctl := s.ctl } = s := by
  simp only [State.post]; split <;> rfl

theorem State.wf_hostWrite (s : State) (a : Nat) (bs : List Byte) (h : s.host.wf = true) : (s.hostWrite a bs).host.wf = true :=
  Memory.wf_writeAll _ h

/-! ### Memories of the whole part -/

theorem State.memOk_tile (s : State) (t : TileId) (h : s.memOk = true) : (s.tile t).spm.wf = true ∧ (s.tile t).spmPrev.wf = true := by
  simp only [State.memOk, Bool.and_eq_true, List.all_eq_true] at h
  obtain ⟨⟨⟨⟨-, -⟩, ht⟩, -⟩, -⟩ := h
  have : ∀ (l : List (Nat × Tile)), (∀ e ∈ l, e.2.spm.wf = true ∧ e.2.spmPrev.wf = true) →
      (alGet l t Tile.reset).spm.wf = true ∧ (alGet l t Tile.reset).spmPrev.wf = true := by
    intro l; induction l with
    | nil => exact fun _ => ⟨rfl, rfl⟩
    | cons e l ih =>
      intro hl
      simp only [alGet]
      split
      · exact hl e (List.mem_cons_self ..)
      · exact ih fun x hx => hl x (List.mem_cons_of_mem _ hx)
  exact this s.tiles ht

/-- A tile whose memories stay canonical may replace the one that stood there. -/
theorem State.memOk_setTile (s : State) (t : TileId) (x : Tile) (h : s.memOk = true) (h1 : x.spm.wf = true) (h2 : x.spmPrev.wf = true) :
    (s.setTile t x).memOk = true := by
  have put : ∀ (l : List (Nat × Tile)), (∀ e ∈ l, (e.2.spm.wf && e.2.spmPrev.wf) = true) →
      ∀ e ∈ alSet l t x, (e.2.spm.wf && e.2.spmPrev.wf) = true := by
    intro l; induction l with
    | nil => intro _ e he; simp only [alSet, List.mem_singleton] at he; subst he; simp [h1, h2]
    | cons y l ih =>
      intro hl e he
      simp only [alSet] at he
      split at he
      · rcases List.mem_cons.1 he with rfl | he
        · simp [h1, h2]
        · exact hl e he
      · split at he
        · rcases List.mem_cons.1 he with rfl | he
          · simp [h1, h2]
          · exact hl e (List.mem_cons_of_mem _ he)
        · rcases List.mem_cons.1 he with rfl | he
          · exact hl _ (List.mem_cons_self ..)
          · exact ih (fun z hz => hl z (List.mem_cons_of_mem _ hz)) e he
  simp only [State.memOk, State.setTile, Bool.and_eq_true, List.all_eq_true] at h ⊢
  obtain ⟨⟨⟨⟨a, b⟩, c⟩, d⟩, e⟩ := h
  refine ⟨⟨⟨⟨a, b⟩, fun y hy => ?_⟩, d⟩, e⟩
  simpa using put s.tiles (by simpa using c) y hy

theorem State.memOk_modTile (s : State) (t : TileId) (f : Tile → Tile) (h : s.memOk = true)
    (h1 : (s.tile t).spm.wf = true → (f (s.tile t)).spm.wf = true) (h2 : (s.tile t).spmPrev.wf = true → (f (s.tile t)).spmPrev.wf = true) :
    (s.modTile t f).memOk = true :=
  s.memOk_setTile t _ h (h1 (s.memOk_tile t h).1) (h2 (s.memOk_tile t h).2)

theorem State.memOk_modCtx (s : State) (t : TileId) (c : Fin 4) (f : Context → Context) (h : s.memOk = true) : (s.modCtx t c f).memOk = true :=
  s.memOk_modTile t _ h id id

/-- A result changes no memory. -/
theorem State.memOk_result (s : State) (lat : Nat) (d : Dst) (h : s.memOk = true) : (s.result lat d).memOk = true :=
  State.memOk_modCtx _ _ _ _ h

theorem State.memOk_hostWrite (s : State) (a : Nat) (bs : List Byte) (h : s.memOk = true) : (s.hostWrite a bs).memOk = true := by
  simp only [State.memOk, State.hostWrite, Bool.and_eq_true] at h ⊢
  obtain ⟨⟨⟨⟨a, b⟩, c⟩, d⟩, e⟩ := h
  exact ⟨⟨⟨⟨a, Memory.wf_writeAll _ b⟩, c⟩, d⟩, e⟩

/-! ### Timelines, save areas, the handover record (R365, R384, R406) -/

theorem State.foldl_fw {α : Type} (f : State → α → State) (h : ∀ s a, (f s a).fw = s.fw) (l : List α) (s : State) :
    (l.foldl f s).fw = s.fw := by
  induction l generalizing s with
  | nil => rfl
  | cons a l ih => exact (ih _).trans (h s a)

/-- Advances that are applied leave the firmware's own state as it is. -/
@[simp] theorem State.applyAdvances_fw (s : State) (l : List (Fin 1024 × BitVec 64)) : (s.applyAdvances l).fw = s.fw := by
  unfold State.applyAdvances
  extract_lets
  split
  · rfl
  · exact (State.foldl_fw State.deliverTl (fun _ _ => rfl) _ _ :)

@[simp] theorem State.dueAdvances_fw (s : State) : s.dueAdvances.fw = s.fw := by
  unfold State.dueAdvances
  exact (State.applyAdvances_fw _ _).trans
    (State.foldl_fw _ (fun s a => by cases a.src <;> rfl) _ _)

theorem State.modArea_frame (s : State) (t : TileId) (c : Fin 4) (f : SaveArea → SaveArea) :
    { s.modArea t c f with saves := s.saves } = s := rfl

/-- The record begins with its magic and the sequence number of the switch. -/
theorem State.handoverRecord_take (s : State) :
    s.handoverRecord.take 8 = leBytes 4 0x48444F31 ++ leBytes 4 s.fw.handover.toNat := rfl

end Sys2Proof.Machine
end

