-- ==== Sys2Proof/Laws/Array.lean ====
section
/-! SUPPORT. Lemmas about the contents of the array: INT32 and FP32 passes (R87, R88, R262), operand layouts (R244, R245), scaling
(R265) and drains (R94). -/

namespace Sys2Proof.Machine

/-! ### INT32 passes -/

theorem satS_saturated (b : Nat) (i : ℤ) : (satS b i).1 = saturated b i := by
  have : (0 : ℤ) < 2 ^ (b - 1) := by positivity
  unfold satS clamp saturated
  split
  · simp only; omega
  · split <;> simp only <;> omega

theorem wrap32_saturated (i : ℤ) : (wrap32 (saturated 32 i)).toInt = saturated 32 i := by
  unfold wrap32 saturated
  rw [BitVec.toInt_ofInt, Int.bmod_eq_of_le] <;> omega

theorem intRounds_int (rm : RMode) (i : ℤ) : intRounds rm i i := by
  have h := (Dyad.toInt_rounds rm ⟨i, 0⟩).1
  simpa [Dyad.toInt] using h

theorem intSum_eq (p : Word) (a b : List (Nat × Nat)) :
    intSum p a b = ((a.zip b).map fun e => intValue (pFmtA p) (wsA p) e.1.1 * intValue (pFmtB p) (wsB p) e.2.1).sum := by
  unfold intSum
  have (l : List ((Nat × Nat) × (Nat × Nat))) (s : ℤ) :
      l.foldl (fun s e => s + intValue (pFmtA p) (wsA p) e.1.1 * intValue (pFmtB p) (wsB p) e.2.1) s =
      s + (l.map fun e => intValue (pFmtA p) (wsA p) e.1.1 * intValue (pFmtB p) (wsB p) e.2.1).sum := by
    induction l generalizing s with
    | nil => simp
    | cons x l ih => simp only [List.foldl_cons, ih, List.map_cons, List.sum_cons]; ring
  rw [this]; simp

/-- A selected entry of an INT32 pass is the base plus the sum, rounded once. -/
theorem intOne_rounds (p : Word) (ctl : AccCtl) (decay : Word) (keep sum : ℤ) :
    ∃ s : ℤ, intRounds (pRM p) ((match ctl with
        | .ow => (0 : ℚ)
        | .acc => keep
        | .dacc => keep * ((decay.toNat % 65536 : ℕ) : ℚ) / 2 ^ 16) + sum) s ∧
      if pAM p = 0 then (intOne p ctl decay keep sum).1.toInt = saturated 32 s else (intOne p ctl decay keep sum).1 = BitVec.ofInt 32 s := by
  have fin (s : ℤ) : if pAM p = 0 then (if pAM p = 0 then (wrap32 (satS 32 s).1, (satS 32 s).2) else (wrap32 s, false)).1.toInt = saturated 32 s
      else (if pAM p = 0 then (wrap32 (satS 32 s).1, (satS 32 s).2) else (wrap32 s, false)).1 = BitVec.ofInt 32 s := by
    by_cases h : pAM p = 0
    · rw [if_pos h, if_pos h, satS_saturated]; exact wrap32_saturated s
    · rw [if_neg h, if_neg h]; rfl
  unfold intOne
  cases ctl with
  | ow => exact ⟨sum, by simpa using intRounds_int (pRM p) sum, fin sum⟩
  | acc => exact ⟨keep + sum, by simpa using intRounds_int (pRM p) (keep + sum), fin (keep + sum)⟩
  | dacc =>
    refine ⟨_, ?_, fin _⟩
    have h := (Dyad.toInt_rounds (pRM p) ((Dyad.mk (keep * (decay.toNat % 65536 : Nat)) (-16)).add ⟨sum, 0⟩)).1
    rw [Dyad.add_val] at h
    have e : (((keep * (decay.toNat % 65536 : ℕ) : ℤ) : ℚ)) * 2 ^ (-16 : ℤ) + (sum : ℚ) * 2 ^ (0 : ℤ) =
        keep * ((decay.toNat % 65536 : ℕ) : ℚ) / 2 ^ 16 + sum := by
      rw [zpow_zero, mul_one, Int.cast_mul, Int.cast_natCast, show (2 : ℚ) ^ (-16 : ℤ) = 1 / 2 ^ 16 by norm_num, mul_one_div]
    rw [← e]; exact h

theorem alignWord_val (sh : Nat) (w : Word) : (alignWord sh w).1.toInt = if sh = 0 then w.toInt else saturated 32 (w.toInt * 2 ^ sh) := by
  unfold alignWord
  by_cases h : sh = 0
  · rw [if_pos h, if_pos h]
  · rw [if_neg h, if_neg h]
    simp only [satS_saturated]
    exact wrap32_saturated _

theorem intRow_entries (p : Word) (ctl : AccCtl) (decay : Word) (img : AccRow) (cols : BitVec 128) (a : List (Nat × Nat))
    (colB : Fin 128 → List (Nat × Nat)) (n : Fin 128) :
    (intRow p ctl decay img cols a colB).row.entries[n] =
      if cols.getLsbD n.val = true then (intOne p ctl decay (alignWord (passAlign p ctl img).2 img.entries[n]).1.toInt
          (intSum p a (colB n) * 2 ^ ((passAlign p ctl img).1 - (pFA p + pFB p)))).1
      else (alignWord (passAlign p ctl img).2 img.entries[n]).1 := by
  unfold intRow
  simp only [Fin.getElem_fin, Vector.getElem_map, Vector.getElem_ofFn]
  split <;> rfl

theorem intRow_entry (p : Word) (ctl : AccCtl) (decay : Word) (img : AccRow) (cols : BitVec 128) (a : List (Nat × Nat))
    (colB : Fin 128 → List (Nat × Nat)) (n : Fin 128) :
    intEntry p ctl decay img (intRow p ctl decay img cols a colB).row (cols.getLsbD n.val) a (colB n) n := by
  have hft : (intRow p ctl decay img cols a colB).row.ft = BitVec.ofNat 6 (passAlign p ctl img).1 := by unfold intRow; simp only
  have hmode : (intRow p ctl decay img cols a colB).row.mode = if pAM p = 0 then .i32sat else .i32wrap := by unfold intRow; simp only
  have hal := alignWord_val (passAlign p ctl img).2 img.entries[n]
  have he := intRow_entries p ctl decay img cols a colB n
  set al := passAlign p ctl img with hdef
  have h1 : ctl = .ow ∨ img.mode = .clear → al = (pFA p + pFB p, 0) := by
    intro h; rw [hdef]; unfold passAlign; rw [if_pos (by simpa using h)]
  have h2 : ¬ (ctl = .ow ∨ img.mode = .clear) → img.ft.toNat < pFA p + pFB p → al = (pFA p + pFB p, pFA p + pFB p - img.ft.toNat) := by
    intro h h'; rw [hdef]; unfold passAlign; rw [if_neg (by simpa using h), if_pos h']
  have h3 : ¬ (ctl = .ow ∨ img.mode = .clear) → ¬ img.ft.toNat < pFA p + pFB p → al = (img.ft.toNat, 0) := by
    intro h h'; rw [hdef]; unfold passAlign; rw [if_neg (by simpa using h), if_neg h']
  refine ⟨(alignWord al.2 img.entries[n]).1.toInt, al.1, ?_, ?_, ?_, ?_, hft, hmode, ?_⟩
  · rintro ⟨h, h'⟩
    rw [hal, h2 h h', if_neg (by simp only; omega)]
  · intro h
    rw [hal]
    by_cases hf : ctl = .ow ∨ img.mode = .clear
    · rw [h1 hf]; rfl
    · rw [h3 hf (fun h' => h ⟨hf, h'⟩)]; rfl
  · rintro (h | ⟨h, h'⟩)
    · rw [h1 h]
    · rw [h2 h h']
  · intro h h'
    rw [h3 h (fun h'' => h' ⟨h, h''⟩)]
  · rw [he]
    by_cases hs : cols.getLsbD n.val = true
    · rw [if_pos hs, if_pos hs, intSum_eq]
      exact intOne_rounds p ctl decay _ _
    · rw [if_neg hs, if_neg hs]

/-! ### Precision -/

/-- What R83 leaves of the format pairs. -/
theorem precRow_ok (p : Word) (h : precRow p = 0) : pFmtA p ≤ 13 ∧ pFmtB p ≤ 13 ∧ isGrouped (pFmtA p) = false ∧
    (isGrouped (pFmtB p) = true → pFmtA p ≤ 1) ∧ (isGrouped (pFmtB p) = false → isInt (pFmtA p) = isInt (pFmtB p)) ∧
    (pFmtA p = 13 ↔ pFmtB p = 13) ∧ (pAM p = 1 → isInt (pFmtB p) = false) := by
  unfold precRow at h
  simp only at h
  split at h; · simp at h
  split at h; · simp at h
  split at h; · simp at h
  split at h; · simp at h
  split at h; · simp at h
  split at h; · simp at h
  split at h; · simp at h
  split at h; · simp at h
  rename_i h1 h2 h3 h4 h5 h6 h7 h8
  have h9 : isInt (pFmtB p) = true → pAM p ≠ 1 := by
    intro hi hc
    rw [if_pos hi, hc] at h
    simp at h
  refine ⟨by omega, by omega, by simpa using h2, ?_, ?_, ?_, ?_⟩
  · intro hg; simp [hg] at h3; omega
  · intro hg; simpa [hg] using h4
  · by_cases ha : pFmtA p = 13 <;> by_cases hb : pFmtB p = 13 <;> simp_all
  · intro hm; by_contra hc; exact h9 (by simpa using hc) hm

/-! ### FP32 passes -/

theorem floatValue_num (fmt w x ex : Nat) (h : 6 ≤ fmt) : (floatValue fmt w x ex).num = codeNum fmt w x ex := by
  unfold floatValue codeNum
  by_cases h13 : fmt = 13
  · rw [if_pos h13, if_pos h13]
    simp only [FVal.num]
    congr 1
    have habs : ((sext x w).natAbs : ℚ) = |(sext x w : ℚ)| := by rw [← Int.cast_abs, Int.abs_eq_natAbs]; rfl
    rw [habs]
    by_cases hn : sext x w < 0
    · have : (sext x w : ℚ) < 0 := by exact_mod_cast hn
      simp [hn, abs_of_neg this]
    · have : (0 : ℚ) ≤ sext x w := by exact_mod_cast not_lt.1 hn
      simp [hn, abs_of_nonneg this]
  · rw [if_neg h13, if_neg h13]
    refine FFmt.num_read_any _ ?_ ?_ x
    · unfold floatFmt; split <;> decide
    · unfold floatFmt; split <;> decide

/-- Whether two numbers are equal but for what a NaN signals. -/
def Exact.alike (a b : Exact) : Prop := a = b ∨ (a.isNan = true ∧ b.isNan = true)

theorem FVal.mul_alike (a b : FVal) : (a.mul b).num.alike (a.num.mul b.num) := by
  rw [FVal.num_mul]
  split
  · rename_i h
    right
    exact ⟨by rw [FVal.num_isNan]; exact h.2.2, rfl⟩
  · left; rfl

theorem total_alike (rm : RMode) (l m : List Exact) (h : List.Forall₂ Exact.alike l m) :
    (Exact.total rm l).alike (Exact.total rm m) := by
  have hn : l.any Exact.isNan = m.any Exact.isNan := by
    induction h with
    | nil => rfl
    | cons h _ ih =>
      simp only [List.any_cons, ih]
      rcases h with rfl | ⟨h1, h2⟩
      · rfl
      · rw [h1, h2]
  by_cases hl : l.any Exact.isNan = true
  · right
    constructor
    · unfold Exact.total; simp only [hl, Bool.true_or]; rfl
    · unfold Exact.total; simp only [← hn, hl, Bool.true_or]; rfl
  · left
    have : l = m := by
      rw [Bool.not_eq_true] at hl
      clear hn
      induction h with
      | nil => rfl
      | cons h _ ih =>
        simp only [List.any_cons, Bool.or_eq_false_iff] at hl
        rcases h with rfl | ⟨h1, h2⟩
        · rw [ih hl.2]
        · rw [h1] at hl; simp at hl
    rw [this]

theorem FFmt.gives_alike (f : FFmt) (rm : RMode) (a b : Exact) (r : FRes) (h : a.alike b) (hr : f.gives rm a r) :
    ∃ r', f.gives rm b r' ∧ r'.bits = r.bits := by
  rcases h with rfl | ⟨h1, h2⟩
  · exact ⟨r, hr, rfl⟩
  · cases a with
    | nan s => cases b with
      | nan t => exact ⟨⟨f.nan, Flags.sig t⟩, rfl, by rw [show r = ⟨f.nan, Flags.sig s⟩ from hr]⟩
      | _ => simp [Exact.isNan] at h2
    | _ => simp [Exact.isNan] at h1

/-- The exact sum of readings, rounded, whatever its NaNs signal. -/
theorem FFmt.sum_alike (f : FFmt) (hf : f.Ieee) (rm : RMode) (ts : List FVal) (ns : List Exact) (hne : ts ≠ [])
    (h : List.Forall₂ (fun t n => t.num.alike n) ts ns) : ∃ r, f.gives rm (Exact.total rm ns) r ∧ r.bits = (f.sum .r89 rm ts).bits := by
  refine f.gives_alike rm _ _ _ (total_alike rm (ts.map FVal.num) ns ?_) (f.sum_total_fval hf rm ts hne)
  rw [List.forall₂_map_left_iff]; exact h

theorem forall2_map {α β γ} (l : List α) (f : α → β) (g : α → γ) (R : β → γ → Prop) (h : ∀ x ∈ l, R (f x) (g x)) :
    List.Forall₂ R (l.map f) (l.map g) := by
  induction l with
  | nil => exact .nil
  | cons a l ih => exact .cons (h a (by simp)) (ih fun x hx => h x (by simp [hx]))

theorem floatTerms_alike (p : Word) (a b : List (Nat × Nat)) (q : Nat → Word) (hA : 6 ≤ pFmtA p ∨ isGrouped (pFmtB p) = true)
    (hB : 6 ≤ pFmtB p ∨ isGrouped (pFmtB p) = true) :
    List.Forall₂ (fun (t : FVal) n => t.num.alike n) (floatTerms p a b q) (passTerms p a b q) := by
  unfold floatTerms passTerms
  have hg : isGrouped (pFmtB p) = true ↔ (pFmtB p = 4 ∨ pFmtB p = 5) := by simp [isGrouped]
  by_cases h : isGrouped (pFmtB p) = true
  · rw [if_pos h, if_pos (hg.1 h)]
    have part (l : List ((Nat × Nat) × (Nat × Nat))) (w : Word) :
        ((fFp16.read (w.toNat % 65536)).mul (.fin (decide (l.foldl (fun s e => s + intValue (pFmtA p) (wsA p) e.1.1 *
            ((e.2.1 : Int) - ((w.toNat / 65536 % 256 : Nat) : Int))) 0 < 0)) (l.foldl (fun s e => s + intValue (pFmtA p) (wsA p) e.1.1 *
            ((e.2.1 : Int) - ((w.toNat / 65536 % 256 : Nat) : Int))) 0).natAbs (-(pFA p : Int)))).num.alike
          ((fFp16.num (w.toNat % 65536)).mul (.fin (decide ((l.map fun e => intValue (pFmtA p) (wsA p) e.1.1 *
            ((e.2.1 : ℤ) - ((w.toNat / 65536 % 256 : Nat) : ℤ))).sum < 0)) (((l.map fun e => intValue (pFmtA p) (wsA p) e.1.1 *
            ((e.2.1 : ℤ) - ((w.toNat / 65536 % 256 : Nat) : ℤ))).sum : ℤ) * 2 ^ (-(pFA p : ℤ))))) := by
      have hs (l : List ((Nat × Nat) × (Nat × Nat))) (g : (Nat × Nat) × (Nat × Nat) → ℤ) (s : ℤ) :
          l.foldl (fun s e => s + g e) s = s + (l.map g).sum := by
        induction l generalizing s with
        | nil => simp
        | cons x l ih => simp only [List.foldl_cons, ih, List.map_cons, List.sum_cons]; ring
      rw [hs l (fun e => intValue (pFmtA p) (wsA p) e.1.1 * ((e.2.1 : Int) - ((w.toNat / 65536 % 256 : Nat) : Int))) 0, zero_add]
      set P := (l.map fun e => intValue (pFmtA p) (wsA p) e.1.1 * ((e.2.1 : ℤ) - ((w.toNat / 65536 % 256 : Nat) : ℤ))).sum
      have hP : (FVal.fin (decide (P < 0)) P.natAbs (-(pFA p : Int))).num = .fin (decide (P < 0)) (P * 2 ^ (-(pFA p : ℤ))) := by
        simp only [FVal.num]
        congr 1
        have habs : (P.natAbs : ℚ) = |(P : ℚ)| := by rw [← Int.cast_abs, Int.abs_eq_natAbs]; rfl
        rw [habs]
        by_cases hn : P < 0
        · have : (P : ℚ) < 0 := by exact_mod_cast hn
          simp [hn, abs_of_neg this]
        · have : (0 : ℚ) ≤ P := by exact_mod_cast not_lt.1 hn
          simp [hn, abs_of_nonneg this]
      rw [← hP, ← fFp16.num_read ⟨rfl, by decide, by decide, by decide⟩]
      exact FVal.mul_alike _ _
    by_cases he : a = []
    · subst he; simp
    · have he' : a.isEmpty = false := by simpa using he
      by_cases h1 : pGS p = 1
      · by_cases h2 : 32 < a.length
        · simp only [h1, h2, he, he', and_self, if_true, if_false, List.map_cons, List.map_nil, Nat.mul_zero, Nat.mul_one, List.drop_zero]
          exact .cons (part _ _) (.cons (part _ _) .nil)
        · simp only [h1, h2, he, he', and_false, if_true, if_false, List.map_cons, List.map_nil, Nat.mul_zero, List.drop_zero, Bool.false_eq_true]
          exact .cons (part _ _) .nil
      · simp only [h1, he, he', false_and, if_false, List.map_cons, List.map_nil, Bool.false_eq_true]
        exact .cons (part _ _) .nil
  · rw [if_neg h, if_neg (mt hg.2 h)]
    have hA := hA.resolve_right h
    have hB := hB.resolve_right h
    refine forall2_map _ _ _ _ fun e _ => ?_
    rw [← floatValue_num _ _ _ _ hA, ← floatValue_num _ _ _ _ hB]
    exact FVal.mul_alike _ _

theorem floatOne_gives (p : Word) (ctl : AccCtl) (decay : Word) (old : FVal) (ts : List FVal) (ns : List Exact)
    (h : List.Forall₂ (fun t n => t.num.alike n) ts ns) :
    ∃ r, fF32.gives (pRM p) (Exact.total (pRM p) ((match ctl with
        | .ow => .fin false 0
        | .acc => old.num
        | .dacc => (fF32.num decay.toNat).mul old.num) :: ns)) r ∧ floatOne p ctl decay old ts = BitVec.ofNat 32 r.bits := by
  have hz : (FVal.fin false 0 0).num = .fin false 0 := by simp [FVal.num]
  unfold floatOne
  cases ctl with
  | ow =>
    obtain ⟨r, h1, h2⟩ := fF32.sum_alike f32_ieee (pRM p) (.fin false 0 0 :: ts) (.fin false 0 :: ns) (by simp) (.cons (.inl hz) h)
    exact ⟨r, h1, by rw [h2]⟩
  | acc =>
    obtain ⟨r, h1, h2⟩ := fF32.sum_alike f32_ieee (pRM p) (old :: ts) (old.num :: ns) (by simp) (.cons (.inl rfl) h)
    exact ⟨r, h1, by rw [h2]⟩
  | dacc =>
    obtain ⟨r, h1, h2⟩ := fF32.sum_alike f32_ieee (pRM p) ((fF32.read decay.toNat).mul old :: ts) ((fF32.num decay.toNat).mul old.num :: ns) (by simp)
      (.cons (by rw [← fF32.num_read f32_ieee]; exact FVal.mul_alike _ _) h)
    exact ⟨r, h1, by rw [h2]⟩

theorem floatRow_entry (p : Word) (ctl : AccCtl) (decay : Word) (q : Nat → Row) (img : AccRow) (cols : BitVec 128) (a : List (Nat × Nat))
    (colB : Fin 128 → List (Nat × Nat)) (n : Fin 128) (hA : 6 ≤ pFmtA p ∨ isGrouped (pFmtB p) = true)
    (hB : 6 ≤ pFmtB p ∨ isGrouped (pFmtB p) = true) :
    floatEntry p ctl decay q img (floatRow p ctl decay q img cols a colB).row (cols.getLsbD n.val) a (colB n) n := by
  unfold floatEntry floatRow
  refine ⟨rfl, ?_⟩
  simp only [Fin.getElem_fin, Vector.getElem_ofFn, Fin.eta]
  by_cases hs : cols.getLsbD n.val = true
  · rw [if_pos hs, if_pos hs]
    obtain ⟨r, h1, h2⟩ := floatOne_gives p ctl decay (if img.mode == .fp32 then fF32.read img.entries[n].toNat else .fin false 0 0) _ _
      (floatTerms_alike p a (colB n) (fun g => (q g)[n]) hA hB)
    have hold : (if (img.mode == .fp32) = true then fF32.read img.entries[n].toNat else .fin false 0 0 : FVal).num =
        if img.mode = .fp32 then fF32.num img.entries[n].toNat else .fin false 0 := by
      by_cases hm : img.mode = .fp32
      · rw [if_pos (by simpa using hm), if_pos hm]; exact fF32.num_read f32_ieee _
      · rw [if_neg (by simpa using hm), if_neg hm]; simp [FVal.num]
    rw [hold] at h1
    exact ⟨r, h1, h2⟩
  · rw [if_neg hs, if_neg hs]

/-! ### Operand layouts -/

theorem foldr_testBit (l : List Byte) (i : Nat) :
    (l.foldr (fun (b : Byte) acc => b.toNat + 256 * acc) 0).testBit i = bitOf l i := by
  induction l generalizing i with
  | nil => simp [bitOf]
  | cons b l ih =>
    rw [List.foldr_cons]
    have h : b.toNat + 256 * l.foldr (fun (b : Byte) acc => b.toNat + 256 * acc) 0 =
        2 ^ 8 * l.foldr (fun (b : Byte) acc => b.toNat + 256 * acc) 0 + b.toNat := by ring
    rw [h, Nat.testBit_two_pow_mul_add _ b.isLt]
    unfold bitOf
    by_cases hi : i < 8
    · rw [if_pos hi, Nat.div_eq_of_lt hi, Nat.mod_eq_of_lt hi]; rfl
    · rw [if_neg hi, ih]
      unfold bitOf
      obtain ⟨k, rfl⟩ : ∃ k, i = k + 8 := ⟨i - 8, by omega⟩
      rw [Nat.add_sub_cancel, Nat.add_div_right _ (by norm_num), Nat.add_mod_right, List.getD_cons_succ]

theorem bitOf_drop (l : List Byte) (m i : Nat) : bitOf (l.drop m) i = bitOf l (8 * m + i) := by
  unfold bitOf
  rw [Nat.mul_add_div (by norm_num), Nat.mul_add_mod]
  congr 1
  rw [List.getD_eq_getElem?_getD, List.getD_eq_getElem?_getD, List.getElem?_drop]

theorem bitOf_take (l : List Byte) (m i : Nat) (h : i < 8 * m) : bitOf (l.take m) i = bitOf l i := by
  unfold bitOf
  congr 1
  rw [List.getD_eq_getElem?_getD, List.getD_eq_getElem?_getD, List.getElem?_take_of_lt (by omega)]

/-- An element is the `w` bits of the byte string from bit `lo`. -/
theorem bitField_testBit (l : List Byte) (lo w i : Nat) : (bitField l lo w).testBit i = (decide (i < w) && bitOf l (lo + i)) := by
  unfold bitField
  rw [Nat.testBit_mod_two_pow, Nat.testBit_div_two_pow, foldr_testBit]
  by_cases h : i < w
  · simp only [h, decide_true, Bool.true_and]
    rw [bitOf_take _ _ _ (by omega), bitOf_drop]
    congr 1; omega
  · simp [h]

theorem elemB_bit (p : Word) (ta : Bool) (bs : List Byte) (k n i : Nat) (hi : i < 16) :
    (elemB p ta bs k n).getLsbD i = (decide (i < wsB p) && bitOf bs (bitB p ta k n + i)) := by
  unfold elemB bitB
  have h (x : Nat) : (BitVec.ofNat 16 x).getLsbD i = x.testBit i := by rw [BitVec.getLsbD_ofNat]; simp [hi]
  by_cases h13 : pFmtB p = 13
  · rw [if_pos h13, if_pos h13, h, bitField_testBit, bitOf_drop]; simp only [Nat.add_assoc]
  · rw [if_neg h13, if_neg h13]
    by_cases ht : ta = true
    · rw [if_pos ht, if_pos ht, h, bitField_testBit, bitOf_drop]; simp only [Nat.add_assoc]
    · rw [if_neg ht, if_neg ht, h, bitField_testBit, bitOf_drop]; simp only [Nat.add_assoc]

theorem loadPlane_bit (p : Word) (ta : Bool) (bs : List Byte) (k : Fin 64) (n : Fin 128) (i : Nat) (hi : i < 16) :
    (loadPlane p ta bs).e[k][n].getLsbD i = (decide (i < wsB p) && bitOf bs (bitB p ta k.val n.val + i)) := by
  unfold loadPlane
  simp only [Fin.getElem_fin, Vector.getElem_ofFn]
  exact elemB_bit p ta bs k.val n.val i hi

theorem loadPlane_exp (p : Word) (ta : Bool) (bs : List Byte) (b : Fin 4) (n : Fin 128) :
    (loadPlane p ta bs).x[b][n] = if pFmtB p = 13 then bs.getD (b.val * (128 + 256 * wsB p) + n.val) 0 else 0 := by
  unfold loadPlane
  simp only [Fin.getElem_fin, Vector.getElem_ofFn]
  split
  · rw [List.headD_eq_head?_getD, List.head?_drop, List.getD_eq_getElem?_getD]
  · rfl

theorem elemA_bit (p : Word) (ta : Bool) (z : Nat) (bs : List Byte) (j k i : Nat) (hk : k < extentA p ta z) :
    (elemA p ta z bs j k).1.testBit i = (decide (i < wsA p) && bitOf bs (bitA p ta z j k + i)) := by
  unfold elemA bitA
  unfold extentA at hk
  simp only at hk
  by_cases ht : ta = true
  · rw [if_pos ht, if_pos ht]; simp only; rw [bitField_testBit]
  · rw [if_neg ht] at hk
    rw [if_neg ht, if_neg ht]
    by_cases hf : pFmtA p = 13
    · rw [if_pos hf] at hk
      rw [if_pos hf, if_pos hf]
      simp only
      rw [bitField_testBit, List.drop_drop, bitOf_drop]
      by_cases hi : i < wsA p
      · have h1 : k / 16 < z / 32 / (1 + 2 * wsA p) := by
          have : 16 * min 4 (z / 32 / (1 + 2 * wsA p)) ≤ 16 * (z / 32 / (1 + 2 * wsA p)) := Nat.mul_le_mul_left _ (min_le_right _ _)
          omega
        have h2 : (k / 16 + 1) * (1 + 2 * wsA p) ≤ z / 32 := by
          calc (k / 16 + 1) * (1 + 2 * wsA p) ≤ z / 32 / (1 + 2 * wsA p) * (1 + 2 * wsA p) := Nat.mul_le_mul_right _ h1
            _ ≤ z / 32 := Nat.div_mul_le_self _ _
        have h3 : k % 16 * wsA p + wsA p ≤ 16 * wsA p := by
          have : (k % 16 + 1) * wsA p ≤ 16 * wsA p := Nat.mul_le_mul_right _ (by omega)
          linarith [this, Nat.add_mul (k % 16) 1 (wsA p)]
        rw [bitOf_take _ _ _ (by nlinarith), bitOf_drop]
        congr 2; ring
      · simp [hi]
    · rw [if_neg hf] at hk
      rw [if_neg hf, if_neg hf]
      simp only
      rw [bitField_testBit]
      by_cases hi : i < wsA p
      · have h1 : k < 8 * (z / 32) / wsA p := lt_of_lt_of_le hk (min_le_right _ _)
        have h2 : (k + 1) * wsA p ≤ 8 * (z / 32) := by
          calc (k + 1) * wsA p ≤ 8 * (z / 32) / wsA p * wsA p := Nat.mul_le_mul_right _ h1
            _ ≤ 8 * (z / 32) := Nat.div_mul_le_self _ _
        rw [bitOf_take _ _ _ (by nlinarith), bitOf_drop]
        congr 2; ring
      · simp [hi]

/-! ### Scaling and drains -/

theorem scaleRow_int (rm : RMode) (img : AccRow) (q : Row) (n : Fin 128) (h : img.mode = .i32sat ∨ img.mode = .i32wrap) :
    (scaleRow rm img q).1.mode = img.mode ∧ (scaleRow rm img q).1.ft = img.ft ∧ (scaleRow rm img q).1.entries[n] =
      (scaleInt rm (img.mode == .i32wrap) img.entries[n].toInt (fFp16.read (q[n].toNat % 65536))).1 := by
  have he : scaleRow rm img q = ({ img with pend := [], entries := (Vector.ofFn fun n : Fin 128 => scaleInt rm (img.mode == .i32wrap)
      img.entries[n].toInt (fFp16.read (q[n].toNat % 65536))).map Prod.fst }, ((Vector.ofFn fun n : Fin 128 => scaleInt rm
      (img.mode == .i32wrap) img.entries[n].toInt (fFp16.read (q[n].toNat % 65536))).toList.filter Prod.snd).length) := by
    unfold scaleRow; rcases h with h | h <;> rw [h]
  rw [he]
  refine ⟨rfl, rfl, ?_⟩
  simp only [Fin.getElem_fin, Vector.getElem_map, Vector.getElem_ofFn]

theorem scaleRow_float (rm : RMode) (img : AccRow) (q : Row) (n : Fin 128) (h : img.mode = .fp32) :
    (scaleRow rm img q).1.mode = img.mode ∧ (scaleRow rm img q).1.entries[n] =
      BitVec.ofNat 32 (scaleFloat rm img.entries[n].toNat (fFp16.read (q[n].toNat % 65536))) := by
  have he : (scaleRow rm img q).1 = { img with pend := [], entries := Vector.ofFn fun n : Fin 128 =>
      (BitVec.ofNat 32 (scaleFloat rm img.entries[n].toNat (fFp16.read (q[n].toNat % 65536)))) } := by
    unfold scaleRow; rw [h]
  rw [he]
  refine ⟨rfl, ?_⟩
  simp only [Fin.getElem_fin, Vector.getElem_ofFn]

theorem scaleInt_entry (rm : RMode) (wrap : Bool) (N : ℤ) (v : FVal) : let w := (scaleInt rm wrap N v).1
    match v.num with
    | .nan _ => w = 0
    | .inf s => w = if N = 0 then 0 else BitVec.ofInt 32 (if s = decide (N < 0) then 2 ^ 31 - 1 else -(2 ^ 31))
    | .fin _ x => ∃ i : ℤ, intRounds rm (N * x) i ∧ if wrap = true then w = BitVec.ofInt 32 i else w.toInt = saturated 32 i := by
  intro w
  simp only [w, scaleInt]
  cases v with
  | nan s => rfl
  | inf s =>
    simp only [FVal.num]
    by_cases h : N = 0
    · rw [if_pos h, if_pos h]
    · rw [if_neg h, if_neg h]; simp only [wrap32, beq_iff_eq]
  | fin s m e =>
    simp only [FVal.num]
    have h := (Dyad.toInt_rounds rm ((Dyad.ofSM s m e).mul ⟨N, 0⟩)).1
    have hv : (((Dyad.ofSM s m e).mul ⟨N, 0⟩).n : ℚ) * 2 ^ ((Dyad.ofSM s m e).mul ⟨N, 0⟩).e =
        N * (if s = true then -((m : ℚ) * 2 ^ e) else m * 2 ^ e) := by
      rw [← Dyad.ofSM_val]
      simp only [Dyad.mul, Int.cast_mul, add_zero]; ring
    rw [hv] at h
    refine ⟨_, h, ?_⟩
    cases wrap with
    | true => rfl
    | false =>
      simp only [Bool.false_eq_true, if_false, satS_saturated]
      exact wrap32_saturated _

theorem scaleFloat_gives (rm : RMode) (v : Nat) (s : FVal) :
    ∃ r, fF32.gives rm (Exact.total rm [(fF32.num v).mul s.num]) r ∧ r.bits = scaleFloat rm v s := by
  have hgen : ∃ r, fF32.gives rm (Exact.total rm [((fF32.read v).mul s).num]) r ∧ r.bits = scaleFloat rm v s := by
    unfold scaleFloat
    cases (fF32.read v).mul s with
    | nan s => exact ⟨⟨fF32.nan, Flags.sig s⟩, by simp [FVal.num, Exact.total, Exact.isNan, Exact.isSig, FFmt.gives], rfl⟩
    | inf s => exact ⟨⟨fF32.inf s, Flags.none⟩, by cases s <;> simp [FVal.num, Exact.total, Exact.isNan, FFmt.gives], rfl⟩
    | fin s m e =>
      simp only [FVal.num]
      by_cases h0 : m = 0
      · subst h0
        refine ⟨⟨fF32.zero (decide (rm = .rdn) || s), Flags.none⟩, ?_, ?_⟩
        · simp [Exact.total, Exact.isNan, FFmt.gives, Exact.rat, Exact.negative]
        · simp only [if_true]; cases s <;> cases rm <;> rfl
      · rw [if_neg h0]
        refine ⟨_, ?_, rfl⟩
        simp only [Exact.total, Exact.isNan, List.any_cons, List.any_nil, List.mem_singleton, reduceCtorEq, and_self, decide_false,
          Bool.or_self, Bool.false_eq_true, if_false, List.map_cons, List.map_nil, List.sum_cons, List.sum_nil, add_zero, Exact.rat]
        exact fF32.roundRat_gives f32_ieee rm s m 1 e _ (by omega) one_pos (by simp) _
  obtain ⟨r, h1, h2⟩ := hgen
  have hal : ((fF32.read v).mul s).num.alike ((fF32.num v).mul s.num) := by
    rw [← fF32.num_read f32_ieee]; exact FVal.mul_alike _ _
  obtain ⟨r', h3, h4⟩ := fF32.gives_alike rm _ _ r (total_alike rm _ _ (.cons hal .nil)) h1
  exact ⟨r', h3, by rw [h4, h2]⟩

theorem scaleRow_entry (rm : RMode) (img : AccRow) (q : Row) (n : Fin 128) : scaledEntry rm img (scaleRow rm img q).1 q n := by
  have hsc : (fFp16.read (q[n].toNat % 65536)).num = fFp16.num (q[n].toNat % 65536) :=
    fFp16.num_read ⟨rfl, by decide, by decide, by decide⟩ _
  unfold scaledEntry
  cases hm : img.mode with
  | clear => unfold scaleRow; rw [hm]; exact ⟨rfl, rfl, rfl⟩
  | fp32 =>
    obtain ⟨h1, h2⟩ := scaleRow_float rm img q n hm
    obtain ⟨r, h3, h4⟩ := scaleFloat_gives rm img.entries[n].toNat (fFp16.read (q[n].toNat % 65536))
    rw [hsc] at h3
    exact ⟨h1.trans hm, r, h3, by rw [h2, h4]⟩
  | i32sat =>
    obtain ⟨h1, h2, h3⟩ := scaleRow_int rm img q n (.inl hm)
    have h := scaleInt_entry rm (img.mode == .i32wrap) img.entries[n].toInt (fFp16.read (q[n].toNat % 65536))
    rw [hm] at h h3
    dsimp only at h
    rw [hsc, ← h3] at h
    refine ⟨h1.trans hm, h2, ?_⟩
    cases hq : fFp16.num (q[n].toNat % 65536) <;> simp only [hq] at h ⊢
    · exact h
    · exact h
    · exact h
  | i32wrap =>
    obtain ⟨h1, h2, h3⟩ := scaleRow_int rm img q n (.inr hm)
    have h := scaleInt_entry rm (img.mode == .i32wrap) img.entries[n].toInt (fFp16.read (q[n].toNat % 65536))
    rw [hm] at h h3
    dsimp only at h
    rw [hsc, ← h3] at h
    refine ⟨h1.trans hm, h2, ?_⟩
    cases hq : fFp16.num (q[n].toNat % 65536) <;> simp only [hq] at h ⊢
    · exact h
    · exact h
    · exact h

theorem drainEntry_drained (fmt : DrainFmt) (rm : RMode) (img : AccRow) (w : Word) : drained fmt rm img w (drainEntry fmt rm img w).1 := by
  have hfp : fFp16.Ieee := ⟨rfl, by decide, by decide, by decide⟩
  have fl (f : FFmt) (hf : f.Ieee) (size : Nat) (h4 : f = fF32 → size = 4) : match img.mode with
    | .clear => leBytes size (drainFloat f rm img w) = leBytes size 0
    | .fp32 => if f = fF32 then leBytes size (drainFloat f rm img w) = leBytes 4 w.toNat else
        ∃ r, f.gives rm (fF32.num w.toNat) r ∧ leBytes size (drainFloat f rm img w) = leBytes size r.bits
    | _ => ∃ r, f.gives rm (.fin false (w.toInt * 2 ^ (-(img.ft.toNat : ℤ)))) r ∧ leBytes size (drainFloat f rm img w) = leBytes size r.bits := by
    have hi : ∃ r, f.gives rm (.fin false (w.toInt * 2 ^ (-(img.ft.toNat : ℤ)))) r ∧
        (if w = 0 then 0 else (f.roundRat rm w.msb w.toInt.natAbs 1 (-(img.ft.toNat : Int))).bits) = r.bits := by
      by_cases h0 : w = 0
      · subst h0; exact ⟨⟨f.zero false, Flags.none⟩, by simp [FFmt.gives], by simp [FFmt.zero, FFmt.sign]⟩
      · rw [if_neg h0]
        have hw : w.toInt ≠ 0 := fun h => h0 (BitVec.toInt_inj.1 (by simpa using h))
        refine ⟨_, f.roundRat_gives hf rm _ _ 1 _ _ (Int.natAbs_pos.2 hw) one_pos ?_ _, rfl⟩
        have habs : ((w.toInt.natAbs : ℕ) : ℚ) = |(w.toInt : ℚ)| := by rw [← Int.cast_abs, Int.abs_eq_natAbs]; rfl
        rw [habs, BitVec.msb_eq_toInt]
        by_cases hn : w.toInt < 0
        · have : (w.toInt : ℚ) < 0 := by exact_mod_cast hn
          simp [hn, abs_of_neg this]
        · have : (0 : ℚ) ≤ w.toInt := by exact_mod_cast not_lt.1 hn
          simp [hn, abs_of_nonneg this]
    obtain ⟨r, h1, h2⟩ := hi
    unfold drainFloat
    cases img.mode with
    | clear => rfl
    | fp32 =>
      simp only
      by_cases hff : f = fF32
      · rw [if_pos hff, if_pos hff, h4 hff]
      · rw [if_neg hff, if_neg hff]
        exact ⟨_, fF32.convert_gives f f32_ieee hf rm _, rfl⟩
    | i32sat => exact ⟨r, h1, by rw [h2]⟩
    | i32wrap => exact ⟨r, h1, by rw [h2]⟩
  have it (b : Nat) : ∃ v : ℤ, leBytes (b / 8) (BitVec.ofInt 32 (drainInt rm img w b).1).toNat = leBytes (b / 8) (BitVec.ofInt 32 v).toNat ∧
      match img.mode with
      | .clear => v = 0
      | .fp32 => match fF32.num w.toNat with
        | .nan _ => v = 0
        | .inf s => v = saturated b (if s = true then -(2 ^ 31) else 2 ^ 31 - 1)
        | .fin _ q => ∃ i, intRounds rm q i ∧ v = saturated b (saturated 32 i)
      | _ => v = saturated b w.toInt := by
    refine ⟨_, rfl, ?_⟩
    unfold drainInt
    cases img.mode with
    | clear => rfl
    | i32sat => exact satS_saturated b _
    | i32wrap => exact satS_saturated b _
    | fp32 =>
      simp only
      have hr := fF32.num_read f32_ieee w.toNat
      cases hn : fF32.num w.toNat with
      | nan s =>
        rw [hn] at hr
        cases hx : fF32.read w.toNat <;> simp_all [FVal.num, FVal.isNan]
      | inf s =>
        rw [hn] at hr
        cases hx : fF32.read w.toNat with
        | inf t =>
          have : t = s := by simpa [hx, FVal.num] using hr
          subst this
          simp only [FVal.isNan, Bool.false_eq_true, if_false, FFmt.toIntRange, hx, satS_saturated]
        | _ => simp_all [FVal.num]
      | fin s q =>
        obtain ⟨i, h1, h2⟩ := fF32.toIntRange_rounds f32_ieee rm (-(2 ^ 31)) (2 ^ 31 - 1) w.toNat s q hn
        have hnn : (fF32.read w.toNat).isNan = false := by
          rw [hn] at hr
          cases hx : fF32.read w.toNat <;> simp_all [FVal.num, FVal.isNan]
        refine ⟨i, h1, ?_⟩
        rw [if_neg (by simp [hnn]), h2]
        simp only [satS_saturated]
        congr 1
        unfold saturated
        split
        · simp only; omega
        · split <;> simp only <;> omega
  cases fmt with
  | f32 => exact fl fF32 f32_ieee 4 fun _ => rfl
  | bf16 => exact fl fBf16 bf16_ieee 2 (by decide)
  | fp16 => exact fl fFp16 hfp 2 (by decide)
  | i32 => exact it 32
  | s16 => exact it 16
  | s8 => exact it 8

/-! ### Rows of a running command -/

/-- A commit placed on a row comes last, due as R253 says. -/
theorem AccRow.place_pend (r : AccRow) (due : Nat) (cols : BitVec 128) (v : AccRow) (id f : Nat) :
    ∃ d, r.place due cols v id f = { r with pend := r.pend ++ [⟨d, cols, v.entries, v.mode, v.ft, id, f⟩] } ∧ r.dueAfter due d := by
  refine ⟨r.pend.foldl (fun d p => max d p.due) due, rfl, ?_⟩
  have (l : List AccPend) (d : Nat) : d ≤ l.foldl (fun d p => max d p.due) d ∧ (∀ p ∈ l, p.due ≤ l.foldl (fun d p => max d p.due) d) ∧
      (l.foldl (fun d p => max d p.due) d = d ∨ ∃ p ∈ l, p.due = l.foldl (fun d p => max d p.due) d) := by
    induction l generalizing d with
    | nil => simp
    | cons a l ih =>
      obtain ⟨h1, h2, h3⟩ := ih (max d a.due)
      simp only [List.foldl_cons]
      refine ⟨le_trans (le_max_left _ _) h1, ?_, ?_⟩
      · intro p hp
        rcases List.mem_cons.1 hp with rfl | hp
        · exact le_trans (le_max_right _ _) h1
        · exact h2 p hp
      · rcases h3 with h | ⟨p, hp, h⟩
        · rcases le_total d a.due with hl | hl
          · right; exact ⟨a, by simp, by rw [h, max_eq_right hl]⟩
          · left; rw [h, max_eq_left hl]
        · right; exact ⟨p, by simp [hp], h⟩
  exact this r.pend due

/-- A tick on which one row of the running command falls. -/
theorem Tile.arrayRows_one (x : Tile) (now : Nat) (r : MxRun) (c : MxCmd) (l : List MxCmd) (k : Nat) (row : Fin 64)
    (hr : x.mxRun = some r) (hq : x.mxq = c :: l) (ht : r.todo = [(now, k, row)]) :
    ∃ n, x.arrayRows now = ((match c.op with
      | .mma _ _ _ _ _ _ _ _ _ => { x with mxRun := some { r with todo := [] } }.mmaRow { r with todo := [] } c k row
      | .adrn _ _ _ _ _ => { x with mxRun := some { r with todo := [] } }.drainOne { r with todo := [] } c now k row
      | _ => { x with mxRun := some { r with todo := [] } }.rangeRow { r with todo := [] } c row).event 0x09 n).event 0x08 1 := by
  unfold Tile.arrayRows
  rw [hr, hq]
  dsimp only
  rw [ht]
  simp only [List.filter_cons, le_refl, decide_true, if_true, List.filter_nil, List.foldl_cons, List.foldl_nil, lt_irrefl, decide_false,
    Bool.false_eq_true, if_false]
  cases c.op <;> exact ⟨_, rfl⟩

theorem vset_other {α n} (v : Vector α n) (i j : Fin n) (a : α) (h : j ≠ i) : (vset v i a)[j] = v[j] := by
  have : i.val ≠ j.val := fun e => h (Fin.ext e.symm)
  simp [vset, this]

theorem Tile.mmaRow_acm (x : Tile) (r : MxRun) (c : MxCmd) (k : Nat) (row : Fin 64) (hu : x.upsets = []) (dl : BitVec 8) (rg : Fin 8)
    (h : Fin 2) (ctl : AccCtl) (wp : Fin 2) (ta : Bool) (dec : Word) (q0 q1 : Row) (hop : c.op = .mma dl rg h ctl wp ta dec q0 q1) :
    let kA := extentA r.prec ta x.rings[rg].z
    let out := passRow r.prec ctl dec (fun g => if g = 0 then q0 else q1) (x.image row) r.colp
      (rowA r.prec ta x.rings[rg].z r.bytes (row.val % 32) kA) (x.wp[wp].col r.prec kA)
    (x.mmaRow r c k row).acm = vset x.acm row (x.acm[row].place ((if c.held then r.tau else c.tt + dl.toNat) + (k + 1) * r.c + 2)
      out.cols out.row c.id (r.start + (k + 1) * r.c)) := by
  intro kA out
  have hpl : x.planeNow wp = x.wp[wp] := by unfold Tile.planeNow; simp [hu]
  unfold Tile.mmaRow
  rw [hop]
  simp only [hpl]
  rfl

/-- The bytes of claimed entries, in order (R249). -/
theorem claimSpan_get (r : Ring) (n i j : Nat) (hi : i < n) (hj : j < r.z) :
    (r.claimSpan n)[i * r.z + j]? = some (spmAddr (r.at_ (r.head.toNat + r.claimed + i) + j)) := by
  unfold Ring.claimSpan
  have key (l : List Nat) : ∀ i, i < l.length → (l.flatMap fun i => span (r.at_ (r.head.toNat + r.claimed + i)) r.z)[i * r.z + j]? =
      (l[i]?).map fun i => spmAddr (r.at_ (r.head.toNat + r.claimed + i) + j) := by
    induction l with
    | nil => intro i h; simp at h
    | cons a l ih =>
      intro i h
      have hlen : (span (r.at_ (r.head.toNat + r.claimed + a)) r.z).length = r.z := by simp [span]
      rw [List.flatMap_cons]
      cases i with
      | zero =>
        rw [List.getElem?_append_left (by rw [hlen]; omega)]
        simp [span, hj]
      | succ i =>
        have e : (i + 1) * r.z + j = r.z + (i * r.z + j) := by ring
        rw [List.getElem?_append_right (by rw [hlen, e]; omega), hlen, e, Nat.add_sub_cancel_left, List.getElem?_cons_succ]
        exact ih i (by simpa using h)
  rw [key _ i (by simpa using hi), List.getElem?_range hi]; rfl

end Sys2Proof.Machine
end

