-- ==== Sys2Proof/Tests/Slice0.lean ====
section
/-! SUPPORT. Tests of the model's own: what each check of WellFormed refuses; words of every encoded family; one step on small
states, with the manual's worked values; and, for each statement with hypotheses, states that meet them. -/

open Sys2Proof Sys2Proof.Machine

namespace Sys2Proof.Tests

-- one theorem at a time: many kernel evaluations at once need more stacks than the memory limit holds
set_option Elab.async false

/-! ### Each check of WellFormed refuses an ill-formed term (R33 to R41, R62 to R73) -/

theorem test_lenOk_refuses : (Instr.loop 3 0).wellFormed = false ∧ (Instr.loopReg 3 0).wellFormed = false ∧
    (Instr.loop 3 1).wellFormed = true := by decide
theorem test_thrOk_refuses : (Instr.waitc 2 0).wellFormed = false ∧ (Instr.waitc 2 257).wellFormed = false ∧
    (Instr.waitc 2 256).wellFormed = true := by decide
theorem test_eqOk_refuses : (Instr.phase 0).wellFormed = false ∧ (Instr.phase 4).wellFormed = true := by decide
theorem test_grpOk_refuses : (Instr.blk 0 3).wellFormed = false ∧ (Instr.blk 1 0).wellFormed = true := by decide
theorem test_csrOk_refuses : (Instr.csrw 1 .txy).wellFormed = false ∧ (Instr.csrset 1 .rank).wellFormed = false ∧
    (Instr.csrclr 1 (.colp 3)).wellFormed = false ∧ (Instr.csrr 1 .txy).wellFormed = true := by decide
theorem test_rangeOk_refuses : (Instr.aclr 63 1).wellFormed = false ∧ (Instr.ascl 1 63 0).wellFormed = false ∧
    (Instr.adrn 32 32 0 true .f32).wellFormed = false ∧ (Instr.aclr 63 0).wellFormed = true := by decide
theorem test_adrnOk_refuses : (Instr.adrn 0 0 8 false .f32).wellFormed = false ∧ (Instr.adrn 0 0 31 true .f32).wellFormed = true := by
  decide
theorem test_cpyoOk_refuses : (Instr.cpyo ⟨0, 0, true, 0, false, false, 0⟩).wellFormed = false ∧
    (Instr.cpy ⟨0, 0, true, 0, false, false, 0⟩).wellFormed = true := by decide
theorem test_isFloat_refuses : (Instr.vfma 1 2 3 0 .i32).wellFormed = false ∧ (Instr.vexp2 1 2 0 .u32).wellFormed = false ∧
    (Instr.vshl 1 2 3 0 .f32).wellFormed = false ∧ (Instr.vsraImm 1 2 3 .bf16p).wellFormed = false := by decide
theorem test_isSigned_refuses : (Instr.vabs 1 2 0 .u32).wellFormed = false ∧ (Instr.vneg 1 2 0 .u32).wellFormed = false := by decide
theorem test_vcmpOk_refuses : (Instr.vcmp .uo 1 2 3 0 .i32).wellFormed = false ∧ (Instr.vcmp .uo 1 2 3 0 .bf16p).wellFormed = true := by
  decide
theorem test_vcvtOk_refuses : (Instr.vcvt 1 2 0 .f32 .f32 true).wellFormed = false ∧ (Instr.vcvt 1 2 0 .f32 .i32 true).wellFormed = true := by
  decide
theorem test_events_have_no_encoding : (Instr.scrub 0).wellFormed = false ∧ Instr.boot.wellFormed = false := by decide

/-! ### Decoding: words written out from the layouts of R33 to R41, R53 and the base words of R62 to R73 -/

theorem test_decode_ctl :
    decodeCtl 0x00000000 = some (.nop) ∧
    decodeCtl 0x02FFFFFE = some (.br (-2)) ∧
    decodeCtl 0x059FFFFD = some (.brp true 9 (-3)) ∧
    decodeCtl 0x071A0006 = some (.brs 17 .lez 6) ∧
    decodeCtl 0x08000007 = some (.bru 7) ∧
    decodeCtl 0x0AFFFFFF = some (.call (-1)) ∧
    decodeCtl 0x0C000000 = some (.ret) ∧
    decodeCtl 0x0FABC123 = some (.loop 0xABC 0x123) ∧
    decodeCtl 0x0E013005 = some (.loopReg 19 5) ∧
    decodeCtl 0x10000000 = some (.halt) ∧
    decodeCtl 0x1200BEEF = some (.trap 0xBEEF) ∧
    decodeCtl 0x14000000 = some (.eret) ∧
    decodeCtl 0x16008765 = some (.yield 0x8765) := by decide

theorem test_decode_waits :
    decodeCtl 0x19A00100 = some (.waitc 13 256) ∧
    decodeCtl 0x1B601234 = some (.waits 11 0x1234) ∧
    decodeCtl 0x1B701234 = some (.waitsD 11 0x1234) ∧
    decodeCtl 0x1D5E0C80 = some (.waitt 700 3 4) ∧
    decodeCtl 0x1F900009 = some (.waitcr 200 9) ∧
    decodeCtl 0x21800003 = some (.waitrg 6 3) ∧
    decodeCtl 0x21A00003 = some (.waitrgFree 6 3) ∧
    decodeCtl 0x235C0000 = some (.waitb 21 .draining) ∧
    decodeCtl 0x235A005A = some (.waitbTag 21 .full 0x5A) ∧
    decodeCtl 0x24000000 = some (.waitph) ∧
    decodeCtl 0x26000005 = some (.phase 5) ∧
    decodeCtl 0x28000009 = some (.fence .system) ∧
    decodeCtl 0x2BE0010B = some (.csrr 30 .ctimeh) ∧
    decodeCtl 0x2DE00008 = some (.csrw 30 .trapvl) ∧
    decodeCtl 0x2FE0038F = some (.csrset 30 (.pmsel 7)) ∧
    decodeCtl 0x31E00101 = some (.csrclr 30 .mxown) ∧
    decodeCtl 0x3302000F = some (.blk 0x81 15) ∧
    decodeCtl 0x34A000FF = some (.pref false 5 255) ∧
    decodeCtl 0x37A00002 = some (.pin true 5 2) ∧
    decodeCtl 0x39C00004 = some (.unpin true 6 4) := by decide

theorem test_decode_alu :
    (decodeScalar false) 0x003194C0 = some (.add 17 18 19) ∧
    (decodeScalar false) 0x003194C1 = some (.sub 17 18 19) ∧
    (decodeScalar false) 0x003194C2 = some (.and 17 18 19) ∧
    (decodeScalar false) 0x003194C3 = some (.or 17 18 19) ∧
    (decodeScalar false) 0x003194C4 = some (.xor 17 18 19) ∧
    (decodeScalar false) 0x003194C5 = some (.andn 17 18 19) ∧
    (decodeScalar false) 0x003194C6 = some (.shl 17 18 19) ∧
    (decodeScalar false) 0x003194C7 = some (.shr 17 18 19) ∧
    (decodeScalar false) 0x003194C8 = some (.sra 17 18 19) ∧
    (decodeScalar false) 0x003194C9 = some (.min 17 18 19) ∧
    (decodeScalar false) 0x003194CA = some (.max 17 18 19) ∧
    (decodeScalar false) 0x003194CB = some (.minu 17 18 19) ∧
    (decodeScalar false) 0x003194CC = some (.maxu 17 18 19) ∧
    (decodeScalar false) 0x0031900D = some (.mov 17 18) ∧
    (decodeScalar false) 0x0031900E = some (.clz 17 18) ∧
    (decodeScalar false) 0x0031900F = some (.popc 17 18) ∧
    (decodeScalar false) 0x004110C0 = some (.mul 1 2 3) ∧
    (decodeScalar false) 0x004110C1 = some (.mulh 1 2 3) ∧
    (decodeScalar false) 0x004110C2 = some (.mulhu 1 2 3) := by decide

theorem test_decode_scalar :
    (decodeScalar false) 0x00642987 = some (.sel 4 5 6 7) ∧
    (decodeScalar false) 0x008952C7 = some (.cmp .gtu 9 10 11) ∧
    (decodeScalar false) 0x00AC6B86 = some (.plog 0b0110 12 13 14) ∧
    (decodeScalar false) 0x01030FFC = some (.addi 3 1 (-4)) ∧
    (decodeScalar false) 0x01230805 = some (.andi 3 1 5) ∧
    (decodeScalar false) 0x01430806 = some (.ori 3 1 6) ∧
    (decodeScalar false) 0x01630807 = some (.xori 3 1 7) ∧
    (decodeScalar false) 0x0183081F = some (.shli 3 1 31) ∧
    (decodeScalar false) 0x01A3081E = some (.shri 3 1 30) ∧
    (decodeScalar false) 0x01C3081D = some (.srai 3 1 29) ∧
    (decodeScalar false) 0x02AFA064 = some (.cmpi .geu 15 20 100) ∧
    (decodeScalar false) 0x03088001 = some (.movi 8 0x8001) ∧
    (decodeScalar false) 0x03288001 = some (.movhi 8 0x8001) := by decide

theorem test_decode_address :
    (decodeScalar true) 0x04063F80 = some (.aadd 6 7 30) ∧
    (decodeScalar true) 0x04211080 = some (.aaddi 1 2 128) ∧
    (decodeScalar true) 0x04432000 = some (.amov 3 4) ∧
    (decodeScalar true) 0x0443A001 = some (.amovFromPair 3 20) ∧
    (decodeScalar true) 0x04541802 = some (.amovToScalar 20 3) ∧
    (decodeScalar true) 0x04541803 = some (.amovHi 20 3) ∧
    (decodeScalar true) 0x0462AD80 = some (.acmb 2 21 22) ∧
    (decodeScalar true) 0x04854FFF = some (.ldq 5 9 (-1)) := by decide

theorem test_decode_lanes :
    decodeVec 0x003356E0 = some (.vadd 9 10 11 3 .f32) ∧
    decodeVec 0x003356E1 = some (.vsub 9 10 11 3 .f32) ∧
    decodeVec 0x003356E2 = some (.vmul 9 10 11 3 .f32) ∧
    decodeVec 0x003356E3 = some (.vfma 9 10 11 3 .f32) ∧
    decodeVec 0x003356E4 = some (.vmin 9 10 11 3 .f32) ∧
    decodeVec 0x003356E5 = some (.vmax 9 10 11 3 .f32) ∧
    decodeVec 0x005356E0 = some (.vand 9 10 11 3 .f32) ∧
    decodeVec 0x005356E1 = some (.vor 9 10 11 3 .f32) ∧
    decodeVec 0x005356E2 = some (.vxor 9 10 11 3 .f32) ∧
    decodeVec 0x003340C6 = some (.vabs 9 10 3 .i32) ∧
    decodeVec 0x003340F7 = some (.vneg 9 10 3 .bf16p) ∧
    decodeVec 0x005356D3 = some (.vshl 9 10 11 3 .u32) ∧
    decodeVec 0x005356D4 = some (.vshr 9 10 11 3 .u32) ∧
    decodeVec 0x005356D5 = some (.vsra 9 10 11 3 .u32) ∧
    decodeVec 0x007347C3 = some (.vshlImm 9 10 31 .i32) ∧
    decodeVec 0x007347C4 = some (.vshrImm 9 10 31 .i32) ∧
    decodeVec 0x007347C5 = some (.vsraImm 9 10 31 .i32) := by decide

theorem test_decode_lanesMore :
    decodeVec 0x008B56F6 = some (.vcmp .uo 5 10 11 3 .bf16p) ∧
    decodeVec 0x00B356D0 = some (.vsel 9 10 11 3 .u32) ∧
    decodeVec 0x00D340E7 = some (.vcvt 9 10 3 .f32 .bf16p true) ∧
    decodeVec 0x00F340D2 = some (.vred .max 9 10 3 .u32) ∧
    decodeVec 0x011356C0 = some (.vperm 9 10 11 3 .i32) ∧
    decodeVec 0x013340E0 = some (.vexp2 9 10 3 .f32) ∧
    decodeVec 0x013340E1 = some (.vlog2 9 10 3 .f32) ∧
    decodeVec 0x013340E2 = some (.vrcp 9 10 3 .f32) ∧
    decodeVec 0x013340E3 = some (.vrsqrt 9 10 3 .f32) ∧
    decodeVec 0x015340C0 = some (.vmov 9 10 3 .i32) ∧
    decodeVec 0x01721920 = some (.vbcast 9 25 .f32) ∧
    decodeVec 0x019347C0 = some (.vext 9 10 31 .i32) ∧
    decodeVec 0x01B35900 = some (.vins 9 10 25 .i32) ∧
    decodeVec 0x01D3FFFB = some (.vmovi 9 (-5)) ∧
    decodeVec 0x020ACE08 = some (.vmsk 8 5 6 7) ∧
    decodeVec 0x0220C000 = some (.vmpush 6) ∧
    decodeVec 0x02200001 = some (.vminv) ∧
    decodeVec 0x02200002 = some (.vmpop) := by decide

theorem test_decode_loads :
    decodeLd 0x0034AFF7 = some (.ldb 20 21 (-9)) ∧
    decodeLd 0x0054AFF7 = some (.ldbu 20 21 (-9)) ∧
    decodeLd 0x0074AFF7 = some (.ldh 20 21 (-9)) ∧
    decodeLd 0x0094AFF7 = some (.ldhu 20 21 (-9)) ∧
    decodeLd 0x00B4AFF7 = some (.ldw 20 21 (-9)) ∧
    decodeLd 0x00CEA809 = some (.ldv 14 21 9) ∧
    decodeLd 0x00EEADBD = some (.ldvs 14 21 22 (-3)) ∧
    decodeLd 0x010EAB45 = some (.ldvx 14 21 13 5) ∧
    decodeLd 0x0127A809 = some (.ldm 7 21 9) ∧
    decodeLd 0x015FD7F9 = some (.ldacc 63 21 (-7)) := by decide

theorem test_decode_stores :
    decodeSt 0x0034AFF7 = some (.stb 20 21 (-9)) ∧
    decodeSt 0x0054AFF7 = some (.sth 20 21 (-9)) ∧
    decodeSt 0x0074AFF7 = some (.stw 20 21 (-9)) ∧
    decodeSt 0x008EA809 = some (.stv 14 21 9) ∧
    decodeSt 0x00AEA9C5 = some (.stvm 14 21 7 5) ∧
    decodeSt 0x00CEADBD = some (.stvs 14 21 22 (-3)) ∧
    decodeSt 0x00EEAB45 = some (.stvx 14 21 13 5) ∧
    decodeSt 0x011FD7F9 = some (.stacc 63 21 (-7)) ∧
    decodeSt 0x0134AD80 = some (.amo .add 20 21 22) ∧
    decodeSt 0x0134AD84 = some (.amo .min 20 21 22) ∧
    decodeSt 0x0134AD88 = some (.amo .max 20 21 22) ∧
    decodeSt 0x0134AD8C = some (.amo .minu 20 21 22) ∧
    decodeSt 0x0134AD90 = some (.amo .maxu 20 21 22) ∧
    decodeSt 0x0134AD94 = some (.amo .and 20 21 22) ∧
    decodeSt 0x0134AD98 = some (.amo .or 20 21 22) ∧
    decodeSt 0x0134AD9C = some (.amo .xor 20 21 22) ∧
    decodeSt 0x0134ADA0 = some (.amo .swap 20 21 22) ∧
    decodeSt 0x0154AD80 = some (.cas 20 21 22) := by decide

theorem test_decode_matrix :
    decodeMxu 0x0020A000 = some (.prec 20) ∧
    decodeMxu 0x00591440 = some (.wld 200 5 1 false) ∧
    decodeMxu 0x00600000 = some (.wswap) ∧
    decodeMxu 0x00991720 = some (.mma 200 5 1 .dacc 0 true) ∧
    decodeMxu 0x00B42E00 = some (.aclr 40 23) ∧
    decodeMxu 0x00D42F80 = some (.ascl 40 23 6) ∧
    decodeMxu 0x00F42FED = some (.adrn 40 23 30 true .s8) ∧
    decodeMxu 0x010D0000 = some (.pmaskRow 13) ∧
    decodeMxu 0x011D0000 = some (.pmaskCol 13) := by decide

theorem test_decode_transfer :
    decodeXfr 0x0034B9E2 = some (.cpy ⟨20, 5, true, 9, true, true, 17⟩) ∧
    decodeXfr 0x0054A9E2 = some (.cpyg ⟨20, 5, false, 9, true, true, 17⟩) ∧
    decodeXfr 0x0074B9E2 = some (.cpyx ⟨20, 5, true, 9, true, true, 17⟩) ∧
    decodeXfr 0x0094A9E2 = some (.cpyo ⟨20, 5, false, 9, true, true, 17⟩) ∧
    decodeXfr 0x00B41100 = some (.bdcl 20 17) ∧
    decodeXfr 0x00D40000 = some (.brel 20) ∧
    decodeXfr 0x00F4C000 = some (.publish 20 6) ∧
    decodeXfr 0x0100B198 = some (.reqpg 5 17 9 true) ∧
    decodeXfr 0x01391498 = some (.send ⟨200, 20, 9, true⟩) ∧
    decodeXfr 0x0159149F = some (.sendr ⟨200, 20, 9, true⟩ .addFx128) ∧
    decodeXfr 0x01791498 = some (.recv ⟨200, 20, 9, true⟩) ∧
    decodeXfr 0x01991498 = some (.coll ⟨200, 20, 9, true⟩) ∧
    decodeXfr 0x01B80081 = some (.rgadv 6 0x81) ∧
    decodeXfr 0x01D80081 = some (.rgpop 6 0x81) ∧
    decodeXfr 0x01F91281 = some (.sig 200 9 0x81) ∧
    decodeXfr 0x0215E440 = some (.tlsig 700 17) ∧
    decodeXfr 0x02390000 = some (.vwjoin 200) ∧
    decodeXfr 0x02590000 = some (.vwleave 200) := by decide

theorem test_decode_scout :
    decodeScout 0x00000000 = some (.shalt) ∧
    decodeScout 0x06680000 = some (.smov 9 10) ∧
    decodeScout 0x0A6AC000 = some (.sadd 9 10 11) ∧
    decodeScout 0x0E6BFFFB = some (.saddi 9 10 (-5)) ∧
    decodeScout 0x127FFFFB = some (.sbr 9 .gez (-5)) ∧
    decodeScout 0x17FFFFFB = some (.sjmp (-5)) ∧
    decodeScout 0x1BC90000 = some (.swaitsem 60 9) ∧
    decodeScout 0x1FC90000 = some (.ssigsem 60 9) ∧
    decodeScout 0x2A6AEA00 = some (.sreduce 9 10 11 0x2A) ∧
    decodeScout 0x226AC000 = some (.sxmitData 9 10 11) ∧
    decodeScout 0x226AC100 = some (.sxmitAtomic 9 10 11) ∧
    decodeScout 0x266AC000 = some (.srecvWait 9 10 11) ∧
    decodeScout 0x266AC100 = some (.srecvPoll 9 10 11) ∧
    decodeScout 0x2E6AC000 = some (.sfwdIn 9 10 11) ∧
    decodeScout 0x2E6AC100 = some (.sfwdOut 9 10 11) ∧
    decodeScout 0x326AC000 = some (.splaneDrain 9 10 11) ∧
    decodeScout 0x326AC100 = some (.splaneRestore 9 10 11) ∧
    decodeScout 0x326AC200 = some (.splaneStatus 9 10 11) ∧
    decodeScout 0x366AC000 = some (.sviewRead 9 10 11) ∧
    decodeScout 0x366AC100 = some (.sviewWait 9 10 11) ∧
    decodeScout 0x366AC200 = some (.sviewJoin 9 10 11) ∧
    decodeScout 0x366AC300 = some (.sviewLeave 9 10 11) := by decide

/-! ### The manual's worked words: the bundle of R74, and the tables after R132, R147, R175, R268, R298 and R357 -/

theorem test_worked_bundle :
    decodeSlot 0 0x18400004 = some (.waitc 2 4) ∧ decodeSlot 1 0x01030FFC = some (.addi 3 1 (-4)) ∧
    decodeSlot 2 0x04210880 = some (.aaddi 1 1 128) ∧ decodeSlot 3 0x00A51002 = some (.ldw 5 2 2) ∧
    decodeSlot 4 0 = some .nop ∧ decodeSlot 5 0x102246E0 = some (.vadd 1 2 3 3 .f32) ∧ slotGuard 0x102246E0 = 2 ∧
    decodeSlot 6 0 = some .nop ∧ decodeSlot 7 0x01E18601 = some (.sig 12 3 1) := by decide

theorem test_worked_scalar :
    decodeSlot 1 0x00230880 = some (.add 3 1 2) ∧ decodeSlot 1 0x004531C2 = some (.mulhu 5 6 7) ∧
    decodeSlot 1 0x00830884 = some (.cmp .ltu 3 1 2) ∧ decodeSlot 1 0x02A12064 = some (.cmpi .geu 1 4 100) ∧
    decodeSlot 1 0x00660885 = some (.sel 6 1 2 5) ∧ decodeSlot 2 0x04412001 = some (.amovFromPair 1 4) ∧
    decodeSlot 2 0x04814802 = some (.ldq 1 9 2) ∧ decodeSlot 1 0x91010801 = some (.addi 1 1 1) ∧ slotGuard 0x91010801 = 18 := by decide

theorem test_worked_control :
    decodeSlot 0 0x02FFFFFD = some (.br (-3)) ∧ decodeSlot 0 0x05300005 = some (.brp true 3 5) ∧
    decodeSlot 0 0x0F010005 = some (.loop 16 5) ∧ decodeSlot 0 0x12000012 = some (.trap 0x12) ∧
    decodeSlot 0 0x90000000 = some .halt ∧ safeBit 0x90000000 = true ∧ decodeSlot 0 0x1AB00003 = some (.waitsD 5 3) ∧
    decodeSlot 0 0x1C0490A0 = some (.waitt 9 4 5) ∧ decodeSlot 0 0x1E220002 = some (.waitcr 17 2) ∧
    decodeSlot 0 0x20E00002 = some (.waitrgFree 3 2) ∧ decodeSlot 0 0x26000003 = some (.phase 3) ∧
    decodeSlot 0 0x28000005 = some (.fence .stack) ∧ decodeSlot 0 0x2A40000E = some (.csrr 4 .hbasel) ∧
    decodeSlot 0 0x2C700102 = some (.csrw 7 .decay) ∧ decodeSlot 0 0x32060003 = some (.blk 3 3) ∧
    decodeSlot 0 0x37400003 = some (.pin true 2 3) := by decide

theorem test_worked_engines :
    decodeSlot 6 0x00202800 = some (.prec 5) ∧ decodeSlot 6 0x01130000 = some (.pmaskCol 3) ∧
    decodeSlot 6 0x00414860 = some (.wld 10 2 1 true) ∧ decodeSlot 6 0x00B03E00 = some (.aclr 32 31) ∧
    decodeSlot 6 0x00C00F40 = some (.ascl 0 7 5) ∧ decodeSlot 6 0x00E03E21 = some (.adrn 0 31 2 false .bf16) ∧
    decodeSlot 6 0x00F4066D = some (.adrn 40 3 6 true .s8) ∧ decodeSlot 7 0x0120A328 = some (.send ⟨5, 3, 2, true⟩) ∧
    decodeSlot 7 0x01414107 = some (.sendr ⟨10, 1, 0, false⟩ .addFx128) ∧ decodeSlot 7 0x01612218 = some (.recv ⟨9, 2, 1, true⟩) ∧
    decodeSlot 7 0x01850638 = some (.coll ⟨40, 6, 3, true⟩) ∧ decodeSlot 7 0x01A80004 = some (.rgadv 2 4) ∧
    decodeSlot 7 0x01D40001 = some (.rgpop 5 1) ∧ decodeSlot 7 0x02004900 = some (.tlsig 9 4) ∧
    decodeSlot 7 0x193FFF00 = some (.send ⟨255, 31, 0, false⟩) := by decide

theorem test_worked_vector_and_scout :
    decodeSlot 5 0x00822002 = some (.vcmp .lt 1 1 0 0 .i32) ∧ decodeSlot 5 0x00642413 = some (.vshlImm 2 1 16 .u32) ∧
    decodeSlot 5 0x01660C20 = some (.vbcast 3 12 .f32) ∧ decodeSlot 5 0x01CBFFFF = some (.vmovi 5 (-1)) ∧
    decodeSlot 5 0x02202000 = some (.vmpush 1) ∧ decodeSlot 5 0x00C8A023 = some (.vcvt 4 5 0 .f32 .bf16p false) ∧
    decodeScout 0x08C48000 = some (.sadd 3 1 2) ∧ decodeScout 0x18520000 = some (.swaitsem 5 2) ∧
    decodeScout 0x2915A000 = some (.sreduce 4 5 6 0x20) ∧ decodeScout 0x30480000 = some (.splaneDrain 1 2 0) ∧
    decodeSlot 1 0x04000000 = none ∧ decodeSlot 4 0x18000000 = some .nop ∧ decodeSlot 6 0x00800180 = none := by decide

/-- Bits numbered as the opcode table numbers them: a scout's word. -/
theorem test_decodeTableWord : decodeTableWord 32 0x08C48000 = some (.sadd 3 1 2) := by decide

/-! ### One step of one instruction, on small states -/

/-- A part that runs, with tile 0 changed from rest. -/
def tileWith (f : Tile → Tile) : State := { State.reset with stage := .up, agenda := [], tiles := [(0, f Tile.reset)] }
/-- The same with context 0 of tile 0 changed. -/
def ctxWith (f : Context → Context) : State := tileWith fun t => t.modCtx 0 f
/-- Two s-registers of context 0. -/
def regs (x y : Word) : State := ctxWith fun c => { c with s := vset (vset c.s 1 x) 2 y }
/-- The outcome is a next state with a property. -/
def nextIs (o : Out) (p : State → Bool) : Bool :=
  match o with
  | .next s => p s
  | _ => false
/-- The results an outcome leaves pending in the acting context. -/
def pendOf (o : Out) : List Commit :=
  match o with
  | .next s => s.curCtx.pend
  | _ => []
/-- The one result pending: its due tick and destination. -/
def leaves (o : Out) (due : Nat) (d : Dst) : Bool := (pendOf o).map (fun x => (x.due, x.dst)) == [(due, d)]

-- R123: shifts, wrap, signed order; the words of R124's example
theorem test_add_wraps : leaves (exec (.add 3 1 2) (regs 0xFFFFFFFF 2)) 1 (.s 3 1) = true := by decide +kernel
theorem test_sub_borrows : leaves (exec (.sub 3 1 2) (regs 0 1)) 1 (.s 3 0xFFFFFFFF) = true := by decide +kernel
theorem test_sra_rounds_down : leaves (exec (.sra 3 1 2) (regs 0xFFFFFFFF 33)) 1 (.s 3 0xFFFFFFFF) = true := by decide +kernel
theorem test_min_is_signed : leaves (exec (.min 3 1 2) (regs 0x80000000 1)) 1 (.s 3 0x80000000) = true ∧
    leaves (exec (.minu 3 1 2) (regs 0x80000000 1)) 1 (.s 3 1) = true := by decide +kernel
theorem test_clz_of_zero : leaves (exec (.clz 3 1) (regs 0 0)) 1 (.s 3 32) = true := by decide +kernel
theorem test_mul_group : leaves (exec (.mul 3 1 2) (regs 0xFFFFFFFF 2)) 3 (.s 3 0xFFFFFFFE) = true ∧
    leaves (exec (.mulh 3 1 2) (regs 0xFFFFFFFF 2)) 3 (.s 3 0xFFFFFFFF) = true ∧
    leaves (exec (.mulhu 3 1 2) (regs 0xFFFFFFFF 2)) 3 (.s 3 1) = true := by decide +kernel
-- R125: the immediate is sign-extended first and then read as unsigned
theorem test_cmpi_ltu : leaves (exec (.cmpi .ltu 1 1 (-1)) (regs 0xFFFFFFFF 0)) 1 (.p 1 false) = true ∧
    leaves (exec (.cmpi .ltu 1 1 (-1)) (regs 0xFFFFFFFE 0)) 1 (.p 1 true) = true := by decide +kernel
-- R129: MOVHI reads the old register
theorem test_movhi_reads_old : leaves (exec (.movhi 1 0x1234) (regs 0x5678 0)) 1 (.s 1 0x12345678) = true := by decide +kernel
-- R131: y, x and offset of a comb address
theorem test_acmb : leaves (exec (.acmb 2 1 2) (regs 0x00030005 0xFFFF1234)) 1 (.a 2 0x0A031234) = true := by decide +kernel
theorem test_amov_high : leaves (exec (.amovHi 3 2) (ctxWith fun c => { c with a := vset c.a 2 0x123456789ABC })) 1 (.s 3 0x1234) = true := by
  decide +kernel

-- R143: a lane beyond 31 is zero; a lane comes in from a scalar
def ramp : Vec := Vector.ofFn fun i : Fin 32 => BitVec.ofNat 32 i.val
def lanes (s : State) : State := s.modCurTile fun t => t.modCtx 0 fun c => { c with v := vset (vset c.v 1 ramp) 2 (Vector.replicate 32 3) }
def laneOf (o : Out) (k : Fin 32) : Option Word :=
  match pendOf o with
  | x :: _ => match x.dst with
    | .v _ _ v => some v[k]
    | _ => none
  | [] => none
theorem test_vext : laneOf (exec (.vext 3 1 30 .i32) (lanes (regs 0 0))) 1 = some 31 ∧
    laneOf (exec (.vext 3 1 30 .i32) (lanes (regs 0 0))) 2 = some 0 := by decide +kernel
theorem test_vins : laneOf (exec (.vins 3 1 2 .i32) (lanes (regs 0 9))) 0 = some 9 ∧
    laneOf (exec (.vins 3 1 2 .i32) (lanes (regs 0 9))) 31 = some 30 := by decide +kernel
theorem test_vperm : laneOf (exec (.vperm 3 1 2 0 .i32) (lanes (regs 0 0))) 7 = some 3 := by decide +kernel
-- R142: the example of VRED.SUM.F32
theorem test_vred_rounds_once : (reduceLanes .sum .f32 .rne (BitVec.allOnes 32)
    (Vector.ofFn fun i : Fin 32 => if i = 0 then 0x4B800000 else if i.val ≤ 2 then 0x3F800000 else 0)).val = 0x4B800001 := by decide +kernel
-- R141, R144: the examples of VCVT and VEXP2
theorem test_vcvt_rne_rtz : (cvtLane .rne .f32 .bf16p 0x3F808000).val = 0x3F80 ∧ (cvtLane .rtz .f32 .bf16p 0x3F808000).val = 0x3F80 ∧
    (cvtLane .rne .f32 .bf16p 0x3F818000).val = 0x3F82 ∧ (cvtLane .rtz .f32 .bf16p 0x3F818000).val = 0x3F81 := by decide +kernel
theorem test_vexp2_of_half : (fF32.exp2 .rne 0x3F000000).bits = 0x3FB504F3 ∧ (fF32.exp2 .rup 0x3F000000).bits = 0x3FB504F4 := by
  decide +kernel
-- R146: a push at depth 8 is an overflow fault
theorem test_vmpush_depth : nextIs (exec (.vmpush 1) (ctxWith fun c => { c with stack := List.replicate 8 5, trapv := 64 }))
    (fun s => s.curCtx.cause == 0x00000B06 && s.curCtx.pc == 64) = true := by decide +kernel

-- R80, R96, R93, R99: the examples of the number formats
theorem test_block_scaled : blockScaled fE2m1 true 0x3C 0xD = 0xC090 ∧ blockScaled fE2m1 true 0x80 0xD = 0x8000 := by decide +kernel
theorem test_drain_of_62_5 :
    let r : AccRow := { AccRow.reset with mode := .i32sat, ft := 8 }
    (drainEntry .f32 .rne r 16000).1 = leBytes 4 0x427A0000 ∧ (drainEntry .i32 .rne r 16000).1 = leBytes 4 16000 ∧
      drainEntry .s8 .rne r 16000 = ([127], true) := by decide +kernel
theorem test_fx128_is_exact :
    let w : Byte := 26
    let add (x y : BitVec 128) : BitVec 128 := (fxAdd x y).1
    let a := (fxOfWord w 0x4B800000).1
    let b := (fxOfWord w 0x3F800000).1
    let c := (fxOfWord w 0xCB800000).1
    fxWord w 1 (add (add a b) c) = 0x3F800000 ∧ fxWord w 1 (add a (add b c)) = 0x3F800000 ∧
      reduceWord 0 (reduceWord 0 0x4B800000 0x3F800000) 0xCB800000 = 0 := by decide +kernel
-- R83, R26: the table of precisions and its examples
theorem test_prec_rows : precRow 0x04001610 = 4 ∧ precRow 0x00441137 = 0 ∧ precRow 0x04006600 = 0 ∧ precRow 0x14004107 = 0 := by decide +kernel

-- R246: the costs of the worked figures
theorem test_pass_costs : passCost 0x04006600 = 68 ∧ passCost 0x00001123 = 12 := by decide +kernel
-- R115: a Comb-1's GRID
theorem test_grid : leaves (exec (.csrr 4 .grid) (regs 0 0)) 1 (.s 4 0x01900190) = true := by decide +kernel
-- R110: STATUS only loses bits; R114: MXOWN keeps its value
theorem test_status_clear_only : nextIs (exec (.csrw 1 .status) (ctxWith fun c => { c with status := 0x31, s := vset c.s 1 0x12 }))
    (fun s => s.curCtx.status == 0x10) = true := by decide +kernel
-- R166, R364: the example of sem3, and of tl9 after R365
theorem test_semaphore_saturates : (((Tile.reset.addSem 3 0xFFF0).addSem 3 0x20).sems[3]) = 0xFFFF := by decide +kernel
theorem test_waitsd_subtracts : nextIs (exec (.waitsD 3 0x100) (tileWith fun t => { t with sems := vset t.sems 3 0xFFFF }))
    (fun s => s.curTile.sems[3] == 0xFEFF) = true := by decide +kernel
def awaiting (v : BitVec 64) : State := tileWith fun t => { t with tls := [(9, v)] }.modCtx 0 fun c => { c with s := vset c.s 4 0x10 }
theorem test_waitt_wraps : nextIs (exec (.waitt 9 4 5) (awaiting 0xFFFFFFFFFFFFFFF0)) (fun s => s.curCtx.held) = true ∧
    nextIs (exec (.waitt 9 4 5) (awaiting 0x20)) (fun s => !s.curCtx.held) = true := by decide +kernel
-- R152, R154: a LOOP of one bundle, and a count of zero
theorem test_loop_opens : nextIs (exec (.loop 3 1) (ctxWith fun c => { c with pc := 32 })) (fun s => s.curCtx.loops == [⟨3, 32, 1⟩]) = true ∧
    nextIs (exec (.loop 0 1) (ctxWith fun c => { c with pc := 32 })) (fun s => s.curCtx.pc == 64) = true := by decide +kernel
-- R222, R6: a load of a halfword reads its two bytes, low first, and LDH extends the sign
theorem test_ldh_extends : nextIs (exec (.ldh 3 1 1) (tileWith fun t => { t with spmPrev := [(6, 0x34), (7, 0x92)] }.modCtx 0 fun c =>
      { c with s := vset c.s 1 5, st := .active }))
    (fun s => ((s.curTile.perform 1).ctx 0).pend.map (fun x => (x.due, x.dst)) == [(3, .s 3 0xFFFF9234)]) = true := by decide +kernel
-- R223, R6: a word is stored low byte first
theorem test_stw_bytes : nextIs (exec (.stw 2 1 (-1)) (regs 0x108 0xAABBCCDD))
    (fun s => (s.curTile.perform 2).spm == [(0x104, 0xDD), (0x105, 0xCC), (0x106, 0xBB), (0x107, 0xAA)]) = true := by decide +kernel
-- R226: AMO.ADD returns the old word
theorem test_amo_add : nextIs (exec (.amo .add 3 1 2) (tileWith fun t => { t with spmPrev := [(4, 5)], spm := [(4, 5)] }.modCtx 0 fun c =>
      { c with s := vset (vset c.s 1 4) 2 3, st := .active }))
    (fun s => let t := s.curTile.perform 2
      (t.ctx 0).pend.map (fun x => (x.due, x.dst)) == [(3, .s 3 5)] && t.spm == [(4, 8)]) = true := by decide +kernel
-- R188, R220: a store into a shadow window is a buffer-state fault; TRAPV is zero, so the context stops
theorem test_shadow_store_faults : nextIs (exec (.stw 2 1 0)
      (tileWith fun t => { t with bufs := vset t.bufs 4 { Buffer.reset with base := 1, v := true } }.modCtx 0 fun c => { c with s := vset c.s 1 256 }))
    (fun s => s.curCtx.st == .stopped && s.curCtx.finfo == 0x00010084 && s.curCtx.cause.toNat % 256 == 5) = true := by decide +kernel
-- R273: a SEND takes the credit as it issues
theorem test_send_takes_credit : nextIs (exec (.send ⟨5, 3, 2, true⟩) (tileWith fun t => { t with chans := [(5, { Chan.reset with v := true, cr := 2 })] }))
    (fun s => (s.curTile.chan 5).cr == 1 && (s.curTile.chan 5).rsv == 1 && s.curCtx.cnt[2] == 1) = true := by decide +kernel
-- R114: a matrix instruction of another context is discarded and counted
theorem test_not_owner : nextIs (exec .wswap (regs 0 0)) (fun s => s.curTile.mxq.isEmpty && s.curTile.err[9] == 1) = true := by decide +kernel
-- R350: the first word that a scout runs
theorem test_step_runs_scout_word : nextIs (step (State.reset.withFetchWord 32 0x0C48FFFF))
    (fun s => (s.port 0).scout.x[1] == 0xFFFF && (s.port 0).scout.pc == 1) = true := by decide +kernel
theorem test_step_halts_on_unassigned_word : nextIs (step (State.reset.withFetchWord 32 0x04000001))
    (fun s => (s.port 0).scout.halted == some 1) = true := by decide +kernel
-- R309, R310: a route of two legs
theorem test_steering : onHeader (packLegs [(0, 2), (3, 1)]) = packLegs [(0, 1), (3, 1)] ∧ onHeader (packLegs [(0, 1), (3, 1)]) = packLegs [(3, 1)] ∧
    emptyRoute (onHeader (packLegs [(3, 1)])) = true := by decide +kernel
-- R409: above 105 degrees the throttle goes to 16
theorem test_throttle_hot : nextIs (exec .throttleEvaluation { State.reset with tsensf := 105 :: List.replicate 63 25 }) (fun s => s.thr == 16) = true := by
  decide +kernel

/-! ### Witnesses: for each statement with hypotheses, states that meet them, clause by clause -/

theorem witness_ResultsAtTheirLatency :
    (ctxWith fun c => { c with pend := [⟨0, 0, 0, .s 1 7⟩] }).inOrder ∧ 2 < (regs 0 0).cur.tt + 3 ∧
      (1 : TileId) ≠ (regs 0 0).cur.tile ∧ (1 : Fin 4) ≠ (regs 0 0).cur.ctx := by unfold State.inOrder; decide +kernel

theorem witness_VectorIntegerLanes : VType.i32.isFloat = false ∧ VType.u32.isFloat = false := by decide

/-- A quiet NaN, both infinities, 1 = 2^0 = 4^0, −0 and −1. -/
theorem witness_VectorFloatLanes : fF32.num 0x7FC00000 = .nan false ∧ fBf16.num 0x7F80 = .inf false ∧ fBf16.num 0xFF80 = .inf true ∧
    fF32.num 0x3F800000 = .fin false 1 ∧ fF32.num 0x80000000 = .fin true 0 ∧ fF32.num 0xBF800000 = .fin true (-1) := by
  norm_num [FFmt.num, fF32, fBf16, FFmt.mag]

theorem witness_VectorMasks :
    ((regs 0 0).rm 1 &&& (regs 0 0).curCtx.top = 0) ∧ ((regs 0 0).rm 0 &&& (regs 0 0).curCtx.top ≠ 0) ∧
      (ctxWith fun c => { c with stack := List.replicate 7 1 }).curCtx.stack.length < 8 ∧
      (ctxWith fun c => { c with stack := [5] }).curCtx.stack = 5 :: [] ∧ (regs 0 0).curCtx.stack = [] := by decide +kernel

def inLoop : State := { ctxWith fun c => { c with pc := 320, loops := [⟨3, 0, 1⟩], s := vset c.s 1 5 } with cur := { Cur.reset with pc := 320 } }
theorem witness_TransfersTakeTheirPlace :
    (inLoop.cur.delay = 0 ∧ (∀ l ∈ inLoop.curCtx.loops, l.fires inLoop.cur.pc inLoop.delays.1 = false ∧
      l.fires inLoop.delays.1 inLoop.delays.2.1 = false ∧ l.fires inLoop.delays.2.1 inLoop.delays.2.2 = false)) ∧
    ((inLoop.rs 0).toInt = 0 ∧ (0 : Int) < (inLoop.rs 1).toInt ∧ ((regs 0xFFFFFFFF 0).rs 1).toInt < 0) ∧
    ∃ s : State, s.cur.delay ≠ 0 ∧ isTransfer (.br 0) = true :=
  ⟨by decide +kernel, by decide +kernel, { inLoop with cur := { Cur.reset with delay := 1 } }, by decide +kernel⟩

theorem witness_LoopsHaltYieldNop :
    inLoop.cur.delay = 0 ∧ inLoop.rs 0 = 0 ∧ inLoop.rs 1 ≠ 0 ∧ inLoop.curCtx.loops.length < 2 ∧ (1 : BitVec 12) ≠ 0 := by decide +kernel

def trapping : State := ctxWith fun c => { c with trapv := 32 }
theorem witness_TrapsAndFaultsEnter :
    (trapping.curCtx.it = false ∧ trapping.curCtx.trapv ≠ 0) ∧ (regs 0 0).curCtx.trapv = 0 ∧
      (ctxWith fun c => { c with trapv := 32, status := 0x80 }).curCtx.it = true ∧ (trapping.ctx 0 0).it = false ∧
      (trapping.ctx 0 0).trapv ≠ 0 ∧ ((regs 0 0).ctx 0 0).trapv = 0 := by decide +kernel

def ready : State := tileWith fun t =>
  { t with chans := [(3, { Chan.reset with v := true, d := 255 })], rings := vset t.rings 2 { Ring.reset with v := true, nent := 3 },
           bufs := vset t.bufs 1 { Buffer.reset with v := true, tag := 0 } }
theorem witness_WaitsHoldOrPass : let t := ready.curTile
    ready.curTile.upsets = [] ∧ ((t.chan 3).v = true ∧ (t.chan 3).coll = false ∧ (255 : BitVec 8).toNat ≤ (t.chan 3).d.toNat) ∧
    (t.rings[2].v = true ∧ (4 : BitVec 8).toNat ≤ t.rings[2].e) ∧
    (t.bufs[1].v = true ∧ ((t.bufs[1].tag - 0).toNat = 0 ∨ 128 ≤ (t.bufs[1].tag - 0).toNat) ∧ 128 ≤ (t.bufs[1].tag - 128).toNat) ∧
    (t.ctx 0).phase = true ∧ ((ctxWith fun c => { c with phase := false }).curTile.ctx 0).phase = false ∧
    (isWait (.waits 0 1) = true ∧ waitCause ready.curTile.tableView (.waits 0 1) = none ∧ ready.curTile.tableView.waitHolds 0 (.waits 0 1) = false) := by
  decide +kernel

theorem witness_FencesAndPhases : let t := (regs 0 0).curTile.tableView
    (∀ c : Fin 4, t.storesDone c = true ∧ (∀ l ∈ t.live, l.ctx ≠ c) ∧ (∀ e ∈ t.chans, c ∉ e.2.out) ∧ (t.ctx c).wack = 0 ∧ (t.ctx c).tlOut = 0) ∧
    ((ctxWith fun c => { c with wack := 1 }).curTile.tableView.ctx 0).wack ≠ 0 ∧ Scope.slot.code < 2 ∧ (5 : Nat) ≤ Scope.stack.code ∧
    ((0b100 : BitVec 3).getLsbD 2 = true ∧ ∃ l ∈ (tileWith fun t => { t with live := [⟨7, 0, 2, none, false, false⟩] }).curTile.live,
      l.ctx = 0 ∧ l.queue = 2) ∧
    ((ctxWith fun c => { c with phaseDue := true }).ctx 0 0).phaseDue = true ∧ ((regs 0 0).ctx 0 0).phaseDue = false := by decide +kernel

def captured : State := ctxWith fun c => { c with caps := [⟨.ctimel, 0x100000005⟩] }
theorem witness_CsrReads :
    ((regs 0 0).wide .status = none ∧ csrLow .status = none) ∧ ((regs 0 0).wide .ctimel).isSome = true ∧
    (captured.wide .ctimeh = none ∧ csrLow .ctimeh = some .ctimel ∧
      (captured.curCtx.caps.find? fun k => k.low == .ctimel) = some ⟨.ctimel, 0x100000005⟩) ∧
    (((regs 0 0).curCtx.caps.find? fun k => k.low == .ctimel) = none) ∧
    ((regs 0 0).curTile.mxq = [] ∧ (regs 0 0).curTile.mxRun = none) := by decide +kernel

def owning (n : Nat) : State := tileWith fun t =>
  { t with ownV := true, mxq := List.replicate n ⟨0, 0, 0, 0, 0, .yes, .wswap, false, none, none, none⟩ }.modCtx 0 fun c => { c with s := vset c.s 1 4 }
theorem witness_CsrWritesAndRelease :
    ((owning 0).curTile.ownV = true ∧ (owning 0).curTile.own = (owning 0).cur.ctx ∧ ((owning 0).rs 1).getLsbD 2 = true) ∧
    ((owning 0).rs 0).getLsbD 2 = false ∧ (regs 4 0).curTile.ownV = false ∧
      (tileWith fun t => { t with ownV := true, own := 3 }).curTile.own ≠ 0 ∧ Csr.cause.readOnly = true ∧ (1 : TileId) ≠ 0 := by decide +kernel

/-- Lines of a window at 0: line 7 asked for, line 8 in the cache, line 9 in the code region. -/
def coding (n : Nat) : State := tileWith fun t =>
  { t with code := (List.range n).map fun i => ⟨false, i, false, 9, none, false, false⟩, icache := [⟨8, [], false, 0⟩],
           region := vset t.region 9 ⟨9, false, true⟩ }.modCtx 0 fun c => { c with hlimit := 0x100000 }
theorem witness_CodePlacementAndLock :
    (∀ n ∈ [3, 4], ∀ l ∈ [7, 8, 9, 10], let s := coding n
      let x := s.tile 0
      (s.lineXlate x (x.ctx 0) (BitVec.ofNat 48 (256 * l))).map (fun r => (r.1 / 256, r.2.2)) = some (l, false)) ∧
    (coding 0).lineXlate ((coding 0).tile 0) (((coding 0).tile 0).ctx 0) 0xFFFFFFFFFF00 = none ∧
    ((coding 3).tile 0).code.length + ((coding 3).tile 0).codeHeld.length < 4 ∧ 4 ≤ ((coding 4).tile 0).code.length ∧
    (∀ r ∈ ((coding 3).tile 0).code, ¬ (r.region = false ∧ r.line = 10)) ∧ (∀ w ∈ ((coding 3).tile 0).icache, w.tag ≠ 10) ∧
    (∃ w ∈ ((coding 3).tile 0).icache, w.tag = 8) ∧ ((coding 3).tile 0).region[lineSlot 9].valid = true ∧
    ((coding 3).tile 0).region[lineSlot 10].valid = false := by decide +kernel

def okBytes (r : Except Cause (List SlotByte)) : Bool :=
  match r with
  | .ok _ => true
  | .error _ => false
theorem witness_LoadsIssue : let t := (regs 0 0).curTile
    ∀ as ∈ [span 65535 1, span 65534 2, span 65532 4, span 65408 512, (List.finRange 32).flatMap fun k => span (4 * k.val) 4],
      okBytes (t.slotBytes 3 false as) = true ∧ okBytes (t.slotBytes 2 false as) = true := by decide +kernel
theorem witness_StoresIssue : let t := (regs 0 0).curTile
    ∀ as ∈ [[], span 65535 1, span 65532 4, span 65408 512, (List.finRange 32).flatMap fun k => span (4 * k.val) 4],
      okBytes (t.slotBytes 4 true as) = true ∧ okBytes (t.slotBytes 3 true as) = true ∧ okBytes (t.slotBytes 4 false as) = true := by
  decide +kernel
theorem witness_StoresIssue_forms :
    ∀ i ∈ [Instr.stb 2 1 0, .sth 2 1 0, .stw 2 1 0, .stv 2 1 0, .stvm 2 1 0 0, .stvs 2 1 0 0, .stvx 2 1 0 0, .ldacc 63 1 0, .stacc 63 1 0,
      .amo .add 3 1 2, .cas 3 1 2], (i.home = .ld ∨ i.home = .st) ∧ memCause i (regs 0xFFFF 0) = none := by decide +kernel
def windows : State := tileWith fun t => { t with bufs := vset t.bufs 4 { Buffer.reset with base := 1, v := true, rd := 1 } }
theorem witness_BufferWindowFaults :
    windows.curTile.slotBytes 3 false (span 256 4) = .error ⟨5, 3, 0, fiBuffer 4 .draining true 256⟩ ∧
    windows.curTile.slotBytes 3 false (span 383 1) = .error ⟨5, 3, 0, fiBuffer 4 .draining true 383⟩ ∧
    windows.curTile.slotBytes 4 true (span 128 4) = .error ⟨5, 4, 0, fiBuffer 4 .draining false 128⟩ ∧
    okBytes (windows.curTile.slotBytes 3 false (span 128 4)) = true ∧ okBytes (windows.curTile.slotBytes 4 true (span 384 4)) = true ∧
    memCause (.stb 2 0 128) windows = some ⟨5, 4, 0, fiBuffer 4 .draining false 128⟩ ∧ (Instr.stb 2 0 128).home = .st := by
  decide +kernel

def storing : Tile := { Tile.reset with writes := [⟨2, 0, 0, 2, [(⟨65535, 0, none⟩, 7)]⟩] }
def loading : Tile := { Tile.reset with reads := [⟨1, 0, 0, 3, 3, [⟨65535, 0, none⟩], .scalar 3 1 true⟩] }.modCtx 0 fun c => { c with st := .active }
theorem witness_AccessesPerform :
    (storing.reads = [] ∧ storing.staccs = [] ∧ storing.ldaccs = [] ∧ storing.writes = [⟨2, 0, 0, 2, [(⟨65535, 0, none⟩, 7)]⟩] ∧
      storing.spm.wf = true ∧ (⟨65535, 0, none⟩ : SlotByte).buf = none ∧ (⟨65535, 0, none⟩ : SlotByte).addr < 65536) ∧
    (loading.staccs = [] ∧ loading.ldaccs = [] ∧ loading.writes = [] ∧ loading.upsets = [] ∧ (loading.ctx 0).hist = [] ∧
      (loading.ctx 0).st = .active ∧ loading.reads.map PendRead.kind = [.scalar 3 1 true]) := by decide +kernel
def rowBytes : List SlotByte := (List.range 512).map fun i => ⟨65024 + i, 0, none⟩
theorem witness_AccessesPerform_rows :
    (let t : Tile := { Tile.reset with reads := [⟨1, 0, 0, 4, 3, rowBytes, .stacc 63⟩] }
     t.staccs = [] ∧ t.ldaccs = [] ∧ t.writes = [] ∧ t.upsets = [] ∧ (t.ctx 0).hist = [] ∧ rowBytes.length = 512 ∧
       ∀ b ∈ rowBytes, b.buf = none) ∧
    (let t : Tile := { Tile.reset with staccs := [⟨2, 0, 63, Vector.replicate 128 7⟩] }
     t.staccs.map PendStacc.tick = [2] ∧ t.upsets = [] ∧ t.acm[(63 : Fin 64)].mode = .clear) ∧
    (let t : Tile := { Tile.reset with ldaccs := [⟨1, 0, 0, 63, none, rowBytes⟩] }
     t.reads = [] ∧ t.staccs = [] ∧ t.ldaccs.map PendLdacc.tick = [1] ∧ t.writes = [] ∧ t.upsets = []) := by decide +kernel

theorem witness_MatrixInstructionsQueue :
    ((owning 7).curTile.ownV = true ∧ (owning 7).curTile.own = (owning 7).cur.ctx ∧ (owning 7).curTile.mxq.length < 8) ∧
    ((Instr.prec 0).home = .mxu ∧ (Instr.adrn 0 0 0 false .f32).home = .mxu) ∧
    (¬ ((regs 0 0).curTile.ownV = true ∧ (regs 0 0).curTile.own = (regs 0 0).cur.ctx)) ∧
    ((owning 8).curTile.ownV = true ∧ (owning 8).curTile.own = (owning 8).cur.ctx ∧ 8 ≤ (owning 8).curTile.mxq.length) := by decide +kernel

def copying : State := tileWith fun t =>
  { t with cpq := List.replicate 7 ⟨0, 0, 0, 0, .yes, .brel 0, false, false, []⟩ }.modCtx 0 fun c =>
    { c with cnt := vset c.cnt 3 254, wack := 0xFFFE }
theorem witness_CopyInstructionsQueue : let c : CopyOps := ⟨0, 0, false, 3, true, false, 0⟩
    (c.st = false ∧ c.f = false ∧ copying.curTile.cpq.length < 8 ∧ (c.t = true → copying.curCtx.cnt[c.cn] ≠ 255)) ∧
    copying.curCtx.wack ≠ 0xFFFF ∧ (1 : Fin 8) ≠ 0 ∧ copying.curCtx.cnt[(3 : Fin 16)] ≠ 255 := by decide +kernel
/-- A page of latency class 1 in the TLB; s0 allows 384 ticks, s2 one tick less. -/
def static (own : Bool) : State :=
  let s := tileWith fun t => { t with ownV := own, tlb := [⟨5, 0, 0x80000, 0, true, true, true, true, 1, 0⟩] }.modCtx 0 fun c =>
    { c with lid := some 5, walker := 0x80000000, s := vset (vset c.s 0 (BitVec.ofNat 32 (384 * 2 ^ 16))) 2 (BitVec.ofNat 32 (383 * 2 ^ 16)) }
  { s with cur := { s.cur with guard := .yes, follow := some (.mma 0 0 0 .ow 0 false) } }
def checkOf (s : State) (form : CopyForm) (r : Fin 32) : StaticOut := s.staticCheck s.curTile 0 none form 0 (s.rs r) (s.rs (r + 1)) (s.ra 0) []
theorem witness_CopyInstructionsQueue_static :
    (∀ own, (static own).cur.follow = some (.mma 0 0 0 .ow 0 false) ∧ (static own).curTile.ownV = own ∧ (static own).curTile.own = (static own).cur.ctx ∧
      (static own).curTile.cpq.length < 8 ∧ (static own).curTile.errLock = 0) ∧
    (static true).cur.guard = .yes ∧ (static true).curTile.walks = [] ∧ (static true).curCtx.wack ≠ 0xFFFF ∧
    (match checkOf (static true) .cpy 0 with | .ok _ => true | _ => false) = true ∧
    (match checkOf (static true) .cpy 2 with | .fault _ _ _ => true | _ => false) = true ∧
    (static true).curCtx.spanPoints 0 128 = [0] := by decide +kernel

def sending : State := tileWith fun t =>
  { t with chq := List.replicate 7 ⟨0, 0, 0, 0, .yes, .rgadv 0 0, false, 0⟩, nextId := 9, chans := [(5, { Chan.reset with v := true, cr := 1 })] }
theorem witness_ChannelInstructionsQueue : let m : MsgOps := ⟨5, 0, 2, true⟩
    (sending.curTile.chq.length < 8 ∧ (m.t = true → sending.curCtx.cnt[m.cn] ≠ 255) ∧ (∀ q ∈ sending.curTile.chq, q.id ≠ sending.curTile.nextId)) ∧
    (sending.cur.guard = .yes ∧ (sending.curTile.chan m.ch).v = true ∧ (sending.curTile.chan m.ch).coll = false ∧
      (sending.curTile.chan m.ch).cr ≠ 0) ∧ ({ sending with cur := { Cur.reset with guard := .unresolved true false } } : State).cur.guard ≠ .yes := by
  decide +kernel

theorem witness_SlotInstructionsChangeNoMemory :
    ((Instr.stw 2 1 0).home ≠ .scout ∧ (Instr.stw 2 1 0).home ≠ .event) ∧ (∃ t, exec (.stw 2 1 0) (regs 0 0) = .next t) ∧
    ((1 : TileId) ≠ (regs 0 0).cur.tile ∧ (1 : Fin 4) ≠ (regs 0 0).cur.ctx) := ⟨by decide, ⟨_, rfl⟩, by decide +kernel⟩

def mx (id : Nat) (g : QGuard) (op : MxOp) (head : Option Nat) : MxCmd := ⟨id, 0, 0, 0, 0, g, op, false, none, none, head⟩
def unresolved (v : Bool) : State := { tileWith fun t => { t with mxq := [mx 1 (.unresolved v false) .wswap none] } with now := 1 }
def one (st : CtxState) : State := tileWith fun t =>
  { t with lastIssue := some (3, 5) }.modCtx 0 fun c => { c with st := st, readySince := some 0, rank := 254 * 256 }
theorem witness_TileScheduling :
    ((∀ v, ((unresolved v).tile 0).mxq = [mx 1 (.unresolved v false) .wswap none] ∧ ((unresolved v).tile 0).cpq = [] ∧
      ((unresolved v).tile 0).chq = [] ∧ (mx 1 (.unresolved v false) .wswap none).ctx = 0 ∧
      (mx 1 (.unresolved v false) .wswap none).tick < (unresolved v).now)) ∧
    (∀ d, (one .free).ready ((one .free).tile 0) d = false) ∧ (∃ d, (one .active).ready ((one .active).tile 0) d = true) ∧
    (∀ d, ((one .free).tile 0).readyFor (one .free).now d = false) ∧
    (((one .active).tile 0).readyFor (one .active).now 0 = true ∧ (((one .active).tile 0).ctx 0).run ≤ 4096 - (one .active).now % 4096) ∧
    (let s : State := { one .active with now := 4095 }.modCtx 0 0 fun c => { c with rundecl := 2 }
     (s.tile 0).readyFor s.now 0 = true ∧ ∀ d, 4096 - s.now % 4096 < ((s.tile 0).ctx d).run ∨ (s.tile 0).readyFor s.now d = false) ∧
    (((one .active).tile 0).lastIssue = some (3, 5) ∧ (3 : Fin 4) ≠ 0) ∧
    (((one .active).ctx 0 0).readySince.isSome = true ∧ ((one .active).ctx 0 0).eff < 255) ∧
    (((regs 0 0).ctx 0 0).readySince = none ∧ 255 ≤ ((ctxWith fun c => { c with rank := 255 * 256 }).ctx 0 0).eff) := by
  unfold State.ready; decide +kernel

def codeArrives (region : Bool) : State := tileWith fun t => { t with code := [⟨region, 7, true, 0, none, false, false⟩], fixes := [⟨0, 5, false⟩] }
theorem witness_CodeLinesFill :
    (((codeArrives false).tile 0).code = [⟨false, 7, true, 0, none, false, false⟩] ∧ (0 : Nat) ≤ (codeArrives false).now ∧
      ∀ l ∈ ((codeArrives false).tile 0).icache, l.pinned = false) ∧
    (((codeArrives true).tile 0).code = [⟨true, 7, true, 0, none, false, false⟩] ∧ ((codeArrives true).tile 0).spm.wf = true ∧
      ((codeArrives true).tile 0).lock = none ∧ ((codeArrives true).tile 0).region[lineSlot 7].valid = false) ∧
    (let s := (codeArrives true).modTile 0 fun t => { t with code := [⟨true, 7, true, 0, none, true, false⟩] }
     (s.tile 0).code = [⟨true, 7, true, 0, none, true, false⟩] ∧ (s.tile 0).spm.wf = true ∧ (s.tile 0).lock = none) ∧
    (0xE000 ≤ 0xE000 + 256 * (7 % 32) + 128 ∧ 127 < 128) ∧
    ((codeArrives true).tile 0).fixes = ⟨0, 5, false⟩ :: [] := by decide +kernel

def copyHeadOf (op : CopyOp) (b : Buffer) : State :=
  { tileWith fun t => { t with cpq := [⟨1, 0, 0, 0, .yes, op, false, false, []⟩], bufs := vset t.bufs 3 b }.modCtx 0 fun c =>
      { c with hlimit := 0x100000 } with now := 3 }
def plain : Buffer := { Buffer.reset with v := true }
def starts (o : HeadOut) : Bool :=
  match o with
  | .start _ _ _ => true
  | _ => false
theorem witness_CopyQueueHeadActs :
    (∀ op b, (op, b) ∈ [(CopyOp.bdcl 3 0x00FE0000, Buffer.reset), (.brel 3, plain), (.publish 3 1, plain), (.copy .cpy 3 0 0 0 false, plain)] →
      let s := copyHeadOf op b
      ((s.tile 0).copyReady s.now).map CopyCmd.op = some op ∧ ((s.tile 0).copyReady s.now).map CopyCmd.guard = some .yes ∧
        (s.tile 0).upsets = [] ∧ (s.tile 0).bufs[3].wr = 0 ∧ (s.tile 0).bufs[3].rd = 0) ∧
    ((0x00FE0000 : Word).toNat % 512 * 128 + 2 * (((0x00FE0000 : Word).toNat / 2 ^ 16 % 256 + 1) * 128) ≤ 65536) ∧ plain.v = true ∧
    (let s := copyHeadOf (.copy .cpy 3 0 0 0 false) plain
     starts (s.copyHead (s.tile 0) ⟨1, 0, 0, 0, .yes, .copy .cpy 3 0 0 0 false, false, false, []⟩ .cpy 3 0 0 0 false) = true) ∧
    (let s := copyHeadOf (.publish 3 1) { plain with wr := 1 }
     ((s.tile 0).copyReady s.now).map CopyCmd.op = some (.publish 3 1) ∧ (s.tile 0).bufs[3].wr ≠ 0 ∧
       65536 < (0x00FF0001 : Word).toNat % 512 * 128 + 2 * (((0x00FF0001 : Word).toNat / 2 ^ 16 % 256 + 1) * 128)) ∧
    (let s := tileWith fun t => { t with publishing := [3] }
     (s.tile 0).publishing = [3] ∧ s.hold = false ∧ 64 ≤ s.thrPhase + s.thr) := by
  refine ⟨fun op b h => ?_, by decide +kernel⟩
  simp only [List.mem_cons, Prod.mk.injEq, List.not_mem_nil, or_false] at h
  rcases h with ⟨rfl, rfl⟩ | ⟨rfl, rfl⟩ | ⟨rfl, rfl⟩ | ⟨rfl, rfl⟩ <;> decide +kernel

def landed : Flight := ⟨7, 0, 0, .cpy, false, false, none, none, 3, 0, 0, 128, 0, [], [], 0, 128, 0, 0, 0, true, false⟩
def copyEvents : State := { tileWith fun t => { t with
  walks := [⟨0, none, 0x80000, 3, none⟩], flights := [landed], acks := [⟨7, none, 0, some 3, 0⟩],
  tlb := [⟨5, 0x80000, 0x80000, 0, true, true, true, true, 0, 0⟩, ⟨6, 0, 0x80000, 0, true, true, true, true, 0, 0⟩] } with now := 3 }
theorem witness_CopyEngineEvents :
    ((copyEvents.tile 0).walks = [⟨0, none, 0x80000, 3, none⟩] ∧ (3 : Nat) ≤ copyEvents.now ∧
      copyEvents.walkerMoves ((copyEvents.tile 0).ctx 0) = false) ∧
    ((copyEvents.tile 0).flights = [landed] ∧ landed.id = 7 ∧ landed.retired = false ∧ landed.len ≤ landed.done ∧ landed.follow = false) ∧
    (copyEvents.tile 0).acks = [⟨7, none, 0, some 3, 0⟩] ∧
    ((∃ e ∈ (copyEvents.tile 0).tlb, e.launch = 5 ∧ inSpan 0xFFFFF e.vbase e.size = true) ∧
      ∃ e ∈ (copyEvents.tile 0).tlb, e.launch ≠ 5 ∧ inSpan 0xFFFFF e.vbase e.size = false) := by decide +kernel

def arrayHead (op : MxOp) (head : Option Nat) : State :=
  { tileWith fun t => { t with mxq := [mx 1 .yes op head], prec := 0x04006600,
                               rings := vset t.rings 2 { Ring.reset with v := true, esz := 127, nent := 3, cnt := 4 } } with now := 4 }
def runsHere (op : MxOp) : Bool :=
  let s := arrayHead op none
  let x := s.tile 0
  x.mxHead s.now == some (mx 1 .yes op none) && x.upsets.isEmpty && x.headCause (mx 1 .yes op none) s.now == none
def startsHere (op : MxOp) (h : Nat) : Bool :=
  let s := arrayHead op (some h)
  let x := s.tile 0
  x.mxHead s.now == some (mx 1 .yes op (some h)) && x.arrayEvent 0 s.now == some (.mxuStart 0) && x.startCause (mx 1 .yes op (some h)) == none
def zeros : Row := Vector.replicate 128 0
theorem witness_MatrixEngineActs :
    (runsHere (.prec 0x04006600) && runsHere (.pmaskRow 1) && runsHere (.pmaskCol 1) && runsHere .wswap && runsHere (.wld 3 2 1 false) &&
      runsHere (.mma 3 2 0 .ow 0 false 0 zeros zeros) && runsHere (.aclr 63 0)) = true ∧
    (startsHere (.wld 0 2 1 false) 3 && startsHere (.mma 0 2 1 .acc 0 false 0 zeros zeros) 3 && startsHere (.aclr 0 63) 4 &&
      startsHere (.ascl 63 0 zeros) 4) = true ∧
    (let s := arrayHead (.adrn 0 0 31 true .f32) (some 4)
     (s.tile 0).mxHead s.now = some (mx 1 .yes (.adrn 0 0 31 true .f32) (some 4)) ∧ (s.tile 0).drainReady 31 true = true) ∧
    (let r : MxRun := ⟨1, 0, 4, 0, 0, [], 0, 1, [], 0, [], 0⟩
     let s : State := { tileWith fun t => { t with mxq := [mx 1 .yes (.aclr 0 0) (some 0)], mxRun := some r } with now := 4 }
     (s.tile 0).mxRun = some r ∧ (s.tile 0).mxq = mx 1 .yes (.aclr 0 0) (some 0) :: [] ∧ r.leave ≤ s.now) := by decide +kernel
def arrayRuns (op : MxOp) (todo : List (Nat × Nat × Fin 64)) (rows : List (Fin 64 × AccRow)) : Tile :=
  { Tile.reset with mxq := [mx 1 .yes op (some 0)], mxRun := some ⟨1, 0, 4, 0x04006600, 0, [], 0, 1, todo, 0, rows, 0⟩ }
theorem witness_MatrixEngineActs_rows :
    (∀ op ∈ [MxOp.mma 0 2 63 .ow 0 false 0 zeros zeros, .aclr 63 0, .ascl 63 0 zeros, .adrn 63 0 31 true .s8],
      let x := arrayRuns op [(4, 0, 63)] []
      x.mxRun.map MxRun.todo = some [(4, 0, 63)] ∧ x.mxq = [mx 1 .yes op (some 0)] ∧ x.upsets = []) ∧
    (let x := arrayRuns (.aclr 63 0) [] [(63, ⟨zeros, .clear, 0, []⟩)]
     x.mxRun.map (fun r => (r.rows, r.leave)) = some ([(63, ⟨zeros, .clear, 0, []⟩)], 4) ∧ x.mxq = [mx 1 .yes (.aclr 63 0) (some 0)]) := by
  decide +kernel
theorem witness_MatrixEngineActs_settle :
    (let e : Drain := ⟨4, 1, true, 31, 0, 65280, List.replicate 128 7, true, false⟩
     let x : Tile := { Tile.reset with drains := [e] }
     x.drains = [e] ∧ e.tick ≤ 4 ∧ x.spm.wf = true ∧ x.bufs[e.dst].shadow + e.off + e.data.length ≤ 65536) ∧
    (∀ due ∈ [0, 1], let p : AccPend := ⟨due, 1, zeros, .clear, 0, 1, 0⟩
     let x : Tile := { Tile.reset with ownV := true, acm := vset Tile.reset.acm 63 ⟨zeros, .clear, 0, [p]⟩ }.modCtx 0 fun c =>
       { c with st := .active }
     x.upsets = [] ∧ x.acm[63].pend = [p] ∧ x.ownV = true ∧ (x.ctx x.own).st = .active ∧ (x.ctx x.own).tt = 0) ∧
    precRow 0x04006600 = 0 ∧ precRow 0 = 0 ∧ pAM 0x04006600 = 1 ∧ pAM 0 ≠ 1 := by decide +kernel

def combSwarm (roster : List Word) : Swarm :=
  { v := true, lvl := false, mode := false, vc := false, vt := 7, win := 0, port := 0, ni := 0, ax := 0, ay := 0, roster := roster, leave := [],
    round := none, seen := 0, acked := 0, relay := false, held := none, raddr := 0, lid := none }
/-- A command with its credit at the head of tile 0's channel queue on tick 3; swarm 2 holds the tile, swarm 3 knows it as absent. -/
def chanHeadOf (op : ChOp) : State :=
  let c : Chan := { Chan.reset with v := true, rsv := 1 }
  { tileWith fun t => { t with chq := [⟨1, 0, 0, 0, .yes, op, true, 0⟩],
                               chans := [(5, c), (6, { c with coll := true, tgt := 4, sw := 2, rt := 6 }), (7, { c with hold := true })],
                               bufs := vset (vset t.bufs 3 { plain with fh := true }) 4 plain,
                               views := [⟨true, false, false, false, true, false, 2, 7, 0, 0, 0⟩],
                               rings := vset t.rings 2 { Ring.reset with v := true, nent := 255, cnt := 255 } } with
    now := 3, swarms := [(2, combSwarm [0x80000000]), (3, combSwarm [0x00000000])] }
def chanStarts (op : ChOp) (s : State) (held : Bool) : Bool :=
  let q : ChCmd := ⟨1, 0, 0, 0, .yes, op, true, 0⟩
  (s.tile 0).chanHead s.now == some q && (s.tile 0).upsets.isEmpty && s.chanCheck 0 (s.tile 0) q == .start &&
    s.routeHeld 0 (s.tile 0) op == held
theorem witness_ChannelQueueHeadActs :
    (let ok (op : ChOp) : Bool := chanStarts op (chanHeadOf op) false
     ok (.rgpop 2 255) && ok (.rgpop 2 0) && ok (.rgadv 2 1) && ok (.recv ⟨5, 3, 0, false⟩) && ok (.sig 5 15 255) &&
       ok (.send ⟨5, 3, 0, false⟩) && ok (.sendr ⟨5, 3, 0, false⟩ .addFx128) && ok (.coll ⟨6, 3, 0, false⟩) && ok (.tlsig 1023 5) &&
       ok (.vwjoin 3) && ok (.vwleave 2)) = true := by decide +kernel
theorem witness_ChannelQueueHeadActs_held :
    (let op : ChOp := .sig 7 0 1
     let s := (chanHeadOf op).modTile 0 fun t => { t with tx := [⟨9, some 0, some 7, 0, none, 5, none, 0, 0, 0, none, [], 0, 1, 0, none, false, true, true⟩] }
     chanStarts op s true) = true ∧
    (let op : ChOp := .coll ⟨6, 3, 0, false⟩
     let s := chanHeadOf op
     let x := s.tile 0
     let y := x.passColl ⟨1, 0, 0, 0, .yes, op, true, 0⟩ 6 3 3
     x.queuedRun 1 = none ∧ x.seqFull (x.seqDir 6) = false ∧ y.queuedRun 1 = some 0) ∧
    (chanHeadOf (.vwjoin 3)).viewHead 0 3 = some (0, false) ∧ (chanHeadOf (.vwleave 2)).viewHead 0 2 = some (0, true) := by decide +kernel

def flit (lf : Bool) (steer : BitVec 64) : Flit := ⟨.c, true, lf, 5, steer, none, none⟩
def transmitting : TxMsg := ⟨1, some 0, some 5, 0, none, 5, none, 0, 0, 0, none, [], 0, 1, 0, none, false, true, true⟩
theorem witness_MessagesLeaveAndCreditsReturn :
    (let x : Tile := { Tile.reset with inC := vset Tile.reset.inC 1 { Input.reset with fifo := [flit true (packLegs [(3, 1)])] } }
     x.mig = none ∧ x.nextInput 0 false 3 = some 1 ∧ ∀ e : Fin 4, e ≠ 3 → x.nextInput 0 false e = none) ∧
    (let x : Tile := { Tile.reset with tx := [transmitting] }
     x.tx = [transmitting] ∧ transmitting.id = 1 ∧ transmitting.done = true ∧ transmitting.ch.isSome = true) ∧
    (let x : Tile := { Tile.reset with credits := [⟨3, 5⟩], chans := [(5, { Chan.reset with v := true, inf := 1 })] }
     x.credits = [⟨3, 5⟩] ∧ (3 : Nat) ≤ 3 ∧ x.chq = [] ∧ (x.chan 5).inf ≠ 0) := by decide +kernel

def headerOf (kd len inc ck cof : Nat) : BitVec 128 := ({ ch := 5, sx := 2, sy := 3, kd := kd, rop := 0, len := len, sem := 15, inc := inc, ck := ck, cof := cof : Header }).pack
def arriving (f : Flit) (rx : Option RxMsg) : State := tileWith fun t =>
  { t with inC := vset t.inC 1 { Input.reset with fifo := [f], rx := rx }, chans := [(5, { Chan.reset with v := true, px := 2, py := 3 })],
           bufs := vset t.bufs 3 { plain with wr := 1 }, acks := [⟨4, some (mkTile 2 3), 0, none, 1⟩] }
def opened (drop : Bool) (len : Nat) : RxMsg := ⟨headerOf 0 len 0 0 0, none, none, if drop then none else some (3, 0), [], true, drop, none, 0, 0, none⟩
theorem witness_MessagesArrive :
    (let s := arriving ⟨.c, true, false, headerOf 0 127 0 0 0, 0, none, none⟩ none
     (s.tile 0).upsets = [] ∧ (s.tile 0).inC[1].fifo = ⟨.c, true, false, headerOf 0 127 0 0 0, 0, none, none⟩ :: [] ∧ (s.tile 0).inC[1].rx = none) ∧
    (let s := arriving ⟨.c, false, false, 77, 0, none, none⟩ (some (opened true 127))
     (s.tile 0).inC[1].rx = some (opened true 127) ∧ (opened true 127).started = true ∧ (opened true 127).drop = true) ∧
    (let s := arriving ⟨.c, false, false, 77, 0, none, none⟩ (some (opened false 127))
     let x := s.tile 0
     x.inC[1].rx = some (opened false 127) ∧ (opened false 127).started = true ∧ (opened false 127).drop = false ∧ (opened false 127).ring = none ∧
       (opened false 127).buf = some (3, 0) ∧ (Header.unpack (opened false 127).head).kd = 0 ∧
       x.bufs[3].shadow + 0 + 0 + min 16 ((Header.unpack (opened false 127).head).payload - 0) ≤ 65536 ∧ x.spm.wf = true ∧ x.upsets = []) ∧
    (let h := Header.unpack (headerOf 1 127 0 0 0)
     h.kd = 1 ∧ h.rop ≠ rAddFx ∧ min 16 (h.payload - 0) % 4 = 0 ∧ 0 < min 16 (h.payload - 0) / 4) := by decide +kernel

/-- A tile whose channel 5 lands in ring 1, buffer 3 or an armed receive; one message at input 1. -/
def landing (arm tk : Bool) (m : RxMsg) (lf : Bool) : State := tileWith fun t =>
  { t with inC := vset t.inC 1 { Input.reset with fifo := [⟨.c, false, lf, 77, 0, none, none⟩], rx := some m },
           chans := [(5, { Chan.reset with v := true, px := 2, py := 3, tk := tk, tgt := if tk then 3 else 1, arm := if arm then [(3, 9, 0)] else [] })],
           bufs := vset t.bufs 3 { plain with wr := 1 }, rings := vset t.rings 1 { Ring.reset with v := true, esz := 7, infl := 1, ended := [(4, false)] } }
def started (ring : Option (Fin 8 × Nat)) (kd rop : Nat) : RxMsg :=
  ⟨({ ch := 5, sx := 2, sy := 3, kd := kd, rop := rop, len := 127, sem := 0, inc := 0, ck := 0, cof := 0 : Header }).pack, none, ring,
    if ring.isSome then none else some (3, 0), [], true, false, none, 0, 4, none⟩
def notStarted (kd : Nat) : RxMsg := { started none kd 0 with buf := none, started := false }
theorem witness_MessagesArrive_ends :
    ∀ ring ∈ [none, some (1, 0)], ∀ kd ∈ [0, 1], let m := started ring kd rAddFx
      let x := (landing false true m true).tile 0
      let h := Header.unpack m.head
      x.inC[1].fifo = ⟨.c, false, true, 77, 0, none, none⟩ :: [] ∧ x.inC[1].rx = some m ∧ m.port = none ∧ h.sx ≠ 511 ∧ h.kd = kd ∧
        (kd = 1 → h.rop = rAddFx) ∧ min 16 (h.payload - m.done) = 16 ∧ x.bufs[(3 : Fin 32)].shadow + 0 + 16 ≤ 65536 ∧ x.spm.wf = true ∧
        x.upsets = [] ∧ x.rings[(1 : Fin 8)].ended = [(m.fill, false)] ∧ x.mig = none := by decide +kernel
theorem witness_MessagesArrive_begins :
    (let x := (landing true true (notStarted 0) false).tile 0
     x.rxTarget (Header.unpack (notStarted 0).head) = .buf 3 0 (some 9)) ∧
    (let x := (landing false true (notStarted 1) false).tile 0
     x.rxTarget (Header.unpack (notStarted 1).head) = .buf 3 0 none ∧ x.spm.wf = true ∧ x.upsets = [] ∧ x.inC[1].rx = some (notStarted 1)) ∧
    (let x := (landing false false (notStarted 0) false).tile 0
     x.rxTarget (Header.unpack (notStarted 0).head) = .wait ∧
       { x with rings := vset x.rings 1 { Ring.reset with v := true, esz := 7 } }.rxTarget (Header.unpack (notStarted 0).head) = .ring 1) ∧
    ((landing false false (notStarted 1) false).tile 0).rxTarget (Header.unpack (notStarted 1).head) = .drop none := by decide +kernel

theorem witness_SignalsAndCombMessages :
    (let f : Flit := ⟨.c, true, true, headerOf 2 0 255 0 0, 0, none, none⟩
     let s := arriving f none
     (s.tile 0).inC[1].fifo = f :: [] ∧ (s.tile 0).upsets = [] ∧ (Header.unpack f.data).sx ≠ 511 ∧
       ((s.tile 0).chan (Fin.ofNat 256 (Header.unpack f.data).ch)).names (Header.unpack f.data) = true ∧
       (Chan.reset).names (Header.unpack f.data) = false) ∧
    (let f : Flit := ⟨.c, true, true, headerOf 2 0 255 0 0, 0, some 15, none⟩
     f.port = some 15 ∧ ((arriving f none).tile 0).inC[1].fifo = f :: []) ∧
    (let f : Flit := ⟨.c, true, true, headerOf 3 511 0 3 0, 0, none, some ⟨0, 0, 4, 0, 0⟩⟩
     let s := arriving f none
     (s.tile 0).inC[1].fifo = f :: [] ∧ (s.tile 0).inC[1].rx = none ∧ (s.tile 0).acks = [⟨4, some (mkTile 2 3), 0, none, 1⟩] ∧ f.org.map Origin.id = some 4) ∧
    (let m : RxMsg := ⟨headerOf 3 127 0 0 0, none, none, none, [], false, false, none, 0, 0, some ⟨0, 0, 7, 0, 0⟩⟩
     let g := Header.unpack m.head
     ((arriving ⟨.c, false, false, 77, 0, none, none⟩ (some m)).tile 0).inC[1].rx = some m ∧ 0 < min 16 (g.payload - m.done) ∧
       ((arriving ⟨.c, false, false, 77, 0, none, none⟩ (some m)).tile 0).combTarget (g.cof + m.done) = some (3, 0) ∧
       let fl : Flight := { landed with done := 0, len := 128, remote := some g.sender }
       fl.form = .cpy ∧ fl.ring = none ∧ fl.remote = some g.sender ∧ m.org.map Origin.id = some fl.id ∧ fl.done < fl.len) := by
  decide +kernel

def ringRun : CollRun :=
  { id := 1, ctx := 0, ch := 5, inst := 0, sw := 2, vt := 7, src := 3, dst := 4, toff := 0, kind := 0, rop := 0, om := 0, root := 0,
    m := 1, n := 1, rank := 0, win := 0, div := false, hive := false, mode := .normal, rt := 0, steer := 0, queued := false, accepted := 0, own := [], need := 0,
    outn := 0, rdOpen := false, wrOpen := false, wrLeft := 0, wrBase := 0, portLeft := 0, last := 2 }
theorem witness_CollectiveEvents :
    (let f : Flit := ⟨.r, true, false, 5, 0, none, none⟩
     let x : Tile := { Tile.reset with inR := vset Tile.reset.inR 1 { Input.reset with fifo := [f] } }
     x.inR[1].fifo = f :: [] ∧ x.inR[1].chunk = none ∧ f.ff = true ∧ emptyRoute f.steer = true ∧ x.mig = none ∧
       x.chunkUse (Chunk.unpack f.data) = .discarded ∧ x.errLock = 0) ∧
    (let x : Tile := { Tile.reset with seqs := vset Tile.reset.seqs 0 ⟨[ringRun], [], none, none, none, []⟩ }
     x.seqOfRun 5 0 = some (0, ringRun) ∧ x.seqs[0].finished 3 ringRun = true ∧ x.mayComplete ringRun = true) := by decide +kernel
def chunkOf (inst : BitVec 16) : Chunk := { ch := 5, ph := true, xf := false, vt := 7, inst := inst, sh := 0, fr := 0, ne := 0, eo := 0, data := [] }
def chunkFlit (inst : BitVec 16) : Flit := ⟨.r, true, false, (chunkOf inst).pack, 0, none, none⟩
def chunkTile (inst : BitVec 16) : Tile :=
  { Tile.reset with inR := vset Tile.reset.inR 1 { Input.reset with fifo := [chunkFlit inst] }, chans := [(5, { Chan.reset with v := true, coll := true, sw := 2 })],
                    views := [⟨true, false, false, false, true, false, 2, 7, 0, 0, 0⟩], seqs := vset Tile.reset.seqs 0 ⟨[ringRun], [], none, none, none, []⟩ }
theorem witness_CollectiveEvents_used :
    (chunkTile 0).chunkUse (Chunk.unpack (chunkFlit 0).data) = .used ∧ (chunkTile 0).seqOfRun 5 0 = some (0, ringRun) ∧
      (chunkTile 0).chunkStuck 0 ringRun (Chunk.unpack (chunkFlit 0).data) = false ∧ (Chunk.unpack (chunkFlit 0).data).ch = 5 ∧
      (Chunk.unpack (chunkFlit 0).data).inst = 0 := by decide +kernel
theorem witness_CollectiveEvents_bytes :
    ∀ k ∈ [(0, 0, 0), (0, 7, 2), (1, 0, 2), (2, 0, 0), (3, 0, 0)],
      let r : CollRun := { ringRun with kind := k.1, rop := k.2.1, om := k.2.2, n := 2, m := 2 }
      let c : Chunk := { chunkOf 0 with xf := r.xf }
      let e := if r.kind < 2 ∧ r.rop = rAddFx then 16 else 4
      let x := chunkTile 0
      c.xf = r.xf ∧ r.mode = .normal ∧ r.hive = false ∧ 0 < r.n ∧ (if r.xf = true then 1 else 4) * 0 ≤ c.ne.toNat ∧ x.upsets = [] ∧
        x.spm.wf = true ∧ x.bufs[r.src].front + (1 + 1) * e ≤ 65536 ∧ x.bufs[r.dst].shadow + r.toff + (2 + 1) * e ≤ 65536 := by
  decide +kernel
theorem witness_CollectiveEvents_held :
    (chunkTile 1).chunkUse (Chunk.unpack (chunkFlit 1).data) = .held ∧ (chunkTile 1).holding ((chunkTile 1).seqDir 5) < 8 ∧
      (chunkTile 1).mig = none ∧ emptyRoute (chunkFlit 1).steer = true := by decide +kernel

/-! ### Witnesses: scouts, ports, views -/

def portWith (f : Port → Port) : State := { State.reset with stage := .up, agenda := [] }.modPort 0 f
def scoutRegs (x y : BitVec 64) (f : Scout → Scout := id) : State := portWith fun p =>
  { p with scout := f { p.scout with halted := none, x := vset (vset p.scout.x 1 x) 2 y } }
theorem witness_ScoutScalars :
    ((scoutRegs 0 1).sc.x[(1 : Fin 16)].toInt = 0 ∧ (0 : Int) < (scoutRegs 0 1).sc.x[(2 : Fin 16)].toInt ∧
      (scoutRegs (-1) 0).sc.x[(1 : Fin 16)].toInt < 0) ∧ (1 : Fin 16) ≠ 0 := by decide +kernel

/-- Logical tile 0 stands on the one tile that carries port 0. -/
def wired : State :=
  { scoutRegs 0x8000000000000000 0 with tmap := [(0, ⟨0, 0, 0, true⟩)], edges := [⟨false, 0, [(0, 0)], []⟩] }
theorem witness_ScoutSemaphores :
    (let s := (scoutRegs 5 0).modPort 0 fun p => { p with psem := vset p.psem 3 5 }
     s.sc.x[(1 : Fin 16)].toNat % 65536 ≤ (s.port s.curPort).psem[(3 : Fin 64)].toNat) ∧
    ((scoutRegs 5 0).port 0).psem[(3 : Fin 64)].toNat < (scoutRegs 5 0).sc.x[(1 : Fin 16)].toNat % 65536 ∧
    (scoutRegs 0x7FFFFFFFFFFFFFFF 0).sc.x[(1 : Fin 16)].toNat < 2 ^ 63 ∧
    (let s := (scoutRegs 0x8000000000000000 0).modPort 0 fun p => { p with sigsOut := 64 }
     2 ^ 63 ≤ s.sc.x[(1 : Fin 16)].toNat ∧ 64 ≤ (s.port s.curPort).sigsOut) ∧
    (2 ^ 63 ≤ wired.sc.x[(1 : Fin 16)].toNat ∧ (wired.port wired.curPort).sigsOut < 64 ∧ wired.portTile wired.curPort = some 0 ∧
      wired.inGrid 0 0 = true ∧ wired.isAbsent (mkTile 0 0) = false ∧ mkTile 0 0 = 0 ∧
      (wired.tile 0).inC[(5 : Fin 6)].wire = [] ∧ (wired.tile 0).inR[(5 : Fin 6)].wire = []) := by decide +kernel

def wafers (roster : List Word) (vt : BitVec 16) : Swarm :=
  { v := true, lvl := true, mode := false, vc := false, vt := vt, win := 0, port := 0, ni := 0, ax := 0, ay := 0, roster := roster, leave := [],
    round := none, seen := 0, acked := 0, relay := false, held := none, raddr := 0, lid := none }
/-- A hive swarm 2 of wafer 0, which is this one, and wafer 1; port 0 reaches wafer 1 on plane 0. -/
def hive (x y : BitVec 64) : State :=
  { (scoutRegs x y).modPort 0 fun p => (p.setEntry 0 5 fun _ => ⟨1, true, true⟩) with
      swarms := [(2, wafers [0x80000000, 0x80000001, 0x00000002] 7)] }
def pkt (n : Nat) : Packet := ⟨.data, 1, 0, 0, true, 2, 7, 3, List.replicate n 1, 0, 0, 0⟩
theorem witness_ScoutPacketsLeave :
    (¬ (16 ≤ 0 ∧ 0 ≤ 4096 ∧ 0 % 16 = 0) ∧ (16 ≤ 4096 ∧ 4096 ≤ 4096 ∧ 4096 % 16 = 0)) ∧
    (let s := hive 0 0x010200010040
     let v := s.sc.x[(2 : Fin 16)].toNat
     v / 2 ^ 40 % 2 = 1 ∧ v % 65536 = 64 ∧ v / 2 ^ 16 % 65536 = 1 ∧
       (∃ w, s.portSwarm (Fin.ofNat 256 (v / 2 ^ 32)) = some w ∧ ∃ i ∈ w.members, w.waferOf i = 1) ∧
       (∀ w, s.portSwarm (Fin.ofNat 256 (v / 2 ^ 32)) = some w → ¬ ∃ i ∈ w.members, w.waferOf i = 9) ∧
       (s.port s.curPort).planesTo 1 ≠ [] ∧ (s.port s.curPort).planesTo 2 = [] ∧ (s.port s.curPort).txq.length < 64 ∧ s.moved 0 64 ∧
       (s.port s.curPort).atomic = none) ∧
    (let s := (hive 0 0).modPort 0 fun p => { p with atomic := some ⟨1, 0, some 0, some (true, 0)⟩ }
     (s.port s.curPort).atomic = some ⟨1, 0, some 0, some (true, 0)⟩) := by
  refine ⟨by decide, ?_, rfl⟩
  have h : (hive 0 0x010200010040).portSwarm (Fin.ofNat 256 ((hive 0 0x010200010040).sc.x[(2 : Fin 16)].toNat / 2 ^ 32)) = some (wafers [0x80000000, 0x80000001, 0x00000002] 7) := by
    decide +kernel
  refine ⟨by decide +kernel, by decide +kernel, by decide +kernel, ⟨_, h, by decide +kernel⟩, fun w hw => ?_, by decide +kernel, by decide +kernel, by decide +kernel, ?_, rfl⟩
  · rw [h] at hw; cases hw; decide +kernel
  · exact ⟨by decide, .inl (by decide +kernel)⟩

def receiving (n : Nat) : State := (hive 0 0x102).modPort 0 fun p => { p with rxq := [pkt n] }
theorem witness_ScoutPacketsReceived :
    ((hive 0 0x102).port 0).rxq.find? (recvMatch ((hive 0 0x102).sc.x[(2 : Fin 16)])) = none ∧ (hive 0 0x102).sc.waitVt = none ∧
    (let s := (hive 0 0x102).modPort 0 fun p => { p with scout := { p.scout with waitVt := some 6 } }
     s.sc.waitVt = some 6 ∧ (s.portSwarm 2).map Swarm.vt = some 7) ∧
    ((receiving 64).memOk = true ∧ ((receiving 64).port 0).rxq.find? (recvMatch ((receiving 64).sc.x[(2 : Fin 16)])) = some (pkt 64) ∧
      (pkt 64).payload.length < 2 ^ 16 ∧ (2 ^ 20 - 64) + (pkt 64).payload.length ≤ 2 ^ 20 ∧ (receiving 64).sc.busy = none) := by decide +kernel

def hiveRun : CollRun := { ringRun with hive := true, n := 2 }
def reducing : State :=
  { ((hive 0x302 0).modPort 0 fun p => { p with rxq := [pkt 16], contrib := [⟨2, 0, 7, 0, 16, List.replicate 16 1⟩] }) with
      tiles := [(0, { Tile.reset with seqs := vset Tile.reset.seqs 0 ⟨[hiveRun], [], none, none, none, []⟩ })] }
theorem witness_ScoutReductions : let w := wafers [0x80000000, 0x80000001, 0x00000002] 7
    (¬ ((24 : BitVec 6).toNat / 8 % 4 ≠ 3) ∧ ((16 : BitVec 6).toNat / 8 % 4 = 2 ∧ (16 : BitVec 6).toNat % 8 ≠ 7) ∧
      ((23 : BitVec 6).toNat / 8 % 4 = 2 ∧ (23 : BitVec 6).toNat % 8 = 7)) ∧
    (reducing.memOk = true ∧ reducing.portSwarm 2 = some w ∧ reducing.sc.waitVt = none ∧ reducing.otherMembers w = some [1] ∧
      (reducing.port 0).shard 2 3 7 = [pkt 16] ∧ (pkt 16).src = 1 ∧ (pkt 16).payload.length = 16 ∧ reducing.sc.busy = none) ∧
    ((reducing.port 0).contrib = [⟨2, 0, 7, 0, 16, List.replicate 16 1⟩] ∧ (hive 0 0).anchorRun 2 w = none ∧
      reducing.anchorRun 2 w = some hiveRun) := by decide +kernel

def drainOf (q : List TxDesc) : State := (hive 0 0).modPort 0 fun p =>
  { (p.setEntry 1 5 fun _ => ⟨1, true, true⟩) with txq := q }
theorem witness_ScoutPlanesAndViews : let w := wafers [0x80000000, 0x80000001, 0x00000002] 7
    (((hive 0 0).port 0).drain = none ∧ ((hive 0 0).port 0).lastPlane 0 = true ∧ ((drainOf []).port 0).lastPlane 0 = false ∧
      (∀ q ∈ ((drainOf []).port 0).txq, q.plane ≠ some 0) ∧ (∃ q ∈ ((drainOf [⟨1, 0, 0, 16, pkt 16, some 0, some 0⟩]).port 0).txq, q.plane = some 0) ∧
      ((drainOf []).port 0).drain = none ∧ (drainOf []).sc.busy = none ∧ ((drainOf []).port 0).shadowPlanes = []) ∧
    (2 ^ 20 < (2 ^ 20 - 240) + 256 ∧ (2 ^ 20 - 256) + 256 ≤ 2 ^ 20) ∧
    (let s := (drainOf []).modPort 0 fun p => { p with scout := { p.scout with busy := some 0 } }
     s.sc.busy = some 0 ∧ (0 : Nat) ≤ s.ref ∧ (s.port 0).lastPlane 0 = false) ∧
    ((hive 0 0).portSwarm 3 = none ∧ (hive 0 0).portSwarm 2 = some w ∧ (hive 0 0).ownIndex w = some 0 ∧ 0 ∈ w.members ∧ 0 ∉ w.leave ∧
      w.vt.toNat ≠ 6 ∧ w.vt.toNat = 7 % 65536) ∧
    (let v := wafers [0, 0x80000001] 7
     (hive 0 0).ownIndex v = some 0 ∧ 0 ∉ v.members) := by decide +kernel

def peer1 : Peer := Peer.fresh 1 0
def linked (f : Port → Port := id) : State := (hive 0 0).modPort 0 fun p => f { p with peers := [{ peer1 with rxNext := 9 }, Peer.fresh 4 0] }
def plainPkt (seq : BitVec 32) : Packet := ⟨.data, 1, 0, seq, false, 0, 0, 0, [1], 0, 0, 0⟩
theorem witness_OpticalPorts :
    (1 ∈ ((linked).port 0).valid ∧ ((linked).port 0).peers.map Peer.wid = [1, 4]) ∧
    (let r : Round := ⟨8, 0, [0, 1], [], 0⟩
     let s : State := { hive 0 0 with swarms := [(2, { wafers [0x80000000, 0x80000001] 7 with round := some r })] }
     (s.swarm 2).map Swarm.round = some (some r) ∧ (wafers [0x80000000, 0x80000001] 7).waferOf 1 = 1) ∧
    (let x := (linked).port 0
     (x.entry 0 5).v = true ∧ (x.entry 0 5).wid = (plainPkt 9).src ∧ x.peer (plainPkt 9).src = some { peer1 with rxNext := 9 } ∧
       (plainPkt 9).seq = 9 ∧ x.rxq.length < 64 ∧ ({ peer1 with rxNext := 9 } : Peer).window = [] ∧ 2 ^ 31 ≤ ((plainPkt 8).seq - 9).toNat ∧
       (x.entry 0 6).v = false) ∧
    (let s := linked fun p => { p with txq := [⟨1, 0, 0, 1, plainPkt 9, none, some 0⟩], peers := [{ peer1 with route := some [0] }] }
     ((s.port 0).txq = [⟨1, 0, 0, 1, plainPkt 9, none, some 0⟩]) ∧ 0 + 6250 ≤ ({ s with ref := 6250 } : State).ref ∧ (s.port 0).rotation 1 ≠ []) ∧
    (let q : Packet := { plainPkt 0 with kind := .atomicReq, reqno := 3 }
     let s := linked fun p => { p with atomIn := [q], peers := [{ peer1 with resp := some (3, 5) }], atomic := some ⟨1, 3, some 0, none⟩ }
     (s.port 0).atomIn = q :: [] ∧ (s.port 0).peer q.src = some { peer1 with resp := some (3, 5) } ∧ (s.port 0).scout.sram.wf = true ∧
       ((linked).port 0).peer 1 = some { peer1 with rxNext := 9 } ∧ peer1.resp = none ∧
       (s.port 0).atomic = some ⟨1, 3, some 0, none⟩ ∧ 0 + 37500 ≤ ({ s with ref := 37500 } : State).ref) := by decide +kernel

theorem witness_SwarmViews :
    (let c : Swarm := { wafers [0x80000000, 0x80000001] 7 with lvl := false }
     let s : State := { State.reset with swarms := [(2, c)] }
     s.swarm 2 = some c ∧ c.v = true ∧ c.lvl = false) ∧
    (let w := { wafers [0x80000000, 0x80000001] 7 with acked := 7 }
     let s : State := { hive 0 0 with swarms := [(2, w)] }
     s.swarm 2 = some w ∧ w.lvl = true ∧ s.ownIndex w = some 0 ∧ (s.roundSet w 2).head? = some 0 ∧ older16 w.acked 8 = true ∧
       older16 w.vt 8 = true ∧ 0 ∈ [0, 1] ∧ s.mayAck w 2 [0, 1] = true ∧ older16 w.acked 7 = false) ∧
    (let r : Round := ⟨8, 0, [0, 1], [], 0⟩
     let w := { wafers [0x80000000, 0x80000001] 7 with round := some r }
     let s : State := { hive 0 0 with swarms := [(2, w)] }
     s.ownIndex w = some 0 ∧ w.round = some r ∧ r.set.head? = some 0 ∧ 1 ∈ r.set ∧
       w.roster.findIdx? (fun e => e.setWidth 16 == (1 : BitVec 16)) = some 1 ∧ (∀ j ∈ r.set, j = 0 ∨ j = 1)) ∧
    (let w := wafers [0x80000000, 0x80000001, 0x00000002] 7
     let v : ViewSlot := ⟨true, true, false, false, true, false, 2, 7, 0, 1, 0⟩
     let s : State := { hive 0 0 with tiles := [(0, { Tile.reset with views := [v] })] }
     s.swarm 2 = some w ∧ older16 w.vt 8 = true ∧ s.membersMove w = false ∧ s.hold = false ∧ (s.tile (w.tileOf 0)).viewSlot 2 = some v ∧ 2 < w.roster.length ∧
       w.roster.findIdx? (fun e => e.setWidth 16 == (2 : BitVec 16)) = some 2 ∧ 2 ∉ w.members ∧
       ({ s with hold := true } : State).membersMove w = false ∧ (s.modTile 0 fun t => { t with mig := some 0 }).membersMove w = true) := by
  decide +kernel

/-! ### Witnesses: faults, pre-emption, repair, pages -/

def faulting : State := ctxWith fun c => { c with st := .active, trapv := 0x1000, faults := vset c.faults 1 (some ⟨⟨5, 6, 7⟩, 3⟩) }
def trap : VcTrap := ⟨2, 6, 7, true, false, false, true, [⟨some 3, 0, 1⟩]⟩
/-- Context 0 stands at WAITC C3, which a trap names. -/
def viewTrap : State := { ctxWith fun c => { c with st := .active, trapv := 0x1000, hlimit := 0x100000, vcTraps := [trap] } with
  heap := Memory.writeN [] 0 (leBytes 4 (encode (.waitc 3 1))) }
def launch5 : Launch := { (launchRec (List.replicate 64 0) 9 0 0) with lid := 5, handle := 7, ex := 1, ey := 1, tasks := [(0, 0x80)] }
def stoppedTask : State := { ctxWith fun c => { c with st := .stopped, lid := some 5 } with launches := [launch5] }
theorem witness_FaultsDeliverAndRecord :
    (let x := faulting.ctx 0 0
     x.st = .active ∧ x.it = false ∧ x.itClear = false ∧ x.trapv ≠ 0 ∧ x.oldestFault = some 1 ∧ x.faults[(1 : Fin 3)] = some ⟨⟨5, 6, 7⟩, 3⟩) ∧
    (let x := viewTrap.ctx 0 0
     x.st = .active ∧ x.it = false ∧ x.itClear = false ∧ x.trapv ≠ 0 ∧ x.oldestFault = none ∧
       (viewTrap.heldAt (viewTrap.tile 0) 0).bind x.vcPending = some trap) ∧
    (let x := stoppedTask.ctx 0 0
     let u := stoppedTask.queue 9
     stoppedTask.memOk = true ∧ stoppedTask.fw.gap = false ∧ x.st = .stopped ∧ x.lid = some 5 ∧ stoppedTask.launchOf 5 = some launch5 ∧
       x.faults = Vector.replicate 3 none ∧ x.late = [] ∧ (u.fcnt - u.fread).toNat < 2 ^ u.flsz.toNat) ∧
    (let s := stoppedTask.modCtx 0 0 fun c => { c with st := .halted, late := [⟨5, 6, 7⟩] }
     let x := s.ctx 0 0
     s.memOk = true ∧ s.fw.gap = false ∧ x.st = .halted ∧ x.lid = some 5 ∧ s.launchOf 5 = some launch5 ∧
       x.faults = Vector.replicate 3 none ∧ x.late = [⟨5, 6, 7⟩]) := by decide +kernel

def saving (st : CtxState) (f : Tile → Tile := id) (r : Restore := .saved) : State :=
  { tileWith fun t => (f t).modCtx 0 fun c => { c with st := st, preReq := some (3, false) } with
    saves := [{ SaveArea.fresh 0 0 false with restore := r }] }
theorem witness_PreemptionSavesAndRestores :
    (((ctxWith fun c => { c with st := .active }).ctx 0 0).st = .active ∧ ((ctxWith fun c => { c with st := .active }).ctx 0 0).preReq = none) ∧
    (((saving .active).ctx 0 0).st = .active ∧ ((saving .active).ctx 0 0).preReq.isSome = true) ∧
    (let s := saving .draining fun t => { t with mxq := [mx 1 .yes .wswap none] }
     (s.ctx 0 0).st = .draining ∧ (s.tile 0).mxq ≠ [] ∧ s.areaOf 0 0 = some (SaveArea.fresh 0 0 false)) ∧
    ((∃ i : Fin 16, fullMask.getLsbD (40 + i.val) = true) ∧ ∃ i : Fin 64, fullMask.getLsbD (88 + i.val) = true) ∧
    (((saving .out).ctx 0 0).st = .out ∧ (saving .out).areaOf 0 0 = some (SaveArea.fresh 0 0 false)) ∧
    (let s := saving .out (r := .written)
     let a : SaveArea := { SaveArea.fresh 0 0 false with restore := .written }
     (s.ctx 0 0).st = .out ∧ s.areaOf 0 0 = some a ∧ (s.tile 0).roomFor a = true ∧ (s.tile 0).mig = none) := by decide +kernel
theorem witness_PreemptionSavesAndRestores_bytes :
    (let a : SaveArea := { SaveArea.fresh 0 0 false with place := some 0x7000 }
     let s : State := { saving .draining with saves := [a] }
     (s.ctx 0 0).st = .draining ∧ s.areaOf 0 0 = some a ∧ a.place = some 0x7000 ∧ s.memOk = true) ∧
    (let b : SaveArea := { SaveArea.fresh 0 0 false with restore := .writing [(65408, 7), (65535, 9)], accs := [(63, Tile.reset.acm[63])],
                                                         prec := some 5 }
     let s : State := { saving .out with saves := [b] }
     s.saves = [b] ∧ (s.tile 0).portBusy = false ∧ (s.tile 0).frozen = false ∧ (s.tile 0).locked s.now [65408, 65535] = false ∧
       (s.tile 0).spm.wf = true ∧ (65408 : Nat) / 128 = 65535 / 128) := by decide +kernel
def wholeHeap : State := { saving .active with
  roots := [], saves := [], launches := [{ launch5 with desc := { launch5.desc with hbase := 0, hlimit := 0xFFFFFFFFFFFF, hoffset := 0 } }] }
theorem saveSpace_none {s : State} {t : TileId} {c : Fin 4} (h : s.heldSpans = [(0, 2 ^ 48 - 1)]) (hs : s.heapStack (s.ctx t c) = 0) :
    s.saveSpace t c = none := by
  simp only [State.saveSpace, h, hs, saveMax, ite_eq_left_iff, reduceCtorEq, imp_false, not_not]
  refine .inr ?_
  simp only [List.any_cons, List.any_nil, Bool.or_false, Bool.and_eq_true, decide_eq_true_eq]
  omega
theorem saveSpace_some {s : State} {t : TileId} {c : Fin 4} (h : s.heldSpans = []) (hf : Config.choice s.free % 2 ≠ 1) :
    ∃ pa, s.saveSpace t c = some pa := ⟨_, by rw [State.saveSpace, if_neg (by simp [h, hf])]⟩
/-- A window over the whole heap leaves no room; with no launch, room is a free value (log 39). -/
theorem witness_PreemptionSavesAndRestores_space :
    ((wholeHeap.ctx 0 0).st = .active ∧ (wholeHeap.ctx 0 0).preReq.isSome = true ∧ wholeHeap.saveSpace 0 0 = none) ∧
    (Config.choice (saving .active).free % 2 ≠ 1 → ∃ pa, (saving .active).saveSpace 0 0 = some pa) :=
  ⟨⟨by decide +kernel, by decide +kernel, saveSpace_none (by decide +kernel) (by decide +kernel)⟩, saveSpace_some (by decide +kernel)⟩

def moving (assist : Bool) (goal : Option (Nat × Nat) := none) (placed : Option Nat := none) : State := { tileWith fun t => { t with mig := some 0, tmMiss := some (1, 3) }.modCtx 0 fun c => { c with st := .frozen } with
  now := 3, migrations := [⟨0, 0, assist, none, some 0, some 0, goal, [], placed⟩], broadcasts := [(0, 3, 9), (1, 3, 9)] }
theorem insertBy_ne_nil {α : Type} (le : α → α → Bool) (x : α) (l : List α) : insertBy le x l ≠ [] := by
  cases l <;> simp [insertBy]; split <;> simp
theorem sortBy_ne_nil {α : Type} (le : α → α → Bool) {l : List α} (h : l ≠ []) : sortBy le l ≠ [] := by
  obtain ⟨x, l, rfl⟩ := List.exists_cons_of_ne_nil h
  suffices ∀ (l acc : List α), acc ≠ [] → l.foldl (fun acc x => insertBy le x acc) acc ≠ [] by
    exact this l _ (insertBy_ne_nil le x [])
  intro l; induction l with
  | nil => exact fun _ h => h
  | cons y l ih => exact fun acc _ => ih _ (insertBy_ne_nil le y acc)
theorem mem_insertBy {α : Type} (le : α → α → Bool) (x y : α) (l : List α) : y ∈ insertBy le x l → y = x ∨ y ∈ l := by
  induction l with
  | nil => simp [insertBy]
  | cons z l ih =>
    unfold insertBy; split
    · intro h
      rcases List.mem_cons.1 h with rfl | h
      · exact .inr (List.mem_cons_self ..)
      · exact (ih h).imp_right (List.mem_cons_of_mem _)
    · exact fun h => List.mem_cons.1 h
theorem mem_sortBy {α : Type} (le : α → α → Bool) (y : α) (l : List α) (h : y ∈ sortBy le l) : y ∈ l := by
  suffices ∀ (l acc : List α), y ∈ l.foldl (fun acc x => insertBy le x acc) acc → y ∈ acc ∨ y ∈ l from (this l [] h).resolve_left (by simp)
  intro l; induction l with
  | nil => exact fun _ h => .inl h
  | cons x l ih =>
    intro acc h
    rcases ih _ h with h | h
    · rcases mem_insertBy le x y acc h with rfl | h
      · exact .inr (List.mem_cons_self ..)
      · exact .inl h
    · exact .inr (List.mem_cons_of_mem _ h)
theorem moving_brood : ∃ q p, (moving false).pickBrood 0 none = some (q, p) := by
  have hp : (moving false).place 0 = (0, 0) := by decide +kernel
  have hm : ((50, 0) : Nat × Nat) ∈ (moving false).brood 0 := by
    simp only [State.brood, hp, List.mem_filter, List.mem_flatMap, List.mem_map, List.mem_range]
    exact ⟨⟨0, by decide, 50, by decide, rfl⟩, by decide +kernel⟩
  have hn := sortBy_ne_nil (broodLe ((moving false).place 0)) (List.ne_nil_of_mem hm)
  obtain ⟨q, l, hq⟩ := List.exists_cons_of_ne_nil hn
  have free : ∀ g, (moving false).freeTrack g = some 0 := fun g => rfl
  have all : ∀ p : List TrackSeg, (moving false).pathTracks p = some (p.map fun g => (g, 0)) := fun p => by
    induction p with
    | nil => rfl
    | cons g p ih =>
      simp only [State.pathTracks, free, Option.map_some] at ih
      simp [State.pathTracks, List.mapM_cons, free, ih]
  have hpath : ∃ p, (moving false).movePath 0 q = some p := by simp [State.movePath, relayPaths, all]
  obtain ⟨p, hpath⟩ := hpath
  exact ⟨q, p, by simp [State.pickBrood, hq, hpath]⟩
theorem witness_TilesMigrateAndFail :
    (let s : State := { ctxWith id with ctl := { Control.reset with assist := 4 } }
     ((ctxWith id).mapEntry 0).st = 0 ∧ (ctxWith id).migrations = [] ∧ (ctxWith id).assisted fnMigrate = false ∧
       (s.mapEntry 0).st = 0 ∧ s.assisted fnMigrate = true) ∧
    (∃ m ∈ (moving true).migrations, m.tile = 0 ∧ m.awaiting = true) ∧ ((moving false).tile 0).mig.isSome = true ∧
    ((moving false).migrations = [⟨0, 0, false, none, some 0, some 0, none, [], none⟩] ∧ (∃ q p, (moving false).pickBrood 0 none = some (q, p)) ∧
      (∀ w ∈ ((moving false (some (50, 0))).tile 0).upsets, w.ue = false) ∧
      (moving false (some (50, 0))).migrations = [⟨0, 0, false, none, some 0, some 0, some (50, 0), [], none⟩] ∧
      (moving false (some (50, 0)) (some 2)).migrations = [⟨0, 0, false, none, some 0, some 0, some (50, 0), [], some 2⟩] ∧
      2 < (moving false (some (50, 0)) (some 2)).now) ∧
    ((ctxWith id).mapEntry 0).st ≠ 2 ∧ (∀ e ∈ (ctxWith id).tiles, e.2.routes = [] ∧ e.2.tmc = []) ∧
    ((moving false).broadcasts.filter fun b => b.1 == 0 && decide (b.2.1 ≤ (moving false).now)) = [(0, 3, 9)] ∧
    (((moving false).tile 0).tmMiss = some (1, 3) ∧ (3 : Nat) ≤ (moving false).now ∧ 1 < 512 * 512 ∧
      ∀ b ∈ ({ moving false with broadcasts := [(1, 3, 9)] } : State).broadcasts, b.1 ≠ 0) :=
  ⟨by decide +kernel, by decide +kernel, by decide +kernel, ⟨rfl, moving_brood, by decide +kernel, rfl, rfl, by decide +kernel⟩, by decide +kernel, by decide +kernel, by decide +kernel, by decide +kernel⟩

/-- Launch 1 has its root at 2^20; the first level's entry 0 is a 2 GiB leaf on frame 0, all permissions, resident. -/
def paged (moves : List PageMove) : State := { ctxWith id with
  roots := [(1, 2 ^ 20)], pageReqs := [(1, 0x1000, 0)], moves := moves, heap := Memory.writeN [] (2 ^ 20) (leBytes 8 0x1DB) }
def move1 : PageMove := ⟨1, 0, 2 ^ 20, 0, 2 ^ 31, 0, 4096, 0, []⟩
theorem witness_PagesServedAndMoved :
    ((paged []).memOk = true ∧ (∃ r ∈ (paged []).pageReqs, r.1 = (1 : BitVec 16).toNat ∧ r.2.1 = 0x1000) ∧
      (paged []).asking fnPage (pageBody 1 0x1000) = false ∧ (paged []).assisted fnPage = false ∧
      (paged []).leafOf (1 : BitVec 16).toNat (0x1000 : VAddr).toNat = some (2 ^ 20)) ∧
    leafXlate ((paged []).pte (2 ^ 20)) (3 - (paged []).pte (2 ^ 20) / 4 % 4) 0x1000 = .ok 0x1000 0 (2 ^ 31) 0 true true true true 0 false false ∧
    (paged [move1]).moves.find? (fun n => n.ready (paged [move1])) = some move1 ∧
    (2 ^ 20 < move1.stack.val * 2 ^ 36 + move1.frame.toNat * 2 ^ 19 + 0 ∧ 0 < move1.size) := by decide +kernel

/-! ### Witnesses: the host's queues, launches, firmware, the machine as a whole -/

/-- Slot 0 holds queue 9, whose next record, of index n, is r; files and pages that records name lie at 2^12 of host memory. -/
def recs (r : List Byte) (n : Nat := 0) (file : List Byte := []) (f : State → State := id) : State :=
  f { tileWith id with
    queues := [(9, { UserQueue.reset with en := true, lsz := 4, flsz := 4, qst := .mapped, started := BitVec.ofNat 32 n, qtail := BitVec.ofNat 32 (n + 1) })]
    slots := vset (Vector.replicate 32 ⟨none, 0, 0, none, none⟩) 0 ⟨some 9, 0, 0, none, none⟩
    host := (Memory.writeN [] (64 * n) r).writeN 4096 file }
/-- A record from its fields: offset, bytes, value. -/
def rec_ (fs : List (Nat × Nat × Nat)) : List Byte :=
  (List.range 64).map fun i => BitVec.ofNat 8
    ((fs.filter fun f => inSpan i f.1 f.2.1).map fun f => f.2.2 / 2 ^ (8 * (i - f.1))).sum
/-- An image of one code section of one bundle for every tile. -/
def file1 : List Byte :=
  leBytes 64 ((0x314D4943 : Nat) + 1 * 2 ^ 32 + 1 * 2 ^ 96 + 64 * 2 ^ 128 + 128 * 2 ^ 192) ++
  leBytes 32 (1 + 0xFFFF * 2 ^ 64 + 96 * 2 ^ 192 + 32 * 2 ^ 224) ++ List.replicate 32 1
def img7 : Image := ⟨7, 0, 1, sectionsOf file1⟩
def heapOk : Nat × Nat × Nat := (38, 6, 2 ^ 20)
def copyRec (flags hlimit len : Nat) : List Byte := rec_ [(0, 1, 5), (1, 1, flags), (8, 8, 4096), (24, 4, len), (38, 6, hlimit)]
def launchRec7 : List Byte := rec_ [(0, 1, 2), (8, 4, 7), (16, 2, 1), (18, 2, 1), heapOk]
def loadRec (handle : Nat) : List Byte := rec_ [(0, 1, 1), (8, 8, 4096), (16, 4, 128), (20, 2, handle), heapOk]
/-- The head record of slot 0 is r, and its first bad field is b. -/
def headIs (s : State) (n : Nat) (r : List Byte) (b : Option Nat) : Bool := s.memOk && s.headRecord 0 == some (9, n, r) && badField r == b
def idleQ (f : UserQueue → UserQueue) : State := { tileWith id with queues := [(9, f { UserQueue.reset with lsz := 4, flsz := 16 })] }
theorem witness_QueuesAndSlots :
    (let s := idleQ fun u => { u with en := true }
     let u := s.queue 9
     u.en = true ∧ ((16 : Word) - u.qtail).toNat ≠ 0 ∧ ((16 : Word) - u.qtail).toNat < 2 ^ 31 ∧ ((16 : Word) - u.qhead).toNat ≤ 2 ^ u.lsz.toNat ∧
       u.qst = .idle ∧ 9 ∉ s.unmapped ∧ 2 ^ u.lsz.toNat < ((17 : Word) - u.qhead).toNat ∧ ((17 : Word) - u.qtail).toNat < 2 ^ 31) ∧
    (let s : State := { idleQ id with pendingQ := [9] }
     s.pendingQ = 9 :: [] ∧ s.slots[(31 : Fin 32)].queue = none) ∧ (recs []).slots[(0 : Fin 32)].queue = some 9 ∧
    (∀ n ∈ [5, 2 ^ 20], let s : State := { recs [] with now := n, slots := vset (recs []).slots 0 ⟨some 9, 0, 0, some 0, none⟩ }
      s.slots[(0 : Fin 32)].queue = some 9 ∧ s.slots[(0 : Fin 32)].blockedAt = some 0 ∧ (0 + 2 ^ 20 ≤ s.now ↔ n = 2 ^ 20)) ∧
    (let u := (idleQ id).queue 9
     u.en = false ∧ 4 ≤ u.lsz.toNat ∧ u.lsz.toNat ≤ 16 ∧ 4 ≤ u.flsz.toNat ∧ u.flsz.toNat ≤ 16) ∧
    (let u := (idleQ fun u => { u with en := true, qhead := 5, qtail := 5 }).queue 9
     u.en = true ∧ u.qhead = u.qtail) := by decide +kernel
theorem witness_RecordsRun :
    (headIs (recs (rec_ [])) 0 (rec_ []) (some 0) && headIs (recs (rec_ [(0, 1, 3)])) 0 (rec_ [(0, 1, 3)]) none &&
      headIs (recs (rec_ [(0, 1, 4), (16, 8, 5)])) 0 (rec_ [(0, 1, 4), (16, 8, 5)]) none &&
      headIs (recs (rec_ [(0, 1, 6)]) 1) 1 (rec_ [(0, 1, 6)]) none && headIs (recs (copyRec 0 0 0)) 0 (copyRec 0 0 0) none &&
      headIs (recs (copyRec 2 0 16)) 0 (copyRec 2 0 16) none && headIs (recs (loadRec 0)) 0 (loadRec 0) none &&
      headIs (recs (loadRec 7) 0 file1) 0 (loadRec 7) none) = true ∧
    (((0 : BitVec 64) - BitVec.ofNat 64 0).toNat < 2 ^ 63 ∧ ¬ ((0 : BitVec 64) - BitVec.ofNat 64 1).toNat < 2 ^ 63) ∧
    (((recs (rec_ [(0, 1, 6)])).queue 9).qhead.toNat = 0 ∧ ((recs (rec_ [(0, 1, 6)]) 1).queue 9).qhead.toNat ≠ 1 ∧ (recs []).hold = false ∧
      (recs []).fw.gap = false) ∧
    (∃ pas, (recs (copyRec 2 (2 ^ 20) 2)).recSpan (descOf (copyRec 2 (2 ^ 20) 2)) .read 0 2 = .ok pas) ∧
    (∃ pas, (recs (copyRec 0 (2 ^ 20) 2)).recSpan (descOf (copyRec 0 (2 ^ 20) 2)) .write 0 2 = .ok pas) ∧
    (∃ rsn, (recs (copyRec 0 0 2)).recSpan (descOf (copyRec 0 0 2)) .write 0 2 = .error rsn) ∧
    (∃ l ∈ (recs (loadRec 7) 0 file1 fun s => { s with launches := [launch5] }).launches, l.handle = 7) ∧
    ((∀ l ∈ (recs (loadRec 7) 0 file1).launches, l.handle ≠ 7) ∧ (recs (loadRec 7) 0 file1).hostRead 4096 128 = file1 ∧ badFile file1 = none ∧
      (recs (loadRec 7) 0 file1).badImage (sectionsOf file1) = none ∧
      ∃ ws, (recs (loadRec 7) 0 file1).sectionWrites (descOf (loadRec 7)) (sectionsOf file1) = .ok ws) :=
  ⟨by decide +kernel, by decide +kernel, by decide +kernel, ⟨_, rfl⟩, ⟨_, rfl⟩, ⟨_, rfl⟩, by decide +kernel, by decide +kernel, by decide +kernel,
    by decide +kernel, by decide +kernel, _, rfl⟩

def launching (img : List Image) : State := recs launchRec7 0 [] fun s => { s with images := img }
def running (c : CtxState) (st : LaunchState) : State :=
  { ctxWith fun x => { x with st := c, lid := some 5 } with launches := [{ launch5 with st := st }], images := [img7] }
theorem witness_LaunchesRun :
    (∀ img ∈ [[], [{ img7 with ready := 9 }], [img7]], headIs (launching img) 0 launchRec7 none = true ∧ (launching img).hold = false ∧
      (launching img).parseWaits 9 0 launchRec7 = false ∧ (launching img).parseRefused 9 0 launchRec7 = false) ∧
    ((launching []).imageOf 7 = none ∧ (launching [{ img7 with ready := 9 }]).launchCheck (launchRec launchRec7 9 0 0) = .wait ∧
      (launching [img7]).launchCheck (launchRec launchRec7 9 0 0) = .admitJob img7 ∧
      (launching []).launchCheck (launchRec launchRec7 9 0 0) = .done 4 0) ∧
    (launching [img7]).launchHeads = [(0, launchRec launchRec7 9 0 0)] ∧
    (let s := running .free .admitted
     s.launchOf 5 = some launch5 ∧ s.imageOf 7 = some img7 ∧ ((launch5.rect s.fuses.gx s.fuses.gy).map Prod.fst).Nodup ∧
       (0, 0, 0) ∈ launch5.rect s.fuses.gx s.fuses.gy ∧ launch5.sections img7 0 0 0 ≠ [] ∧ s.isAbsent 0 = false ∧ launch5.tasks.find? (fun y => y.1 == 0) = some (0, 0x80)) ∧
    (let s := running .halted .running
     let l : Launch := { launch5 with st := .running }
     s.memOk = true ∧ s.launchOf 5 = some l ∧ s.launchDone l = true ∧ s.fw.gap = false ∧ l.nfault = 0 ∧ l.dropped = false ∧
       (0, 0x80) ∈ l.tasks ∧ (s.ctx 0 l.ctx).lid = some l.lid ∧ s.isAbsent 0 = false) := by decide +kernel

theorem witness_TimelinesAdvance : let d : Delivery := ⟨0, 1023, 5, 3⟩
    (let s : State := { ctxWith id with now := 3, deliveries := [d, ⟨0, 4, 5, 4⟩], advances := [⟨7, 5, 3, none⟩, ⟨7, 6, 4, none⟩] }
     (s.deliveries.filter fun e => e.tile == 0 && decide (e.due ≤ s.now)) = [d] ∧ (∃ a ∈ s.advances, a.due ≤ s.now ∧ a.tl = 7)) ∧
    (∀ v ∈ [0, 1], let s := recs (rec_ [(0, 1, 3), (16, 8, v)]) 0 [] fun s => s.modQueue 9 fun u => { u with qst := .blocked }
      (s.queue 9).qst = .blocked ∧ s.unblocked 9 = decide (v = 0)) := by decide +kernel

def host1 (fn : Byte) (f : State → State := id) : State := f { tileWith fun t => { t with bufs := vset t.bufs 3 plain } with
  now := 2 ^ 24, ctl := { Control.reset with rpldata := 1 :: List.replicate 15 0 }, assists := [⟨fn, 6, [4, 0, 0, 0, 0, 0, 0, 0], 0, true, none⟩] }
theorem witness_HostAccesses :
    (¬ ((host1 4).inGrid (450 * 2 ^ 25 / 2 ^ 25 % 512) 0 = true ∧ (host1 4).isAbsent (mkTile 450 0) = false)) ∧
    (let s := host1 4
     let x := s.tile 0
     (s.inGrid 0 0 = true ∧ s.isAbsent (mkTile 0 0) = false) ∧ s.memOk = true ∧ s.hold = false ∧ s.hostHeld = [] ∧ s.bar2Got = [] ∧
       x.portBusy = false ∧ x.mig = none ∧ x.lock = none ∧ x.upsets = [] ∧
       s.copyPresses x = false ∧ x.publishing = [] ∧ (∀ k : Fin 32, x.bufs[k].v = false ∨ (x.bufs[k].rd = 0 ∧ x.bufs[k].wr ≠ 15)) ∧ x.combTarget 0x10 = some (3, 0x10) ∧
       x.bufs[(3 : Fin 32)].shadow + 0x10 < 65536 ∧ x.combTarget 0x8000 = none) ∧
    (∀ fn ∈ [2, 4], let q : AssistReq := ⟨fn, 6, [4, 0, 0, 0, 0, 0, 0, 0], 0, true, none⟩
      (host1 fn).assists.find? (fun r => r.num == 6 && r.posted && r.answer.isNone) = some q ∧ (host1 fn).ctl.rpldata.headD 0 = 1 ∧
        (host1 fn).fw.gap = false ∧ (host1 fn).assists = [q] ∧ q.fn = fn ∧ q.answer = none ∧ q.tick + 2 ^ 24 ≤ (host1 fn).now) := by decide +kernel

theorem witness_FirmwareReplaced :
    ((let f : Firmware := { Firmware.reset with banks := Vector.replicate 4 (some []) }
      ∀ n : Bool, (f.image (bankIdx n (!f.active n))).wf = true) ∧ (1 < State.reset.fw.updoff.toNat + 5 ∨ State.reset.fw.updoff.toNat + 5 + 2 ≤ 1)) ∧
    State.reset.fw.updating = false ∧ State.reset.fw.gap = false ∧
    ({ Firmware.reset with updating := true, watchdog := some (9, none) } : Firmware).gap = true ∧
    (∀ w ∈ [none, some 0, some 5], ({ Firmware.reset with updating := true, watchdog := some (9, w) } : Firmware).watchdog = some (9, w)) ∧
    ((0 : Fin 6).val < 5 ∧ (5 : Fin 6).val = 5) ∧ State.reset.ref < 9 ∧ 9 ≤ ({ State.reset with ref := 9 } : State).ref := by decide +kernel

theorem witness_BootResetAndPower :
    State.reset.stage = .power ∧ (∃ x ∈ ({ State.reset with tsensf := [20, 105] } : State).tsensf, 105 ≤ x) ∧ State.reset.hold = false ∧
    (({ State.reset with hold := true } : State).hold = true ∧ ∀ x ∈ State.reset.tsensf, x < 100) ∧
    (∃ x ∈ ({ State.reset with tsensf := [99, 100] } : State).tsensf, 100 ≤ x) := by decide +kernel

theorem witness_RoundTrip : (Instr.mma 200 3 1 .dacc 1 false).wellFormed = true := by decide +kernel
theorem witness_MemoriesStayCanonical : let s : State := { State.reset with agenda := [.ev .partReset], heap := [(5, 7)] }
    s.memOk = true ∧ ∃ t, step s = .next t := ⟨by decide +kernel, _, rfl⟩

def scoutMove (w : Word) (h : Option Nat) : State :=
  { scoutRegs 5 7 (fun k => { k with halted := h, sram := Memory.writeN [] 0 (leBytes 4 w.toNat) }) with agenda := [.scout 0] }
def scoutUp (w : Word) : State := State.portTick { scoutMove w none with agenda := [], curPort := 0 } 0
theorem witness_StepRunsInstruction :
    ((scoutMove 0 none).inputs = [] ∧ (scoutMove 0 none).agenda = .scout 0 :: []) ∧
    ((scoutUp 0x0C48FFFF).sc.halted = none ∧
      decodeScoutBytes ((scoutUp 0x0C48FFFF).sc.read (4 * (scoutUp 0x0C48FFFF).sc.pc) 4) = some (.saddi 1 2 0x0FFFF)) ∧
    ((scoutUp 0x04000001).sc.halted = none ∧
      decodeScoutBytes ((scoutUp 0x04000001).sc.read (4 * (scoutUp 0x04000001).sc.pc) 4) = none) ∧
    (let s := scoutMove 0 (some 0)
     (State.portTick { s with agenda := [], curPort := 0 } 0).sc.halted.isSome = true) ∧
    (let s : State := { ctxWith id with agenda := [.issue 0] }
     s.inputs = [] ∧ s.agenda = .issue 0 :: []) ∧
    (State.reset.inputs = [] ∧ State.reset.agenda = .ev .boot :: []) ∧
    (({ ctxWith id with inputs := [.hostWrite 0 []] } : State).inputs = .hostWrite 0 [] :: [] ∧ (ctxWith id).agenda = []) ∧
    ((ctxWith id).inputs = [] ∧ (ctxWith id).agenda = [] ∧ (ctxWith id).stage ≠ .failed ∧ ({ ctxWith id with stage := .failed } : State).stage = .failed) :=
  ⟨⟨rfl, rfl⟩, by decide +kernel, by decide +kernel, by decide +kernel, ⟨rfl, rfl⟩, ⟨rfl, rfl⟩, ⟨rfl, rfl⟩, rfl, rfl, by decide, rfl⟩

/-- Context 0 holds the issue width, and its bundle, eight empty slots, is in the code cache. -/
def issuing : State := tileWith fun t =>
  { t with arb := .run 0 0, icache := [⟨0, List.replicate 256 0, false, 0⟩] }.modCtx 0 fun c =>
    { c with st := .active, hlimit := 0x100000, readySince := some 0 }
theorem witness_BundlesIssue :
    (issuing.restoring 0 = none ∧ ((issuing.noteReady 0).tile 0).arb = .run 0 0 ∧ (0 : Nat) ≤ issuing.now ∧ ((issuing.noteReady 0).ctx 0 0).st = .active) ∧
    (let x := issuing.ctx 0 0
     let bs : List Byte := List.replicate 32 0
     let ws := (List.range 8).map (slotWord bs)
     x.pend = [] ∧ x.liveDue = none ∧ x.xfer = none ∧ x.oldestFault = none ∧ issuing.fetch (issuing.tile 0) 0 x.pc = .ok bs (List.range 32) ∧
       safeBit (ws.getD 0 0) = false ∧ illegalCause ws = none ∧
       (∃ i0, decodeCtl (ws.getD 0 0) = some i0 ∧ isWait i0 = false) ∧ issuing.issueCause ws = none ∧ issuing.issueWalk ws = none ∧
       issuing.bundleLoad ws ≤ 1 ∧ (issuing.tile 0).hold = none) ∧
    (∃ is : Fin 7 → Instr, let ws := (List.range 8).map (slotWord (List.replicate 32 0))
      (∀ k : Fin 7, decodeSlot (k.val + 1) (ws.getD (k.val + 1) 0) = some (is k) ∧ slotGuard (ws.getD (k.val + 1) 0) = 0) ∧
        captures (is 6) = none) := by
  refine ⟨by decide +kernel, ?_, ?_⟩
  · have h : (decodeCtl (((List.range 8).map (slotWord (List.replicate 32 0))).getD 0 0)).any (fun i => !isWait i) = true := by decide +kernel
    refine ⟨by decide +kernel, by decide +kernel, by decide +kernel, by decide +kernel, by decide +kernel, by decide +kernel, by decide +kernel, ?_,
      by decide +kernel, by decide +kernel, by decide +kernel, by decide +kernel⟩
    cases hd : decodeCtl (((List.range 8).map (slotWord (List.replicate 32 0))).getD 0 0) with
    | none => rw [hd] at h; cases h
    | some i => rw [hd] at h; exact ⟨i, rfl, by simpa using h⟩
  · refine ⟨fun k => (decodeSlot (k.val + 1) 0).getD .wswap, ?_, ?_⟩ <;> decide +kernel

end Sys2Proof.Tests
end

/-! The general statements of the scope: results at their latency, accesses that perform, boot and power, the issue of a bundle. -/

namespace Sys2Proof.Machine

/-! ### Results at their latency -/

/-- A commit comes from a later bundle than each of the pending ones, or from the same bundle and no lower slot. -/
def Commit.follows (x : Commit) (l : List Commit) : Prop := ∀ y ∈ l, y.tt < x.tt ∨ (y.tt = x.tt ∧ y.slot ≤ x.slot)

theorem Commit.before_of_follows {x y : Commit} {l : List Commit} (h : x.follows l) (hy : y ∈ l) :
    y.before x = decide (y.due ≤ x.due) := by
  have := h y hy
  rw [Bool.eq_iff_iff]
  simp only [Commit.before, Bool.or_eq_true, Bool.and_eq_true, decide_eq_true_eq]
  omega

theorem Commit.follows_tail {x y : Commit} {l : List Commit} (h : x.follows (y :: l)) : x.follows l :=
  fun z hz => h z (List.mem_cons_of_mem _ hz)

/-- By its due tick a commit comes after every result due by then (R49). -/
theorem takeWhile_insertCommit_due (x : Commit) (l : List Commit) (h : x.follows l) :
    (insertCommit x l).takeWhile (fun y => decide (y.due ≤ x.due)) = l.takeWhile (fun y => decide (y.due ≤ x.due)) ++ [x] := by
  induction l with
  | nil => simp [insertCommit]
  | cons y l ih =>
    by_cases hd : y.due ≤ x.due
    · simp [insertCommit, Commit.before_of_follows h (List.mem_cons_self ..), hd, ih (Commit.follows_tail h)]
    · simp [insertCommit, Commit.before_of_follows h (List.mem_cons_self ..), hd]

theorem dropWhile_insertCommit_due (x : Commit) (l : List Commit) (h : x.follows l) :
    (insertCommit x l).dropWhile (fun y => decide (y.due ≤ x.due)) = l.dropWhile fun y => decide (y.due ≤ x.due) := by
  induction l with
  | nil => simp [insertCommit]
  | cons y l ih =>
    by_cases hd : y.due ≤ x.due
    · simp [insertCommit, Commit.before_of_follows h (List.mem_cons_self ..), hd, ih (Commit.follows_tail h)]
    · simp [insertCommit, Commit.before_of_follows h (List.mem_cons_self ..), hd]

/-- Before its due tick a commit is not among the due ones (R4). -/
theorem takeWhile_insertCommit_early (x : Commit) (l : List Commit) (n : Nat) (h : x.follows l) (hn : n < x.due) :
    (insertCommit x l).takeWhile (fun y => decide (y.due ≤ n)) = l.takeWhile fun y => decide (y.due ≤ n) := by
  induction l with
  | nil => simp [insertCommit, hn]
  | cons y l ih =>
    by_cases hd : y.due ≤ x.due
    · simp [insertCommit, Commit.before_of_follows h (List.mem_cons_self ..), hd, List.takeWhile_cons, ih (Commit.follows_tail h)]
    · have : ¬ y.due ≤ n := by omega
      simp [insertCommit, Commit.before_of_follows h (List.mem_cons_self ..), hd, hn, this]

theorem Context.put_withPend (c : Context) (d : Dst) (l : List Commit) : { c with pend := l }.put d = { c.put d with pend := l } := by
  cases d with
  | m r v => simp only [Context.put]; split <;> rfl
  | p r v => simp only [Context.put]; split <;> rfl
  | s | a | v | stack | flags => rfl

theorem Context.foldl_put_withPend (xs : List Commit) (c : Context) (l : List Commit) :
    xs.foldl (fun c x => c.put x.dst) { c with pend := l } = { xs.foldl (fun c x => c.put x.dst) c with pend := l } := by
  induction xs generalizing c with
  | nil => rfl
  | cons x xs ih => simp only [List.foldl_cons, Context.put_withPend, ih]

/-- The results that are due take their places in order; the rest stays pending. -/
theorem Context.commitDue_eq (c : Context) (n : Nat) :
    c.commitDue n = { (c.pend.takeWhile fun x => decide (x.due ≤ n)).foldl (fun c x => c.put x.dst) c with
      pend := c.pend.dropWhile fun x => decide (x.due ≤ n) } := Context.foldl_put_withPend _ _ _

/-- At its due tick a result has taken its place, after every result due by then (R4, R49). -/
theorem Context.commitDue_push_due (c : Context) (x : Commit) (h : x.follows c.pend) :
    (c.push x).commitDue x.due = (c.commitDue x.due).put x.dst := by
  rw [Context.commitDue_eq, Context.commitDue_eq, Context.put_withPend]
  simp only [Context.push, takeWhile_insertCommit_due x c.pend h, dropWhile_insertCommit_due x c.pend h,
    List.foldl_append, List.foldl_cons, List.foldl_nil, Context.foldl_put_withPend, Context.put_withPend]

/-- Before its due tick every register file is as without it (R4). -/
theorem Context.commitDue_push_early (c : Context) (x : Commit) (n : Nat) (h : x.follows c.pend) (hn : n < x.due) :
    { (c.push x).commitDue n with pend := [] } = { c.commitDue n with pend := [] } := by
  rw [Context.commitDue_eq, Context.commitDue_eq]
  simp only [Context.push, takeWhile_insertCommit_early x c.pend n h hn, Context.foldl_put_withPend]

theorem State.regsAt_result (s : State) (lat : Nat) (d : Dst) (n : Nat) :
    (s.result lat d).regsAt n = (s.curCtx.push ⟨s.cur.tt + lat, s.cur.tt, s.cur.slot, d⟩).commitDue n := by
  rw [State.regsAt, State.result_ctx]

theorem State.tile_result_ne (s : State) (lat : Nat) (d : Dst) (t : TileId) (h : t ≠ s.cur.tile) :
    (s.result lat d).tile t = s.tile t := State.tile_modCtx_ne s _ _ h

theorem State.ctx_result_ne (s : State) (lat : Nat) (d : Dst) (c : Fin 4) (h : c ≠ s.cur.ctx) :
    (s.result lat d).ctx s.cur.tile c = s.ctx s.cur.tile c := State.ctx_modCtx_ne s _ (.inr h)

theorem State.curTile_result (s : State) (lat : Nat) (d : Dst) :
    { (s.result lat d).curTile with ctxs := s.curTile.ctxs } = s.curTile := by
  rw [show (s.result lat d).curTile = _ from s.curTile_modCur _]; rfl

/-- Settles O1: the pending list stays in commit order, so the results due at a tick are what they were, with the new one last from
its own tick on. -/
theorem resultsAtTheirLatency : Obligations.ResultsAtTheirLatency := by
  unfold Obligations.ResultsAtTheirLatency
  refine ⟨fun s lat d h => ?_, fun s lat d n h hn => ?_, fun s lat d => ?_, fun c b m => ?_⟩
  · rw [State.regsAt_result]; exact Context.commitDue_push_due s.curCtx ⟨s.cur.tt + lat, s.cur.tt, s.cur.slot, d⟩ h
  · rw [State.regsAt_result]; exact Context.commitDue_push_early s.curCtx ⟨s.cur.tt + lat, s.cur.tt, s.cur.slot, d⟩ n h hn
  · exact ⟨s.result_frame lat d, s.tile_result_ne lat d, s.ctx_result_ne lat d, by rw [State.result_ctx]; rfl, s.curTile_result lat d⟩
  · exact ⟨c.put_zero_p b, c.put_zero_m m, c.readP_zero, c.readM_zero⟩

/-! ### Bytes of words -/

@[simp] theorem length_leBytes (n v : Nat) : (leBytes n v).length = n := by
  induction n generalizing v with
  | zero => rfl
  | succ n ih => simp [leBytes, ih]

theorem getElem?_leBytes (n v k : Nat) (h : k < n) : (leBytes n v)[k]? = some (BitVec.ofNat 8 (v / 256 ^ k)) := by
  induction n generalizing v k with
  | zero => omega
  | succ n ih =>
    cases k with
    | zero => simp [leBytes]
    | succ k =>
      rw [leBytes, List.getElem?_cons_succ, ih _ _ (by omega), Nat.div_div_eq_div_mul, ← Nat.pow_succ']

theorem leNat_lt (bs : List Byte) : leNat bs < 256 ^ bs.length := by
  induction bs with
  | nil => simp [leNat]
  | cons b bs ih =>
    have := b.isLt
    simp only [leNat, List.length_cons, Nat.pow_succ]
    omega

theorem leWord_toNat (bs : List Byte) (h : bs.length ≤ 4) : (leWord bs).toNat = leNat bs := by
  have h1 := leNat_lt bs
  have h2 : 256 ^ bs.length ≤ 256 ^ 4 := Nat.pow_le_pow_right (by decide) h
  rw [leWord, BitVec.toNat_ofNat, Nat.mod_eq_of_lt (by omega)]

/-- Lists of equal length, one after another: element k of the i-th. -/
theorem getElem?_flatMap_const {α β : Type} (l : List α) (f : α → List β) (m i k : Nat) (hf : ∀ x, (f x).length = m) (hk : k < m) :
    (l.flatMap f)[m * i + k]? = l[i]?.bind fun x => (f x)[k]? := by
  induction l generalizing i with
  | nil => simp
  | cons x l ih =>
    rw [List.flatMap_cons]
    cases i with
    | zero => rw [List.getElem?_append_left (by simp [hf, hk])]; simp
    | succ i =>
      rw [List.getElem?_append_right (by rw [hf, Nat.mul_succ]; omega), hf,
        show m * (i + 1) + k - m = m * i + k by rw [Nat.mul_succ]; omega, ih, List.getElem?_cons_succ]

theorem length_bytesOfRow (r : Row) : (bytesOfRow r).length = 512 := by
  simp [bytesOfRow, List.length_flatMap]

theorem getElem?_bytesOfRow (r : Row) (n : Fin 128) (k : Nat) (hk : k < 4) :
    (bytesOfRow r)[4 * n.val + k]? = some (BitVec.ofNat 8 (r[n].toNat / 256 ^ k)) := by
  have hr : r.toList[n.val]? = some r[n] := by simp
  rw [bytesOfRow, getElem?_flatMap_const _ _ 4 n.val k (fun _ => length_leBytes ..) hk, hr, Option.bind_some, getElem?_leBytes _ _ _ hk]

/-- The word of n bytes that a scalar load gives: sign-extended where it is signed and its highest bit is set (R222). -/
theorem loadValue_eq (n : Nat) (sg : Bool) (bs : List Byte) (hn : n = 1 ∨ n = 2 ∨ n = 4) (hl : bs.length = n) :
    loadValue n sg bs = if sg = true ∧ 2 ^ (8 * n - 1) ≤ leNat bs then BitVec.ofInt 32 ((leNat bs : Int) - 2 ^ (8 * n))
      else BitVec.ofNat 32 (leNat bs) := by
  have hlt : leNat bs < 2 ^ (8 * n) := by
    have := leNat_lt bs
    rwa [hl, show (256 : Nat) = 2 ^ 8 from rfl, ← Nat.pow_mul] at this
  have h1 : 8 * n ≥ 1 := by omega
  cases sg with
  | false => simp [loadValue, leWord]
  | true =>
    simp only [loadValue, sext, Nat.mod_eq_of_lt hlt, h1, decide_true, Bool.true_and, decide_eq_true_eq, true_and, if_true]
    split
    · rfl
    · exact BitVec.ofInt_natCast ..

/-! ### The stages of a tick's accesses -/

/-- The reads that are due perform. -/
def Tile.performReads (t : Tile) (now : Nat) : Tile :=
  (t.reads.filter fun r => r.tick ≤ now).foldl (fun t r => t.performRead now r) { t with reads := t.reads.filter fun r => now < r.tick }
/-- The LDACCs that are due read their rows. -/
def Tile.performLdaccs (t : Tile) (now : Nat) : Tile :=
  (t.ldaccs.filter fun p => p.tick ≤ now).foldl (fun t p => t.performLdacc now p)
    { t with ldaccs := t.ldaccs.filter fun p => now < p.tick }
/-- The writes that are due perform, those of the ST slot first. -/
def Tile.performWrites (t : Tile) (now : Nat) : Tile :=
  let ws := t.writes.filter fun w => w.tick ≤ now
  (ws.filter fun w => w.lat ≠ 2).foldl Tile.performWrite
    ((ws.filter fun w => w.lat = 2).foldl Tile.performWrite { t with writes := t.writes.filter fun w => now < w.tick })
/-- Captures that no load can need any more fall out. -/
def Tile.pruneHists (t : Tile) : Tile := { t with ctxs := t.ctxs.map Context.pruneHist }

/-- Reads, LDACC row reads, writes (R180). -/
theorem Tile.perform_eq (t : Tile) (now : Nat) :
    t.perform now = (((t.performReads now).performLdaccs now).performWrites now).pruneHists := rfl

theorem Tile.performReads_none (t : Tile) (now : Nat) (h : t.reads = []) : t.performReads now = t := by
  simp only [Tile.performReads, h, List.filter_nil, List.foldl_nil]
  rw [← h]
theorem Tile.performReads_one (t : Tile) (now : Nat) (r : PendRead) (h : t.reads = [r]) (hr : r.tick ≤ now) :
    t.performReads now = { t with reads := [] }.performRead now r := by
  simp [Tile.performReads, h, hr]
theorem Tile.performLdaccs_none (t : Tile) (now : Nat) (h : t.ldaccs = []) : t.performLdaccs now = t := by
  simp only [Tile.performLdaccs, h, List.filter_nil, List.foldl_nil]
  rw [← h]
theorem Tile.performLdaccs_one (t : Tile) (now : Nat) (p : PendLdacc) (h : t.ldaccs = [p]) (hp : p.tick ≤ now) :
    t.performLdaccs now = { t with ldaccs := [] }.performLdacc now p := by
  simp [Tile.performLdaccs, h, hp]
/-- Writes whose tick has not come stay. -/
theorem Tile.performWrites_later (t : Tile) (now : Nat) (h : ∀ w ∈ t.writes, now < w.tick) : t.performWrites now = t := by
  have h1 : t.writes.filter (fun w => decide (w.tick ≤ now)) = [] := by simpa using h
  have h2 : t.writes.filter (fun w => decide (now < w.tick)) = t.writes := by simpa using h
  simp only [Tile.performWrites, h1, h2, List.filter_nil, List.foldl_nil]
theorem Tile.performWrites_one (t : Tile) (now : Nat) (w : PendWrite) (h : t.writes = [w]) (hw : w.tick ≤ now) :
    t.performWrites now = { t with writes := [] }.performWrite w := by
  by_cases hl : w.lat = 2 <;> simp [Tile.performWrites, h, hw, hl]

/-- The context's pending results do not depend on its captures. -/
theorem Tile.pruneHists_pend (t : Tile) (c : Fin 4) : (t.pruneHists.ctx c).pend = (t.ctx c).pend := by
  simp [Tile.pruneHists, Tile.ctx, Context.pruneHist]

/-! ### Accesses of memories without upsets -/

theorem Tile.place_plain (t : Tile) (b : SlotByte) (h : b.buf = none) : t.place b = b.addr := by simp [Tile.place, h]

theorem Tile.upsetWords_clean (t : Tile) (m : Fin 4) (b : Bool) (ws : List Nat) (h : t.upsets = []) : t.upsetWords m b ws = [] := by
  simp [Tile.upsetWords, h]

theorem Tile.loadReads_clean (t : Tile) (c : Fin 4) (m : Fin 4) (ws : List Nat) (due tt slot : Nat) (h : t.upsets = []) :
    t.loadReads c m ws due tt slot = t := by
  simp [Tile.loadReads, Tile.noteReads, t.upsetWords_clean m _ ws h]

theorem Tile.accEntries_clean (t : Tile) (row : Fin 64) (e : Row) (h : t.upsets = []) : t.accEntries row e = e := by
  simp [Tile.accEntries, h]

theorem Tile.clearUpsets_clean (t : Tile) (m : Fin 4) (ws : List Nat) (h : t.upsets = []) : t.clearUpsets m ws = t := by
  simp [Tile.clearUpsets, h]

/-- A load whose context has captured nothing returns the bytes of the end of the previous tick (R51). -/
theorem Tile.loadByte_clean (t : Tile) (c : Fin 4) (l a : Nat) (hu : t.upsets = []) (hh : (t.ctx c).hist = []) :
    t.loadByte c l a = t.spmPrev.read a := by
  simp [Tile.loadByte, Context.captured, hh, Tile.upset, hu]

theorem Tile.loadBytes_plain (t : Tile) (r : PendRead) (hu : t.upsets = []) (hh : (t.ctx r.ctx).hist = [])
    (hb : ∀ b ∈ r.bytes, b.buf = none) :
    (r.bytes.map t.place).map (t.loadByte r.ctx r.tt) = r.bytes.map fun b => t.spmPrev.read b.addr := by
  rw [List.map_map]
  refine List.map_congr_left fun b h => ?_
  rw [Function.comp, t.place_plain b (hb b h), t.loadByte_clean _ _ _ hu hh]

/-! ### One access -/

theorem Tile.performRead_scalar (t : Tile) (now : Nat) (r : PendRead) (d : Fin 32) (n : Nat) (sg : Bool) (hu : t.upsets = [])
    (hk : r.kind = .scalar d n sg) :
    t.performRead now r = t.give r (.s d (loadValue n sg ((r.bytes.map t.place).map (t.loadByte r.ctx r.tt)))) := by
  simp only [Tile.performRead, hk, t.loadReads_clean _ _ _ _ _ _ hu]

theorem Tile.performRead_stacc (t : Tile) (now : Nat) (r : PendRead) (row : Fin 64) (hu : t.upsets = []) (hk : r.kind = .stacc row) :
    t.performRead now r =
      { t with staccs := t.staccs ++ [⟨now + 1, r.ctx, row, rowOfBytes ((r.bytes.map t.place).map (t.loadByte r.ctx r.tt))⟩] } := by
  simp only [Tile.performRead, hk, t.loadReads_clean _ _ _ _ _ _ hu]

theorem Tile.give_pend (t : Tile) (r : PendRead) (d : Dst) (h : (t.ctx r.ctx).st = .active) :
    ((t.give r d).ctx r.ctx).pend = insertCommit ⟨r.due, r.tt, r.slot, d⟩ (t.ctx r.ctx).pend := by
  simp [Tile.give, Context.owe, h, Context.push]

/-- The bytes that a write of plain bytes puts, by address. -/
def PendWrite.puts (w : PendWrite) : List (Nat × Byte) := w.data.map fun e => (e.1.addr, e.2)

theorem Tile.performWrite_spm (t : Tile) (w : PendWrite) (h : ∀ e ∈ w.data, e.1.buf = none ∧ e.1.addr < 65536) :
    (t.performWrite w).spm = t.spm.writeAll w.puts := by
  have hm : (w.data.map fun e => (t.place e.1, e.2)).map (fun e => (spmAddr e.1, e.2)) = w.puts := by
    rw [List.map_map]
    refine List.map_congr_left fun e he => ?_
    obtain ⟨hb, ha⟩ := h e he
    simp [t.place_plain e.1 hb, spmAddr, Nat.mod_eq_of_lt ha]
  rw [Tile.performWrite, Tile.slotWrite, Tile.writeSpm_spm, hm, Tile.modCtx_spm]

theorem Tile.performWrite_writes (t : Tile) (w : PendWrite) : (t.performWrite w).writes = t.writes :=
  (congrArg Tile.writes (Tile.writeSpm_frame ..) :)
theorem Tile.performWrite_acm (t : Tile) (w : PendWrite) : (t.performWrite w).acm = t.acm :=
  (congrArg Tile.acm (Tile.writeSpm_frame ..) :)

theorem rowOfBytes_toNat (bs : List Byte) (n : Fin 128) : (rowOfBytes bs)[n].toNat = leNat ((bs.drop (4 * n.val)).take 4) := by
  rw [rowOfBytes, Fin.getElem_fin, Vector.getElem_ofFn]
  exact leWord_toNat _ (List.length_take_le ..)

/-- A row as the row write of a STACC leaves it: a clear one becomes INT32 saturating with FT 0 (R184, R225). -/
def AccRow.stored (r : AccRow) (e : Row) : AccRow :=
  { (if r.mode = .clear then { r with mode := .i32sat, ft := 0 } else r) with entries := e }

theorem Tile.performStacc_clean (t : Tile) (p : PendStacc) (h : t.upsets = []) :
    t.performStacc p = { t with acm := vset t.acm p.row (t.acm[p.row].stored p.entries) } :=
  Tile.clearUpsets_clean _ _ _ h

theorem Tile.performLdacc_clean (t : Tile) (now : Nat) (p : PendLdacc) (h : t.upsets = []) :
    t.performLdacc now p =
      { t with writes := t.writes ++ [⟨now + 3, p.ctx, p.tt, 4, p.bytes.zip (bytesOfRow (p.img.getD t.acm[p.row].entries))⟩] } := by
  simp only [Tile.performLdacc, t.loadReads_clean _ _ _ _ _ _ h, t.accEntries_clean _ _ h]

/-! ### A tick with one access -/

theorem Tile.perform_write (t : Tile) (now : Nat) (w : PendWrite) (hr : t.reads = []) (hl : t.ldaccs = []) (hw : t.writes = [w])
    (hn : w.tick ≤ now) : t.perform now = ({ t with writes := [] }.performWrite w).pruneHists := by
  rw [Tile.perform_eq, t.performReads_none now hr, t.performLdaccs_none now hl, t.performWrites_one now w hw hn]

/-- A read that leaves no LDACC and no write is all that its tick does. -/
theorem Tile.perform_read (t : Tile) (now : Nat) (r : PendRead) (hr : t.reads = [r]) (hn : r.tick ≤ now)
    (hl : ({ t with reads := [] }.performRead now r).ldaccs = []) (hw : ({ t with reads := [] }.performRead now r).writes = []) :
    t.perform now = ({ t with reads := [] }.performRead now r).pruneHists := by
  rw [Tile.perform_eq, t.performReads_one now r hr hn, Tile.performLdaccs_none _ now hl, Tile.performWrites_later _ now (by simp [hw])]

theorem Tile.perform_scalar (t : Tile) (now : Nat) (r : PendRead) (d : Fin 32) (n : Nat) (sg : Bool) (hr : t.reads = [r])
    (hl : t.ldaccs = []) (hw : t.writes = []) (hu : t.upsets = []) (hh : (t.ctx r.ctx).hist = []) (hn : r.tick ≤ now)
    (hk : r.kind = .scalar d n sg) (hb : ∀ b ∈ r.bytes, b.buf = none) :
    t.perform now = (Tile.give { t with reads := [] } r
      (.s d (loadValue n sg (r.bytes.map fun b => t.spmPrev.read b.addr)))).pruneHists := by
  have hp := Tile.performRead_scalar { t with reads := [] } now r d n sg hu hk
  rw [Tile.loadBytes_plain { t with reads := [] } r hu hh hb] at hp
  rw [t.perform_read now r hr hn (by rw [hp]; exact hl) (by rw [hp]; exact hw), hp]

theorem Tile.perform_stacc (t : Tile) (now : Nat) (r : PendRead) (row : Fin 64) (hr : t.reads = [r]) (hs : t.staccs = [])
    (hl : t.ldaccs = []) (hw : t.writes = []) (hu : t.upsets = []) (hh : (t.ctx r.ctx).hist = []) (hn : r.tick ≤ now)
    (hk : r.kind = .stacc row) (hb : ∀ b ∈ r.bytes, b.buf = none) :
    t.perform now = Tile.pruneHists { t with
      reads := [],
      staccs := [⟨now + 1, r.ctx, row, rowOfBytes (r.bytes.map fun b => t.spmPrev.read b.addr)⟩] } := by
  have hp := Tile.performRead_stacc { t with reads := [] } now r row hu hk
  rw [Tile.loadBytes_plain { t with reads := [] } r hu hh hb] at hp
  rw [t.perform_read now r hr hn (by rw [hp]; exact hl) (by rw [hp]; exact hw), hp]
  simp only [hs, List.nil_append]

theorem Tile.performStaccs_one (t : Tile) (now : Nat) (p : PendStacc) (h : t.staccs = [p]) (hn : p.tick ≤ now) (hu : t.upsets = []) :
    t.performStaccs now = { t with staccs := [], acm := vset t.acm p.row (t.acm[p.row].stored p.entries) } := by
  have hp := Tile.performStacc_clean { t with staccs := [] } p hu
  simp [Tile.performStaccs, h, hn, hp]

theorem Tile.perform_ldacc (t : Tile) (now : Nat) (p : PendLdacc) (hr : t.reads = []) (hl : t.ldaccs = [p]) (hw : t.writes = [])
    (hu : t.upsets = []) (hn : p.tick ≤ now) :
    t.perform now = Tile.pruneHists { t with
      ldaccs := [],
      writes := [⟨now + 3, p.ctx, p.tt, 4, p.bytes.zip (bytesOfRow (p.img.getD t.acm[p.row].entries))⟩] } := by
  have hp := Tile.performLdacc_clean { t with ldaccs := [] } now p hu
  rw [Tile.perform_eq, t.performReads_none now hr, t.performLdaccs_one now p hl hn, hp, Tile.performWrites_later _ now (by simp [hw])]
  simp only [hw, List.nil_append]

theorem AccRow.stored_clear (r : AccRow) (e : Row) (h : r.mode = .clear) : (r.stored e).mode = .i32sat ∧ (r.stored e).ft = 0 := by
  simp [AccRow.stored, h]
theorem AccRow.stored_mode (r : AccRow) (e : Row) (h : r.mode ≠ .clear) : (r.stored e).mode = r.mode ∧ (r.stored e).ft = r.ft := by
  simp [AccRow.stored, h]
theorem AccRow.stored_pend (r : AccRow) (e : Row) : (r.stored e).pend = r.pend := by
  unfold AccRow.stored; split <;> rfl

/-! ### The statement -/

/-- The last byte given for an address stands; every other byte stays (R180, R223). -/
theorem store_performs (t : Tile) (now : Nat) (w : PendWrite) (hr : t.reads = []) (hl : t.ldaccs = []) (hw : t.writes = [w])
    (hn : w.tick ≤ now) (hb : ∀ e ∈ w.data, e.1.buf = none ∧ e.1.addr < 65536) (hm : t.spm.wf = true) :
    (∀ a, (∀ e ∈ w.data, e.1.addr ≠ a) → (t.perform now).spm.read a = t.spm.read a) ∧
    (∀ l e r, w.data = l ++ e :: r → (∀ x ∈ r, x.1.addr ≠ e.1.addr) → (t.perform now).spm.read e.1.addr = e.2) ∧
    (t.perform now).writes = [] ∧ (t.perform now).acm = t.acm := by
  have hs : (t.perform now).spm = t.spm.writeAll w.puts := by
    rw [t.perform_write now w hr hl hw hn]; exact Tile.performWrite_spm { t with writes := [] } w hb
  refine ⟨fun a ha => ?_, fun l e r hd he => ?_, ?_, ?_⟩
  · rw [hs]
    refine Memory.read_writeAll_ne _ a hm fun x hx => ?_
    obtain ⟨e, he, rfl⟩ := List.mem_map.1 hx
    exact ha e he
  · have hp : w.puts = l.map (fun e => (e.1.addr, e.2)) ++ (e.1.addr, e.2) :: r.map fun e => (e.1.addr, e.2) := by
      simp [PendWrite.puts, hd]
    rw [hs, hp]
    refine Memory.read_writeAll_last _ _ _ _ hm fun x hx => ?_
    obtain ⟨y, hy, rfl⟩ := List.mem_map.1 hx
    exact he y hy
  · rw [t.perform_write now w hr hl hw hn]; exact Tile.performWrite_writes ..
  · rw [t.perform_write now w hr hl hw hn]; exact Tile.performWrite_acm ..

/-- Settles O20: a tick with one access does what that access does alone. -/
theorem accessesPerform : Obligations.AccessesPerform := by
  unfold Obligations.AccessesPerform
  refine ⟨fun t now w hr _ hl hw hn hb hm => store_performs t now w hr hl hw hn hb hm, ?load, ?stacc, ?row, ?ldacc⟩
  case load =>
    intro t now r d n sg hr _ hl hw hu hh ha hn hk hsz hlen hb v x
    have hx : loadValue n sg (r.bytes.map fun b => t.spmPrev.read b.addr) = x := loadValue_eq n sg _ hsz (by rw [List.length_map, hlen])
    rw [t.perform_scalar now r d n sg hr hl hw hu hh hn hk hb, hx]
    exact ⟨(Tile.pruneHists_pend _ _).trans (Tile.give_pend { t with reads := [] } r _ ha), rfl, rfl⟩
  case stacc =>
    intro t now r row hr hs hl hw hu hh hn hk _ hb
    rw [t.perform_stacc now r row hr hs hl hw hu hh hn hk hb]
    exact ⟨_, rfl, rfl, rfl, rfl, rfl, rowOfBytes_toNat _⟩
  case row =>
    intro t now p hs hn hu u r
    have hU : u = _ := t.performStaccs_one now p hs hn hu
    have hR : r = t.acm[p.row].stored p.entries := by simp only [r, hU, vset_self]
    rw [hR, hU]
    exact ⟨rfl, AccRow.stored_pend .., rfl, rfl, AccRow.stored_clear _ _, AccRow.stored_mode _ _, fun k hk => vset_ne _ _ hk⟩
  case ldacc =>
    intro t now p hr _ hl hw hu hn hlen e
    have he : p.img.getD t.acm[p.row].entries = e := by simp only [e]; cases p.img <;> rfl
    rw [t.perform_ldacc now p hr hl hw hu hn, he]
    refine ⟨_, rfl, rfl, rfl, ?_, rfl, rfl, fun n k hk => ?_⟩
    · exact List.map_fst_zip (by rw [hlen, length_bytesOfRow])
    · rw [List.map_snd_zip (by rw [hlen, length_bytesOfRow]), getElem?_bytesOfRow _ _ _ hk]

/-! ### Boot, part reset, throttle, thermal hold -/

@[simp] theorem State.carry_fw (s : State) (t : TileId) (d : Fin 4) : (s.carry t d).fw = s.fw := by
  unfold State.carry
  extract_lets
  split
  · rfl
  · split <;> rfl

/-- The choice of carriers and edge ports at boot leaves the firmware's own state as it is. -/
theorem State.carryAll_fw (s : State) : s.carryAll.fw = s.fw :=
  State.foldl_fw _ (fun s t => State.foldl_fw _ (fun s d => by split <;> simp) _ s) _ s

/-- The field that cannot be repaired once the self-test has added its dead tiles (R318, R404). -/
def State.bootField (s : State) : Option (Nat × Nat) :=
  ({ s.fuses with dead := s.fuses.dead ++ Config.bistDead } : Fuses).beyondRepair

theorem execBoot_unverified (s : State) (hp : s.stage = .power) (hv : s.verifyBoot.2 = false) :
    execBoot s = .next { s with stage := .failed, failure := some .image, fw := s.verifyBoot.1 } := by
  simp [execBoot, hp, hv]

theorem execBoot_unrepaired (s : State) (e : Nat × Nat) (hp : s.stage = .power) (hv : s.verifyBoot.2 = true)
    (hf : s.bootField = some e) :
    ∃ t, execBoot s = .next t ∧ t.stage = .failed ∧ t.failure = some (.field e.1 e.2) ∧ t.fw = s.verifyBoot.1 := by
  unfold State.bootField at hf
  simp [execBoot, hp, hv, hf]

theorem execBoot_released (s : State) (hp : s.stage = .power) (hv : s.verifyBoot.2 = true) (hf : s.bootField = none) :
    ∃ t, execBoot s = .next t ∧ t.stage = .released ∧ t.now = 0 ∧ t.tmVer = 1 ∧ t.fw = s.verifyBoot.1 := by
  unfold State.bootField at hf
  simp [execBoot, hp, hv, hf, State.chooseEdges, State.carryAll_fw]

/-- What the next throttle level is, by temperature and power (R409). -/
def State.nextThr (s : State) : Nat :=
  if s.tsensf.any (fun x => decide (105 ≤ x)) then 16
  else if 15000 < s.power then 16 + Config.choice s.free % max 1 (s.thr - 16)
  else s.thr + Config.choice s.free % (65 - s.thr)

theorem execThrottleEvaluation_eq (s : State) : execThrottleEvaluation s = .next { s with thr := s.nextThr, free := s.free + 1 } := rfl

theorem State.nextThr_hot (s : State) (h : ∃ x ∈ s.tsensf, 105 ≤ x) : s.nextThr = 16 := by
  unfold State.nextThr
  rw [if_pos (by simpa using h)]

theorem State.nextThr_over (s : State) (h : 15000 < s.power) : s.nextThr = 16 ∨ 16 ≤ s.nextThr ∧ s.nextThr < s.thr := by
  by_cases hh : ∃ x ∈ s.tsensf, 105 ≤ x
  · exact .inl (s.nextThr_hot hh)
  · unfold State.nextThr
    rw [if_neg (by simpa using hh), if_pos h]
    have := Nat.mod_lt (Config.choice s.free) (show 0 < max 1 (s.thr - 16) by omega)
    omega

theorem State.nextThr_under (s : State) (hc : ∀ x ∈ s.tsensf, x < 105) (hp : s.power ≤ 15000) (h : s.thr ≤ 64) :
    s.thr ≤ s.nextThr ∧ s.nextThr ≤ 64 := by
  unfold State.nextThr
  rw [if_neg (by simpa using hc), if_neg (by omega)]
  have := Nat.mod_lt (Config.choice s.free) (show 0 < 65 - s.thr by omega)
  omega

theorem State.nextThr_range (s : State) (h16 : 16 ≤ s.thr) (h64 : s.thr ≤ 64) : 16 ≤ s.nextThr ∧ s.nextThr ≤ 64 := by
  by_cases hh : ∃ x ∈ s.tsensf, 105 ≤ x
  · have := s.nextThr_hot hh; omega
  · push Not at hh
    by_cases hp : 15000 < s.power
    · have := s.nextThr_over hp; omega
    · have := s.nextThr_under hh (by omega) h64; omega

theorem State.post_hold (s : State) (k : Nat) (b : List Byte) : (s.post k b).hold = s.hold := (congrArg State.hold (s.post_frame k b) :)
theorem State.post_thr (s : State) (k : Nat) (b : List Byte) : (s.post k b).thr = s.thr := (congrArg State.thr (s.post_frame k b) :)
theorem State.post_tiles (s : State) (k : Nat) (b : List Byte) : (s.post k b).tiles = s.tiles := (congrArg State.tiles (s.post_frame k b) :)

theorem execThermalHold_begins (s : State) (h : s.hold = false) :
    ∃ t, execThermalHold s = .next t ∧ t.hold = true ∧ t.tiles = s.tiles := by
  simp [execThermalHold, h, State.post_hold, State.post_tiles]

theorem execThermalRelease_cool (s : State) (h : s.hold = true) (hc : ∀ x ∈ s.tsensf, x < 100) :
    ∃ t, execThermalRelease s = .next t ∧ t.hold = false ∧ t.thr = 16 := by
  have : (s.hold && s.tsensf.all fun t => decide (t < 100)) = true := by simpa [h] using hc
  unfold execThermalRelease
  rw [if_pos this]
  exact ⟨_, rfl, State.post_hold .., State.post_thr ..⟩

theorem execThermalRelease_warm (s : State) (h : ∃ x ∈ s.tsensf, 100 ≤ x) : execThermalRelease s = .next s := by
  obtain ⟨x, hx, hw⟩ := h
  have : (s.tsensf.all fun t => decide (t < 100)) = false := by
    simp only [List.all_eq_false, decide_eq_true_eq]
    exact ⟨x, hx, by omega⟩
  simp [execThermalRelease, this]

/-- Settles O53, event by event: boot by what verification and repair find, the throttle by temperature and power. -/
theorem bootResetAndPower : Obligations.BootResetAndPower := by
  unfold Obligations.BootResetAndPower
  refine fun s => ⟨fun hp => ?boot, ?reset, fun h16 h64 => ?throttle, execThermalHold_begins s, execThermalRelease_cool s,
    execThermalRelease_warm s⟩
  case boot =>
    cases hv : s.verifyBoot.2 with
    | false => exact ⟨_, execBoot_unverified s hp hv, fun _ => rfl, fun h => absurd h (by simp)⟩
    | true =>
      cases hf : s.bootField with
      | none =>
        obtain ⟨t, ht, hr⟩ := execBoot_released s hp hv hf
        exact ⟨t, ht, fun h => absurd h (by simp), fun _ => ⟨fun _ => hr, fun e he => absurd (hf.symm.trans he) (by simp)⟩⟩
      | some e =>
        obtain ⟨t, ht, hr⟩ := execBoot_unrepaired s e hp hv hf
        refine ⟨t, ht, fun h => absurd h (by simp), fun _ => ⟨fun hn => absurd (hf.symm.trans hn) (by simp), fun e' he => ?_⟩⟩
        obtain rfl : e = e' := Option.some.inj (hf.symm.trans he)
        exact hr
  case reset => exact ⟨_, rfl, rfl, rfl, rfl, rfl, rfl, rfl, rfl, rfl, rfl⟩
  case throttle =>
    obtain ⟨hlo, hhi⟩ := s.nextThr_range h16 h64
    refine ⟨_, execThrottleEvaluation_eq s, hlo, hhi, s.nextThr_hot, fun hp => ?_, fun hc hp => (s.nextThr_under hc hp h64).1, rfl⟩
    exact (s.nextThr_over hp).elim .inr fun h => .inl h.2

/-! ### Issue of a bundle -/

theorem andThen_next (o : Out) : andThen o .next = o := by cases o <;> rfl

theorem andThen_assoc (o : Out) (f g : State → Out) : andThen (andThen o f) g = andThen o fun s => andThen (f s) g := by
  cases o <;> rfl

/-- The count of a tick on which some context of a tile is ready and none has issued. -/
def State.endIssue (s : State) (t : TileId) (ready : Bool) : State :=
  let issued := match (s.tile t).lastIssue with
    | some (_, k) => k == s.now
    | none => false
  if ready && !issued then s.modTile t fun x => x.event 3 1 else s

theorem State.endIssue_cases (s : State) (t : TileId) (ready : Bool) :
    s.endIssue t ready = s ∨ s.endIssue t ready = s.modTile t fun x => x.event 3 1 := by
  unfold State.endIssue
  extract_lets issued
  split
  · exact .inr rfl
  · exact .inl rfl

theorem isActive_bne (c : Context) (h : c.st = .active) : (c.st != .active) = false := by simp [h]

/-- On a tile where no restore is written, the context that holds the issue width attempts its bundle; all that may follow is the
count of a tick on which none issued (R159, R384). -/
theorem issueTile_run (s : State) (t : TileId) (c : Fin 4) (go : Nat) (hr : s.restoring t = none)
    (ha : ((s.noteReady t).tile t).arb = .run c go) (hg : go ≤ s.now) (hc : ((s.noteReady t).ctx t c).st = .active) :
    ∃ k, issueTile t s = andThen (attempt t c (s.noteReady t)) k ∧
      ∀ u, k u = .next u ∨ k u = .next (u.modTile t fun x => x.event 3 1) := by
  have hr' : (s.noteReady t).restoring t = none := hr
  have hg' : go ≤ (s.noteReady t).now := hg
  refine ⟨fun u => .next (u.endIssue t (((s.noteReady t).tile t).ctxs.toList.any fun x => x.readySince.isSome)), ?_, fun u => ?_⟩
  · simp only [issueTile, hr', Option.isSome_none, Bool.false_eq_true, if_false, ha, isActive_bne _ hc, andThen, hg', if_true]
    rfl
  · exact (u.endIssue_cases t _).imp (congrArg _) (congrArg _)

/-! #### The attempt as far as the bundle -/

theorem Context.commitDue_idle (c : Context) (n : Nat) (h : c.pend = []) : c.commitDue n = c := by
  simp only [Context.commitDue, h, List.takeWhile_nil, List.dropWhile_nil, List.foldl_nil]
  rw [← h]

theorem Context.liveDue_idle (c : Context) (h : c.liveDue = none) : { c with liveDue := none } = c := by rw [← h]

theorem Tile.modCtx_id (t : Tile) (c : Fin 4) (f : Context → Context) (h : f (t.ctx c) = t.ctx c) : t.modCtx c f = t := by
  have : vset t.ctxs c (f t.ctxs[c]) = t.ctxs := by rw [show f t.ctxs[c] = t.ctxs[c] from h, vset_eq_self]
  simp only [Tile.modCtx, this]

theorem State.tile_modCtx_id (s : State) (t : TileId) (c : Fin 4) (f : Context → Context) (h : f (s.ctx t c) = s.ctx t c) :
    (s.modCtx t c f).tile t = s.tile t := by
  rw [State.tile_modCtx, Tile.modCtx_id _ _ _ h]

@[simp] theorem Tile.noteReads_ctxs (t : Tile) (m : Fin 4) (ws : List Nat) : (t.noteReads m ws).ctxs = t.ctxs := by
  simp only [Tile.noteReads]; split <;> simp
@[simp] theorem Tile.noteReads_spm (t : Tile) (m : Fin 4) (ws : List Nat) : (t.noteReads m ws).spm = t.spm := by
  simp only [Tile.noteReads]; split <;> simp
@[simp] theorem Tile.tlbTouch_ctxs (t : Tile) (l : Nat) (f : Nat → Bool) (n : Nat) : (t.tlbTouch l f n).ctxs = t.ctxs := by
  unfold Tile.tlbTouch; split <;> rfl
@[simp] theorem Tile.tlbTouch_spm (t : Tile) (l : Nat) (f : Nat → Bool) (n : Nat) : (t.tlbTouch l f n).spm = t.spm := by
  unfold Tile.tlbTouch; split <;> rfl

/-- What a fetch marks as used leaves contexts and scratchpad as they were. -/
theorem Tile.fetched_frame (t : Tile) (c : Fin 4) (pcs : List VAddr) (pas : List Nat) (n : Nat) :
    (t.fetched c pcs pas n).ctxs = t.ctxs ∧ (t.fetched c pcs pas n).spm = t.spm := by
  unfold Tile.fetched
  extract_lets marked read x used
  have h : read.ctxs = t.ctxs ∧ read.spm = t.spm := by
    simp only [read]
    split
    · exact ⟨rfl, rfl⟩
    · exact ⟨Tile.noteReads_ctxs .., Tile.noteReads_spm ..⟩
  split
  · exact h
  · rw [Tile.tlbTouch_ctxs, Tile.tlbTouch_spm]; exact h

/-- The state with another acting place. -/
def State.withCur (s : State) (x : Cur) : State := { s with cur := x }

@[simp] theorem State.tile_withCur (s : State) (x : Cur) (t : TileId) : (s.withCur x).tile t = s.tile t := rfl
@[simp] theorem State.ctx_withCur (s : State) (x : Cur) (t : TileId) (c : Fin 4) : (s.withCur x).ctx t c = s.ctx t c := rfl

/-- The acting place of a context's attempt outside the delay bundles of a transfer. -/
def State.attemptCur (s : State) (t : TileId) (c : Fin 4) : Cur :=
  { Cur.reset with tile := t, ctx := c, pc := (s.ctx t c).pc, tt := (s.ctx t c).tt }

/-- The state in which a context fetches: due results have committed, and no LIVE bundle is due. -/
def State.fetching (s : State) (t : TileId) (c : Fin 4) : State :=
  ((s.modCtx t c fun x => x.commitDue x.tt).withCur (s.attemptCur t c)).modCtx t c fun y => { y with liveDue := none }

/-- A fetch reads the tile it is given, the fuses and the tick. -/
theorem State.fetch_fetching (s : State) (t : TileId) (c : Fin 4) : (s.fetching t c).fetch = s.fetch := rfl

/-- The state in which a bundle that has been fetched from `pas` is attempted. -/
def State.attempting (s : State) (t : TileId) (c : Fin 4) (pas : List Nat) : State :=
  (((s.fetching t c).modTile t fun y => y.fetched c [(s.ctx t c).pc, (s.ctx t c).pc + 32] pas s.now).withCur
    (s.attemptCur t c)).modCtx t c fun y => { y with held := false }

/-- Nothing of the bundle is illegal, so no transfer in a delay bundle is either (R41). -/
theorem State.illegal_none (s : State) (ws : List Nat) (h : illegalCause ws = none) : s.illegal ws = none := by
  simp [State.illegal, h]

section
variable {s : State} {t : TileId} {c : Fin 4} (hp : (s.ctx t c).pend = []) (hl : (s.ctx t c).liveDue = none)
include hp

theorem State.tile_commit_idle : (s.modCtx t c fun x => x.commitDue x.tt).tile t = s.tile t :=
  s.tile_modCtx_id t c _ (Context.commitDue_idle _ _ hp)

include hl

theorem State.tile_fetching : (s.fetching t c).tile t = s.tile t := by
  have h : (s.modCtx t c fun x => x.commitDue x.tt).ctx t c = s.ctx t c := congrArg (·.ctx c) (State.tile_commit_idle hp)
  refine (State.tile_modCtx_id _ t c _ ?_).trans (State.tile_commit_idle hp)
  exact Context.liveDue_idle _ (by rw [State.ctx_withCur, h, hl])

theorem State.ctx_fetching : (s.fetching t c).ctx t c = s.ctx t c := congrArg (·.ctx c) (State.tile_fetching hp hl)

theorem State.tile_attempting (pas : List Nat) : (s.attempting t c pas).tile t =
    ((s.tile t).fetched c [(s.ctx t c).pc, (s.ctx t c).pc + 32] pas s.now).modCtx c fun y => { y with held := false } := by
  rw [State.attempting, State.tile_modCtx, State.tile_withCur, State.tile_modTile, State.tile_fetching hp hl]

theorem State.ctx_attempting (pas : List Nat) : { (s.attempting t c pas).ctx t c with held := (s.ctx t c).held } = s.ctx t c := by
  have h : ((s.tile t).fetched c [(s.ctx t c).pc, (s.ctx t c).pc + 32] pas s.now).ctx c = s.ctx t c :=
    congrArg (fun v : Vector Context 4 => v[c]) (Tile.fetched_frame ..).1
  rw [State.ctx, State.tile_attempting hp hl, Tile.ctx_modCtx, h]

theorem State.spm_attempting (pas : List Nat) : ((s.attempting t c pas).tile t).spm = (s.tile t).spm := by
  rw [State.tile_attempting hp hl, Tile.modCtx_spm, (Tile.fetched_frame ..).2]

/-- A bundle without LIVE bytes after it is attempted as it has been fetched (R378). -/
theorem attempt_fetched {bs : List Byte} {pas ws : List Nat} (hx : (s.ctx t c).xfer = none) (ho : (s.ctx t c).oldestFault = none)
    (hf : s.fetch (s.tile t) c (s.ctx t c).pc = .ok bs pas) (hw : ws = (List.range 8).map (slotWord bs))
    (hs : safeBit (ws.getD 0 0) = false) (hi : illegalCause ws = none) :
    attempt t c s = attemptBundle ws t c (s.attempting t c pas) := by
  subst hw
  have h0 : (s.modCtx t c fun x => x.commitDue x.tt).ctx t c = s.ctx t c := congrArg (·.ctx c) (State.tile_commit_idle hp)
  unfold attempt
  extract_lets s1 x delay z cur s2 s3 x3
  have hx1 : x = s.ctx t c := h0
  have hcur : cur = s.attemptCur t c := by simp only [cur, delay, hx1, hx]; rfl
  have hs3 : s3 = s.fetching t c := by simp only [s3, s2, hcur]; rfl
  have hx3 : x3 = s.ctx t c := by simp only [x3, hs3]; exact State.ctx_fetching hp hl
  clear_value x3 s3 cur x
  subst hx1 hcur hs3 hx3
  have hfetch : (s.fetching t c).fetch ((s.fetching t c).tile t) c (s.ctx t c).pc = .ok bs pas := by
    rw [State.fetch_fetching, State.tile_fetching hp hl]; exact hf
  simp only [hl, ho, Option.bind_none, Option.isSome_none, Bool.and_false, Bool.false_eq_true, if_false, false_and,
    hfetch, hs, List.append_nil]
  rw [State.illegal_none _ _ hi]
  exact andThen_next _

end

/-! #### Its slots -/

theorem Context.guard_zero (c : Context) : c.guard 0 = true := c.readP_zero
theorem Context.engineGuard_zero (c : Context) : c.engineGuard 0 = some .yes := by
  simp [Context.engineGuard, Context.boundWrite, Context.guard_zero]

/-- The slots act one after another. -/
theorem runSlots_foldl (ws ks : List Nat) (o : Out) :
    andThen o (runSlots ws ks) = ks.foldl (fun o k => andThen o (runSlot ws k)) o := by
  induction ks generalizing o with
  | nil => exact andThen_next o
  | cons k ks ih => rw [List.foldl_cons, ← ih, andThen_assoc]; rfl

/-- A slot of index k, unguarded and not captured, in the state in which it acts (R31, R36). -/
def State.inSlot (s : State) (k : Fin 7) : State :=
  if k.val < 5 then s.atSlot (k.val + 1) .yes else { s with cur := { s.cur with slot := k.val + 1, guard := .yes, follow := none } }

section
variable {ws : List Nat} {is : Fin 7 → Instr}
  (hd : ∀ k : Fin 7, decodeSlot (k.val + 1) (ws.getD (k.val + 1) 0) = some (is k) ∧ slotGuard (ws.getD (k.val + 1) 0) = 0)
  (hc : captures (is 6) = none)
include hd hc

theorem runSlot_unguarded (k : Fin 7) (s : State) : runSlot ws (k.val + 1) s = exec (is k) (s.inSlot k) := by
  obtain ⟨hk, hg⟩ := hd k
  have h7 : decodeSlot 7 (ws.getD 7 0) = some (is 6) := (hd 6).1
  have taken : ((decodeSlot 7 (ws.getD 7 0)).bind captures).isSome = false := by rw [h7, Option.bind_some, hc]; rfl
  by_cases h5 : k.val < 5
  · have h6 : k.val + 1 < 6 := by omega
    simp only [runSlot, State.inSlot, State.plainGuard, hk, hg, h5, h6, Context.guard_zero, if_true]
  · have h6 : ¬ k.val + 1 < 6 := by omega
    have mma : ¬ (k.val + 1 = 7 ∧ (captures (is k)).isSome = true) := by
      rintro ⟨h, hcap⟩
      rw [show k = 6 from Fin.ext (by omega), hc] at hcap
      cases hcap
    simp only [runSlot, State.inSlot, hk, hg, h5, h6, taken, mma, Context.engineGuard_zero, Bool.and_false, Bool.false_eq_true, if_false]
    rfl

theorem runSlots_unguarded (o : Out) : andThen o (runSlots ws [1, 2, 3, 4, 5, 6, 7]) =
    (List.finRange 7).foldl (fun o k => andThen o fun u => exec (is k) (u.inSlot k)) o := by
  have hl : [1, 2, 3, 4, 5, 6, 7] = (List.finRange 7).map fun k => k.val + 1 := by decide
  have hr : ∀ k : Fin 7, runSlot ws (k.val + 1) = fun u => exec (is k) (u.inSlot k) := fun k => funext (runSlot_unguarded hd hc k)
  rw [runSlots_foldl, hl, List.foldl_map]
  simp only [hr]

end

/-- What follows the control instruction of a bundle that issued in `before`: overruns, and illegal targets of a transfer that landed or
of a loop that goes back (R47, R150, R163). -/
def State.bundleEnd (before : State) (i0 : Instr) (u : State) : State :=
  let v := u.checkRun i0
  if endsHere i0 = true then v else
    match v.cur.landed with
    | some src => v.checkLanding src
    | none => if before.loopsBack v = true then v.checkLoop v.cur.pc else v

/-- A bundle without a wait: slots 1 to 7, the end of its tick of task time, its control instruction (R19, R31). -/
theorem issueBundle_no_wait (ws : List Nat) (i0 : Instr) (s : State) (h : isWait i0 = false) :
    issueBundle ws i0 s =
      andThen (andThen (.next (s.modCurTile fun x => { x with hold := none })) (runSlots ws [1, 2, 3, 4, 5, 6, 7])) fun u =>
      andThen (exec i0 (u.advance.atSlot 0 .yes)) fun u =>
      .next ((s.modCurTile fun x => { x with hold := none }).bundleEnd i0 u) := by
  simp only [issueBundle, h, Bool.false_eq_true, if_false]
  rfl

/-- A bundle against which no fault, wait, walk or bank hold stands issues (R378). -/
theorem attemptBundle_issues (ws : List Nat) (i0 : Instr) (t : TileId) (c : Fin 4) (s : State) (hd : decodeCtl (ws.getD 0 0) = some i0)
    (hw : isWait i0 = false) (hc : s.issueCause ws = none) (hk : s.issueWalk ws = none) (hb : s.bundleLoad ws ≤ 1)
    (hh : (s.tile t).hold = none) :
    attemptBundle ws t c s = andThen (issueBundle ws i0 s) fun u => .next ((u.endWalks t c).afterAttempt t c true) := by
  have hb' : ¬ 1 < s.bundleLoad ws := by omega
  simp only [attemptBundle, hd, hw, hc, hk, hb', hh, Option.any_none, Option.isNone_none, decide_false, Bool.and_false,
    Bool.false_eq_true, false_and, if_false]

/-- Settles O60: the arbiter's choice stands, the attempt reaches the fetched bundle, and its slots act one after another. -/
theorem bundlesIssue : Obligations.BundlesIssue := by
  unfold Obligations.BundlesIssue
  intro s t c ws i0 is
  refine ⟨fun go hr ha hg hc => issueTile_run s t c go hr ha hg hc, ?attempt, fun hd hw => ⟨?issue, fun hs hc => ?slots⟩⟩
  case attempt =>
    intro x bs pas hp hl hx ho hf hw hs hi
    exact ⟨s.attempting t c pas, attempt_fetched hp hl hx ho hf hw hs hi, State.ctx_attempting hp hl pas, rfl, rfl, rfl, rfl, rfl, rfl,
      State.spm_attempting hp hl pas⟩
  case issue => exact attemptBundle_issues ws i0 t c s hd hw
  case slots => rw [issueBundle_no_wait ws i0 s hw, runSlots_unguarded hs hc]; rfl

end Sys2Proof.Machine

/-! The comb's launches (O49): host records and their completion, admission, the start tick, retirement. -/

namespace Sys2Proof.Machine

/-! ### Host memory and the host's records (R394, R398) -/

theorem numbered_append (a : Nat) (l r : List Byte) : numbered a (l ++ r) = numbered a l ++ numbered (a + l.length) r := by
  induction l generalizing a with
  | nil => rfl
  | cons b l ih => simp only [List.cons_append, numbered, ih, List.length_cons, Nat.add_assoc, Nat.add_comm 1]

/-- Offsets that lie less than 2^64 apart name different host addresses. -/
theorem hostAddr_ne {a i j : Nat} (h : i < j) (hj : j < i + 2 ^ 64) : hostAddr (a + i) ≠ hostAddr (a + j) := by
  unfold hostAddr; omega

theorem State.host_read_hostWrite_ne (s : State) (a : Nat) (bs : List Byte) (x : Nat) (h : s.host.wf = true)
    (hx : ∀ i < bs.length, hostAddr (a + i) ≠ x) : (s.hostWrite a bs).host.read x = s.host.read x := by
  refine Memory.read_writeAll_ne _ x h fun e he => ?_
  obtain ⟨f, hf, rfl⟩ := List.mem_map.1 he
  obtain ⟨h1, h2⟩ := numbered_fst_ge hf
  have := hx (f.1 - a) (by omega)
  rwa [Nat.add_sub_cancel' h1] at this

theorem State.host_read_hostWrite (s : State) (a : Nat) (bs : List Byte) (i : Nat) (h : s.host.wf = true) (hi : i < bs.length)
    (hl : bs.length ≤ 2 ^ 64) : (s.hostWrite a bs).host.read (hostAddr (a + i)) = bs[i] := by
  have cut : numbered a bs = numbered a (bs.take i) ++ (a + i, bs[i]) :: numbered (a + i + 1) (bs.drop (i + 1)) := by
    conv_lhs => rw [← List.take_append_drop i bs, numbered_append, List.drop_eq_getElem_cons hi]
    rw [List.length_take_of_le (Nat.le_of_lt hi)]; rfl
  show (s.host.writeAll ((numbered a bs).map fun e => (hostAddr e.1, e.2))).read (hostAddr (a + i)) = bs[i]
  rw [cut, List.map_append, List.map_cons]
  refine Memory.read_writeAll_last _ _ _ _ h fun e he => ?_
  obtain ⟨f, hf, rfl⟩ := List.mem_map.1 he
  obtain ⟨h1, h2⟩ := numbered_fst_ge hf
  rw [List.length_drop] at h2
  have := hostAddr_ne (a := a) (i := i) (j := f.1 - a) (by omega) (by omega)
  rw [Nat.add_sub_cancel' (by omega)] at this
  exact this.symm

theorem State.hostRead_congr {s t : State} (h : t.host = s.host) (a n : Nat) : t.hostRead a n = s.hostRead a n := by
  simp only [State.hostRead, h]

/-- Bytes written together read back together. -/
theorem State.hostRead_hostWrite (s : State) (a : Nat) (bs : List Byte) (n : Nat) (h : s.host.wf = true) (hn : n ≤ bs.length)
    (hl : bs.length ≤ 2 ^ 64) : (s.hostWrite a bs).hostRead a n = bs.take n := by
  refine List.ext_getElem (by simp [State.hostRead, hn]) fun i h1 h2 => ?_
  simp only [State.hostRead, List.length_map, List.length_range] at h1
  simp only [State.hostRead, List.getElem_map, List.getElem_range, List.getElem_take]
  exact s.host_read_hostWrite a bs i h (by omega) hl

/-- Bytes below those of a write that lie in one span of host addresses with it keep their value. -/
theorem State.hostRead_hostWrite_above (s : State) (a k : Nat) (bs : List Byte) (n : Nat) (h : s.host.wf = true) (hn : n ≤ k)
    (hl : k + bs.length ≤ 2 ^ 64) : (s.hostWrite (a + k) bs).hostRead a n = s.hostRead a n := by
  refine List.map_congr_left fun i hi => ?_
  have hi := List.mem_range.1 hi
  refine s.host_read_hostWrite_ne _ _ _ h fun j hj => ?_
  rw [Nat.add_assoc]
  exact (hostAddr_ne (by omega) (by omega)).symm

theorem State.memOk_host (s : State) (h : s.memOk = true) : s.host.wf = true := by
  simp only [State.memOk, Bool.and_eq_true] at h
  obtain ⟨⟨⟨⟨-, hw⟩, -⟩, -⟩, -⟩ := h
  exact hw

/-- Bytes 0 to 30 of a completion record (R398). -/
@[irreducible] def Completion.body (c : Completion) (now : Nat) : List Byte :=
  leBytes 2 c.tag ++ leBytes 1 c.op ++ leBytes 1 c.status ++ leBytes 4 c.detail ++ leBytes 8 c.start ++
    leBytes 8 now ++ leBytes 4 c.fcnt ++ leBytes 2 c.faults ++ leBytes 1 c.flags

theorem Completion.length_body (c : Completion) (now : Nat) : (c.body now).length = 31 := by simp [Completion.body]

theorem Completion.body_take (c : Completion) (now : Nat) :
    (c.body now).take 4 = leBytes 2 c.tag ++ [BitVec.ofNat 8 c.op, BitVec.ofNat 8 c.status] := by
  unfold Completion.body; rfl

/-- Host address of the completion record of the record at an index (R392). -/
def UserQueue.complAddr (u : UserQueue) (i : Nat) : Nat := u.cqbase.toNat + 32 * (i % 2 ^ u.lsz.toNat)

/-- The completion record stands in host memory, its phase last, and the queue's head has moved (R395, R398). -/
def State.recordWritten (s : State) (q : Fin 256) (i : Nat) (c : Completion) : State :=
  ((s.hostWrite ((s.queue q).complAddr i) (c.body s.now)).hostWrite ((s.queue q).complAddr i + 31)
    [BitVec.ofNat 8 ((i / 2 ^ (s.queue q).lsz.toNat + 1) % 2)]).modQueue q fun u => u.complete i

/-- A completion writes the record, moves the head, and may send a vector: nothing else (R392, R398). -/
theorem State.completeRecord_eq (s : State) (q : Fin 256) (i : Nat) (c : Completion) :
    ∃ m, s.completeRecord q i c = { s.recordWritten q i c with msix := m } := by
  unfold State.completeRecord
  extract_lets u a body ph t
  have ha : a = (s.queue q).complAddr i := rfl
  have hb : body = c.body s.now := by unfold Completion.body; rfl
  have hp : leBytes 1 ph = [BitVec.ofNat 8 ((i / 2 ^ (s.queue q).lsz.toNat + 1) % 2)] := rfl
  have ht : t = s.recordWritten q i c := by simp only [t, State.recordWritten, hp, ha, hb]
  clear_value t
  subst ht
  split
  · exact ⟨_, rfl⟩
  · exact ⟨(s.recordWritten q i c).msix, rfl⟩

theorem State.completeRecord_host (s : State) (q : Fin 256) (i : Nat) (c : Completion) :
    (s.completeRecord q i c).host =
      ((s.hostWrite ((s.queue q).complAddr i) (c.body s.now)).hostWrite ((s.queue q).complAddr i + 31)
        [BitVec.ofNat 8 ((i / 2 ^ (s.queue q).lsz.toNat + 1) % 2)]).host := by
  obtain ⟨m, h⟩ := s.completeRecord_eq q i c; rw [h]; rfl

theorem State.completeRecord_frame (s : State) (q : Fin 256) (i : Nat) (c : Completion) :
    { s.completeRecord q i c with host := s.host, queues := s.queues, msix := s.msix } = s := by
  obtain ⟨m, h⟩ := s.completeRecord_eq q i c; rw [h]; rfl

@[simp] theorem State.queue_completeRecord (s : State) (q : Fin 256) (i : Nat) (c : Completion) :
    (s.completeRecord q i c).queue q = (s.queue q).complete i := by
  obtain ⟨m, h⟩ := s.completeRecord_eq q i c
  rw [h]
  exact State.queue_modQueue _ q fun u => u.complete i

/-- Tag, kind and status of a completed record stand in the host's memory. -/
theorem State.hostRead_completeRecord (s : State) (q : Fin 256) (i : Nat) (c : Completion) (h : s.host.wf = true) :
    (s.completeRecord q i c).hostRead ((s.queue q).complAddr i) 4 =
      leBytes 2 c.tag ++ [BitVec.ofNat 8 c.op, BitVec.ofNat 8 c.status] := by
  have hb := c.length_body s.now
  rw [State.hostRead_congr (s.completeRecord_host q i c), State.hostRead_hostWrite_above _ _ 31 _ _ (s.wf_hostWrite _ _ h) (by omega) (by simp),
    s.hostRead_hostWrite _ _ _ h (by omega) (by omega), Completion.body_take]

/-- So does its phase. -/
theorem State.hostRead_completeRecord_phase (s : State) (q : Fin 256) (i : Nat) (c : Completion) (h : s.host.wf = true) :
    (s.completeRecord q i c).hostRead ((s.queue q).complAddr i + 31) 1 =
      [BitVec.ofNat 8 ((i / 2 ^ (s.queue q).lsz.toNat + 1) % 2)] := by
  rw [State.hostRead_congr (s.completeRecord_host q i c), State.hostRead_hostWrite _ _ _ _ (s.wf_hostWrite _ _ h) (by simp) (by simp)]
  rfl

@[simp] theorem State.queue_started (s : State) (k : Fin 32) (q : Fin 256) : (s.started k q).queue q =
    { s.queue q with started := (s.queue q).started + 1, qblk := 0, qwait := List.replicate 16 0 }  :=
  s.queue_modQueue q fun u => { u with started := u.started + 1, qblk := 0, qwait := List.replicate 16 0 }

/-- A record that starts and is complete at once is done, with its own tag and kind. -/
theorem State.recordDone_finishRecord (s : State) (k : Fin 32) (q : Fin 256) (i : Nat) (r : List Byte) (st d : Nat) (h : s.host.wf = true) :
    s.recordDone (s.finishRecord k q i r st d) q i (recField r 2 2) (recField r 0 1) st := by
  have ha : ((s.started k q).queue q).complAddr i = (s.queue q).complAddr i := by rw [State.queue_started]; rfl
  have hl : ((s.started k q).queue q).lsz = (s.queue q).lsz := by rw [State.queue_started]
  refine ⟨?_, ?_, ?_⟩
  · rw [State.finishRecord, State.queue_completeRecord, State.queue_started]
    exact congrArg UserQueue.started (UserQueue.complete_frame _ i)
  · have := (s.started k q).hostRead_completeRecord q i (Completion.plain (recField r 2 2) (recField r 0 1) st d) h
    rwa [ha] at this
  · have := (s.started k q).hostRead_completeRecord_phase q i (Completion.plain (recField r 2 2) (recField r 0 1) st d) h
    rwa [ha, hl] at this

theorem State.recordWaits_block (s : State) (k : Fin 32) (q : Fin 256) (r : List Byte) : s.recordWaits (s.block k q r) k q := by
  unfold State.block
  split
  case isTrue hb => exact ⟨hb, rfl, rfl⟩
  case isFalse =>
    refine ⟨?_, ?_, ?_⟩
    · simp [State.modSlot]
    · simp
    · simp [State.modSlot]

theorem State.withRecord_head {s : State} {k : Fin 32} {q : Fin 256} {i op : Nat} {r : List Byte} (h : s.headRecord k = some (q, i, r))
    (hb : badField r = none) (ho : recField r 0 1 = op) (f : Fin 256 → Nat → List Byte → State) : s.withRecord k op f = .next (f q i r) := by
  simp only [State.withRecord, h, hb, ho, if_true]

/-! ### The LAUNCH record at a slot's head (R397, R399; log 41) -/

theorem mem_insertBy {α : Type} (le : α → α → Bool) (x y : α) (l : List α) : y ∈ insertBy le x l ↔ y = x ∨ y ∈ l := by
  induction l with
  | nil => simp [insertBy]
  | cons z l ih =>
    unfold insertBy
    split
    · simp only [List.mem_cons, ih]; tauto
    · simp only [List.mem_cons]

/-- Ordering a list keeps its elements. -/
theorem mem_sortBy {α : Type} (le : α → α → Bool) (y : α) (l : List α) : y ∈ sortBy le l ↔ y ∈ l := by
  suffices h : ∀ acc : List α, y ∈ l.foldl (fun acc x => insertBy le x acc) acc ↔ y ∈ acc ∨ y ∈ l by simp [sortBy, h]
  induction l with
  | nil => simp
  | cons x l ih => intro acc; simp only [List.foldl_cons, ih, mem_insertBy, List.mem_cons]; tauto

/-- Which records admission chooses from: well-formed LAUNCH records at the slots' heads that the host has parsed or need not (R280, R401). -/
theorem State.mem_launchHeads (s : State) (k : Fin 32) (l : Launch) : (k, l) ∈ s.launchHeads ↔
    ∃ q i r, s.headRecord k = some (q, i, r) ∧ recField r 0 1 = 2 ∧ badField r = none ∧ s.parseWaits q i r = false ∧
      s.parseRefused q i r = false ∧ l = launchRec r q k i := by
  simp only [State.launchHeads, mem_sortBy, List.mem_filterMap, List.mem_finRange, true_and]
  constructor
  · rintro ⟨j, hj⟩
    split at hj
    case h_1 q i r hr =>
      split at hj
      case isTrue hc =>
        obtain ⟨rfl, rfl⟩ := Prod.mk.inj (Option.some.inj hj)
        obtain ⟨ho, hb, hw, hx⟩ := hc
        exact ⟨q, i, r, hr, ho, by simpa using hb, by simpa using hw, by simpa using hx, rfl⟩
      case isFalse => cases hj
    case h_2 => cases hj
  · rintro ⟨q, i, r, hr, ho, hb, hw, hx, rfl⟩
    exact ⟨k, by simp [hr, ho, hb, hw, hx]⟩

theorem State.launchHeads_st {s : State} {k : Fin 32} {l : Launch} (h : (k, l) ∈ s.launchHeads) : l.st = .admitted := by
  obtain ⟨q, i, r, -, -, -, -, -, rfl⟩ := (s.mem_launchHeads k l).1 h
  rfl

theorem State.launchCheck_no_image (s : State) (l : Launch) (h : s.imageOf l.handle = none) : s.launchCheck l = .done 4 0 := by
  simp only [State.launchCheck, h]

/-- What LAUNCH does to a parsed record, by the outcome of its check. -/
def State.launchTaken (s : State) (k : Fin 32) (q : Fin 256) (i : Nat) (r : List Byte) : LaunchOut → State
  | .done st d => (s.settle fnParse (parseBody q i r)).finishRecord k q i r st d
  | .wait => s.block k q r
  | .admitJob _ => s

section
variable {s : State} {k : Fin 32} {q : Fin 256} {i : Nat} {r : List Byte} (hr : s.headRecord k = some (q, i, r)) (hb : badField r = none)
  (ho : recField r 0 1 = 2) (hh : s.hold = false) (hw : s.parseWaits q i r = false) (hx : s.parseRefused q i r = false)
include hr hb ho hh hw hx

theorem exec_launch : exec (.launch k) s = .next (s.launchTaken k q i r (s.launchCheck (launchRec r q k i))) := by
  show execLaunch k s = _
  rw [execLaunch, State.withRecord_head hr hb ho]
  simp only [hh, hw, hx, Bool.false_eq_true, if_false]
  cases s.launchCheck (launchRec r q k i) <;> rfl

theorem exec_launch_done (hm : s.host.wf = true) {st d : Nat} (hc : s.launchCheck (launchRec r q k i) = .done st d) :
    ∃ t, exec (.launch k) s = .next t ∧ s.recordDone t q i (recField r 2 2) 2 st := by
  refine ⟨_, exec_launch hr hb ho hh hw hx, ?_⟩
  have := (s.settle fnParse (parseBody q i r)).recordDone_finishRecord k q i r st d hm
  rw [ho] at this
  rw [hc]
  exact this

theorem exec_launch_wait (hc : s.launchCheck (launchRec r q k i) = .wait) : ∃ t, exec (.launch k) s = .next t ∧ s.recordWaits t k q :=
  ⟨_, exec_launch hr hb ho hh hw hx, by rw [hc]; exact s.recordWaits_block k q r⟩

end

/-! ### Admission (R22, R280) -/

/-- The start tick is the first on which the tiles are ready, or the one asked for, modulo 2^64 (R22). -/
theorem start_le_used {start ready : Nat} (h : start < 2 ^ 64) :
    start ≤ (if (combTime ready).toNat < start then ready + (start - (combTime ready).toNat) else ready) % 2 ^ 64 := by
  have hc : (combTime ready).toNat = ready % 2 ^ 64 := BitVec.toNat_ofNat ..
  split <;> omega

/-- The launch as `admitJob` enters it. -/
def State.admittedLaunch (s : State) (l : Launch) (img : Image) : Launch :=
  let readyAt := s.now + 2 + Config.recordLatency s.free
  { l with lid := s.nextLid, occ := img.occ,
           tasks := (l.rect s.fuses.gx s.fuses.gy).filterMap fun e => (entryPoint (l.sections img e.1 e.2.1 e.2.2)).map fun pc => (e.1, pc),
           readyAt := readyAt,
           used := if (combTime readyAt).toNat < l.start then readyAt + (l.start - (combTime readyAt).toNat) else readyAt }

theorem State.admitJob_launches (s : State) (k : Fin 32) (l : Launch) (img : Image) :
    (s.admitJob k l img).launches = s.launches ++ [s.admittedLaunch l img] := rfl

theorem State.admitJob_u (s : State) (k : Fin 32) (l : Launch) (img : Image) :
    (s.admitJob k l img).slots[k].u = s.slots[k].u + img.occ := by
  simp [State.admitJob, State.modSlot, State.started]

theorem State.admitJob_started (s : State) (k : Fin 32) (l : Launch) (img : Image) :
    ((s.admitJob k l img).queue l.queue).started = (s.queue l.queue).started + 1 := by
  have h (u : State) (hu : u.queues = s.queues) : ((u.started k l.queue).queue l.queue).started = (s.queue l.queue).started + 1 := by
    rw [State.queue_started]; simp only [State.queue, hu]
  exact h _ rfl

/-- The only head LAUNCH record is admitted: its answer from the host is used up, and says which sections its tiles take (R401). -/
theorem execLaunchAdmission_one {s : State} {k : Fin 32} {l : Launch} {img : Image} (hh : s.hold = false) (hl : s.launchHeads = [(k, l)])
    (hc : s.launchCheck l = .admitJob img) :
    ∃ rest h, exec .launchAdmission s = .next ({ s with assists := rest }.admitJob k { l with host := h } img) := by
  show ∃ rest h, execLaunchAdmission s = _
  simp only [execLaunchAdmission, hh, hl, List.foldl_cons, List.foldl_nil, hc, Bool.false_eq_true, if_false]
  exact ⟨_, _, rfl⟩

/-! ### The start tick (R22, R23, R101, R397) -/

theorem Context.initReg_frame (c : Context) (e : Nat × Nat × Nat) :
    { c.initReg e with s := c.s, a := c.a, v := c.v, m := c.m, p := c.p, stack := c.stack, status := c.status } = c := by
  unfold Context.initReg
  split
  · rfl
  · rfl
  · rfl
  · exact (congrArg (fun x : Context => { x with s := c.s, a := c.a, v := c.v }) (c.put_frame _) :)
  · exact (congrArg (fun x : Context => { x with s := c.s, a := c.a, v := c.v }) (c.put_frame _) :)

/-- A context stands as a launch's task begins: active at its entry, at task tick 0, with the launch's values in its CSRs (R23, R101,
R109). -/
def Context.beginsTask (c : Context) (l : Launch) (pc : VAddr) : Prop :=
  c.st = .active ∧ c.pc = pc ∧ c.tt = 0 ∧ c.pend = [] ∧ c.loops = [] ∧ c.lid = some l.lid ∧
    c.rank = BitVec.ofNat 32 (l.rank.toNat * 257) ∧ c.hbase = l.desc.hbase ∧ c.hlimit = l.desc.hlimit

/-- Initial registers of the image change the register files only (R58). -/
theorem Context.initReg_beginsTask {c : Context} {l : Launch} {pc : VAddr} (h : c.beginsTask l pc) (e : Nat × Nat × Nat) :
    (c.initReg e).beginsTask l pc := by
  rw [← c.initReg_frame e] at h
  exact h

theorem Launch.context_beginsTask (l : Launch) (cs : List Section) (pc : VAddr) (now : Nat) : (l.context cs pc now).beginsTask l pc := by
  have fold (rs : List (Nat × Nat × Nat)) (c : Context) (h : c.beginsTask l pc) : (rs.foldl Context.initReg c).beginsTask l pc := by
    induction rs generalizing c with
    | nil => exact h
    | cons e rs ih => exact ih _ (Context.initReg_beginsTask h e)
  exact fold _ _ ⟨rfl, rfl, rfl, rfl, rfl, rfl, rfl, rfl, rfl⟩

/-- A tile's start touches that tile and the timeline values on their way to it. -/
theorem State.startTile_eq (s : State) (l : Launch) (img : Image) (e : TileId × Nat × Nat) :
    s.startTile l img e = s ∨ ∃ ds x, s.startTile l img e = { s with deliveries := ds }.setTile e.1 x := by
  unfold State.startTile
  extract_lets
  split
  · exact .inl rfl
  · exact .inr ⟨_, _, rfl⟩

theorem State.startTile_tile_ne (s : State) (l : Launch) (img : Image) (e : TileId × Nat × Nat) {t : TileId} (h : t ≠ e.1) :
    (s.startTile l img e).tile t = s.tile t := by
  rcases s.startTile_eq l img e with he | ⟨ds, x, he⟩
  · rw [he]
  · rw [he]; exact State.tile_setTile_ne _ x h

theorem State.startTile_map (s : State) (l : Launch) (img : Image) (e : TileId × Nat × Nat) :
    (s.startTile l img e).tmap = s.tmap ∧ (s.startTile l img e).fuses = s.fuses := by
  rcases s.startTile_eq l img e with he | ⟨ds, x, he⟩ <;> rw [he] <;> exact ⟨rfl, rfl⟩

theorem State.startTile_isAbsent (s : State) (l : Launch) (img : Image) (e : TileId × Nat × Nat) (t : TileId) :
    (s.startTile l img e).isAbsent t = s.isAbsent t := by
  obtain ⟨hm, hf⟩ := s.startTile_map l img e
  simp only [State.isAbsent, State.mapEntry, hm, hf]

/-- Taking the array leaves the contexts. -/
theorem Tile.ctx_ite_own (x : Tile) (p : Prop) [Decidable p] (c d : Fin 4) :
    (if p then { x with own := c, ownV := true, ownRel := false } else x).ctx d = x.ctx d := by
  split <;> rfl

/-- On a tile that is there and for which the launch has sections, its task begins. -/
theorem State.startTile_beginsTask (s : State) (l : Launch) (img : Image) (e : TileId × Nat × Nat) (w : TileId × VAddr)
    (hs : l.sections img e.1 e.2.1 e.2.2 ≠ []) (ha : s.isAbsent e.1 = false) (hw : l.tasks.find? (fun y => y.1 == e.1) = some w) :
    ((s.startTile l img e).ctx e.1 l.ctx).beginsTask l w.2 := by
  have hs' : (l.sections img e.1 e.2.1 e.2.2).isEmpty = false := by simpa using hs
  unfold State.startTile
  extract_lets cs x busy prepared tables begun
  clear_value tables
  have hz : begun.ctx l.ctx = { l.context cs w.2 s.now with tlOut := (tables.ctx l.ctx).tlOut } := by
    simp only [begun, hw]
    exact (Tile.ctx_ite_own _ _ _ _).trans (Tile.ctx_modCtx _ _ _)
  simp only [cs, hs', ha, Bool.or_false, Bool.false_eq_true, if_false]
  rw [State.ctx, State.tile_setTile]
  show (begun.ctx l.ctx).beginsTask l w.2
  rw [hz]
  exact l.context_beginsTask cs w.2 s.now

/-- Tiles that start one after another each begin their task. -/
theorem State.startTiles_beginsTask (l : Launch) (img : Image) (es : List (TileId × Nat × Nat)) (s : State) (hn : (es.map Prod.fst).Nodup)
    (e : TileId × Nat × Nat) (w : TileId × VAddr) (he : e ∈ es) (hs : l.sections img e.1 e.2.1 e.2.2 ≠ []) (ha : s.isAbsent e.1 = false)
    (hw : l.tasks.find? (fun y => y.1 == e.1) = some w) :
    ((es.foldl (fun s e => s.startTile l img e) s).ctx e.1 l.ctx).beginsTask l w.2 := by
  have later (fs : List (TileId × Nat × Nat)) (u : State) (hf : e.1 ∉ fs.map Prod.fst) :
      (fs.foldl (fun s e => s.startTile l img e) u).ctx e.1 = u.ctx e.1 := by
    induction fs generalizing u with
    | nil => rfl
    | cons f fs ih =>
      obtain ⟨h1, h2⟩ := not_or.1 (List.mem_cons.not.1 hf)
      rw [List.foldl_cons, ih _ h2]
      funext c
      rw [State.ctx, State.startTile_tile_ne _ _ _ _ h1]; rfl
  induction es generalizing s with
  | nil => cases he
  | cons f fs ih =>
    obtain ⟨h1, h2⟩ := List.nodup_cons.1 hn
    rcases List.mem_cons.1 he with rfl | he
    · rw [List.foldl_cons, later fs _ h1]
      exact s.startTile_beginsTask l img e w hs ha hw
    · exact ih _ h2 he (by rw [State.startTile_isAbsent]; exact ha)

theorem State.launchOf_modLaunch_running (s : State) (lid : Nat) (n : Launch)
    (h : (s.modLaunch lid fun l => { l with st := .running }).launchOf lid = some n) : n.st = .running := by
  have hid : n.lid = lid := by simpa using List.find?_some h
  obtain ⟨o, -, rfl⟩ := List.mem_map.1 (List.mem_of_find?_eq_some h)
  by_cases ho : o.lid = lid
  · rw [if_pos ho]
  · rw [if_neg ho] at hid; exact absurd hid ho

/-- On its start tick a launch runs, and on each of its tiles that is there and has sections its task begins. -/
theorem launchStart_begins {s : State} {l : Launch} {img : Image} (hl : s.launchOf l.lid = some l) (hi : s.imageOf l.handle = some img)
    (hn : ((l.rect s.fuses.gx s.fuses.gy).map Prod.fst).Nodup) :
    ∃ t, exec (.launchStart l.lid) s = .next t ∧ (∀ n, t.launchOf l.lid = some n → n.st = .running) ∧
      ∀ e ∈ l.rect s.fuses.gx s.fuses.gy, l.sections img e.1 e.2.1 e.2.2 ≠ [] → s.isAbsent e.1 = false →
        ∀ w, l.tasks.find? (fun y => y.1 == e.1) = some w → (t.ctx e.1 l.ctx).beginsTask l w.2 := by
  show ∃ t, execLaunchStart l.lid s = .next t ∧ _
  simp only [execLaunchStart, hl, hi]
  exact ⟨_, rfl, State.launchOf_modLaunch_running _ l.lid, fun e he hs ha w hw => State.startTiles_beginsTask l img _ s hn e w he hs ha hw⟩

/-! ### Retirement (R24, R398) -/

theorem State.completeRecord_tiles (s : State) (q : Fin 256) (i : Nat) (c : Completion) : (s.completeRecord q i c).tiles = s.tiles :=
  (congrArg State.tiles (s.completeRecord_frame q i c) :)

/-- The context of one task becomes free, when it is still the launch's and its tile is there. -/
def State.freeTask (s : State) (l : Launch) (t : TileId) : State :=
  if (s.ctx t l.ctx).lid = some l.lid ∧ !s.isAbsent t then s.modCtx t l.ctx fun c => { c with st := .free, vcDropped := false } else s

theorem State.freeTasks_eq (s : State) (l : Launch) : s.freeTasks l = l.tasks.foldl (fun s e => s.freeTask l e.1) s := rfl

theorem State.freeTask_frame (s : State) (l : Launch) (t : TileId) : { s.freeTask l t with tiles := s.tiles } = s := by
  unfold State.freeTask; split <;> rfl

theorem State.freeTask_isAbsent (s : State) (l : Launch) (t u : TileId) : (s.freeTask l t).isAbsent u = s.isAbsent u := by
  unfold State.freeTask; split <;> rfl

/-- Whose a context is stays, and once free it is free. -/
theorem State.freeTask_keeps (s : State) (l : Launch) (t u : TileId) :
    ((s.freeTask l t).ctx u l.ctx).lid = (s.ctx u l.ctx).lid ∧
      ((s.ctx u l.ctx).st = .free → ((s.freeTask l t).ctx u l.ctx).st = .free) := by
  unfold State.freeTask
  split
  · by_cases h : u = t
    · subst h; rw [State.ctx_modCtx]; exact ⟨rfl, fun _ => rfl⟩
    · rw [State.ctx_modCtx_ne _ _ (.inl h)]; exact ⟨rfl, id⟩
  · exact ⟨rfl, id⟩

theorem State.freeTask_free (s : State) (l : Launch) (t : TileId) (hl : (s.ctx t l.ctx).lid = some l.lid) (ha : s.isAbsent t = false) :
    ((s.freeTask l t).ctx t l.ctx).st = .free := by
  simp only [State.freeTask, hl, ha, Bool.not_false, and_self, if_true, State.ctx_modCtx]

theorem State.freeTasks_free (s : State) (l : Launch) (e : TileId × VAddr) (he : e ∈ l.tasks) (hl : (s.ctx e.1 l.ctx).lid = some l.lid)
    (ha : s.isAbsent e.1 = false) : ((s.freeTasks l).ctx e.1 l.ctx).st = .free := by
  have later (es : List (TileId × VAddr)) (u : State) (h : (u.ctx e.1 l.ctx).st = .free) :
      ((es.foldl (fun s e => s.freeTask l e.1) u).ctx e.1 l.ctx).st = .free := by
    induction es generalizing u with
    | nil => exact h
    | cons f es ih => exact ih _ ((u.freeTask_keeps l f.1 e.1).2 h)
  have fold (es : List (TileId × VAddr)) (u : State) (he : e ∈ es) (hl : (u.ctx e.1 l.ctx).lid = some l.lid) (ha : u.isAbsent e.1 = false) :
      ((es.foldl (fun s e => s.freeTask l e.1) u).ctx e.1 l.ctx).st = .free := by
    induction es generalizing u with
    | nil => cases he
    | cons f es ih =>
      rcases List.mem_cons.1 he with rfl | he
      · exact later es _ (u.freeTask_free l e.1 hl ha)
      · exact ih _ he ((u.freeTask_keeps l f.1 e.1).1.trans hl) ((u.freeTask_isAbsent l f.1 e.1).trans ha)
  rw [State.freeTasks_eq]
  exact fold l.tasks s he hl ha

/-- Nothing but contexts changes as they become free. -/
theorem State.freeTasks_frame (s : State) (l : Launch) : { s.freeTasks l with tiles := s.tiles } = s := by
  have fold (es : List (TileId × VAddr)) (u : State) (ts : List (TileId × Tile)) :
      { es.foldl (fun s e => s.freeTask l e.1) u with tiles := ts } = { u with tiles := ts } := by
    induction es generalizing u with
    | nil => rfl
    | cons e es ih =>
      refine (ih (u.freeTask l e.1)).trans ?_
      exact (congrArg (fun v : State => { v with tiles := ts }) (u.freeTask_frame l e.1) :)
  rw [State.freeTasks_eq]
  exact fold l.tasks s s.tiles

/-- The slot's account, or that of the queue's shadow, rises by what the array commands used beyond the declared occupancy (R280). -/
def State.settleAccount (s : State) (l : Launch) : State :=
  match s.slotOf l.queue with
  | some k => s.modSlot k fun x => { x with u := x.u + (l.actual - l.occ) }
  | none => s.modQueue l.queue fun u => { u with quse := u.quse + BitVec.ofNat 64 (l.actual - l.occ) }

/-- The launch's timeline advances after those of its queue before it (R367). -/
def State.advanceAfter (s : State) (l : Launch) : State :=
  match l.timeline with
  | some tl =>
    let last : Nat := s.tlAfter.foldl (fun (m : Nat) (e : Fin 1024 × Nat × Fin 256) => if e.2.2 = l.queue then max m e.2.1 else m) 0
    { s with tlAfter := s.tlAfter ++ [(tl, max last (s.now + 1 + Config.recordLatency s.free), l.queue)] }.bump
  | none => s

/-- The completion record of a launch (R398, R400). -/
def Launch.completion (l : Launch) (vc : Bool) : Completion :=
  let bad := l.nfault ≠ 0 ∨ l.dropped
  { tag := l.tag.toNat, op := 2, status := if bad then 7 else 0, detail := if bad then l.nfault else 0, start := l.used,
    fcnt := (l.fcnt0.getD 0).toNat, faults := l.nfault, flags := l.dropped.toNat + 2 * vc.toNat }

def State.dropLaunch (s : State) (lid : Nat) : State := { s with launches := s.launches.filter fun o => o.lid != lid }

/-- A launch that is done retires: its contexts, its completion record, its account, its timeline. -/
theorem State.retireLaunch_eq {s : State} {l : Launch} (hl : s.launchOf l.lid = some l) (hd : s.launchDone l = true) :
    ∃ vc, s.retireLaunch l.lid = (((((s.freeTasks l).completeRecord l.queue l.recIdx (l.completion vc)).settleAccount l).dropLaunch
      l.lid).advanceAfter l).first (.ev .blockedReevaluation) := by
  refine ⟨l.vcDropped || l.tasks.any fun e => (s.ctx e.1 l.ctx).lid == some l.lid && (s.ctx e.1 l.ctx).vcDropped, ?_⟩
  rw [State.retireLaunch, hl]
  show (if (!s.launchDone l) = true then s else _) = _
  rw [if_neg (by simp [hd])]
  rfl

theorem State.settleAccount_frame (s : State) (l : Launch) :
    (s.settleAccount l).host = s.host ∧ (s.settleAccount l).tiles = s.tiles := by
  unfold State.settleAccount; split <;> exact ⟨rfl, rfl⟩

theorem State.advanceAfter_frame (s : State) (l : Launch) :
    (s.advanceAfter l).host = s.host ∧ (s.advanceAfter l).tiles = s.tiles ∧ (s.advanceAfter l).launches = s.launches := by
  unfold State.advanceAfter; split <;> exact ⟨rfl, rfl, rfl⟩

/-- After the completion record, retirement changes neither host memory nor tiles; the launch is gone. -/
theorem State.retireLaunch_leaves {s : State} {l : Launch} (hl : s.launchOf l.lid = some l) (hd : s.launchDone l = true) :
    ∃ vc, (s.retireLaunch l.lid).host = ((s.freeTasks l).completeRecord l.queue l.recIdx (l.completion vc)).host ∧
      (s.retireLaunch l.lid).tiles = (s.freeTasks l).tiles ∧ ∀ n ∈ (s.retireLaunch l.lid).launches, n.lid ≠ l.lid := by
  obtain ⟨vc, hr⟩ := State.retireLaunch_eq hl hd
  have hc := State.completeRecord_tiles (s.freeTasks l) l.queue l.recIdx (l.completion vc)
  refine ⟨vc, ?_⟩
  rw [hr]
  generalize (s.freeTasks l).completeRecord l.queue l.recIdx (l.completion vc) = u at hc ⊢
  obtain ⟨hhost, htiles, hlaunches⟩ := ((u.settleAccount l).dropLaunch l.lid).advanceAfter_frame l
  obtain ⟨hhost', htiles'⟩ := u.settleAccount_frame l
  refine ⟨hhost.trans hhost', htiles.trans (htiles'.trans hc), fun n hn => ?_⟩
  rw [State.first_launches, hlaunches] at hn
  simpa using (List.mem_filter.1 hn).2

/-- A launch whose tasks have ended without a fault is complete with status 0, is gone, and its contexts are free. -/
theorem State.retireLaunch_clean {s : State} {l : Launch} (hl : s.launchOf l.lid = some l) (hd : s.launchDone l = true)
    (hf : l.nfault = 0) (hx : l.dropped = false) (hm : s.host.wf = true) :
    (∀ n ∈ (s.retireLaunch l.lid).launches, n.lid ≠ l.lid) ∧
      (s.retireLaunch l.lid).hostRead ((s.queue l.queue).complAddr l.recIdx) 4 = leBytes 2 l.tag.toNat ++ [2, 0] ∧
      ∀ e ∈ l.tasks, (s.ctx e.1 l.ctx).lid = some l.lid → s.isAbsent e.1 = false →
        ((s.retireLaunch l.lid).ctx e.1 l.ctx).st = .free := by
  obtain ⟨vc, hhost, htiles, hgone⟩ := State.retireLaunch_leaves hl hd
  refine ⟨hgone, ?record, fun e he hi ha => ?contexts⟩
  case record =>
    have hq : (s.freeTasks l).queue l.queue = s.queue l.queue := (congrArg (fun v : State => v.queue l.queue) (s.freeTasks_frame l) :)
    have hh : (s.freeTasks l).host = s.host := (congrArg State.host (s.freeTasks_frame l) :)
    have hs : (l.completion vc).status = 0 := by simp [Launch.completion, hf, hx]
    have h := (s.freeTasks l).hostRead_completeRecord l.queue l.recIdx (l.completion vc) (hh ▸ hm)
    rw [hq, hs] at h
    exact (State.hostRead_congr hhost _ _).trans h
  case contexts =>
    have h := s.freeTasks_free l e he hi ha
    simp only [State.ctx, State.tile] at h ⊢
    rw [htiles]
    exact h

theorem exec_launchRetire {s : State} {l : Launch} (hl : s.launchOf l.lid = some l) (hd : s.launchDone l = true) (hg : s.fw.gap = false) :
    exec (.launchRetire l.lid) s = .next (s.retireLaunch l.lid) := by
  show execLaunchRetire l.lid s = _
  simp only [execLaunchRetire, hl, hd, hg, Bool.not_true, Bool.false_eq_true, if_false]

/-- Settles O49: the outcome of the check decides what becomes of the record at the head; admission, the start tick and retirement each
by what its operation does. -/
theorem launchesRun : Obligations.LaunchesRun := by
  unfold Obligations.LaunchesRun
  intro s k q i r l img hm
  have hw := s.memOk_host hm
  refine ⟨fun hr hb ho hh hp hx => ⟨?noImage, ?waits, ?refused, ?admissible⟩, ?admitted, ?started, ?retired⟩
  case noImage =>
    exact fun hi => exec_launch_done hr hb ho hh hp hx hw (State.launchCheck_no_image s _ hi)
  case waits => exact exec_launch_wait hr hb ho hh hp hx
  case refused => exact fun st d hc => exec_launch_done hr hb ho hh hp hx hw hc
  case admissible =>
    intro hc
    refine ⟨?_, (s.mem_launchHeads k _).2 ⟨q, i, r, hr, ho, hb, hp, hx, rfl⟩⟩
    rw [exec_launch hr hb ho hh hp hx, hc]
    rfl
  case admitted =>
    intro hh hl hc
    obtain ⟨rest, h, he⟩ := execLaunchAdmission_one hh hl hc
    have hs := State.launchHeads_st (s := s) (k := k) (l := l) (hl ▸ List.mem_singleton_self _)
    exact ⟨_, _, he, State.admitJob_launches .., rfl, hs, rfl, rfl, start_le_used, State.admitJob_u .., State.admitJob_started ..⟩
  case started => exact launchStart_begins
  case retired =>
    intro hl hd hg hf hx
    exact ⟨_, exec_launchRetire hl hd hg, State.retireLaunch_clean hl hd hf hx hw⟩

end Sys2Proof.Machine

/-! Decoding of encoded instructions (O54): the fields of each layout (R32 to R37, R53), the operand codes, then each decoder. -/

namespace Sys2Proof

/-! ### Fields of words -/

@[simp] theorem req_eq_some {ok : Bool} {i j : Instr} : req ok i = some j ↔ ok = true ∧ i = j := by
  unfold req; split <;> simp [*]

theorem reg_eq_iff {n : Nat} [NeZero n] {w lo : Nat} {r : Fin n} : reg n w lo = r ↔ w / 2 ^ lo % n = r.val := Fin.ext_iff
theorem imm_eq_iff {n w lo : Nat} {v : BitVec n} : imm n w lo = v ↔ w / 2 ^ lo % 2 ^ n = v.toNat := by
  rw [← BitVec.toNat_inj, imm, BitVec.toNat_ofNat]
theorem flag_eq_iff {w lo : Nat} {b : Bool} : flag w lo = b ↔ w / 2 ^ lo % 2 = b.toNat := by
  unfold flag; cases b <;> simp

/-! ### Operand codes -/

theorem Cond.code_lt (c : Cond) : c.code < 8 := by cases c <;> decide
theorem SignCond.code_lt (c : SignCond) : c.code < 8 := by cases c <;> decide
theorem ScoutCond.code_lt (c : ScoutCond) : c.code < 4 := by cases c <;> decide
theorem VType.code_lt (c : VType) : c.code < 4 := by cases c <;> decide
theorem VCond.code_lt (c : VCond) : c.code < 16 := by cases c <;> decide
theorem VRedOp.code_lt (c : VRedOp) : c.code < 16 := by cases c <;> decide
theorem AmoOp.code_lt (c : AmoOp) : c.code < 16 := by cases c <;> decide
theorem AccCtl.code_lt (c : AccCtl) : c.code < 4 := by cases c <;> decide
theorem DrainFmt.code_lt (c : DrainFmt) : c.code < 8 := by cases c <;> decide
theorem ReduceOp.code_lt (c : ReduceOp) : c.code < 8 := by cases c <;> decide
theorem BufState.code_lt (c : BufState) : c.code < 4 := by cases c <;> decide
theorem Scope.code_lt (c : Scope) : c.code < 16 := by cases c <;> decide
theorem Csr.code_lt (c : Csr) : c.code < 2 ^ 12 := by cases c <;> simp only [Csr.code] <;> omega

@[simp] theorem Cond.ofCode_code (c : Cond) : Cond.ofCode c.code = c := by cases c <;> rfl
@[simp] theorem SignCond.ofCode_code (c : SignCond) : SignCond.ofCode c.code = some c := by cases c <;> rfl
@[simp] theorem ScoutCond.ofCode_code (c : ScoutCond) : ScoutCond.ofCode c.code = c := by cases c <;> rfl
@[simp] theorem VType.ofCode_code (c : VType) : VType.ofCode c.code = c := by cases c <;> rfl
@[simp] theorem VCond.ofCode_code (c : VCond) : VCond.ofCode c.code = some c := by cases c <;> rfl
@[simp] theorem VRedOp.ofCode_code (c : VRedOp) : VRedOp.ofCode c.code = some c := by cases c <;> rfl
@[simp] theorem AmoOp.ofCode_code (c : AmoOp) : AmoOp.ofCode c.code = some c := by cases c <;> rfl
@[simp] theorem AccCtl.ofCode_code (c : AccCtl) : AccCtl.ofCode c.code = some c := by cases c <;> rfl
@[simp] theorem DrainFmt.ofCode_code (c : DrainFmt) : DrainFmt.ofCode c.code = some c := by cases c <;> rfl
@[simp] theorem ReduceOp.ofCode_code (c : ReduceOp) : ReduceOp.ofCode c.code = c := by cases c <;> rfl
@[simp] theorem BufState.ofCode_code (c : BufState) : BufState.ofCode c.code = c := by cases c <;> rfl
@[simp] theorem Scope.ofCode_code (c : Scope) : Scope.ofCode c.code = some c := by cases c <;> rfl
@[simp] theorem Csr.ofCode_code (c : Csr) : Csr.ofCode c.code = some c := by
  cases c
  case err i | pmc i | pmsel i | colp i => fin_cases i <;> rfl
  all_goals rfl

/-! ### The fields that the decoders branch on -/

theorem fld_layCtl_op {op v : Nat} (ho : op < 64) (hv : v < 2 ^ 25) : fld (layCtl op v) 25 6 = op := by unfold fld layCtl; omega
theorem fld_layOp_op {op v : Nat} (ho : op < 64) (hv : v < 2 ^ 21) : fld (layOp op v) 21 6 = op := by unfold fld layOp; omega

section
variable {op rd a b fn v : Nat} (ho : op < 64) (hr : rd < 32) (ha : a < 32) (hb : b < 32) (hf : fn < 64) (hv : v < 2 ^ 11)

theorem fld_layR_fn (hf : fn < 64) : fld (layR op rd a b fn) 0 6 = fn := by unfold fld layR; omega
include ho hr ha
theorem fld_layI_op (hv : v < 2 ^ 11) : fld (layI op rd a v) 21 6 = op := by unfold fld layI; omega
include hb hf
theorem fld_layR_op : fld (layR op rd a b fn) 21 6 = op := by unfold fld layR; omega
theorem fld_layX_op : fld (layX op rd a b fn) 21 6 = op := by unfold fld layX; omega
end

theorem fld_layC_op {op row base off : Nat} (ho : op < 64) (hr : row < 64) (hb : base < 32) (hf : off < 2 ^ 10) :
    fld (layC op row base off) 21 6 = op := by unfold fld layC; omega

section
variable {op vd va vb mk ty fn : Nat}

theorem fld_layV_fn (hf : fn < 16) : fld (layV op vd va vb mk ty fn) 0 4 = fn := by unfold fld layV; omega
theorem fld_layVX_fn {x : Nat} (hf : fn < 16) : fld (layVX op vd va x ty fn) 0 4 = fn := by unfold fld layVX; omega
theorem fld_layV_ty (hf : fn < 16) (ht : ty < 4) : fld (layV op vd va vb mk ty fn) 4 2 = ty := by unfold fld layV; omega
theorem fld_layVX_ty {x : Nat} (hf : fn < 16) (ht : ty < 4) : fld (layVX op vd va x ty fn) 4 2 = ty := by unfold fld layVX; omega
theorem fld_layV_op (ho : op < 64) (hd : vd < 16) (ha : va < 16) (hb : vb < 16) (hm : mk < 8) (ht : ty < 4) (hf : fn < 16) :
    fld (layV op vd va vb mk ty fn) 21 6 = op := by unfold fld layV; omega
theorem fld_layVX_op {x : Nat} (ho : op < 64) (hd : vd < 16) (ha : va < 16) (hx : x < 128) (ht : ty < 4) (hf : fn < 16) :
    fld (layVX op vd va x ty fn) 21 6 = op := by unfold fld layVX; omega
end

theorem fld_layCopy_op {op : Nat} (ho : op < 64) (c : CopyOps) : fld (layCopy op c) 21 6 = op := by
  have := c.f.toNat_le; have := c.t.toNat_le; have := c.st.toNat_le
  unfold fld layCopy; omega
theorem fld_layMsg_op {op o : Nat} (ho : op < 64) (h : o < 8) (m : MsgOps) : fld (layMsg op m o) 21 6 = op := by
  have := m.t.toNat_le
  unfold fld layMsg; omega
theorem fld_layMsg_low {op o : Nat} (h : o < 8) (m : MsgOps) : fld (layMsg op m o) 0 3 = o := by
  have := m.t.toNat_le
  unfold fld layMsg; omega

section
variable {op d a b fn : Nat}
theorem fld_laySX_fn (hf : fn < 64) : fld (laySX op d a b fn) 8 6 = fn := by unfold fld laySX; omega
theorem fld_laySX_low : fld (laySX op d a b fn) 0 8 = 0 := by unfold fld laySX; omega
theorem fld_laySX_op (ho : op < 64) (hd : d < 16) (ha : a < 16) (hb : b < 16) (hf : fn < 64) :
    fld (laySX op d a b fn) 26 6 = op := by unfold fld laySX; omega
end

/-- The operands of the Copy layout are read back (R37). -/
theorem copyOps_layCopy (op : Nat) (c : CopyOps) : copyOps (layCopy op c) = c := by
  obtain ⟨buf, ab, f, cn, t, st, rs⟩ := c
  have := f.toNat_le; have := t.toNat_le; have := st.toNat_le
  simp only [copyOps, CopyOps.mk.injEq, reg_eq_iff, flag_eq_iff, layCopy]
  omega

/-- The operands of the Message layout are read back (R37). -/
theorem msgOps_layMsg {op o : Nat} (ho : o < 8) (m : MsgOps) : msgOps (layMsg op m o) = m := by
  obtain ⟨ch, buf, cn, t⟩ := m
  have := t.toNat_le
  simp only [msgOps, MsgOps.mk.injEq, reg_eq_iff, flag_eq_iff, layMsg]
  omega

/-! ### The decoders -/

theorem decodeScalar_encode (i : Instr) (hh : i.home = .scalar) : decodeScalar false (encode i) = some i := by
  cases i
  case add rd a b | sub rd a b | and rd a b | or rd a b | xor rd a b | andn rd a b | shl rd a b | shr rd a b | sra rd a b
    | min rd a b | max rd a b | minu rd a b | maxu rd a b | mul rd a b | mulh rd a b | mulhu rd a b =>
    show decodeScalar false (layR _ _ _ _ _) = _
    simp (disch := omega) [decodeScalar, decodeAlu, fld_layR_op, fld_layR_fn, reg_eq_iff]
    unfold layR; omega
  case mov rd a | clz rd a | popc rd a =>
    show decodeScalar false (layR _ _ _ _ _) = _
    simp (disch := omega) [decodeScalar, decodeAlu, fld_layR_op, fld_layR_fn, reg_eq_iff]
    simp only [fld, layR]; omega
  case sel rd a b p =>
    show decodeScalar false (layR _ _ _ _ _) = _
    simp (disch := omega) [decodeScalar, fld_layR_op, reg_eq_iff]
    simp only [fld, layR]; omega
  case cmp c pd a b =>
    have hc := c.code_lt
    show decodeScalar false (layR _ _ _ _ _) = _
    have hf : fld (layR 4 pd.val a.val b.val c.code) 0 3 = c.code := by simp only [fld, layR]; omega
    simp (disch := omega) [decodeScalar, fld_layR_op, reg_eq_iff, hf]
    simp only [fld, layR]; omega
  case plog tt pd pa pb =>
    show decodeScalar false (layR _ _ _ _ _) = _
    simp (disch := omega) [decodeScalar, fld_layR_op, reg_eq_iff, imm_eq_iff]
    simp only [fld, layR]; omega
  case cmpi c pd a v =>
    show decodeScalar false (layI _ _ _ _) = _
    have hf : fld (layI (0x10 + c.code) pd.val a.val v.toNat) 21 3 = c.code := by have := c.code_lt; simp only [fld, layI]; omega
    cases c <;> simp only [Cond.code] at hf ⊢
    all_goals
      simp (disch := omega) [decodeScalar, fld_layI_op, reg_eq_iff, imm_eq_iff, hf, Cond.ofCode]
      simp only [fld, layI]; omega
  case addi rd a v | andi rd a v | ori rd a v | xori rd a v | shli rd a n | shri rd a n | srai rd a n =>
    show decodeScalar false (layI _ _ _ _) = _
    simp (disch := omega) [decodeScalar, fld_layI_op, reg_eq_iff, imm_eq_iff]
    simp only [fld, layI]; omega
  case movi rd v | movhi rd v =>
    show decodeScalar false (layOp _ _) = _
    simp (disch := omega) [decodeScalar, fld_layOp_op, reg_eq_iff, imm_eq_iff]
    unfold layOp; omega
  all_goals cases hh

theorem decodeSb_encode (i : Instr) (hh : i.home = .sb) : decodeScalar true (encode i) = some i := by
  cases i
  case aadd ad aa sb | acmb ad sa sb =>
    show decodeScalar true (layR _ _ _ _ _) = _
    simp (disch := omega) [decodeScalar, decodeSbOnly, fld_layR_op, reg_eq_iff]
    simp only [fld, layR]; omega
  case amov ad aa | amovFromPair ad sa | amovToScalar sd aa | amovHi sd aa =>
    show decodeScalar true (layR _ _ _ 0 _) = _
    have hf (op rd a fn : Nat) (h : fn < 64) : fld (layR op rd a 0 fn) 0 11 = fn := by simp only [fld, layR]; omega
    simp (disch := omega) [decodeScalar, decodeSbOnly, fld_layR_op, reg_eq_iff, hf]
    simp only [fld, layR]; omega
  case aaddi ad aa v | ldq qd base off =>
    show decodeScalar true (layI _ _ _ _) = _
    simp (disch := omega) [decodeScalar, decodeSbOnly, fld_layI_op, reg_eq_iff, imm_eq_iff]
    simp only [fld, layI]; omega
  all_goals cases hh

theorem decodeLd_encode (i : Instr) (hh : i.home = .ld) : decodeLd (encode i) = some i := by
  cases i
  case ldb rd base off | ldbu rd base off | ldh rd base off | ldhu rd base off | ldw rd base off | ldv vd base off | ldm md base off =>
    show decodeLd (layI _ _ _ _) = _
    simp (disch := omega) [decodeLd, fld_layI_op, regV, reg_eq_iff, imm_eq_iff]
    simp only [fld, layI]; omega
  case ldvs vd base stride off | ldvx vd base vi off =>
    show decodeLd (layX _ _ _ _ _) = _
    simp (disch := omega) [decodeLd, fld_layX_op, regV, auxV, reg_eq_iff, imm_eq_iff]
    simp only [fld, layX]; omega
  case ldacc row base off =>
    show decodeLd (layC _ _ _ _) = _
    simp (disch := omega) [decodeLd, fld_layC_op, reg_eq_iff, imm_eq_iff]
    unfold layC; omega
  all_goals cases hh

theorem decodeSt_encode (i : Instr) (hh : i.home = .st) : decodeSt (encode i) = some i := by
  cases i
  case stb rs base off | sth rs base off | stw rs base off | stv vs base off =>
    show decodeSt (layI _ _ _ _) = _
    simp (disch := omega) [decodeSt, fld_layI_op, regV, reg_eq_iff, imm_eq_iff]
    simp only [fld, layI]; omega
  case stvm vs base mk off | stvs vs base stride off | stvx vs base vi off | cas rd base rx =>
    show decodeSt (layX _ _ _ _ _) = _
    simp (disch := omega) [decodeSt, fld_layX_op, regV, auxV, reg_eq_iff, imm_eq_iff]
    simp only [fld, layX]; omega
  case stacc row base off =>
    show decodeSt (layC _ _ _ _) = _
    simp (disch := omega) [decodeSt, fld_layC_op, reg_eq_iff, imm_eq_iff]
    unfold layC; omega
  case amo op rd base rx =>
    have hc := op.code_lt
    show decodeSt (layX _ _ _ _ _) = _
    have hf : fld (layX 9 rd.val base.val rx.val (op.code * 4)) 2 4 = op.code := by simp only [fld, layX]; omega
    simp (disch := omega) [decodeSt, fld_layX_op, reg_eq_iff, hf]
    simp only [fld, layX]; omega
  all_goals cases hh

theorem decodeVec_encode (i : Instr) (hh : i.home = .vec) (hw : i.wellFormed = true) : decodeVec (encode i) = some i := by
  cases i
  case vadd vd va vb mk ty | vsub vd va vb mk ty | vmul vd va vb mk ty | vmin vd va vb mk ty | vmax vd va vb mk ty
    | vand vd va vb mk ty | vor vd va vb mk ty | vxor vd va vb mk ty | vsel vd va vb mk ty | vperm vd va vb mk ty =>
    have ht := ty.code_lt
    show decodeVec (layV _ _ _ _ _ _ _) = _
    simp (disch := omega) [decodeVec, fld_layV_op, fld_layV_ty, fld_layV_fn, reg_eq_iff]
    unfold layV; omega
  case vfma vd va vb mk ty =>
    have ht := ty.code_lt
    have hw : ty.isFloat = true := hw
    show decodeVec (layV _ _ _ _ _ _ _) = _
    simp (disch := omega) [decodeVec, fld_layV_op, fld_layV_ty, fld_layV_fn, reg_eq_iff, hw]
    unfold layV; omega
  case vshl vd va vb mk ty | vshr vd va vb mk ty | vsra vd va vb mk ty =>
    have ht := ty.code_lt
    have hw : (!ty.isFloat) = true := hw
    show decodeVec (layV _ _ _ _ _ _ _) = _
    simp (disch := omega) [decodeVec, fld_layV_op, fld_layV_ty, fld_layV_fn, reg_eq_iff, hw]
    unfold layV; omega
  case vabs vd va mk ty | vneg vd va mk ty =>
    have ht := ty.code_lt
    have hw : ty.isSigned = true := hw
    show decodeVec (layV _ _ _ _ _ _ _) = _
    simp (disch := omega) [decodeVec, fld_layV_op, fld_layV_ty, fld_layV_fn, reg_eq_iff, vs2Zero, hw]
    simp only [fld, layV]; omega
  case vexp2 vd va mk ty | vlog2 vd va mk ty | vrcp vd va mk ty | vrsqrt vd va mk ty =>
    have ht := ty.code_lt
    have hw : ty.isFloat = true := hw
    show decodeVec (layV _ _ _ _ _ _ _) = _
    simp (disch := omega) [decodeVec, fld_layV_op, fld_layV_ty, fld_layV_fn, reg_eq_iff, vs2Zero, hw]
    simp only [fld, layV]; omega
  case vmov vd va mk ty =>
    have ht := ty.code_lt
    show decodeVec (layV _ _ _ _ _ _ _) = _
    simp (disch := omega) [decodeVec, fld_layV_op, fld_layV_ty, fld_layV_fn, reg_eq_iff, vs2Zero]
    simp only [fld, layV]; omega
  case vred op vd va mk ty =>
    have ht := ty.code_lt
    have ho := op.code_lt
    show decodeVec (layV _ _ _ _ _ _ _) = _
    simp (disch := omega) [decodeVec, fld_layV_op, fld_layV_ty, fld_layV_fn, reg_eq_iff, vs2Zero]
    simp only [fld, layV]; omega
  case vcmp c md va vb mk ty =>
    have ht := ty.code_lt
    have ho := c.code_lt
    have hw : vcmpOk c ty = true := hw
    show decodeVec (layV _ _ _ _ _ _ _) = _
    simp (disch := omega) [decodeVec, fld_layV_op, fld_layV_ty, fld_layV_fn, reg_eq_iff, hw]
    simp only [fld, layV]; omega
  case vcvt vd va mk src dst rtz =>
    have ht := src.code_lt
    have hd := dst.code_lt
    have hr := rtz.toNat_le
    have hw : vcvtOk src dst = true := hw
    show decodeVec (layV _ _ _ _ _ _ _) = _
    have hf : fld (layV 6 vd.val va.val 0 mk.val src.code (dst.code + 4 * rtz.toNat)) 0 2 = dst.code := by unfold fld layV; omega
    simp (disch := omega) [decodeVec, fld_layV_op, fld_layV_ty, reg_eq_iff, flag_eq_iff, vs2Zero, hf, hw]
    simp only [fld, layV]; omega
  case vshlImm vd va n ty | vshrImm vd va n ty | vsraImm vd va n ty =>
    have ht := ty.code_lt
    have hw : (!ty.isFloat) = true := hw
    show decodeVec (layVX _ _ _ _ _ _) = _
    simp (disch := omega) [decodeVec, fld_layVX_op, fld_layVX_ty, fld_layVX_fn, reg_eq_iff, hw]
    simp only [fld, layVX]; omega
  case vext vd va n ty | vins vd va n ty | vbcast vd n ty =>
    have ht := ty.code_lt
    show decodeVec (layVX _ _ _ _ _ _) = _
    simp (disch := omega) [decodeVec, fld_layVX_op, fld_layVX_ty, fld_layVX_fn, reg_eq_iff]
    simp only [fld, layVX]; omega
  case vmovi vd v =>
    show decodeVec (layOp _ _) = _
    simp (disch := omega) [decodeVec, fld_layOp_op, reg_eq_iff, imm_eq_iff]
    unfold layOp; omega
  case vmsk tt md ma mb =>
    show decodeVec (layV _ _ _ _ _ _ _) = _
    simp (disch := omega) [decodeVec, fld_layV_op, reg_eq_iff, imm_eq_iff]
    simp only [fld, layV]; omega
  case vmpush mk =>
    show decodeVec (layV _ _ _ _ _ _ _) = _
    have hf : fld (layV 0x11 0 mk.val 0 0 0 0) 0 6 = 0 := by unfold fld layV; omega
    simp (disch := omega) [decodeVec, fld_layV_op, reg_eq_iff, hf]
    simp only [fld, layV]; omega
  case vminv | vmpop => rfl
  all_goals cases hh

theorem decodeMxu_encode (i : Instr) (hh : i.home = .mxu) (hw : i.wellFormed = true) : decodeMxu (encode i) = some i := by
  cases i
  case prec rs =>
    show decodeMxu (layOp _ _) = _
    simp (disch := omega) [decodeMxu, fld_layOp_op, reg_eq_iff]
    simp only [fld, layOp]; omega
  case pmaskRow vs =>
    show decodeMxu (layOp _ _) = _
    have hf : flag (layOp 8 (vs.val * 2 ^ 16)) 20 = false := by simp only [flag_eq_iff, Bool.toNat_false, layOp]; omega
    simp (disch := omega) [-Nat.reducePow, decodeMxu, fld_layOp_op, hf, reg_eq_iff]
    simp only [fld, layOp]; omega
  case pmaskCol vs =>
    show decodeMxu (layOp _ _) = _
    have hf : flag (layOp 8 (2 ^ 20 + vs.val * 2 ^ 16)) 20 = true := by simp only [flag_eq_iff, Bool.toNat_true, layOp]; omega
    simp (disch := omega) [-Nat.reducePow, decodeMxu, fld_layOp_op, hf, reg_eq_iff]
    simp only [fld, layOp]; omega
  case wswap => rfl
  case wld delay ring wp ta =>
    have := ta.toNat_le
    show decodeMxu (layOp _ _) = _
    simp (disch := omega) [decodeMxu, fld_layOp_op, reg_eq_iff, imm_eq_iff, flag_eq_iff]
    simp only [fld, layOp]; omega
  case mma delay ring h ctl wp ta =>
    have := ta.toNat_le
    have hc := ctl.code_lt
    show decodeMxu (layOp _ _) = _
    have hf : fld (layOp 4
        (delay.toNat * 2 ^ 13 + ring.val * 2 ^ 10 + h.val * 2 ^ 9 + ctl.code * 2 ^ 7 + wp.val * 2 ^ 6 + ta.toNat * 2 ^ 5)) 7 2 =
        ctl.code := by unfold fld layOp; omega
    simp (disch := omega) [-Nat.reducePow, decodeMxu, fld_layOp_op, hf, reg_eq_iff, imm_eq_iff, flag_eq_iff]
    simp only [fld, layOp]; omega
  case aclr first cnt =>
    have hw : rangeOk first cnt = true := hw
    show decodeMxu (layOp 5 (first.val * 2 ^ 15 + cnt.val * 2 ^ 9)) = _
    generalize hx : layOp _ _ = w
    unfold layOp at hx
    have ho : fld w 21 6 = 5 := by unfold fld; omega
    have hr : reg 64 w 15 = first := by rw [reg_eq_iff]; omega
    have hc : reg 64 w 9 = cnt := by rw [reg_eq_iff]; omega
    simp [decodeMxu, ho, hr, hc, hw]
    unfold fld; omega
  case ascl first cnt q =>
    have hw : rangeOk first cnt = true := hw
    show decodeMxu (layOp 6 (first.val * 2 ^ 15 + cnt.val * 2 ^ 9 + q.val * 2 ^ 6)) = _
    generalize hx : layOp _ _ = w
    unfold layOp at hx
    have ho : fld w 21 6 = 6 := by unfold fld; omega
    have hr : reg 64 w 15 = first := by rw [reg_eq_iff]; omega
    have hc : reg 64 w 9 = cnt := by rw [reg_eq_iff]; omega
    simp [decodeMxu, ho, hr, hc, hw, reg_eq_iff]
    unfold fld; omega
  case adrn first cnt dst k f =>
    have := k.toNat_le
    have hf := f.code_lt
    have hw : (rangeOk first cnt && adrnOk dst k) = true := hw
    rw [Bool.and_eq_true] at hw
    show decodeMxu (layOp 7 (first.val * 2 ^ 15 + cnt.val * 2 ^ 9 + dst.val * 2 ^ 4 + k.toNat * 2 ^ 3 + f.code)) = _
    generalize hx : layOp _ _ = w
    unfold layOp at hx
    have ho : fld w 21 6 = 7 := by unfold fld; omega
    have hr : reg 64 w 15 = first := by rw [reg_eq_iff]; omega
    have hc : reg 64 w 9 = cnt := by rw [reg_eq_iff]; omega
    have hd : reg 32 w 4 = dst := by rw [reg_eq_iff]; omega
    have hk : flag w 3 = k := by rw [flag_eq_iff]; omega
    have hm : fld w 0 3 = f.code := by unfold fld; omega
    simp [decodeMxu, ho, hr, hc, hd, hk, hm, hw]
  all_goals cases hh

theorem decodeXfr_encode (i : Instr) (hh : i.home = .xfr) (hw : i.wellFormed = true) : decodeXfr (encode i) = some i := by
  cases i
  case cpy c | cpyg c | cpyx c =>
    show decodeXfr (layCopy _ c) = _
    simp (disch := omega) [decodeXfr, fld_layCopy_op, copyOps_layCopy]
    simp only [fld, layCopy]; omega
  case cpyo c =>
    have hw : cpyoOk c = true := hw
    show decodeXfr (layCopy _ c) = _
    simp (disch := omega) [decodeXfr, fld_layCopy_op, copyOps_layCopy, hw]
    simp only [fld, layCopy]; omega
  case send m | recv m | coll m =>
    show decodeXfr (layMsg _ m 0) = _
    simp (disch := omega) [decodeXfr, fld_layMsg_op, fld_layMsg_low, msgOps_layMsg]
  case sendr m op =>
    have ho := op.code_lt
    show decodeXfr (layMsg _ m op.code) = _
    simp (disch := omega) [decodeXfr, fld_layMsg_op, fld_layMsg_low, msgOps_layMsg]
  case bdcl b rs | brel b | publish b mk | tlsig tl rs | vwjoin sw | vwleave sw =>
    show decodeXfr (layOp _ _) = _
    simp (disch := omega) [decodeXfr, fld_layOp_op, reg_eq_iff]
    simp only [fld, layOp]; omega
  case reqpg ab rs cn t =>
    have := t.toNat_le
    show decodeXfr (layOp _ _) = _
    simp (disch := omega) [decodeXfr, fld_layOp_op, reg_eq_iff, flag_eq_iff]
    simp only [fld, layOp]; omega
  case rgadv rg n | rgpop rg n | sig ch sem inc =>
    show decodeXfr (layOp _ _) = _
    simp (disch := omega) [decodeXfr, fld_layOp_op, reg_eq_iff, imm_eq_iff]
    simp only [fld, layOp]; omega
  all_goals cases hh

theorem decodeScout_encode (i : Instr) (hh : i.home = .scout) : decodeScout (encode i) = some i := by
  cases i
  case shalt => rfl
  case smov d a | sadd d a b =>
    show decodeScout (laySX _ _ _ _ _) = _
    simp (disch := omega) [decodeScout, fld_laySX_op, reg_eq_iff]
    simp only [fld, laySX]; omega
  case saddi d a v =>
    show decodeScout (laySX 3 d.val a.val 0 0 + v.toNat) = _
    generalize hx : laySX 3 d.val a.val 0 0 + v.toNat = w
    unfold laySX at hx
    have ho : fld w 26 6 = 3 := by unfold fld; omega
    simp [decodeScout, ho, reg_eq_iff, imm_eq_iff]
    omega
  case sbr a c off =>
    have hc := c.code_lt
    show decodeScout (0x04 * 2 ^ 26 + a.val * 2 ^ 22 + c.code * 2 ^ 20 + off.toNat) = _
    generalize hx : 0x04 * 2 ^ 26 + a.val * 2 ^ 22 + c.code * 2 ^ 20 + off.toNat = w
    have ho : fld w 26 6 = 4 := by unfold fld; omega
    have hf : fld w 20 2 = c.code := by unfold fld; omega
    simp [decodeScout, ho, hf, reg_eq_iff, imm_eq_iff]
    omega
  case sjmp off =>
    show decodeScout (0x05 * 2 ^ 26 + off.toNat) = _
    generalize hx : 0x05 * 2 ^ 26 + off.toNat = w
    have ho : fld w 26 6 = 5 := by unfold fld; omega
    simp [decodeScout, ho, imm_eq_iff]
    omega
  case swaitsem ps a =>
    show decodeScout (0x06 * 2 ^ 26 + ps.val * 2 ^ 20 + a.val * 2 ^ 16) = _
    generalize hx : 0x06 * 2 ^ 26 + ps.val * 2 ^ 20 + a.val * 2 ^ 16 = w
    have ho : fld w 26 6 = 6 := by unfold fld; omega
    simp [decodeScout, ho, reg_eq_iff]
    unfold fld; omega
  case ssigsem ps a =>
    show decodeScout (0x07 * 2 ^ 26 + ps.val * 2 ^ 20 + a.val * 2 ^ 16) = _
    generalize hx : 0x07 * 2 ^ 26 + ps.val * 2 ^ 20 + a.val * 2 ^ 16 = w
    have ho : fld w 26 6 = 7 := by unfold fld; omega
    simp [decodeScout, ho, reg_eq_iff]
    unfold fld; omega
  case sxmitData d a b | sxmitAtomic d a b | srecvWait d a b | srecvPoll d a b | sfwdIn d a b | sfwdOut d a b | splaneDrain d a b
    | splaneRestore d a b | splaneStatus d a b | sviewRead d a b | sviewWait d a b | sviewJoin d a b | sviewLeave d a b =>
    show decodeScout (laySX _ _ _ _ _) = _
    simp (disch := omega) [decodeScout, decodeSx, fld_laySX_op, fld_laySX_fn, fld_laySX_low, reg_eq_iff]
    unfold laySX; omega
  case sreduce d a b fn =>
    show decodeScout (laySX _ _ _ _ _) = _
    simp (disch := omega) [decodeScout, decodeSx, fld_laySX_op, fld_laySX_low, reg_eq_iff, imm_eq_iff]
    unfold laySX; omega
  all_goals cases hh

theorem decodeCtl_encode (i : Instr) (hh : i.home = .ctl) (hw : i.wellFormed = true) : decodeCtl (encode i) = some i := by
  cases i
  case nop | ret | halt | eret | waitph => rfl
  case br off | bru off | call off | trap code | yield run =>
    show decodeCtl (layCtl _ _) = _
    simp (disch := omega) [decodeCtl, fld_layCtl_op, imm_eq_iff]
    simp only [fld, layCtl]; omega
  case brp inv p off =>
    have := inv.toNat_le
    show decodeCtl (layCtl _ _) = _
    simp (disch := omega) [decodeCtl, fld_layCtl_op, reg_eq_iff, imm_eq_iff, flag_eq_iff]
    unfold layCtl; omega
  case pref lvl ab n | pin lvl ab n | unpin lvl ab n =>
    have := lvl.toNat_le
    show decodeCtl (layCtl _ _) = _
    simp (disch := omega) [decodeCtl, fld_layCtl_op, reg_eq_iff, imm_eq_iff, flag_eq_iff]
    simp only [fld, layCtl]; omega
  case waitt tl rsl rsh | waitcr ch n =>
    show decodeCtl (layCtl _ _) = _
    simp (disch := omega) [decodeCtl, fld_layCtl_op, reg_eq_iff, imm_eq_iff]
    simp only [fld, layCtl]; omega
  case brs rs c off =>
    have hc := c.code_lt
    show decodeCtl (layCtl _ _) = _
    have hf : fld (layCtl 3 (rs.val * 2 ^ 20 + c.code * 2 ^ 17 + off.toNat)) 17 3 = c.code := by unfold fld layCtl; omega
    simp (disch := omega) [-Nat.reducePow, decodeCtl, fld_layCtl_op, hf, reg_eq_iff, imm_eq_iff]
    unfold layCtl; omega
  case loop count len =>
    have hw : lenOk len = true := hw
    show decodeCtl (layCtl 7 (2 ^ 24 + count.toNat * 2 ^ 12 + len.toNat)) = _
    generalize hx : layCtl _ _ = w
    unfold layCtl at hx
    have ho : fld w 25 6 = 7 := by unfold fld; omega
    have hf : flag w 24 = true := by rw [flag_eq_iff, Bool.toNat_true]; omega
    have hl : imm 12 w 0 = len := by rw [imm_eq_iff]; omega
    simp [decodeCtl, ho, hf, hl, hw, imm_eq_iff]
    omega
  case loopReg rs len =>
    have hw : lenOk len = true := hw
    show decodeCtl (layCtl 7 (rs.val * 2 ^ 12 + len.toNat)) = _
    generalize hx : layCtl _ _ = w
    unfold layCtl at hx
    have ho : fld w 25 6 = 7 := by unfold fld; omega
    have hf : flag w 24 = false := by rw [flag_eq_iff, Bool.toNat_false]; omega
    have hl : imm 12 w 0 = len := by rw [imm_eq_iff]; omega
    simp [decodeCtl, ho, hf, hl, hw, reg_eq_iff]
    unfold fld; omega
  case waitc c thr =>
    have hw : thrOk thr = true := hw
    show decodeCtl (layCtl _ _) = _
    have hl : imm 9 (layCtl 12 (c.val * 2 ^ 21 + thr.toNat)) 0 = thr := by simp only [imm_eq_iff, layCtl]; omega
    simp (disch := omega) [-Nat.reducePow, decodeCtl, fld_layCtl_op, hl, hw, reg_eq_iff]
    simp only [fld, layCtl]; omega
  case waits sem v =>
    show decodeCtl (layCtl _ _) = _
    have hf : flag (layCtl 13 (sem.val * 2 ^ 21 + v.toNat)) 20 = false := by simp only [flag_eq_iff, Bool.toNat_false, layCtl]; omega
    simp (disch := omega) [-Nat.reducePow, decodeCtl, fld_layCtl_op, hf, reg_eq_iff, imm_eq_iff]
    simp only [fld, layCtl]; omega
  case waitsD sem v =>
    show decodeCtl (layCtl _ _) = _
    have hf : flag (layCtl 13 (sem.val * 2 ^ 21 + 2 ^ 20 + v.toNat)) 20 = true := by simp only [flag_eq_iff, Bool.toNat_true, layCtl]; omega
    simp (disch := omega) [-Nat.reducePow, decodeCtl, fld_layCtl_op, hf, reg_eq_iff, imm_eq_iff]
    simp only [fld, layCtl]; omega
  case waitrg rg n =>
    show decodeCtl (layCtl _ _) = _
    have hf : flag (layCtl 16 (rg.val * 2 ^ 22 + n.toNat)) 21 = false := by simp only [flag_eq_iff, Bool.toNat_false, layCtl]; omega
    simp (disch := omega) [-Nat.reducePow, decodeCtl, fld_layCtl_op, hf, reg_eq_iff, imm_eq_iff]
    simp only [fld, layCtl]; omega
  case waitrgFree rg n =>
    show decodeCtl (layCtl _ _) = _
    have hf : flag (layCtl 16 (rg.val * 2 ^ 22 + 2 ^ 21 + n.toNat)) 21 = true := by simp only [flag_eq_iff, Bool.toNat_true, layCtl]; omega
    simp (disch := omega) [-Nat.reducePow, decodeCtl, fld_layCtl_op, hf, reg_eq_iff, imm_eq_iff]
    simp only [fld, layCtl]; omega
  case waitb b st =>
    have hc := st.code_lt
    show decodeCtl (layCtl 17 (b.val * 2 ^ 20 + st.code * 2 ^ 18)) = _
    generalize hx : layCtl _ _ = w
    unfold layCtl at hx
    have ho : fld w 25 6 = 17 := by unfold fld; omega
    have hf : flag w 17 = false := by rw [flag_eq_iff, Bool.toNat_false]; omega
    have hs : fld w 18 2 = st.code := by unfold fld; omega
    simp [decodeCtl, ho, hf, hs, reg_eq_iff]
    unfold fld; omega
  case waitbTag b st tag =>
    have hc := st.code_lt
    show decodeCtl (layCtl 17 (b.val * 2 ^ 20 + st.code * 2 ^ 18 + 2 ^ 17 + tag.toNat)) = _
    generalize hx : layCtl _ _ = w
    unfold layCtl at hx
    have ho : fld w 25 6 = 17 := by unfold fld; omega
    have hf : flag w 17 = true := by rw [flag_eq_iff, Bool.toNat_true]; omega
    have hs : fld w 18 2 = st.code := by unfold fld; omega
    simp [decodeCtl, ho, hf, hs, reg_eq_iff, imm_eq_iff]
    unfold fld; omega
  case phase eq =>
    have hw : eqOk eq = true := hw
    show decodeCtl (layCtl _ _) = _
    have hl : imm 3 (layCtl 19 eq.toNat) 0 = eq := by simp only [imm_eq_iff, layCtl]; omega
    simp (disch := omega) [-Nat.reducePow, decodeCtl, fld_layCtl_op, hl, hw]
    simp only [fld, layCtl]; omega
  case fence sc =>
    have hc := sc.code_lt
    show decodeCtl (layCtl _ _) = _
    have hs : fld (layCtl 20 sc.code) 0 4 = sc.code := by unfold fld layCtl; omega
    simp (disch := omega) [-Nat.reducePow, decodeCtl, fld_layCtl_op, hs]
    simp only [fld, layCtl]; omega
  case csrr rs c =>
    have hc := c.code_lt
    show decodeCtl (layCtl _ _) = _
    have hs : fld (layCtl 21 (rs.val * 2 ^ 20 + c.code)) 0 12 = c.code := by unfold fld layCtl; omega
    simp (disch := omega) [-Nat.reducePow, decodeCtl, fld_layCtl_op, hs, reg_eq_iff]
    simp only [fld, layCtl]; omega
  case csrw rs c | csrset rs c | csrclr rs c =>
    have hc := c.code_lt
    have hw : csrOk c = true := hw
    show decodeCtl (layCtl _ (rs.val * 2 ^ 20 + c.code)) = _
    have hs (op : Nat) : fld (layCtl op (rs.val * 2 ^ 20 + c.code)) 0 12 = c.code := by unfold fld layCtl; omega
    have hz (op : Nat) : fld (layCtl op (rs.val * 2 ^ 20 + c.code)) 12 8 = 0 := by unfold fld layCtl; omega
    simp (disch := omega) only [decodeCtl, fld_layCtl_op, hs, hz, if_true, Csr.ofCode_code, Option.bind_some, req_eq_some, hw, true_and,
      Instr.csrw.injEq, Instr.csrset.injEq, Instr.csrclr.injEq, reg_eq_iff, and_true]
    unfold layCtl; omega
  case blk grp n =>
    have hw : grpOk grp = true := hw
    show decodeCtl (layCtl _ _) = _
    have hl : imm 8 (layCtl 25 (grp.toNat * 2 ^ 17 + n.toNat)) 17 = grp := by simp only [imm_eq_iff, layCtl]; omega
    simp (disch := omega) [-Nat.reducePow, decodeCtl, fld_layCtl_op, hl, hw, imm_eq_iff]
    simp only [fld, layCtl]; omega
  all_goals cases hh


theorem decodeHome_encode (i : Instr) (h : i.home ≠ .event) (hw : i.wellFormed = true) : decodeHome i.home (encode i) = some i := by
  cases hh : i.home with
  | ctl => exact decodeCtl_encode i hh hw
  | scalar => exact decodeScalar_encode i hh
  | sb => exact decodeSb_encode i hh
  | ld => exact decodeLd_encode i hh
  | st => exact decodeSt_encode i hh
  | vec => exact decodeVec_encode i hh hw
  | mxu => exact decodeMxu_encode i hh hw
  | xfr => exact decodeXfr_encode i hh hw
  | scout => exact decodeScout_encode i hh
  | event => exact absurd hh h

/-- Events have no encoding. -/
theorem home_ne_event_of_wellFormed (i : Instr) (hw : i.wellFormed = true) : i.home ≠ .event := by
  intro hh
  cases i
  all_goals cases hh
  all_goals exact Bool.false_ne_true hw

/-- Settles O54: every decoder gives back what the encoder of its slot wrote. -/
theorem roundTrip : Obligations.RoundTrip := by
  unfold Obligations.RoundTrip
  exact fun i hw => decodeHome_encode i (home_ne_event_of_wellFormed i hw) hw

end Sys2Proof

/-! Updates one after another; transfers (O9), loops, HALT and YIELD (O10). -/

namespace Sys2Proof.Machine

/-! ### Updates of the same tile or context, one after another -/

theorem alSet_alSet_self {α : Type} (l : List (Nat × α)) (k : Nat) (x y : α) : alSet (alSet l k x) k y = alSet l k y := by
  induction l with
  | nil => simp [alSet]
  | cons e l ih =>
    obtain ⟨j, z⟩ := e
    rcases Nat.lt_trichotomy k j with h | h | h
    · simp [alSet, h]
    · simp [alSet, h]
    · have h1 : ¬ k < j := by omega
      have h2 : k ≠ j := by omega
      simp [alSet, h1, h2, ih]

theorem vset_vset_self {α : Type} {n : Nat} (v : Vector α n) (i : Fin n) (x y : α) : vset (vset v i x) i y = vset v i y := by
  simp [vset]

theorem State.setTile_setTile (s : State) (t : TileId) (x y : Tile) : (s.setTile t x).setTile t y = s.setTile t y := by
  simp [State.setTile, alSet_alSet_self]

theorem State.modTile_modTile (s : State) (t : TileId) (f g : Tile → Tile) :
    (s.modTile t f).modTile t g = s.modTile t fun x => g (f x) := by
  rw [State.modTile, State.tile_modTile]
  exact s.setTile_setTile t _ _

theorem Tile.modCtx_modCtx (t : Tile) (c : Fin 4) (f g : Context → Context) :
    (t.modCtx c f).modCtx c g = t.modCtx c fun x => g (f x) := by
  simp [Tile.modCtx, vset_vset_self]

theorem State.modCtx_modCtx (s : State) (t : TileId) (c : Fin 4) (f g : Context → Context) :
    (s.modCtx t c f).modCtx t c g = s.modCtx t c fun x => g (f x) := by
  simp only [State.modCtx, State.modTile_modTile, Tile.modCtx_modCtx]

theorem State.modCur_modCur (s : State) (f g : Context → Context) : (s.modCur f).modCur g = s.modCur fun x => g (f x) :=
  s.modCtx_modCtx _ _ f g

/-! ### Transfers (R50, R148 to R151, R154) -/

/-- A branch, with the loop levels it closes. -/
theorem State.branch_eq (s : State) (taken : Bool) (off : Int) : s.branch taken off = s.branches taken (s.bundleAt off) := by
  cases taken with
  | false => rfl
  | true => exact State.modCur_modCur ..

/-- The comparison of a number with 0 that a condition of BRS names (R40). -/
def SignHolds (c : SignCond) (v : Int) : Prop :=
  match c with
  | .eqz => v = 0
  | .nez => v ≠ 0
  | .ltz => v < 0
  | .gez => 0 ≤ v
  | .gtz => 0 < v
  | .lez => v ≤ 0

theorem signCond_iff (c : SignCond) (v : Word) : signCond c v = true ↔ SignHolds c v.toInt := by
  have hz : v = 0 ↔ v.toInt = 0 := by rw [← BitVec.toInt_inj]; rfl
  have hm : v.msb = decide (v.toInt < 0) := BitVec.msb_eq_toInt
  cases c <;> simp only [signCond, SignHolds, hm, beq_iff_eq, bne_iff_ne, ne_eq, hz, Bool.and_eq_true, Bool.or_eq_true, Bool.not_eq_true',
    decide_eq_true_eq, decide_eq_false_iff_not] <;> omega

theorem delayCause_none (i : Instr) {s : State} (h : s.cur.delay = 0) : delayCause i s = none := by simp [delayCause, h]

theorem delayCause_some (i : Instr) {s : State} (h : s.cur.delay ≠ 0) : delayCause i s = some ⟨1, 0, 2, s.ctlWord i⟩ := by
  simp [delayCause, h, cIllegal]

theorem checked_none (s : State) (k : State → State) {f : Option Cause} (h : f = none) : checked f s k = .next (k s) := by
  subst h; rfl

theorem checked_some (s : State) (k : State → State) {o : Option Cause} {f : Cause} (h : o = some f) :
    checked o s k = .next (s.issueFault s.cur.tile s.cur.ctx f) := by
  subst h; rfl

/-- Outside delay bundles, and where no loop ends at it, a transfer raises nothing. -/
theorem transferCause_none (i : Instr) {s : State} (hd : s.cur.delay = 0)
    (hl : ∀ l ∈ s.curCtx.loops, l.fires s.cur.pc s.delays.1 = false ∧ l.fires s.delays.1 s.delays.2.1 = false ∧
      l.fires s.delays.2.1 s.delays.2.2 = false) : transferCause i s = none := by
  have : (s.curCtx.loops.any fun l => l.fires s.cur.pc s.delays.1 || l.fires s.delays.1 s.delays.2.1 ||
      l.fires s.delays.2.1 s.delays.2.2) = false := by
    rw [List.any_eq_false]
    intro l hm
    obtain ⟨h1, h2, h3⟩ := hl l hm
    simp [h1, h2, h3]
  rw [transferCause, delayCause_none i hd]
  simp only [loopEndCause, this, Bool.false_eq_true, if_false]

theorem exec_of_isTransfer (s : State) (i : Instr) (h : isTransfer i = true) : ∃ k, exec i s = checked (transferCause i s) s k := by
  cases i
  case br | brp | brs | bru | call | ret | eret => unfold exec; exact ⟨_, rfl⟩
  all_goals exact absurd h Bool.false_ne_true

/-- In a delay bundle a transfer or LOOP raises the illegal-encoding fault (R50, R154). -/
theorem exec_in_delay (s : State) (i : Instr) (hd : s.cur.delay ≠ 0)
    (hi : isTransfer i = true ∨ (∃ n k, i = .loop n k) ∨ ∃ r k, i = .loopReg r k) :
    exec i s = .next (s.issueFault s.cur.tile s.cur.ctx ⟨1, 0, 2, s.ctlWord i⟩) := by
  have loops (j : Instr) (n : Nat) (k : State → State) :
      checked (loopCause j n s) s k = .next (s.issueFault s.cur.tile s.cur.ctx ⟨1, 0, 2, s.ctlWord j⟩) :=
    checked_some s k (by rw [loopCause, delayCause_some j hd])
  rcases hi with hi | ⟨n, len, rfl⟩ | ⟨r, len, rfl⟩
  · obtain ⟨k, hk⟩ := exec_of_isTransfer s i hi
    rw [hk]
    exact checked_some s k (by rw [transferCause, delayCause_some i hd])
  · exact loops (.loop n len) n.toNat fun s => s.openLoop (n.setWidth 32) len
  · exact loops (.loopReg r len) (s.rs r).toNat fun s => s.openLoop (s.rs r) len

/-- Settles O9: with no cause at issue each transfer is the branch or jump of its row; in a delay bundle its cause is that of R50. -/
theorem transfersTakeTheirPlace : Obligations.TransfersTakeTheirPlace := by
  unfold Obligations.TransfersTakeTheirPlace
  refine ⟨?_, fun s i hd hi => ⟨_, exec_in_delay s i hd hi⟩⟩
  intro s o24 o20 o17 inv p r c hd hl v holds far
  have go (i : Instr) (k : State → State) : checked (transferCause i s) s k = .next (k s) := checked_none s k (transferCause_none i hd hl)
  have branch (i : Instr) (taken : Bool) (off : Int) :
      checked (transferCause i s) s (fun s => s.branch taken off) = .next (s.branches taken (s.bundleAt off)) := by
    rw [go, State.branch_eq]
  have hc : holds ↔ signCond c (s.rs r) = true := by
    rw [signCond_iff]; cases c <;> exact Iff.rfl
  refine ⟨branch (.br o24) true o24.toInt, ?brp, ?whenHolds, ?whenNot, branch (.bru o24) (s.curCtx.top == 0) o24.toInt, ?call, ?ret, ?eret⟩
  case brp =>
    refine (branch (.brp inv p o20) (s.rp p != inv) o20.toInt).trans ?_
    cases inv <;> simp
  case whenHolds =>
    intro h
    refine (branch (.brs r c o17) (signCond c (s.rs r)) o17.toInt).trans ?_
    rw [hc.1 h]
  case whenNot =>
    intro h
    refine (branch (.brs r c o17) (signCond c (s.rs r)) o17.toInt).trans ?_
    rw [Bool.eq_false_iff.2 (mt hc.2 h)]
  case call => exact go (.call o24) fun s => (s.result 1 (.a 7 s.delays.2.2)).transfer true (s.bundleAt o24.toInt) false
  case ret => exact go .ret fun s => s.transfer true (s.ra 7) false
  case eret => exact go .eret fun s => s.transfer true s.curCtx.epc true

/-! ### Loops, HALT, YIELD (R152, R155, R160) -/

theorem loopCause_none (i : Instr) (n : Nat) {s : State} (hd : s.cur.delay = 0) (h : n = 0 ∨ s.curCtx.loops.length < 2) :
    loopCause i n s = none := by
  have : ¬ (n ≠ 0 ∧ 2 ≤ s.curCtx.loops.length) := by omega
  simp only [loopCause, delayCause_none i hd, ge_iff_le, this, if_false]

theorem State.openLoop_zero (s : State) (len : BitVec 12) :
    s.openLoop 0 len = s.modCur fun c => { c with pc := succPc s.cur.pc s.cur.safe + BitVec.ofNat 48 (32 * len.toNat) } := by
  simp [State.openLoop]

theorem State.openLoop_pos (s : State) {k : Word} (len : BitVec 12) (h : k ≠ 0) :
    s.openLoop k len = s.modCur fun c => { c with loops := ⟨k, succPc s.cur.pc s.cur.safe, len⟩ :: c.loops } := by
  simp only [State.openLoop, if_neg h]

theorem State.tile_first (s : State) (m : Move) (t : TileId) : (s.first m).tile t = s.tile t := rfl

theorem State.ctx_first (s : State) (m : Move) (t : TileId) (c : Fin 4) : (s.first m).ctx t c = s.ctx t c := rfl

theorem State.curCtx_modCurTile (s : State) (f : Tile → Tile) : (s.modCurTile f).curCtx = (f s.curTile).ctx s.cur.ctx :=
  s.ctx_modTile _ _ _

theorem State.curCtx_first (s : State) (m : Move) : (s.first m).curCtx = s.curCtx := rfl

theorem State.curTile_first (s : State) (m : Move) : (s.first m).curTile = s.curTile := rfl

@[simp] theorem Tile.leaveScales_ctx (t : Tile) (c d : Fin 4) (n : Nat) (k : Bool) : (t.leaveScales c n k).ctx d = t.ctx d := rfl

theorem Tile.ctx_modCtx_arb (t : Tile) (c : Fin 4) (f : Context → Context) (a : Arb) :
    ({ t.modCtx c f with arb := a } : Tile).ctx c = f (t.ctx c) :=
  t.ctx_modCtx c f

/-- What the end of a task leaves of its context. -/
theorem State.ctx_endTask (s : State) (t : TileId) (c : Fin 4) : (s.endTask t c).ctx t c = (s.ctx t c).ended := by
  rw [State.endTask, State.resolveLater, State.ctx_first, State.ctx_modTile]
  show (Tile.modCtx _ c Context.ended).ctx c = _
  rw [Tile.ctx_modCtx, Tile.closeLock_ctx, Tile.leaveScales_ctx]
  rfl

theorem Tile.closeLock_spm (t : Tile) (c : Fin 4) (n : Nat) : (t.closeLock c n).spm = t.spm :=
  (congrArg Tile.spm (t.closeLock_frame c n) :)

theorem State.spm_endTask (s : State) (t : TileId) (c : Fin 4) : ((s.endTask t c).tile t).spm = (s.tile t).spm := by
  rw [State.endTask, State.resolveLater, State.tile_first, State.tile_modTile]
  exact Tile.closeLock_spm ..

theorem execHalt_eq (s : State) : ∃ l, execHalt s = .next { s.endTask s.cur.tile s.cur.ctx with agenda := l } := by
  unfold execHalt
  extract_lets s'
  split
  · exact ⟨_, rfl⟩
  · exact ⟨s'.agenda, rfl⟩

/-- Settles O10: a LOOP is its opening or its skip, HALT is the end of the task, YIELD sets the declaration and the arbiter's choice. -/
theorem loopsHaltYieldNop : Obligations.LoopsHaltYieldNop := by
  unfold Obligations.LoopsHaltYieldNop
  refine ⟨fun s n len r hd => ?loops, fun s run => ⟨rfl, ?halt, ?yield⟩⟩
  case loops =>
    have hzero : n ≠ 0 → BitVec.ofNat 32 n.toNat ≠ 0 := by
      intro h e
      exact h (BitVec.eq_of_toNat_eq (by have := congrArg BitVec.toNat e; have := n.isLt; simp at *; omega))
    have go (i : Instr) (m : Nat) (k : State → State) (h : m = 0 ∨ s.curCtx.loops.length < 2) :
        checked (loopCause i m s) s k = .next (k s) := checked_none s k (loopCause_none i m hd h)
    refine ⟨fun h => ?_, fun h => ?_, fun hl h => ?_, fun hl h => ?_⟩
    · subst h
      refine (go (.loop 0 len) 0 (fun s => s.openLoop 0 len) (.inl rfl)).trans ?_
      exact congrArg _ (s.openLoop_zero len)
    · have reg := go (.loopReg r len) (s.rs r).toNat (fun s => s.openLoop (s.rs r) len) (.inl (by rw [h]; rfl))
      refine reg.trans (congrArg _ ?_)
      show s.openLoop (s.rs r) len = _
      rw [h]
      exact s.openLoop_zero len
    · refine (go (.loop n len) n.toNat (fun s => s.openLoop (n.setWidth 32) len) (.inr hl)).trans ?_
      rw [BitVec.ofNat_toNat]
      exact congrArg _ (s.openLoop_pos len (BitVec.ofNat_toNat 32 n ▸ hzero h))
    · refine (go (.loopReg r len) (s.rs r).toNat (fun s => s.openLoop (s.rs r) len) (.inr hl)).trans ?_
      exact congrArg _ (s.openLoop_pos len h)
  case halt =>
    obtain ⟨l, h⟩ := execHalt_eq s
    refine ⟨_, h, ?_⟩
    have hc : ({ s.endTask s.cur.tile s.cur.ctx with agenda := l } : State).curCtx = s.curCtx.ended := s.ctx_endTask _ _
    rw [hc]
    exact ⟨rfl, rfl, rfl, rfl, s.spm_endTask _ _⟩
  case yield =>
    refine ⟨_, rfl, ?_⟩
    rw [State.curCtx_first, State.curTile_first, State.curTile_modCurTile, State.curCtx_modCurTile]
    simp only [Tile.ctx_modCtx_arb, Tile.closeLock_ctx]
    exact ⟨(BitVec.ofNat_toNat 32 run).symm, rfl, trivial, rfl⟩

end Sys2Proof.Machine

/-! Loads and stores as they issue: the bytes of each form, and the access it leaves (O17, O18). -/

namespace Sys2Proof.Machine

/-! ### The bytes of each form (R219, R223) -/

theorem leBytes_eq_map (n v : Nat) : leBytes n v = (List.range n).map fun i => BitVec.ofNat 8 (v / 256 ^ i) := by
  refine List.ext_getElem? fun k => ?_
  rcases Nat.lt_or_ge k n with h | h
  · rw [getElem?_leBytes n v k h, List.getElem?_map, List.getElem?_range h]
    rfl
  · rw [List.getElem?_eq_none (by simpa using h), List.getElem?_eq_none (by simpa using h)]

/-- The lanes of a vector access, numbered as lanes and not as numbers below 32. -/
theorem lanesOfRange {α : Type} (f : Nat → α) : (List.range 32).map f = (List.finRange 32).map fun k => f k.val := by
  rw [← List.map_coe_finRange_eq_range, List.map_map]
  rfl

theorem lanesUnit_eq (a : Nat) : lanesUnit a = (List.finRange 32).map fun k => (a + 4 * k.val) % 65536 := lanesOfRange _

theorem lanesStride_eq (a : Nat) (w : Word) :
    lanesStride a w = (List.finRange 32).map fun k => (((a : Int) + k.val * w.toInt) % 65536).toNat / 4 * 4 := lanesOfRange _

theorem wordsBytes_lanes (f : Fin 32 → Nat) : wordsBytes ((List.finRange 32).map f) = (List.finRange 32).flatMap fun k => span (f k) 4 :=
  List.flatMap_map ..

theorem laneData_lanes (f : Fin 32 → Nat) (v : Vec) :
    laneData ((List.finRange 32).map f) v = (List.finRange 32).flatMap fun k => wordBytes (f k) v[k] := by
  rw [laneData, ← List.map_prod_right_eq_zip, List.flatMap_map]

theorem maskedData_lanes (f : Fin 32 → Nat) (m : Word) (v : Vec) : maskedData ((List.finRange 32).map f) m v =
    (List.finRange 32).flatMap fun k => if laneOn m k then wordBytes (f k) v[k] else [] := by
  rw [maskedData, ← List.map_prod_right_eq_zip, List.flatMap_map]

theorem wordBytes_eq (a : Nat) (w : Word) :
    wordBytes a w = (span a 4).zip ((List.range 4).map fun i => BitVec.ofNat 8 (w.toNat / 256 ^ i)) := by
  rw [wordBytes, leBytes_eq_map]

@[simp] theorem length_span (a n : Nat) : (span a n).length = n := by simp [span]

/-! ### What an access that passes its check leaves -/

theorem loadSlot_ok {s : State} {as : List Nat} {bs : List SlotByte} (lat : Nat) (k : ReadKind)
    (h : s.curTile.slotBytes 3 false as = .ok bs) :
    loadSlot as lat k s = .next (s.withRead ⟨s.now + 1, s.cur.ctx, s.cur.tt, 3, s.cur.tt + lat, bs, k⟩) := by
  rw [loadSlot, h]
  rfl

theorem storeSlot_ok {s : State} {data : List (Nat × Byte)} {bs : List SlotByte}
    (h : s.curTile.slotBytes 4 true (data.map Prod.fst) = .ok bs) :
    storeSlot data s = .next (s.withStore ⟨s.now + 2, s.cur.ctx, s.cur.tt, 2, bs.zip (data.map Prod.snd)⟩) := by
  rw [storeSlot, h]
  rfl

theorem atomicSlot_ok {s : State} {base : Fin 32} {bs : List SlotByte} (k : ReadKind)
    (h : s.curTile.slotBytes 4 true (amoBytes base s) = .ok bs) :
    atomicSlot base k s = .next (s.withRead ⟨s.now + 2, s.cur.ctx, s.cur.tt, 4, s.cur.tt + 3, bs, k⟩) := by
  simp only [atomicSlot, h]
  rfl

theorem execStacc_ok {s : State} {base : Fin 32} {off : BitVec 10} {bs : List SlotByte} (row : Fin 64)
    (h : s.curTile.slotBytes 4 false (accBytes base off s) = .ok bs) :
    execStacc row base off s = .next (s.withRead ⟨s.now + 1, s.cur.ctx, s.cur.tt, 4, s.cur.tt, bs, .stacc row⟩) := by
  unfold execStacc
  generalize s.curTile.slotBytes 4 false (accBytes base off s) = r at h ⊢
  subst h
  rfl

/-- The row an LDACC takes with it: as the array's owner sees it at issue. -/
def State.ownedRow (s : State) (row : Fin 64) (t : Tile) : Option Row :=
  if t.ownV = true ∧ t.own = s.cur.ctx then some t.acm[row].entries else none

theorem Tile.owns_iff (t : Tile) (c : Fin 4) : t.owns c = true ↔ t.ownV = true ∧ t.own = c := by simp [Tile.owns]

theorem execLdacc_ok {s : State} {base : Fin 32} {off : BitVec 10} {bs : List SlotByte} (row : Fin 64)
    (h : s.curTile.slotBytes 3 true (accBytes base off s) = .ok bs) :
    execLdacc row base off s = .next (s.modCurTile fun t =>
      { t with ldaccs := t.ldaccs ++ [⟨s.now + 1, s.cur.ctx, s.cur.tt, row, s.ownedRow row t, bs⟩] }) := by
  unfold execLdacc
  generalize s.curTile.slotBytes 3 true (accBytes base off s) = r at h ⊢
  subst h
  simp only [State.ownedRow, Tile.owns_iff]

theorem execLdq_ok {s : State} {base : Fin 32} {off : BitVec 11} {bs : List SlotByte} (q : Fin 8) (h : ldqAccess base off s = .ok bs) :
    execLdq q base off s = .next (s.withRead ⟨s.now + 1, s.cur.ctx, s.cur.tt, 2, s.cur.tt + 4, bs, .scale q⟩) := by
  unfold execLdq
  generalize ldqAccess base off s = r at h ⊢
  subst h
  rfl

/-- Settles O17: each load is the load of its bytes, and these are the bytes its row names. -/
theorem loadsIssue : Obligations.LoadsIssue := by
  unfold Obligations.LoadsIssue
  intro s d b st vd vi md q off o6 bs t base at_ lanes row word waits
  have ldq_bytes : t.slotBytes 2 false (span row 512) = ldqAccess b off s := by simp only [ldqAccess, ea, Nat.cast_ofNat]; rfl
  have vec (lat : Nat) (ws : List Nat) (f : Fin 32 → Nat) (hw : ws = (List.finRange 32).map f)
      (h : t.slotBytes 3 false (lanes f) = .ok bs) : loadSlot (wordsBytes ws) lat (.vec vd) s =
        .next (s.withRead ⟨s.now + 1, s.cur.ctx, s.cur.tt, 3, s.cur.tt + lat, bs, .vec vd⟩) := by
    subst hw
    exact loadSlot_ok lat _ (by rw [wordsBytes_lanes]; exact h)
  refine ⟨fun h => ⟨loadSlot_ok 3 (.scalar d 1 true) h, loadSlot_ok 3 (.scalar d 1 false) h⟩,
    fun h => ⟨loadSlot_ok 3 (.scalar d 2 true) h, loadSlot_ok 3 (.scalar d 2 false) h⟩,
    fun h => ⟨loadSlot_ok 3 (.scalar d 4 false) h, loadSlot_ok 4 (.mask md) h⟩,
    fun h => vec 4 (lanesUnit row) _ (lanesUnit_eq _) h,
    fun h => vec 4 (lanesStride word (s.rs st)) _ (lanesStride_eq _ _) h,
    fun h => vec 6 (lanesIndex word (s.rv vi)) _ rfl h, fun h => execLdq_ok (s := s) (base := b) (off := off) q (ldq_bytes.symm.trans h)⟩

/-! ### Completion of the two slots -/

/-- One access more waits in the acting tile; its contexts, scratchpad and accumulators are as before. -/
def OneAccessMore (s t : State) : Prop :=
  (∀ c, t.ctx s.cur.tile c = s.ctx s.cur.tile c) ∧ t.curTile.spm = s.curTile.spm ∧ t.curTile.acm = s.curTile.acm ∧
  t.curTile.reads.length + t.curTile.writes.length + t.curTile.ldaccs.length =
    s.curTile.reads.length + s.curTile.writes.length + s.curTile.ldaccs.length + 1

theorem oneAccessMore_modCurTile (s : State) (f : Tile → Tile) (hc : ∀ x : Tile, (f x).ctxs = x.ctxs) (hs : ∀ x : Tile, (f x).spm = x.spm)
    (ha : ∀ x : Tile, (f x).acm = x.acm) (hl : ∀ x : Tile, (f x).reads.length + (f x).writes.length + (f x).ldaccs.length =
      x.reads.length + x.writes.length + x.ldaccs.length + 1) : OneAccessMore s (s.modCurTile f) := by
  refine ⟨fun c => (s.ctx_modTile _ c f).trans ?_, ?_⟩
  · exact congrArg (fun v : Vector Context 4 => v[c]) (hc _)
  · rw [State.curTile_modCurTile]
    exact ⟨hs _, ha _, hl _⟩

theorem oneAccessMore_withRead (s : State) (r : PendRead) : OneAccessMore s (s.withRead r) :=
  oneAccessMore_modCurTile s _ (fun _ => rfl) (fun _ => rfl) (fun _ => rfl) fun x => by
    simp only [List.length_append, List.length_singleton]; omega

theorem oneAccessMore_withStore (s : State) (w : PendWrite) : OneAccessMore s (s.withStore w) :=
  oneAccessMore_modCurTile s _ (fun _ => rfl) (fun _ => rfl) (fun _ => rfl) fun x => by
    simp only [List.length_append, List.length_singleton]; omega

/-- The outcome completes and leaves one access more. -/
def LeavesAccess (s : State) (o : Out) : Prop := ∃ t, o = .next t ∧ OneAccessMore s t

theorem exists_ok_of_causeOf {α : Type} {r : Except Cause α} (h : causeOf r = none) : ∃ a, r = .ok a := by
  cases r with
  | error f => exact absurd h (Option.some_ne_none f)
  | ok a => exact ⟨a, rfl⟩

section
variable {s : State}

theorem loadSlot_leaves (as : List Nat) (lat : Nat) (k : ReadKind) (h : causeOf (s.curTile.slotBytes 3 false as) = none) :
    LeavesAccess s (loadSlot as lat k s) :=
  let ⟨_, hb⟩ := exists_ok_of_causeOf h
  ⟨_, loadSlot_ok lat k hb, oneAccessMore_withRead ..⟩

theorem storeSlot_leaves (data : List (Nat × Byte)) (h : causeOf (s.curTile.slotBytes 4 true (data.map Prod.fst)) = none) :
    LeavesAccess s (storeSlot data s) :=
  let ⟨_, hb⟩ := exists_ok_of_causeOf h
  ⟨_, storeSlot_ok hb, oneAccessMore_withStore ..⟩

theorem scalarStore_leaves (n : Nat) (base : Fin 32) (off : BitVec 11) (v : Nat)
    (h : causeOf (s.curTile.slotBytes 4 true (scalarBytes n base off s)) = none) :
    LeavesAccess s (storeSlot ((scalarBytes n base off s).zip (leBytes n v)) s) :=
  storeSlot_leaves _ (by rw [List.map_fst_zip (by simp [scalarBytes])]; exact h)

theorem atomicSlot_leaves (base : Fin 32) (k : ReadKind) (h : causeOf (s.curTile.slotBytes 4 true (amoBytes base s)) = none) :
    LeavesAccess s (atomicSlot base k s) :=
  let ⟨_, hb⟩ := exists_ok_of_causeOf h
  ⟨_, atomicSlot_ok k hb, oneAccessMore_withRead ..⟩

theorem execStacc_leaves (row : Fin 64) (base : Fin 32) (off : BitVec 10)
    (h : causeOf (s.curTile.slotBytes 4 false (accBytes base off s)) = none) : LeavesAccess s (execStacc row base off s) :=
  let ⟨_, hb⟩ := exists_ok_of_causeOf h
  ⟨_, execStacc_ok row hb, oneAccessMore_withRead ..⟩

theorem execLdacc_leaves (row : Fin 64) (base : Fin 32) (off : BitVec 10)
    (h : causeOf (s.curTile.slotBytes 3 true (accBytes base off s)) = none) : LeavesAccess s (execLdacc row base off s) :=
  let ⟨_, hb⟩ := exists_ok_of_causeOf h
  ⟨_, execLdacc_ok row hb, oneAccessMore_modCurTile s _ (fun _ => rfl) (fun _ => rfl) (fun _ => rfl) fun x => by
    simp only [List.length_append, List.length_singleton]; omega⟩

end

/-- Every instruction of the LD and ST slots whose bytes pass the check leaves one access. -/
theorem leavesAccess_of_memCause (s : State) (i : Instr) (hi : i.home = .ld ∨ i.home = .st) (h : memCause i s = none) :
    LeavesAccess s (exec i s) := by
  cases i
  case ldb d base off => exact loadSlot_leaves _ _ _ h
  case ldbu d base off => exact loadSlot_leaves _ _ _ h
  case ldh d base off => exact loadSlot_leaves _ _ _ h
  case ldhu d base off => exact loadSlot_leaves _ _ _ h
  case ldw d base off => exact loadSlot_leaves _ _ _ h
  case ldm d base off => exact loadSlot_leaves _ _ _ h
  case ldv d base off => exact loadSlot_leaves _ _ _ h
  case ldvs d base stride off => exact loadSlot_leaves _ _ _ h
  case ldvx d base vi off => exact loadSlot_leaves _ _ _ h
  case ldacc row base off => exact execLdacc_leaves row base off h
  case stb r base off => exact scalarStore_leaves 1 base off _ h
  case sth r base off => exact scalarStore_leaves 2 base off _ h
  case stw r base off => exact scalarStore_leaves 4 base off _ h
  case stv v base off => exact storeSlot_leaves _ h
  case stvm v base m off => exact storeSlot_leaves _ h
  case stvs v base stride off => exact storeSlot_leaves _ h
  case stvx v base vi off => exact storeSlot_leaves _ h
  case stacc row base off => exact execStacc_leaves row base off h
  case amo op d base x => exact atomicSlot_leaves base _ h
  case cas d base x => exact atomicSlot_leaves base _ h
  all_goals rcases hi with hi | hi <;> cases hi

/-- Settles O18: each store is the store of its bytes, and these are the bytes its row names, with the values of its lanes. -/
theorem storesIssue : Obligations.StoresIssue := by
  unfold Obligations.StoresIssue
  refine ⟨?stores, ?accesses, leavesAccess_of_memCause⟩
  case stores =>
    intro s r b st vs vi m off o6 bs t base x bytes at_ row row6 word lanes writes
    have put (d data : List (Nat × Byte)) (hd : d = data) (h : t.slotBytes 4 true (data.map Prod.fst) = .ok bs) :
        storeSlot d s = .next (s.withStore ⟨s.now + 2, s.cur.ctx, s.cur.tt, 2, bs.zip (data.map Prod.snd)⟩) := by
      subst hd
      exact storeSlot_ok h
    have scalar (n : Nat) : (scalarBytes n b off s).zip (leBytes n (s.rs r).toNat) = (at_ off.toInt n).zip (bytes (s.rs r) n) := by
      rw [leBytes_eq_map]
      rfl
    have vec (ws : List Nat) (f : Fin 32 → Nat) (hw : ws = (List.finRange 32).map f) : laneData ws x = lanes f := by
      subst hw
      simp only [laneData_lanes, wordBytes_eq]
      rfl
    have masked : maskedData (lanesUnit row6) (s.rm m) x = (List.finRange 32).flatMap fun k =>
        if (s.rm m).getLsbD k.val then (span ((row6 + 4 * k.val) % 65536) 4).zip (bytes x[k] 4) else [] := by
      simp only [lanesUnit_eq, maskedData_lanes, wordBytes_eq]
      rfl
    exact ⟨put _ _ (scalar 1), put _ _ (scalar 2), put _ _ (scalar 4), put _ _ (vec (lanesUnit row) _ (lanesUnit_eq _)),
      put _ _ masked, put _ _ (vec (lanesStride word (s.rs st)) _ (lanesStride_eq _ _)),
      put _ _ (vec (lanesIndex word (s.rv vi)) _ rfl)⟩
  case accesses =>
    intro s row d b x off op bs t base at_
    have acc_bytes : span at_ 512 = accBytes b off s := by simp only [accBytes, ea, Nat.cast_ofNat]; rfl
    refine ⟨fun h => execLdacc_ok (s := s) (base := b) (off := off) row (by rw [← acc_bytes]; exact h),
      fun h => execStacc_ok (s := s) (base := b) (off := off) row (by rw [← acc_bytes]; exact h), fun h => ?_⟩
    have h' : s.curTile.slotBytes 4 true (amoBytes b s) = .ok bs := by
      rw [← h, amoBytes, ea]
      congr
    exact ⟨atomicSlot_ok (.amo d op (s.rs x)) h', atomicSlot_ok (.cas d (s.rs x) (s.rs d)) h'⟩

end Sys2Proof.Machine

/-! The matrix slot as it issues (O21). -/

namespace Sys2Proof.Machine

section
variable {s : State} (op : MxOp)

theorem mxSlot_discarded (h : ¬ (s.curTile.ownV = true ∧ s.curTile.own = s.cur.ctx)) :
    mxSlot op s = .next (s.modCurTile fun t => t.count mxNotown 1) := by
  rw [mxSlot, if_neg (mt (Tile.owns_iff _ _).1 h)]

theorem mxSlot_full (hv : s.curTile.ownV = true) (ho : s.curTile.own = s.cur.ctx) (h : 8 ≤ s.curTile.mxq.length) :
    mxSlot op s = .next (s.issueFault s.cur.tile s.cur.ctx ⟨6, 6, 0, 0⟩) := by
  have hf : s.curTile.mxFull = some ⟨6, 6, 0, 0⟩ := if_pos h
  rw [mxSlot, if_pos ((Tile.owns_iff _ _).2 ⟨hv, ho⟩), hf]

theorem mxSlot_queued (hv : s.curTile.ownV = true) (ho : s.curTile.own = s.cur.ctx) (h : s.curTile.mxq.length < 8) :
    mxSlot op s = .next (s.enqueueMx op none) := by
  have hf : s.curTile.mxFull = none := if_neg (by omega)
  rw [mxSlot, if_pos ((Tile.owns_iff _ _).2 ⟨hv, ho⟩), hf]

/-- The command that joins the MXU queue. -/
def State.mxCmd (s : State) (op : MxOp) (by_ : Option Nat) : MxCmd :=
  ⟨s.curTile.nextId, s.cur.ctx, s.cur.pc, s.cur.tt, s.now, s.cur.guard, op, by_.isSome, by_, none, none⟩

theorem State.mxq_enqueueMx (by_ : Option Nat) : (s.enqueueMx op by_).curTile.mxq = s.curTile.mxq ++ [s.mxCmd op by_] := by
  rw [State.enqueueMx, State.curTile_modCurTile]
  rfl

theorem State.live_enqueueMx (by_ : Option Nat) :
    (s.enqueueMx op by_).curTile.live = s.curTile.live ++ [⟨s.curTile.nextId, s.cur.ctx, 0, none, false, false⟩] := by
  rw [State.enqueueMx, State.curTile_modCurTile]
  rfl

theorem mxSlot_queuesMatrix (hv : s.curTile.ownV = true) (ho : s.curTile.own = s.cur.ctx) (h : s.curTile.mxq.length < 8) :
    s.queuesMatrix (mxSlot op s) op :=
  ⟨_, s.mxCmd op none, mxSlot_queued op hv ho h, State.mxq_enqueueMx .., rfl, rfl, rfl, rfl, State.live_enqueueMx ..⟩

end

/-- Every instruction of the matrix slot is one command for the MXU queue. -/
theorem exec_mxu (s : State) (i : Instr) (h : i.home = .mxu) : ∃ op, exec i s = mxSlot op s := by
  cases i
  case prec | pmaskRow | pmaskCol | wswap | wld | mma | aclr | ascl | adrn => unfold exec; exact ⟨_, rfl⟩
  all_goals cases h

/-! ### The masks that PMASK takes, as numbers (R258) -/

theorem toNat_append_eq {m n : Nat} (a : BitVec m) (b : BitVec n) : (a ++ b).toNat = b.toNat + a.toNat * 2 ^ n := by
  rw [BitVec.toNat_append, ← Nat.shiftLeft_add_eq_or_of_lt b.isLt, Nat.shiftLeft_eq, Nat.add_comm]

theorem eq_ofNat_of_toNat_eq {n : Nat} {x : BitVec n} {k : Nat} (h : x.toNat = k) : x = BitVec.ofNat n k := by
  subst h
  simp

theorem pmaskRow_eq (v : Vec) : v[1] ++ v[0] = BitVec.ofNat 64 (v[0].toNat + v[1].toNat * 2 ^ 32) :=
  eq_ofNat_of_toNat_eq (toNat_append_eq ..)

theorem pmaskCol_eq (v : Vec) : v[3] ++ v[2] ++ v[1] ++ v[0] = BitVec.ofNat 128
    (v[0].toNat + v[1].toNat * 2 ^ 32 + v[2].toNat * 2 ^ 64 + v[3].toNat * 2 ^ 96) := by
  refine eq_ofNat_of_toNat_eq ?_
  simp only [toNat_append_eq]
  omega

theorem State.scaleNow_val (s : State) (q : Fin 8) : s.scaleNow q.val = s.curTile.scale s.cur.ctx s.now q :=
  congrArg _ (Fin.ext (Nat.mod_eq_of_lt q.isLt))

/-- Settles O21: each matrix instruction is one command; the owner's joins the queue while fewer than eight wait there. -/
theorem matrixInstructionsQueue : Obligations.MatrixInstructionsQueue := by
  unfold Obligations.MatrixInstructionsQueue
  refine ⟨?queued, fun s i hi => ?others⟩
  case queued =>
    intro s r dst v dl rg q h wp ta k ctl first cnt fmt hv ho hl
    have joins (op : MxOp) : s.queuesMatrix (mxSlot op s) op := mxSlot_queuesMatrix op hv ho hl
    have ascl : s.queuesMatrix (exec (.ascl first cnt q) s) (.ascl first cnt (s.curTile.scale s.cur.ctx s.now q)) :=
      s.scaleNow_val q ▸ joins (.ascl first cnt (s.scaleNow q.val))
    exact ⟨joins (.prec (s.rs r)), pmaskRow_eq (s.rv v) ▸ joins (.pmaskRow ((s.rv v)[1] ++ (s.rv v)[0])),
      pmaskCol_eq (s.rv v) ▸ joins (.pmaskCol ((s.rv v)[3] ++ (s.rv v)[2] ++ (s.rv v)[1] ++ (s.rv v)[0])), joins .wswap,
      joins (.wld dl rg wp ta), joins (s.mmaOp dl rg h ctl wp ta), joins (.aclr first cnt), ascl, joins (.adrn first cnt dst k fmt)⟩
  case others =>
    obtain ⟨op, ho⟩ := exec_mxu s i hi
    rw [ho]
    exact ⟨mxSlot_discarded op, mxSlot_full op⟩

end Sys2Proof.Machine

/-! The scout's scalar instructions (O35). -/

namespace Sys2Proof.Machine

/-! ### Updates of the acting scout -/

@[simp] theorem State.sc_modScout (s : State) (f : Scout → Scout) : (s.modScout f).sc = f s.sc :=
  congrArg Port.scout (s.port_modPort _ _)

theorem State.modPort_modPort (s : State) (p : Fin 16) (f g : Port → Port) : (s.modPort p f).modPort p g = s.modPort p fun x => g (f x) := by
  simp only [State.modPort]
  congr 1
  simp [vset]

theorem State.modScout_modScout (s : State) (f g : Scout → Scout) : (s.modScout f).modScout g = s.modScout fun c => g (f c) :=
  s.modPort_modPort _ _ _

/-- An update of the acting scout reaches nothing else. -/
theorem State.onlyScout_modScout (s : State) (f : Scout → Scout) : s.onlyScout (s.modScout f) := by
  refine ⟨rfl, fun p hp => s.port_modPort_ne _ hp, ?_⟩
  rw [State.modScout, State.port_modPort]
  rfl

theorem State.scoutGo_eq (s : State) (pc : Nat) :
    s.scoutGo pc = s.modScout fun c => { c with pc := pc % 2 ^ 18, waitVt := none, busy := none } := rfl

theorem State.scoutSet_eq (s : State) (d : Fin 16) (v : BitVec 64) : s.scoutSet d v =
    s.modScout fun c => { c with x := vset c.x d v, pc := (s.sc.pc + 1) % 2 ^ 18, waitVt := none, busy := none } := by
  rw [State.scoutSet, State.scoutNext, State.sc_modScout, State.scoutGo_eq, State.modScout_modScout]

theorem State.scoutWrites_scoutSet (s : State) (d : Fin 16) (v : BitVec 64) : s.scoutWrites (.next (s.scoutSet d v)) d v := by
  refine ⟨_, rfl, ?_⟩
  rw [State.scoutSet_eq]
  refine ⟨?_, s.onlyScout_modScout _, ?_⟩
  · simp only [State.scoutEnds, State.sc_modScout, and_self]
  · simp only [State.sc_modScout]

/-- The scout goes to a word and changes nothing else. -/
def State.scoutGoesTo (s : State) (o : Out) (pc : Int) : Prop :=
  ∃ t, o = .next t ∧ (t.sc.pc : Int) = pc % 2 ^ 18 ∧ t.sc.x = s.sc.x ∧ s.onlyScout t ∧ t.sc.sram = s.sc.sram ∧ t.sc.halted = s.sc.halted

theorem State.scoutGoesTo_scoutGo (s : State) (n : Nat) (pc : Int) (h : ((n % 2 ^ 18 : Nat) : Int) = pc % 2 ^ 18) :
    s.scoutGoesTo (.next (s.scoutGo n)) pc := by
  refine ⟨_, rfl, ?_⟩
  rw [State.scoutGo_eq]
  refine ⟨?_, ?_, s.onlyScout_modScout _, ?_⟩
  · rw [State.sc_modScout]; exact h
  all_goals simp only [State.sc_modScout, and_self]

theorem scoutTarget_mod (pc : Nat) (off : Int) : ((scoutTarget pc off % 2 ^ 18 : Nat) : Int) = ((pc : Int) + off) % 2 ^ 18 := by
  simp only [scoutTarget, scoutWords]
  omega

/-- The comparison with 0 that a condition of SBR names (R351). -/
def ScoutHolds (c : ScoutCond) (v : Int) : Prop :=
  match c with
  | .eqz => v = 0
  | .nez => v ≠ 0
  | .ltz => v < 0
  | .gez => 0 ≤ v

theorem scoutCond_iff (c : ScoutCond) (v : BitVec 64) : scoutCond c v = true ↔ ScoutHolds c v.toInt := by
  have hz : v = 0 ↔ v.toInt = 0 := by rw [← BitVec.toInt_inj]; rfl
  have hm : v.msb = decide (v.toInt < 0) := BitVec.msb_eq_toInt
  cases c with
  | eqz => simp only [scoutCond, ScoutHolds, beq_iff_eq, hz]
  | nez => simp only [scoutCond, ScoutHolds, bne_iff_ne, ne_eq, hz]
  | ltz => simp only [scoutCond, ScoutHolds, hm, decide_eq_true_eq]
  | gez => simp only [scoutCond, ScoutHolds, hm, Bool.not_eq_true', decide_eq_false_iff_not, Int.not_lt]

theorem add_eq_ofNat {n : Nat} (x y : BitVec n) : x + y = BitVec.ofNat n (x.toNat + y.toNat) :=
  BitVec.eq_of_toNat_eq (by simp)

theorem add_signExtend_eq_ofInt {m n : Nat} (x : BitVec n) (y : BitVec m) :
    x + y.signExtend n = BitVec.ofInt n (x.toNat + y.toInt) := by
  rw [BitVec.ofInt_add, BitVec.ofInt_natCast, BitVec.ofNat_toNat, BitVec.setWidth_eq]
  rfl

theorem execSbr_eq (a : Fin 16) (c : ScoutCond) (off : BitVec 20) (s : State) :
    execSbr a c off s = .next (s.scoutGo (if scoutCond c (s.rx a) then scoutTarget s.sc.pc off.toInt else s.sc.pc + 1)) :=
  congrArg Host.Outcome.next (apply_ite s.scoutGo ..).symm

/-- Settles O35: a scalar instruction sets one register, a branch goes to one word, a halt writes its cause, each in the acting scout alone. -/
theorem scoutScalars : Obligations.ScoutScalars := by
  unfold Obligations.ScoutScalars
  intro s d a b p imm c o20 o26 x v holds goes
  have hc : holds ↔ scoutCond c x = true := by
    rw [scoutCond_iff]
    cases c <;> exact Iff.rfl
  have branch (n : Nat) (pc : Int) (hn : (if scoutCond c x then scoutTarget s.sc.pc o20.toInt else s.sc.pc + 1) = n)
      (h : ((n % 2 ^ 18 : Nat) : Int) = pc % 2 ^ 18) : goes (exec (.sbr a c o20) s) pc := by
    subst hn
    show s.scoutGoesTo (execSbr a c o20 s) pc
    rw [execSbr_eq]
    exact s.scoutGoesTo_scoutGo _ _ h
  refine ⟨s.scoutWrites_scoutSet d x, ?add, ?addi, fun h => branch _ _ (if_pos (hc.1 h)) (scoutTarget_mod ..),
    fun h => branch _ _ (if_neg (mt hc.2 h)) (by omega), s.scoutGoesTo_scoutGo _ _ (scoutTarget_mod ..), ?halt, ?illegal⟩
  case add => exact add_eq_ofNat x s.sc.x[b] ▸ s.scoutWrites_scoutSet d (x + s.sc.x[b])
  case addi => exact add_signExtend_eq_ofInt x imm ▸ s.scoutWrites_scoutSet d (x + imm.signExtend 64)
  case halt =>
    refine ⟨s.scoutHalt 0, rfl, ?_⟩
    rw [State.scoutHalt]
    refine ⟨?_, ?_, s.onlyScout_modScout _⟩
    all_goals rw [State.sc_modScout]
  case illegal =>
    refine ⟨_, rfl, ?_, ?_, fun q hq => s.port_modPort_ne _ hq⟩
    all_goals rw [State.port_modPort]

end Sys2Proof.Machine

/-! What an instruction of a slot leaves as it is as its bundle issues (O24): a frame closed under composition, shown for the
operations on tiles and states that the slots share, then for each instruction. -/

namespace Sys2Proof.Machine

/-! ### The frame of a tile -/

/-- The scratchpad, and the scalar registers and pending results of the contexts other than `c`, are as before. -/
def Tile.Keeps (c : Fin 4) (x y : Tile) : Prop :=
  y.spm = x.spm ∧ ∀ d, d ≠ c → (y.ctx d).s = (x.ctx d).s ∧ (y.ctx d).pend = (x.ctx d).pend

namespace Tile.Keeps

variable {c : Fin 4} {x y z : Tile}

theorem refl (c : Fin 4) (x : Tile) : Tile.Keeps c x x := ⟨rfl, fun _ _ => ⟨rfl, rfl⟩⟩

theorem trans (h : Tile.Keeps c x y) (h' : Tile.Keeps c y z) : Tile.Keeps c x z :=
  ⟨h'.1.trans h.1, fun d hd => ⟨(h'.2 d hd).1.trans (h.2 d hd).1, (h'.2 d hd).2.trans (h.2 d hd).2⟩⟩

theorem of_eq (hs : y.spm = x.spm) (hc : y.ctxs = x.ctxs) : Tile.Keeps c x y := by
  refine ⟨hs, fun d _ => ?_⟩
  simp only [Tile.ctx, hc, and_self]

theorem ite {p : Prop} [Decidable p] (h : Tile.Keeps c x y) (h' : Tile.Keeps c x z) : Tile.Keeps c x (if p then y else z) := by
  split
  · exact h
  · exact h'

theorem modCtx (f : Context → Context) : Tile.Keeps c x (x.modCtx c f) :=
  ⟨rfl, fun d hd => by rw [Tile.ctx_modCtx_ne x f hd]; exact ⟨rfl, rfl⟩⟩

/-- An update of any context that leaves its scalar registers and pending results. -/
theorem modCtx_any (e : Fin 4) (f : Context → Context) (h : ∀ a : Context, (f a).s = a.s ∧ (f a).pend = a.pend) :
    Tile.Keeps c x (x.modCtx e f) := by
  refine ⟨rfl, fun d _ => ?_⟩
  by_cases hd : d = e
  · subst hd
    rw [Tile.ctx_modCtx]
    exact h _
  · rw [Tile.ctx_modCtx_ne x f hd]
    exact ⟨rfl, rfl⟩

theorem event (ev n : Nat) : Tile.Keeps c x (x.event ev n) := of_eq rfl rfl

theorem count (i : Fin 10) (n : Nat) : Tile.Keeps c x (x.count i n) := ite (refl ..) (of_eq rfl rfl)

theorem closeLock (e : Fin 4) (n : Nat) : Tile.Keeps c x (x.closeLock e n) := by
  unfold Tile.closeLock
  split
  · exact ite (of_eq rfl rfl) (refl ..)
  · exact refl ..

theorem noteReads (mem : Fin 4) (ws : List Nat) : Tile.Keeps c x (x.noteReads mem ws) := of_eq (x.noteReads_spm mem ws) (x.noteReads_ctxs mem ws)

theorem tlbTouch (l : Nat) (used : Nat → Bool) (n : Nat) : Tile.Keeps c x (x.tlbTouch l used n) :=
  of_eq (x.tlbTouch_spm l used n) (x.tlbTouch_ctxs l used n)

theorem clearUpsets (mem : Fin 4) (ws : List Nat) : Tile.Keeps c x (x.clearUpsets mem ws) := ite (refl ..) (of_eq rfl rfl)

theorem setChan (ch : Fin 256) (f : Chan → Chan) : Tile.Keeps c x (x.setChan ch f) := of_eq rfl rfl

theorem foldl {α : Type} (f : Tile → α → Tile) (h : ∀ a y, Tile.Keeps c y (f y a)) (l : List α) (x : Tile) :
    Tile.Keeps c x (l.foldl f x) := by
  induction l generalizing x with
  | nil => exact refl ..
  | cons a l ih => exact (h a x).trans (ih _)

theorem readWait (i : Instr) : Tile.Keeps c x (x.readWait i) := foldl _ (fun _ _ => noteReads ..) _ _

/-! #### Code lines (R174) -/

theorem request (region : Bool) (line : Nat) (pin zero : Bool) (ready : Nat) : Tile.Keeps c x (x.request region line pin zero ready) :=
  ite (of_eq rfl rfl) (ite (event ..) (of_eq rfl rfl))

theorem fetchLine (region pin : Bool) (ready l : Nat) (zero : Bool) : Tile.Keeps c x (x.fetchLine region pin ready l zero) := by
  unfold Tile.fetchLine
  exact ite (ite (ite (of_eq rfl rfl) (refl ..)) (ite (event ..) (request ..)))
    (ite (ite (refl ..) (ite (event ..) (of_eq rfl rfl))) (request ..))

theorem unpinLine (region : Bool) (line : Option Nat) : Tile.Keeps c x (x.unpinLine region line) := by
  cases line with
  | none => exact event ..
  | some l => exact ite (ite (of_eq rfl rfl) (refl ..)) (of_eq rfl rfl)

/-! #### Commands of the engine queues -/

theorem noteTable (e : Fin 4) (off n : Nat) : Tile.Keeps c x (x.noteTable e off n) :=
  ite (refl ..) (ite (noteReads ..) ((noteReads ..).trans (modCtx_any e _ fun _ => ⟨rfl, rfl⟩)))

theorem useWindow (e : Option (Fin 4)) (ch : Fin 256) : Tile.Keeps c x (x.useWindow e ch) := by
  cases e with
  | none => exact ite (((noteReads ..).trans (setChan ..)).trans (clearUpsets ..)) (noteReads ..)
  | some e => exact ite (((noteTable ..).trans (setChan ..)).trans (clearUpsets ..)) (noteTable ..)

theorem takeCredit (now id : Nat) : Tile.Keeps c x (x.takeCredit now id) := by
  unfold Tile.takeCredit
  split
  · exact refl ..
  · split
    · exact refl ..
    · exact (useWindow ..).trans (of_eq rfl rfl)

end Tile.Keeps

/-! ### The frame of a state -/

/-- What no instruction of a slot changes as its bundle issues. -/
structure State.SlotFrame (s t : State) : Prop where
  heap : t.heap = s.heap
  host : t.host = s.host
  ports : t.ports = s.ports
  now : t.now = s.now
  ref : t.ref = s.ref
  cur : t.cur = s.cur
  others : ∀ u, u ≠ s.cur.tile → t.tile u = s.tile u
  tile : Tile.Keeps s.cur.ctx s.curTile (t.tile s.cur.tile)

namespace State.SlotFrame

variable {s t u : State}

theorem refl (s : State) : s.SlotFrame s := ⟨rfl, rfl, rfl, rfl, rfl, rfl, fun _ _ => rfl, .refl ..⟩

theorem trans (h : s.SlotFrame t) (h' : t.SlotFrame u) : s.SlotFrame u where
  heap := h'.heap.trans h.heap
  host := h'.host.trans h.host
  ports := h'.ports.trans h.ports
  now := h'.now.trans h.now
  ref := h'.ref.trans h.ref
  cur := h'.cur.trans h.cur
  others v hv := (h'.others v (h.cur ▸ hv)).trans (h.others v hv)
  tile := h.tile.trans (by have := h'.tile; rw [State.curTile, h.cur] at this; exact this)

theorem ite {p : Prop} [Decidable p] (h : s.SlotFrame t) (h' : s.SlotFrame u) : s.SlotFrame (if p then t else u) := by
  split
  · exact h
  · exact h'

theorem setTile (x : Tile) (h : Tile.Keeps s.cur.ctx s.curTile x) : s.SlotFrame (s.setTile s.cur.tile x) where
  heap := rfl
  host := rfl
  ports := rfl
  now := rfl
  ref := rfl
  cur := rfl
  others _ hv := s.tile_setTile_ne x hv
  tile := by rw [State.tile_setTile]; exact h

theorem modCurTile (f : Tile → Tile) (h : Tile.Keeps s.cur.ctx s.curTile (f s.curTile)) : s.SlotFrame (s.modCurTile f) := setTile _ h

theorem modCur (f : Context → Context) : s.SlotFrame (s.modCur f) := modCurTile _ (.modCtx f)

theorem first (m : Move) : s.SlotFrame (s.first m) := { refl s with }

theorem bump (s : State) : s.SlotFrame s.bump := { refl s with }

theorem result (lat : Nat) (d : Dst) : s.SlotFrame (s.result lat d) := modCur _

theorem raiseFlags (lat : Nat) (f : Flags) : s.SlotFrame (s.raiseFlags lat f) := ite (refl s) (result ..)

theorem vecResult (lat : Nat) (vd : Fin 16) (lanes : Word) (r : Vector LaneRes 32) : s.SlotFrame (s.vecResult lat vd lanes r) :=
  (result ..).trans (raiseFlags ..)

theorem raise (cause finfo : Word) (fpc epc : VAddr) : s.SlotFrame (s.raise s.cur.tile s.cur.ctx cause finfo fpc epc) := by
  have h : s.SlotFrame (s.modCurTile fun x => x.closeLock s.cur.ctx s.now) := modCurTile _ (.closeLock ..)
  exact h.trans (ite (modCur _) ((modCur _).trans (first _)))

theorem issueFault (f : Cause) : s.SlotFrame (s.issueFault s.cur.tile s.cur.ctx f) := by
  unfold State.issueFault
  have h : s.SlotFrame (if f.code = cOverflow then s.modTile s.cur.tile fun x => x.event 0x14 1 else s) :=
    ite (modCurTile _ (.event ..)) (refl s)
  extract_lets s'
  have hc : s'.cur = s.cur := h.cur
  rw [← hc]
  exact h.trans (raise ..)

theorem openLoop (k : Word) (len : BitVec 12) : s.SlotFrame (s.openLoop k len) := .modCur _

theorem branch (taken : Bool) (off : Int) : s.SlotFrame (s.branch taken off) := .ite (.trans (.modCur _) (.modCur _)) (.modCur _)

theorem lower (sel : AccPend → Bool) : s.SlotFrame (s.lower sel) := .ite (.modCurTile _ (.of_eq rfl rfl)) (.refl s)

theorem csrWrite (k : CsrWrite) (c : Csr) (v : Word) : s.SlotFrame (s.csrWrite k c v) := by
  unfold State.csrWrite
  split
  case h_9 => exact .modCurTile _ (.ite (.of_eq rfl rfl) (.refl ..))
  case h_8 | h_10 | h_11 | h_12 => exact .modCurTile _ (.of_eq rfl rfl)
  case h_13 => exact .refl s
  all_goals exact .modCur _

theorem capture (c : Csr) : s.SlotFrame (s.capture c) := by
  unfold State.capture
  split
  · exact .modCur _
  · exact .refl s

theorem askLine (region pin : Bool) (ready : Nat) (va : VAddr) : s.SlotFrame (s.askLine s.cur.tile s.cur.ctx region pin ready va) := by
  refine .setTile _ ?_
  split
  · exact .event ..
  · exact .ite (.fetchLine ..) (.ite (.event ..) (.of_eq rfl rfl))

theorem enqueueMx (op : MxOp) (by_ : Option Nat) : s.SlotFrame (s.enqueueMx op by_) := .modCurTile _ (.of_eq rfl rfl)

theorem enqueueCopy (op : CopyOp) (tag : Option (Fin 16)) (wack follow late : Bool) (xl : List TlbEntry) :
    s.SlotFrame (s.enqueueCopy op tag wack follow late xl) :=
  .modCurTile _ (.ite (.trans (.of_eq rfl rfl) (.modCtx _)) (.of_eq rfl rfl))

theorem enqueueFollow (copy : Nat) : s.SlotFrame (s.enqueueFollow copy) := by
  unfold State.enqueueFollow
  split
  · exact .ite (enqueueMx ..) (.modCurTile _ (.count ..))
  · exact .refl s

end State.SlotFrame

/-- An outcome that keeps the frame. -/
def State.Frames (s : State) (o : Out) : Prop := ∃ t, o = .next t ∧ s.SlotFrame t

namespace State.Frames

variable {s t : State}

theorem next (h : s.SlotFrame t) : s.Frames (.next t) := ⟨t, rfl, h⟩

theorem checked {f : Option Cause} {k : State → State} (h : ∀ t : State, t.SlotFrame (k t)) : s.Frames (checked f s k) := by
  cases f with
  | none => exact next (h s)
  | some f => exact next (.issueFault f)

theorem fault (f : Cause) : s.Frames (.next (s.issueFault s.cur.tile s.cur.ctx f)) := next (.issueFault f)

theorem result (lat : Nat) (d : Dst) : s.Frames (.next (s.result lat d)) := next (.result lat d)

theorem vecResult (lat : Nat) (vd : Fin 16) (lanes : Word) (r : Vector LaneRes 32) : s.Frames (.next (s.vecResult lat vd lanes r)) :=
  next (.vecResult lat vd lanes r)

theorem modCurTile (f : Tile → Tile) (h : Tile.Keeps s.cur.ctx s.curTile (f s.curTile)) : s.Frames (.next (s.modCurTile f)) :=
  next (.modCurTile f h)

/-! #### The control slot -/

theorem halt : s.Frames (execHalt s) := by
  refine next (.ite (.trans ?_ (.first _)) ?_)
  all_goals
    refine .trans (.modCurTile _ ?_) (.first _)
    extract_lets x
    have h : Tile.Keeps s.cur.ctx s.curTile (s.curTile.leaveScales s.cur.ctx s.now false) := .of_eq rfl rfl
    have hx : Tile.Keeps s.cur.ctx s.curTile x := (h.trans (.closeLock ..)).trans (.modCtx _)
    exact hx.trans (.of_eq rfl rfl)

theorem yield (run : BitVec 20) : s.Frames (execYield run s) := by
  refine next (.trans (.modCurTile _ ?_) (.first _))
  extract_lets x y
  have hy : Tile.Keeps s.cur.ctx s.curTile y := .trans (.closeLock ..) (.modCtx _)
  exact hy.trans (.of_eq rfl rfl)

/-- A wait whose issue keeps the frame. -/
theorem waitSlot (i : Instr) (k : State → State) (h : ∀ t : State, t.SlotFrame (k t)) : s.Frames (waitSlot i k s) := by
  unfold Machine.waitSlot
  extract_lets t
  have ht : s.SlotFrame t := .ite (.refl s) (.modCurTile _ (.readWait i))
  clear_value t
  split
  · exact next (ht.trans (.issueFault _))
  · exact next (ht.trans (.ite (h t) (.modCurTile _ (.trans (.trans (.closeLock ..) (.modCtx _)) (.event ..)))))

theorem fetchRun (lvl pin : Bool) (ab : Fin 8) (lines : BitVec 8) : s.Frames (fetchRun lvl pin ab lines s) := by
  have run (ready : Nat) (l : List VAddr) (t : State) :
      t.SlotFrame (l.foldl (fun s va => s.askLine s.cur.tile s.cur.ctx lvl pin ready va) t) := by
    induction l generalizing t with
    | nil => exact .refl t
    | cons a l ih => exact .trans (.askLine ..) (ih _)
  exact next (.trans (run ..) (.bump _))

/-! #### The other slots -/

theorem loadSlot (as : List Nat) (lat : Nat) (k : ReadKind) : s.Frames (loadSlot as lat k s) := by
  unfold Machine.loadSlot
  split
  · exact fault _
  · exact modCurTile _ (.of_eq rfl rfl)

theorem storeSlot (data : List (Nat × Byte)) : s.Frames (storeSlot data s) := by
  unfold Machine.storeSlot
  split
  · exact fault _
  · exact modCurTile _ (.of_eq rfl rfl)

theorem atomicSlot (base : Fin 32) (k : ReadKind) : s.Frames (atomicSlot base k s) := by
  unfold Machine.atomicSlot
  split
  · exact fault _
  · exact modCurTile _ (.of_eq rfl rfl)

theorem ldacc (row : Fin 64) (base : Fin 32) (off : BitVec 10) : s.Frames (execLdacc row base off s) := by
  unfold execLdacc
  split
  · exact fault _
  · exact modCurTile _ (.of_eq rfl rfl)

theorem stacc (row : Fin 64) (base : Fin 32) (off : BitVec 10) : s.Frames (execStacc row base off s) := by
  unfold execStacc
  split
  · exact fault _
  · exact modCurTile _ (.of_eq rfl rfl)

theorem ldq (q : Fin 8) (base : Fin 32) (off : BitVec 11) : s.Frames (execLdq q base off s) := by
  unfold execLdq
  split
  · exact fault _
  · exact modCurTile _ (.of_eq rfl rfl)

theorem vmpush (mk : Fin 8) : s.Frames (execVmpush mk s) := by
  unfold execVmpush
  split
  · exact fault _
  · exact result ..

theorem vred (op : VRedOp) (vd va : Fin 16) (mk : Fin 8) (ty : VType) : s.Frames (execVred op vd va mk ty s) := by
  unfold execVred
  extract_lets e r
  split
  · exact next (.refl s)
  · exact vecResult ..

theorem vminv : s.Frames (execVminv s) := by
  unfold execVminv
  split
  · exact next (.refl s)
  · exact result ..

theorem vmpop : s.Frames (execVmpop s) := by
  unfold execVmpop
  split
  · exact next (.refl s)
  · exact result ..

theorem mxSlot (op : MxOp) : s.Frames (mxSlot op s) := by
  unfold Machine.mxSlot
  split
  · split
    · exact fault _
    · exact next (.enqueueMx ..)
  · exact modCurTile _ (.count ..)

theorem copySlot (op : CopyOp) (tag : Option (Fin 16)) : s.Frames (copySlot op tag s) := by
  unfold Machine.copySlot
  split
  · exact fault _
  · exact next (.enqueueCopy ..)

theorem copyForm (form : CopyForm) (c : CopyOps) : s.Frames (copyForm form c s) := by
  unfold Machine.copyForm
  split
  · exact fault _
  · have h (op tag wack follow late xl l used n) : s.SlotFrame ((s.enqueueCopy op tag wack follow late xl).modCurTile fun t => t.tlbTouch l used n) :=
      .trans (.enqueueCopy ..) (.modCurTile _ (.tlbTouch ..))
    exact next (.ite (.trans (h ..) (.enqueueFollow ..)) (h ..))

theorem publish (buf : Fin 32) (mk : Fin 8) : s.Frames (execPublish buf mk s) := by
  unfold execPublish
  split
  · exact fault _
  · exact next (.ite (.enqueueCopy ..) (.trans (.enqueueCopy ..) (.modCur _)))

theorem chanSlot (op : ChOp) (tag : Option (Fin 16)) (coll : Bool) : s.Frames (chanSlot op tag coll s) := by
  unfold Machine.chanSlot
  split
  · exact fault _
  · have counted (x : Tile) (id : Nat) (h : Tile.Keeps s.cur.ctx s.curTile x) : Tile.Keeps s.cur.ctx s.curTile
        (if s.cur.guard.resolved then (x.modCtx s.cur.ctx fun c => c.issueCounts tag false).takeCredit s.now id else x) :=
      .ite ((h.trans (.modCtx _)).trans (.takeCredit ..)) h
    exact modCurTile _ (counted _ _ (.of_eq rfl rfl))

end State.Frames

/-- Every instruction of the eight slots completes and keeps the frame. -/
theorem State.frames_exec (s : State) (i : Instr) (hs : i.home ≠ .scout) (he : i.home ≠ .event) : s.Frames (exec i s) := by
  cases i
  -- the control slot
  case nop => unfold exec; exact .next (.refl s)
  case br | brp | brs | bru => unfold exec; exact .checked fun _ => .branch ..
  case call => unfold exec; exact .checked fun _ => .trans (.result ..) (.modCur _)
  case ret | eret => unfold exec; exact .checked fun _ => .modCur _
  case loop | loopReg => unfold exec; exact .checked fun _ => .openLoop ..
  case halt => unfold exec; exact .halt
  case trap => unfold exec; exact .next (.raise ..)
  case yield => unfold exec; exact .yield _
  case waitc | waits | waitt | waitcr | waitrg | waitrgFree | waitb => unfold exec; refine .waitSlot _ _ fun t => ?_; exact .refl t
  case waitsD => unfold exec; refine .waitSlot _ _ fun t => ?_; exact .modCurTile _ (.of_eq rfl rfl)
  case waitbTag => unfold exec; refine .waitSlot _ _ fun t => ?_; exact .modCur _
  case waitph => unfold exec; refine .waitSlot _ _ fun t => ?_; exact .trans (.modCur _) (.lower _)
  case fence => unfold exec; refine .waitSlot _ _ fun t => ?_; exact .ite (.trans (.modCur _) (.lower _)) (.refl t)
  case phase => unfold exec; exact .modCurTile _ (.modCtx _)
  case csrr => unfold exec; exact .next (.trans (.capture _) (.result ..))
  case csrw | csrset | csrclr => unfold exec; exact .next (.csrWrite ..)
  case blk => unfold exec; exact .modCurTile _ (.of_eq rfl rfl)
  case pref | pin => unfold exec; exact .fetchRun ..
  case unpin => unfold exec; exact .modCurTile _ (.foldl _ (fun _ _ => .unpinLine ..) _ _)
  -- the scalar slots
  case add | sub | and | or | xor | andn | shl | shr | sra | min | max | minu | maxu | mov | clz | popc | mul | mulh | mulhu | sel |
    cmp | cmpi | plog | addi | andi | ori | xori | shli | shri | srai | movi | movhi => unfold exec; exact .result ..
  case aadd | aaddi | amov | amovFromPair | amovToScalar | amovHi | acmb => unfold exec; exact .result ..
  case ldq => unfold exec; exact .ldq ..
  -- the vector slot
  case vadd | vsub | vmul | vfma | vmin | vmax | vabs | vneg | vand | vor | vxor | vshl | vshr | vsra | vshlImm | vshrImm | vsraImm |
    vsel | vcvt | vperm | vmov | vext | vins | vbcast | vmovi | vexp2 | vlog2 | vrcp | vrsqrt => unfold exec; exact .vecResult ..
  case vcmp => unfold exec; exact .next (.trans (.result ..) (.raiseFlags ..))
  case vred => unfold exec; exact .vred ..
  case vmsk => unfold exec; exact .result ..
  case vmpush => unfold exec; exact .vmpush _
  case vminv => unfold exec; exact .vminv
  case vmpop => unfold exec; exact .vmpop
  -- the memory slots
  case ldb | ldbu | ldh | ldhu | ldw | ldv | ldvs | ldvx | ldm => unfold exec; exact .loadSlot ..
  case ldacc => unfold exec; exact .ldacc ..
  case stb | sth | stw | stv | stvm | stvs | stvx => unfold exec; exact .storeSlot ..
  case stacc => unfold exec; exact .stacc ..
  case amo | cas => unfold exec; exact .atomicSlot ..
  -- the engine slots
  case prec | pmaskRow | pmaskCol | wswap | wld | mma | aclr | ascl | adrn => unfold exec; exact .mxSlot _
  case cpy | cpyg | cpyx | cpyo => unfold exec; exact .copyForm ..
  case bdcl | brel | reqpg => unfold exec; exact .copySlot ..
  case publish => unfold exec; exact .publish ..
  case send | sendr | recv | coll | rgadv | rgpop | sig | tlsig | vwjoin | vwleave => unfold exec; exact .chanSlot ..
  -- the scout's instructions and the events
  case shalt | smov | sadd | saddi | sbr | sjmp | swaitsem | ssigsem | sxmitData | sxmitAtomic | srecvWait | srecvPoll | sreduce |
    sfwdIn | sfwdOut | splaneDrain | splaneRestore | splaneStatus | sviewRead | sviewWait | sviewJoin | sviewLeave =>
    exact absurd rfl hs
  all_goals exact absurd rfl he

/-- Settles O24: the frame holds of whatever state an instruction of a slot leaves. -/
theorem slotInstructionsChangeNoMemory : Obligations.SlotInstructionsChangeNoMemory := by
  unfold Obligations.SlotInstructionsChangeNoMemory
  intro s t i hs he h
  obtain ⟨t', ht, hf⟩ := s.frames_exec i hs he
  obtain rfl : t' = t := Host.Outcome.next.inj (ht.symm.trans h)
  obtain ⟨spm, ctxs⟩ := hf.tile
  exact ⟨hf.heap, hf.host, hf.ports, hf.now, hf.ref, hf.others, by rw [State.curTile, hf.cur]; exact spm, ctxs⟩

end Sys2Proof.Machine

/-! Every instruction and every step answers a next state (O56). -/

namespace Sys2Proof.Machine

theorem Completes.next (t : State) : Completes (.next t) := ⟨t, rfl⟩

theorem Completes.ite {p : Prop} [Decidable p] {a b : Out} (h : Completes a) (h' : Completes b) : Completes (if p then a else b) := by
  split
  · exact h
  · exact h'

/-! ### The instructions

The meaning of most instructions is one next state. That of the others is a tree of tests with a next state at every leaf; each group
below unfolds its meanings and walks down their trees. -/

theorem completes_onView (s : State) (d a : Fin 16) (k : Fin 256 → Swarm → State) : Completes (s.onView d a k) := by
  unfold State.onView
  extract_lets
  split <;> exact .next _

theorem completes_withRecord (s : State) (k : Fin 32) (op : Nat) (f : Fin 256 → Nat → List Byte → State) :
    Completes (s.withRecord k op f) := by
  unfold State.withRecord
  split
  · exact .next _
  · split
    · exact .next _
    · exact .ite (.next _) (.next _)

theorem completes_messageFlit (t : TileId) (i : Fin 6) (s : State) : Completes (messageFlit t i s) := by
  unfold messageFlit
  extract_lets
  split
  · exact .next _
  · split
    · exact .ite (.next _) (.next _)
    · extract_lets
      split
      · exact .next _
      · exact .ite (.next _) (.next _)

theorem completes_mxuCommandHead (t : TileId) (s : State) : Completes (execMxuCommandHead t s) := by
  unfold execMxuCommandHead
  extract_lets x
  split
  · exact .next _
  · refine .ite (.next _) ?_
    extract_lets s'
    split <;> exact .next _

theorem completes_mxuStart (t : TileId) (s : State) : Completes (execMxuStart t s) := by
  unfold execMxuStart
  extract_lets x
  split
  · exact .next _
  · refine .ite (.next _) ?_
    extract_lets s'
    split <;> exact .next _

theorem completes_adrnStart (t : TileId) (s : State) : Completes (execAdrnStart t s) := by
  unfold execAdrnStart
  extract_lets x
  split
  · exact .next _
  · split
    · exact .ite (.next _) (.next _)
    · exact .next _

theorem completes_mxuRetire (t : TileId) (s : State) : Completes (execMxuRetire t s) := by
  unfold execMxuRetire
  extract_lets x
  split
  · exact .ite (.next _) (.next _)
  · exact .next _

theorem completes_exec_scout (i : Instr) (s : State) (h : i.home = .scout) : Completes (exec i s) := by
  cases i
  case shalt | smov | sadd | saddi | sbr | sjmp => exact .next _
  case sviewRead | sviewWait | sviewJoin | sviewLeave => unfold exec; exact completes_onView ..
  case swaitsem | ssigsem | sxmitData | sxmitAtomic | srecvWait | srecvPoll | sreduce | sfwdIn | sfwdOut | splaneDrain | splaneRestore |
    splaneStatus =>
    unfold exec
    dsimp only
    delta execSwaitsem execSsigsem execSxmitData execSxmitAtomic execSrecvWait execSrecvPoll execSreduce execSfwdIn execSfwdOut
      execSplaneDrain execSplaneRestore execSplaneStatus
    repeat' first | with_reducible exact .next _ | split | extract_lets
  all_goals cases h

theorem completes_exec_event (i : Instr) (s : State) (h : i.home = .event) : Completes (exec i s) := by
  cases i
  case mxownRelease | guardResolution | rankAgeing | eccWriteback | scrub |
    phaseFlagSet | headerForward | timelineAdvance | heartbeat | heartbeatFrame | packetAcknowledgement | retransmission |
    remoteAtomicTimeout | linkLoss | portReset | preemptionRequest | migrationFreeze | tlbInvalidation | blockedReevaluation |
    assistTimeout | scoutIllegalEncoding => exact .next _
  case sendArrival | sendrArrival => unfold exec; exact completes_messageFlit ..
  case mxuCommandHead => unfold exec; exact completes_mxuCommandHead ..
  case mxuStart => unfold exec; exact completes_mxuStart ..
  case adrnStart => unfold exec; exact completes_adrnStart ..
  case mxuRetire => unfold exec; exact completes_mxuRetire ..
  case load | launch | wait | signal | copyh | fenceRecord => unfold exec; exact completes_withRecord ..
  -- the engines and the comb of a tile
  case instructionCacheFill | codeRegionFill | tileMapBroadcast | tileMapCacheFill | pageWalk | copyQueueStart | copyRetire |
    heapWriteAcknowledgement | creditReturn | chunkArrival | collectiveComplete | channelQueueStart | messageTransmitted | sigArrival |
    portSigArrival | writeData | readRequest | readData | writeAcknowledgement =>
    unfold exec
    dsimp only
    delta execInstructionCacheFill execCodeRegionFill execTileMapBroadcast execTileMapCacheFill execPageWalk execCopyQueueStart
      execCopyRetire execHeapWriteAcknowledgement execCreditReturn execChunkArrival execCollectiveComplete execChannelQueueStart
      execMessageTransmitted execSigArrival execPortSigArrival execWriteData execReadRequest execReadData execWriteAcknowledgement
    repeat' first | with_reducible exact .next _ | split | extract_lets
  -- swarms, ports and scouts' peers
  case waggleRound | propose | ack | commit | join | suspicion | packetArrival | remoteAtomic =>
    unfold exec
    dsimp only
    delta execWaggleRound execPropose execAck execCommit execJoin execSuspicion execPacketArrival execRemoteAtomic
    repeat' first | with_reducible exact .next _ | split | extract_lets
  -- timelines, contexts and pages
  case timelineDelivery | completionTimelineAdvance | preemption | preemptionFreeze | contextSave | contextRestore | pageMigration |
    pageMigrationCopy | faultDelivery | arbiterChoice =>
    unfold exec
    dsimp only
    delta execTimelineDelivery execCompletionTimelineAdvance execPreemption execPreemptionFreeze execContextSave execContextRestore
      execPageMigration execPageMigrationCopy execFaultDelivery execArbiterChoice
    repeat' first | with_reducible exact .next _ | split | extract_lets
  -- records and launches
  case faultRecord | doorbell | slotMap | idleUnmap | blockedUnmap | launchAdmission | launchStart | launchRetire =>
    unfold exec
    dsimp only
    delta execFaultRecord execDoorbell execSlotMap execIdleUnmap execBlockedUnmap execLaunchAdmission execLaunchStart execLaunchRetire
    repeat' first | with_reducible exact .next _ | split | extract_lets
  -- repair, the host, the controller and power
  case migrationStart | migrationApprovalTimeout | migrationMove | tileLost | pageService | assistReply | queueEnable | queueDisable |
    bar2Read | bar2Write | registerWrite | stagingWrite | firmwareSwitch | securityVersionRaise | handoverHeartbeat | watchdogExpiry |
    boot | partReset | throttleEvaluation | thermalHold | thermalRelease =>
    unfold exec
    dsimp only
    delta execMigrationStart execMigrationApprovalTimeout execMigrationMove execTileLost execPageService execAssistReply execQueueEnable
      execQueueDisable execBar2Read execBar2Write execRegisterWrite execStagingWrite execFirmwareSwitch execSecurityVersionRaise
      execHandoverHeartbeat execWatchdogExpiry execBoot execPartReset execThrottleEvaluation execThermalHold execThermalRelease
    repeat' first | with_reducible exact .next _ | split | extract_lets
  all_goals cases h

/-- Every instruction completes: those of the slots within their frame, those of the scouts, and the events. -/
theorem completes_exec (i : Instr) (s : State) : Completes (exec i s) := by
  by_cases hs : i.home = .scout
  · exact completes_exec_scout i s hs
  · by_cases he : i.home = .event
    · exact completes_exec_event i s he
    · obtain ⟨t, ht, _⟩ := s.frames_exec i hs he
      exact ⟨t, ht⟩

/-! ### Bundles -/

theorem completes_andThen {o : Out} {k : State → Out} (ho : Completes o) (hk : ∀ t, Completes (k t)) : Completes (andThen o k) := by
  obtain ⟨t, rfl⟩ := ho
  exact hk t

theorem completes_runSlot (ws : List Nat) (k : Nat) (s : State) : Completes (runSlot ws k s) := by
  unfold runSlot
  extract_lets w
  split
  · exact .next _
  · extract_lets taken
    split
    · split
      · exact completes_exec ..
      · exact .next _
    · split
      · exact .ite (.next _) (completes_exec ..)
      · exact .next _

theorem completes_runSlots (ws ks : List Nat) (s : State) : Completes (runSlots ws ks s) := by
  induction ks generalizing s with
  | nil => exact .next s
  | cons k ks ih => exact completes_andThen (completes_runSlot ws k s) ih

theorem completes_issueBundle (ws : List Nat) (i : Instr) (s : State) : Completes (issueBundle ws i s) := by
  refine completes_andThen (.ite (completes_exec ..) (.next _)) fun s => ?_
  refine completes_andThen (completes_runSlots ..) fun s => ?_
  exact completes_andThen (.ite (.next _) (completes_exec ..)) fun s => .next _

theorem completes_waitFails (i : Instr) (t : TileId) (c : Fin 4) (s : State) : Completes (waitFails i t c s) :=
  completes_andThen (completes_exec ..) fun _ => .next _

theorem completes_attemptBundle (ws : List Nat) (t : TileId) (c : Fin 4) (s : State) : Completes (attemptBundle ws t c s) := by
  unfold attemptBundle
  split
  · exact .next _
  · extract_lets x held banks
    refine .ite (.next _) ?_
    split
    · exact .next _
    · refine .ite (.next _) (.ite (completes_waitFails ..) (.ite (.next _) ?_))
      split
      · exact .next _
      · exact completes_andThen (completes_issueBundle ..) fun _ => .next _

theorem completes_attempt (t : TileId) (c : Fin 4) (s : State) : Completes (attempt t c s) := by
  unfold attempt
  extract_lets s₁ x delay cur₀ cur s₂ s₃ x'
  split
  · exact .next _
  · refine .ite (.next _) ?_
    split
    · exact .next _
    · exact .next _
    · exact .next _
    · extract_lets ws safe live
      clear_value live
      split
      · exact .next _
      · exact .next _
      · split
        extract_lets s₄ s₅
        split
        · exact .next _
        · exact completes_andThen (completes_attemptBundle ..) fun _ => .next _

theorem completes_issueTile (t : TileId) (s : State) : Completes (issueTile t s) := by
  have choose (u : State) : Completes (execArbiterChoice t u) := completes_exec (.arbiterChoice t) u
  refine completes_andThen (.ite (.next _) ?_) fun s => completes_andThen (.ite (.next _) ?_) fun s => .next _
  · split
    · exact .ite (choose _) (.next _)
    · exact .ite (choose _) (.next _)
    · exact .ite (choose _) (.next _)
    · exact .ite (choose _) (.next _)
  · split
    · exact .ite (completes_attempt ..) (.next _)
    · exact completes_attempt ..
    · exact .next _

/-! ### Steps -/

theorem completes_scoutStep (s : State) : Completes (scoutStep s) := by
  refine .ite (.next _) ?_
  extract_lets f
  split <;> exact completes_exec ..

theorem completes_runMove (m : Move) (s : State) : Completes (runMove m s) := by
  cases m with
  | ev i => exact completes_exec i s
  | issue t => exact completes_issueTile t s
  | copy t => exact .ite (completes_exec ..) (.next _)
  | scout p => exact completes_scoutStep _
  | comb | early | array | perform | engines | host | enginePort | settle | links | transmit | front => exact .next _

theorem completes_runStimulus (i : Stimulus) (s : State) : Completes (runStimulus i s) := by
  refine .ite (.next _) ?_
  split
  case h_3 => exact .ite (.next _) (.ite (.next _) (completes_exec ..))
  all_goals exact .next _

theorem completes_step (s : State) : Completes (step s) := by
  unfold step
  split
  · exact completes_runStimulus ..
  · split
    · exact completes_runMove ..
    · exact .next _

/-- Settles O56: every instruction and every step answers a state, by the lemma of each meaning. -/
theorem everythingCompletes : Obligations.EverythingCompletes := by
  unfold Obligations.EverythingCompletes
  exact ⟨completes_exec, completes_step⟩

end Sys2Proof.Machine

/-! Copies and buffer commands as they join the copy queue (O22). -/

namespace Sys2Proof.Machine

/-! ### A command joins the copy queue -/

theorem QGuard.resolved_iff (g : QGuard) : g.resolved = true ↔ g = .yes := beq_iff_eq

theorem Context.issueCounts_wack (c : Context) (tag : Option (Fin 16)) (wack : Bool) :
    (c.issueCounts tag wack).wack = c.wack + if wack then 1 else 0 := by
  cases tag <;> cases wack <;> simp [Context.issueCounts, Context.rise, Context.ackRise]

theorem Context.issueCounts_cnt (c : Context) (tag : Option (Fin 16)) (wack : Bool) (k : Fin 16) :
    (c.issueCounts tag wack).cnt[k] = c.cnt[k] + if tag = some k then 1 else 0 := by
  have hw : (c.issueCounts tag wack).cnt = (c.issueCounts tag false).cnt := by cases wack <;> rfl
  rw [hw]
  cases tag with
  | none => simp [Context.issueCounts]
  | some j =>
    show (vset c.cnt j (c.cnt[j] + 1))[k] = _
    by_cases h : k = j
    · subst h
      simp
    · rw [vset_ne _ _ h, if_neg (by simpa using Ne.symm h)]
      simp

theorem Context.issueCounts_tt (c : Context) (tag : Option (Fin 16)) (wack : Bool) : (c.issueCounts tag wack).tt = c.tt := by
  cases tag <;> cases wack <;> rfl

/-- The command that joins the copy queue. -/
def State.copyCmd (s : State) (op : CopyOp) (follow late : Bool) (xl : List TlbEntry) : CopyCmd :=
  ⟨s.curTile.nextId, s.cur.ctx, s.cur.pc, s.now, s.cur.guard, op, follow, late, xl⟩

section
variable (s : State) (op : CopyOp) (tag : Option (Fin 16)) (wack follow late : Bool) (xl : List TlbEntry)

theorem State.enqueueCopy_cpq :
    (s.enqueueCopy op tag wack follow late xl).curTile.cpq = s.curTile.cpq ++ [s.copyCmd op follow late xl] := by
  rw [State.enqueueCopy, State.curTile_modCurTile]
  exact (apply_ite Tile.cpq ..).trans (ite_self _)

theorem State.enqueueCopy_live :
    (s.enqueueCopy op tag wack follow late xl).curTile.live = s.curTile.live ++ [⟨s.curTile.nextId, s.cur.ctx, 1, tag, false, wack⟩] := by
  rw [State.enqueueCopy, State.curTile_modCurTile]
  exact (apply_ite Tile.live ..).trans (ite_self _)

theorem State.enqueueCopy_curCtx : (s.enqueueCopy op tag wack follow late xl).curCtx =
    if s.cur.guard.resolved then s.curCtx.issueCounts tag wack else s.curCtx := by
  rw [State.enqueueCopy, State.curCtx_modCurTile]
  refine (apply_ite (fun t : Tile => t.ctx s.cur.ctx) ..).trans ?_
  rw [Tile.ctx_modCtx]
  rfl

/-- A state whose copy queue, ledger and counters are those of a command's issue. -/
theorem State.queuesCopy_of {t : State} (hq : t.curTile.cpq = (s.enqueueCopy op tag wack follow late xl).curTile.cpq)
    (hl : t.curTile.live = (s.enqueueCopy op tag wack follow late xl).curTile.live)
    (hw : t.curCtx.wack = (s.enqueueCopy op tag wack follow late xl).curCtx.wack)
    (hc : t.curCtx.cnt = (s.enqueueCopy op tag wack follow late xl).curCtx.cnt) : s.queuesCopy (.next t) op tag wack := by
  refine ⟨t, s.copyCmd op follow late xl, rfl, hq.trans (State.enqueueCopy_cpq ..), rfl, rfl, rfl, hl.trans (State.enqueueCopy_live ..), ?_, fun k => ?_⟩
  · rw [hw, State.enqueueCopy_curCtx]
    simp only [QGuard.resolved_iff]
    split
    next h => simp [h, Context.issueCounts_wack]
    next h => simp [h]
  · rw [hc, State.enqueueCopy_curCtx]
    simp only [QGuard.resolved_iff]
    split
    next h => simp [h, s.curCtx.issueCounts_cnt tag wack k]
    next h => simp [h]

theorem State.queuesCopy_enqueueCopy : s.queuesCopy (.next (s.enqueueCopy op tag wack follow late xl)) op tag wack :=
  s.queuesCopy_of op tag wack follow late xl rfl rfl rfl rfl

end

/-- A free place and counters that are not full: nothing keeps a command from the copy queue. -/
theorem State.copyFull_none {s : State} {tag : Option (Fin 16)} {wack : Bool} (hq : s.curTile.cpq.length < 8)
    (ht : ∀ k, tag = some k → s.curCtx.cnt[k] ≠ 255) (hw : wack = true → s.curCtx.wack ≠ 0xFFFF) : s.copyFull tag wack = none := by
  have hw' : (wack && s.curCtx.wack == 0xFFFF) = false := by
    cases wack with
    | false => rfl
    | true => simpa using hw rfl
  unfold State.copyFull
  rw [if_neg (by omega)]
  split
  · rfl
  · split
    next k => rw [if_neg (ht k rfl), if_neg (Bool.eq_false_iff.1 hw')]
    next => rw [if_neg (Bool.eq_false_iff.1 hw')]

theorem tagOf_eq_some {t : Bool} {cn k : Fin 16} : tagOf t cn = some k ↔ t = true ∧ cn = k := by
  cases t <;> simp [tagOf]

theorem copySlot_queues {s : State} (op : CopyOp) {tag : Option (Fin 16)} (h : s.copyFull tag false = none) :
    s.queuesCopy (copySlot op tag s) op tag false := by
  rw [copySlot, h]
  exact s.queuesCopy_enqueueCopy ..

/-! ### A copy instruction -/

/-- The translations that a STATIC copy keeps from its check at issue. -/
def State.copyKept (s : State) (form : CopyForm) (c : CopyOps) : List TlbEntry :=
  if c.st && s.cur.guard.resolved then
    match s.staticCheck s.curTile s.cur.ctx none form c.buf (s.copyD0 c) (s.copyD1 c) (s.ra c.ab) [] with
    | .ok xl => xl
    | _ => []
  else []

/-- The operation of a copy instruction, with its descriptor and address as they stand at issue. -/
def State.copyOp (s : State) (form : CopyForm) (c : CopyOps) : CopyOp := .copy form c.buf (s.copyD0 c) (s.copyD1 c) (s.ra c.ab) c.st

/-- The TLB entries of some translations are used. -/
def State.touched (s : State) (xl : List TlbEntry) : State :=
  s.modCurTile fun t => t.tlbTouch (s.curCtx.lid.getD 0) (fun v => xl.any fun e => e.vbase == v) s.now

/-- The copy in the queue, before the MMA it captures. -/
def State.withCopy (s : State) (form : CopyForm) (c : CopyOps) : State :=
  (s.enqueueCopy (s.copyOp form c) (tagOf c.t c.cn) (form == .cpyo) c.f (c.st && !s.cur.guard.resolved) (s.copyKept form c)).touched
    (s.copyKept form c)

/-- The command that a copy instruction is in the queue. -/
def State.copied (s : State) (form : CopyForm) (c : CopyOps) : CopyCmd :=
  s.copyCmd (s.copyOp form c) c.f (c.st && !s.cur.guard.resolved) (s.copyKept form c)

theorem copyForm_fault {s : State} {form : CopyForm} {c : CopyOps} {f : Cause} (h : s.copyCause form c = some f) :
    copyForm form c s = .next (s.issueFault s.cur.tile s.cur.ctx f) := by
  rw [copyForm, h]

theorem copyForm_joins {s : State} {form : CopyForm} {c : CopyOps} (h : s.copyCause form c = none) :
    copyForm form c s = .next (if c.f then (s.withCopy form c).enqueueFollow s.curTile.nextId else s.withCopy form c) := by
  rw [copyForm, h]
  rfl

section
variable {s : State} {form : CopyForm} {c : CopyOps}

theorem State.copyCause_none (h : s.copyFull (tagOf c.t c.cn) (form == .cpyo) = none) (hst : c.st = false) : s.copyCause form c = none := by
  simp only [State.copyCause, h, hst, Bool.false_and, Bool.false_eq_true, if_false]

/-- The check of a STATIC copy whose guard is resolved. -/
def State.copyCheck (s : State) (form : CopyForm) (c : CopyOps) : StaticOut :=
  s.staticCheck s.curTile s.cur.ctx none form c.buf (s.rs c.rs) (s.rs (c.rs + 1)) (s.ra c.ab) []

section
variable (h : s.copyFull (tagOf c.t c.cn) (form == .cpyo) = none) (hst : c.st = true) (hg : s.cur.guard = .yes)
include h hst hg

theorem State.copyCause_static : s.copyCause form c = match s.copyCheck form c with
    | .fault rsn lvl x => some (causeCopy 7 rsn lvl x)
    | _ => none := by
  simp only [State.copyCause, h, hst, (QGuard.resolved_iff _).2 hg, Bool.and_self, if_true]
  rfl

theorem State.copyCause_refused {rsn lvl x : Nat} (hc : s.copyCheck form c = .fault rsn lvl x) :
    s.copyCause form c = some (causeCopy 7 rsn lvl x) := by
  rw [State.copyCause_static h hst hg, hc]

theorem State.copyCause_passed {xl : List TlbEntry} (hc : s.copyCheck form c = .ok xl) : s.copyCause form c = none := by
  rw [State.copyCause_static h hst hg, hc]

omit h in
theorem State.copyKept_passed {xl : List TlbEntry} (hc : s.copyCheck form c = .ok xl) : s.copyKept form c = xl := by
  rw [State.copyKept, hst, (QGuard.resolved_iff _).2 hg, Bool.and_self, if_pos rfl]
  show (match s.copyCheck form c with
    | .ok xl => xl
    | _ => []) = xl
  rw [hc]

end

theorem Tile.tlbTouch_frame (t : Tile) (l : Nat) (used : Nat → Bool) (n : Nat) : { t.tlbTouch l used n with tlb := t.tlb } = t := by
  unfold Tile.tlbTouch
  split <;> rfl

theorem State.curTile_touched (t : State) (xl : List TlbEntry) : { (t.touched xl).curTile with tlb := t.curTile.tlb } = t.curTile := by
  rw [State.touched, State.curTile_modCurTile]
  exact Tile.tlbTouch_frame ..

theorem State.curCtx_touched (t : State) (xl : List TlbEntry) : (t.touched xl).curCtx = t.curCtx := by
  rw [State.touched, State.curCtx_modCurTile]
  exact congrArg (fun v : Vector Context 4 => v[t.cur.ctx]) (Tile.tlbTouch_ctxs ..)

theorem State.touched_cpq (t : State) (xl : List TlbEntry) : (t.touched xl).curTile.cpq = t.curTile.cpq :=
  (congrArg Tile.cpq (t.curTile_touched xl) :)

theorem State.touched_live (t : State) (xl : List TlbEntry) : (t.touched xl).curTile.live = t.curTile.live :=
  (congrArg Tile.live (t.curTile_touched xl) :)

theorem State.withCopy_cpq : (s.withCopy form c).curTile.cpq = s.curTile.cpq ++ [s.copied form c] :=
  (State.touched_cpq ..).trans (State.enqueueCopy_cpq ..)

theorem State.queuesCopy_withCopy : s.queuesCopy (.next (s.withCopy form c)) (s.copyOp form c) (tagOf c.t c.cn) (form == .cpyo) :=
  s.queuesCopy_of _ _ _ _ _ _ (State.touched_cpq ..) (State.touched_live ..)
    (congrArg Context.wack (State.curCtx_touched ..)) (congrArg Context.cnt (State.curCtx_touched ..))

theorem copyForm_queues (h : s.copyCause form c = none) (hf : c.f = false) :
    s.queuesCopy (copyForm form c s) (s.copyOp form c) (tagOf c.t c.cn) (form == .cpyo) := by
  rw [copyForm_joins h, hf]
  exact State.queuesCopy_withCopy

end

/-! ### The captured MMA (R38) -/

/-- The array's owner, queue, captured values and counters are the same in two tiles. -/
structure Tile.SameArray (x y : Tile) : Prop where
  own : y.own = x.own
  ownV : y.ownV = x.ownV
  mxq : y.mxq = x.mxq
  decay : y.decay = x.decay
  q : y.q = x.q
  qpend : y.qpend = x.qpend
  err : y.err = x.err
  errLock : y.errLock = x.errLock
  tt : ∀ d, (y.ctx d).tt = (x.ctx d).tt

theorem Tile.SameArray.trans {x y z : Tile} (h : x.SameArray y) (h' : y.SameArray z) : x.SameArray z :=
  ⟨h'.own.trans h.own, h'.ownV.trans h.ownV, h'.mxq.trans h.mxq, h'.decay.trans h.decay, h'.q.trans h.q, h'.qpend.trans h.qpend,
    h'.err.trans h.err, h'.errLock.trans h.errLock, fun d => (h'.tt d).trans (h.tt d)⟩

theorem Tile.SameArray.scale {x y : Tile} (h : x.SameArray y) (c : Fin 4) (now : Nat) (r : Fin 8) : y.scale c now r = x.scale c now r := by
  have own (p : QPend) : y.ownSees p = x.ownSees p := by simp only [Tile.ownSees, h.tt]
  have others (p : QPend) : y.othersSee now p = x.othersSee now p := by simp only [Tile.othersSee, own]
  simp only [Tile.scale, own, others, h.q, h.qpend]

theorem Tile.sameArray_tlbTouch (x : Tile) (l : Nat) (used : Nat → Bool) (n : Nat) : x.SameArray (x.tlbTouch l used n) := by
  unfold Tile.tlbTouch
  split <;> exact ⟨rfl, rfl, rfl, rfl, rfl, rfl, rfl, rfl, fun _ => rfl⟩

theorem State.sameArray_enqueueCopy (s : State) (op : CopyOp) (tag : Option (Fin 16)) (wack follow late : Bool) (xl : List TlbEntry) :
    s.curTile.SameArray (s.enqueueCopy op tag wack follow late xl).curTile := by
  have counted (x : Tile) (h : s.curTile.SameArray x) :
      s.curTile.SameArray (if s.cur.guard.resolved then x.modCtx s.cur.ctx fun c => c.issueCounts tag wack else x) := by
    split
    · refine ⟨h.own, h.ownV, h.mxq, h.decay, h.q, h.qpend, h.err, h.errLock, fun d => ?_⟩
      by_cases hd : d = s.cur.ctx
      · subst hd
        rw [Tile.ctx_modCtx, Context.issueCounts_tt]
        exact h.tt _
      · rw [Tile.ctx_modCtx_ne x _ hd]
        exact h.tt d
    · exact h
  rw [State.enqueueCopy, State.curTile_modCurTile]
  exact counted _ ⟨rfl, rfl, rfl, rfl, rfl, rfl, rfl, rfl, fun _ => rfl⟩

theorem State.sameArray_withCopy (s : State) (form : CopyForm) (c : CopyOps) : s.curTile.SameArray (s.withCopy form c).curTile := by
  rw [State.withCopy, State.touched, State.curTile_modCurTile]
  exact (s.sameArray_enqueueCopy ..).trans (Tile.sameArray_tlbTouch ..)

theorem State.mmaOp_sameArray {s t : State} (h : s.curTile.SameArray t.curTile) (hc : t.cur = s.cur) (hn : t.now = s.now) (delay : BitVec 8)
    (ring : Fin 8) (p : Fin 2) (ctl : AccCtl) (wp : Fin 2) (ta : Bool) :
    t.mmaOp delay ring p ctl wp ta = s.mmaOp delay ring p ctl wp ta := by
  simp only [State.mmaOp, State.scaleNow, h.decay, hc, hn, h.scale]

theorem State.cpq_enqueueMx (s : State) (op : MxOp) (by_ : Option Nat) : (s.enqueueMx op by_).curTile.cpq = s.curTile.cpq := by
  rw [State.enqueueMx, State.curTile_modCurTile]
  rfl

section
variable {u : State} {delay : BitVec 8} {ring : Fin 8} {h wp : Fin 2} {ta : Bool} {ctl : AccCtl}

theorem State.enqueueFollow_owner (id : Nat) (hf : u.cur.follow = some (.mma delay ring h ctl wp ta))
    (ho : u.curTile.ownV = true ∧ u.curTile.own = u.cur.ctx) :
    u.enqueueFollow id = u.enqueueMx (u.mmaOp delay ring h ctl wp ta) (some id) := by
  simp only [State.enqueueFollow, hf, (Tile.owns_iff _ _).2 ho, if_true]

theorem State.enqueueFollow_other (id : Nat) (hf : u.cur.follow = some (.mma delay ring h ctl wp ta))
    (ho : ¬ (u.curTile.ownV = true ∧ u.curTile.own = u.cur.ctx)) :
    u.enqueueFollow id = u.modCurTile fun t => t.count mxNotown 1 := by
  simp only [State.enqueueFollow, hf, if_neg (mt (Tile.owns_iff _ _).1 ho)]

end

theorem Tile.count_err (t : Tile) (i : Fin 10) (n : Nat) (h : t.errLock = 0) : (t.count i n).err[i] = addSat32 t.err[i] n := by
  have hl : t.errLock.getLsbD i.val = false := by rw [h]; exact BitVec.getLsbD_zero
  rw [Tile.count, if_neg (Bool.eq_false_iff.1 hl)]
  exact vset_self ..

/-- A copy with F = 1 and the MMA it captures: held in the owner's MXU queue by the copy, or discarded and counted (R38, R114). -/
theorem copyForm_follow {s : State} {form : CopyForm} {c : CopyOps} {delay : BitVec 8} {ring : Fin 8} {h wp : Fin 2} {ta : Bool}
    {ctl : AccCtl} (hc : s.copyCause form c = none) (hf : c.f = true) (hm : s.cur.follow = some (.mma delay ring h ctl wp ta)) :
    ∃ t q, copyForm form c s = .next t ∧ t.curTile.cpq = s.curTile.cpq ++ [q] ∧ q.op = s.copyOp form c ∧ q.follow = true ∧
      q.guard = s.cur.guard ∧
      (s.curTile.ownV = true ∧ s.curTile.own = s.cur.ctx → ∃ m, t.curTile.mxq = s.curTile.mxq ++ [m] ∧ m.held = true ∧
        m.heldBy = some q.id ∧ m.ctx = s.cur.ctx ∧ m.tt = s.cur.tt ∧ m.guard = s.cur.guard ∧ m.op = s.mmaOp delay ring h ctl wp ta) ∧
      (¬ (s.curTile.ownV = true ∧ s.curTile.own = s.cur.ctx) → t.curTile.mxq = s.curTile.mxq ∧
        (s.curTile.errLock = 0 → t.curTile.err[mxNotown] = addSat32 s.curTile.err[mxNotown] 1)) := by
  have hsame := s.sameArray_withCopy form c
  have howns : (s.withCopy form c).curTile.ownV = true ∧ (s.withCopy form c).curTile.own = (s.withCopy form c).cur.ctx ↔
      s.curTile.ownV = true ∧ s.curTile.own = s.cur.ctx := by
    rw [hsame.ownV, hsame.own]
    rfl
  have hnext := copyForm_joins hc
  rw [if_pos hf] at hnext
  by_cases ho : s.curTile.ownV = true ∧ s.curTile.own = s.cur.ctx
  · rw [State.enqueueFollow_owner (u := s.withCopy form c) _ hm (howns.2 ho)] at hnext
    refine ⟨_, _, hnext, (State.cpq_enqueueMx ..).trans State.withCopy_cpq, rfl, hf, rfl, fun _ => ?_, fun h => absurd ho h⟩
    exact ⟨_, (State.mxq_enqueueMx ..).trans (congrArg (· ++ _) hsame.mxq), rfl, rfl, rfl, rfl, rfl, State.mmaOp_sameArray hsame rfl rfl ..⟩
  · rw [State.enqueueFollow_other (u := s.withCopy form c) _ hm (mt howns.1 ho)] at hnext
    refine ⟨_, s.copied form c, hnext, ?_, rfl, hf, rfl, fun h => absurd h ho, fun _ => ⟨?_, fun hl => ?_⟩⟩
    · rw [State.curTile_modCurTile]
      exact (congrArg Tile.cpq (Tile.count_frame ..) :).trans State.withCopy_cpq
    · rw [State.curTile_modCurTile]
      exact (congrArg Tile.mxq (Tile.count_frame ..) :).trans hsame.mxq
    · rw [State.curTile_modCurTile, Tile.count_err _ _ _ (hsame.errLock.trans hl), hsame.err]

/-! ### The STATIC check (R229) -/

theorem Context.window_ok {c : Context} {va pa vb sz pb : Nat} {res r w x : Bool} {lc : BitVec 3} {win mig : Bool}
    (h : c.window va = some (.ok pa vb sz pb res r w x lc win mig)) : win = true := by
  unfold Context.window at h
  split at h
  · cases h
    rfl
  · cases h

theorem Tile.tlbHit_covers {t : Tile} {c : Context} {va : Nat} {e : TlbEntry} (h : t.tlbHit c va = some e) :
    inSpan va e.vbase e.size = true := by
  unfold Tile.tlbHit at h
  split at h
  · cases h
  · have := List.find?_some h
    simp only [Bool.and_eq_true] at this
    exact this.2

/-- With no walk done, an address that is looked up lies in the window or in the page of a TLB entry. -/
theorem State.lookup_ok {s : State} {t : Tile} {ctx : Fin 4} {cmd : Option Nat} {va pa vb sz pb : Nat} {res r w x : Bool} {lc : BitVec 3}
    {win mig : Bool} (hw : t.walks = []) (h : s.lookup t ctx cmd true va = some (.ok pa vb sz pb res r w x lc win mig)) :
    win = true ∨ inSpan va vb sz = true := by
  unfold State.lookup at h
  extract_lets c at h
  split at h
  next x hx =>
    cases h
    exact .inl (Context.window_ok hx)
  next =>
    split at h
    · cases h
    · rw [hw, List.find?_nil, if_pos rfl, Option.map_eq_some_iff] at h
      obtain ⟨e, he, hx⟩ := h
      cases hx
      exact .inr (Tile.tlbHit_covers he)

/-- Where an address outside the window is known from: an entry that the command has, or the page of a TLB entry. -/
theorem State.known_ok {s : State} {t : Tile} {ctx : Fin 4} {cmd : Option Nat} {got : List TlbEntry} {va pa vb sz pb : Nat}
    {res r w x : Bool} {lc : BitVec 3} {win mig : Bool} (hw : t.walks = [])
    (h : s.known t ctx cmd true got va = some (.ok pa vb sz pb res r w x lc win mig)) :
    win = true ∨ (∃ e ∈ got, inSpan va e.vbase e.size = true) ∨ inSpan va vb sz = true := by
  unfold State.known at h
  split at h
  next e _ he =>
    cases h
    exact .inr (.inl ⟨e, List.mem_of_find?_eq_some he, (List.find?_some he :)⟩)
  next => exact (State.lookup_ok hw h).imp_right .inr

/-- One address of a STATIC check that ends well: it is known outside the window, with a class that promises something. -/
theorem State.translateAll_cons {s : State} {t : Tile} {c : Context} {ctx : Fin 4} {cmd : Option Nat} {va tag : Nat}
    {pts : List (Nat × Nat)} {got xl : List TlbEntry}
    (h : s.translateAll t c ctx cmd (some .read) false true ((va, tag) :: pts) got = .ready xl) :
    ∃ pa vb sz pb res r w x lc mig, s.known t ctx cmd true got va = some (.ok pa vb sz pb res r w x lc false mig) ∧ lc ≠ 0 ∧
      s.translateAll t c ctx cmd (some .read) false true pts (if got.any fun e => inSpan va e.vbase e.size then got
        else got ++ [⟨c.lid.getD 0, vb, sz, pb, res, r, w, x, lc, s.now⟩]) = .ready xl := by
  rw [State.translateAll] at h
  split at h
  · cases h
  · cases h
  next pa vb sz pb res r w x lc win mig hk =>
    dsimp only at h
    split at h
    · cases h
    · split at h
      · cases h
      · split at h
        · split at h
          · cases h
          next hp =>
            simp only [Bool.true_and, Bool.or_eq_true, beq_iff_eq, not_or, Bool.not_eq_true] at hp
            obtain ⟨rfl, hlc⟩ := hp
            split at h
            · cases h
            · exact ⟨_, _, _, _, _, _, _, _, _, _, hk, hlc, h⟩
        · cases h

/-- A STATIC check that ends well keeps what it had, and covers every address with an entry that promises something. -/
theorem State.translateAll_promises {s : State} {t : Tile} {c : Context} {ctx : Fin 4} {cmd : Option Nat} {pts : List (Nat × Nat)}
    {got xl : List TlbEntry} (hw : t.walks = []) (hg : ∀ e ∈ got, e.lc ≠ 0)
    (h : s.translateAll t c ctx cmd (some .read) false true pts got = .ready xl) :
    (∀ e ∈ got, e ∈ xl) ∧ (∀ e ∈ xl, e.lc ≠ 0) ∧ ∀ p ∈ pts, ∃ e ∈ xl, inSpan p.1 e.vbase e.size = true := by
  induction pts generalizing got with
  | nil =>
    obtain rfl : got = xl := by simpa [State.translateAll] using h
    exact ⟨fun _ h => h, hg, fun _ h => absurd h List.not_mem_nil⟩
  | cons p pts ih =>
    obtain ⟨va, tag⟩ := p
    obtain ⟨pa, vb, sz, pb, res, r, w, x, lc, mig, hk, hlc, ht⟩ := State.translateAll_cons h
    have hknown := (State.known_ok hw hk).resolve_left Bool.false_ne_true
    split at ht
    next hany =>
      obtain ⟨hsub, hxl, hpts⟩ := ih hg ht
      obtain ⟨e, he, hs⟩ := List.any_eq_true.1 hany
      exact ⟨hsub, hxl, List.forall_mem_cons.2 ⟨⟨e, hsub e he, hs⟩, hpts⟩⟩
    next hany =>
      obtain ⟨hsub, hxl, hpts⟩ := ih (by simpa [or_imp, forall_and] using ⟨hg, hlc⟩) ht
      have hin : inSpan va vb sz = true := hknown.resolve_left fun ⟨e, he, hs⟩ => hany (List.any_eq_true.2 ⟨e, he, hs⟩)
      exact ⟨fun e he => hsub e (List.mem_append_left _ he), hxl, List.forall_mem_cons.2 ⟨⟨_, hsub _ (List.mem_append_right _ List.mem_cons_self), hin⟩, hpts⟩⟩

theorem le_foldl_max {α : Type} (f : α → Nat) (l : List α) (m : Nat) :
    m ≤ l.foldl (fun m a => max m (f a)) m ∧ ∀ a ∈ l, f a ≤ l.foldl (fun m a => max m (f a)) m := by
  induction l generalizing m with
  | nil => exact ⟨Nat.le_refl m, fun a ha => absurd ha List.not_mem_nil⟩
  | cons b l ih =>
    obtain ⟨hm, hl⟩ := ih (max m (f b))
    exact ⟨(Nat.le_max_left ..).trans hm, List.forall_mem_cons.2 ⟨(Nat.le_max_right ..).trans hm, hl⟩⟩

theorem inSpan_iff (a lo n : Nat) : inSpan a lo n = true ↔ lo ≤ a ∧ a < lo + n := by simp [inSpan]

/-- The bound of an address as the kept translations give it. -/
def boundAt (xl : List TlbEntry) (a : Nat) : Nat :=
  match xl.find? fun e => inSpan a e.vbase e.size with
  | some e => lcBound e.lc
  | none => 0

/-- A check that passes has translated every point, and the worst of their bounds lies within the arrival offset. -/
theorem State.staticCheck_ok {s : State} {t : Tile} {ctx : Fin 4} {form : CopyForm} {buf : Fin 32} {d0 d1 : Word} {addr : VAddr}
    {xl : List TlbEntry} (h : s.staticCheck t ctx none form buf d0 d1 addr [] = .ok xl) :
    let n := heapBytes form d1 (t.copyBytes buf d0)
    let pts := (t.ctx ctx).spanPoints addr.toNat n
    s.translateAll t (t.ctx ctx) ctx none (some .read) false true (pts.map fun a => (a, 0)) [] = .ready xl ∧
      pts.foldl (fun m a => max m (boundAt xl a)) 0 + 43 * (pieces addr.toNat n - 1) ≤ dArr d0 := by
  unfold State.staticCheck at h
  extract_lets c n pts at h
  intro n pts
  split at h
  · cases h
  · split at h
    · cases h
    · cases h
    next got hgot =>
      extract_lets worst need at h
      split at h
      · cases h
      next hle =>
        cases h
        exact ⟨hgot, Nat.le_of_not_lt hle⟩

theorem State.staticCheck_refuses {s : State} {t : Tile} {ctx : Fin 4} {form : CopyForm} {buf : Fin 32} {d0 d1 : Word} {addr : VAddr}
    (h : form = .cpyg ∨ form = .cpyo) : s.staticCheck t ctx none form buf d0 d1 addr [] = .fault 6 0 0 := by
  unfold State.staticCheck
  exact if_pos (h.imp_right .inl)

/-- What a STATIC copy that passes promises of each of its pages (R229). -/
theorem State.staticCheck_promises {s : State} {t : Tile} {ctx : Fin 4} {form : CopyForm} {buf : Fin 32} {d0 d1 : Word} {addr : VAddr}
    {xl : List TlbEntry} (hw : t.walks = []) (h : s.staticCheck t ctx none form buf d0 d1 addr [] = .ok xl) :
    let n := heapBytes form d1 (t.copyBytes buf d0)
    ∀ a ∈ (t.ctx ctx).spanPoints addr.toNat n, ∃ e ∈ xl, e.vbase ≤ a ∧ a < e.vbase + e.size ∧ e.lc ≠ 0 ∧
      192 * 2 ^ e.lc.toNat + 43 * (pieces addr.toNat n - 1) ≤ d0.toNat / 2 ^ 16 % 32768 := by
  intro n a ha
  obtain ⟨htr, hle⟩ := State.staticCheck_ok h
  obtain ⟨_, hlc, hpts⟩ := State.translateAll_promises hw (fun e he => absurd he List.not_mem_nil) htr
  obtain ⟨e', he', hs'⟩ := hpts _ (List.mem_map_of_mem ha)
  have hsome : (xl.find? fun e => inSpan a e.vbase e.size).isSome = true := List.find?_isSome.2 ⟨e', he', hs'⟩
  obtain ⟨e, he⟩ := Option.isSome_iff_exists.1 hsome
  have hb : boundAt xl a = lcBound e.lc := by rw [boundAt, he]
  have hmax : lcBound e.lc ≤ _ := hb ▸ (le_foldl_max (boundAt xl) _ 0).2 a ha
  obtain ⟨lo, hi⟩ := (inSpan_iff ..).1 (List.find?_some he :)
  exact ⟨e, List.mem_of_find?_eq_some he, lo, hi, hlc e (List.mem_of_find?_eq_some he), (Nat.add_le_add_right hmax _).trans hle⟩

/-- The instruction of a copy form, on the terms of its statement. -/
theorem exec_copy {s : State} {c : CopyOps} {form : CopyForm} {i : Instr}
    (h : (form = .cpy ∧ i = .cpy c) ∨ (form = .cpyg ∧ i = .cpyg c) ∨ (form = .cpyx ∧ i = .cpyx c) ∨ (form = .cpyo ∧ i = .cpyo c)) :
    exec i s = copyForm form c s := by
  rcases h with ⟨rfl, rfl⟩ | ⟨rfl, rfl⟩ | ⟨rfl, rfl⟩ | ⟨rfl, rfl⟩
  all_goals rfl

theorem Context.issueCounts_none (c : Context) : c.issueCounts none false = c := rfl

/-- PUBLISH is a command of the copy queue; one that names a mask register owes it the residency map (R239). -/
theorem execPublish_eq {s : State} (b : Fin 32) (mk : Fin 8) (h : s.copyFull none false = none) :
    let u := s.enqueueCopy (.publish b mk) none false false false []
    execPublish b mk s = .next (if mk = 0 then u else
      u.modCur fun c => { c with mpubs := c.mpubs ++ [⟨s.curTile.nextId, b, mk, none, s.cur.tt⟩] }) := by
  rw [execPublish, h]
  rfl

theorem execPublish_queues {s : State} (b : Fin 32) (mk : Fin 8) (h : s.copyFull none false = none) :
    s.queuesCopy (execPublish b mk s) (.publish b mk) none false := by
  rw [execPublish_eq b mk h]
  split
  · exact s.queuesCopy_enqueueCopy ..
  · refine s.queuesCopy_of _ _ _ false false [] ?_ ?_ ?_ ?_
    · rw [State.curTile_modCur]; rfl
    · rw [State.curTile_modCur]; rfl
    · rw [State.curCtx_modCur]
    · rw [State.curCtx_modCur]

theorem execPublish_owes {s : State} (b : Fin 32) {mk : Fin 8} (h : s.copyFull none false = none) (hm : mk ≠ 0) :
    ∃ u, execPublish b mk s = .next u ∧ u.curCtx.mpubs = s.curCtx.mpubs ++ [⟨s.curTile.nextId, b, mk, none, s.cur.tt⟩] := by
  refine ⟨_, (execPublish_eq b mk h).trans (congrArg _ (if_neg hm)), ?_⟩
  rw [State.curCtx_modCur, State.enqueueCopy_curCtx, Context.issueCounts_none, ite_self]

/-- Settles O22: each instruction is one command for the copy queue; a STATIC copy's check decides between fault and translations. -/
theorem copyInstructionsQueue : Obligations.CopyInstructionsQueue := by
  unfold Obligations.CopyInstructionsQueue
  have full {s : State} {c : CopyOps} {wack : Bool} (hq : s.curTile.cpq.length < 8) (ht : c.t = true → s.curCtx.cnt[c.cn] ≠ 255)
      (hw : wack = true → s.curCtx.wack ≠ 0xFFFF) : s.copyFull (tagOf c.t c.cn) wack = none :=
    State.copyFull_none hq (fun k hk => by obtain ⟨h, rfl⟩ := tagOf_eq_some.1 hk; exact ht h) hw
  have op_static {s : State} {form : CopyForm} {c : CopyOps} {b : Bool} (h : c.st = b) :
      s.copyOp form c = .copy form c.buf (s.rs c.rs) (s.rs (c.rs + 1)) (s.ra c.ab) b := by subst h; rfl
  refine ⟨?copies, ?buffers, ?follow, ?static⟩
  case copies =>
    intro s c hst hf hq ht tag op
    have joins (form : CopyForm) (hw : (form == .cpyo) = true → s.curCtx.wack ≠ 0xFFFF) :
        s.queuesCopy (copyForm form c s) (op form) tag (form == .cpyo) := by
      have hop : s.copyOp form c = op form := op_static hst
      exact hop ▸ copyForm_queues (State.copyCause_none (full hq ht hw) hst) hf
    exact ⟨joins .cpy (fun h => absurd h Bool.false_ne_true), joins .cpyg (fun h => absurd h Bool.false_ne_true),
      joins .cpyx (fun h => absurd h Bool.false_ne_true), fun hw => joins .cpyo fun _ => hw⟩
  case buffers =>
    intro s b r mk ab cn t hq
    have room : s.copyFull none false = none :=
      State.copyFull_none hq (fun k hk => absurd hk (Option.some_ne_none k).symm) (fun h => absurd h Bool.false_ne_true)
    refine ⟨copySlot_queues (.bdcl b (s.rs r)) room, copySlot_queues (.brel b) room, execPublish_queues b mk room,
      execPublish_owes b room, fun hc => ?_⟩
    have counted : s.copyFull (tagOf t cn) false = none :=
      State.copyFull_none hq (fun k hk => by obtain ⟨_, rfl⟩ := tagOf_eq_some.1 hk; exact hc) (fun h => absurd h Bool.false_ne_true)
    exact copySlot_queues (.reqpg (s.ra ab) (s.rs r)) counted
  case follow =>
    intro s c form i dl rg h wp ta ctl hi hst hf hm hq ht
    have hform : (form == .cpyo) = false := by rcases hi with ⟨rfl, _⟩ | ⟨rfl, _⟩ | ⟨rfl, _⟩ <;> rfl
    have hfull := full (c := c) hq ht (wack := form == .cpyo) fun h => absurd (hform.symm.trans h) Bool.false_ne_true
    rw [exec_copy (hi.imp_right (Or.imp_right .inl)), ← op_static (s := s) hst]
    exact copyForm_follow (State.copyCause_none hfull hst) hf hm
  case static =>
    intro s c form i hi hst hf hq ht hg d0 d1 at_ check
    have hfull := full (c := c) hq ht (wack := form == .cpyo) fun h => by
      rcases hi with ⟨rfl, _⟩ | ⟨rfl, _⟩ | ⟨rfl, _⟩ | ⟨_, _, hw⟩
      · cases h
      · cases h
      · cases h
      · exact hw
    have hexec : exec i s = copyForm form c s :=
      exec_copy (hi.imp_right (Or.imp_right (Or.imp_right fun ⟨h, h', _⟩ => ⟨h, h'⟩)))
    refine ⟨fun rsn lvl x hc => ?refused, fun xl hc => ?passed, State.staticCheck_refuses, fun xl hc hw => ?promises⟩
    case refused => exact hexec.trans (copyForm_fault (State.copyCause_refused hfull hst hg hc))
    case passed =>
      have hnext := copyForm_joins (State.copyCause_passed hfull hst hg hc)
      rw [if_neg (Bool.eq_false_iff.1 hf)] at hnext
      refine ⟨_, _, hexec.trans hnext, State.withCopy_cpq, op_static hst, State.copyKept_passed hst hg hc, hf⟩
    case promises => exact State.staticCheck_promises hw hc

end Sys2Proof.Machine

/-! The bytes of a save area: its header's fields at their places (R383). -/

namespace Sys2Proof.Machine

/-! ### Runs of bytes inside a list -/

/-- `n` entries of a list from place `o` on. -/
def slice {α : Type} (l : List α) (o n : Nat) : List α := (l.drop o).take n

section
variable {α β : Type}

theorem slice_zero_length (l : List α) : slice l 0 l.length = l := by simp [slice]

theorem slice_all {l : List α} {n : Nat} (h : l.length = n) : slice l 0 n = l := h ▸ slice_zero_length l

theorem slice_one {l : List α} {i : Nat} (h : i < l.length) : slice l i 1 = [l[i]] := List.take_one_drop_eq_of_lt_length h

theorem slice_left {l : List α} (r : List α) {o n : Nat} (h : o + n ≤ l.length) : slice (l ++ r) o n = slice l o n := by
  rw [slice, List.drop_append_of_le_length (by omega), List.take_append_of_le_length (by rw [List.length_drop]; omega), slice]

theorem slice_right (l : List α) {r : List α} (o n : Nat) : slice (l ++ r) (l.length + o) n = slice r o n := by
  rw [slice, List.drop_append, List.drop_of_length_le (by omega), List.nil_append, Nat.add_sub_cancel_left, slice]

/-- A run that lies in one part of a concatenation. -/
theorem slice_flatten (L : List (List α)) (k : Nat) (hk : k < L.length) {o n : Nat} (h : o + n ≤ L[k].length) :
    slice L.flatten (((L.map List.length).take k).sum + o) n = slice L[k] o n := by
  induction L generalizing k with
  | nil => simp at hk
  | cons l L ih =>
    cases k with
    | zero => simpa using slice_left L.flatten (l := l) (by simpa using h)
    | succ k =>
      rw [List.flatten_cons, List.map_cons, List.take_succ_cons, List.sum_cons, Nat.add_assoc, slice_right]
      exact ih k (by simpa using hk) (by simpa using h)

/-- One part of a concatenation of parts of the same size. -/
theorem slice_flatMap (l : List α) (g : α → List β) (m i : Nat) (hi : i < l.length) (hg : ∀ a, (g a).length = m) :
    slice (l.flatMap g) (m * i) m = g l[i] := by
  have hlen : (l.map g).map List.length = List.replicate l.length m := by
    rw [List.map_map, List.eq_replicate_iff]
    simp [hg]
  have hsum : (((l.map g).map List.length).take i).sum = m * i := by
    rw [hlen, List.take_replicate, Nat.min_eq_left hi.le, List.sum_replicate, smul_eq_mul, Nat.mul_comm]
  have h := slice_flatten (l.map g) i (by simpa using hi) (o := 0) (n := m) (by simp [hg])
  rw [hsum, Nat.add_zero, ← List.flatMap_def, List.getElem_map] at h
  rw [h, slice_all (hg _)]

end

theorem Memory.readN_slice (m : Memory) (a n o k : Nat) (h : o + k ≤ n) : m.readN (a + o) k = slice (m.readN a n) o k := by
  refine List.ext_getElem ?_ fun i h1 h2 => ?_
  · simp only [slice, List.length_take, List.length_drop, Memory.readN_length]
    omega
  · simp only [slice, List.getElem_take, List.getElem_drop, Memory.readN_getElem, Nat.add_assoc]

theorem leNat_leBytes (n v : Nat) : leNat (leBytes n v) = v % 256 ^ n := by
  induction n generalizing v with
  | zero => simp [leBytes, leNat, Nat.mod_one]
  | succ n ih =>
    rw [leBytes, leNat, ih, BitVec.toNat_ofNat, (Nat.pow_succ' : 256 ^ (n + 1) = 256 * 256 ^ n), Nat.mod_mul]

theorem leNat_leBytes_of_lt {n v : Nat} (h : v < 256 ^ n) : leNat (leBytes n v) = v := by rw [leNat_leBytes, Nat.mod_eq_of_lt h]

@[simp] theorem length_padTo (n : Nat) (bs : List Byte) : (padTo n bs).length = n := by simp [padTo]

theorem slice_padTo {m : Nat} {bs : List Byte} {o n : Nat} (hm : o + n ≤ m) (h : o + n ≤ bs.length) : slice (padTo m bs) o n = slice bs o n := by
  rw [padTo, ← slice_left (List.replicate m 0) h]
  simp only [slice, List.drop_take, List.take_take]
  congr 1
  omega

/-! ### The fields of the header -/

/-- The words and addresses of the CSRs that the header holds. -/
def Context.csrBytes (x : Context) : List Byte :=
  let w (v : Word) : List Byte := leBytes 4 v.toNat
  w x.status ++ w x.round ++ w x.cause ++ w x.finfo ++ w x.rundecl ++ w x.ovrcnt ++ leBytes 8 x.fpc.toNat ++ leBytes 8 x.epc.toNat ++
    leBytes 8 x.trapv.toNat

/-- The fields of the header in order. -/
def SaveArea.fields (a : SaveArea) (free : Nat) : List (List Byte) :=
  let x := a.saved
  [leBytes 4 0x53455631, leBytes 4 (a.frozen.toNat + 2 * a.overrun.toNat), leBytes 32 a.mask.toNat, leBytes 8 x.tt, leBytes 8 x.pc.toNat,
    padTo 32 (x.loops.flatMap LoopLevel.bytes), padTo 32 ((x.pxfr.map Xfer.bytes).getD []), padTo 56 x.csrBytes, x.cnt.toList,
    x.faults.toList.flatMap fun p => padTo 32 ((p.map PendFault.bytes).getD []), padTo 32 (x.vcTraps.flatMap VcTrap.bytes),
    padTo 192 ((a.sections free).flatMap fun c => leBytes 4 c.length)]

theorem SaveArea.image_eq (a : SaveArea) (free : Nat) : a.image free = (a.fields free ++ a.sections free).flatten := by
  rw [List.flatten_append, SaveArea.image]
  congr 1
  simp only [SaveArea.header, SaveArea.fields, Context.csrBytes, List.flatten_cons, List.flatten_nil, List.append_assoc, List.append_nil]

/-- The sizes of the header's fields (R383). -/
def headerSizes : List Nat := [4, 4, 32, 8, 8, 32, 32, 56, 16, 96, 32, 192]

theorem SaveArea.length_fields (a : SaveArea) (free : Nat) : (a.fields free).map List.length = headerSizes := by
  simp [SaveArea.fields, headerSizes]

theorem SaveArea.fields_length (a : SaveArea) (free : Nat) : (a.fields free).length = 12 := rfl

/-- The place of a field is the sum of the sizes before it. -/
theorem SaveArea.slice_field (a : SaveArea) (free k : Nat) (hk : k < (a.fields free).length) {o n : Nat}
    (h : o + n ≤ (a.fields free)[k].length) :
    slice (a.image free) ((headerSizes.take k).sum + o) n = slice (a.fields free)[k] o n := by
  have hk' : k < (a.fields free ++ a.sections free).length := by rw [List.length_append]; omega
  have hg : (a.fields free ++ a.sections free)[k] = (a.fields free)[k] := List.getElem_append_left hk
  have hs : ((a.fields free ++ a.sections free).map List.length).take k = headerSizes.take k := by
    rw [List.map_append, a.length_fields, List.take_append_of_le_length (by rw [← a.length_fields free, List.length_map]; exact hk.le)]
  rw [a.image_eq, ← hs, slice_flatten _ k hk' (by rw [hg]; exact h), hg]

/-- The first section follows the header. -/
theorem SaveArea.slice_regs (a : SaveArea) (free : Nat) {o n : Nat} (h : o + n ≤ a.saved.regBytes.length) :
    slice (a.image free) (512 + o) n = slice a.saved.regBytes o n := by
  have hl : (a.fields free).flatten.length = 512 := by rw [List.length_flatten, a.length_fields]; rfl
  rw [a.image_eq, List.flatten_append, ← hl, slice_right]
  exact slice_left _ h

/-- A field that holds a number. -/
theorem SaveArea.leNat_field (a : SaveArea) (free k m v : Nat) (hk : k < (a.fields free).length)
    (hf : (a.fields free)[k] = leBytes m v) : leNat (slice (a.image free) (headerSizes.take k).sum m) = v % 256 ^ m := by
  have hl : (a.fields free)[k].length = m := by rw [hf, length_leBytes]
  have h := a.slice_field free k hk (o := 0) (n := m) (by omega)
  rw [Nat.add_zero, slice_all hl, hf] at h
  rw [h, leNat_leBytes]

theorem SaveArea.leNat_status (a : SaveArea) (free : Nat) : leNat (slice (a.image free) 120 4) = a.saved.status.toNat := by
  have hc : a.saved.csrBytes.length = 48 := by simp [Context.csrBytes]
  have hp : slice (padTo 56 a.saved.csrBytes) 0 4 = leBytes 4 a.saved.status.toNat := by
    rw [slice_padTo (by omega) (by omega)]
    simp only [Context.csrBytes, List.append_assoc]
    rw [slice_left _ (by simp), slice_all (length_leBytes ..)]
  have h : slice (a.image free) 120 4 = slice (padTo 56 a.saved.csrBytes) 0 4 :=
    a.slice_field free 7 (by rw [a.fields_length]; omega) (o := 0) (n := 4) (by simp [SaveArea.fields])
  rw [h, hp, leNat_leBytes_of_lt a.saved.status.isLt]

theorem SaveArea.leNat_cnt (a : SaveArea) (free : Nat) (i : Fin 16) :
    leNat (slice (a.image free) (176 + i.val) 1) = a.saved.cnt[i].toNat := by
  have h : slice (a.image free) (176 + i.val) 1 = slice a.saved.cnt.toList i.val 1 :=
    a.slice_field free 8 (by rw [a.fields_length]; omega) (o := i.val) (n := 1) (by simp [SaveArea.fields])
  rw [h, slice_one (by simp)]
  simp [leNat]

theorem SaveArea.leNat_s (a : SaveArea) (free : Nat) (i : Fin 32) :
    leNat (slice (a.image free) (512 + 4 * i.val) 4) = a.saved.s[i].toNat := by
  have hl : (a.saved.s.toList.flatMap fun w => leBytes 4 w.toNat).length = 128 := by simp [List.length_flatMap]
  have hs : slice a.saved.regBytes (4 * i.val) 4 = leBytes 4 a.saved.s[i].toNat := by
    simp only [Context.regBytes, List.append_assoc]
    rw [slice_left _ (by omega), slice_flatMap _ _ 4 i.val (by simp) (fun _ => length_leBytes ..)]
    simp
  rw [a.slice_regs free (by simp [Context.regBytes, List.length_flatMap]; omega), hs, leNat_leBytes_of_lt a.saved.s[i].isLt]

theorem SaveArea.leNat_a (a : SaveArea) (free : Nat) (i : Fin 8) :
    leNat (slice (a.image free) (640 + 8 * i.val) 8) = a.saved.a[i].toNat := by
  have hl : (a.saved.s.toList.flatMap fun w => leBytes 4 w.toNat).length = 128 := by simp [List.length_flatMap]
  have hl' : (a.saved.a.toList.flatMap fun w => leBytes 8 w.toNat).length = 64 := by simp [List.length_flatMap]
  have hs : slice a.saved.regBytes (128 + 8 * i.val) 8 = leBytes 8 a.saved.a[i].toNat := by
    simp only [Context.regBytes, List.append_assoc]
    rw [← hl, slice_right, slice_left _ (by omega), slice_flatMap _ _ 8 i.val (by simp) (fun _ => length_leBytes ..)]
    simp
  have hlt : a.saved.a[i].toNat < 256 ^ 8 := a.saved.a[i].isLt.trans (by decide)
  rw [show 640 + 8 * i.val = 512 + (128 + 8 * i.val) by omega, a.slice_regs free (by simp [Context.regBytes, List.length_flatMap]; omega), hs,
    leNat_leBytes_of_lt hlt]

end Sys2Proof.Machine

/-! Pre-emption: requests, drain, freeze, save and restore (O44). -/

namespace Sys2Proof.Machine

/-! ### Save areas -/

/-- An update of a context's area, as that context finds it. -/
theorem State.areaOf_modArea (s : State) (t : TileId) (c : Fin 4) (f : SaveArea → SaveArea)
    (hf : ∀ a, (f a).tile = a.tile ∧ (f a).ctx = a.ctx) : (s.modArea t c f).areaOf t c = (s.areaOf t c).map f := by
  have hp : ((fun a : SaveArea => a.tile == t && a.ctx == c) ∘ fun a => if a.tile = t ∧ a.ctx = c then f a else a) =
      fun a => a.tile == t && a.ctx == c := by
    funext a
    simp only [Function.comp]
    split
    · rw [(hf a).1, (hf a).2]
    · rfl
  rw [State.areaOf, State.modArea, List.find?_map, hp, State.areaOf]
  cases h : s.saves.find? fun a => a.tile == t && a.ctx == c with
  | none => rfl
  | some a =>
    have ha := List.find?_some h
    simp only [Bool.and_eq_true, beq_iff_eq] at ha
    simp [ha]

theorem State.ctx_modArea (s : State) (t u : TileId) (c d : Fin 4) (f : SaveArea → SaveArea) : (s.modArea t c f).ctx u d = s.ctx u d := rfl

/-! ### Requests and drains (R380, R381, R383) -/

theorem Context.request_eq {x : Context} (now : Nat) (overrun : Bool) (ha : x.st = .active) (hr : x.preReq = none) :
    x.request now overrun = { x with preReq := some (now, overrun) } := by
  rw [Context.request, if_pos ⟨ha, by rw [hr]; rfl⟩]

theorem Tile.yieldWidth_ctx (x : Tile) (c d : Fin 4) (n : Nat) : (x.yieldWidth c n).ctx d = x.ctx d := by
  unfold Tile.yieldWidth
  split
  · split <;> rfl
  · split <;> rfl
  · rfl

/-- The tile of a context that begins to drain. -/
def Tile.draining (x : Tile) (c : Fin 4) (now : Nat) : Tile :=
  ((x.closeLock c now).yieldWidth c now).modCtx c fun y => { y with st := .draining, held := false }

theorem Tile.draining_ctx (x : Tile) (c : Fin 4) (now : Nat) : (x.draining c now).ctx c = { x.ctx c with st := .draining, held := false } := by
  rw [Tile.draining, Tile.ctx_modCtx, Tile.yieldWidth_ctx, Tile.closeLock_ctx]

/-- The area that a drain finds or allocates. -/
def State.drainArea (s : State) (t : TileId) (c : Fin 4) : SaveArea :=
  (s.areaOf t c).getD (SaveArea.fresh t c (((s.ctx t c).preReq.map Prod.snd).getD false) (s.saveSpace t c))

theorem SaveArea.find_append {l : List SaveArea} {a : SaveArea} {p : SaveArea → Bool} (h : (l.find? p).isSome = false) (ha : p a = true) :
    (l ++ [a]).find? p = some a := by
  rw [List.find?_append, Option.not_isSome_iff_eq_none.1 (Bool.eq_false_iff.1 h), Option.none_or, List.find?_cons_of_pos ha]

/-- The space for an area does not depend on whether its context runs or drains. -/
theorem State.saveSpace_draining (s : State) (t : TileId) (c : Fin 4) :
    (s.modTile t fun x => x.draining c s.now).saveSpace t c = s.saveSpace t c := by
  have hc : (s.modTile t fun x => x.draining c s.now).ctx t c = { s.ctx t c with st := .draining, held := false } := by
    rw [State.ctx_modTile, Tile.draining_ctx]
    rfl
  have hh : (s.modTile t fun x => x.draining c s.now).heldSpans = s.heldSpans := rfl
  rw [State.saveSpace, hc, hh]
  rfl

theorem State.ctx_beginDrain (s : State) (t : TileId) (c : Fin 4) (fz : Bool) :
    (s.beginDrain t c fz).ctx t c = { s.ctx t c with st := .draining, held := false } := by
  have h : (s.modTile t fun x => x.draining c s.now).ctx t c = { s.ctx t c with st := .draining, held := false } := by
    rw [State.ctx_modTile, Tile.draining_ctx]
    rfl
  rw [← h, State.beginDrain, State.resolveLater, State.ctx_first, State.ctx_modArea]
  exact (apply_ite (fun u : State => u.ctx t c) ..).trans (ite_self _)

theorem State.tile_beginDrain (s : State) (t : TileId) (c : Fin 4) (fz : Bool) :
    (s.beginDrain t c fz).tile t = (s.tile t).draining c s.now := by
  have h : (s.modTile t fun x => x.draining c s.now).tile t = (s.tile t).draining c s.now := s.tile_modTile t _
  rw [← h, State.beginDrain, State.resolveLater, State.tile_first]
  exact (apply_ite (fun u : State => u.tile t) ..).trans (ite_self _)

theorem State.areaOf_beginDrain (s : State) (t : TileId) (c : Fin 4) (fz : Bool) :
    (s.beginDrain t c fz).areaOf t c = some { s.drainArea t c with frozen := (s.drainArea t c).frozen || fz } := by
  unfold State.beginDrain
  extract_lets why s₁ s₂
  have h₂ : s₂.areaOf t c = some (s.drainArea t c) := by
    show State.areaOf (if (s.areaOf t c).isSome then s₁ else { s₁ with saves := s₁.saves ++ [SaveArea.fresh t c why (s₁.saveSpace t c)] }) t c = _
    cases ha : s.areaOf t c with
    | some a =>
      rw [if_pos Option.isSome_some, State.drainArea, ha]
      exact ha
    | none =>
      rw [if_neg (by simp), State.drainArea, ha, Option.getD_none, ← s.saveSpace_draining t c]
      exact SaveArea.find_append (by rw [← Option.isSome_none]; exact congrArg _ ha) (by simp [SaveArea.fresh])
  show (s₂.modArea t c _).areaOf t c = _
  refine (State.areaOf_modArea s₂ t c _ ?_).trans ?_
  · exact fun _ => ⟨rfl, rfl⟩
  · rw [h₂]
    rfl

/-- The area lies on the stack that holds the heap of the context's launch. -/
theorem State.saveSpace_stack {s : State} {t : TileId} {c : Fin 4} {pa : Nat} (h : s.saveSpace t c = some pa) :
    pa / 2 ^ 36 = s.heapStack (s.ctx t c) := by
  unfold State.saveSpace at h
  extract_lets base at h
  split at h
  · cases h
  · rw [← Option.some.inj h]
    have : Config.savePlace s.free % ((48 * 2 ^ 30 - saveMax) / 4096 + 1) < (48 * 2 ^ 30 - saveMax) / 4096 + 1 := Nat.mod_lt _ (by omega)
    simp only [saveMax] at this
    show (_ * 2 ^ 36 + Config.savePlace s.free % ((48 * 2 ^ 30 - saveMax) / 4096 + 1) * 4096) / 2 ^ 36 = _
    simp only [saveMax]
    omega

section
variable {s : State} {t : TileId} {c : Fin 4}

theorem execPreemption_waits (ha : (s.ctx t c).st = .active) (hr : (s.ctx t c).preReq.isSome = true) (h : s.saveSpace t c = none) :
    execPreemption t c s = .next ((s.modCtx t c fun y => { y with safe := false }).bump) := by
  have h1 : ((s.ctx t c).preReq.isNone || (s.ctx t c).st != .active) = false := by
    rw [ha, ← Option.not_isSome, hr]; rfl
  rw [execPreemption, if_neg (Bool.eq_false_iff.1 h1), if_pos (by rw [h]; rfl)]

theorem execPreemption_drains {pa : Nat} (ha : (s.ctx t c).st = .active) (hr : (s.ctx t c).preReq.isSome = true)
    (h : s.saveSpace t c = some pa) : execPreemption t c s = .next (s.beginDrain t c false).bump := by
  have h1 : ((s.ctx t c).preReq.isNone || (s.ctx t c).st != .active) = false := by
    rw [ha, ← Option.not_isSome, hr]; rfl
  rw [execPreemption, if_neg (Bool.eq_false_iff.1 h1), if_neg (by rw [h]; exact Bool.false_ne_true)]

end

/-! ### The freeze (R382) -/

/-- Two tiles whose contexts are in the same state at the same point of their code. -/
def Tile.SameRuns (x y : Tile) : Prop := ∀ d, (y.ctx d).st = (x.ctx d).st ∧ (y.ctx d).pc = (x.ctx d).pc ∧ (y.ctx d).tt = (x.ctx d).tt

/-- Two tiles with the same commands in their engine queues: of the channel queue the credits may differ. -/
structure Tile.SameQueues (x y : Tile) : Prop where
  mxq : y.mxq = x.mxq
  cpq : y.cpq = x.cpq
  chq : y.chq.map (fun q => (q.id, q.ctx)) = x.chq.map fun q => (q.id, q.ctx)
  runs : x.SameRuns y

namespace Tile.SameQueues

variable {x y z : Tile}

theorem refl (x : Tile) : x.SameQueues x := ⟨rfl, rfl, rfl, fun _ => ⟨rfl, rfl, rfl⟩⟩

theorem trans (h : x.SameQueues y) (h' : y.SameQueues z) : x.SameQueues z where
  mxq := h'.mxq.trans h.mxq
  cpq := h'.cpq.trans h.cpq
  chq := h'.chq.trans h.chq
  runs d :=
    let ⟨a, b, c⟩ := h.runs d
    let ⟨a', b', c'⟩ := h'.runs d
    ⟨a'.trans a, b'.trans b, c'.trans c⟩

theorem ite {p : Prop} [Decidable p] (h : x.SameQueues y) (h' : x.SameQueues z) : x.SameQueues (if p then y else z) := by
  split
  · exact h
  · exact h'

theorem of_eq (hm : y.mxq = x.mxq) (hp : y.cpq = x.cpq) (hq : y.chq = x.chq) (hc : y.ctxs = x.ctxs) : x.SameQueues y := by
  refine ⟨hm, hp, by rw [hq], fun d => ?_⟩
  simp only [Tile.ctx, hc, and_self]

theorem modCtx (c : Fin 4) (f : Context → Context) (h : ∀ a : Context, (f a).st = a.st ∧ (f a).pc = a.pc ∧ (f a).tt = a.tt) :
    x.SameQueues (x.modCtx c f) := by
  refine ⟨rfl, rfl, rfl, fun d => ?_⟩
  by_cases hd : d = c
  · subst hd
    rw [Tile.ctx_modCtx]
    exact h _
  · rw [Tile.ctx_modCtx_ne x f hd]
    exact ⟨rfl, rfl, rfl⟩

theorem foldl {α : Type} (f : Tile → α → Tile) (h : ∀ (a : α) (y : Tile), y.SameQueues (f y a)) (l : List α) (x : Tile) : x.SameQueues (l.foldl f x) := by
  induction l generalizing x with
  | nil => exact refl x
  | cons a l ih => exact (h a x).trans (ih _)

theorem count (i : Fin 10) (n : Nat) : x.SameQueues (x.count i n) := ite (refl x) (of_eq rfl rfl rfl rfl)

theorem noteReads (m : Fin 4) (ws : List Nat) : x.SameQueues (x.noteReads m ws) := by
  unfold Tile.noteReads
  extract_lets ue ce y
  have hy : x.SameQueues y := (count ..).trans (count ..)
  exact ite (refl x) (hy.trans (of_eq rfl rfl rfl rfl))

theorem clearUpsets (m : Fin 4) (ws : List Nat) : x.SameQueues (x.clearUpsets m ws) := ite (refl x) (of_eq rfl rfl rfl rfl)

theorem setChan (ch : Fin 256) (f : Chan → Chan) : x.SameQueues (x.setChan ch f) := of_eq rfl rfl rfl rfl

theorem noteTable (c : Fin 4) (off n : Nat) : x.SameQueues (x.noteTable c off n) :=
  ite (refl x) (ite (noteReads ..) ((noteReads ..).trans (modCtx c _ fun _ => ⟨rfl, rfl, rfl⟩)))

theorem useWindow (c : Option (Fin 4)) (ch : Fin 256) : x.SameQueues (x.useWindow c ch) := by
  cases c with
  | none => exact ite (((noteReads ..).trans (setChan ..)).trans (clearUpsets ..)) (noteReads ..)
  | some c => exact ite (((noteTable ..).trans (setChan ..)).trans (clearUpsets ..)) (noteTable ..)

/-- A command of the channel queue gets or lacks a credit. -/
theorem credited (id now : Nat) (has : Bool) :
    x.SameQueues { x with chq := x.chq.map fun d => if d.id = id then { d with has := has, credAt := now } else d } := by
  refine ⟨rfl, rfl, ?_, fun _ => ⟨rfl, rfl, rfl⟩⟩
  rw [List.map_map]
  refine List.map_congr_left fun d _ => ?_
  simp only [Function.comp]
  split <;> rfl

theorem giveCredit (now : Nat) (ch : Fin 256) : x.SameQueues (x.giveCredit now ch) := by
  unfold Tile.giveCredit
  extract_lets y c
  have hy : x.SameQueues y := useWindow ..
  split
  · exact ite (hy.trans (setChan ..)) ((hy.trans (setChan ..)).trans (credited ..))
  · exact hy.trans (setChan ..)

theorem dropCredit (now : Nat) (q : ChCmd) : x.SameQueues (x.dropCredit now q) := by
  unfold Tile.dropCredit
  split
  · exact refl x
  · extract_lets y c
    have hy : x.SameQueues y := useWindow ..
    exact ite (ite hy ((hy.trans (setChan ..)).trans (giveCredit ..))) (ite hy (hy.trans (setChan ..)))

theorem takeCredit (now id : Nat) : x.SameQueues (x.takeCredit now id) := by
  unfold Tile.takeCredit
  split
  · exact refl x
  · split
    · exact refl x
    · extract_lets y r
      have hy : x.SameQueues y := useWindow ..
      exact (hy.trans (setChan ..)).trans (credited ..)

end Tile.SameQueues

end Sys2Proof.Machine

/-! The freeze of a context that has not drained (R382, O44). -/

namespace Sys2Proof.Machine

/-- A counter and an acknowledgement fall back for each command that is removed. -/
theorem Tile.SameQueues.fallBack (l : List LiveCmd) (c : Fin 4) (x : Tile) :
    x.SameQueues (l.foldl (fun t l => t.modCtx c fun x =>
      let x := match l.tag with
        | some k => x.fall k
        | none => x
      if l.wack then x.ackFall else x) x) := by
  refine Tile.SameQueues.foldl _ (fun l y => Tile.SameQueues.modCtx c _ fun a => ?_) l x
  cases l.tag <;> cases l.wack <;> exact ⟨rfl, rfl, rfl⟩

/-- What stays in the queues when the commands of a context that have not started leave them. -/
theorem Tile.removeQueued_stays (t : Tile) (c : Fin 4) (now : Nat) :
    (∀ k ∈ (t.removeQueued c now).1.cpq, k.ctx ≠ c) ∧
      (∀ k ∈ (t.removeQueued c now).1.chq, k.ctx = c → (t.queuedRun k.id).isSome = true) ∧
      (∀ k ∈ (t.removeQueued c now).1.mxq, k.ctx = c → t.mxRun.map MxRun.id = some k.id) ∧
      t.SameRuns (t.removeQueued c now).1 := by
  unfold Tile.removeQueued
  extract_lets running mx cp ch ids gone counted t₀ back t₁ t₂
  have hq : t₀.SameQueues t₂ := (Tile.SameQueues.foldl _ (fun q y => Tile.SameQueues.dropCredit now q) _ t₀).trans (Tile.SameQueues.fallBack _ c t₁)
  refine ⟨fun k hk hc => ?_, fun k hk hc => ?_, fun k hk hc => ?_, fun d => hq.runs d⟩
  · obtain ⟨hk, hids⟩ := List.mem_filter.1 hk
    rw [show t₂.cpq = t.cpq from hq.cpq] at hk
    have : k.id ∈ ids := by
      simp only [ids, List.mem_append, List.mem_map]
      exact .inl (.inr ⟨k, List.mem_filter.2 ⟨hk, beq_iff_eq.2 hc⟩, rfl⟩)
    simp [this] at hids
  · have hm : (k.id, k.ctx) ∈ t₀.chq.map fun q => (q.id, q.ctx) := hq.chq ▸ List.mem_map.2 ⟨k, hk, rfl⟩
    obtain ⟨q, hq', he⟩ := List.mem_map.1 hm
    obtain ⟨hid, hctx⟩ := Prod.mk.inj he
    obtain ⟨hq', hids⟩ := List.mem_filter.1 hq'
    by_contra hr
    have hf : q ∈ ch := List.mem_filter.2 ⟨hq', by
      rw [hid, hctx, hc, Option.not_isSome_iff_eq_none.1 hr]
      simp⟩
    have : q.id ∈ ids := by
      simp only [ids, List.mem_append, List.mem_map]
      exact .inr ⟨q, hf, rfl⟩
    simp [this] at hids
  · obtain ⟨hk, hids⟩ := List.mem_filter.1 hk
    rw [show t₂.mxq = t.mxq from hq.mxq] at hk
    by_contra hr
    have hf : k ∈ mx := List.mem_filter.2 ⟨hk, by
      rw [Bool.and_eq_true]
      exact ⟨beq_iff_eq.2 hc, bne_iff_ne.2 (Ne.symm hr)⟩⟩
    have : k.id ∈ ids := by
      simp only [ids, List.mem_append, List.mem_map]
      exact .inl (.inl ⟨k, hf, rfl⟩)
    simp [this] at hids

theorem Tile.yieldWidth_frame (x : Tile) (c : Fin 4) (n : Nat) : { x.yieldWidth c n with arb := x.arb } = x := by
  unfold Tile.yieldWidth
  split
  · split <;> rfl
  · split <;> rfl
  · rfl

/-- A drain that begins touches the bank lock, the issue width and the context only. -/
theorem Tile.draining_frame (x : Tile) (c : Fin 4) (now : Nat) :
    { x.draining c now with lock := x.lock, arb := x.arb, ctxs := x.ctxs } = x := by
  have hy := (x.closeLock c now).yieldWidth_frame c now
  have hc : (x.closeLock c now).ctxs = x.ctxs := (congrArg Tile.ctxs (x.closeLock_frame c now) :)
  have ha : (x.closeLock c now).arb = x.arb := (congrArg Tile.arb (x.closeLock_frame c now) :)
  rw [ha] at hy
  exact (congrArg (fun z : Tile => { z with lock := x.lock, ctxs := x.ctxs }) hy).trans
    ((congrArg (fun z : Tile => { z with ctxs := x.ctxs }) (x.closeLock_frame c now)))

theorem Tile.draining_queuedRun (x : Tile) (c : Fin 4) (now id : Nat) : (x.draining c now).queuedRun id = x.queuedRun id := by
  rw [Tile.queuedRun, (congrArg Tile.seqs (x.draining_frame c now) :), Tile.queuedRun]

theorem Tile.draining_mxRun (x : Tile) (c : Fin 4) (now : Nat) : (x.draining c now).mxRun = x.mxRun :=
  (congrArg Tile.mxRun (x.draining_frame c now) :)

/-- The commands removed from the queues, in the order that `Tile.removeQueued` answers them, join the area. -/
def SaveArea.addRemoved (a : SaveArea) (r : List MxCmd × List CopyCmd × List ChCmd × List LiveCmd) : SaveArea :=
  { a with mxq := a.mxq ++ r.1, cpq := a.cpq ++ r.2.1, chq := a.chq ++ r.2.2.1, removed := a.removed ++ r.2.2.2 }

/-- A freeze drains the context, marks its area frozen and leaves in the queues only what has started. -/
theorem preemptionFreeze_freezes (s : State) (t : TileId) (c : Fin 4) (h : (s.ctx t c).st = .active ∨ (s.ctx t c).st = .draining) :
    ∃ u b, exec (.preemptionFreeze t c) s = .next u ∧ (u.ctx t c).st = .draining ∧ u.areaOf t c = some b ∧ b.frozen = true ∧
      (∀ k ∈ (u.tile t).cpq, k.ctx ≠ c) ∧ (∀ k ∈ (u.tile t).chq, k.ctx = c → ((s.tile t).queuedRun k.id).isSome = true) ∧
      ∀ k ∈ (u.tile t).mxq, k.ctx = c → (s.tile t).mxRun.map MxRun.id = some k.id := by
  have hst : ((s.ctx t c).st != .active && (s.ctx t c).st != .draining) = false := by
    rcases h with h | h <;> rw [h] <;> rfl
  let v := (s.beginDrain t c true).bump
  have hv : v.tile t = (s.tile t).draining c s.now := s.tile_beginDrain t c true
  let r := (v.tile t).removeQueued c v.now
  let u := v.setTile t r.1
  have hstays := (v.tile t).removeQueued_stays c v.now
  have hu : u.tile t = r.1 := v.tile_setTile t r.1
  have hx : exec (.preemptionFreeze t c) s = .next (u.modArea t c fun a => a.addRemoved r.2) := by
    show execPreemptionFreeze t c s = _
    rw [execPreemptionFreeze, if_neg (Bool.eq_false_iff.1 hst)]
    rfl
  have ha : (u.modArea t c fun a => a.addRemoved r.2).areaOf t c = (u.areaOf t c).map fun a => a.addRemoved r.2 :=
    State.areaOf_modArea u t c _ fun _ => ⟨rfl, rfl⟩
  have hb : u.areaOf t c = _ := s.areaOf_beginDrain t c true
  rw [hb] at ha
  obtain ⟨hcp, hch, hmx, hruns⟩ := hstays
  rw [← hu] at hcp hch hmx hruns
  rw [hv] at hch hmx hruns
  refine ⟨_, _, hx, ?_, ha, Bool.or_true _, hcp, fun k hk hc => ?_, fun k hk hc => ?_⟩
  · rw [State.ctx_modArea, State.ctx, (hruns c).1, Tile.draining_ctx]
  · rw [← Tile.draining_queuedRun]
    exact hch k hk hc
  · rw [← Tile.draining_mxRun]
    exact hmx k hk hc

end Sys2Proof.Machine

/-! The save of a context that has drained (R44, R46, R383, O44). -/

namespace Sys2Proof.Machine

/-! ### The items that the area takes -/

section
variable (x : Tile) (c : Fin 4) (now : Nat) (a : SaveArea)

theorem Tile.saveInto_key : (x.saveInto c now a).tile = a.tile ∧ (x.saveInto c now a).ctx = a.ctx := ⟨rfl, rfl⟩
theorem Tile.saveInto_place : (x.saveInto c now a).place = a.place := rfl
theorem Tile.saveInto_mask : (x.saveInto c now a).mask = if a.frozen then fullMask else (x.ctx c).live := rfl
theorem Tile.saveInto_saved : (x.saveInto c now a).saved = (x.ctx c).masked (x.saveInto c now a).mask := rfl

theorem mem_marked {m : BitVec 256} {lo n : Nat} [NeZero n] {i : Fin n} : i ∈ marked m lo n ↔ m.getLsbD (lo + i.val) = true := by
  simp [marked]

theorem Tile.mem_saveInto_accs {i : Fin 64} (h : (x.saveInto c now a).mask.getLsbD (88 + i.val) = true) :
    (i, x.acm[i]) ∈ (x.saveInto c now a).accs := List.mem_map.2 ⟨i, mem_marked.2 h, rfl⟩

end

theorem Context.masked_s (x : Context) (m : BitVec 256) (i : Fin 32) : (x.masked m).s[i] = if m.getLsbD i.val then x.s[i] else 0 := by
  simp [Context.masked]

theorem Context.masked_a (x : Context) (m : BitVec 256) (i : Fin 8) : (x.masked m).a[i] = if m.getLsbD (32 + i.val) then x.a[i] else 0 := by
  simp [Context.masked]

theorem Context.masked_v (x : Context) (m : BitVec 256) (i : Fin 16) :
    (x.masked m).v[i] = if m.getLsbD (40 + i.val) then x.v[i] else Vector.replicate 32 0 := by
  simp [Context.masked]

section
variable (x : Context) (m : BitVec 256)

theorem Context.masked_pc : (x.masked m).pc = x.pc := by rw [Context.masked]
theorem Context.masked_tt : (x.masked m).tt = x.tt := by rw [Context.masked]
theorem Context.masked_cnt : (x.masked m).cnt = x.cnt := by rw [Context.masked]
theorem Context.masked_status : (x.masked m).status = x.status := by rw [Context.masked]
theorem Context.masked_stack : (x.masked m).stack = if m.getLsbD 194 then x.stack else [] := rfl

end

/-! ### The bytes in the heap -/

theorem State.writeArea_none {s : State} {t : TileId} {c : Fin 4} (h : (s.areaOf t c).bind SaveArea.place = none) : s.writeArea t c = s := by
  unfold State.writeArea
  split
  · rfl
  · rename_i a ha
    rw [ha, Option.bind_some] at h
    rw [h]

theorem State.writeArea_some {s : State} {t : TileId} {c : Fin 4} {b : SaveArea} {pa : Nat} (h : s.areaOf t c = some b)
    (hp : b.place = some pa) :
    s.writeArea t c = { s.writeHeap (numbered pa (b.image s.free)) with free := s.free + 5 * b.removed.length } := by
  rw [State.writeArea, h]
  dsimp only
  rw [hp]

theorem State.areaOf_writeHeap (s : State) (t : TileId) (c : Fin 4) (l : List (Nat × Byte)) (n : Nat) :
    State.areaOf { s.writeHeap l with free := n } t c = s.areaOf t c := rfl

theorem State.heap_writeHeap (s : State) (l : List (Nat × Byte)) (n : Nat) :
    State.heap { s.writeHeap l with free := n } = s.heap.writeAll l := rfl

theorem State.areaOf_writeArea (s : State) (t : TileId) (c : Fin 4) : (s.writeArea t c).areaOf t c = s.areaOf t c := by
  cases h : (s.areaOf t c).bind SaveArea.place with
  | none => rw [State.writeArea_none h]
  | some pa =>
    obtain ⟨b, hb, hp⟩ := Option.bind_eq_some_iff.1 h
    rw [State.writeArea_some hb hp, State.areaOf_writeHeap]

theorem State.heap_writeArea {s : State} {t : TileId} {c : Fin 4} {b : SaveArea} {pa : Nat} (h : s.areaOf t c = some b)
    (hp : b.place = some pa) : (s.writeArea t c).heap = s.heap.writeN pa (b.image s.free) :=
  (congrArg State.heap (State.writeArea_some h hp)).trans (State.heap_writeHeap ..)

/-- The state of a context that has been saved. -/
theorem execContextSave_saves {s : State} {t : TileId} {c : Fin 4} {a : SaveArea} (h : (s.ctx t c).st = .draining)
    (ha : s.areaOf t c = some a) :
    ∃ u, exec (.contextSave t c) s = .next u ∧ (u.ctx t c).st = .out ∧ (u.ctx t c).preReq = none ∧
      u.areaOf t c = some ((s.tile t).saveInto c s.now a) ∧
      ∀ pa, a.place = some pa → u.heap = s.heap.writeN pa (((s.tile t).saveInto c s.now a).image s.free) := by
  let v := s.modArea t c fun b => (s.tile t).saveInto c s.now b
  have hv : v.areaOf t c = some ((s.tile t).saveInto c s.now a) := by
    rw [State.areaOf_modArea s t c _ fun b => Tile.saveInto_key .., ha]
    rfl
  have hw : (v.writeArea t c).areaOf t c = some ((s.tile t).saveInto c s.now a) := (v.areaOf_writeArea t c).trans hv
  show ∃ u, execContextSave t c s = .next u ∧ _
  rw [execContextSave, if_neg (by rw [h]; decide)]
  extract_lets x v' w kept owed
  have hc : w.areaOf t c = some ((s.tile t).saveInto c s.now a) := by
    show State.areaOf (match (v.writeArea t c).areaOf t c with | some _ => _ | none => _) t c = _
    split
    · exact hw
    · exact hw
  refine ⟨_, rfl, ?_, ?_, hc, fun pa hp => ?_⟩
  · rw [State.ctx_modCtx]
  · rw [State.ctx_modCtx]
  · refine Eq.trans ?_ (State.heap_writeArea (s := v) hv hp)
    show State.heap (match (v.writeArea t c).areaOf t c with | some _ => _ | none => _) = _
    split <;> rfl

/-- The header and the s and a registers take 704 bytes. -/
theorem SaveArea.length_image_ge (a : SaveArea) (free : Nat) : 704 ≤ (a.image free).length := by
  have hh : (a.fields free).flatten.length = 512 := by rw [List.length_flatten, a.length_fields]; rfl
  have hr : 192 ≤ a.saved.regBytes.length := by
    simp [Context.regBytes, List.length_flatMap]
  rw [a.image_eq, List.flatten_append, List.length_append, hh]
  have : a.sections free = a.saved.regBytes :: (a.sections free).tail := rfl
  rw [this, List.flatten_cons, List.length_append]
  omega

/-- The bytes of an area in the heap, and the fields of its header and first section in them. -/
theorem SaveArea.fields_in_heap {m : Memory} {a : SaveArea} {free pa : Nat} (h : m.readN pa (a.image free).length = a.image free) :
    let field (o n : Nat) : Nat := leNat (m.readN (pa + o) n)
    field 0 4 = 0x53455631 ∧ field 4 4 = a.frozen.toNat + 2 * a.overrun.toNat ∧ field 8 32 = a.mask.toNat ∧
      field 40 8 = a.saved.tt % 2 ^ 64 ∧ field 48 8 = a.saved.pc.toNat ∧ field 120 4 = a.saved.status.toNat ∧
      (∀ i : Fin 16, field (176 + i.val) 1 = a.saved.cnt[i].toNat) ∧ (∀ i : Fin 32, field (512 + 4 * i.val) 4 = a.saved.s[i].toNat) ∧
      ∀ i : Fin 8, field (640 + 8 * i.val) 8 = a.saved.a[i].toNat := by
  intro field
  have hlen : 704 ≤ (a.image free).length := a.length_image_ge free
  have hf : ∀ o n, o + n ≤ 704 → field o n = leNat (slice (a.image free) o n) := fun o n ho => by
    have hs := m.readN_slice pa (a.image free).length o n (by omega)
    rw [h] at hs
    exact congrArg leNat hs
  have hn : ∀ k, (hk : k < (a.fields free).length) → ∀ o, (headerSizes.take k).sum = o → o ≤ 48 → ∀ n v, n ≤ 32 →
      (a.fields free)[k] = leBytes n v → field o n = v % 256 ^ n := fun k hk o ho hb n v hn he => by
    subst ho
    rw [hf _ _ (by omega), a.leNat_field free k n v hk he]
  refine ⟨?_, ?_, ?_, ?_, ?_, ?_, fun i => ?_, fun i => ?_, fun i => ?_⟩
  · exact hn 0 (by rw [a.fields_length]; omega) 0 rfl (by omega) 4 _ (by omega) rfl
  · rw [hn 1 (by rw [a.fields_length]; omega) 4 rfl (by omega) 4 _ (by omega) rfl, Nat.mod_eq_of_lt]
    have := a.frozen.toNat_lt
    have := a.overrun.toNat_lt
    omega
  · rw [hn 2 (by rw [a.fields_length]; omega) 8 rfl (by omega) 32 _ (by omega) rfl]
    exact Nat.mod_eq_of_lt (a.mask.isLt.trans_le (by norm_num))
  · rw [hn 3 (by rw [a.fields_length]; omega) 40 rfl (by omega) 8 _ (by omega) rfl]
    norm_num
  · rw [hn 4 (by rw [a.fields_length]; omega) 48 rfl (by omega) 8 _ (by omega) rfl]
    exact Nat.mod_eq_of_lt (a.saved.pc.isLt.trans_le (by norm_num))
  · rw [hf 120 4 (by omega), a.leNat_status]
  · rw [hf _ _ (by omega), a.leNat_cnt]
  · rw [hf _ _ (by omega), a.leNat_s]
  · rw [hf _ _ (by omega), a.leNat_a]

end Sys2Proof.Machine

/-! The restore of a saved context (R384, O44). -/

namespace Sys2Proof.Machine

/-! ### The context comes back -/

section
variable {s : State} {t : TileId} {c : Fin 4} {a : SaveArea}

theorem execContextRestore_begins (h : (s.ctx t c).st = .out) (ha : s.areaOf t c = some a) (hr : a.restore = .saved) :
    execContextRestore t c s = .next (s.modArea t c fun a => { a with restore := .writing a.spmBytes }) := by
  rw [execContextRestore, ha]
  dsimp only
  rw [if_neg (by rw [h]; decide), hr]

theorem execContextRestore_ends (h : (s.ctx t c).st = .out) (ha : s.areaOf t c = some a) (hr : a.restore = .written)
    (hroom : (s.tile t).roomFor a = true) (hm : (s.tile t).mig = none) :
    execContextRestore t c s = .next
      { s.modTile t (fun x => (x.replaceQueued a c s.now).modCtx c fun y => y.restored a.saved) with
        saves := s.saves.filter fun b => !(b.tile == t && b.ctx == c) } := by
  rw [execContextRestore, ha]
  dsimp only
  rw [if_neg (by rw [h]; decide), hr]
  dsimp only
  rw [if_neg (by rw [hroom, hm]; decide)]
  rfl

end

theorem Tile.SameQueues.issueCounts (l : List LiveCmd) (c : Fin 4) (x : Tile) :
    x.SameQueues (l.foldl (fun t l => t.modCtx c fun x => x.issueCounts l.tag l.wack) x) :=
  Tile.SameQueues.foldl _ (fun l y => Tile.SameQueues.modCtx c _ fun a => by
    cases ht : l.tag <;> cases hw : l.wack <;> exact ⟨rfl, rfl, rfl⟩) l x

/-- Commands placed back leave each context at its point of the code. -/
theorem Tile.SameRuns.replaceQueued (x : Tile) (a : SaveArea) (c : Fin 4) (now : Nat) : x.SameRuns (x.replaceQueued a c now) := by
  unfold Tile.replaceQueued
  extract_lets copies held x₀ resolved x₁
  have h : x₀.SameQueues x₁ := Tile.SameQueues.issueCounts _ c x₀
  exact (h.trans (Tile.SameQueues.foldl _ (fun (q : ChCmd) y => Tile.SameQueues.takeCredit now q.id) _ x₁)).runs

theorem State.ctx_withSaves (s : State) (l : List SaveArea) (t : TileId) (c : Fin 4) : State.ctx { s with saves := l } t c = s.ctx t c := rfl

theorem State.areaOf_removed (s : State) (t : TileId) (c : Fin 4) :
    State.areaOf { s with saves := s.saves.filter fun b => !(b.tile == t && b.ctx == c) } t c = none :=
  List.find?_eq_none.2 fun b hb => by
    simpa only [Bool.not_eq_true', Bool.not_eq_true] using (List.mem_filter.1 hb).2

/-! ### The tile items are written -/

/-- Saved values over a vector. -/
def overwrite {α : Type} {n : Nat} (v : Vector α n) (l : List (Fin n × α)) : Vector α n := l.foldl (fun v e => vset v e.1 e.2) v

theorem Tile.foldl_acm (l : List (Fin 64 × AccRow)) (x : Tile) :
    l.foldl (fun t e => { t with acm := vset t.acm e.1 e.2 }) x = { x with acm := overwrite x.acm l } := by
  induction l generalizing x with
  | nil => rfl
  | cons e l ih => exact ih _

theorem Tile.foldl_wp (l : List (Fin 2 × Plane)) (x : Tile) :
    l.foldl (fun t e => { t with wp := vset t.wp e.1 e.2 }) x = { x with wp := overwrite x.wp l } := by
  induction l generalizing x with
  | nil => rfl
  | cons e l ih => exact ih _

/-- Saved rings over the tile's, which keep what they have claimed and ended (log 40). -/
def overwriteRings (v : Vector Ring 8) (l : List (Fin 8 × Ring × List Byte)) : Vector Ring 8 :=
  l.foldl (fun v e => vset v e.1 { e.2.1 with claimed := v[e.1].claimed, ended := v[e.1].ended }) v

theorem Tile.foldl_setRing (l : List (Fin 8 × Ring × List Byte)) (x : Tile) :
    l.foldl (fun t e => t.setRing e.1 fun r => { e.2.1 with claimed := r.claimed, ended := r.ended }) x =
      { x with rings := overwriteRings x.rings l } := by
  induction l generalizing x with
  | nil => rfl
  | cons e l ih => exact ih _

theorem Tile.foldl_setBuf (l : List (Fin 32 × Buffer × List Byte)) (x : Tile) :
    l.foldl (fun t e => t.setBuf e.1 fun _ => e.2.1) x = { x with bufs := overwrite x.bufs (l.map fun e => (e.1, e.2.1)) } := by
  induction l generalizing x with
  | nil => rfl
  | cons e l ih => exact ih _

/-- The items of a tile after a restore. -/
theorem Tile.restoreItems_eq (x : Tile) (a : SaveArea) (now : Nat) :
    x.restoreItems a now =
      { x with
        q := (x.restoreScales now a.qs a.qpend).q
        qpend := (x.restoreScales now a.qs a.qpend).qpend
        acm := overwrite x.acm a.accs
        wp := overwrite x.wp a.planes
        rings := overwriteRings x.rings a.rings
        bufs := overwrite x.bufs (a.bufs.map fun e => (e.1, e.2.1))
        prec := a.prec.getD x.prec
        decay := a.decay.getD x.decay
        rowp := (a.rowcol.map Prod.fst).getD x.rowp
        colp := (a.rowcol.map Prod.snd).getD x.colp } := by
  unfold Tile.restoreItems
  extract_lets x₀ x₁ x₂ x₃ x₄
  have h₁ : x₁ = { x₀ with acm := overwrite x₀.acm a.accs } := Tile.foldl_acm ..
  have h₂ : x₂ = { x₁ with wp := overwrite x₁.wp a.planes } := Tile.foldl_wp ..
  have h₃ : x₃ = { x₂ with rings := overwriteRings x₂.rings a.rings } := Tile.foldl_setRing ..
  have h₄ : x₄ = { x₃ with bufs := overwrite x₃.bufs (a.bufs.map fun e => (e.1, e.2.1)) } := Tile.foldl_setBuf ..
  rw [h₄, h₃, h₂, h₁]
  rfl

section
variable (x : Tile) (a : SaveArea) (now : Nat)

theorem Tile.restoreItems_spm : (x.restoreItems a now).spm = x.spm := (congrArg Tile.spm (x.restoreItems_eq a now) :)
theorem Tile.restoreItems_portBusy : (x.restoreItems a now).portBusy = x.portBusy := (congrArg Tile.portBusy (x.restoreItems_eq a now) :)
theorem Tile.restoreItems_acm : (x.restoreItems a now).acm = overwrite x.acm a.accs := (congrArg Tile.acm (x.restoreItems_eq a now) :)
theorem Tile.restoreItems_wp : (x.restoreItems a now).wp = overwrite x.wp a.planes := (congrArg Tile.wp (x.restoreItems_eq a now) :)
theorem Tile.restoreItems_rings : (x.restoreItems a now).rings = overwriteRings x.rings a.rings :=
  (congrArg Tile.rings (x.restoreItems_eq a now) :)
theorem Tile.restoreItems_bufs : (x.restoreItems a now).bufs = overwrite x.bufs (a.bufs.map fun e => (e.1, e.2.1)) :=
  (congrArg Tile.bufs (x.restoreItems_eq a now) :)
theorem Tile.restoreItems_prec : (x.restoreItems a now).prec = a.prec.getD x.prec := (congrArg Tile.prec (x.restoreItems_eq a now) :)
theorem Tile.restoreItems_decay : (x.restoreItems a now).decay = a.decay.getD x.decay := (congrArg Tile.decay (x.restoreItems_eq a now) :)

end

theorem overwrite_single {α : Type} {n : Nat} (v : Vector α n) (i : Fin n) (x : α) : (overwrite v [(i, x)])[i] = x := vset_self v i x

/-- A tile after a bank row written through its engine port. -/
def Tile.portRow (x : Tile) (row : List Host.Cell) : Tile := { x.writeSpm row with portBusy := true }

theorem Tile.portRow_spm (x : Tile) {row : List Host.Cell} (h : ∀ e ∈ row, e.1 < 65536) : (x.portRow row).spm = x.spm.writeAll row := by
  have hid : row.map (fun e => (spmAddr e.1, e.2)) = row :=
    (List.map_congr_left fun e he => by
      rw [spmAddr, Nat.mod_eq_of_lt (h e he)]
      rfl).trans (List.map_id row)
  exact (Tile.writeSpm_spm x row).trans (by rw [hid])

theorem Tile.portRow_rings (x : Tile) (row : List Host.Cell) : (x.portRow row).rings = x.rings := (congrArg Tile.rings (x.writeSpm_frame row) :)

theorem State.tile_modArea (s : State) (t u : TileId) (c : Fin 4) (f : SaveArea → SaveArea) : (s.modArea t c f).tile u = s.tile u := rfl

/-- The last row of a restore is written where the engine port is free: its bytes, the tile items, and the area's mark. -/
theorem State.restorePort_last {s : State} {t : TileId} {b : SaveArea} {row : List Host.Cell} (hs : s.saves = [b]) (hb : b.tile = t)
    (hr : b.restore = .writing row) (hrow : ∀ e ∈ row, e.1 / 128 = (row.headD (0, 0)).1 / 128) (hp : (s.tile t).portBusy = false)
    (hf : (s.tile t).frozen = false) (hl : (s.tile t).locked s.now (row.map Prod.fst) = false) :
    (s.restorePort t).saves = [{ b with restore := .written }] ∧
      (s.restorePort t).tile t = ((s.tile t).portRow row).restoreItems b s.now := by
  have hres : s.restoring t = some (b, row) := by
    rw [State.restoring, hs, List.findSome?_cons, hr]
    simp only [beq_iff_eq, hb, if_true]
  have hall : row.takeWhile (fun w => w.1 / 128 == (row.headD (0, 0)).1 / 128) = row :=
    List.takeWhile_eq_self_iff.2 fun e he => beq_iff_eq.2 (hrow e he)
  rw [State.restorePort, hres]
  dsimp only
  rw [hall, List.drop_length, hp, hf, hl, if_neg (by decide), if_neg (by decide)]
  refine ⟨?_, ?_⟩
  · show s.saves.map _ = _
    rw [hs, List.map_cons, List.map_nil, if_pos ⟨hb, rfl⟩]
  · rw [State.tile_modArea, State.tile_modTile, State.tile_modTile]
    rfl

/-- What the tile holds once the last row has been written. -/
theorem restorePort_restores {s : State} {t : TileId} {b : SaveArea} {row : List Host.Cell} (hs : s.saves = [b]) (hb : b.tile = t)
    (hr : b.restore = .writing row) (hrow : ∀ e ∈ row, e.1 / 128 = (row.headD (0, 0)).1 / 128 ∧ e.1 < 65536)
    (hp : (s.tile t).portBusy = false) (hf : (s.tile t).frozen = false) (hl : (s.tile t).locked s.now (row.map Prod.fst) = false) :
    let y := (s.restorePort t).tile t
    (s.restorePort t).saves = [{ b with restore := .written }] ∧ y.portBusy = true ∧
      ((s.tile t).spm.wf = true → (∀ l e r, row = l ++ e :: r → (∀ k ∈ r, k.1 ≠ e.1) → y.spm.read e.1 = e.2) ∧
        ∀ k, (∀ e ∈ row, e.1 ≠ k) → y.spm.read k = (s.tile t).spm.read k) ∧
      (∀ i r, b.accs = [(i, r)] → y.acm[i] = r) ∧ (∀ i r, b.planes = [(i, r)] → y.wp[i] = r) ∧
      (∀ i r bs, b.rings = [(i, r, bs)] →
        y.rings[i] = { r with claimed := (s.tile t).rings[i].claimed, ended := (s.tile t).rings[i].ended }) ∧
      (∀ i r bs, b.bufs = [(i, r, bs)] → y.bufs[i] = r) ∧ (∀ v, b.prec = some v → y.prec = v) ∧ ∀ v, b.decay = some v → y.decay = v := by
  intro y
  obtain ⟨hsaves, htile⟩ := State.restorePort_last hs hb hr (fun e he => (hrow e he).1) hp hf hl
  have hy : y = ((s.tile t).portRow row).restoreItems b s.now := htile
  have hspm : y.spm = (s.tile t).spm.writeAll row := by
    rw [hy, Tile.restoreItems_spm, Tile.portRow_spm _ fun e he => (hrow e he).2]
  refine ⟨hsaves, ?_, fun hwf => ⟨fun l e r he hk => ?_, fun k hk => ?_⟩, fun i r hi => ?_, fun i r hi => ?_, fun i r bs hi => ?_,
    fun i r bs hi => ?_, fun v hv => ?_, fun v hv => ?_⟩
  · rw [hy, Tile.restoreItems_portBusy]
    rfl
  · rw [hspm, he]
    exact Memory.read_writeAll_last l r e.1 e.2 hwf hk
  · rw [hspm, Memory.read_writeAll_ne row k hwf hk]
  · rw [hy, Tile.restoreItems_acm, hi, overwrite_single]
  · rw [hy, Tile.restoreItems_wp, hi, overwrite_single]
  · rw [hy, Tile.restoreItems_rings, hi, Tile.portRow_rings]
    exact vset_self _ i _
  · rw [hy, Tile.restoreItems_bufs, hi]
    exact overwrite_single _ i r
  · rw [hy, Tile.restoreItems_prec, hv, Option.getD_some]
  · rw [hy, Tile.restoreItems_decay, hv, Option.getD_some]

/-! ### The obligation -/

/-- A drained context is out, and its area holds what R383 asks for, in its items and in the heap. -/
theorem contextSave_saves {s : State} {t : TileId} {c : Fin 4} {a : SaveArea} (h : (s.ctx t c).st = .draining) (ha : s.areaOf t c = some a) :
    let x := s.ctx t c
    ∃ u b, exec (.contextSave t c) s = .next u ∧ (u.ctx t c).st = .out ∧
      (u.ctx t c).preReq = none ∧ u.areaOf t c = some b ∧ b.mask = (if a.frozen then fullMask else x.live) ∧ b.saved.pc = x.pc ∧
      (∀ i : Fin 32, b.saved.s[i] = if b.mask.getLsbD i.val then x.s[i] else 0) ∧
      (∀ i : Fin 8, b.saved.a[i] = if b.mask.getLsbD (32 + i.val) then x.a[i] else 0) ∧
      b.saved.stack = (if b.mask.getLsbD 194 then x.stack else []) ∧ b.saved.tt = x.tt ∧ b.saved.cnt = x.cnt ∧
      (∀ i : Fin 16, b.mask.getLsbD (40 + i.val) = true → b.saved.v[i] = x.v[i]) ∧
      (∀ i : Fin 64, b.mask.getLsbD (88 + i.val) = true → (i, (s.tile t).acm[i]) ∈ b.accs) ∧
      ∀ pa, a.place = some pa → s.memOk = true →
        let bytes := b.image s.free
        let field (o n : Nat) : Nat := leNat (u.heap.readN (pa + o) n)
        b.place = some pa ∧ u.heap.readN pa bytes.length = bytes ∧
        (∀ k, (k < pa ∨ pa + bytes.length ≤ k) → u.heap.read k = s.heap.read k) ∧
        field 0 4 = 0x53455631 ∧ field 4 4 = b.frozen.toNat + 2 * b.overrun.toNat ∧ field 8 32 = b.mask.toNat ∧
        field 40 8 = x.tt % 2 ^ 64 ∧ field 48 8 = x.pc.toNat ∧ field 120 4 = x.status.toNat ∧
        (∀ i : Fin 16, field (176 + i.val) 1 = x.cnt[i].toNat) ∧
        (∀ i : Fin 32, field (512 + 4 * i.val) 4 = b.saved.s[i].toNat) ∧
        ∀ i : Fin 8, field (640 + 8 * i.val) 8 = b.saved.a[i].toNat := by
  intro x
  obtain ⟨u, hu, hst, hreq, harea, hheap⟩ := execContextSave_saves h ha
  have hplace := (s.tile t).saveInto_place c s.now a
  have hmask := (s.tile t).saveInto_mask c s.now a
  have hsaved : ((s.tile t).saveInto c s.now a).saved = x.masked ((s.tile t).saveInto c s.now a).mask := (s.tile t).saveInto_saved c s.now a
  have haccs := fun i => (s.tile t).mem_saveInto_accs c s.now a (i := i)
  generalize (s.tile t).saveInto c s.now a = b at harea hheap hplace hmask hsaved haccs
  have hs : ∀ i : Fin 32, b.saved.s[i] = if b.mask.getLsbD i.val then x.s[i] else 0 := by
    rw [hsaved]
    exact Context.masked_s x b.mask
  have ha' : ∀ i : Fin 8, b.saved.a[i] = if b.mask.getLsbD (32 + i.val) then x.a[i] else 0 := by
    rw [hsaved]
    exact Context.masked_a x b.mask
  have hv : ∀ i : Fin 16, b.mask.getLsbD (40 + i.val) = true → b.saved.v[i] = x.v[i] := fun i hi => by
    rw [hsaved]
    exact (Context.masked_v x b.mask i).trans (if_pos hi)
  have hpc : b.saved.pc = x.pc := by rw [hsaved, Context.masked_pc]
  have htt : b.saved.tt = x.tt := by rw [hsaved, Context.masked_tt]
  have hcnt : b.saved.cnt = x.cnt := by rw [hsaved, Context.masked_cnt]
  have hstatus : b.saved.status = x.status := by rw [hsaved, Context.masked_status]
  have hstack : b.saved.stack = if b.mask.getLsbD 194 then x.stack else [] := by rw [hsaved, Context.masked_stack]
  refine ⟨u, b, hu, hst, hreq, harea, hmask, hpc, hs, ha', hstack, htt, hcnt, hv, haccs, fun pa hp hok => ?_⟩
  have hwf : s.heap.wf = true := by
    simp only [State.memOk, Bool.and_eq_true] at hok
    obtain ⟨⟨⟨⟨hheap, -⟩, -⟩, -⟩, -⟩ := hok
    exact hheap
  have hread := s.heap.readN_writeN pa (b.image s.free) hwf
  rw [← hheap pa hp] at hread
  refine ⟨hplace.trans hp, hread, fun k hk => ?_, ?_⟩
  · rw [hheap pa hp, Memory.read_writeN_out pa _ k hwf hk]
  · rw [← hpc, ← htt, ← hcnt, ← hstatus]
    exact SaveArea.fields_in_heap hread

/-- Settles O44: what each pre-emption event does, one lemma for each. -/
theorem preemptionSavesAndRestores : Obligations.PreemptionSavesAndRestores := by
  unfold Obligations.PreemptionSavesAndRestores
  intro s t c a x
  refine ⟨fun ha hr => ⟨_, rfl, ?_⟩, fun ha hr => ?_, preemptionFreeze_freezes s t c, contextSave_saves, fun h ha hr => ?_,
    fun h ha hr hroom hm => ?_, fun b row => restorePort_restores⟩
  · rw [State.ctx_modCtx, Context.request_eq _ _ ha hr]
  · cases hp : s.saveSpace t c with
    | none =>
      refine ⟨_, execPreemption_waits ha hr hp, fun _ => ?_, fun _ h => ?_⟩
      · exact State.ctx_modCtx s t c _
      · cases h
    | some pa =>
      refine ⟨_, execPreemption_drains ha hr hp, fun h => ?_, fun pa' h => ?_⟩
      · cases h
      obtain rfl := Option.some.inj h
      have hc := s.ctx_beginDrain t c false
      have hb := s.areaOf_beginDrain t c false
      refine ⟨State.saveSpace_stack hp, (congrArg Context.st hc :), (congrArg Context.pc hc :), ?_, fun hn => ?_⟩
      · exact (congrArg Option.isSome hb).trans rfl
      · refine (congrArg (fun o => Option.bind o SaveArea.place) hb).trans ?_
        rw [Option.bind_some, State.drainArea, hn, Option.getD_none, ← hp]
        rfl
  · refine ⟨_, _, execContextRestore_begins h ha hr, ?_, rfl, rfl⟩
    refine (State.areaOf_modArea s t c _ ?_).trans ?_
    · exact fun _ => ⟨rfl, rfl⟩
    · rw [ha]
      rfl
  · obtain ⟨-, hpc, htt⟩ := Tile.SameRuns.replaceQueued (s.tile t) a c s.now c
    have hc : State.ctx { s.modTile t (fun x => (x.replaceQueued a c s.now).modCtx c fun y => y.restored a.saved) with
        saves := s.saves.filter fun b => !(b.tile == t && b.ctx == c) } t c =
        (((s.tile t).replaceQueued a c s.now).ctx c).restored a.saved := by
      rw [State.ctx_withSaves, State.ctx_modTile, Tile.ctx_modCtx]
    refine ⟨_, execContextRestore_ends h ha hr hroom hm, ?_⟩
    rw [hc]
    exact ⟨rfl, rfl, rfl, rfl, rfl, hpc, rfl, rfl, rfl, htt, State.areaOf_removed ..⟩

end Sys2Proof.Machine

/-! Worked words of the manual (O55): words that an encoder writes (O54), and the refusals of R36, R53, R62, R65 and R68. -/

namespace Sys2Proof

/-! ### Words that decode to nothing -/

/-- R62: opcodes 0x1D to 0x3F of the CTL slot are unassigned. -/
theorem decodeCtl_eq_none_of_ge {w : Nat} (h : 0x1D ≤ fld w 25 6) : decodeCtl w = none := by
  unfold decodeCtl
  split
  case h_30 => rfl
  all_goals omega

/-- R65: above MOVHI's 0x19 slot 1 has no opcode; the opcodes of slot 2 alone lie there. -/
theorem decodeScalar_false_eq_none_of_ge {w : Nat} (h : 0x1A ≤ fld w 21 6) : decodeScalar false w = none := by
  unfold decodeScalar
  split
  case h_24 => rfl
  all_goals omega

/-- R68: VNEG has no unsigned form. -/
theorem decodeVec_vneg_eq_none_of_unsigned {w : Nat} (hop : fld w 21 6 = 0x01) (hfn : fld w 0 4 = 7)
    (hty : (VType.ofCode (fld w 4 2)).isSigned = false) : decodeVec w = none := by
  simp [decodeVec, hop, hfn, hty, req]

/-- R36: an MMA with `ACC` = 11 is illegal. -/
theorem decodeMxu_mma_eq_none_of_acc {w : Nat} (hop : fld w 21 6 = 0x04) (hctl : fld w 7 2 = 3) : decodeMxu w = none := by
  simp [decodeMxu, hop, hctl, AccCtl.ofCode]

/-- R53, R73: the bits of an SMOV below its two registers must be zero. -/
theorem decodeScout_smov_eq_none_of_reserved {w : Nat} (hop : fld w 26 6 = 0x01) (hz : fld w 0 18 ≠ 0) : decodeScout w = none := by
  simp [decodeScout, hop, hz, req]

/-! ### The obligation -/

/-- Settles O55: each legal word is what its instruction encodes to, and each illegal one is refused by the rule that it breaks. -/
theorem wordsDecode : Obligations.WordsDecode := by
  unfold Obligations.WordsDecode
  refine ⟨?brs, ?waitb, ?ctl63, ?add, ?plog, ?aaddInSa, ?acmb, ?ldvx, ?stvm, ?vfma, ?vnegU32, ?mma, ?mmaCtl3, ?sig, ?saddi, ?smovReserved⟩
  case brs => exact decodeCtl_encode (.brs 5 .nez (-4)) rfl rfl
  case waitb => exact decodeCtl_encode (.waitbTag 4 .full 7) rfl rfl
  case ctl63 => exact decodeCtl_eq_none_of_ge (by decide)
  case add => exact decodeScalar_encode (.add 3 3 3) rfl
  case plog => exact decodeScalar_encode (.plog 8 4 1 2) rfl
  case aaddInSa => exact decodeScalar_false_eq_none_of_ge (by decide)
  case acmb => exact decodeSb_encode (.acmb 2 4 5) rfl
  case ldvx => exact decodeLd_encode (.ldvx 4 6 9 0) rfl
  case stvm => exact decodeSt_encode (.stvm 2 3 4 1) rfl
  case vfma => exact decodeVec_encode (.vfma 7 8 9 2 .bf16p) rfl rfl
  case vnegU32 => exact decodeVec_vneg_eq_none_of_unsigned (by decide) (by decide) (by decide)
  case mma => exact decodeMxu_encode (.mma 200 3 1 .dacc 1 false) rfl rfl
  case mmaCtl3 => exact decodeMxu_mma_eq_none_of_acc (by decide) (by decide)
  case sig => exact decodeXfr_encode (.sig 7 1 1) rfl rfl
  case saddi => exact decodeScout_encode (.saddi 1 2 0x0FFFF) rfl
  case smovReserved => exact decodeScout_smov_eq_none_of_reserved (by decide) (by decide)

end Sys2Proof

/-! Floating-point vector instructions (R90 to R93, R136, R137, R141, R144, O7). -/

namespace Sys2Proof.Machine

/-! ### Lanes of a vector instruction (R134 to R136) -/

theorem lanesOf_get (e : Word) (f : Fin 32 → LaneRes) (k : Fin 32) :
    (lanesOf e f)[k] = if e.getLsbD k.val = true then f k else LaneRes.off := by
  simp only [lanesOf, laneOn, Fin.getElem_fin, Vector.getElem_ofFn]
  rfl

theorem State.leavesFloatLanes_lanesOf (s : State) (lat : Nat) (vd : Fin 16) (e : Word) (f : Fin 32 → LaneRes) :
    s.leavesFloatLanes (.next (s.vecResult lat vd e (lanesOf e f))) lat vd e f :=
  ⟨lanesOf e f, rfl, lanesOf_get e f⟩

theorem vecBin_leaves (lat : Nat) (f : RMode → Word → Word → LaneRes) (vd va vb : Fin 16) (mk : Fin 8) (s : State) :
    s.leavesFloatLanes (vecBin lat f vd va vb mk s) lat vd (s.rm mk &&& s.curCtx.top)
      (fun k => f s.curCtx.rmode (s.rv va)[k] (s.rv vb)[k]) := s.leavesFloatLanes_lanesOf ..

theorem vecUn_leaves (lat : Nat) (f : RMode → Word → LaneRes) (vd va : Fin 16) (mk : Fin 8) (s : State) :
    s.leavesFloatLanes (vecUn lat f vd va mk s) lat vd (s.rm mk &&& s.curCtx.top)
      (fun k => f s.curCtx.rmode (s.rv va)[k]) := s.leavesFloatLanes_lanesOf ..

/-- VFMA reads the old lanes of its destination too (R137). -/
theorem execVfma_leaves (vd va vb : Fin 16) (mk : Fin 8) (ty : VType) (s : State) :
    s.leavesFloatLanes (execVfma vd va vb mk ty s) 4 vd (s.rm mk &&& s.curCtx.top)
      (fun k => fmaLane ty s.curCtx.rmode (s.rv va)[k] (s.rv vb)[k] (s.rv vd)[k]) := s.leavesFloatLanes_lanesOf ..

/-- A two-operand instruction on both float types: F32 lane by lane, BF16P half by half (R134, R137). -/
theorem vecBin_float_leaves (f : RMode → FFmt → Nat → Nat → FRes) (vd va vb : Fin 16) (mk : Fin 8) (s : State) :
    let e := s.rm mk &&& s.curCtx.top
    let x := s.rv va
    let y := s.rv vb
    s.leavesFloatLanes (vecBin 4 (fun rm => fpLane .f32 (f rm)) vd va vb mk s) 4 vd e
      (fun k => (f s.curCtx.rmode fF32 x[k].toNat y[k].toNat).lane) ∧
    s.leavesFloatLanes (vecBin 4 (fun rm => fpLane .bf16p (f rm)) vd va vb mk s) 4 vd e
      (fun k => pairLane (f s.curCtx.rmode fBf16 (x[k].toNat % 65536) (y[k].toNat % 65536))
        (f s.curCtx.rmode fBf16 (x[k].toNat / 65536) (y[k].toNat / 65536))) :=
  ⟨vecBin_leaves 4 (fun rm => fpLane .f32 (f rm)) vd va vb mk s, vecBin_leaves 4 (fun rm => fpLane .bf16p (f rm)) vd va vb mk s⟩

/-- A one-operand instruction on both float types. -/
theorem vecUn_float_leaves (lat : Nat) (f : RMode → FFmt → Nat → FRes) (vd va : Fin 16) (mk : Fin 8) (s : State) :
    let e := s.rm mk &&& s.curCtx.top
    let x := s.rv va
    s.leavesFloatLanes (vecUn lat (fun rm a => fpLane .f32 (fun g u _ => f rm g u) a 0) vd va mk s) lat vd e
      (fun k => (f s.curCtx.rmode fF32 x[k].toNat).lane) ∧
    s.leavesFloatLanes (vecUn lat (fun rm a => fpLane .bf16p (fun g u _ => f rm g u) a 0) vd va mk s) lat vd e
      (fun k => pairLane (f s.curCtx.rmode fBf16 (x[k].toNat % 65536)) (f s.curCtx.rmode fBf16 (x[k].toNat / 65536))) :=
  ⟨vecUn_leaves lat (fun rm a => fpLane .f32 (fun g u _ => f rm g u) a 0) vd va mk s,
    vecUn_leaves lat (fun rm a => fpLane .bf16p (fun g u _ => f rm g u) a 0) vd va mk s⟩

/-! ### Operations on numbers (R90 to R92, R144) -/

/-- A NaN operand of a one-operand function: the canonical NaN, invalid if it signals (R91). -/
def FFmt.nanRes (f : FFmt) (n : Exact) : Option FRes :=
  if n.isNan = true then some ⟨f.nan, Flags.sig n.isSig⟩ else none

theorem FFmt.abs_eq (f : FFmt) (hf : f.Ieee) (u : Nat) :
    f.abs u = (f.nanRes (f.num u)).getD ⟨u % 2 ^ (f.eb + f.fb), Flags.none⟩ := by
  rw [f.abs_num hf, FFmt.nanRes]; split <;> rfl

theorem FFmt.negate_eq (f : FFmt) (hf : f.Ieee) (u : Nat) :
    f.negate u = (f.nanRes (f.num u)).getD ⟨(u + 2 ^ (f.eb + f.fb)) % 2 ^ (f.eb + f.fb + 1), Flags.none⟩ := by
  rw [f.negate_num hf, FFmt.nanRes, FFmt.width, Nat.add_assoc, Nat.add_comm 1]; split <;> rfl

theorem FFmt.nanRes_some {f : FFmt} {n : Exact} {r : FRes} (h : f.nanRes n = some r) : ∃ s, n = .nan s ∧ r = ⟨f.nan, Flags.sig s⟩ := by
  cases n with
  | nan s => exact ⟨s, rfl, (Option.some.inj h).symm⟩
  | inf s => cases h
  | fin s q => cases h

theorem FFmt.functions_nan (f : FFmt) (hf : f.Ieee) (rm : RMode) (u : Nat) (r : FRes) (h : f.nanRes (f.num u) = some r) :
    f.exp2 rm u = r ∧ f.log2 rm u = r ∧ f.rcp rm u = r ∧ f.rsqrt rm u = r := by
  obtain ⟨s, hn, rfl⟩ := FFmt.nanRes_some h
  exact ⟨(f.exp2_special hf rm u).1 s hn, (f.log2_special hf rm u).1 s hn, (f.rcp_special hf rm u).1 s hn, (f.rsqrt_special hf rm u).1 s hn⟩

theorem ieee_of_laneFormat {f : FFmt} (h : f = fF32 ∨ f = fBf16) : f.Ieee ∧ f.fb ≤ 120 := by
  rcases h with rfl | rfl
  · exact ⟨f32_ieee, by decide⟩
  · exact ⟨bf16_ieee, by decide⟩

/-! ### Conversions (R93, R141) -/

theorem cvtLane_int_int (rm : RMode) (g : Word) :
    cvtLane rm .i32 .u32 g = ⟨if g.toInt < 0 then 0 else g, Flags.none⟩ ∧
      cvtLane rm .u32 .i32 g = ⟨if 2 ^ 31 ≤ g.toNat then 0x7FFFFFFF else g, Flags.none⟩ := by
  constructor
  · simp only [cvtLane, LaneRes.quiet, cvtIntInt, if_true, BitVec.msb_eq_toInt, decide_eq_true_eq]
  · simp only [cvtLane, LaneRes.quiet, cvtIntInt, reduceCtorEq, if_false, BitVec.msb_eq_decide, decide_eq_true_eq]

theorem cvtToInt_toInteger (f : FFmt) (hf : f.Ieee) (rm : RMode) (u : Nat) :
    f.toInteger rm (-(2 ^ 31)) (2 ^ 31 - 1) u (cvtToInt f rm .i32 u) ∧ f.toInteger rm 0 (2 ^ 32 - 1) u (cvtToInt f rm .u32 u) :=
  ⟨f.toIntRange_toInteger hf rm _ _ u, f.toIntRange_toInteger hf rm _ _ u⟩

/-! ### The obligation -/

/-- Settles O7: lane by lane each instruction applies its operation, and the operations are those of the exact numbers. -/
theorem vectorFloatLanes : Obligations.VectorFloatLanes := by
  unfold Obligations.VectorFloatLanes
  intro s d a b m src dst rtz e rm x y z two one
  have bin (f : RMode → FFmt → Nat → Nat → FRes) := vecBin_float_leaves f d a b m s
  have un (lat : Nat) (f : RMode → FFmt → Nat → FRes) := vecUn_float_leaves lat f d a m s
  obtain ⟨add32, add16⟩ := bin fun rm f => f.add rm
  obtain ⟨sub32, sub16⟩ := bin fun rm f => f.sub rm
  obtain ⟨mul32, mul16⟩ := bin fun rm f => f.mul rm
  obtain ⟨min32, min16⟩ := bin fun _ f => f.minMax false
  obtain ⟨max32, max16⟩ := bin fun _ f => f.minMax true
  obtain ⟨abs32, abs16⟩ := un 4 fun _ f => f.abs
  obtain ⟨neg32, neg16⟩ := un 4 fun _ f => f.negate
  obtain ⟨exp32, exp16⟩ := un 8 fun rm f => f.exp2 rm
  obtain ⟨log32, log16⟩ := un 8 fun rm f => f.log2 rm
  obtain ⟨rcp32, rcp16⟩ := un 8 fun rm f => f.rcp rm
  obtain ⟨rsq32, rsq16⟩ := un 8 fun rm f => f.rsqrt rm
  refine ⟨add32, add16, sub32, sub16, mul32, mul16, execVfma_leaves d a b m .f32 s, execVfma_leaves d a b m .bf16p s,
    min32, min16, max32, max16, abs32, abs16, neg32, neg16, exp32, exp16, log32, log16, rcp32, rcp16, rsq32, rsq16,
    vecUn_leaves 3 (fun rm => cvtLane (if rtz then .rtz else rm) src dst) d a m s, ?numbers, ?conversions⟩
  case numbers =>
    intro f hf rm u v w n nan
    obtain ⟨hi, hfb⟩ := ieee_of_laneFormat hf
    obtain ⟨-, expNeg, expPos⟩ := f.exp2_special hi rm u
    obtain ⟨-, logInf, logZero, logNeg⟩ := f.log2_special hi rm u
    obtain ⟨-, rcpInf, rcpZero⟩ := f.rcp_special hi rm u
    obtain ⟨-, rsqInf, rsqZero, rsqNeg⟩ := f.rsqrt_special hi rm u
    exact ⟨f.add_gives hi rm u v, f.sub_gives hi rm u v, f.mul_gives hi rm u v, f.fma_gives hi rm u v w,
      f.minMax_chooses hi false u v, f.minMax_chooses hi true u v, f.abs_eq hi u, f.negate_eq hi u, f.functions_nan hi rm u,
      expNeg, expPos, fun h => ⟨logInf h, rsqInf h⟩, fun h => ⟨logNeg h, rsqNeg h⟩, rcpInf,
      fun b h => ⟨rcpZero b h, rsqZero b h, logZero b h⟩, f.rcp_gives hi rm u,
      fun b i => ⟨f.exp2_exact hf rm u b i, f.log2_exact hi rm u b i, f.rsqrt_exact hi rm u b i hfb⟩⟩
  case conversions =>
    intro rm g
    refine ⟨fun f ty hf => ?_, ⟨_, rfl, fF32.convert_gives fBf16 f32_ieee bf16_ieee rm _⟩,
      ⟨_, rfl, fBf16.convert_gives fF32 bf16_ieee f32_ieee rm _⟩, cvtLane_int_int rm g⟩
    rcases hf with ⟨rfl, rfl⟩ | ⟨rfl, rfl⟩
    · exact ⟨⟨_, rfl, fF32.ofInt_gives f32_ieee rm _⟩, ⟨_, rfl, fF32.ofInt_gives f32_ieee rm _⟩, cvtToInt_toInteger fF32 f32_ieee rm _⟩
    · exact ⟨⟨_, rfl, fBf16.ofInt_gives bf16_ieee rm _⟩, ⟨_, rfl, fBf16.ofInt_gives bf16_ieee rm _⟩, cvtToInt_toInteger fBf16 bf16_ieee rm _⟩

end Sys2Proof.Machine

/-! Comparisons to a mask, reductions, mask logic and the mask stack (R139, R142, R145, R146, O8). -/

namespace Sys2Proof.Machine

/-! ### Masks given bit by bit -/

theorem getLsbD_one_shiftLeft (i k : Fin 32) : (1#32 <<< i.val).getLsbD k.val = decide (k = i) := by
  rw [BitVec.getLsbD_shiftLeft, BitVec.getLsbD_one, Bool.eq_iff_iff]
  simp only [Bool.and_eq_true, Bool.not_eq_true', decide_eq_true_eq, decide_eq_false_iff_not, Fin.ext_iff]
  omega

theorem getLsbD_foldl_bits (f : Fin 32 → Bool) (l : List (Fin 32)) (w : Word) (k : Fin 32) :
    (l.foldl (fun w i => if f i then w ||| (1#32 <<< i.val) else w) w).getLsbD k.val = (w.getLsbD k.val || (decide (k ∈ l) && f k)) := by
  induction l generalizing w with
  | nil => rw [List.foldl_nil, decide_eq_false List.not_mem_nil, Bool.false_and, Bool.or_false]
  | cons i l ih =>
    have step : (if f i then w ||| (1#32 <<< i.val) else w).getLsbD k.val = (w.getLsbD k.val || (decide (k = i) && f k)) := by
      by_cases hk : k = i
      · subst hk
        cases f k <;> simp only [if_true, Bool.false_eq_true, if_false, BitVec.getLsbD_or, getLsbD_one_shiftLeft, Bool.and_true,
          Bool.and_false, Bool.or_false]
      · cases f i <;> simp only [if_true, Bool.false_eq_true, if_false, BitVec.getLsbD_or, getLsbD_one_shiftLeft, hk, decide_false,
          Bool.false_and, Bool.or_false]
    rw [List.foldl_cons, ih, step, Bool.or_assoc, ← Bool.and_or_distrib_right]
    simp only [List.mem_cons, Bool.decide_or]

theorem bitsOf_getLsbD (f : Fin 32 → Bool) (k : Fin 32) : (bitsOf f).getLsbD k.val = f k := by
  rw [bitsOf, getLsbD_foldl_bits, decide_eq_true (List.mem_finRange k), Bool.true_and]
  exact (congrArg (· || f k) BitVec.getLsbD_zero).trans (Bool.false_or _)

theorem truth32_getLsbD (tt : BitVec 4) (a b : Word) (k : Fin 32) : (truth32 tt a b).getLsbD k.val =
    tt.getLsbD (2 * (if a.getLsbD k.val then 1 else 0) + if b.getLsbD k.val then 1 else 0) := by
  simp only [truth32, bitsOf_getLsbD, truth32.truthBit, laneOn]
  cases a.getLsbD k.val <;> cases b.getLsbD k.val <;> rfl

/-! ### Comparisons (R139) -/

/-- The number that a lane of an integer type holds. -/
def intKey (ty : VType) (w : Word) : ℤ := if ty = .u32 then w.toNat else w.toInt

theorem intLt_iff (ty : VType) (a b : Word) : (if ty = .u32 then a.ult b else a.slt b) = true ↔ intKey ty a < intKey ty b := by
  unfold intKey
  by_cases h : ty = .u32
  · simp only [if_pos h, BitVec.ult_iff_toNat_lt, Nat.cast_lt]
  · simp only [if_neg h, BitVec.slt_iff_toInt_lt]

theorem intKey_inj (ty : VType) (a b : Word) : intKey ty a = intKey ty b ↔ a = b := by
  unfold intKey
  split
  · rw [Nat.cast_inj, BitVec.toNat_inj]
  · exact BitVec.toInt_inj

theorem intCmp_iff (c : VCond) (ty : VType) (a b : Word) : intCmp c ty a b = true ↔ intRel c (intKey ty a) (intKey ty b) := by
  cases c with
  | eq => simp [intCmp, intRel, intKey_inj]
  | ne => simp [intCmp, intRel, intKey_inj]
  | lt => exact intLt_iff ty a b
  | gt => exact intLt_iff ty b a
  | le => rw [intCmp, Bool.not_eq_true', ← Bool.not_eq_true, intLt_iff, intRel, not_lt]
  | ge => rw [intCmp, Bool.not_eq_true', ← Bool.not_eq_true, intLt_iff, intRel, not_lt]
  | uo => simp [intCmp, intRel]

/-- A comparison of BF16P is that of both halves, unordered if either half is (R139). -/
theorem laneCmp_bf16p (c : VCond) (x y : Word) :
    let l := fpCmp fBf16 c (x.toNat % 65536) (y.toNat % 65536)
    let h := fpCmp fBf16 c (x.toNat / 65536) (y.toNat / 65536)
    ((laneCmp c .bf16p x y).1 = true ↔ if c = .uo then l.1 = true ∨ h.1 = true else l.1 = true ∧ h.1 = true) ∧
    ((laneCmp c .bf16p x y).2 = true ↔ l.2 = true ∨ h.2 = true) := by
  refine ⟨?_, (Bool.or_eq_true _ _).to_iff⟩
  show (if c = .uo then _ else _) = true ↔ _
  split
  · exact (Bool.or_eq_true _ _).to_iff
  · exact (Bool.and_eq_true _ _).to_iff

/-! ### Reductions (R142) -/

theorem intMin_eq (ty : VType) (a b : Word) : intMin ty a b = if intKey ty b < intKey ty a then b else a := by
  simp only [intMin, intLt_iff]

theorem intMax_eq (ty : VType) (a b : Word) : intMax ty a b = if intKey ty a < intKey ty b then b else a := by
  simp only [intMax, intLt_iff]

theorem intMin_le (ty : VType) (a b : Word) : (intMin ty a b = a ∨ intMin ty a b = b) ∧
    intKey ty (intMin ty a b) ≤ intKey ty a ∧ intKey ty (intMin ty a b) ≤ intKey ty b := by
  rw [intMin_eq]
  split
  · exact ⟨.inr rfl, le_of_lt ‹_›, le_rfl⟩
  · exact ⟨.inl rfl, le_rfl, not_lt.1 ‹_›⟩

theorem le_intMax (ty : VType) (a b : Word) : (intMax ty a b = a ∨ intMax ty a b = b) ∧
    intKey ty a ≤ intKey ty (intMax ty a b) ∧ intKey ty b ≤ intKey ty (intMax ty a b) := by
  rw [intMax_eq]
  split
  · exact ⟨.inr rfl, le_of_lt ‹_›, le_rfl⟩
  · exact ⟨.inl rfl, le_rfl, not_lt.1 ‹_›⟩

theorem foldl_add_words (l : List Word) (w : Word) : l.foldl (· + ·) w = w + BitVec.ofNat 32 (l.map BitVec.toNat).sum := by
  induction l generalizing w with
  | nil => simp
  | cons a l ih => rw [List.foldl_cons, ih, List.map_cons, List.sum_cons, BitVec.ofNat_add, BitVec.ofNat_toNat, BitVec.setWidth_eq,
      BitVec.add_assoc]

section
variable (rm : RMode) (e : Word) (x : Vec)

/-- The enabled lanes as the words that an integer reduction reads. -/
theorem redCodes_words (ty : VType) (h : ty.isFloat = false) : (redCodes ty e x).map (BitVec.ofNat 32) = lanesIn e x := by
  rw [redCodes_one ty (by rintro rfl; cases h), List.map_map]
  exact List.map_id'' (fun w => (BitVec.ofNat_toNat ..).trans (BitVec.setWidth_eq w)) _

theorem reduceLanes_sum_int (ty : VType) (h : ty.isFloat = false) (he : e ≠ 0) :
    reduceLanes .sum ty rm e x = ⟨BitVec.ofNat 32 ((lanesIn e x).map BitVec.toNat).sum, Flags.none⟩ := by
  obtain ⟨w, ws, hl⟩ := List.exists_cons_of_ne_nil (lanesIn_ne e x he)
  have hw := redCodes_words e x ty h
  have hs := (foldl_add_words (lanesIn e x) 0).trans (BitVec.zero_add _)
  rw [← hs]
  cases ty with
  | f32 | bf16p => cases h
  | i32 | u32 => simp only [reduceLanes, hw, hl]; rfl

/-- The extreme lane in the order of the type. -/
theorem reduceLanes_extreme_int (ty : VType) (h : ty.isFloat = false) (he : e ≠ 0) (isMax : Bool) :
    ∃ v ∈ lanesIn e x, reduceLanes (if isMax = true then .max else .min) ty rm e x = ⟨v, Flags.none⟩ ∧
      ∀ w ∈ lanesIn e x, if isMax = true then intKey ty w ≤ intKey ty v else intKey ty v ≤ intKey ty w := by
  obtain ⟨w, ws, hl⟩ := List.exists_cons_of_ne_nil (lanesIn_ne e x he)
  have hw := redCodes_words e x ty h
  have hmin := foldl_extreme (intMin ty) (fun a b => intKey ty a ≤ intKey ty b) (fun _ => le_rfl) (fun _ _ _ => le_trans) (intMin_le ty) w ws
  have hmax := foldl_extreme (intMax ty) (fun a b => intKey ty b ≤ intKey ty a) (fun _ => le_rfl) (fun _ _ _ => ge_trans) (le_intMax ty) w ws
  cases isMax with
  | false =>
    refine ⟨ws.foldl (intMin ty) w, hl ▸ hmin.1, ?_, hl ▸ hmin.2⟩
    cases ty with
    | f32 | bf16p => cases h
    | i32 | u32 => simp only [reduceLanes, hw, hl]; rfl
  | true =>
    refine ⟨ws.foldl (intMax ty) w, hl ▸ hmax.1, ?_, hl ▸ hmax.2⟩
    cases ty with
    | f32 | bf16p => cases h
    | i32 | u32 => simp only [reduceLanes, hw, hl]; rfl

theorem halves_ne_nil {l : List Word} (h : l ≠ []) : halves l ≠ [] := by
  obtain ⟨w, ws, rfl⟩ := List.exists_cons_of_ne_nil h
  exact List.cons_ne_nil _ _

/-- The sum and the extremes of F32 lanes. -/
theorem reduceLanes_f32 (he : e ≠ 0) :
    (∃ r, reduceLanes .sum .f32 rm e x = r.lane ∧ fF32.gives rm (Exact.total rm ((lanesIn e x).map fun w => fF32.num w.toNat)) r) ∧
    ∀ isMax : Bool, ∃ r, reduceLanes (if isMax = true then .max else .min) .f32 rm e x = r.lane ∧
      fF32.extremeOf isMax ((lanesIn e x).map BitVec.toNat) r := by
  have hc : redCodes .f32 e x = (lanesIn e x).map BitVec.toNat := redCodes_one .f32 (by decide) e x
  have hne : (lanesIn e x).map BitVec.toNat ≠ [] := by simpa using lanesIn_ne e x he
  have hsum := fF32.sum_total f32_ieee rm _ hne
  rw [List.map_map, ← hc] at hsum
  have hext (isMax : Bool) := fF32.extreme_of f32_ieee isMax _ hne
  rw [← hc] at hext ⊢
  exact ⟨⟨_, rfl, hsum⟩, fun | false => ⟨_, rfl, hext false⟩ | true => ⟨_, rfl, hext true⟩⟩

/-- The sum and the extremes of the halves of BF16P lanes, which both halves of the result hold. -/
theorem reduceLanes_bf16p (he : e ≠ 0) :
    (∃ r, reduceLanes .sum .bf16p rm e x = ⟨BitVec.ofNat 32 (r.bits * 65537), r.flags⟩ ∧
      fBf16.gives rm (Exact.total rm ((halves (lanesIn e x)).map fBf16.num)) r) ∧
    ∀ isMax : Bool, ∃ r, reduceLanes (if isMax = true then .max else .min) .bf16p rm e x = ⟨BitVec.ofNat 32 (r.bits * 65537), r.flags⟩ ∧
      fBf16.extremeOf isMax (halves (lanesIn e x)) r := by
  have hne := halves_ne_nil (lanesIn_ne e x he)
  have hsum := fBf16.sum_total bf16_ieee rm _ hne
  have hext (isMax : Bool) := fBf16.extreme_of bf16_ieee isMax _ hne
  rw [← redCodes_two] at hsum hext ⊢
  exact ⟨⟨_, rfl, hsum⟩, fun | false => ⟨_, rfl, hext false⟩ | true => ⟨_, rfl, hext true⟩⟩

end

/-! ### The instructions -/

theorem execVcmp_leaves (s : State) (c : VCond) (md : Fin 8) (a b : Fin 16) (m : Fin 8) (ty : VType) :
    let e := s.rm m &&& s.curCtx.top
    ∃ w nv, execVcmp c md a b m ty s = .next ((s.result 2 (.m md w)).raiseFlags 2 (Flags.sig nv)) ∧
      (∀ k : Fin 32, w.getLsbD k.val = (e.getLsbD k.val && (laneCmp c ty (s.rv a)[k] (s.rv b)[k]).1)) ∧
      (nv = true ↔ ∃ k : Fin 32, e.getLsbD k.val = true ∧ (laneCmp c ty (s.rv a)[k] (s.rv b)[k]).2 = true) := by
  refine ⟨_, _, rfl, fun k => bitsOf_getLsbD _ k, ?_⟩
  simp only [List.any_eq_true, List.mem_finRange, true_and, Bool.and_eq_true]
  rfl

theorem execVmsk_leaves (s : State) (tt : BitVec 4) (md m mb : Fin 8) : ∃ w, execVmsk tt md m mb s = .next (s.result 1 (.m md w)) ∧
    ∀ k : Fin 32, w.getLsbD k.val =
      tt.getLsbD (2 * (if (s.rm m).getLsbD k.val then 1 else 0) + if (s.rm mb).getLsbD k.val then 1 else 0) :=
  ⟨_, rfl, truth32_getLsbD tt _ _⟩

theorem execVred_none (s : State) (op : VRedOp) (d a : Fin 16) (m : Fin 8) (ty : VType) (h : s.rm m &&& s.curCtx.top = 0) :
    execVred op d a m ty s = .next s := if_pos h

theorem execVred_leaves (s : State) (op : VRedOp) (d a : Fin 16) (m : Fin 8) (ty : VType) (h : s.rm m &&& s.curCtx.top ≠ 0) :
    s.leavesFloatLanes (execVred op d a m ty s) 5 d (s.rm m &&& s.curCtx.top)
      (fun _ => reduceLanes op ty s.curCtx.rmode (s.rm m &&& s.curCtx.top) (s.rv a)) := by
  rw [show execVred op d a m ty s = _ from if_neg h]
  exact s.leavesFloatLanes_lanesOf ..

theorem execVmpush_below (s : State) (m : Fin 8) (h : s.curCtx.stack.length < 8) :
    execVmpush m s = .next (s.result 1 (.stack ((s.curCtx.top &&& s.rm m) :: s.curCtx.stack))) := by
  have hc : vmpushCause s = none := if_neg (by omega)
  rw [execVmpush, hc]

theorem execVminv_cons (s : State) (h : Word) (l : List Word) (hs : s.curCtx.stack = h :: l) :
    execVminv s = .next (s.result 1 (.stack ((l.headD (BitVec.allOnes 32) &&& ~~~h) :: l))) := by
  rw [execVminv, hs, if_neg (List.cons_ne_nil _ _), invertTop]

theorem execVmpop_cons (s : State) (h : Word) (l : List Word) (hs : s.curCtx.stack = h :: l) :
    execVmpop s = .next (s.result 1 (.stack l)) := by
  rw [execVmpop, hs, if_neg (List.cons_ne_nil _ _), List.tail_cons]

/-- Settles O8: the bits of a mask are given lane by lane, a comparison by the numbers of the lanes, a reduction by the fold over the
enabled lanes. -/
theorem vectorMasks : Obligations.VectorMasks := by
  unfold Obligations.VectorMasks
  intro s d a b m mb md ty c op tt e stk under
  refine ⟨execVcmp_leaves s c md a b m ty, fun x y => ?compare, execVmsk_leaves s tt md m mb, execVred_none s op d a m ty,
    execVred_leaves s op d a m ty, ?reduce, execVmpush_below s m,
    fun h l hs => ⟨execVminv_cons s h l hs, execVmpop_cons s h l hs⟩, fun h => ⟨if_pos h, if_pos h⟩⟩
  case compare =>
    obtain ⟨hf, hfi⟩ := fpCmp_num fF32 f32_ieee c x.toNat y.toNat
    obtain ⟨hl, hli⟩ := fpCmp_num fBf16 bf16_ieee c (x.toNat % 65536) (y.toNat % 65536)
    obtain ⟨hh, hhi⟩ := fpCmp_num fBf16 bf16_ieee c (x.toNat / 65536) (y.toNat / 65536)
    have hp := laneCmp_bf16p c x y
    simp only [hl, hh, hli, hhi] at hp
    exact ⟨hf, hfi, hp, fun _ => ⟨intCmp_iff c .i32 x y, intCmp_iff c .u32 x y⟩, rfl, rfl⟩
  case reduce =>
    intro he rm x ls
    obtain ⟨sum32, ext32⟩ := reduceLanes_f32 rm e x he
    obtain ⟨sum16, ext16⟩ := reduceLanes_bf16p rm e x he
    have words (ty : VType) (h : ty.isFloat = false) (isMax : Bool) := reduceLanes_extreme_int rm e x ty h he isMax
    have unsigned := words .u32 rfl
    simp only [intKey, if_true, Nat.cast_le] at unsigned
    exact ⟨sum32, sum16, fun isMax => ⟨ext32 isMax, ext16 isMax, words .i32 rfl isMax, unsigned isMax⟩,
      reduceLanes_sum_int rm e x .i32 rfl he, reduceLanes_sum_int rm e x .u32 rfl he⟩

end Sys2Proof.Machine

/-! The array's commands at the head of the MXU queue and as they start (R248, R249, R260 to R266, O29). -/

namespace Sys2Proof.Machine

/-! ### A tile without upsets (R204) -/

namespace Tile

theorem noteReads_clean (x : Tile) (m : Fin 4) (ws : List Nat) (hu : x.upsets = []) : x.noteReads m ws = x := by
  simp [Tile.noteReads, x.upsetWords_clean m _ ws hu]

theorem noteTable_clean (x : Tile) (c : Fin 4) (off n : Nat) (hu : x.upsets = []) : x.noteTable c off n = x := by
  simp [Tile.noteTable, hu]

theorem noteEntries_clean (x : Tile) (c : MxCmd) (hu : x.upsets = []) : x.noteEntries c = x := by
  unfold Tile.noteEntries
  induction c.op.entries with
  | nil => rfl
  | cons e l ih => rw [List.foldl_cons, x.noteTable_clean _ _ _ hu, ih]

theorem tableView_clean (x : Tile) (hu : x.upsets = []) : x.tableView = x := by
  simp [Tile.tableView, hu]

theorem countReads_clean (x : Tile) (c : Fin 4) (m : Fin 4) (ws : List Nat) (hu : x.upsets = []) : x.countReads c m ws = x := by
  simp [Tile.countReads, x.noteReads_clean m ws hu, x.upsetWords_clean m true ws hu]

theorem readSpm_clean (x : Tile) (as : List Nat) (hu : x.upsets = []) : x.readSpm as = as.map fun a => x.spmPrev.read (spmAddr a) := by
  simp [Tile.readSpm, Tile.upset, hu]

/-! ### A command leaves the queue (R256) -/

theorem mxLeave_frame (x : Tile) (id : Nat) : { x.mxLeave id with mxq := x.mxq, live := x.live, ctxs := x.ctxs } = x :=
  congrArg (fun y : Tile => { y with mxq := x.mxq }) (retire_frame { x with mxq := x.mxq.filter fun c => c.id != id } id true)

variable (x : Tile) (id : Nat)

@[simp] theorem mxLeave_prec : (x.mxLeave id).prec = x.prec := (congrArg Tile.prec (x.mxLeave_frame id) :)
@[simp] theorem mxLeave_rowp : (x.mxLeave id).rowp = x.rowp := (congrArg Tile.rowp (x.mxLeave_frame id) :)
@[simp] theorem mxLeave_colp : (x.mxLeave id).colp = x.colp := (congrArg Tile.colp (x.mxLeave_frame id) :)
@[simp] theorem mxLeave_wp : (x.mxLeave id).wp = x.wp := (congrArg Tile.wp (x.mxLeave_frame id) :)
@[simp] theorem mxLeave_rings : (x.mxLeave id).rings = x.rings := (congrArg Tile.rings (x.mxLeave_frame id) :)
@[simp] theorem mxLeave_acm : (x.mxLeave id).acm = x.acm := (congrArg Tile.acm (x.mxLeave_frame id) :)
@[simp] theorem mxLeave_mxRun : (x.mxLeave id).mxRun = x.mxRun := (congrArg Tile.mxRun (x.mxLeave_frame id) :)

theorem mxLeave_mxq : (x.mxLeave id).mxq = x.mxq.filter fun c => c.id != id :=
  (congrArg Tile.mxq (retire_frame { x with mxq := x.mxq.filter fun c => c.id != id } id true) :)

theorem mxLeave_mxq_ne : ∀ q ∈ (x.mxLeave id).mxq, q.id ≠ id := by
  intro q hq
  rw [mxLeave_mxq] at hq
  simpa using (List.mem_filter.1 hq).2

theorem mxLeave_live : ∀ l ∈ (x.mxLeave id).live, l.id ≠ id := Tile.retire_live _ id true

end Tile

/-! ### At the head (R248, R257 to R259) -/

/-- The tile after its head command took effect there, or took its head tick. -/
def Tile.headTaken (x : Tile) (now : Nat) (c : MxCmd) : Tile :=
  match c.op with
  | .prec v => { x with prec := v }.mxLeave c.id
  | .pmaskRow v => { x with rowp := v }.mxLeave c.id
  | .pmaskCol v => { x with colp := v }.mxLeave c.id
  | .wswap =>
    { x with wp := #v[x.wp[1], x.wp[0]],
             upsets := x.upsets.map fun (u : Upset) => if u.mem = 3 then { u with addr := (u.addr + 8192) % 16384 } else u }.mxLeave c.id
  | _ => { x with mxq := x.mxq.map fun d => if d.id = c.id then { d with headAt := some now } else d }

theorem execMxuCommandHead_takes {s : State} {t : TileId} {c : MxCmd} (hh : (s.tile t).mxHead s.now = some c)
    (hu : (s.tile t).upsets = []) (hn : c.headAt = none) (hc : (s.tile t).headCause c s.now = none) :
    ∃ s', execMxuCommandHead t s = .next s' ∧ s'.tile t = (s.tile t).headTaken s.now c := by
  have hx : (s.modTile t fun x => x.noteEntries c).tile t = s.tile t := by rw [State.tile_modTile, Tile.noteEntries_clean _ _ hu]
  unfold execMxuCommandHead
  extract_lets x
  split
  case h_1 h => exact absurd (hh.symm.trans h) (Option.some_ne_none c)
  case h_2 d h =>
    obtain rfl : c = d := Option.some.inj (hh.symm.trans h)
    rw [if_neg (by rw [hn]; exact Bool.false_ne_true)]
    extract_lets s'
    rw [Tile.tableView_clean _ hu]
    split
    case h_1 f hf => exact absurd (hc.symm.trans hf) (Option.some_ne_none f).symm
    case h_2 =>
      refine ⟨_, rfl, ?_⟩
      rw [State.tile_modTile, hx]
      unfold Tile.headTaken
      cases c.op <;> rfl

section
variable (x : Tile) (now : Nat) (c : MxCmd)

theorem Tile.headTaken_prec (v : Word) (h : c.op = .prec v) : (x.headTaken now c).prec = v := by
  rw [Tile.headTaken, h]; exact mxLeave_prec ..

theorem Tile.headTaken_pmaskRow (v : BitVec 64) (h : c.op = .pmaskRow v) : (x.headTaken now c).rowp = v := by
  rw [Tile.headTaken, h]; exact mxLeave_rowp ..

theorem Tile.headTaken_pmaskCol (v : BitVec 128) (h : c.op = .pmaskCol v) : (x.headTaken now c).colp = v := by
  rw [Tile.headTaken, h]; exact mxLeave_colp ..

theorem Tile.headTaken_wswap (h : c.op = .wswap) : (x.headTaken now c).wp = #v[x.wp[1], x.wp[0]] := by
  rw [Tile.headTaken, h]; exact mxLeave_wp ..

/-- A command of no duration leaves the queue at its head. -/
theorem Tile.headTaken_leaves (h : (∃ v, c.op = .prec v) ∨ (∃ v, c.op = .pmaskRow v) ∨ (∃ v, c.op = .pmaskCol v) ∨ c.op = .wswap) :
    ∀ q ∈ (x.headTaken now c).mxq, q.id ≠ c.id := by
  unfold Tile.headTaken
  rcases h with ⟨v, h⟩ | ⟨v, h⟩ | ⟨v, h⟩ | h <;> rw [h] <;> exact mxLeave_mxq_ne _ _

theorem Tile.headTaken_eq_of_timed (h : ∃ d n, c.op.timed = some (d, n)) : x.headTaken now c =
    { x with mxq := x.mxq.map fun d => if d.id = c.id then { d with headAt := some now } else d } := by
  obtain ⟨d, n, h⟩ := h
  unfold Tile.headTaken
  cases hop : c.op with
  | wld | mma | aclr | ascl | adrn => rfl
  | prec | pmaskRow | pmaskCol | wswap => rw [hop] at h; cases h

/-- A WLD or MMA takes its head tick. -/
theorem Tile.headTaken_timed (hm : c ∈ x.mxq) (h : ∃ d n, c.op.timed = some (d, n)) :
    { c with headAt := some now } ∈ (x.headTaken now c).mxq := by
  rw [x.headTaken_eq_of_timed now c h]
  exact List.mem_map.2 ⟨c, hm, if_pos rfl⟩

end

theorem Tile.mem_mxq_of_mxHead {x : Tile} {now : Nat} {c : MxCmd} (h : x.mxHead now = some c) : c ∈ x.mxq := by
  unfold Tile.mxHead at h
  split at h
  · rename_i d l hq
    split at h
    · rw [hq, ← Option.some.inj h]; exact List.mem_cons_self ..
    · cases h
  · cases h

/-! ### Start (R249, R252, R260 to R266) -/

section
variable {s : State} {t : TileId} {c : MxCmd}

theorem State.reserveArray_tile (s : State) (t : TileId) (c : MxCmd) : (s.reserveArray t c).tile t = s.tile t := by
  unfold State.reserveArray
  cases c.op <;> rfl

theorem execMxuStart_starts (hh : (s.tile t).mxHead s.now = some c) (hu : (s.tile t).upsets = [])
    (he : (s.tile t).arrayEvent t s.now = some (.mxuStart t)) (hc : (s.tile t).startCause c = none) :
    ∃ s', execMxuStart t s = .next s' ∧ (∀ dl rg, c.op.timed = some (dl, rg) → s'.tile t = (s.tile t).startTimed s.now c rg) ∧
      (c.op.timed = none → s'.tile t = (s.tile t).startRange s.now c) := by
  have hx : (s.modTile t fun x => x.noteEntries c).tile t = s.tile t := by rw [State.tile_modTile, Tile.noteEntries_clean _ _ hu]
  unfold execMxuStart
  extract_lets x
  split
  case h_1 h => exact absurd (hh.symm.trans h) (Option.some_ne_none c)
  case h_2 d h =>
    obtain rfl : c = d := Option.some.inj (hh.symm.trans h)
    rw [if_neg (not_not_intro he)]
    extract_lets s'
    rw [Tile.tableView_clean _ hu]
    split
    case h_1 f hf => exact absurd (hc.symm.trans hf) (Option.some_ne_none f).symm
    case h_2 =>
      refine ⟨_, rfl, fun dl rg h => ?_, fun h => ?_⟩ <;> rw [State.tile_modTile, State.reserveArray_tile, hx, h] <;> rfl

theorem Tile.readSpm_claimSpan (x : Tile) (hu : x.upsets = []) (g : Ring) (n i j : Nat) (hi : i < n) (hj : j < g.z) :
    (x.readSpm (g.claimSpan n))[i * g.z + j]? =
      some (x.spmPrev.read (spmAddr (g.base.toNat * 32 + (g.head.toNat + g.claimed + i) % g.e * g.z + j))) := by
  rw [x.readSpm_clean _ hu, List.getElem?_map, claimSpan_get g n i j hi hj, Option.map_some, Ring.at_]
  simp only [spmAddr, Nat.mod_mod]

/-- A WLD or MMA that starts: its run, and the claim on its ring. -/
theorem Tile.startTimed_run (x : Tile) (now : Nat) (c : MxCmd) (rg : Fin 8) (hu : x.upsets = []) :
    ∃ r, (x.startTimed now c rg).mxRun = some r ∧ r.id = c.id ∧ r.start = now ∧ r.prec = x.prec ∧ r.colp = x.colp ∧
      r.entries = c.op.needs x.prec x.rings[rg].z ∧ r.bytes = x.readSpm (x.rings[rg].claimSpan r.entries) ∧
      (x.startTimed now c rg).rings[rg].claimed = x.rings[rg].claimed + r.entries ∧
      (∀ dl g wp ta, c.op = .wld dl g wp ta → r.leave = now + imageSize x.prec / 128) ∧
      ∀ dl g h ctl wp ta dec q0 q1, c.op = .mma dl g h ctl wp ta dec q0 q1 →
        r.leave = now + max 1 ((selected x.rowp h).length * passCost x.prec) := by
  unfold Tile.startTimed
  extract_lets g n as rows cost occ todo run y
  rw [Tile.countReads_clean { y with mxRun := some run } c.ctx 0 _ hu]
  refine ⟨run, rfl, rfl, rfl, rfl, rfl, rfl, rfl, ?_, ?_, ?_⟩
  · show (vset x.rings rg _)[rg].claimed = _
    rw [vset_self]
  · intro dl g wp ta h
    show now + occ = _
    simp only [occ, h]
  · intro dl g hf ctl wp ta dec q0 q1 h
    show now + occ = _
    simp only [occ, h, rows, MxOp.rows, cost]

theorem rowRange_length (f n : Fin 64) : (rowRange f n).length = n.val + 1 := by simp [rowRange]

theorem Tile.startRange_run (x : Tile) (now : Nat) (c : MxCmd) :
    ∃ r, (x.startRange now c).mxRun = some r ∧ r.id = c.id ∧ r.start = now ∧ r.leave = now + (c.op.rows x.rowp).length :=
  ⟨_, rfl, rfl, rfl, rfl⟩

/-- A drain that starts (R266). -/
theorem execAdrnStart_starts (hh : (s.tile t).mxHead s.now = some c) (ha : c.headAt.isSome = true) (f n : Fin 64) (dst : Fin 32) (k : Bool)
    (fmt : DrainFmt) (hop : c.op = .adrn f n dst k fmt) (hd : (s.tile t).drainReady dst k = true) :
    ∃ s' r, execAdrnStart t s = .next s' ∧ (s'.tile t).mxRun = some r ∧ r.id = c.id ∧ r.start = s.now ∧
      r.leave = s.now + (n.val + 1) * (drainSize fmt / 128) := by
  have hn : c.headAt.isNone = false := by rw [← Option.not_isSome, ha]; rfl
  unfold execAdrnStart
  extract_lets x
  split
  case h_1 h => exact absurd (hh.symm.trans h) (Option.some_ne_none c)
  case h_2 d h =>
    obtain rfl : c = d := Option.some.inj (hh.symm.trans h)
    rw [hop]
    dsimp only
    rw [hn, show x.drainReady dst k = true from hd, if_neg (by decide)]
    refine ⟨_, _, rfl, by rw [State.tile_modTile], rfl, rfl, ?_⟩
    rw [rowRange_length]; rfl

end

end Sys2Proof.Machine

/-! The array's commands as they retire, the rows of a running command, the drains' bytes and the commits that fall due
(R253, R256, R260, R264 to R266, O29). -/

namespace Sys2Proof.Machine

/-! ### Retirement (R253, R256, R260) -/

/-- What a command gives back as it retires: its ring entries, and WLD's plane. -/
def Tile.finishOp (x : Tile) (r : MxRun) (c : MxCmd) : Tile :=
  match c.op with
  | .wld _ rg wp ta =>
    { x.setRing rg fun g => { g.pop r.entries with claimed := g.claimed - r.entries } with
        wp := vset x.wp wp (loadPlane r.prec ta r.bytes),
        upsets := x.upsets.filter fun u => !(u.mem == 3 && inSpan u.addr (8192 * wp.val) 8192) }
  | .mma _ rg _ _ _ _ _ _ _ =>
    (x.setRing rg fun g => { g.pop r.entries with claimed := g.claimed - r.entries }).event 0x09
      (if (c.op.rows x.rowp).isEmpty then 0 else 1)
  | _ => x

/-- The rows that a command kept get their commits. -/
def Tile.placeRows (x : Tile) (due id now : Nat) (rows : List (Fin 64 × AccRow)) : Tile :=
  rows.foldl (fun t e => { t with acm := vset t.acm e.1 (t.acm[e.1].place due (BitVec.allOnes 128) e.2 id now) }) x

namespace Tile
variable (x : Tile) (now : Nat) (r : MxRun) (c : MxCmd)

theorem placeRows_frame (due id : Nat) (rows : List (Fin 64 × AccRow)) : { x.placeRows due id now rows with acm := x.acm } = x := by
  unfold placeRows
  induction rows generalizing x with
  | nil => rfl
  | cons e l ih =>
    exact congrArg (fun y : Tile => { y with acm := x.acm })
      (ih { x with acm := vset x.acm e.1 (x.acm[e.1].place due (BitVec.allOnes 128) e.2 id now) })

/-- Retirement: the command's returns, its rows' commits, and the command leaves. -/
theorem mxFinish_eq : x.mxFinish now r c =
    { (x.finishOp r c).placeRows (x.tau c.ctx now + 1) c.id now r.rows with mxRun := none }.mxLeave c.id := by
  unfold mxFinish finishOp
  cases c.op <;> rfl

@[simp] theorem finishOp_acm : (x.finishOp r c).acm = x.acm := by
  unfold finishOp
  cases c.op <;> rfl

@[simp] theorem mxFinish_mxRun : (x.mxFinish now r c).mxRun = none := by
  rw [mxFinish_eq, mxLeave_mxRun]

theorem mxFinish_mxq_ne : ∀ d ∈ (x.mxFinish now r c).mxq, d.id ≠ c.id := by
  rw [mxFinish_eq]; exact mxLeave_mxq_ne _ _

theorem mxFinish_live : ∀ l ∈ (x.mxFinish now r c).live, l.id ≠ c.id := by
  rw [mxFinish_eq]; exact mxLeave_live _ _

@[simp] theorem mxFinish_rings : (x.mxFinish now r c).rings = (x.finishOp r c).rings := by
  rw [mxFinish_eq, mxLeave_rings]
  exact (congrArg Tile.rings (placeRows_frame ..) :)

@[simp] theorem mxFinish_wp : (x.mxFinish now r c).wp = (x.finishOp r c).wp := by
  rw [mxFinish_eq, mxLeave_wp]
  exact (congrArg Tile.wp (placeRows_frame ..) :)

theorem mxFinish_acm : (x.mxFinish now r c).acm = ((x.finishOp r c).placeRows (x.tau c.ctx now + 1) c.id now r.rows).acm := by
  rw [mxFinish_eq, mxLeave_acm]

/-- The ring entries of a timed command are free again (R195). -/
theorem finishOp_ring (dl : Nat) (rg : Fin 8) (h : c.op.timed = some (dl, rg)) :
    (x.finishOp r c).rings[rg] = { x.rings[rg].pop r.entries with claimed := x.rings[rg].claimed - r.entries } := by
  unfold finishOp
  cases hop : c.op with
  | wld _ g _ _ | mma _ g _ _ _ _ _ _ _ =>
    rw [hop] at h
    obtain rfl : g = rg := (Prod.mk.inj (Option.some.inj h)).2
    exact vset_self ..
  | _ => rw [hop] at h; cases h

/-- WLD loads its plane and leaves the other (R260). -/
theorem finishOp_wp (dl : Byte) (rg : Fin 8) (wp : Fin 2) (ta : Bool) (h : c.op = .wld dl rg wp ta) :
    (x.finishOp r c).wp = vset x.wp wp (loadPlane r.prec ta r.bytes) := by
  rw [finishOp, h]

/-- The commit of the one row that ACLR or ASCL kept (R253). -/
theorem mxFinish_commit (row : Fin 64) (v : AccRow) (h : r.rows = [(row, v)]) : ∃ d, (x.mxFinish now r c).acm[row].pend =
    x.acm[row].pend ++ [⟨d, BitVec.allOnes 128, v.entries, v.mode, v.ft, c.id, now⟩] ∧ x.acm[row].dueAfter (x.tau c.ctx now + 1) d := by
  obtain ⟨d, hp, hd⟩ := x.acm[row].place_pend (x.tau c.ctx now + 1) (BitVec.allOnes 128) v c.id now
  have hacm : (x.mxFinish now r c).acm = vset x.acm row (x.acm[row].place (x.tau c.ctx now + 1) (BitVec.allOnes 128) v c.id now) := by
    rw [mxFinish_acm, h, placeRows, List.foldl_cons, List.foldl_nil, finishOp_acm]
  refine ⟨d, ?_, hd⟩
  rw [hacm, vset_self, hp]

end Tile

theorem execMxuRetire_finishes {s : State} {t : TileId} {r : MxRun} {c : MxCmd} {q : List MxCmd} (hr : (s.tile t).mxRun = some r)
    (hq : (s.tile t).mxq = c :: q) (hl : r.leave ≤ s.now) :
    ∃ s', execMxuRetire t s = .next s' ∧ s'.tile t = (s.tile t).mxFinish s.now r c := by
  refine ⟨s.modTile t fun x => x.mxFinish s.now r c, ?_, State.tile_modTile ..⟩
  rw [execMxuRetire, hr, hq]
  exact if_pos hl

/-! ### Rows of the running command (R261, R264 to R266) -/

theorem runs128_get (n : Nat) (bs : List Byte) (i : Nat) (hi : i < n) : (runs128 n bs)[i]? = some ((bs.drop (128 * i)).take 128) := by
  induction n generalizing bs i with
  | zero => omega
  | succ n ih =>
    cases i with
    | zero => rfl
    | succ i => rw [runs128, List.getElem?_cons_succ, ih _ _ (by omega), List.drop_drop, Nat.mul_succ, Nat.add_comm]

section
variable {x : Tile} {now : Nat} {r : MxRun} {c : MxCmd} {q : List MxCmd} {k : Nat} {row : Fin 64}
  (hr : x.mxRun = some r) (hq : x.mxq = c :: q) (ht : r.todo = [(now, k, row)])
include hr hq ht

/-- A row of an MMA: its commit comes last on the row, and nothing else of the accumulator changes (R253, R261). -/
theorem Tile.arrayRows_mma (hu : x.upsets = []) (dl : BitVec 8) (rg : Fin 8) (h : Fin 2) (ctl : AccCtl) (wp : Fin 2) (ta : Bool) (dec : Word)
    (q0 q1 : Row) (hop : c.op = .mma dl rg h ctl wp ta dec q0 q1) :
    let kA := extentA r.prec ta x.rings[rg].z
    let out := passRow r.prec ctl dec (fun g => if g = 0 then q0 else q1) (x.image row) r.colp
      (rowA r.prec ta x.rings[rg].z r.bytes (row.val % 32) kA) (x.wp[wp].col r.prec kA)
    (∃ d, (x.arrayRows now).acm[row].pend =
        x.acm[row].pend ++ [⟨d, out.cols, out.row.entries, out.row.mode, out.row.ft, c.id, r.start + (k + 1) * r.c⟩] ∧
      x.acm[row].dueAfter ((if c.held then r.tau else c.tt + dl.toNat) + (k + 1) * r.c + 2) d) ∧
    (∀ j, j ≠ row → (x.arrayRows now).acm[j] = x.acm[j]) ∧ (x.arrayRows now).acm[row].entries = x.acm[row].entries := by
  intro kA out
  obtain ⟨n, hy⟩ := x.arrayRows_one now r c q k row hr hq ht
  rw [hop] at hy
  obtain ⟨d, hp, hd⟩ := x.acm[row].place_pend ((if c.held then r.tau else c.tt + dl.toNat) + (k + 1) * r.c + 2) out.cols out.row c.id
    (r.start + (k + 1) * r.c)
  have hacm : (x.arrayRows now).acm = vset x.acm row { x.acm[row] with pend :=
      x.acm[row].pend ++ [⟨d, out.cols, out.row.entries, out.row.mode, out.row.ft, c.id, r.start + (k + 1) * r.c⟩] } := by
    rw [hy, event_acm, event_acm, ← hp]
    exact mmaRow_acm { x with mxRun := some { r with todo := [] } } { r with todo := [] } c k row hu dl rg h ctl wp ta dec q0 q1 hop
  rw [hacm]
  exact ⟨⟨d, by rw [vset_self], hd⟩, fun j hj => vset_ne _ _ hj, by rw [vset_self]⟩

/-- ACLR keeps a cleared row (R264). -/
theorem Tile.arrayRows_aclr (f n : Fin 64) (hop : c.op = .aclr f n) :
    (x.arrayRows now).mxRun.map MxRun.rows = some (r.rows ++ [(row, AccRow.reset)]) := by
  obtain ⟨n, hy⟩ := x.arrayRows_one now r c q k row hr hq ht
  rw [hop] at hy
  rw [hy, event_mxRun, event_mxRun, rangeRow, hop]
  rfl

/-- ASCL keeps a scaled row (R265). -/
theorem Tile.arrayRows_ascl (f n : Fin 64) (v : Row) (hop : c.op = .ascl f n v) :
    (x.arrayRows now).mxRun.map MxRun.rows = some (r.rows ++ [(row, (scaleRow (pRM r.prec) (x.image row) v).1)]) := by
  obtain ⟨n, hy⟩ := x.arrayRows_one now r c q k row hr hq ht
  rw [hop] at hy
  rw [hy, event_mxRun, event_mxRun, rangeRow, hop]
  rfl

/-- ADRN queues the bytes of a row, 128 for each tick from the next on (R266). -/
theorem Tile.arrayRows_adrn (f n : Fin 64) (dst : Fin 32) (kb : Bool) (fmt : DrainFmt) (hop : c.op = .adrn f n dst kb fmt) (i : Nat)
    (hi : i < drainSize fmt / 128) : ∃ e, (x.arrayRows now).drains[x.drains.length + i]? = some e ∧ e.tick = now + i + 1 ∧ e.k = kb ∧
      e.dst = dst ∧ e.off = (if kb = true then f.val + k else k) * drainSize fmt + 128 * i ∧
      e.data = ((drainRow fmt (pRM r.prec) (x.image row)).1.drop (128 * i)).take 128 := by
  obtain ⟨m, hy⟩ := x.arrayRows_one now r c q k row hr hq ht
  rw [hop] at hy
  rw [hy, event_drains, event_drains, drainOne, hop]
  dsimp only
  have hz : ((List.range (drainTicks fmt)).zip (runs128 (drainTicks fmt) (drainRow fmt (pRM r.prec) (x.image row)).1))[i]? =
      some (i, ((drainRow fmt (pRM r.prec) (x.image row)).1.drop (128 * i)).take 128) := by
    rw [List.getElem?_zip_eq_some]
    exact ⟨List.getElem?_range hi, runs128_get _ _ i hi⟩
  rw [List.getElem?_append_right (Nat.le_add_right ..), Nat.add_sub_cancel_left, List.getElem?_map]
  exact ⟨_, congrArg (Option.map _) hz, rfl, rfl, rfl, rfl, rfl⟩

end

/-! ### The array write port (R266) -/

/-- The first byte that a drain writes. -/
def Tile.drainAt (x : Tile) (e : Drain) : Nat :=
  (if e.k = true then x.bufs[e.dst].shadow else x.rings[Fin.ofNat 8 e.dst.val].at_ e.entry) + e.off

theorem Tile.drainByte_spm (x : Tile) (e : Drain) :
    (x.drainByte e).spm = x.spm.writeAll ((numbered (x.drainAt e) e.data).map fun b => (spmAddr b.1, b.2)) := by
  have hb : (if e.first then x.setBuf e.dst Buffer.beginWrite else x).bufs[e.dst].shadow = x.bufs[e.dst].shadow := by
    split
    · show (vset x.bufs e.dst _)[e.dst].shadow = _
      rw [vset_self]; rfl
    · rfl
  have hs : (if e.first then x.setBuf e.dst Buffer.beginWrite else x).spm = x.spm := by split <;> rfl
  unfold drainByte drainAt
  cases hk : e.k with
  | true =>
    simp only [if_true]
    rw [← hb, ← hs, ← writeSpm_spm]
    split <;> rfl
  | false =>
    simp only [Bool.false_eq_true, if_false]
    rw [← writeSpm_spm]
    split <;> rfl

theorem numbered_spmAddr (a : Nat) (bs : List Byte) (h : a + bs.length ≤ 65536) :
    ((numbered a bs).map fun b => (spmAddr b.1, b.2)) = numbered a bs := by
  refine (List.map_congr_left fun b hb => ?_).trans (List.map_id _)
  have := numbered_fst_ge hb
  exact Prod.ext (Nat.mod_eq_of_lt (by omega)) rfl

/-- The one drain that is due writes its bytes where it has them, inside the scratchpad. -/
theorem Tile.drainPort_spm (x : Tile) (now : Nat) (e : Drain) (h : x.drains = [e]) (hn : e.tick ≤ now)
    (hz : x.drainAt e + e.data.length ≤ 65536) : (x.drainPort now).spm = x.spm.writeN (x.drainAt e) e.data := by
  have due : (x.drains.filter fun d => decide (d.tick ≤ now)) = [e] := by
    rw [h]; exact List.filter_cons_of_pos (decide_eq_true hn)
  have hd : x.drainPort now = { x with drains := x.drains.filter fun d => decide (now < d.tick) }.drainByte e := by
    unfold drainPort
    rw [due]
    rfl
  rw [hd]
  exact (drainByte_spm { x with drains := x.drains.filter fun d => decide (now < d.tick) } e).trans
    (congrArg x.spm.writeAll (numbered_spmAddr _ _ hz))

/-! ### Commits that fall due (R183) -/

theorem AccRow.settle_one (a : AccRow) (f : AccPend → Bool) (p : AccPend) (h : a.pend = [p]) :
    a.settle f = if f p = true then { a with pend := [] }.apply p else a := by
  have hp : ({ a with pend := [p] } : AccRow) = a := by rw [← h]
  unfold AccRow.settle
  cases hf : f p with
  | true => simp [h, hf, dueOrder, sortBy, insertBy]
  | false => simpa [h, hf, dueOrder, sortBy] using hp

/-- While the owner runs, the commits that its task tick has reached settle. -/
theorem Tile.settleAcm_row (x : Tile) (now : Nat) (row : Fin 64) (hu : x.upsets = []) (ho : x.ownV = true)
    (ha : (x.ctx x.own).st = .active) :
    (x.settleAcm now).acm[row] = x.acm[row].settle fun p => decide (p.due ≤ (x.ctx x.own).tt) := by
  have he : (!x.ownV || (x.ctx x.own).st == .halted || (x.ctx x.own).st == .free) = false := by rw [ho, ha]; rfl
  unfold settleAcm commitAcm
  simp only [he, hu, List.isEmpty_nil, if_true, Bool.false_eq_true, if_false, Fin.getElem_fin, Vector.getElem_ofFn]

end Sys2Proof.Machine

/-! The matrix engine (R86 to R88, R183, R245 to R266): its formats, and O29. -/

namespace Sys2Proof.Machine

/-! ### Formats (R246, R261) -/

/-- Significand bits of a float format (R246). -/
theorem sigBits_eq (f : Nat) :
    sigBits f = if f = 6 then 8 else if f = 7 then 11 else if f = 8 ∨ f = 11 then 4 else if f = 9 ∨ f = 10 then 3 else 2 := by
  unfold sigBits
  split <;> simp_all

theorem passCost_eq (p : Word) (h : precRow p = 0) :
    passCost p = if pFmtA p ≤ 3 then wsA p * wsB p else if pFmtA p = 13 then wsA p * wsB p + 2
      else sigBits (pFmtA p) * sigBits (pFmtB p) + 4 := by
  obtain ⟨-, -, -, hgroup, -, -, -⟩ := precRow_ok p h
  unfold passCost
  by_cases hg : isGrouped (pFmtB p) = true
  · rw [if_pos hg, if_pos (le_trans (hgroup hg) (by decide))]
  · rw [if_neg hg]
    simp only [isInt, decide_eq_true_eq]

theorem imageSize_eq (p : Word) : imageSize p = (if pFmtB p = 13 then 512 else 0) + 1024 * wsB p := by
  unfold imageSize
  split
  · rfl
  · rw [Nat.zero_add]

/-- In an FP32 pass both operands are floats, or B is grouped (R83, R84). -/
theorem float_operands (p : Word) (h : precRow p = 0) (hm : pAM p = 1) :
    (6 ≤ pFmtA p ∨ isGrouped (pFmtB p) = true) ∧ (6 ≤ pFmtB p ∨ isGrouped (pFmtB p) = true) := by
  obtain ⟨-, -, hA, -, hint, -, hB⟩ := precRow_ok p h
  have hB := hB hm
  by_cases hg : isGrouped (pFmtB p) = true
  · exact ⟨.inr hg, .inr hg⟩
  · have hAB := hint (Bool.eq_false_iff.2 hg)
    rw [hB] at hAB
    simp only [isInt, isGrouped, decide_eq_false_iff_not, Bool.or_eq_true, Bool.or_eq_false_iff, beq_iff_eq, beq_eq_false_iff_ne] at hA hB hAB hg
    omega

/-- An entry of a pass by the rule of its arithmetic (R87, R261). -/
theorem passRow_entry (p decay : Word) (ctl : AccCtl) (q : Nat → Row) (img : AccRow) (cols : BitVec 128) (a : List (Nat × Nat))
    (colB : Fin 128 → List (Nat × Nat)) (n : Fin 128) (h : precRow p = 0) :
    let out := (passRow p ctl decay q img cols a colB).row
    (pAM p ≠ 1 → intEntry p ctl decay img out (cols.getLsbD n.val) a (colB n) n) ∧
    (pAM p = 1 → floatEntry p ctl decay q img out (cols.getLsbD n.val) a (colB n) n) := by
  refine ⟨fun hm => ?_, fun hm => ?_⟩
  · rw [passRow, if_neg hm]
    exact intRow_entry p ctl decay img cols a colB n
  · obtain ⟨hA, hB⟩ := float_operands p h hm
    rw [passRow, if_pos hm]
    exact floatRow_entry p ctl decay q img cols a colB n hA hB

/-- A drained row is its entries' bytes in order (R94). -/
theorem drainRow_entries (rm : RMode) (img : AccRow) (fmt : DrainFmt) : ∃ out : Fin 128 → List Byte,
    (drainRow fmt rm img).1 = (List.finRange 128).flatMap out ∧ ∀ k : Fin 128, drained fmt rm img img.entries[k] (out k) := by
  refine ⟨fun k => (drainEntry fmt rm img img.entries[k]).1, ?_, fun k => drainEntry_drained fmt rm img _⟩
  have hl : img.entries.toList = (List.finRange 128).map fun k => img.entries[k] :=
    List.ext_getElem (by simp) fun i h1 h2 => by simp
  show (img.entries.toList.map (drainEntry fmt rm img)).flatMap Prod.fst = _
  rw [hl, List.map_map, List.flatMap_map]
  rfl

/-! ### The obligation -/

/-- A WLD, MMA, ACLR or ASCL that starts: the run that occupies the array (R246, R249, R261, R264, R265). -/
theorem execMxuStart_run {s : State} {t : TileId} {c : MxCmd} (hh : (s.tile t).mxHead s.now = some c) (hu : (s.tile t).upsets = [])
    (he : (s.tile t).arrayEvent t s.now = some (.mxuStart t)) (hc : (s.tile t).startCause c = none) : let x := s.tile t
    ∃ s' r, execMxuStart t s = .next s' ∧ (s'.tile t).mxRun = some r ∧ r.id = c.id ∧ r.start = s.now ∧
      (∀ dl rg h ctl wp ta dec q0 q1, c.op = .mma dl rg h ctl wp ta dec q0 q1 →
        r.leave = s.now + max 1 ((selected x.rowp h).length * passCost x.prec)) ∧
      (∀ dl rg wp ta, c.op = .wld dl rg wp ta → r.leave = s.now + imageSize x.prec / 128) ∧
      (∀ dl rg, c.op.timed = some (dl, rg) → r.entries = c.op.needs x.prec x.rings[rg].z ∧
        (s'.tile t).rings[rg].claimed = x.rings[rg].claimed + r.entries ∧ r.prec = x.prec ∧ r.colp = x.colp ∧
        r.bytes = x.readSpm (x.rings[rg].claimSpan r.entries)) ∧
      (c.op.timed = none → r.leave = s.now + (c.op.rows x.rowp).length) := by
  intro x
  obtain ⟨s', hs, timed, range⟩ := execMxuStart_starts hh hu he hc
  cases hop : c.op.timed with
  | none =>
    obtain ⟨r, hr, hid, hst, hl⟩ := x.startRange_run s.now c
    refine ⟨s', r, hs, (range hop).symm ▸ hr, hid, hst, ?_, ?_, ?_, fun _ => hl⟩
    · intro dl rg h ctl wp ta dec q0 q1 h; rw [h] at hop; cases hop
    · intro dl rg wp ta h; rw [h] at hop; cases hop
    · intro dl rg h; cases h
  | some e =>
    obtain ⟨dl, rg⟩ := e
    obtain ⟨r, hr, hid, hst, hp, hcol, hen, hby, hcl, hwld, hmma⟩ := x.startTimed_run s.now c rg hu
    have ht := timed dl rg hop
    refine ⟨s', r, hs, ht.symm ▸ hr, hid, hst, hmma, hwld, ?_, nofun⟩
    intro dl' rg' h
    obtain rfl : rg = rg' := (Prod.mk.inj (Option.some.inj h)).2
    exact ⟨hen, ht.symm ▸ hcl, hp, hcol, hby⟩

/-- Settles O29: each event of the array by the lemma about its operation, each row by that of its arithmetic. -/
theorem matrixEngineActs : Obligations.MatrixEngineActs := by
  unfold Obligations.MatrixEngineActs
  refine ⟨?head, ?start, ?retire, ?rows, ?port, ?settle, ?formats,
    fun p decay ctl q img cols a colB n h => passRow_entry p decay ctl q img cols a colB n h,
    fun rm img q n fmt => ⟨scaleRow_entry rm img q n, drainRow_entries rm img fmt⟩⟩
  case head =>
    intro s t c x hh hn hu hc
    obtain ⟨s', hs, ht⟩ := execMxuCommandHead_takes hh hu hn hc
    refine ⟨s', hs, ?_⟩
    rw [ht]
    exact ⟨x.headTaken_prec s.now c, x.headTaken_pmaskRow s.now c, x.headTaken_pmaskCol s.now c,
      fun h => by rw [x.headTaken_wswap s.now c h]; exact ⟨rfl, rfl⟩, x.headTaken_leaves s.now c,
      x.headTaken_timed s.now c (Tile.mem_mxq_of_mxHead hh)⟩
  case start =>
    intro s t c x hh ha hu
    refine ⟨fun he hc => ?_, fun f n dst k fmt hop hd => execAdrnStart_starts hh ha f n dst k fmt hop hd⟩
    obtain ⟨s', r, hs, hr, hid, hst, hmma, hwld, htimed, hrange⟩ := execMxuStart_run hh hu he hc
    refine ⟨s', r, hs, hr, hid, hst, hmma, hwld, fun dl rg h => ?_, fun f n h => ?_, fun f n q h => ?_⟩
    · obtain ⟨hen, hcl, hp, hcol, hby⟩ := htimed dl rg h
      refine ⟨fun d h ctl wp ta dec q0 q1 hop => ?_, fun d wp ta hop => ?_, hcl, hp, hcol, fun i j hi hj => ?_⟩
      · rw [hen, hop]; rfl
      · rw [hen, hop]; rfl
      · rw [hby]; exact x.readSpm_claimSpan hu x.rings[rg] r.entries i j hi hj
    · rw [hrange (by rw [h]; rfl), h]; exact congrArg _ (rowRange_length f n)
    · rw [hrange (by rw [h]; rfl), h]; exact congrArg _ (rowRange_length f n)
  case retire =>
    intro s t r c q hr hq hl
    obtain ⟨s', hs, ht⟩ := execMxuRetire_finishes hr hq hl
    refine ⟨s', hs, ?_⟩
    rw [ht]
    refine ⟨Tile.mxFinish_mxRun .., Tile.mxFinish_mxq_ne _ _ _ _, Tile.mxFinish_live _ _ _ _, fun dl rg h => ?_, fun dl rg wp ta h => ?_,
      Tile.mxFinish_commit (s.tile t) s.now r c⟩
    · rw [Tile.mxFinish_rings, Tile.finishOp_ring _ _ _ dl rg h]; rfl
    · rw [Tile.mxFinish_wp, Tile.finishOp_wp _ _ _ dl rg wp ta h]
      exact ⟨vset_self .., fun k hk => vset_ne _ _ hk⟩
  case rows =>
    intro x now r c q k row y hr hq ht hu
    exact ⟨Tile.arrayRows_mma hr hq ht hu, Tile.arrayRows_aclr hr hq ht, Tile.arrayRows_ascl hr hq ht, Tile.arrayRows_adrn hr hq ht⟩
  case port =>
    intro x now e hd hn hw at_ hz
    rw [x.drainPort_spm now e hd hn hz]
    refine ⟨fun i hi => ?_, fun a ha => Memory.read_writeN_out _ _ a hw ha⟩
    rw [List.getD_eq_getElem _ _ hi]
    exact Memory.read_writeN_in _ _ i hw hi
  case settle =>
    intro x now row p hu hp ho ha y
    have hy : y = _ := (x.settleAcm_row now row hu ho ha).trans (AccRow.settle_one _ _ p hp)
    refine ⟨fun h => ?_, fun h => ?_⟩
    · rw [hy, if_neg (by simpa using h)]
    · rw [hy, if_pos (decide_eq_true h)]
      exact ⟨rfl, rfl, rfl, fun n => by simp only [AccRow.apply, Fin.getElem_fin, Vector.getElem_ofFn]⟩
  case formats =>
    intro p h sig
    refine ⟨?_, imageSize_eq p, fun ta bs => ⟨fun k n i hi => loadPlane_bit p ta bs k n i hi, loadPlane_exp p ta bs,
      fun z j k i hk => elemA_bit p ta z bs j k i hk⟩⟩
    rw [passCost_eq p h, sigBits_eq, sigBits_eq]

end Sys2Proof.Machine

/-! Traps and faults (R111, R156 to R158, O11); the state after reset (O58). -/

namespace Sys2Proof.Machine

/-! ### Traps and faults -/

theorem Context.canTrap_iff (c : Context) : c.canTrap = true ↔ c.it = false ∧ c.trapv ≠ 0 := by
  simp [Context.canTrap]

theorem Context.canTrap_eq_false_iff (c : Context) : c.canTrap = false ↔ c.it = true ∨ c.trapv = 0 := by
  simp [Context.canTrap, imp_iff_not_or]

@[simp] theorem Context.setIt_true_it (c : Context) : (c.setIt true).it = true := by simp [Context.setIt, Context.it]

section
variable (s : State) (t : TileId) (c : Fin 4) (cause finfo : Word) (fpc epc : VAddr)

/-- Both outcomes save cause and addresses; a delivery also sets IT, the pc and what concerns transfers, a stop also the context's
state (R156, R158). -/
theorem State.raise_frame : let x := s.ctx t c
    { (s.raise t c cause finfo fpc epc).ctx t c with
      status := x.status, pc := x.pc, st := x.st, pxfr := x.pxfr, xfer := x.xfer, itClear := x.itClear, held := x.held, safe := x.safe } =
      { x with cause := cause, finfo := finfo, fpc := fpc, epc := epc } := by
  rw [State.raise_ctx]
  split <;> rfl

variable {s t c}

theorem State.raise_delivered (hi : (s.ctx t c).it = false) (hv : (s.ctx t c).trapv ≠ 0) :
    (s.raise t c cause finfo fpc epc).ctx t c = (s.ctx t c).enterTrap cause finfo fpc epc := by
  rw [State.raise_ctx, if_pos ((Context.canTrap_iff _).2 ⟨hi, hv⟩)]

variable (h : (s.ctx t c).it = true ∨ (s.ctx t c).trapv = 0)
include h

theorem State.raise_stopped :
    (s.raise t c cause finfo fpc epc).ctx t c = (s.ctx t c).stopWith cause finfo fpc epc := by
  rw [State.raise_ctx, (Context.canTrap_eq_false_iff _).2 h, if_neg Bool.false_ne_true]

/-- The fault of a context that stops goes to the queen core (R158). -/
theorem State.raise_stopped_agenda :
    (s.raise t c cause finfo fpc epc).agenda = .ev (.faultRecord t c) :: s.agenda := by
  have hc : (s.modTile t fun x => x.closeLock c s.now).ctx t c = s.ctx t c := by
    rw [State.ctx_modTile, Tile.closeLock_ctx]; rfl
  simp only [State.raise, hc, (Context.canTrap_eq_false_iff _).2 h]
  rfl

end

/-- The cause that TRAP raises: code 11, precise, in slot 0, with its operand (R111, R156). -/
theorem trapCause_word (code : BitVec 16) :
    (⟨cTrap, 0, code.toNat, 0⟩ : Cause).word true false = BitVec.ofNat 32 (11 + 2 ^ 8 + code.toNat * 2 ^ 16) := by
  have := code.isLt
  refine congrArg (BitVec.ofNat 32) ?_
  show 11 % 256 + 256 * 1 + 512 * (0 % 8) + 4096 * 0 + 65536 * (code.toNat % 65536) = _
  omega

theorem exec_trap (s : State) (code : BitVec 16) : exec (.trap code) s = .next (s.raise s.cur.tile s.cur.ctx
    (BitVec.ofNat 32 (11 + 2 ^ 8 + code.toNat * 2 ^ 16)) 0 s.cur.pc s.curCtx.pc) := by
  rw [← trapCause_word]
  unfold exec
  rfl

/-- Settles O11: TRAP and a fault both arise through `State.raise`, which delivers the cause or stops the context. -/
theorem trapsAndFaultsEnter : Obligations.TrapsAndFaultsEnter := by
  unfold Obligations.TrapsAndFaultsEnter
  refine ⟨fun s code => ?trap, fun s t c cause finfo fpc epc => ?fault⟩
  case trap =>
    intro c
    refine ⟨_, exec_trap s code, ?_⟩
    rw [State.curCtx, (State.SlotFrame.raise ..).cur]
    have hf := s.raise_frame s.cur.tile s.cur.ctx (BitVec.ofNat 32 (11 + 2 ^ 8 + code.toNat * 2 ^ 16)) 0 s.cur.pc s.curCtx.pc
    refine ⟨(congrArg Context.cause hf :), (congrArg Context.finfo hf :), (congrArg Context.fpc hf :), (congrArg Context.epc hf :),
      (congrArg Context.s hf :), (congrArg Context.pend hf :), fun ⟨hi, hv⟩ => ?_, fun h => ?_⟩
    · rw [State.raise_delivered _ _ _ _ hi hv]
      exact ⟨rfl, Context.setIt_true_it _, rfl⟩
    · rw [State.raise_stopped _ _ _ _ h, State.raise_stopped_agenda _ _ _ _ h]
      exact ⟨rfl, rfl⟩
  case fault =>
    intro x y
    have hf := s.raise_frame t c cause finfo fpc epc
    refine ⟨(congrArg Context.cause hf :), (congrArg Context.finfo hf :), (congrArg Context.fpc hf :), (congrArg Context.epc hf :),
      (congrArg Context.s hf :), (congrArg Context.a hf :), (congrArg Context.v hf :), (congrArg Context.m hf :),
      (congrArg Context.p hf :), (congrArg Context.stack hf :), (congrArg Context.pend hf :), (congrArg Context.tt hf :),
      fun hi hv => ?_, fun h => ?_⟩
    · rw [show y = _ from State.raise_delivered _ _ _ _ hi hv]
      exact ⟨Context.setIt_true_it _, rfl, rfl⟩
    · rw [show y = _ from State.raise_stopped _ _ _ _ h]
      exact ⟨rfl, rfl⟩

/-! ### The state after reset (R101, R348, R404) -/

theorem State.reset_tile (t : TileId) : State.reset.tile t = Tile.reset := rfl

theorem State.reset_ctx (t : TileId) (c : Fin 4) : State.reset.ctx t c = Context.reset :=
  Vector.getElem_replicate _

theorem State.reset_port (p : Fin 16) : State.reset.port p = Port.reset :=
  Vector.getElem_replicate _

/-- Settles O58: each item as the reset values of the state, a tile, a context and a port give it. -/
theorem resetState : Obligations.ResetState := by
  unfold Obligations.ResetState
  refine ⟨rfl, rfl, rfl, rfl, fun _ => rfl, fun _ => ⟨rfl, rfl⟩, fun _ => rfl, fun p k => ?psem, fun t c => ?ctx, fun t a => ?spm⟩
  case psem =>
    rw [State.reset_port]
    exact Vector.getElem_replicate _
  case ctx =>
    rw [State.reset_ctx]
    exact ⟨rfl, rfl⟩
  case spm =>
    rw [State.reset_tile]
    rfl

end Sys2Proof.Machine

/-! Reads of the CSRs (R107 to R116, R171, O14). -/

namespace Sys2Proof.Machine

/-! ### Bits and numbers -/

theorem extractLsb'_eq_ofNat_div {n : Nat} (x : BitVec n) (i k : Nat) : x.extractLsb' i k = BitVec.ofNat k (x.toNat / 2 ^ i) :=
  congrArg (BitVec.ofNat k) (Nat.shiftRight_eq_div_pow ..)

/-- An address or word with its low five bits cleared (R109). -/
theorem toNat_and_not_31 {n : Nat} (hn : 5 ≤ n) (x : BitVec n) : (x &&& ~~~(0x1F : BitVec n)).toNat = x.toNat / 32 * 32 := by
  have h31 (i : Nat) : (0x1F : BitVec n).getLsbD i = decide (i < 5) := by
    show (BitVec.ofNat n (2 ^ 5 - 1)).getLsbD i = _
    rw [BitVec.getLsbD_ofNat, Nat.testBit_two_pow_sub_one, Bool.and_eq_right_iff_imp]
    simpa using fun h => Nat.lt_of_lt_of_le h hn
  have hx : x.toNat / 32 * 32 = x.toNat >>> 5 <<< 5 := by rw [Nat.shiftRight_eq_div_pow, Nat.shiftLeft_eq]
  refine Nat.eq_of_testBit_eq fun i => ?_
  rw [hx, Nat.testBit_shiftLeft, Nat.testBit_shiftRight, BitVec.testBit_toNat, BitVec.testBit_toNat, BitVec.getLsbD_and, BitVec.getLsbD_not, h31]
  by_cases h5 : 5 ≤ i
  · rw [Nat.add_sub_cancel' h5]
    simpa [h5, Nat.not_lt.2 h5] using BitVec.lt_of_getLsbD
  · simp [h5, Nat.lt_of_not_le h5]

theorem countOnes_eq_testBit (n v : Nat) : countOnes n v = ((List.range n).filter fun i => v.testBit i).length := by
  simp only [countOnes, Nat.testBit_eq_decide_div_mod_eq, beq_eq_decide]

/-! ### What a CSRR leaves (R108, R171) -/

theorem exec_csrr (s : State) (d : Fin 32) (c : Csr) :
    exec (.csrr d c) s = .next ((s.capture c).result 1 (.s d (s.csrValue c))) := by
  unfold exec; rfl

section
variable {s : State} {c l : Csr}

theorem State.capture_wide {v : BitVec 64} (hw : s.wide c = some v) :
    s.capture c = s.modCur fun x => { x with caps := ⟨c, v⟩ :: x.caps.filter fun k => k.low != c } := by
  simp only [State.capture, hw]

theorem exec_csrr_wide {v : BitVec 64} (d : Fin 32) (hw : s.wide c = some v) :
    exec (.csrr d c) s = .next ((s.capture c).result 1 (.s d (BitVec.ofNat 32 v.toNat))) := by
  rw [exec_csrr, BitVec.ofNat_toNat]
  simp only [State.csrValue, hw]

variable (hw : s.wide c = none)
include hw

/-- Only a low half makes a capture. -/
theorem exec_csrr_narrow (d : Fin 32) : exec (.csrr d c) s = .next (s.result 1 (.s d (s.csrValue c))) := by
  rw [exec_csrr]
  simp only [State.capture, hw]

theorem State.csrValue_plain (hl : csrLow c = none) : s.csrValue c = s.plainCsr c := by
  simp only [State.csrValue, hw, hl]

theorem State.csrValue_captured {k : Capture} (hl : csrLow c = some l) (hk : (s.curCtx.caps.find? fun k => k.low == l) = some k) :
    s.csrValue c = BitVec.ofNat 32 (k.val.toNat / 2 ^ 32) := by
  simp only [State.csrValue, hw, hl, hk, extractLsb'_eq_ofNat_div]

theorem State.csrValue_uncaptured {v : BitVec 64} (hl : csrLow c = some l) (hk : (s.curCtx.caps.find? fun k => k.low == l) = none)
    (hv : s.wide l = some v) : s.csrValue c = BitVec.ofNat 32 (v.toNat / 2 ^ 32) := by
  simp only [State.csrValue, hw, hl, hk, hv, Option.getD_some, extractLsb'_eq_ofNat_div]

end

/-! ### The precision and mask registers where no matrix command is queued (R107) -/

theorem Tile.performStacc_frame (t : Tile) (p : PendStacc) : { t.performStacc p with acm := t.acm, upsets := t.upsets } = t :=
  congrArg (fun x : Tile => { x with acm := t.acm, upsets := t.upsets }) (Tile.clearUpsets_frame ..)

theorem Tile.foldl_performStacc_frame (ps : List PendStacc) (t : Tile) :
    { ps.foldl Tile.performStacc t with acm := t.acm, upsets := t.upsets } = t := by
  induction ps generalizing t with
  | nil => rfl
  | cons p ps ih =>
    exact (congrArg (fun x : Tile => { x with acm := t.acm, upsets := t.upsets }) (ih (t.performStacc p))).trans (t.performStacc_frame p)

/-- The row writes of STACC change accumulator rows and their upset words only. -/
theorem Tile.performStaccs_frame (t : Tile) (now : Nat) :
    { t.performStaccs now with staccs := t.staccs, acm := t.acm, upsets := t.upsets } = t :=
  congrArg (fun x : Tile => { x with staccs := t.staccs })
    (Tile.foldl_performStacc_frame _ { t with staccs := t.staccs.filter fun p => now < p.tick })

section
variable {x : Tile}

theorem Tile.settleMxGuards_nil (sel : MxCmd → Bool) (hq : x.mxq = []) : x.settleMxGuards sel = x := by
  simp [Tile.settleMxGuards, hq]

theorem Tile.drainWait_idle (now : Nat) (hr : x.mxRun = none) : x.drainWait now = x := by
  simp only [Tile.drainWait, hr]

theorem Tile.arrayEvent_idle (id : TileId) (now : Nat) (hq : x.mxq = []) (hr : x.mxRun = none) : x.arrayEvent id now = none := by
  simp only [Tile.arrayEvent, Tile.mxHead, hr, hq]

end

theorem State.arrayAhead_idle {s : State} (n : Nat) (h : s.curTile.arrayEvent s.cur.tile s.now = none) : s.arrayAhead n = s := by
  cases n with
  | zero => rfl
  | succ n => simp only [State.arrayAhead, h]

theorem State.headTile_idle {s : State} (hq : s.curTile.mxq = []) (hr : s.curTile.mxRun = none) :
    s.headTile = s.curTile.performStaccs s.now := by
  have hf := s.curTile.performStaccs_frame s.now
  have hq' : (s.curTile.performStaccs s.now).mxq = [] := (congrArg Tile.mxq hf).trans hq
  have hr' : (s.curTile.performStaccs s.now).mxRun = none := (congrArg Tile.mxRun hf).trans hr
  unfold State.headTile
  rw [State.arrayAhead_idle _ (by
    rw [State.curTile_modCurTile, Tile.settleMxGuards_nil _ hq, Tile.drainWait_idle _ hr']
    exact Tile.arrayEvent_idle _ _ hq' hr')]
  rw [State.curTile_modCurTile, Tile.settleMxGuards_nil _ hq, Tile.drainWait_idle _ hr']

/-- With no matrix command queued or running a CSRR reads the registers of the tile as they stand. -/
theorem State.headTile_masks {s : State} (hq : s.curTile.mxq = []) (hr : s.curTile.mxRun = none) :
    s.headTile.prec = s.curTile.prec ∧ s.headTile.rowp = s.curTile.rowp ∧ s.headTile.colp = s.curTile.colp := by
  have hf := s.curTile.performStaccs_frame s.now
  rw [State.headTile_idle hq hr]
  exact ⟨(congrArg Tile.prec hf :), (congrArg Tile.rowp hf :), (congrArg Tile.colp hf :)⟩

/-! ### The obligation -/

/-- EPC and TRAPV read with [4:0] zero (R109). -/
theorem alignedItem_eq (x : VAddr) : (x &&& ~~~0x1F).setWidth 64 = BitVec.ofNat 64 (x.toNat / 32 * 32) := by
  rw [← BitVec.ofNat_toNat, toNat_and_not_31 (by decide)]

/-- Settles O14: a CSRR by whether its CSR is plain, a low half or a high half; then each register's own value. -/
theorem csrReads : Obligations.CsrReads := by
  unfold Obligations.CsrReads
  intro s d c
  refine ⟨fun hw hl => ?plain, fun v hw => ?low, fun l k hw hl hk => ?captured, fun l v hw hl hk hv => ?uncaptured, ?values, ?items⟩
  case plain => rw [exec_csrr_narrow hw, State.csrValue_plain hw hl]
  case low =>
    refine ⟨s.capture c, exec_csrr_wide d hw, ?_⟩
    rw [State.capture_wide hw, State.curCtx_modCur]
    exact ⟨List.find?_cons_of_pos (beq_self_eq_true c), rfl⟩
  case captured => rw [exec_csrr_narrow hw, State.csrValue_captured hw hl hk]
  case uncaptured => rw [exec_csrr_narrow hw, State.csrValue_uncaptured hw hl hk hv]
  case values =>
    intro x t reads pair ones
    have plain (c : Csr) {v : Word} (hw : s.wide c = none) (hl : csrLow c = none) (hv : s.plainCsr c = v) : reads c v :=
      ⟨hw, hl, by rw [exec_csrr_narrow hw, State.csrValue_plain hw hl, hv]⟩
    have hcfg : s.plainCsr .cfg =
        BitVec.ofNat 32 (ones 64 s.fuses.stkmap.toNat + 256 * ones 16 s.fuses.portmap.toNat + 65536 * s.fuses.bin.toNat) := by
      show s.fuses.cfg = _
      simp only [Fuses.cfg, countOnes_eq_testBit, ones]
    refine ⟨plain .status rfl rfl rfl, plain .round rfl rfl rfl, plain .cause rfl rfl rfl, plain .finfo rfl rfl rfl,
      plain .rundecl rfl rfl rfl, plain .ovrcnt rfl rfl rfl, plain .walker rfl rfl rfl, plain .launch rfl rfl rfl,
      plain .lorg rfl rfl rfl, plain .lext rfl rfl rfl, plain .rank rfl rfl rfl, plain .txy rfl rfl rfl, plain .mxown rfl rfl rfl,
      plain .decay rfl rfl rfl, plain .grid rfl rfl rfl, plain .cfg rfl rfl hcfg, plain .portmap rfl rfl rfl,
      fun i => plain (.err i) rfl rfl rfl, fun i => plain (.pmc i) rfl rfl rfl, fun i => plain (.pmsel i) rfl rfl rfl, fun hq hr => ?_⟩
    obtain ⟨hp, hrow, hcol⟩ := State.headTile_masks hq hr
    exact ⟨plain .precv rfl rfl hp, congrArg some hrow, fun i => plain (.colp i) rfl rfl (congrArg (BitVec.extractLsb' (32 * i.val) 32) hcol)⟩
  case items =>
    intro x item
    have whole (l h : Csr) {v : Nat} {w : BitVec 64} (hl : s.wide l = some w) (hw : w = BitVec.ofNat 64 v) (hh : s.wide h = none)
        (hlow : csrLow h = some l) : item l h v := ⟨hl.trans (congrArg some hw), hh, hlow⟩
    exact ⟨whole .fpcl .fpch rfl (BitVec.ofNat_toNat ..).symm rfl rfl, whole .epcl .epch rfl (alignedItem_eq _) rfl rfl,
      whole .trapvl .trapvh rfl (alignedItem_eq _) rfl rfl, whole .ttickl .ttickh rfl rfl rfl rfl,
      whole .hbasel .hbaseh rfl (BitVec.ofNat_toNat ..).symm rfl rfl, whole .hlimitl .hlimith rfl (BitVec.ofNat_toNat ..).symm rfl rfl,
      whole .hoffsetl .hoffseth rfl (BitVec.ofNat_toNat ..).symm rfl rfl, whole .ctimel .ctimeh rfl rfl rfl rfl,
      whole .stkmapl .stkmaph rfl (eq_ofNat_of_toNat_eq rfl) rfl rfl, rfl, rfl⟩

end Sys2Proof.Machine

/-! Writes of the CSRs and the release of the array (R108 to R116, R157, R171, O15). -/

namespace Sys2Proof.Machine

/-! ### The three writes -/

/-- The instruction of each kind of CSR write. -/
def CsrWrite.instr (k : CsrWrite) (r : Fin 32) : Csr → Instr :=
  match k with
  | .w => .csrw r
  | .set => .csrset r
  | .clr => .csrclr r

theorem exec_csrWrite (k : CsrWrite) (r : Fin 32) (c : Csr) (s : State) : exec (k.instr r c) s = .next (s.csrWrite k c (s.rs r)) := by
  cases k <;> rfl

theorem CsrWrite.instr_eq_csrw_iff (k : CsrWrite) (r : Fin 32) : k.instr r = .csrw r ↔ k = .w := by
  constructor
  · intro h
    have h := congrFun h .status
    cases k
    case w => rfl
    all_goals cases h
  · rintro rfl; rfl

/-- A write that names a read-only CSR does not decode (R63, R109). -/
theorem decodeCtl_csrWrite_readOnly (k : CsrWrite) (r : Fin 32) {c : Csr} (h : c.readOnly = true) :
    decodeCtl (encode (k.instr r c)) = none := by
  have hc := c.code_lt
  have hs (op : Nat) : fld (layCtl op (r.val * 2 ^ 20 + c.code)) 0 12 = c.code := by unfold fld layCtl; omega
  have hn (i : Instr) : req (csrOk c) i = none := by simp [req, csrOk, h]
  cases k
  all_goals
    show decodeCtl (layCtl _ (r.val * 2 ^ 20 + c.code)) = none
    simp (disch := omega) only [decodeCtl, fld_layCtl_op, hs, Csr.ofCode_code, Option.bind_some, hn, ite_self]

/-! ### Halves of a 48-bit item (R109) -/

theorem lowHalf_eq (k : CsrWrite) (old : VAddr) (v : Word) : lowHalf k old v =
    BitVec.ofNat 48 (old.toNat / 2 ^ 32 * 2 ^ 32 + (k.apply (BitVec.ofNat 32 old.toNat) v).toNat / 32 * 32) := by
  have := old.isLt
  refine eq_ofNat_of_toNat_eq ?_
  unfold lowHalf
  rw [toNat_append_eq, toNat_and_not_31 (by decide), extractLsb'_eq_ofNat_div, BitVec.toNat_ofNat, ← BitVec.ofNat_toNat]
  omega

theorem highHalf_eq (k : CsrWrite) (old : VAddr) (v : Word) : highHalf k old v =
    BitVec.ofNat 48 ((k.apply (BitVec.ofNat 32 (old.toNat / 2 ^ 32)) v).toNat % 2 ^ 16 * 2 ^ 32 + old.toNat % 2 ^ 32) := by
  have h16 : (old.extractLsb' 32 16).setWidth 32 = BitVec.ofNat 32 (old.toNat / 2 ^ 32) := by
    have := old.isLt
    rw [extractLsb'_eq_ofNat_div, ← BitVec.ofNat_toNat, BitVec.toNat_ofNat, Nat.mod_eq_of_lt (by omega)]
  refine eq_ofNat_of_toNat_eq ?_
  unfold highHalf
  rw [toNat_append_eq, BitVec.toNat_setWidth, BitVec.toNat_setWidth, h16, Nat.add_comm]

/-! ### Single registers -/

section
variable (s : State) (k : CsrWrite) (v : Word)

theorem State.csrWrite_trapvl : s.csrWrite k .trapvl v = s.modCur fun x => { x with
    trapv := BitVec.ofNat 48 (x.trapv.toNat / 2 ^ 32 * 2 ^ 32 + (k.apply (BitVec.ofNat 32 x.trapv.toNat) v).toNat / 32 * 32) } := by
  simp only [State.csrWrite, lowHalf_eq]

theorem State.csrWrite_trapvh : s.csrWrite k .trapvh v = s.modCur fun x => { x with
    trapv := BitVec.ofNat 48 ((k.apply (BitVec.ofNat 32 (x.trapv.toNat / 2 ^ 32)) v).toNat % 2 ^ 16 * 2 ^ 32 + x.trapv.toNat % 2 ^ 32) } := by
  simp only [State.csrWrite, highHalf_eq]

theorem State.csrWrite_epch : s.csrWrite k .epch v = s.modCur fun x => { x with
    epc := BitVec.ofNat 48 ((k.apply (BitVec.ofNat 32 (x.epc.toNat / 2 ^ 32)) v).toNat % 2 ^ 16 * 2 ^ 32 + x.epc.toNat % 2 ^ 32) } := by
  simp only [State.csrWrite, highHalf_eq]

/-- A CSRW of EPCL drops the transfer that ERET would resume (R157). -/
theorem State.csrWrite_epcl : s.csrWrite k .epcl v = s.modCur fun x => { x with
    epc := BitVec.ofNat 48 (x.epc.toNat / 2 ^ 32 * 2 ^ 32 + (k.apply (BitVec.ofNat 32 x.epc.toNat) v).toNat / 32 * 32),
    pxfr := if k = .w then none else x.pxfr } := by
  simp only [State.csrWrite, lowHalf_eq]

/-- A write of a counter starts from its value at the end of the previous tick (R171). -/
theorem State.csrWrite_err (i : Fin 10) : let t := s.csrWrite k (.err i) v
    t.curTile.err[i] = k.apply s.curTile.errPrev[i] v ∧ (∀ j, j ≠ i → t.curTile.err[j] = s.curTile.err[j]) ∧ t.curCtx = s.curCtx := by
  intro t
  have ht : t.curTile = _ := s.curTile_modCurTile _
  rw [ht]
  exact ⟨vset_self .., fun j hj => vset_ne _ _ hj, s.curCtx_modCurTile _⟩

theorem State.csrWrite_pmc (i : Fin 8) : let t := s.csrWrite k (.pmc i) v
    t.curTile.pmc[i] = k.apply s.curTile.pmcPrev[i] v ∧ (∀ j, j ≠ i → t.curTile.pmc[j] = s.curTile.pmc[j]) ∧ t.curCtx = s.curCtx := by
  intro t
  have ht : t.curTile = _ := s.curTile_modCurTile _
  rw [ht]
  exact ⟨vset_self .., fun j hj => vset_ne _ _ hj, s.curCtx_modCurTile _⟩

theorem State.csrWrite_pmsel (i : Fin 8) : let t := s.csrWrite k (.pmsel i) v
    t.curTile.pmsel[i] = k.apply s.curTile.pmsel[i] v &&& 0xFF ∧ (∀ j, j ≠ i → t.curTile.pmsel[j] = s.curTile.pmsel[j]) ∧
      t.curCtx = s.curCtx := by
  intro t
  have ht : t.curTile = _ := s.curTile_modCurTile _
  rw [ht]
  exact ⟨vset_self .., fun j hj => vset_ne _ _ hj, s.curCtx_modCurTile _⟩

/-! ### The release of the array (R114) -/

/-- The owner's CSRCLR of MXOWN bit 2 asks for the release. -/
theorem State.csrWrite_mxown_asks (hv : s.curTile.ownV = true) (ho : s.curTile.own = s.cur.ctx) (hb : v.getLsbD 2 = true) :
    s.csrWrite .clr .mxown v = s.modCurTile fun t => { t with ownRel := true } :=
  congrArg (s.setTile s.cur.tile) (if_pos ⟨rfl, hb, (Tile.owns_iff _ _).2 ⟨hv, ho⟩⟩)

/-- No other write changes MXOWN. -/
theorem State.csrWrite_mxown_keeps (h : k = .clr → v.getLsbD 2 = false ∨ s.curTile.ownV = false ∨ s.curTile.own ≠ s.cur.ctx) :
    s.csrWrite k .mxown v = s.modCurTile id := by
  refine congrArg (s.setTile s.cur.tile) (if_neg ?_)
  rintro ⟨hk, hb, ho⟩
  obtain ⟨hv, ho⟩ := (Tile.owns_iff _ _).1 ho
  rcases h hk with h | h | h
  · exact Bool.false_ne_true (h.symm.trans hb)
  · exact Bool.false_ne_true (h.symm.trans hv)
  · exact h ho

end

theorem exec_mxownRelease (t : TileId) (s : State) :
    exec (.mxownRelease t) s = .next (s.modTile t fun x => { x with ownV := false, ownRel := false }) := by
  unfold exec; rfl

/-- Settles O15: the three instructions are one write with three ways to combine old and given bits; each register by its row. -/
theorem csrWritesAndRelease : Obligations.CsrWritesAndRelease := by
  unfold Obligations.CsrWritesAndRelease
  refine ⟨?registers, ?status, ?mxown⟩
  case registers =>
    intro s r f op v hf low high
    obtain ⟨k, rfl, rfl⟩ : ∃ k : CsrWrite, f = k.instr r ∧ op = fun old => k.apply old v := by
      rcases hf with h | h | h
      · exact ⟨.w, h⟩
      · exact ⟨.set, h⟩
      · exact ⟨.clr, h⟩
    simp only [exec_csrWrite, CsrWrite.instr_eq_csrw_iff, ne_eq]
    refine ⟨rfl, rfl, ?trapvl, ?trapvh, ?epclW, ?epclOther, ?epch, rfl, fun i => ⟨_, rfl, s.csrWrite_err k v i⟩,
      fun i => ⟨_, rfl, s.csrWrite_pmc k v i⟩, fun i => ⟨_, rfl, s.csrWrite_pmsel k v i⟩, fun c hc => decodeCtl_csrWrite_readOnly k r hc⟩
    case trapvl => rw [State.csrWrite_trapvl]
    case trapvh => rw [State.csrWrite_trapvh]
    case epclW =>
      intro hk
      simp only [State.csrWrite_epcl, if_pos hk]; rfl
    case epclOther =>
      intro hk
      simp only [State.csrWrite_epcl, if_neg hk]; rfl
    case epch => rw [State.csrWrite_epch]
  case status =>
    intro s r v
    exact ⟨exec_csrWrite .w r .status s, exec_csrWrite .set r .status s, exec_csrWrite .clr r .status s⟩
  case mxown =>
    intro s r
    refine ⟨fun hv ho hb => ?asks, fun i hi => ?keeps, fun t => ?release⟩
    case asks => exact (exec_csrWrite .clr r .mxown s).trans (congrArg _ (s.csrWrite_mxown_asks _ hv ho hb))
    case keeps =>
      have keeps (k : CsrWrite) (h : k = .clr → (s.rs r).getLsbD 2 = false ∨ s.curTile.ownV = false ∨ s.curTile.own ≠ s.cur.ctx) :
          exec (k.instr r .mxown) s = .next (s.modCurTile id) :=
        (exec_csrWrite k r .mxown s).trans (congrArg _ (s.csrWrite_mxown_keeps k _ h))
      rcases hi with rfl | rfl | ⟨rfl, h⟩
      · exact keeps .w nofun
      · exact keeps .set nofun
      · exact keeps .clr fun _ => h
    case release =>
      exact ⟨_, exec_mxownRelease t s, s.tile_modTile t _, fun u hu => s.tile_modTile_ne _ hu, rfl⟩

end Sys2Proof.Machine

/-! The scalar slots: the ALU and MUL groups (O2), predicates and selection (O3), constants and address registers (O4). -/

namespace Sys2Proof.Machine

/-! ### Word operations as operations on numbers -/

theorem sub_eq_ofInt {n : Nat} (x y : BitVec n) : x - y = BitVec.ofInt n (x.toNat - y.toNat) := by
  rw [Int.sub_eq_add_neg, BitVec.ofInt_add, BitVec.ofInt_neg, BitVec.ofInt_natCast, BitVec.ofInt_natCast, BitVec.ofNat_toNat,
    BitVec.ofNat_toNat, BitVec.setWidth_eq, BitVec.setWidth_eq, BitVec.sub_eq_add_neg]

theorem mul_eq_ofNat {n : Nat} (x y : BitVec n) : x * y = BitVec.ofNat n (x.toNat * y.toNat) := rfl

theorem shiftLeft_eq_ofNat {n : Nat} (x : BitVec n) (k : Nat) : x <<< k = BitVec.ofNat n (x.toNat * 2 ^ k) :=
  congrArg (BitVec.ofNat n) (Nat.shiftLeft_eq ..)

theorem ushiftRight_eq_ofNat {n : Nat} (x : BitVec n) (k : Nat) : x >>> k = BitVec.ofNat n (x.toNat / 2 ^ k) :=
  eq_ofNat_of_toNat_eq ((BitVec.toNat_ushiftRight x k).trans (Nat.shiftRight_eq_div_pow ..))

theorem sshiftRight_eq_ofInt {n : Nat} (x : BitVec n) (k : Nat) : x.sshiftRight k = BitVec.ofInt n (x.toInt / 2 ^ k) := by
  rw [BitVec.sshiftRight_eq, Int.shiftRight_eq_div_pow, Nat.cast_pow, Nat.cast_ofNat]

theorem extractLsb'_high_ofInt (p : ℤ) : (BitVec.ofInt 64 p).extractLsb' 32 32 = BitVec.ofInt 32 (p / 2 ^ 32) := by
  refine BitVec.eq_of_toNat_eq ?_
  rw [extractLsb'_eq_ofNat_div, BitVec.toNat_ofNat, BitVec.toNat_ofInt, BitVec.toNat_ofInt]
  omega

theorem extractLsb'_high_ofNat (p : Nat) : (BitVec.ofNat 64 p).extractLsb' 32 32 = BitVec.ofNat 32 (p / 2 ^ 32) := by
  rw [← BitVec.ofInt_natCast, extractLsb'_high_ofInt, ← BitVec.ofInt_natCast]
  rfl

theorem ofInt_intKey (ty : VType) (w : Word) : BitVec.ofInt 32 (intKey ty w) = w := by
  unfold intKey
  split
  · rw [BitVec.ofInt_natCast, BitVec.ofNat_toNat, BitVec.setWidth_eq]
  · exact BitVec.ofInt_toInt

theorem intMin_eq_ofInt (ty : VType) (x y : Word) : intMin ty x y = BitVec.ofInt 32 (min (intKey ty x) (intKey ty y)) := by
  rw [intMin_eq, min_comm, min_def_lt, apply_ite (BitVec.ofInt 32), ofInt_intKey, ofInt_intKey]

theorem intMax_eq_ofInt (ty : VType) (x y : Word) : intMax ty x y = BitVec.ofInt 32 (max (intKey ty x) (intKey ty y)) := by
  rw [intMax_eq, max_def_lt, apply_ite (BitVec.ofInt 32), ofInt_intKey, ofInt_intKey]

theorem min32_eq_ofInt (x y : Word) : min32 x y = BitVec.ofInt 32 (min x.toInt y.toInt) :=
  (intMin_eq_ofInt .i32 y x).trans (congrArg (BitVec.ofInt 32) (min_comm ..))

theorem max32_eq_ofInt (x y : Word) : max32 x y = BitVec.ofInt 32 (max x.toInt y.toInt) := intMax_eq_ofInt .i32 x y

theorem minu32_eq_ofNat (x y : Word) : minu32 x y = BitVec.ofNat 32 (min x.toNat y.toNat) := by
  rw [min_comm, ← BitVec.ofInt_natCast, Nat.cast_min]
  exact intMin_eq_ofInt .u32 y x

theorem maxu32_eq_ofNat (x y : Word) : maxu32 x y = BitVec.ofNat 32 (max x.toNat y.toNat) := by
  rw [← BitVec.ofInt_natCast, Nat.cast_max]
  exact intMax_eq_ofInt .u32 x y

/-- The leading zero bits are those above the highest one bit; a word of zeros has 32 (R122). -/
theorem clz32_eq_ofNat (x : Word) : ∃ z : Nat, z ≤ 32 ∧ x.toNat < 2 ^ (32 - z) ∧ (z < 32 → 2 ^ (31 - z) ≤ x.toNat) ∧
    clz32 x = BitVec.ofNat 32 z := by
  by_cases hx : x = 0
  · subst hx
    exact ⟨32, le_rfl, by decide, fun h => absurd h (lt_irrefl 32), rfl⟩
  · have hpos : 0 < x.toNat := Nat.pos_of_ne_zero fun h => hx (BitVec.eq_of_toNat_eq h)
    obtain ⟨hle, hlt⟩ := log2_bounds x.toNat hpos
    have hlog : x.toNat.log2 < 32 := (Nat.log2_lt hpos.ne').2 x.isLt
    refine ⟨31 - x.toNat.log2, by omega, ?_, fun _ => ?_, if_neg hx⟩
    · rwa [show 32 - (31 - x.toNat.log2) = x.toNat.log2 + 1 by omega]
    · rwa [show 31 - (31 - x.toNat.log2) = x.toNat.log2 by omega]

theorem popc32_eq_countP (x : Word) : popc32 x = BitVec.ofNat 32 ((List.range 32).countP fun i => x.getLsbD i) :=
  congrArg (BitVec.ofNat 32) List.countP_eq_length_filter.symm

/-! ### The ALU and MUL groups (R122 to R124) -/

/-- An instruction that leaves one result leaves any equal one. -/
theorem State.next_result_congr (s : State) (lat : Nat) {d e : Dst} (h : d = e) :
    (Host.Outcome.next (s.result lat d) : Out) = .next (s.result lat e) := by rw [h]

/-- Settles O2: each meaning leaves one result, and its operation on words is the stated one on numbers. -/
theorem aluOperations : Obligations.AluOperations := by
  unfold Obligations.AluOperations
  refine ⟨fun s d a b => ?registers, fun s d a n imm => ?immediates, fun s d a b => ?products⟩
  case registers =>
    intro x y n
    have leaves {v w : Word} (h : v = w) := s.next_result_congr 1 (congrArg (Dst.s d) h)
    obtain ⟨z, hz, hlt, hle, hclz⟩ := clz32_eq_ofNat x
    exact ⟨leaves (add_eq_ofNat x y), leaves (sub_eq_ofInt x y), rfl, rfl, rfl, rfl, leaves (shiftLeft_eq_ofNat x n),
      leaves (ushiftRight_eq_ofNat x n), leaves (sshiftRight_eq_ofInt x n), leaves (min32_eq_ofInt x y), leaves (max32_eq_ofInt x y),
      leaves (minu32_eq_ofNat x y), leaves (maxu32_eq_ofNat x y), rfl, ⟨z, hz, hlt, hle, leaves hclz⟩, leaves (popc32_eq_countP x)⟩
  case immediates =>
    intro x y
    have leaves {v w : Word} (h : v = w) := s.next_result_congr 1 (congrArg (Dst.s d) h)
    exact ⟨leaves (add_signExtend_eq_ofInt x imm), rfl, rfl, rfl, leaves (shiftLeft_eq_ofNat x n), leaves (ushiftRight_eq_ofNat x n),
      leaves (sshiftRight_eq_ofInt x n)⟩
  case products =>
    intro x y
    have leaves {v w : Word} (h : v = w) := s.next_result_congr 3 (congrArg (Dst.s d) h)
    refine ⟨leaves (mul_eq_ofNat x y), leaves (extractLsb'_high_ofInt _), leaves (extractLsb'_high_ofNat _), ?words⟩
    case words => dsimp only [encode, layR]; omega

/-! ### Predicates and selection (R125 to R127) -/

theorem truth_eq (tt : BitVec 4) (p q : Bool) : truth tt p q = tt.getLsbD (2 * (if p then 1 else 0) + if q then 1 else 0) := by
  cases p <;> cases q <;> rfl

/-- Settles O3: the conditions one by one, on the numbers that the words hold. -/
theorem predicatesAndSelection : Obligations.PredicatesAndSelection := by
  unfold Obligations.PredicatesAndSelection
  intro s d a b pd pa pb imm tt c holds
  have leaves {p q : Bool} (h : p = q) := s.next_result_congr 1 (congrArg (Dst.p pd) h)
  have hcompare (x y : Word) : compare c x y = holds x y := by
    cases c with
    | eq => simp [compare, holds, BitVec.toNat_inj, beq_eq_decide]
    | ne => simp [compare, holds, BitVec.toNat_inj, bne, beq_eq_decide]
    | lt | ltu | gt | gtu => rfl
    | ge => simp [compare, holds, BitVec.slt, ← decide_not]
    | geu => simp [compare, holds, BitVec.ult, ← decide_not]
  refine ⟨leaves (hcompare _ _), leaves (hcompare _ _), leaves (truth_eq ..), rfl, ?words⟩
  case words => dsimp only [encode, layR]; omega

/-! ### Constants and address registers (R129 to R131) -/

theorem append_eq_ofNat {m n : Nat} (x : BitVec m) (y : BitVec n) : x ++ y = BitVec.ofNat (m + n) (x.toNat * 2 ^ n + y.toNat) :=
  eq_ofNat_of_toNat_eq ((toNat_append_eq x y).trans (Nat.add_comm ..))

/-- A comb address: the column, the row and the offset, one below the other (R131). -/
theorem combAddr_eq_ofNat (xy off : Word) : combAddr xy off =
    BitVec.ofNat 48 (xy.toNat % 2 ^ 9 * 2 ^ 25 + xy.toNat / 2 ^ 16 % 2 ^ 9 * 2 ^ 16 + off.toNat % 2 ^ 16) := by
  refine eq_ofNat_of_toNat_eq ?_
  simp only [combAddr, BitVec.toNat_setWidth, toNat_append_eq, BitVec.extractLsb'_toNat, BitVec.toNat_ofNat, Nat.shiftRight_eq_div_pow,
    pow_zero, Nat.div_one]
  omega

/-- Settles O4: each meaning leaves one result, and its fields are put together as numbers. -/
theorem constantsAndAddresses : Obligations.ConstantsAndAddresses := by
  unfold Obligations.ConstantsAndAddresses
  intro s d a b ad aa imm off
  have leavesS {v w : Word} (h : v = w) := s.next_result_congr 1 (congrArg (Dst.s d) h)
  have leavesA {v w : VAddr} (h : v = w) := s.next_result_congr 1 (congrArg (Dst.a ad) h)
  refine ⟨rfl, leavesS ?movhi, ?moviWord, ?movhiWord, leavesA (add_signExtend_eq_ofInt ..), leavesA (add_signExtend_eq_ofInt ..), rfl,
    leavesA ?pair, rfl, leavesS ?high, leavesA (combAddr_eq_ofNat ..)⟩
  case movhi => exact append_eq_ofNat imm ((s.rs d).setWidth 16)
  case moviWord | movhiWord => dsimp only [encode, layOp]; omega
  case pair => exact append_eq_ofNat ((s.rs (a + 1)).setWidth 16) (s.rs a)
  case high =>
    have := (s.ra aa).isLt
    refine eq_ofNat_of_toNat_eq ?_
    rw [extractLsb'_eq_ofNat_div, BitVec.toNat_setWidth, BitVec.toNat_ofNat]
    omega

end Sys2Proof.Machine

/-! The vector slot without flags: integer arithmetic and shifts (O5), logic, selection and lane movement (O6). -/

namespace Sys2Proof.Machine

/-! ### Lanes that raise no flag (R134 to R136) -/

theorem Flags.none_or (f : Flags) : Flags.none.or f = f := by cases f; rfl

theorem laneFlags_eq_none {r : Vector LaneRes 32} (h : ∀ x ∈ r.toList, x.fl = Flags.none) : laneFlags r = Flags.none := by
  unfold laneFlags
  generalize r.toList = l at h
  induction l with
  | nil => rfl
  | cons x l ih =>
    rw [List.foldl_cons, Flags.none_or, h x (List.mem_cons_self ..)]
    exact ih fun y hy => h y (List.mem_cons_of_mem _ hy)

theorem laneFlags_lanesOf_quiet (e : Word) (f : Fin 32 → Word) : laneFlags (lanesOf e fun k => .quiet (f k)) = Flags.none := by
  refine laneFlags_eq_none fun x hx => ?_
  obtain ⟨k, hk, rfl⟩ := Vector.getElem_of_mem (Vector.mem_toList_iff.1 hx)
  have hlane : (lanesOf e fun k => LaneRes.quiet (f k))[k] = _ := lanesOf_get e _ ⟨k, hk⟩
  rw [hlane]
  split <;> rfl

/-- Without flags a vector result is its lanes alone. -/
theorem State.leavesLanes_lanesOf (s : State) (lat : Nat) (vd : Fin 16) (e : Word) (f : Fin 32 → Word) :
    s.leavesLanes (.next (s.vecResult lat vd e (lanesOf e fun k => .quiet (f k)))) lat vd e f := by
  refine ⟨(lanesOf e fun k => .quiet (f k)).map LaneRes.val, ?_, fun k hk => ?_⟩
  · rw [State.vecResult, laneFlags_lanesOf_quiet, State.raiseFlags, if_pos rfl]
  · rw [Fin.getElem_fin, Vector.getElem_map]
    exact congrArg LaneRes.val ((lanesOf_get e _ k).trans (if_pos hk))

theorem State.leavesLanes.congr {s : State} {o : Out} {lat : Nat} {vd : Fin 16} {e : Word} {f g : Fin 32 → Word}
    (h : s.leavesLanes o lat vd e f) (hfg : ∀ k, f k = g k) : s.leavesLanes o lat vd e g := funext hfg ▸ h

section
variable (vd va vb : Fin 16) (mk : Fin 8) (s : State)

theorem vecBin_leavesLanes (lat : Nat) (op : Word → Word → Word) : s.leavesLanes (vecBin lat (fun _ u v => .quiet (op u v)) vd va vb mk s)
    lat vd (s.rm mk &&& s.curCtx.top) (fun k => op (s.rv va)[k] (s.rv vb)[k]) := s.leavesLanes_lanesOf ..

theorem vecUn_leavesLanes (lat : Nat) (op : Word → Word) : s.leavesLanes (vecUn lat (fun _ u => .quiet (op u)) vd va mk s)
    lat vd (s.rm mk &&& s.curCtx.top) (fun k => op (s.rv va)[k]) := s.leavesLanes_lanesOf ..

theorem vecMove_leavesLanes (f : Fin 32 → Word) : s.leavesLanes (vecMove f vd s) 2 vd s.curCtx.top f := s.leavesLanes_lanesOf ..

/-- Arithmetic on an integer type: latency 2, the integer operation on each lane (R137). -/
theorem vecBin_int_leavesLanes {ty : VType} (hty : ty.isFloat = false) (op : Word → Word → Word) (fp : RMode → FFmt → Nat → Nat → FRes) :
    s.leavesLanes (vecBin (arithLat ty) (fun rm => arithLane ty op (fp rm)) vd va vb mk s) 2 vd (s.rm mk &&& s.curCtx.top)
      (fun k => op (s.rv va)[k] (s.rv vb)[k]) := by
  have hlat : arithLat ty = 2 := by rw [arithLat, hty, if_neg Bool.false_ne_true]
  have hop : (fun rm => arithLane ty op (fp rm)) = fun _ u v => .quiet (op u v) := by
    funext rm u v
    rw [arithLane, hty, if_neg Bool.false_ne_true]
  rw [hlat, hop]
  exact vecBin_leavesLanes vd va vb mk s 2 op

end

/-! ### Integer arithmetic and shifts (R137, R138) -/

theorem zero_sub_eq_ofInt (x : Word) : 0 - x = BitVec.ofInt 32 (-x.toInt) := by
  rw [BitVec.ofInt_neg, BitVec.ofInt_toInt]
  exact BitVec.zero_sub x

/-- VABS of I32: 0x8000_0000 stays what it is (R137). -/
theorem absWord_eq_ofInt (x : Word) : (if x.msb then 0 - x else x) = BitVec.ofInt 32 |x.toInt| := by
  rw [BitVec.msb_eq_toInt]
  by_cases hx : x.toInt < 0
  · rw [decide_eq_true hx, if_pos rfl, abs_of_neg hx, zero_sub_eq_ofInt]
  · rw [decide_eq_false hx, if_neg Bool.false_ne_true, abs_of_nonneg (not_lt.1 hx), BitVec.ofInt_toInt]

/-- Settles O5: the operation on each enabled lane is the stated one on numbers. -/
theorem vectorIntegerLanes : Obligations.VectorIntegerLanes := by
  unfold Obligations.VectorIntegerLanes
  intro s d a b m n ty hty e x y num
  have arith (op : Word → Word → Word) (fp : RMode → FFmt → Nat → Nat → FRes) := vecBin_int_leavesLanes d a b m s hty op fp
  have shift (op : Word → Word → Word) := vecBin_leavesLanes d a b m s 2 op
  have unary (op : Word → Word) := vecUn_leavesLanes d a m s 2 op
  have byImm (op : Word → Nat → Word) := vecMove_leavesLanes d s fun k => op x[k] n.val
  exact ⟨(arith (· + ·) fun rm f => f.add rm).congr fun k => add_eq_ofNat x[k] y[k],
    (arith (· - ·) fun rm f => f.sub rm).congr fun k => sub_eq_ofInt x[k] y[k],
    (arith (· * ·) fun rm f => f.mul rm).congr fun k => mul_eq_ofNat x[k] y[k],
    (arith (intMin ty) fun _ f => f.minMax false).congr fun k => intMin_eq_ofInt ty x[k] y[k],
    (arith (intMax ty) fun _ f => f.minMax true).congr fun k => intMax_eq_ofInt ty x[k] y[k],
    (unary fun u => 0 - u).congr fun k => zero_sub_eq_ofInt x[k],
    (unary fun u => if u.msb then 0 - u else u).congr fun k => absWord_eq_ofInt x[k],
    (shift vshlW).congr fun k => shiftLeft_eq_ofNat x[k] _, (shift vshrW).congr fun k => ushiftRight_eq_ofNat x[k] _,
    (shift vsraW).congr fun k => sshiftRight_eq_ofInt x[k] _, (byImm (· <<< ·)).congr fun k => shiftLeft_eq_ofNat x[k] _,
    (byImm (· >>> ·)).congr fun k => ushiftRight_eq_ofNat x[k] _, (byImm .sshiftRight).congr fun k => sshiftRight_eq_ofInt x[k] _⟩

/-! ### Logic, selection and lane movement (R138, R140, R143) -/

/-- Lanes that move down by j: zeros enter at the top (R143). -/
theorem extLane_eq (x : Vec) (j k : Fin 32) :
    (if k.val + j.val ≤ 31 then x[k + j] else 0) = if _ : k.val + j.val < 32 then x[k.val + j.val] else 0 := by
  by_cases h : k.val + j.val < 32
  · rw [if_pos (Nat.le_of_lt_succ h), dif_pos h]
    simp only [Fin.getElem_fin, Fin.val_add, Nat.mod_eq_of_lt h]
  · rw [if_neg (by omega), dif_neg h]

/-- Lanes that move up by one: a scalar enters at lane 0 (R143). -/
theorem insLane_eq (x : Vec) (w : Word) (k : Fin 32) :
    (if k = 0 then w else x[k - 1]) = if _ : k.val = 0 then w else x[k.val - 1] := by
  by_cases h : k = 0
  · subst h; rfl
  · rw [if_neg h, dif_neg (Fin.val_ne_zero_iff.2 h)]
    simp only [Fin.getElem_fin, Fin.val_sub_one_of_ne_zero h]

/-- Settles O6: lane by lane each instruction moves or combines its sources, and its word is its layout's. -/
theorem vectorMovement : Obligations.VectorMovement := by
  unfold Obligations.VectorMovement
  intro s d a b m j imm ty e x y
  have logic (op : Word → Word → Word) := vecBin_leavesLanes d a b m s 2 op
  have move (f : Fin 32 → Word) := vecMove_leavesLanes d s f
  refine ⟨logic (· &&& ·), logic (· ||| ·), logic (· ^^^ ·), move _, s.leavesLanes_lanesOf .., vecUn_leavesLanes d a m s 2 id,
    (move _).congr (extLane_eq x j), (move _).congr (insLane_eq x (s.rs j)), move _, move _, ?words⟩
  case words => dsimp only [encode, layV, layVX, layOp]; omega

end Sys2Proof.Machine

/-! The waits of the control slot: an attempt, its condition, its effect (R164 to R168, R204, R239, R254, O12). -/

namespace Sys2Proof.Machine

/-! ### An attempt reads its table entries (R165, R204) -/

theorem Tile.noteReads_frame (t : Tile) (m : Fin 4) (ws : List Nat) : { t.noteReads m ws with err := t.err, fixes := t.fixes } = t := by
  simp only [Tile.noteReads, Tile.count]
  split
  · rfl
  · split <;> split <;> rfl

/-- An attempt changes no more of the tile than error counters and owed write-backs. -/
theorem Tile.readWait_eq (t : Tile) (i : Instr) : ∃ e f, t.readWait i = { t with err := e, fixes := f } := by
  have fold (l : List (Nat × Nat)) : ∀ x : Tile,
      ∃ e f, l.foldl (fun t e => t.readTable e.1 e.2) x = { x with err := e, fixes := f } := by
    induction l with
    | nil => exact fun x => ⟨x.err, x.fixes, rfl⟩
    | cons a l ih =>
      intro x
      obtain ⟨e, f, h⟩ := ih (x.readTable a.1 a.2)
      exact ⟨e, f, h.trans (congrArg (fun y : Tile => { y with err := e, fixes := f }) (x.noteReads_frame 2 (tableWords a.1 a.2)) :)⟩
  exact fold _ t

/-- The entries as they read do not depend on the counts and the write-backs. -/
theorem Tile.tableView_counts (t : Tile) (e : Vector Word 10) (f : List Upset) :
    ({ t with err := e, fixes := f } : Tile).tableView = { t.tableView with err := e, fixes := f } := by
  simp only [Tile.tableView]
  split <;> rfl

theorem waitCause_counts (t : Tile) (e : Vector Word 10) (f : List Upset) (i : Instr) :
    waitCause { t with err := e, fixes := f } i = waitCause t i := rfl

theorem Tile.waitHolds_counts (t : Tile) (e : Vector Word 10) (f : List Upset) (c : Fin 4) (i : Instr) :
    ({ t with err := e, fixes := f } : Tile).waitHolds c i = t.waitHolds c i := rfl

/-- The state as the table reads of an attempt leave it. -/
def State.noteWait (s : State) (i : Instr) : State := if s.curTile.upsets.isEmpty then s else s.modCurTile fun t => t.readWait i

section
variable (s : State) (i : Instr)

@[simp] theorem State.noteWait_cur : (s.noteWait i).cur = s.cur := by
  unfold State.noteWait; split <;> rfl

theorem State.noteWait_clean (hu : s.curTile.upsets = []) : s.noteWait i = s := by
  simp [State.noteWait, hu]

theorem State.noteWait_counts : ∃ e f, (s.noteWait i).curTile = { s.curTile with err := e, fixes := f } := by
  unfold State.noteWait
  split
  · exact ⟨_, _, rfl⟩
  · rw [State.curTile_modCurTile]; exact s.curTile.readWait_eq i

theorem State.noteWait_curCtx : (s.noteWait i).curCtx = s.curCtx := by
  obtain ⟨e, f, h⟩ := s.noteWait_counts i
  have hc : (s.noteWait i).curCtx = (s.noteWait i).curTile.ctx s.cur.ctx := by
    rw [State.curCtx, State.curTile, State.noteWait_cur]; rfl
  rw [hc, h]; rfl

end

/-! ### The outcome of an attempt (R52, R164) -/

/-- The context stands where it stood: same pc, held or not as before. -/
def State.StandsAs (t s : State) : Prop := t.curCtx.held = s.curCtx.held ∧ t.curCtx.pc = s.curCtx.pc

theorem State.StandsAs.refl (s : State) : s.StandsAs s := ⟨rfl, rfl⟩

theorem State.StandsAs.ite {p : Prop} [Decidable p] {s t u : State} (h : t.StandsAs s) (h' : u.StandsAs s) :
    (if p then t else u).StandsAs s := by
  split
  · exact h
  · exact h'

theorem State.StandsAs.trans {s t u : State} (h : u.StandsAs t) (h' : t.StandsAs s) : u.StandsAs s :=
  ⟨h.1.trans h'.1, h.2.trans h'.2⟩

theorem State.noteWait_standsAs (s : State) (i : Instr) : (s.noteWait i).StandsAs s := by
  rw [State.StandsAs, State.noteWait_curCtx]; exact ⟨rfl, rfl⟩

theorem Tile.event_ctx (t : Tile) (e n : Nat) (c : Fin 4) : (t.event e n).ctx c = t.ctx c := rfl

theorem State.curCtx_holdWait (s : State) : s.holdWait.curCtx = { s.curCtx with held := true } := by
  rw [State.holdWait, State.curCtx_modCurTile]
  rw [Tile.event_ctx, Tile.ctx_modCtx, Tile.closeLock_ctx]
  rfl

/-- A wait without fault: its effect when its condition holds on the tile as it stood, else the context is held. -/
theorem waitSlot_legal {s : State} {i : Instr} (k : State → State) (h : waitCause s.curTile.tableView i = none) :
    waitSlot i k s = .next (if s.curTile.tableView.waitHolds s.cur.ctx i then k (s.noteWait i) else (s.noteWait i).holdWait) := by
  obtain ⟨e, f, ht⟩ := s.noteWait_counts i
  have hv : (s.noteWait i).curTile.tableView = { s.curTile.tableView with err := e, fixes := f } := by
    rw [ht, Tile.tableView_counts]
  unfold waitSlot
  show (match waitCause (s.noteWait i).curTile.tableView i with
    | some f => Host.Outcome.next ((s.noteWait i).issueFault _ _ f)
    | none => .next (if (s.noteWait i).curTile.tableView.waitHolds (s.noteWait i).cur.ctx i then k (s.noteWait i) else (s.noteWait i).holdWait)) = _
  rw [hv, waitCause_counts, h, Tile.waitHolds_counts, State.noteWait_cur]

theorem waitSlot_clean {s : State} {i : Instr} (k : State → State) {p : Prop} [Decidable p] (hu : s.curTile.upsets = [])
    (hc : waitCause s.curTile i = none) (hp : s.curTile.waitHolds s.cur.ctx i = true ↔ p) :
    waitSlot i k s = .next (if p then k s else s.holdWait) := by
  rw [← Tile.tableView_clean s.curTile hu] at hc hp
  rw [waitSlot_legal k hc, s.noteWait_clean i hu]
  simp only [hp]

/-! ### What a wait does besides (R239, R254) -/

theorem Context.takeMasks_stands (c : Context) (w : Nat) (sel : MaskPub → Bool) :
    (c.takeMasks w sel).held = c.held ∧ (c.takeMasks w sel).pc = c.pc := by
  have one (c : Context) (p : MaskPub) : (c.takeMask w p).held = c.held ∧ (c.takeMask w p).pc = c.pc := by
    unfold Context.takeMask; split <;> exact ⟨rfl, rfl⟩
  have fold (l : List MaskPub) : ∀ c : Context, (l.foldl (fun c p => c.takeMask w p) c).held = c.held ∧
      (l.foldl (fun c p => c.takeMask w p) c).pc = c.pc := by
    induction l with
    | nil => exact fun c => ⟨rfl, rfl⟩
    | cons p l ih => exact fun c => ⟨(ih _).1.trans (one c p).1, (ih _).2.trans (one c p).2⟩
  exact fold _ c

theorem State.modCur_standsAs (s : State) (f : Context → Context) (h : (f s.curCtx).held = s.curCtx.held ∧ (f s.curCtx).pc = s.curCtx.pc) :
    (s.modCur f).StandsAs s := by
  rw [State.StandsAs, State.curCtx_modCur]; exact h

theorem State.modCurTile_standsAs (s : State) (f : Tile → Tile) (h : (f s.curTile).ctxs = s.curTile.ctxs) : (s.modCurTile f).StandsAs s := by
  rw [State.StandsAs, State.curCtx_modCurTile, Tile.ctx, h]; exact ⟨rfl, rfl⟩

theorem State.takeMasks_standsAs (s : State) (w : Nat) (sel : MaskPub → Bool) : (s.modCur fun c => c.takeMasks w sel).StandsAs s :=
  s.modCur_standsAs _ (s.curCtx.takeMasks_stands w sel)

theorem State.lower_standsAs (s : State) (sel : AccPend → Bool) : (s.lower sel).StandsAs s := .ite (s.modCurTile_standsAs _ rfl) (.refl s)

/-- What the issue of a bundle's wait does besides. -/
def waitEffect : Instr → State → State
  | .waitsD k v => fun s => s.modCurTile fun t => { t with sems := vset t.sems k (t.sems[k] - v) }
  | .waitbTag b _ tag => fun s => s.modCur fun c => c.takeMasks s.cur.tt (MaskPub.covered b tag)
  | .waitph => fun s =>
    (s.modCur fun c => c.takeMasks s.cur.tt fun p => c.phaseCopy.any fun n => decide (p.id < n)).lower
      fun p => s.curCtx.phaseMxu.any fun n => decide (p.id < n)
  | .fence sc => fun s =>
    if sc.code ≥ 2 then (s.modCur fun c => c.takeMasks s.cur.tt fun _ => true).lower fun _ => true else s
  | _ => id

theorem exec_wait {i : Instr} (h : isWait i = true) (s : State) : exec i s = waitSlot i (waitEffect i) s := by
  cases i
  case waitc | waits | waitsD | waitt | waitcr | waitrg | waitrgFree | waitb | waitbTag | waitph | fence => rfl
  all_goals contradiction

/-- What a wait does besides leaves the context where it stands. -/
theorem waitEffect_standsAs (i : Instr) (s : State) : (waitEffect i s).StandsAs s := by
  cases i
  case waitsD => exact s.modCurTile_standsAs _ rfl
  case waitbTag => exact s.takeMasks_standsAs ..
  case waitph => exact (State.lower_standsAs ..).trans (s.modCur_standsAs _ (s.curCtx.takeMasks_stands ..))
  case fence => exact .ite ((State.lower_standsAs ..).trans (s.takeMasks_standsAs ..)) (.refl s)
  all_goals exact .refl s

/-- A wait with a legal operand passes and leaves its context where it stands, or holds it there. -/
theorem exec_wait_legal {s : State} {i : Instr} (hi : isWait i = true) (hc : waitCause s.curTile.tableView i = none) :
    (s.curTile.tableView.waitHolds s.cur.ctx i = true → ∃ t, exec i s = .next t ∧ t.StandsAs s) ∧
    (s.curTile.tableView.waitHolds s.cur.ctx i = false →
      ∃ t, exec i s = .next t ∧ t.curCtx = { s.curCtx with held := true }) := by
  rw [exec_wait hi, waitSlot_legal _ hc]
  refine ⟨fun h => ?_, fun h => ?_⟩
  · rw [if_pos h]
    exact ⟨_, rfl, (waitEffect_standsAs i _).trans (s.noteWait_standsAs i)⟩
  · rw [if_neg (Bool.eq_false_iff.1 h)]
    exact ⟨_, rfl, by rw [State.curCtx_holdWait, State.noteWait_curCtx]⟩

/-! ### The conditions of the waits (R165) -/

theorem waitCause_waitcr {t : Tile} {ch : Fin 256} {n : BitVec 8} (hv : (t.chan ch).v = true) (hc : (t.chan ch).coll = false)
    (hn : n.toNat ≤ (t.chan ch).d.toNat) : waitCause t (.waitcr ch n) = none := by
  simp [waitCause, hv, hc, Nat.not_lt.2 hn]

theorem waitCause_ring {t : Tile} {rg : Fin 8} {n : BitVec 8} (hv : t.rings[rg].v = true) (hn : n.toNat ≤ t.rings[rg].e) :
    waitCause t (.waitrg rg n) = none ∧ waitCause t (.waitrgFree rg n) = none := by
  simp only [waitCause, hv, Bool.not_true, Bool.false_eq_true, if_false, gt_iff_lt, if_neg (Nat.not_lt.2 hn), ite_self, and_self]

theorem waitCause_buffer {t : Tile} {b : Fin 32} (st : BufState) (hv : t.bufs[b].v = true) : waitCause t (.waitb b st) = none :=
  if_pos hv

theorem waitCause_tag {t : Tile} {b : Fin 32} {tag : BitVec 8} (st : BufState) (hv : t.bufs[b].v = true)
    (hg : (t.bufs[b].tag - tag).toNat = 0 ∨ 128 ≤ (t.bufs[b].tag - tag).toNat) : waitCause t (.waitbTag b st tag) = none := by
  have : ¬ (1 ≤ (t.bufs[b].tag - tag).toNat ∧ (t.bufs[b].tag - tag).toNat ≤ 127) := by omega
  simp only [waitCause, hv, Bool.not_true, Bool.false_eq_true, if_false, if_neg this]

/-- Settles O12: each wait is an attempt with its condition, on a clean tile as the row gives it, on any tile as the tables read. -/
theorem waitsHoldOrPass : Obligations.WaitsHoldOrPass := by
  unfold Obligations.WaitsHoldOrPass
  refine ⟨?clean, fun s i hi hc => ⟨?either, fun h => ?held⟩⟩
  case clean =>
    intro s k thr v tl l h ch n rg b st tag hu t x pass
    have go (i : Instr) (hi : isWait i = true) {p : Prop} [Decidable p] (hc : waitCause t i = none)
        (hp : t.waitHolds s.cur.ctx i = true ↔ p) : exec i s = pass p (waitEffect i s) :=
      (exec_wait hi s).trans (waitSlot_clean _ hu hc hp)
    refine ⟨go (.waitc k thr) rfl rfl decide_eq_true_iff, go (.waits k v) rfl rfl decide_eq_true_iff, ?semaphore, ?timeline,
      fun hv hcl hn => go (.waitcr ch n) rfl (waitCause_waitcr hv hcl hn) decide_eq_true_iff,
      fun hv hn => ⟨go (.waitrg rg n) rfl (waitCause_ring hv hn).1 decide_eq_true_iff,
        go (.waitrgFree rg n) rfl (waitCause_ring hv hn).2 decide_eq_true_iff⟩,
      fun hv => go (.waitb b st) rfl (waitCause_buffer st hv) beq_iff_eq,
      fun hv hg => go (.waitbTag b st tag) rfl (waitCause_tag st hv hg)
        (Bool.and_eq_true_iff.trans (and_congr beq_iff_eq beq_iff_eq)),
      fun hp => ?unflagged, fun hp => ?flagged⟩
    case semaphore =>
      refine (go (.waitsD k v) rfl rfl decide_eq_true_iff).trans ?_
      have sub (u : BitVec 16) : u - v = BitVec.ofNat 16 (u.toNat + 2 ^ 16 - v.toNat) := by
        rw [BitVec.sub_def]
        congr 1
        have := v.isLt
        omega
      show pass _ (s.modCurTile fun t => { t with sems := vset t.sems k (t.sems[k] - v) }) = _
      simp only [sub]
    case timeline =>
      refine go (.waitt tl l h) rfl rfl ?_
      rw [← append_eq_ofNat (x.s[h]) (x.s[l])]
      exact decide_eq_true_iff
    case unflagged =>
      refine (go .waitph rfl (p := False) rfl (iff_of_false (Bool.eq_false_iff.1 hp) id)).trans ?_
      simp only [pass, if_false]
    case flagged =>
      have hw : s.curTile.tableView.waitHolds s.cur.ctx .waitph = true := by
        rw [s.curTile.tableView_clean hu]; exact hp
      obtain ⟨t', he, hh, hpc⟩ := (exec_wait_legal (i := .waitph) rfl rfl).1 hw
      exact ⟨t', he, hpc, hh⟩
  case either =>
    intro s' he
    cases hw : s.curTile.tableView.waitHolds s.cur.ctx i with
    | true =>
      obtain ⟨t, ht, hs⟩ := (exec_wait_legal hi hc).1 hw
      obtain rfl := Host.Outcome.next.inj (ht.symm.trans he)
      exact .inr hs.1
    | false =>
      obtain ⟨t, ht, hs⟩ := (exec_wait_legal hi hc).2 hw
      obtain rfl := Host.Outcome.next.inj (ht.symm.trans he)
      exact .inl (congrArg Context.held hs :)
  case held =>
    obtain ⟨t, ht, hs⟩ := (exec_wait_legal hi hc).2 h
    exact ⟨t, ht, (congrArg Context.held hs :), (congrArg Context.pc hs :)⟩

end Sys2Proof.Machine

/-! FENCE, PHASE and the phase flag (R169, R170, R362, R451, O13). -/

namespace Sys2Proof.Machine

/-! ### The conditions of a FENCE (R170, R451) -/

/-- A context meets the conditions of R170 up to a scope's number. That of the swarm scope, 4, is part of the tile's, 2. -/
def Tile.DoneUpTo (t : Tile) (c : Fin 4) (n : Nat) : Prop :=
  (1 ≤ n → t.storesDone c = true) ∧ (2 ≤ n → ∀ l ∈ t.live, l.ctx ≠ c) ∧ (3 ≤ n → ∀ e ∈ t.chans, c ∉ e.2.out) ∧
  (5 ≤ n → (t.ctx c).wack = 0) ∧ (6 ≤ n → (t.ctx c).tlOut = 0)

theorem Tile.doneUpTo_iff (t : Tile) (c : Fin 4) (n : Nat) :
    ((List.range (n + 1)).all fun k => t.scopeDone c k) = true ↔ t.DoneUpTo c n := by
  simp only [List.all_eq_true, List.mem_range, Nat.lt_succ_iff]
  constructor
  · intro h
    refine ⟨fun hn => h 1 hn, fun hn => ?_, fun hn => ?_, fun hn => ?_, fun hn => ?_⟩
    · simpa [Tile.scopeDone] using h 2 hn
    · simpa [Tile.scopeDone] using h 3 hn
    · simpa [Tile.scopeDone] using h 5 hn
    · simpa [Tile.scopeDone] using h 6 hn
  · rintro ⟨stores, commands, sends, acks, signals⟩ k hk
    match k with
    | 0 => rfl
    | 1 => exact stores hk
    | 2 => simpa [Tile.scopeDone] using commands hk
    | 3 => simpa [Tile.scopeDone] using sends hk
    | 4 =>
      simp only [Tile.scopeDone, List.all_eq_true, Bool.or_eq_true, bne_iff_ne]
      exact fun l hl => .inl (commands (by omega) l hl)
    | 5 => simpa [Tile.scopeDone] using acks hk
    | 6 => simpa [Tile.scopeDone] using signals hk
    | _ + 7 => rfl

/-- What a FENCE waits for: for the system scope, of all four contexts. -/
def State.FenceHolds (s : State) (sc : Scope) : Prop :=
  if sc = .system then ∀ c, s.curTile.tableView.DoneUpTo c 8 else s.curTile.tableView.DoneUpTo s.cur.ctx sc.code

theorem State.fenceHolds_iff (s : State) (sc : Scope) : s.curTile.tableView.waitHolds s.cur.ctx (.fence sc) = true ↔ s.FenceHolds sc := by
  show s.curTile.tableView.fenceDone s.cur.ctx sc = true ↔ _
  unfold State.FenceHolds
  cases sc
  case system => simp only [Tile.fenceDone, List.all_eq_true, if_true, List.mem_finRange, true_imp_iff, ← Tile.doneUpTo_iff]
  all_goals exact Tile.doneUpTo_iff ..

/-! ### FENCE (R170, R204) -/

theorem State.noteWait_fence (s : State) (sc : Scope) :
    s.noteWait (.fence sc) = if s.curTile.upsets.isEmpty then s else s.modCurTile id := rfl

theorem State.holdWait_noteWait_fence (s : State) (sc : Scope) : (s.noteWait (.fence sc)).holdWait = s.holdWait := by
  rw [State.noteWait_fence]
  split
  · rfl
  · unfold State.holdWait
    exact s.modTile_modTile s.cur.tile id _

/-- A FENCE acts as R170 says; one of the two inner scopes that passes changes nothing. -/
def State.FenceActs (s : State) (sc : Scope) : Prop :=
  (¬ s.FenceHolds sc → exec (.fence sc) s = .next s.holdWait) ∧
  (s.FenceHolds sc → sc.code < 2 → exec (.fence sc) s = .next s) ∧
  (s.FenceHolds sc → ∃ t', exec (.fence sc) s = .next t' ∧ t'.StandsAs s)

theorem exec_fence_held {s : State} {sc : Scope} (h : ¬ s.FenceHolds sc) : exec (.fence sc) s = .next s.holdWait := by
  rw [exec_wait rfl, waitSlot_legal _ rfl, if_neg (mt (s.fenceHolds_iff sc).1 h), State.holdWait_noteWait_fence]

theorem exec_fence_narrow {s : State} {sc : Scope} (h : s.FenceHolds sc) (hc : sc.code < 2) :
    exec (.fence sc) s = .next (s.noteWait (.fence sc)) := by
  rw [exec_wait rfl, waitSlot_legal _ rfl, if_pos ((s.fenceHolds_iff sc).2 h)]
  exact congrArg _ (if_neg (Nat.not_le.2 hc))

/-- The tiles stand in the list by rising keys. -/
def State.TilesInOrder (s : State) : Prop := (s.tiles.map Prod.fst).Pairwise (· < ·)

theorem mem_keys_of_alGet_ne {α : Type} {l : List (Nat × α)} {k : Nat} {d : α} (h : alGet l k d ≠ d) : k ∈ l.map Prod.fst := by
  induction l with
  | nil => exact absurd rfl h
  | cons e l ih =>
    rw [List.map_cons, List.mem_cons]
    by_cases hk : e.1 = k
    · exact .inl hk.symm
    · exact .inr (ih (by simpa [alGet, hk] using h))

/-- In a list by rising keys a value that is set to itself changes nothing. -/
theorem alSet_alGet_self {α : Type} {l : List (Nat × α)} {k : Nat} {d : α} (hl : (l.map Prod.fst).Pairwise (· < ·))
    (h : alGet l k d ≠ d) : alSet l k (alGet l k d) = l := by
  induction l with
  | nil => exact absurd rfl h
  | cons e l ih =>
    obtain ⟨hlt, hl⟩ := List.pairwise_cons.1 hl
    by_cases hk : e.1 = k
    · simp [alGet, alSet, ← hk]
    · have h' : alGet l k d ≠ d := by simpa [alGet, hk] using h
      have := hlt k (mem_keys_of_alGet_ne h')
      simp only [alGet, alSet, if_neg hk, if_neg (Ne.symm hk), if_neg (Nat.lt_asymm this), ih hl h']

theorem State.noteWait_fence_inOrder {s : State} (sc : Scope) (h : s.TilesInOrder) : s.noteWait (.fence sc) = s := by
  rw [State.noteWait_fence]
  split
  · rfl
  · rename_i hu
    have hne : alGet s.tiles s.cur.tile Tile.reset ≠ Tile.reset := fun e => hu (congrArg (fun t : Tile => t.upsets.isEmpty) e)
    exact congrArg (fun l => { s with tiles := l }) (alSet_alGet_self h hne)

theorem State.fenceActs_inOrder {s : State} (sc : Scope) (h : s.TilesInOrder) : s.FenceActs sc :=
  ⟨exec_fence_held, fun hh hc => (exec_fence_narrow hh hc).trans (congrArg _ (State.noteWait_fence_inOrder sc h)),
    fun hh => (exec_wait_legal rfl rfl).1 ((s.fenceHolds_iff sc).2 hh)⟩

/-! ### PHASE and its flag (R169, R362) -/

/-- PHASE clears the flag and leaves a marker in each queue that it names where the context has commands. -/
def State.PhaseActs (s : State) (eq : BitVec 3) : Prop :=
  ∃ t, exec (.phase eq) s = .next t ∧ t.curCtx.phase = false ∧
    ∀ q : Fin 3, eq.getLsbD q.val = true → (∃ l ∈ s.curTile.live, l.ctx = s.cur.ctx ∧ l.queue = q) →
      ∃ m ∈ t.curCtx.markers, m.queue = q ∧
        ∀ l ∈ s.curTile.live, l.ctx = s.cur.ctx → l.queue = q → l.id ∈ m.wait

theorem Tile.mem_marker_wait (t : Tile) {l : LiveCmd} (h : l ∈ t.live) : l.id ∈ (t.marker l.ctx l.queue).wait :=
  List.mem_map_of_mem (List.mem_filter.2 ⟨h, by simp⟩)

theorem State.phaseActs (s : State) (eq : BitVec 3) : s.PhaseActs eq := by
  refine ⟨_, rfl, ?_⟩
  rw [State.curCtx_modCurTile, Tile.ctx_modCtx]
  refine ⟨rfl, fun q hq ⟨l, hl, hc, hlq⟩ => ⟨s.curTile.marker s.cur.ctx q, ?_, rfl, ?_⟩⟩
  · have hw := s.curTile.mem_marker_wait hl
    rw [hc, hlq] at hw
    refine List.mem_append_right _ (List.mem_filter.2 ⟨List.mem_map_of_mem (List.mem_filter.2 ⟨List.mem_finRange q, hq⟩), ?_⟩)
    simpa using List.ne_nil_of_mem hw
  · intro l hl hc rfl
    rw [← hc]
    exact s.curTile.mem_marker_wait hl

/-- The flag rises exactly when it is due, and nothing else of the context changes. -/
def State.PhaseFlagActs (s : State) (t : TileId) (c : Fin 4) : Prop :=
  ((s.ctx t c).phaseDue = true → ∃ s', exec (.phaseFlagSet t c) s = .next s' ∧ (s'.ctx t c).phase = true ∧
    { s'.ctx t c with phase := (s.ctx t c).phase, phaseDue := true } = s.ctx t c) ∧
  ((s.ctx t c).phaseDue = false → exec (.phaseFlagSet t c) s = .next s)

theorem State.phaseFlagActs (s : State) (t : TileId) (c : Fin 4) : s.PhaseFlagActs t c := by
  refine ⟨fun h => ⟨_, congrArg Host.Outcome.next (if_pos h), ?_⟩,
    fun h => congrArg Host.Outcome.next (if_neg (Bool.eq_false_iff.1 h))⟩
  rw [State.ctx_modCtx]
  refine ⟨rfl, ?_⟩
  rw [← h]

/-! ### The obligation -/

/-- What holds of O13: each of its clauses, in a state whose tiles stand by rising keys. -/
theorem fencesAndPhases_inOrder : (∀ (s : State) (sc : Scope), s.TilesInOrder → s.FenceActs sc) ∧
    (∀ (s : State) (eq : BitVec 3), s.PhaseActs eq) ∧ ∀ (s : State) (t : TileId) (c : Fin 4), s.PhaseFlagActs t c :=
  ⟨fun _ sc h => State.fenceActs_inOrder sc h, State.phaseActs, State.phaseFlagActs⟩

/-- A state whose current tile, 0, has an upset word and stands behind tile 1 in the list of tiles. -/
def State.outOfOrder : State :=
  { State.reset with tiles := [(1, Tile.reset), (0, { Tile.reset with upsets := [⟨0, 0, false⟩] })] }

/-- Refutes O13: on a tile with an upset word a FENCE writes its tile back under its key, so that one of the two inner scopes that
passes leaves another list of tiles than it found in a state whose tiles do not stand by rising keys. The statement is about every
state; of those by rising keys all its clauses hold (`fencesAndPhases_inOrder`). -/
theorem not_fencesAndPhases : ¬ Obligations.FencesAndPhases := by
  unfold Obligations.FencesAndPhases
  rintro ⟨fences, -⟩
  have acts : State.outOfOrder.FenceActs .slot := fences State.outOfOrder .slot
  have holds : State.outOfOrder.FenceHolds .slot := by simp [State.FenceHolds, Tile.DoneUpTo, Scope.code]
  have same : State.outOfOrder.noteWait (.fence .slot) = State.outOfOrder :=
    Host.Outcome.next.inj ((exec_fence_narrow holds (by decide)).symm.trans (acts.2.1 holds (by decide)))
  have longer : (State.outOfOrder.noteWait (.fence .slot)).tiles.length = 3 := rfl
  rw [same] at longer
  exact absurd longer (by decide)

end Sys2Proof.Machine

/-! Bank lock and code placement: BLK, PREF, PIN and UNPIN (R172, R174, R203, O16). -/

namespace Sys2Proof.Machine

/-! ### What code placement changes of a tile -/

/-- The tile but for its code storage, the requests for code lines and the performance counters. -/
def Tile.SameButCode (x y : Tile) : Prop :=
  { y with icache := x.icache, region := x.region, code := x.code, codeHeld := x.codeHeld, pmc := x.pmc } = x

namespace Tile.SameButCode

variable {x y z : Tile}

theorem refl (x : Tile) : x.SameButCode x := rfl

theorem trans (h : x.SameButCode y) (h' : y.SameButCode z) : x.SameButCode z := by
  unfold SameButCode at h h' ⊢
  exact (congrArg (fun w : Tile => { w with
    icache := x.icache, region := x.region, code := x.code, codeHeld := x.codeHeld, pmc := x.pmc }) h' :).trans h

theorem ite {p : Prop} [Decidable p] (h : x.SameButCode y) (h' : x.SameButCode z) : x.SameButCode (if p then y else z) := by
  split
  · exact h
  · exact h'

theorem foldl {α : Type} (f : Tile → α → Tile) (h : ∀ (y : Tile) a, y.SameButCode (f y a)) (l : List α) (x : Tile) :
    x.SameButCode (l.foldl f x) := by
  induction l generalizing x with
  | nil => exact refl x
  | cons a l ih => exact (h x a).trans (ih _)

theorem event (e n : Nat) : x.SameButCode (x.event e n) := rfl

theorem request (region : Bool) (l : Nat) (pin zero : Bool) (ready : Nat) : x.SameButCode (x.request region l pin zero ready) :=
  ite rfl (ite (event ..) rfl)

theorem fetchLine (region pin : Bool) (ready l : Nat) (zero : Bool) : x.SameButCode (x.fetchLine region pin ready l zero) := by
  unfold Tile.fetchLine
  exact ite (ite (ite rfl (refl x)) (ite (event ..) (request ..))) (ite (ite (refl x) (ite (event ..) rfl)) (request ..))

theorem unpinLine (region : Bool) (l : Option Nat) : x.SameButCode (x.unpinLine region l) := by
  cases l with
  | none => exact event ..
  | some l => exact ite (ite rfl (refl x)) rfl

end Tile.SameButCode

/-- UNPIN makes no request. -/
theorem Tile.unpinLine_code (x : Tile) (region : Bool) (l : Option Nat) : (x.unpinLine region l).code = x.code := by
  unfold Tile.unpinLine
  split
  · rfl
  · split
    · dsimp only; split <;> rfl
    · rfl

theorem Tile.request_icache (x : Tile) (region : Bool) (l : Nat) (pin zero : Bool) (ready : Nat) :
    (x.request region l pin zero ready).icache = x.icache := by
  unfold Tile.request
  split
  · rfl
  · split <;> rfl

/-- Without a pin the instruction cache keeps its lines as they are. -/
theorem Tile.fetchLine_icache (x : Tile) (region : Bool) (ready l : Nat) (zero : Bool) :
    (x.fetchLine region false ready l zero).icache = x.icache := by
  simp only [Tile.fetchLine, Bool.false_eq_true, if_false, Bool.not_false, if_true]
  split
  · split
    · rfl
    · split
      · rfl
      · exact x.request_icache ..
  · split
    · rfl
    · exact x.request_icache ..

/-! ### One line (R174, R203) -/

section
variable (s : State) (t : TileId) (c : Fin 4) (region pin : Bool) (ready : Nat) (va : VAddr)

@[simp] theorem State.askLine_cur : (s.askLine t c region pin ready va).cur = s.cur := rfl

theorem State.askLine_untranslated (h : s.lineXlate (s.tile t) ((s.tile t).ctx c) va = none) :
    (s.askLine t c region pin ready va).tile t = (s.tile t).event 0x11 1 := by
  rw [State.askLine, State.tile_setTile, h]

theorem State.askLine_migrating {pa : Nat} {res : Bool} (h : s.lineXlate (s.tile t) ((s.tile t).ctx c) va = some (pa, res, true)) :
    (s.askLine t c region pin ready va).tile t =
      if 4 ≤ (s.tile t).code.length + (s.tile t).codeHeld.length then (s.tile t).event 0x11 1
      else { s.tile t with codeHeld := (s.tile t).codeHeld ++ [⟨c, va, region, pin⟩] } := by
  rw [State.askLine, State.tile_setTile, h]
  simp only [Tile.fetchFull, decide_eq_true_eq, Bool.not_true, Bool.false_eq_true, if_false]

theorem State.askLine_translated {pa : Nat} {res : Bool} (h : s.lineXlate (s.tile t) ((s.tile t).ctx c) va = some (pa, res, false)) :
    (s.askLine t c region pin ready va).tile t = (s.tile t).fetchLine region pin ready (pa / 256) (!res) := by
  rw [State.askLine, State.tile_setTile, h]; rfl

/-- What a line can do: it is counted, held, or looked for in its level. -/
theorem State.askLine_cases : let x := s.tile t
    let y := (s.askLine t c region pin ready va).tile t
    y = x.event 0x11 1 ∨ y = { x with codeHeld := x.codeHeld ++ [⟨c, va, region, pin⟩] } ∨
      ∃ l zero, y = x.fetchLine region pin ready l zero := by
  intro x y
  match h : s.lineXlate x (x.ctx c) va with
  | none => exact .inl (s.askLine_untranslated t c region pin ready va h)
  | some (pa, res, true) =>
    have hy : y = _ := s.askLine_migrating t c region pin ready va h
    split at hy
    · exact .inl hy
    · exact .inr (.inl hy)
  | some (pa, res, false) => exact .inr (.inr ⟨_, _, s.askLine_translated t c region pin ready va h⟩)

theorem State.askLine_sameButCode : (s.tile t).SameButCode ((s.askLine t c region pin ready va).tile t) := by
  rcases s.askLine_cases t c region pin ready va with h | h | ⟨l, zero, h⟩ <;> rw [h]
  · exact .event ..
  · exact rfl
  · exact .fetchLine ..

theorem State.askLine_icache : ((s.askLine t c region false ready va).tile t).icache = (s.tile t).icache := by
  rcases s.askLine_cases t c region false ready va with h | h | ⟨l, zero, h⟩ <;> rw [h]
  · exact rfl
  · exact (s.tile t).fetchLine_icache ..

end

/-! ### A line in its level (R174, R186, R187) -/

section
variable {x : Tile} {l : Nat} (pin zero : Bool) (ready : Nat)

/-- A line that is not yet asked for is asked for, or counted while four requests are outstanding. -/
theorem Tile.request_new {region : Bool} (h : ∀ r ∈ x.code, ¬ (r.region = region ∧ r.line = l)) :
    x.request region l pin zero ready =
      if 4 ≤ x.code.length + x.codeHeld.length then x.event 0x11 1
      else { x with code := x.code ++ [⟨region, l, pin, ready, none, false, zero⟩] } := by
  have : (x.code.any fun r => r.region == region && r.line == l) = false := by
    simpa [List.any_eq_false] using h
  simp only [Tile.request, this, Bool.false_eq_true, if_false, Tile.fetchFull, decide_eq_true_eq]

theorem Tile.fetchLine_uncached (h : ∀ w ∈ x.icache, w.tag ≠ l) :
    x.fetchLine false pin ready l zero = x.request false l pin zero ready := by
  have : (x.icache.any fun w => w.tag == l) = false := by simpa [List.any_eq_false] using h
  simp only [Tile.fetchLine, this, Bool.false_eq_true, if_false]

theorem Tile.fetchLine_cached (h : ∃ w ∈ x.icache, w.tag = l) :
    x.fetchLine false pin ready l zero = 
      if pin = false then x
      else if 3 ≤ (x.icache.filter fun w => w.tag % 8 == l % 8 && w.pinned && w.tag != l).length then x.event 0x11 1 else
      { x with icache := x.icache.map fun w => if w.tag = l then { w with pinned := true } else w } := by
  have : (x.icache.any fun w => w.tag == l) = true := by simpa [List.any_eq_true] using h
  cases pin <;> simp [Tile.fetchLine, Tile.setFull, lineSet, this]

/-- Another line, or none, stands in the line's slot of the code region. -/
theorem Tile.fetchLine_otherSlot (h : x.region[lineSlot l].valid = false ∨ x.region[lineSlot l].tag ≠ l) :
    x.fetchLine true pin ready l zero =
      if x.region[lineSlot l].valid = true ∧ x.region[lineSlot l].pinned = true then x.event 0x11 1 else x.request true l pin zero ready := by
  have : (x.region[lineSlot l].valid && x.region[lineSlot l].tag == l) = false := by
    rcases h with h | h
    · rw [h, Bool.false_and]
    · rw [beq_eq_false_iff_ne.2 h, Bool.and_false]
  simp only [Tile.fetchLine, this, Bool.and_eq_true, Bool.false_eq_true, if_false, if_true]

theorem Tile.fetchLine_inSlot (hv : x.region[lineSlot l].valid = true) (ht : x.region[lineSlot l].tag = l) :
    x.fetchLine true pin ready l zero =
      if pin = true then { x with region := vset x.region (lineSlot l) { x.region[lineSlot l] with pinned := true } } else x := by
  have : (x.region[lineSlot l].valid && x.region[lineSlot l].tag == l) = true := by simp only [hv, ht, beq_self_eq_true, Bool.and_self]
  simp only [Tile.fetchLine, this, if_true]

theorem Tile.unpinLine_inSlot (hv : x.region[lineSlot l].valid = true) (ht : x.region[lineSlot l].tag = l) :
    x.unpinLine true (some l) = { x with region := vset x.region (lineSlot l) { x.region[lineSlot l] with pinned := false } } := by
  have : (x.region[lineSlot l].valid && x.region[lineSlot l].tag == l) = true := by simp only [hv, ht, beq_self_eq_true, Bool.and_self]
  simp only [Tile.unpinLine, this, if_true]

theorem Tile.unpinLine_otherSlot (h : x.region[lineSlot l].valid = false ∨ x.region[lineSlot l].tag ≠ l) :
    x.unpinLine true (some l) = x := by
  have : (x.region[lineSlot l].valid && x.region[lineSlot l].tag == l) = false := by
    rcases h with h | h
    · rw [h, Bool.false_and]
    · rw [beq_eq_false_iff_ne.2 h, Bool.and_false]
  simp only [Tile.unpinLine, this, Bool.false_eq_true, if_false, if_true]

end

/-! ### The lines of a run (R174) -/

/-- An address with its low eight bits cleared. -/
theorem toNat_and_not_255 (x : VAddr) : (x &&& ~~~0xFF).toNat = x.toNat / 256 * 256 := by
  have hx : x.toNat / 256 * 256 = x.toNat >>> 8 <<< 8 := by rw [Nat.shiftRight_eq_div_pow, Nat.shiftLeft_eq]
  have h255 (i : Nat) : (0xFF : VAddr).getLsbD i = decide (i < 8) := by
    show (BitVec.ofNat 48 (2 ^ 8 - 1)).getLsbD i = _
    rw [BitVec.getLsbD_ofNat, Nat.testBit_two_pow_sub_one, Bool.and_eq_right_iff_imp]
    simpa using fun h => Nat.lt_trans h (by decide)
  refine Nat.eq_of_testBit_eq fun i => ?_
  rw [hx, Nat.testBit_shiftLeft, Nat.testBit_shiftRight, BitVec.testBit_toNat, BitVec.testBit_toNat, BitVec.getLsbD_and, BitVec.getLsbD_not, h255]
  by_cases h8 : 8 ≤ i
  · rw [Nat.add_sub_cancel' h8]
    simpa [h8, Nat.not_lt.2 h8] using BitVec.lt_of_getLsbD
  · simp [h8, Nat.lt_of_not_le h8]

/-- The address of a run's line. -/
def runLine (base : VAddr) (j : Nat) : VAddr := BitVec.ofNat 48 (base.toNat / 256 * 256 + 256 * j)

theorem runLines_eq (base : VAddr) (n : Nat) : runLines base n = (List.range n).map (runLine base) := by
  refine List.map_congr_left fun j _ => ?_
  rw [runLine, BitVec.ofNat_add, ← toNat_and_not_255, BitVec.ofNat_toNat, BitVec.setWidth_eq]

/-- The state after PREF or PIN of the first lines of a run. -/
def State.askRun (s : State) (lvl pin : Bool) (ready : Nat) (base : VAddr) (n : Nat) : State :=
  (List.range n).foldl (fun u j => u.askLine s.cur.tile s.cur.ctx lvl pin ready (runLine base j)) s

theorem fetchRun_eq (lvl pin : Bool) (ab : Fin 8) (k : BitVec 8) (s : State) : fetchRun lvl pin ab k s =
    .next (s.askRun lvl pin (s.now + 1 + Config.codeLatency s.free) (s.ra ab) (k.toNat + 1)).bump := by
  have sameCur (ready : Nat) (l : List VAddr) : ∀ u : State, u.cur = s.cur →
      l.foldl (fun u va => u.askLine u.cur.tile u.cur.ctx lvl pin ready va) u =
        l.foldl (fun u va => u.askLine s.cur.tile s.cur.ctx lvl pin ready va) u := by
    induction l with
    | nil => exact fun _ _ => rfl
    | cons va l ih =>
      intro u hu
      rw [List.foldl_cons, List.foldl_cons, hu]
      exact ih _ (u.askLine_cur .. |>.trans hu)
  rw [fetchRun, sameCur _ _ s rfl, runLines_eq, List.foldl_map]
  rfl

theorem State.askRun_cur (s : State) (lvl pin : Bool) (ready : Nat) (base : VAddr) (n : Nat) : (s.askRun lvl pin ready base n).cur = s.cur := by
  unfold State.askRun
  generalize List.range n = l
  have fold : ∀ u : State, (l.foldl (fun u j => u.askLine s.cur.tile s.cur.ctx lvl pin ready (runLine base j)) u).cur = u.cur := by
    induction l with
    | nil => exact fun _ => rfl
    | cons j l ih => exact fun u => (ih _).trans (u.askLine_cur ..)
  exact fold s

/-- What every line keeps of its tile, the run keeps. -/
theorem State.askRun_keeps (s : State) (lvl pin : Bool) (ready : Nat) (base : VAddr) (n : Nat) (P : Tile → Tile → Prop)
    (hr : ∀ x, P x x) (ht : ∀ x y z, P x y → P y z → P x z)
    (h : ∀ (u : State) va, P (u.tile s.cur.tile) ((u.askLine s.cur.tile s.cur.ctx lvl pin ready va).tile s.cur.tile)) :
    P s.curTile (s.askRun lvl pin ready base n).curTile := by
  rw [State.curTile, State.curTile, State.askRun_cur, State.askRun]
  generalize List.range n = l
  have fold : ∀ u : State, P (u.tile s.cur.tile)
      ((l.foldl (fun u j => u.askLine s.cur.tile s.cur.ctx lvl pin ready (runLine base j)) u).tile s.cur.tile) := by
    induction l with
    | nil => exact fun u => hr _
    | cons j l ih => exact fun u => ht _ _ _ (h u _) (ih _)
  exact fold s

theorem execUnpin_eq (lvl : Bool) (ab : Fin 8) (k : BitVec 8) (s : State) : execUnpin lvl ab k s =
    .next (s.modCurTile fun x => (List.range (k.toNat + 1)).foldl (fun u j =>
      u.unpinLine lvl ((s.codePa s.curTile s.curCtx (runLine (s.ra ab) j)).map (· / 256))) x) := by
  simp only [execUnpin, runLines_eq, List.map_map, List.foldl_map, Function.comp_apply]

/-! ### The obligation -/

/-- PREF, PIN and UNPIN keep the tile but for its code storage. -/
theorem exec_code_sameButCode (s : State) (lvl : Bool) (ab : Fin 8) (k : BitVec 8) {i : Instr}
    (h : i = .pref lvl ab k ∨ i = .pin lvl ab k ∨ i = .unpin lvl ab k) : ∃ t, exec i s = .next t ∧ s.curTile.SameButCode t.curTile ∧
      (i = .unpin lvl ab k → t.curTile.code = s.curTile.code) ∧ (i = .pref lvl ab k → t.curTile.icache = s.curTile.icache) := by
  have asks (pin : Bool) (ready n : Nat) : s.curTile.SameButCode (s.askRun lvl pin ready (s.ra ab) n).curTile :=
    s.askRun_keeps lvl pin ready _ n Tile.SameButCode .refl (fun _ _ _ => .trans) fun u va => u.askLine_sameButCode ..
  rcases h with rfl | rfl | rfl
  · refine ⟨_, fetchRun_eq .., asks .., nofun, fun _ => ?_⟩
    exact s.askRun_keeps lvl false _ _ _ (fun x y => y.icache = x.icache) (fun _ => rfl) (fun _ _ _ h h' => h'.trans h)
      fun u va => u.askLine_icache ..
  · exact ⟨_, fetchRun_eq .., asks .., nofun, nofun⟩
  · refine ⟨_, execUnpin_eq .., ?_, fun _ => ?_, nofun⟩
    · rw [State.curTile_modCurTile]
      exact .foldl _ (fun y j => .unpinLine ..) _ _
    · rw [State.curTile_modCurTile]
      exact List.foldlRecOn _ _ (motive := fun y : Tile => y.code = s.curTile.code) rfl fun y h j _ => (y.unpinLine_code ..).trans h

/-- Settles O16: a run is its lines in turn, and each line is what its translation and its level make of it. -/
theorem codePlacementAndLock : Obligations.CodePlacementAndLock := by
  unfold Obligations.CodePlacementAndLock
  refine ⟨fun s grp n lvl ab k => ⟨rfl, fun i hi => ?frame, ?runs, _, execUnpin_eq .., State.curTile_modCurTile ..⟩, ?line, ?unpin⟩
  case frame => exact exec_code_sameButCode s lvl ab k hi
  case runs =>
    rintro i pin (⟨rfl, rfl⟩ | ⟨rfl, rfl⟩) <;> exact ⟨_, s.now + 1 + Config.codeLatency s.free, fetchRun_eq .., by omega, rfl⟩
  case line =>
    intro s t c lvl pin ready va x y full counted
    refine ⟨fun h => s.askLine_untranslated t c lvl pin ready va h, fun pa res h => ?migrating, fun pa res h => ?translated⟩
    case migrating =>
      have hy : y = _ := s.askLine_migrating t c lvl pin ready va h
      exact ⟨fun hf => hy.trans (if_pos hf), fun hf => hy.trans (if_neg hf)⟩
    case translated =>
      have hy : y = x.fetchLine lvl pin ready (pa / 256) (!res) := s.askLine_translated t c lvl pin ready va h
      intro l slot asks
      have asked (h : y = x.request lvl l pin (!res) ready) : asks := by
        intro hn
        rw [Tile.request_new pin (!res) ready hn] at h
        exact ⟨fun hf => h.trans (if_pos hf), fun hf => h.trans (if_neg hf)⟩
      refine ⟨?_, ?_, ?_, ?_⟩
      · rintro rfl hw
        exact asked (hy.trans (Tile.fetchLine_uncached pin (!res) ready hw))
      · rintro rfl hw others
        have hy := hy.trans (Tile.fetchLine_cached pin (!res) ready hw)
        have pins (hp : pin = true) : ¬ pin = false := ne_false_of_eq_true hp
        exact ⟨fun hp => hy.trans (if_pos hp), fun hp ho => hy.trans ((if_neg (pins hp)).trans (if_pos ho)),
          fun hp ho => hy.trans ((if_neg (pins hp)).trans (if_neg (Nat.not_le.2 ho)))⟩
      · rintro rfl hs
        have hy := hy.trans (Tile.fetchLine_otherSlot pin (!res) ready hs)
        refine ⟨fun hv hp => hy.trans (if_pos ⟨hv, hp⟩), fun hu => asked (hy.trans (if_neg fun h => ?_))⟩
        exact hu.elim (ne_false_of_eq_true h.1) (ne_false_of_eq_true h.2)
      · rintro rfl hv ht
        have hy := hy.trans (Tile.fetchLine_inSlot pin (!res) ready hv ht)
        refine ⟨fun hp => hy.trans (if_neg (ne_true_of_eq_false hp)), fun hp => ?_⟩
        rw [hy.trans (if_pos hp)]
        exact ⟨vset_self .., fun j hj => vset_ne _ _ hj, rfl⟩
  case unpin =>
    refine fun x l => ⟨rfl, rfl, ?_, fun hv ht => ?_, Tile.unpinLine_otherSlot⟩
    · simp [Tile.unpinLine]
    · rw [Tile.unpinLine_inSlot hv ht]
      exact ⟨vset_self .., fun j hj => vset_ne _ _ hj⟩

end Sys2Proof.Machine

/-! Guards of queued MXU commands (R176), the arbiter (R159 to R161), ageing (R162): O25. -/

namespace Sys2Proof.Machine

/-! ### Guards of queued MXU commands (R176) -/

section
variable {x : Tile} {m : MxCmd} {v inv : Bool}

theorem Tile.guardFalse_mxq (x : Tile) (c : Fin 4) (id : Nat) : (x.guardFalse c id).mxq = x.mxq.filter fun m => m.id != id :=
  (congrArg Tile.mxq (Tile.retire_frame { x with mxq := x.mxq.filter fun m => m.id != id, cpq := _, chq := _ } id false) :)

theorem Tile.guardFalse_cpq (x : Tile) (c : Fin 4) (id : Nat) : (x.guardFalse c id).cpq = x.cpq.filter fun m => m.id != id :=
  (congrArg Tile.cpq (Tile.retire_frame { x with mxq := _, cpq := x.cpq.filter fun m => m.id != id, chq := _ } id false) :)

theorem Tile.guardFalse_chq (x : Tile) (c : Fin 4) (id : Nat) : (x.guardFalse c id).chq = x.chq.filter fun m => m.id != id :=
  (congrArg Tile.chq (Tile.retire_frame { x with mxq := _, cpq := _, chq := x.chq.filter fun m => m.id != id } id false) :)

theorem Tile.guardFalse_live (x : Tile) (c : Fin 4) (id : Nat) : ∀ l ∈ (x.guardFalse c id).live, l.id ≠ id := Tile.retire_live _ id false

theorem Tile.settleMxGuards_one (hq : x.mxq = [m]) (hg : m.guard = .unresolved v inv) {sel : MxCmd → Bool} (hs : sel m = true) :
    x.settleMxGuards sel = if v ≠ inv then { x with mxq := [{ m with guard := .yes }] } else x.guardFalse m.ctx m.id := by
  have due : (x.mxq.filter fun m => m.guard.pending && sel m) = [m] := by simp [hq, hg, hs, QGuard.pending]
  rw [Tile.settleMxGuards, due, List.foldl_cons, List.foldl_nil, hg]
  simp only [QGuard.value, bne_iff_ne, hq, List.map_cons, List.map_nil, if_true]

/-- Where the two other queues hold nothing, resolution is that of the MXU queue. -/
theorem Tile.resolveGuards_mx (c : Fin 4) (now : Nat) {y : Tile}
    (hy : (x.settleMxGuards fun m => resolves c ((x.ctx c).st != .active) now m.ctx m.tick m.guard) = y) (hc : y.cpq = []) (hh : y.chq = []) :
    x.resolveGuards c now = y := by
  simp only [Tile.resolveGuards, hy, hc, hh, List.filter_nil, List.foldl_nil]

/-- The only queued command is a matrix command of an earlier bundle, whose guard resolves. -/
theorem Tile.resolveGuards_one {now : Nat} (hq : x.mxq = [m]) (hc : x.cpq = []) (hh : x.chq = []) (ht : m.tick < now)
    (hg : m.guard = .unresolved v inv) :
    x.resolveGuards m.ctx now = if v ≠ inv then { x with mxq := [{ m with guard := .yes }] } else x.guardFalse m.ctx m.id := by
  refine Tile.resolveGuards_mx m.ctx now (Tile.settleMxGuards_one hq hg ?_) ?_ ?_
  · simp [resolves, hg, QGuard.pending, ht]
  · split
    · exact hc
    · rw [Tile.guardFalse_cpq, hc]; rfl
  · split
    · exact hh
    · rw [Tile.guardFalse_chq, hh]; rfl

end

/-! ### The first of an ordered list -/

section
variable {α : Type} (le : α → α → Bool)

theorem head?_insertBy (x : α) (l : List α) :
    (insertBy le x l).head? = some (match l.head? with
      | none => x
      | some y => if le y x then y else x) := by
  cases l with
  | nil => rfl
  | cons y l => simp only [insertBy, List.head?_cons]; split <;> rfl

theorem sortBy_concat (l : List α) (x : α) : sortBy le (l ++ [x]) = insertBy le x (sortBy le l) := by
  simp only [sortBy, List.foldl_append, List.foldl_cons, List.foldl_nil]

/-- The first of a list in order is before every element, and of its equals the least, where the list rises. -/
theorem head?_sortBy [LinearOrder α] (trans : ∀ a b c, le a b = true → le b c = true → le a c = true)
    (total : ∀ a b, le a b = false → le b a = true) {l : List α} (hl : l.Pairwise (· < ·)) (hne : l ≠ []) :
    ∃ d ∈ l, (sortBy le l).head? = some d ∧ ∀ e ∈ l, le d e = true ∧ (le e d = true → d ≤ e) := by
  have self (a : α) : le a a = true := by
    cases h : le a a with
    | true => rfl
    | false => exact h.symm.trans (total a a h)
  induction l using List.reverseRecOn with
  | nil => exact absurd rfl hne
  | append_singleton l x ih =>
    obtain ⟨hl, -, hlx⟩ := List.pairwise_append.1 hl
    rcases eq_or_ne l [] with rfl | hn
    · exact ⟨x, List.mem_singleton_self x, rfl, by simp [self]⟩
    obtain ⟨d, hd, hh, best⟩ := ih hl hn
    have hx := hlx d hd x (List.mem_singleton_self x)
    rw [sortBy_concat, head?_insertBy, hh]
    simp only [List.mem_append, List.mem_singleton]
    cases hdx : le d x with
    | true =>
      refine ⟨d, .inl hd, rfl, ?_⟩
      rintro e (he | rfl)
      · exact best e he
      · exact ⟨hdx, fun _ => hx.le⟩
    | false =>
      have hxd := total d x hdx
      refine ⟨x, .inr rfl, rfl, ?_⟩
      rintro e (he | rfl)
      · refine ⟨trans x d e hxd (best e he).1, fun hex => ?_⟩
        exact absurd (trans d e x (best e he).1 hex) (by simp [hdx])
      · exact ⟨self e, fun _ => le_rfl⟩

end

/-! ### The choice of R161 -/

section
variable {t : Tile} {rs : List (Fin 4)} {now : Nat}

/-- Among the ready contexts whose run fits: the highest effective rank, then the longest ready, then the lowest number. -/
theorem Tile.choose_fits (hr : rs.Pairwise (· < ·)) (hf : ∃ e ∈ rs, (t.ctx e).run ≤ 4096 - now % 4096) :
    ∃ d ∈ rs, t.choose rs now = some d ∧ (t.ctx d).run ≤ 4096 - now % 4096 ∧ ∀ e ∈ rs, (t.ctx e).run ≤ 4096 - now % 4096 →
      (t.ctx e).eff < (t.ctx d).eff ∨ (t.ctx e).eff = (t.ctx d).eff ∧
        ((t.ctx d).readySince.getD now < (t.ctx e).readySince.getD now ∨
          (t.ctx d).readySince.getD now = (t.ctx e).readySince.getD now ∧ d ≤ e) := by
  obtain ⟨e, he, hfe⟩ := hf
  have hne : (rs.filter fun c => decide ((t.ctx c).run ≤ 4096 - now % 4096)) ≠ [] :=
    List.ne_nil_of_mem (List.mem_filter.2 ⟨he, decide_eq_true hfe⟩)
  obtain ⟨d, hd, hh, best⟩ := head?_sortBy (fun a b => decide ((t.ctx b).eff < (t.ctx a).eff) ||
    (decide ((t.ctx a).eff = (t.ctx b).eff) && decide ((t.ctx a).readySince.getD now ≤ (t.ctx b).readySince.getD now)))
    (by simp only [Bool.or_eq_true, Bool.and_eq_true, decide_eq_true_eq]; omega)
    (by simp only [Bool.or_eq_true, Bool.and_eq_true, decide_eq_true_eq, Bool.or_eq_false_iff, Bool.and_eq_false_iff, decide_eq_false_iff_not]; omega)
    (hr.filter _) hne
  obtain ⟨hd, hfd⟩ := List.mem_filter.1 hd
  refine ⟨d, hd, ?_, of_decide_eq_true hfd, fun e he hfe => ?_⟩
  · simp only [Tile.choose, List.isEmpty_eq_false_iff.2 hne, Bool.false_eq_true, if_false]
    exact hh
  · have := best e (List.mem_filter.2 ⟨he, decide_eq_true hfe⟩)
    simp only [Bool.or_eq_true, Bool.and_eq_true, decide_eq_true_eq] at this
    omega

/-- Where no ready context's run fits: the shortest run, then the highest effective rank, then the lowest number. -/
theorem Tile.choose_shortest (hr : rs.Pairwise (· < ·)) (hne : rs ≠ []) (hf : ∀ e ∈ rs, ¬ (t.ctx e).run ≤ 4096 - now % 4096) :
    ∃ d ∈ rs, t.choose rs now = some d ∧ ∀ e ∈ rs, (t.ctx d).run < (t.ctx e).run ∨ (t.ctx d).run = (t.ctx e).run ∧
      ((t.ctx e).eff < (t.ctx d).eff ∨ (t.ctx e).eff = (t.ctx d).eff ∧ d ≤ e) := by
  have hnil : (rs.filter fun c => decide ((t.ctx c).run ≤ 4096 - now % 4096)) = [] :=
    List.filter_eq_nil_iff.2 fun e he => by simpa using hf e he
  obtain ⟨d, hd, hh, best⟩ := head?_sortBy (fun a b => decide ((t.ctx a).run < (t.ctx b).run) ||
    (decide ((t.ctx a).run = (t.ctx b).run) && decide ((t.ctx b).eff ≤ (t.ctx a).eff)))
    (by simp only [Bool.or_eq_true, Bool.and_eq_true, decide_eq_true_eq]; omega)
    (by simp only [Bool.or_eq_true, Bool.and_eq_true, decide_eq_true_eq, Bool.or_eq_false_iff, Bool.and_eq_false_iff, decide_eq_false_iff_not]; omega)
    hr hne
  refine ⟨d, hd, ?_, fun e he => ?_⟩
  · simp only [Tile.choose, hnil, List.isEmpty_nil, if_true]
    exact hh
  · have := best e he
    simp only [Bool.or_eq_true, Bool.and_eq_true, decide_eq_true_eq] at this
    omega

end

/-- The grant's tick: not before `lo`, and three ticks after the last bundle of another context. -/
theorem Tile.grant_arb (t : Tile) (c : Fin 4) (lo : Nat) : ∃ k, (t.grant c lo).arb = .run c k ∧ lo ≤ k ∧
    ∀ e n, t.lastIssue = some (e, n) → e ≠ c → n + 3 ≤ k := by
  refine ⟨_, rfl, ?_, ?_⟩
  · split
    · exact le_rfl
    · exact le_max_left ..
  · intro e n h hne
    rw [h]
    simp only [if_neg hne]
    exact le_max_right ..

theorem Tile.readyFor_iff (t : Tile) (now : Nat) (d : Fin 4) : t.readyFor now d = true ↔
    (t.ctx d).st = .active ∧ ((t.ctx d).readySince.isSome = true ∨ t.lastIssue = some (d, now)) := by
  simp only [Tile.readyFor, Bool.and_eq_true, Bool.or_eq_true, beq_iff_eq]

/-- The arbiter gives the width to the context it chooses among the ready ones, from a tick on; with none it gives it to nobody. -/
def Tile.arbitrate (t : Tile) (ready : List (Fin 4)) (now lo : Nat) : Tile :=
  match t.choose ready now with
  | some c => t.grant c lo
  | none => { t with arb := .idle }

theorem Tile.arbitrate_some {t : Tile} {ready : List (Fin 4)} {now : Nat} {d : Fin 4} (lo : Nat) (h : t.choose ready now = some d) :
    t.arbitrate ready now lo = t.grant d lo := by
  rw [Tile.arbitrate, h]

theorem exec_arbiterChoice (s : State) (t : TileId) : ∃ lo, s.now ≤ lo ∧ exec (.arbiterChoice t) s =
    .next (s.modTile t fun x => x.arbitrate ((List.finRange 4).filter ((s.tile t).readyFor s.now)) s.now lo) := by
  refine ⟨_, ?_, rfl⟩
  split <;> omega

/-! ### Who waits, and for how long (R159, R162) -/

/-- One update for each context of a list without repetition. -/
theorem Tile.ctx_foldl_modCtx {l : List (Fin 4)} (hl : l.Nodup) (f : Fin 4 → Context → Context) (x : Tile) (c : Fin 4) :
    (l.foldl (fun x d => x.modCtx d (f d)) x).ctx c = if c ∈ l then f c (x.ctx c) else x.ctx c := by
  induction l generalizing x with
  | nil => rfl
  | cons d l ih =>
    obtain ⟨hd, hl⟩ := List.nodup_cons.1 hl
    rw [List.foldl_cons, ih hl]
    by_cases hc : c = d
    · subst hc
      rw [if_neg hd, if_pos (List.mem_cons_self ..), Tile.ctx_modCtx]
    · simp only [List.mem_cons, hc, false_or, Tile.ctx_modCtx_ne x (f d) hc]

theorem State.ctx_noteReady (s : State) (t : TileId) (c : Fin 4) : (s.noteReady t).ctx t c =
    { s.ctx t c with readySince := if s.ready (s.tile t) c then (s.ctx t c).readySince.or (some s.now) else none } := by
  rw [State.noteReady, State.ctx_modTile, List.foldl_map]
  exact (Tile.ctx_foldl_modCtx (List.nodup_finRange 4) (fun d y =>
    { y with readySince := if s.ready (s.tile t) d then y.readySince.or (some s.now) else none }) _ c).trans (if_pos (List.mem_finRange c))

theorem State.readySince_noteReady (s : State) (t : TileId) (c : Fin 4) :
    (s.ready (s.tile t) c = true → ((s.noteReady t).ctx t c).readySince = some ((s.ctx t c).readySince.getD s.now)) ∧
    (s.ready (s.tile t) c = false → ((s.noteReady t).ctx t c).readySince = none) := by
  rw [State.ctx_noteReady]
  refine ⟨fun h => ?_, fun h => if_neg (Bool.eq_false_iff.1 h)⟩
  rw [h]
  show (s.ctx t c).readySince.or (some s.now) = _
  cases (s.ctx t c).readySince <;> rfl

/-- A step of ageing stays inside the field of the effective rank. -/
theorem rank_step {r : Word} (h : r.toNat / 256 % 256 < 255) :
    (r + 256).toNat / 256 % 256 = r.toNat / 256 % 256 + 1 ∧ (r + 256).toNat % 256 = r.toNat % 256 := by
  have := r.isLt
  have h256 : (256 : Word).toNat = 256 := rfl
  rw [BitVec.toNat_add, h256]
  omega

theorem exec_rankAgeing (s : State) (t : TileId) (c : Fin 4) : ∃ s', exec (.rankAgeing t c) s = .next s' ∧
    s'.ctx t c = if (s.ctx t c).readySince.isNone ∨ 255 ≤ (s.ctx t c).eff then s.ctx t c else { s.ctx t c with rank := (s.ctx t c).rank + 256 } :=
  ⟨_, rfl, s.ctx_modCtx t c _⟩

/-! ### The obligation -/

/-- Settles O25: the guard of the one queued command, the arbiter's choice by the first of the ordered list, readiness and ageing. -/
theorem tileScheduling : Obligations.TileScheduling := by
  unfold Obligations.TileScheduling
  refine ⟨?guards, fun s t c => ⟨?arbiter, s.readySince_noteReady t c, fun d => (s.tile t).readyFor_iff s.now d, ?ageing⟩⟩
  case guards =>
    rintro s t c m v inv hq hc hh rfl ht hg
    have hr := Tile.resolveGuards_one hq hc hh ht hg
    refine ⟨_, rfl, fun h => ?_, fun h => ?_⟩ <;> rw [State.tile_modTile, hr]
    · rw [if_pos h]
    · rw [if_neg (not_not.2 h)]
      refine ⟨?_, (s.tile t).guardFalse_live m.ctx m.id⟩
      rw [Tile.guardFalse_mxq, hq]
      simp
  case arbiter =>
    obtain ⟨lo, hlo, he⟩ := exec_arbiterChoice s t
    refine ⟨_, he, ?_⟩
    intro x waits run fits eff since
    have hrs : ((List.finRange 4).filter (x.readyFor s.now)).Pairwise (· < ·) := (List.pairwise_lt_finRange 4).filter _
    have mem (d : Fin 4) : d ∈ (List.finRange 4).filter (x.readyFor s.now) ↔ waits d := by
      simp only [List.mem_filter, List.mem_finRange, true_and]; exact Iff.rfl
    rw [State.tile_modTile]
    refine ⟨fun h => ?idle, fun ⟨e, he⟩ => ?_⟩
    case idle => rw [List.filter_eq_nil_iff.2 fun d _ => h d]; rfl
    by_cases hf : ∃ e, fits e
    · obtain ⟨d, hd, hch, hfd, best⟩ := Tile.choose_fits hrs (hf.imp fun e h => ⟨(mem e).2 h.1, h.2⟩)
      obtain ⟨k, ha, hk, hi⟩ := x.grant_arb d lo
      rw [Tile.arbitrate_some lo hch]
      exact ⟨d, k, (mem d).1 hd, ha, hlo.trans hk, hi, fun _ => ⟨⟨(mem d).1 hd, hfd⟩, fun a h => best a ((mem a).2 h.1) h.2⟩,
        fun h => absurd hf (not_exists.2 h)⟩
    · obtain ⟨d, hd, hch, best⟩ := Tile.choose_shortest hrs (List.ne_nil_of_mem ((mem e).2 he)) fun a ha h => hf ⟨a, (mem a).1 ha, h⟩
      obtain ⟨k, ha, hk, hi⟩ := x.grant_arb d lo
      rw [Tile.arbitrate_some lo hch]
      exact ⟨d, k, (mem d).1 hd, ha, hlo.trans hk, hi, fun h => absurd h hf, fun _ a h => best a ((mem a).2 h)⟩
  case ageing =>
    obtain ⟨s', he, hs⟩ := exec_rankAgeing s t c
    refine ⟨s', he, fun hr hl => ?_, fun h => ?_⟩
    · have : ¬ ((s.ctx t c).readySince.isNone ∨ 255 ≤ (s.ctx t c).eff) := by
        rw [Option.isNone_eq_false_iff.2 hr]; simp only [Bool.false_eq_true, false_or]; omega
      rw [hs, if_neg this]
      exact rank_step hl
    · rw [hs, if_pos (h.imp_left fun h => by rw [h]; rfl)]

end Sys2Proof.Machine

/-! Code lines that arrive (R174, R179, R186, R187, R202), corrected words, the scrubber (R204): O26. -/

namespace Sys2Proof.Machine

/-! ### The bytes of a line (R202, R204) -/

@[simp] theorem State.length_lineBytes (s : State) (zero : Bool) (pa n : Nat) : (s.lineBytes zero pa n).length = n := by
  cases zero <;> simp [State.lineBytes, State.heapRun]

theorem State.lineBytes_get (s : State) (zero : Bool) (pa n : Nat) {i : Nat} (h : i < (s.lineBytes zero pa n).length) :
    (s.lineBytes zero pa n)[i] = if zero then 0 else s.heapByte (pa + i) := by
  cases zero <;> simp [State.lineBytes, State.heapRun]

/-! ### The instruction cache (R174, R186) -/

theorem Tile.count_code (x : Tile) (i : Fin 10) (n : Nat) : (x.count i n).code = x.code := (congrArg Tile.code (x.count_frame i n) :)

theorem Tile.count_icache (x : Tile) (i : Fin 10) (n : Nat) : (x.count i n).icache = x.icache :=
  (congrArg Tile.icache (x.count_frame i n) :)

section
variable {x : Tile} (line : Nat) (data : List Byte) (pin : Bool) (now : Nat)

theorem Tile.insertLine_code (x : Tile) : (x.insertLine line data pin now).code = x.code := by
  unfold Tile.insertLine
  extract_lets inSet others pinned t keep
  have ht : t.code = x.code := by simp only [t]; split <;> rfl
  split
  · exact ht
  · split <;> exact ht

/-- Where no line is pinned, the line that arrives finds a way. -/
theorem Tile.mem_insertLine (h : ∀ l ∈ x.icache, l.pinned = false) :
    ∃ l ∈ (x.insertLine line data pin now).icache, l.tag = line ∧ l.data = data := by
  have last (l : List ILine) (p : Bool) : ∃ w ∈ l ++ [(⟨line, data, p, now⟩ : ILine)], w.tag = line ∧ w.data = data :=
    ⟨_, List.mem_append_right _ (List.mem_singleton_self _), rfl, rfl⟩
  unfold Tile.insertLine
  extract_lets inSet others pinned t keep
  split
  · exact last ..
  · rename_i hk
    have hkeep : (keep.filter fun l => !l.pinned) = keep :=
      List.filter_eq_self.2 fun l hl => by rw [h l (List.mem_filter.1 (List.mem_filter.1 hl).1).1]; rfl
    rw [hkeep]
    split
    · rename_i hs
      obtain ⟨l, hl⟩ := List.exists_mem_of_length_pos (l := keep) (by omega)
      have := (mem_sortBy (fun a b : ILine => decide (a.used ≤ b.used)) l keep).2 hl
      rw [hs] at this
      exact absurd this List.not_mem_nil
    · exact last ..

end

theorem exec_instructionCacheFill {s : State} {t : TileId} {r : CodeReq} (hc : (s.tile t).code = [r]) (hn : r.ready ≤ s.now)
    (hr : r.region = false) : exec (.instructionCacheFill t) s = .next (s.modTile t fun x =>
      ({ x with code := x.code.erase r }.insertLine r.line (s.lineBytes r.zero (r.line * 256) 256) r.pin s.now).count eccUE
        (s.lineBad r.zero (r.line * 256) 256)) := by
  have found : ((s.tile t).code.find? fun r => !r.region && decide (r.ready ≤ s.now)) = some r := by simp [hc, hr, hn]
  show execInstructionCacheFill t s = _
  rw [execInstructionCacheFill]
  simp only [found]

/-! ### The code region (R179, R187) -/

theorem Tile.writeSpm_code (x : Tile) (l : List (Nat × Byte)) : (x.writeSpm l).code = x.code := (congrArg Tile.code (x.writeSpm_frame l) :)

/-- Where a request's next bank row goes in the scratchpad, and where it comes from in its line. -/
def CodeReq.rowOff (r : CodeReq) : Nat := if r.half = true then 128 else 0
def CodeReq.rowAt (r : CodeReq) : Nat := 0xE000 + 256 * (r.line % 32) + r.rowOff

theorem CodeReq.rowAt_le (r : CodeReq) : r.rowAt + 128 ≤ 65536 := by
  unfold CodeReq.rowAt CodeReq.rowOff; split <;> omega

/-- The bank row is in the scratchpad; the second one makes the slot valid, the first one is noted in the request. -/
def Tile.fillRow (x : Tile) (r : CodeReq) (data : List Byte) (bad : Nat) (pin : Bool) : Tile :=
  let y := (({ x with portBusy := true, portLast := .code } : Tile).writeSpm (numbered r.rowAt data)).count eccUE bad
  if r.half then { y with code := y.code.erase r, region := vset y.region (lineSlot r.line) ⟨r.line, pin, true⟩ }
  else { y with code := y.code.map fun q => if q = r then { r with half := true, pin := pin } else q }

theorem exec_codeRegionFill {s : State} {t : TileId} {r : CodeReq} (hc : (s.tile t).code = [r]) (hn : r.ready ≤ s.now)
    (hr : r.region = true) (hl : (s.tile t).lock = none) (hv : r.half = true ∨ (s.tile t).region[lineSlot r.line].valid = false) :
    exec (.codeRegionFill t) s = .next (s.modTile t fun x =>
      x.fillRow r (s.lineBytes r.zero (r.line * 256 + r.rowOff) 128) (s.lineBad r.zero (r.line * 256 + r.rowOff) 128)
        (r.pin || (!r.half && (s.tile t).region[lineSlot r.line].pinned && (s.tile t).region[lineSlot r.line].tag == r.line))) := by
  have found : ((s.tile t).code.find? fun r => r.region && decide (r.ready ≤ s.now)) = some r := by simp [hc, hr, hn]
  have free : (!r.half && (s.tile t).region[lineSlot r.line].valid) = false := by
    rcases hv with h | h <;> rw [h]
    · rfl
    · exact Bool.and_false _
  have unlocked (as : List Nat) : (s.tile t).locked s.now as = false := by simp [Tile.locked, Tile.lockedBank, hl]
  show execCodeRegionFill t s = _
  rw [execCodeRegionFill]
  simp only [found, free, unlocked, Bool.false_and, Bool.false_eq_true, if_false]
  rfl

section
variable {x : Tile} {r : CodeReq} {data : List Byte} (bad : Nat) (pin : Bool)

theorem Tile.fillRow_spm (hd : data.length = 128) : (x.fillRow r data bad pin).spm = x.spm.writeN r.rowAt data := by
  have row := congrArg x.spm.writeAll (numbered_spmAddr r.rowAt data (hd ▸ r.rowAt_le))
  unfold Tile.fillRow
  extract_lets y
  have hy : y.spm = x.spm.writeN r.rowAt data := by
    simp only [y, Tile.count_spm, Tile.writeSpm_spm]
    exact row
  split <;> exact hy

/-- What the row's write leaves of the requests. -/
theorem Tile.fillRow_code (hc : x.code = [r]) : (x.fillRow r data bad pin).code =
    if r.half then [] else [{ r with half := true, pin := pin }] := by
  unfold Tile.fillRow
  extract_lets y
  have hy : y.code = [r] := by
    exact (Tile.count_code ..).trans ((Tile.writeSpm_code ..).trans hc)
  split <;> simp [hy]

theorem Tile.fillRow_region (hh : r.half = true) : (x.fillRow r data bad pin).region[lineSlot r.line] = ⟨r.line, pin, true⟩ := by
  rw [Tile.fillRow, if_pos hh]
  exact vset_self ..

theorem Tile.fillRow_read (hw : x.spm.wf = true) (hd : data.length = 128) {i : Nat} (hi : i < data.length) :
    (x.fillRow r data bad pin).spm.read (r.rowAt + i) = data[i] := by
  rw [Tile.fillRow_spm bad pin hd, Memory.read_writeN_in _ _ _ hw hi]

theorem Tile.fillRow_read_out (hw : x.spm.wf = true) (hd : data.length = 128) {a : Nat} (ha : a < r.rowAt ∨ r.rowAt + 128 ≤ a) :
    (x.fillRow r data bad pin).spm.read a = x.spm.read a := by
  rw [Tile.fillRow_spm bad pin hd, Memory.read_writeN_out _ _ _ hw (hd ▸ ha)]

end

/-! ### The obligation -/

theorem exec_scrub (s : State) (t : TileId) : ∃ m ws, exec (.scrub t) s =
    .next (s.setTile t { (s.tile t).noteReads m ws with scrubAt := (s.tile t).scrubAt + 1 }) :=
  ⟨(scrubWord ((s.tile t).scrubAt % scrubWords)).1, [(scrubWord ((s.tile t).scrubAt % scrubWords)).2], rfl⟩

/-- Settles O26: a line is inserted, or its row written, with the bytes of the heap; write-back and scrubber by their definitions. -/
theorem codeLinesFill : Obligations.CodeLinesFill := by
  unfold Obligations.CodeLinesFill
  refine ⟨fun s t r hc hn => ⟨fun hr hp => ?cache, fun hr hw hl hv => ?region⟩, ?writeback, ?scrub⟩
  case cache =>
    refine ⟨_, exec_instructionCacheFill hc hn hr, ?_⟩
    rw [State.tile_modTile]
    rw [Tile.count_code, Tile.count_icache, Tile.insertLine_code, hc]
    refine ⟨by simp, ?_⟩
    exact Tile.mem_insertLine r.line (s.lineBytes r.zero (r.line * 256) 256) r.pin s.now hp
  case region =>
    intro lo at_
    refine ⟨_, exec_codeRegionFill hc hn hr hl hv, ?_⟩
    rw [State.tile_modTile]
    have hd := s.length_lineBytes r.zero (r.line * 256 + r.rowOff) 128
    refine ⟨fun hh => ?_, fun hh => ⟨?_, ?_⟩, fun i hi => ?_, fun a ha => Tile.fillRow_read_out _ _ hw hd ha⟩
    · exact ⟨_, (Tile.fillRow_code _ _ hc).trans (if_neg (by simp [hh])), rfl, hr, rfl, rfl, fun hp => by simp [hp]⟩
    · exact (Tile.fillRow_code _ _ hc).trans (if_pos hh)
    · rw [Tile.fillRow_region _ _ hh, hh]
      simp
    · exact (Tile.fillRow_read _ _ hw hd (hi.trans_eq hd.symm)).trans (s.lineBytes_get ..)
  case writeback =>
    intro s t u l hf
    refine ⟨_, rfl, ?_⟩
    rw [State.tile_modTile, hf]
    exact ⟨rfl, by simp, rfl⟩
  case scrub =>
    intro s t
    obtain ⟨m, ws, he⟩ := exec_scrub s t
    refine ⟨_, he, ?_⟩
    rw [State.tile_setTile]
    exact ⟨rfl, (s.tile t).noteReads_spm m ws, (congrArg Tile.upsets ((s.tile t).noteReads_frame m ws) :), fun u hu => s.tile_setTile_ne _ hu⟩

end Sys2Proof.Machine

/-! ### Canonical memories (O57)

`State.memOk` is taken apart memory by memory: a tile, a port's scout and the firmware have canonical memories when their own are.
One lemma for each operation of the model says that it keeps them; an operation that writes no memory keeps them because it leaves
them as they are. The lemmas stand in the order of the operations: of a tile, of a port, of the part, and the instructions. -/

namespace Sys2Proof.Machine

-- one theorem at a time: many elaborations at once need more stacks than the memory limit holds
set_option Elab.async false

/-- Both images of a tile's scratchpad are canonical. -/
def Tile.Canon (x : Tile) : Prop := x.spm.wf = true ∧ x.spmPrev.wf = true

/-- The SRAM of a scout is canonical. -/
def Scout.Canon (c : Scout) : Prop := c.sram.wf = true

/-- The SRAM of a port's scout is canonical. -/
def Port.Canon (p : Port) : Prop := p.scout.Canon

/-- Every firmware image that the host has written is canonical. -/
def Firmware.Canon (f : Firmware) : Prop := ∀ b ∈ f.banks.toList, b.all Memory.wf = true

/-- Every memory of the part is canonical, memory by memory. -/
def State.Canon (s : State) : Prop :=
  s.heap.wf = true ∧ s.host.wf = true ∧ (∀ e ∈ s.tiles, e.2.Canon) ∧ (∀ p ∈ s.ports.toList, p.Canon) ∧ s.fw.Canon

theorem State.memOk_iff_canon (s : State) : s.memOk = true ↔ s.Canon := by
  simp only [State.memOk, State.Canon, Tile.Canon, Port.Canon, Scout.Canon, Firmware.Canon, Bool.and_eq_true, List.all_eq_true, and_assoc]

/-- An outcome whose state has canonical memories. -/
def Out.Canon (o : Out) : Prop := ∃ s, o = .next s ∧ s.Canon

section

variable {s s' : State} {x y : Tile} {p q : Port} {c d : Scout}

namespace Tile.Canon

theorem reset : Tile.reset.Canon := ⟨rfl, rfl⟩

/-- An operation that leaves both images alone keeps them canonical. -/
theorem frame (h : x.Canon) (hs : y.spm = x.spm := by rfl) (hp : y.spmPrev = x.spmPrev := by rfl) : y.Canon := by
  rw [Tile.Canon, hs, hp]
  exact h

theorem ite {a : Prop} [Decidable a] (h : x.Canon) (h' : y.Canon) : (if a then x else y).Canon := by
  split
  · exact h
  · exact h'

theorem foldl {α : Type} {f : Tile → α → Tile} {l : List α} (hf : ∀ {y a}, y.Canon → (f y a).Canon) (h : x.Canon) : (l.foldl f x).Canon := by
  induction l generalizing x with
  | nil => exact h
  | cons a l ih => exact ih (hf h)

theorem writeSpm {l : List (Nat × Byte)} (h : x.Canon) : (x.writeSpm l).Canon := by
  have hp : (x.writeSpm l).spmPrev = x.spmPrev := (congrArg Tile.spmPrev (x.writeSpm_frame l) :)
  exact ⟨x.wf_writeSpm l h.1, hp ▸ h.2⟩

end Tile.Canon

/-- What is left of a canonical memory after some of its bytes are dropped is canonical. -/
theorem Memory.wf_filter {m : Memory} (f : Host.Cell → Bool) (h : m.wf = true) : Memory.wf (m.filter f) = true := by
  induction m with
  | nil => rfl
  | cons e m ih =>
    obtain ⟨hb, hlt, hm⟩ := (Memory.wf_cons e.1 e.2 m).1 h
    rw [List.filter_cons]
    split
    · exact (Memory.wf_cons ..).2 ⟨hb, fun e' he' => hlt e' (List.mem_filter.1 he').1, ih hm⟩
    · exact ih hm

theorem Firmware.Canon.image {f : Firmware} {k : Fin 4} (h : f.Canon) : (f.image k).wf = true := by
  unfold Firmware.image
  cases hb : f.banks[k] with
  | none => exact Memory.wf_writeAll _ rfl
  | some m => simpa [hb] using h f.banks[k] (by simp)

theorem Firmware.Canon.set {f : Firmware} {k : Fin 4} {m : Memory} (hm : m.wf = true) (h : f.Canon) :
    Firmware.Canon { f with banks := vset f.banks k (some m) } := by
  intro b hb
  obtain ⟨i, hi, rfl⟩ := List.mem_iff_getElem.1 hb
  have hi' : i < 4 := by simpa using hi
  show ((vset f.banks k (some m))[(⟨i, hi'⟩ : Fin 4)]).all Memory.wf = true
  rw [vset_get]
  split
  · exact hm
  · exact h _ (by simp)

theorem Port.Canon.ite {a : Prop} [Decidable a] (h : p.Canon) (h' : q.Canon) : (if a then p else q).Canon := by
  split
  · exact h
  · exact h'

theorem Port.Canon.foldl {α : Type} {f : Port → α → Port} {l : List α} (hf : ∀ {y a}, y.Canon → (f y a).Canon) (h : p.Canon) :
    (l.foldl f p).Canon := by
  induction l generalizing p with
  | nil => exact h
  | cons a l ih => exact ih (hf h)

theorem Scout.Canon.write {a : Nat} {bs : List Byte} (h : c.Canon) : (c.write a bs).Canon := Memory.wf_writeN a bs h

theorem Scout.Canon.ite {a : Prop} [Decidable a] (h : c.Canon) (h' : d.Canon) : (if a then c else d).Canon := by
  split
  · exact h
  · exact h'

theorem Scout.Canon.foldl {α : Type} {f : Scout → α → Scout} {l : List α} (hf : ∀ {y a}, y.Canon → (f y a).Canon) (h : c.Canon) :
    (l.foldl f c).Canon := by
  induction l generalizing c with
  | nil => exact h
  | cons a l ih => exact ih (hf h)

namespace State.Canon

/-- An operation that leaves every memory alone keeps them canonical. -/
theorem same (h : s.Canon) (hh : s'.heap = s.heap := by rfl) (ho : s'.host = s.host := by rfl) (ht : s'.tiles = s.tiles := by rfl)
    (hp : s'.ports = s.ports := by rfl) (hf : s'.fw.banks = s.fw.banks := by rfl) : s'.Canon := by
  rw [State.Canon, Firmware.Canon, hh, ho, ht, hp, hf]
  exact h

theorem ite {a : Prop} [Decidable a] (h : s.Canon) (h' : s'.Canon) : (if a then s else s').Canon := by
  split
  · exact h
  · exact h'

theorem foldl {α : Type} {f : State → α → State} {l : List α} (hf : ∀ {t a}, t.Canon → (f t a).Canon) (h : s.Canon) :
    (l.foldl f s).Canon := by
  induction l generalizing s with
  | nil => exact h
  | cons a l ih => exact ih (hf h)

theorem tile {t : TileId} (h : s.Canon) : (s.tile t).Canon := s.memOk_tile t (s.memOk_iff_canon.2 h)

theorem setTile {t : TileId} (hx : x.Canon) (h : s.Canon) : (s.setTile t x).Canon :=
  (State.memOk_iff_canon _).1 (s.memOk_setTile t x (s.memOk_iff_canon.2 h) hx.1 hx.2)

theorem modTile {t : TileId} {f : Tile → Tile} (hf : ∀ {x}, x.Canon → (f x).Canon) (h : s.Canon) : (s.modTile t f).Canon :=
  h.setTile (hf h.tile)

theorem modCtx {t : TileId} {c : Fin 4} {f : Context → Context} (h : s.Canon) : (s.modCtx t c f).Canon := h.modTile fun h => h

/-- Every tile of the part updated. -/
theorem mapTiles {f : TileId × Tile → TileId × Tile} (hf : ∀ {e}, e.2.Canon → (f e).2.Canon) (h : s.Canon) :
    State.Canon { s with tiles := s.tiles.map f } := by
  obtain ⟨heap, host, tiles, rest⟩ := h
  refine ⟨heap, host, fun e he => ?_, rest⟩
  obtain ⟨e', he', rfl⟩ := List.mem_map.1 he
  exact hf (tiles e' he')

theorem port {k : Fin 16} (h : s.Canon) : (s.port k).Canon := by
  obtain ⟨-, -, -, ports, -⟩ := h
  exact ports _ (by simp [State.port])

theorem setPorts {ps : Vector Port 16} (hp : ∀ k : Fin 16, ps[k].Canon) (h : s.Canon) : State.Canon { s with ports := ps } := by
  obtain ⟨heap, host, tiles, -, fw⟩ := h
  refine ⟨heap, host, tiles, fun p hp' => ?_, fw⟩
  obtain ⟨i, hi, rfl⟩ := List.mem_iff_getElem.1 hp'
  exact hp ⟨i, by simpa using hi⟩

theorem modPort {k : Fin 16} {f : Port → Port} (hf : ∀ {p}, p.Canon → (f p).Canon) (h : s.Canon) : (s.modPort k f).Canon := by
  refine h.setPorts fun j => ?_
  rw [vset_get]
  split
  · exact hf h.port
  · exact h.port

theorem modScout {f : Scout → Scout} (hf : ∀ {c}, c.Canon → (f c).Canon) (h : s.Canon) : (s.modScout f).Canon := h.modPort hf

theorem writeHeap {l : List (Nat × Byte)} (h : s.Canon) : (s.writeHeap l).Canon := by
  obtain ⟨heap, rest⟩ := h
  exact ⟨Memory.wf_writeAll l heap, rest⟩

theorem hostWrite {a : Nat} {bs : List Byte} (h : s.Canon) : (s.hostWrite a bs).Canon := by
  obtain ⟨heap, host, rest⟩ := h
  exact ⟨heap, Memory.wf_writeAll _ host, rest⟩

theorem reset : State.reset.Canon := by
  obtain ⟨h, -⟩ := resetState
  exact (State.memOk_iff_canon _).1 h

theorem fw (h : s.Canon) : s.fw.Canon := by
  obtain ⟨-, -, -, -, fw⟩ := h
  exact fw

theorem setFw {f : Firmware} (hf : f.Canon) (h : s.Canon) : State.Canon { s with fw := f } := by
  obtain ⟨heap, host, tiles, ports, -⟩ := h
  exact ⟨heap, host, tiles, ports, hf⟩

end State.Canon

namespace Out.Canon

theorem next (h : s.Canon) : Out.Canon (.next s) := ⟨s, rfl, h⟩

theorem ite {a : Prop} [Decidable a] {o o' : Out} (h : o.Canon) (h' : o'.Canon) : Out.Canon (if a then o else o') := by
  split
  · exact h
  · exact h'

end Out.Canon

end

section

variable {t : Tile} {now id n off line ready lo k : Nat} {c q mem : Fin 4} {r : CollRun} {laneR region pin : Bool} {ws : List Nat} {ch : Fin 256} {i : Fin 6} {row : Fin 64} {f : Flit}

namespace Tile.Canon

theorem closeLock (h : t.Canon) : (t.closeLock c now).Canon := by
  unfold Tile.closeLock
  split
  · exact .ite h h
  · exact h

theorem count {i : Fin 10} (h : t.Canon) : (t.count i n).Canon := .ite h h

theorem noteReads (h : t.Canon) : (t.noteReads mem ws).Canon := by
  unfold Tile.noteReads
  extract_lets +onlyGivenNames ue ce
  split
  · exact h
  · extract_lets +onlyGivenNames t₁
    have ht₁ : t₁.Canon := .count (.count h)
    exact ht₁

theorem readTable (h : t.Canon) : (t.readTable off n).Canon := .noteReads h

theorem readWait {i : Instr} (h : t.Canon) : (t.readWait i).Canon := .foldl (fun h' => .readTable h') h

theorem retire {counted : Bool} (h : t.Canon) : (t.retire id counted).Canon := by
  unfold Tile.retire
  split
  · exact h
  · extract_lets +onlyGivenNames t₁ t₂
    have ht₂ : t₂.Canon := by
      unfold t₂
      split
      · split <;> exact h
      · exact h
    exact ht₂

theorem mxLeave (h : t.Canon) : (t.mxLeave id).Canon := .retire h

theorem mxFinish {r : MxRun} {c : MxCmd} (h : t.Canon) : (t.mxFinish now r c).Canon := by
  unfold Tile.mxFinish
  extract_lets +onlyGivenNames pops t₁ due t₂
  have ht₁ : t₁.Canon := by
    unfold t₁
    split <;> exact h
  have ht₂ : t₂.Canon := .foldl (fun h => h) ht₁
  exact .mxLeave ht₂

theorem noteTable (h : t.Canon) : (t.noteTable c off n).Canon := by
  unfold Tile.noteTable
  split
  · exact h
  · extract_lets +onlyGivenNames ws u
    have hu : u.Canon := .noteReads h
    exact .ite hu hu

theorem noteEntries {c : MxCmd} (h : t.Canon) : (t.noteEntries c).Canon := .foldl (fun h' => .noteTable h') h

theorem countReads (h : t.Canon) : (t.countReads c mem ws).Canon := by
  unfold Tile.countReads
  extract_lets +onlyGivenNames t'
  have ht' : t'.Canon := .noteReads h
  exact .ite ht' ht'

theorem startTimed {c : MxCmd} {rg : Fin 8} (h : t.Canon) : (t.startTimed now c rg).Canon := .countReads h

theorem drainWait (h : t.Canon) : (t.drainWait now).Canon := by
  unfold Tile.drainWait
  split
  · exact .ite h h
  · exact h

theorem clearUpsets (h : t.Canon) : (t.clearUpsets mem ws).Canon := .ite h h

theorem performStacc {p : PendStacc} (h : t.Canon) : (t.performStacc p).Canon := .clearUpsets h

theorem performStaccs (h : t.Canon) : (t.performStaccs now).Canon := .foldl (fun h' => .performStacc h') h

theorem guardFalse (h : t.Canon) : (t.guardFalse c id).Canon := .retire h

theorem settleMxGuards {sel : MxCmd → Bool} (h : t.Canon) : (t.settleMxGuards sel).Canon := .foldl (fun h' => .ite h' (.guardFalse h')) h

theorem request {zero : Bool} (h : t.Canon) : (t.request region line pin zero ready).Canon := .ite h (.ite h h)

theorem fetchLine {l : Nat} {zero : Bool} (h : t.Canon) : (t.fetchLine region pin ready l zero).Canon :=
  .ite (.ite (.ite h h) (.ite h (.request h))) (.ite (.ite h (.ite h h)) (.request h))

theorem unpinLine {line : Option Nat} (h : t.Canon) : (t.unpinLine region line).Canon := by
  unfold Tile.unpinLine
  split
  · exact h
  · exact .ite (.ite h h) h

theorem tlbTouch {launch : Nat} {used : Nat → Bool} (h : t.Canon) : (t.tlbTouch launch used now).Canon := .ite h h

theorem writeTable (h : t.Canon) : (t.writeTable off n).Canon := .clearUpsets h

theorem useWindow {c : Option (Fin 4)} (h : t.Canon) : (t.useWindow c ch).Canon := by
  unfold Tile.useWindow
  extract_lets +onlyGivenNames u
  have hu : u.Canon := by
    unfold u
    split
    · exact .noteTable h
    · exact .readTable h
  exact .ite (.writeTable hu) hu

theorem takeCredit (h : t.Canon) : (t.takeCredit now id).Canon := by
  unfold Tile.takeCredit
  split
  · exact h
  · split
    · exact h
    · extract_lets +onlyGivenNames t₁ r core
      have ht₁ : t₁.Canon := .useWindow h
      exact ht₁

theorem guardTrue (h : t.Canon) : (t.guardTrue id).1.Canon := by
  unfold Tile.guardTrue
  split
  · exact h
  · split <;> exact h

theorem resolveGuards (h : t.Canon) : (t.resolveGuards c now).Canon := by
  unfold Tile.resolveGuards
  extract_lets +onlyGivenNames stopped here t₁ t₂
  have h₁ : t₁.Canon := .settleMxGuards h
  have h₂ : t₂.Canon := .foldl (fun h' => .ite (.guardTrue h') (.guardFalse h')) h₁
  exact .foldl (fun h' => .ite (.ite (.takeCredit (.guardTrue h')) (.guardTrue h')) (.guardFalse h')) h₂

theorem grant (h : t.Canon) : (t.grant c lo).Canon := by
  unfold Tile.grant
  extract_lets +onlyGivenNames go t₁
  have ht₁ : t₁.Canon := .ite h h
  exact ht₁

theorem insertLine {data : List Byte} (h : t.Canon) : (t.insertLine line data pin now).Canon := by
  unfold Tile.insertLine
  extract_lets +onlyGivenNames inSet others pinned t₁ keep
  have ht₁ : t₁.Canon := .ite h h
  split
  · exact ht₁
  · split <;> exact ht₁

theorem dropFollow {copy : Nat} (h : t.Canon) : (t.dropFollow copy).Canon := .foldl (fun h' => .mxLeave h') h

theorem noteMap {c : CopyCmd} (h : t.Canon) : (t.noteMap c).Canon := by
  unfold Tile.noteMap
  split
  · split
    · split
      · exact .noteTable h
      · exact h
    · exact h
  · exact h

theorem bufferEffect {c : CopyCmd} (h : t.Canon) : (t.bufferEffect c).Canon := by
  unfold Tile.bufferEffect
  refine .retire ?_
  have hy : (t.copyLeave c.id).Canon := .frame h
  dsimp only
  split
  · refine .writeTable ?_
    cases ((t.copyLeave c.id).ctx c.ctx).lid <;> exact .frame hy
  all_goals exact .frame hy

theorem giveCredit (h : t.Canon) : (t.giveCredit now ch).Canon := by
  unfold Tile.giveCredit
  extract_lets +onlyGivenNames t₁ c
  have ht₁ : t₁.Canon := .useWindow h
  split
  · exact .ite ht₁ ht₁
  · exact ht₁

theorem dropCredit {q : ChCmd} (h : t.Canon) : (t.dropCredit now q).Canon := by
  unfold Tile.dropCredit
  split
  · exact h
  · extract_lets +onlyGivenNames t₁ c
    have ht₁ : t₁.Canon := .useWindow h
    exact .ite (.ite ht₁ (.giveCredit ht₁)) (.ite ht₁ ht₁)

theorem startMsg {q : ChCmd} {m : TxMsg} (h : t.Canon) : (t.startMsg q ch m).Canon := by
  unfold Tile.startMsg
  extract_lets +onlyGivenNames t₁ core
  have ht₁ : t₁.Canon := .useWindow (.noteTable h)
  exact ht₁

theorem acceptColl (h : t.Canon) : (t.acceptColl id now).Canon := by
  unfold Tile.acceptColl
  split
  · exact h
  · exact .ite h h

theorem passColl {q : ChCmd} {src : Fin 32} (h : t.Canon) : (t.passColl q ch src now).Canon := by
  unfold Tile.passColl
  extract_lets +onlyGivenNames x
  split <;> exact h

theorem setOutput {d : Fin 4} {f : Output → Output} (h : t.Canon) : (t.setOutput laneR d f).Canon := .ite h h

theorem setInput {f : Input → Input} (h : t.Canon) : (t.setInput laneR i f).Canon := .ite h h

theorem rxBegin {h : Header} {g : RxTarget} (hc : t.Canon) : (t.rxBegin i h g).Canon := by
  unfold Tile.rxBegin
  extract_lets +onlyGivenNames ch disarm put
  split
  · exact hc
  · exact .count (.ite hc hc)
  · exact hc
  · exact .ite hc hc

theorem rxWrite {m : RxMsg} {h : Header} (hc : t.Canon) : (t.rxWrite m h f).Canon := by
  unfold Tile.rxWrite
  extract_lets +onlyGivenNames n as new
  split
  · extract_lets +onlyGivenNames t₁ r
    have ht₁ : t₁.Canon := .noteReads hc
    exact .writeSpm (.ite ht₁ (.count ht₁))
  · exact .writeSpm hc

theorem addSem {k : Fin 16} {inc : Nat} (h : t.Canon) : (t.addSem k inc).Canon := by
  unfold Tile.addSem
  extract_lets +onlyGivenNames v
  split
  · exact h
  · extract_lets +onlyGivenNames t₁
    have ht₁ : t₁.Canon := .ite h h
    exact ht₁

theorem endEntries {f : Flight} (h : t.Canon) : (t.endEntries f lo n).Canon := by
  unfold Tile.endEntries
  split
  · exact .foldl (fun h => h) h
  · exact h

theorem landUnit {f : Flight} {data : List Byte} {marks : List Bool} (h : t.Canon) : (t.landUnit f lo data marks).Canon := by
  unfold Tile.landUnit
  extract_lets +onlyGivenNames as first t₁ t₂ t₃ t₄ fin t₅
  have ht₁ : t₁.Canon := .ite h h
  have ht₂ : t₂.Canon := .writeSpm ht₁
  have ht₃ : t₃.Canon := .ite ht₂ ht₂
  have ht₄ : t₄.Canon := .endEntries ht₃
  have ht₅ : t₅.Canon := .ite ht₄ ht₄
  exact ht₅

theorem ackArrives {o : Option Origin} (h : t.Canon) : (t.ackArrives o).Canon := by
  unfold Tile.ackArrives
  split
  · exact h
  · exact .ite h h

theorem beginChunk {c : Chunk} {src : SeqSrc} (h : t.Canon) : (t.beginChunk q r c src ready).Canon := .ite h h

theorem closeRun (h : t.Canon) : (t.closeRun r).Canon := by
  unfold Tile.closeRun
  extract_lets +onlyGivenNames t₁
  have ht₁ : t₁.Canon := .ite h h
  exact .ite ht₁ ht₁

theorem passFlit {c : Chunk} {data : BitVec 128} (h : t.Canon) : (t.passFlit q r c k now data).Canon := .ite h h

theorem fillOut {c : Chunk} {done : Nat} (h : t.Canon) : (t.fillOut q r c done now).Canon := .ite (.foldl (fun h' => .passFlit h') h) h

theorem setSeq {g : Seq → Seq} (h : t.Canon) : (t.setSeq q g).Canon := .frame h

theorem setInR {g : Input → Input} (h : t.Canon) : (t.setInR i g).Canon := .frame h

theorem discardRun (h : t.Canon) : (t.discardRun now q r).Canon := by
  unfold Tile.discardRun
  extract_lets +onlyGivenNames whole t₁ mine t₂ t₃ t₄ old held t₅
  have ht₁ : t₁.Canon := .ite h (.count h)
  have ht₂ : t₂.Canon := by
    unfold t₂
    split
    · exact .ite (.count (.setSeq (.fillOut ht₁))) ht₁
    · exact ht₁
  have ht₃ : t₃.Canon := by
    unfold t₃
    split
    · exact .ite (.count (.setSeq (.fillOut ht₂))) ht₂
    · exact ht₂
  have ht₄ : t₄.Canon := by
    unfold t₄
    refine .foldl (fun h' => ?_) ht₃
    split
    · exact .ite (.count (.setInR (.fillOut h'))) h'
    · exact h'
  have ht₅ : t₅.Canon := .ite ht₄ (.count (.setSeq ht₄))
  exact .setSeq ht₅

theorem setBuf {b : Fin 32} {g : Buffer → Buffer} (h : t.Canon) : (t.setBuf b g).Canon := .frame h

theorem leaveHead (h : t.Canon) : (t.leaveHead id).Canon := .frame h

theorem applyFate {k : FateKind} {v : ViewSlot} (h : t.Canon) : (t.applyFate now r k v).Canon := by
  unfold Tile.applyFate
  split
  · exact h
  · next u _ _ =>
    have ht : (t.discardRun now u r).Canon := .discardRun h
    generalize t.discardRun now u r = t at ht
    dsimp only
    split
    · exact .ite (.setSeq (.setBuf (.setSeq (.leaveHead ht)))) (.setSeq (.leaveHead ht))
    · split
      · exact .setSeq (.setSeq ht)
      · exact ht
    · exact .retire (.setSeq (.leaveHead (.closeRun ht)))

theorem feedOwn (h : t.Canon) : (t.feedOwn now f).Canon := .setInput h

theorem feed {fs : List Flit} (h : t.Canon) : (t.feed laneR now fs).Canon := .setInput h

theorem yieldWidth (h : t.Canon) : (t.yieldWidth c now).Canon := by
  unfold Tile.yieldWidth
  split
  · exact .ite h h
  · exact .ite h h
  · exact h

theorem commitAcm {f : Fin 64 → AccPend → Bool} (h : t.Canon) : (t.commitAcm f).Canon := by
  unfold Tile.commitAcm
  extract_lets +onlyGivenNames t₁
  have ht₁ : t₁.Canon := .ite h (.clearUpsets h)
  exact .frame ht₁

theorem commitUnmarked {m : BitVec 256} (h : t.Canon) : (t.commitUnmarked c m).Canon := .ite (.commitAcm h) h

theorem replaceQueued {a : SaveArea} (h : t.Canon) : (t.replaceQueued a c now).Canon := by
  unfold Tile.replaceQueued
  extract_lets +onlyGivenNames copies held t₁ resolved t₂
  have ht₂ : t₂.Canon := .foldl (fun h => h) h
  exact .foldl (fun h' => .takeCredit h') ht₂

theorem refill {free : Nat} (h : t.Canon) : (t.refill free).Canon := .foldl (fun h => h) h

theorem pageDone {launch : Nat} {va : VAddr} (h : t.Canon) : (t.pageDone launch va).Canon := .foldl (fun h' => .retire h') h

theorem takeOwner {lid : Nat} {ds : List (Nat × Nat)} (h : t.Canon) : (t.takeOwner lid ds).Canon := .foldl (fun h => h) h

theorem putSlot {owned : Fin 256 → Bool} {v : ViewSlot} (h : t.Canon) : (t.putSlot owned v).Canon := .ite h (.writeTable h)

theorem writeTables {s : State} {l : Launch} {img : Image} {id : TileId} {dx dy : Nat} (h : t.Canon) : (s.writeTables l img id dx dy t).Canon := by
  refine .foldl (fun h' => ?_) (.foldl (fun h' => ?_) h)
  · dsimp only
    split
    · exact h'
    · exact .putSlot (.frame h')
  · refine .foldl (fun h' => .writeTable (.writeTable (.frame h'))) ?_
    refine .foldl (fun h' => .writeTable (.frame h')) ?_
    refine .foldl (fun h' => .writeTable (.frame h')) ?_
    refine .foldl (fun h' => .writeTable (.frame h')) ?_
    exact .ite (.writeSpm h') h'

theorem lineParity {latency : Nat} (h : t.Canon) : (t.lineParity line latency).Canon := by
  unfold Tile.lineParity
  split
  · exact h
  · exact .count h

theorem flitError (h : t.Canon) : (t.flitError laneR i now).Canon := by
  unfold Tile.flitError
  extract_lets +onlyGivenNames due
  split
  · exact h
  · exact .count (.setInput h)

theorem fetched {pcs : List VAddr} {pas : List Nat} (h : t.Canon) : (t.fetched c pcs pas now).Canon := by
  unfold Tile.fetched
  extract_lets +onlyGivenNames t₁ t₂
  have ht₂ : t₂.Canon := .ite h (.noteReads h)
  exact .ite ht₂ (.tlbTouch ht₂)

theorem lockStep (h : t.Canon) : (t.lockStep c now).Canon := by
  unfold Tile.lockStep
  split
  · exact .ite h h
  · exact h

theorem settleAcm (h : t.Canon) : (t.settleAcm now).Canon := .commitAcm h

theorem countPass {sat ter : Nat} {planes : List Nat} (h : t.Canon) : (t.countPass c sat ter row planes).Canon :=
  .countReads (.countReads (.count (.count h)))

theorem mmaRow {r : MxRun} {c : MxCmd} (h : t.Canon) : (t.mmaRow r c k row).Canon := by
  unfold Tile.mmaRow
  split
  · extract_lets +onlyGivenNames z kA a colB p own due core
    have hcore : core.Canon := .countPass h
    exact hcore
  · exact h

theorem drainOne {r : MxRun} {c : MxCmd} {at_ i : Nat} (h : t.Canon) : (t.drainOne r c at_ i row).Canon := by
  unfold Tile.drainOne
  split
  · extract_lets +onlyGivenNames p d base outs core
    have hcore : core.Canon := .countReads (.count h)
    exact hcore
  · exact h

theorem rangeRow {r : MxRun} {c : MxCmd} (h : t.Canon) : (t.rangeRow r c row).Canon := by
  unfold Tile.rangeRow
  split
  · exact h
  · extract_lets +onlyGivenNames p t₁ core
    have ht₁ : t₁.Canon := .countReads h
    have hcore : core.Canon := .count ht₁
    exact hcore
  · exact h

theorem arrayRows (h : t.Canon) : (t.arrayRows now).Canon := by
  unfold Tile.arrayRows
  split
  · extract_lets +onlyGivenNames todo t₁ t₂ formed
    have ht₂ : t₂.Canon := by
      unfold t₂
      refine .foldl (fun h' => ?_) h
      split
      · exact .mmaRow h'
      · exact .drainOne h'
      · exact .rangeRow h'
      · exact h'
    exact ht₂
  · exact h

theorem drainByte {d : Drain} (h : t.Canon) : (t.drainByte d).Canon := by
  unfold Tile.drainByte
  extract_lets +onlyGivenNames rg
  split
  · extract_lets +onlyGivenNames t₁ t₂
    have ht₁ : t₁.Canon := .ite h h
    have ht₂ : t₂.Canon := .writeSpm ht₁
    exact .ite ht₂ ht₂
  · extract_lets +onlyGivenNames t₁
    have ht₁ : t₁.Canon := .writeSpm h
    exact .ite ht₁ ht₁

theorem drainPort (h : t.Canon) : (t.drainPort now).Canon := .foldl (fun h' => .drainByte h') h

theorem loadReads {due tt slot : Nat} (h : t.Canon) : (t.loadReads c mem ws due tt slot).Canon := by
  unfold Tile.loadReads
  extract_lets +onlyGivenNames u
  have hu : u.Canon := .noteReads h
  exact .ite hu hu

theorem slotWrite {tt lat : Nat} {l : List (Nat × Byte)} (h : t.Canon) : (t.slotWrite c tt lat l).Canon := .writeSpm h

theorem performRead {r : PendRead} (h : t.Canon) : (t.performRead now r).Canon := by
  unfold Tile.performRead
  extract_lets +onlyGivenNames as ws bs t'
  have ht' : t'.Canon := .loadReads h
  split
  · exact ht'
  · exact ht'
  · exact ht'
  · exact ht'
  · exact ht'
  · exact .slotWrite ht'
  · extract_lets +onlyGivenNames w t'₁
    have ht'₁ : t'₁.Canon := .ite (.slotWrite ht') ht'
    exact ht'₁

theorem performLdacc {p : PendLdacc} (h : t.Canon) : (t.performLdacc now p).Canon := by
  unfold Tile.performLdacc
  extract_lets +onlyGivenNames ws e t'
  have ht' : t'.Canon := .loadReads h
  exact ht'

theorem performWrite {w : PendWrite} (h : t.Canon) : (t.performWrite w).Canon := .slotWrite h

theorem perform (h : t.Canon) : (t.perform now).Canon := by
  unfold Tile.perform
  extract_lets +onlyGivenNames rs t₁ t₂ ls t₃ ws t₄ t₅ t₆
  have ht₂ : t₂.Canon := .foldl (fun h' => .performRead h') h
  have ht₃ : t₃.Canon := .foldl (fun h' => .performLdacc h') ht₂
  have ht₅ : t₅.Canon := .foldl (fun h' => .performWrite h') ht₃
  have ht₆ : t₆.Canon := .foldl (fun h' => .performWrite h') ht₅
  exact ht₆

theorem drainChunk (h : t.Canon) : (t.drainChunk now i).Canon := by
  unfold Tile.drainChunk
  split
  · refine .ite h ?_
    dsimp only
    split
    · exact .setInR h
    · exact .ite (.setSeq (.setInR h)) (.setInR h)
    · split
      · exact .setInR h
      · exact .ite (.setInR h) (.ite h (.ite (.setSeq (.passFlit (.setInR h))) (.passFlit (.setInR h))))
  · exact h

theorem wakeHeld (h : t.Canon) : (t.wakeHeld now q).Canon := by
  unfold Tile.wakeHeld
  extract_lets +onlyGivenNames dead t₁
  have ht₁ : t₁.Canon := .ite h (.count (.setSeq h))
  refine .ite ht₁ ?_
  split
  · exact ht₁
  · split
    · exact ht₁
    · exact .ite (.ite ht₁ (.setSeq (.setSeq ht₁))) (.ite ht₁ (.beginChunk (.setSeq ht₁)))

theorem sequence (h : t.Canon) : (t.sequence now).Canon := by
  unfold Tile.sequence
  extract_lets +onlyGivenNames busy t₁ tidy
  have ht₁ : t₁.Canon := .ite (.foldl (fun h' => .drainChunk h') h) h
  exact .ite (.foldl (fun h' => .wakeHeld h') ht₁) ht₁

theorem startOwn (h : t.Canon) : (t.startOwn now q).Canon := by
  unfold Tile.startOwn
  extract_lets +onlyGivenNames s
  split
  · exact h
  · split
    · exact h
    · split
      · exact h
      · exact .ite h (.beginChunk h)

theorem startOwns (h : t.Canon) : (t.startOwns now).Canon := .ite h (.foldl (fun h' => .startOwn h') h)

theorem txGrant {m : TxMsg} (h : t.Canon) : (t.txGrant m).Canon := by
  unfold Tile.txGrant
  extract_lets +onlyGivenNames as
  split
  · extract_lets +onlyGivenNames fin cont t₁ t₂ t₃
    have ht₁ : t₁.Canon := by
      unfold t₁
      split
      · exact .countReads h
      · exact .noteReads h
    have ht₂ : t₂.Canon := .ite ht₁ (.count ht₁)
    have ht₃ : t₃.Canon := by
      unfold t₃
      split
      · extract_lets +onlyGivenNames t₁
        have ht₁ : t₁.Canon := .ite ht₂ ht₂
        exact .ite ht₁ ht₁
      · exact ht₂
    exact ht₃

theorem processFlit {own : Bool} {c : Chunk} {d : BitVec 128} (h : t.Canon) : (t.processFlit now q r own c k d).1.Canon := by
  unfold Tile.processFlit
  extract_lets +onlyGivenNames n rd wr x ins joined fin outs sat t₁ t₂ t₃ left base
  have h₁ : t₁.Canon := .ite (.countReads h) h
  have h₂ : t₂.Canon := .ite h₁ h₁
  have h₃ : t₃.Canon := .ite h₂ (.count h₂)
  have hw : (if r.wrOpen then t₃ else t₃.setBuf r.dst Buffer.beginWrite).Canon := .ite h₃ h₃
  exact Tile.Canon.ite (.ite (.writeSpm hw) (.writeSpm hw)) h₃

theorem chunkDone (h : t.Canon) : (t.chunkDone q r).Canon := .setSeq h

theorem seqGrant (h : t.Canon) : (t.seqGrant now q).Canon := by
  unfold Tile.seqGrant
  split
  · exact h
  · next src r c k d _ =>
    extract_lets fin
    have hp {out} : ((t.processFlit now q r (src == .own) c k d).1.passFlit q r c k now out).Canon := .passFlit h.processFlit
    dsimp only
    split
    · exact .setSeq hp
    · exact .ite (.chunkDone (.setSeq hp)) (.setSeq hp)
    · exact .ite (.chunkDone (.setInR hp)) (.setInR hp)

theorem restoreItems {a : SaveArea} (h : t.Canon) : (t.restoreItems a now).Canon := by
  unfold Tile.restoreItems
  extract_lets +onlyGivenNames t₁ t₂ t₃ t₄ t₅
  have ht₂ : t₂.Canon := .foldl (fun h => h) h
  have ht₃ : t₃.Canon := .foldl (fun h => h) ht₂
  have ht₄ : t₄.Canon := .foldl (fun h => h) ht₃
  have ht₅ : t₅.Canon := .foldl (fun h => h) ht₄
  exact ht₅

theorem event {ev : Nat} (h : t.Canon) : (t.event ev n).Canon := .frame h

theorem receive (h : t.Canon) : (t.receive now).Canon := by
  unfold Tile.receive
  extract_lets left c r t₁ t₂
  have ht₁ : t₁.Canon := .ite h (.frame h)
  have ht₂ : t₂.Canon := .ite ht₁ (.event ht₁)
  exact .ite ht₂ (.event ht₂)

theorem dropBroken (h : t.Canon) : t.dropBroken.Canon := .count h

theorem takeFlit {d : Fin 4} (h : t.Canon) : (t.takeFlit now laneR d f).Canon := by
  unfold Tile.takeFlit
  split
  · exact h
  · extract_lets +onlyGivenNames t₁
    have ht₁ : t₁.Canon := by
      unfold t₁
      split
      · split <;> split <;> exact h
      · exact .setInput h
    exact .setOutput ht₁

theorem transmitSelf (h : t.Canon) : (t.transmitSelf now).Canon := by
  unfold Tile.transmitSelf
  split
  · exact h
  · extract_lets +onlyGivenNames n
    split
    · exact h
    · split <;> exact h

theorem chunkSelf (h : t.Canon) : (t.chunkSelf now).Canon := by
  unfold Tile.chunkSelf
  extract_lets +onlyGivenNames n
  split
  · exact h
  · split <;> exact h

theorem startRefetch (h : t.Canon) : (t.startRefetch now).Canon := .ite h (.foldl (fun h' => .ite (.request h') h') h)

theorem settleScales (h : t.Canon) : (t.settleScales now).Canon := .foldl (fun h => h) h

theorem applyPublishes (h : t.Canon) : t.applyPublishes.Canon := .foldl (fun h => h) h

theorem beginTick (h : t.Canon) : (t.beginTick now).Canon := by
  obtain ⟨hs, -⟩ := h
  exact .event (.startRefetch (.settleScales (.settleAcm (.applyPublishes ⟨hs, hs⟩))))

end Tile.Canon

end

section

variable {p : Port} {ref : Nat}

namespace Port.Canon

theorem count {i : Fin 6} {n : Nat} (h : p.Canon) : (p.count i n).Canon := .ite h h

theorem meetPeers (h : p.Canon) : (p.meetPeers ref).Canon := .ite h h

theorem sendDesc {i : Nat} (h : p.Canon) : (p.sendDesc ref i).Canon := by
  unfold Port.sendDesc
  split
  · exact h
  · split <;> exact h

theorem resend (h : p.Canon) : (p.resend ref).Canon := .foldl (fun h' => .ite (.count (.sendDesc h')) h') h

theorem enqueue {pk : Packet} {addr : optParam Nat 0} (h : p.Canon) : (p.enqueue pk addr).Canon := by
  unfold Port.enqueue
  extract_lets +onlyGivenNames n p₁ core
  have hp₁ : p₁.Canon := .ite h h
  exact hp₁

theorem applyAtomic {q : Packet} (h : p.Canon) : (p.applyAtomic q).Canon := by
  have hc : (p.count pBad (p.scout.badWords (sramWordAt q.addr) 4)).Canon := .count h
  exact .enqueue (Scout.Canon.write hc)

end Port.Canon

namespace Firmware.Canon

theorem stage {f : Firmware} {nurse : Bool} {a : Nat} {data : List Byte} (h : f.Canon) : (f.stage nurse a data).Canon := by
  exact h.set (Memory.wf_writeN _ _ h.image)

end Firmware.Canon

namespace Port.Canon

theorem sendNew (h : p.Canon) : (p.sendNew ref).Canon := .foldl (fun h' => .ite (.sendDesc h') h') h

end Port.Canon

end

/-! #### Operations of the part -/

section

variable {s : State} {t : TileId} {c d : Fin 4} {sw q : Fin 256} {n i off lat lid : Nat} {k : Fin 32} {f : Cause} {p port : Fin 16} {w : Swarm} {va fpc : VAddr} {data body r : List Byte} {v : BitVec 64} {secs : List Section} {l : Launch}

namespace State.Canon

theorem holdHost {i : Instr} (h : s.Canon) : (s.holdHost i).Canon := h

theorem first {m : Move} (h : s.Canon) : (s.first m).Canon := h

theorem raise {cause finfo : Word} {epc : VAddr} (h : s.Canon) : (s.raise t c cause finfo fpc epc).Canon := by
  unfold State.raise
  extract_lets +onlyGivenNames s₁
  have hs₁ : s₁.Canon := .modTile (fun h' => .closeLock h') h
  exact .ite (.modCtx hs₁) (.first (.modCtx hs₁))

theorem issueFault (h : s.Canon) : (s.issueFault t c f).Canon := by
  unfold State.issueFault
  extract_lets +onlyGivenNames s₁
  have hs₁ : s₁.Canon := .ite (.modTile (fun h' => h') h) h
  exact .raise hs₁

theorem modCur {f : Context → Context} (h : s.Canon) : (s.modCur f).Canon := .modCtx h

theorem transfer {taken : Bool} {target : VAddr} {eret : Bool} (h : s.Canon) : (s.transfer taken target eret).Canon := .modCur h

theorem branch {taken : Bool} {off : Int} (h : s.Canon) : (s.branch taken off).Canon := by
  unfold State.branch
  extract_lets +onlyGivenNames target s₁
  have hs₁ : s₁.Canon := .transfer h
  exact .ite (.modCur hs₁) hs₁

theorem result {d : Dst} (h : s.Canon) : (s.result lat d).Canon := .modCur h

theorem openLoop {count : Word} {len : BitVec 12} (h : s.Canon) : (s.openLoop count len).Canon := .modCur h

theorem resolveLater (h : s.Canon) : (s.resolveLater t c).Canon := .first h

theorem endTask (h : s.Canon) : (s.endTask t c).Canon := by
  unfold State.endTask
  refine .resolveLater (.modTile (fun h' => ?_) h)
  extract_lets +onlyGivenNames x₁
  have hx₁ : x₁.Canon := .closeLock h'
  exact hx₁

theorem modCurTile {f : Tile → Tile} (hf : ∀ {y}, y.Canon → (f y).Canon) (h : s.Canon) : (s.modCurTile f).Canon := .modTile (fun h' => hf h') h

theorem holdWait (h : s.Canon) : s.holdWait.Canon := .modCurTile (fun h' => .closeLock h') h

theorem lower {sel : AccPend → Bool} (h : s.Canon) : (s.lower sel).Canon := .ite (.modCurTile (fun h' => h') h) h

theorem headFault {q : Fin 3} (h : s.Canon) : (s.headFault t c q f fpc).Canon := by
  unfold State.headFault
  extract_lets +onlyGivenNames x s₁
  have hs₁ : s₁.Canon := .modCtx h
  exact .ite (.first hs₁) hs₁

theorem mxFault {c : MxCmd} (h : s.Canon) : (s.mxFault t c f).Canon := .headFault (.modTile (fun h' => .mxLeave (.ite h' h')) h)

theorem reserveArray {c : MxCmd} (h : s.Canon) : (s.reserveArray t c).Canon := by
  unfold State.reserveArray
  extract_lets +onlyGivenNames x
  split <;> exact h

theorem capture {c : Csr} (h : s.Canon) : (s.capture c).Canon := by
  unfold State.capture
  split
  · exact .modCur h
  · exact h

theorem csrWrite {k : CsrWrite} {c : Csr} {v : Word} (h : s.Canon) : (s.csrWrite k c v).Canon := by
  unfold State.csrWrite
  split
  · exact .modCur h
  · exact .modCur h
  · exact .modCur h
  · exact .modCur h
  · exact .modCur h
  · exact .modCur h
  · exact .modCur h
  · exact .modCurTile (fun h' => h') h
  · exact .modCurTile (fun h' => .ite h' h') h
  · exact .modCurTile (fun h' => h') h
  · exact .modCurTile (fun h' => h') h
  · exact .modCurTile (fun h' => h') h
  · exact h

theorem bump (h : s.Canon) : s.bump.Canon := h

theorem askLine {region pin : Bool} {ready : Nat} (h : s.Canon) : (s.askLine t c region pin ready va).Canon := by
  unfold State.askLine
  extract_lets +onlyGivenNames x
  refine .setTile ?_ h
  split
  · exact h.tile
  · exact .ite (.fetchLine h.tile) (.ite h.tile h.tile)

theorem raiseFlags {f : Flags} (h : s.Canon) : (s.raiseFlags lat f).Canon := .ite h (.result h)

theorem vecResult {vd : Fin 16} {lanes : Word} {r : Vector LaneRes 32} (h : s.Canon) : (s.vecResult lat vd lanes r).Canon := .raiseFlags (.result h)

theorem enqueueMx {op : MxOp} {b : Option Nat} (h : s.Canon) : (s.enqueueMx op b).Canon := h.modTile fun h => h

theorem enqueueCopy {op : CopyOp} {tag : Option (Fin 16)} {wack follow late : Bool} {xl : List TlbEntry} (h : s.Canon) :
    (s.enqueueCopy op tag wack follow late xl).Canon :=
  h.modTile fun h => .ite h h

theorem enqueueFollow {copy : Nat} (h : s.Canon) : (s.enqueueFollow copy).Canon := by
  unfold State.enqueueFollow
  split
  · exact .ite (.enqueueMx h) (.modCurTile (fun h' => .count h') h)
  · exact h

theorem startWalk {ctx : Fin 4} {cmd : Option Nat} {va : Nat} (h : s.Canon) : (s.startWalk t ctx cmd va).Canon := by
  unfold State.startWalk
  extract_lets +onlyGivenNames mine x
  split
  · exact h
  · split
    · refine .modTile (fun h' => ?_) h
      extract_lets +onlyGivenNames core
      have hcore : core.Canon := .tlbTouch h'
      exact hcore
    · exact .bump (.modTile (fun h' => h') h)

theorem tmAsk {goal : TileId} (h : s.Canon) : (s.tmAsk t goal).Canon := .ite h (.bump (.modTile (fun h' => h') h))

theorem copyFault {c : CopyCmd} (h : s.Canon) : (s.copyFault t c f).Canon := by
  unfold State.copyFault
  extract_lets +onlyGivenNames cpyo
  refine .headFault (.modTile (fun h' => ?_) h)
  extract_lets +onlyGivenNames x₁
  have hx₁ : x₁.Canon := .retire (.dropFollow h')
  exact hx₁

theorem copyStart {c : CopyCmd} {form : CopyForm} {buf : Fin 32} {d0 d1 : Word} {addr : VAddr} {xl : List TlbEntry} {idx : List Word} {remote :
    Option (TileId × BitVec 64)} (h : s.Canon) : (s.copyStart t c form buf d0 d1 addr xl idx remote).Canon := by
  refine .bump (.modTile (fun {x} h' => ?_) ?_)
  · extract_lets x₁ x₂ x₃ x₄ x₅
    have h₁ : x₁.Canon := .event (.frame h')
    have h₂ : x₂.Canon := .tlbTouch h₁
    have h₃ : x₃.Canon := .ite (.countReads h₂) h₂
    have h₄ : x₄.Canon := .ite (.frame h₃) h₃
    clear_value x₄
    exact .ite (.frame h₄) (.frame h₄)
  · split
    · exact .modTile (fun h' => .frame h') h
    · exact h

theorem reqpgHead {c : CopyCmd} {addr : VAddr} {len : Word} (h : s.Canon) : (s.reqpgHead t c addr len).Canon := by
  unfold State.reqpgHead
  extract_lets +onlyGivenNames x k done pts
  split
  · exact .startWalk h
  · exact .copyFault h
  · extract_lets +onlyGivenNames s₁ away lid
    have hs₁ : s₁.Canon := .modTile (fun h' => .tlbTouch h') h
    split
    · exact .modTile (fun h' => .retire h') hs₁
    · extract_lets +onlyGivenNames s₁ fresh
      have hs₁ : s₁.Canon := .modTile (fun h' => h') hs₁
      exact hs₁

theorem chanFault {q : ChCmd} (h : s.Canon) : (s.chanFault t q f).Canon := .headFault (.modTile (fun h' => .retire (.dropCredit h')) h)

theorem sendAdvance {tl : Fin 1024} {amount : Word} (h : s.Canon) : (s.sendAdvance t c tl amount).Canon := by
  have hb : (s.bump.modCtx t c fun x => { x with tlOut := x.tlOut + 1 }).Canon := h.modCtx
  exact .ite hb hb

theorem modSwarm {f : Swarm → Swarm} (h : s.Canon) : (s.modSwarm n f).Canon := h

theorem ask {fn : Nat} (h : s.Canon) : (s.ask fn body).Canon := .ite h h

theorem emit {f : PortFrame} (h : s.Canon) : (s.emit p f).Canon := .ite (.modPort (fun h' => h') h) h

theorem frame {relay : Bool} {f : PortFrame} (h : s.Canon) : (s.frame sw relay f).Canon := by
  unfold State.frame
  split
  · exact .ite (.ask h) (.emit h)
  · exact h

theorem viewEffect {q : ChCmd} {join : Bool} (h : s.Canon) : (s.viewEffect t q sw join).Canon := by
  unfold State.viewEffect
  split
  · exact h
  · split
    · exact .modTile (fun h' => .retire h') h
    · extract_lets +onlyGivenNames s₁ s₂
      have hs₁ : s₁.Canon := .modSwarm h
      have hs₂ : s₂.Canon := by
        unfold s₂
        split
        · exact .ite (.frame hs₁) hs₁
        · exact hs₁
      exact .modTile (fun h' => h') hs₂

theorem chanStart {q : ChCmd} (h : s.Canon) : (s.chanStart t q).Canon := by
  unfold State.chanStart
  extract_lets +onlyGivenNames s₁ x
  have hs₁ : s₁.Canon := .ite h (.modTile (fun h' => h') h)
  split
  · exact .modTile (fun h' => .startMsg h') hs₁
  · exact .modTile (fun h' => .startMsg h') hs₁
  · exact .modTile (fun h' => .retire (.startMsg h')) hs₁
  · exact .modTile (fun h' => h') hs₁
  · exact .modTile (fun h' => .acceptColl (.ite h' (.passColl h'))) hs₁
  · exact .modTile (fun h' => .retire h') hs₁
  · exact .modTile (fun h' => .retire h') hs₁
  · exact .modTile (fun h' => .retire h') (.sendAdvance hs₁)
  · exact .viewEffect hs₁
  · exact .viewEffect hs₁

theorem returnCredit {sender : TileId} {ch : Fin 256} {port : Option (Fin 16)} (h : s.Canon) : (s.returnCredit t sender ch port).Canon :=
  .ite (.modPort (fun h' => h') h) (.modTile (fun h' => h') h)

theorem sendCredit {h : Header} {port : Option (Fin 16)} (hc : s.Canon) : (s.sendCredit t h port).Canon :=
  .ite (.modTile (fun h' => h') hc) (.returnCredit hc)

theorem errFor {o : Option Origin} {as : List Nat} (h : s.Canon) : (s.errFor t o as).Canon := by
  unfold State.errFor
  split
  · exact h
  · exact .ite h (.modCtx h)

theorem rxEnd {i : Fin 6} {m : RxMsg} {h : Header} (hc : s.Canon) : (s.rxEnd t i m h).Canon := by
  unfold State.rxEnd
  refine .sendCredit (.modTile (fun h' => ?_) hc)
  extract_lets +onlyGivenNames x₁ x₂
  have hx₁ : x₁.Canon := by
    unfold x₁
    split <;> exact h'
  have hx₂ : x₂.Canon := by
    unfold x₂
    split
    · exact .retire hx₁
    · exact hx₁
  exact hx₂

theorem takeSig {s' : State} {i : Fin 6} {f : Flit} {g : Header} (h : s.Canon) (hs : s.takeSig t i = some (f, g, s')) : s'.Canon := by
  unfold State.takeSig at hs
  split at hs
  · cases hs
    exact h.modTile fun h => h
  · cases hs

theorem deliverTl {tl : Fin 1024} (h : s.Canon) : (s.deliverTl tl).Canon := h

theorem applyAdvances {l : List (Fin 1024 × BitVec 64)} (h : s.Canon) : (s.applyAdvances l).Canon := by
  unfold State.applyAdvances
  extract_lets +onlyGivenNames l₁
  split
  · exact h
  · extract_lets +onlyGivenNames tls s₁ s₂
    have hs₂ : s₂.Canon := .foldl (fun h' => .deliverTl h') h
    exact .first hs₂

theorem dueAdvances (h : s.Canon) : s.dueAdvances.Canon := by
  unfold State.dueAdvances
  extract_lets +onlyGivenNames due s₁ s₂
  have hs₂ : s₂.Canon := by
    unfold s₂
    refine .foldl (fun h' => ?_) h
    split
    · exact .modCtx h'
    · exact h'
  exact .applyAdvances hs₂

theorem showChange (h : s.Canon) : (s.showChange sw w).Canon := .foldl (fun h' => .modTile (fun h' => h') h') h

theorem beginChange (h : s.Canon) : (s.beginChange sw w).Canon := .modSwarm (.ite h (.showChange h))

theorem heard {wid : BitVec 16} (h : s.Canon) : (s.heard sw wid).Canon := by
  unfold State.heard
  split
  · exact .ite (.modPort (fun h' => h') h) h
  · exact h

theorem stalePort (h : s.Canon) : (s.stalePort p).Canon := .modPort (fun h' => .count h') h

theorem installAt {f : CommitFrame} (h : s.Canon) : (s.installAt sw w f i t).Canon := by
  unfold State.installAt
  extract_lets +onlyGivenNames x
  split
  · exact h
  · extract_lets +onlyGivenNames inView v' succ s₁ steer s₂ s₃ runs kind tag touched s₄ cancelled s₅ s₆
    have hs₁ : s₁.Canon := .modTile (fun h' => h') h
    have hs₂ : s₂.Canon := .ite hs₁ (.modTile (fun h' => .foldl (fun h => h) h') hs₁)
    have hs₃ : s₃.Canon := .ite (.modTile (fun h' => .foldl (fun h => h) h') hs₂) hs₂
    have hs₄ : s₄.Canon := .modTile (fun h' => .foldl (fun h' => .applyFate h') h') hs₃
    have hs₅ : s₅.Canon := .modTile (fun h' => .foldl (fun h => h) h') hs₄
    have hs₆ : s₆.Canon := .modTile (fun h' => h') hs₅
    exact .modTile (fun h' => .foldl (fun h' => .retire h') h') hs₆

theorem installPort {f : CommitFrame} (h : s.Canon) : (s.installPort sw w f).Canon := by
  unfold State.installPort
  split
  · exact h
  · extract_lets +onlyGivenNames gone ready
    refine .modPort (fun h' => ?_) h
    extract_lets +onlyGivenNames n core
    have hcore : core.Canon := .count h'
    exact hcore

theorem sendHiveResult {src : TileId} {d : CollDone} {vt : BitVec 16} (h : s.Canon) : (s.sendHiveResult src d vt).Canon := .modTile (fun h' => h') h

theorem sendResult {src dst : TileId} {d : CollDone} {vt : BitVec 16} (h : s.Canon) : (s.sendResult src dst d vt).Canon := .modTile (fun h' => h') h

theorem sendResults {f : CommitFrame} (h : s.Canon) : (s.sendResults sw w f).Canon := by
  unfold State.sendResults
  split
  · refine .foldl (fun h' => ?_) h
    extract_lets +onlyGivenNames t
    split
    · exact .sendHiveResult h'
    · exact h'
  · extract_lets +onlyGivenNames ms
    refine .foldl (fun h' => ?_) h
    split
    · exact h'
    · refine .foldl (fun h' => ?_) h'
      split
      · exact .ite (.sendResult h') h'
      · exact h'

theorem dropHeld (h : s.Canon) : (s.dropHeld port).Canon := .modPort (fun h' => h') h

theorem install {f : CommitFrame} (h : s.Canon) : (s.install sw w f).Canon := by
  unfold State.install
  extract_lets +onlyGivenNames s₁ s₂ ni s₃
  have hs₁ : s₁.Canon := .foldl (fun h' => .installAt h') h
  have hs₂ : s₂.Canon := .installPort (.sendResults hs₁)
  have hs₃ : s₃.Canon := .modSwarm hs₂
  exact .ite (.dropHeld hs₃) hs₃

theorem deliverPacket {pk : Packet} (h : s.Canon) : (s.deliverPacket p pk).Canon := by
  unfold State.deliverPacket
  split
  · exact .first (.modPort (fun h' => h') h)
  · exact .modPort (fun h' => h') h
  · split
    · exact .modPort (fun h' => h') h
    · split
      · exact .modPort (fun h' => .count h') h
      · exact .ite (.modPort (fun h' => .count h') h) (.ite (.modPort (fun h' => .count h') h) (.ite (.modPort (fun h' => h') h) (.modPort (fun h' => h') h)))

theorem drainWindow {wid : BitVec 16} (h : s.Canon) : (s.drainWindow p wid n).Canon := by
  induction n generalizing s with
  | zero => exact h
  | succ n ih =>
    unfold State.drainWindow
    extract_lets x
    split
    · exact h
    · split
      · exact h
      · exact .ite h (ih (.deliverPacket (.modPort (fun h => h) h)))

theorem scoutHalt {cause : Nat} (h : s.Canon) : (s.scoutHalt cause).Canon := .modScout (fun h' => h') h

theorem scoutGo {pc : Nat} (h : s.Canon) : (s.scoutGo pc).Canon := .modScout (fun h' => h') h

theorem scoutNext (h : s.Canon) : s.scoutNext.Canon := .scoutGo h

theorem scoutSet {d : Fin 16} (h : s.Canon) : (s.scoutSet d v).Canon := .scoutNext (.modScout (fun h' => h') h)

theorem scoutWait {vt : Option (BitVec 16)} (h : s.Canon) : (s.scoutWait vt).Canon := .modScout (fun h' => h') h

theorem sendPortSig (h : s.Canon) : (s.sendPortSig v).Canon := by
  unfold State.sendPortSig
  extract_lets +onlyGivenNames x y goal
  split
  · exact .modPort (fun h' => .count h') h
  · exact .ite (.modPort (fun h' => .count h') h) (.ite (.modPort (fun h' => .count h') h) (.modPort (fun h' => h') (.modTile (fun h' => .ite (.feedOwn h') (.feed h')) h)))

theorem moving {addr : Nat} {k : State → State} (hk : ∀ {y}, y.Canon → (k y).Canon) (h : s.Canon) : (s.moving addr n k).Canon := by
  unfold State.moving
  split
  · exact .scoutHalt h
  · split
    · exact .ite (hk h) (.modScout (fun h' => h') h)
    · exact .ite h (hk h)

theorem sramRead {a : Nat} (h : s.Canon) : (s.sramRead a n).2.Canon := h.modPort fun h => .count h

theorem receive {d : Fin 16} {addr : Nat} {p : Packet} (h : s.Canon) : (s.receive d addr v p).Canon := by
  unfold State.receive
  refine .moving (fun h' => ?_) h
  extract_lets +onlyGivenNames r s₁
  have hs₁ : s₁.Canon := .modPort (fun h' => h') h'
  exact .scoutSet (.modScout (fun h' => .write h') (.ite hs₁ (.bump hs₁)))

theorem modLaunch {f : Launch → Launch} (h : s.Canon) : (s.modLaunch lid f).Canon := h

theorem modQueue {f : UserQueue → UserQueue} (h : s.Canon) : (s.modQueue q f).Canon := h

theorem faultOf {cause finfo : Word} {epc : VAddr} {kind : Nat} (h : s.Canon) : (s.faultOf lid cause finfo fpc epc t c kind).Canon := by
  unfold State.faultOf
  split
  · exact h
  · extract_lets +onlyGivenNames u n
    split
    · exact .modLaunch h
    · extract_lets +onlyGivenNames s₁
      have hs₁ : s₁.Canon := .hostWrite h
      exact .modLaunch (.modQueue hs₁)

theorem modArea {f : SaveArea → SaveArea} (h : s.Canon) : (s.modArea t c f).Canon := h

theorem beginDrain {frozen : Bool} (h : s.Canon) : (s.beginDrain t c frozen).Canon := by
  unfold State.beginDrain
  extract_lets +onlyGivenNames why s₁ s₂
  have hs₁ : s₁.Canon := .modTile (fun h' => .yieldWidth (.closeLock h')) h
  have hs₂ : s₂.Canon := .ite hs₁ hs₁
  exact .resolveLater (.modArea hs₂)

theorem writeArea (h : s.Canon) : (s.writeArea t c).Canon := by
  unfold State.writeArea
  split
  · exact h
  · next a _ =>
    split
    · exact h
    · next pa _ =>
      have hw := h.writeHeap (l := numbered pa (a.image s.free))
      generalize s.writeHeap (numbered pa (a.image s.free)) = s' at hw ⊢
      exact hw

theorem raiseVersion {changes : Nat} (h : s.Canon) : (s.raiseVersion changes).Canon := h

theorem modMigration {f : Migration → Migration} (h : s.Canon) : (s.modMigration t f).Canon := h

theorem setMap {f : MapEntry → MapEntry} (h : s.Canon) : (s.setMap t f).Canon := h

theorem beginMigration (h : s.Canon) : (s.beginMigration t).Canon := .raiseVersion (.modMigration (.modTile (fun h' => h') (.setMap h)))

theorem freezeCtx (h : s.Canon) : (s.freezeCtx t c).Canon := .resolveLater (.modTile (fun h' => .yieldWidth (.closeLock h')) h)

theorem freezeActive (h : s.Canon) : (s.freezeActive t).Canon := .foldl (fun h' => .ite (.freezeCtx h') h') h

theorem resume {frozenAt : Nat} (h : s.Canon) : (s.resume t frozenAt).Canon := by
  unfold State.resume
  extract_lets +onlyGivenNames s₁ n owed draws s₂
  have hs₂ : s₂.Canon := .modTile (fun h' => .refill h') h
  exact .foldl (fun h' => .returnCredit h') hs₂

theorem failEdge {q : Nat × Nat} (h : s.Canon) : (s.failEdge q).Canon := h

theorem placeAt {q : Nat × Nat} (h : s.Canon) : (s.placeAt t q).Canon := by
  unfold State.placeAt
  extract_lets +onlyGivenNames s₁
  have hs₁ : s₁.Canon := .setMap h
  exact hs₁

theorem reroute (h : s.Canon) : (s.reroute n).Canon :=
  .raiseVersion (.mapTiles (fun h' => h') h)

theorem rerouteAll (h : s.Canon) : (s.rerouteAll n).Canon := by
  refine .mapTiles (fun {e} he => ?_) (.reroute (n := n) h)
  split <;> exact he

theorem carry (h : s.Canon) : (s.carry t d).Canon := by
  unfold State.carry
  extract_lets +onlyGivenNames u s₁
  split
  · exact h
  · split <;> exact h

theorem carryTile (h : s.Canon) : (s.carryTile t).Canon := .carry (.carry (.carry (.carry h)))

theorem placeMoved {q : Nat × Nat} (h : s.Canon) : (s.placeMoved t q).Canon := by
  unfold State.placeMoved
  extract_lets +onlyGivenNames old s₁ s₂
  have hs₁ : s₁.Canon := .failEdge (.placeAt h)
  have hs₂ : s₂.Canon := .modMigration hs₁
  exact .rerouteAll (.carryTile hs₂)

theorem post {kind : Nat} (h : s.Canon) : (s.post kind body).Canon := by
  unfold State.post
  extract_lets +onlyGivenNames n free
  split
  · extract_lets +onlyGivenNames bs core
    have hcore : core.Canon := .hostWrite h
    exact hcore
  · exact h

theorem settle {fn : Nat} (h : s.Canon) : (s.settle fn body).Canon := h

theorem dropFlights (h : s.Canon) : (s.dropFlights t).Canon := .foldl (fun h' => .ite h' (.modTile (fun h' => .count h') h')) h

theorem lostBefore (h : s.Canon) : (s.lostBefore t).Canon := by
  unfold State.lostBefore
  refine .foldl (fun h' => ?_) h
  split
  · exact .faultOf h'
  · exact h'

theorem rewalk (h : s.Canon) : (s.rewalk t).Canon := by
  unfold State.rewalk
  extract_lets old left
  split
  · exact h
  · exact h.mapTiles (f := fun e => (e.1, e.2.rewalk ..)) fun h' => h'

theorem pageSettled {l : Nat} (h : s.Canon) : (s.pageSettled l va).Canon := by
  refine h.mapTiles (f := fun e => if e.2.pages.isEmpty then e else (e.1, e.2.pageDone l va)) fun he => ?_
  split
  · exact he
  · exact .pageDone he

theorem invalidate {launch : BitVec 16} (h : s.Canon) : (s.invalidate launch va).Canon := h

theorem setLeaf {pa lo v : Nat} (h : s.Canon) : (s.setLeaf pa lo n v).Canon := .writeHeap h

theorem servePage {launch : BitVec 16} (h : s.Canon) : (s.servePage launch va).Canon := by
  unfold State.servePage
  split
  · exact .pageSettled h
  · exact .invalidate (.pageSettled (.setLeaf h))

theorem pageRefused {launch : Nat} (h : s.Canon) : (s.pageRefused launch va).Canon := .pageSettled (.foldl (fun h' => .faultOf h') h)

theorem moveFrame {a b : Nat} (h : s.Canon) : (s.moveFrame a b n).Canon := by
  obtain ⟨heap, rest⟩ := h
  exact ⟨Memory.wf_writeAll _ (Memory.wf_filter _ heap), rest⟩

theorem releaseLines {launches : List Nat} {vbase size : Nat} (h : s.Canon) : (s.releaseLines t launches vbase size).Canon := by
  unfold State.releaseLines
  extract_lets +onlyGivenNames x
  split
  · exact h
  · extract_lets +onlyGivenNames out s₁
    have hs₁ : s₁.Canon := .setTile h.tile h
    exact .bump (.foldl (fun h' => .askLine h') hs₁)

theorem pendQueue (h : s.Canon) : (s.pendQueue q).Canon := by
  unfold State.pendQueue
  extract_lets +onlyGivenNames s₁
  have hs₁ : s₁.Canon := .modQueue h
  exact .ite hs₁ hs₁

theorem modSlot {f : HwSlot → HwSlot} (h : s.Canon) : (s.modSlot k f).Canon := h

theorem unmap {st : QState} (h : s.Canon) : (s.unmap k q st).Canon := by
  unfold State.unmap
  extract_lets +onlyGivenNames u s₁ core
  have hs₁ : s₁.Canon := .modQueue h
  have hcore : core.Canon := .modSlot hs₁
  exact hcore

theorem completeRecord {c : Completion} (h : s.Canon) : (s.completeRecord q i c).Canon := by
  unfold State.completeRecord
  extract_lets u a body ph s₁
  have hs₁ : s₁.Canon := .modQueue (.hostWrite (.hostWrite h))
  clear_value s₁
  exact .ite (.same hs₁) hs₁

theorem started (h : s.Canon) : (s.started k q).Canon := .modSlot (.modQueue h)

theorem finishRecord {status detail : Nat} (h : s.Canon) : (s.finishRecord k q i r status detail).Canon := .completeRecord (.started h)

theorem block (h : s.Canon) : (s.block k q r).Canon := .ite h (.modSlot (.modQueue h))

theorem recordLater {status detail at_ : Nat} (h : s.Canon) : (s.recordLater k q i r status detail at_).Canon := by
  unfold State.recordLater
  extract_lets +onlyGivenNames s₁
  have hs₁ : s₁.Canon := .started h
  exact hs₁

theorem loadHives (h : s.Canon) : (s.loadHives secs).Canon := .foldl (fun h' => .ite h' h') h

theorem startScouts (h : s.Canon) : (s.startScouts secs).Canon :=
  .foldl (fun h' => .modPort (fun hp => Scout.Canon.foldl (fun hc => .write hc) hp) h') h

theorem loadImage {handle occ ready : Nat} {ws : List (Nat × Byte)} (h : s.Canon) : (s.loadImage handle occ ready secs ws).Canon := by
  unfold State.loadImage
  extract_lets +onlyGivenNames s₁ core
  have hs₁ : s₁.Canon := .loadHives (.startScouts h)
  have hcore : core.Canon := .writeHeap hs₁
  exact hcore

theorem admitJob {img : Image} (h : s.Canon) : (s.admitJob k l img).Canon := by
  unfold State.admitJob
  extract_lets tasks readyAt lid l' roots
  have ht : State.Canon { s with tiles := s.tiles.map fun (e : TileId × Tile) => (e.1, { e.2 with tlb := e.2.tlb.filter fun x => x.launch != lid }) } :=
    .mapTiles (fun h' => h') h
  exact .modSlot (.started (.bump (.same ht)))

theorem startTile {img : Image} {e : TileId × Nat × Nat} (h : s.Canon) : (s.startTile l img e).Canon := by
  unfold State.startTile
  extract_lets +onlyGivenNames cs
  split
  · exact h
  · extract_lets +onlyGivenNames x busy x₁ x₂ x₃ x₄
    have hx₁ : x₁.Canon := .ite h.tile h.tile
    have hx₂ : x₂.Canon := .takeOwner (.writeTables hx₁)
    have hx₃ : x₃.Canon := by
      unfold x₃
      split
      · exact hx₂
      · exact .ite hx₂ hx₂
    exact .setTile hx₃ h

theorem freeTasks (h : s.Canon) : (s.freeTasks l).Canon := .foldl (fun h' => .ite (.modCtx h') h') h

theorem retireLaunch (h : s.Canon) : (s.retireLaunch lid).Canon := by
  unfold State.retireLaunch
  split
  · exact h
  · refine .ite h ?_
    extract_lets +onlyGivenNames vc bad c s₁ s₂
    have hs₁ : s₁.Canon := .completeRecord (.freeTasks h)
    have hs₂ : s₂.Canon := by
      unfold s₂
      split
      · exact .modSlot hs₁
      · exact .modQueue hs₁
    clear_value s₂
    refine .first ?_
    split
    · exact .bump (.same hs₂)
    · exact .same hs₂

theorem nextRow {i : Instr} (h : s.Canon) : (s.nextRow i).Canon := h

theorem keepReply {num : Word} {rpl : List Byte} (h : s.Canon) : (s.keepReply num rpl).Canon := h

theorem mapNamed (h : s.Canon) : (s.mapNamed q k).Canon := .ite h (.first h)

theorem replied {a : AssistReq} {rpl : List Byte} (h : s.Canon) : (s.replied a rpl).Canon := by
  unfold State.replied
  extract_lets +onlyGivenNames yes done w
  have hdone : done.Canon := .settle h
  split
  · exact .ite (.servePage hdone) (.pageRefused hdone)
  · exact .ite (.first (.modSwarm hdone)) hdone
  · exact .ite (.beginMigration (.modMigration hdone)) hdone
  · exact h
  · exact .ite (.mapNamed hdone) hdone

theorem applyInputs (h : s.Canon) : s.applyInputs.Canon := by
  have h₀ : State.Canon { s with fw := { s.fw with inq := [] } } := h
  refine .foldl (fun {t e} ht => ?_) h₀
  split
  · exact State.Canon.dueAdvances ht
  · exact .retireLaunch ht
  · exact ht

theorem leaveGap (h : s.Canon) : s.leaveGap.Canon := by
  unfold State.leaveGap
  extract_lets +onlyGivenNames s₁ stops
  have hs₁ : s₁.Canon := .applyInputs h
  exact hs₁

theorem put {base size old : Nat} {f : Nat → State → State} (hf : ∀ {v t}, t.Canon → (f v t).Canon) (h : s.Canon) :
    (s.put off data base size old f).Canon := by
  unfold State.put
  split
  · exact hf h
  · exact h

theorem ring {tail : Word} (h : s.Canon) : (s.ring q tail).Canon := by
  unfold State.ring
  extract_lets +onlyGivenNames m
  split
  · exact .ite h (.first h)
  · exact .first h

theorem writeQueue (h : s.Canon) : (s.writeQueue q off data).Canon := by
  unfold State.writeQueue
  extract_lets +onlyGivenNames s₁ u size
  have hs₁ : s₁.Canon := .put (fun h' => .ring h') h
  split
  · split
    · exact .ite (.first hs₁) hs₁
    · exact hs₁
  · extract_lets +onlyGivenNames set s₁ s₂ s₃
    have hs₁ : s₁.Canon := .put (fun h' => .modQueue h') hs₁
    have hs₂ : s₂.Canon := .put (fun h' => .modQueue h') hs₁
    have hs₃ : s₃.Canon := .put (fun h' => .modQueue h') hs₂
    refine .put (fun h' => ?_) hs₃
    extract_lets +onlyGivenNames s₁
    have hs₁ : s₁.Canon := .modQueue h'
    exact .ite (.first hs₁) hs₁

theorem writePort (h : s.Canon) : (s.writePort p off data).Canon := by
  unfold State.writePort
  split
  · exact h
  · extract_lets +onlyGivenNames s₁ touched
    have hs₁ : s₁.Canon := .foldl (fun h' => .put (fun h' => .modPort (fun h' => h') h') h') h
    exact .foldl (fun h' => .put (fun h' => .modPort (fun h' => .ite h' h') h') h') hs₁

theorem writeControl {k : Fin 4} (h : s.Canon) : (s.writeControl k off data).Canon := by
  unfold State.writeControl
  extract_lets c set s₁ s₂ s₃ s₄ s₅ s₆ s₇ s₈ s₉ s₀
  have h₁ : s₁.Canon := .put (fun h => h) h
  have h₂ : s₂.Canon := .put (fun h => h) h₁
  have h₃ : s₃.Canon := .put (fun h => h) h₂
  have h₄ : s₄.Canon := .put (fun h => h) h₃
  have h₅ : s₅.Canon := .put (fun h => h) h₄
  have h₆ : s₆.Canon := .put (fun h => h) h₅
  have h₇ : s₇.Canon := .put (fun h => h) h₆
  have h₈ : s₈.Canon := .put (fun h => h) h₇
  have h₉ : s₉.Canon := .put (fun h => h) h₈
  have h₀ : s₀.Canon := .put (fun h => h) h₉
  exact .ite h₀ (.foldl (fun h => .put (fun h => h) h) h₀)

theorem verifyBoot (h : s.Canon) : s.verifyBoot.1.Canon := by
  unfold State.verifyBoot
  extract_lets -proofs +onlyGivenNames fw f queen
  have hf : f.Canon := h.fw
  have hq {b g} (hg : queen b = some g) : g.Canon := by
    simp only [queen, Option.ite_none_right_eq_some, Option.some.injEq] at hg
    obtain ⟨-, rfl⟩ := hg
    exact hf
  split
  · exact hf
  · next g hg =>
    have hg : g.Canon := by
      rcases Option.or_eq_some_iff.1 hg with hg | ⟨-, hg⟩ <;> exact hq hg
    dsimp only
    split <;> exact hg

theorem chooseEdges (h : s.Canon) : s.chooseEdges.Canon := h

theorem carryAll (h : s.Canon) : s.carryAll.Canon := .foldl (fun h' => .foldl (fun h' => .ite h' (.carry h')) h') h

theorem showChanges (h : s.Canon) : s.showChanges.Canon := .foldl (fun h' => .ite (.showChange h') h') h

theorem leaveRequest {src : BitVec 16} (h : s.Canon) : (s.leaveRequest sw src).Canon := by
  unfold State.leaveRequest
  extract_lets +onlyGivenNames s₁
  have hs₁ : s₁.Canon := .heard h
  split
  · exact hs₁
  · split
    · exact .ite hs₁ (.modSwarm hs₁)
    · exact hs₁

theorem resultArrival {src : BitVec 16} {p : ResultPart} (h : s.Canon) : (s.resultArrival sw src p).Canon := by
  unfold State.resultArrival
  extract_lets +onlyGivenNames s₁
  have hs₁ : s₁.Canon := .heard h
  split
  · exact hs₁
  · extract_lets +onlyGivenNames t
    split
    · exact hs₁
    · exact .modTile (fun h' => .feed h') hs₁

theorem noteReady (h : s.Canon) : (s.noteReady t).Canon := .modTile (fun h' => .foldl (fun h => h) h') h

theorem afterAttempt {issued : Bool} (h : s.Canon) : (s.afterAttempt t c issued).Canon := by
  unfold State.afterAttempt
  extract_lets +onlyGivenNames s₁
  have hs₁ : s₁.Canon := .ite (.first h) h
  refine .modTile (fun h' => ?_) hs₁
  split
  · exact h'
  · split <;> exact h'

theorem endWalks (h : s.Canon) : (s.endWalks t c).Canon := .ite h (.modTile (fun h' => h') h)

theorem attemptFault (h : s.Canon) : (s.attemptFault t c f).Canon := .afterAttempt (.issueFault (.modTile (fun h' => h') (.endWalks h)))

theorem keepWidth {ev : Nat} (h : s.Canon) : (s.keepWidth t c ev).Canon := .modTile (fun h' => h') h

theorem fetchMiss {line : Nat} {zero : Bool} (h : s.Canon) : (s.fetchMiss t c line zero).Canon := by
  unfold State.fetchMiss
  extract_lets +onlyGivenNames x s₁
  have hs₁ : s₁.Canon := .ite h (.bump (.modTile (fun h' => h') h))
  exact .keepWidth hs₁

theorem fetchWalk {va : Nat} (h : s.Canon) : (s.fetchWalk t c va).Canon := .keepWidth (.startWalk h)

theorem atSlot {k : Nat} {g : QGuard} (h : s.Canon) : (s.atSlot k g).Canon := h

theorem waitAttempt {i0 : Instr} (h : s.Canon) : (s.waitAttempt t c i0).Canon := .ite (.first h) h

theorem advance (h : s.Canon) : s.advance.Canon := by
  unfold State.advance
  extract_lets +onlyGivenNames c landed s₁
  have hs₁ : s₁.Canon := by
    unfold s₁
    refine .modCurTile (fun h' => ?_) h
    extract_lets +onlyGivenNames t₁ core
    have ht₁ : t₁.Canon := .lockStep h'
    exact ht₁
  exact hs₁

theorem checkRun {i : Instr} (h : s.Canon) : (s.checkRun i).Canon := by
  unfold State.checkRun
  extract_lets +onlyGivenNames x
  split
  · exact h
  · extract_lets +onlyGivenNames s₁
    have hs₁ : s₁.Canon := .ite (.modCurTile (fun h' => h') h) h
    exact .ite (.modCur hs₁) hs₁

theorem checkLanding {src : VAddr} (h : s.Canon) : (s.checkLanding src).Canon := by
  unfold State.checkLanding
  extract_lets x tc
  cases tc with
  | none => exact h
  | some k => exact .raise h

theorem checkLoop {b : VAddr} (h : s.Canon) : (s.checkLoop b).Canon := .ite (.raise h) h

theorem lookAhead (h : s.Canon) : (s.lookAhead t).Canon := by
  unfold State.lookAhead
  extract_lets +onlyGivenNames x
  split
  · split
    · exact h
    · split
      · split
        · exact .ite (.startWalk h) h
        · exact h
      · exact h
  · exact h

theorem migrationStops (h : s.Canon) : (s.migrationStops t).Canon := by
  unfold State.migrationStops
  split
  · exact h
  · extract_lets +onlyGivenNames s₁
    have hs₁ : s₁.Canon := .foldl (fun h' => .ite (.freezeCtx h') h') h
    exact .ite (.freezeActive hs₁) hs₁

theorem migrateEarly (h : s.Canon) : s.migrateEarly.Canon := .foldl (fun h' => .ite (.first h') (.ite (.ite (.first h') h') (.migrationStops h'))) h

theorem arrayTick (h : s.Canon) : (s.arrayTick t).Canon := by
  unfold State.arrayTick
  extract_lets +onlyGivenNames s₁
  have hs₁ : s₁.Canon := .modTile (fun h' => .drainWait (.performStaccs h')) h
  split
  · exact .first (.first hs₁)
  · exact .modTile (fun h' => .settleAcm (.arrayRows h')) hs₁

theorem noteFrozen (h : s.Canon) : (s.noteFrozen t).Canon := .ite (.modMigration h) h

theorem slipPromises (h : s.Canon) : (s.slipPromises t).Canon := .ite h (.modTile (fun h' => h') h)

theorem stackTake {write : Bool} {as : List Nat} (h : s.Canon) : (s.stackTake write as).Canon := h

theorem moveUnit {f : Flight} (h : s.Canon) : (s.moveUnit t f).Canon := by
  unfold State.moveUnit
  extract_lets +onlyGivenNames x c n nxt s₁
  have hs₁ : s₁.Canon := .stackTake (.bump h)
  split
  · extract_lets +onlyGivenNames as data dst s₁
    have hs₁ : s₁.Canon := by
      unfold s₁
      refine .modTile (fun h' => ?_) hs₁
      extract_lets +onlyGivenNames x₁ x₂ x₃
      have hx₁ : x₁.Canon := .ite h' h'
      have hx₂ : x₂.Canon := .countReads hx₁
      have hx₃ : x₃.Canon := .ite hx₂ hx₂
      exact hx₃
    exact .writeHeap hs₁
  · split
    · refine .modTile (fun h' => ?_) hs₁
      extract_lets +onlyGivenNames x₁ x₂ x₃
      have hx₁ : x₁.Canon := .count (.count h')
      have hx₂ : x₂.Canon := .ite hx₁ hx₁
      have hx₃ : x₃.Canon := .landUnit hx₂
      exact hx₃

theorem errAsker {m : TxMsg} (h : s.Canon) : (s.errAsker t m).Canon := .ite h (.errFor h)

theorem servePort (h : s.Canon) : (s.servePort t).Canon := by
  unfold State.servePort
  extract_lets +onlyGivenNames x ev
  split
  · exact h
  · split
    · exact .ite (.first h) (.ite (.first h) h)
    · extract_lets +onlyGivenNames s₁
      have hs₁ : s₁.Canon := .modTile (fun h' => h') h
      split
      · split
        · exact .moveUnit hs₁
        · exact hs₁
      · split
        · split
          · exact .first hs₁
          · exact hs₁
        · exact .modTile (fun h' => .txGrant h') (.errAsker hs₁)
        · exact hs₁
      · exact .modTile (fun h' => .seqGrant h') hs₁
      · exact .first (.stackTake hs₁)
      · exact hs₁

theorem restorePort (h : s.Canon) : (s.restorePort t).Canon := by
  unfold State.restorePort
  split
  · exact h
  · extract_lets +onlyGivenNames x row rest
    split
    · exact h
    · extract_lets +onlyGivenNames s₁
      have hs₁ : s₁.Canon := by
        unfold s₁
        refine .modTile (fun h' => ?_) h
        extract_lets +onlyGivenNames core
        have hcore : core.Canon := .writeSpm h'
        exact hcore
      exact .ite (.modArea hs₁) (.modArea (.modTile (fun h' => .restoreItems h') hs₁))

theorem resultGrant {q : Fin 4} {r : CollRun} (h : s.Canon) : (s.resultGrant t q r port).Canon := .emit (.modTile (fun h' => .countReads h') h)

theorem hiveGrant {q : Fin 4} {r : CollRun} (h : s.Canon) : (s.hiveGrant t q r port).Canon := by
  unfold State.hiveGrant
  extract_lets +onlyGivenNames x as n bs elems out sat s₁ total same
  have hs₁ : s₁.Canon := by
    unfold s₁
    refine .modTile (fun h' => ?_) h
    extract_lets +onlyGivenNames x₁ x₂ x₃
    have hx₁ : x₁.Canon := .countReads h'
    have hx₂ : x₂.Canon := .ite hx₁ (.count hx₁)
    have hx₃ : x₃.Canon := .ite hx₂ hx₂
    exact hx₃
  exact .modPort (fun h' => .ite h' h') hs₁

theorem hiveServe (h : s.Canon) : (s.hiveServe t).Canon := by
  unfold State.hiveServe
  extract_lets +onlyGivenNames x
  split
  · exact h
  · split
    · exact h
    · split
      · exact .ite (.resultGrant h) (.hiveGrant h)
      · exact h

theorem settleEngines (h : s.Canon) : (s.settleEngines t).Canon := by
  unfold State.settleEngines
  extract_lets +onlyGivenNames s₁ x ends acks walk s₂ line s₃ walks lines map
  have hs₁ : s₁.Canon := .modTile (fun h' => .ite h' h') h
  have hs₂ : s₂.Canon := .stackTake hs₁
  have hs₃ : s₃.Canon := .stackTake hs₂
  exact hs₃

theorem holdComb (h : s.Canon) : (s.holdComb t).Canon := .ite (.modTile (fun h' => h') h) h

theorem sendFlit {laneR : Bool} {f : Flit} (h : s.Canon) : (s.sendFlit t d laneR f).Canon := by
  unfold State.sendFlit
  extract_lets +onlyGivenNames u s₁
  have hs₁ : s₁.Canon := by
    unfold s₁
    refine .modTile (fun h' => ?_) h
    extract_lets +onlyGivenNames x₁
    have hx₁ : x₁.Canon := .takeFlit h'
    exact .setOutput (.setOutput hx₁)
  exact .ite (.ite (.modTile (fun h' => .count h') hs₁) hs₁) (.modTile (fun h' => .setInput h') hs₁)

theorem transmitOne (h : s.Canon) : (s.transmitOne t d).Canon := by
  unfold State.transmitOne
  dsimp only
  refine .ite h ?_
  have hs {n} : (if n = 0 then s else s.modTile t fun x => x.event 0x10 n).Canon := .ite h (.modTile (fun h' => .event h') h)
  split
  · exact .sendFlit hs
  · exact .sendFlit hs
  · exact .ite (.sendFlit hs) (.sendFlit hs)
  · exact hs

theorem transmit (h : s.Canon) : (s.transmit t).Canon := by
  unfold State.transmit
  extract_lets s₁ s₂ s₃ s₄ done
  have hs₁ : s₁.Canon := .ite (.modTile (fun h' => .dropBroken h') h) h
  have hs₂ : s₂.Canon := .foldl (fun h' => .transmitOne h') hs₁
  have hs₃ : s₃.Canon := .ite (.modTile (fun h' => .transmitSelf h') hs₂) hs₂
  have hs₄ : s₄.Canon := .ite (.modTile (fun h' => .chunkSelf h') hs₃) hs₃
  clear_value s₄
  exact .ite hs₄ (.same hs₄)

theorem portTick (h : s.Canon) : (s.portTick p).Canon := by
  unfold State.portTick
  extract_lets s₁ s₂ x evs
  have hs₁ : s₁.Canon := by
    refine .modPort (fun {y} h' => ?_) h
    extract_lets z
    have hz : z.Canon := Port.Canon.sendNew (.meetPeers h')
    clear_value z
    exact hz
  have hs₂ : s₂.Canon := .foldl (fun h' => .ite h' (.drainWindow h')) hs₁
  clear_value s₂
  exact .ite hs₂ (.same hs₂)

theorem askSlot (h : s.Canon) : s.askSlot.Canon := by
  unfold State.askSlot
  split
  · split
    · exact .ite (.ask h) h
    · exact h
  · exact h

theorem noteEmpty (h : s.Canon) : s.noteEmpty.Canon := h

theorem settleUnmapped (h : s.Canon) : s.settleUnmapped.Canon := .foldl (fun h' => .ite (.pendQueue h') h') h

theorem dueRecords (h : s.Canon) : s.dueRecords.Canon := .foldl (fun h' => .completeRecord h') h

theorem postAssists (h : s.Canon) : s.postAssists.Canon := by
  unfold State.postAssists
  refine .foldl (fun h' => ?_) h
  extract_lets +onlyGivenNames n
  split
  · extract_lets +onlyGivenNames bs core
    have hcore : core.Canon := .hostWrite h'
    exact hcore
  · exact h'

theorem migrateTick (h : s.Canon) : s.migrateTick.Canon := .foldl (fun h' => .ite (.ite h' h') (.ite h' h')) h

theorem keptReplies (h : s.Canon) : s.keptReplies.Canon := .foldl (fun h' => .replied h') h

theorem firmwareTick (h : s.Canon) : s.firmwareTick.Canon := by
  unfold State.firmwareTick
  extract_lets +onlyGivenNames s₁ tiles pages evs s₂
  have hs₁ : s₁.Canon := .ite h (.migrateTick (.keptReplies h))
  have hs₂ : s₂.Canon := .ite hs₁ (.bump hs₁)
  exact hs₂

theorem lateAcks (h : s.Canon) : s.lateAcks.Canon := by
  unfold State.lateAcks
  refine .foldl (fun h' => ?_) h
  extract_lets +onlyGivenNames sw w
  split
  · exact .ite (.frame (.modSwarm h')) h'
  · exact h'

theorem roundEvent {m : Move} (h : s.Canon) : (s.roundEvent m).1.Canon := by
  unfold State.roundEvent
  split
  · split
    · exact .ask h
    · split <;> exact h
  · exact h

theorem viewTick (h : s.Canon) : s.viewTick.Canon := .foldl (fun h' => .same (.roundEvent h')) (.lateAcks h)

theorem frontTick {comb : Bool} (h : s.Canon) : (s.frontTick comb).Canon := by
  unfold State.frontTick
  extract_lets +onlyGivenNames advances ends s₁ s₂ s₃ s₄ s₅
  have hs₁ : s₁.Canon := .askSlot (.noteEmpty (.settleUnmapped (.dueRecords h)))
  have hs₃ : s₃.Canon := .postAssists hs₁
  have hs₄ : s₄.Canon := .ite (.firmwareTick hs₃) hs₃
  have hs₅ : s₅.Canon := .viewTick hs₄
  exact hs₅

theorem idleTick (h : s.Canon) : s.idleTick.Canon := h

theorem beginTick (h : s.Canon) : s.beginTick.Canon := by
  unfold State.beginTick
  extract_lets +onlyGivenNames comb s' scouts
  have hs : s'.Canon := h.setPorts fun k => by
    rw [Fin.getElem_fin, Vector.getElem_map]
    exact h.port
  split
  · extract_lets now s''
    exact hs.mapTiles (f := fun e => (e.1, e.2.beginTick now)) fun h' => .beginTick h'
  · exact hs

end State.Canon

end

/-! #### Instructions, moves and stimuli -/

section

variable {s : State} {t : TileId} {d a b p _b : Fin 16} {i : Fin 6} {c : Fin 4} {k base : Fin 32} {sw : Fin 256} {src : BitVec 16} {ws : List Nat} {id : Nat} {data : List Byte}

namespace Out.Canon

theorem checked {f : Option Cause} {k : State → State} (hk : ∀ {y}, y.Canon → (k y).Canon) (h : s.Canon) : Out.Canon (checked f s k) := by
  unfold Machine.checked
  split
  · exact .next (.issueFault h)
  · exact .next (hk h)

theorem execHalt (h : s.Canon) : Out.Canon (execHalt s) := by
  unfold Machine.execHalt
  extract_lets +onlyGivenNames s'
  have hs' : s'.Canon := .endTask h
  exact .next (.ite (.first hs') hs')

theorem execYield {run : BitVec 20} (h : s.Canon) : Out.Canon (execYield run s) := by
  unfold Machine.execYield
  refine .next (.first ?_)
  refine .modCurTile (fun h' => ?_) h
  extract_lets +onlyGivenNames t₁ t₂
  have ht₁ : t₁.Canon := .closeLock h'
  exact ht₁

theorem waitSlot {i : Instr} {k : State → State} (hk : ∀ {y}, y.Canon → (k y).Canon) (h : s.Canon) : Out.Canon (waitSlot i k s) := by
  unfold Machine.waitSlot
  extract_lets +onlyGivenNames s₁
  have hs₁ : s₁.Canon := .ite h (.modCurTile (fun h' => .readWait h') h)
  split
  · exact .next (.issueFault hs₁)
  · exact .next (.ite (hk hs₁) (.holdWait hs₁))

theorem execWaitph (h : s.Canon) : Out.Canon (execWaitph s) := by
  unfold Machine.execWaitph
  refine .waitSlot (fun h' => ?_) h
  extract_lets +onlyGivenNames c s₁
  have hs₁ : s₁.Canon := .modCur h'
  exact .lower hs₁

theorem execMxuRetire (h : s.Canon) : Out.Canon (execMxuRetire t s) := by
  unfold Machine.execMxuRetire
  extract_lets +onlyGivenNames x
  split
  · exact .ite (.next (.modTile (fun h' => .mxFinish h') h)) (.next h)
  · exact .next h

theorem execMxuCommandHead (h : s.Canon) : Out.Canon (execMxuCommandHead t s) := by
  unfold Machine.execMxuCommandHead
  dsimp only
  split
  · exact .next h
  · next c _ =>
    have hn : (s.modTile t fun x => x.noteEntries c).Canon := .modTile (fun h' => .noteEntries h') h
    refine .ite (.next h) ?_
    cases ((s.tile t).tableView.headCause c (s.modTile t fun x => x.noteEntries c).now) with
    | some f => exact .next (.mxFault hn)
    | none =>
      refine .next (.modTile (fun h' => ?_) hn)
      cases c.op
      case prec | pmaskRow | pmaskCol | wswap => exact .mxLeave (.frame h')
      all_goals exact .frame h'

theorem execMxuStart (h : s.Canon) : Out.Canon (execMxuStart t s) := by
  unfold Machine.execMxuStart
  extract_lets +onlyGivenNames x
  split
  · exact .next h
  · split
    · exact .next h
    · extract_lets +onlyGivenNames s₁
      have hs₁ : s₁.Canon := .modTile (fun h' => .noteEntries h') h
      split
      · exact .next (.mxFault hs₁)
      · refine .next (.modTile (fun h' => ?_) (.reserveArray hs₁))
        split
        · exact .startTimed h'
        · exact h'

theorem fetchRun {lvl pin : Bool} {ab : Fin 8} {lines : BitVec 8} (h : s.Canon) : Out.Canon (fetchRun lvl pin ab lines s) :=
  .next (.bump (.foldl (fun h' => .askLine h') h))

theorem execLdq {qd : Fin 8} {off : BitVec 11} (h : s.Canon) : Out.Canon (execLdq qd base off s) := by
  unfold Machine.execLdq
  split
  · exact .next (.issueFault h)
  · exact .next (.modCurTile (fun h' => h') h)

theorem execVmpush {mk : Fin 8} (h : s.Canon) : Out.Canon (execVmpush mk s) := by
  unfold Machine.execVmpush
  split
  · exact .next (.issueFault h)
  · exact .next (.result h)

theorem loadSlot {as : List Nat} {lat : Nat} {k : ReadKind} (h : s.Canon) : Out.Canon (loadSlot as lat k s) := by
  unfold Machine.loadSlot
  split
  · exact .next (.issueFault h)
  · exact .next (.modCurTile (fun h' => h') h)

theorem execLdacc {row : Fin 64} {off : BitVec 10} (h : s.Canon) : Out.Canon (execLdacc row base off s) := by
  unfold Machine.execLdacc
  split
  · exact .next (.issueFault h)
  · exact .next (.modCurTile (fun h' => h') h)

theorem storeSlot {data : List (Nat × Byte)} (h : s.Canon) : Out.Canon (storeSlot data s) := by
  unfold Machine.storeSlot
  split
  · exact .next (.issueFault h)
  · exact .next (.modCurTile (fun h' => h') h)

theorem execStacc {row : Fin 64} {off : BitVec 10} (h : s.Canon) : Out.Canon (execStacc row base off s) := by
  unfold Machine.execStacc
  split
  · exact .next (.issueFault h)
  · exact .next (.modCurTile (fun h' => h') h)

theorem atomicSlot {k : ReadKind} (h : s.Canon) : Out.Canon (atomicSlot base k s) := by
  unfold Machine.atomicSlot
  split
  · exact .next (.issueFault h)
  · exact .next (.modCurTile (fun h' => h') h)

theorem mxSlot {op : MxOp} (h : s.Canon) : Out.Canon (mxSlot op s) := by
  unfold Machine.mxSlot
  split
  · split
    · exact .next (.issueFault h)
    · exact .next (.enqueueMx h)
  · exact .next (.modCurTile (fun h' => .count h') h)

theorem copyForm {form : CopyForm} {c : CopyOps} (h : s.Canon) : Out.Canon (copyForm form c s) := by
  unfold Machine.copyForm
  split
  · exact .next (.issueFault h)
  · extract_lets +onlyGivenNames op xl id s₁ s₂
    have hs₁ : s₁.Canon := .enqueueCopy h
    have hs₂ : s₂.Canon := .modCurTile (fun h' => .tlbTouch h') hs₁
    exact .next (.ite (.enqueueFollow hs₂) hs₂)

theorem copySlot {op : CopyOp} {tag : Option (Fin 16)} (h : s.Canon) : Out.Canon (copySlot op tag s) := by
  unfold Machine.copySlot
  split
  · exact .next (.issueFault h)
  · exact .next (.enqueueCopy h)

theorem execPublish {buf : Fin 32} {mk : Fin 8} (h : s.Canon) : Out.Canon (execPublish buf mk s) := by
  unfold Machine.execPublish
  split
  · exact .next (.issueFault h)
  · extract_lets +onlyGivenNames id s₁
    have hs₁ : s₁.Canon := .enqueueCopy h
    exact .next (.ite hs₁ (.modCur hs₁))

theorem chanSlot {op : ChOp} {tag : Option (Fin 16)} {coll : Bool} (h : s.Canon) : Out.Canon (chanSlot op tag coll s) := by
  unfold Machine.chanSlot
  split
  · exact .next (.issueFault h)
  · exact .next (h.modTile fun h => .ite (.takeCredit h) h)

theorem execArbiterChoice (h : s.Canon) : Out.Canon (execArbiterChoice t s) := by
  unfold Machine.execArbiterChoice
  extract_lets +onlyGivenNames x rs lo
  refine .next (.modTile (fun h' => ?_) h)
  split
  · exact .grant h'
  · exact h'

theorem execInstructionCacheFill (h : s.Canon) : Out.Canon (execInstructionCacheFill t s) := by
  unfold Machine.execInstructionCacheFill
  extract_lets +onlyGivenNames x
  split
  · exact .next h
  · exact .next (.modTile (fun h' => .count (.insertLine h')) h)

theorem execCodeRegionFill (h : s.Canon) : Out.Canon (execCodeRegionFill t s) := by
  unfold Machine.execCodeRegionFill
  extract_lets +onlyGivenNames x
  split
  · exact .next h
  · extract_lets +onlyGivenNames sl old lo at_
    split
    · exact .next (.modTile (fun h' => h') h)
    · split
      · exact .next h
      · extract_lets +onlyGivenNames data bad pin
        refine .next (.modTile (fun h' => ?_) h)
        extract_lets +onlyGivenNames x₁
        have hx₁ : x₁.Canon := .count (.writeSpm h')
        exact .ite hx₁ hx₁

theorem execCopyQueueStart (h : s.Canon) : Out.Canon (execCopyQueueStart t s) := by
  unfold Machine.execCopyQueueStart
  split
  · exact .next h
  · split
    · exact .next (.headFault (.modTile (fun h' => .retire (.dropFollow h')) h))
    · extract_lets +onlyGivenNames s₁ x
      have hs₁ : s₁.Canon := .modTile (fun h' => .noteMap (.noteTable h')) h
      split
      · split
        · exact .next hs₁
        · exact .next (.startWalk hs₁)
        · exact .next (.tmAsk hs₁)
        · exact .next (.copyFault hs₁)
        · exact .next (.copyStart hs₁)
      · exact .next (.reqpgHead hs₁)
      · split
        · exact .next (.copyFault hs₁)
        · exact .next (.modTile (fun h' => .bufferEffect h') hs₁)

theorem execPageWalk (h : s.Canon) : Out.Canon (execPageWalk t s) := by
  unfold Machine.execPageWalk
  extract_lets +onlyGivenNames x
  split
  · exact .next h
  · next w _ =>
    extract_lets +onlyGivenNames c
    refine .ite (.next h) ?_
    extract_lets r bad
    refine .next (.modTile (fun {y} h' => ?_) h)
    have hy : (y.count eccUE bad).Canon := .count h'
    generalize y.count eccUE bad = y at hy
    extract_lets y₀ y₁ y₂
    have h₁ : y₁.Canon := .frame hy
    have h₂ : y₂.Canon := .ite (.frame h₁) h₁
    clear_value y₂
    cases r with
    | ok => split <;> exact .frame h₂
    | _ => exact h₂

theorem execCopyRetire (h : s.Canon) : Out.Canon (execCopyRetire t id s) := by
  unfold Machine.execCopyRetire
  extract_lets +onlyGivenNames x
  split
  · exact .next h
  · refine .next (.bump ?_)
    refine .modTile (fun h' => ?_) h
    extract_lets +onlyGivenNames x₁ x₂
    have hx₁ : x₁.Canon := .retire h'
    have hx₂ : x₂.Canon := .ite hx₁ hx₁
    exact .ite hx₂ hx₂

theorem execHeapWriteAcknowledgement (h : s.Canon) : Out.Canon (execHeapWriteAcknowledgement t id s) := by
  unfold Machine.execHeapWriteAcknowledgement
  split
  · exact .next h
  · exact .next (.modTile (fun h' => h') h)

theorem execEccWriteback (h : s.Canon) : Out.Canon (execEccWriteback t s) := by
  unfold Machine.execEccWriteback
  refine .next (.modTile (fun h' => ?_) h)
  split <;> exact h'

theorem execScrub (h : s.Canon) : Out.Canon (execScrub t s) := by
  unfold Machine.execScrub
  refine .next (.modTile (fun h' => ?_) h)
  extract_lets +onlyGivenNames w core
  have hcore : core.Canon := .noteReads h'
  exact hcore

theorem execAdrnStart (h : s.Canon) : Out.Canon (execAdrnStart t s) := by
  unfold Machine.execAdrnStart
  extract_lets +onlyGivenNames x
  split
  · exact .next h
  · split
    · split
      · exact .next h
      · extract_lets +onlyGivenNames rows d todo rg fill
        refine .next (.modTile (fun h' => ?_) h)
        extract_lets +onlyGivenNames x₁
        have hx₁ : x₁.Canon := .ite (.noteEntries h') (.noteEntries h')
        exact hx₁
    · exact .next h

theorem execChannelQueueStart (h : s.Canon) : Out.Canon (execChannelQueueStart t s) := by
  unfold Machine.execChannelQueueStart
  split
  · exact .next h
  · split
    · exact .next (.headFault (.modTile (fun h' => .retire h') h))
    · extract_lets +onlyGivenNames s₁
      have hs₁ : s₁.Canon := .modTile (fun h' => .foldl (fun h' => .noteTable h') h') h
      split
      · exact .next hs₁
      · exact .next (.chanFault hs₁)
      · exact .ite (.next hs₁) (.next (.chanStart hs₁))

theorem execMessageTransmitted (h : s.Canon) : Out.Canon (execMessageTransmitted t id s) := by
  unfold Machine.execMessageTransmitted
  extract_lets +onlyGivenNames x
  split
  · exact .next h
  · exact .next (.modTile (fun h' => .ite (.retire h') (.ite h' h')) h)

theorem execHeaderForward {laneR : Bool} (h : s.Canon) : Out.Canon (execHeaderForward t i laneR s) := by
  unfold Machine.execHeaderForward
  refine .next (.modTile (fun h' => ?_) h)
  split
  · exact h'
  · refine .foldl (fun h' => ?_) h'
    split
    · extract_lets +onlyGivenNames x₁
      have hx₁ : x₁.Canon := .setOutput h'
      exact .ite hx₁ (.setInput hx₁)
    · exact h'

theorem messageFlit (h : s.Canon) : Out.Canon (messageFlit t i s) := by
  unfold Machine.messageFlit
  extract_lets +onlyGivenNames x
  split
  · exact .next h
  · split
    · split
      · exact .next (.modTile (fun h' => h') h)
      · extract_lets +onlyGivenNames g ok s₁ s₂
        have hs₁ : s₁.Canon := .modTile (fun h' => .readTable h') h
        have hs₂ : s₂.Canon := by
          unfold s₂
          split
          · exact .modPort (fun h' => .count h') hs₁
          · exact .ite hs₁ (.modTile (fun h' => .count h') hs₁)
        exact .next (.ite (.sendCredit (.modTile (fun h' => h') hs₂)) hs₂)
    · extract_lets +onlyGivenNames g pop s₁
      have hs₁ : s₁.Canon := .ite h (.modTile (fun h' => .rxBegin h') h)
      split
      · exact .next hs₁
      · split
        · exact .next hs₁
        · extract_lets +onlyGivenNames s₁ s₂
          have hs₁ : s₁.Canon := .ite (.errFor hs₁) hs₁
          have hs₂ : s₂.Canon := .modTile (fun h' => .ite h' (.rxWrite h')) hs₁
          exact .next (.ite (.rxEnd hs₂) hs₂)

theorem execSigArrival (h : s.Canon) : Out.Canon (execSigArrival t i s) := by
  unfold Machine.execSigArrival
  split
  · exact .next h
  · next hs =>
    have h := h.takeSig hs
    exact .next (.sendCredit (.modTile (fun h' => .ite (.addSem h') (.count h')) (.modTile (fun h' => .noteReads h') h)))

theorem execPortSigArrival (h : s.Canon) : Out.Canon (execPortSigArrival t i s) := by
  unfold Machine.execPortSigArrival
  split
  · exact .next h
  · next hs =>
    have h := h.takeSig hs
    split
    · exact .next h
    · exact .next (.sendCredit (.modPort (fun h' => h') h))

theorem execCreditReturn {ch : Fin 256} (h : s.Canon) : Out.Canon (execCreditReturn t ch s) := by
  unfold Machine.execCreditReturn
  extract_lets +onlyGivenNames x
  split
  · exact .next h
  · refine .next (.modTile (fun h' => ?_) h)
    extract_lets +onlyGivenNames x₁ x₂
    have hx₂ : x₂.Canon := .useWindow h'
    exact .ite hx₂ (.giveCredit hx₂)

theorem execWriteData (h : s.Canon) : Out.Canon (execWriteData t i s) := by
  unfold Machine.execWriteData
  extract_lets +onlyGivenNames x
  split
  · exact .next h
  · split
    · exact .next (.modTile (fun h' => h') h)
    · extract_lets +onlyGivenNames g n ws lost s₁ back ack
      have hs₁ : s₁.Canon := by
        unfold s₁
        refine .modTile (fun h' => ?_) h
        extract_lets +onlyGivenNames o x₁ x₂ c m'
        have hx₁ : x₁.Canon := .writeSpm (.foldl (fun h => h) h')
        have hx₂ : x₂.Canon := .ite (.count hx₁) hx₁
        exact .foldl (fun h => h) hx₂
      exact .next (.ite (.modTile (fun h' => h') hs₁) hs₁)

theorem execReadRequest (h : s.Canon) : Out.Canon (execReadRequest t i s) := by
  unfold Machine.execReadRequest
  split
  · exact .next h
  · next hs => exact .next ((h.takeSig hs).modTile fun h' => h')

theorem execReadData (h : s.Canon) : Out.Canon (execReadData t i s) := by
  unfold Machine.execReadData
  extract_lets +onlyGivenNames x
  split
  · exact .next h
  · split
    · exact .next (.modTile (fun h' => h') h)
    · extract_lets +onlyGivenNames g n
      refine .next (.modTile (fun h' => ?_) h)
      extract_lets +onlyGivenNames x₁ m'
      have hx₁ : x₁.Canon := by
        unfold x₁
        split
        · exact .landUnit h'
        · exact .ite (.count h') h'
      exact hx₁

theorem execWriteAcknowledgement (h : s.Canon) : Out.Canon (execWriteAcknowledgement t i s) := by
  unfold Machine.execWriteAcknowledgement
  split
  · exact .next h
  · next hs => exact .next ((h.takeSig hs).modTile fun h' => .ackArrives h')

theorem execChunkArrival (h : s.Canon) : Out.Canon (execChunkArrival t i s) := by
  unfold Machine.execChunkArrival
  extract_lets +onlyGivenNames x
  split
  · split
    · exact .next h
    · extract_lets +onlyGivenNames c take
      split
      · exact .next (.modTile (fun h' => .count h') h)
      · exact .next (.ite h (.modTile (fun h' => h') h))
      · split
        · exact .next h
        · exact .ite (.next h) (.next (.modTile (fun h' => .beginChunk h') h))
  · exact .next h

theorem execCollectiveComplete {ch : Fin 256} {inst : BitVec 16} (h : s.Canon) : Out.Canon (execCollectiveComplete t ch inst s) := by
  unfold Machine.execCollectiveComplete
  extract_lets +onlyGivenNames x
  split
  · exact .next h
  · split
    · exact .next h
    · refine .next (.modTile (fun h' => ?_) h)
      extract_lets +onlyGivenNames x₁ d x₂
      have hx₁ : x₁.Canon := .closeRun h'
      exact .retire hx₁

theorem execSuspicion {peer : BitVec 16} (h : s.Canon) : Out.Canon (execSuspicion p peer s) := by
  unfold Machine.execSuspicion
  extract_lets +onlyGivenNames s₁
  have hs₁ : s₁.Canon := by
    unfold s₁
    refine .modPort (fun h' => ?_) h
    extract_lets +onlyGivenNames x₁
    have hx₁ : x₁.Canon := .ite h' h'
    exact hx₁
  exact .next hs₁

theorem execWaggleRound (h : s.Canon) : Out.Canon (execWaggleRound sw s) := by
  unfold Machine.execWaggleRound
  split
  · exact .next h
  · split
    · exact .next h
    · extract_lets +onlyGivenNames ms top tag start frame
      split
      · extract_lets +onlyGivenNames s₁
        have hs₁ : s₁.Canon := .modSwarm (.beginChange h)
        exact .next (.first hs₁)
      · split
        · exact .next h
        · split
          · extract_lets +onlyGivenNames s₁
            have hs₁ : s₁.Canon := .frame (.modSwarm (.beginChange h))
            exact .next (.ite (.first hs₁) hs₁)
          · exact .next h

theorem execPropose {tag : BitVec 16} {members : List Nat} {_ni : BitVec 16} (h : s.Canon) : Out.Canon (execPropose sw src tag members _ni s) := by
  unfold Machine.execPropose
  split
  · exact .next h
  · split
    · exact .next h
    · extract_lets +onlyGivenNames seen s₁
      have hs₁ : s₁.Canon := .modSwarm (.heard h)
      split
      · split
        · exact .next (.stalePort hs₁)
        · split
          · exact .next hs₁
          · extract_lets +onlyGivenNames relay s₁
            have hs₁ : s₁.Canon := .modSwarm (.beginChange hs₁)
            exact .ite (.next (.frame (.modSwarm hs₁))) (.next hs₁)
      · exact .next hs₁

theorem execAck {tag : BitVec 16} {done : List (Nat × BitVec 16)} (h : s.Canon) : Out.Canon (execAck sw src tag done s) := by
  unfold Machine.execAck
  split
  · exact .next h
  · extract_lets +onlyGivenNames s₁
    have hs₁ : s₁.Canon := .heard h
    split
    · exact .next hs₁
    · split
      · split
        · exact .next hs₁
        · extract_lets +onlyGivenNames acks s₁
          have hs₁ : s₁.Canon := .modSwarm hs₁
          exact .ite (.next (.first hs₁)) (.next hs₁)
      · exact .next hs₁

theorem execCommit {f : CommitFrame} (h : s.Canon) : Out.Canon (execCommit sw src f s) := by
  unfold Machine.execCommit
  split
  · exact .next h
  · split
    · exact .next h
    · extract_lets +onlyGivenNames own s₁
      have hs₁ : s₁.Canon := .ite h (.heard h)
      split
      · exact .next (.ite (.stalePort hs₁) hs₁)
      · split
        · exact .next (.modSwarm hs₁)
        · extract_lets +onlyGivenNames s₁
          have hs₁ : s₁.Canon := .ite (.frame hs₁) hs₁
          exact .ite (.next (.modSwarm hs₁)) (.next (.install hs₁))

theorem execJoin (h : s.Canon) : Out.Canon (execJoin sw src s) := by
  unfold Machine.execJoin
  split
  · exact .next h
  · split
    · extract_lets +onlyGivenNames s₁
      have hs₁ : s₁.Canon := .heard h
      exact .ite (.next hs₁) (.next (.modSwarm hs₁))
    · exact .next h

theorem execPacketArrival {plane : Fin 4} {wave : Fin 64} {pk : Packet} (h : s.Canon) : Out.Canon (execPacketArrival p plane wave pk s) := by
  unfold Machine.execPacketArrival
  extract_lets +onlyGivenNames x e
  have hx : x.Canon := .meetPeers h.port
  split
  · exact .next (.modPort (fun h' => .count h') h)
  · extract_lets +onlyGivenNames s₁
    have hs₁ : s₁.Canon := .modPort (fun h' => .meetPeers h') h
    split
    · exact .next hs₁
    · exact .ite (.next (.emit (.modPort (fun h' => .count h') hs₁))) (.ite (.next hs₁) (.next (.emit (.drainWindow (.modPort (fun h' => h') hs₁)))))

theorem execRemoteAtomic (h : s.Canon) : Out.Canon (execRemoteAtomic p s) := by
  unfold Machine.execRemoteAtomic
  extract_lets +onlyGivenNames x
  split
  · exact .next h
  · split
    · exact .next h
    · extract_lets +onlyGivenNames s₁
      have hs₁ : s₁.Canon := .modPort (fun h' => h') h
      split
      · exact .ite (.next (.modPort (fun h' => .enqueue h') hs₁)) (.next (.modPort (fun h' => .applyAtomic h') hs₁))
      · exact .next (.modPort (fun h' => .applyAtomic h') hs₁)

theorem execRemoteAtomicTimeout (h : s.Canon) : Out.Canon (execRemoteAtomicTimeout p s) := by
  unfold Machine.execRemoteAtomicTimeout
  refine .next (.modPort (fun h' => ?_) h)
  split
  · split
    · extract_lets +onlyGivenNames core
      have hcore : core.Canon := .count h'
      exact hcore
    · exact h'
  · exact h'

theorem execSxmitAtomic (h : s.Canon) : Out.Canon (execSxmitAtomic d a b s) := by
  unfold Machine.execSxmitAtomic
  split
  · split
    · exact .next (.scoutSet (.modPort (fun h' => h') h))
    · exact .next (.scoutWait h)
  · split
    · exact .next (.scoutWait h)
    · refine .next (.scoutWait ?_)
      refine .modPort (fun h' => ?_) h
      extract_lets +onlyGivenNames n core
      have hcore : core.Canon := .enqueue h'
      exact hcore

theorem execSrecvWait (h : s.Canon) : Out.Canon (execSrecvWait d a b s) := by
  unfold Machine.execSrecvWait
  extract_lets +onlyGivenNames v
  split
  · exact .next (.scoutSet h)
  · split
    · exact .next (.receive h)
    · exact .next (.scoutWait h)

theorem execSrecvPoll (h : s.Canon) : Out.Canon (execSrecvPoll d a b s) := by
  unfold Machine.execSrecvPoll
  extract_lets +onlyGivenNames v
  split
  · exact .next (.receive h)
  · exact .next (.scoutSet h)

theorem execSreduce {fn : BitVec 6} (h : s.Canon) : Out.Canon (execSreduce d a b fn s) := by
  unfold Machine.execSreduce
  extract_lets f sw sh addr
  refine .ite (.next (.scoutHalt h)) ?_
  split
  · exact .next (.scoutWait h)
  · refine .ite (.next (.scoutSet h)) ?_
    split
    · exact .next (.scoutWait h)
    · extract_lets +onlyGivenNames n all len bad odd s' ps
      have hs : s'.Canon := .ite h (.modPort (fun h' => .count h') h)
      refine .ite (.next (.scoutSet h)) (.ite (.next (.scoutWait hs)) (.next (.moving (fun {t} ht => ?_) hs)))
      extract_lets own r t'
      have ht' : t'.Canon := .modPort (fun h' => .count h') (.sramRead ht)
      exact .scoutSet (.modScout (fun h' => .write h') ht')

theorem execSfwdIn (h : s.Canon) : Out.Canon (execSfwdIn d a b s) := by
  unfold Machine.execSfwdIn
  extract_lets +onlyGivenNames sw
  split
  · exact .next (.scoutWait h)
  · split
    · exact .next (.scoutSet h)
    · split
      · exact .next (.scoutWait h)
      · refine .next (.moving (fun h' => ?_) h)
        extract_lets +onlyGivenNames s₁
        have hs₁ : s₁.Canon := .modPort (fun h' => h') h'
        exact .scoutSet (.modScout (fun h' => .write h') hs₁)

theorem execSfwdOut (h : s.Canon) : Out.Canon (execSfwdOut d a b s) := by
  unfold Machine.execSfwdOut
  extract_lets sw len
  split
  · exact .next (.scoutSet h)
  · exact .next (.moving (fun ht => .scoutSet (.modPort (fun h' => h') (.modTile (fun h' => .feed h') (.sramRead ht)))) h)

theorem execSplaneDrain (h : s.Canon) : Out.Canon (execSplaneDrain d a _b s) := by
  unfold Machine.execSplaneDrain
  extract_lets +onlyGivenNames k p
  split
  · exact .next (.scoutSet h)
  · extract_lets +onlyGivenNames s₁
    have hs₁ : s₁.Canon := .ite (.modPort (fun h' => h') h) h
    exact .ite (.next (.scoutSet (.modPort (fun h' => h') hs₁))) (.next (.scoutWait hs₁))

theorem execSplaneRestore (h : s.Canon) : Out.Canon (execSplaneRestore d a b s) := by
  unfold Machine.execSplaneRestore
  extract_lets +onlyGivenNames k p addr
  split
  · exact .next (.scoutHalt h)
  · split
    · exact .next (.scoutSet h)
    · split
      · split
        · exact .next h
        · extract_lets +onlyGivenNames s₁
          have hs₁ : s₁.Canon := .modPort (fun h' => h') h
          exact .next (.scoutSet hs₁)
      · extract_lets +onlyGivenNames s₁
        have hs₁ : s₁.Canon := .ite (.modPort (fun h' => h') h) h
        exact .ite (.next (.scoutWait hs₁)) (.next (.modScout (fun h' => h') (.bump (.modPort (fun h' => h') (.sramRead hs₁)))))

theorem onView {k : Fin 256 → Swarm → State} (hk : ∀ {y y1}, (k y y1).Canon) (h : s.Canon) : Out.Canon (s.onView d a k) := by
  unfold Machine.State.onView
  extract_lets +onlyGivenNames sw
  split
  · exact .next (.scoutSet h)
  · exact .next hk

theorem execSviewJoin (h : s.Canon) : Out.Canon (execSviewJoin d a _b s) := by
  unfold Machine.execSviewJoin
  refine .onView (@fun _ _ => ?_) h
  split
  · exact .ite (.scoutSet h) (.scoutSet (.frame (.modSwarm h)))
  · exact .scoutSet h

theorem execSviewLeave (h : s.Canon) : Out.Canon (execSviewLeave d a _b s) := by
  unfold Machine.execSviewLeave
  refine .onView (@fun _ _ => ?_) h
  split
  · exact .ite (.scoutSet (.frame (.modSwarm h))) (.scoutSet h)
  · exact .scoutSet h

theorem execFaultDelivery (h : s.Canon) : Out.Canon (execFaultDelivery t c s) := by
  unfold Machine.execFaultDelivery
  extract_lets +onlyGivenNames x
  split
  · exact .next h
  · split
    · split
      · exact .next h
      · extract_lets +onlyGivenNames s₁
        have hs₁ : s₁.Canon := .modCtx h
        exact .next (.raise hs₁)
    · split
      · exact .next h
      · extract_lets +onlyGivenNames s₁
        have hs₁ : s₁.Canon := .modCtx h
        exact .ite (.next hs₁) (.next (.raise (.modCtx hs₁)))

theorem execFaultRecord (h : s.Canon) : Out.Canon (execFaultRecord t c s) := by
  unfold Machine.execFaultRecord
  split
  · exact .next h
  · extract_lets +onlyGivenNames x
    split
    · exact .next (.modCtx h)
    · extract_lets +onlyGivenNames s₁
      have hs₁ : s₁.Canon := .ite (.endTask (.faultOf h)) h
      split
      · exact .next hs₁
      · extract_lets +onlyGivenNames s₁ s₂
        have hs₁ : s₁.Canon := by
          unfold s₁
          refine .foldl (fun h' => ?_) hs₁
          split
          · exact .faultOf h'
          · exact h'
        have hs₂ : s₂.Canon := .foldl (fun h' => .faultOf h') hs₁
        exact .next (.modCtx hs₂)

theorem execContextSave (h : s.Canon) : Out.Canon (execContextSave t c s) := by
  unfold Machine.execContextSave
  split
  · exact .next h
  · extract_lets +onlyGivenNames x s₁ s₂ kept owed
    have hs₁ : s₁.Canon := .writeArea (.modArea h)
    have hs₂ : s₂.Canon := by
      unfold s₂
      split
      · exact .modTile (fun h' => .commitUnmarked h') hs₁
      · exact hs₁
    exact .next (.modCtx hs₂)

theorem execPreemptionFreeze (h : s.Canon) : Out.Canon (execPreemptionFreeze t c s) := by
  unfold Machine.execPreemptionFreeze
  extract_lets +onlyGivenNames x
  split
  · exact .next h
  · extract_lets +onlyGivenNames s₁ r s₂
    have hs₁ : s₁.Canon := .bump (.beginDrain h)
    have hs₂ : s₂.Canon := .setTile (.foldl (fun h => h) (.foldl (fun h' => .dropCredit h') hs₁.tile)) hs₁
    exact .next (.modArea hs₂)

theorem execContextRestore (h : s.Canon) : Out.Canon (execContextRestore t c s) := by
  unfold Machine.execContextRestore
  split
  · exact .next h
  · split
    · exact .next h
    · split
      · exact .next (.modArea h)
      · exact .next h
      · split
        · exact .next h
        · extract_lets +onlyGivenNames s₁
          have hs₁ : s₁.Canon := .modTile (fun h' => .replaceQueued h') h
          exact .next hs₁

theorem execMigrationMove (h : s.Canon) : Out.Canon (execMigrationMove t s) := by
  unfold Machine.execMigrationMove
  split
  · exact .next h
  · split
    · exact .ite (.next (.resume h)) (.next h)
    · exact .ite (.next (.first h)) (.next (.placeMoved h))
    · split
      · exact .next (.first h)
      · exact .next (.modMigration h)

theorem execTileLost (h : s.Canon) : Out.Canon (execTileLost t s) := by
  unfold Machine.execTileLost
  refine .ite (.next h) ?_
  extract_lets x s₁ s₂ place s₃ s₄
  have h₁ : s₁.Canon := by
    refine .foldl (fun {u c} hu => ?_) h
    extract_lets y
    split
    · exact .ite hu (.faultOf hu)
    · exact hu
  have h₂ : s₂.Canon := .dropFlights (.lostBefore h₁)
  have h₃ : s₃.Canon := .setMap (.setTile .reset h₂)
  clear_value s₃
  have h₄ : State.Canon { s₃ with tiles := s₃.tiles.map fun e => if e.1 = t then e else (e.1, e.2.dropPeer t) } :=
    h₃.mapTiles fun he => by split <;> exact he
  exact .next (.post (.rewalk (.rerouteAll (.failEdge (.same h₄)))))

theorem execTileMapCacheFill (h : s.Canon) : Out.Canon (execTileMapCacheFill t s) := by
  unfold Machine.execTileMapCacheFill
  extract_lets +onlyGivenNames x
  split
  · exact .next h
  · split
    · exact .next h
    · extract_lets +onlyGivenNames known rest keep slot e
      refine .next (.modTile (fun h' => ?_) h)
      extract_lets +onlyGivenNames core
      have hcore : core.Canon := .writeTable h'
      exact hcore

theorem execPageMigration {l : BitVec 16} {va : VAddr} {st : Fin 64} {fr : BitVec 17} {lc : BitVec 3} (h : s.Canon) :
    Out.Canon (execPageMigration l va st fr lc s) := by
  unfold Machine.execPageMigration
  split
  · exact .next h
  · split
    · exact .next h
    · next vb sz pb _ _ _ _ _ _ _ _ =>
      refine .ite (.next h) ?_
      extract_lets ls s' m s''
      have hs : s'.Canon := .setLeaf (.setLeaf h)
      have hs' : s''.Canon := hs.mapTiles (f := fun e => (e.1, e.2.dropXlate ls vb sz)) fun h' => h'
      exact .next (.invalidate hs')

theorem execPageMigrationCopy (h : s.Canon) : Out.Canon (execPageMigrationCopy s) := by
  unfold Machine.execPageMigrationCopy
  split
  · exact .next h
  · next m _ =>
    extract_lets +onlyGivenNames base
    have hm := h.moveFrame (a := m.oldBase) (b := base) (n := m.size)
    generalize s.moveFrame m.oldBase base m.size = u at hm ⊢
    extract_lets u₀ u₁ u₂ ls u₃
    have h₁ : u₁.Canon := .same hm
    clear_value u₁
    have h₂ : u₂.Canon := .setLeaf (.setLeaf (.setLeaf (.setLeaf h₁)))
    clear_value u₂
    have h₃ : u₃.Canon := h₂.mapTiles (f := fun e => (e.1, e.2.dropXlate ls m.va.toNat m.size)) fun h' => .frame h'
    exact .next (.foldl (fun h' => .releaseLines h') h₃)

theorem execDoorbell {q : Fin 256} {tail : Word} (h : s.Canon) : Out.Canon (execDoorbell q tail s) := by
  unfold Machine.execDoorbell
  extract_lets +onlyGivenNames u
  split
  · exact .next h
  · extract_lets +onlyGivenNames rise
    split
    · exact .next h
    · split
      · exact .next (.post h)
      · extract_lets +onlyGivenNames s₁
        have hs₁ : s₁.Canon := .modQueue h
        exact .ite (.next (.pendQueue hs₁)) (.next hs₁)

theorem execSlotMap (h : s.Canon) : Out.Canon (execSlotMap k s) := by
  unfold Machine.execSlotMap
  split
  · extract_lets +onlyGivenNames u s₁
    have hs₁ : s₁.Canon := .modQueue h
    exact .next (.modSlot hs₁)
  · exact .next h

theorem execIdleUnmap (h : s.Canon) : Out.Canon (execIdleUnmap k s) := by
  unfold Machine.execIdleUnmap
  split
  · exact .next (.unmap h)
  · exact .next h

theorem execBlockedUnmap (h : s.Canon) : Out.Canon (execBlockedUnmap k s) := by
  unfold Machine.execBlockedUnmap
  split
  · exact .next (.ite (.post (.unmap h)) h)
  · exact .next h

theorem withRecord {op : Nat} {f : Fin 256 → Nat → List Byte → State} (hf : ∀ {y y1 y2}, (f y y1 y2).Canon) (h : s.Canon) :
    Out.Canon (s.withRecord k op f) := by
  unfold Machine.State.withRecord
  split
  · exact .next h
  · split
    · exact .next (.finishRecord h)
    · exact .ite (.next hf) (.next h)

theorem execLoad (h : s.Canon) : Out.Canon (execLoad k s) := by
  unfold Machine.execLoad
  refine .withRecord (@fun _ _ _ => ?_) h
  extract_lets +onlyGivenNames handle
  split
  · exact h
  · split
    · exact .finishRecord h
    · split
      · exact .block h
      · split
        · exact .bump (.finishRecord h)
        · extract_lets +onlyGivenNames file
          split
          · exact .finishRecord h
          · extract_lets +onlyGivenNames secs
            split
            · exact .finishRecord h
            · split
              · exact .finishRecord h
              · exact .recordLater (.bump (.loadImage h))

theorem execLaunch (h : s.Canon) : Out.Canon (execLaunch k s) := by
  unfold Machine.execLaunch
  refine .withRecord (@fun _ _ _ => ?_) h
  split
  · exact h
  · split
    · exact .ask h
    · split
      · exact .bump (.finishRecord (.settle h))
      · split
        · exact .finishRecord (.settle h)
        · exact .block h
        · exact h

theorem execLaunchAdmission (h : s.Canon) : Out.Canon (execLaunchAdmission s) := by
  unfold Machine.execLaunchAdmission
  split
  · exact .next h
  · refine .next (.foldl (fun h' => ?_) h)
    split
    · exact .admitJob h'
    · split
      · exact .block h'
      · exact h'
    · exact h'

theorem execLaunchStart {lid : Nat} (h : s.Canon) : Out.Canon (execLaunchStart lid s) := by
  unfold Machine.execLaunchStart
  split
  · exact .next h
  · split
    · exact .next h
    · extract_lets +onlyGivenNames s₁ s₂
      have hs₁ : s₁.Canon := .foldl (fun h' => .startTile h') h
      exact .next (.modLaunch hs₁)

theorem execLaunchRetire {lid : Nat} (h : s.Canon) : Out.Canon (execLaunchRetire lid s) := by
  unfold Machine.execLaunchRetire
  split
  · exact .next h
  · exact .ite (.next h) (.ite (.ite (.next h) (.next h)) (.next h.retireLaunch))

theorem execCopyh (h : s.Canon) : Out.Canon (execCopyh k s) := by
  unfold Machine.execCopyh
  refine .withRecord (@fun _ _ _ => ?_) h
  extract_lets +onlyGivenNames n toHost ha
  split
  · exact h
  · split
    · exact .finishRecord h
    · split
      · exact .bump (.finishRecord h)
      · split
        · exact .finishRecord h
        · extract_lets +onlyGivenNames at_ s'
          have hs' : s'.Canon := .ite (.hostWrite h) (.writeHeap h)
          exact .recordLater (.bump hs')

theorem execQueueDisable {q : Fin 256} (h : s.Canon) : Out.Canon (execQueueDisable q s) := by
  unfold Machine.execQueueDisable
  extract_lets +onlyGivenNames u
  split
  · exact .next h
  · extract_lets +onlyGivenNames s₁
    have hs₁ : s₁.Canon := by
      unfold s₁
      split
      · exact .unmap h
      · exact h
    exact .next (.modQueue hs₁)

theorem execBar2Read {addr len : Nat} (h : s.Canon) : Out.Canon (execBar2Read addr len s) := by
  unfold Machine.execBar2Read
  extract_lets +onlyGivenNames n t as
  split
  · exact .next h
  · split
    · exact .next (.holdHost h)
    · extract_lets +onlyGivenNames got s₁
      have hs₁ : s₁.Canon := by
        unfold s₁
        refine .modTile (fun h' => ?_) h
        extract_lets +onlyGivenNames core
        have hcore : core.Canon := .noteReads h'
        exact hcore
      exact .next (.ite (.nextRow hs₁) hs₁)

theorem execBar2Write {addr : Nat} (h : s.Canon) : Out.Canon (execBar2Write addr data s) := by
  unfold Machine.execBar2Write
  extract_lets n t off x ws s₁
  have hs₁ : s₁.Canon := by
    refine .modTile (fun h' => ?_) h
    extract_lets x₁ x₂ x₃
    have h₁ : x₁.Canon := .ite (.count h') h'
    have h₂ : x₂.Canon := .foldl (fun h => .setBuf h) h₁
    have h₃ : x₃.Canon := .writeSpm h₂
    clear_value x₃
    exact .frame h₃
  clear_value s₁
  split
  · exact .next (.post h)
  · exact .ite (.next (.holdHost h)) (.next (.ite (.nextRow hs₁) hs₁))

theorem execAssistReply {req : Word} (h : s.Canon) : Out.Canon (execAssistReply req s) := by
  unfold Machine.execAssistReply
  split
  · exact .next (.ite (.keepReply h) (.replied h))
  · exact .next h

theorem execStagingWrite {off : Nat} (h : s.Canon) : Out.Canon (execStagingWrite off data s) :=
  .next (h.setFw h.fw.stage.stage)

theorem execFirmwareSwitch {nurse : Bool} (h : s.Canon) : Out.Canon (execFirmwareSwitch nurse s) := by
  unfold Machine.execFirmwareSwitch
  dsimp only
  refine .ite (.next h) ?_
  split
  · exact .next (.same h)
  · refine .ite (.next (.same h)) (.next ?_)
    generalize hu : State.dueAdvances _ = u
    have hc : u.Canon := hu ▸ .dueAdvances (.same h)
    exact .same hc

theorem execSecurityVersionRaise {nurse : Bool} (h : s.Canon) : Out.Canon (execSecurityVersionRaise nurse s) :=
  .ite (.next h) (.next h)

theorem execHandoverHeartbeat (h : s.Canon) : Out.Canon (execHandoverHeartbeat s) := by
  unfold Machine.execHandoverHeartbeat
  dsimp only
  split
  · exact .next (.same h)
  · exact .next (.leaveGap (.same h))
  · exact .ite (.next (.same h)) (.next (.same h))

theorem execWatchdogExpiry (h : s.Canon) : Out.Canon (execWatchdogExpiry s) := by
  unfold Machine.execWatchdogExpiry
  split
  · exact .next h
  · dsimp only
    exact .ite (.next h) (.next (.ite (.leaveGap (.post (.bump (.same h)))) (.post (.bump (.same h)))))

theorem execRegisterWrite {link : Fin 4} {off : Nat} (h : s.Canon) : Out.Canon (execRegisterWrite link off data s) := by
  unfold Machine.execRegisterWrite
  extract_lets +onlyGivenNames n
  split
  · exact .next (.writeQueue h)
  · split
    · exact .next (.first h)
    · split
      · exact .next (.writePort h)
      · extract_lets +onlyGivenNames s₁ s₂
        have hs₁ : s₁.Canon := .writeControl h
        have hs₂ : s₂.Canon := .ite hs₁ (.put (fun h' => .ite h' (.first h')) hs₁)
        exact .next (.put (fun h' => .first h') hs₂)

theorem execBoot (h : s.Canon) : Out.Canon (execBoot s) := by
  have hv : State.Canon { s with fw := s.verifyBoot.1 } := h.setFw h.verifyBoot
  unfold Machine.execBoot
  dsimp only
  refine .ite (.next h) (.ite (.next (.same hv)) ?_)
  split
  · exact .next (.same hv)
  · refine .next ?_
    generalize hu : State.chooseEdges _ = u
    have hc : u.Canon := hu ▸ .chooseEdges (.carryAll (.same hv))
    exact .same hc

theorem execPartReset (h : s.Canon) : Out.Canon (execPartReset s) := by
  obtain ⟨heap, host, -, -, fw⟩ := h
  obtain ⟨-, -, tiles, ports, -⟩ := State.Canon.reset
  exact .next ⟨heap, host, tiles, ports, fw⟩

theorem execThermalRelease (h : s.Canon) : Out.Canon (execThermalRelease s) := by
  unfold Machine.execThermalRelease
  split
  · refine .next (.post ?_)
    extract_lets +onlyGivenNames core
    have hcore : core.Canon := .showChanges h
    exact hcore
  · exact .next h

theorem execScoutIllegalEncoding (h : s.Canon) : Out.Canon (execScoutIllegalEncoding p s) :=
  .next (.modPort (fun h' => h') h)

theorem exec {e : Instr} (h : s.Canon) : Out.Canon (exec e s) := by
  cases e
  case nop => unfold Machine.exec; exact .next h
  case br | brp | brs | bru => unfold Machine.exec; exact .checked (fun h' => .branch h') h
  case call => unfold Machine.exec; exact .checked (fun h' => .transfer (.result h')) h
  case ret | eret => unfold Machine.exec; exact .checked (fun h' => .transfer h') h
  case loop | loopReg => unfold Machine.exec; exact .checked (fun h' => .openLoop h') h
  case halt => unfold Machine.exec; exact .execHalt h
  case trap => unfold Machine.exec; exact .next (.raise h)
  case yield => unfold Machine.exec; exact .execYield h
  case waitc | waits | waitt | waitcr | waitrg | waitrgFree | waitb => unfold Machine.exec; exact .waitSlot (fun h' => h') h
  case waitsD => unfold Machine.exec; exact .waitSlot (fun h' => .modCurTile (fun h' => h') h') h
  case waitbTag => unfold Machine.exec; exact .waitSlot (fun h' => .modCur h') h
  case waitph => unfold Machine.exec; exact .execWaitph h
  case phase | blk => unfold Machine.exec; exact .next (.modCurTile (fun h' => h') h)
  case fence => unfold Machine.exec; exact .waitSlot (fun h' => .ite (.lower (.modCur h')) h') h
  case csrr => unfold Machine.exec; exact .next (.result (.capture h))
  case csrw | csrset | csrclr => unfold Machine.exec; exact .next (.csrWrite h)
  case mxownRelease | tlbInvalidation | timelineDelivery => unfold Machine.exec; exact .next (.modTile (fun h' => h') h)
  case pref | pin => unfold Machine.exec; exact .fetchRun h
  case unpin => unfold Machine.exec; exact .next (.modCurTile (fun h' => .foldl (fun h' => .unpinLine h') h') h)
  case add | sub | and | or | xor | andn | shl | shr | sra | min | max | minu | maxu | mov | clz | popc | mul | mulh | mulhu | sel | cmp | cmpi |
    plog | addi | andi | ori | xori | shli | shri | srai | movi | movhi | aadd | aaddi | amov | amovFromPair | amovToScalar | amovHi | acmb |
    vmsk => unfold Machine.exec; exact .next (.result h)
  case ldq => unfold Machine.exec; exact .execLdq h
  case vadd | vsub | vmul | vfma | vmin | vmax | vabs | vneg | vand | vor | vxor | vshl | vshr | vsra | vshlImm | vshrImm | vsraImm | vsel | vcvt |
    vperm | vmov | vext | vins | vbcast | vmovi | vexp2 | vlog2 | vrcp | vrsqrt => unfold Machine.exec; exact .next (.vecResult h)
  case vcmp => unfold Machine.exec; exact .next (.raiseFlags (.result h))
  case vred => unfold Machine.exec; exact .ite (.next h) (.next (.vecResult h))
  case vmpush => unfold Machine.exec; exact .execVmpush h
  case vminv | vmpop => unfold Machine.exec; exact .ite (.next h) (.next (.result h))
  case ldb | ldbu | ldh | ldhu | ldw | ldv | ldvs | ldvx | ldm => unfold Machine.exec; exact .loadSlot h
  case ldacc => unfold Machine.exec; exact .execLdacc h
  case stb | sth | stw | stv | stvm | stvs | stvx => unfold Machine.exec; exact .storeSlot h
  case stacc => unfold Machine.exec; exact .execStacc h
  case amo | cas => unfold Machine.exec; exact .atomicSlot h
  case prec | pmaskRow | pmaskCol | wswap | wld | mma | aclr | ascl | adrn => unfold Machine.exec; exact .mxSlot h
  case cpy | cpyg | cpyx | cpyo => unfold Machine.exec; exact .copyForm h
  case bdcl | brel | reqpg => unfold Machine.exec; exact .copySlot h
  case publish => unfold Machine.exec; exact .execPublish h
  case send | sendr | recv | coll | rgadv | rgpop | sig | tlsig | vwjoin | vwleave => unfold Machine.exec; exact .chanSlot h
  case guardResolution => unfold Machine.exec; exact .next (.modTile (fun h' => .resolveGuards h') h)
  case arbiterChoice => unfold Machine.exec; exact .execArbiterChoice h
  case rankAgeing | preemptionRequest => unfold Machine.exec; exact .next (.modCtx h)
  case instructionCacheFill => unfold Machine.exec; exact .execInstructionCacheFill h
  case codeRegionFill => unfold Machine.exec; exact .execCodeRegionFill h
  case copyQueueStart => unfold Machine.exec; exact .execCopyQueueStart h
  case pageWalk => unfold Machine.exec; exact .execPageWalk h
  case copyRetire => unfold Machine.exec; exact .execCopyRetire h
  case heapWriteAcknowledgement => unfold Machine.exec; exact .execHeapWriteAcknowledgement h
  case eccWriteback => unfold Machine.exec; exact .execEccWriteback h
  case scrub => unfold Machine.exec; exact .execScrub h
  case mxuCommandHead => unfold Machine.exec; exact .execMxuCommandHead h
  case mxuStart => unfold Machine.exec; exact .execMxuStart h
  case adrnStart => unfold Machine.exec; exact .execAdrnStart h
  case mxuRetire => unfold Machine.exec; exact .execMxuRetire h
  case phaseFlagSet => unfold Machine.exec; exact .next (.ite (.modCtx h) h)
  case channelQueueStart => unfold Machine.exec; exact .execChannelQueueStart h
  case messageTransmitted => unfold Machine.exec; exact .execMessageTransmitted h
  case headerForward => unfold Machine.exec; exact .execHeaderForward h
  case sendArrival | sendrArrival => unfold Machine.exec; exact .messageFlit h
  case sigArrival => unfold Machine.exec; exact .execSigArrival h
  case portSigArrival => unfold Machine.exec; exact .execPortSigArrival h
  case creditReturn => unfold Machine.exec; exact .execCreditReturn h
  case writeData => unfold Machine.exec; exact .execWriteData h
  case readRequest => unfold Machine.exec; exact .execReadRequest h
  case readData => unfold Machine.exec; exact .execReadData h
  case writeAcknowledgement => unfold Machine.exec; exact .execWriteAcknowledgement h
  case chunkArrival => unfold Machine.exec; exact .execChunkArrival h
  case collectiveComplete => unfold Machine.exec; exact .execCollectiveComplete h
  case timelineAdvance => unfold Machine.exec; exact .next (.dueAdvances h)
  case heartbeat | packetAcknowledgement | linkLoss | portReset => unfold Machine.exec; exact .next (.modPort (fun h' => h') h)
  case heartbeatFrame => unfold Machine.exec; exact .next (.modPort (fun h' => .meetPeers h') h)
  case suspicion => unfold Machine.exec; exact .execSuspicion h
  case waggleRound => unfold Machine.exec; exact .execWaggleRound h
  case propose => unfold Machine.exec; exact .execPropose h
  case ack => unfold Machine.exec; exact .execAck h
  case commit => unfold Machine.exec; exact .execCommit h
  case join => unfold Machine.exec; exact .execJoin h
  case packetArrival => unfold Machine.exec; exact .execPacketArrival h
  case retransmission => unfold Machine.exec; exact .next (.modPort (fun h' => .resend h') h)
  case remoteAtomic => unfold Machine.exec; exact .execRemoteAtomic h
  case remoteAtomicTimeout => unfold Machine.exec; exact .execRemoteAtomicTimeout h
  case shalt => unfold Machine.exec; exact .next (.scoutHalt h)
  case smov | sadd | saddi | splaneStatus => unfold Machine.exec; exact .next (.scoutSet h)
  case sbr => unfold Machine.exec; exact .next (.ite (.scoutGo h) (.scoutNext h))
  case sjmp => unfold Machine.exec; exact .next (.scoutGo h)
  case swaitsem => unfold Machine.exec; exact .ite (.next (.scoutNext (.modPort (fun h' => h') h))) (.next (.scoutWait h))
  case ssigsem =>
    unfold Machine.exec; exact .ite (.ite (.next (.scoutWait h)) (.next (.scoutNext (.sendPortSig h)))) (.next (.scoutNext (.modPort (fun h' => h') h)))
  case sxmitData =>
    unfold Machine.exec; exact .ite (.next (.scoutSet h)) (.ite (.next (.scoutWait h)) (.next (.moving (fun h' => .scoutSet (.modPort (fun h' => .enqueue h') (.sramRead h'))) h)))
  case sxmitAtomic => unfold Machine.exec; exact .execSxmitAtomic h
  case srecvWait => unfold Machine.exec; exact .execSrecvWait h
  case srecvPoll => unfold Machine.exec; exact .execSrecvPoll h
  case sreduce => unfold Machine.exec; exact .execSreduce h
  case sfwdIn => unfold Machine.exec; exact .execSfwdIn h
  case sfwdOut => unfold Machine.exec; exact .execSfwdOut h
  case splaneDrain => unfold Machine.exec; exact .execSplaneDrain h
  case splaneRestore => unfold Machine.exec; exact .execSplaneRestore h
  case sviewRead => unfold Machine.exec; exact .onView (.scoutSet h) h
  case sviewWait => unfold Machine.exec; exact .onView (.ite (.scoutWait h) (.scoutSet h)) h
  case sviewJoin => unfold Machine.exec; exact .execSviewJoin h
  case sviewLeave => unfold Machine.exec; exact .execSviewLeave h
  case faultDelivery => unfold Machine.exec; exact .execFaultDelivery h
  case faultRecord => unfold Machine.exec; exact .execFaultRecord h
  case preemption => unfold Machine.exec; exact .ite (.next h) (.ite (.next (.bump (.modCtx h))) (.next (.bump (.beginDrain h))))
  case contextSave => unfold Machine.exec; exact .execContextSave h
  case preemptionFreeze => unfold Machine.exec; exact .execPreemptionFreeze h
  case contextRestore => unfold Machine.exec; exact .execContextRestore h
  case migrationStart => unfold Machine.exec; exact .ite (.next h) (.next (.ite (.ask h) (.beginMigration h)))
  case migrationFreeze => unfold Machine.exec; exact .next (.ite h (.freezeActive h))
  case migrationMove => unfold Machine.exec; exact .execMigrationMove h
  case migrationApprovalTimeout => unfold Machine.exec; exact .ite (.next (.beginMigration (.post (.settle h)))) (.next h)
  case tileLost => unfold Machine.exec; exact .execTileLost h
  case tileMapBroadcast => unfold Machine.exec; exact .next (.foldl (fun h' => .modTile (fun h' => h') h') h)
  case tileMapCacheFill => unfold Machine.exec; exact .execTileMapCacheFill h
  case pageService =>
    unfold Machine.exec; exact .ite (.next h) (.ite (.next h) (.ite (.next (.ask h)) (.ite (.next (.servePage (.bump h))) (.next (.pageRefused (.bump h))))))
  case pageMigration => unfold Machine.exec; exact .execPageMigration h
  case pageMigrationCopy => unfold Machine.exec; exact .execPageMigrationCopy h
  case doorbell => unfold Machine.exec; exact .execDoorbell h
  case slotMap => unfold Machine.exec; exact .execSlotMap h
  case idleUnmap => unfold Machine.exec; exact .execIdleUnmap h
  case blockedUnmap => unfold Machine.exec; exact .execBlockedUnmap h
  case blockedReevaluation => unfold Machine.exec; exact .next (.foldl (fun h' => .ite (.pendQueue h') h') h)
  case load => unfold Machine.exec; exact .execLoad h
  case launch => unfold Machine.exec; exact .execLaunch h
  case launchAdmission => unfold Machine.exec; exact .execLaunchAdmission h
  case launchStart => unfold Machine.exec; exact .execLaunchStart h
  case launchRetire => unfold Machine.exec; exact .execLaunchRetire h
  case completionTimelineAdvance => unfold Machine.exec; exact .next (.applyAdvances h)
  case wait | fenceRecord => unfold Machine.exec; exact .withRecord (.ite (.finishRecord h) (.block h)) h
  case signal => unfold Machine.exec; exact .withRecord (.ite (.block h) (.bump (.recordLater h))) h
  case copyh => unfold Machine.exec; exact .execCopyh h
  case queueEnable => unfold Machine.exec; exact .ite (.next h) (.next (.modQueue h))
  case queueDisable => unfold Machine.exec; exact .execQueueDisable h
  case bar2Read => unfold Machine.exec; exact .execBar2Read h
  case bar2Write => unfold Machine.exec; exact .execBar2Write h
  case assistReply => unfold Machine.exec; exact .execAssistReply h
  case assistTimeout => unfold Machine.exec; exact .next (.foldl (fun h' => .replied h') h)
  case stagingWrite => unfold Machine.exec; exact .execStagingWrite h
  case firmwareSwitch => unfold Machine.exec; exact .execFirmwareSwitch h
  case securityVersionRaise => unfold Machine.exec; exact .execSecurityVersionRaise h
  case handoverHeartbeat => unfold Machine.exec; exact .execHandoverHeartbeat h
  case watchdogExpiry => unfold Machine.exec; exact .execWatchdogExpiry h
  case registerWrite => unfold Machine.exec; exact .execRegisterWrite h
  case boot => unfold Machine.exec; exact .execBoot h
  case partReset => unfold Machine.exec; exact .execPartReset h
  case throttleEvaluation => unfold Machine.exec; exact .next (.bump h)
  case thermalHold => unfold Machine.exec; exact .ite (.next h) (.next (.post h))
  case thermalRelease => unfold Machine.exec; exact .execThermalRelease h
  case scoutIllegalEncoding => unfold Machine.exec; exact .execScoutIllegalEncoding h

theorem andThen {o : Out} {k : State → Out} (hk : ∀ {s}, s.Canon → (k s).Canon) (ho : o.Canon) : Out.Canon (andThen o k) := by
  obtain ⟨s, rfl, h⟩ := ho
  exact hk h

theorem runSlot {k : Nat} (h : s.Canon) : Out.Canon (runSlot ws k s) := by
  unfold Machine.runSlot
  extract_lets w
  split
  · exact .next h
  · extract_lets taken
    split
    · split
      · exact .exec h
      · exact .next h
    · split
      · exact .ite (.next h) (.exec h)
      · exact .next (.ite (.modTile (fun h' => .count h') h) h)

theorem runSlots {ks : List Nat} (h : s.Canon) : Out.Canon (runSlots ws ks s) := by
  induction ks generalizing s with
  | nil => exact .next h
  | cons k ks ih => exact .andThen ih (.runSlot h)

theorem waitFails {i : Instr} (h : s.Canon) : Out.Canon (waitFails i t c s) := by
  refine .andThen (fun {u} hu => ?_) (.exec h)
  extract_lets again u₁ u₂
  have h₁ : u₁.Canon := .modTile (fun h' => h') hu
  have h₂ : u₂.Canon := .ite h₁ h₁
  exact .next (.waitAttempt h₂)

theorem issueBundle {i : Instr} (h : s.Canon) : Out.Canon (issueBundle ws i s) := by
  have h₀ : (s.modCurTile fun t => { t with hold := none }).Canon := .modTile (fun h' => h') h
  refine .andThen (fun {u} hu => ?_) (.ite (.exec h₀) (.next h₀))
  refine .andThen (fun {u} hu => ?_) (.runSlots hu)
  refine .andThen (fun {u} hu => ?_) (.ite (.next (State.Canon.advance hu)) (.exec (State.Canon.advance hu)))
  have hr : (u.checkRun i).Canon := .checkRun hu
  refine .next (.ite hr ?_)
  split
  · exact .checkLanding hr
  · exact .ite (.checkLoop hr) hr

theorem attemptBundle (h : s.Canon) : Out.Canon (attemptBundle ws t c s) := by
  unfold Machine.attemptBundle
  split
  · exact .next h
  · extract_lets x held banks
    refine .ite (.next (.keepWidth h)) ?_
    split
    · exact .next (.waitAttempt (.attemptFault h))
    · have hw : ((s.first (.ev (.faultDelivery t c))).waitAttempt t c ‹Instr›).Canon := State.Canon.waitAttempt h
      refine .ite (.next (.keepWidth (.modTile (fun h' => h') hw))) (.ite (.waitFails h) ?_)
      refine .ite (.next (.keepWidth (.modTile (fun h' => h') h))) ?_
      split
      · exact .next (.keepWidth (.startWalk h))
      · exact .andThen (fun hu => .next (.afterAttempt (.endWalks hu))) (.issueBundle h)

theorem attempt (h : s.Canon) : Out.Canon (attempt t c s) := by
  unfold Machine.attempt
  extract_lets s₁ x delay cur₀ cur s₂ s₃ x'
  have h₁ : s₁.Canon := .modCtx h
  have h₃ : s₃.Canon := State.Canon.modCtx (s := s₂) h₁
  split
  · exact .next (.afterAttempt (.raise h₃))
  · refine .ite (.next (.first (State.Canon.modTile (fun h' => .frame h') h₃))) ?_
    split
    · exact .next (.attemptFault h₃)
    · exact .next (.fetchMiss h₃)
    · exact .next (.fetchWalk h₃)
    · extract_lets ws safe live
      clear_value live
      split
      · exact .next (.fetchMiss h₃)
      · exact .next (.fetchWalk h₃)
      · split
        extract_lets s₄ s₅
        have h₅ : s₅.Canon := State.Canon.modTile (fun h' => .fetched h') h₃
        split
        · exact .next (.attemptFault h₅)
        · exact .andThen (fun hu => .next (.ite (.modCtx hu) hu)) (.attemptBundle (.modCtx h₅))

theorem issueTile (h : s.Canon) : Out.Canon (issueTile t s) := by
  have hn : (s.noteReady t).Canon := .noteReady h
  have choose {k : Nat} {p : Prop} [Decidable p] {o : Out} (ho : o.Canon) :
      Out.Canon (if p then Machine.execArbiterChoice t ((s.noteReady t).modTile t fun x => { x with arb := .choose k }) else o) :=
    .ite (.execArbiterChoice (.modTile (fun h' => h') hn)) ho
  refine .andThen (fun {u} hu => ?_) (.ite (.next hn) ?_)
  · refine .andThen (fun {u} hu => .next (.ite (.modTile (fun h' => .event h') hu) hu)) (.ite (.next hu) ?_)
    split
    · exact .ite (.attempt hu) (.next hu)
    · exact .attempt hu
    · exact .next hu
  · split
    · exact .ite (.execArbiterChoice hn) (.next hn)
    · exact .ite (.execArbiterChoice hn) (.next hn)
    · exact choose (.next hn)
    · exact choose (.next hn)

theorem scoutStep (h : s.Canon) : Out.Canon (scoutStep s) := by
  have hw : s.scoutWord.2.Canon := .sramRead h
  unfold Machine.scoutStep
  refine .ite (.next h) ?_
  extract_lets f
  split <;> exact .exec hw

theorem runMove {m : Move} (h : s.Canon) : Out.Canon (runMove m s) := by
  unfold Machine.runMove
  split
  · exact .exec h
  · exact .next h
  · exact .issueTile h
  · exact .ite (.exec h) (.next (.lookAhead h))
  · exact .next (.migrateEarly h)
  · exact .next (.arrayTick (.noteFrozen h))
  · exact .next (.modTile (fun h' => .drainPort (.perform h')) h)
  · extract_lets +onlyGivenNames s₁
    have hs₁ : s₁.Canon := .modTile (fun h' => .sequence h') h
    exact .next hs₁
  · exact .next h
  · extract_lets +onlyGivenNames s₁ s₂
    have hs₁ : s₁.Canon := .slipPromises (.modTile (fun h' => .startOwns h') h)
    have hs₂ : s₂.Canon := .servePort (.ite hs₁ (.restorePort hs₁))
    exact .next (.ite hs₂ (.hiveServe hs₂))
  · exact .next (.settleEngines h)
  · extract_lets +onlyGivenNames s₁
    have hs₁ : s₁.Canon := .holdComb (.modTile (fun h' => .receive h') h)
    exact .next hs₁
  · exact .next (.transmit h)
  · exact .scoutStep (.portTick h)
  · exact .next (.frontTick h)

theorem runStimulus {i : Stimulus} (h : s.Canon) : Out.Canon (runStimulus i s) := by
  refine .ite (.next h) ?_
  split
  · exact .next (.holdHost h)
  · exact .next (.holdHost h)
  · exact .ite (.next h) (.ite (.next h) (.exec h))
  · exact .next (.leaveRequest h)
  · exact .next (.resultArrival h)
  · exact .next (.modTile (fun h' => h') h)
  · exact .next h
  · exact .next (.modPort (fun h' => h') h)
  · exact .next (State.Canon.modTile (fun h' => .lineParity h') h)
  · exact .next (.modTile (fun h' => .flitError h') h)
  · exact .next h
  · exact .next (.hostWrite h)

theorem step (h : s.Canon) : Out.Canon (step s) := by
  unfold Machine.step
  split
  · exact .runStimulus h
  · split
    · exact .runMove h
    · exact .next (.ite h (.beginTick h))

end Out.Canon

end

/-- Settles O57: every operation keeps the canonical form of the memories, so every instruction, stimulus and move does, and a step. -/
theorem memoriesStayCanonical : Obligations.MemoriesStayCanonical := by
  unfold Obligations.MemoriesStayCanonical
  intro s t hs ht
  obtain ⟨t', ht', hc⟩ := Out.Canon.step (s.memOk_iff_canon.1 hs)
  obtain rfl : t' = t := Host.Outcome.next.inj (ht'.symm.trans ht)
  exact t'.memOk_iff_canon.2 hc

end Sys2Proof.Machine

/-! ### The buffer check of an access (O19) -/

namespace Sys2Proof.Machine

-- one theorem at a time: many elaborations at once need more stacks than the memory limit holds
set_option Elab.async false

/-- A search over the numbers below `n` finds the least that satisfies the predicate. -/
theorem find?_finRange_eq_some {n : Nat} {p : Fin n → Bool} {b : Fin n} :
    (List.finRange n).find? p = some b ↔ p b = true ∧ ∀ c, c < b → p c = false := by
  simp only [List.find?_eq_some_iff_getElem, List.getElem_finRange, List.length_finRange, Bool.not_eq_true']
  constructor
  · rintro ⟨hb, i, hi, rfl, hlt⟩
    exact ⟨hb, fun c hc => hlt c.val hc⟩
  · rintro ⟨hb, hlt⟩
    exact ⟨hb, b.val, b.isLt, rfl, fun j hj => hlt ⟨j, by omega⟩ hj⟩

theorem find?_finRange_eq_none {n : Nat} {p : Fin n → Bool} : (List.finRange n).find? p = none ↔ ∀ b, p b = false := by
  simp [List.find?_eq_none]

namespace Tile

variable {t : Tile} {slot a : Nat} {wr : Bool} {b : Fin 32}

theorem declared_clean (hu : t.upsets = []) (b : Fin 32) : t.declared b = t.bufs[b].v := by
  simp [declared, badTable, upsetWords_clean t _ _ _ hu]

/-- The shadow window of a declared buffer holds the address. -/
def InShadow (t : Tile) (a : Nat) (b : Fin 32) : Prop := t.bufs[b].v = true ∧ inSpan a (t.bufs[b].b + t.bufs[b].s) t.bufs[b].s = true

/-- The front window of a declared buffer holds the address. -/
def InFront (t : Tile) (a : Nat) (b : Fin 32) : Prop := t.bufs[b].v = true ∧ inSpan a t.bufs[b].b t.bufs[b].s = true

theorem shadowBuf_eq_some (hu : t.upsets = []) : t.shadowBuf a = some b ↔ t.InShadow a b ∧ ∀ c, c < b → ¬ t.InShadow a c := by
  simp only [shadowBuf, find?_finRange_eq_some, declared_clean hu, InShadow, ← Bool.and_eq_true, Bool.not_eq_true]

theorem shadowBuf_eq_none (hu : t.upsets = []) : t.shadowBuf a = none ↔ ∀ b, ¬ t.InShadow a b := by
  simp only [shadowBuf, find?_finRange_eq_none, declared_clean hu, InShadow, ← Bool.and_eq_true, Bool.not_eq_true]

theorem frontBuf_eq_some (hu : t.upsets = []) : t.frontBuf a = some b ↔ t.InFront a b ∧ ∀ c, c < b → ¬ t.InFront a c := by
  simp only [frontBuf, find?_finRange_eq_some, declared_clean hu, InFront, ← Bool.and_eq_true, Bool.not_eq_true]

theorem frontBuf_eq_none (hu : t.upsets = []) : t.frontBuf a = none ↔ ∀ b, ¬ t.InFront a b := by
  simp only [frontBuf, find?_finRange_eq_none, declared_clean hu, InFront, ← Bool.and_eq_true, Bool.not_eq_true]

theorem inShadow_of_shadowBuf (h : t.shadowBuf a = some b) : t.InShadow a b := by
  obtain ⟨hb, -⟩ := find?_finRange_eq_some.1 h
  simp only [declared, Bool.and_eq_true] at hb
  obtain ⟨⟨hv, -⟩, hs⟩ := hb
  exact ⟨hv, hs⟩

theorem inFront_of_frontBuf (h : t.frontBuf a = some b) : t.InFront a b := by
  obtain ⟨hb, -⟩ := find?_finRange_eq_some.1 h
  simp only [declared, Bool.and_eq_true] at hb
  obtain ⟨⟨hv, -⟩, hs⟩ := hb
  exact ⟨hv, hs⟩

/-! The check of one byte, by the window that holds it. -/

theorem slotByte_shadow (h : t.shadowBuf a = some b) :
    t.slotByte slot wr a = .error ⟨5, slot, 0, fiBuffer b.val t.bufs[b].state true a⟩ := by
  rw [slotByte, h]
  rfl

theorem slotByte_draining (hs : t.shadowBuf a = none) (h : t.frontBuf a = some b) (hd : t.bufs[b].state = .draining) :
    t.slotByte slot true a = .error ⟨5, slot, 0, fiBuffer b.val .draining false a⟩ := by
  simp only [slotByte, hs, h, hd]
  rfl

theorem slotByte_front (hs : t.shadowBuf a = none) (h : t.frontBuf a = some b) (hd : wr = false ∨ t.bufs[b].state ≠ .draining) :
    t.slotByte slot wr a = .ok ⟨a, a + t.bufs[b].s, some b⟩ := by
  have hn : ¬ (wr && t.bufs[b].state == .draining) = true := by
    rcases hd with rfl | hd <;> simp_all
  simp only [slotByte, hs, h, if_neg hn]

theorem slotByte_plain (hs : t.shadowBuf a = none) (h : t.frontBuf a = none) : t.slotByte slot wr a = .ok ⟨a, a, none⟩ := by
  simp only [slotByte, hs, h]

/-- What a failing byte says: it lies in a shadow window, or a write of it in the front window of a draining buffer. -/
theorem slotByte_error {f : Cause} (h : t.slotByte slot wr a = .error f) : ∃ b : Fin 32, t.bufs[b].v = true ∧ f.code = 5 ∧ f.slot = slot ∧
    ((inSpan a (t.bufs[b].b + t.bufs[b].s) t.bufs[b].s = true ∧ f.finfo = fiBuffer b.val t.bufs[b].state true a) ∨
      (wr = true ∧ t.bufs[b].state = .draining ∧ inSpan a t.bufs[b].b t.bufs[b].s = true ∧ f.finfo = fiBuffer b.val .draining false a)) := by
  cases hs : t.shadowBuf a with
  | some b =>
    obtain ⟨hv, hb⟩ := inShadow_of_shadowBuf hs
    rw [slotByte_shadow hs] at h
    cases h
    exact ⟨b, hv, rfl, rfl, .inl ⟨hb, rfl⟩⟩
  | none =>
    cases hf : t.frontBuf a with
    | none => rw [slotByte_plain hs hf] at h; cases h
    | some b =>
      obtain ⟨hv, hb⟩ := inFront_of_frontBuf hf
      by_cases hd : wr = false ∨ t.bufs[b].state ≠ .draining
      · rw [slotByte_front hs hf hd] at h; cases h
      · obtain ⟨hw, hn⟩ := not_or.1 hd
        have hst := not_not.1 hn
        obtain rfl : wr = true := by simpa using hw
        rw [slotByte_draining hs hf hst] at h
        cases h
        exact ⟨b, hv, rfl, rfl, .inr ⟨rfl, hst, hb, rfl⟩⟩

/-! The check of an access, by the check of its bytes. -/

theorem slotBytes_singleton (t : Tile) (slot : Nat) (wr : Bool) (a : Nat) :
    t.slotBytes slot wr [a] = match t.slotByte slot wr a with
      | .error f => .error f
      | .ok e => .ok [e] := by
  cases h : t.slotByte slot wr a <;> simp only [slotBytes, h]

theorem slotBytes_singleton_error {f : Cause} : t.slotBytes slot wr [a] = .error f ↔ t.slotByte slot wr a = .error f := by
  rw [slotBytes_singleton]
  cases t.slotByte slot wr a <;> simp

theorem slotBytes_singleton_ok {bs : List SlotByte} : t.slotBytes slot wr [a] = .ok bs ↔ ∃ e, t.slotByte slot wr a = .ok e ∧ bs = [e] := by
  rw [slotBytes_singleton]
  cases t.slotByte slot wr a <;> simp [eq_comm]

theorem slotBytes_ok {as : List Nat} {bs : List SlotByte} :
    t.slotBytes slot wr as = .ok bs ↔ as.map (fun a => t.slotBytes slot wr [a]) = bs.map fun e => .ok [e] := by
  induction as generalizing bs with
  | nil => cases bs <;> simp [slotBytes]
  | cons a as ih =>
    rw [List.map_cons, slotBytes_singleton, slotBytes]
    cases t.slotByte slot wr a with
    | error f => cases bs <;> simp
    | ok e =>
      cases bs with
      | nil => cases t.slotBytes slot wr as <;> simp
      | cons e' bs =>
        rw [List.map_cons, List.cons.injEq, ← ih]
        cases t.slotBytes slot wr as <;> simp

theorem slotBytes_error {as : List Nat} {f : Cause} : t.slotBytes slot wr as = .error f ↔
    ∃ l a r, as = l ++ a :: r ∧ t.slotBytes slot wr [a] = .error f ∧ ∀ x ∈ l, ∃ e, t.slotBytes slot wr [x] = .ok [e] := by
  induction as with
  | nil => simp [slotBytes]
  | cons a as ih =>
    cases hb : t.slotByte slot wr a with
    | error g =>
      have hs : t.slotBytes slot wr (a :: as) = .error g := by rw [slotBytes, hb]
      rw [hs]
      constructor
      · rintro ⟨⟩
        exact ⟨[], a, as, rfl, slotBytes_singleton_error.2 hb, by simp⟩
      · rintro ⟨_ | ⟨y, l⟩, x, r, he, hx, hl⟩
        · obtain ⟨rfl, rfl⟩ := List.cons.inj he
          obtain rfl : g = f := Except.error.inj (hb.symm.trans (slotBytes_singleton_error.1 hx))
          rfl
        · obtain ⟨rfl, rfl⟩ := List.cons.inj he
          obtain ⟨e, hl⟩ := hl a (by simp)
          obtain ⟨e', he', -⟩ := slotBytes_singleton_ok.1 hl
          cases hb.symm.trans he'
    | ok e =>
      have hs : t.slotBytes slot wr (a :: as) = .error f ↔ t.slotBytes slot wr as = .error f := by
        rw [slotBytes, hb]
        cases t.slotBytes slot wr as <;> simp
      rw [hs, ih]
      constructor
      · rintro ⟨l, x, r, rfl, hx, hl⟩
        refine ⟨a :: l, x, r, rfl, hx, fun y hy => ?_⟩
        rcases List.mem_cons.1 hy with rfl | hy
        · exact ⟨e, slotBytes_singleton_ok.2 ⟨e, hb, rfl⟩⟩
        · exact hl y hy
      · rintro ⟨_ | ⟨y, l⟩, x, r, he, hx, hl⟩
        · obtain ⟨rfl, rfl⟩ := List.cons.inj he
          cases hb.symm.trans (slotBytes_singleton_error.1 hx)
        · obtain ⟨rfl, rfl⟩ := List.cons.inj he
          exact ⟨l, x, r, rfl, hx, fun z hz => hl z (List.mem_cons_of_mem _ hz)⟩

/-- One byte that fails makes the access fail. -/
theorem slotBytes_fails {as : List Nat} {f : Cause} (ha : a ∈ as) (h : t.slotByte slot wr a = .error f) : ∃ g, t.slotBytes slot wr as = .error g := by
  cases hr : t.slotBytes slot wr as with
  | error g => exact ⟨g, rfl⟩
  | ok bs =>
    have hm : t.slotBytes slot wr [a] ∈ bs.map fun e => Except.ok [e] := slotBytes_ok.1 hr ▸ List.mem_map_of_mem ha
    obtain ⟨e, -, he⟩ := List.mem_map.1 hm
    cases he.trans (slotBytes_singleton_error.2 h)

end Tile

theorem causeOf_eq_some {α : Type} {r : Except Cause α} {f : Cause} : causeOf r = some f ↔ r = .error f := by
  cases r <;> simp [causeOf]

/-! ### An access that fails its check -/

section

variable {s : State} {f : Cause}

/-- The acting context takes the fault as the instruction issues. -/
def State.faultNow (s : State) (f : Cause) : State := s.issueFault s.cur.tile s.cur.ctx f

theorem loadSlot_error {as : List Nat} {lat : Nat} {k : ReadKind} (h : causeOf (s.curTile.slotBytes 3 false as) = some f) :
    loadSlot as lat k s = .next (s.faultNow f) := by
  rw [loadSlot, causeOf_eq_some.1 h]
  rfl

theorem storeSlot_error {data : List (Nat × Byte)} (h : causeOf (s.curTile.slotBytes 4 true (data.map Prod.fst)) = some f) :
    storeSlot data s = .next (s.faultNow f) := by
  rw [storeSlot, causeOf_eq_some.1 h]
  rfl

theorem scalarStore_error {n : Nat} {base : Fin 32} {off : BitVec 11} {v : Nat}
    (h : causeOf (s.curTile.slotBytes 4 true (scalarBytes n base off s)) = some f) :
    storeSlot ((scalarBytes n base off s).zip (leBytes n v)) s = .next (s.faultNow f) :=
  storeSlot_error (by rw [List.map_fst_zip (by simp [scalarBytes])]; exact h)

theorem atomicSlot_error {base : Fin 32} {k : ReadKind} (h : causeOf (s.curTile.slotBytes 4 true (amoBytes base s)) = some f) :
    atomicSlot base k s = .next (s.faultNow f) := by
  rw [atomicSlot, causeOf_eq_some.1 h]
  rfl

theorem execStacc_error {row : Fin 64} {base : Fin 32} {off : BitVec 10}
    (h : causeOf (s.curTile.slotBytes 4 false (accBytes base off s)) = some f) : execStacc row base off s = .next (s.faultNow f) := by
  unfold execStacc
  generalize s.curTile.slotBytes 4 false (accBytes base off s) = r at h ⊢
  obtain rfl := causeOf_eq_some.1 h
  rfl

theorem execLdacc_error {row : Fin 64} {base : Fin 32} {off : BitVec 10}
    (h : causeOf (s.curTile.slotBytes 3 true (accBytes base off s)) = some f) : execLdacc row base off s = .next (s.faultNow f) := by
  unfold execLdacc
  generalize s.curTile.slotBytes 3 true (accBytes base off s) = r at h ⊢
  obtain rfl := causeOf_eq_some.1 h
  rfl

end

/-- Every instruction of the LD and ST slots raises the fault of its bytes and does no more. -/
theorem exec_of_memCause (s : State) (i : Instr) (f : Cause) (hi : i.home = .ld ∨ i.home = .st) (h : memCause i s = some f) :
    exec i s = .next (s.issueFault s.cur.tile s.cur.ctx f) := by
  cases i
  case ldb | ldbu | ldh | ldhu | ldw | ldm | ldv | ldvs | ldvx => exact loadSlot_error h
  case ldacc row base off => unfold exec; exact execLdacc_error h
  case stb r base off => exact scalarStore_error (n := 1) h
  case sth r base off => exact scalarStore_error (n := 2) h
  case stw r base off => exact scalarStore_error (n := 4) h
  case stv | stvm | stvs | stvx => exact storeSlot_error h
  case stacc row base off => unfold exec; exact execStacc_error h
  case amo | cas => exact atomicSlot_error h
  all_goals rcases hi with hi | hi <;> cases hi

/-- Settles O19: one byte by the window that holds it, an access by its bytes, an instruction by the check of its access. -/
theorem bufferWindowFaults : Obligations.BufferWindowFaults := by
  unfold Obligations.BufferWindowFaults
  refine ⟨?byte, fun t slot wr as => ⟨fun bs => Tile.slotBytes_ok, fun f => Tile.slotBytes_error⟩, ?fails, ?names, ?word, exec_of_memCause⟩
  case byte =>
    intro t slot wr a hu base size front shadow
    have hsh (b : Fin 32) : shadow b ↔ t.InShadow a b := by
      simp only [shadow, base, size, Tile.InShadow, inSpan_iff, Buffer.b, Buffer.s, Nat.two_mul, Nat.add_assoc]
    have hfr (b : Fin 32) : front b ↔ t.InFront a b := by
      simp only [front, base, size, Tile.InFront, inSpan_iff, Buffer.b, Buffer.s]
    simp only [hsh, hfr]
    refine ⟨fun b hb hlt => Tile.slotBytes_singleton_error.2 (Tile.slotByte_shadow ((Tile.shadowBuf_eq_some hu).2 ⟨hb, hlt⟩)), fun hno => ?_⟩
    have hs := (Tile.shadowBuf_eq_none hu).2 hno
    refine ⟨fun b hb hlt => ?_, fun hnf => ?_⟩
    · have hf := (Tile.frontBuf_eq_some hu).2 ⟨hb, hlt⟩
      refine ⟨fun hw hd => ?_, fun hd => ⟨_, Tile.slotBytes_singleton_ok.2 ⟨_, Tile.slotByte_front hs hf hd, rfl⟩, fun u => rfl⟩⟩
      subst hw
      exact Tile.slotBytes_singleton_error.2 (Tile.slotByte_draining hs hf hd)
    · exact ⟨_, Tile.slotBytes_singleton_ok.2 ⟨_, Tile.slotByte_plain hs ((Tile.frontBuf_eq_none hu).2 hnf), rfl⟩, fun u => rfl⟩
  case fails =>
    intro t slot wr as a b hu ha hv h
    rcases h with hsh | ⟨rfl, hd, hfr, hlt⟩
    · cases hs : t.shadowBuf a with
      | some c => exact Tile.slotBytes_fails ha (Tile.slotByte_shadow hs)
      | none => exact absurd ⟨hv, hsh⟩ ((Tile.shadowBuf_eq_none hu).1 hs b)
    · cases hs : t.shadowBuf a with
      | some c => exact Tile.slotBytes_fails ha (Tile.slotByte_shadow hs)
      | none =>
        have hf := (Tile.frontBuf_eq_some hu).2 ⟨⟨hv, hfr⟩, fun c hc ⟨hcv, hci⟩ => Bool.false_ne_true ((hlt c hc hcv).symm.trans hci)⟩
        exact Tile.slotBytes_fails ha (Tile.slotByte_draining hs hf hd)
  case names =>
    intro t slot wr as f h
    obtain ⟨l, a, r, rfl, ha, -⟩ := Tile.slotBytes_error.1 h
    exact ⟨a, by simp, Tile.slotByte_error (Tile.slotBytes_singleton_error.1 ha)⟩
  case word =>
    intro s d b off f at_
    have hat : at_ = scalarBytes 4 b off s := rfl
    rw [hat]
    exact ⟨fun h => loadSlot_error (causeOf_eq_some.2 h), fun h => scalarStore_error (causeOf_eq_some.2 h)⟩

end Sys2Proof.Machine

/-! ### The head of the copy queue (O27) -/

namespace Sys2Proof.Machine

-- one theorem at a time: many elaborations at once need more stacks than the memory limit holds
set_option Elab.async false

/-! ### The checks at the head do not read the tiles of the part -/

section

variable (s : State) (l : List (TileId × Tile))

theorem State.translateAll_tiles (x : Tile) (c : Context) (ctx : Fin 4) (cmd : Option Nat) (need : Option Need) (resident static : Bool)
    (pts : List (Nat × Nat)) (got : List TlbEntry) : State.translateAll { s with tiles := l } x c ctx cmd need resident static pts got =
      s.translateAll x c ctx cmd need resident static pts got := by
  induction pts generalizing got with
  | nil => rfl
  | cons p pts ih =>
    have hk : State.known { s with tiles := l } x ctx cmd static got p.1 = s.known x ctx cmd static got p.1 := rfl
    simp only [State.translateAll, ih, hk]
    rfl

theorem State.staticCheck_tiles (x : Tile) (ctx : Fin 4) (cmd : Option Nat) (form : CopyForm) (buf : Fin 32) (d0 d1 : Word) (addr : VAddr)
    (xl : List TlbEntry) : State.staticCheck { s with tiles := l } x ctx cmd form buf d0 d1 addr xl =
      s.staticCheck x ctx cmd form buf d0 d1 addr xl := by
  simp only [State.staticCheck, State.translateAll_tiles]

theorem State.copyHead_tiles (x : Tile) (c : CopyCmd) (form : CopyForm) (buf : Fin 32) (d0 d1 : Word) (addr : VAddr) (st : Bool) :
    State.copyHead { s with tiles := l } x c form buf d0 d1 addr st = s.copyHead x c form buf d0 d1 addr st := by
  have hg : State.combGoal { s with tiles := l } x addr = s.combGoal x addr := rfl
  simp only [State.copyHead, State.translateAll_tiles, State.staticCheck_tiles, hg]

end

/-! ### What leaves the buffers, the copy queue and the faults of a tile alone -/

/-- Buffers, publishes, copy queue and the reported faults of two tiles are the same. -/
def Tile.SameCopies (x y : Tile) : Prop := y.bufs = x.bufs ∧ y.publishing = x.publishing ∧ y.cpq = x.cpq ∧
  ∀ k, (y.ctx k).st = (x.ctx k).st ∧ (y.ctx k).faults = (x.ctx k).faults

namespace Tile.SameCopies

theorem refl (x : Tile) : x.SameCopies x := ⟨rfl, rfl, rfl, fun _ => ⟨rfl, rfl⟩⟩

theorem trans {x y z : Tile} (h : x.SameCopies y) (h' : y.SameCopies z) : x.SameCopies z := by
  obtain ⟨hb, hp, hc, hk⟩ := h
  obtain ⟨hb', hp', hc', hk'⟩ := h'
  exact ⟨hb'.trans hb, hp'.trans hp, hc'.trans hc, fun k => ⟨(hk' k).1.trans (hk k).1, (hk' k).2.trans (hk k).2⟩⟩

/-- An update of a context that keeps its state and its faults. -/
theorem modCtx (x : Tile) (c : Fin 4) (f : Context → Context) (hs : (f (x.ctx c)).st = (x.ctx c).st)
    (hf : (f (x.ctx c)).faults = (x.ctx c).faults) : x.SameCopies (x.modCtx c f) := by
  refine ⟨rfl, rfl, rfl, fun k => ?_⟩
  by_cases hk : k = c
  · subst hk
    rw [Tile.ctx_modCtx]
    exact ⟨hs, hf⟩
  · rw [Tile.ctx_modCtx_ne _ _ hk]
    exact ⟨rfl, rfl⟩

theorem dropMarkers (x : Tile) (id : Nat) :
    x.SameCopies { x with ctxs := x.ctxs.map fun (c : Context) => { c with markers := dropId id c.markers } } :=
  ⟨rfl, rfl, rfl, fun k => by simp [Tile.ctx]⟩

theorem retire (x : Tile) (id : Nat) (counted : Bool) : x.SameCopies (x.retire id counted) := by
  unfold Tile.retire
  split
  · exact refl x
  · extract_lets x₁ x₂
    have h₂ : x₁.SameCopies x₂ := by
      unfold x₂
      split
      · split
        · exact modCtx _ _ _ rfl rfl
        · exact refl _
      · exact refl _
    exact trans (⟨rfl, rfl, rfl, fun _ => ⟨rfl, rfl⟩⟩ : x.SameCopies x₁) (trans h₂ (dropMarkers x₂ id))

theorem mxLeave (x : Tile) (id : Nat) : x.SameCopies (x.mxLeave id) :=
  trans (⟨rfl, rfl, rfl, fun _ => ⟨rfl, rfl⟩⟩ : x.SameCopies { x with mxq := x.mxq.filter fun c => c.id != id }) (retire _ id true)

theorem dropFollow (x : Tile) (id : Nat) : x.SameCopies (x.dropFollow id) := by
  unfold Tile.dropFollow
  generalize x.mxq.filter _ = l
  induction l generalizing x with
  | nil => exact refl x
  | cons m l ih => exact trans (mxLeave x m.id) (ih _)

end Tile.SameCopies

/-! ### The head command, by what it is -/

section

variable {s : State} {t : TileId} {c : CopyCmd}

/-- The part with a tile put back in its place. -/
def State.refreshed (s : State) (t : TileId) : State := s.setTile t (s.tile t)

theorem State.tile_refreshed (s : State) (t : TileId) : (s.refreshed t).tile t = s.tile t := s.tile_setTile t _

theorem copyLeave_cpq (x : Tile) (id : Nat) : ∀ q ∈ (x.copyLeave id).cpq, q.id ≠ id := fun q hq => by
  simpa using (List.mem_filter.1 hq).2

/-- The tile reads its tables without upsets. -/
theorem State.refreshed_eq (hu : (s.tile t).upsets = []) :
    s.modTile t (fun x => (x.noteTable c.ctx c.tableOff c.tableLen).noteMap c) = s.refreshed t := by
  have hx : ((s.tile t).noteTable c.ctx c.tableOff c.tableLen).noteMap c = s.tile t := by
    rw [Tile.noteTable_clean _ _ _ _ hu]
    unfold Tile.noteMap
    split
    · split
      · split
        · exact Tile.noteTable_clean _ _ _ _ hu
        · rfl
      · rfl
    · rfl
  rw [State.modTile, hx, State.refreshed]

section

variable (hr : (s.tile t).copyReady s.now = some c) (hg : c.guard = .yes) (hu : (s.tile t).upsets = [])
include hr hg hu

theorem execCopyQueueStart_start {form : CopyForm} {b : Fin 32} {d0 d1 : Word} {addr : VAddr} {st : Bool} {xl : List TlbEntry}
    {idx : List Word} {r : Option (TileId × BitVec 64)} (ho : c.op = .copy form b d0 d1 addr st)
    (hh : s.copyHead (s.tile t) c form b d0 d1 addr st = .start xl idx r) :
    exec (.copyQueueStart t) s = .next ((s.refreshed t).copyStart t c form b d0 d1 addr xl idx r) := by
  have hs : (s.refreshed t).copyHead (s.tile t) c form b d0 d1 addr st = .start xl idx r := (s.copyHead_tiles ..).trans hh
  show execCopyQueueStart t s = _
  simp only [execCopyQueueStart, hr, hg, QGuard.overflow, State.refreshed_eq hu, State.tile_refreshed, Tile.tableView_clean _ hu, ho, hs]

variable (ho : (∃ b v, c.op = .bdcl b v) ∨ (∃ b, c.op = .brel b) ∨ ∃ b k, c.op = .publish b k)
include ho

theorem execCopyQueueStart_fault {f : Cause} (hf : (s.tile t).bufferFault c = some f) :
    exec (.copyQueueStart t) s = .next ((s.refreshed t).copyFault t c f) := by
  show execCopyQueueStart t s = _
  rcases ho with ⟨b, v, ho⟩ | ⟨b, ho⟩ | ⟨b, k, ho⟩ <;>
    simp only [execCopyQueueStart, hr, hg, QGuard.overflow, State.refreshed_eq hu, State.tile_refreshed, Tile.tableView_clean _ hu, ho, hf]

theorem execCopyQueueStart_effect (hf : (s.tile t).bufferFault c = none) :
    ∃ s', exec (.copyQueueStart t) s = .next s' ∧ s'.tile t = (s.tile t).bufferEffect c := by
  refine ⟨(s.refreshed t).modTile t fun x => x.bufferEffect c, ?_, by rw [State.tile_modTile, State.tile_refreshed]⟩
  show execCopyQueueStart t s = _
  rcases ho with ⟨b, v, ho⟩ | ⟨b, ho⟩ | ⟨b, k, ho⟩ <;>
    simp only [execCopyQueueStart, hr, hg, QGuard.overflow, State.refreshed_eq hu, State.tile_refreshed, Tile.tableView_clean _ hu, ho, hf]

end

/-! ### A refused buffer command -/

theorem Buffer.busy_iff (b : Buffer) : (b.state == .filling || b.state == .draining) = true ↔ b.wr ≠ 0 ∨ b.rd ≠ 0 := by
  unfold Buffer.state
  split
  next h => exact iff_of_true rfl (.inl h)
  next h =>
    split
    next h' => exact iff_of_true rfl (.inr h')
    next h' => split <;> exact iff_of_false Bool.false_ne_true (not_or.2 ⟨h, h'⟩)

theorem Buffer.state_of_idle {b : Buffer} (hw : b.wr = 0) (hr : b.rd = 0) (hs : b.sd = false) : b.state = .empty := by
  simp [Buffer.state, hw, hr, hs]

theorem bufferCause_busy (b : Buffer) (n : Fin 32) : bufferCause 7 b n (fun st => st == .filling || st == .draining) =
    if b.v = false ∨ b.wr ≠ 0 ∨ b.rd ≠ 0 then some (causeBuffer 7 n.val b.state false 0) else none := by
  unfold bufferCause
  have h := b.busy_iff
  cases hb : (b.state == BufState.filling || b.state == BufState.draining) <;> cases hv : b.v <;> simp_all

theorem not_refused {b : Buffer} (hv : b.v = true) (hw : b.wr = 0) (hr : b.rd = 0) : ¬ (b.v = false ∨ b.wr ≠ 0 ∨ b.rd ≠ 0) := by
  simp [hv, hw, hr]

theorem Tile.bufferFault_bdcl (x : Tile) {b : Fin 32} {v : Word} (ho : c.op = .bdcl b v) : x.bufferFault c =
    if 65536 < v.toNat % 512 * 128 + 2 * ((v.toNat / 2 ^ 16 % 256 + 1) * 128) ∨ x.bufs[b].v = true ∧ (x.bufs[b].wr ≠ 0 ∨ x.bufs[b].rd ≠ 0)
    then some (causeBuffer 7 b.val x.bufs[b].state false 0) else none := by
  simp only [Tile.bufferFault, ho, ← Buffer.busy_iff, Bool.or_eq_true, Bool.and_eq_true, decide_eq_true_eq, gt_iff_lt]
  exact if_congr or_comm rfl rfl

theorem Tile.bufferFault_brel (x : Tile) {b : Fin 32} (ho : c.op = .brel b) : x.bufferFault c =
    if x.bufs[b].v = false ∨ x.bufs[b].wr ≠ 0 ∨ x.bufs[b].rd ≠ 0 then some (causeBuffer 7 b.val x.bufs[b].state false 0) else none := by
  simp only [Tile.bufferFault, ho, bufferCause_busy]

theorem Tile.bufferFault_publish (x : Tile) {b : Fin 32} {k : Fin 8} (ho : c.op = .publish b k) : x.bufferFault c =
    if x.bufs[b].v = false ∨ x.bufs[b].wr ≠ 0 ∨ x.bufs[b].rd ≠ 0 then some (causeBuffer 7 b.val x.bufs[b].state false 0) else none := by
  simp only [Tile.bufferFault, ho, bufferCause_busy]

/-- The tile as its faulting head leaves it. -/
def Tile.copyRefused (x : Tile) (c : CopyCmd) : Tile :=
  (((x.copyLeave c.id).dropFollow c.id).retire c.id true).modCtx c.ctx fun k =>
    { (match c.op with
        | .copy .cpyo _ _ _ _ _ => k.ackFall
        | _ => k) with mpubs := k.mpubs.filter fun (p : MaskPub) => p.id != c.id }

theorem Tile.copyRefused_same (x : Tile) (c : CopyCmd) : (x.copyLeave c.id).SameCopies (x.copyRefused c) := by
  refine .trans (.dropFollow _ _) (.trans (.retire _ c.id true) (.modCtx _ _ _ ?_ ?_)) <;>
  · dsimp only
    split <;> rfl

theorem State.tile_headFault (s : State) (t : TileId) (c : Fin 4) (q : Fin 3) (f : Cause) (fpc : VAddr) :
    (s.headFault t c q f fpc).tile t = (s.tile t).modCtx c fun x => x.report q (f.record fpc) s.now := by
  have h : (s.modCtx t c fun x => x.report q (f.record fpc) s.now).tile t = (s.tile t).modCtx c fun x => x.report q (f.record fpc) s.now :=
    s.tile_modTile t _
  unfold State.headFault
  dsimp only
  split <;> exact h

theorem Context.report_first {x : Context} {q : Fin 3} {f : FaultRec} {now : Nat} (hst : x.st = .active) (hf : x.faults[q] = none) :
    (x.report q f now).faults[q] = some ⟨f, now⟩ := by
  simp only [Context.report, hst, hf, reduceCtorEq, or_self, if_false]
  exact vset_self ..

theorem State.tile_copyFault (s : State) (t : TileId) (c : CopyCmd) (f : Cause) : (s.copyFault t c f).tile t =
    ((s.tile t).copyRefused c).modCtx c.ctx fun x => x.report 1 (f.record c.fpc) s.now := by
  have h : (s.modTile t fun x => x.copyRefused c).tile t = (s.tile t).copyRefused c := s.tile_modTile t _
  rw [← h]
  refine Eq.trans ?_ (State.tile_headFault (s.modTile t fun x => x.copyRefused c) t c.ctx 1 f c.fpc)
  unfold State.copyFault Tile.copyRefused
  cases c.op with
  | copy form => cases form <;> rfl
  | _ => rfl

theorem State.copyFault_reports (s : State) (t : TileId) (c : CopyCmd) (f : Cause) :
    ((s.copyFault t c f).tile t).bufs = (s.tile t).bufs ∧ ((s.copyFault t c f).tile t).publishing = (s.tile t).publishing ∧
    (∀ q ∈ ((s.copyFault t c f).tile t).cpq, q.id ≠ c.id) ∧
    (((s.tile t).ctx c.ctx).st = .active → ((s.tile t).ctx c.ctx).faults[(1 : Fin 3)] = none →
      ((s.copyFault t c f).ctx t c.ctx).faults[(1 : Fin 3)] = some ⟨f.record c.fpc, s.now⟩) := by
  obtain ⟨hb, hp, hq, hk⟩ := (s.tile t).copyRefused_same c
  obtain ⟨hst, hf⟩ := hk c.ctx
  rw [State.ctx, State.tile_copyFault]
  refine ⟨hb, hp, fun q hm => ?_, fun ha hn => ?_⟩
  · exact copyLeave_cpq (s.tile t) c.id q (hq ▸ hm)
  · rw [Tile.ctx_modCtx]
    exact Context.report_first (hst.trans ha) ((congrArg (fun v : Vector (Option PendFault) 3 => v[(1 : Fin 3)]) hf).trans hn)

/-! ### A buffer command that takes effect -/

theorem Tile.bufferEffect_bdcl (x : Tile) {b : Fin 32} {v : Word} (ho : c.op = .bdcl b v) :
    (x.bufferEffect c).bufs = vset x.bufs b { Buffer.reset with base := v.setWidth 9, size := v.extractLsb' 16 8, v := true } ∧
    (x.bufferEffect c).cpq = (x.copyLeave c.id).cpq := by
  unfold Tile.bufferEffect
  simp only [ho]
  obtain ⟨hb, -, hq, -⟩ := Tile.SameCopies.retire ((((((x.copyLeave c.id).ctx c.ctx).lid.map
    ((x.copyLeave c.id).setOwner (kBuffer, b.val))).getD (x.copyLeave c.id)).writeTable (bufOff b.val) 16).setBuf b fun _ =>
      { Buffer.reset with base := v.setWidth 9, size := v.extractLsb' 16 8, v := true }) c.id true
  rw [hb, hq]
  have hw (y : Tile) : (y.writeTable (bufOff b.val) 16).bufs = y.bufs ∧ (y.writeTable (bufOff b.val) 16).cpq = y.cpq :=
    ⟨(congrArg Tile.bufs (y.clearUpsets_frame ..) :), (congrArg Tile.cpq (y.clearUpsets_frame ..) :)⟩
  obtain ⟨hwb, hwq⟩ := hw (((((x.copyLeave c.id).ctx c.ctx).lid.map ((x.copyLeave c.id).setOwner (kBuffer, b.val))).getD (x.copyLeave c.id)))
  refine ⟨(congrArg (fun v => vset v b _) hwb).trans ?_, hwq.trans ?_⟩ <;>
    cases ((x.copyLeave c.id).ctx c.ctx).lid <;> rfl

theorem Tile.bufferEffect_brel (x : Tile) {b : Fin 32} (ho : c.op = .brel b) :
    (x.bufferEffect c).bufs = vset x.bufs b { x.bufs[b] with sd := false, smap := 0 } := by
  unfold Tile.bufferEffect
  simp only [ho]
  obtain ⟨hb, -⟩ := Tile.SameCopies.retire ((x.copyLeave c.id).setBuf b fun y => { y with sd := false, smap := 0 }) c.id true
  exact hb

theorem Tile.bufferEffect_publish (x : Tile) {b : Fin 32} {k : Fin 8} (ho : c.op = .publish b k) :
    (x.bufferEffect c).bufs = x.bufs ∧ (x.bufferEffect c).publishing = x.publishing ++ [b] ∧
    (x.bufferEffect c).cpq = (x.copyLeave c.id).cpq := by
  unfold Tile.bufferEffect
  simp only [ho]
  obtain ⟨hb, hp, hq, -⟩ := Tile.SameCopies.retire (Tile.modCtx { x.copyLeave c.id with publishing := x.publishing ++ [b] } c.ctx fun k =>
    { k with mpubs := k.mpubs.map fun (p : MaskPub) => if p.id = c.id then { p with val := some (x.bufs[b].tag + 1, x.bufs[b].smap) } else p })
    c.id true
  exact ⟨hb, hp, hq⟩

/-! ### A copy that starts -/

/-- Flights and copy queue of two tiles are the same. -/
def Tile.SameFlights (x y : Tile) : Prop := y.flights = x.flights ∧ y.cpq = x.cpq

theorem Tile.SameFlights.ite {x y z : Tile} {p : Prop} [Decidable p] (hy : x.SameFlights y) (hz : x.SameFlights z) :
    x.SameFlights (if p then y else z) := by
  split
  · exact hy
  · exact hz

theorem Tile.SameFlights.trans {x y z : Tile} (h : x.SameFlights y) (h' : y.SameFlights z) : x.SameFlights z :=
  ⟨h'.1.trans h.1, h'.2.trans h.2⟩

theorem Tile.SameFlights.tlbTouch (x : Tile) (l : Nat) (used : Nat → Bool) (n : Nat) : x.SameFlights (x.tlbTouch l used n) :=
  ⟨(congrArg Tile.flights (x.tlbTouch_frame l used n) :), (congrArg Tile.cpq (x.tlbTouch_frame l used n) :)⟩

theorem Tile.SameFlights.countReads (x : Tile) (c m : Fin 4) (ws : List Nat) : x.SameFlights (x.countReads c m ws) := by
  have h : x.SameFlights (x.noteReads m ws) := ⟨(congrArg Tile.flights (x.noteReads_frame m ws) :), (congrArg Tile.cpq (x.noteReads_frame m ws) :)⟩
  exact .ite h h

theorem State.tile_bump_modTile (s : State) (t : TileId) (f : Tile → Tile) : (s.modTile t f).bump.tile t = f (s.tile t) := s.tile_modTile t f

theorem State.copyStart_flight (s : State) (t : TileId) (c : CopyCmd) (form : CopyForm) (b : Fin 32) (d0 d1 : Word) (addr : VAddr)
    (xl : List TlbEntry) (idx : List Word) (r : Option (TileId × BitVec 64)) :
    ∃ fl, ((s.copyStart t c form b d0 d1 addr xl idx r).tile t).flights = (s.tile t).flights ++ [fl] ∧ fl.id = c.id ∧ fl.form = form ∧
      fl.addr = addr ∧ fl.len = (s.tile t).copyBytes b d0 ∧ fl.done = 0 ∧
      ∀ q ∈ ((s.copyStart t c form b d0 d1 addr xl idx r).tile t).cpq, q.id ≠ c.id := by
  unfold State.copyStart
  extract_lets x len rg fl cof ps msgs s₁
  have h₁ : (s.tile t).SameFlights (s₁.tile t) := by
    unfold s₁
    split
    · rw [State.tile_modTile]
      exact ⟨rfl, rfl⟩
    · exact ⟨rfl, rfl⟩
  rw [State.tile_bump_modTile]
  refine ⟨fl, ?_⟩
  extract_lets y₁ y₂ y₃ y₄ y₅
  have h₃ : y₁.SameFlights y₃ := .ite (.trans (.tlbTouch ..) (.countReads ..)) (.tlbTouch ..)
  obtain ⟨hf, hq⟩ : y₁.SameFlights y₄ := .ite (h₃.trans ⟨rfl, rfl⟩) h₃
  have hy : y₅.flights = (s.tile t).flights ++ [fl] ∧ y₅.cpq = ((s₁.tile t).copyLeave c.id).cpq :=
    ⟨congrArg (· ++ [fl]) (hf.trans h₁.1), hq⟩
  clear_value y₅
  obtain ⟨hf, hq⟩ := hy
  have hi : ∀ q ∈ y₅.cpq, q.id ≠ c.id := fun q hm => copyLeave_cpq (s₁.tile t) c.id q (hq ▸ hm)
  split
  · exact ⟨hf, rfl, rfl, rfl, rfl, rfl, hi⟩
  · exact ⟨hf, rfl, rfl, rfl, rfl, rfl, hi⟩

/-! ### A publish at the end of its tick -/

theorem Buffer.publish_halves (b : Buffer) : b.publish.front = b.shadow ∧ b.publish.shadow = b.front := by
  unfold Buffer.front Buffer.shadow
  cases h : b.fh <;> simp [Buffer.publish, Buffer.b, Buffer.s, h]

theorem alGet_map_snd {α : Type} (g : α → α) (l : List (Nat × α)) (k : Nat) (d : α) :
    alGet (l.map fun e => (e.1, g e.2)) k d = if k ∈ l.map Prod.fst then g (alGet l k d) else d := by
  induction l with
  | nil => rfl
  | cons e l ih =>
    simp only [List.map_cons, alGet, ih, List.mem_cons]
    by_cases h : k = e.1
    · rw [if_pos h.symm, if_pos (.inl h), if_pos h.symm]
    · rw [if_neg (Ne.symm h), if_congr (or_iff_right h) rfl rfl, if_neg (Ne.symm h)]

/-- A tile that is not as reset takes its part in a comb tick. -/
theorem State.tile_beginTick {s : State} {t : TileId} (hh : s.hold = false) (hc : 64 ≤ s.thrPhase + s.thr) (hne : s.tile t ≠ Tile.reset) :
    ∃ now, s.beginTick.tile t = (s.tile t).beginTick now := by
  have hm : t ∈ s.tiles.map Prod.fst := mem_keys_of_alGet_ne hne
  have hcomb : (!s.hold && decide (64 ≤ s.thrPhase + s.thr)) = true := by simp [hh, hc]
  refine ⟨if s.stage = .released then 0 else s.now + 1, ?_⟩
  unfold State.beginTick
  simp only [hcomb, if_true]
  exact (alGet_map_snd (fun x : Tile => x.beginTick (if s.stage = .released then 0 else s.now + 1)) s.tiles t Tile.reset).trans (if_pos hm)

/-- Buffers, publishes and scratchpad of two tiles are the same. -/
def Tile.SameBuffers (x y : Tile) : Prop := y.bufs = x.bufs ∧ y.publishing = x.publishing ∧ y.spm = x.spm

namespace Tile.SameBuffers

theorem trans {x y z : Tile} (h : x.SameBuffers y) (h' : y.SameBuffers z) : x.SameBuffers z := by
  obtain ⟨hb, hp, hs⟩ := h
  obtain ⟨hb', hp', hs'⟩ := h'
  exact ⟨hb'.trans hb, hp'.trans hp, hs'.trans hs⟩

theorem ite {x y z : Tile} {p : Prop} [Decidable p] (hy : x.SameBuffers y) (hz : x.SameBuffers z) : x.SameBuffers (if p then y else z) := by
  split
  · exact hy
  · exact hz

theorem foldl {α : Type} {f : Tile → α → Tile} (hf : ∀ (x : Tile) a, x.SameBuffers (f x a)) (l : List α) (x : Tile) : x.SameBuffers (l.foldl f x) := by
  induction l generalizing x with
  | nil => exact ⟨rfl, rfl, rfl⟩
  | cons a l ih => exact trans (hf x a) (ih _)

theorem clearUpsets (x : Tile) (m : Fin 4) (ws : List Nat) : x.SameBuffers (x.clearUpsets m ws) := .ite ⟨rfl, rfl, rfl⟩ ⟨rfl, rfl, rfl⟩

theorem settleAcm (x : Tile) (now : Nat) : x.SameBuffers (x.settleAcm now) := by
  unfold Tile.settleAcm Tile.commitAcm
  extract_lets c ended x₁
  obtain ⟨hb, hp, hs⟩ : x.SameBuffers x₁ := .ite ⟨rfl, rfl, rfl⟩ (.clearUpsets ..)
  exact ⟨hb, hp, hs⟩

theorem settleScales (x : Tile) (now : Nat) : x.SameBuffers (x.settleScales now) :=
  trans (⟨rfl, rfl, rfl⟩ : x.SameBuffers { x with qpend := x.qpend.drop (x.qpend.takeWhile fun p => x.ownSees p && x.othersSee now p).length })
    (foldl (f := fun t (p : QPend) => { t with q := vset t.q p.reg p.val }) (fun _ _ => ⟨rfl, rfl, rfl⟩) _ _)

theorem request (x : Tile) (region pin zero : Bool) (line ready : Nat) : x.SameBuffers (x.request region line pin zero ready) :=
  .ite ⟨rfl, rfl, rfl⟩ (.ite ⟨rfl, rfl, rfl⟩ ⟨rfl, rfl, rfl⟩)

theorem startRefetch (x : Tile) (now : Nat) : x.SameBuffers (x.startRefetch now) :=
by
  refine .ite ⟨rfl, rfl, rfl⟩ (trans (⟨rfl, rfl, rfl⟩ : x.SameBuffers { x with refetch := [] }) (foldl (fun y r => ?_) _ _))
  exact .ite (.request ..) ⟨rfl, rfl, rfl⟩

end Tile.SameBuffers

theorem Tile.applyPublishes_one {x : Tile} {b : Fin 32} (h : x.publishing = [b]) :
    x.applyPublishes = { x with publishing := [], bufs := vset x.bufs b x.bufs[b].publish } := by
  rw [Tile.applyPublishes, h]
  rfl

theorem Tile.beginTick_publishes {x : Tile} {b : Fin 32} (now : Nat) (h : x.publishing = [b]) :
    (x.beginTick now).bufs = vset x.bufs b x.bufs[b].publish ∧ (x.beginTick now).publishing = [] ∧ (x.beginTick now).spm = x.spm := by
  unfold Tile.beginTick
  extract_lets y
  have hy : y.publishing = [b] := h
  rw [Tile.applyPublishes_one hy]
  exact Tile.SameBuffers.trans (.settleAcm ..) (.trans (.settleScales ..) (.trans (.startRefetch ..) ⟨rfl, rfl, rfl⟩))

end

/-- Settles O27: a head without fault takes effect or starts, one with a fault changes no buffer, and a tick begins with the publishes. -/
theorem copyQueueHeadActs : Obligations.CopyQueueHeadActs := by
  unfold Obligations.CopyQueueHeadActs
  refine ⟨?_, ?halves, ?tick⟩
  intro s t c x hr hg hu
  refine ⟨?bdcl, ?refused, ?brel, ?publish, ?start⟩
  case bdcl =>
    intro b v ho hroom hidle
    have hf : x.bufferFault c = none := by
      rw [x.bufferFault_bdcl ho, if_neg]
      rintro (h | ⟨hv, hw | hr⟩)
      · omega
      · exact hw (hidle hv).1
      · exact hr (hidle hv).2
    obtain ⟨s', he, ht⟩ := execCopyQueueStart_effect hr hg hu (.inl ⟨b, v, ho⟩) hf
    obtain ⟨hb, hq⟩ := x.bufferEffect_bdcl ho
    have hbb : (s'.tile t).bufs[b] = { Buffer.reset with base := v.setWidth 9, size := v.extractLsb' 16 8, v := true } := by
      rw [ht, hb, vset_self]
    refine ⟨s', he, ?_⟩
    rw [hbb]
    refine ⟨rfl, ?_, ?_, rfl, ⟨rfl, rfl, rfl, rfl, rfl, rfl, rfl⟩, fun k hk => ?_, fun q hm => ?_⟩
    · simp [Buffer.b]
    · simp [Buffer.s, Nat.shiftRight_eq_div_pow]
    · rw [ht, hb, vset_ne _ _ hk]
    · exact copyLeave_cpq x c.id q (hq ▸ ht ▸ hm)
  case refused =>
    intro b hb
    have hop : (∃ b v, c.op = .bdcl b v) ∨ (∃ b, c.op = .brel b) ∨ ∃ b k, c.op = .publish b k := by
      rcases hb with ⟨v, ho, -⟩ | ⟨ho | ⟨k, ho⟩, -⟩
      · exact .inl ⟨b, v, ho⟩
      · exact .inr (.inl ⟨b, ho⟩)
      · exact .inr (.inr ⟨b, k, ho⟩)
    have hf : x.bufferFault c = some (causeBuffer 7 b.val x.bufs[b].state false 0) := by
      rcases hb with ⟨v, ho, h⟩ | ⟨ho | ⟨k, ho⟩, h⟩
      · rw [x.bufferFault_bdcl ho, if_pos h]
      · rw [x.bufferFault_brel ho, if_pos h]
      · rw [x.bufferFault_publish ho, if_pos h]
    have h := (s.refreshed t).copyFault_reports t c (causeBuffer 7 b.val x.bufs[b].state false 0)
    rw [State.tile_refreshed] at h
    exact ⟨_, execCopyQueueStart_fault hr hg hu hop hf, h⟩
  case brel =>
    intro b ho hv hw hrd
    have hf : x.bufferFault c = none := by rw [x.bufferFault_brel ho, if_neg (not_refused hv hw hrd)]
    obtain ⟨s', he, ht⟩ := execCopyQueueStart_effect hr hg hu (.inr (.inl ⟨b, ho⟩)) hf
    have hbb : (s'.tile t).bufs[b] = { x.bufs[b] with sd := false, smap := 0 } := by rw [ht, x.bufferEffect_brel ho, vset_self]
    refine ⟨s', he, ?_⟩
    rw [hbb]
    exact ⟨Buffer.state_of_idle hw hrd rfl, rfl, rfl, rfl⟩
  case publish =>
    intro b k ho hv hw hrd
    have hf : x.bufferFault c = none := by rw [x.bufferFault_publish ho, if_neg (not_refused hv hw hrd)]
    obtain ⟨s', he, ht⟩ := execCopyQueueStart_effect hr hg hu (.inr (.inr ⟨b, k, ho⟩)) hf
    obtain ⟨hb, hp, hq⟩ := x.bufferEffect_publish ho
    refine ⟨s', he, ?_⟩
    rw [ht, hb, hp, hq]
    exact ⟨by simp, rfl, copyLeave_cpq x c.id⟩
  case start =>
    intro form b d0 d1 addr st xl idx r ho hh
    have h := (s.refreshed t).copyStart_flight t c form b d0 d1 addr xl idx r
    rw [State.tile_refreshed] at h
    obtain ⟨fl, h⟩ := h
    exact ⟨_, fl, execCopyQueueStart_start hr hg hu ho hh, h⟩
  case halves =>
    intro b hw hr
    obtain ⟨hf, hs⟩ := b.publish_halves
    exact ⟨hf, hs, rfl, rfl, Buffer.state_of_idle hw hr rfl⟩
  case tick =>
    intro s t b hp hh hc y
    have hne : s.tile t ≠ Tile.reset := fun h => by simp [h, Tile.reset] at hp
    obtain ⟨now, hy⟩ := State.tile_beginTick hh hc hne
    obtain ⟨hb, hq, hs⟩ := Tile.beginTick_publishes now hp
    rw [← hy] at hb hq hs
    refine ⟨?_, fun k hk => ?_, hq, hs⟩
    · rw [hb, vset_self]
    · rw [hb, vset_ne _ _ hk]

end Sys2Proof.Machine

/-! ### Walks, landed copies, acknowledgements and invalidations (O28) -/

namespace Sys2Proof.Machine

-- one theorem at a time: many elaborations at once need more stacks than the memory limit holds
set_option Elab.async false

section

variable {s : State} {t : TileId} {id : Nat}

/-- The only walk, once it is ready, keeps the result of its tables. -/
theorem execPageWalk_ends {w : Walk} (hw : (s.tile t).walks = [w]) (hres : w.res = none) (hr : w.ready ≤ s.now)
    (hm : s.walkerMoves ((s.tile t).ctx w.ctx) = false) : ∃ s', exec (.pageWalk t) s = .next s' ∧
      (s'.tile t).walks = [{ w with res := some (s.walkRoot ((s.tile t).ctx w.ctx) w.va) }] := by
  have hf : (s.tile t).walks.find? (fun w => w.res.isNone && decide (w.ready ≤ s.now)) = some w := by simp [hw, hres, hr]
  show ∃ s', execPageWalk t s = .next s' ∧ _
  unfold execPageWalk
  extract_lets x
  split
  next h => cases h.symm.trans hf
  next w' h =>
  obtain rfl : w = w' := Option.some.inj (hf.symm.trans h)
  extract_lets c r bad
  rw [if_neg (show ¬ s.walkerMoves c = true by rw [hm]; exact Bool.false_ne_true)]
  refine ⟨_, rfl, ?_⟩
  rw [State.tile_modTile]
  extract_lets x₀ x₁ x₂
  have h₁ : x₁.walks = [{ w with res := some (s.walkRoot ((s.tile t).ctx w.ctx) w.va) }] := by
    show (s.tile t).walks.map _ = _
    rw [hw, List.map_singleton, if_pos rfl]
  have h₂ : x₂.walks = x₁.walks := (apply_ite Tile.walks ..).trans (ite_self _)
  rw [← h₁, ← h₂]
  clear_value x₂
  cases r with
  | fail => rfl
  | ok => split <;> rfl

/-- The only flight, once it has landed its last byte and holds no command, is over. -/
theorem execCopyRetire_leaves {f : Flight} (hx : (s.tile t).flights = [f]) (hi : f.id = id) (hr : f.retired = false) (hd : f.len ≤ f.done)
    (hf : f.follow = false) : ∃ s', exec (.copyRetire t id) s = .next s' ∧ (s'.tile t).flights = [] ∧ ∀ l ∈ (s'.tile t).live, l.id ≠ id := by
  have hfind : (s.tile t).flights.find? (fun f => f.id == id && !f.retired && decide (f.done ≥ f.len)) = some f := by simp [hx, hi, hr, hd]
  show ∃ s', execCopyRetire t id s = .next s' ∧ _
  unfold execCopyRetire
  extract_lets x
  rw [show x.flights.find? _ = some f from hfind]
  refine ⟨_, rfl, ?_⟩
  rw [State.tile_bump_modTile]
  extract_lets x₁ x₂
  have hfl : x₁.flights = [f] := (congrArg Tile.flights ((s.tile t).retire_frame id true) :).trans hx
  have h₂ : x₂.flights = x₁.flights ∧ x₂.live = x₁.live :=
    ⟨(apply_ite Tile.flights ..).trans (ite_self _), (apply_ite Tile.live ..).trans (ite_self _)⟩
  clear_value x₂
  rw [if_neg (by simp [hf])]
  refine ⟨?_, fun l hl => Tile.retire_live _ _ _ l (h₂.2 ▸ hl)⟩
  show x₂.flights.filter _ = []
  simp [h₂.1, hfl, hi]

/-- The only acknowledgement, once it is due, lowers the count of the context that waits for it. -/
theorem execHeapWriteAcknowledgement_lowers {a : AckDue} {k : Nat} (ha : (s.tile t).acks = [a]) (hi : a.id = id) (hk : a.tick = some k)
    (hn : k ≤ s.now) : ∃ s', exec (.heapWriteAcknowledgement t id) s = .next s' ∧ (s'.tile t).acks = [] ∧
      (s'.ctx t a.ctx).wack = if (s.ctx t a.ctx).wack = 0 then 0 else (s.ctx t a.ctx).wack - 1 := by
  have hf : (s.tile t).acks.find? (fun a => a.id == id && a.tick.any fun k => decide (k ≤ s.now)) = some a := by simp [ha, hi, hk, hn]
  show ∃ s', execHeapWriteAcknowledgement t id s = .next s' ∧ _
  unfold execHeapWriteAcknowledgement
  simp only [hf]
  refine ⟨_, rfl, ?_, ?_⟩
  · rw [State.tile_modTile]
    show (s.tile t).acks.filter _ = []
    simp [ha, hi]
  · rw [State.ctx, State.tile_modTile, Tile.ctx_modCtx]
    rfl

theorem mem_tlb_invalidated {lid : Option (BitVec 16)} {page : Option VAddr} {e : TlbEntry} {l : List TlbEntry} :
    e ∈ l.filter (fun e => !((lid.all fun l => e.launch == l.toNat) && (page.all fun v => inSpan v.toNat e.vbase e.size))) ↔
      e ∈ l ∧ ¬ ((∀ l, lid = some l → e.launch = l.toNat) ∧ (∀ v, page = some v → inSpan v.toNat e.vbase e.size = true)) := by
  simp only [List.mem_filter, Bool.not_eq_true', ← Bool.not_eq_true, Bool.and_eq_true, Option.all_eq_true_iff_get, beq_iff_eq]
  cases lid <;> cases page <;> simp

end

/-- Settles O28: each event finds the one thing it is about. -/
theorem copyEngineEvents : Obligations.CopyEngineEvents := by
  unfold Obligations.CopyEngineEvents
  intro s t id lid page x
  refine ⟨fun w hw hres hr hm => execPageWalk_ends hw hres hr hm, fun f hx hi hr hd hf => execCopyRetire_leaves hx hi hr hd hf,
    fun a k ha hi hk hn => execHeapWriteAcknowledgement_lowers ha hi hk hn, _, rfl, fun e => ?_⟩
  rw [State.tile_modTile]
  exact mem_tlb_invalidated

end Sys2Proof.Machine

/-! ### Credits, and a header that is its message's last flit (O32) -/

namespace Sys2Proof.Machine

-- one theorem at a time: many elaborations at once need more stacks than the memory limit holds
set_option Elab.async false

/-! ### What a credit changes (R274, R322) -/

section

variable (s : State) (t u : TileId)

/-- A credit on its way changes the credits of a tile and what it owes: nothing else of it. -/
theorem State.tile_returnCredit (sender : TileId) (ch : Fin 256) (port : Option (Fin 16)) :
    ∃ cs, (s.returnCredit t sender ch port).tile u = { s.tile u with credits := cs } := by
  unfold State.returnCredit
  extract_lets due
  split
  · exact ⟨(s.tile u).credits, rfl⟩
  · by_cases hu : u = sender
    · subst hu
      rw [State.tile_modTile]
      exact ⟨_, rfl⟩
    · rw [State.tile_modTile_ne _ _ hu]
      exact ⟨(s.tile u).credits, rfl⟩

theorem State.tile_sendCredit (h : Header) (port : Option (Fin 16)) :
    ∃ cs os, (s.sendCredit t h port).tile u = { s.tile u with credits := cs, owed := os } := by
  unfold State.sendCredit
  extract_lets ch
  split
  · by_cases hu : u = t
    · subst hu
      rw [State.tile_modTile]
      exact ⟨(s.tile u).credits, _, rfl⟩
    · rw [State.tile_modTile_ne _ _ hu]
      exact ⟨(s.tile u).credits, (s.tile u).owed, rfl⟩
  · obtain ⟨cs, hc⟩ := s.tile_returnCredit t u h.sender ch port
    exact ⟨cs, (s.tile u).owed, hc⟩

@[simp] theorem State.sendCredit_inC (h : Header) (port : Option (Fin 16)) : ((s.sendCredit t h port).tile u).inC = (s.tile u).inC := by
  obtain ⟨cs, os, hs⟩ := s.tile_sendCredit t u h port
  rw [hs]

@[simp] theorem State.sendCredit_sems (h : Header) (port : Option (Fin 16)) : ((s.sendCredit t h port).tile u).sems = (s.tile u).sems := by
  obtain ⟨cs, os, hs⟩ := s.tile_sendCredit t u h port
  rw [hs]

end

/-- A header that is its message's last flit ends the message: none is left at the input (R287). -/
theorem exec_sendArrival_lastHeader {s : State} {t : TileId} {i : Fin 6} {f : Flit} {l : List Flit} (hf : (s.tile t).inC[i].fifo = f :: l)
    (hrx : (s.tile t).inC[i].rx = none) (hff : f.ff = true) (hlf : f.lf = true) {s' : State} (he : exec (.sendArrival t i) s = .next s') :
    (s'.tile t).inC[i].rx = none := by
  have he : messageFlit t i s = .next s' := he
  unfold messageFlit at he
  simp only [hf, hrx, hff, hlf, Bool.not_true, Bool.false_eq_true, if_false, if_true] at he
  obtain rfl := Host.Outcome.next.inj he
  rw [State.sendCredit_inC, State.tile_modTile]
  simp [Tile.setInC]

/-- A header alone at input 1 of tile 0: the first flit of its message, and the last. -/
def loneHeader : State :=
  State.reset.setTile 0 { Tile.reset with inC := vset Tile.reset.inC 1 { Input.reset with fifo := [⟨.c, true, true, 0, 0, none, none⟩] } }

/-- Refutes O32: its first clause has every header open a message, also one that is the last flit of its message; such a header ends the
message at once (R287), as `loneHeader` shows. -/
theorem not_messagesArrive : ¬ Obligations.MessagesArrive := by
  unfold Obligations.MessagesArrive
  rintro ⟨opens, -⟩
  have hf : (loneHeader.tile 0).inC[(1 : Fin 6)].fifo = [⟨.c, true, true, 0, 0, none, none⟩] := by decide +kernel
  have hrx : (loneHeader.tile 0).inC[(1 : Fin 6)].rx = none := by decide +kernel
  obtain ⟨first, -⟩ := opens loneHeader 0 1 _ [] _ (.inl rfl) (by decide +kernel) hf
  obtain ⟨s', m, he, -, hm, -⟩ := first hrx rfl rfl
  exact Option.some_ne_none m (hm.symm.trans (exec_sendArrival_lastHeader hf hrx rfl rfl he))

end Sys2Proof.Machine

/-! ### Signals and comb-address messages (O33) -/

namespace Sys2Proof.Machine

-- one theorem at a time: many elaborations at once need more stacks than the memory limit holds
set_option Elab.async false

/-! ### Routes do not read the tiles of the part (R309 to R317) -/

section

variable (s : State) (l : List (TileId × Tile))

theorem State.hops_tiles (n : Nat) (t : TileId) (w : BitVec 64) : State.hops { s with tiles := l } n t w = s.hops n t w := by
  induction n generalizing t w with
  | zero => rfl
  | succ n ih =>
    simp only [State.hops, ih]
    rfl

theorem State.search_tiles (goal : TileId) (n : Nat) (ps : List Path) : State.search { s with tiles := l } goal n ps = s.search goal n ps := by
  induction n generalizing ps with
  | zero => rfl
  | succ n ih =>
    have he : State.extend { s with tiles := l } goal ps = s.extend goal ps := rfl
    simp only [State.search, ih, he]

theorem State.routeTo_tiles (t goal : TileId) : State.routeTo { s with tiles := l } t goal = s.routeTo t goal := by
  have hb (w : BitVec 64) : State.badRoute { s with tiles := l } t w = s.badRoute t w := by
    simp only [State.badRoute, State.routeHops, State.hops_tiles]
    rfl
  have hp : State.plainRoute { s with tiles := l } t goal = s.plainRoute t goal := rfl
  simp only [State.routeTo, State.detour, State.search_tiles, hb, hp]

theorem State.routeTo_modTile (u : TileId) (g : Tile → Tile) (t goal : TileId) : (s.modTile u g).routeTo t goal = s.routeTo t goal :=
  s.routeTo_tiles ..

end

/-! ### Bytes written to the scratchpad -/

theorem span_succ (a n : Nat) : span a (n + 1) = spmAddr a :: span (a + 1) n := by
  simp only [span, List.range_succ_eq_map, List.map_cons, List.map_map, Nat.add_zero, Function.comp_def, Nat.add_assoc, Nat.add_comm 1]

theorem zip_span_eq_numbered {a : Nat} {bs : List Byte} (h : a + bs.length ≤ 65536) :
    ((span a bs.length).zip bs).map (fun e => (spmAddr e.1, e.2)) = numbered a bs := by
  induction bs generalizing a with
  | nil => rfl
  | cons b bs ih =>
    rw [List.length_cons] at h
    have ha : spmAddr (spmAddr a) = a := by simp only [spmAddr]; omega
    rw [List.length_cons, span_succ, List.zip_cons_cons, List.map_cons, ih (by omega), numbered, ha]

/-- Consecutive bytes that do not wrap around the scratchpad. -/
theorem Tile.writeSpm_span (x : Tile) {a : Nat} {bs : List Byte} (h : a + bs.length ≤ 65536) :
    (x.writeSpm ((span a bs.length).zip bs)).spm = x.spm.writeN a bs := by
  rw [Tile.writeSpm_spm, zip_span_eq_numbered h, Memory.writeN]

/-- The first bytes of a flit, written together: each reads back, and every other byte stays. -/
theorem Memory.read_writeN_flit {m : Memory} (a n v : Nat) (hm : m.wf = true) (hn : n ≤ 16) :
    (∀ k, k < n → (m.writeN a ((leBytes 16 v).take n)).read (a + k) = BitVec.ofNat 8 (v / 256 ^ k)) ∧
      ∀ x, (x < a ∨ a + n ≤ x) → (m.writeN a ((leBytes 16 v).take n)).read x = m.read x := by
  have hl : ((leBytes 16 v).take n).length = n := by simp [hn]
  refine ⟨fun k hk => ?_, fun x hx => Memory.read_writeN_out _ _ x hm (by omega)⟩
  rw [Memory.read_writeN_in _ _ k hm (by omega), List.getElem_take]
  exact Option.some.inj ((List.getElem?_eq_getElem _).symm.trans (getElem?_leBytes 16 v k (by omega)))

/-- Of the writes that the numbers below `n` make in order, the last to an address stands. -/
theorem Memory.read_writeAll_range {m : Memory} {p : Nat → Option (Nat × Byte)} {n k a : Nat} {b : Byte} (hm : m.wf = true) (hk : k < n)
    (hp : p k = some (a, b)) (hlast : ∀ j, k < j → j < n → ∀ e, p j = some e → e.1 ≠ a) :
    (m.writeAll ((List.range n).filterMap p)).read a = b := by
  obtain ⟨r, rfl⟩ := Nat.exists_eq_add_of_lt hk
  rw [Nat.add_assoc, List.range_add, List.filterMap_append, List.range_succ_eq_map, List.map_cons, Nat.add_zero, List.filterMap_cons_some hp]
  refine Memory.read_writeAll_last _ _ a b hm fun e he => ?_
  obtain ⟨j, hj, hpj⟩ := List.mem_filterMap.1 he
  simp only [List.map_map, List.mem_map, List.mem_range, Function.comp_apply] at hj
  obtain ⟨i, hi, rfl⟩ := hj
  exact hlast _ (by omega) (by omega) e hpj

/-- An address that none of them names keeps its byte. -/
theorem Memory.read_writeAll_range_ne {m : Memory} {p : Nat → Option (Nat × Byte)} {n a : Nat} (hm : m.wf = true)
    (h : ∀ k, k < n → ∀ e, p k = some e → e.1 ≠ a) : (m.writeAll ((List.range n).filterMap p)).read a = m.read a := by
  refine Memory.read_writeAll_ne _ a hm fun e he => ?_
  obtain ⟨k, hk, hpk⟩ := List.mem_filterMap.1 he
  exact h k (List.mem_range.1 hk) e hpk

/-! ### Inputs -/

section

variable {x : Tile} {i : Fin 6}

@[simp] theorem Tile.setInC_inC (x : Tile) (i : Fin 6) (g : Input → Input) : (x.setInC i g).inC[i] = g x.inC[i] := vset_self ..

theorem Tile.setInC_flights (x : Tile) (i : Fin 6) (g : Input → Input) : (x.setInC i g).flights = x.flights := rfl
theorem Tile.setInC_spm (x : Tile) (i : Fin 6) (g : Input → Input) : (x.setInC i g).spm = x.spm := rfl

theorem State.takeSig_cons {s : State} {t : TileId} {f : Flit} {l : List Flit} (h : (s.tile t).inC[i].fifo = f :: l) :
    s.takeSig t i = some (f, Header.unpack f.data, s.modTile t fun x => x.setInC i fun n => { n with fifo := l }) := by
  rw [State.takeSig, h]

theorem Tile.readTable_sems (x : Tile) (off n : Nat) : (x.readTable off n).sems = x.sems :=
  (congrArg Tile.sems (x.noteReads_frame 2 (tableWords off n)) :)

end

/-! ### Signals (R295, R348, R364) -/

/-- A semaphore stops at 65,535. -/
theorem Tile.addSem_sem (x : Tile) (k : Fin 16) (inc : Nat) : (x.addSem k inc).sems[k].toNat = min 65535 (x.sems[k].toNat + inc) := by
  unfold Tile.addSem
  extract_lets v y
  split
  next h =>
    rw [vset_self, BitVec.toNat_ofNat]
    omega
  next h =>
    rw [vset_self]
    show 65535 = _
    omega

theorem Port.addPsem_psem (p : Port) (k : Fin 64) (inc : Nat) : ((p.addPsem k inc).psem[k]).toNat = min 65535 (p.psem[k].toNat + inc) := by
  rw [Port.addPsem, vset_self, BitVec.toNat_ofNat]
  omega

theorem State.sendCredit_psem (s : State) (t : TileId) (h : Header) (port : Option (Fin 16)) (p : Fin 16) :
    ((s.sendCredit t h port).port p).psem = (s.port p).psem := by
  unfold State.sendCredit State.returnCredit
  extract_lets ch due
  split
  · rfl
  · split
    · by_cases hp : p = Fin.ofNat 16 (tileY h.sender)
      · subst hp
        rw [State.port_modPort]
      · rw [State.port_modPort_ne _ _ hp]
    · rfl

section

variable {s : State} {t : TileId} {i : Fin 6} {f : Flit} {l : List Flit}

/-- A SIG from the sender that its channel names is added; from another it is counted and dropped. -/
theorem execSigArrival_adds {h : Header} (hh : h = Header.unpack f.data) (hf : (s.tile t).inC[i].fifo = f :: l) (hu : (s.tile t).upsets = []) :
    ∃ s', exec (.sigArrival t i) s = .next s' ∧
      (((s.tile t).chan (Fin.ofNat 256 h.ch)).names h = true →
        (s'.tile t).sems[Fin.ofNat 16 h.sem].toNat = min 65535 ((s.tile t).sems[Fin.ofNat 16 h.sem].toNat + h.inc)) ∧
      (((s.tile t).chan (Fin.ofNat 256 h.ch)).names h = false → (s'.tile t).sems = (s.tile t).sems) := by
  subst hh
  show ∃ s', execSigArrival t i s = .next s' ∧ _
  simp only [execSigArrival, State.takeSig_cons hf]
  refine ⟨_, rfl, ?_⟩
  have hv : ((s.tile t).setInC i fun n => { n with fifo := l }).tableView = (s.tile t).setInC i fun n => { n with fifo := l } :=
    Tile.tableView_clean _ hu
  have hc : ((s.tile t).setInC i fun n => { n with fifo := l }).chan = (s.tile t).chan := rfl
  cases hn : ((s.tile t).chan (Fin.ofNat 256 (Header.unpack f.data).ch)).names (Header.unpack f.data) with
  | false =>
    refine ⟨fun h => absurd h Bool.false_ne_true, fun _ => ?_⟩
    simp only [State.sendCredit_sems, State.tile_modTile, hv, hc, hn, Bool.false_eq_true, if_false]
    exact (congrArg Tile.sems (Tile.count_frame ..) :).trans (Tile.readTable_sems ..)
  | true =>
    refine ⟨fun _ => ?_, fun h => absurd h.symm Bool.false_ne_true⟩
    simp only [State.sendCredit_sems, State.tile_modTile, hv, hc, hn, if_true, Tile.addSem_sem, Tile.readTable_sems]
    rfl

/-- A SIG of a tile reaches the semaphore of its port that the entry of the sender names. -/
theorem execPortSigArrival_adds {h : Header} (hh : h = Header.unpack f.data) (hf : (s.tile t).inC[i].fifo = f :: l) {p : Fin 16}
    (hp : f.port = some p) {j : Fin 64} (hj : j = Fin.ofNat 64 (16 * (((s.tile h.sender).chan (Fin.ofNat 256 h.ch)).toff.toNat % 4) + h.sem)) :
    ∃ s', exec (.portSigArrival t i) s = .next s' ∧ (s'.tile t).sems = (s.tile t).sems ∧
      ((s'.port p).psem[j]).toNat = min 65535 (((s.port p).psem[j]).toNat + h.inc) := by
  have hc : ((s.modTile t fun x => x.setInC i fun n => { n with fifo := l }).tile h.sender).chan = (s.tile h.sender).chan := by
    by_cases ht : h.sender = t
    · rw [ht, State.tile_modTile]
      rfl
    · rw [State.tile_modTile_ne _ _ ht]
  subst hh
  show ∃ s', execPortSigArrival t i s = .next s' ∧ _
  simp only [execPortSigArrival, State.takeSig_cons hf, hp, hc, ← hj]
  refine ⟨_, rfl, ?_, ?_⟩
  · rw [State.sendCredit_sems]
    show ((s.modTile t fun x => x.setInC i fun n => { n with fifo := l }).tile t).sems = _
    rw [State.tile_modTile]
    rfl
  · rw [State.sendCredit_psem, State.port_modPort, Port.addPsem_psem]
    rfl

/-! ### Comb-address messages (R196, R236) -/

theorem execReadRequest_answers {h : Header} (hh : h = Header.unpack f.data) (hf : (s.tile t).inC[i].fifo = f :: l) :
    ∃ s' m, exec (.readRequest t i) s = .next s' ∧ (s'.tile t).tx = (s.tile t).tx ++ [m] ∧ m.src = h.cof ∧ m.len = h.len + 1 ∧
      m.steer = s.routeTo t h.sender ∧ (s'.tile t).inC[i].fifo = l := by
  subst hh
  show ∃ s' m, execReadRequest t i s = .next s' ∧ _
  simp only [execReadRequest, State.takeSig_cons hf]
  refine ⟨_, combMsg 0 none t (s.routeTo t (Header.unpack f.data).sender) 2 ((Header.unpack f.data).len + 1) (Header.unpack f.data).cof none
    (Header.unpack f.data).cof (s.now + 1) true
    (f.org.map fun o => o.back (Header.unpack f.data).sender (s.routeTo t (Header.unpack f.data).sender)), rfl, ?_, rfl, rfl, rfl, ?_⟩
  · rw [State.tile_modTile, State.tile_modTile, State.routeTo_modTile]
    rfl
  · rw [State.tile_modTile, State.tile_modTile]
    show ((s.tile t).setInC i fun n => { n with fifo := l }).inC[i].fifo = l
    rw [Tile.setInC_inC]

/-- The header of write or read data opens its message. -/
theorem exec_combHeader_opens {e : Instr} (he : e = .writeData t i ∨ e = .readData t i) (hf : (s.tile t).inC[i].fifo = f :: l)
    (hr : (s.tile t).inC[i].rx = none) : ∃ s' m, exec e s = .next s' ∧ (s'.tile t).inC[i].fifo = l ∧ (s'.tile t).inC[i].rx = some m ∧
      m.head = f.data ∧ (s'.tile t).spm = (s.tile t).spm := by
  have hx : exec e s = .next (s.modTile t fun x => x.rxOpen i f false) := by
    rcases he with rfl | rfl
    · show execWriteData t i s = _
      simp only [execWriteData, hf, hr]
    · show execReadData t i s = _
      simp only [execReadData, hf, hr]
  refine ⟨_, ⟨f.data, f.port, none, none, [], false, false, none, 0, 0, f.org⟩, hx, ?_⟩
  rw [State.tile_modTile, Tile.rxOpen, Tile.setInC_inC]
  exact ⟨by rw [hf]; rfl, rfl, rfl, rfl⟩

theorem Tile.setBufs_frame (x : Tile) (bs : List (Fin 32)) (g : Buffer → Buffer) :
    { bs.foldl (fun x b => x.setBuf b g) x with bufs := x.bufs } = x := by
  induction bs generalizing x with
  | nil => rfl
  | cons b bs ih => exact congrArg (fun y : Tile => { y with bufs := x.bufs }) (ih (x.setBuf b g))

section

variable (x : Tile) (m : RxMsg) (bs : List (Fin 32)) (a n : Nat) (c : Prop) [Decidable c] (k : Fin 10) (l : List (Nat × Byte))

theorem Tile.combOpen_spm : (x.combOpen m a n).1.spm = x.spm := (congrArg Tile.spm (x.setBufs_frame ..) :)
theorem Tile.combOpen_inC : (x.combOpen m a n).1.inC = x.inC := (congrArg Tile.inC (x.setBufs_frame ..) :)
theorem Tile.combClose_spm : (x.combClose bs a n).1.spm = x.spm := (congrArg Tile.spm (x.setBufs_frame ..) :)
theorem Tile.combClose_inC : (x.combClose bs a n).1.inC = x.inC := (congrArg Tile.inC (x.setBufs_frame ..) :)
theorem Tile.writeSpm_inC : (x.writeSpm l).inC = x.inC := (congrArg Tile.inC (x.writeSpm_frame l) :)
theorem Tile.writeSpm_flights : (x.writeSpm l).flights = x.flights := (congrArg Tile.flights (x.writeSpm_frame l) :)

theorem Tile.setBufIf_frame (b : Fin 32) (g : Buffer → Buffer) : { (if c then x.setBuf b g else x) with bufs := x.bufs } = x := by
  split <;> rfl

theorem Tile.setBufIf_spm (b : Fin 32) (g : Buffer → Buffer) : (if c then x.setBuf b g else x).spm = x.spm :=
  (congrArg Tile.spm (x.setBufIf_frame c b g) :)
theorem Tile.setBufIf_inC (b : Fin 32) (g : Buffer → Buffer) : (if c then x.setBuf b g else x).inC = x.inC :=
  (congrArg Tile.inC (x.setBufIf_frame c b g) :)
theorem Tile.setBufIf_flights (b : Fin 32) (g : Buffer → Buffer) : (if c then x.setBuf b g else x).flights = x.flights :=
  (congrArg Tile.flights (x.setBufIf_frame c b g) :)

theorem Tile.countIf_spm : (if c then x.count k n else x).spm = x.spm := by
  split
  · exact x.count_spm k n
  · rfl

theorem Tile.countIf_inC : (if c then x.count k n else x).inC = x.inC := by
  split
  · exact (congrArg Tile.inC (x.count_frame k n) :)
  · rfl

end

/-- The write that byte `k` of a run makes, if it lies in a buffer. -/
def Tile.combWrite (x : Tile) (at_ : Nat) (bs : List Byte) (k : Nat) : Option (Nat × Byte) :=
  (x.combTarget (at_ + k)).map fun d => (spmAddr (x.bufs[d.1].shadow + d.2), bs.getD k 0)

theorem Tile.combWrite_eq_some {x : Tile} {at_ k a : Nat} {bs : List Byte} {b : Byte} : x.combWrite at_ bs k = some (a, b) ↔
    (∃ c d, x.combTarget (at_ + k) = some (c, d) ∧ a = (x.bufs[c].shadow + d) % 65536) ∧ b = bs.getD k 0 := by
  simp only [Tile.combWrite, Option.map_eq_some_iff, Prod.exists, Prod.mk.injEq, spmAddr]
  constructor
  · rintro ⟨c, d, h, rfl, rfl⟩
    exact ⟨⟨c, d, h, rfl⟩, rfl⟩
  · rintro ⟨⟨c, d, h, rfl⟩, rfl⟩
    exact ⟨c, d, h, rfl, rfl⟩

theorem Tile.combWrites_eq (x : Tile) (at_ : Nat) (bs : List Byte) :
    ((x.combWrites at_ bs).filterMap fun e => e.2.map fun d => (d.2, e.1)).map (fun e => (spmAddr e.1, e.2)) =
      (List.range bs.length).filterMap (x.combWrite at_ bs) := by
  have hz : (List.range bs.length).zip bs = (List.range bs.length).map fun k => (k, bs.getD k 0) := by
    refine List.ext_getElem (by simp) fun k hk hk' => ?_
    have hb : k < bs.length := by simpa using hk'
    simp [hb]
  rw [Tile.combWrites, hz, List.map_map, List.filterMap_map, List.map_filterMap]
  refine List.filterMap_congr fun k _ => ?_
  simp only [Function.comp_apply, Tile.combWrite, Option.map_map]
  rfl

/-- A payload flit of write data writes its bytes where their comb addresses lead. -/
theorem execWriteData_writes {m : RxMsg} {g : Header} {n : Nat} (hg : g = Header.unpack m.head) (hn : n = min 16 (g.payload - m.done))
    (hf : (s.tile t).inC[i].fifo = f :: l) (hr : (s.tile t).inC[i].rx = some m) (hlf : f.lf = false) :
    ∃ s', exec (.writeData t i) s = .next s' ∧ (s'.tile t).inC[i].fifo = l ∧ (s'.tile t).inC[i].rx.map RxMsg.done = some (m.done + n) ∧
      (s'.tile t).spm = (s.tile t).spm.writeAll ((List.range n).filterMap
        ((s.tile t).combWrite (g.cof + m.done) ((leBytes 16 f.data.toNat).take n))) := by
  have hl : ((leBytes 16 f.data.toNat).take n).length = n := by simp; omega
  show ∃ s', execWriteData t i s = .next s' ∧ _
  simp only [execWriteData, hf, hr, hlf, ← hg, RxMsg.bytes, ← hn, Bool.false_eq_true, if_false]
  refine ⟨_, rfl, ?_⟩
  rw [State.tile_modTile, Tile.setInC_inC]
  refine ⟨?_, rfl, ?_⟩
  · show (List.drop 1 (Tile.inC _)[i].fifo) = l
    rw [Tile.combClose_inC, Tile.countIf_inC, Tile.writeSpm_inC, Tile.combOpen_inC, hf]
    rfl
  · rw [Tile.setInC_spm, Tile.combClose_spm, Tile.countIf_spm, Tile.writeSpm_spm, Tile.combOpen_spm, Tile.combWrites_eq, hl]

/-- A run of bytes of a copy into a buffer, with no residency to mark, lands in the buffer's shadow and moves its flight on. -/
theorem Tile.landUnit_shadow (x : Tile) {fl : Flight} {lo : Nat} {bs : List Byte} (hform : fl.form = .cpy) (hring : fl.ring = none)
    (h : x.bufs[fl.buf].shadow + fl.off + lo + bs.length ≤ 65536) :
    (x.landUnit fl lo bs []).spm = x.spm.writeN (x.bufs[fl.buf].shadow + fl.off + lo) bs ∧ (x.landUnit fl lo bs []).inC = x.inC ∧
      (x.landUnit fl lo bs []).flights =
        x.flights.map fun g => if g.id = fl.id then { g with done := lo + bs.length, open_ := true } else g := by
  have hc : fl.form ≠ .cpyo := by rw [hform]; nofun
  have hs : x.flightSpan fl lo bs.length = span (x.bufs[fl.buf].shadow + fl.off + lo) bs.length := by
    simp only [Tile.flightSpan, hring, if_neg hc]
  simp only [Tile.landUnit, Tile.endEntries, hring, hs, List.any_nil, Bool.false_and, Bool.false_eq_true, if_false]
  refine ⟨?_, ?_, ?_⟩
  · rw [Tile.setBufIf_spm, Tile.writeSpm_span _ h, Tile.setBufIf_spm]
  · rw [Tile.setBufIf_inC, Tile.writeSpm_inC, Tile.setBufIf_inC]
  · rw [Tile.setBufIf_flights, Tile.writeSpm_flights, Tile.setBufIf_flights]

/-- A payload flit of read data lands in the destination of the copy that awaits it. -/
theorem execReadData_lands {m : RxMsg} {fl : Flight} {g : Header} {n at_ : Nat} (hg : g = Header.unpack m.head)
    (hn : n = min 16 (g.payload - m.done)) (ha : at_ = (s.tile t).bufs[fl.buf].shadow + fl.off + fl.done)
    (hf : (s.tile t).inC[i].fifo = f :: l) (hr : (s.tile t).inC[i].rx = some m) (hlf : f.lf = false)
    (hw : (s.tile t).awaits m.org = some fl) (hfl : (s.tile t).flights = [fl]) (hform : fl.form = .cpy) (hring : fl.ring = none)
    (hin : at_ + n ≤ 65536) :
    ∃ s', exec (.readData t i) s = .next s' ∧ (s'.tile t).inC[i].fifo = l ∧ (s'.tile t).inC[i].rx.map RxMsg.done = some (m.done + n) ∧
      (s'.tile t).flights = [{ fl with done := fl.done + n, open_ := true }] ∧
      (s'.tile t).spm = (s.tile t).spm.writeN at_ ((leBytes 16 f.data.toNat).take n) := by
  have hl : ((leBytes 16 f.data.toNat).take n).length = n := by simp; omega
  show ∃ s', execReadData t i s = .next s' ∧ _
  simp only [execReadData, hf, hr, hlf, ← hg, RxMsg.bytes, ← hn, Bool.false_eq_true, if_false]
  refine ⟨_, rfl, ?_⟩
  rw [State.tile_modTile]
  simp only [hw, Tile.setInC_inC, Tile.setInC_spm, Tile.setInC_flights]
  generalize hx : (s.tile t).event _ _ = x
  have hbufs : x.bufs = (s.tile t).bufs := hx ▸ rfl
  have hinC : x.inC = (s.tile t).inC := hx ▸ rfl
  have hspm : x.spm = (s.tile t).spm := hx ▸ rfl
  have hfls : x.flights = [fl] := hx ▸ hfl
  obtain ⟨h1, h2, h3⟩ := x.landUnit_shadow (lo := fl.done) (bs := (leBytes 16 f.data.toNat).take n) hform hring
    (by rw [hbufs, hl, ← ha]; exact hin)
  rw [h1, h2, h3, hinC, hspm, hfls, hbufs, hf, ← ha, hl]
  exact ⟨rfl, rfl, by rw [List.map_singleton, if_pos rfl], rfl⟩

theorem Tile.awaits_of_flight {x : Tile} {o : Option Origin} {fl : Flight} {u : TileId} (hfl : x.flights = [fl]) (hform : fl.form = .cpy)
    (hu : fl.remote = some u) (ho : o.map Origin.id = some fl.id) (hd : fl.done < fl.len) : x.awaits o = some fl := by
  obtain ⟨o, rfl, hid⟩ := Option.map_eq_some_iff.1 ho
  simp [Tile.awaits, hfl, hform, hu, hid, hd]

/-- The last acknowledgement that a command awaits ends it: WACK of its context falls, not below zero (R212). -/
theorem execWriteAcknowledgement_last {a : AckDue} (hf : (s.tile t).inC[i].fifo = f :: l) (ha : (s.tile t).acks = [a])
    (hp : a.peer.isSome = true) (ho : f.org.map Origin.id = some a.id) (hm : a.msgs = 1) :
    ∃ s', exec (.writeAcknowledgement t i) s = .next s' ∧ (s'.tile t).acks = [] ∧ s'.ctx t a.ctx = (s.ctx t a.ctx).ackFall := by
  obtain ⟨o, ho', hid⟩ := Option.map_eq_some_iff.1 ho
  show ∃ s', execWriteAcknowledgement t i s = .next s' ∧ _
  simp only [execWriteAcknowledgement, State.takeSig_cons hf]
  refine ⟨_, rfl, ?_⟩
  have hx : ((s.tile t).setInC i fun n => { n with fifo := l }).acks = [a] := ha
  have hc : ((s.tile t).setInC i fun n => { n with fifo := l }).ctxs = (s.tile t).ctxs := rfl
  rw [State.ctx, State.ctx, State.tile_modTile, State.tile_modTile]
  generalize (s.tile t).setInC i _ = x at hx hc ⊢
  have hn : x.ackArrives f.org = ({ x with acks := [] } : Tile).modCtx a.ctx Context.ackFall := by
    simp [Tile.ackArrives, hx, hp, ho', hid, hm]
  rw [hn, Tile.ctx_modCtx, Tile.modCtx_acks]
  exact ⟨rfl, congrArg (fun k : Vector Context 4 => k[a.ctx].ackFall) hc⟩

end

/-- Settles O33, message by message. -/
theorem signalsAndCombMessages : Obligations.SignalsAndCombMessages := by
  unfold Obligations.SignalsAndCombMessages
  refine ⟨?_, ?_⟩
  · intro s t i f l x h k hf hu _
    exact ⟨execSigArrival_adds rfl hf hu, fun p hp => execPortSigArrival_adds rfl hf hp rfl⟩
  · intro s t i f l x h hf
    refine ⟨execReadRequest_answers rfl hf, fun e he hr => exec_combHeader_opens he hf hr, ?_, ?_, ?_⟩
    · intro m hr hlf hwf g n reaches
      obtain ⟨s', he, hfifo, hdone, hspm⟩ := execWriteData_writes (m := m) rfl rfl hf hr hlf
      obtain ⟨m', hrx, hm'⟩ := Option.map_eq_some_iff.1 hdone
      have hn : n ≤ 16 := Nat.min_le_left ..
      have hb (k : Nat) (hk : k < n) : ((leBytes 16 f.data.toNat).take n).getD k 0 = BitVec.ofNat 8 (f.data.toNat / 256 ^ k) := by
        rw [List.getD_eq_getElem?_getD, List.getElem?_take_of_lt hk, getElem?_leBytes 16 _ k (by omega), Option.getD_some]
      have hreach (k : Nat) (e : Nat × Byte) (hk : x.combWrite (g.cof + m.done) ((leBytes 16 f.data.toNat).take n) k = some e) :
          reaches k e.1 := (Tile.combWrite_eq_some.1 hk).1
      refine ⟨s', m', he, hfifo, hrx, hm', fun k a hk hr hlast => ?_, fun a ha => ?_⟩
      · rw [hspm]
        exact Memory.read_writeAll_range hwf hk (Tile.combWrite_eq_some.2 ⟨hr, (hb k hk).symm⟩)
          fun j hkj hj e hje hea => hlast j hkj hj (hea ▸ hreach j e hje)
      · rw [hspm]
        exact Memory.read_writeAll_range_ne hwf fun k hk e hke hea => ha k hk (hea ▸ hreach k e hke)
    · intro m fl hr hlf hwf hfl hform hring g n at_ hu ho hd hin
      obtain ⟨s', he, hfifo, hdone, hfls, hspm⟩ := execReadData_lands (m := m) (fl := fl) rfl rfl rfl hf hr hlf
        (Tile.awaits_of_flight hfl hform hu ho hd) hfl hform hring hin
      obtain ⟨m', hrx, hm'⟩ := Option.map_eq_some_iff.1 hdone
      obtain ⟨hbytes, hothers⟩ := Memory.read_writeN_flit at_ n f.data.toNat hwf (Nat.min_le_left ..)
      exact ⟨s', _, m', he, hfifo, hrx, hm', hfls, rfl, rfl, fun k hk => hspm ▸ hbytes k hk, fun a ha => hspm ▸ hothers a ha⟩
    · intro a ha hp ho hm
      obtain ⟨s', he, hacks, hctx⟩ := execWriteAcknowledgement_last hf ha hp ho hm
      exact ⟨s', he, hacks, by rw [hctx, Context.ackFall]⟩

end Sys2Proof.Machine

/-! ### Pages that are served and moved (O46) -/

namespace Sys2Proof.Machine

-- one theorem at a time: many elaborations at once need more stacks than the memory limit holds
set_option Elab.async false

/-! ### Fields of a page-table entry (R199) -/

/-- An entry with its field of `n` bits at `lo` replaced. -/
def withField (e lo n v : Nat) : Nat := e - e / 2 ^ lo % 2 ^ n * 2 ^ lo + v % 2 ^ n * 2 ^ lo

section

variable (e v : Nat) {lo n lo' n' : Nat}

theorem withField_eq (lo n : Nat) : withField e lo n v = 2 ^ lo * (2 ^ n * (e / 2 ^ (lo + n)) + v % 2 ^ n) + e % 2 ^ lo := by
  have hlo := Nat.div_add_mod e (2 ^ lo)
  have hn := Nat.div_add_mod (e / 2 ^ lo) (2 ^ n)
  rw [Nat.div_div_eq_div_mul, ← Nat.pow_add] at hn
  rw [← hn, Nat.mul_add] at hlo
  rw [withField, Nat.mul_add, Nat.mul_comm _ (2 ^ lo), Nat.mul_comm _ (2 ^ lo)]
  omega

theorem withField_mod (lo n : Nat) : withField e lo n v % 2 ^ lo = e % 2 ^ lo := by
  rw [withField_eq, Nat.mul_add_mod, Nat.mod_mod]

theorem withField_div_lo (lo n : Nat) : withField e lo n v / 2 ^ lo = 2 ^ n * (e / 2 ^ (lo + n)) + v % 2 ^ n := by
  rw [withField_eq, Nat.mul_add_div (Nat.two_pow_pos lo), Nat.div_eq_of_lt (Nat.mod_lt _ (Nat.two_pow_pos lo)), Nat.add_zero]

theorem withField_div (lo n : Nat) : withField e lo n v / 2 ^ (lo + n) = e / 2 ^ (lo + n) := by
  conv_lhs => rw [Nat.pow_add, ← Nat.div_div_eq_div_mul, withField_div_lo, Nat.mul_add_div (Nat.two_pow_pos n),
    Nat.div_eq_of_lt (Nat.mod_lt _ (Nat.two_pow_pos n)), Nat.add_zero]

theorem withField_field (lo n : Nat) : withField e lo n v / 2 ^ lo % 2 ^ n = v % 2 ^ n := by
  rw [withField_div_lo, Nat.mul_add_mod, Nat.mod_mod]

/-- A field that ends at or below `lo` is told by the bits below `lo`. -/
theorem field_of_mod (x : Nat) (h : lo' + n' ≤ lo) : x / 2 ^ lo' % 2 ^ n' = x % 2 ^ lo / 2 ^ lo' % 2 ^ n' := by
  rw [← Nat.mod_mul_right_div_self, ← Nat.mod_mul_right_div_self, ← Nat.pow_add, Nat.mod_mod_of_dvd _ (Nat.pow_dvd_pow 2 h)]

/-- A field that begins at or above `k` is told by the bits from `k` on. -/
theorem field_of_div (x : Nat) {k : Nat} (h : k ≤ lo') : x / 2 ^ lo' = x / 2 ^ k / 2 ^ (lo' - k) := by
  rw [Nat.div_div_eq_div_mul, ← Nat.pow_add, Nat.add_sub_cancel' h]

theorem withField_field_of_disjoint (h : lo' + n' ≤ lo ∨ lo + n ≤ lo') :
    withField e lo n v / 2 ^ lo' % 2 ^ n' = e / 2 ^ lo' % 2 ^ n' := by
  rcases h with h | h
  · rw [field_of_mod _ h, withField_mod, ← field_of_mod _ h]
  · rw [field_of_div _ h, withField_div, ← field_of_div _ h]

theorem withField_lt {w : Nat} (h : lo + n ≤ w) (he : e < 2 ^ w) : withField e lo n v < 2 ^ w := by
  have hw : 2 ^ (w - (lo + n)) * 2 ^ (lo + n) = 2 ^ w := by rw [← Nat.pow_add, Nat.sub_add_cancel h]
  rw [← hw, ← Nat.div_lt_iff_lt_mul (Nat.two_pow_pos _), withField_div, Nat.div_lt_iff_lt_mul (Nat.two_pow_pos _), hw]
  exact he

end

/-! ### The heap read back after its writes -/

theorem mem_numbered {a k : Nat} {bs : List Byte} (h : k < bs.length) : (a + k, bs[k]) ∈ numbered a bs := by
  induction bs generalizing a k with
  | nil => exact absurd h (Nat.not_lt_zero k)
  | cons b bs ih =>
    cases k with
    | zero => exact List.mem_cons_self
    | succ k =>
      have hk := ih (a := a + 1) (Nat.lt_of_succ_lt_succ h)
      rw [Nat.add_right_comm] at hk
      exact List.mem_cons_of_mem _ hk

/-- An address without an entry reads as blank. -/
theorem Memory.read_absent {m : Memory} {a : Nat} (h : ∀ e ∈ m, e.1 ≠ a) : m.read a = 0 := by
  induction m with
  | nil => rfl
  | cons e m ih =>
    rw [Memory.read, if_neg (h e List.mem_cons_self)]
    exact ih fun e' he' => h e' (List.mem_cons_of_mem _ he')

/-- When every write to an address writes the same byte, and there is one or the byte was there, the address reads that byte. -/
theorem Memory.read_writeAll_agree {m : Memory} {l : List (Nat × Byte)} {a : Nat} {b : Byte} (hm : m.wf = true)
    (hl : ∀ e ∈ l, e.1 = a → e.2 = b) (h : m.read a = b ∨ ∃ e ∈ l, e.1 = a) : (m.writeAll l).read a = b := by
  induction l generalizing m with
  | nil => exact h.resolve_right fun ⟨e, he, _⟩ => absurd he List.not_mem_nil
  | cons e l ih =>
    refine ih (Memory.wf_write _ _ hm) (fun e' he' => hl e' (List.mem_cons_of_mem _ he')) ?_
    rw [Memory.read_write _ _ _ hm]
    split
    next hae => exact .inl (hl e List.mem_cons_self hae.symm)
    next hae =>
      refine h.imp_right fun ⟨e', he', hea⟩ => ?_
      rcases List.mem_cons.1 he' with rfl | he'
      · exact absurd hea.symm hae
      · exact ⟨e', he', hea⟩

section

variable {s u : State} {pa : Nat}

theorem State.heap_wf (h : s.memOk = true) : s.heap.wf = true := (s.memOk_iff_canon.1 h).1

theorem State.heapByte_congr (hh : u.heap = s.heap) (hb : u.heapBad = s.heapBad) (a : Nat) : u.heapByte a = s.heapByte a := by
  rw [State.heapByte, State.heapByte, hh, hb]

theorem State.pte_congr (hh : u.heap = s.heap) (hb : u.heapBad = s.heapBad) (pa : Nat) : u.pte pa = s.pte pa := by
  simp only [State.pte, State.heapRun, State.heapByte_congr hh hb]

theorem State.pte_lt (s : State) (pa : Nat) : s.pte pa < 2 ^ 64 := by
  have h := leNat_lt (s.heapRun pa 8)
  simp only [State.heapRun, List.length_map, List.length_range] at h
  exact h

/-- Consecutive bytes written to the heap read back, also where an error stood. -/
theorem State.heapByte_writeHeap {bs : List Byte} {k : Nat} (hw : s.heap.wf = true) (hk : k < bs.length) :
    (s.writeHeap (numbered pa bs)).heapByte (pa + k) = bs[k] := by
  have hb : (s.writeHeap (numbered pa bs)).heapBad.contains ((pa + k) / 4) = false := by
    simp only [State.writeHeap, List.contains_eq_mem, List.mem_filter, decide_eq_false_iff_not, Bool.not_eq_true', not_and,
      Bool.not_eq_false, List.any_eq_true]
    exact fun _ => ⟨_, mem_numbered hk, beq_self_eq_true _⟩
  rw [State.heapByte, hb, if_neg Bool.false_ne_true]
  exact Memory.read_writeN_in pa bs k hw hk

theorem State.pte_writeHeap (hw : s.heap.wf = true) {w : Nat} (h : w < 2 ^ 64) : (s.writeHeap (numbered pa (leBytes 8 w))).pte pa = w := by
  have hr : (s.writeHeap (numbered pa (leBytes 8 w))).heapRun pa 8 = leBytes 8 w := by
    refine List.ext_getElem (by simp [State.heapRun]) fun k _ hk => ?_
    simp only [State.heapRun, List.getElem_map, List.getElem_range]
    exact State.heapByte_writeHeap hw hk
  rw [State.pte, hr, leNat_leBytes_of_lt h]

/-! ### A leaf written (R199) -/

section

variable {lo n : Nat} (v : Nat)

theorem State.setLeaf_heap_wf (lo n : Nat) (hw : s.heap.wf = true) : (s.setLeaf pa lo n v).heap.wf = true := Memory.wf_writeAll _ hw

theorem State.pte_setLeaf (hw : s.heap.wf = true) (h : lo + n ≤ 64) : (s.setLeaf pa lo n v).pte pa = withField (s.pte pa) lo n v :=
  State.pte_writeHeap hw (withField_lt _ _ h (s.pte_lt pa))

theorem State.setLeaf_field (hw : s.heap.wf = true) (h : lo + n ≤ 64) : (s.setLeaf pa lo n v).pte pa / 2 ^ lo % 2 ^ n = v % 2 ^ n := by
  rw [State.pte_setLeaf v hw h, withField_field]

theorem State.setLeaf_bit (lo : Nat) (hw : s.heap.wf = true) (h : lo < 64) : (s.setLeaf pa lo 1 v).pte pa / 2 ^ lo % 2 = v % 2 := by
  have hf := State.setLeaf_field (pa := pa) (lo := lo) (n := 1) v hw (Nat.succ_le_of_lt h)
  rwa [Nat.pow_one] at hf

theorem State.setLeaf_field_of_disjoint {lo' n' : Nat} (hw : s.heap.wf = true) (h : lo + n ≤ 64) (hd : lo' + n' ≤ lo ∨ lo + n ≤ lo') :
    (s.setLeaf pa lo n v).pte pa / 2 ^ lo' % 2 ^ n' = s.pte pa / 2 ^ lo' % 2 ^ n' := by
  rw [State.pte_setLeaf v hw h, withField_field_of_disjoint _ _ hd]

theorem State.setLeaf_read (lo n : Nat) (hw : s.heap.wf = true) {a : Nat} (ha : a < pa ∨ pa + 8 ≤ a) :
    (s.setLeaf pa lo n v).heap.read a = s.heap.read a :=
  Memory.read_writeN_out pa _ a hw (by rw [length_leBytes]; exact ha)

end

/-! ### Page requests (R199 to R202, R240) -/

theorem State.leafAt_bump (va n lvl tab : Nat) : s.bump.leafAt va n lvl tab = s.leafAt va n lvl tab := by
  induction n generalizing lvl tab with
  | zero => rfl
  | succ n ih =>
    simp only [State.leafAt, ih]
    rfl

theorem State.leafOf_bump (l va : Nat) : s.bump.leafOf l va = s.leafOf l va := by
  simp only [State.leafOf, State.leafAt_bump, State.bump_roots]

theorem State.pageSettled_pageReqs (l : Nat) (va : VAddr) : ∀ r ∈ (s.pageSettled l va).pageReqs, ¬ (r.1 = l ∧ r.2.1 = va) := by
  rintro r hr ⟨rfl, rfl⟩
  simp [State.pageSettled] at hr

theorem State.pageSettled_pte (l : Nat) (va : VAddr) : (s.pageSettled l va).pte pa = s.pte pa := State.pte_congr rfl rfl pa
theorem State.pte_of_moves_tiles (ms : List PageMove) (ts : List (TileId × Tile)) : State.pte { s with moves := ms, tiles := ts } pa = s.pte pa :=
  State.pte_congr rfl rfl pa
theorem State.invalidate_pte (l : BitVec 16) (va : VAddr) : (s.invalidate l va).pte pa = s.pte pa := State.pte_congr rfl rfl pa

theorem State.servePage_pageReqs (l : BitVec 16) (va : VAddr) : ∀ r ∈ (s.servePage l va).pageReqs, ¬ (r.1 = l.toNat ∧ r.2.1 = va) := by
  unfold State.servePage
  split
  · exact State.pageSettled_pageReqs l.toNat va
  · exact State.pageSettled_pageReqs (s := s.setLeaf _ 4 1 1) l.toNat va

/-- A page that is served is resident. -/
theorem State.servePage_res {l : BitVec 16} {va : VAddr} (hw : s.heap.wf = true) (h : s.leafOf l.toNat va.toNat = some pa) :
    (s.servePage l va).pte pa / 2 ^ 4 % 2 = 1 := by
  simp only [State.servePage, h]
  rw [State.invalidate_pte, State.pageSettled_pte, State.setLeaf_bit 1 4 hw (by decide)]

theorem State.asking_ask (fn : Nat) (body : List Byte) (h : fn < 256) : (s.ask fn body).asking fn body = true := by
  unfold State.ask
  split
  next ha => exact ha
  next => simp [State.asking, Nat.mod_eq_of_lt h]

theorem State.ask_frame (fn : Nat) (body : List Byte) :
    { s.ask fn body with assists := s.assists, nextAssist := s.nextAssist } = s := by
  unfold State.ask
  split <;> rfl

section

variable {l : BitVec 16} {va : VAddr} (hreq : ∃ r ∈ s.pageReqs, r.1 = l.toNat ∧ r.2.1 = va)
  (hask : s.asking fnPage (pageBody l.toNat va) = false)

include hreq hask

/-- A page request that neither waits for the host nor goes to it is settled by firmware, which serves it or refuses. -/
theorem execPageService_firmware (has : s.assisted fnPage = false) : exec (.pageService l va) s =
    .next (if Config.choice s.free % 2 = 0 then s.bump.servePage l va else s.bump.pageRefused l.toNat va) := by
  have hr : (s.pageReqs.any fun r => r.1 == l.toNat && r.2.1 == va) = true := by simpa using hreq
  show execPageService l va s = _
  simp only [execPageService, hr, hask, has, Bool.not_true, Bool.false_eq_true, if_false]
  split <;> rfl

theorem execPageService_assist (has : s.assisted fnPage = true) :
    exec (.pageService l va) s = .next (s.ask fnPage (pageBody l.toNat va)) := by
  have hr : (s.pageReqs.any fun r => r.1 == l.toNat && r.2.1 == va) = true := by simpa using hreq
  show execPageService l va s = _
  simp only [execPageService, hr, hask, has, Bool.not_true, Bool.false_eq_true, if_false, if_true]

end

/-! ### Page migration (R203) -/

/-- A frame's bytes are copied as reads see them. -/
theorem State.moveFrame_read (hw : s.heap.wf = true) {from_ to_ size i : Nat} (hi : i < size) :
    (s.moveFrame from_ to_ size).heap.read (to_ + i) = s.heapByte (from_ + i) := by
  refine Memory.read_writeAll_agree (Memory.wf_filter _ hw) ?_ ?_
  · intro e he hea
    obtain ⟨c, hc, rfl⟩ := List.mem_map.1 he
    obtain ⟨hlo, -⟩ : from_ ≤ c.1 ∧ c.1 < from_ + size := by simpa [inSpan] using (List.mem_filter.1 hc).2
    have hea : c.1 - from_ + to_ = to_ + i := hea
    rw [show from_ + i = c.1 by omega]
  · by_cases h : ∃ c ∈ s.heap, c.1 = from_ + i
    · obtain ⟨c, hc, hci⟩ := h
      refine .inr ⟨_, List.mem_map_of_mem (List.mem_filter.2 ⟨hc, ?_⟩), ?_⟩
      · simp only [inSpan, Bool.and_eq_true, decide_eq_true_eq]
        omega
      · show c.1 - from_ + to_ = to_ + i
        omega
    · have hold : s.heapByte (from_ + i) = 0 := by
        rw [State.heapByte, Memory.read_absent fun c hc hci => h ⟨c, hc, hci⟩, ite_self]
      refine .inl ((Memory.read_absent fun c hc hci => ?_).trans hold.symm)
      have hc' := (List.mem_filter.1 hc).2
      simp only [inSpan, hci, Nat.le_add_right, decide_true, Bool.true_and, Bool.not_eq_true', decide_eq_false_iff_not] at hc'
      omega

/-- A change that leaves the heap and the page moves as they were. -/
structure State.KeepsPages (s u : State) : Prop where
  heap : u.heap = s.heap
  heapBad : u.heapBad = s.heapBad
  moves : u.moves = s.moves

theorem State.KeepsPages.foldl {α : Type} {g : State → α → State} (hg : ∀ (u : State) a, u.KeepsPages (g u a)) (l : List α) (s : State) :
    s.KeepsPages (l.foldl g s) := by
  induction l generalizing s with
  | nil => exact ⟨rfl, rfl, rfl⟩
  | cons a l ih =>
    obtain ⟨h₁, h₂, h₃⟩ := hg s a
    obtain ⟨k₁, k₂, k₃⟩ := ih (g s a)
    exact ⟨k₁.trans h₁, k₂.trans h₂, k₃.trans h₃⟩

theorem State.releaseLines_keepsPages (s : State) (t : TileId) (ls : List Nat) (vb size : Nat) :
    s.KeepsPages (s.releaseLines t ls vb size) := by
  unfold State.releaseLines
  extract_lets x out s'
  split
  · exact ⟨rfl, rfl, rfl⟩
  · obtain ⟨h₁, h₂, h₃⟩ := State.KeepsPages.foldl
      (g := fun u (h : HeldLine) => u.askLine t h.ctx h.region h.pin (u.now + 1 + Config.codeLatency u.free) h.va)
      (fun _ _ => ⟨rfl, rfl, rfl⟩) (x.codeHeld.filter out) s'
    exact ⟨h₁, h₂, h₃⟩

theorem State.releaseLines_fold_keepsPages (s : State) (tiles : List (TileId × Tile)) (ts : List TileId) (ls : List Nat) (vb size : Nat) :
    s.KeepsPages (ts.foldl (fun s t => s.releaseLines t ls vb size) { s with tiles := tiles }) := by
  obtain ⟨h₁, h₂, h₃⟩ := State.KeepsPages.foldl (fun u t => u.releaseLines_keepsPages t ls vb size) ts { s with tiles := tiles }
  exact ⟨h₁, h₂, h₃⟩

/-- The state of a page move once its frame is copied and its leaf written. -/
def PageMove.moved (m : PageMove) (s : State) : State :=
  ((((State.setLeaf { s.moveFrame m.oldBase (m.stack.val * 2 ^ 36 + m.frame.toNat * 2 ^ 19) m.size with
    moves := s.moves.filter fun n => n != m } m.leafPa 12 6 m.stack.val).setLeaf m.leafPa 18 17 m.frame.toNat).setLeaf m.leafPa 9 3
    m.lc.toNat).setLeaf m.leafPa 5 1 0)

/-- What follows the copy releases held walks and lines and touches neither the heap nor the moves. -/
theorem execPageMigrationCopy_moved {m : PageMove} (h : s.moves.find? (fun n => n.ready s) = some m) :
    ∃ u, exec .pageMigrationCopy s = .next u ∧ (m.moved s).KeepsPages u := by
  show ∃ u, execPageMigrationCopy s = .next u ∧ _
  simp only [execPageMigrationCopy, h]
  exact ⟨_, rfl, State.releaseLines_fold_keepsPages (m.moved s) ..⟩

theorem PageMove.moved_moves (m : PageMove) : (m.moved s).moves = s.moves.filter fun n => n != m := rfl

theorem PageMove.moved_fields (m : PageMove) (hw : s.heap.wf = true) :
    (m.moved s).pte m.leafPa / 2 ^ 12 % 2 ^ 6 = m.stack.val ∧ (m.moved s).pte m.leafPa / 2 ^ 18 % 2 ^ 17 = m.frame.toNat ∧
      (m.moved s).pte m.leafPa / 2 ^ 9 % 2 ^ 3 = m.lc.toNat ∧ (m.moved s).pte m.leafPa / 2 ^ 5 % 2 = 0 := by
  unfold PageMove.moved
  generalize hs₁ : ({ s.moveFrame _ _ _ with moves := _ } : State) = s₁
  have h₁ : s₁.heap.wf = true := hs₁ ▸ Memory.wf_writeAll _ (Memory.wf_filter _ hw)
  have h₂ := State.setLeaf_heap_wf (pa := m.leafPa) m.stack.val 12 6 h₁
  have h₃ := State.setLeaf_heap_wf (pa := m.leafPa) m.frame.toNat 18 17 h₂
  have h₄ := State.setLeaf_heap_wf (pa := m.leafPa) m.lc.toNat 9 3 h₃
  refine ⟨?_, ?_, ?_, State.setLeaf_bit 0 5 h₄ (by decide)⟩
  · rw [State.setLeaf_field_of_disjoint _ h₄ (by decide) (by decide), State.setLeaf_field_of_disjoint _ h₃ (by decide) (by decide),
      State.setLeaf_field_of_disjoint _ h₂ (by decide) (by decide), State.setLeaf_field _ h₁ (by decide)]
    exact Nat.mod_eq_of_lt m.stack.isLt
  · rw [State.setLeaf_field_of_disjoint _ h₄ (by decide) (by decide), State.setLeaf_field_of_disjoint _ h₃ (by decide) (by decide),
      State.setLeaf_field _ h₂ (by decide)]
    exact Nat.mod_eq_of_lt m.frame.isLt
  · rw [State.setLeaf_field_of_disjoint _ h₄ (by decide) (by decide), State.setLeaf_field _ h₃ (by decide)]
    exact Nat.mod_eq_of_lt m.lc.isLt

/-- Outside the leaf the new frame reads as the old one did. -/
theorem PageMove.moved_read (m : PageMove) (hw : s.heap.wf = true) {i : Nat} (hi : i < m.size) {b : Nat}
    (hb : b = m.stack.val * 2 ^ 36 + m.frame.toNat * 2 ^ 19 + i) (ho : b < m.leafPa ∨ m.leafPa + 8 ≤ b) :
    (m.moved s).heap.read b = s.heapByte (m.oldBase + i) := by
  unfold PageMove.moved
  generalize hs₁ : ({ s.moveFrame _ _ _ with moves := _ } : State) = s₁
  have h₁ : s₁.heap.wf = true := hs₁ ▸ Memory.wf_writeAll _ (Memory.wf_filter _ hw)
  have h₂ := State.setLeaf_heap_wf (pa := m.leafPa) m.stack.val 12 6 h₁
  have h₃ := State.setLeaf_heap_wf (pa := m.leafPa) m.frame.toNat 18 17 h₂
  have h₄ := State.setLeaf_heap_wf (pa := m.leafPa) m.lc.toNat 9 3 h₃
  rw [State.setLeaf_read _ _ _ h₄ ho, State.setLeaf_read _ _ _ h₃ ho, State.setLeaf_read _ _ _ h₂ ho, State.setLeaf_read _ _ _ h₁ ho, hb,
    ← hs₁]
  exact State.moveFrame_read hw hi

/-- A page that starts to move has its leaf marked migrating. -/
theorem execPageMigration_marks {l : BitVec 16} {va : VAddr} {st : Fin 64} {fr : BitVec 17} {lc : BitVec 3} {p vb sz pb res w x nc k g}
    (hw : s.heap.wf = true) (hl : s.leafOf l.toNat va.toNat = some pa)
    (hx : leafXlate (s.pte pa) (3 - s.pte pa / 4 % 4) va.toNat = .ok p vb sz pb res w x nc k g false) :
    ∃ u n, exec (.pageMigration l va st fr lc) s = .next u ∧ u.moves = s.moves ++ [n] ∧ n.leafPa = pa ∧ n.stack = st ∧
      n.frame = fr ∧ n.lc = lc ∧ n.oldBase = pb ∧ u.pte pa / 2 ^ 5 % 2 = 1 := by
  show ∃ u n, execPageMigration l va st fr lc s = .next u ∧ _
  simp only [execPageMigration, hl, hx, Bool.false_eq_true, if_false]
  refine ⟨_, _, rfl, rfl, rfl, rfl, rfl, rfl, rfl, ?_⟩
  rw [State.invalidate_pte, State.pte_of_moves_tiles, State.setLeaf_bit 1 5 (State.setLeaf_heap_wf _ _ _ hw) (by decide)]

end

/-- Settles O46: the leaf's fields are read back one by one, and the copied frame byte by byte. -/
theorem pagesServedAndMoved : Obligations.PagesServedAndMoved := by
  unfold Obligations.PagesServedAndMoved
  intro s l va st fr lc pa m hm
  have hw := State.heap_wf hm
  refine ⟨fun hreq hask has => ?_, fun hreq hask has => ?_, fun _ _ _ _ _ _ _ _ _ _ hl hx => execPageMigration_marks hw hl hx, fun hr => ?_⟩
  · refine ⟨_, execPageService_firmware hreq hask has, ?_, fun hl hc => ?_⟩
    · split
      · exact State.servePage_pageReqs l va
      · exact State.pageSettled_pageReqs l.toNat va
    · rw [if_pos hc]
      exact State.servePage_res hw ((State.leafOf_bump ..).trans hl)
  · exact ⟨_, execPageService_assist hreq hask has, State.asking_ask _ _ (by decide), (congrArg State.pageReqs (State.ask_frame ..) :),
      (congrArg State.heap (State.ask_frame ..) :)⟩
  · obtain ⟨u, he, ⟨hheap, hbad, hmoves⟩⟩ := execPageMigrationCopy_moved hr
    obtain ⟨hst, hfr, hlc, hmig⟩ := m.moved_fields hw
    rw [← State.pte_congr hheap hbad] at hst hfr hlc hmig
    refine ⟨u, he, fun n hn => ?_, hst, hfr, hlc, hmig, ?_⟩
    · rw [hmoves, PageMove.moved_moves] at hn
      simpa using (List.mem_filter.1 hn).2
    · intro i hi b ho
      rw [hheap]
      exact m.moved_read hw hi rfl ho

end Sys2Proof.Machine

/-! ### Queues and slots (O47) -/

namespace Sys2Proof.Machine

-- one theorem at a time: many elaborations at once need more stacks than the memory limit holds
set_option Elab.async false

/-! ### The queue operations (R277 to R282) -/

section

variable (s : State) (q : Fin 256)

theorem State.post_queue (kind : Nat) (body : List Byte) : (s.post kind body).queue q = s.queue q :=
  congrArg (alGet · q.val UserQueue.reset) (congrArg State.queues (s.post_frame kind body) : _)

theorem State.post_slots (kind : Nat) (body : List Byte) : (s.post kind body).slots = s.slots :=
  (congrArg State.slots (s.post_frame kind body) :)

/-- A queue is as its entry was set last. -/
theorem State.queue_of_alSet {t : State} {l : List (Nat × UserQueue)} {q : Fin 256} {u : UserQueue} (h : t.queues = alSet l q.val u) :
    t.queue q = u := by
  rw [State.queue, h, alGet_alSet_self]

/-- A queue that joins the pending list: its state and the list change, and nothing else. -/
theorem State.pendQueue_eq : ∃ l, q ∈ l ∧ s.pendingQ ⊆ l ∧ s.pendQueue q = { s.modQueue q fun u => { u with qst := .pending } with pendingQ := l } := by
  unfold State.pendQueue
  extract_lets t
  split
  case isTrue h => exact ⟨t.pendingQ, by simpa using h, fun _ hr => hr, rfl⟩
  case isFalse => exact ⟨t.pendingQ ++ [q], by simp, List.subset_append_left .., rfl⟩

@[simp] theorem State.pendQueue_queue : (s.pendQueue q).queue q = { s.queue q with qst := .pending } := by
  obtain ⟨l, -, -, h⟩ := s.pendQueue_eq q
  rw [h]
  exact State.queue_of_alSet rfl

theorem State.pendQueue_queue_ne {r : Fin 256} (hr : r ≠ q) : (s.pendQueue q).queue r = s.queue r := by
  obtain ⟨l, -, -, h⟩ := s.pendQueue_eq q
  rw [h]
  exact alGet_alSet_ne _ _ _ fun e => hr (Fin.ext e)

theorem State.mem_pendQueue : q ∈ (s.pendQueue q).pendingQ := by
  obtain ⟨l, hl, -, h⟩ := s.pendQueue_eq q
  rw [h]
  exact hl

theorem State.pendingQ_subset_pendQueue : s.pendingQ ⊆ (s.pendQueue q).pendingQ := by
  obtain ⟨l, -, hl, h⟩ := s.pendQueue_eq q
  rw [h]
  exact hl

theorem State.modSlot_slots_self (k : Fin 32) (f : HwSlot → HwSlot) : (s.modSlot k f).slots[k] = f s.slots[k] := vset_self ..

theorem State.modSlot_slots_ne {j k : Fin 32} (f : HwSlot → HwSlot) (h : j ≠ k) : (s.modSlot k f).slots[j] = s.slots[j] := vset_ne _ _ h

@[simp] theorem State.unmap_queue (k : Fin 32) (st : QState) :
    (s.unmap k q st).queue q = { s.queue q with qst := st, qslot := 0xFFFF, quse := BitVec.ofNat 64 s.slots[k].u } :=
  State.queue_of_alSet rfl

theorem State.unmap_slot (k : Fin 32) (st : QState) : (s.unmap k q st).slots[k].queue = none := by
  show (vset s.slots k _)[k].queue = none
  rw [vset_self]

end

/-! ### Doorbells (R277) -/

section

variable {s : State} {q : Fin 256} {tail : Word} (hen : (s.queue q).en = true) (h0 : (tail - (s.queue q).qtail).toNat ≠ 0)
  (h31 : (tail - (s.queue q).qtail).toNat < 2 ^ 31)
include hen h0 h31

/-- A doorbell within the ring raises the tail; an idle queue that was not unmapped on this tick is pending. -/
theorem execDoorbell_raises (hin : (tail - (s.queue q).qhead).toNat ≤ 2 ^ (s.queue q).lsz.toNat) :
    ∃ t, exec (.doorbell q tail) s = .next t ∧ (t.queue q).qtail = tail ∧
      ((s.queue q).qst = .idle → q ∉ s.unmapped → (t.queue q).qst = .pending ∧ q ∈ t.pendingQ) := by
  show ∃ t, execDoorbell q tail s = .next t ∧ _
  have hrise : ¬ ((tail - (s.queue q).qtail).toNat = 0 ∨ 2 ^ 31 ≤ (tail - (s.queue q).qtail).toNat) := by omega
  simp only [execDoorbell, hen, Bool.not_true, Bool.false_eq_true, if_false, hrise, UserQueue.size, Nat.not_lt.2 hin]
  split
  case isTrue => exact ⟨_, rfl, by simp, fun _ _ => ⟨by simp, State.mem_pendQueue ..⟩⟩
  case isFalse h => exact ⟨_, rfl, by simp, fun hi hu => absurd ⟨hi, by simpa [State.modQueue] using hu⟩ h⟩

/-- One beyond the ring is reported, and the queue stays. -/
theorem execDoorbell_beyond (hout : 2 ^ (s.queue q).lsz.toNat < (tail - (s.queue q).qhead).toNat) :
    ∃ t, exec (.doorbell q tail) s = .next t ∧ t.queue q = s.queue q := by
  show ∃ t, execDoorbell q tail s = .next t ∧ _
  have hrise : ¬ ((tail - (s.queue q).qtail).toNat = 0 ∨ 2 ^ 31 ≤ (tail - (s.queue q).qtail).toNat) := by omega
  simp only [execDoorbell, hen, Bool.not_true, Bool.false_eq_true, if_false, hrise, UserQueue.size, hout, if_true]
  exact ⟨_, rfl, s.post_queue ..⟩

end

/-! ### Slots (R279 to R281) -/

section

variable {s : State} {q : Fin 256} {k : Fin 32}

theorem execSlotMap_maps {l : List (Fin 256)} (hp : s.pendingQ = q :: l) (hf : s.slots[k].queue = none) :
    ∃ t, exec (.slotMap k) s = .next t ∧ t.pendingQ = l ∧ t.slots[k].queue = some q ∧ t.slots[k].ready = s.now + 33 ∧
      (t.queue q).qst = .mapped ∧ (t.queue q).qslot = BitVec.ofNat 16 k.val ∧ ∀ j, j ≠ k → t.slots[j] = s.slots[j] := by
  show ∃ t, execSlotMap k s = .next t ∧ _
  simp only [execSlotMap, hp, hf]
  refine ⟨_, rfl, rfl, ?_, ?_, ?_, ?_, fun j hj => State.modSlot_slots_ne _ _ hj⟩
  · rw [State.modSlot_slots_self]
  · rw [State.modSlot_slots_self]; rfl
  · rw [State.queue_of_alSet (u := { s.queue q with qst := .mapped, qslot := BitVec.ofNat 16 k.val }) rfl]
  · rw [State.queue_of_alSet (u := { s.queue q with qst := .mapped, qslot := BitVec.ofNat 16 k.val }) rfl]

variable (hs : s.slots[k].queue = some q)
include hs

theorem execIdleUnmap_leaves :
    ∃ t, exec (.idleUnmap k) s = .next t ∧ t.slots[k].queue = none ∧ (t.queue q).qst = .idle ∧ (t.queue q).qslot = 0xFFFF := by
  refine ⟨s.unmap k q .idle, ?_, s.unmap_slot .., by simp, by simp⟩
  show execIdleUnmap k s = _
  simp only [execIdleUnmap, hs]

variable {b : Nat} (hb : s.slots[k].blockedAt = some b)
include hb

theorem execBlockedUnmap_leaves (hn : b + 2 ^ 20 ≤ s.now) :
    ∃ t, exec (.blockedUnmap k) s = .next t ∧ t.slots[k].queue = none ∧ (t.queue q).qst = .blocked := by
  refine ⟨(s.unmap k q .blocked).post 1 (queueBody q (s.queue q).started), ?_, ?_, ?_⟩
  · show execBlockedUnmap k s = _
    simp only [execBlockedUnmap, hs]
    rw [hb, Option.any_some, if_pos (decide_eq_true hn)]
  · rw [State.post_slots, State.unmap_slot]
  · rw [State.post_queue, State.unmap_queue]

theorem execBlockedUnmap_stays (hn : s.now < b + 2 ^ 20) : exec (.blockedUnmap k) s = .next s := by
  show execBlockedUnmap k s = _
  simp only [execBlockedUnmap, hs]
  rw [hb, Option.any_some, if_neg (by simpa using hn)]

end

/-! ### Enabling and disabling (R392) -/

section

variable {s : State} {q : Fin 256}

theorem execQueueEnable_enables (hen : (s.queue q).en = false) (hl : 4 ≤ (s.queue q).lsz.toNat) (hl' : (s.queue q).lsz.toNat ≤ 16)
    (hf : 4 ≤ (s.queue q).flsz.toNat) (hf' : (s.queue q).flsz.toNat ≤ 16) :
    ∃ t, exec (.queueEnable q) s = .next t ∧ (t.queue q).en = true ∧ (t.queue q).qhead = 0 ∧ (t.queue q).qtail = 0 ∧
      (t.queue q).fcnt = 0 ∧ (t.queue q).qst = .idle ∧ (t.queue q).qbase = (s.queue q).qbase := by
  refine ⟨s.modQueue q fun u => { u with en := true, qhead := 0, qtail := 0, fcnt := 0, started := 0, done := [], qst := .idle, qslot := 0xFFFF },
    ?_, by simp⟩
  show execQueueEnable q s = _
  simp [execQueueEnable, hen, hl, hl', hf, hf']

theorem execQueueDisable_disables (hen : (s.queue q).en = true) (he : (s.queue q).qhead = (s.queue q).qtail) :
    ∃ t, exec (.queueDisable q) s = .next t ∧ (t.queue q).en = false ∧ q ∉ t.pendingQ := by
  show ∃ t, execQueueDisable q s = .next t ∧ _
  simp only [execQueueDisable, hen, he, Bool.not_true, bne_self_eq_false, Bool.or_self, Bool.false_eq_true, if_false]
  refine ⟨_, rfl, by rw [State.queue_modQueue], fun h => ?_⟩
  simpa using (List.mem_filter.1 h).2

end

/-- Settles O47: one lemma for each event of the host's queues. -/
theorem queuesAndSlots : Obligations.QueuesAndSlots := by
  unfold Obligations.QueuesAndSlots
  intro s q k tail l u
  refine ⟨fun hen h0 h31 => ⟨execDoorbell_raises hen h0 h31, execDoorbell_beyond hen h0 h31⟩, execSlotMap_maps, fun hs => ?_,
    execQueueEnable_enables, execQueueDisable_disables⟩
  exact ⟨execIdleUnmap_leaves hs, fun b hb => ⟨execBlockedUnmap_leaves hs hb, execBlockedUnmap_stays hs hb⟩⟩

end Sys2Proof.Machine

/-! ### The records of a queue (O48) -/

namespace Sys2Proof.Machine

-- one theorem at a time: many elaborations at once need more stacks than the memory limit holds
set_option Elab.async false

/-! ### A record that starts and completes later (R395) -/

/-- The head record has started, and its completion is due on a later tick with status 0. -/
def State.recordStarted (s t : State) (q : Fin 256) (i : Nat) : Prop :=
  (t.queue q).started = (s.queue q).started + 1 ∧ ∃ d, t.recs = s.recs ++ [d] ∧ d.queue = q ∧ d.idx = i ∧ d.status = 0

section

variable (s : State) (k : Fin 32) (q : Fin 256) (i : Nat) (r : List Byte) (st d at_ : Nat)

@[simp] theorem State.recordLater_host : (s.recordLater k q i r st d at_).host = s.host := rfl
@[simp] theorem State.recordLater_heap : (s.recordLater k q i r st d at_).heap = s.heap := rfl

end

theorem State.recordStarted_recordLater {s u : State} (hq : u.queues = s.queues) (hr : u.recs = s.recs) (k : Fin 32) (q : Fin 256) (i : Nat)
    (r : List Byte) (d at_ : Nat) : s.recordStarted (u.recordLater k q i r 0 d at_) q i := by
  have hu : u.queue q = s.queue q := by rw [State.queue, hq, State.queue]
  refine ⟨?_, _, congrArg (· ++ _) hr, rfl, rfl, rfl⟩
  exact (congrArg UserQueue.started (u.queue_started k q)).trans (congrArg (fun x : UserQueue => x.started + 1) hu)

/-! ### The bytes of a copied span (R395) -/

/-- A span that translates has a place for each of its bytes. -/
theorem length_of_mapM_ok {α β ε : Type} {f : α → Except ε β} {l : List α} {r : List β} (h : l.mapM f = .ok r) : r.length = l.length := by
  induction l generalizing r with
  | nil => cases h; rfl
  | cons a l ih =>
    rw [List.mapM_cons] at h
    cases ha : f a with
    | error e => rw [ha] at h; cases h
    | ok b =>
      cases hl : l.mapM f with
      | error e => rw [ha, hl] at h; cases h
      | ok bs =>
        rw [ha, hl] at h
        cases h
        rw [List.length_cons, List.length_cons, ih hl]

theorem State.length_of_recSpan {s : State} {d : HeapDesc} {need : Need} {va n : Nat} {pas : List (Nat × Bool)}
    (h : s.recSpan d need va n = .ok pas) : pas.length = n :=
  (length_of_mapM_ok h).trans (List.length_range ..)

theorem recField_lt (r : List Byte) (off n : Nat) : recField r off n < 256 ^ n :=
  (leNat_lt _).trans_le (Nat.pow_le_pow_right (by omega) (List.length_take_le ..))

/-- The bytes that a COPYH takes from the heap stand in the host's memory. -/
theorem State.hostRead_copied {s : State} {r : List Byte} (hw : s.host.wf = true) {d : HeapDesc} {va : Nat} {pas : List (Nat × Bool)}
    (hx : s.recSpan d .read va (recField r 24 4) = .ok pas) (g : Nat × Bool → Byte) :
    (s.hostWrite (recField r 8 8) (pas.map g)).hostRead (recField r 8 8) (recField r 24 4) = pas.map g := by
  have hl := State.length_of_recSpan hx
  have h4 : recField r 24 4 < 2 ^ 32 := recField_lt r 24 4
  rw [State.hostRead_hostWrite _ _ _ _ hw (by simp [hl]) (by rw [List.length_map, hl]; omega), List.take_of_length_le (by simp [hl])]

/-! ### What an image's sections change -/

/-- What every step of a fold keeps, the fold keeps. -/
theorem foldl_keeps {α β γ : Type} (g : β → γ) (f : β → α → β) (h : ∀ b a, g (f b a) = g b) (l : List α) (b : β) :
    g (l.foldl f b) = g b := by
  induction l generalizing b with
  | nil => rfl
  | cons a l ih => exact (ih (f b a)).trans (h b a)

section

variable (s : State) (secs : List Section)

theorem State.startScouts_frame : { s.startScouts secs with ports := s.ports } = s := by
  unfold State.startScouts
  refine foldl_keeps (fun u : State => { u with ports := s.ports }) _ ?_ _ s
  exact fun _ _ => rfl

theorem State.loadHives_frame : { s.loadHives secs with swarms := s.swarms } = s := by
  unfold State.loadHives
  refine foldl_keeps (fun u : State => { u with swarms := s.swarms }) _ ?_ _ s
  intro u e
  dsimp only
  split <;> rfl

/-- An image that LOAD accepts changes the scouts, the hives' entries, the heap and the images. -/
theorem State.loadImage_frame (handle occ ready : Nat) (ws : List (Nat × Byte)) :
    ∃ ps sws bad, s.loadImage handle occ ready secs ws =
      { s with ports := ps, swarms := sws, heap := s.heap.writeAll ws, heapBad := bad,
               images := s.images.filter (fun (i : Image) => i.handle != handle) ++ [⟨handle, ready, occ, secs⟩] } := by
  obtain ⟨sws, hs⟩ : ∃ sws, (s.startScouts secs).loadHives secs = { s.startScouts secs with swarms := sws } :=
    ⟨_, (congrArg (fun x : State => { x with swarms := ((s.startScouts secs).loadHives secs).swarms })
      ((s.startScouts secs).loadHives_frame secs) :)⟩
  obtain ⟨ps, hp⟩ : ∃ ps, s.startScouts secs = { s with ports := ps } :=
    ⟨_, (congrArg (fun x : State => { x with ports := (s.startScouts secs).ports }) (s.startScouts_frame secs) :)⟩
  rw [State.loadImage, hs, hp]
  exact ⟨_, _, _, rfl⟩

end

/-! ### The records -/

theorem waitReady_iff {s : State} {r : List Byte} : waitReady s r = true ↔
    (alGet s.tls (recField r 8 2) 0 - BitVec.ofNat 64 (recField r 16 8)).toNat < 2 ^ 63 := decide_eq_true_iff

theorem State.bound_iff (s : State) (handle : Nat) : s.bound handle = true ↔ ∃ l ∈ s.launches, l.handle = handle := by
  simp [State.bound]


section

variable {s : State} {k : Fin 32} {q : Fin 256} {i : Nat} {r : List Byte} (hh : s.headRecord k = some (q, i, r))
include hh

theorem State.withRecord_bad {off : Nat} (hb : badField r = some off) (op : Nat) (f : Fin 256 → Nat → List Byte → State) :
    s.withRecord k op f = .next (s.finishRecord k q i r 1 off) := by
  simp only [State.withRecord, hh, hb]

/-- A malformed record completes with status 1, whatever its kind (R394, R399). -/
theorem exec_malformedRecord {off : Nat} (hb : badField r = some off) {e : Instr}
    (he : e = .wait k ∨ e = .signal k ∨ e = .copyh k ∨ e = .load k ∨ e = .fenceRecord k ∨ e = .launch k) :
    exec e s = .next (s.finishRecord k q i r 1 off) := by
  rcases he with rfl | rfl | rfl | rfl | rfl | rfl <;> exact State.withRecord_bad hh hb _ _

variable (hb : badField r = none)
include hb

theorem exec_waitRecord (ho : recField r 0 1 = 3) :
    exec (.wait k) s = .next (if waitReady s r then s.finishRecord k q i r 0 0 else s.block k q r) :=
  State.withRecord_head hh hb ho _

theorem exec_fenceRecord (ho : recField r 0 1 = 6) :
    exec (.fenceRecord k) s = .next (if (s.queue q).qhead.toNat = i then s.finishRecord k q i r 0 0 else s.block k q r) :=
  State.withRecord_head hh hb ho _

/-- SIGNAL's advance joins those that are due later (R365, R395). -/
theorem exec_signal (ho : recField r 0 1 = 4) (hg : s.fw.gap = false) :
    ∃ t a, exec (.signal k) s = .next t ∧ s.recordStarted t q i ∧ t.advances = s.advances ++ [a] ∧
      a.tl.val = recField r 8 2 % 1024 ∧ a.amount = BitVec.ofNat 64 (recField r 16 8) ∧ a.src = none := by
  have he : exec (.signal k) s = _ := State.withRecord_head hh hb ho _
  rw [hg] at he
  exact ⟨_, _, he, State.recordStarted_recordLater (by rfl) (by rfl) .., rfl, rfl, rfl, rfl⟩

/-! ### COPYH (R395; log 73) -/

section

variable (ho : recField r 0 1 = 5) (hd : s.hold = false)
include ho hd

theorem exec_copyh_empty (hn : recField r 24 4 = 0) : exec (.copyh k) s = .next (s.finishRecord k q i r 0 0) := by
  show execCopyh k s = _
  rw [execCopyh, State.withRecord_head hh hb ho]
  simp only [hd, hn, Bool.false_eq_true, if_false, if_true]

variable (hn : recField r 24 4 ≠ 0)
include hn

theorem exec_copyh_hostFails (hf : Config.hostFails s.free = true) :
    exec (.copyh k) s = .next (s.finishRecord k q i r 6 (Config.choice s.free % 16)).bump := by
  show execCopyh k s = _
  rw [execCopyh, State.withRecord_head hh hb ho]
  simp only [hd, hn, hf, Bool.false_eq_true, if_false, if_true]

variable (hf : Config.hostFails s.free = false)
include hf

theorem exec_copyh_refused {rsn : Nat} (hx : s.recSpan (descOf r) (if recField r 1 1 / 2 % 2 = 1 then .read else .write)
    (recField r 16 8 % 2 ^ 48) (recField r 24 4) = .error rsn) : exec (.copyh k) s = .next (s.finishRecord k q i r 6 rsn) := by
  show execCopyh k s = _
  rw [execCopyh, State.withRecord_head hh hb ho]
  simp only [hd, hn, hf, beq_iff_eq, Bool.false_eq_true, if_false, hx]

/-- A copy to the host leaves the heap. -/
theorem exec_copyh_toHost {pas : List (Nat × Bool)} (hm : s.host.wf = true) (hw : recField r 1 1 / 2 % 2 = 1)
    (hx : s.recSpan (descOf r) .read (recField r 16 8 % 2 ^ 48) (recField r 24 4) = .ok pas) :
    ∃ t, exec (.copyh k) s = .next t ∧ s.recordStarted t q i ∧ t.heap = s.heap ∧
      t.hostRead (recField r 8 8) (recField r 24 4) = pas.map fun p => if p.2 then s.heapByte p.1 else 0 := by
  refine ⟨(s.hostWrite (recField r 8 8) (pas.map fun p => if p.2 then s.heapByte p.1 else 0)).bump.recordLater k q i r 0 0
    (s.now + 1 + Config.recordLatency s.free), ?_, State.recordStarted_recordLater (by rfl) (by rfl) .., ?_, ?_⟩
  · show execCopyh k s = _
    rw [execCopyh, State.withRecord_head hh hb ho]
    simp only [hd, hn, hf, hw, beq_self_eq_true, Bool.false_eq_true, if_false, if_true, hx]
  · rw [State.recordLater_heap]
    rfl
  · rw [State.hostRead_congr (State.recordLater_host ..)]
    exact s.hostRead_copied hm hx _

/-- One to the heap leaves the host's memory. -/
theorem exec_copyh_toHeap {pas : List (Nat × Bool)} (hw : recField r 1 1 / 2 % 2 = 0)
    (hx : s.recSpan (descOf r) .write (recField r 16 8 % 2 ^ 48) (recField r 24 4) = .ok pas) :
    ∃ t, exec (.copyh k) s = .next t ∧ s.recordStarted t q i ∧ t.host = s.host ∧
      t.heap = s.heap.writeAll ((pas.map Prod.fst).zip (s.hostRead (recField r 8 8) (recField r 24 4))) := by
  refine ⟨(s.writeHeap ((pas.map Prod.fst).zip (s.hostRead (recField r 8 8) (recField r 24 4)))).bump.recordLater k q i r 0 0
    (s.now + 1 + Config.recordLatency s.free), ?_, State.recordStarted_recordLater (by rfl) (by rfl) .., ?_, rfl⟩
  · show execCopyh k s = _
    rw [execCopyh, State.withRecord_head hh hb ho]
    simp only [hd, hn, hf, hw, Nat.reduceBEq, Bool.false_eq_true, if_false, hx]
  · rw [State.recordLater_host]
    rfl

end

/-! ### LOAD (R395, R396; log 58) -/

section

variable (ho : recField r 0 1 = 1) (hd : s.hold = false)
include ho hd

theorem exec_load_zeroHandle (hz : recField r 20 2 = 0) : exec (.load k) s = .next (s.finishRecord k q i r 1 20) := by
  show execLoad k s = _
  rw [execLoad, State.withRecord_head hh hb ho]
  simp only [hd, hz, Bool.false_eq_true, if_false, if_true]

variable (hz : recField r 20 2 ≠ 0)
include hz

theorem exec_load_bound (hl : s.bound (recField r 20 2) = true) : exec (.load k) s = .next (s.block k q r) := by
  show execLoad k s = _
  rw [execLoad, State.withRecord_head hh hb ho]
  simp only [hd, hz, hl, Bool.false_eq_true, if_false, if_true]

variable (hl : s.bound (recField r 20 2) = false)
include hl

theorem exec_load_hostFails (hf : Config.hostFails s.free = true) :
    exec (.load k) s = .next (s.finishRecord k q i r 6 (Config.choice s.free % 16)).bump := by
  show execLoad k s = _
  rw [execLoad, State.withRecord_head hh hb ho]
  simp only [hd, hz, hl, hf, Bool.false_eq_true, if_false, if_true]

/-- A file that LOAD accepts: its sections are written to the heap, and the image is kept under its handle. -/
theorem exec_load_loads (hf : Config.hostFails s.free = false) {file : List Byte} {ws : List (Nat × Byte)}
    (hr : s.hostRead (recField r 8 8) (recField r 16 4) = file) (hfile : badFile file = none) (himg : s.badImage (sectionsOf file) = none)
    (hws : s.sectionWrites (descOf r) (sectionsOf file) = .ok ws) :
    ∃ t img, exec (.load k) s = .next t ∧ s.recordStarted t q i ∧ img ∈ t.images ∧ img.handle = recField r 20 2 ∧
      img.sections = sectionsOf file ∧ t.heap = s.heap.writeAll ws := by
  have he : exec (.load k) s = .next ((s.loadImage (recField r 20 2) (recField file 32 8) (s.now + 1 + Config.recordLatency s.free)
      (sectionsOf file) ws).bump.recordLater k q i r 0 0 (s.now + 1 + Config.recordLatency s.free)) := by
    show execLoad k s = _
    rw [execLoad, State.withRecord_head hh hb ho]
    simp only [hd, hz, hl, hf, Bool.false_eq_true, if_false, hr, hfile, himg, hws]
  obtain ⟨ps, sws, bad, hi⟩ := s.loadImage_frame (sectionsOf file) (recField r 20 2) (recField file 32 8)
    (s.now + 1 + Config.recordLatency s.free) ws
  rw [hi] at he
  exact ⟨_, _, he, State.recordStarted_recordLater (by rfl) (by rfl) .., List.mem_append_right _ (List.mem_singleton_self _), rfl, rfl, rfl⟩

end

end

/-- Settles O48: each record at its slot's head, by its kind. -/
theorem recordsRun : Obligations.RecordsRun := by
  unfold Obligations.RecordsRun
  intro s k q i r hm hh n ends waits starts reached
  have hw := s.memOk_host hm
  have done (st d : Nat) : ends (.next (s.finishRecord k q i r st d)) st := ⟨_, rfl, s.recordDone_finishRecord k q i r st d hw⟩
  have blocked : waits (.next (s.block k q r)) := ⟨_, rfl, s.recordWaits_block k q r⟩
  refine ⟨fun off hb e he => ?_, fun hb => ⟨fun ho => ⟨fun hr => ?_, fun hr => ?_⟩, exec_signal hh hb, fun ho => ⟨fun hq => ?_, fun hq => ?_⟩,
    fun ho hd => ⟨fun hn => ?_, fun hn => ?_⟩, fun ho hd => ⟨fun hz => ?_, fun hz hl => ?_, fun hz hl => ?_⟩⟩⟩
  · rw [exec_malformedRecord hh hb he]
    exact done 1 off
  · rw [exec_waitRecord hh hb ho, if_pos (waitReady_iff.2 hr)]
    exact done 0 0
  · rw [exec_waitRecord hh hb ho, if_neg (mt waitReady_iff.1 hr)]
    exact blocked
  · rw [exec_fenceRecord hh hb ho, if_pos hq]
    exact done 0 0
  · rw [exec_fenceRecord hh hb ho, if_neg hq]
    exact blocked
  · rw [exec_copyh_empty hh hb ho hd hn]
    exact done 0 0
  · split
    case isTrue hf =>
      rw [exec_copyh_hostFails hh hb ho hd hn hf]
      exact ⟨_, rfl, s.recordDone_finishRecord k q i r 6 _ hw⟩
    case isFalse hf =>
      have hf := Bool.eq_false_iff.2 hf
      refine fun pas => ⟨exec_copyh_toHost hh hb ho hd hn hf hw, exec_copyh_toHeap hh hb ho hd hn hf, fun rsn hx => ?_⟩
      rw [exec_copyh_refused hh hb ho hd hn hf hx]
      exact done 6 rsn
  · rw [exec_load_zeroHandle hh hb ho hd hz]
    exact done 1 20
  · rw [exec_load_bound hh hb ho hd hz ((s.bound_iff _).2 hl)]
    exact blocked
  · have hl : s.bound (recField r 20 2) = false := Bool.eq_false_iff.2 fun h => by
      obtain ⟨l, hm, he⟩ := (s.bound_iff _).1 h
      exact hl l hm he
    split
    case isTrue hf =>
      rw [exec_load_hostFails hh hb ho hd hz hl hf]
      exact ⟨_, rfl, s.recordDone_finishRecord k q i r 6 _ hw⟩
    case isFalse hf =>
      exact fun hfile himg ws hws => exec_load_loads hh hb ho hd hz hl (Bool.eq_false_iff.2 hf) rfl hfile himg hws

end Sys2Proof.Machine

/-! ### Timelines (O50) -/

namespace Sys2Proof.Machine

-- one theorem at a time: many elaborations at once need more stacks than the memory limit holds
set_option Elab.async false

/-! ### Advances (R365, R366) -/

/-- What a timeline gains of a list of advances. -/
def gained (l : List (Fin 1024 × BitVec 64)) (k : Fin 1024) : BitVec 64 := ((l.filter fun a => a.1 == k).map Prod.snd).sum

theorem gained_cons (a : Fin 1024 × BitVec 64) (l : List (Fin 1024 × BitVec 64)) (k : Fin 1024) :
    gained (a :: l) k = (if a.1 = k then a.2 else 0) + gained l k := by
  by_cases h : a.1 = k <;> simp [gained, h]

/-- Advances of nothing count for nothing. -/
theorem gained_filter_ne_zero (l : List (Fin 1024 × BitVec 64)) (k : Fin 1024) : gained (l.filter fun a => a.2 != 0) k = gained l k := by
  induction l with
  | nil => rfl
  | cons a l ih =>
    by_cases h : a.2 = 0
    · rw [List.filter_cons_of_neg (by simpa using h), ih, gained_cons, h]
      simp
    · rw [List.filter_cons_of_pos (by simpa using h), gained_cons, gained_cons, ih]

theorem alGet_foldl_add (l : List (Fin 1024 × BitVec 64)) (m : List (Nat × BitVec 64)) (k : Fin 1024) :
    alGet (l.foldl (fun m a => alSet m a.1.val (alGet m a.1.val 0 + a.2)) m) k.val 0 = alGet m k.val 0 + gained l k := by
  induction l generalizing m with
  | nil => exact (BitVec.add_zero _).symm
  | cons a l ih =>
    rw [List.foldl_cons, ih, gained_cons, ← BitVec.add_assoc]
    congr 1
    by_cases h : a.1 = k
    · rw [if_pos h, ← h, alGet_alSet_self]
    · rw [if_neg h, alGet_alSet_ne _ _ _ fun e => h (Fin.ext e.symm)]
      exact (BitVec.add_zero _).symm

section

variable (s : State) (l : List (Fin 1024 × BitVec 64))

theorem State.applyAdvances_advances : (s.applyAdvances l).advances = s.advances := by
  unfold State.applyAdvances
  extract_lets l' tls s₁ s₂
  split
  · rfl
  · exact foldl_keeps State.advances State.deliverTl (fun _ _ => rfl) _ s₁

/-- They add modulo 2^64. -/
theorem State.applyAdvances_tls (k : Fin 1024) : alGet (s.applyAdvances l).tls k.val 0 = alGet s.tls k.val 0 + gained l k := by
  rw [← gained_filter_ne_zero]
  unfold State.applyAdvances
  extract_lets l' tls s₁ s₂
  split
  case isTrue h => rw [show l.filter (fun a => a.2 != 0) = [] from List.isEmpty_iff.1 h]; exact (BitVec.add_zero _).symm
  case isFalse =>
    have hs : s₂.tls = tls := foldl_keeps State.tls State.deliverTl (fun _ _ => rfl) _ s₁
    exact (congrArg (alGet · k.val 0) hs).trans (alGet_foldl_add l' s.tls k)

end

theorem State.dueAdvances_eq (s : State) : ∃ u : State, u.tls = s.tls ∧ u.advances = s.advances.filter (fun a => decide (s.now < a.due)) ∧
    s.dueAdvances = u.applyAdvances ((s.advances.filter fun a => decide (a.due ≤ s.now)).map fun a => (a.tl, a.amount)) := by
  unfold State.dueAdvances
  extract_lets due s₁ s₂
  have keeps {γ : Type} (g : State → γ) (h : ∀ u t f, g (State.modTile u t f) = g u) : g s₂ = g s₁ := by
    refine foldl_keeps g _ ?_ due s₁
    intro u a
    split
    · exact h ..
    · rfl
  exact ⟨s₂, keeps State.tls fun _ _ _ => rfl, keeps State.advances fun _ _ _ => rfl, rfl⟩

theorem gained_map_advances (l : List Advance) (k : Fin 1024) :
    gained (l.map fun a => (a.tl, a.amount)) k = ((l.filter fun a => a.tl == k).map Advance.amount).sum := by
  simp [gained, List.filter_map, Function.comp_def]

theorem gained_ones (l : List (Fin 1024 × Nat × Fin 256)) (k : Fin 1024) :
    gained (l.map fun e => (e.1, (1 : BitVec 64))) k = BitVec.ofNat 64 (l.filter fun e => e.1 == k).length := by
  induction l with
  | nil => rfl
  | cons e l ih =>
    rw [List.map_cons, gained_cons, ih]
    by_cases h : e.1 = k
    · simp [h, BitVec.ofNat_add, BitVec.add_comm]
    · simp [h]

section

variable (s : State)

theorem execTimelineAdvance_adds (k : Fin 1024) : ∃ u, exec .timelineAdvance s = .next u ∧
    alGet u.tls k.val 0 = alGet s.tls k.val 0 + ((s.advances.filter fun a => decide (a.due ≤ s.now) && a.tl == k).map Advance.amount).sum ∧
      ∀ a, a ∈ u.advances ↔ a ∈ s.advances ∧ s.now < a.due := by
  obtain ⟨v, htls, hadv, he⟩ := s.dueAdvances_eq
  refine ⟨s.dueAdvances, rfl, ?_, fun a => ?_⟩
  · rw [he, State.applyAdvances_tls, htls, gained_map_advances, List.filter_filter]
    simp only [Bool.and_comm]
  · rw [he, State.applyAdvances_advances, hadv, List.mem_filter, decide_eq_true_iff]

theorem execCompletionTimelineAdvance_adds (k : Fin 1024) : ∃ u, exec .completionTimelineAdvance s = .next u ∧
    alGet u.tls k.val 0 = alGet s.tls k.val 0 +
      BitVec.ofNat 64 (s.tlAfter.filter fun e => decide (e.2.1 ≤ s.now) && e.1 == k).length := by
  refine ⟨_, rfl, (State.applyAdvances_tls _ _ k).trans ?_⟩
  rw [gained_ones, List.filter_filter]
  simp only [Bool.and_comm]

/-! ### Values that reach a tile (R366) -/

theorem execTimelineDelivery_delivers {t : TileId} {d : Delivery}
    (hd : (s.deliveries.filter fun e => e.tile == t && decide (e.due ≤ s.now)) = [d]) :
    ∃ u, exec (.timelineDelivery t) s = .next u ∧ alGet (u.tile t).tls d.tl.val 0 = d.val ∧
      (∀ j, j ≠ d.tl.val → alGet (u.tile t).tls j 0 = alGet (s.tile t).tls j 0) ∧
      ∀ e ∈ u.deliveries, e ∈ s.deliveries ∧ (e.tile = t → s.now < e.due) := by
  show ∃ u, execTimelineDelivery t s = .next u ∧ _
  rw [execTimelineDelivery, hd]
  refine ⟨_, rfl, ?_, fun j hj => ?_, fun e he => ?_⟩
  · rw [State.tile_modTile]
    exact alGet_alSet_self ..
  · rw [State.tile_modTile]
    exact alGet_alSet_ne _ _ _ hj
  · obtain ⟨hm, hn⟩ := List.mem_filter.1 he
    refine ⟨hm, fun ht => ?_⟩
    simpa [ht] using hn

end

/-! ### Checks of a launch do not read the queues (R397) -/

section

variable (s : State) (qs : List (Nat × UserQueue)) (p : List (Fin 256))

theorem State.hops_queues (n : Nat) (t : TileId) (w : BitVec 64) : State.hops { s with queues := qs, pendingQ := p } n t w = s.hops n t w := by
  induction n generalizing t w with
  | zero => rfl
  | succ n ih =>
    simp only [State.hops, ih]
    rfl

theorem State.search_queues (goal : TileId) (n : Nat) (ps : List Path) :
    State.search { s with queues := qs, pendingQ := p } goal n ps = s.search goal n ps := by
  induction n generalizing ps with
  | zero => rfl
  | succ n ih =>
    have he : State.extend { s with queues := qs, pendingQ := p } goal ps = s.extend goal ps := rfl
    simp only [State.search, ih, he]

theorem State.routeEnd_queues (t : TileId) (w : BitVec 64) : State.routeEnd { s with queues := qs, pendingQ := p } t w = s.routeEnd t w := by
  simp only [State.routeEnd, State.routeHops, State.hops_queues]
  rfl

theorem State.fixRoute_queues (t : TileId) (w : BitVec 64) : State.fixRoute { s with queues := qs, pendingQ := p } t w = s.fixRoute t w := by
  have hb : State.badRoute { s with queues := qs, pendingQ := p } t w = s.badRoute t w := by
    simp only [State.badRoute, State.routeHops, State.hops_queues]
    rfl
  simp only [State.fixRoute, State.detour, State.search_queues, State.routeEnd_queues, hb]

theorem State.launchCheck_queues (l : Launch) : State.launchCheck { s with queues := qs, pendingQ := p } l = s.launchCheck l := by
  have hb (img : Image) : State.launchBad { s with queues := qs, pendingQ := p } l img = s.launchBad l img := by
    simp only [State.launchBad, State.routeAstray, State.routeGoal, State.routeEnd_queues, State.fixRoute_queues]
    rfl
  simp only [State.launchCheck, hb]
  rfl

end

/-! ### Blocked queues are looked at again (R279) -/

/-- The blocked queue is pending if its condition holds. -/
def State.review (s : State) (q : Fin 256) : State := if (s.queue q).qst = .blocked ∧ s.unblocked q then s.pendQueue q else s

/-- The queue is pending, and among those that take the next slots. -/
def State.Listed (s : State) (q : Fin 256) : Prop := (s.queue q).qst = .pending ∧ q ∈ s.pendingQ

theorem State.listed_pendQueue (s : State) (q : Fin 256) : (s.pendQueue q).Listed q := ⟨by rw [State.pendQueue_queue], s.mem_pendQueue q⟩

theorem State.Listed.pendQueue {s : State} {q r : Fin 256} (h : s.Listed q) (hne : q ≠ r) : (s.pendQueue r).Listed q :=
  ⟨(congrArg UserQueue.qst (s.pendQueue_queue_ne r hne)).trans h.1, s.pendingQ_subset_pendQueue r h.2⟩

theorem State.Listed.review {s : State} {q : Fin 256} (h : s.Listed q) (r : Fin 256) : (s.review r).Listed q := by
  unfold State.review
  split
  case isFalse => exact h
  case isTrue hr =>
    exact h.pendQueue fun e => absurd (h.1.symm.trans (e ▸ hr.1)) (by decide)

theorem State.Listed.foldl {s : State} {q : Fin 256} (h : s.Listed q) (l : List (Fin 256)) : (l.foldl State.review s).Listed q := by
  induction l generalizing s with
  | nil => exact h
  | cons r l ih => exact ih (h.review r)

/-- While queues are looked at, a queue stays as it was until its condition is found true. -/
structure State.Reviewed (s : State) (q : Fin 256) (u : State) : Prop where
  same : ∃ qs p, u = { s with queues := qs, pendingQ := p }
  queue : u.queue q = s.queue q ∨ s.unblocked q = true ∧ u.Listed q

namespace State.Reviewed

variable {s u : State} {q : Fin 256}

theorem refl (s : State) (q : Fin 256) : s.Reviewed q s := ⟨⟨s.queues, s.pendingQ, rfl⟩, .inl rfl⟩

/-- A condition reads its own queue, and of the others nothing. -/
theorem unblocked (h : s.Reviewed q u) (hq : u.queue q = s.queue q) : u.unblocked q = s.unblocked q := by
  obtain ⟨⟨qs, p, rfl⟩, -⟩ := h
  simp only [State.unblocked, hq, State.launchCheck_queues]
  rfl

/-- Another queue that joins the pending list, or this one whose condition holds. -/
theorem pendQueue (h : s.Reviewed q u) {r : Fin 256} (hr : r = q → s.unblocked q = true) : s.Reviewed q (u.pendQueue r) := by
  obtain ⟨⟨qs, p, hu⟩, hq⟩ := h
  constructor
  · obtain ⟨l, -, -, he⟩ := u.pendQueue_eq r
    rw [he, hu]
    exact ⟨_, _, rfl⟩
  · by_cases h : q = r
    · subst h
      exact .inr ⟨hr rfl, u.listed_pendQueue q⟩
    · exact hq.imp (u.pendQueue_queue_ne r h).trans fun ⟨hc, hl⟩ => ⟨hc, hl.pendQueue h⟩

theorem review (h : s.Reviewed q u) (r : Fin 256) : s.Reviewed q (u.review r) := by
  unfold State.review
  split
  case isFalse => exact h
  case isTrue hr =>
    refine h.pendQueue fun hrq => ?_
    subst hrq
    obtain hq | ⟨hc, -⟩ := h.queue
    · exact (h.unblocked hq).symm.trans hr.2
    · exact hc

theorem foldl (h : s.Reviewed q u) (l : List (Fin 256)) : s.Reviewed q (l.foldl State.review u) := by
  induction l generalizing u with
  | nil => exact h
  | cons r l ih => exact ih (h.review r)

/-- A blocked queue whose condition holds is pending once it has been looked at. -/
theorem listed (h : s.Reviewed q u) (hb : (s.queue q).qst = .blocked) (hc : s.unblocked q = true) : (u.review q).Listed q := by
  obtain hq | ⟨-, hl⟩ := h.queue
  · rw [State.review, if_pos ⟨hq ▸ hb, (h.unblocked hq).trans hc⟩]
    exact u.listed_pendQueue q
  · exact hl.review q

end State.Reviewed

theorem execBlockedReevaluation_reviews (s : State) (q : Fin 256) : ∃ u, exec .blockedReevaluation s = .next u ∧
    ((s.queue q).qst = .blocked → s.unblocked q = true → (u.queue q).qst = .pending ∧ q ∈ u.pendingQ) ∧
      ((s.queue q).qst = .blocked → s.unblocked q = false → (u.queue q).qst = .blocked) := by
  refine ⟨(s.queues.map fun e => (Fin.ofNat 256 e.1 : Fin 256)).foldl State.review s, rfl, fun hb hc => ?_, fun hb hc => ?_⟩
  · have hk : q.val ∈ s.queues.map Prod.fst :=
      mem_keys_of_alGet_ne (d := UserQueue.reset) fun e => absurd (hb.symm.trans (congrArg UserQueue.qst e)) (by decide)
    have hm : q ∈ s.queues.map fun e => (Fin.ofNat 256 e.1 : Fin 256) := by
      obtain ⟨e, he, hq⟩ := List.mem_map.1 hk
      exact List.mem_map.2 ⟨e, he, by rw [hq]; exact Fin.ofNat_val_eq_self q⟩
    obtain ⟨l₁, l₂, hl⟩ := List.append_of_mem hm
    rw [hl, List.foldl_append, List.foldl_cons]
    exact ((((State.Reviewed.refl s q).foldl l₁).listed hb hc).foldl l₂ :)
  · obtain hq | ⟨hu, -⟩ := ((State.Reviewed.refl s q).foldl (s.queues.map fun e => (Fin.ofNat 256 e.1 : Fin 256))).queue
    · exact (congrArg UserQueue.qst hq).trans hb
    · exact absurd (hc.symm.trans hu) (by decide)

/-- Settles O50: the advances add up, and each blocked queue is looked at by its own condition. -/
theorem timelinesAdvance : Obligations.TimelinesAdvance := by
  unfold Obligations.TimelinesAdvance
  exact fun s t k d q => ⟨execTimelineAdvance_adds s k, execTimelineDelivery_delivers s, execCompletionTimelineAdvance_adds s k,
    execBlockedReevaluation_reviews s q⟩

end Sys2Proof.Machine

/-! ### Send windows that do not read (O23, O31) -/

namespace Sys2Proof.Machine

-- one theorem at a time: many elaborations at once need more stacks than the memory limit holds
set_option Elab.async false

/-- What an outcome's state shows. -/
def Out.shows {α : Type} (o : Out) (f : State → α) : Option α :=
  match o with
  | .next t => some (f t)
  | _ => none

/-- Channel 5 of tile 0 has a credit to spend and one in flight, which returns; the word of its send window does not read. -/
def unreadableWindow : State :=
  State.reset.setTile 0
    { Tile.reset with
      chans := [(5, { Chan.reset with v := true, cr := 1, inf := 1 })], credits := [{ ch := 5, tick := 0 }], upsets := [⟨2, winOff 5 / 4, true⟩] }

/-- A SEND there reserves no credit: it is counted as waiting. -/
theorem unreadableWindow_send :
    Out.shows (exec (.send ⟨5, 0, 0, false⟩) unreadableWindow) (fun t => ((t.curTile.chan 5).rsv, (t.curTile.chan 5).df)) = some (0, 1) := by
  decide +kernel

/-- A credit that returns there is lost. -/
theorem unreadableWindow_creditReturn :
    Out.shows (exec (.creditReturn 0 5) unreadableWindow) (fun t => ((t.tile 0).chan 5).cr) = some 0 := by
  decide +kernel

/-- Refutes O23: its last clause, on what a SEND takes from a window that has credits, does not ask that the window's word reads; one
with an uncorrectable error reads as zero (R204, R308), and a SEND then waits, as `unreadableWindow` shows. -/
theorem not_channelInstructionsQueue : ¬ Obligations.ChannelInstructionsQueue := by
  unfold Obligations.ChannelInstructionsQueue
  rintro ⟨-, takes⟩
  obtain ⟨t, he, -, hrsv, -⟩ := takes unreadableWindow ⟨5, 0, 0, false⟩ (by decide +kernel) nofun (by decide +kernel) (by decide +kernel)
    (by decide +kernel) (by decide +kernel) (by decide +kernel)
  have hs := unreadableWindow_send
  rw [he] at hs
  obtain ⟨h0, -⟩ := Prod.mk.inj (Option.some.inj hs)
  exact absurd (hrsv.symm.trans h0) (by decide +kernel)

/-- Refutes O31: its last clause does not ask that the window's word reads; one with an uncorrectable error reads as zero (R204, R308),
so that no credit is in flight and the returned one is dropped, as `unreadableWindow` shows. -/
theorem not_messagesLeaveAndCreditsReturn : ¬ Obligations.MessagesLeaveAndCreditsReturn := by
  unfold Obligations.MessagesLeaveAndCreditsReturn
  intro h
  obtain ⟨-, -, returns⟩ := h unreadableWindow 0 0 false 0 5
  obtain ⟨t, he, -, hcr, -⟩ := returns { ch := 5, tick := 0 } (by decide +kernel) rfl (by decide +kernel) (by decide +kernel) (by decide +kernel)
  have hs := unreadableWindow_creditReturn
  rw [he] at hs
  exact absurd (hcr.symm.trans (Option.some.inj hs)) (by decide +kernel)

end Sys2Proof.Machine

/-! ### A buffer that overhangs the scratchpad (O51) -/

namespace Sys2Proof.Machine

-- one theorem at a time: many elaborations at once need more stacks than the memory limit holds
set_option Elab.async false

/-- Buffer 0 of tile 0 begins at byte 65,408 and is 32,768 bytes long; its second half is the front, and the byte that this half begins
with, modulo 65,536, holds 5. -/
def overhangingBuffer : State :=
  State.reset.setTile 0
    { Tile.reset with
      bufs := vset Tile.reset.bufs 0 { Buffer.reset with v := true, base := 511, size := 255, fh := true }, spmPrev := [(32640, 5)] }

/-- The front begins beyond the scratchpad, where no byte is. -/
theorem overhangingBuffer_combByte : (overhangingBuffer.tile 0).combByte 65408 = 98176 := by decide +kernel

/-- A read through BAR2 takes the address modulo 65,536. -/
theorem overhangingBuffer_bar2Read : Out.shows (exec (.bar2Read 65408 1) overhangingBuffer) State.bar2 = some (some (some [5])) := by
  decide +kernel

/-- Refutes O51: its clause on reads takes the byte at the address that the front window maps to, which for a buffer that overhangs the
scratchpad lies beyond it; the access takes the address modulo 65,536 (R178), as `overhangingBuffer` shows. -/
theorem not_hostAccesses : ¬ Obligations.HostAccesses := by
  unfold Obligations.HostAccesses
  intro h
  obtain ⟨-, reaches, -⟩ := h overhangingBuffer 65408 0 0 0 0 ⟨0, 0, [], 0, false, none⟩
  obtain ⟨⟨u, he, hbar, -⟩, -⟩ := reaches (by decide +kernel) (by decide +kernel) (by decide +kernel) (by decide +kernel) (by decide +kernel)
    (by decide +kernel) (by decide +kernel) (by decide +kernel) (by decide +kernel) (by decide +kernel) (by decide +kernel) (by decide +kernel)
  have hs := overhangingBuffer_bar2Read
  rw [he] at hs
  have hread : (overhangingBuffer.tile 0).spmPrev.read ((overhangingBuffer.tile 0).combByte 65408) = 0 := by
    rw [overhangingBuffer_combByte]
    decide +kernel
  have h5 : some (some [(overhangingBuffer.tile 0).spmPrev.read ((overhangingBuffer.tile 0).combByte 65408)]) = some (some [5]) :=
    hbar.symm.trans (Option.some.inj hs)
  rw [hread] at h5
  exact absurd h5 (by decide)

end Sys2Proof.Machine

/-! ### The head of the channel queue (O30) -/

namespace Sys2Proof.Machine

-- one theorem at a time: many elaborations at once need more stacks than the memory limit holds
set_option Elab.async false

/-! ### A message under way is as it was once a tile has been put back (R210) -/

theorem any_of_alGet {α : Type} {l : List (Nat × α)} {k : Nat} {d : α} {p : Nat × α → Bool} (hd : p (k, d) = false)
    (h : p (k, alGet l k d) = true) : l.any p = true := by
  induction l with
  | nil => exact absurd (hd.symm.trans h) Bool.false_ne_true
  | cons e l ih =>
    obtain ⟨j, y⟩ := e
    rw [alGet] at h
    split at h
    case isTrue hj => rw [List.any_cons, hj, h, Bool.true_or]
    case isFalse => rw [List.any_cons, ih h, Bool.or_true]

/-- A value set to itself is there once more, or the default is new. -/
theorem any_alSet_alGet {α : Type} {l : List (Nat × α)} {k : Nat} {d : α} {p : Nat × α → Bool} (hd : p (k, d) = false) :
    (alSet l k (alGet l k d)).any p = l.any p := by
  induction l with
  | nil => simp [alSet, alGet, hd]
  | cons e l ih =>
    obtain ⟨j, y⟩ := e
    by_cases hj : j = k
    · simp [alSet, alGet, hj]
    · simp only [alSet, alGet, if_neg hj, if_neg (Ne.symm hj)]
      split
      · rw [List.any_cons, List.any_cons]
        cases h : p (k, alGet l k d) with
        | false => rfl
        | true => rw [any_of_alGet hd h, Bool.or_true, Bool.or_true]
      · rw [List.any_cons, List.any_cons, ih]

section

variable (s : State) (t : TileId)

theorem State.underWay_refreshed (ch : Fin 256) : (s.refreshed t).underWay t ch = s.underWay t ch := by
  unfold State.underWay
  extract_lets mine
  rw [State.tile_refreshed]
  refine congrArg _ (any_alSet_alGet (d := Tile.reset) ?_)
  refine List.any_eq_false.2 fun i _ => ?_
  have hi : Tile.reset.inC[i] = Input.reset := by simp [Tile.reset]
  simp [hi, Input.reset]

theorem State.routeHeld_refreshed (x : Tile) (op : ChOp) : (s.refreshed t).routeHeld t x op = s.routeHeld t x op := by
  cases op <;> simp only [State.routeHeld, State.underWay_refreshed]

/-! ### The head is checked (R271) -/

theorem Tile.entries_clean (x : Tile) (hu : x.upsets = []) (c : Fin 4) (l : List (Nat × Nat)) :
    l.foldl (fun x e => x.noteTable c e.1 e.2) x = x := by
  induction l with
  | nil => rfl
  | cons e l ih => rw [List.foldl_cons, x.noteTable_clean _ _ _ hu, ih]

variable {s t} {q : ChCmd}

/-- A command that may start does, unless its channel's route was rewritten under messages on their way. -/
theorem execChannelQueueStart_start (hq : (s.tile t).chanHead s.now = some q) (hg : q.guard = .yes) (hu : (s.tile t).upsets = [])
    (hc : s.chanCheck t (s.tile t) q = .start) : exec (.channelQueueStart t) s =
      .next (if s.routeHeld t (s.tile t) q.op then s.refreshed t else (s.refreshed t).chanStart t q) := by
  have hr : (s.modTile t fun x => (x.entries q.op).foldl (fun x e => x.noteTable q.ctx e.1 e.2) x) = s.refreshed t := by
    rw [State.modTile, Tile.entries_clean _ hu, State.refreshed]
  have hc' : (s.refreshed t).chanCheck t (s.tile t) q = .start := hc
  show execChannelQueueStart t s = _
  simp only [execChannelQueueStart, hq, hg, QGuard.overflow, hr, State.tile_refreshed, Tile.tableView_clean _ hu, hc',
    State.routeHeld_refreshed]
  split <;> rfl

end

/-! ### Commands that start: what becomes of the tile -/

/-- The tile without a command of its channel queue. -/
def Tile.chLeft (x : Tile) (id : Nat) : Tile := { x with chq := x.chq.filter fun d => d.id != id }

/-- The state in which a tile's channel queue is without a command. -/
def State.chLeft (s : State) (t : TileId) (id : Nat) : State := s.modTile t fun x => x.chLeft id

theorem Tile.chLeft_chq (x : Tile) (id : Nat) : ∀ d ∈ (x.chLeft id).chq, d.id ≠ id := fun d hd => by
  simpa using (List.mem_filter.1 hd).2

/-- A channel is as its entry was set last. -/
theorem Tile.chan_of_alSet {x : Tile} {l : List (Nat × Chan)} {ch : Fin 256} {c : Chan} (h : x.chans = alSet l ch.val c) : x.chan ch = c := by
  rw [Tile.chan, h, alGet_alSet_self]

theorem Tile.setChan_chan (x : Tile) (ch : Fin 256) (f : Chan → Chan) : (x.setChan ch f).chan ch = f (x.chan ch) := alGet_alSet_self ..

theorem Tile.useWindow_clean (x : Tile) (hu : x.upsets = []) (c : Option (Fin 4)) (ch : Fin 256) : x.useWindow c ch = x := by
  have hb : x.badTable (winOff ch.val) 4 = false := by simp [Tile.badTable, x.upsetWords_clean _ _ _ hu]
  unfold Tile.useWindow
  extract_lets u
  rw [if_neg (by rw [hb]; decide)]
  cases c with
  | none => exact x.noteReads_clean 2 _ hu
  | some c => exact x.noteTable_clean c _ _ hu

section

variable (x : Tile) (id : Nat) (b : Bool)

theorem Tile.retire_chq : (x.retire id b).chq = x.chq := (congrArg Tile.chq (x.retire_frame id b) :)
theorem Tile.retire_tx : (x.retire id b).tx = x.tx := (congrArg Tile.tx (x.retire_frame id b) :)
theorem Tile.retire_rings : (x.retire id b).rings = x.rings := (congrArg Tile.rings (x.retire_frame id b) :)
theorem Tile.retire_chan (ch : Fin 256) : (x.retire id b).chan ch = x.chan ch := (congrArg (Tile.chan · ch) (x.retire_frame id b) :)

theorem Tile.tlOut_modCtx {f : Context → Context} (h : ∀ a : Context, (f a).tlOut = a.tlOut) (d c : Fin 4) :
    ((x.modCtx d f).ctx c).tlOut = (x.ctx c).tlOut := by
  by_cases hc : c = d
  · subst hc
    rw [Tile.ctx_modCtx, h]
  · rw [Tile.ctx_modCtx_ne _ _ hc]

theorem Tile.retire_tlOut (c : Fin 4) : ((x.retire id b).ctx c).tlOut = (x.ctx c).tlOut := by
  unfold Tile.retire
  split
  · rfl
  · extract_lets x₁ x₂
    have h₂ : (x₂.ctx c).tlOut = (x.ctx c).tlOut := by
      unfold x₂
      split
      · split
        · exact Tile.tlOut_modCtx x₁ (f := fun y => y.fall _) (fun _ => rfl) ..
        · rfl
      · rfl
    exact (by simp [Tile.ctx] : _ = (x₂.ctx c).tlOut).trans h₂

end

/-! ### Messages (R288, R289, R295) -/

/-- Between two tiles a message of a channel has started: its credit is in flight, and it is queued for transmission. -/
def Tile.Starts (x y : Tile) (id : Nat) (ch : Fin 256) (h : Header) (buf : Option (Fin 32)) (n : Nat) : Prop :=
  (y.chan ch).inf = (x.chan ch).inf + 1 ∧ (y.chan ch).rsv = (x.chan ch).rsv - 1 ∧ ∃ m, y.tx = x.tx ++ [m] ∧ m.id = id ∧
    m.ch = some ch ∧ m.head = h.pack ∧ m.buf = buf ∧ m.len = n ∧ m.size = (if h.kd = 2 then 0 else h.len + 1) ∧ m.sent = 0

/-- The header of a channel's message from a tile (R288). -/
def chanHeader (t : TileId) (ch : Fin 256) : Header :=
  { ch := ch.val, sx := tileX t, sy := tileY t, kd := 0, rop := 0, len := 0, sem := 0, inc := 0, ck := 0, cof := 0 }

theorem Tile.startMsg_clean (x : Tile) (hu : x.upsets = []) (q : ChCmd) (ch : Fin 256) (m : TxMsg) : x.startMsg q ch m =
    { x.setChan ch (fun c => { c with rsv := c.rsv - 1, inf := c.inf + 1, out := c.out ++ [q.ctx], hold := false }) with tx := x.tx ++ [m] } := by
  rw [Tile.startMsg, x.noteTable_clean _ _ _ hu, x.useWindow_clean hu]

theorem Tile.starts_startMsg {x : Tile} (hu : x.upsets = []) (q : ChCmd) (me : TileId) (now : Nat) {ch : Fin 256}
    {kd rop sem inc len size : Nat} {buf : Option (Fin 32)} {fx : Option Byte} (hs : size = if kd = 2 then 0 else size - 1 + 1) :
    x.Starts (x.startMsg q ch (x.tableView.chanMsg me now q ch kd rop sem inc buf len size fx)) q.id ch
      { chanHeader me ch with kd := kd, rop := rop, len := size - 1, sem := sem, inc := inc } buf len := by
  generalize hm : x.tableView.chanMsg me now q ch kd rop sem inc buf len size fx = m
  have hc : (x.startMsg q ch m).chan ch =
      { x.chan ch with rsv := (x.chan ch).rsv - 1, inf := (x.chan ch).inf + 1, out := (x.chan ch).out ++ [q.ctx], hold := false } := by
    rw [Tile.startMsg_clean _ hu]
    exact Tile.chan_of_alSet rfl
  refine ⟨by rw [hc], by rw [hc], m, by rw [Tile.startMsg_clean _ hu], ?_⟩
  subst hm
  exact ⟨rfl, rfl, rfl, rfl, rfl, hs, rfl⟩

/-! ### Each command, as it starts: its tile -/

section

variable {s : State} {t : TileId} {q : ChCmd}

theorem State.chanStart_send {m : MsgOps} (ho : q.op = .send m) : (s.chanStart t q).tile t =
    ((s.tile t).chLeft q.id).startMsg q m.ch (((s.tile t).chLeft q.id).tableView.chanMsg t s.now q m.ch 0 0 0 0 (some m.buf)
      ((s.tile t).chan m.ch).bytes ((s.tile t).chan m.ch).bytes none) := by
  simp only [State.chanStart, ho, ChOp.isColl, Bool.false_eq_true, if_false, State.tile_modTile]
  rfl

theorem State.chanStart_sendr {m : MsgOps} {op : ReduceOp} (ho : q.op = .sendr m op) : ∃ fx, (s.chanStart t q).tile t =
    ((s.tile t).chLeft q.id).startMsg q m.ch (((s.tile t).chLeft q.id).tableView.chanMsg t s.now q m.ch 1 op.code 0 0 (some m.buf)
      ((s.tile t).chan m.ch).bytes (if op = .addFx128 then 4 * ((s.tile t).chan m.ch).bytes else ((s.tile t).chan m.ch).bytes) fx) := by
  simp only [State.chanStart, ho, ChOp.isColl, Bool.false_eq_true, if_false, State.tile_modTile, beq_iff_eq]
  exact ⟨_, rfl⟩

theorem State.chanStart_sig {ch : Fin 256} {sem : Fin 16} {inc : BitVec 8} (ho : q.op = .sig ch sem inc) : (s.chanStart t q).tile t =
    (((s.tile t).chLeft q.id).startMsg q ch (((s.tile t).chLeft q.id).tableView.chanMsg t s.now q ch 2 0 sem.val inc.toNat none
      0 0 none)).retire q.id true := by
  simp only [State.chanStart, ho, ChOp.isColl, Bool.false_eq_true, if_false, State.tile_modTile]
  rfl

theorem State.chanStart_recv {m : MsgOps} (ho : q.op = .recv m) : (s.chanStart t q).tile t =
    ((s.tile t).chLeft q.id).setChan m.ch fun c => { c with arm := c.arm ++ [(m.buf, q.id, q.ctx)] } := by
  simp only [State.chanStart, ho, ChOp.isColl, Bool.false_eq_true, if_false, State.tile_modTile]
  rfl

theorem State.chanStart_rgadv {rg : Fin 8} {n : BitVec 8} (ho : q.op = .rgadv rg n) : (s.chanStart t q).tile t =
    (((s.tile t).chLeft q.id).setRing rg fun r =>
      { r with tail := BitVec.ofNat 8 ((r.tail.toNat + n.toNat) % r.e), cnt := r.cnt + n.setWidth 9 }).retire q.id true := by
  simp only [State.chanStart, ho, ChOp.isColl, Bool.false_eq_true, if_false, State.tile_modTile]
  rfl

theorem State.chanStart_rgpop {rg : Fin 8} {n : BitVec 8} (ho : q.op = .rgpop rg n) : (s.chanStart t q).tile t =
    (((s.tile t).chLeft q.id).setRing rg fun r => r.pop n.toNat).retire q.id true := by
  simp only [State.chanStart, ho, ChOp.isColl, Bool.false_eq_true, if_false, State.tile_modTile]
  rfl

/-! ### TLSIG's advance (R296, R366, R408) -/

theorem State.sendAdvance_tile (s : State) (t : TileId) (c : Fin 4) (tl : Fin 1024) (v : Word) :
    (s.sendAdvance t c tl v).tile t = (s.tile t).modCtx c fun x => { x with tlOut := x.tlOut + 1 } := by
  unfold State.sendAdvance
  extract_lets due a s₁
  split <;> exact s.bump.tile_modCtx t c _

/-- The advance leaves for the queen core; in a firmware gap it waits. -/
theorem State.sendAdvance_leaves (s : State) (t : TileId) (c : Fin 4) (tl : Fin 1024) (v : Word) :
    ∃ due, s.now < due ∧
      (s.fw.gap = false → (s.sendAdvance t c tl v).advances = s.advances ++ [⟨tl, v.setWidth 64, due, some (t, c)⟩]) ∧
      (s.fw.gap = true → (s.sendAdvance t c tl v).advances = s.advances ∧
        (s.sendAdvance t c tl v).fw.inq = s.fw.inq ++ [(some ⟨tl, v.setWidth 64, due, some (t, c)⟩, none)]) := by
  unfold State.sendAdvance
  extract_lets due a s₁
  have hg : s₁.fw = s.fw := rfl
  rw [hg]
  refine ⟨due, ?_, fun h => ?_, fun h => ?_⟩
  · have := Nat.le_max_right (s.lastAdvance t c) (s.now + 1 + Config.advanceLatency s.free % 1024)
    omega
  · rw [if_neg (by rw [h]; decide)]
    rfl
  · rw [if_pos h]
    exact ⟨rfl, rfl⟩

theorem State.chanStart_tlsig {tl : Fin 1024} {v : Word} (ho : q.op = .tlsig tl v) :
    s.chanStart t q = ((s.chLeft t q.id).sendAdvance t q.ctx tl v).modTile t fun x => x.retire q.id true := by
  simp only [State.chanStart, ho, ChOp.isColl, Bool.false_eq_true, if_false]
  rfl

/-! ### Views (R342) -/

theorem State.frame_tiles (s : State) (sw : Fin 256) (relay : Bool) (f : PortFrame) : (s.frame sw relay f).tiles = s.tiles := by
  unfold State.frame
  split
  · split
    · exact (congrArg State.tiles (s.ask_frame _ _) :)
    · unfold State.emit
      split <;> rfl
  · rfl

/-- VWJOIN or VWLEAVE asks the queen core for a view: roster, and from an anchor the frame for its swarm (R342, R333). -/
def State.viewAsked (s : State) (sw : Fin 256) (i : Nat) (join : Bool) : State :=
  let s := s.modSwarm sw.val fun w =>
    if join then { w with roster := w.roster.set i (w.roster.getD i 0 ||| 0x40000000) }
    else { w with leave := w.leave ++ [i] }
  match s.swarm sw with
  | some w => if w.lvl then s.frame sw (s.assisted fnWaggle) (if join then .join sw else .leave sw) else s
  | none => s

theorem State.viewAsked_tile (s : State) (sw : Fin 256) (i : Nat) (join : Bool) (t : TileId) :
    (s.viewAsked sw i join).tile t = s.tile t := by
  refine congrArg (fun l => alGet l t Tile.reset) (?_ : (s.viewAsked sw i join).tiles = s.tiles)
  unfold State.viewAsked
  extract_lets s₁
  split
  · split
    · exact s₁.frame_tiles ..
    · rfl
  · rfl

/-- A tile waits for a view it has asked for. -/
def Tile.awaitView (x : Tile) (id : Nat) (c : Fin 4) (sw : Fin 256) (join : Bool) : Tile :=
  { x with vwWait := x.vwWait ++ [(id, c, sw, join)],
           views := x.views.map fun v => if join && v.v && v.sw == sw then { v with jp := true } else v }

theorem State.viewEffect_waits (s : State) (t : TileId) (q : ChCmd) (sw : Fin 256) (join : Bool) {i : Nat}
    (h : s.viewHead t sw = some (i, !join)) : (s.viewEffect t q sw join).tile t = (s.tile t).awaitView q.id q.ctx sw join := by
  have he : s.viewEffect t q sw join = (s.viewAsked sw i join).modTile t fun x => x.awaitView q.id q.ctx sw join := by
    unfold State.viewEffect
    rw [h]
    dsimp only
    rw [if_neg (by cases join <;> decide)]
    rfl
  rw [he, State.tile_modTile, State.viewAsked_tile]

theorem State.viewEffect_chq (s : State) (t : TileId) (q : ChCmd) (sw : Fin 256) (join : Bool) :
    ((s.viewEffect t q sw join).tile t).chq = (s.tile t).chq := by
  cases h : s.viewHead t sw with
  | none => simp only [State.viewEffect, h]
  | some e =>
    obtain ⟨i, pr⟩ := e
    by_cases hp : pr = join
    · simp only [State.viewEffect, h, if_pos hp, State.tile_modTile, Tile.retire_chq]
    · obtain rfl : pr = !join := by cases pr <;> cases join <;> simp_all
      rw [s.viewEffect_waits t q sw join h]
      rfl

theorem State.chanStart_view {sw : Fin 256} {join : Bool} (ho : q.op = if join then .vwjoin sw else .vwleave sw) :
    s.chanStart t q = (s.chLeft t q.id).viewEffect t q sw join := by
  cases join <;> simp only [Bool.false_eq_true, if_false, if_true] at ho <;>
    simp only [State.chanStart, ho, ChOp.isColl, Bool.false_eq_true, if_false] <;> rfl

end

/-! ### A COLL passes to its sequencer (R299) -/

theorem Tile.viewSlot_of_collCause {x : Tile} {ch : Fin 256} {src : Fin 32} (h : x.collCause ch src = none) :
    ∃ v, x.viewSlot (x.chan ch).sw = some v := by
  unfold Tile.collCause at h
  extract_lets c at h
  split at h
  · cases h
  · split at h
    · cases h
    · exact ⟨_, ‹_›⟩

/-- The one sequencer that satisfies a condition is the one found. -/
theorem find_finRange_unique {p : Fin 4 → Bool} {d : Fin 4} (hd : p d = true) (h : ∀ e, e ≠ d → p e = false) :
    (List.finRange 4).find? p = some d := by
  cases hf : (List.finRange 4).find? p with
  | none => exact absurd hd (List.find?_eq_none.1 hf d (List.mem_finRange d))
  | some e =>
    have he := List.find?_some hf
    by_cases hed : e = d
    · rw [hed]
    · rw [h e hed] at he
      cases he

section

variable (x : Tile) (q : ChCmd) (ch : Fin 256) (src : Fin 32) (now : Nat)

theorem Tile.passColl_clean (hu : x.upsets = []) {v : ViewSlot} (hv : x.viewSlot (x.chan ch).sw = some v) : x.passColl q ch src now =
    (x.setSeq (x.seqDir ch) fun s => { s with runs := s.runs ++ [x.collRun q.id q.ctx ch src v now] }).setChan ch
      fun c => { c with inst := c.inst + 1 } := by
  unfold Tile.passColl
  rw [x.tableView_clean hu]
  dsimp only
  rw [hv]

/-- A sequencer that has taken a COLL which waits for it is no fuller. -/
theorem Tile.seqFull_queued {y : Tile} {d : Fin 4} {r : CollRun} (hr : r.queued = true) (hy : y.seqs[d].runs = x.seqs[d].runs ++ [r]) :
    y.seqFull d = x.seqFull d := by
  unfold Tile.seqFull
  rw [hy, List.filter_append, List.filter_cons_of_neg (by simp [hr]), List.filter_nil, List.append_nil]

/-- A COLL that has just passed its checks is the only one of its number in a queue. -/
theorem Tile.queuedRun_passed {y : Tile} {d : Fin 4} {r : CollRun} (hn : x.queuedRun q.id = none) (hi : r.id = q.id) (hr : r.queued = true)
    (hy : y.seqs[d].runs = x.seqs[d].runs ++ [r]) (hne : ∀ e, e ≠ d → y.seqs[e] = x.seqs[e]) : y.queuedRun q.id = some d := by
  refine find_finRange_unique (by rw [hy]; simp [hi, hr]) fun e he => ?_
  rw [hne e he]
  exact Bool.eq_false_iff.2 (List.find?_eq_none.1 hn e (List.mem_finRange e))

variable {x q}

theorem Tile.acceptColl_full {d : Fin 4} (hd : x.queuedRun q.id = some d) (hf : x.seqFull d = true) : x.acceptColl q.id now = x := by
  rw [Tile.acceptColl, hd]
  exact if_pos hf

theorem Tile.acceptColl_free {d : Fin 4} (hd : x.queuedRun q.id = some d) (hf : x.seqFull d = false) : x.acceptColl q.id now =
    (x.setSeq d fun s => s.setRun q.id fun r => { r with queued := false, accepted := now, last := now }).chLeft q.id := by
  rw [Tile.acceptColl, hd]
  exact if_neg (by rw [hf]; decide)

/-- A COLL takes its entry's instance into its sequencer's queue, and leaves the head when there is a place. -/
theorem Tile.acceptColl_passColl (hu : x.upsets = []) {v : ViewSlot} (hv : x.viewSlot (x.chan ch).sw = some v)
    (hn : x.queuedRun q.id = none) : let y := (x.passColl q ch src now).acceptColl q.id now
    let d := x.seqDir ch
    (y.chan ch).inst = (x.chan ch).inst + 1 ∧
    (∃ r ∈ y.seqs[d].runs, r.id = q.id ∧ r.ch = ch ∧ r.inst = (x.chan ch).inst ∧ r.src = src ∧ r.queued = x.seqFull d) ∧
    (x.seqFull d = true → y.chq = x.chq) ∧ (x.seqFull d = false → ∀ c ∈ y.chq, c.id ≠ q.id) := by
  intro y d
  set r := x.collRun q.id q.ctx ch src v now with hr
  set z := x.passColl q ch src now with hz
  have hp : z = (x.setSeq d fun s => { s with runs := s.runs ++ [r] }).setChan ch fun c => { c with inst := c.inst + 1 } :=
    x.passColl_clean q ch src now hu hv
  have hc : (z.chan ch).inst = (x.chan ch).inst + 1 := by rw [hp, Tile.setChan_chan]; rfl
  have hq : z.chq = x.chq := by rw [hp]; rfl
  have hruns : z.seqs[d].runs = x.seqs[d].runs ++ [r] := by rw [hp]; exact congrArg Seq.runs (vset_self ..)
  have hne : ∀ e, e ≠ d → z.seqs[e] = x.seqs[e] := fun e he => by rw [hp]; exact vset_ne _ _ he
  have hz' : z.queuedRun q.id = some d := x.queuedRun_passed q hn rfl rfl hruns hne
  have hfull : z.seqFull d = x.seqFull d := x.seqFull_queued rfl hruns
  cases hf : x.seqFull d with
  | true =>
    have hy : y = z := Tile.acceptColl_full now hz' (hfull.trans hf)
    rw [hy]
    exact ⟨hc, ⟨r, by rw [hruns]; simp, rfl, rfl, rfl, rfl, rfl⟩, fun _ => hq, nofun⟩
  | false =>
    have hy : y = _ := Tile.acceptColl_free now hz' (hfull.trans hf)
    rw [hy]
    refine ⟨hc, ⟨{ r with queued := false, accepted := now, last := now }, ?_, rfl, rfl, rfl, rfl, rfl⟩, nofun, fun _ => Tile.chLeft_chq _ _⟩
    have hs : ((z.setSeq d fun s => s.setRun q.id fun r => { r with queued := false, accepted := now, last := now }).chLeft q.id).seqs[d].runs =
        z.seqs[d].runs.map fun r => if r.id = q.id then { r with queued := false, accepted := now, last := now } else r :=
      congrArg Seq.runs (vset_self ..)
    rw [hs, hruns]
    exact List.mem_map.2 ⟨r, by simp, if_pos rfl⟩

end

/-! ### What each clause of the statement says, of the state in which a command starts -/

theorem Tile.Starts.retire {x y : Tile} {id : Nat} {ch : Fin 256} {h : Header} {buf : Option (Fin 32)} {n : Nat}
    (hs : x.Starts y id ch h buf n) (k : Nat) (b : Bool) : x.Starts (y.retire k b) id ch h buf n := by
  rw [Tile.Starts, Tile.retire_chan, Tile.retire_tx]
  exact hs

section

variable {s : State} {t : TileId} {q : ChCmd}

theorem State.chanStart_coll {m : MsgOps} (ho : q.op = .coll m) : (s.chanStart t q).tile t =
    (if ((s.tile t).queuedRun q.id).isSome then s.tile t else (s.tile t).passColl q m.ch m.buf s.now).acceptColl q.id s.now := by
  simp only [State.chanStart, ho, ChOp.isColl, if_true, State.tile_modTile]

theorem State.chLeft_tile (s : State) (t : TileId) (id : Nat) : (s.chLeft t id).tile t = (s.tile t).chLeft id := s.tile_modTile ..

theorem State.chanCheck_coll_viewSlot {m : MsgOps} {x : Tile} (hc : s.chanCheck t x q = .start) (ho : q.op = .coll m)
    (hn : x.queuedRun q.id = none) : ∃ v, x.viewSlot (x.chan m.ch).sw = some v := by
  simp only [State.chanCheck, ho, hn] at hc
  split at hc
  · cases hc
  · exact Tile.viewSlot_of_collCause ‹_›

theorem State.chanStart_retires (ho : (∃ ch sem inc, q.op = .sig ch sem inc) ∨ (∃ rg n, q.op = .rgadv rg n ∨ q.op = .rgpop rg n) ∨
    (∃ tl v, q.op = .tlsig tl v)) : ∀ l ∈ ((s.chanStart t q).tile t).live, l.id ≠ q.id := by
  rcases ho with ⟨ch, sem, inc, ho⟩ | ⟨rg, n, ho | ho⟩ | ⟨tl, v, ho⟩
  · rw [State.chanStart_sig ho]; exact Tile.retire_live _ _ _
  · rw [State.chanStart_rgadv ho]; exact Tile.retire_live _ _ _
  · rw [State.chanStart_rgpop ho]; exact Tile.retire_live _ _ _
  · rw [State.chanStart_tlsig ho, State.tile_modTile]; exact Tile.retire_live _ _ _

theorem State.chanStart_advances {tl : Fin 1024} {v : Word} (ho : q.op = .tlsig tl v) :
    ∃ due, s.now < due ∧
      (s.fw.gap = false → (s.chanStart t q).advances = s.advances ++ [⟨tl, v.setWidth 64, due, some (t, q.ctx)⟩]) ∧
      (s.fw.gap = true → (s.chanStart t q).advances = s.advances ∧
        (s.chanStart t q).fw.inq = s.fw.inq ++ [(some ⟨tl, v.setWidth 64, due, some (t, q.ctx)⟩, none)]) := by
  rw [State.chanStart_tlsig ho]
  exact State.sendAdvance_leaves (s.chLeft t q.id) t q.ctx tl v

variable {x : Tile} (hx : s.tile t = x)
include hx

/-- Every command but a COLL leaves the queue as it starts. -/
theorem State.chanStart_leaves (hu : x.upsets = []) (hc : ∀ m, q.op ≠ .coll m) :
    ∀ d ∈ ((s.chanStart t q).tile t).chq, d.id ≠ q.id := by
  subst hx
  have hl : ((s.tile t).chLeft q.id).upsets = [] := hu
  have key : ((s.chanStart t q).tile t).chq = ((s.tile t).chLeft q.id).chq := by
    cases ho : q.op with
    | send m => rw [State.chanStart_send ho, Tile.startMsg_clean _ hl]; rfl
    | sendr m op =>
      obtain ⟨fx, he⟩ := State.chanStart_sendr (s := s) (t := t) ho
      rw [he, Tile.startMsg_clean _ hl]; rfl
    | recv m => rw [State.chanStart_recv ho]; rfl
    | coll m => exact absurd ho (hc m)
    | rgadv rg n => rw [State.chanStart_rgadv ho, Tile.retire_chq]; rfl
    | rgpop rg n => rw [State.chanStart_rgpop ho, Tile.retire_chq]; rfl
    | sig ch sem inc => rw [State.chanStart_sig ho, Tile.retire_chq, Tile.startMsg_clean _ hl]; rfl
    | tlsig tl v => rw [State.chanStart_tlsig ho, State.tile_modTile, Tile.retire_chq, State.sendAdvance_tile, State.chLeft_tile]; rfl
    | vwjoin sw => rw [State.chanStart_view (join := true) ho, State.viewEffect_chq, State.chLeft_tile]
    | vwleave sw => rw [State.chanStart_view (join := false) ho, State.viewEffect_chq, State.chLeft_tile]
  rw [key]
  exact Tile.chLeft_chq _ _

theorem State.chanStart_send_starts {m : MsgOps} (hu : x.upsets = []) (ho : q.op = .send m) :
    x.Starts ((s.chanStart t q).tile t) q.id m.ch { chanHeader t m.ch with len := (x.chan m.ch).bytes - 1 }
      (some m.buf) (x.chan m.ch).bytes := by
  subst hx
  have hb : ((s.tile t).chan m.ch).bytes = if 0 = 2 then 0 else ((s.tile t).chan m.ch).bytes - 1 + 1 := by
    simp [Chan.bytes]; omega
  rw [State.chanStart_send ho]
  exact Tile.starts_startMsg (x := (s.tile t).chLeft q.id) hu q t s.now hb

theorem State.chanStart_sendr_starts {m : MsgOps} {op : ReduceOp} (hu : x.upsets = []) (ho : q.op = .sendr m op) :
    x.Starts ((s.chanStart t q).tile t) q.id m.ch
      { chanHeader t m.ch with kd := 1, rop := op.code,
                               len := (if op = .addFx128 then 4 * (x.chan m.ch).bytes else (x.chan m.ch).bytes) - 1 }
      (some m.buf) (x.chan m.ch).bytes := by
  subst hx
  obtain ⟨fx, he⟩ := State.chanStart_sendr (s := s) (t := t) ho
  rw [he]
  refine Tile.starts_startMsg (x := (s.tile t).chLeft q.id) hu q t s.now ?_
  have hb : 0 < ((s.tile t).chan m.ch).bytes := by simp [Chan.bytes]
  split <;> simp <;> omega

theorem State.chanStart_sig_starts {ch : Fin 256} {sem : Fin 16} {inc : BitVec 8} (hu : x.upsets = [])
    (ho : q.op = .sig ch sem inc) : x.Starts ((s.chanStart t q).tile t) q.id ch
      { chanHeader t ch with kd := 2, sem := sem.val, inc := inc.toNat } none 0 := by
  subst hx
  rw [State.chanStart_sig ho]
  exact (Tile.starts_startMsg (x := (s.tile t).chLeft q.id) hu q t s.now (kd := 2) rfl).retire ..

theorem State.chanStart_coll_accepted {m : MsgOps} {p : Fin 4} (hc : s.chanCheck t x q = .start) (ho : q.op = .coll m)
    (hp : x.queuedRun q.id = some p) : ∀ c ∈ ((s.chanStart t q).tile t).chq, c.id ≠ q.id := by
  subst hx
  have hf : (s.tile t).seqFull p = false := by
    simp only [State.chanCheck, ho, hp] at hc
    split at hc
    · cases hc
    · exact Bool.eq_false_iff.2 ‹_›
  rw [State.chanStart_coll ho, if_pos (by rw [hp]; rfl), Tile.acceptColl_free s.now hp hf]
  exact Tile.chLeft_chq _ _

/-- The view a VWJOIN or VWLEAVE asks for, it waits for. -/
theorem State.chanStart_waits {sw : Fin 256} {join : Bool} {i : Nat} (ho : q.op = if join then .vwjoin sw else .vwleave sw)
    (h : s.viewHead t sw = some (i, !join)) :
    ((s.chanStart t q).tile t).vwWait = x.vwWait ++ [(q.id, q.ctx, sw, join)] := by
  subst hx
  have h' : (s.chLeft t q.id).viewHead t sw = some (i, !join) := h
  rw [State.chanStart_view ho, State.viewEffect_waits _ _ _ _ _ h', State.chLeft_tile]
  rfl

theorem State.chanStart_tlOut {tl : Fin 1024} {v : Word} (ho : q.op = .tlsig tl v) :
    (((s.chanStart t q).tile t).ctx q.ctx).tlOut = (x.ctx q.ctx).tlOut + 1 := by
  subst hx
  rw [State.chanStart_tlsig ho, State.tile_modTile, Tile.retire_tlOut, State.sendAdvance_tile, State.chLeft_tile, Tile.ctx_modCtx]
  rfl

theorem State.chanStart_rgpop_ring {rg : Fin 8} {n : BitVec 8} (ho : q.op = .rgpop rg n) :
    ((s.chanStart t q).tile t).rings[rg] = x.rings[rg].pop n.toNat := by
  subst hx
  rw [State.chanStart_rgpop ho, Tile.retire_rings]
  exact vset_self ..

theorem State.chanStart_rgadv_ring {rg : Fin 8} {n : BitVec 8} (ho : q.op = .rgadv rg n) :
    ((s.chanStart t q).tile t).rings[rg] = { x.rings[rg] with
      tail := BitVec.ofNat 8 ((x.rings[rg].tail.toNat + n.toNat) % x.rings[rg].e),
      cnt := x.rings[rg].cnt + n.setWidth 9 } := by
  subst hx
  rw [State.chanStart_rgadv ho, Tile.retire_rings]
  exact vset_self ..

theorem State.chanStart_arm {m : MsgOps} (ho : q.op = .recv m) :
    (((s.chanStart t q).tile t).chan m.ch).arm = (x.chan m.ch).arm ++ [(m.buf, q.id, q.ctx)] := by
  subst hx
  rw [State.chanStart_recv ho, Tile.setChan_chan]
  rfl

end

/-- Settles O30: a command that may start does as R271 to R299 say, or stays as it is while its old route is under way; each clause
is the one lemma about the command's own start. -/
theorem channelQueueHeadActs : Obligations.ChannelQueueHeadActs := by
  constructor
  · intro s t q x hq hg hu hc hh
    refine ⟨s.refreshed t, ?_, ?_, ?_⟩
    · rw [execChannelQueueStart_start hq hg hu hc, if_pos hh]
    · rw [State.tile_refreshed]
    · rw [State.tile_refreshed]
  · intro s t q x message header hq hg hu hc hh
    have hs : exec (.channelQueueStart t) s = .next ((s.refreshed t).chanStart t q) := by
      rw [execChannelQueueStart_start hq hg hu hc, if_neg (by rw [hh]; decide)]
    have hx : (s.refreshed t).tile t = x := s.tile_refreshed t
    have hc₁ : (s.refreshed t).chanCheck t x q = .start := hc
    refine ⟨(s.refreshed t).chanStart t q, hs, State.chanStart_leaves hx hu, fun m ho => State.chanStart_send_starts hx hu ho,
      fun m op ho => State.chanStart_sendr_starts hx hu ho, ?_, fun m p ho => State.chanStart_coll_accepted hx hc₁ ho, ?_, ?_, ?_,
      State.chanStart_retires, ?_, ?_, fun m ho => State.chanStart_arm hx ho, fun ch sem inc ho => State.chanStart_sig_starts hx hu ho⟩
    · intro m ho hn
      obtain ⟨v, hv⟩ := State.chanCheck_coll_viewSlot hc₁ ho hn
      rw [State.chanStart_coll ho, hx, if_neg (by rw [hn]; decide)]
      exact Tile.acceptColl_passColl m.ch m.buf s.now hu hv hn
    · intro tl v ho
      obtain ⟨due, hd, hgap, hin⟩ := State.chanStart_advances (s := s.refreshed t) (t := t) ho
      exact ⟨due, hd, hgap, hin, State.chanStart_tlOut hx ho⟩
    · intro sw i ho hi
      exact State.chanStart_waits hx (join := true) ho hi
    · intro sw i ho hi
      exact State.chanStart_waits hx (join := false) ho hi
    · intro rg n ho
      rw [State.chanStart_rgpop_ring hx ho]
      exact ⟨rfl, BitVec.toNat_ofNat ..⟩
    · intro rg n ho
      rw [State.chanStart_rgadv_ring hx ho]
      exact ⟨by rw [BitVec.ofNat_toNat], BitVec.toNat_ofNat ..⟩

end Sys2Proof.Machine

/-! ### Chunks at a member and the collectives that end (O34) -/

namespace Sys2Proof.Machine

-- one theorem at a time: many elaborations at once need more stacks than the memory limit holds
set_option Elab.async false

/-! ### The header of a chunk (R302) -/

section

variable (c : Chunk)

theorem Chunk.pack_toNat : c.pack.toNat = c.ch.val + 2 ^ 8 * c.ph.toNat + 2 ^ 9 * c.xf.toNat + 2 ^ 16 * c.vt.toNat +
    2 ^ 32 * c.inst.toNat + 2 ^ 48 * c.sh.toNat + 2 ^ 64 * c.fr.toNat + 2 ^ 80 * c.ne.toNat + 2 ^ 96 * c.eo.toNat := by
  have := c.ph.toNat_lt
  have := c.xf.toNat_lt
  rw [Chunk.pack, BitVec.toNat_ofNat]
  omega

/-- A field of a header is what its number holds from the field's place on. -/
theorem Chunk.pack_field {lo n : Nat} {v : BitVec n} (h : c.pack.toNat / 2 ^ lo % 2 ^ n = v.toNat) : c.pack.extractLsb' lo n = v := by
  rw [extractLsb'_eq_ofNat_div]
  exact BitVec.eq_of_toNat_eq ((BitVec.toNat_ofNat ..).trans h)

theorem Chunk.pack_flag {lo : Nat} {b : Bool} (h : c.pack.toNat / 2 ^ lo % 2 = b.toNat) : c.pack.getLsbD lo = b := by
  rw [← BitVec.testBit_toNat, Nat.testBit_eq_decide_div_mod_eq, h]
  cases b <;> rfl

/-- Where the fields of a header stand. -/
theorem Chunk.pack_bits : c.pack.extractLsb' 0 8 = BitVec.ofNat 8 c.ch.val ∧ c.pack.getLsbD 8 = c.ph ∧ c.pack.getLsbD 9 = c.xf ∧
    c.pack.extractLsb' 10 6 = 0 ∧ c.pack.extractLsb' 16 16 = c.vt ∧ c.pack.extractLsb' 32 16 = c.inst ∧
    c.pack.extractLsb' 48 16 = c.sh ∧ c.pack.extractLsb' 64 16 = c.fr ∧ c.pack.extractLsb' 80 16 = c.ne ∧
    c.pack.extractLsb' 96 16 = c.eo ∧ c.pack.extractLsb' 112 16 = 0 := by
  have hph := c.ph.toNat_lt
  have hxf := c.xf.toNat_lt
  have hp := c.pack_toNat
  refine ⟨c.pack_field ?_, c.pack_flag ?_, c.pack_flag ?_, c.pack_field ?_, c.pack_field ?_, c.pack_field ?_, c.pack_field ?_,
    c.pack_field ?_, c.pack_field ?_, c.pack_field ?_, c.pack_field ?_⟩
  case refine_1 => rw [hp, BitVec.toNat_ofNat]; omega
  case refine_4 => rw [hp]; show _ = 0; omega
  case refine_11 => rw [hp]; show _ = 0; omega
  all_goals rw [hp]; omega

/-- A header read back: its fields, no payload yet. -/
theorem Chunk.unpack_pack : Chunk.unpack c.pack = { c with data := [] } := by
  obtain ⟨-, hph, hxf, -, hvt, hinst, hsh, hfr, hne, heo, -⟩ := c.pack_bits
  have hch : Fin.ofNat 256 (flitField c.pack 0 8) = c.ch := by
    have := c.ph.toNat_lt
    have := c.xf.toNat_lt
    refine Fin.ext ?_
    rw [Fin.val_ofNat, flitField, c.pack_toNat]
    omega
  rw [Chunk.unpack, hch, hph, hxf, hvt, hinst, hsh, hfr, hne, heo]

end

/-! ### A header at the head of an input (R305) -/

section

@[simp] theorem Tile.setInR_inR (x : Tile) (i : Fin 6) (g : Input → Input) : (x.setInR i g).inR[i] = g x.inR[i] := vset_self ..

theorem Tile.count_inR (x : Tile) (k : Fin 10) (n : Nat) : (x.count k n).inR = x.inR := (congrArg Tile.inR (x.count_frame k n) :)

/-- The header of a chunk leaves its FIFO, and the input delivers the chunk. -/
def Tile.takeHeader (x : Tile) (i : Fin 6) (l : List Flit) (c : Chunk) (u : ChunkUse) : Tile :=
  x.setInR i fun n => { n with fifo := l, chunk := some ⟨c, u, 0⟩ }

theorem Tile.takeHeader_input (x : Tile) (i : Fin 6) (l : List Flit) (c : Chunk) (u : ChunkUse) :
    (x.takeHeader i l c u).inR[i] = { x.inR[i] with fifo := l, chunk := some ⟨c, u, 0⟩ } := x.setInR_inR ..

variable {s : State} {t : TileId} {i : Fin 6} {f : Flit} {l : List Flit} (hf : (s.tile t).inR[i].fifo = f :: l)
  (hc : (s.tile t).inR[i].chunk = none) (hff : f.ff = true) (he : emptyRoute f.steer = true) (hm : (s.tile t).mig = none)
include hf hc hff he hm

theorem execChunkArrival_discarded (hu : (s.tile t).chunkUse (Chunk.unpack f.data) = .discarded) : exec (.chunkArrival t i) s =
    .next (s.modTile t fun x => (x.takeHeader i l (Chunk.unpack f.data) .discarded).count vwStale 1) := by
  show execChunkArrival t i s = _
  simp only [execChunkArrival, hf, hc, hff, he, hm, hu, Bool.not_true, Option.isSome_none, Bool.or_self, Bool.false_eq_true, if_false]
  rfl

theorem execChunkArrival_held (hu : (s.tile t).chunkUse (Chunk.unpack f.data) = .held)
    (hh : (s.tile t).holding ((s.tile t).seqDir (Chunk.unpack f.data).ch) < 8) : exec (.chunkArrival t i) s =
    .next (s.modTile t fun x => x.takeHeader i l (Chunk.unpack f.data) .held) := by
  show execChunkArrival t i s = _
  simp only [execChunkArrival, hf, hc, hff, he, hm, hu, Bool.not_true, Option.isSome_none, Bool.or_self, Bool.false_eq_true, if_false,
    if_neg (Nat.not_le.2 hh)]
  rfl

theorem execChunkArrival_used {q : Fin 4} {r : CollRun} (hu : (s.tile t).chunkUse (Chunk.unpack f.data) = .used)
    (hr : (s.tile t).seqOfRun (Chunk.unpack f.data).ch (Chunk.unpack f.data).inst = some (q, r))
    (hs : (s.tile t).chunkStuck q r (Chunk.unpack f.data) = false) : exec (.chunkArrival t i) s = .next (s.modTile t fun x =>
      (x.takeHeader i l (Chunk.unpack f.data) .used).beginChunk q r (Chunk.unpack f.data) (.input i) (s.now + 1)) := by
  show execChunkArrival t i s = _
  simp only [execChunkArrival, hf, hc, hff, he, hm, hu, hr, hs, Bool.not_true, Option.isSome_none, Bool.or_self, Bool.false_eq_true, if_false]
  rfl

end

section

variable (x : Tile) (q : Fin 4) (r : CollRun) (c : Chunk) (src : SeqSrc) (ready : Nat)

theorem Tile.beginChunk_stays (hp : r.passes c = false) : x.beginChunk q r c src ready = x := if_neg (by rw [hp]; decide)

/-- The beginning of a chunk changes its sequencer only. -/
theorem Tile.beginChunk_frame : { x.beginChunk q r c src ready with seqs := x.seqs } = x := by
  unfold Tile.beginChunk
  split <;> rfl

theorem Tile.chunkRoute_normal (hs : r.sends = false) : x.chunkRoute r = x.tableView.route r.rt := if_neg (by rw [hs]; decide)

/-- A chunk that passes on claims the output; its own header follows what the output holds. -/
theorem Tile.beginChunk_passes (hp : r.passes c = true) : (x.beginChunk q r c src ready).seqs[q].writer = some src ∧
    (x.beginChunk q r c src ready).seqs[q].out =
      x.seqs[q].out ++ [⟨ready, r.id, ⟨.r, true, false, (r.outChunk c).pack, x.chunkRoute r, none, none⟩⟩] := by
  rw [Tile.beginChunk, if_pos hp]
  dsimp only [Tile.setSeq]
  rw [vset_self]
  exact ⟨rfl, rfl⟩

/-- The routes as a command reads them (R204). -/
theorem Tile.tableView_routes : x.tableView.routes = if x.upsets.all (fun u => u.mem != 2) then x.routes else
    x.routes.map fun e => if x.badTable (routeOff e.1) 8 then (e.1, 0) else e := apply_ite Tile.routes ..

theorem Tile.tableView_route_takeHeader (i : Fin 6) (l : List Flit) (u : ChunkUse) (k : Fin 256) :
    (x.takeHeader i l c u).tableView.route k = x.tableView.route k := by
  rw [Tile.route, Tile.route, Tile.tableView_routes, Tile.tableView_routes]
  rfl

end

/-- A run that is found by its channel and number does not only send a result (R337). -/
theorem Tile.seqOfRun_sends {x : Tile} {ch : Fin 256} {inst : BitVec 16} {q : Fin 4} {r : CollRun}
    (h : x.seqOfRun ch inst = some (q, r)) : r.sends = false := by
  obtain ⟨p, -, hp⟩ := List.exists_of_findSome?_eq_some h
  obtain ⟨y, hy, he⟩ := Option.map_eq_some_iff.1 hp
  obtain ⟨-, rfl⟩ := Prod.mk.inj he
  have := List.find?_some hy
  simp only [Bool.and_eq_true, Bool.not_eq_true'] at this
  exact this.2

/-- The header of a chunk in use: taken, and passed on where the chunk passes on. -/
theorem Tile.takeHeader_begins {x : Tile} {i : Fin 6} {l : List Flit} {c : Chunk} {q : Fin 4} {r : CollRun} (now : Nat)
    (hd : c.data = []) (hs : r.sends = false) : let y := (x.takeHeader i l c .used).beginChunk q r c (.input i) (now + 1)
    y.inR[i].fifo = l ∧ y.inR[i].chunk = some ⟨c, .used, 0⟩ ∧ y.spm = x.spm ∧ y.err = x.err ∧
      (r.passes c = true → y.seqs[q].writer = some (.input i) ∧
        ∃ g, y.seqs[q].out = x.seqs[q].out ++ [⟨now + 1, r.id, g⟩] ∧ g.ff = true ∧ g.steer = x.tableView.route r.rt ∧
          Chunk.unpack g.data = { c with ph := c.ph || r.ends c, fr := BitVec.ofNat 16 r.rank, vt := r.vt }) ∧
      (r.passes c = false → y.seqs = x.seqs) := by
  intro y
  have hy : { y with seqs := x.seqs } = x.takeHeader i l c .used := Tile.beginChunk_frame ..
  have hi : y.inR[i] = { x.inR[i] with fifo := l, chunk := some ⟨c, .used, 0⟩ } :=
    (congrArg (fun y : Tile => y.inR[i]) hy :).trans (x.takeHeader_input ..)
  refine ⟨by rw [hi], by rw [hi], (congrArg Tile.spm hy :), (congrArg Tile.err hy :), fun hp => ?_,
    fun hp => (congrArg Tile.seqs (Tile.beginChunk_stays _ q r c _ _ hp) :)⟩
  obtain ⟨hw, ho⟩ := (x.takeHeader i l c .used).beginChunk_passes q r c (.input i) (now + 1) hp
  refine ⟨hw, _, ho, rfl, ?_, ?_⟩
  · exact (Tile.chunkRoute_normal _ r hs).trans (x.tableView_route_takeHeader ..)
  · exact (Chunk.unpack_pack _).trans (by rw [CollRun.outChunk, hd])

/-! ### Completion (R306) -/

/-- A completion: the sequencer no longer runs the collective, the ledger is without its command, and the scratchpad stays. -/
theorem execCollectiveComplete_ends {s : State} {t : TileId} {ch : Fin 256} {inst : BitVec 16} {q : Fin 4} {r : CollRun}
    (hr : (s.tile t).seqOfRun ch inst = some (q, r)) (hf : (s.tile t).seqs[q].finished s.now r = true)
    (hm : (s.tile t).mayComplete r = true) : ∃ s', exec (.collectiveComplete t ch inst) s = .next s' ∧
      (∀ y ∈ (s'.tile t).seqs[q].runs, y.id ≠ r.id) ∧ (∀ y ∈ (s'.tile t).live, y.id ≠ r.id) ∧ (s'.tile t).spm = (s.tile t).spm := by
  show ∃ s', execCollectiveComplete t ch inst s = .next s' ∧ _
  simp only [execCollectiveComplete, hr, hf, hm, Bool.and_self, Bool.not_true, Bool.false_eq_true, if_false]
  refine ⟨_, rfl, ?_⟩
  rw [State.tile_modTile]
  refine ⟨fun y hy => ?_, Tile.retire_live _ _ _, ?_⟩
  · rw [(congrArg Tile.seqs (Tile.retire_frame _ r.id true) :)] at hy
    dsimp only [Tile.setSeq] at hy
    rw [vset_self] at hy
    simpa using (List.mem_filter.1 hy).2
  · refine (congrArg Tile.spm (Tile.retire_frame _ r.id true) :).trans ?_
    show ((s.tile t).closeRun r).spm = _
    unfold Tile.closeRun
    split <;> split <;> rfl

/-! ### Layout (R300 to R302) -/

/-- The pieces that a part of some elements is cut into. -/
theorem mem_cutChunks {per f eo left a b : Nat} (hp : 0 < per) (hf : left < f) :
    (a, b) ∈ cutChunks per f eo left ↔ ∃ k, a = eo + per * k ∧ per * k < left ∧ b = min per (left - per * k) := by
  induction f generalizing eo left with
  | zero => omega
  | succ f ih =>
    unfold cutChunks
    split
    case isTrue h => simp [h]
    case isFalse h =>
      rcases Nat.lt_or_ge left per with hl | hl
      · have hnil : cutChunks per f (eo + per) (left - per) = [] := by
          rw [Nat.sub_eq_zero_of_le hl.le]
          cases f <;> simp [cutChunks]
        rw [hnil, List.mem_singleton, Prod.mk.injEq]
        constructor
        · rintro ⟨rfl, rfl⟩
          exact ⟨0, by omega, by omega, by rw [Nat.mul_zero, Nat.sub_zero]⟩
        · rintro ⟨k, rfl, hk, rfl⟩
          obtain rfl : k = 0 := by
            rcases Nat.eq_zero_or_pos k with h0 | h0
            · exact h0
            · have := Nat.le_mul_of_pos_right per h0
              omega
          exact ⟨by omega, by rw [Nat.mul_zero, Nat.sub_zero]⟩
      · rw [List.mem_cons, ih (by omega), Prod.mk.injEq]
        constructor
        · rintro (⟨rfl, rfl⟩ | ⟨k, rfl, hk, rfl⟩)
          · exact ⟨0, by omega, by omega, by rw [Nat.mul_zero, Nat.sub_zero]⟩
          · exact ⟨k + 1, by rw [Nat.mul_succ]; omega, by rw [Nat.mul_succ]; omega, by rw [Nat.mul_succ]; omega⟩
        · rintro ⟨k, rfl, hk, rfl⟩
          cases k with
          | zero => exact .inl ⟨by omega, by rw [Nat.mul_zero, Nat.sub_zero]⟩
          | succ k =>
            rw [Nat.mul_succ] at hk ⊢
            exact .inr ⟨k, by omega, by omega, by omega⟩

section

variable (r : CollRun)

/-- Elements of a chunk at most (R302). -/
def CollRun.most : Nat := if r.xf = true then 32 else 128

/-- A piece of a part of `len` elements, as a chunk carries it: first element and elements. -/
def CollRun.Piece (len eo ne : Nat) : Prop := ∃ k, eo = r.most * k ∧ eo < len ∧ ne = min r.most (len - eo)

theorem CollRun.mem_cut (len eo ne : Nat) : (eo, ne) ∈ r.cut len ↔ r.Piece len eo ne := by
  have hp : 0 < r.most := by unfold CollRun.most; split <;> decide
  refine (mem_cutChunks hp (Nat.lt_succ_self len)).trans (exists_congr fun k => ?_)
  rw [Nat.zero_add]
  constructor
  · rintro ⟨rfl, hk, rfl⟩
    exact ⟨rfl, hk, rfl⟩
  · rintro ⟨rfl, hk, rfl⟩
    exact ⟨rfl, hk, rfl⟩

theorem mem_map_ownChunk {l : List (Nat × Nat)} {ph : Bool} {sh : Nat} {o : OwnChunk} :
    (o ∈ l.map fun c => (⟨ph, sh, c.1, c.2⟩ : OwnChunk)) ↔ o.ph = ph ∧ o.sh = sh ∧ (o.eo, o.ne) ∈ l := by
  rw [List.mem_map]
  constructor
  · rintro ⟨c, hc, rfl⟩
    exact ⟨rfl, rfl, hc⟩
  · rintro ⟨rfl, rfl, hc⟩
    exact ⟨_, hc, rfl⟩

/-- The chunks that a member starts: of a reduction those of the shards whose partial starts here, of a gather or broadcast those of its
own part (R301). -/
theorem CollRun.mem_ownChunks (hh : r.hive = false) (o : OwnChunk) : o ∈ r.ownChunks ↔
    (r.kind < 2 ∧ o.ph = false ∧ o.sh < r.n ∧ r.rank = r.starter o.sh ∧ r.Piece (r.len o.sh) o.eo o.ne) ∨
    (2 ≤ r.kind ∧ (r.kind = 2 ∨ r.rank = r.root) ∧ o.ph = true ∧ o.sh = r.rank ∧ r.Piece r.m o.eo o.ne) := by
  rw [CollRun.ownChunks, if_neg (by rw [hh]; decide)]
  by_cases hk : r.kind < 2
  · rw [if_pos hk, List.mem_flatMap]
    simp only [List.mem_filter, List.mem_range, beq_iff_eq, mem_map_ownChunk, CollRun.mem_cut]
    constructor
    · rintro ⟨j, ⟨hj, hs⟩, hph, rfl, hp⟩
      exact .inl ⟨hk, hph, hj, hs.symm, hp⟩
    · rintro (⟨-, hph, hj, hs, hp⟩ | ⟨h2, -⟩)
      · exact ⟨o.sh, ⟨hj, hs.symm⟩, hph, rfl, hp⟩
      · omega
  · rw [if_neg hk]
    by_cases hr : r.kind = 2 ∨ r.rank = r.root
    · rw [if_pos hr, mem_map_ownChunk, CollRun.mem_cut]
      exact ⟨fun h => .inr ⟨by omega, hr, h⟩, fun h => by rcases h with ⟨h, -⟩ | ⟨-, -, h⟩ <;> [exact absurd h hk; exact h]⟩
    · rw [if_neg hr]
      refine ⟨nofun, fun h => ?_⟩
      rcases h with ⟨h, -⟩ | ⟨-, h, -⟩
      · exact absurd h hk
      · exact absurd h hr

/-- The rank that forms a shard's result: the one before its start. -/
theorem CollRun.holder_eq (hn : 0 < r.n) (j : Nat) : r.holder j = if r.om = 0 then r.n - 1 else j % r.n := by
  unfold CollRun.holder CollRun.starter
  split
  · rw [Nat.zero_add, Nat.mod_eq_of_lt (by omega)]
  · rw [Nat.add_sub_assoc hn, Nat.mod_add_mod, Nat.add_assoc, Nat.add_sub_cancel' hn, Nat.add_mod_right]

theorem CollRun.passes_iff (hh : r.hive = false) (hm : r.mode = .normal) (c : Chunk) : r.passes c = true ↔ r.n ≠ 1 ∧
    (c.ph = true → (r.rank + 1) % r.n ≠ if r.kind < 2 then r.holder c.sh.toNat else if r.kind = 2 then c.sh.toNat else r.root) := by
  unfold CollRun.passes
  extract_lets next
  simp only [hm, hh, Bool.false_or, beq_iff_eq]
  by_cases hn : r.n = 1
  · simp [hn]
  · cases c.ph with
    | false => simp [hn]
    | true =>
      simp only [hn, if_false, Bool.not_true, Bool.false_eq_true, ne_eq, not_false_eq_true, true_and, forall_const]
      split
      · exact bne_iff_ne
      · split <;> exact bne_iff_ne

theorem CollRun.ends_iff (c : Chunk) : r.ends c = true ↔ c.ph = false ∧ r.kind < 2 ∧ r.rank = r.holder c.sh.toNat := by
  simp only [CollRun.ends, Bool.and_eq_true, Bool.not_eq_true', decide_eq_true_eq, beq_iff_eq, and_assoc, eq_comm (a := r.rank)]

end

/-! ### Updates that leave the scratchpad and the place of a shadow half -/

/-- A tile with the scratchpad of another, and with the shadow half of a buffer at the same place. -/
def Tile.SameShadow (x : Tile) (b : Fin 32) (y : Tile) : Prop := y.spm = x.spm ∧ y.bufs[b].shadow = x.bufs[b].shadow

namespace Tile.SameShadow

variable {x y z : Tile} {b : Fin 32}

theorem ite {p : Prop} [Decidable p] (hy : x.SameShadow b y) (hz : x.SameShadow b z) : x.SameShadow b (if p then y else z) := by
  split
  · exact hy
  · exact hz

theorem setBuf {d : Fin 32} {g : Buffer → Buffer} (hg : ∀ c, (g c).shadow = c.shadow) (h : x.SameShadow b y) : x.SameShadow b (y.setBuf d g) := by
  refine ⟨h.1, Eq.trans ?_ h.2⟩
  show (vset y.bufs d (g y.bufs[d]))[b].shadow = _
  rw [vset_get]
  split
  case isTrue hd => rw [hg, hd]
  case isFalse => rfl

theorem count {k : Fin 10} {n : Nat} (h : x.SameShadow b y) : x.SameShadow b (y.count k n) :=
  ⟨(Tile.count_spm ..).trans h.1, (congrArg (fun t : Tile => t.bufs[b].shadow) (y.count_frame k n) :).trans h.2⟩

end Tile.SameShadow

/-! ### Elements in a payload flit (R303) -/

/-- The element of place `i` in a flit that holds words: its low bits, if those before it are words. -/
theorem extractLsb'_packElems {l : List (BitVec 128)} (hl : ∀ x ∈ l, x.toNat < 2 ^ 32) {i : Nat} (hi : i < l.length) (h4 : i < 4) :
    (packElems false l).extractLsb' (32 * i) 32 = l[i].setWidth 32 := by
  induction l generalizing i with
  | nil => simp at hi
  | cons x l ih =>
    have hx : x.toNat < 2 ^ 32 := hl x (by simp)
    have hp : packElems false (x :: l) = packElems false l <<< 32 ||| x := rfl
    refine BitVec.eq_of_getLsbD_eq fun b hb => ?_
    rw [BitVec.getLsbD_extractLsb', hp, BitVec.getLsbD_or, BitVec.getLsbD_shiftLeft, BitVec.getLsbD_setWidth]
    cases i with
    | zero => simp [hb]
    | succ i =>
      have h0 : x.getLsbD (32 * (i + 1) + b) = false := by
        rw [← BitVec.testBit_toNat]
        exact Nat.testBit_lt_two_pow (hx.trans_le (Nat.pow_le_pow_right (by decide) (by omega)))
      have hs := congrArg (BitVec.getLsbD · b) (ih (fun y hy => hl y (List.mem_cons_of_mem _ hy)) (Nat.lt_of_succ_lt_succ hi) (by omega))
      simp only [BitVec.getLsbD_extractLsb', BitVec.getLsbD_setWidth] at hs
      rw [h0, Bool.or_false, List.getElem_cons_succ, ← hs, show 32 * (i + 1) + b - 32 = 32 * i + b by omega]
      have hlt : 32 * (i + 1) + b < 128 := by omega
      have hge : ¬ 32 * (i + 1) + b < 32 := by omega
      simp [hb, hlt, hge]

section

variable (x : Tile) (r : CollRun) (c : Chunk) (k : Nat)

/-- Elements in a payload flit of the collective's partials, and of flit `k` of a chunk. -/
def CollRun.per : Nat := if r.xf = true then 1 else 4
def CollRun.flitLen : Nat := min r.per (c.ne.toNat + 1 - r.per * k)

/-- Where this member's contribution to flit `k` begins, and where the result goes. -/
def Tile.contribAt : Nat :=
  x.bufs[r.src].front + ((if r.kind < 2 then c.sh.toNat * r.m / r.n else 0) + c.eo.toNat + r.per * k) * r.e
def Tile.resultAt : Nat :=
  x.bufs[r.dst].shadow + r.toff +
    ((if r.kind = 0 then c.sh.toNat * r.m / r.n else if r.kind = 2 then c.sh.toNat * r.m else 0) + c.eo.toNat + r.per * k) * r.e

/-- The element of this member's source at an address, as it joins a partial. -/
def Tile.ownElem (a : Nat) : BitVec 128 :=
  let bs := x.spmPrev.readN a r.e
  if r.xf = true ∧ r.e = 4 then (fxOfWord r.win (leWord bs)).1 else BitVec.ofNat 128 (leNat bs)

/-- Element `i` of a flit that came in. -/
def CollRun.cameElem (d : BitVec 128) (i : Nat) : BitVec 128 := if r.xf = true then d else (d.extractLsb' (32 * i) 32).setWidth 128

/-- Element `i` of the flit with this member's contribution, and as the member leaves it. -/
def Tile.sumElem (own : Bool) (d : BitVec 128) (i : Nat) : BitVec 128 :=
  if own = true then x.ownElem r (x.contribAt r c k + i * r.e) else if c.ph = true then r.cameElem d i else
    (reduceElem r.xf r.rop (r.cameElem d i) (x.ownElem r (x.contribAt r c k + i * r.e))).1
def Tile.outElem (own : Bool) (d : BitVec 128) (i : Nat) : BitVec 128 :=
  if r.ends c = true ∧ r.div = true ∧ ¬ (r.xf = true ∧ r.rop = 0) then divElem r.xf r.rop r.n (x.sumElem r c k own d i)
  else x.sumElem r c k own d i

/-- The bytes of a result element. -/
def CollRun.elemBytes (v : BitVec 128) : List Byte :=
  if r.xf = true ∧ r.e = 4 then leBytes 4 (fxWord r.win (if r.div = true then r.n else 1) v).toNat else leBytes r.e v.toNat

/-- Elements that travel as words are words at their ends. -/
theorem CollRun.e_of_not_xf (h : r.xf = false) : r.e = 4 := by
  refine if_neg fun ⟨hk, ho⟩ => ?_
  simp [CollRun.xf, hk, ho] at h

theorem CollRun.length_elemBytes (v : BitVec 128) : (r.elemBytes v).length = r.e := by
  unfold CollRun.elemBytes
  split
  case isTrue h => rw [length_leBytes, h.2]
  case isFalse => exact length_leBytes ..

theorem CollRun.resultBytesOf_eq (l : List (BitVec 128)) : r.resultBytesOf r.xf l = l.flatMap r.elemBytes := rfl

/-! #### The same, of the model -/

variable {x r c k} (hx : c.xf = r.xf) (hm : r.mode = .normal) (hh : r.hive = false) (hk : r.per * k ≤ c.ne.toNat)

include hx in
theorem Chunk.flitCount_eq : c.flitCount k = r.flitLen c k := by
  rw [Chunk.flitCount, hx, Nat.mul_comm]
  rfl

include hm hx in
theorem Tile.contribSpan_eq : x.contribSpan r c k = span (x.contribAt r c k) (r.flitLen c k * r.e) := by
  rw [Tile.contribSpan, hm]
  dsimp only
  rw [Chunk.flitCount_eq hx, hx, Nat.mul_comm k]
  rfl

include hh hx in
theorem Tile.resultSpan_eq : x.resultSpan r c k = span (x.resultAt r c k) (r.flitLen c k * r.e) := by
  have hp : r.place c = (if r.kind = 0 then c.sh.toNat * r.m / r.n else if r.kind = 2 then c.sh.toNat * r.m else 0) + c.eo.toNat := by
    unfold CollRun.place
    rw [hh]
    split <;> simp_all [CollRun.lo]
  rw [Tile.resultSpan, hp, Chunk.flitCount_eq hx, hx, Nat.mul_comm k]
  rfl

include hm hh in
theorem CollRun.writes_iff : r.writes_ c = true ↔ (c.ph = true ∨ r.ends c = true) ∧ (r.kind = 1 → c.sh.toNat = r.rank) := by
  simp [CollRun.writes_, CollRun.writesChunk, CollRun.sends, hm, hh, Classical.or_iff_not_imp_left]

/-- Bytes of a span that does not wrap, read together (R180). -/
theorem Tile.readSpm_span (hu : x.upsets = []) {a n : Nat} (h : a + n ≤ 65536) : x.readSpm (span a n) = x.spmPrev.readN a n := by
  rw [Tile.readSpm_clean _ _ hu]
  refine List.ext_getElem (by simp [Memory.readN_length]) fun i h1 h2 => ?_
  have hi : i < n := by simpa using h1
  rw [Memory.readN_getElem, List.getElem_map]
  simp only [span, List.getElem_map, List.getElem_range, spmAddr]
  congr 1
  omega

include hm hx in
/-- This member's contribution to a flit, element by element. -/
theorem Tile.contribElems_eq (hu : x.upsets = []) (hfit : x.contribAt r c k + r.flitLen c k * r.e ≤ 65536) :
    (x.contribElems r c k).map Prod.fst = (List.range (r.flitLen c k)).map fun i => x.ownElem r (x.contribAt r c k + i * r.e) := by
  unfold Tile.contribElems
  extract_lets bs
  have hbs : bs = x.spmPrev.readN (x.contribAt r c k) (r.flitLen c k * r.e) := by
    rw [← Tile.readSpm_span hu hfit, ← Tile.contribSpan_eq hx hm]
  rw [Chunk.flitCount_eq hx, List.map_map]
  refine List.map_congr_left fun i hi => ?_
  have hi : (i + 1) * r.e ≤ r.flitLen c k * r.e := Nat.mul_le_mul_right _ (List.mem_range.1 hi)
  have he : (bs.drop (i * r.e)).take r.e = x.spmPrev.readN (x.contribAt r c k + i * r.e) r.e := by
    rw [hbs, Memory.readN_slice _ _ (r.flitLen c k * r.e) _ _ (by rwa [Nat.succ_mul] at hi), slice]
  simp only [Function.comp_apply, he, Tile.ownElem, leWord]
  exact apply_ite Prod.fst ..

include hx hk in
/-- The elements of a flit that came in. -/
theorem flitElems_eq (d : BitVec 128) : flitElems c.xf (r.flitLen c k) d = (List.range (r.flitLen c k)).map (r.cameElem d) := by
  rw [hx]
  cases h : r.xf with
  | false => exact List.map_congr_left fun i _ => by simp [CollRun.cameElem, h]
  | true =>
    have hn : r.flitLen c k = 1 := by
      unfold CollRun.flitLen
      simp only [CollRun.per, h, if_true] at hk ⊢
      omega
    rw [hn]
    simp [flitElems, CollRun.cameElem, h]

/-! ### What a payload flit does at a member (R303, R304) -/

/-- The elements of a flit with this member's contribution, as `Tile.processFlit` forms them, each with its saturation. -/
def Tile.joined (x : Tile) (r : CollRun) (own : Bool) (c : Chunk) (k : Nat) (d : BitVec 128) : List (BitVec 128 × Bool) :=
  let el := if r.reads_ own c then x.contribElems r c k else []
  let ins := flitElems c.xf (c.flitCount k) d
  if own then el.map fun e => (e.1, false)
  else if r.reads_ own c then (ins.zip el).map fun e => reduceElem c.xf r.rop e.1 e.2.1
  else ins.map fun e => (e, false)

/-- The elements as the member leaves them: divided where the result is formed. -/
def Tile.outs (x : Tile) (r : CollRun) (own : Bool) (c : Chunk) (k : Nat) (d : BitVec 128) : List (BitVec 128) :=
  (x.joined r own c k d).map fun e => if r.ends c && r.div && !(c.xf && r.rop == 0) then divElem c.xf r.rop r.n e.1 else e.1

theorem Tile.processFlit_snd (x : Tile) (now : Nat) (q : Fin 4) (r : CollRun) (own : Bool) (c : Chunk) (k : Nat) (d : BitVec 128) :
    (x.processFlit now q r own c k d).2 = packElems c.xf (x.outs r own c k d) := rfl

section

variable (own : Bool) (d : BitVec 128) (hu : x.upsets = []) (hfit : x.contribAt r c k + r.flitLen c k * r.e ≤ 65536)
include hx hm hk hu hfit

theorem Tile.joined_eq : (x.joined r own c k d).map Prod.fst = (List.range (r.flitLen c k)).map (x.sumElem r c k own d) := by
  have hel := Tile.contribElems_eq hx hm hu hfit
  have hins := flitElems_eq hx hk d
  unfold Tile.joined Tile.sumElem CollRun.reads_
  rw [Chunk.flitCount_eq hx, hins]
  cases own with
  | true =>
    simp only [Bool.true_or, if_true]
    rw [← hel, List.map_map]
    rfl
  | false =>
    cases hp : c.ph with
    | true => simp [Function.comp_def]
    | false =>
      simp only [Bool.not_false, Bool.or_true, Bool.false_eq_true, if_false, if_true, List.map_map, Function.comp_def]
      have hz (ins : List (BitVec 128)) (el : List (BitVec 128 × Bool)) : (ins.zip el).map (fun e => (reduceElem c.xf r.rop e.1 e.2.1).1) =
          (ins.zip (el.map Prod.fst)).map fun e => (reduceElem c.xf r.rop e.1 e.2).1 := by
        rw [List.zip_map_right, List.map_map]
        rfl
      rw [hz, hel, List.zip_map', List.map_map, hx]
      rfl

theorem Tile.outs_eq : x.outs r own c k d = (List.range (r.flitLen c k)).map (x.outElem r c k own d) := by
  have hd (v : BitVec 128) : (if r.ends c && r.div && !(c.xf && r.rop == 0) then divElem c.xf r.rop r.n v else v) =
      if r.ends c = true ∧ r.div = true ∧ ¬ (r.xf = true ∧ r.rop = 0) then divElem r.xf r.rop r.n v else v := by
    simp only [hx, Bool.and_eq_true, Bool.not_eq_true', and_assoc, Bool.and_eq_false_imp, not_and, beq_eq_false_iff_ne]
  have hj := congrArg (List.map fun v => if r.ends c && r.div && !(c.xf && r.rop == 0) then divElem c.xf r.rop r.n v else v)
    (Tile.joined_eq hx hm hk own d hu hfit)
  rw [List.map_map, List.map_map] at hj
  exact hj.trans (List.map_congr_left fun i _ => hd _)

end

include hx hh in
/-- The scratchpad takes the bytes of the elements where the member writes them, and no others. -/
theorem Tile.processFlit_spm (now : Nat) (q : Fin 4) (own : Bool) (d : BitVec 128) (hu : x.upsets = [])
    (hlen : (x.outs r own c k d).length = r.flitLen c k) (hfit : x.resultAt r c k + r.flitLen c k * r.e ≤ 65536) :
    (x.processFlit now q r own c k d).1.spm =
      if r.writes_ c = true then x.spm.writeN (x.resultAt r c k) ((x.outs r own c k d).flatMap r.elemBytes) else x.spm := by
  have hbytes : r.resultBytesOf c.xf (x.outs r own c k d) = (x.outs r own c k d).flatMap r.elemBytes := by rw [hx, r.resultBytesOf_eq]
  have hl : ((x.outs r own c k d).flatMap r.elemBytes).length = r.flitLen c k * r.e := by
    rw [List.length_flatMap, funext fun v => r.length_elemBytes v, List.map_const', List.sum_replicate, hlen, smul_eq_mul]
  -- reads, counters and the buffer's begun write leave the bytes and the place of the result
  have key {y : Tile} (h : x.SameShadow r.dst y) : (y.writeSpm ((y.resultSpan r c k).zip (r.resultBytesOf c.xf (x.outs r own c k d)))).spm =
      x.spm.writeN (x.resultAt r c k) ((x.outs r own c k d).flatMap r.elemBytes) := by
    have hr : y.resultAt r c k = x.resultAt r c k := by rw [Tile.resultAt, h.2]; rfl
    rw [Tile.resultSpan_eq hx hh, hbytes, ← hl, Tile.writeSpm_span _ (by rw [hr, hl]; exact hfit), h.1, hr]
  unfold Tile.processFlit
  extract_lets n rd wr el ins joined fin outs sat t₁ t₂ t₃ left base t₄ t₅ t₆
  have h₁ : x.SameShadow r.dst t₁ := .ite (by rw [x.countReads_clean _ _ _ hu]; exact ⟨rfl, rfl⟩) ⟨rfl, rfl⟩
  have h₂ : x.SameShadow r.dst t₂ := .ite (.setBuf (fun _ => rfl) h₁) h₁
  have h₃ : x.SameShadow r.dst t₃ := .ite h₂ (.count h₂)
  have h₄ : x.SameShadow r.dst t₄ := .ite h₃ (.setBuf (fun _ => rfl) h₃)
  have h₅ : t₅.spm = x.spm.writeN (x.resultAt r c k) ((x.outs r own c k d).flatMap r.elemBytes) := key h₄
  show t₆.spm = _
  unfold t₆
  by_cases hw : r.writes_ c = true
  · rw [if_pos hw, if_pos hw, Tile.setBufIf_spm]
    exact h₅
  · rw [if_neg hw, if_neg hw]
    exact h₃.1

/-- An element that travels as a word is a word. -/
theorem Tile.outElem_lt (hn : r.xf = false) (own : Bool) (d : BitVec 128) (i : Nat) : (x.outElem r c k own d i).toNat < 2 ^ 32 := by
  have hword (w : Word) : (w.setWidth 128).toNat < 2 ^ 32 := by
    rw [BitVec.toNat_setWidth, Nat.mod_eq_of_lt (by omega)]
    exact w.isLt
  have hown (a : Nat) : (x.ownElem r a).toNat < 2 ^ 32 := by
    have hb := leNat_lt (x.spmPrev.readN a r.e)
    rw [Memory.readN_length, r.e_of_not_xf hn] at hb
    unfold Tile.ownElem
    simp only [hn, Bool.false_eq_true, false_and, if_false, r.e_of_not_xf hn, BitVec.toNat_ofNat]
    omega
  have hsum : (x.sumElem r c k own d i).toNat < 2 ^ 32 := by
    unfold Tile.sumElem CollRun.cameElem reduceElem
    simp only [hn, Bool.false_eq_true, if_false]
    split
    · exact hown _
    · split <;> exact hword _
  unfold Tile.outElem divElem
  simp only [hn, Bool.false_eq_true, if_false]
  split
  · exact hword _
  · exact hsum

/-- The bytes of elements of one size, written together: each reads back. -/
theorem Memory.read_writeN_flatMap {m : Memory} (hm : m.wf = true) (a : Nat) {e n i b : Nat} (g : Nat → List Byte)
    (hg : ∀ j, (g j).length = e) (hi : i < n) (hb : b < e) :
    (m.writeN a ((List.range n).flatMap g)).read (a + i * e + b) = (g i).getD b 0 := by
  have hb' : b < (g i).length := (hg i).symm ▸ hb
  have he := getElem?_flatMap_const (List.range n) g e i b hg hb
  rw [List.getElem?_range hi, Option.bind_some, List.getElem?_eq_getElem hb'] at he
  obtain ⟨hlt, hval⟩ := List.getElem?_eq_some_iff.1 he
  rw [Nat.add_assoc, Nat.mul_comm i, Memory.read_writeN_in _ _ _ hm hlt, hval]
  exact (List.getD_eq_getElem ..).symm

include hx hm hh hk in
/-- One payload flit at a member: what goes on, and the bytes of the destination. -/
theorem Tile.processFlit_does (now : Nat) (q : Fin 4) (own : Bool) (d : BitVec 128) (hu : x.upsets = []) (hw : x.spm.wf = true)
    (hfit : x.contribAt r c k + r.flitLen c k * r.e ≤ 65536) (hres : x.resultAt r c k + r.flitLen c k * r.e ≤ 65536) :
    let y := x.processFlit now q r own c k d
    let writes : Prop := (c.ph = true ∨ r.ends c = true) ∧ (r.kind = 1 → c.sh.toNat = r.rank)
    (∀ i, i < r.flitLen c k → if r.xf = true then y.2 = x.outElem r c k own d i else
      y.2.extractLsb' (32 * i) 32 = (x.outElem r c k own d i).setWidth 32) ∧
    (writes → (∀ i b, i < r.flitLen c k → b < r.e →
        y.1.spm.read (x.resultAt r c k + i * r.e + b) = (r.elemBytes (x.outElem r c k own d i)).getD b 0) ∧
      ∀ a, (a < x.resultAt r c k ∨ x.resultAt r c k + r.flitLen c k * r.e ≤ a) → y.1.spm.read a = x.spm.read a) ∧
    (¬ writes → y.1.spm = x.spm) := by
  intro y writes
  have houts := Tile.outs_eq hx hm hk own d hu hfit
  have hspm := Tile.processFlit_spm hx hh now q own d hu (by rw [houts, List.length_map, List.length_range]) hres
  have hwr : r.writes_ c = true ↔ writes := CollRun.writes_iff hm hh
  rw [houts, List.flatMap_map] at hspm
  refine ⟨fun i hi => ?_, fun h => ?_, fun h => hspm.trans (if_neg (mt hwr.1 h))⟩
  · have hy : y.2 = packElems r.xf ((List.range (r.flitLen c k)).map (x.outElem r c k own d)) := by
      rw [← houts, ← hx]
      exact x.processFlit_snd ..
    cases hxf : r.xf with
    | true => 
      obtain ⟨hn, rfl⟩ : r.flitLen c k = 1 ∧ i = 0 := by
        simp only [CollRun.flitLen, CollRun.per, hxf, if_true] at hi hk ⊢
        omega
      simp only [if_true]
      rw [hy, hn, hxf]
      rfl
    | false =>
      have h4 : i < 4 := by
        simp only [CollRun.flitLen, CollRun.per, hxf, Bool.false_eq_true, if_false] at hi
        omega
      simp only [Bool.false_eq_true, if_false]
      rw [hy, hxf, extractLsb'_packElems _ (by simpa using hi) h4, List.getElem_map, List.getElem_range]
      intro v hv
      obtain ⟨j, -, rfl⟩ := List.mem_map.1 hv
      exact Tile.outElem_lt hxf own d j
  · rw [if_pos (hwr.2 h)] at hspm
    refine ⟨fun i b hi hb => ?_, fun a ha => ?_⟩
    · rw [hspm]
      exact Memory.read_writeN_flatMap hw _ _ (fun j => r.length_elemBytes _) hi hb
    · rw [hspm]
      refine Memory.read_writeN_out _ _ _ hw ?_
      rwa [List.length_flatMap, funext fun j => r.length_elemBytes (x.outElem r c k own d j), List.map_const', List.sum_replicate,
        List.length_range, smul_eq_mul]

end

/-! ### The obligation -/

/-- Settles O34: each clause is the one lemma about what it speaks of: a header at an input, a completion, the bits of a header, the layout
of a collective, a payload flit at a member. -/
theorem collectiveEvents : Obligations.CollectiveEvents := by
  intro s t i f l ch inst x
  refine ⟨fun hf hc hff he hm hu => ?_, fun q r hf hc hff he hm => ⟨fun hu hr hs => ?_, fun hu hh => ?_⟩,
    fun q r hr hfin hmay => execCollectiveComplete_ends hr hfin hmay, Chunk.pack_bits, fun r c o hh hn => ?_, ?_⟩
  · refine ⟨_, execChunkArrival_discarded hf hc hff he hm hu, ?_⟩
    rw [State.tile_modTile]
    have hi := x.takeHeader_input i l (Chunk.unpack f.data) .discarded
    rw [Tile.count_inR]
    exact ⟨congrArg Input.fifo hi, congrArg (fun n : Input => n.chunk.isSome) hi, (x.takeHeader i l _ _).count_err vwStale 1⟩
  · refine ⟨_, execChunkArrival_used hf hc hff he hm hu hr hs, ?_⟩
    rw [State.tile_modTile]
    exact Tile.takeHeader_begins s.now rfl (Tile.seqOfRun_sends hr)
  · refine ⟨_, execChunkArrival_held hf hc hff he hm hu hh, ?_⟩
    rw [State.tile_modTile]
    have hi := x.takeHeader_input i l (Chunk.unpack f.data) .held
    exact ⟨congrArg Input.fifo hi, congrArg Input.chunk hi, rfl, rfl⟩
  · refine ⟨r.mem_ownChunks hh o, fun hm => ?_, ?_⟩
    · rw [r.passes_iff hh hm, r.holder_eq hn]
    · rw [r.ends_iff, r.holder_eq hn]
  · intro x now q r own c k d per n e j here there hx hm hh hk hu hw hfit hres
    exact Tile.processFlit_does hx hm hh hk now q own d hu hw hfit hres

end Sys2Proof.Machine
